-- ==== Sys2Proof/Word.lean ====
section
/-! DEFINITION. The words of Rosura 64: bytes, registers, granules and sectors (R9, R207, R275). -/

namespace Sys2Proof

/-- One byte; also one RS(19,16) symbol (R275). -/
abbrev Byte := BitVec 8

/-- One 32-bit register word (R401). -/
abbrev Word := BitVec 32

/-- One granule: 128 data bits in [127:0] and 24 check bits in [151:128] (R275). -/
abbrev Granule := BitVec 152

/-- One sector of 32 bytes as two granules: 2s and 2s + 1 (R207). -/
structure Sector where
  g0 : Granule
  g1 : Granule
  deriving DecidableEq, Repr, Inhabited

/-- Bits [lo + w - 1 : lo] of a word, as a word of width `w`. -/
abbrev field {n : Nat} (x : BitVec n) (lo w : Nat) : BitVec w := x.extractLsb' lo w

/-- Bits [lo + w - 1 : lo] of a word, as a number. -/
abbrev fieldNat {n : Nat} (x : BitVec n) (lo w : Nat) : Nat := (x.extractLsb' lo w).toNat

end Sys2Proof
end

