-- ==== Sys2Proof/Syntax.lean ====
section
/-! DEFINITION. The commands of the block: one constructor per row of spec/opcode_table.json, with the
operands that its step takes from outside. Requests carry a request header (Table 2-2) and the write-data
beats that arrive with it; events carry what the environment decides (a reading, a domain, a place, the RPL_STALL input
in the cycle of a reply beat, and what the wires and the sideband add to what is sent over them: `err` and `noise`, zero
where they add nothing). -/

namespace Sys2Proof

/-- The four classes, coded 00 LC, 01 RT, 10 BL, 11 MT (Table 2-2). -/
inductive Cls where
  | lc | rt | bl | mt
  deriving DecidableEq, Repr, Inhabited

/-- A request header (Table 2-2) less its OPCODE, which the row names. -/
structure Hdr where
  src : BitVec 10
  tag : BitVec 12
  cls : Cls
  priv : BitVec 2
  tenant : BitVec 12
  deadline : BitVec 24
  addr : BitVec 40
  len : BitVec 7
  flags : Byte
  deriving DecidableEq, Repr, Inhabited

/-- One write-data beat: four granules, WD_MASK and WD_LAST (Table 2-1). -/
structure Beat where
  g0 : Granule
  g1 : Granule
  g2 : Granule
  g3 : Granule
  mask : BitVec 64
  last : Bool
  deriving DecidableEq, Repr, Inhabited

/-- What a PMBus transaction ends with (R321, Table 12-6). -/
inductive PmbEnd where
  | vin (mv : BitVec 16)
  | iin (ma : BitVec 16)
  | iout (x10ma : BitVec 16)
  | temp (c16 : BitVec 16)
  | status (w : BitVec 16)
  | write
  | fail
  deriving DecidableEq, Repr, Inhabited

/-- What an AVSBus frame ends with (R322). -/
inductive AvsEnd where
  | voltage (mv : BitVec 16)
  | current (x10ma : BitVec 16)
  | written
  | status
  | fail
  deriving DecidableEq, Repr, Inhabited

/-- Result of an in-service memory test (Table 14-15, TEST_MBIST_STAT.RESULT). -/
inductive MbistEnd where
  | pass | repaired | fail
  deriving DecidableEq, Repr, Inhabited

/-- What a boot step ends with (Table 13-8): success, or its failure where the table names one. -/
inductive BootEnd where
  | ok
  | fail (detail : Word)
  deriving DecidableEq, Repr, Inhabited

/-- Which continuous health test of SP 800-90B failed (R411, Table 16-7). -/
inductive HealthTest where
  | rct | apt
  deriving DecidableEq, Repr, Inhabited

/-- A row of Table 14-2, the source of a fault (R356). -/
inductive FaultSource where
  | sramUe | state | progress | alert | overrun | fabric | lock | forced | pll | escalated
  deriving DecidableEq, Repr, Inhabited

/-- Where in its unit a fault of an OCT page arises: the Crown or slicer, or the dispatcher (R357). -/
inductive FaultPart where
  | unit | dispatcher
  deriving DecidableEq, Repr, Inhabited

/-- A port in the cycle of a reply beat, with RPL_STALL in that cycle (R34). -/
structure ReplyTurn where
  port : Fin 16
  stall : Bool
  deriving DecidableEq, Repr, Inhabited

/-- A channel's row wires, with the bits of a codeword's 64 that change on the way (R210, R211). -/
structure RowWires where
  ch : Fin 64
  err : BitVec 64
  deriving DecidableEq, Repr, Inhabited

/-- A channel's column wires, with the bits of a codeword's 48 that change on the way (R210, R211). -/
structure ColWires where
  ch : Fin 64
  err : BitVec 48
  deriving DecidableEq, Repr, Inhabited

/-- A channel's read wires, with the bits of a burst that change on the way, both spares included (R207, R213). -/
structure ReadWires where
  ch : Fin 64
  noise : BitVec 320
  deriving DecidableEq, Repr, Inhabited

/-- The sector of a write burst, with the bits of the burst that change on the way (R207, R213). -/
structure WriteData where
  data : Sector
  noise : BitVec 320
  deriving DecidableEq, Repr, Inhabited

/-- The address of a sideband frame, with the bits of the frame that change on the way (R220, R221). -/
structure SbPlace where
  addr : BitVec 24
  noise : BitVec 584
  deriving DecidableEq, Repr, Inhabited

/-- What the dwell of a scan position has shown: a mismatch, and the PRBS7 mismatches that the stack met in slots without a
write burst (R244, R245). -/
structure DwellSeen where
  mismatch : Bool
  prbs : Nat
  deriving DecidableEq, Repr, Inhabited

/-- The commands: the rows of spec/opcode_table.json, in the table's order. Channels are `Fin 64`, ports
`Fin 16`, octants `Fin 8`, calibration engines `Fin 4`, banks `Fin 16`, bank halves `Fin 2`. -/
inductive Instr where
  -- request ports (02)
  | headerWithoutCredit (p : Fin 16) (opc : Byte) (h : Hdr) (aux : Word) (bs : List Beat)
  | beatWithoutCredit (p : Fin 16) (b : Beat)
  | writeDataBeat (p : Fin 16) (b : Beat)
  | reservedOpcode (p : Fin 16) (opc : Byte) (h : Hdr) (aux : Word) (bs : List Beat)
  | rd (p : Fin 16) (h : Hdr)
  | wr (p : Fin 16) (h : Hdr) (bs : List Beat)
  | wrp (p : Fin 16) (h : Hdr) (bs : List Beat)
  | atAdd (p : Fin 16) (h : Hdr) (aux : Word) (bs : List Beat)
  | atMin (p : Fin 16) (h : Hdr) (aux : Word) (bs : List Beat)
  | atMax (p : Fin 16) (h : Hdr) (aux : Word) (bs : List Beat)
  | atAnd (p : Fin 16) (h : Hdr) (aux : Word) (bs : List Beat)
  | atOr (p : Fin 16) (h : Hdr) (aux : Word) (bs : List Beat)
  | atXor (p : Fin 16) (h : Hdr) (aux : Word) (bs : List Beat)
  | atSwap (p : Fin 16) (h : Hdr) (aux : Word) (bs : List Beat)
  | atCas (p : Fin 16) (h : Hdr) (aux : Word) (bs : List Beat)
  | rdw (p : Fin 16) (h : Hdr) (aux : Word) (bs : List Beat)
  -- Vyolo operations (06)
  | sopDotRowsplit (p : Fin 16) (h : Hdr) (bs : List Beat)
  | sopDotKsplit (p : Fin 16) (h : Hdr) (bs : List Beat)
  | sopAttn (p : Fin 16) (h : Hdr) (bs : List Beat)
  | sopGather (p : Fin 16) (h : Hdr) (bs : List Beat)
  | sopScatterAdd (p : Fin 16) (h : Hdr) (bs : List Beat)
  | sopSetxIntersect (p : Fin 16) (h : Hdr) (bs : List Beat)
  | sopSetxUnion (p : Fin 16) (h : Hdr) (bs : List Beat)
  | sopSetxDiff (p : Fin 16) (h : Hdr) (bs : List Beat)
  | sopExpand (p : Fin 16) (h : Hdr) (bs : List Beat)
  | sopFilter (p : Fin 16) (h : Hdr) (bs : List Beat)
  | sopCopyResident (p : Fin 16) (h : Hdr) (bs : List Beat)
  | sopCopyStriped (p : Fin 16) (h : Hdr) (bs : List Beat)
  | sopCopyFromCrown (p : Fin 16) (h : Hdr) (bs : List Beat)
  | sopFill (p : Fin 16) (h : Hdr) (bs : List Beat)
  | bcast (p : Fin 16) (h : Hdr) (bs : List Beat)
  -- ordering, handles, configuration (02, 03)
  | fence (p : Fin 16) (h : Hdr)
  | fenceRelease (p : Fin 16) (src : BitVec 10) (tag : BitVec 12)
  | hcmt (p : Fin 16) (h : Hdr) (aux : Word)
  | hrbk (p : Fin 16) (h : Hdr)
  | hrel (p : Fin 16) (h : Hdr)
  | handleCmdTakesEffect (p : Fin 16) (src : BitVec 10) (tag : BitVec 12)
  | cfgRd (p : Fin 16) (h : Hdr)
  | cfgWr (p : Fin 16) (h : Hdr) (bs : List Beat)
  | gatedPortStub (p : Fin 16) (opc : Byte) (h : Hdr) (bs : List Beat)
  -- admission and replies (02)
  | admissionStep5Pass (p : Fin 16)
  | portTimeoutExpiry (p : Fin 16) (src : BitVec 10) (tag : BitVec 12)
  | replyBeatSend (p : ReplyTurn)
  | sampleSelect
  -- gates, scheduler, Liner (04, 05, 10, 11)
  | requesterQueueToCmdq (c : Fin 64)
  | gateSlotDecision (c : Fin 64)
  | windowStart
  | schedCommandSlot (c : Fin 64)
  | bankHalfTimingExpiry (c : Fin 64) (b : Fin 16) (h : Fin 2)
  | refreshDue (c : Fin 64) (b : Fin 16)
  | sliceResume (c : Fin 64) (b : Fin 16)
  | readBurstArrival (c : ReadWires)
  | vaultReconstructionDone (c : Fin 64)
  | verifyReadResult (c : Fin 64)
  | linerAgeExpiry (c : Fin 64)
  | linerEvictionReadReturn (c : Fin 64)
  | linerEntryJoinCmdq (c : Fin 64)
  -- slices, Crowns, operations (06, 07)
  | sliceQueueTake (c : Fin 64)
  | vectorCopyStart (d : BitVec 8) (c : Fin 64)
  | sliceStart (c : Fin 64)
  | sliceStatusPoll (c : Fin 64) (ctx : Fin 2)
  | sliceDone (c : Fin 64) (ctx : Fin 2)
  | sliceOverrun (c : Fin 64) (ctx : Fin 2)
  | partialArrival (c : Fin 64)
  | fabricTransferArrival (d : BitVec 8) (k : Fin 8)
  | crownItemTake (k : Fin 8)
  | crownLockTake (k : Fin 8)
  | crownReadReturn (k : Fin 8)
  | crownWriteVisible (k : Fin 8)
  | operationResultDelivery (d : BitVec 8)
  | heldDrainStart (k : Fin 8)
  -- scrub and repair (11)
  | patrolVisit (c : Fin 64)
  | repairSequenceStart
  | remapActivate
  | chEccInjArm (p : Fin 16) (h : Hdr) (c : Fin 64) (v : Word)
  -- calibration (09)
  | calStepBoundary (n : Fin 4)
  | sweepTakeOver (n : Fin 4)
  | scanPositionDwellEnd (n : Fin 4) (bursts : Nat) (seen : DwellSeen)
  | sweepReturn (n : Fin 4)
  | sweepRelease (n : Fin 4) (bursts : Nat) (mismatch : Bool)
  | sweepEnd (n : Fin 4)
  | srLnErrReading (n : Fin 4) (count : Word)
  | calForce (p : Fin 16) (h : Hdr) (n : Fin 4) (v : Word)
  -- temperature and power (12)
  | thmSlotMeasurement (reading : Option (BitVec 16))
  | tripSelfRefreshEntry
  | roundBoundary
  | tripResume
  | brimBudgetExhausted
  | pmbusTransactionDone (r : PmbEnd)
  | pmbAlert
  | avsFrameDone (r : AvsEnd)
  | stkPgoodRise
  | pgoodTimeout
  | stkResetRelease
  | stkPgoodFall
  -- power-down and frequency points (10)
  | powerdownEntry (c : Fin 64)
  | powerdownExit (c : Fin 64)
  | hkFreqRequest (p : Fin 16) (h : Hdr) (v : Word)
  | freqChangeStart
  | freqDrainDone
  | freqChangeResume
  -- clocks, reset, boot (13)
  | coldReset
  | blkResetWarm (p : Fin 16) (h : Hdr) (v : Word)
  | warmReset
  | bootStepComplete (r : BootEnd)
  | refclkWindowEnd (count : Nat)
  | refclkLoss
  | pllLock
  | pllLockTimeout
  | pllClockLoss (outputStopped refclkPresent : Bool)
  | forcedSwitch (d : Fin 100)
  | timeSyncEdge
  | blkTimeLoRead (p : Fin 16) (h : Hdr)
  | clkGateWrite (p : Fin 16) (h : Hdr) (j : Fin 4) (v : Word)
  | gateClockStop (d : Fin 100)
  | clkFmeasGo (p : Fin 16) (h : Hdr) (v : Word)
  | fmeasComplete (count : Word) (stopped : Bool)
  -- faults, log, counters (14, 15)
  | faultDetected (page : Fin 128) (src : FaultSource) (part : FaultPart)
  | progressTimerExpiry (page : Fin 128) (part : FaultPart)
  | recoveryComplete (page : Fin 128)
  | logRd (p : Fin 16) (h : Hdr) (v : Word)
  | logMark (p : Fin 16) (h : Hdr) (v : Word)
  | pmuCfgSet (p : Fin 16) (h : Hdr) (v : Word)
  | pmuCntLoRead (p : Fin 16) (h : Hdr) (i : Fin 368)
  | pmuCntHiWrite (p : Fin 16) (h : Hdr) (i : Fin 368) (v : Word)
  | pmuCntLoWrite (p : Fin 16) (h : Hdr) (i : Fin 368) (v : Word)
  | counterAtMax (i : Fin 368)
  | pmuSmpRd (p : Fin 16) (h : Hdr) (v : Word)
  | pmuSmpClr (p : Fin 16) (h : Hdr) (v : Word)
  -- command registers (03, 04, 08, 16)
  | hdlOpCreate (p : Fin 16) (h : Hdr) (hd : BitVec 16)
  | hdlOpRead (p : Fin 16) (h : Hdr) (hd : BitVec 16)
  | hdlOpFree (p : Fin 16) (h : Hdr) (hd : BitVec 16)
  | hdlOpDone
  | linkPpOpRead (p : Fin 16) (h : Hdr) (addr : BitVec 18)
  | linkPpOpProg (p : Fin 16) (h : Hdr) (addr : BitVec 18)
  | rgnCommit (p : Fin 16) (h : Hdr)
  | arbCommit (p : Fin 16) (h : Hdr)
  | unitStopRequest (p : Fin 16) (h : Hdr) (page : Byte)
  | unitStopped (page : Byte)
  | unitRunRestart (p : Fin 16) (h : Hdr) (page : Byte)
  | unitAttnClear (p : Fin 16) (h : Hdr) (page : Byte) (v : Word)
  | registerWrite (p : Fin 16) (h : Hdr) (page : Byte) (off : BitVec 12) (v : Word)
  | nrfReseed (p : Fin 16) (h : Hdr) (c : Fin 64) (v : Word)
  | entropyHealthFail (t : HealthTest)
  | testMbistGo (p : Fin 16) (h : Hdr) (v : Word)
  | mbistComplete (r : MbistEnd) (rows cols : Byte)
  | testT1500Go (p : Fin 16) (h : Hdr) (v : Word)
  -- IEEE 1149.1 (14)
  | jtagBypass
  | jtagIdcode
  | jtagCfg (dr : BitVec 54)
  | jtagTestctl (b : Bool)
  | jtagScan
  | jtagScanLeave
  | jtagFuse
  -- sideband (08)
  | sbRegRd (ch : Byte) (q : SbPlace) (len : BitVec 4)
  | sbRegWr (ch : Byte) (q : SbPlace) (ws : List Word)
  | sbPpRd (q : SbPlace) (len : BitVec 4)
  | sbPpProg (q : SbPlace) (ws : List Word)
  | sbPpStat
  | sbPpErase (q : SbPlace)
  | sbT1500 (q : SbPlace) (ws : List Word)
  | ppProgramComplete (fail : Bool)
  | sbResponse (noise : BitVec 528)
  | sbResponseTimeout
  -- row bus of a channel (08)
  | rowNop (c : RowWires)
  | act (c : RowWires) (b : Fin 16) (row : BitVec 17) (spare : Bool)
  | pre (c : RowWires) (b : Fin 16) (h : Fin 2) (both : Bool)
  | ref (c : RowWires) (b : Fin 16)
  | nrf (c : RowWires) (b : Fin 16) (row : BitVec 17) (spare rad2 : Bool)
  | sls (c : RowWires) (ctx : Fin 2) (banks : BitVec 16)
  | slp (c : RowWires) (ctx : Fin 2) (b : Fin 16)
  | slr (c : RowWires) (ctx : Fin 2) (b : Fin 16)
  | slx (c : RowWires) (ctx : Fin 2)
  | sre (c : RowWires)
  | srx (c : RowWires) (point : BitVec 2)
  | pde (c : RowWires)
  | pdx (c : RowWires)
  | rsync (c : RowWires)
  | lane (c : RowWires) (h : Fin 2) (wire : BitVec 5) (sel pat : Bool)
  -- column bus of a channel (08)
  | colNop (c : ColWires)
  | colRd (c : ColWires) (b : Fin 16) (h : Fin 2) (col : BitVec 5)
  | colRda (c : ColWires) (b : Fin 16) (h : Fin 2) (col : BitVec 5)
  | colWr (c : ColWires) (b : Fin 16) (h : Fin 2) (col : BitVec 5) (d : WriteData)
  | colWra (c : ColWires) (b : Fin 16) (h : Fin 2) (col : BitVec 5) (d : WriteData)
  | vwr (c : ColWires) (sector : BitVec 13) (d : WriteData)
  | vrd (c : ColWires) (sector : BitVec 13)
  | spw (c : ColWires) (ctx part : Fin 2) (d : WriteData)
  | prd (c : ColWires) (ctx : Fin 2)
  | srd (c : ColWires) (ctx : Fin 2)
  -- stack and SEC events
  | stackWckStop (c : Fin 64)
  | entropyHealthRestored
  deriving DecidableEq, Repr

end Sys2Proof
end

