-- ==== Sys2Proof/Config.lean ====
section
/-! DEFINITION. What the manual leaves open: values that no proof can see. Each free value is an opaque
constant applied to the model's counter `State.free`, or to the operands it depends on (log 6). -/

namespace Sys2Proof

/-- The n-th free value of w bits: what the stack holds after power-on (R229), what SEC draws (R261, R280),
and every other value the manual does not fix. -/
opaque Config.freeBits (w : Nat) (n : Nat) : BitVec w

/-- A free choice below `m`, the n-th: the order of floating-point sums (R152, R158, R187, R203). -/
opaque Config.freeNat (m : Nat) (n : Nat) : Nat

/-- How far, in ulp, the exponent unit's result lies from the largest binary32 value below exp of its operand; used
clamped to the results within 2 ulp of exp (R155, R179). -/
opaque Config.expUlp (x : BitVec 32) : Int

/-- The manufacturer code of the licensee's fuses in IDCODE[11:1] (Table 14-14). -/
opaque Config.idcodeMaker : BitVec 11

/-- The silicon version in IDCODE[31:28] (Table 14-14). -/
opaque Config.idcodeVersion : BitVec 4

/-- What the array granule `key` of channel `ch` holds after power-on number `gen` (R229). -/
opaque Config.powerOnArray (gen ch key : Nat) : Granule

/-- What the vector-buffer granule `key` of channel `ch` holds after power-on number `gen` (R229). -/
opaque Config.powerOnVbuf (gen ch key : Nat) : Granule

/-- What a slice context of channel `ch` holds after power-on number `gen` (R229). -/
opaque Config.powerOnCtx (gen ch key : Nat) : Granule

/-- What the scratch granule `key` of octant `k` holds after its loss number `gen` to a fault (R194). -/
opaque Config.lostScratch (gen k key : Nat) : Granule

/-- What byte `a` of the passport holds as the stack's maker leaves it, where the layout fixes no value (R223, Table 8-10). -/
opaque Config.passport (a : Nat) : Byte

/-- Sign and payload of the quiet NaN that a binary32 operation on these operands gives (R152: NaNs propagate as
in IEEE 754, which fixes neither). -/
opaque Config.nanBits (x y : BitVec 32) : BitVec 32

end Sys2Proof
end

