-- ==== Sys2Proof/Machine/Codec.lean ====
section
/-! DEFINITION. The codes of chapter 11 and the check codes of chapter 8: the granule code RS(19,16) (R275,
R276), poison (R281), scrambling (R279), the outer code of vault rows (R287, R288), and the CRCs of row
commands, sideband frames and the passport (R210, R221, R223). -/

namespace Sys2Proof.Machine

/-! ### GF(2^8) and the granule code -/

/-- α·a in GF(2^8) with x^8 + x^4 + x^3 + x^2 + 1 (R275). -/
def xtime (a : Byte) : Byte := (a <<< 1) ^^^ (if a.msb then 0x1D#8 else 0#8)

/-- The product in GF(2^8) (R275). -/
def gmul (a b : Byte) : Byte :=
  (List.range 8).foldl
      (fun acc i => xtime acc ^^^ (if b.getLsbD (7 - i) then a else 0#8)) 0#8

/-- α^e (R275). -/
def alpha : Nat → Byte
  | 0 => 1#8
  | e + 1 => xtime (alpha e)

/-- The symbol at exponent e of the codeword: check byte e for e < 3, else data byte e - 3 (R275). -/
def symbolAt (g : Granule) (e : Nat) : Byte := field g (if e < 3 then 128 + 8 * e else 8 * (e - 3)) 8

/-- `g` with `v` added to the symbol at exponent e. -/
def addSymbol (g : Granule) (e : Nat) (v : Byte) : Granule :=
  g ^^^ (v.zeroExtend 152 <<< (if e < 3 then 128 + 8 * e else 8 * (e - 3)))

/-- The check bytes of 128 data bits: the remainder of x^3·d(x) by g(x) (R275). -/
def checkBytes (d : BitVec 128) : BitVec 24 :=
  let step := fun (r : Byte × Byte × Byte) (i : Nat) =>
    let fb := field d (8 * (15 - i)) 8 ^^^ r.2.2
    (gmul 0x08#8 fb, r.1 ^^^ gmul 0x0E#8 fb, r.2.1 ^^^ gmul 0x07#8 fb)
  let r := (List.range 16).foldl step (0#8, 0#8, 0#8)
  r.2.2 ++ r.2.1 ++ r.1

/-- The codeword of 128 data bits (R275). -/
def encodeGranule (d : BitVec 128) : Granule := checkBytes d ++ d

/-- The data bits of a granule. -/
def granuleData (g : Granule) : BitVec 128 := field g 0 128

/-- The syndrome S_j = c(α^j) (R276). -/
def syndrome (g : Granule) (j : Nat) : Byte :=
  (List.range 19).foldl (fun acc i => gmul acc (alpha j) ^^^ symbolAt g (18 - i)) 0#8

/-- What a decoder finds (Table 11-1). -/
inductive Decoded where
  | clean
  | poisoned
  | corrected (e : Nat) (v : Byte)
  | uncorrectable
  deriving DecidableEq, Repr

/-- The error that the poison pattern adds to a codeword: 0x5A at check byte 0, 0xA5 at check byte 1 (R281). -/
def poisonError : Granule := 0xA55A#152 <<< 128

/-- Classification of a granule by the first row of Table 11-1 that applies (R276). -/
def decodeGranule (g : Granule) : Decoded :=
  let s0 := syndrome g 0
  let s1 := syndrome g 1
  let s2 := syndrome g 2
  if s0 = 0#8 ∧ s1 = 0#8 ∧ s2 = 0#8 then .clean
  else if s0 = syndrome poisonError 0 ∧ s1 = syndrome poisonError 1 ∧ s2 = syndrome poisonError 2 then
    .poisoned
  else if s0 ≠ 0#8 ∧ gmul s1 s1 = gmul s0 s2 then
    match (List.range 19).find? (fun e => decide (gmul s0 (alpha e) = s1)) with
    | some e => .corrected e s0
    | none => .uncorrectable
  else .uncorrectable

/-- The granule as the decoder passes it on: corrected, or unchanged (Table 11-1). -/
def correctGranule (g : Granule) : Granule :=
  match decodeGranule g with
  | .corrected e v => addSymbol g e v
  | _ => g

/-- The poison pattern over a granule's data bytes as they stand (R281). -/
def poisonGranule (g : Granule) : Granule := encodeGranule (granuleData g) ^^^ poisonError

/-! ### Sectors -/

/-- The 32 plain bytes of a sector (R207). -/
def plain (s : Sector) : BitVec 256 := granuleData s.g1 ++ granuleData s.g0

/-- The sector whose granules encode 32 plain bytes (R275). -/
def sectorOf (d : BitVec 256) : Sector := ⟨encodeGranule (field d 0 128), encodeGranule (field d 128 128)⟩

/-- A sector of zeros as valid codewords. -/
def zeroSector : Sector := ⟨0#152, 0#152⟩

/-- The sector with both granules corrected. -/
def correctSector (s : Sector) : Sector := ⟨correctGranule s.g0, correctGranule s.g1⟩

/-- The sector with the poison pattern in both granules (R281). -/
def poisonSector (s : Sector) : Sector := ⟨poisonGranule s.g0, poisonGranule s.g1⟩

/-- A granule that a reader may not use: uncorrectable or poisoned. -/
def granuleBad (g : Granule) : Bool :=
  match decodeGranule g with
  | .uncorrectable => true
  | .poisoned => true
  | _ => false

/-- A sector with a granule that a reader may not use. -/
def sectorBad (s : Sector) : Bool := granuleBad s.g0 || granuleBad s.g1

/-- The byte mask spread to bits: bit 8b + i of the result is bit b of the mask. -/
def maskBits (m : BitVec 32) : BitVec 256 :=
  (List.range 32).foldl
    (fun (acc : BitVec 256) b => if m.getLsbD b then acc ||| (0xFF#256 <<< (8 * b)) else acc) 0#256

/-- The enabled bytes of `new` over `old` (R118, R120). -/
def mergeBytes (old new : BitVec 256) (m : BitVec 32) : BitVec 256 :=
  (old &&& ~~~(maskBits m)) ||| (new &&& maskBits m)

/-! ### Scrambling -/

/-- One step of the keystream generator (R279). -/
def ksStep (s : BitVec 64 × BitVec 64) : BitVec 64 × BitVec 64 :=
  let t := s.1 ^^^ (s.1 <<< 23)
  (s.2, t ^^^ (t >>> 17) ^^^ s.2 ^^^ (s.2 >>> 26))

/-- n steps of the keystream generator. -/
def ksSteps : Nat → BitVec 64 × BitVec 64 → BitVec 64 × BitVec 64
  | 0, s => s
  | n + 1, s => ksSteps n (ksStep s)

/-- The place word p of a granule: channel, bank, logical row, column, half (R279). -/
def placeWord (ch bank row col half : Nat) : BitVec 64 :=
  BitVec.ofNat 64 (ch % 64 + (bank % 16) * 2 ^ 6 + (row % 2 ^ 17) * 2 ^ 10 + (col % 32) * 2 ^ 27 +
    (half % 2) * 2 ^ 32)

/-- The keystream granule K(p) of a key (R279). -/
def keystream (key : BitVec 128) (p : BitVec 64) : Granule :=
  let s := ksSteps 10 (field key 0 64 ^^^ p, field key 64 64 ^^^ (p <<< 31))
  let lo := s.1 + s.2
  let s' := ksStep s
  let hi := s'.1 + s'.2
  encodeGranule (hi ++ lo)

/-- A granule scrambled, or descrambled, at its place; unchanged while scrambling is off (R279, R280). -/
def scramble (on : Bool) (key : BitVec 128) (ch bank row col half : Nat) (g : Granule) : Granule :=
  if on then g ^^^ keystream key (placeWord ch bank row col half) else g

/-- Both granules of a sector scrambled, or descrambled, at its place. -/
def scrambleSector (on : Bool) (key : BitVec 128) (ch bank row col : Nat) (s : Sector) : Sector :=
  ⟨scramble on key ch bank row col 0 s.g0, scramble on key ch bank row col 1 s.g1⟩

/-- One step of the disturbance generator (R261). -/
def xorshift64 (x : BitVec 64) : BitVec 64 :=
  let x := x ^^^ (x <<< 13)
  let x := x ^^^ (x >>> 7)
  x ^^^ (x <<< 17)

/-! ### The outer code of vault rows: RS over GF(2^10) -/

/-- β·a in GF(2^10) with y^10 + y^3 + 1 (R287). -/
def vtime (a : BitVec 10) : BitVec 10 := (a <<< 1) ^^^ (if a.msb then 0x009#10 else 0#10)

/-- The product in GF(2^10). -/
def vmul (a b : BitVec 10) : BitVec 10 :=
  (List.range 10).foldl (fun acc i => vtime acc ^^^ (if b.getLsbD (9 - i) then a else 0#10)) 0#10

/-- β^e. -/
def beta : Nat → BitVec 10
  | 0 => 1#10
  | e + 1 => vtime (beta e)

/-- a^n in GF(2^10), by squaring on the ten bits of n. -/
def vpow (a : BitVec 10) (n : Nat) : BitVec 10 :=
  (List.range 10).foldl (fun acc i => let sq := vmul acc acc; if n.testBit (9 - i) then vmul sq a else sq) 1#10

/-- The inverse in GF(2^10): a^1022. -/
def vinv (a : BitVec 10) : BitVec 10 := vpow a 1022

/-- A polynomial over GF(2^10), lowest coefficient first, times (y + r). -/
def polyMulRoot (p : List (BitVec 10)) (r : BitVec 10) : List (BitVec 10) :=
  List.zipWith (· ^^^ ·) (0#10 :: p) (p.map (vmul r) ++ [0#10])

/-- The generator polynomial Π (y + β^j), j < 2t, lowest coefficient first (R287). -/
def vaultGen (t : Nat) : List (BitVec 10) :=
  (List.range (2 * t)).foldl (fun p j => polyMulRoot p (beta j)) [1#10]

/-- The value of a polynomial, lowest coefficient first. -/
def polyEval (p : List (BitVec 10)) (x : BitVec 10) : BitVec 10 :=
  p.foldr (fun c acc => vmul acc x ^^^ c) 0#10

/-- Data symbols D_0 … D_819 of a row's 8,192 plain bits (R287). -/
def rowSymbols (row : BitVec 8192) : List (BitVec 10) :=
  (List.range 820).map (fun i => (row >>> (10 * i)).setWidth 10)

/-- The check symbols Q_0 … Q_(2t-1) of a row: the remainder of Σ D_i y^(i+2t) (R287). -/
def vaultCheck (t : Nat) (ds : List (BitVec 10)) : List (BitVec 10) :=
  let g := (vaultGen t).take (2 * t)
  ds.foldr
    (fun d r =>
      let fb := d ^^^ r.getLastD 0#10
      List.zipWith (fun a c => a ^^^ vmul c fb) (0#10 :: r.dropLast) g)
    (List.replicate (2 * t) 0#10)

/-- Check symbols packed as the bit string of the parity sectors: Q_j at bits [10j+9:10j] (R288). -/
def packSymbols (qs : List (BitVec 10)) : BitVec 768 :=
  (qs.zipIdx).foldl (fun (acc : BitVec 768) q => acc ||| (BitVec.setWidth 768 q.1).shiftLeft (10 * q.2)) 0#768

/-- The change of a row's parity bits when sector `col` changes by `delta` (R289; the code is linear). -/
def parityDelta (t col : Nat) (delta : BitVec 256) : BitVec 768 :=
  packSymbols (vaultCheck t (rowSymbols (delta.setWidth 8192 <<< (256 * col))))

/-- One step of Berlekamp and Massey: state (Λ, B, L, m, b), discrepancy from the syndromes so far. -/
def bmStep (syn : List (BitVec 10))
    (st : List (BitVec 10) × List (BitVec 10) × Nat × Nat × BitVec 10) (n : Nat) :
    List (BitVec 10) × List (BitVec 10) × Nat × Nat × BitVec 10 :=
  let (lam, bp, l, m, b) := st
  let disc := (List.range (l + 1)).foldl
    (fun acc i => acc ^^^ vmul (lam.getD i 0#10) (if i ≤ n then syn.getD (n - i) 0#10 else 0#10)) 0#10
  if disc = 0#10 then (lam, bp, l, m + 1, b)
  else
    let c := vmul disc (vinv b)
    let shifted := List.replicate m 0#10 ++ bp.map (vmul c)
    let len := max lam.length shifted.length
    let lam' := (List.range len).map (fun i => lam.getD i 0#10 ^^^ shifted.getD i 0#10)
    if 2 * l ≤ n then (lam', lam, n + 1 - l, 1, disc) else (lam', bp, l, m + 1, b)

/-- Correction of a received vault codeword (check symbols first): the corrected word, or none when it has
more than t symbol errors (R290, R291). -/
def vaultDecode (t : Nat) (word : List (BitVec 10)) : Option (List (BitVec 10)) :=
  let syn := (List.range (2 * t)).map (fun j => polyEval word (beta j))
  if syn.all (fun s => decide (s = 0#10)) then some word
  else
    let (lam, _, l, _, _) := (List.range (2 * t)).foldl (bmStep syn) ([1#10], [1#10], 0, 1, 1#10)
    let roots := (List.range word.length).filter
      (fun i => decide (polyEval lam (vinv (beta i)) = 0#10))
    if t < l ∨ roots.length ≠ l then none
    else
      let omega := (List.range (2 * t)).map (fun i => (List.range (i + 1)).foldl
        (fun acc k => acc ^^^ vmul (syn.getD (i - k) 0#10) (lam.getD k 0#10)) 0#10)
      let dlam := (List.range l).map (fun i => if i % 2 = 0 then lam.getD (i + 1) 0#10 else 0#10)
      let fixed := roots.foldl (fun w i =>
        let xi := vinv (beta i)
        let e := vmul (beta i) (vmul (polyEval omega xi) (vinv (polyEval dlam xi)))
        w.set i (w.getD i 0#10 ^^^ e)) word
      if (List.range (2 * t)).all (fun j => decide (polyEval fixed (beta j) = 0#10)) then some fixed
      else none

/-- A row's 32 sectors as its 8,192 plain bits: row byte B is byte B mod 32 of column B div 32 (R287). -/
def rowBits (ss : List Sector) : BitVec 8192 :=
  (ss.zipIdx).foldl (fun (acc : BitVec 8192) s => acc ||| ((plain s.1).setWidth 8192 <<< (256 * s.2))) 0#8192

/-- The 32 sectors of a row's plain bits. -/
def rowSectors (b : BitVec 8192) : List Sector :=
  (List.range 32).map (fun c => sectorOf ((b >>> (256 * c)).setWidth 256))

/-- The plain bits that data symbols spell (the high 8 bits of D_819 fall away, R287). -/
def symbolsRow (ds : List (BitVec 10)) : BitVec 8192 :=
  (ds.zipIdx).foldl (fun (acc : BitVec 8192) d => acc ||| (BitVec.setWidth 8192 d.1).shiftLeft (10 * d.2)) 0#8192

/-! ### Check codes of chapter 8 -/

/-- A bit-serial CRC over bits from 0 upward: `poly` without its leading term (R210, R221). -/
def crcBits {w : Nat} (poly init : BitVec w) (bits : List Bool) : BitVec w :=
  bits.foldl (fun (r : BitVec w) b => (r <<< 1) ^^^ (if r.msb != b then poly else 0)) init

/-- The n low bits of a number, from bit 0 upward. -/
def bitsOf (n x : Nat) : List Bool := (List.range n).map (fun i => x.testBit i)

/-- CRC-5 of a row command's payload bits [26:0]: x^5 + x^2 + 1, initial value 0 (R210). -/
def crc5 (payload : BitVec 27) : BitVec 5 := crcBits 0x05#5 0#5 (bitsOf 27 payload.toNat)

/-- CRC-8 of a sideband frame: x^8 + x^2 + x + 1, initial value 0 (R221). -/
def crc8 (bits : List Bool) : Byte := crcBits 0x07#8 0#8 bits

/-- CRC-16 of a repair record: x^16 + x^12 + x^5 + 1, initial value 0xFFFF, over bytes [13:0], each byte from
its most significant bit (Table 8-10; the bit order within a byte is log 20's). -/
def crc16 (bytes : List Byte) : BitVec 16 :=
  crcBits 0x1021#16 0xFFFF#16 (bytes.flatMap (fun b => (bitsOf 8 b.toNat).reverse))

/-- CRC-32 of IEEE 802.3, reflected, initial value and final XOR 0xFFFF_FFFF (R223). -/
def crc32 (bytes : List Byte) : Word :=
  (bytes.foldl (fun (r : Word) b => (List.range 8).foldl
    (fun (r : Word) _ => (r >>> 1) ^^^ (if r.getLsbD 0 then 0xEDB88320#32 else 0#32)) (r ^^^ b.zeroExtend 32))
    0xFFFFFFFF#32) ^^^ 0xFFFFFFFF#32

end Sys2Proof.Machine
end

