-- ==== Sys2Proof/Machine/Tab.lean ====
section
/-! DEFINITION. Sparse tables with strictly rising keys, and RAMs in canonical form over them. Every
replicated unit and every addressed store of the machine is one of these. -/

namespace Sys2Proof.Machine

/-- A sparse table: (key, value) pairs, keys strictly rising. -/
abbrev Tab (α : Type) := List (Nat × α)

/-- The value at key `k`, if listed. -/
def Tab.find {α : Type} : Tab α → Nat → Option α
  | [], _ => none
  | (k', v) :: t, k => if k' = k then some v else Tab.find t k

/-- The value at key `k`, or `d` where none is listed. -/
def Tab.get {α : Type} (t : Tab α) (k : Nat) (d : α) : α := (Tab.find t k).getD d

/-- The table with `v` at key `k`. -/
def Tab.put {α : Type} : Tab α → Nat → α → Tab α
  | [], k, v => [(k, v)]
  | (k', v') :: t, k, v =>
    if k < k' then (k, v) :: (k', v') :: t
    else if k = k' then (k, v) :: t
    else (k', v') :: Tab.put t k v

/-- The table without key `k`. -/
def Tab.drop {α : Type} : Tab α → Nat → Tab α
  | [], _ => []
  | (k', v') :: t, k => if k' = k then t else (k', v') :: Tab.drop t k

/-- Keys rise strictly, and all lie above `lo`. -/
def Tab.risingFrom {α : Type} : Tab α → Nat → Bool
  | [], _ => true
  | (k, _) :: t, lo => decide (lo ≤ k) && Tab.risingFrom t (k + 1)

/-- Keys rise strictly. -/
def Tab.rising {α : Type} (t : Tab α) : Bool := Tab.risingFrom t 0

/-- A RAM read: the listed value, or what an unlisted key reads as. -/
def ramRead {n : Nat} (dflt : Nat → BitVec n) (t : Tab (BitVec n)) (k : Nat) : BitVec n :=
  (Tab.find t k).getD (dflt k)

/-- A RAM write, keeping the canonical form: the value an unlisted key reads as is not listed. -/
def ramWrite {n : Nat} (dflt : Nat → BitVec n) (t : Tab (BitVec n)) (k : Nat) (v : BitVec n) :
    Tab (BitVec n) :=
  if v = dflt k then Tab.drop t k else Tab.put t k v

/-- The canonical form of a RAM: keys rise strictly and no entry equals what its key reads as unlisted. -/
def ramWf {n : Nat} (dflt : Nat → BitVec n) (t : Tab (BitVec n)) : Bool :=
  Tab.rising t && t.all (fun e => decide (e.2 ≠ dflt e.1))

end Sys2Proof.Machine
end

