-- ==== Sys2Proof/Machine/Wires.lean ====
section
/-! DEFINITION. The command wires and the data-type wires of a channel: codewords, check symbols and the payloads of
Tables 8-3 and 8-4 (R207, R209-R211), and the spare's part in a burst (R213, R244). -/

namespace Sys2Proof.Machine

/-! ### Check symbols (R210, R211) -/

/-- The inverse in GF(2^8): a^254. -/
def ginv (a : Byte) : Byte :=
  (List.range 7).foldl (fun (acc : Byte × Byte) _ => let q := gmul acc.2 acc.2; (gmul acc.1 q, q)) (1#8, a) |>.1

/-- Σ c_k α^(jk) of the symbols c_0, c_1, … (R210). -/
def symSum (cs : List Byte) (j : Nat) : Byte := (cs.zipIdx).foldl (fun acc e => acc ^^^ gmul e.1 (alpha (j * e.2))) 0#8

/-- A polynomial over GF(2^8), lowest coefficient first, times (x + r). -/
def symTimes (p : List Byte) (r : Byte) : List Byte := List.zipWith (· ^^^ ·) (0#8 :: p) (p.map (gmul r) ++ [0#8])

/-- The check symbol at position k, one of the positions ks, that makes the sums of `data` vanish at the roots
α^0, α^1, … (as many as ks has). -/
def checkSym (data : List Byte) (ks : List Nat) (k : Nat) : Byte :=
  let others := ks.filter (· != k)
  let num := others.foldl (fun p m => symTimes p (alpha m)) [1#8]
  let den := others.foldl (fun d m => gmul d (alpha k ^^^ alpha m)) 1#8
  gmul (ginv den) ((num.zipIdx).foldl (fun acc e => acc ^^^ gmul e.1 (symSum data e.2)) 0#8)

/-- Data symbols with the r check symbols behind them. -/
def withChecks (data : List Byte) (r : Nat) : List Byte :=
  let ks := (List.range r).map (· + data.length)
  data ++ ks.map (checkSym data ks)

/-- A codeword as received over r roots: its symbols with any one wrong one put right, and its position; none where more
are wrong (R211). -/
def symCorrect (cs : List Byte) (r : Nat) : Option (List Byte × Option Nat) :=
  let syn := (List.range r).map (symSum cs)
  let s0 := symSum cs 0
  if syn.all (fun s => decide (s = 0#8)) then some (cs, none)
  else
    match (List.range cs.length).find? (fun k =>
        s0 != 0#8 && (List.range r).all (fun j => decide (symSum cs j = gmul s0 (alpha (j * k))))) with
    | some k => some (cs.set k (cs.getD k 0#8 ^^^ s0), some k)
    | none => none

/-! ### Row commands (R209, R210, Table 8-3) -/

/-- Payload bits [26:0] of a row command (Table 8-3); 0 is NOP. -/
def rowFields : Instr → BitVec 27
  | .act _ b row spare => BitVec.ofNat 27 (1 + b.val * 2 ^ 4 + row.toNat * 2 ^ 8 + spare.toNat * 2 ^ 25)
  | .pre _ b h both => BitVec.ofNat 27 (2 + b.val * 2 ^ 4 + h.val * 2 ^ 8 + both.toNat * 2 ^ 9)
  | .ref _ b => BitVec.ofNat 27 (3 + b.val * 2 ^ 4)
  | .nrf _ b row spare rad2 =>
    BitVec.ofNat 27 (4 + b.val * 2 ^ 4 + row.toNat * 2 ^ 8 + spare.toNat * 2 ^ 25 + rad2.toNat * 2 ^ 26)
  | .sls _ ctx banks => BitVec.ofNat 27 (5 + ctx.val * 2 ^ 4 + banks.toNat * 2 ^ 5)
  | .slp _ ctx b => BitVec.ofNat 27 (6 + ctx.val * 2 ^ 4 + b.val * 2 ^ 5)
  | .slr _ ctx b => BitVec.ofNat 27 (7 + ctx.val * 2 ^ 4 + b.val * 2 ^ 5)
  | .slx _ ctx => BitVec.ofNat 27 (8 + ctx.val * 2 ^ 4)
  | .sre _ => 9#27
  | .srx _ point => BitVec.ofNat 27 (10 + point.toNat * 2 ^ 4)
  | .pde _ => 11#27
  | .pdx _ => 12#27
  | .rsync _ => 13#27
  | .lane _ h wire sel pat =>
    BitVec.ofNat 27 (14 + h.val * 2 ^ 4 + wire.toNat * 2 ^ 5 + sel.toNat * 2 ^ 10 + pat.toNat * 2 ^ 11)
  | _ => 0#27

/-- A bit field of a payload as a bank number. -/
def bankAt {n : Nat} (p : BitVec n) (lo : Nat) : Fin 16 := ⟨fieldNat p lo 4, (p.extractLsb' lo 4).isLt⟩
/-- A bit of a payload as a half or context number. -/
def bitAt {n : Nat} (p : BitVec n) (lo : Nat) : Fin 2 := ⟨fieldNat p lo 1, (p.extractLsb' lo 1).isLt⟩

/-- Bits from `lo` up are zero: the reserved fields of a payload. -/
def zeroFrom {n : Nat} (p : BitVec n) (lo : Nat) : Bool := p >>> lo == 0

/-- The row command that a payload spells on channel c; none where its OP is reserved or a reserved field is not zero
(Table 8-3, R216). -/
def rowOf (c : Fin 64) (p : BitVec 27) : Option Instr :=
  let only := fun (lo : Nat) (i : Instr) => if zeroFrom p lo then some i else none
  match fieldNat p 0 4 with
  | 0 => only 4 (.rowNop ⟨c, 0⟩)
  | 1 => only 26 (.act ⟨c, 0⟩ (bankAt p 4) (field p 8 17) (p.getLsbD 25))
  | 2 => only 10 (.pre ⟨c, 0⟩ (bankAt p 4) (bitAt p 8) (p.getLsbD 9))
  | 3 => only 8 (.ref ⟨c, 0⟩ (bankAt p 4))
  | 4 => only 27 (.nrf ⟨c, 0⟩ (bankAt p 4) (field p 8 17) (p.getLsbD 25) (p.getLsbD 26))
  | 5 => only 21 (.sls ⟨c, 0⟩ (bitAt p 4) (field p 5 16))
  | 6 => only 9 (.slp ⟨c, 0⟩ (bitAt p 4) (bankAt p 5))
  | 7 => only 9 (.slr ⟨c, 0⟩ (bitAt p 4) (bankAt p 5))
  | 8 => only 5 (.slx ⟨c, 0⟩ (bitAt p 4))
  | 9 => only 4 (.sre ⟨c, 0⟩)
  | 10 => only 6 (.srx ⟨c, 0⟩ (field p 4 2))
  | 11 => only 4 (.pde ⟨c, 0⟩)
  | 12 => only 4 (.pdx ⟨c, 0⟩)
  | 13 => only 4 (.rsync ⟨c, 0⟩)
  | 14 => only 12 (.lane ⟨c, 0⟩ (bitAt p 4) (field p 5 5) (p.getLsbD 10) (p.getLsbD 11))
  | _ => none

/-- The payload of a row command with its CRC-5 (R210). -/
def rowPayload (p : BitVec 27) : BitVec 32 := crc5 p ++ p

/-- Byte i of a word of wires. -/
def wireByte {n : Nat} (x : BitVec n) (i : Nat) : Byte := field x (8 * i) 8

/-- The symbols on ROW0 to ROW3 in burst u of a row command (R210). -/
def rowBurst (p : BitVec 32) (u : Nat) : List Byte := withChecks [wireByte p (2 * u), wireByte p (2 * u + 1)] 2

/-- The word of a list of bytes, byte 0 lowest. -/
def wordOfBytes (w : Nat) (bs : List Byte) : BitVec w :=
  (bs.zipIdx).foldl (fun (acc : BitVec w) e => acc ||| (BitVec.setWidth w e.1).shiftLeft (8 * e.2)) 0

/-- What the stack makes of the command wires: whether the command can be decoded, its payload, and the command wires
that were corrected, numbered from wire 40. -/
structure WireRx (n : Nat) where
  ok : Bool
  payload : BitVec n
  fixed : List Nat
  deriving DecidableEq, Repr

/-- A row command as received: `err` holds what the wires added to it, 4 bytes a burst (R211). -/
def rowReceive (p : BitVec 27) (err : BitVec 64) : WireRx 27 :=
  let rx := fun (u : Nat) => symCorrect (((rowBurst (rowPayload p) u).zipIdx).map (fun e => e.1 ^^^ wireByte err (4 * u + e.2))) 2
  match rx 0, rx 1 with
  | some (a, f), some (b, g) =>
    let w := wordOfBytes 32 (a.take 2 ++ b.take 2)
    { ok := crc5 (field w 0 27) == field w 27 5, payload := field w 0 27, fixed := f.toList ++ g.toList }
  | _, _ => { ok := false, payload := 0, fixed := [] }

/-! ### Column commands (R209, R210, Table 8-4) -/

/-- The 24 payload bits of a column command (Table 8-4); 0 is NOP. -/
def colFields : Instr → BitVec 24
  | .colRd _ b h col => BitVec.ofNat 24 (1 + b.val * 2 ^ 4 + h.val * 2 ^ 8 + col.toNat * 2 ^ 9)
  | .colRda _ b h col => BitVec.ofNat 24 (2 + b.val * 2 ^ 4 + h.val * 2 ^ 8 + col.toNat * 2 ^ 9)
  | .colWr _ b h col _ => BitVec.ofNat 24 (3 + b.val * 2 ^ 4 + h.val * 2 ^ 8 + col.toNat * 2 ^ 9)
  | .colWra _ b h col _ => BitVec.ofNat 24 (4 + b.val * 2 ^ 4 + h.val * 2 ^ 8 + col.toNat * 2 ^ 9)
  | .vwr _ sec _ => BitVec.ofNat 24 (5 + sec.toNat * 2 ^ 4)
  | .vrd _ sec => BitVec.ofNat 24 (6 + sec.toNat * 2 ^ 4)
  | .spw _ ctx part _ => BitVec.ofNat 24 (7 + ctx.val * 2 ^ 4 + part.val * 2 ^ 5)
  | .prd _ ctx => BitVec.ofNat 24 (8 + ctx.val * 2 ^ 4)
  | .srd _ ctx => BitVec.ofNat 24 (9 + ctx.val * 2 ^ 4)
  | _ => 0#24

/-- The column command that a payload spells on channel c, with the data burst that a write would take; none where its
code is reserved or a reserved field is not zero (Table 8-4, R216). -/
def colOf (c : Fin 64) (p : BitVec 24) (d : Sector) (noise : BitVec 320) : Option Instr :=
  let only := fun (lo : Nat) (i : Instr) => if zeroFrom p lo then some i else none
  match fieldNat p 0 4 with
  | 0 => only 4 (.colNop ⟨c, 0⟩)
  | 1 => only 14 (.colRd ⟨c, 0⟩ (bankAt p 4) (bitAt p 8) (field p 9 5))
  | 2 => only 14 (.colRda ⟨c, 0⟩ (bankAt p 4) (bitAt p 8) (field p 9 5))
  | 3 => only 14 (.colWr ⟨c, 0⟩ (bankAt p 4) (bitAt p 8) (field p 9 5) ⟨d, noise⟩)
  | 4 => only 14 (.colWra ⟨c, 0⟩ (bankAt p 4) (bitAt p 8) (field p 9 5) ⟨d, noise⟩)
  | 5 => only 17 (.vwr ⟨c, 0⟩ (field p 4 13) ⟨d, noise⟩)
  | 6 => only 17 (.vrd ⟨c, 0⟩ (field p 4 13))
  | 7 => only 6 (.spw ⟨c, 0⟩ (bitAt p 4) (bitAt p 5) ⟨d, noise⟩)
  | 8 => only 5 (.prd ⟨c, 0⟩ (bitAt p 4))
  | 9 => only 5 (.srd ⟨c, 0⟩ (bitAt p 4))
  | _ => none

/-- The symbols on COL0 to COL5 of a column command (R210). -/
def colBurst (p : BitVec 24) : List Byte := withChecks [wireByte p 0, wireByte p 1, wireByte p 2] 3

/-- A column command as received: `err` holds what the wires added to it (R211). -/
def colReceive (p : BitVec 24) (err : BitVec 48) : WireRx 24 :=
  match symCorrect (((colBurst p).zipIdx).map (fun e => e.1 ^^^ wireByte err e.2)) 3 with
  | some (a, f) => { ok := true, payload := wordOfBytes 24 (a.take 3), fixed := f.toList.map (· + 4) }
  | none => { ok := false, payload := 0, fixed := [] }

/-- A read-type column command (Table 8-4). -/
def isReadCmd : Instr → Bool
  | .colRd _ _ _ _ | .colRda _ _ _ _ | .vrd _ _ | .prd _ _ | .srd _ _ => true
  | _ => false

/-- The data burst that a write-type column command moves (Table 8-4); a burst that nobody drives is low (R208). -/
def burstOf : Instr → Sector
  | .colWr _ _ _ _ ⟨d, _⟩ | .colWra _ _ _ _ ⟨d, _⟩ | .vwr _ _ ⟨d, _⟩ | .spw _ _ _ ⟨d, _⟩ => d
  | _ => ⟨0#152, 0#152⟩

/-! ### Data bursts and the spare (R207, R213, R244) -/

/-- The role of a half-channel's spare at one end, at one moment: the wire that it covers within its half-channel, if any, and
whether that wire carries PRBS7 (R213). -/
structure LaneMode where
  wire : Option Nat
  pat : Bool
  deriving DecidableEq, Repr, Inhabited

/-- The wire of symbol i of half-channel h: byte i of its granule, 16 data and 3 check bytes (R207). -/
def symWire (h i : Nat) : Nat := if i < 16 then 16 * h + i else 32 + 3 * h + (i - 16)

/-- The next 8 bits of PRBS7, x^7 + x^6 + 1, from its last seven bits (the newest in bit 0), and the last seven bits
after them (R213). -/
def prbs7 (st : BitVec 7) : Byte × BitVec 7 :=
  (List.range 8).foldl (fun (acc : Byte × BitVec 7) u =>
    let b := (acc.2.getLsbD 6) != (acc.2.getLsbD 5)
    ((if b then acc.1 ||| (1#8 <<< u) else acc.1), (acc.2 <<< 1) ||| (if b then 1#7 else 0#7))) (0#8, st)

/-- What a PRBS7 checker makes of a received symbol: the mismatches with what the seven bits before each bit predict, and
the last seven bits received (R244). -/
def prbsCheck (hist : BitVec 7) (x : Byte) : Nat × BitVec 7 :=
  (List.range 8).foldl (fun (acc : Nat × BitVec 7) u =>
    let p := (acc.2.getLsbD 6) != (acc.2.getLsbD 5)
    let b := x.getLsbD u
    ((if p != b then acc.1 + 1 else acc.1), (acc.2 <<< 1) ||| (if b then 1#7 else 0#7))) (0, hist)

/-- What wire number i of half-channel h shows in a burst of the granule g, driven in mode d with PRBS7 symbol `prbs` and
received with the noise of the wires. -/
def wireShows (d : LaneMode) (prbs : Byte) (noise : BitVec 320) (h : Nat) (g : Granule) (i : Nat) : Byte :=
  (if d.pat && d.wire == some i then prbs else field g (8 * i) 8) ^^^ wireByte noise (symWire h i)

/-- What the spare of half-channel h shows: the covered wire's symbol, or low (R213). -/
def spareShows (d : LaneMode) (noise : BitVec 320) (h : Nat) (g : Granule) : Byte :=
  (match d.wire with | some i => field g (8 * i) 8 | none => 0#8) ^^^ wireByte noise (38 + h)

/-- What the wires change in symbol i of half-channel h between a driver in mode d and a receiver in mode r. -/
def symErr (d r : LaneMode) (prbs : Byte) (noise : BitVec 320) (h : Nat) (g : Granule) (i : Nat) : Byte :=
  if r.wire = some i then (if d.wire = some i then wireByte noise (38 + h) else spareShows d noise h g ^^^ field g (8 * i) 8)
  else if d.wire = some i ∧ d.pat then wireShows d prbs noise h g i ^^^ field g (8 * i) 8
  else wireByte noise (symWire h i)

/-- The granule of half-channel h as it is received (R207, R213). -/
def throughWires (d r : LaneMode) (prbs : Byte) (noise : BitVec 320) (h : Nat) (g : Granule) : Granule :=
  g ^^^ wordOfBytes 152 ((List.range 19).map (symErr d r prbs noise h g))

end Sys2Proof.Machine
end

