-- ==== Sys2Proof/Machine/State.lean ====
section
/-! DEFINITION. The state of the block and its stack: plain data, every piece the manual names, and
`State.reset`, the machine right after a cold reset. -/

namespace Sys2Proof.Machine

/-! ### Places -/

/-- A sector's place in the stack: channel, bank, row, column (R70). -/
structure Place where
  ch : Nat
  bank : Nat
  row : Nat
  col : Nat
  deriving DecidableEq, Repr, Inhabited

/-- The parts of the family (Table 0-1). -/
inductive Part where
  | rosura32 | rosura64 | rosura64H
  deriving DecidableEq, Repr, Inhabited

/-! ### Time, clocks, block state (13) -/

/-- The time base: core cycles within a tick, all core cycles, the tick counter of R343 and BLK_TIME. -/
structure Time where
  sub : Nat
  cyc : Nat
  tick : Nat
  blk : BitVec 64
  hiLatch : Word
  uncertain : Bool
  deriving DecidableEq, Repr, Inhabited

/-- Where the recovery of R340 stands. -/
inductive PllPhase where
  | none | refCheck (window : Nat) | refFull | locking
  deriving DecidableEq, Repr, Inhabited

/-- The CLK unit (R328-R342, Table 13-10). -/
structure Clk where
  refPresent : Bool
  refOk : Bool
  pllLock : Bool
  onPll : Bool
  coreRun : Bool
  relocks : Nat
  lastCount : Nat
  passed : Nat
  fails : Nat
  sum : Nat
  ratio : Nat
  tries : Nat
  attempts : Nat
  phase : PllPhase
  gate : BitVec 128
  stopped : BitVec 128
  fmeasBusy : Bool
  fmeasDone : Bool
  fmeasStopped : Bool
  swDomain : Nat
  swForced : Bool
  forcedCount : Nat
  deriving DecidableEq, Repr, Inhabited

/-- The attention windows of R64: the cycle at which the pending OR last rose, the request whose write
cleared the last cause, the end of its window, and the number of the window. -/
structure AttnWin where
  riseAt : Nat
  up : Bool
  clearId : Option Nat
  fallEnd : Nat
  num : Nat
  deriving DecidableEq, Repr, Inhabited

/-- BLK_STATE.STATE (Table 13-9). -/
inductive BlkSt where
  | boot | ready | lost | halted
  deriving DecidableEq, Repr, Inhabited

/-- The BLK unit's state (R350-R353). `lost` is the latch that survives warm reset (R298). -/
structure Blk where
  st : BlkSt
  step : Nat
  cause : Nat
  waitThermal : Bool
  waitLogged : Bool
  warm : Bool
  bootStart : Nat
  stepStart : Nat
  bootMs : Nat
  lost : Bool
  lbist : Bool
  warmDue : Option Nat
  entropyTries : Nat
  deriving DecidableEq, Repr, Inhabited

/-- The pins of the block that software or the board can see (Tables 2-1, 8-7, 12-5, 13-7). -/
structure Pins where
  portOpen : Bool
  stkPwrEn : Bool
  stkPgood : Bool
  stkRstN : Bool
  thermTripN : Bool
  pmbAlertN : Bool
  wckRun : Bool
  deriving DecidableEq, Repr, Inhabited

/-! ### Requests and ports (02) -/

/-- Where a request stands in the admission steps of Table 1-3. -/
inductive Stage where
  | beats      -- its write-data beats are still to come (R38)
  | fetch      -- step 2 waits for a handle entry (R80)
  | hold2      -- held before step 2 by an earlier handle command (R88)
  | hold4      -- held before step 4 by an earlier FENCE (R57)
  | step5      -- waits for its resources (R17)
  | fence      -- a FENCE waiting for earlier requests (R57)
  | handle     -- a handle command waiting for its turn (R88)
  | admitted   -- past step 6
  | replied    -- its reply is final
  deriving DecidableEq, Repr, Inhabited

/-- The vault data of a region, as a translated sector carries it (R78): t, first data row, first parity row. -/
structure Vault where
  t : Nat
  rowLo : Nat
  parRowLo : Nat
  deriving DecidableEq, Repr, Inhabited

/-- A sector named by a request, as translated at step 2 of admission. -/
structure SecRef where
  place : Place
  vault : Option Vault
  deriving DecidableEq, Repr, Inhabited

/-- An active region entry (Table 3-1), as its five register words. -/
structure Region where
  ctl : Word
  base : Word
  foot : Word
  size : Word
  par : Word
  deriving DecidableEq, Repr, Inhabited

/-- The operations and forms of Tables 6-2 and 6-4. -/
inductive OpForm where
  | dotRow | dotK | attn | gather | scatter | setxI | setxU | setxD | expand | filter
  | copyRes | copyStr | copyCrown | fill
  deriving DecidableEq, Repr, Inhabited

/-- What step 2 makes of a descriptor: its form, effective mask, units and destination. -/
structure Plan where
  form : OpForm
  mask : BitVec 64
  units : List (Nat × List SecRef)
  dst : List SecRef
  opA : Option Region
  opB : Option Region
  lvis : Nat
  deriving DecidableEq, Repr

/-- A request accepted at a port and not yet done with. -/
structure Req where
  id : Nat
  port : Fin 16
  opc : Byte
  h : Hdr
  aux : Word
  beats : List Beat
  stage : Stage
  ghost : Bool
  accTick : Nat
  accBlk : BitVec 64
  accCyc : Nat
  cls : Cls
  dl : Option Int
  corrected : Bool
  secs : List SecRef
  ranges : List (Nat × Nat)
  handles : List (BitVec 16)
  todo : Nat
  rdata : Tab Sector
  poison : Option Byte
  okDetail : Byte
  discard : Option Byte
  gatedBy : Option Byte             -- a gated domain that a reconstruction put on its path (R290)
  desc : Option Nat
  sampled : Bool
  slack : Option Int
  tAdmit : Option Nat
  tJoin : Option Nat
  tGrant : Option Nat
  tDone : Option Nat
  pieceCh : Option Nat
  plan : Option Plan
  gen : Bool                        -- PORT_CFG.WCHK = GENERATE when its last beat had arrived (R49)
  hdlTurn : Option (Nat × Int)      -- a handle command's arrival at the HDL unit, and the deadline of its store traffic
  deriving DecidableEq, Repr, Inhabited

/-- One reply beat's data: four granules, or none (R40). -/
structure RplData where
  g0 : Granule
  g1 : Granule
  g2 : Granule
  g3 : Granule
  deriving DecidableEq, Repr, Inhabited

/-- A reply whose status and data are final (R40, R50). -/
structure Reply where
  id : Nat
  tag : BitVec 12
  lsrc : Byte
  outcome : BitVec 3
  detail : Byte
  beats : List RplData
  sent : Nat
  dl : Int
  cls : Cls
  readyCyc : Nat
  sectors : Nat                     -- sectors of data it carries
  hdrCredit : Bool
  sampled : Option Req
  deriving DecidableEq, Repr, Inhabited

/-- The reply beat on a port's output signals (Table 2-1, Table 2-7). -/
structure RplBeat where
  hdr : Word
  beat : Nat
  data : Option RplData
  deriving DecidableEq, Repr, Inhabited

/-- One request port. `waiting` lists the requests whose beat groups are still to come, in header order. -/
structure Port where
  hdrCredits : Nat
  beatCredits : Nat
  beatHeld : Nat
  wbuf : List Beat
  waiting : List Nat
  replies : List Reply
  out : Option RplBeat
  stall : Bool
  cntStage : Option (BitVec 16)
  cntHi : BitVec 16
  cntStamp : BitVec 16
  attnNum : Nat
  prog : Nat
  deriving DecidableEq, Repr, Inhabited

/-! ### Regions and handles (03) -/

/-- A cached handle entry: its 32 bytes, and whether the entry read was uncorrectable or poisoned (R82). -/
structure HdlEntry where
  bytes : BitVec 256
  bad : Bool
  poisoned : Bool
  dirty : Bool
  used : Nat
  deriving DecidableEq, Repr, Inhabited

/-- The command of HDL_OP in progress (R84). -/
structure HdlOp where
  cmd : Nat
  handle : BitVec 16
  image : BitVec 256
  judged : Bool
  result : Nat
  dl : Int                          -- of its store traffic, fixed when it started (Table 4-1)
  deriving DecidableEq, Repr, Inhabited

/-- The HDL unit (R80-R84). -/
structure Hdl where
  cache : Tab HdlEntry
  op : Option HdlOp
  result : Nat
  validCount : Nat
  uses : Nat
  arrivals : Nat                    -- handle commands that have reached the unit (R88)
  deriving DecidableEq, Repr, Inhabited

/-! ### Arbitration settings (04) -/

/-- The active ARB settings (Table 4-5); `next` are committed ones waiting for a window boundary (R104). -/
structure ArbSet where
  ctl : Word
  quota : Word
  mtRsv : Word
  hznLc : Word
  hznRt : Word
  hznBl : Word
  hznMt : Word
  portCap : Word
  deriving DecidableEq, Repr, Inhabited

/-- The ARB unit: settings in force, a commit waiting for its boundary with its writer's request, and the
tick before which the boundary does not count. -/
structure Arb where
  cur : ArbSet
  next : Option ArbSet
  waiter : Option Nat
  notBefore : Nat
  deriving DecidableEq, Repr, Inhabited

/-! ### Channels (04, 05, 09, 10, 11) -/

/-- Who a queue entry serves (Table 4-1). -/
inductive Owner where
  | port (id idx : Nat)            -- sector `idx` on of request `id`
  | crown (k job : Nat)            -- job of Crown `k`
  | evict (serial : Nat)           -- Liner eviction: its read, then its write
  | zero (id : Nat)                -- zero writes of an HRBK
  | hdl (h : Nat)                  -- handle store traffic
  | patrol                         -- patrol read
  | confirm                        -- read that confirms a sector named by a slice status (R292)
  | writeBack                      -- correction write-back, then its verify read
  | cal                            -- calibration read
  | slice (d : Nat)                -- vector copies and returning partials
  | remap                          -- remap copies and their verify
  | sweep                          -- initialisation sweep
  | recon (c bank row : Nat)       -- reads and rewrites of a vault row's reconstruction
  | test                           -- array access of the TEST unit
  | replay                         -- a write-type transfer re-issued after ALERT
  deriving DecidableEq, Repr, Inhabited

/-- Bytes that a queued read takes by forwarding: sector offset, byte mask, the sector's bytes (R115, R121). -/
structure Overlay where
  ofs : Nat
  mask : BitVec 32
  data : Sector
  seq : Nat                         -- the order of the write that it comes from
  deriving DecidableEq, Repr, Inhabited

/-- An entry of a requester queue or the command queue (R91, R108): 1 to 8 consecutive sectors of one row. -/
structure Entry where
  seq : Nat
  owner : Owner
  pos : Nat
  cls : Cls
  dl : Int
  joined : Nat
  place : Place
  n : Nat
  write : Bool
  data : List Sector
  vault : Option Vault
  mask : List (BitVec 32)
  done : Nat
  overlays : List Overlay           -- oldest first
  newer : List Nat                  -- sectors of a read that a newer write has met, whose rewrites are cancelled (R117)
  exempt : Bool
  granted : Bool                    -- decided for the next slot (R99)
  tJoin : Nat
  tGrant : Nat
  hitCls : Nat                      -- row hit 0, miss 1, conflict 2 when it joined (R110)
  spare : Option Nat                -- the field spare that a remap's copy goes to (R294)
  deriving DecidableEq, Repr, Inhabited

/-- Liner entry states other than FREE (Table 5-3). -/
inductive LinerSt where
  | merging | full | evicting
  | merged       -- EVICTING, its read returned: the merged sector waits to join the command queue
  deriving DecidableEq, Repr, Inhabited

/-- A Liner entry (R117-R122). `plain` holds the sector's 32 bytes, of which `mask` are enabled. -/
structure Liner where
  serial : Nat
  place : Place
  plain : BitVec 256
  mask : BitVec 32
  dl : Int                          -- of its oldest write
  evDl : Int                        -- of its eviction, synthesised when that was decided (Table 4-1)
  st : LinerSt
  born : Nat
  vault : Option Vault
  cls : Cls
  reqs : List Nat
  readBack : Option Sector
  deriving DecidableEq, Repr, Inhabited

/-- Bank half states (Table 5-1). -/
inductive HalfSt where
  | idle | activating | open_ | precharging | refreshing | reserved
  deriving DecidableEq, Repr, Inhabited

/-- One bank half as the scheduler tracks it: state, open row, whether a field spare is open, and the core
cycles of its last commands. -/
structure Half where
  st : HalfSt
  row : Nat
  spare : Bool
  exit : Nat
  tAct : Option Nat
  tRd : Option Nat
  tWr : Option Nat
  deriving DecidableEq, Repr, Inhabited

/-- One bank's refresh account (R256-R259): debt, further REFs owed, its window origin and due index. -/
structure Bank where
  debt : Int
  owed : Nat
  gauntlet : Bool
  gauntletSeq : Nat
  t0 : Nat
  due : Nat
  x2 : Bool
  afterSlice : Bool
  deriving DecidableEq, Repr, Inhabited

/-- A pending neighbour refresh (R262). -/
structure NrfReq where
  bank : Nat
  row : Nat
  spare : Bool
  deriving DecidableEq, Repr, Inhabited

/-- What a read-type column command in flight fetches, and for whom. -/
inductive Flight where
  | data (e : Entry) (place : Place)
  | verify (place : Place) (exp : List (Nat × Nat × Byte))
  | vrd (cal : Bool)
  | prd (d : Nat) (ctx : Nat)
  | srd (ctx : Nat)
  deriving DecidableEq, Repr, Inhabited

/-- A read-type command on its way: its order among the channel's column commands, and its purpose. -/
structure InFlight where
  order : Nat
  what : Flight
  deriving DecidableEq, Repr, Inhabited

/-- A write-type transfer kept for replay (R218): its order, the command as it was sent, its logical row, the field
spare that was open if one was, and whether a later read burst has confirmed it. -/
structure Replay where
  order : Nat
  cmd : Instr
  row : Nat
  spare : Option Nat
  confirmed : Bool
  deriving DecidableEq, Repr

/-- An entry of the channel's remap table (Table 11-9). -/
structure Remap where
  fenced : Bool
  fails : Nat
  bank : Nat
  row : Nat
  spare : Nat
  deriving DecidableEq, Repr, Inhabited

/-- A pending write-back with its verify (R283): the correction it follows, as (half, exponent, value). -/
structure WriteBack where
  place : Place
  data : Sector
  corr : List (Nat × Nat × Byte)
  state : Nat        -- 0 write queued, 1 verify queued, 2 verify issued
  seq : Nat
  deriving DecidableEq, Repr, Inhabited

/-- A verify read that has returned (R283). -/
structure VerifyRet where
  place : Place
  corr : List (Nat × Nat × Byte)
  data : Sector
  deriving DecidableEq, Repr, Inhabited

/-- A row reconstruction in progress (R290): its row, as the place that it was met at, the reads that wait for it, the
sectors read so far (32 and up are the parity sectors), those that a newer write has met, and its result once every read
is back: the row's sectors, or none where it failed. -/
structure Recon where
  place : Place
  vault : Vault
  cls : Cls
  dl : Int
  flights : List (Entry × Place)
  asked : Bool
  got : Tab Sector
  newer : List Nat
  res : Option (Option (List Sector))
  deriving DecidableEq, Repr, Inhabited

/-- The channel's power state (CH_PWR_STAT.STATE, Table 10-7). -/
inductive PdSt where
  | active | pulling
  | confirming       -- refreshes pulled in, the confirming VRD sent
  | powerdown | selfRefresh
  deriving DecidableEq, Repr, Inhabited

/-- Calibration values of one wire (R232, R238, R246, Table 9-6), in P0 taps unless the table says otherwise. -/
structure CalWire where
  rTarget : Int
  wTarget : Int
  bTarget : Int
  rApplied : Int
  wApplied : Int
  bApplied : Int
  sref : Nat
  rres : Int
  wres : Int
  driftAt : Int
  el : Int
  er : Int
  probeRight : Bool
  reye : Nat
  weye : Nat
  failed : Bool
  covered : Bool
  mitten : Bool
  stale : Bool
  low : Nat
  wlow : Nat
  sweeps : Nat
  rresShown : Int                   -- residual and LOW as the record shows them (R254)
  lowShown : Nat
  runs : Nat
  deriving DecidableEq, Repr, Inhabited

/-- Drift of one cuff and its HELD bit (R239). -/
structure Cuff where
  d : Int
  held : Bool
  deriving DecidableEq, Repr, Inhabited

/-- The spare of one half-channel (R213, R250): the wire it carries, whether for good, and whether it failed. -/
structure SpareWire where
  wire : Option Nat
  pat : Bool
  taken : Bool
  failed : Bool
  was : LaneMode                    -- the block's role for it before the last LANE
  from_ : Nat                       -- the core cycle from which that LANE holds for a burst
  tx : BitVec 7                     -- the last seven bits of PRBS7 that the block has sent
  deriving DecidableEq, Repr, Inhabited

/-- A slice: the part of an operation that one reservation of banks covers (R123, R145). `cost` is in
tenths of a nanosecond. -/
structure Slice where
  d : Nat
  ch : Nat
  first : Nat
  count : Nat
  runs : List (Bool × Nat × Nat × Nat × Nat)   -- operand B, bank, row, column, sectors
  banks : BitVec 16
  cost : Nat
  budget : Nat                      -- OCT_SLICE_CFG.BUDGET in ticks when it was cut (R178)
  writes : Bool                     -- it writes the array (R173)
  cls : Cls
  dl : Int
  seq : Nat
  resume : Word
  started : Option Nat
  pausedBanks : BitVec 16
  pausedAt : Option Nat
  pausedFor : Nat
  ctx : Option Nat                  -- the stack context that holds it, once it is filled
  area : Nat × Nat                  -- vector-buffer sectors of its run list and outputs: first, length
  pollAt : Nat
  got : List Sector
  final : Option Sector             -- the status sector that showed DONE with nothing waiting
  deriving DecidableEq, Repr, Inhabited

/-- A slice that has ended over uncorrectable vault rows: the places of its status, those whose rows are still being
reconstructed, whether all so far could be, the poison met, whether sectors beyond the named ones stay open, and its
resume word (R174). -/
structure SliceWait where
  x : Slice
  all : List Place
  left : List Place
  good : Bool
  poison : Option Byte
  more : Bool
  resume : Word
  idx : Nat                         -- its out-of-range entries
  deriving DecidableEq, Repr

/-- Grants per class in the window (R97). -/
structure Counts where
  lc : Nat
  rt : Nat
  bl : Nat
  mt : Nat
  deriving DecidableEq, Repr, Inhabited

/-- One channel of the block. -/
structure Chan where
  rq : List Entry
  cmdq : List Entry
  liner : List Liner
  serial : Nat
  counts : Counts
  slotIdx : Nat
  rot : Nat
  dirWrite : Bool
  batch : Nat
  lastRd : Option Nat
  lastWr : Option Nat
  lastCol : Option Nat              -- core cycle of the last column command
  colAt : Tab Nat                   -- and of the last one of each bank group
  lastRow : Option Nat
  acts : List (Nat × Nat)           -- recent activates: core cycle, bank
  halves : Tab Half
  banks : Tab Bank
  nrfq : List NrfReq
  gen : BitVec 64
  credit : Int
  order : Nat
  inflight : List InFlight
  replay : List Replay
  replayq : List Entry              -- transfers that a recovery sends again, in their order (R217)
  replayLost : Bool
  rowOut : List (Nat × Instr)       -- row commands on their way, with the core cycle in which each went out
  colOut : List (Nat × Instr)       -- column commands likewise
  slicer : List Slice
  sliceq : List Slice
  running : Tab Slice
  wbs : List WriteBack
  vrets : List VerifyRet
  recon : List Recon
  heldRows : List (Nat × Nat)
  noSlice : List Nat
  remap : Tab Remap
  dead : List (Nat × Nat)           -- retired spares: bank, spare
  partIn : List (Nat × Nat × Sector) -- partial sectors arrived: descriptor, context, data
  sliceWait : List SliceWait        -- ended slices that wait on reconstructions (R174)
  pd : PdSt
  idleSince : Option Nat
  wakeAt : Option Nat
  wckOff : Option Nat               -- the core cycle from which the channel's wire clock stands still (R265, R270)
  halted : Bool
  cal : Tab CalWire
  cuffs : Tab Cuff
  spares : Tab SpareWire
  readBursts : Nat                  -- read bursts of the window, and of the calibration step
  stepBursts : Nat
  patrolRow : Nat
  patrolAt : Nat                    -- tick of the patrol's last visit (R286)
  patrolBank : Nat
  prog : Nat
  gauntletSeq : Nat
  deriving DecidableEq, Repr, Inhabited

/-! ### Crowns and operations (06, 07) -/

/-- A fragment sector held in scratch (R197): place, ETYPE, CID, data, its order, and whether the scratch
granules are still correctable. -/
structure Held where
  place : Place
  etype : Nat
  cid : BitVec 16
  data : Sector
  seq : Nat
  vault : Option Vault
  deriving DecidableEq, Repr, Inhabited

/-- What a Crown job does to its sector. -/
inductive JobKind where
  | atomic (aop etype : Nat) (vec : Bool) (ofs : Nat) (operand : Sector)
  | reduce (etype : Nat) (operand : Sector)
  | drain
  | result (data : Sector)
  | parity (data : Place) (delta : BitVec 256)
  deriving DecidableEq, Repr, Inhabited

/-- How far a Crown job has come (R189, R201). -/
inductive JobSt where
  | queued | wantLock | reading | returned | writing
  deriving DecidableEq, Repr, Inhabited

/-- A Crown job: one sector read, changed and written under a lock. -/
structure Job where
  jid : Nat
  req : Option Nat
  kind : JobKind
  place : Place
  vault : Option Vault
  cls : Cls
  dl : Int
  seq : Nat
  port : Nat
  st : JobSt
  lock : Bool
  mark : Nat
  got : Option Sector
  base : Option Sector              -- what a drain has read, without the fragments (R199)
  deriving DecidableEq, Repr, Inhabited

/-- A work item of a Crown's queue (R181). -/
inductive Item where
  | job (jid : Nat)
  | partialSec (d ch : Nat) (s : Sector)
  | sliceEnd (d ch first count : Nat) (last : Bool) (res : List Sector)
  | fabric (d oct : Nat)
  deriving DecidableEq, Repr, Inhabited

/-- A queued work item with its keys. -/
structure QItem where
  item : Item
  dl : Int
  cls : Cls
  joined : Nat
  port : Nat
  deriving DecidableEq, Repr, Inhabited

/-- UNIT_RUN of an OCT or ECC unit (R404). -/
inductive RunSt where
  | running | stopReq | stopped
  deriving DecidableEq, Repr, Inhabited

/-- One octant's Crown and slicer. -/
structure Oct where
  queue : List QItem
  jobs : List Job
  locks : List (Nat × Place)        -- holder job, place
  scratch : Tab Granule
  lost : Option Nat                 -- the number of the fault that lost the scratch, since it was last zeroised (R194)
  held : List Held
  rsvBytes : List (Nat × Nat)       -- request, bytes of working area
  rsvLocks : List (Nat × Nat)       -- request, lock slots
  jid : Nat
  run : RunSt
  dead : Bool                       -- an unrepairable scratch test leaves the octant stopped (R376)
  prog : Nat
  deriving DecidableEq, Repr, Inhabited

/-- A 64-byte operation descriptor (Table 6-1). -/
structure Desc where
  op : Byte
  mode : Byte
  types : Byte
  ctl : Byte
  flags : Byte
  nvec : Byte
  handle : BitVec 16
  deadline : BitVec 24
  chmask : BitVec 64
  opra : Word
  oprb : Word
  cntM : Word
  cntK : Word
  bofs : BitVec 16
  blen : BitVec 16
  param0 : Word
  param1 : Word
  daddr : BitVec 40
  rcap : BitVec 16
  deriving DecidableEq, Repr, Inhabited

/-- What an operation has per channel: whether its vector copy is done, and its slices still to run. -/
structure OpChan where
  copied : Bool
  copying : Bool
  left : Nat
  part : List (Nat × Nat)           -- list position and local position of its items (R138)
  parts : List (Nat × Nat × List Sector)  -- first unit, units and returned sectors of each started slice
  done : Bool
  deriving DecidableEq, Repr, Inhabited

/-- An entry of the descriptor table (R143). -/
structure Op where
  num : Nat
  req : Nat
  d : Desc
  form : OpForm
  mask : BitVec 64
  head : Nat
  cls : Cls
  dl : Int
  lvis : Nat
  units : List (Nat × List SecRef)   -- for ATTN and copies: unit number and its sectors, in unit order
  dst : List SecRef                  -- STACK result sectors
  opA : Option Region                -- regions of the resident operands, as translated at step 2
  opB : Option Region
  chans : Tab OpChan
  octDone : List Nat
  writing : Bool
  left : Nat
  stopped : Bool
  poison : Option Byte
  recon : Bool
  order : Nat
  deriving DecidableEq, Repr, Inhabited

/-- The dispatcher on OCT0 (R143, Table 6-9). -/
structure Disp where
  ops : Tab Op
  bbuf : Tab Granule
  order : Nat
  prog : Nat
  deriving DecidableEq, Repr, Inhabited

/-! ### Link and calibration engines (08, 09) -/

/-- A sideband transaction (R221, R222): the request, who asked, tries so far, when its request ended, and
the response the stack has given. -/
structure Sb where
  cmd : Nat
  ch : Byte
  addr : BitVec 24
  len : Nat
  words : List Word
  orig : Nat          -- the command whose end PP_STAT polls ask for; else the command itself
  user : Nat          -- 1 housekeeping, 2 counters and ALERT, 3 repair records, 4 LINK_PP_OP, 5 T1500
  tries : Nat
  sentTick : Nat
  resp : Option (Byte × List Word)
  deriving DecidableEq, Repr, Inhabited

/-- The LINK unit (R219-R226, Table 8-11). -/
structure Link where
  cur : Option Sb
  queue : List Sb
  sbUp : Bool
  ppValid : Bool
  ppArea : Bool
  ppDest : Bool                     -- the area that records go to: the other one from the start of a compaction on (R225)
  bootAt : Option Nat               -- the passport address that boot reads next, until it has read all (R223, R224)
  ppBusy : Bool
  ppLive : Nat
  ppSeq : Nat
  ppNext : Nat
  opBusy : Bool
  opResult : Nat
  ceRounds : Tab Nat
  tables : Tab Byte                 -- the delay blocks as read at boot
  deriving DecidableEq, Repr, Inhabited

/-- Phases of a sweep (Table 9-3). -/
inductive SweepPh where
  | idle | scan | verify | wait
  deriving DecidableEq, Repr, Inhabited

/-- How an SR_LN_ERR read stands: it is asked for, its probe has been discarded, or it was abandoned (R222, R246, R248). -/
inductive ProbeSt where
  | waiting | dropped | lost
  deriving DecidableEq, Repr, Inhabited

/-- The SR_LN_ERR read of a swept wire (R246): the wire and its channel, which edge was probed, and the scanned eye where the
verify stood. -/
structure Probe where
  wire : Nat
  ch : Nat
  right : Bool
  eye : Option Nat
  st : ProbeSt
  deriving DecidableEq, Repr, Inhabited

/-- A calibration engine (R242-R247). -/
structure CalEng where
  wire : Nat
  chofs : Nat
  active : Bool
  phase : SweepPh
  passes : Nat
  forced : Option (Nat × Nat)
  pos : Nat
  centre : Int
  openPos : List Int
  oldR : Int
  oldW : Int
  oldRres : Int                     -- read residual and drift_at_sweep before the sweep (R248)
  oldDrift : Int
  vfail : Bool
  resume : Nat
  lastErr : Tab Word
  pendErr : List Probe              -- SR_LN_ERR reads to come, the oldest first
  lnGot : List (Nat × Word)         -- SR_LN_ERR answers that are in: channel, word
  found : Option (Nat × Int)        -- the scan's eye width and result
  stepAt : Nat
  extOk : Bool
  fallback : Bool
  goodRounds : Nat
  extCount : Nat
  deriving DecidableEq, Repr, Inhabited

/-! ### Housekeeping, repair (10, 11) -/

/-- The sequences HK runs one at a time (Table 16-8). -/
inductive Seq where
  | freq (point : Nat) (loaddef : Bool)
  | repair
  | mbist (oct : Nat)
  deriving DecidableEq, Repr, Inhabited

/-- The steps of a frequency change that are open (Table 10-6). -/
inductive FreqPh where
  | none | drain | selfRefresh
  deriving DecidableEq, Repr, Inhabited

/-- The HK unit (R269-R274, R412). -/
structure Hk where
  cur : Option Seq
  waiting : List Seq
  point : Nat
  freq : FreqPh
  freqStart : Nat
  freqBusy : Bool
  freqResult : Nat
  freqCount : Nat
  freqLast : Nat
  freqMax : Nat
  deriving DecidableEq, Repr, Inhabited

/-- A queued row failure: channel, bank, row (R292). -/
structure RowFail where
  ch : Nat
  bank : Nat
  row : Nat
  deriving DecidableEq, Repr, Inhabited

/-- The steps of a remap (Table 11-5): waiting for started transfers, copy reads, copy writes, verify reads. -/
inductive RemapPh where
  | quiet | read | write | verify
  deriving DecidableEq, Repr, Inhabited

/-- The repair in progress (R294): its row, the entry it will write, the spare it fills, its step, the sectors copied so
far, how many the verify has read, and whether one was not as written. -/
structure Repair where
  row : RowFail
  entry : Nat
  spare : Nat
  fails : Nat
  tries : Nat
  ph : RemapPh
  got : Tab Sector
  checked : Nat
  bad : Bool
  deriving DecidableEq, Repr, Inhabited

/-- The ECC unit (R286, R292-R294). -/
structure Ecc where
  queue : List RowFail
  repair : Option Repair
  run : RunSt
  scrNow : Bool
  scrNext : Option Bool
  passes : Nat
  visits : Nat
  deriving DecidableEq, Repr, Inhabited

/-! ### Temperature, power (12) -/

/-- State of a sensor (R305). -/
inductive SensSt where
  | good | suspect | failed
  deriving DecidableEq, Repr, Inhabited

/-- One temperature sensor; values in 1/16 °C (R303, R305, R351). -/
structure Sensor where
  heldVal : Int
  seen : Bool
  rvalid : Bool            -- its last reading was not missing
  st : SensSt
  dis : Nat
  srounds : Nat
  readNow : Bool           -- it was polled in this round
  reading : Int
  deriving DecidableEq, Repr, Inhabited

/-- Write states (Table 12-3). -/
inductive WSt where
  | open_ | brim | hold | trip
  deriving DecidableEq, Repr, Inhabited

/-- The THM unit (R302-R319). -/
structure Thm where
  started : Bool           -- step 8 of boot has begun (R351)
  slot : Nat
  slotAt : Nat             -- the tick at which the next slot begins (R302)
  round : Nat
  rounds8 : Nat            -- rounds counted from step 8 on
  sens : Tab Sensor
  hot : Int
  cold : Int
  hist : List Int
  rate : Int
  tstep : Nat
  clear : Nat
  w : WSt
  forbid : Bool
  degraded : Bool
  budget : Nat             -- µs; budgetFrac counts 1/250,000 µs beyond it
  budgetFrac : Nat
  tripRounds : Nat
  tripClear : Nat
  tripPh : Nat             -- 0 none, 1 draining, 2 in self-refresh, 3 exiting
  tripWait : Bool          -- a trip that waits for a frequency change (R317)
  tripSensor : Nat
  x2 : Bool
  coolRounds : Nat
  missPmb : Nat
  missNow : Bool           -- a PMBus reading of this round is missing
  statusSeen : Bool
  deriving DecidableEq, Repr, Inhabited

/-- The PWR unit (R320-R323, Table 12-11). -/
structure Pwr where
  pmbOk : Bool
  avsOk : Bool
  vddCur : Nat
  vin : BitVec 16
  iin : BitVec 16
  coreV : BitVec 16
  coreI : BitVec 16
  arrI : BitVec 16
  ctemp : BitVec 16
  status : BitVec 16
  margin : Nat
  marginValid : Bool
  lowRnds : Nat
  hiRnds : Nat
  ovPl : Bool
  ovVdd : Bool
  vddNext : Option Nat     -- core rail voltage asked for, in mV
  pmbFresh : Tab Nat       -- round in which each PMBus reading last completed
  vinOut : Bool
  pwrOnTick : Nat
  pgoodTick : Nat
  deriving DecidableEq, Repr, Inhabited

/-! ### Faults, log, tests, counters, SEC (14, 15, 16) -/

/-- The scope of a fault (Table 14-1). -/
inductive Scope where
  | channel (c : Nat) | octant (k : Nat) | block
  deriving DecidableEq, Repr, Inhabited

/-- A recovery in progress (R360). -/
structure Recovery where
  scope : Scope
  cls : Nat
  page : Nat
  src : FaultSource
  start : Nat
  restarts : Nat
  deriving DecidableEq, Repr, Inhabited

/-- A log entry (Table 14-8). -/
structure LogEntry where
  time : BitVec 48
  seq : BitVec 16
  code : BitVec 16
  unit : Byte
  level : Nat
  tu : Bool
  data : Word
  deriving DecidableEq, Repr, Inhabited

/-- The log (R366-R372). -/
structure Log where
  entries : List LogEntry
  next : BitVec 16
  inq : List LogEntry               -- the input queue of 64 entries (R367)
  staging : List LogEntry
  tested : Bool
  rdBusy : Bool
  rdResult : Nat
  deriving DecidableEq, Repr, Inhabited

/-- Instructions of the test access port (Table 14-14). -/
inductive JtagIr where
  | bypass | idcode | cfg | testctl | scan | fuse
  deriving DecidableEq, Repr, Inhabited

/-- The TEST unit and the test access port (R373-R381). -/
structure Test where
  zeroised : Bool
  hold : Bool
  stackTest : Bool
  lbistRan : Bool
  lbistPass : Bool
  failPart : BitVec 16
  mbistBusy : Bool
  mbistResult : Nat
  mbistRows : Byte
  mbistCols : Byte
  mbistFused : Byte
  t1500Busy : Bool
  t1500Result : Nat
  ir : JtagIr
  cfgDr : BitVec 54
  bypassDr : Bool
  idDr : Word
  scanning : Bool
  deriving DecidableEq, Repr, Inhabited

/-- A sample record (Table 15-5) and whether it has been copied out. -/
structure Sample where
  bits : BitVec 256
  seq : BitVec 16
  read : Bool
  deriving DecidableEq, Repr, Inhabited

/-- The PMU (R382-R400). -/
structure Pmu where
  cnt : Tab (BitVec 48)
  cfg : Tab (BitVec 17)
  cfgErr : Bool
  smpLeft : Nat
  smpDue : Option Nat
  smpSel : List Nat                 -- candidates sampled without a SAMPLE_SELECT, until their first reply beat
  smpGen : BitVec 64
  buf : List Sample
  next : BitVec 16
  rdBusy : Bool
  rdResult : Nat
  deriving DecidableEq, Repr, Inhabited

/-- The SEC unit (R280, R373, R411). -/
structure Sec where
  key : BitVec 128
  keyed : Bool
  health : Bool
  waits : List Nat
  deriving DecidableEq, Repr, Inhabited

/-! ### The stack (08, 10, 11) -/

/-- What an unlisted array granule reads as: what power-on number `gen` left, or the initialisation sweep's
zero data under a key (R229, R350 step 10). -/
inductive ArrayBase where
  | powerOn (gen : Nat)
  | swept (key : BitVec 128) (scr : Bool)
  deriving DecidableEq, Repr, Inhabited

/-- SRD's STATE byte (Table 8-6). -/
inductive CtxSt where
  | idle | running | paused | stalled | done | aborted
  deriving DecidableEq, Repr, Inhabited

/-- One slice context of a channel's stack (R214, R215). -/
structure Ctx where
  parm : Tab Sector
  st : CtxSt
  raw : Bool                        -- nothing has started in it since power-on
  banks : BitVec 16
  pausedBanks : BitVec 16
  wait : List Sector                -- outputs that the output area has no room for yet
  ready : Nat                       -- outputs in the output area
  head : Nat                        -- the next of them to be read, from the area's first sector
  ce : Nat
  resume : Word
  ues : List Place
  idxoor : Nat
  used : Nat                        -- core cycles of bank time used up to `mark`
  stalled : Nat                     -- core cycles stalled up to `mark`
  mark : Nat
  cost : Nat                        -- tenths of a nanosecond of bank time
  outOfs : Nat
  outLen : Nat
  wrote : List Place
  deriving DecidableEq, Repr, Inhabited

/-- A read burst the stack has driven (R217): the two granules on its wires, or the alert pattern. -/
structure Burst where
  g0 : Granule
  g1 : Granule
  alert : Bool
  order : Nat
  at_ : Nat                         -- the core cycle in which it began at the stack
  deriving DecidableEq, Repr, Inhabited

/-- The lane state at the stack's end of one half-channel (R213): the role of the last LANE, the role before it and the core
cycle from which the new one holds for a burst; the last seven bits of PRBS7 that the stack has sent, and that it has
received. -/
structure StkLane where
  wire : Nat
  sel : Bool
  pat : Bool
  was : LaneMode
  from_ : Nat
  tx : BitVec 7
  hist : BitVec 7
  deriving DecidableEq, Repr, Inhabited

/-- One channel of the stack logic die. -/
structure StkChan where
  array : Tab Granule
  vbuf : Tab Granule
  opens : Tab (Nat × Bool)          -- open row of each half, and whether it is a field spare
  rsv : Tab Nat                     -- reserved bank, its context
  ctxs : Tab Ctx
  alert : Bool
  alertCause : Nat
  alertCount : Nat
  lnErr : Word
  nrfCfg : Word
  seedLo : Word
  gen : BitVec 64
  lastNrf : Option (Nat × Nat × Bool × Bool)  -- the last neighbour refresh: bank, row, spare, radius 2
  nrfCount : Nat
  refCtr : Tab Nat
  selfRefresh : Bool
  srMark : Nat                      -- the tick up to which refCtr counts the refreshes of self-refresh (R268)
  powerDown : Bool
  cmdCe : Tab Nat
  sref : Tab Nat
  remap : Tab Word
  lanes : Tab StkLane
  ret : List Burst
  col : Nat
  tAct : Tab Nat                    -- core cycles of the last commands: activates, precharges and column accesses by half,
  tPre : Tab Nat
  tRd : Tab Nat
  tWr : Tab Nat
  tRef : Tab Nat                    -- refreshes by bank, and the end of a neighbour refresh by half
  tNrf : Tab Nat
  acts : List (Nat × Nat)           -- recent activates, refreshes and neighbour refreshes: core cycle, bank
  lastCol : Option Nat              -- the last column command, the last of each bank group, and the last read and write
  colAt : Tab Nat
  lastRd : Option Nat
  lastWr : Option Nat
  deriving DecidableEq, Repr, Inhabited

/-- The stack as a whole. -/
structure Stack where
  chans : Tab StkChan
  base : ArrayBase
  gen : Nat
  key : BitVec 128
  keyLoad : BitVec 128
  scrEn : Bool
  point : Nat
  temps : Tab Word                  -- SR_TEMP and SR_TEMP_BASE words, by word address
  vmon : Word
  passport : Tab Byte
  ppBusy : Bool
  ppFail : Bool
  ppWork : Option (Nat × Nat)        -- being programmed or erased: first byte, bytes
  wir : Byte
  deriving DecidableEq, Repr, Inhabited

/-! ### The machine -/

/-- Why the machine stops. `absentUnit`: an event names a channel, octant or calibration engine that the part
does not have (R4, R16); raised by every event row that names a unit; safe, because no such unit exists. -/
inductive Fault where
  | absentUnit
  deriving DecidableEq, Repr, Inhabited

/-- Why a command has no meaning. `notModelled`: raised by no meaning, only by an arm of `exec` whose command
is not modelled yet; safe, because the machine stops. -/
inductive Refusal where
  | notModelled (mnemonic : String)
  deriving DecidableEq, Repr, Inhabited

/-- The whole machine. `free` counts the free values taken so far (the model's own field, log 6); `pending`
is the queue of commands (the model's own). `regs` holds the register fields whose home is their register, by
page × 4096 + offset; an unlisted register holds its reset value. -/
structure State where
  part : Part
  time : Time
  clk : Clk
  blk : Blk
  pins : Pins
  regs : Tab Word
  ports : Tab Port
  reqs : List Req
  nextReq : Nat
  rgn : Tab Region
  attn : AttnWin
  hdl : Hdl
  arb : Arb
  winStart : Nat
  chans : Tab Chan
  disp : Disp
  octs : Tab Oct
  link : Link
  cals : Tab CalEng
  hk : Hk
  ecc : Ecc
  thm : Thm
  pwr : Pwr
  log : Log
  recov : List Recovery
  lastFault : Nat × Nat
  lastInt : Nat
  test : Test
  pmu : Pmu
  sec : Sec
  stack : Stack
  free : Nat
  pending : List Instr
  deriving DecidableEq, Repr

/-! ### Reset -/

/-- A port after reset: no credits, nothing queued (R35, Table 2-13). -/
def Port.reset : Port :=
  { hdrCredits := 0, beatCredits := 0, beatHeld := 0, wbuf := [], waiting := [], replies := [], out := none,
    stall := false, cntStage := none, cntHi := 0, cntStamp := 0, attnNum := 0, prog := 0 }

/-- A bank half after reset: IDLE (Table 5-1). -/
def Half.reset : Half :=
  { st := .idle, row := 0, spare := false, exit := 0, tAct := none, tRd := none,
    tWr := none }

/-- A bank after reset: debt 0 (R257). -/
def Bank.reset : Bank :=
  { debt := 0, owed := 0, gauntlet := false, gauntletSeq := 0, t0 := 0, due := 0, x2 := false,
    afterSlice := false }

/-- A calibration wire at reset: every field reads 0 (Table 9-6); the edges stand where tracking starts (R246). -/
def CalWire.reset : CalWire :=
  { rTarget := 0, wTarget := 0, bTarget := 0, rApplied := 0, wApplied := 0, bApplied := 0, sref := 0,
    rres := 0, wres := 0, driftAt := 0, el := -16, er := 16, probeRight := false, reye := 0, weye := 0,
    failed := false, covered := false, mitten := false, stale := false, low := 0, wlow := 0, sweeps := 0,
    rresShown := 0, lowShown := 0, runs := 0 }

/-- A cuff at reset: D = 0 (R239). -/
def Cuff.reset : Cuff := { d := 0, held := false }

/-- A spare at reset: idle (R229: SEL = 0). -/
def SpareWire.reset : SpareWire := 
  { wire := none, pat := false, taken := false, failed := false, was := { wire := none, pat := false }, from_ := 0, tx := 0x7F#7 }

/-- A channel after reset: empty queues, debts 0, rotation pointer 0 (R95, R257). The generator and the energy
credit have no reset value in the manual (log 3). -/
def Chan.reset : Chan :=
  { rq := [], cmdq := [], liner := [], serial := 0, counts := { lc := 0, rt := 0, bl := 0, mt := 0 },
    slotIdx := 0, rot := 0, dirWrite := false, batch := 0, lastRd := none, lastWr := none, lastCol := none, colAt := [],
    lastRow := none, acts := [], halves := [], banks := [], nrfq := [], gen := 0, credit := 0,
    order := 0, inflight := [], replay := [], replayq := [], replayLost := false, rowOut := [],
    colOut := [], slicer := [], sliceq := [], running := [], wbs := [], vrets := [], recon := [],
    heldRows := [], noSlice := [], remap := [], dead := [], partIn := [], sliceWait := [], pd := .active,
    idleSince := none, wakeAt := none, wckOff := none, halted := false, cal := [], cuffs := [], spares := [],
    readBursts := 0, stepBursts := 0, patrolRow := 0, patrolAt := 0, patrolBank := 0, prog := 0, gauntletSeq := 0 }

/-- An octant after reset: running, everything empty (Table 7-8). -/
def Oct.reset : Oct :=
  { queue := [], jobs := [], locks := [], scratch := [], lost := none, held := [], rsvBytes := [],
    rsvLocks := [], jid := 0, run := .running, dead := false, prog := 0 }

/-- A calibration engine after reset: idle (Table 9-4). -/
def CalEng.reset : CalEng :=
  { wire := 0, chofs := 0, active := false, phase := .idle, passes := 0, forced := none, pos := 0,
    centre := 0, openPos := [], oldR := 0, oldW := 0, oldRres := 0, oldDrift := 0, vfail := false, resume := 0,
    lastErr := [], pendErr := [], lnGot := [], found := none, stepAt := 0, extOk := false, fallback := false, goodRounds := 0, extCount := 0 }

/-- A sensor after reset: no reading yet (R351). -/
def Sensor.reset : Sensor :=
  { heldVal := 0, seen := false, rvalid := false, st := .good, dis := 0, srounds := 0, readNow := false,
    reading := 0 }

/-- A slice context nothing has been written into (R229). -/
def Ctx.reset : Ctx :=
  { parm := [], st := .idle, raw := true, banks := 0, pausedBanks := 0, wait := [], ready := 0, head := 0, ce := 0,
    resume := 0, ues := [], idxoor := 0, used := 0, stalled := 0, mark := 0, cost := 0, outOfs := 0, outLen := 0,
    wrote := [] }

/-- A lane at SEL = 0 (R229). -/
def StkLane.reset : StkLane :=
  { wire := 0, sel := false, pat := false, was := { wire := none, pat := false }, from_ := 0, tx := 0x7F#7, hist := 0x7F#7 }

/-- A channel of the stack after release of STK_RST_N (R229): banks IDLE, not in ALERT, and SR_NRF_CFG with
EN = 1, RAD2 = 0, K = 10 (Table 10-3). -/
def StkChan.reset : StkChan :=
  { array := [], vbuf := [], opens := [], rsv := [], ctxs := [], alert := false, alertCause := 0,
    alertCount := 0, lnErr := 0, nrfCfg := 0x51#32, seedLo := 0, gen := 1, lastNrf := none, nrfCount := 0, refCtr := [],
    selfRefresh := false, srMark := 0, powerDown := false, cmdCe := [], sref := [], remap := [], lanes := [], ret := [],
    col := 0, tAct := [], tPre := [], tRd := [], tWr := [], tRef := [], tNrf := [], acts := [], lastCol := none, colAt := []
    lastRd := none, lastWr := none }

/-- The SEAL of SEQ 1 with which a passport leaves manufacture, in the first place of REP_A (R224, Table 8-10). -/
def madeSeal : Tab Byte :=
  [(0x10000, 0x01#8), (0x10001, 0x00#8), (0x10002, 0x00#8), (0x10003, 0x00#8), (0x10004, 0x04#8), (0x10005, 0x00#8), (0x10006, 0x00#8), (0x10007, 0xFF#8),
    (0x10008, 0x00#8), (0x10009, 0x00#8), (0x1000A, 0x00#8), (0x1000B, 0x00#8), (0x1000C, 0x00#8), (0x1000D, 0x00#8), (0x1000E, 0x4F#8), (0x1000F, 0xDA#8)]

/-- The stack before its first power-on. -/
def Stack.reset : Stack :=
  { chans := [], base := .powerOn 0, gen := 0, key := 0, keyLoad := 0, scrEn := true, point := 0,
    temps := [], vmon := 0, passport := madeSeal, ppBusy := false, ppFail := false, ppWork := none, wir := 0 }

/-- The reset values of the ARB settings (Table 4-5). -/
def ArbSet.reset : ArbSet :=
  { ctl := 0, quota := 0x40403828#32, mtRsv := 2, hznLc := 0x32, hznRt := 0x1F4, hznBl := 0x30D4,
    hznMt := 0x3D090, portCap := 0 }

/-- The time base after reset: BLK_TIME 0 and uncertain (Table 13-9, R344). -/
def Time.reset : Time := { sub := 0, cyc := 0, tick := 0, blk := 0, hiLatch := 0, uncertain := true }

/-- The CLK unit after reset (Table 13-10, R333): on the IRC, no gate set. -/
def Clk.reset : Clk :=
  { refPresent := true, refOk := false, pllLock := false, onPll := false, coreRun := false, relocks := 0,
    lastCount := 0, passed := 0, fails := 0, sum := 0, ratio := 0, tries := 0, attempts := 0,
    phase := .none, gate := 0, stopped := 0, fmeasBusy := false, fmeasDone := false, fmeasStopped := false,
    swDomain := 0, swForced := false, forcedCount := 0 }

/-- The BLK unit after a cold reset: BOOT, step 1 (Table 13-9). The LBIST fuse is unprogrammed (log 3). -/
def Blk.reset : Blk :=
  { st := .boot, step := 1, cause := 0, waitThermal := false, waitLogged := false, warm := false,
    bootStart := 0, stepStart := 0, bootMs := 0, lost := false, lbist := false, warmDue := none,
    entropyTries := 0 }

/-- The pins at the first step of boot (R348, Table 13-7): stack off, stack reset held, trip released, alert
high by its pull-up. -/
def Pins.reset : Pins :=
  { portOpen := false, stkPwrEn := false, stkPgood := false, stkRstN := false, thermTripN := true,
    pmbAlertN := true, wckRun := false }

/-- The HDL unit after reset (Table 3-8). -/
def Hdl.reset : Hdl :=
  { cache := [], op := none, result := 0, validCount := 0, uses := 0, arrivals := 0 }

/-- The LINK unit after reset (Table 8-11). -/
def Link.reset : Link :=
  { cur := none, queue := [], sbUp := false, ppValid := false, ppArea := false, ppDest := false, bootAt := none, ppBusy := false,
    ppLive := 0, ppSeq := 0, ppNext := 0, opBusy := false, opResult := 0, ceRounds := [], tables := [] }

/-- The HK unit after reset: P0, no sequence (R269, Tables 10-8 and 16-8). -/
def Hk.reset : Hk :=
  { cur := none, waiting := [], point := 0, freq := .none, freqStart := 0,
    freqBusy := false, freqResult := 0, freqCount := 0, freqLast := 0, freqMax := 0 }

/-- The ECC unit after reset (Table 11-7): scrambling on. -/
def Ecc.reset : Ecc :=
  { queue := [], repair := none, run := .running, scrNow := true, scrNext := none,
    passes := 0, visits := 0 }

/-- The THM unit after reset (Table 12-9): OPEN, step 0, Brim budget 20,000 µs. -/
def Thm.reset : Thm :=
  { started := false, slot := 0, slotAt := 0, round := 0, rounds8 := 0, sens := [], hot := 0, cold := 0, hist := [],
    rate := 0, tstep := 0, clear := 0, w := .open_, forbid := false, degraded := false, budget := 20000,
    budgetFrac := 0, tripRounds := 0, tripClear := 0, tripPh := 0,
    tripWait := false, tripSensor := 0, x2 := false, coolRounds := 0, missPmb := 0, missNow := false, statusSeen := false }

/-- The PWR unit after reset (Table 12-11). -/
def Pwr.reset : Pwr :=
  { pmbOk := false, avsOk := false, vddCur := 0, vin := 0, iin := 0, coreV := 0, coreI := 0, arrI := 0,
    ctemp := 0, status := 0, margin := 0, marginValid := false, lowRnds := 0, hiRnds := 0, ovPl := false,
    ovVdd := false, vddNext := none, pmbFresh := [], vinOut := false,
    pwrOnTick := 0, pgoodTick := 0 }

/-- The log after a cold reset: empty, SEQ 0 (R369). -/
def Log.reset : Log :=
  { entries := [], next := 0, inq := [], staging := [], tested := false, rdBusy := false, rdResult := 0 }

/-- The TEST unit and test access port after reset (Table 14-15): BYPASS. -/
def Test.reset : Test :=
  { zeroised := false, hold := false, stackTest := false, lbistRan := false, lbistPass := false,
    failPart := 0, mbistBusy := false, mbistResult := 0, mbistRows := 0, mbistCols := 0,
    mbistFused := 0, t1500Busy := false, t1500Result := 0, ir := .bypass, cfgDr := 0,
    bypassDr := false, idDr := 0, scanning := false }

/-- The PMU after reset: every counter and the sampler read zero (R384). -/
def Pmu.reset : Pmu :=
  { cnt := [], cfg := [], cfgErr := false, smpLeft := 0, smpDue := none, smpSel := [], smpGen := 0,
    buf := [], next := 0, rdBusy := false, rdResult := 0 }

/-- The SEC unit after reset (Table 16-7): not keyed. -/
def Sec.reset : Sec := { key := 0, keyed := false, health := false, waits := [] }

/-- The machine right after a cold reset (R346): boot step 1 of a Rosura 64 (log 1). -/
def State.reset : State :=
  { part := .rosura64, time := Time.reset, clk := Clk.reset, blk := Blk.reset, pins := Pins.reset,
    regs := [], ports := [], reqs := [], nextReq := 0, rgn := [],
    attn := { riseAt := 0, up := false, clearId := none, fallEnd := 0, num := 0 }, hdl := Hdl.reset,
    arb := { cur := ArbSet.reset, next := none, waiter := none, notBefore := 0 }, winStart := 0,
    chans := [], disp := { ops := [], bbuf := [], order := 0, prog := 0 }, octs := [], link := Link.reset,
    cals := [], hk := Hk.reset, ecc := Ecc.reset, thm := Thm.reset, pwr := Pwr.reset, log := Log.reset,
    recov := [], lastFault := (0, 0), lastInt := 0, test := Test.reset, pmu := Pmu.reset, sec := Sec.reset,
    stack := Stack.reset, free := 0, pending := [] }

end Sys2Proof.Machine
end

