-- ==== Sys2Proof/Machine/RegTable.lean ====
section
/-! DEFINITION. The register map: every field of every page with its place, access type and reset value, as
the register tables of the chapters give them (R10, R401-R403, Tables 2-11 to 16-8). -/

namespace Sys2Proof.Machine

/-- The units, one page kind each (Tables 16-1 and 16-3). -/
inductive UnitKind where
  | blk | clk | hk | thm | pwr | cal | log | pmu | test | sec | arb | rgn | hdl | oct | link | ecc | port | ch
  deriving DecidableEq, Repr

/-- Access types of Table 0-3; `rc` is an RW field whose meaning reads "Write 0 to clear" (R408). -/
inductive Acc where
  | rw | ro | w1c | wo | rws | rwx | rc
  deriving DecidableEq, Repr

/-- A field of a register or of a row of registers: `n` registers from `off`, `stride` apart; its low bit, its
width, its access type and its reset value. -/
structure RegField where
  off : Nat
  stride : Nat
  n : Nat
  lo : Nat
  w : Nat
  acc : Acc
  rst : Nat
  deriving DecidableEq, Repr

/-- Registers of the BLK page, part 1 of 2. -/
def regFieldsBlk1 : List RegField :=
  [⟨0x010, 0, 1, 0, 1, .w1c, 0x0⟩,  -- UNIT_ATTN.SYNC_STEP, R353
   ⟨0x010, 0, 1, 1, 1, .w1c, 0x0⟩,  -- UNIT_ATTN.UNCERTAIN, R353
   ⟨0x014, 0, 1, 0, 1, .rw, 0x1⟩,  -- UNIT_ATTN_EN.SYNC_STEP, R403
   ⟨0x014, 0, 1, 1, 1, .rw, 0x1⟩,  -- UNIT_ATTN_EN.UNCERTAIN, R403
   ⟨0x018, 0, 1, 0, 4, .ro, 0x0⟩,  -- UNIT_FAULT.CLASS, R364
   ⟨0x018, 0, 1, 8, 8, .ro, 0x0⟩,  -- UNIT_FAULT.SOURCE, R364
   ⟨0x018, 0, 1, 16, 16, .rc, 0x0⟩,  -- UNIT_FAULT.COUNT, R364
   ⟨0x01C, 0, 1, 0, 32, .rw, 0x0⟩,  -- UNIT_SCRATCH.DATA, R403
   ⟨0x040, 0, 1, 0, 7, .ro, 0x0⟩,  -- BLK_GEOM.CHANNELS, R353
   ⟨0x040, 0, 1, 8, 4, .ro, 0x0⟩,  -- BLK_GEOM.OCTANTS, R353
   ⟨0x040, 0, 1, 16, 5, .ro, 0x0⟩,  -- BLK_GEOM.HEIGHT, R353
   ⟨0x040, 0, 1, 24, 8, .ro, 0x0⟩,  -- BLK_GEOM.ROWS_K, R353
   ⟨0x044, 0, 1, 0, 2, .ro, 0x0⟩,  -- BLK_STATE.STATE, R353
   ⟨0x044, 0, 1, 4, 4, .ro, 0x1⟩,  -- BLK_STATE.STEP, R353
   ⟨0x044, 0, 1, 8, 4, .ro, 0x0⟩,  -- BLK_STATE.CAUSE, R353
   ⟨0x044, 0, 1, 12, 1, .ro, 0x0⟩,  -- BLK_STATE.WAIT_THERMAL, R353
   ⟨0x044, 0, 1, 13, 1, .ro, 0x0⟩,  -- BLK_STATE.WARM, R353
   ⟨0x044, 0, 1, 16, 16, .ro, 0x0⟩,  -- BLK_STATE.BOOT_MS, R353
   ⟨0x048, 0, 1, 0, 1, .rw, 0x0⟩,  -- BLK_BOOT_CFG.LBIST, R353
   ⟨0x04C, 0, 1, 0, 8, .wo, 0x0⟩,  -- BLK_RESET.KEY, R353
   ⟨0x04C, 0, 1, 31, 1, .wo, 0x0⟩,  -- BLK_RESET.WARM, R353
   ⟨0x050, 0, 1, 0, 32, .ro, 0x0⟩,  -- BLK_TIME_LO.TIME, R353
   ⟨0x054, 0, 1, 0, 32, .ro, 0x0⟩,  -- BLK_TIME_HI.TIME, R353
   ⟨0x058, 0, 1, 0, 32, .rw, 0x0⟩,  -- BLK_TIME_NEXT_LO.NEXT, R353
   ⟨0x05C, 0, 1, 0, 32, .rw, 0x0⟩,  -- BLK_TIME_NEXT_HI.NEXT, R353
   ⟨0x060, 0, 1, 0, 1, .rw, 0x0⟩,  -- BLK_TIME_SYNC.ARM, R353
   ⟨0x060, 0, 1, 1, 1, .ro, 0x1⟩,  -- BLK_TIME_SYNC.UNCERTAIN, R353
   ⟨0x060, 0, 1, 8, 16, .ro, 0x0⟩,  -- BLK_TIME_SYNC.EDGES, R353
   ⟨0x064, 0, 1, 0, 32, .ro, 0x0⟩,  -- BLK_TIME_CAP_LO.CAP, R353
   ⟨0x068, 0, 1, 0, 32, .ro, 0x0⟩,  -- BLK_TIME_CAP_HI.CAP, R353
   ⟨0x080, 0, 1, 0, 1, .ro, 0x0⟩,  -- BLK_ATTN_SUMMARY.BLK, R66
   ⟨0x080, 0, 1, 1, 1, .ro, 0x0⟩,  -- BLK_ATTN_SUMMARY.CLK, R66
   ⟨0x080, 0, 1, 2, 1, .ro, 0x0⟩,  -- BLK_ATTN_SUMMARY.HK, R66
   ⟨0x080, 0, 1, 3, 1, .ro, 0x0⟩,  -- BLK_ATTN_SUMMARY.THM, R66
   ⟨0x080, 0, 1, 4, 1, .ro, 0x0⟩,  -- BLK_ATTN_SUMMARY.PWR, R66
   ⟨0x080, 0, 1, 5, 4, .ro, 0x0⟩,  -- BLK_ATTN_SUMMARY.CAL, R66
   ⟨0x080, 0, 1, 9, 1, .ro, 0x0⟩,  -- BLK_ATTN_SUMMARY.LOG, R66
   ⟨0x080, 0, 1, 10, 1, .ro, 0x0⟩,  -- BLK_ATTN_SUMMARY.PMU, R66
   ⟨0x080, 0, 1, 11, 1, .ro, 0x0⟩,  -- BLK_ATTN_SUMMARY.TEST, R66
   ⟨0x080, 0, 1, 12, 1, .ro, 0x0⟩]  -- BLK_ATTN_SUMMARY.SEC, R66

/-- Registers of the BLK page, part 2 of 2. -/
def regFieldsBlk2 : List RegField :=
  [⟨0x080, 0, 1, 13, 1, .ro, 0x0⟩,  -- BLK_ATTN_SUMMARY.ARB, R66
   ⟨0x080, 0, 1, 14, 1, .ro, 0x0⟩,  -- BLK_ATTN_SUMMARY.RGN, R66
   ⟨0x080, 0, 1, 15, 1, .ro, 0x0⟩,  -- BLK_ATTN_SUMMARY.HDL, R66
   ⟨0x080, 0, 1, 16, 8, .ro, 0x0⟩,  -- BLK_ATTN_SUMMARY.OCT, R66
   ⟨0x080, 0, 1, 24, 1, .ro, 0x0⟩,  -- BLK_ATTN_SUMMARY.LINK, R66
   ⟨0x080, 0, 1, 25, 1, .ro, 0x0⟩,  -- BLK_ATTN_SUMMARY.ECC, R66
   ⟨0x080, 0, 1, 26, 1, .ro, 0x0⟩,  -- BLK_ATTN_SUMMARY.PORT, R66
   ⟨0x080, 0, 1, 27, 1, .ro, 0x0⟩,  -- BLK_ATTN_SUMMARY.CH, R66
   ⟨0x084, 0, 1, 0, 16, .ro, 0x0⟩,  -- BLK_ATTN_PORT.PORT, R66
   ⟨0x088, 0, 1, 0, 32, .ro, 0x0⟩,  -- BLK_ATTN_CH_LO.CH, R66
   ⟨0x08C, 0, 1, 0, 32, .ro, 0x0⟩,  -- BLK_ATTN_CH_HI.CH, R66
   ⟨0x0A0, 0, 1, 0, 14, .rw, 0x3E8⟩,  -- BLK_PROG_CFG.LIMIT, R365
   ⟨0x0A0, 0, 1, 31, 1, .rw, 0x1⟩,  -- BLK_PROG_CFG.EN, R365
   ⟨0x0A4, 0, 1, 0, 3, .ro, 0x0⟩,  -- BLK_FAULT_STAT.ACTIVE, R365
   ⟨0x0A4, 0, 1, 8, 7, .ro, 0x0⟩,  -- BLK_FAULT_STAT.PAGE, R365
   ⟨0x0A4, 0, 1, 16, 8, .ro, 0x0⟩,  -- BLK_FAULT_STAT.SOURCE, R365
   ⟨0x0A4, 0, 1, 24, 8, .ro, 0x0⟩,  -- BLK_FAULT_STAT.RESTARTS, R365
   ⟨0x0A8, 0, 1, 0, 16, .rc, 0x0⟩,  -- BLK_FAULT_CNT.F2, R365
   ⟨0x0A8, 0, 1, 16, 16, .rc, 0x0⟩,  -- BLK_FAULT_CNT.F3, R365
   ⟨0x0AC, 0, 1, 0, 16, .rc, 0x0⟩,  -- BLK_FAULT_CNT4.F4, R365
   ⟨0x0AC, 0, 1, 16, 16, .ro, 0x0⟩]  -- BLK_FAULT_CNT4.LASTINT, R365

/-- Registers of the BLK page. -/
def regFieldsBlk : List RegField := regFieldsBlk1 ++ regFieldsBlk2

/-- Registers of the CLK page, part 1 of 1. -/
def regFieldsClk1 : List RegField :=
  [⟨0x010, 0, 1, 0, 1, .w1c, 0x0⟩,  -- UNIT_ATTN(CLK).REF_LOST, R354
   ⟨0x010, 0, 1, 1, 1, .w1c, 0x0⟩,  -- UNIT_ATTN(CLK).PLL_UNLOCK, R354
   ⟨0x010, 0, 1, 2, 1, .w1c, 0x0⟩,  -- UNIT_ATTN(CLK).FORCED_SWITCH, R354
   ⟨0x010, 0, 1, 3, 1, .w1c, 0x0⟩,  -- UNIT_ATTN(CLK).GATE_DENIED, R354
   ⟨0x010, 0, 1, 4, 1, .w1c, 0x0⟩,  -- UNIT_ATTN(CLK).FMEAS_DONE, R354
   ⟨0x014, 0, 1, 0, 1, .rw, 0x1⟩,  -- UNIT_ATTN_EN.REF_LOST, R403
   ⟨0x014, 0, 1, 1, 1, .rw, 0x1⟩,  -- UNIT_ATTN_EN.PLL_UNLOCK, R403
   ⟨0x014, 0, 1, 2, 1, .rw, 0x1⟩,  -- UNIT_ATTN_EN.FORCED_SWITCH, R403
   ⟨0x014, 0, 1, 3, 1, .rw, 0x0⟩,  -- UNIT_ATTN_EN.GATE_DENIED, R403
   ⟨0x014, 0, 1, 4, 1, .rw, 0x0⟩,  -- UNIT_ATTN_EN.FMEAS_DONE, R403
   ⟨0x018, 0, 1, 0, 4, .ro, 0x0⟩,  -- UNIT_FAULT.CLASS, R364
   ⟨0x018, 0, 1, 8, 8, .ro, 0x0⟩,  -- UNIT_FAULT.SOURCE, R364
   ⟨0x018, 0, 1, 16, 16, .rc, 0x0⟩,  -- UNIT_FAULT.COUNT, R364
   ⟨0x01C, 0, 1, 0, 32, .rw, 0x0⟩,  -- UNIT_SCRATCH.DATA, R403
   ⟨0x040, 0, 1, 0, 1, .ro, 0x0⟩,  -- CLK_STATUS.REF_OK, R354
   ⟨0x040, 0, 1, 1, 1, .ro, 0x0⟩,  -- CLK_STATUS.PLL_LOCK, R354
   ⟨0x040, 0, 1, 2, 1, .ro, 0x0⟩,  -- CLK_STATUS.ON_PLL, R354
   ⟨0x040, 0, 1, 3, 1, .ro, 0x0⟩,  -- CLK_STATUS.CORE_RUN, R354
   ⟨0x040, 0, 1, 16, 16, .ro, 0x0⟩,  -- CLK_STATUS.RELOCKS, R354
   ⟨0x044, 0, 1, 0, 18, .ro, 0x0⟩,  -- CLK_REFCHK.LAST, R354
   ⟨0x044, 0, 1, 20, 4, .ro, 0x0⟩,  -- CLK_REFCHK.PASSED, R354
   ⟨0x044, 0, 1, 24, 8, .ro, 0x0⟩,  -- CLK_REFCHK.FAILS, R354
   ⟨0x048, 0, 1, 0, 18, .ro, 0x0⟩,  -- CLK_REFRATIO.RATIO, R354
   ⟨0x050, 4, 4, 0, 32, .rw, 0x0⟩,  -- CLK_GATE0–3.GATE, R354
   ⟨0x060, 4, 4, 0, 32, .ro, 0x0⟩,  -- CLK_GSTAT0–3.STOPPED, R354
   ⟨0x070, 0, 1, 0, 7, .rw, 0x0⟩,  -- CLK_FMEAS_CTL.A, R354
   ⟨0x070, 0, 1, 8, 7, .rw, 0x0⟩,  -- CLK_FMEAS_CTL.B, R354
   ⟨0x070, 0, 1, 16, 4, .rw, 0x0⟩,  -- CLK_FMEAS_CTL.WLOG, R354
   ⟨0x070, 0, 1, 31, 1, .wo, 0x0⟩,  -- CLK_FMEAS_CTL.GO, R354
   ⟨0x074, 0, 1, 0, 32, .ro, 0x0⟩,  -- CLK_FMEAS_CNT.COUNT, R354
   ⟨0x078, 0, 1, 0, 1, .ro, 0x0⟩,  -- CLK_FMEAS_STAT.BUSY, R354
   ⟨0x078, 0, 1, 1, 1, .ro, 0x0⟩,  -- CLK_FMEAS_STAT.DONE, R354
   ⟨0x078, 0, 1, 2, 1, .ro, 0x0⟩,  -- CLK_FMEAS_STAT.STOPPED, R354
   ⟨0x080, 0, 1, 0, 7, .ro, 0x0⟩,  -- CLK_SWLOG.DOMAIN, R354
   ⟨0x080, 0, 1, 7, 1, .ro, 0x0⟩,  -- CLK_SWLOG.FORCED, R354
   ⟨0x080, 0, 1, 16, 16, .ro, 0x0⟩]  -- CLK_SWLOG.FORCED_COUNT, R354

/-- Registers of the CLK page. -/
def regFieldsClk : List RegField := regFieldsClk1

/-- Registers of the HK page, part 1 of 1. -/
def regFieldsHk1 : List RegField :=
  [⟨0x018, 0, 1, 0, 4, .ro, 0x0⟩,  -- UNIT_FAULT.CLASS, R364
   ⟨0x018, 0, 1, 8, 8, .ro, 0x0⟩,  -- UNIT_FAULT.SOURCE, R364
   ⟨0x018, 0, 1, 16, 16, .rc, 0x0⟩,  -- UNIT_FAULT.COUNT, R364
   ⟨0x01C, 0, 1, 0, 32, .rw, 0x0⟩,  -- UNIT_SCRATCH.DATA, R403
   ⟨0x040, 0, 1, 0, 3, .ro, 0x0⟩,  -- HK_SEQ_STAT.CURRENT, R412
   ⟨0x040, 0, 1, 8, 5, .ro, 0x0⟩,  -- HK_SEQ_STAT.WAITING, R412
   ⟨0x0C0, 0, 1, 0, 2, .wo, 0x0⟩,  -- HK_FREQ_REQ.POINT, R274
   ⟨0x0C0, 0, 1, 2, 1, .wo, 0x0⟩,  -- HK_FREQ_REQ.LOADDEF, R274
   ⟨0x0C0, 0, 1, 31, 1, .wo, 0x0⟩,  -- HK_FREQ_REQ.GO, R274
   ⟨0x0C4, 0, 1, 0, 2, .ro, 0x0⟩,  -- HK_FREQ_STAT.CUR, R274
   ⟨0x0C4, 0, 1, 2, 1, .ro, 0x0⟩,  -- HK_FREQ_STAT.BUSY, R274
   ⟨0x0C4, 0, 1, 4, 4, .ro, 0x0⟩,  -- HK_FREQ_STAT.RESULT, R274
   ⟨0x0C4, 0, 1, 16, 16, .ro, 0x0⟩,  -- HK_FREQ_STAT.COUNT, R274
   ⟨0x0C8, 0, 1, 0, 16, .ro, 0x0⟩,  -- HK_FREQ_TIME.LAST, R274
   ⟨0x0C8, 0, 1, 16, 16, .ro, 0x0⟩]  -- HK_FREQ_TIME.MAX, R274

/-- Registers of the HK page. -/
def regFieldsHk : List RegField := regFieldsHk1

/-- Registers of the THM page, part 1 of 2. -/
def regFieldsThm1 : List RegField :=
  [⟨0x010, 0, 1, 0, 1, .w1c, 0x0⟩,  -- UNIT_ATTN(THM).RISE_WARN, R325
   ⟨0x010, 0, 1, 1, 1, .w1c, 0x0⟩,  -- UNIT_ATTN(THM).THROTTLE, R325
   ⟨0x010, 0, 1, 2, 1, .w1c, 0x0⟩,  -- UNIT_ATTN(THM).WRITE_FORBID, R325
   ⟨0x010, 0, 1, 3, 1, .w1c, 0x0⟩,  -- UNIT_ATTN(THM).BRIM_START, R325
   ⟨0x010, 0, 1, 4, 1, .w1c, 0x0⟩,  -- UNIT_ATTN(THM).BRIM_SPENT, R325
   ⟨0x010, 0, 1, 5, 1, .w1c, 0x0⟩,  -- UNIT_ATTN(THM).TRIP, R325
   ⟨0x010, 0, 1, 6, 1, .w1c, 0x0⟩,  -- UNIT_ATTN(THM).SENSOR_SUSPECT, R325
   ⟨0x010, 0, 1, 7, 1, .w1c, 0x0⟩,  -- UNIT_ATTN(THM).SENSOR_FAIL, R325
   ⟨0x010, 0, 1, 8, 1, .w1c, 0x0⟩,  -- UNIT_ATTN(THM).DEGRADED, R325
   ⟨0x014, 0, 1, 0, 1, .rw, 0x1⟩,  -- UNIT_ATTN_EN.RISE_WARN, R403
   ⟨0x014, 0, 1, 1, 1, .rw, 0x1⟩,  -- UNIT_ATTN_EN.THROTTLE, R403
   ⟨0x014, 0, 1, 2, 1, .rw, 0x1⟩,  -- UNIT_ATTN_EN.WRITE_FORBID, R403
   ⟨0x014, 0, 1, 3, 1, .rw, 0x1⟩,  -- UNIT_ATTN_EN.BRIM_START, R403
   ⟨0x014, 0, 1, 4, 1, .rw, 0x1⟩,  -- UNIT_ATTN_EN.BRIM_SPENT, R403
   ⟨0x014, 0, 1, 5, 1, .rw, 0x1⟩,  -- UNIT_ATTN_EN.TRIP, R403
   ⟨0x014, 0, 1, 6, 1, .rw, 0x1⟩,  -- UNIT_ATTN_EN.SENSOR_SUSPECT, R403
   ⟨0x014, 0, 1, 7, 1, .rw, 0x1⟩,  -- UNIT_ATTN_EN.SENSOR_FAIL, R403
   ⟨0x014, 0, 1, 8, 1, .rw, 0x1⟩,  -- UNIT_ATTN_EN.DEGRADED, R403
   ⟨0x018, 0, 1, 0, 4, .ro, 0x0⟩,  -- UNIT_FAULT.CLASS, R364
   ⟨0x018, 0, 1, 8, 8, .ro, 0x0⟩,  -- UNIT_FAULT.SOURCE, R364
   ⟨0x018, 0, 1, 16, 16, .rc, 0x0⟩,  -- UNIT_FAULT.COUNT, R364
   ⟨0x01C, 0, 1, 0, 32, .rw, 0x0⟩,  -- UNIT_SCRATCH.DATA, R403
   ⟨0x040, 0, 1, 0, 2, .ro, 0x0⟩,  -- THM_STATUS.WSTATE, R325
   ⟨0x040, 0, 1, 2, 1, .ro, 0x0⟩,  -- THM_STATUS.DEGRADED, R325
   ⟨0x040, 0, 1, 4, 3, .ro, 0x0⟩,  -- THM_STATUS.TSTEP, R325
   ⟨0x040, 0, 1, 8, 4, .ro, 0x0⟩,  -- THM_STATUS.CLEAR, R325
   ⟨0x040, 0, 1, 16, 7, .ro, 0x0⟩,  -- THM_STATUS.FAILED, R325
   ⟨0x044, 0, 1, 0, 16, .ro, 0x0⟩,  -- THM_TEMP.HOT, R325
   ⟨0x044, 0, 1, 16, 16, .ro, 0x0⟩,  -- THM_TEMP.COLD, R325
   ⟨0x048, 0, 1, 0, 16, .ro, 0x0⟩,  -- THM_RISE.RATE, R325
   ⟨0x048, 0, 1, 16, 8, .rw, 0x10⟩,  -- THM_RISE.WARN, R325
   ⟨0x048, 0, 1, 24, 8, .rw, 0x20⟩,  -- THM_RISE.ACT, R325
   ⟨0x04C, 0, 1, 0, 16, .rw, 0x5F0⟩,  -- THM_THROT.T, R325
   ⟨0x04C, 0, 1, 16, 8, .rw, 0x20⟩,  -- THM_THROT.HYST, R325
   ⟨0x050, 0, 1, 0, 16, .rw, 0x690⟩,  -- THM_WR_RANGE.HI, R325
   ⟨0x050, 0, 1, 16, 16, .rw, 0x0⟩,  -- THM_WR_RANGE.LO, R325
   ⟨0x054, 0, 1, 0, 2, .rw, 0x3⟩,  -- THM_BRIM_CFG.DEG, R325
   ⟨0x054, 0, 1, 8, 5, .rw, 0x14⟩,  -- THM_BRIM_CFG.TIME, R325
   ⟨0x058, 0, 1, 0, 15, .ro, 0x4E20⟩,  -- THM_BRIM_STAT.BUDGET, R325
   ⟨0x058, 0, 1, 16, 16, .rc, 0x0⟩]  -- THM_BRIM_STAT.ENTRIES, R325

/-- Registers of the THM page, part 2 of 2. -/
def regFieldsThm2 : List RegField :=
  [⟨0x05C, 0, 1, 0, 16, .rc, 0x0⟩,  -- THM_TRIP_STAT.TRIPS, R325
   ⟨0x05C, 0, 1, 16, 16, .ro, 0x0⟩,  -- THM_TRIP_STAT.ROUNDS, R325
   ⟨0x400, 4, 80, 0, 16, .ro, 0x0⟩,  -- THM_SENSi.TEMP, R325
   ⟨0x400, 4, 80, 16, 1, .ro, 0x0⟩,  -- THM_SENSi.RVALID, R325
   ⟨0x400, 4, 80, 17, 1, .ro, 0x0⟩,  -- THM_SENSi.SUSPECT, R325
   ⟨0x400, 4, 80, 18, 1, .ro, 0x0⟩,  -- THM_SENSi.FAILED, R325
   ⟨0x400, 4, 80, 20, 3, .ro, 0x0⟩,  -- THM_SENSi.DIS, R325
   ⟨0x400, 4, 80, 24, 7, .ro, 0x0⟩]  -- THM_SENSi.SROUNDS, R325

/-- Registers of the THM page. -/
def regFieldsThm : List RegField := regFieldsThm1 ++ regFieldsThm2

/-- Registers of the PWR page, part 1 of 2. -/
def regFieldsPwr1 : List RegField :=
  [⟨0x010, 0, 1, 0, 1, .w1c, 0x0⟩,  -- UNIT_ATTN(PWR).POLICY_OVERRIDDEN, R326
   ⟨0x010, 0, 1, 1, 1, .w1c, 0x0⟩,  -- UNIT_ATTN(PWR).VIN_WARN, R326
   ⟨0x010, 0, 1, 2, 1, .w1c, 0x0⟩,  -- UNIT_ATTN(PWR).CONV_WARN, R326
   ⟨0x010, 0, 1, 3, 1, .w1c, 0x0⟩,  -- UNIT_ATTN(PWR).CONV_FAULT, R326
   ⟨0x010, 0, 1, 4, 1, .w1c, 0x0⟩,  -- UNIT_ATTN(PWR).PMB_FAIL, R326
   ⟨0x010, 0, 1, 5, 1, .w1c, 0x0⟩,  -- UNIT_ATTN(PWR).AVS_FAIL, R326
   ⟨0x010, 0, 1, 6, 1, .w1c, 0x0⟩,  -- UNIT_ATTN(PWR).VDD_LIMIT, R326
   ⟨0x014, 0, 1, 0, 1, .rw, 0x1⟩,  -- UNIT_ATTN_EN.POLICY_OVERRIDDEN, R403
   ⟨0x014, 0, 1, 1, 1, .rw, 0x1⟩,  -- UNIT_ATTN_EN.VIN_WARN, R403
   ⟨0x014, 0, 1, 2, 1, .rw, 0x1⟩,  -- UNIT_ATTN_EN.CONV_WARN, R403
   ⟨0x014, 0, 1, 3, 1, .rw, 0x1⟩,  -- UNIT_ATTN_EN.CONV_FAULT, R403
   ⟨0x014, 0, 1, 4, 1, .rw, 0x1⟩,  -- UNIT_ATTN_EN.PMB_FAIL, R403
   ⟨0x014, 0, 1, 5, 1, .rw, 0x1⟩,  -- UNIT_ATTN_EN.AVS_FAIL, R403
   ⟨0x014, 0, 1, 6, 1, .rw, 0x1⟩,  -- UNIT_ATTN_EN.VDD_LIMIT, R403
   ⟨0x018, 0, 1, 0, 4, .ro, 0x0⟩,  -- UNIT_FAULT.CLASS, R364
   ⟨0x018, 0, 1, 8, 8, .ro, 0x0⟩,  -- UNIT_FAULT.SOURCE, R364
   ⟨0x018, 0, 1, 16, 16, .rc, 0x0⟩,  -- UNIT_FAULT.COUNT, R364
   ⟨0x01C, 0, 1, 0, 32, .rw, 0x0⟩,  -- UNIT_SCRATCH.DATA, R403
   ⟨0x040, 0, 1, 0, 1, .ro, 0x0⟩,  -- PWR_STATUS.EN, R326
   ⟨0x040, 0, 1, 1, 1, .ro, 0x0⟩,  -- PWR_STATUS.PGOOD, R326
   ⟨0x040, 0, 1, 2, 1, .ro, 0x0⟩,  -- PWR_STATUS.PMB_OK, R326
   ⟨0x040, 0, 1, 3, 1, .ro, 0x0⟩,  -- PWR_STATUS.AVS_OK, R326
   ⟨0x040, 0, 1, 4, 3, .ro, 0x0⟩,  -- PWR_STATUS.STEP, R326
   ⟨0x040, 0, 1, 8, 3, .ro, 0x0⟩,  -- PWR_STATUS.HWSTEP, R326
   ⟨0x044, 0, 1, 0, 3, .rw, 0x0⟩,  -- PWR_PL.SW, R326
   ⟨0x044, 0, 1, 4, 3, .rw, 0x7⟩,  -- PWR_PL.FLOOR, R326
   ⟨0x048, 0, 1, 0, 12, .rw, 0x352⟩,  -- PWR_VDD.MAX, R326
   ⟨0x048, 0, 1, 16, 12, .ro, 0x0⟩,  -- PWR_VDD.CUR, R326
   ⟨0x04C, 0, 1, 0, 8, .rw, 0x8⟩,  -- PWR_AVS_CFG.LO, R326
   ⟨0x04C, 0, 1, 8, 8, .rw, 0x10⟩,  -- PWR_AVS_CFG.HI, R326
   ⟨0x04C, 0, 1, 16, 4, .rw, 0x5⟩,  -- PWR_AVS_CFG.STEP, R326
   ⟨0x050, 0, 1, 0, 12, .rw, 0x44C⟩,  -- PWR_VARR.MV, R326
   ⟨0x054, 0, 1, 0, 7, .rw, 0x40⟩,  -- PWR_PMB_CFG.ADDR, R326
   ⟨0x054, 0, 1, 8, 3, .rw, 0x3⟩,  -- PWR_PMB_CFG.RETRY, R326
   ⟨0x054, 0, 1, 16, 5, .rw, 0x14⟩,  -- PWR_PMB_CFG.VEXP, R326
   ⟨0x058, 0, 1, 0, 16, .ro, 0x0⟩,  -- PWR_IN.VIN, R326
   ⟨0x058, 0, 1, 16, 16, .ro, 0x0⟩,  -- PWR_IN.IIN, R326
   ⟨0x05C, 0, 1, 0, 16, .ro, 0x0⟩,  -- PWR_CORE.V, R326
   ⟨0x05C, 0, 1, 16, 16, .ro, 0x0⟩,  -- PWR_CORE.I, R326
   ⟨0x060, 0, 1, 0, 16, .ro, 0x0⟩]  -- PWR_ARR.I, R326

/-- Registers of the PWR page, part 2 of 2. -/
def regFieldsPwr2 : List RegField :=
  [⟨0x060, 0, 1, 16, 16, .ro, 0x0⟩,  -- PWR_ARR.CTEMP, R326
   ⟨0x064, 0, 1, 0, 16, .ro, 0x0⟩,  -- PWR_CONV.STATUS, R326
   ⟨0x064, 0, 1, 16, 16, .rc, 0x0⟩,  -- PWR_CONV.PMBERR, R326
   ⟨0x068, 0, 1, 0, 1, .ro, 0x0⟩,  -- PWR_OVERRIDE.PL, R326
   ⟨0x068, 0, 1, 1, 1, .ro, 0x0⟩,  -- PWR_OVERRIDE.VDD, R326
   ⟨0x068, 0, 1, 16, 16, .rc, 0x0⟩,  -- PWR_OVERRIDE.COUNT, R326
   ⟨0x06C, 0, 1, 0, 8, .ro, 0xC⟩,  -- PWR_EW0.ACT, R326
   ⟨0x06C, 0, 1, 8, 8, .ro, 0x8⟩,  -- PWR_EW0.RD, R326
   ⟨0x06C, 0, 1, 16, 8, .ro, 0x9⟩,  -- PWR_EW0.WR, R326
   ⟨0x06C, 0, 1, 24, 8, .ro, 0xD⟩,  -- PWR_EW0.SLICE, R326
   ⟨0x070, 0, 1, 0, 8, .ro, 0x28⟩,  -- PWR_EW1.REF, R326
   ⟨0x070, 0, 1, 8, 8, .ro, 0x18⟩,  -- PWR_EW1.NRF, R326
   ⟨0x070, 0, 1, 16, 12, .ro, 0x370⟩,  -- PWR_EW1.BUDGET, R326
   ⟨0x074, 0, 1, 0, 8, .ro, 0x0⟩,  -- PWR_MARGIN.MARGIN, R326
   ⟨0x074, 0, 1, 8, 8, .ro, 0x0⟩]  -- PWR_MARGIN.LOWRNDS, R326

/-- Registers of the PWR page. -/
def regFieldsPwr : List RegField := regFieldsPwr1 ++ regFieldsPwr2

/-- Registers of the CAL page, part 1 of 1. -/
def regFieldsCal1 : List RegField :=
  [⟨0x010, 0, 1, 0, 1, .w1c, 0x0⟩,  -- UNIT_ATTN(CAL).WIRE_FAIL, R252
   ⟨0x010, 0, 1, 1, 1, .w1c, 0x0⟩,  -- UNIT_ATTN(CAL).HALF_LOST, R252
   ⟨0x010, 0, 1, 2, 1, .w1c, 0x0⟩,  -- UNIT_ATTN(CAL).REF_LOST, R252
   ⟨0x010, 0, 1, 3, 1, .w1c, 0x0⟩,  -- UNIT_ATTN(CAL).EYE_LOW, R252
   ⟨0x014, 0, 1, 0, 1, .rw, 0x1⟩,  -- UNIT_ATTN_EN.WIRE_FAIL, R403
   ⟨0x014, 0, 1, 1, 1, .rw, 0x1⟩,  -- UNIT_ATTN_EN.HALF_LOST, R403
   ⟨0x014, 0, 1, 2, 1, .rw, 0x1⟩,  -- UNIT_ATTN_EN.REF_LOST, R403
   ⟨0x014, 0, 1, 3, 1, .rw, 0x0⟩,  -- UNIT_ATTN_EN.EYE_LOW, R403
   ⟨0x018, 0, 1, 0, 4, .ro, 0x0⟩,  -- UNIT_FAULT.CLASS, R364
   ⟨0x018, 0, 1, 8, 8, .ro, 0x0⟩,  -- UNIT_FAULT.SOURCE, R364
   ⟨0x018, 0, 1, 16, 16, .rc, 0x0⟩,  -- UNIT_FAULT.COUNT, R364
   ⟨0x01C, 0, 1, 0, 32, .rw, 0x0⟩,  -- UNIT_SCRATCH.DATA, R403
   ⟨0x040, 0, 1, 0, 1, .rw, 0x0⟩,  -- CAL_CTRL.REFSEL, R252
   ⟨0x040, 0, 1, 1, 1, .rw, 0x0⟩,  -- CAL_CTRL.TRACK, R252
   ⟨0x040, 0, 1, 2, 1, .rw, 0x0⟩,  -- CAL_CTRL.SWEEP, R252
   ⟨0x044, 0, 1, 0, 12, .rw, 0x7D0⟩,  -- CAL_STEP.STEP, R252
   ⟨0x048, 0, 1, 0, 8, .rw, 0x18⟩,  -- CAL_EYE.MIN, R252
   ⟨0x048, 0, 1, 8, 4, .rw, 0x3⟩,  -- CAL_EYE.FAIL_SWEEPS, R252
   ⟨0x04C, 0, 1, 0, 6, .ro, 0x0⟩,  -- CAL_SWEEP.WIRE, R252
   ⟨0x04C, 0, 1, 6, 4, .ro, 0x0⟩,  -- CAL_SWEEP.CHOFS, R252
   ⟨0x04C, 0, 1, 10, 1, .ro, 0x0⟩,  -- CAL_SWEEP.ACTIVE, R252
   ⟨0x04C, 0, 1, 16, 16, .ro, 0x0⟩,  -- CAL_SWEEP.PASSES, R252
   ⟨0x050, 0, 1, 0, 1, .ro, 0x0⟩,  -- CAL_REF_STAT.EXT_OK, R252
   ⟨0x050, 0, 1, 1, 1, .ro, 0x0⟩,  -- CAL_REF_STAT.FALLBACK, R252
   ⟨0x050, 0, 1, 8, 16, .ro, 0x0⟩,  -- CAL_REF_STAT.COUNT, R252
   ⟨0x054, 0, 1, 0, 16, .ro, 0x0⟩,  -- CAL_TEMP.T_LO, R252
   ⟨0x054, 0, 1, 16, 16, .ro, 0x0⟩,  -- CAL_TEMP.T_HI, R252
   ⟨0x058, 0, 1, 0, 6, .wo, 0x0⟩,  -- CAL_FORCE.WIRE, R252
   ⟨0x058, 0, 1, 6, 4, .wo, 0x0⟩,  -- CAL_FORCE.CHOFS, R252
   ⟨0x058, 0, 1, 31, 1, .wo, 0x0⟩,  -- CAL_FORCE.GO, R252
   ⟨0x05C, 0, 1, 0, 16, .rc, 0x0⟩,  -- CAL_SKIP.SBSKIP, R252
   ⟨0x05C, 0, 1, 16, 16, .rc, 0x0⟩]  -- CAL_SKIP.VFAIL, R252

/-- Registers of the CAL page. -/
def regFieldsCal : List RegField := regFieldsCal1

/-- Registers of the LOG page, part 1 of 1. -/
def regFieldsLog1 : List RegField :=
  [⟨0x010, 0, 1, 0, 1, .w1c, 0x0⟩,  -- UNIT_ATTN.ENTRY, R372
   ⟨0x010, 0, 1, 1, 1, .w1c, 0x0⟩,  -- UNIT_ATTN.WRAP, R372
   ⟨0x010, 0, 1, 2, 1, .w1c, 0x0⟩,  -- UNIT_ATTN.DROP, R372
   ⟨0x014, 0, 1, 0, 1, .rw, 0x1⟩,  -- UNIT_ATTN_EN.ENTRY, R403
   ⟨0x014, 0, 1, 1, 1, .rw, 0x0⟩,  -- UNIT_ATTN_EN.WRAP, R403
   ⟨0x014, 0, 1, 2, 1, .rw, 0x0⟩,  -- UNIT_ATTN_EN.DROP, R403
   ⟨0x018, 0, 1, 0, 4, .ro, 0x0⟩,  -- UNIT_FAULT.CLASS, R364
   ⟨0x018, 0, 1, 8, 8, .ro, 0x0⟩,  -- UNIT_FAULT.SOURCE, R364
   ⟨0x018, 0, 1, 16, 16, .rc, 0x0⟩,  -- UNIT_FAULT.COUNT, R364
   ⟨0x01C, 0, 1, 0, 32, .rw, 0x0⟩,  -- UNIT_SCRATCH.DATA, R403
   ⟨0x040, 0, 1, 0, 16, .ro, 0x0⟩,  -- LOG_STATUS.OLDEST, R372
   ⟨0x040, 0, 1, 16, 13, .ro, 0x0⟩,  -- LOG_STATUS.COUNT, R372
   ⟨0x044, 0, 1, 0, 16, .ro, 0x0⟩,  -- LOG_NEXT.SEQ, R372
   ⟨0x048, 0, 1, 0, 32, .rc, 0x0⟩,  -- LOG_LOST.COUNT, R372
   ⟨0x04C, 0, 1, 0, 16, .rc, 0x0⟩,  -- LOG_DROP.COUNT, R372
   ⟨0x050, 0, 1, 0, 3, .rw, 0x3⟩,  -- LOG_CTL.ATTN_LEVEL, R372
   ⟨0x060, 0, 1, 0, 16, .wo, 0x0⟩,  -- LOG_RD.SEQ, R372
   ⟨0x064, 0, 1, 0, 1, .ro, 0x0⟩,  -- LOG_RD_STAT.BUSY, R372
   ⟨0x064, 0, 1, 4, 2, .ro, 0x0⟩,  -- LOG_RD_STAT.RESULT, R372
   ⟨0x070, 4, 4, 0, 32, .ro, 0x0⟩,  -- LOG_RD_DATA0–3.DATA, R372
   ⟨0x080, 0, 1, 0, 32, .wo, 0x0⟩]  -- LOG_MARK.DATA, R372

/-- Registers of the LOG page. -/
def regFieldsLog : List RegField := regFieldsLog1

/-- Registers of the PMU page, part 1 of 2. -/
def regFieldsPmu1 : List RegField :=
  [⟨0x010, 0, 1, 0, 1, .w1c, 0x0⟩,  -- UNIT_ATTN(PMU).OVF, R400
   ⟨0x010, 0, 1, 1, 1, .w1c, 0x0⟩,  -- UNIT_ATTN(PMU).SMP_WMARK, R400
   ⟨0x010, 0, 1, 2, 1, .w1c, 0x0⟩,  -- UNIT_ATTN(PMU).SMP_LOST, R400
   ⟨0x014, 0, 1, 0, 1, .rw, 0x0⟩,  -- UNIT_ATTN_EN.OVF, R403
   ⟨0x014, 0, 1, 1, 1, .rw, 0x0⟩,  -- UNIT_ATTN_EN.SMP_WMARK, R403
   ⟨0x014, 0, 1, 2, 1, .rw, 0x0⟩,  -- UNIT_ATTN_EN.SMP_LOST, R403
   ⟨0x018, 0, 1, 0, 4, .ro, 0x0⟩,  -- UNIT_FAULT.CLASS, R364
   ⟨0x018, 0, 1, 8, 8, .ro, 0x0⟩,  -- UNIT_FAULT.SOURCE, R364
   ⟨0x018, 0, 1, 16, 16, .rc, 0x0⟩,  -- UNIT_FAULT.COUNT, R364
   ⟨0x01C, 0, 1, 0, 32, .rw, 0x0⟩,  -- UNIT_SCRATCH.DATA, R403
   ⟨0x040, 0, 1, 0, 1, .ro, 0x0⟩,  -- PMU_STATUS.CFG_ERR, R400
   ⟨0x044, 0, 1, 0, 17, .wo, 0x0⟩,  -- PMU_CFG_SET.CFG, R400
   ⟨0x044, 0, 1, 17, 9, .wo, 0x0⟩,  -- PMU_CFG_SET.INDEX, R400
   ⟨0x048, 0, 1, 0, 9, .rw, 0x0⟩,  -- PMU_CFG_IDX.INDEX, R400
   ⟨0x04C, 0, 1, 0, 17, .ro, 0x0⟩,  -- PMU_CFG_VIEW.CFG, R400
   ⟨0x080, 4, 11, 0, 32, .rw, 0x0⟩,  -- PMU_UACC0–11.GRANT, R400
   ⟨0x0AC, 0, 1, 0, 16, .rw, 0x0⟩,  -- PMU_UACC11.GRANT, R400
   ⟨0x0C0, 4, 12, 0, 32, .w1c, 0x0⟩,  -- PMU_OVF0–11.OVF, R400
   ⟨0x108, 8, 7, 0, 3, .rw, 0x7⟩,  -- PMU_FLTf_A.PRIVSET, R400
   ⟨0x108, 8, 7, 4, 4, .rw, 0xF⟩,  -- PMU_FLTf_A.CLASSSET, R400
   ⟨0x108, 8, 7, 8, 2, .rw, 0x0⟩,  -- PMU_FLTf_A.WIN, R400
   ⟨0x108, 8, 7, 10, 1, .rw, 0x0⟩,  -- PMU_FLTf_A.WEN, R400
   ⟨0x108, 8, 7, 11, 1, .rw, 0x0⟩,  -- PMU_FLTf_A.INT, R400
   ⟨0x10C, 8, 7, 0, 10, .rw, 0x0⟩,  -- PMU_FLTf_B.MATCH, R400
   ⟨0x10C, 8, 7, 16, 10, .rw, 0x0⟩,  -- PMU_FLTf_B.MASK, R400
   ⟨0x140, 8, 4, 0, 32, .rw, 0x0⟩,  -- PMU_WINw_BASE.SECTOR, R400
   ⟨0x144, 8, 4, 0, 32, .rw, 0x0⟩,  -- PMU_WINw_LIMIT.SECTOR, R400
   ⟨0x180, 0, 1, 0, 1, .rw, 0x0⟩,  -- PMU_SMP_CTL.EN, R400
   ⟨0x180, 0, 1, 1, 5, .rw, 0x0⟩,  -- PMU_SMP_CTL.NLOG, R400
   ⟨0x180, 0, 1, 6, 1, .rw, 0x0⟩,  -- PMU_SMP_CTL.JITTER, R400
   ⟨0x180, 0, 1, 7, 1, .rw, 0x0⟩,  -- PMU_SMP_CTL.WRAP, R400
   ⟨0x180, 0, 1, 8, 1, .wo, 0x0⟩,  -- PMU_SMP_CTL.CLR, R400
   ⟨0x180, 0, 1, 9, 3, .rw, 0x0⟩,  -- PMU_SMP_CTL.FILTER, R400
   ⟨0x180, 0, 1, 16, 16, .rw, 0x0⟩,  -- PMU_SMP_CTL.PORTS, R400
   ⟨0x184, 0, 1, 0, 13, .rw, 0x800⟩,  -- PMU_SMP_WMARK.LEVEL, R400
   ⟨0x188, 0, 1, 0, 13, .ro, 0x0⟩,  -- PMU_SMP_STAT.UNREAD, R400
   ⟨0x188, 0, 1, 16, 16, .ro, 0x0⟩,  -- PMU_SMP_STAT.OLDEST, R400
   ⟨0x18C, 0, 1, 0, 32, .rc, 0x0⟩,  -- PMU_SMP_LOST.COUNT, R400
   ⟨0x190, 0, 1, 0, 16, .wo, 0x0⟩,  -- PMU_SMP_RD.SEQ, R400
   ⟨0x194, 0, 1, 0, 1, .ro, 0x0⟩]  -- PMU_SMP_RD_STAT.BUSY, R400

/-- Registers of the PMU page, part 2 of 2. -/
def regFieldsPmu2 : List RegField :=
  [⟨0x194, 0, 1, 4, 2, .ro, 0x0⟩,  -- PMU_SMP_RD_STAT.RESULT, R400
   ⟨0x1A0, 4, 8, 0, 32, .ro, 0x0⟩,  -- PMU_SMP_DATA0–7.DATA, R400
   ⟨0x400, 8, 368, 0, 32, .rw, 0x0⟩,  -- PMU_CNTi_LO.VALUE, R400
   ⟨0x404, 8, 368, 0, 16, .rw, 0x0⟩,  -- PMU_CNTi_HI.VALUE, R400
   ⟨0x404, 8, 368, 16, 16, .ro, 0x0⟩]  -- PMU_CNTi_HI.STAMP, R400

/-- Registers of the PMU page. -/
def regFieldsPmu : List RegField := regFieldsPmu1 ++ regFieldsPmu2

/-- Registers of the TEST page, part 1 of 1. -/
def regFieldsTest1 : List RegField :=
  [⟨0x010, 0, 1, 0, 1, .w1c, 0x0⟩,  -- UNIT_ATTN.MBIST_DONE, R381
   ⟨0x010, 0, 1, 1, 1, .w1c, 0x0⟩,  -- UNIT_ATTN.T1500_DONE, R381
   ⟨0x014, 0, 1, 0, 1, .rw, 0x0⟩,  -- UNIT_ATTN_EN.MBIST_DONE, R403
   ⟨0x014, 0, 1, 1, 1, .rw, 0x0⟩,  -- UNIT_ATTN_EN.T1500_DONE, R403
   ⟨0x018, 0, 1, 0, 4, .ro, 0x0⟩,  -- UNIT_FAULT.CLASS, R364
   ⟨0x018, 0, 1, 8, 8, .ro, 0x0⟩,  -- UNIT_FAULT.SOURCE, R364
   ⟨0x018, 0, 1, 16, 16, .rc, 0x0⟩,  -- UNIT_FAULT.COUNT, R364
   ⟨0x01C, 0, 1, 0, 32, .rw, 0x0⟩,  -- UNIT_SCRATCH.DATA, R403
   ⟨0x040, 0, 1, 0, 1, .ro, 0x0⟩,  -- TEST_STATUS.ZEROISED, R381
   ⟨0x040, 0, 1, 1, 1, .ro, 0x0⟩,  -- TEST_STATUS.HOLD, R381
   ⟨0x044, 0, 1, 0, 1, .ro, 0x0⟩,  -- TEST_CTL.STACKTEST, R381
   ⟨0x048, 0, 1, 0, 1, .ro, 0x0⟩,  -- TEST_LBIST_STAT.RAN, R381
   ⟨0x048, 0, 1, 1, 1, .ro, 0x0⟩,  -- TEST_LBIST_STAT.PASS, R381
   ⟨0x048, 0, 1, 16, 16, .ro, 0x0⟩,  -- TEST_LBIST_STAT.FAILPART, R381
   ⟨0x04C, 0, 1, 0, 4, .rw, 0x0⟩,  -- TEST_MBIST_CTL.TARGET, R381
   ⟨0x04C, 0, 1, 31, 1, .wo, 0x0⟩,  -- TEST_MBIST_CTL.GO, R381
   ⟨0x050, 0, 1, 0, 1, .ro, 0x0⟩,  -- TEST_MBIST_STAT.BUSY, R381
   ⟨0x050, 0, 1, 2, 2, .ro, 0x0⟩,  -- TEST_MBIST_STAT.RESULT, R381
   ⟨0x050, 0, 1, 8, 8, .ro, 0x0⟩,  -- TEST_MBIST_STAT.ROWS, R381
   ⟨0x050, 0, 1, 16, 8, .ro, 0x0⟩,  -- TEST_MBIST_STAT.COLS, R381
   ⟨0x050, 0, 1, 24, 8, .ro, 0x0⟩,  -- TEST_MBIST_STAT.FUSED, R381
   ⟨0x060, 0, 1, 0, 1, .rw, 0x0⟩,  -- TEST_T1500_CTL.WDR, R381
   ⟨0x060, 0, 1, 1, 10, .rw, 0x0⟩,  -- TEST_T1500_CTL.LEN, R381
   ⟨0x060, 0, 1, 31, 1, .wo, 0x0⟩,  -- TEST_T1500_CTL.GO, R381
   ⟨0x064, 0, 1, 0, 1, .ro, 0x0⟩,  -- TEST_T1500_STAT.BUSY, R381
   ⟨0x064, 0, 1, 4, 2, .ro, 0x0⟩,  -- TEST_T1500_STAT.RESULT, R381
   ⟨0x080, 4, 16, 0, 32, .rw, 0x0⟩]  -- TEST_T1500_DATA0–15.DATA, R381

/-- Registers of the TEST page. -/
def regFieldsTest : List RegField := regFieldsTest1

/-- Registers of the SEC page, part 1 of 1. -/
def regFieldsSec1 : List RegField :=
  [⟨0x010, 0, 1, 0, 1, .w1c, 0x0⟩,  -- UNIT_ATTN.HEALTH_FAIL, R411
   ⟨0x014, 0, 1, 0, 1, .rw, 0x1⟩,  -- UNIT_ATTN_EN.HEALTH_FAIL, R403
   ⟨0x018, 0, 1, 0, 4, .ro, 0x0⟩,  -- UNIT_FAULT.CLASS, R364
   ⟨0x018, 0, 1, 8, 8, .ro, 0x0⟩,  -- UNIT_FAULT.SOURCE, R364
   ⟨0x018, 0, 1, 16, 16, .rc, 0x0⟩,  -- UNIT_FAULT.COUNT, R364
   ⟨0x01C, 0, 1, 0, 32, .rw, 0x0⟩,  -- UNIT_SCRATCH.DATA, R403
   ⟨0x040, 0, 1, 0, 1, .ro, 0x0⟩,  -- SEC_STATUS.KEYED, R411
   ⟨0x040, 0, 1, 1, 1, .ro, 0x0⟩,  -- SEC_STATUS.HEALTH, R411
   ⟨0x040, 0, 1, 2, 1, .ro, 0x0⟩,  -- SEC_STATUS.ZEROISING, R411
   ⟨0x044, 0, 1, 0, 16, .rc, 0x0⟩,  -- SEC_HEALTH.RCT, R411
   ⟨0x044, 0, 1, 16, 16, .rc, 0x0⟩]  -- SEC_HEALTH.APT, R411

/-- Registers of the SEC page. -/
def regFieldsSec : List RegField := regFieldsSec1

/-- Registers of the ARB page, part 1 of 1. -/
def regFieldsArb1 : List RegField :=
  [⟨0x010, 0, 1, 0, 1, .w1c, 0x0⟩,  -- UNIT_ATTN.COMMIT_FAIL, R103
   ⟨0x014, 0, 1, 0, 1, .rw, 0x1⟩,  -- UNIT_ATTN_EN.COMMIT_FAIL, R403
   ⟨0x018, 0, 1, 0, 4, .ro, 0x0⟩,  -- UNIT_FAULT.CLASS, R364
   ⟨0x018, 0, 1, 8, 8, .ro, 0x0⟩,  -- UNIT_FAULT.SOURCE, R364
   ⟨0x018, 0, 1, 16, 16, .rc, 0x0⟩,  -- UNIT_FAULT.COUNT, R364
   ⟨0x01C, 0, 1, 0, 32, .rw, 0x0⟩,  -- UNIT_SCRATCH.DATA, R403
   ⟨0x040, 0, 1, 0, 1, .ro, 0x0⟩,  -- ARB_STATUS.ERR, R103
   ⟨0x040, 0, 1, 16, 4, .ro, 0x0⟩,  -- ARB_STATUS.ERR_CODE, R103
   ⟨0x044, 0, 1, 0, 1, .rws, 0x0⟩,  -- ARB_CTL.IDLEFILL, R103
   ⟨0x048, 0, 1, 0, 7, .rws, 0x28⟩,  -- ARB_QUOTA.LC, R103
   ⟨0x048, 0, 1, 8, 7, .rws, 0x38⟩,  -- ARB_QUOTA.RT, R103
   ⟨0x048, 0, 1, 16, 7, .rws, 0x40⟩,  -- ARB_QUOTA.BL, R103
   ⟨0x048, 0, 1, 24, 7, .rws, 0x40⟩,  -- ARB_QUOTA.MT, R103
   ⟨0x04C, 0, 1, 0, 4, .rws, 0x2⟩,  -- ARB_MT_RSV.RSV, R103
   ⟨0x050, 0, 1, 0, 22, .rws, 0x32⟩,  -- ARB_HZN_LC.HZN, R103
   ⟨0x054, 0, 1, 0, 22, .rws, 0x1F4⟩,  -- ARB_HZN_RT.HZN, R103
   ⟨0x058, 0, 1, 0, 22, .rws, 0x30D4⟩,  -- ARB_HZN_BL.HZN, R103
   ⟨0x05C, 0, 1, 0, 22, .rws, 0x3D090⟩,  -- ARB_HZN_MT.HZN, R103
   ⟨0x060, 0, 1, 0, 32, .rws, 0x0⟩]  -- ARB_PORTCAP.CAPn, R103

/-- Registers of the ARB page. -/
def regFieldsArb : List RegField := regFieldsArb1

/-- Registers of the RGN page, part 1 of 1. -/
def regFieldsRgn1 : List RegField :=
  [⟨0x010, 0, 1, 0, 1, .w1c, 0x0⟩,  -- UNIT_ATTN.COMMIT_FAIL, R75
   ⟨0x014, 0, 1, 0, 1, .rw, 0x1⟩,  -- UNIT_ATTN_EN.COMMIT_FAIL, R403
   ⟨0x018, 0, 1, 0, 4, .ro, 0x0⟩,  -- UNIT_FAULT.CLASS, R364
   ⟨0x018, 0, 1, 8, 8, .ro, 0x0⟩,  -- UNIT_FAULT.SOURCE, R364
   ⟨0x018, 0, 1, 16, 16, .rc, 0x0⟩,  -- UNIT_FAULT.COUNT, R364
   ⟨0x01C, 0, 1, 0, 32, .rw, 0x0⟩,  -- UNIT_SCRATCH.DATA, R403
   ⟨0x040, 0, 1, 0, 1, .ro, 0x0⟩,  -- RGN_STATUS.ERR, R75
   ⟨0x040, 0, 1, 8, 5, .ro, 0x0⟩,  -- RGN_STATUS.ERR_REGION, R75
   ⟨0x040, 0, 1, 16, 4, .ro, 0x0⟩,  -- RGN_STATUS.ERR_CODE, R75
   ⟨0x400, 32, 32, 0, 1, .rws, 0x0⟩,  -- RGNn_CTL.VALID, R72
   ⟨0x400, 32, 32, 1, 1, .rws, 0x0⟩,  -- RGNn_CTL.MAP, R72
   ⟨0x400, 32, 32, 2, 1, .rws, 0x0⟩,  -- RGNn_CTL.PROT, R72
   ⟨0x400, 32, 32, 3, 2, .rws, 0x0⟩,  -- RGNn_CTL.VT, R72
   ⟨0x400, 32, 32, 5, 1, .rws, 0x0⟩,  -- RGNn_CTL.WE, R72
   ⟨0x400, 32, 32, 6, 1, .rws, 0x0⟩,  -- RGNn_CTL.SCRUB, R72
   ⟨0x400, 32, 32, 8, 12, .rws, 0x0⟩,  -- RGNn_CTL.TENANT, R72
   ⟨0x404, 32, 32, 0, 17, .rws, 0x0⟩,  -- RGNn_BASE.BASE_MB, R72
   ⟨0x408, 32, 32, 0, 17, .rws, 0x0⟩,  -- RGNn_FOOT.ROW_LO, R72
   ⟨0x408, 32, 32, 20, 4, .rws, 0x0⟩,  -- RGNn_FOOT.BANK_LO, R72
   ⟨0x408, 32, 32, 24, 3, .rws, 0x0⟩,  -- RGNn_FOOT.BANK_LOG2, R72
   ⟨0x408, 32, 32, 27, 5, .rws, 0x0⟩,  -- RGNn_FOOT.ROW_LOG2, R72
   ⟨0x40C, 32, 32, 0, 17, .rws, 0x0⟩,  -- RGNn_SIZE.ROW_COUNT, R72
   ⟨0x410, 32, 32, 0, 17, .rws, 0x0⟩]  -- RGNn_PAR.PAR_ROW_LO, R72

/-- Registers of the RGN page. -/
def regFieldsRgn : List RegField := regFieldsRgn1

/-- Registers of the HDL page, part 1 of 1. -/
def regFieldsHdl1 : List RegField :=
  [⟨0x010, 0, 1, 0, 1, .w1c, 0x0⟩,  -- UNIT_ATTN.ENTRY_UE, R84
   ⟨0x010, 0, 1, 1, 1, .w1c, 0x0⟩,  -- UNIT_ATTN.OP_DONE, R84
   ⟨0x014, 0, 1, 0, 1, .rw, 0x1⟩,  -- UNIT_ATTN_EN.ENTRY_UE, R403
   ⟨0x014, 0, 1, 1, 1, .rw, 0x0⟩,  -- UNIT_ATTN_EN.OP_DONE, R403
   ⟨0x018, 0, 1, 0, 4, .ro, 0x0⟩,  -- UNIT_FAULT.CLASS, R364
   ⟨0x018, 0, 1, 8, 8, .ro, 0x0⟩,  -- UNIT_FAULT.SOURCE, R364
   ⟨0x018, 0, 1, 16, 16, .rc, 0x0⟩,  -- UNIT_FAULT.COUNT, R364
   ⟨0x01C, 0, 1, 0, 32, .rw, 0x0⟩,  -- UNIT_SCRATCH.DATA, R403
   ⟨0x040, 0, 1, 0, 17, .ro, 0x0⟩,  -- HDL_STATUS.VALID_COUNT, R84
   ⟨0x044, 0, 1, 0, 16, .ro, 0x0⟩,  -- HDL_LAST_UE.HANDLE, R84
   ⟨0x060, 4, 8, 0, 32, .rw, 0x0⟩,  -- HDL_STAGE0–7.IMAGE, R84
   ⟨0x080, 0, 1, 0, 16, .wo, 0x0⟩,  -- HDL_OP.HANDLE, R84
   ⟨0x080, 0, 1, 16, 2, .wo, 0x0⟩,  -- HDL_OP.CMD, R84
   ⟨0x084, 0, 1, 0, 1, .ro, 0x0⟩,  -- HDL_OP_STATUS.BUSY, R84
   ⟨0x084, 0, 1, 4, 4, .ro, 0x0⟩]  -- HDL_OP_STATUS.RESULT, R84

/-- Registers of the HDL page. -/
def regFieldsHdl : List RegField := regFieldsHdl1

/-- Registers of the OCT page, part 1 of 1. -/
def regFieldsOct1 : List RegField :=
  [⟨0x010, 0, 1, 0, 1, .w1c, 0x0⟩,  -- UNIT_ATTN.DESC_REJECT, R178
   ⟨0x010, 0, 1, 1, 1, .w1c, 0x0⟩,  -- UNIT_ATTN.SLICE_OVERRUN, R178
   ⟨0x010, 0, 1, 2, 1, .w1c, 0x0⟩,  -- UNIT_ATTN(Crown).HELD_START, R205
   ⟨0x010, 0, 1, 3, 1, .w1c, 0x0⟩,  -- UNIT_ATTN(Crown).HELD_FULL, R205
   ⟨0x010, 0, 1, 4, 1, .w1c, 0x0⟩,  -- UNIT_ATTN(Crown).HELD_LOST, R205
   ⟨0x010, 0, 1, 5, 1, .w1c, 0x0⟩,  -- UNIT_ATTN(Crown).SCR_UE, R205
   ⟨0x014, 0, 1, 0, 1, .rw, 0x1⟩,  -- UNIT_ATTN_EN.DESC_REJECT, R403
   ⟨0x014, 0, 1, 1, 1, .rw, 0x1⟩,  -- UNIT_ATTN_EN.SLICE_OVERRUN, R403
   ⟨0x014, 0, 1, 2, 1, .rw, 0x0⟩,  -- UNIT_ATTN_EN.HELD_START, R403
   ⟨0x014, 0, 1, 3, 1, .rw, 0x0⟩,  -- UNIT_ATTN_EN.HELD_FULL, R403
   ⟨0x014, 0, 1, 4, 1, .rw, 0x1⟩,  -- UNIT_ATTN_EN.HELD_LOST, R403
   ⟨0x014, 0, 1, 5, 1, .rw, 0x1⟩,  -- UNIT_ATTN_EN.SCR_UE, R403
   ⟨0x018, 0, 1, 0, 4, .ro, 0x0⟩,  -- UNIT_FAULT.CLASS, R364
   ⟨0x018, 0, 1, 8, 8, .ro, 0x0⟩,  -- UNIT_FAULT.SOURCE, R364
   ⟨0x018, 0, 1, 16, 16, .rc, 0x0⟩,  -- UNIT_FAULT.COUNT, R364
   ⟨0x01C, 0, 1, 0, 32, .rw, 0x0⟩,  -- UNIT_SCRATCH.DATA, R403
   ⟨0x040, 0, 1, 0, 9, .ro, 0x0⟩,  -- DSP_STATUS (OCT0).INFLIGHT, R178
   ⟨0x044, 0, 1, 0, 8, .ro, 0x0⟩,  -- DSP_DESC_ERR (OCT0).CODE, R178
   ⟨0x044, 0, 1, 8, 12, .ro, 0x0⟩,  -- DSP_DESC_ERR (OCT0).TAG, R178
   ⟨0x044, 0, 1, 20, 4, .ro, 0x0⟩,  -- DSP_DESC_ERR (OCT0).PORT, R178
   ⟨0x048, 0, 1, 0, 32, .rc, 0x0⟩,  -- DSP_IDX_OOR (OCT0).COUNT, R178
   ⟨0x04C, 0, 1, 0, 16, .rw, 0x0⟩,  -- DSP_LATE (OCT0).DROPPED, R178
   ⟨0x04C, 0, 1, 16, 16, .rw, 0x0⟩,  -- DSP_LATE (OCT0).LATE, R178
   ⟨0x060, 0, 1, 0, 10, .rw, 0x1F4⟩,  -- OCT_SLICE_CFG.BUDGET, R178
   ⟨0x064, 0, 1, 0, 16, .ro, 0x0⟩,  -- OCT_SLICE_STAT.OVERRUN, R178
   ⟨0x080, 0, 1, 0, 5, .rwx, 0x0⟩,  -- CRN_SCR_CFG.CLIENT, R205
   ⟨0x084, 0, 1, 0, 12, .ro, 0x0⟩,  -- CRN_SCR_STAT.RSV, R205
   ⟨0x084, 0, 1, 16, 12, .ro, 0x0⟩,  -- CRN_SCR_STAT.HELD, R205
   ⟨0x088, 0, 1, 0, 8, .ro, 0x0⟩,  -- CRN_LOCK_STAT.RSV, R205
   ⟨0x088, 0, 1, 16, 9, .ro, 0x0⟩,  -- CRN_LOCK_STAT.HELD, R205
   ⟨0x08C, 0, 1, 0, 17, .ro, 0x0⟩,  -- CRN_HELD.SECTORS, R205
   ⟨0x090, 0, 1, 0, 32, .rc, 0x0⟩,  -- CRN_HELD_LOST.COUNT, R205
   ⟨0x094, 0, 1, 0, 16, .ro, 0x0⟩,  -- CRN_HELD_CID.CID, R205
   ⟨0x094, 0, 1, 16, 1, .ro, 0x0⟩,  -- CRN_HELD_CID.KIND, R205
   ⟨0x098, 0, 1, 0, 16, .rc, 0x0⟩,  -- CRN_SCR_ERR.CE, R205
   ⟨0x098, 0, 1, 16, 16, .rc, 0x0⟩]  -- CRN_SCR_ERR.UE, R205

/-- Registers of the OCT page. -/
def regFieldsOct : List RegField := regFieldsOct1

/-- Registers of the LINK page, part 1 of 1. -/
def regFieldsLink1 : List RegField :=
  [⟨0x010, 0, 1, 0, 1, .w1c, 0x0⟩,  -- UNIT_ATTN.SB_FAIL, R231
   ⟨0x010, 0, 1, 1, 1, .w1c, 0x0⟩,  -- UNIT_ATTN.CMD_ALERT, R231
   ⟨0x010, 0, 1, 2, 1, .w1c, 0x0⟩,  -- UNIT_ATTN.PP_FULL, R231
   ⟨0x010, 0, 1, 3, 1, .w1c, 0x0⟩,  -- UNIT_ATTN.PP_FAIL, R231
   ⟨0x014, 0, 1, 0, 1, .rw, 0x1⟩,  -- UNIT_ATTN_EN.SB_FAIL, R403
   ⟨0x014, 0, 1, 1, 1, .rw, 0x1⟩,  -- UNIT_ATTN_EN.CMD_ALERT, R403
   ⟨0x014, 0, 1, 2, 1, .rw, 0x1⟩,  -- UNIT_ATTN_EN.PP_FULL, R403
   ⟨0x014, 0, 1, 3, 1, .rw, 0x1⟩,  -- UNIT_ATTN_EN.PP_FAIL, R403
   ⟨0x018, 0, 1, 0, 4, .ro, 0x0⟩,  -- UNIT_FAULT.CLASS, R364
   ⟨0x018, 0, 1, 8, 8, .ro, 0x0⟩,  -- UNIT_FAULT.SOURCE, R364
   ⟨0x018, 0, 1, 16, 16, .rc, 0x0⟩,  -- UNIT_FAULT.COUNT, R364
   ⟨0x01C, 0, 1, 0, 32, .rw, 0x0⟩,  -- UNIT_SCRATCH.DATA, R403
   ⟨0x040, 0, 1, 0, 1, .ro, 0x0⟩,  -- LINK_STATUS.SB_UP, R231
   ⟨0x040, 0, 1, 1, 1, .ro, 0x0⟩,  -- LINK_STATUS.PP_VALID, R231
   ⟨0x040, 0, 1, 2, 1, .ro, 0x0⟩,  -- LINK_STATUS.PP_AREA, R231
   ⟨0x040, 0, 1, 3, 1, .ro, 0x0⟩,  -- LINK_STATUS.PP_BUSY, R231
   ⟨0x040, 0, 1, 16, 13, .ro, 0x0⟩,  -- LINK_STATUS.PP_LIVE, R231
   ⟨0x044, 0, 1, 0, 3, .rw, 0x3⟩,  -- LINK_SB_CFG.RETRY, R231
   ⟨0x048, 0, 1, 0, 16, .rc, 0x0⟩,  -- LINK_SB_ERR.CRC, R231
   ⟨0x048, 0, 1, 16, 16, .rc, 0x0⟩,  -- LINK_SB_ERR.NORESP, R231
   ⟨0x04C, 0, 1, 0, 4, .rw, 0x4⟩,  -- LINK_CMD_CFG.FAIL_ROUNDS, R231
   ⟨0x060, 0, 1, 0, 18, .wo, 0x0⟩,  -- LINK_PP_OP.ADDR, R231
   ⟨0x060, 0, 1, 18, 2, .wo, 0x0⟩,  -- LINK_PP_OP.CMD, R231
   ⟨0x064, 0, 1, 0, 32, .rw, 0x0⟩,  -- LINK_PP_DATA.DATA, R231
   ⟨0x068, 0, 1, 0, 1, .ro, 0x0⟩,  -- LINK_PP_STAT.BUSY, R231
   ⟨0x068, 0, 1, 4, 4, .ro, 0x0⟩,  -- LINK_PP_STAT.RESULT, R231
   ⟨0x200, 4, 64, 0, 16, .ro, 0x0⟩,  -- LINK_CMD_CE_c.CE, R231
   ⟨0x200, 4, 64, 16, 4, .ro, 0x0⟩,  -- LINK_CMD_CE_c.ROUNDS, R231
   ⟨0x200, 4, 64, 24, 8, .ro, 0x0⟩]  -- LINK_CMD_CE_c.ALERTS, R231

/-- Registers of the LINK page. -/
def regFieldsLink : List RegField := regFieldsLink1

/-- Registers of the ECC page, part 1 of 1. -/
def regFieldsEcc1 : List RegField :=
  [⟨0x010, 0, 1, 0, 1, .w1c, 0x0⟩,  -- UNIT_ATTN(ECC).SPARE_LOW, R299
   ⟨0x010, 0, 1, 1, 1, .w1c, 0x0⟩,  -- UNIT_ATTN(ECC).TABLE_FULL, R299
   ⟨0x010, 0, 1, 2, 1, .w1c, 0x0⟩,  -- UNIT_ATTN(ECC).QUEUE_FULL, R299
   ⟨0x010, 0, 1, 3, 1, .w1c, 0x0⟩,  -- UNIT_ATTN(ECC).VAULT_FAIL, R299
   ⟨0x014, 0, 1, 0, 1, .rw, 0x1⟩,  -- UNIT_ATTN_EN.SPARE_LOW, R403
   ⟨0x014, 0, 1, 1, 1, .rw, 0x1⟩,  -- UNIT_ATTN_EN.TABLE_FULL, R403
   ⟨0x014, 0, 1, 2, 1, .rw, 0x1⟩,  -- UNIT_ATTN_EN.QUEUE_FULL, R403
   ⟨0x014, 0, 1, 3, 1, .rw, 0x1⟩,  -- UNIT_ATTN_EN.VAULT_FAIL, R403
   ⟨0x018, 0, 1, 0, 4, .ro, 0x0⟩,  -- UNIT_FAULT.CLASS, R364
   ⟨0x018, 0, 1, 8, 8, .ro, 0x0⟩,  -- UNIT_FAULT.SOURCE, R364
   ⟨0x018, 0, 1, 16, 16, .rc, 0x0⟩,  -- UNIT_FAULT.COUNT, R364
   ⟨0x01C, 0, 1, 0, 32, .rw, 0x0⟩,  -- UNIT_SCRATCH.DATA, R403
   ⟨0x040, 0, 1, 0, 1, .rwx, 0x1⟩,  -- ECC_CTL.SCR, R299
   ⟨0x040, 0, 1, 1, 1, .rw, 0x1⟩,  -- ECC_CTL.SCRUB, R299
   ⟨0x040, 0, 1, 2, 1, .rw, 0x1⟩,  -- ECC_CTL.WB, R299
   ⟨0x040, 0, 1, 3, 1, .rw, 0x1⟩,  -- ECC_CTL.REPAIR, R299
   ⟨0x044, 0, 1, 0, 16, .rw, 0x40⟩,  -- ECC_CE_THRESH.THRESH, R299
   ⟨0x048, 0, 1, 0, 16, .rw, 0x5A0⟩,  -- ECC_SCRUB_CFG.PERIOD, R299
   ⟨0x04C, 0, 1, 0, 16, .ro, 0x0⟩,  -- ECC_SCRUB_STAT.PASSES, R299
   ⟨0x04C, 0, 1, 16, 16, .ro, 0x0⟩,  -- ECC_SCRUB_STAT.POS, R299
   ⟨0x050, 0, 1, 0, 5, .ro, 0x0⟩,  -- ECC_REPAIR_STAT.QUEUED, R299
   ⟨0x050, 0, 1, 5, 1, .ro, 0x0⟩,  -- ECC_REPAIR_STAT.ACTIVE, R299
   ⟨0x050, 0, 1, 6, 6, .ro, 0x0⟩,  -- ECC_REPAIR_STAT.CH, R299
   ⟨0x054, 0, 1, 0, 16, .rc, 0x0⟩,  -- ECC_REPAIR_CNT.REMAPS, R299
   ⟨0x054, 0, 1, 16, 16, .rc, 0x0⟩,  -- ECC_REPAIR_CNT.FENCES, R299
   ⟨0x058, 0, 1, 0, 16, .rc, 0x0⟩,  -- ECC_VAULT_CNT.RECON, R299
   ⟨0x058, 0, 1, 16, 16, .rc, 0x0⟩,  -- ECC_VAULT_CNT.RFAIL, R299
   ⟨0x05C, 0, 1, 0, 16, .rc, 0x0⟩,  -- ECC_DROP.ROWS, R299
   ⟨0x060, 0, 1, 0, 6, .rw, 0x4⟩]  -- ECC_SPARE_LOW.LIMIT, R299

/-- Registers of the ECC page. -/
def regFieldsEcc : List RegField := regFieldsEcc1

/-- Registers of the PORT page, part 1 of 1. -/
def regFieldsPort1 : List RegField :=
  [⟨0x010, 0, 1, 0, 1, .w1c, 0x0⟩,  -- UNIT_ATTN(PORT).CREDIT_OVERRUN, R68
   ⟨0x010, 0, 1, 1, 1, .w1c, 0x0⟩,  -- UNIT_ATTN(PORT).TIMEOUT, R68
   ⟨0x010, 0, 1, 2, 1, .w1c, 0x0⟩,  -- UNIT_ATTN(PORT).WDATA_UE, R68
   ⟨0x010, 0, 1, 3, 1, .w1c, 0x0⟩,  -- UNIT_ATTN(PORT).SRCALIAS, R68
   ⟨0x014, 0, 1, 0, 1, .rw, 0x1⟩,  -- UNIT_ATTN_EN.CREDIT_OVERRUN, R403
   ⟨0x014, 0, 1, 1, 1, .rw, 0x1⟩,  -- UNIT_ATTN_EN.TIMEOUT, R403
   ⟨0x014, 0, 1, 2, 1, .rw, 0x1⟩,  -- UNIT_ATTN_EN.WDATA_UE, R403
   ⟨0x014, 0, 1, 3, 1, .rw, 0x1⟩,  -- UNIT_ATTN_EN.SRCALIAS, R403
   ⟨0x018, 0, 1, 0, 4, .ro, 0x0⟩,  -- UNIT_FAULT.CLASS, R364
   ⟨0x018, 0, 1, 8, 8, .ro, 0x0⟩,  -- UNIT_FAULT.SOURCE, R364
   ⟨0x018, 0, 1, 16, 16, .rc, 0x0⟩,  -- UNIT_FAULT.COUNT, R364
   ⟨0x01C, 0, 1, 0, 32, .rw, 0x0⟩,  -- UNIT_SCRATCH.DATA, R403
   ⟨0x040, 0, 1, 0, 1, .rw, 0x0⟩,  -- PORT_CFG.WCHK, R68
   ⟨0x044, 0, 1, 0, 24, .rw, 0x7D0⟩,  -- PORT_TIMEOUT.LIMIT, R68
   ⟨0x048, 0, 1, 0, 8, .ro, 0x40⟩,  -- PORT_CRED.HDR, R68
   ⟨0x048, 0, 1, 8, 10, .ro, 0x100⟩,  -- PORT_CRED.BEAT, R68
   ⟨0x04C, 0, 1, 0, 9, .ro, 0x0⟩,  -- PORT_OUTST.ADMITTED, R68
   ⟨0x04C, 0, 1, 16, 7, .ro, 0x0⟩]  -- PORT_OUTST.WAITING, R68

/-- Registers of the PORT page. -/
def regFieldsPort : List RegField := regFieldsPort1

/-- Registers of the CH page, part 1 of 3. -/
def regFieldsCh1 : List RegField :=
  [⟨0x010, 0, 1, 0, 1, .w1c, 0x0⟩,  -- UNIT_ATTN(CH).CE_STORM, R300
   ⟨0x010, 0, 1, 1, 1, .w1c, 0x0⟩,  -- UNIT_ATTN(CH).UE, R300
   ⟨0x010, 0, 1, 2, 1, .w1c, 0x0⟩,  -- UNIT_ATTN(CH).PAGE_RETIRE, R300
   ⟨0x010, 0, 1, 3, 1, .w1c, 0x0⟩,  -- UNIT_ATTN(CH).DATA_LOSS, R300
   ⟨0x010, 0, 1, 4, 1, .w1c, 0x0⟩,  -- UNIT_ATTN(CH).REMAP, R300
   ⟨0x010, 0, 1, 8, 1, .w1c, 0x0⟩,  -- UNIT_ATTN(Fault).FAULT, R365
   ⟨0x010, 0, 1, 9, 1, .w1c, 0x0⟩,  -- UNIT_ATTN(Fault).PROGRESS, R365
   ⟨0x014, 0, 1, 0, 1, .rw, 0x1⟩,  -- UNIT_ATTN_EN.CE_STORM, R403
   ⟨0x014, 0, 1, 1, 1, .rw, 0x0⟩,  -- UNIT_ATTN_EN.UE, R403
   ⟨0x014, 0, 1, 2, 1, .rw, 0x1⟩,  -- UNIT_ATTN_EN.PAGE_RETIRE, R403
   ⟨0x014, 0, 1, 3, 1, .rw, 0x1⟩,  -- UNIT_ATTN_EN.DATA_LOSS, R403
   ⟨0x014, 0, 1, 4, 1, .rw, 0x0⟩,  -- UNIT_ATTN_EN.REMAP, R403
   ⟨0x014, 0, 1, 8, 1, .rw, 0x1⟩,  -- UNIT_ATTN_EN.FAULT, R403
   ⟨0x014, 0, 1, 9, 1, .rw, 0x0⟩,  -- UNIT_ATTN_EN.PROGRESS, R403
   ⟨0x018, 0, 1, 0, 4, .ro, 0x0⟩,  -- UNIT_FAULT.CLASS, R364
   ⟨0x018, 0, 1, 8, 8, .ro, 0x0⟩,  -- UNIT_FAULT.SOURCE, R364
   ⟨0x018, 0, 1, 16, 16, .rc, 0x0⟩,  -- UNIT_FAULT.COUNT, R364
   ⟨0x01C, 0, 1, 0, 32, .rw, 0x0⟩,  -- UNIT_SCRATCH.DATA, R403
   ⟨0x040, 0, 1, 0, 10, .rw, 0x19⟩,  -- CH_SCHED_CFG.SLACK, R130
   ⟨0x040, 0, 1, 16, 6, .rw, 0x20⟩,  -- CH_SCHED_CFG.BATCH_MAX, R130
   ⟨0x044, 0, 1, 0, 12, .rw, 0x1F4⟩,  -- CH_LINER_CFG.AGE, R130
   ⟨0x044, 0, 1, 16, 6, .rw, 0x18⟩,  -- CH_LINER_CFG.HIWAT, R130
   ⟨0x048, 0, 1, 0, 7, .ro, 0x0⟩,  -- CH_QSTAT.CMDQ, R130
   ⟨0x048, 0, 1, 8, 6, .ro, 0x0⟩,  -- CH_QSTAT.LINER, R130
   ⟨0x048, 0, 1, 16, 2, .ro, 0x0⟩,  -- CH_QSTAT.SLICES, R130
   ⟨0x048, 0, 1, 20, 4, .ro, 0x0⟩,  -- CH_QSTAT.SLICEQ, R130
   ⟨0x04C, 0, 1, 0, 16, .ro, 0x0⟩,  -- CH_BANK_OPEN.HALF0, R130
   ⟨0x04C, 0, 1, 16, 16, .ro, 0x0⟩,  -- CH_BANK_OPEN.HALF1, R130
   ⟨0x050, 0, 1, 0, 16, .ro, 0x0⟩,  -- CH_BANK_RSV.RSV, R130
   ⟨0x060, 0, 1, 0, 1, .rw, 0x1⟩,  -- CH_REF_CFG.PULL_EN, R273
   ⟨0x060, 0, 1, 4, 4, .rw, 0x4⟩,  -- CH_REF_CFG.URGENT, R273
   ⟨0x064, 0, 1, 0, 1, .ro, 0x0⟩,  -- CH_REF_STAT.X2, R273
   ⟨0x064, 0, 1, 4, 4, .ro, 0x0⟩,  -- CH_REF_STAT.MAXPOST, R273
   ⟨0x064, 0, 1, 16, 16, .rc, 0x0⟩,  -- CH_REF_STAT.GAUNTLETS, R273
   ⟨0x068, 0, 1, 0, 1, .rw, 0x1⟩,  -- CH_NRF_CFG.EN, R273
   ⟨0x068, 0, 1, 1, 2, .rw, 0x1⟩,  -- CH_NRF_CFG.RADIUS, R273
   ⟨0x068, 0, 1, 8, 5, .rw, 0xA⟩,  -- CH_NRF_CFG.K, R273
   ⟨0x068, 0, 1, 31, 1, .wo, 0x0⟩,  -- CH_NRF_CFG.RESEED, R273
   ⟨0x06C, 0, 1, 0, 32, .rc, 0x0⟩,  -- CH_NRF_STAT.COUNT, R273
   ⟨0x070, 0, 1, 0, 1, .rw, 0x1⟩]  -- CH_PWR_CFG.PD_EN, R273

/-- Registers of the CH page, part 2 of 3. -/
def regFieldsCh2 : List RegField :=
  [⟨0x070, 0, 1, 16, 12, .rw, 0xFA⟩,  -- CH_PWR_CFG.PD_IDLE, R273
   ⟨0x074, 0, 1, 0, 2, .ro, 0x0⟩,  -- CH_PWR_STAT.STATE, R273
   ⟨0x074, 0, 1, 16, 16, .rc, 0x0⟩,  -- CH_PWR_STAT.ENTRIES, R273
   ⟨0x080, 0, 1, 0, 16, .ro, 0x0⟩,  -- ECC_CE_BUCKET.LEVEL, R300
   ⟨0x080, 0, 1, 16, 16, .rc, 0x0⟩,  -- ECC_CE_BUCKET.PEAK, R300
   ⟨0x084, 0, 1, 0, 32, .rc, 0x0⟩,  -- CH_ECC_CE.COUNT, R300
   ⟨0x088, 0, 1, 0, 16, .rc, 0x0⟩,  -- CH_ECC_UE.UE, R300
   ⟨0x088, 0, 1, 16, 16, .rc, 0x0⟩,  -- CH_ECC_UE.WB_DROP, R300
   ⟨0x08C, 0, 1, 0, 4, .ro, 0x0⟩,  -- CH_ECC_UEPLACE.BANK, R300
   ⟨0x08C, 0, 1, 4, 17, .ro, 0x0⟩,  -- CH_ECC_UEPLACE.ROW, R300
   ⟨0x08C, 0, 1, 21, 5, .ro, 0x0⟩,  -- CH_ECC_UEPLACE.COLUMN, R300
   ⟨0x08C, 0, 1, 26, 1, .ro, 0x0⟩,  -- CH_ECC_UEPLACE.HALF, R300
   ⟨0x090, 4, 4, 0, 32, .ro, 0x20202020⟩,  -- CH_SPARE_FREE0–3.BANKm, R300
   ⟨0x0A0, 0, 1, 0, 5, .rw, 0x0⟩,  -- CH_ECC_INJ.EXP, R300
   ⟨0x0A0, 0, 1, 5, 1, .rw, 0x0⟩,  -- CH_ECC_INJ.HALF, R300
   ⟨0x0A0, 0, 1, 8, 8, .rw, 0x0⟩,  -- CH_ECC_INJ.VALUE, R300
   ⟨0x0A0, 0, 1, 16, 1, .rw, 0x0⟩,  -- CH_ECC_INJ.DOUBLE, R300
   ⟨0x0A0, 0, 1, 31, 1, .rw, 0x0⟩,  -- CH_ECC_INJ.ARM, R300
   ⟨0x100, 0, 1, 0, 8, .rw, 0x23⟩,  -- CH_TIM_A0.RCD, R130
   ⟨0x100, 0, 1, 8, 8, .rw, 0x23⟩,  -- CH_TIM_A0.RP, R130
   ⟨0x100, 0, 1, 16, 8, .rw, 0x4B⟩,  -- CH_TIM_A0.RAS, R130
   ⟨0x100, 0, 1, 24, 8, .rw, 0x6E⟩,  -- CH_TIM_A0.RC, R130
   ⟨0x104, 0, 1, 0, 8, .rw, 0x1E⟩,  -- CH_TIM_A1.FAW, R130
   ⟨0x104, 0, 1, 8, 4, .rw, 0x6⟩,  -- CH_TIM_A1.RRD_S, R130
   ⟨0x104, 0, 1, 12, 4, .rw, 0x8⟩,  -- CH_TIM_A1.RRD_L, R130
   ⟨0x104, 0, 1, 16, 8, .rw, 0x1E⟩,  -- CH_TIM_A1.WR, R130
   ⟨0x104, 0, 1, 24, 8, .rw, 0x8⟩,  -- CH_TIM_A1.RTP, R130
   ⟨0x108, 0, 1, 0, 6, .rw, 0x2⟩,  -- CH_TIM_A2.CCD_S, R130
   ⟨0x108, 0, 1, 8, 6, .rw, 0x4⟩,  -- CH_TIM_A2.CCD_L, R130
   ⟨0x108, 0, 1, 16, 6, .rw, 0xA⟩,  -- CH_TIM_A2.WTR, R130
   ⟨0x108, 0, 1, 24, 6, .rw, 0x4⟩,  -- CH_TIM_A2.RTW, R130
   ⟨0x10C, 0, 1, 0, 12, .rw, 0x190⟩,  -- CH_TIM_A3.RFCPB, R130
   ⟨0x110, 0, 1, 0, 8, .rw, 0x23⟩,  -- CH_TIM_B0.RCD, R130
   ⟨0x110, 0, 1, 8, 8, .rw, 0x23⟩,  -- CH_TIM_B0.RP, R130
   ⟨0x110, 0, 1, 16, 8, .rw, 0x4B⟩,  -- CH_TIM_B0.RAS, R130
   ⟨0x110, 0, 1, 24, 8, .rw, 0x6E⟩,  -- CH_TIM_B0.RC, R130
   ⟨0x114, 0, 1, 0, 8, .rw, 0x1E⟩,  -- CH_TIM_B1.FAW, R130
   ⟨0x114, 0, 1, 8, 4, .rw, 0x6⟩,  -- CH_TIM_B1.RRD_S, R130
   ⟨0x114, 0, 1, 12, 4, .rw, 0x8⟩,  -- CH_TIM_B1.RRD_L, R130
   ⟨0x114, 0, 1, 16, 8, .rw, 0x1E⟩]  -- CH_TIM_B1.WR, R130

/-- Registers of the CH page, part 3 of 3. -/
def regFieldsCh3 : List RegField :=
  [⟨0x114, 0, 1, 24, 8, .rw, 0x8⟩,  -- CH_TIM_B1.RTP, R130
   ⟨0x118, 0, 1, 0, 6, .rw, 0x4⟩,  -- CH_TIM_B2.CCD_S, R130
   ⟨0x118, 0, 1, 8, 6, .rw, 0x8⟩,  -- CH_TIM_B2.CCD_L, R130
   ⟨0x118, 0, 1, 16, 6, .rw, 0xA⟩,  -- CH_TIM_B2.WTR, R130
   ⟨0x118, 0, 1, 24, 6, .rw, 0x8⟩,  -- CH_TIM_B2.RTW, R130
   ⟨0x11C, 0, 1, 0, 12, .rw, 0x190⟩,  -- CH_TIM_B3.RFCPB, R130
   ⟨0x120, 0, 1, 0, 1, .ro, 0x0⟩,  -- CH_TIM_SEL.ACTIVE, R130
   ⟨0x400, 16, 51, 0, 8, .ro, 0x0⟩,  -- CH_CAL_DLY.RDLY, R253
   ⟨0x400, 16, 51, 8, 8, .ro, 0x0⟩,  -- CH_CAL_DLY.WDLY, R253
   ⟨0x400, 16, 51, 16, 8, .ro, 0x0⟩,  -- CH_CAL_DLY.BREF, R253
   ⟨0x400, 16, 51, 24, 8, .ro, 0x0⟩,  -- CH_CAL_DLY.SREF, R253
   ⟨0x404, 16, 51, 0, 8, .ro, 0x0⟩,  -- CH_CAL_EYE.REYE, R253
   ⟨0x404, 16, 51, 8, 8, .ro, 0x0⟩,  -- CH_CAL_EYE.WEYE, R253
   ⟨0x404, 16, 51, 16, 8, .ro, 0x0⟩,  -- CH_CAL_EYE.RRES, R253
   ⟨0x404, 16, 51, 24, 8, .ro, 0x0⟩,  -- CH_CAL_EYE.WRES, R253
   ⟨0x408, 16, 51, 0, 1, .ro, 0x0⟩,  -- CH_CAL_STAT.FAILED, R253
   ⟨0x408, 16, 51, 1, 1, .ro, 0x0⟩,  -- CH_CAL_STAT.COVERED, R253
   ⟨0x408, 16, 51, 2, 1, .ro, 0x0⟩,  -- CH_CAL_STAT.MITTEN, R253
   ⟨0x408, 16, 51, 3, 1, .ro, 0x0⟩,  -- CH_CAL_STAT.INPLACE, R253
   ⟨0x408, 16, 51, 4, 1, .ro, 0x0⟩,  -- CH_CAL_STAT.STALE, R253
   ⟨0x408, 16, 51, 8, 4, .ro, 0x0⟩,  -- CH_CAL_STAT.LOW, R253
   ⟨0x408, 16, 51, 16, 16, .ro, 0x0⟩,  -- CH_CAL_STAT.SWEEPS, R253
   ⟨0x40C, 16, 51, 0, 16, .ro, 0x0⟩,  -- CH_CAL_PS.REYE_PS, R253
   ⟨0x40C, 16, 51, 16, 16, .ro, 0x0⟩,  -- CH_CAL_PS.WEYE_PS, R253
   ⟨0x740, 4, 4, 0, 8, .ro, 0x0⟩,  -- CH_CAL_CUFF.D, R253
   ⟨0x740, 4, 4, 8, 1, .ro, 0x0⟩,  -- CH_CAL_CUFF.HELD, R253
   ⟨0x800, 8, 64, 0, 1, .ro, 0x0⟩,  -- CH_REMAPe_LO.VALID, R300
   ⟨0x800, 8, 64, 1, 1, .ro, 0x0⟩,  -- CH_REMAPe_LO.FENCED, R300
   ⟨0x800, 8, 64, 2, 2, .ro, 0x0⟩,  -- CH_REMAPe_LO.FAILS, R300
   ⟨0x800, 8, 64, 4, 4, .ro, 0x0⟩,  -- CH_REMAPe_LO.BANK, R300
   ⟨0x800, 8, 64, 8, 17, .ro, 0x0⟩,  -- CH_REMAPe_LO.ROW, R300
   ⟨0x804, 8, 64, 0, 5, .ro, 0x0⟩]  -- CH_REMAPe_HI.SPARE, R300

/-- Registers of the CH page. -/
def regFieldsCh : List RegField := regFieldsCh1 ++ regFieldsCh2 ++ regFieldsCh3

/-- The fields of a unit's page. -/
def regFields : UnitKind → List RegField
  | .blk => regFieldsBlk
  | .clk => regFieldsClk
  | .hk => regFieldsHk
  | .thm => regFieldsThm
  | .pwr => regFieldsPwr
  | .cal => regFieldsCal
  | .log => regFieldsLog
  | .pmu => regFieldsPmu
  | .test => regFieldsTest
  | .sec => regFieldsSec
  | .arb => regFieldsArb
  | .rgn => regFieldsRgn
  | .hdl => regFieldsHdl
  | .oct => regFieldsOct
  | .link => regFieldsLink
  | .ecc => regFieldsEcc
  | .port => regFieldsPort
  | .ch => regFieldsCh

end Sys2Proof.Machine
end

