-- ==== Sys2Proof/Machine/Ops.lean ====
section
/-! DEFINITION. The named operations that every command is built from: the geometry of the parts, the replicated
units, the stored registers, free values, attention, the counters and the log. -/

namespace Sys2Proof.Machine

/-! ### Geometry (Table 0-1) -/

/-- Channels of the part, N. -/
def nChan (s : State) : Nat := if s.part = .rosura32 then 32 else 64

/-- log2 N. -/
def lgChan (s : State) : Nat := if s.part = .rosura32 then 5 else 6

/-- Octants of the part. -/
def nOct (s : State) : Nat := nChan s / 8

/-- Calibration engines of the part (R14). -/
def nCal (s : State) : Nat := nChan s / 16

/-- Rows per bank (Table 0-1). -/
def rowsPerBank (s : State) : Nat := if s.part = .rosura64H then 98304 else 65536

/-- DRAM dies of the stack (Table 0-1). -/
def nDies (s : State) : Nat := if s.part = .rosura64H then 16 else 12

/-- The unit kind and instance of a page on the full part (Table 16-1). -/
def pageUnit (page : Nat) : Option (UnitKind × Nat) :=
  if page < 5 then some ([UnitKind.blk, .clk, .hk, .thm, .pwr].getD page .blk, 0)
  else if page < 9 then some (.cal, page - 5)
  else if page < 16 then some ([UnitKind.log, .pmu, .test, .sec, .arb, .rgn, .hdl].getD (page - 9) .log, 0)
  else if page < 24 then some (.oct, page - 16)
  else if page = 24 then some (.link, 0)
  else if page = 25 then some (.ecc, 0)
  else if page < 32 then none
  else if page < 48 then some (.port, page - 32)
  else if page < 64 then none
  else if page < 128 then some (.ch, page - 64)
  else none

/-- The unit of a page of this part; none for a reserved page (R5, R16, R402). -/
def unitOf (s : State) (page : Nat) : Option (UnitKind × Nat) :=
  match pageUnit page with
  | some (.cal, n) => if n < nCal s then some (.cal, n) else none
  | some (.oct, k) => if k < nOct s then some (.oct, k) else none
  | some (.ch, c) => if c < nChan s then some (.ch, c) else none
  | r => r

/-- The register domain of a page (Table 1-2). -/
def pageDomain (page : Nat) : Nat :=
  match pageUnit page with
  | some (.blk, _) | some (.arb, _) | some (.rgn, _) | some (.hdl, _) => 93
  | some (.clk, _) => 99
  | some (.hk, _) | some (.thm, _) | some (.sec, _) | some (.ecc, _) => 92
  | some (.pwr, _) => 98
  | some (.cal, n) => 88 + n
  | some (.log, _) => 94
  | some (.pmu, _) => 95
  | some (.test, _) => 96
  | some (.oct, k) => 80 + k
  | some (.link, _) => 97
  | some (.port, p) => 64 + p
  | some (.ch, c) => c
  | none => 93

/-- The page of channel c's unit. -/
def chPage (c : Nat) : Nat := 64 + c
/-- The page of octant k's unit. -/
def octPage (k : Nat) : Nat := 16 + k
/-- The page of port p's unit. -/
def portPage (p : Nat) : Nat := 32 + p
/-- The page of engine n's unit. -/
def calPage (n : Nat) : Nat := 5 + n
/-- Page of the BLK unit. -/
def pgBlk : Nat := 0
/-- Page of the CLK unit. -/
def pgClk : Nat := 1
/-- Page of the HK unit. -/
def pgHk : Nat := 2
/-- Page of the THM unit. -/
def pgThm : Nat := 3
/-- Page of the PWR unit. -/
def pgPwr : Nat := 4
/-- Page of the LOG unit. -/
def pgLog : Nat := 9
/-- Page of the PMU. -/
def pgPmu : Nat := 10
/-- Page of the TEST unit. -/
def pgTest : Nat := 11
/-- Page of the SEC unit. -/
def pgSec : Nat := 12
/-- Page of the ARB unit. -/
def pgArb : Nat := 13
/-- Page of the RGN unit. -/
def pgRgn : Nat := 14
/-- Page of the HDL unit. -/
def pgHdl : Nat := 15
/-- Page of the LINK unit. -/
def pgLink : Nat := 24
/-- Page of the ECC unit. -/
def pgEcc : Nat := 25

/-! ### Replicated units -/

/-- Port p. -/
def port (s : State) (p : Nat) : Port := Tab.get s.ports p Port.reset
/-- The state with port p replaced. -/
def setPort (s : State) (p : Nat) (x : Port) : State := { s with ports := Tab.put s.ports p x }
/-- Channel c. -/
def chan (s : State) (c : Nat) : Chan := Tab.get s.chans c Chan.reset
/-- The state with channel c replaced. -/
def setChan (s : State) (c : Nat) (x : Chan) : State := { s with chans := Tab.put s.chans c x }
/-- The state with channel c changed by f. -/
def modChan (s : State) (c : Nat) (f : Chan → Chan) : State := setChan s c (f (chan s c))
/-- Octant k. -/
def oct (s : State) (k : Nat) : Oct := Tab.get s.octs k Oct.reset
/-- The state with octant k replaced. -/
def setOct (s : State) (k : Nat) (x : Oct) : State := { s with octs := Tab.put s.octs k x }
/-- The state with octant k changed by f. -/
def modOct (s : State) (k : Nat) (f : Oct → Oct) : State := setOct s k (f (oct s k))
/-- Engine n. -/
def cal (s : State) (n : Nat) : CalEng := Tab.get s.cals n CalEng.reset
/-- The state with engine n replaced. -/
def setCal (s : State) (n : Nat) (x : CalEng) : State := { s with cals := Tab.put s.cals n x }
/-- Channel c of the stack. -/
def stk (s : State) (c : Nat) : StkChan := Tab.get s.stack.chans c StkChan.reset
/-- The state with channel c of the stack replaced. -/
def setStk (s : State) (c : Nat) (x : StkChan) : State :=
  { s with stack := { s.stack with chans := Tab.put s.stack.chans c x } }
/-- The state with channel c of the stack changed by f. -/
def modStk (s : State) (c : Nat) (f : StkChan → StkChan) : State := setStk s c (f (stk s c))

/-- A fold over the first n numbers. -/
def forN (n : Nat) (f : State → Nat → State) (s : State) : State := (List.range n).foldl f s

/-- The request with a given identity. -/
def findReq (s : State) (id : Nat) : Option Req := s.reqs.find? (fun r => r.id == id)
/-- The state with request `id` changed by f. -/
def modReq (s : State) (id : Nat) (f : Req → Req) : State :=
  { s with reqs := s.reqs.map (fun r => if r.id = id then f r else r) }

/-! ### Free values (log 6) -/

/-- The next free value of w bits, and the state with it taken. -/
def takeFree (w : Nat) (s : State) : BitVec w × State :=
  (Config.freeBits w s.free, { s with free := s.free + 1 })

/-- A free value of w bits that a draw may not find zero: zero is replaced as the rule at hand states. -/
def takeFreeNonzero (w : Nat) (sub : BitVec w) (s : State) : BitVec w × State :=
  let (v, s) := takeFree w s
  (if v = 0 then sub else v, s)

/-! ### Stored registers -/

/-- Whether a field covers the register at offset `off`. -/
def RegField.covers (f : RegField) (off : Nat) : Bool :=
  f.n == 1 && off == f.off ||
    decide (1 < f.n) && decide (f.off ≤ off) && decide (off < f.off + f.stride * f.n) &&
      (off - f.off) % f.stride == 0

/-- The fields of the register at `off` of a unit's page. The dispatcher's registers and its cause DESC_REJECT exist on
OCT0 only (R178, Table 6-9), THM_SENS60-63 are reserved and THM_SENS64-79 exist on Rosura 64H only (Table 12-9). -/
def fieldsAt (s : State) (u : UnitKind × Nat) (off : Nat) : List RegField :=
  if u.1 = .oct ∧ u.2 ≠ 0 ∧ 0x040 ≤ off ∧ off ≤ 0x04C then []
  else if u.1 = .thm ∧ (0x4F0 ≤ off ∧ off < 0x500 ∨ 0x500 ≤ off ∧ s.part ≠ .rosura64H) then []
  else if u.1 = .pmu ∧ 0x400 ≤ off ∧ s.part = .rosura32 ∧
      (128 ≤ (off - 0x400) / 8 ∧ (off - 0x400) / 8 < 256 ∨ 336 ≤ (off - 0x400) / 8 ∧ (off - 0x400) / 8 < 352) then []
  else
    let absent := fun (f : RegField) => u.1 == .oct && u.2 != 0 && (f.off == 0x010 || f.off == 0x014) && f.lo == 0
    (regFields u.1).filter (fun f => f.covers off && !absent f)

/-- The mask of w bits from bit lo. -/
def maskAt (lo w : Nat) : Word := BitVec.ofNat 32 ((2 ^ w - 1) * 2 ^ lo)

/-- `x` with w bits from lo replaced by v. -/
def putBits (x : Word) (lo w v : Nat) : Word :=
  (x &&& ~~~(maskAt lo w)) ||| BitVec.ofNat 32 ((v % 2 ^ w) * 2 ^ lo)

/-- The reset value of a register, from its fields. -/
def regResetAt (fs : List RegField) : Word := fs.foldl (fun acc f => putBits acc f.lo f.w f.rst) 0#32

/-- The key of a register in `State.regs`. -/
def regKey (page off : Nat) : Nat := page * 4096 + off

/-- The reset value of the register at `off` of page `page`. -/
def regReset (s : State) (page off : Nat) : Word :=
  match unitOf s page with
  | some u => regResetAt (fieldsAt s u off)
  | none => 0

/-- The stored word of a register. -/
def reg (s : State) (page off : Nat) : Word :=
  match Tab.find s.regs (regKey page off) with
  | some w => w
  | none => regReset s page off

/-- The state with a stored register word replaced. -/
def setReg (s : State) (page off : Nat) (w : Word) : State :=
  { s with regs := Tab.put s.regs (regKey page off) w }

/-- w bits from lo of a stored register. -/
def regF (s : State) (page off lo w : Nat) : Nat := fieldNat (reg s page off) lo w

/-- One bit of a stored register. -/
def regB (s : State) (page off bit : Nat) : Bool := (reg s page off).getLsbD bit

/-- The state with w bits from lo of a stored register replaced. -/
def setRegF (s : State) (page off lo w v : Nat) : State := setReg s page off (putBits (reg s page off) lo w v)

/-- A saturating count in w bits from lo of a stored register. -/
def bumpReg (s : State) (page off lo w inc : Nat) : State :=
  setRegF s page off lo w (min (2 ^ w - 1) (regF s page off lo w + inc))

/-! ### Attention (R63-R65) -/

/-- The causes of a page's UNIT_ATTN that are enabled in its UNIT_ATTN_EN (R63). -/
def enabledCauses (s : State) (page : Nat) : Word := reg s page 0x010 &&& reg s page 0x014

/-- Some enabled cause is pending in some unit (R64). A unit with nothing in its UNIT_ATTN stores no word. -/
def attnPending (s : State) : Bool :=
  s.regs.any (fun e => e.1 % 4096 == 0x010 && enabledCauses s (e.1 / 4096) != 0#32)

/-- A cause latches in a unit's UNIT_ATTN, enabled or not (R63); a new pending cause opens the rise window. -/
def latch (s : State) (page bit : Nat) : State :=
  let t := setRegF s page 0x010 bit 1 1
  if regB s page 0x014 bit && !s.attn.up then
    { t with attn := { riseAt := s.time.cyc, up := true, clearId := none, fallEnd := 0, num := s.attn.num + 1 } }
  else t

/-- The pending OR is evaluated again after a write to UNIT_ATTN or UNIT_ATTN_EN by request `id`: the last
cause cleared opens the fall window (R64). -/
def attnRecheck (s : State) (clearing : Bool) (id : Nat) : State :=
  let up := attnPending s
  if up = s.attn.up then s
  else
    { s with attn := { riseAt := s.time.cyc - 20, up := up, clearId := if clearing && !up then some id else none,
                       fallEnd := 0, num := s.attn.num + 1 } }

/-! ### Counters (15) -/

/-- The attributes of a request as a counter's filter sees them (R388). `late`: the event passed the filters without a window
before the request's data addresses were known, and only those with a window look at it now. -/
structure Attr where
  internal : Bool
  priv : BitVec 2
  cls : Cls
  src : BitVec 10
  ranges : List (Nat × Nat)
  late : Bool
  deriving DecidableEq, Repr

/-- Class number: LC 0, RT 1, BL 2, MT 3 (Table 2-2). -/
def Cls.num : Cls → Nat
  | .lc => 0 | .rt => 1 | .bl => 2 | .mt => 3

/-- The attributes of a request. -/
def Req.attr (r : Req) : Attr :=
  { internal := false, priv := r.h.priv, cls := r.cls, src := r.h.src, ranges := r.ranges, late := false }

/-- The attributes of an internal requester's event of a class. -/
def internalAttr (c : Cls) : Attr := { internal := true, priv := 0, cls := c, src := 0, ranges := [], late := false }

/-- Whether a request passes filter set f; set 0 passes every request (R388, Table 15-2). -/
def passesFilter (s : State) (f : Nat) (a : Attr) : Bool :=
  if f = 0 then !a.late
  else
    let wa := reg s pgPmu (0x108 + 8 * (f - 1))
    let wb := reg s pgPmu (0x10C + 8 * (f - 1))
    let win := fieldNat wa 8 2
    let base := (reg s pgPmu (0x140 + 8 * win)).toNat
    let limit := (reg s pgPmu (0x144 + 8 * win)).toNat
    let clsOk := (fieldNat wa 4 4).testBit (Cls.num a.cls)
    let wen := wa.getLsbD 10
    if a.internal then wa.getLsbD 11 && clsOk && !wen
    else
      (fieldNat wa 0 3).testBit a.priv.toNat && clsOk &&
        decide ((a.src ^^^ field wb 0 10) &&& field wb 16 10 = 0#10) &&
        (if wen then a.ranges.any (fun r => decide (max base r.1 ≤ limit ∧ base < r.1 + r.2 ∧ 0 < r.2)) else !a.late)

/-- The kinds of unit that counters watch (Table 15-1). -/
inductive EvKind where
  | channel | port | octant | block
  deriving DecidableEq, Repr

/-- The native channel events that a Pordon number counts as; none where the number is reserved (Table 15-4). -/
def pordon (n : Nat) : Option (List Nat) :=
  match n with
  | 0x00 => some [0x00] | 0x01 => some [0x01] | 0x02 => some [0x02] | 0x03 => some [0x08]
  | 0x04 => some [0x09] | 0x05 => some [0x0A] | 0x06 => some [] | 0x07 => some []
  | 0x08 => some [0x05] | 0x09 => some [0x06, 0x07] | 0x0C => some [0x11] | 0x10 => some [0x12]
  | 0x14 => some [0x14] | 0x20 => some [0x15] | 0x21 => some [0x16]
  | _ => none

/-- What counter i watches: kind and instance, `block` for counters 352-367 (Table 15-1). -/
def counterUnit (i : Nat) : EvKind × Nat :=
  if i < 256 then (.channel, i / 4) else if i < 320 then (.port, (i - 256) / 4)
  else if i < 352 then (.octant, (i - 320) / 4) else (.block, 0)

/-- The kind that counter i counts under configuration word w (Table 15-2, KIND). -/
def counterKind (i : Nat) (w : BitVec 17) : EvKind :=
  if i < 352 then (counterUnit i).1
  else match fieldNat w 12 2 with | 0 => .block | 1 => .channel | 2 => .port | _ => .octant

/-- Whether counter i is user-granted (R391). -/
def userGranted (s : State) (i : Nat) : Bool := regB s pgPmu (0x080 + 4 * (i / 32)) (i % 32)

/-- Whether counters 2j and 2j + 1 are chained (R391). -/
def chainedPair (s : State) (j : Nat) : Bool :=
  (Tab.get s.pmu.cfg (2 * j + 1) 0#17).getLsbD 14 && !userGranted s (2 * j) && !userGranted s (2 * j + 1)

/-- A counter's PMU_OVF bit is set, and OVF latches when its OVFA = 1 (R391). -/
def setOvf (s : State) (i : Nat) : State :=
  let s := setRegF s pgPmu (0x0C0 + 4 * (i / 32)) (i % 32) 1 1
  if (Tab.get s.pmu.cfg i 0#17).getLsbD 16 then latch s pgPmu 0 else s

/-- The value of counter i. -/
def counter (s : State) (i : Nat) : BitVec 48 := Tab.get s.pmu.cnt i 0#48

/-- The state with counter i loaded. -/
def setCounter (s : State) (i : Nat) (v : BitVec 48) : State :=
  { s with pmu := { s.pmu with cnt := Tab.put s.pmu.cnt i v } }

/-- An increment of a counter that is not the low half of a chained pair (R391). -/
def counterAddPlain (s : State) (i inc : Nat) : State :=
  let v := (counter s i).toNat + inc
  if v < 2 ^ 48 then setCounter s i (BitVec.ofNat 48 v)
  else if userGranted s i then setOvf (setCounter s i (BitVec.ofNat 48 (2 ^ 48 - 1))) i
  else setOvf (setCounter s i (BitVec.ofNat 48 v)) i

/-- An increment of counter i, with what happens at the largest value (R391). -/
def counterAdd (s : State) (i inc : Nat) : State :=
  if i % 2 = 0 ∧ chainedPair s (i / 2) then
    let v := (counter s i).toNat + inc
    let s := setCounter s i (BitVec.ofNat 48 v)
    if v < 2 ^ 48 then s else counterAddPlain s (i + 1) (v / 2 ^ 48)
  else counterAddPlain s i inc

/-- Whether counter i under word w counts event `code` of a unit, with the attributes given (R387-R391). -/
def counts (s : State) (i : Nat) (w : BitVec 17) (k : EvKind) (inst code : Nat) (a : Option Attr) : Bool :=
  let unitOk := counterKind i w == k && (decide (352 ≤ i) || (counterUnit i).2 == inst)
  let legacy := w.getLsbD 8
  let codeOk := if legacy then ((pordon (fieldNat w 0 8)).getD []).contains code else fieldNat w 0 8 == code
  let chained := i % 2 == 1 && chainedPair s (i / 2)
  w.getLsbD 15 && unitOk && codeOk && !chained &&
    (legacy || match a with | none => true | some a => passesFilter s (fieldNat w 9 3) a)

/-- A clock domain is gated (R333): its gate bit is set and its clock has stopped. -/
def gated (s : State) (d : Nat) : Bool := s.clk.gate.getLsbD d

/-- The clock domain of a unit that counters watch, in which they count (Table 13-2). -/
def EvKind.domain (k : EvKind) (inst : Nat) : Nat :=
  match k with
  | .channel => inst
  | .port => 64 + inst
  | .octant => 80 + inst
  | .block => 93

/-- An event of a unit rises every counter that counts it; none counts while domain 95 is gated (R384), nor while the unit's
own clock stands still. -/
def countEv (s : State) (k : EvKind) (inst code inc : Nat) (a : Option Attr) : State :=
  if gated s 95 || s.clk.stopped.getLsbD (k.domain inst) || inc == 0 then s
  else s.pmu.cfg.foldl (fun t e => if counts s e.1 e.2 k inst code a then counterAdd t e.1 inc else t) s

/-- A channel event. -/
def evCh (s : State) (c code inc : Nat) (a : Option Attr) : State := countEv s .channel c code inc a
/-- A port event. -/
def evPort (s : State) (p code inc : Nat) (a : Option Attr) : State := countEv s .port p code inc a
/-- An octant event. -/
def evOct (s : State) (k code inc : Nat) (a : Option Attr) : State := countEv s .octant k code inc a
/-- A block event. -/
def evBlk (s : State) (code inc : Nat) (a : Option Attr) : State := countEv s .block 0 code inc a

/-! ### The log (R366-R370) -/

/-- Levels of log entries (Table 14-8). -/
inductive Lvl where
  | info | notice | warn | error | fatal
  deriving DecidableEq, Repr

/-- The code of a level. -/
def Lvl.num : Lvl → Nat
  | .info => 0 | .notice => 1 | .warn => 2 | .error => 3 | .fatal => 4

/-- An event that the log cannot accept is counted in LOG_DROP (R367, R369). -/
def logDrop (s : State) : State := latch (bumpReg s pgLog 0x04C 0 16 1) pgLog 2

/-- An entry enters the log: it takes the next SEQ, and overwrites the oldest of 4,096 (R367, R368, R372). -/
def logEnter (s : State) (e : LogEntry) : State :=
  let e := { e with seq := s.log.next }
  let full := decide (4096 ≤ s.log.entries.length)
  let keep := if full then s.log.entries.drop 1 else s.log.entries
  let s := { s with log := { s.log with entries := keep ++ [e], next := s.log.next + 1 } }
  let s := if full then latch (bumpReg s pgLog 0x048 0 32 1) pgLog 1 else s
  if regF s pgLog 0x050 0 3 ≤ e.level then latch s pgLog 0 else s

/-- An event is logged: it waits in the input queue of 64 entries, and before memory self-test has ended in the staging queue
of 16 (R367, R369); an event that finds its queue full, or domain 94 gated, is dropped. -/
def logEv (s : State) (code unit : Nat) (lvl : Lvl) (data : Word) : State :=
  let e : LogEntry :=
    { time := field s.time.blk 0 48, seq := 0, code := BitVec.ofNat 16 code, unit := BitVec.ofNat 8 unit,
      level := Lvl.num lvl, tu := s.time.uncertain, data := data }
  if !s.log.tested then
    if s.log.staging.length < 16 then { s with log := { s.log with staging := s.log.staging ++ [e] } }
    else logDrop s
  else if gated s 94 || decide (64 ≤ s.log.inq.length) then logDrop s
  else { s with log := { s.log with inq := s.log.inq ++ [e] } }

/-- In a cycle of domain 94 the oldest entry of the input queue enters the log (R367). -/
def logTake (s : State) : State :=
  match s.log.inq with
  | [] => s
  | e :: rest => if s.clk.stopped.getLsbD 94 then s else logEnter { s with log := { s.log with inq := rest } } e

/-- The staged entries go on to the log after memory self-test (R369). -/
def logUnstage (s : State) : State := { s with log := { s.log with inq := s.log.inq ++ s.log.staging, staging := [], tested := true } }

/-! ### Places and time -/

/-- A place in the form of CH_REMAPe_LO: bank in [7:4], row in [24:8] (R370). -/
def placeForm (bank row : Nat) : Word := BitVec.ofNat 32 ((bank % 16) * 16 + (row % 2 ^ 17) * 256)

/-- Ticks per microsecond: a tick is 4 ns. -/
def ticksPerUs : Nat := 250

/-- Core cycles per tick at 2.5 GHz. -/
def cycPerTick : Nat := 10

/-- The half of a bank that a row lies in: its most significant row bit on the part (R110). -/
def halfOf (s : State) (row : Nat) : Nat := if rowsPerBank s / 2 ≤ row then 1 else 0

/-- The key of a bank half. -/
def halfKey (bank h : Nat) : Nat := bank * 2 + h

/-- A bank half of a channel. -/
def Chan.half (c : Chan) (bank h : Nat) : Half := Tab.get c.halves (halfKey bank h) Half.reset
/-- The channel with a bank half replaced. -/
def Chan.setHalf (c : Chan) (bank h : Nat) (x : Half) : Chan := { c with halves := Tab.put c.halves (halfKey bank h) x }
/-- A bank's refresh account. -/
def Chan.bank (c : Chan) (b : Nat) : Bank := Tab.get c.banks b Bank.reset
/-- The channel with a bank's account replaced. -/
def Chan.setBank (c : Chan) (b : Nat) (x : Bank) : Chan := { c with banks := Tab.put c.banks b x }

/-- An octant's stored bytes, channels of an octant. -/
def octOf (c : Nat) : Nat := c / 8

end Sys2Proof.Machine
end

