-- ==== Sys2Proof/Machine/Operands.lean ====
section
/-! DEFINITION. Operand forms: data addresses through regions and handles to places in the stack, the fields of
handle entries, and the fields of operation descriptors (03, Table 6-1). -/

namespace Sys2Proof.Machine

/-! ### The request header (R42, Table 2-2) -/

/-- The code of a class (Table 2-2). -/
def clsCode : Cls → BitVec 2
  | .lc => 0 | .rt => 1 | .bl => 2 | .mt => 3

/-- The class of a code (Table 2-2). -/
def clsOfCode (c : BitVec 2) : Cls := if c = 0 then .lc else if c = 1 then .rt else if c = 2 then .bl else .mt

/-- REQ_HDR: an opcode and the other header fields at their bits, the reserved bits zero (Table 2-2). -/
def reqHdr (opc : Byte) (h : Hdr) : BitVec 128 :=
  0#3 ++ h.flags ++ h.len ++ h.addr ++ h.deadline ++ h.tenant ++ h.priv ++ clsCode h.cls ++ h.tag ++ h.src ++ opc

/-- OPCODE of REQ_HDR (Table 2-2). -/
def hdrOpc (w : BitVec 128) : Byte := field w 0 8

/-- The other fields of REQ_HDR (Table 2-2); the reserved bits are ignored (R9). -/
def hdrOf (w : BitVec 128) : Hdr :=
  { src := field w 8 10, tag := field w 18 12, cls := clsOfCode (field w 30 2), priv := field w 32 2, tenant := field w 34 12,
    deadline := field w 46 24, addr := field w 70 40, len := field w 110 7, flags := field w 117 8 }

/-! ### Regions (R72, R73, R76-R78) -/

/-- RGNn_CTL.VALID. -/
def Region.valid (r : Region) : Bool := r.ctl.getLsbD 0
/-- RGNn_CTL.MAP = RESIDENT. -/
def Region.resident (r : Region) : Bool := r.ctl.getLsbD 1
/-- RGNn_CTL.PROT = VAULT. -/
def Region.isVault (r : Region) : Bool := r.ctl.getLsbD 2
/-- The vault strength t (Table 3-1, VT). -/
def Region.t (r : Region) : Nat := 4 * 2 ^ fieldNat r.ctl 3 2
/-- RGNn_CTL.WE. -/
def Region.we (r : Region) : Bool := r.ctl.getLsbD 5
/-- RGNn_CTL.SCRUB. -/
def Region.scrub (r : Region) : Bool := r.ctl.getLsbD 6
/-- RGNn_CTL.TENANT. -/
def Region.tenant (r : Region) : BitVec 12 := field r.ctl 8 12
/-- The first data address, in bytes. -/
def Region.baseB (r : Region) : Nat := fieldNat r.base 0 17 * 2 ^ 20
/-- RGNn_FOOT.ROW_LO. -/
def Region.rowLo (r : Region) : Nat := fieldNat r.foot 0 17
/-- RGNn_FOOT.BANK_LO. -/
def Region.bankLo (r : Region) : Nat := fieldNat r.foot 20 4
/-- RGNn_FOOT.BANK_LOG2. -/
def Region.bankLog2 (r : Region) : Nat := fieldNat r.foot 24 3
/-- RGNn_FOOT.ROW_LOG2. -/
def Region.rowLog2 (r : Region) : Nat := fieldNat r.foot 27 5
/-- RGNn_SIZE.ROW_COUNT. -/
def Region.rowCount (r : Region) : Nat := fieldNat r.size 0 17
/-- RGNn_PAR.PAR_ROW_LO. -/
def Region.parRowLo (r : Region) : Nat := fieldNat r.par 0 17

/-- Data rows per bank, R. -/
def Region.rows (r : Region) : Nat := if r.resident then 2 ^ r.rowLog2 else r.rowCount
/-- Banks of the footprint. -/
def Region.banks (r : Region) : Nat := if r.resident then 2 ^ r.bankLog2 else 16
/-- The first bank of the footprint. -/
def Region.bank0 (r : Region) : Nat := if r.resident then r.bankLo else 0
/-- Bytes of the data range (Table 3-2). -/
def regionBytes (s : State) (r : Region) : Nat :=
  if r.resident then 2 ^ (lgChan s + r.bankLog2 + r.rowLog2 + 10) else r.rowCount * nChan s * 16384

/-- Sectors of parity per data row, s (Table 3-6). -/
def parSectors (t : Nat) : Nat := if t ≤ 8 then 1 else if t = 16 then 2 else 3
/-- Data rows per parity row, k (Table 3-6). -/
def parRows (t : Nat) : Nat := if t ≤ 8 then 32 else if t = 16 then 16 else 10
/-- Rows of the parity area (R78). -/
def Region.parLen (r : Region) : Nat := (r.rows + parRows r.t - 1) / parRows r.t

/-- The first parity sector of a data row (R78). -/
def parityPlace (s : State) (v : Vault) (p : Place) : Place :=
  let k := parRows v.t
  { ch := (p.ch + nChan s / 2) % nChan s, bank := p.bank, row := v.parRowLo + (p.row - v.rowLo) / k,
    col := ((p.row - v.rowLo) % k) * parSectors v.t }

/-- The vault data that a sector of a region carries. -/
def Region.vault (r : Region) : Option Vault :=
  if r.isVault then some { t := r.t, rowLo := r.rowLo, parRowLo := r.parRowLo } else none

/-- The STRIPED map of byte offset o (R76, Table 3-5). -/
def stripedPlace (s : State) (r : Region) (o : Nat) : Place :=
  let n := lgChan s
  { ch := (o / 256 % 2 ^ n) ^^^ (o / 2 ^ (n + 8) % 2 ^ n)
    col := (o / 32 % 8) + 8 * (o / 2 ^ (n + 8) % 4)
    bank := o / 2 ^ (n + 10) % 16
    row := r.rowLo + o / 2 ^ (n + 14) }

/-- The RESIDENT map of byte offset o (R77). -/
def residentPlace (r : Region) (o : Nat) : Place :=
  { col := o / 32 % 32
    row := r.rowLo + o / 1024 % 2 ^ r.rowLog2
    bank := r.bankLo + o / 2 ^ (10 + r.rowLog2) % 2 ^ r.bankLog2
    ch := o / 2 ^ (10 + r.rowLog2 + r.bankLog2) }

/-- The place of a data address in a region (R76, R77). -/
def placeIn (s : State) (r : Region) (addr : Nat) : Place :=
  if r.resident then residentPlace r (addr - r.baseB) else stripedPlace s r (addr - r.baseB)

/-- Bytes [addr, addr + len) lie in the region's data range. -/
def Region.holds (s : State) (r : Region) (addr len : Nat) : Bool :=
  r.valid && decide (r.baseB ≤ addr ∧ addr + len ≤ r.baseB + regionBytes s r)

/-- The one active region whose data range holds bytes [addr, addr + len). -/
def regionOf (s : State) (addr len : Nat) : Option Region :=
  (s.rgn.find? (fun e => Region.holds s e.2 addr len)).map (·.2)

/-- The sectors of n sectors from a sector-aligned data address of a region. -/
def sectorsIn (s : State) (r : Region) (addr n : Nat) : List SecRef :=
  (List.range n).map (fun i => { place := placeIn s r (addr + 32 * i), vault := r.vault })

/-- A row of a bank belongs to the region's data rows. -/
def Region.hasDataRow (r : Region) (bank row : Nat) : Bool :=
  r.valid && decide (r.bank0 ≤ bank ∧ bank < r.bank0 + r.banks ∧ r.rowLo ≤ row ∧ row < r.rowLo + r.rows)

/-- A row of a bank belongs to the region's parity area. -/
def Region.hasParRow (r : Region) (bank row : Nat) : Bool :=
  r.valid && r.isVault && decide (r.bank0 ≤ bank ∧ bank < r.bank0 + r.banks ∧ r.parRowLo ≤ row ∧
    row < r.parRowLo + r.parLen)

/-- The active region whose data rows hold a row of a bank. -/
def rowRegion (s : State) (bank row : Nat) : Option Region :=
  (s.rgn.find? (fun e => e.2.hasDataRow bank row)).map (·.2)

/-- The active region whose footprint, parity included, holds a row of a bank. -/
def footRegion (s : State) (bank row : Nat) : Option Region :=
  (s.rgn.find? (fun e => e.2.hasDataRow bank row || e.2.hasParRow bank row)).map (·.2)

/-- The vault data of a row of an active VAULT region; a parity row carries none. -/
def rowVault (s : State) (bank row : Nat) : Option Vault := (rowRegion s bank row).bind Region.vault

/-- First row of the handle store (R70). -/
def hdlRow0 (s : State) : Nat := rowsPerBank s - 128 / nChan s

/-! ### Commit rules of the region table (Table 3-3) -/

/-- Rows of two footprint parts meet. -/
def spansMeet (a n b m : Nat) : Bool := decide (0 < n ∧ 0 < m ∧ a < b + m ∧ b < a + n)

/-- Banks of two regions meet. -/
def Region.banksMeet (a b : Region) : Bool := spansMeet a.bank0 a.banks b.bank0 b.banks

/-- The row spans of a footprint, parity area included. -/
def Region.spans (r : Region) : List (Nat × Nat) :=
  (r.rowLo, r.rows) :: (if r.isVault then [(r.parRowLo, r.parLen)] else [])

/-- FIELD of Table 3-3 holds of an entry. -/
def Region.fieldOk (r : Region) : Bool :=
  if r.resident then decide (r.bankLo + 2 ^ r.bankLog2 ≤ 16 ∧ 4 ≤ r.rowLog2 ∧ r.rowLog2 ≤ 16)
  else decide (r.bankLo = 0 ∧ r.bankLog2 = 0 ∧ 1 ≤ r.rowCount)

/-- The part's capacity in bytes. -/
def capacity (s : State) : Nat := nChan s * 16 * rowsPerBank s * 1024

/-- The lowest-numbered entry that breaks a rule. -/
def firstBad (es : List (Nat × Region)) (bad : Nat × Region → Bool) : Option Nat := (es.find? bad).map (·.1)

/-- The first failing rule of Table 3-3 over the valid entries, in rule order: its code and region. -/
def regionFault (s : State) (es : List (Nat × Region)) : Option (Nat × Nat) :=
  let vs := es.filter (fun e => e.2.valid)
  let lim := hdlRow0 s
  let others := fun (e : Nat × Region) (p : Region → Region → Bool) => vs.any (fun f => f.1 != e.1 && p e.2 f.2)
  match firstBad vs (fun e => !e.2.fieldOk) with
  | some n => some (1, n)
  | none =>
  match firstBad vs (fun e => decide (capacity s < e.2.baseB + regionBytes s e.2)) with
  | some n => some (2, n)
  | none =>
  match firstBad vs (fun e => others e (fun a b => spansMeet a.baseB (regionBytes s a) b.baseB (regionBytes s b))) with
  | some n => some (3, n)
  | none =>
  match firstBad vs (fun e => e.2.spans.any (fun p => decide (lim < p.1 + p.2))) with
  | some n => some (4, n)
  | none =>
  match firstBad vs (fun e =>
      (e.2.isVault && spansMeet e.2.rowLo e.2.rows e.2.parRowLo e.2.parLen) ||
      others e (fun a b => a.banksMeet b &&
        a.spans.any (fun p => b.spans.any (fun q => spansMeet p.1 p.2 q.1 q.2)))) with
  | some n => some (5, n)
  | none => none

/-- The shadow region entries as the RGN page holds them (R72). -/
def shadowRegions (s : State) : List (Nat × Region) :=
  (List.range 32).map (fun n =>
    let a := 0x400 + 0x20 * n
    (n, { ctl := reg s pgRgn a, base := reg s pgRgn (a + 4), foot := reg s pgRgn (a + 8),
          size := reg s pgRgn (a + 12), par := reg s pgRgn (a + 16) }))

/-! ### Handle entries (R80, R83) -/

/-- The place of the entry of handle h (R80). -/
def hdlPlace (s : State) (h : Nat) : Place :=
  let n := lgChan s
  { ch := h % 2 ^ n, bank := h / 2 ^ n % 16, col := h / 2 ^ (n + 4) % 32,
    row := hdlRow0 s + h / 2 ^ (n + 9) }

/-- BASE in sectors. -/
def hBase (e : BitVec 256) : Nat := fieldNat e 0 32
/-- CAP. -/
def hCap (e : BitVec 256) : Nat := fieldNat e 32 24
/-- FLAGS.VALID. -/
def hValid (e : BitVec 256) : Bool := e.getLsbD 56
/-- FLAGS.ZERO_ON_ROLLBACK. -/
def hZero (e : BitVec 256) : Bool := e.getLsbD 57
/-- FLAGS.RETAINED. -/
def hRetained (e : BitVec 256) : Bool := e.getLsbD 58
/-- FLAGS.CHILD. -/
def hChild (e : BitVec 256) : Bool := e.getLsbD 59
/-- COMMITTED. -/
def hCommitted (e : BitVec 256) : Nat := fieldNat e 64 24
/-- TENTATIVE. -/
def hTentative (e : BitVec 256) : Nat := fieldNat e 88 24
/-- PARENT. -/
def hParent (e : BitVec 256) : Nat := fieldNat e 112 16
/-- PLEN. -/
def hPlen (e : BitVec 256) : Nat := fieldNat e 128 24
/-- CHILDREN. -/
def hChildren (e : BitVec 256) : Nat := fieldNat e 152 16
/-- TENANT. -/
def hTenant (e : BitVec 256) : BitVec 12 := field e 168 12

/-- An entry with w bits from lo replaced. -/
def hPut (e : BitVec 256) (lo w v : Nat) : BitVec 256 :=
  (e &&& ~~~(BitVec.ofNat 256 ((2 ^ w - 1) * 2 ^ lo))) ||| BitVec.ofNat 256 ((v % 2 ^ w) * 2 ^ lo)
/-- The entry with COMMITTED replaced. -/
def hSetCommitted (e : BitVec 256) (v : Nat) : BitVec 256 := hPut e 64 24 v
/-- The entry with TENTATIVE replaced. -/
def hSetTentative (e : BitVec 256) (v : Nat) : BitVec 256 := hPut e 88 24 v
/-- The entry with CHILDREN replaced. -/
def hSetChildren (e : BitVec 256) (v : Nat) : BitVec 256 := hPut e 152 16 v
/-- The entry with VALID and RETAINED replaced. -/
def hSetState (e : BitVec 256) (valid retained : Bool) : BitVec 256 :=
  hPut (hPut e 56 1 valid.toNat) 58 1 retained.toNat

/-- An entry whose reserved bits are zero (R9, Table 3-7). -/
def hClean (e : BitVec 256) : BitVec 256 := hPut (hPut e 60 4 0) 180 76 0

/-- A staged image as CREATE takes it: reserved bits zero, and PLEN 0 for a root (R9, Table 3-7, log 45). -/
def hImage (e : BitVec 256) : BitVec 256 := let e := hClean e; if hChild e then e else hPut e 128 24 0

/-- The release of an entry: RETAINED while it has children, else free (R88, hrel). -/
def hRelease (e : BitVec 256) : BitVec 256 := hSetState e false (0 < hChildren e)

/-! ### Descriptors (Table 6-1) -/

/-- The 64 bytes of a SOP's beat: lane l holds bytes 16l to 16l + 15 (R133). -/
def beatBytes (b : Beat) : BitVec 512 :=
  granuleData b.g3 ++ granuleData b.g2 ++ granuleData b.g1 ++ granuleData b.g0

/-- A descriptor from its 64 bytes (Table 6-1). -/
def descOf (b : BitVec 512) : Desc :=
  { op := field b 0 8, mode := field b 8 8, types := field b 16 8, ctl := field b 24 8, flags := field b 32 8,
    nvec := field b 40 8, handle := field b 48 16, deadline := field b 64 24, chmask := field b 96 64,
    opra := field b 160 32, oprb := field b 192 32, cntM := field b 256 32, cntK := field b 288 32,
    bofs := field b 320 16, blen := field b 336 16, param0 := field b 352 32, param1 := field b 384 32,
    daddr := field b 416 40, rcap := field b 464 16 }

end Sys2Proof.Machine
end

