-- ==== Sys2Proof/Machine/Flags.lean ====
section
/-! DEFINITION. Status and ranking: the ATTN bit of replies, the strength of outcomes, internal deadlines and the
keys by which work is ranked (R40, R54, R64, R92-R95). -/

namespace Sys2Proof.Machine

/-! ### Outcomes -/

/-- The outcomes of Table 2-8. -/
inductive Outcome where
  | ok | okLate | poison | reject | gated | stale | discard | timeout
  deriving DecidableEq, Repr

/-- The code of an outcome (Table 2-8). -/
def Outcome.code : Outcome → BitVec 3
  | .ok => 0 | .okLate => 1 | .poison => 2 | .reject => 3 | .gated => 4 | .stale => 5 | .discard => 6 | .timeout => 7

/-- REJECT details by number (Table 2-9). -/
def rejOpcode : Byte := 0x00#8
/-- LENGTH. -/
def rejLength : Byte := 0x01#8
/-- PRIV. -/
def rejPriv : Byte := 0x02#8
/-- ALIGN. -/
def rejAlign : Byte := 0x03#8
/-- RANGE. -/
def rejRange : Byte := 0x04#8
/-- TENANT. -/
def rejTenant : Byte := 0x05#8
/-- WPROT. -/
def rejWprot : Byte := 0x06#8
/-- BOUNDS. -/
def rejBounds : Byte := 0x07#8
/-- THERMAL. -/
def rejThermal : Byte := 0x08#8
/-- UNIT_RUNNING. -/
def rejRunning : Byte := 0x09#8
/-- WIDTH. -/
def rejWidth : Byte := 0x0A#8
/-- WDATA. -/
def rejWdata : Byte := 0x0B#8
/-- TAGBUSY. -/
def rejTagbusy : Byte := 0x0C#8
/-- SRCALIAS. -/
def rejSrcalias : Byte := 0x0D#8
/-- RSVPAGE. -/
def rejRsvpage : Byte := 0x0E#8
/-- DESC. -/
def rejDesc : Byte := 0x0F#8
/-- CREDIT. -/
def rejCredit : Byte := 0x10#8

/-- The larger of two POISON details (R54). -/
def worse (a : Option Byte) (b : Byte) : Option Byte :=
  match a with
  | none => some b
  | some x => some (if x.toNat < b.toNat then b else x)

/-- The larger of two OK details (R54). -/
def maxByte (a b : Byte) : Byte := if a.toNat < b.toNat then b else a

/-- BLK_TIME has passed an internal deadline. -/
def pastDl (s : State) (dl : Int) : Bool := decide (dl < (s.time.blk.toNat : Int))

/-- The outcome and detail of a request admitted past step 6 whose parts are all done: GATED where a reconstruction needed a
gated domain (R54, R290; log 90). -/
def finalOutcome (s : State) (r : Req) : Outcome × Byte :=
  match r.discard, r.gatedBy, r.poison with
  | some d, _, _ => (.discard, d)
  | none, some d, _ => (.gated, d)
  | none, none, some d => (.poison, d)
  | none, none, none =>
      let d := maxByte r.okDetail (if r.corrected then 1#8 else 0#8)
      if (match r.dl with | some t => pastDl s t | none => false) then (.okLate, d) else (.ok, d)

/-! ### Deadlines and classes -/

/-- The horizon of a class in ticks (R93). -/
def horizon (s : State) (c : Cls) : Nat :=
  match c with
  | .lc => s.arb.cur.hznLc.toNat
  | .rt => s.arb.cur.hznRt.toNat
  | .bl => s.arb.cur.hznBl.toNat
  | .mt => s.arb.cur.hznMt.toNat

/-- A deadline synthesised now for a class (Table 4-1). -/
def synthDl (s : State) (c : Cls) : Int := s.time.blk.toNat + horizon s c

/-- The class of a number. -/
def clsOf (n : Nat) : Cls := [Cls.lc, Cls.rt, Cls.bl, Cls.mt].getD n .mt

/-- The class after the port's cap (R94); code 11 of CAPn is treated as 10. -/
def capCls (s : State) (p : Nat) (c : Cls) : Cls :=
  let cap := min 2 (fieldNat s.arb.cur.portCap (2 * p) 2)
  if Cls.num c < cap then clsOf cap else c

/-- The internal deadline of a tag read now, or none where it is synthesised (Table 4-2). -/
def tagDl (s : State) (t : BitVec 24) : Option Int :=
  let delta := (t - field s.time.blk 0 24).toNat
  if delta ≤ 8388607 then some (s.time.blk.toNat + delta)
  else if delta ≤ 14680063 then none
  else some ((s.time.blk.toNat : Int) - (2 ^ 24 - delta))

/-- Class and internal deadline of a request at step 4 (R92-R94). -/
def fixDl (s : State) (p : Nat) (c : Cls) (nodl : Bool) (t : BitVec 24) (acc : BitVec 64) : Cls × Int :=
  let c' := capCls s p c
  let syn : Int := acc.toNat + horizon s c'
  (c', if nodl then syn else (tagDl s t).getD syn)

/-! ### Ranking -/

/-- The keys of R95: deadline, class, joining, rotation position. -/
structure Key where
  dl : Int
  cls : Nat
  joined : Nat
  pos : Nat
  deriving DecidableEq, Repr

/-- The ranking of R95 with the rotation pointer at `rot`. -/
def Key.before (rot : Nat) (a b : Key) : Bool :=
  if a.dl ≠ b.dl then decide (a.dl < b.dl)
  else if a.cls ≠ b.cls then decide (a.cls < b.cls)
  else if a.joined ≠ b.joined then decide (a.joined < b.joined)
  else decide ((a.pos + 23 - rot) % 23 < (b.pos + 23 - rot) % 23)

/-- The keys of a queue entry. -/
def Entry.key (e : Entry) : Key := { dl := e.dl, cls := Cls.num e.cls, joined := e.joined, pos := e.pos }

/-- The first best element of a list under a strict order. -/
def bestBy {α : Type} (lt : α → α → Bool) : List α → Option α
  | [] => none
  | x :: xs => some (xs.foldl (fun b y => if lt y b then y else b) x)

/-- The best-ranked entry. -/
def bestEntry (rot : Nat) (es : List Entry) : Option Entry := bestBy (fun a b => Key.before rot a.key b.key) es

/-- Replies rank by deadline, class, readiness, acceptance (R40). -/
def Reply.before (a b : Reply) : Bool :=
  if a.dl ≠ b.dl then decide (a.dl < b.dl)
  else if a.cls ≠ b.cls then decide (Cls.num a.cls < Cls.num b.cls)
  else if a.readyCyc ≠ b.readyCyc then decide (a.readyCyc < b.readyCyc)
  else decide (a.id < b.id)

/-! ### The ATTN bit of a reply beat (R64) -/

/-- The window in which a beat may show ATTN as 0 or 1 is open. -/
def attnOpen (s : State) : Bool :=
  if s.attn.up then decide (s.time.cyc < s.attn.riseAt + 20)
  else s.attn.clearId.isSome || decide (s.time.cyc < s.attn.fallEnd)

/-- The ATTN bit of a beat that port p sends now; inside a window it is free until the port has shown the new
value (log 10). -/
def attnBit (s : State) (p : Nat) : Bool × State :=
  if attnOpen s && (port s p).attnNum != s.attn.num then
    let (v, s) := takeFree 1 s
    let b := v.getLsbD 0
    (b, if b = s.attn.up then setPort s p { port s p with attnNum := s.attn.num } else s)
  else (s.attn.up, s)

/-- The clearing reply has been sent: the fall window ends 8 ns later (R64). -/
def attnReplySent (s : State) (id : Nat) : State :=
  if s.attn.clearId = some id then
    { s with attn := { s.attn with clearId := none, fallEnd := s.time.cyc + 20 } }
  else s

/-! ### UNIT_STATUS and the attention summary (R63, R66, Table 16-2) -/

/-- UNIT_STATUS.ATTN_PENDING of a page. -/
def pageAttn (s : State) (page : Nat) : Bool := decide (enabledCauses s page ≠ 0)

/-- The bits of a list of pages' pending attention, from bit lo on. -/
def attnBits (s : State) (lo : Nat) (pages : List Nat) : Nat :=
  (pages.zipIdx).foldl (fun acc e => if (unitOf s e.1).isSome && pageAttn s e.1 then acc + 2 ^ (lo + e.2) else acc) 0

/-- BLK_ATTN_SUMMARY (Table 2-11). -/
def attnSummary (s : State) : Word :=
  let ports := (List.range 16).any (fun p => pageAttn s (portPage p))
  let chs := (List.range (nChan s)).any (fun c => pageAttn s (chPage c))
  BitVec.ofNat 32 (attnBits s 0 (List.range 26) + (if ports then 2 ^ 26 else 0) + (if chs then 2 ^ 27 else 0))

/-- The register word of pages' pending attention, from a first page on (Table 2-11). -/
def attnWord (s : State) (page0 n : Nat) : Word :=
  BitVec.ofNat 32 (attnBits s 0 ((List.range n).map (page0 + ·)))

end Sys2Proof.Machine
end

