-- ==== Sys2Proof/Machine/Request.lean ====
section
/-! DEFINITION. The life of a request at its port: its reply, the resources it holds, its pieces, and the channel
queues they wait in (R17, R36, R40, R50, R91, R108). -/

namespace Sys2Proof.Machine

/-- The state with port p changed by f. -/
def modPort (s : State) (p : Nat) (f : Port → Port) : State := setPort s p (f (port s p))

/-! ### Opcodes (Table 2-4) -/

/-- RD. -/
def opRd : Byte := 0x01#8
/-- WR. -/
def opWr : Byte := 0x02#8
/-- WRP. -/
def opWrp : Byte := 0x03#8
/-- AT. -/
def opAt : Byte := 0x04#8
/-- RDW. -/
def opRdw : Byte := 0x05#8
/-- SOP. -/
def opSop : Byte := 0x08#8
/-- BCAST. -/
def opBcast : Byte := 0x09#8
/-- FENCE. -/
def opFence : Byte := 0x0C#8
/-- HCMT. -/
def opHcmt : Byte := 0x10#8
/-- HRBK. -/
def opHrbk : Byte := 0x11#8
/-- HREL. -/
def opHrel : Byte := 0x12#8
/-- CFG_RD. -/
def opCfgRd : Byte := 0x20#8
/-- CFG_WR. -/
def opCfgWr : Byte := 0x21#8

/-- LEN + 1. -/
def Req.n (r : Req) : Nat := r.h.len.toNat + 1

/-! ### Replies -/

/-- Two sectors to a reply beat; lanes past the last sector are zero (Table 2-1). -/
def beatsOf : List Sector → List RplData
  | [] => []
  | [a] => [{ g0 := a.g0, g1 := a.g1, g2 := 0, g3 := 0 }]
  | a :: b :: t => { g0 := a.g0, g1 := a.g1, g2 := b.g0, g3 := b.g1 } :: beatsOf t

/-- Crown resources and the descriptor of a request are free again (R143, R195, R201). -/
def releaseRes (s : State) (id : Nat) : State :=
  { s with
    octs := s.octs.map (fun e => (e.1, { e.2 with rsvBytes := e.2.rsvBytes.filter (fun x => x.1 != id),
                                                  rsvLocks := e.2.rsvLocks.filter (fun x => x.1 != id) })),
    disp := { s.disp with ops := s.disp.ops.filter (fun e => e.2.req != id)
                          prog := if s.disp.ops.any (fun e => e.2.req == id) then 0 else s.disp.prog } }

/-- Write-data beats leave the write buffer and their credits return (R36). -/
def freeBeats (s : State) (p n : Nat) : State :=
  modPort s p (fun x => { x with beatCredits := x.beatCredits + min n x.beatHeld, beatHeld := x.beatHeld - n })

/-- The deadline by which a reply ranks (R40). -/
def replyDl (s : State) (r : Req) : Int × Cls :=
  match r.dl with
  | some d => (d, r.cls)
  | none => (r.accBlk.toNat + horizon s .rt, .rt)

/-- Port attention causes that a reply latches (Table 2-13). -/
def replyCauses (s : State) (p : Nat) (o : Outcome) (d : Byte) : State :=
  if o = .timeout ∧ d = 0 then latch s (portPage p) 1
  else if o = .reject ∧ d = rejWdata then latch s (portPage p) 2
  else if o = .reject ∧ d = rejSrcalias then latch s (portPage p) 3
  else s

/-- A request's reply is final: it waits at the port, and the request holds nothing more (R40, R50). -/
def replyReq (s : State) (r : Req) (o : Outcome) (d : Byte) (data : List RplData) : State :=
  let (dl, cls) := replyDl s r
  let credit := !r.ghost && r.tAdmit.isNone
  let rp : Reply :=
    { id := r.id, tag := r.h.tag, lsrc := field r.h.src 0 8, outcome := o.code, detail := d, beats := data, sent := 0,
      dl := dl, cls := cls, readyCyc := s.time.cyc, hdrCredit := credit,
      sectors := if data.isEmpty then 0 else if r.opc = opRd then r.n else r.rdata.length,
      sampled := if r.sampled then some { r with beats := [], rdata := [], secs := [] } else none }
  let s := if r.stage = .admitted || r.ghost then s else freeBeats s r.port r.beats.length
  let s := modReq s r.id (fun q => { q with stage := if q.ghost && q.stage == .beats then .beats else .replied
                                            beats := [], rdata := [] })
  let s := releaseRes s r.id
  replyCauses (modPort s r.port (fun x => { x with replies := x.replies ++ [rp] })) r.port o d

/-- The data that a completed request returns: its sectors in order (R50, Table 2-4). -/
def replyData (r : Req) : List RplData := beatsOf (r.rdata.map (·.2))

/-- A request whose parts are all done replies with the strongest outcome (R54). -/
def finishReq (s : State) (id : Nat) : State :=
  match findReq s id with
  | none => s
  | some r =>
    if r.stage = .admitted then
      let (o, d) := finalOutcome s r
      let s := if o = .okLate ∧ r.desc.isSome then bumpReg s (octPage 0) 0x04C 16 16 1 else s
      replyReq s r o d (if o = .discard ∨ o = .gated then [] else replyData r)
    else s

/-- n parts of a request are done. -/
def partsDone (s : State) (id n : Nat) : State :=
  let s := modReq s id (fun r => { r with todo := r.todo - n })
  match findReq s id with
  | some r => if r.stage = .admitted ∧ r.todo = 0 then finishReq s id else s
  | none => s

/-- A piece of a request becomes visible in its channel's queue now (R397). -/
def pieceJoined (s : State) (id ch : Nat) : State :=
  modReq s id (fun r => { r with tJoin := some s.time.cyc, pieceCh := some ch })

/-- A request meets a poisoned or uncorrectable part (R54). -/
def poisonReq (s : State) (id : Nat) (d : Byte) : State := modReq s id (fun r => { r with poison := worse r.poison d })

/-- A request meets a reconstructed row: its OK detail is at least RECONSTRUCTED (R290). -/
def reconReq (s : State) (id : Nat) : State := modReq s id (fun r => { r with okDetail := maxByte r.okDetail 2#8 })

/-! ### Pieces -/

/-- Every byte of a sector. -/
def fullMask : BitVec 32 := 0xFFFFFFFF#32

/-- A piece of a request: the index of its first sector, and its sectors with data and byte masks. -/
structure Piece where
  idx : Nat
  place : Place
  vault : Option Vault
  data : List Sector
  mask : List (BitVec 32)
  n : Nat
  deriving DecidableEq, Repr

/-- A sector joins the piece before it when it follows it in one row and both are whole, up to 8 (R108). -/
def joinPiece (ps : List Piece) (q : Piece) : List Piece :=
  match ps with
  | p :: t =>
    if p.place.ch = q.place.ch ∧ p.place.bank = q.place.bank ∧ p.place.row = q.place.row ∧
        p.place.col + p.n = q.place.col ∧ p.idx + p.n = q.idx ∧ p.n < 8 ∧ p.vault = q.vault ∧
        p.mask.all (· == fullMask) ∧ q.mask.all (· == fullMask) then
      { p with data := p.data ++ q.data, mask := p.mask ++ q.mask, n := p.n + 1 } :: t
    else q :: ps
  | [] => [q]

/-- The pieces of a request's sectors; a sector with no enabled byte is not written (R46). -/
def piecesOf (secs : List SecRef) (data : List Sector) (masks : List (BitVec 32)) : List Piece :=
  let each := (secs.zipIdx).map (fun e =>
    ({ idx := e.2, place := e.1.place, vault := e.1.vault, n := 1
       data := match data[e.2]? with | some d => [d] | none => []
       mask := match masks[e.2]? with | some m => [m] | none => [] } : Piece))
  ((each.filter (fun p => p.mask.all (fun m => m != 0))).foldl joinPiece []).reverse

/-- A new queue entry; `joined` is the core cycle of joining its requester queue (R91). -/
def newEntry (s : State) (owner : Owner) (pos : Nat) (cls : Cls) (dl : Int) (write exempt : Bool) (p : Piece) : Entry :=
  { seq := 0, owner := owner, pos := pos, cls := cls, dl := dl, joined := s.time.cyc, place := p.place, n := p.n,
    write := write, data := p.data, vault := p.vault, mask := p.mask, done := 0, overlays := [], exempt := exempt,
    newer := [], granted := false, tJoin := 0, tGrant := 0, hitCls := 0, spare := none }

/-- A one-sector piece. -/
def onePiece (pl : Place) (v : Option Vault) (d : Option Sector) : Piece :=
  { idx := 0, place := pl, vault := v, data := d.toList, mask := d.toList.map (fun _ => fullMask), n := 1 }

/-- An entry joins its channel's requester queue (R91). -/
def enqueue (s : State) (e : Entry) : State := modChan s e.place.ch (fun c => { c with rq := c.rq ++ [e] })

/-- The entries of a list join their requester queues. -/
def enqueueAll (s : State) (es : List Entry) : State := es.foldl enqueue s

/-! ### Places and repair -/

/-- The remap entry of a row, if any: its index and itself (R293). -/
def remapOf (c : Chan) (bank row : Nat) : Option (Nat × Remap) :=
  c.remap.find? (fun e => e.2.bank == bank && e.2.row == row)

/-- A row is fenced in its channel (R295). -/
def fenced (s : State) (p : Place) : Bool :=
  match remapOf (chan s p.ch) p.bank p.row with | some (_, r) => r.fenced | none => false

/-- ROW and SPARE of the ACT that opens a row: its own row, or the field spare that holds it, whose ROW[5] is the
half it is opened in (R293, Table 8-3). -/
def linkRow (s : State) (c : Chan) (bank row : Nat) : Nat × Bool :=
  match remapOf c bank row with
  | some (_, r) => if r.fenced then (row, false) else (r.spare + 32 * halfOf s row, true)
  | none => (row, false)

/-! ### Void and discarded requests -/

/-- Requests that have not replied. -/
def unreplied (s : State) : List Req := s.reqs.filter (fun r => r.stage != .replied)

/-- Requests of port p past step 6 that have not replied (R69). -/
def admittedOf (s : State) (p : Nat) : Nat := (s.reqs.filter (fun r => r.port.val == p && r.tAdmit.isSome)).length

/-- Headers of port p not yet past step 5 (Table 2-12, WAITING). -/
def waitingOf (s : State) (p : Nat) : Nat :=
  (s.reqs.filter (fun r => r.port.val == p && r.tAdmit.isNone && r.stage != .replied && !r.ghost)).length

/-- ROW and SPARE of the ACT that opens an entry's row: a remap's copy goes to the spare that it fills (R294). -/
def entryRow (s : State) (c : Chan) (e : Entry) : Nat × Bool :=
  match e.spare with
  | some i => (i + 32 * halfOf s e.place.row, true)
  | none => linkRow s c e.place.bank e.place.row

/-- Entries of channel c owned by a request leave its queues (R107). -/
def dropEntries (c : Chan) (gone : Owner → Bool) : Chan :=
  { c with rq := c.rq.filter (fun e => !gone e.owner), cmdq := c.cmdq.filter (fun e => !gone e.owner) }

end Sys2Proof.Machine
end

