-- ==== Sys2Proof/Machine/Float.lean ====
section
/-! DEFINITION. The arithmetic of operations and Crowns: exact values of every stored format, rounding to
nearest even, and the operations of R152, R155, R158, R186 and Table 7-4. -/

namespace Sys2Proof.Machine

/-- An exact value: m × 2^e with a sign, an infinity, or not a number. -/
inductive FV where
  | nan
  | inf (neg : Bool)
  | fin (neg : Bool) (m : Nat) (e : Int)
  deriving DecidableEq, Repr

/-- A binary format: exponent bits, fraction bits, bias. -/
structure Fmt where
  eb : Nat
  mb : Nat
  bias : Int
  deriving DecidableEq, Repr

/-- IEEE 754 binary32. -/
def fp32 : Fmt := ⟨8, 23, 127⟩
/-- IEEE 754 binary16. -/
def fp16 : Fmt := ⟨5, 10, 15⟩
/-- bfloat16. -/
def bf16 : Fmt := ⟨8, 7, 127⟩
/-- OCP E5M2. -/
def e5m2 : Fmt := ⟨5, 2, 15⟩
/-- OCP E4M3 (its NaN is handled apart). -/
def e4m3 : Fmt := ⟨4, 3, 7⟩
/-- OCP E2M1. -/
def e2m1 : Fmt := ⟨2, 1, 1⟩

/-- Width of a format in bits. -/
def Fmt.width (f : Fmt) : Nat := 1 + f.eb + f.mb

/-- A finite value of a format's bits, all exponents finite. -/
def Fmt.finite (f : Fmt) (x : Nat) : FV :=
  let neg := x.testBit (f.eb + f.mb)
  let ex := x / 2 ^ f.mb % 2 ^ f.eb
  let fr := x % 2 ^ f.mb
  if ex = 0 then .fin neg fr (1 - f.bias - f.mb) else .fin neg (fr + 2 ^ f.mb) (ex - f.bias - f.mb)

/-- The value of a format's bits, with the highest exponent for infinities and NaNs. -/
def Fmt.value (f : Fmt) (x : Nat) : FV :=
  if x / 2 ^ f.mb % 2 ^ f.eb = 2 ^ f.eb - 1 then
    if x % 2 ^ f.mb = 0 then .inf (x.testBit (f.eb + f.mb)) else .nan
  else f.finite x

/-- The value of E4M3 bits: S.1111.111 is NaN and there is no infinity (OCP). -/
def e4m3Value (x : Nat) : FV := if x % 128 = 127 then .nan else e4m3.finite x

/-- An integer as an exact value. -/
def intFV (i : Int) : FV := .fin (decide (i < 0)) i.natAbs 0

/-- An exact value times a power of two. -/
def FV.scale (v : FV) (k : Int) : FV :=
  match v with
  | .fin n m e => .fin n m (e + k)
  | v => v

/-- Division by 2^r, rounded to nearest even; `sticky` marks a non-zero rest below. -/
def shiftRne (m r : Nat) (sticky : Bool) : Nat :=
  let q := m / 2 ^ r
  let rest := m % 2 ^ r
  let half := 2 ^ r / 2
  if r = 0 then q
  else if rest > half ∨ rest = half ∧ (sticky ∨ q % 2 = 1) then q + 1 else q

/-- m × 2^e rounded to nearest even in a format, as its bits; beyond the largest value, infinity. -/
def Fmt.round (f : Fmt) (neg : Bool) (m : Nat) (e : Int) (sticky : Bool := false) : Nat :=
  let sign := if neg then 2 ^ (f.eb + f.mb) else 0
  if m = 0 then sign
  else
    let top : Int := e + m.log2
    let emin : Int := 1 - f.bias
    let q : Int := max top emin - f.mb
    let sig := if q ≤ e then m * 2 ^ (e - q).toNat else shiftRne m (q - e).toNat sticky
    let (sig, q) := if 2 ^ (f.mb + 1) ≤ sig then (sig / 2, q + 1) else (sig, q)
    if sig < 2 ^ f.mb then sign + sig
    else
      let ex := (q + f.mb + f.bias).toNat
      if 2 ^ f.eb - 1 ≤ ex then sign + (2 ^ f.eb - 1) * 2 ^ f.mb
      else sign + ex * 2 ^ f.mb + (sig - 2 ^ f.mb)

/-- The canonical quiet NaN of a format (Table 7-4). -/
def Fmt.qnan (f : Fmt) : Nat := (2 ^ f.eb - 1) * 2 ^ f.mb + 2 ^ (f.mb - 1)

/-- An exact value in a format; a NaN gives the canonical quiet NaN. -/
def Fmt.ofFV (f : Fmt) : FV → Nat
  | .nan => f.qnan
  | .inf n => (if n then 2 ^ (f.eb + f.mb) else 0) + (2 ^ f.eb - 1) * 2 ^ f.mb
  | .fin n m e => f.round n m e

/-- The exact sum. Like signs of zero keep the sign; otherwise an exact zero sum is +0. -/
def FV.add : FV → FV → FV
  | .nan, _ => .nan
  | _, .nan => .nan
  | .inf a, .inf b => if a = b then .inf a else .nan
  | .inf a, _ => .inf a
  | _, .inf b => .inf b
  | .fin a m e, .fin b n d =>
    let q := min e d
    let x : Int := (if a then -1 else 1) * (m * 2 ^ (e - q).toNat : Nat)
    let y : Int := (if b then -1 else 1) * (n * 2 ^ (d - q).toNat : Nat)
    if x + y = 0 then .fin (a && b) 0 q else .fin (decide (x + y < 0)) (x + y).natAbs q

/-- The exact product; infinity times zero is NaN. -/
def FV.mul : FV → FV → FV
  | .nan, _ => .nan
  | _, .nan => .nan
  | .inf a, .inf b => .inf (a != b)
  | .inf a, .fin b n _ => if n = 0 then .nan else .inf (a != b)
  | .fin a m _, .inf b => if m = 0 then .nan else .inf (a != b)
  | .fin a m e, .fin b n d => .fin (a != b) (m * n) (e + d)

/-- a < b on exact values other than NaN; the zeros are equal. -/
def FV.lt : FV → FV → Bool
  | .nan, _ => false
  | _, .nan => false
  | .inf a, .inf b => a && !b
  | .inf a, _ => a
  | _, .inf b => !b
  | .fin a m e, .fin b n d =>
    let q := min e d
    let x : Int := (if a then -1 else 1) * (m * 2 ^ (e - q).toNat : Nat)
    let y : Int := (if b then -1 else 1) * (n * 2 ^ (d - q).toNat : Nat)
    decide (x < y)

/-! ### binary32 -/

/-- The value of binary32 bits. -/
def f32 (x : Word) : FV := fp32.value x.toNat

/-- A binary32 NaN. -/
def isNan32 (x : Word) : Bool := f32 x == .nan

/-- A quiet NaN whose sign and payload nothing fixes (R152). -/
def freeNan (x y : Word) : Word := 0x7FC00000#32 ||| (Config.nanBits x y &&& 0x803FFFFF#32)

/-- An exact value as binary32, a NaN with free sign and payload. -/
def toF32 (v : FV) (x y : Word) : Word :=
  match v with
  | .nan => freeNan x y
  | v => BitVec.ofNat 32 (fp32.ofFV v)

/-- binary32 addition, rounded to nearest even. -/
def addF (x y : Word) : Word := toF32 (FV.add (f32 x) (f32 y)) x y
/-- binary32 multiplication, rounded to nearest even. -/
def mulF (x y : Word) : Word := toF32 (FV.mul (f32 x) (f32 y)) x y
/-- binary32 fused multiply-add x × y + z. -/
def fmaF (x y z : Word) : Word := toF32 (FV.add (FV.mul (f32 x) (f32 y)) (f32 z)) x z
/-- The negation of binary32 bits. -/
def negF (x : Word) : Word := x ^^^ 0x80000000#32

/-- binary32 division, rounded to nearest even (R156). -/
def divF (x y : Word) : Word :=
  match f32 x, f32 y with
  | .nan, _ => freeNan x y
  | _, .nan => freeNan x y
  | .inf _, .inf _ => freeNan x y
  | .inf a, .fin b _ _ => toF32 (.inf (a != b)) x y
  | .fin a _ _, .inf b => toF32 (.fin (a != b) 0 0) x y
  | .fin a m e, .fin b n d =>
    if n = 0 then if m = 0 then freeNan x y else toF32 (.inf (a != b)) x y
    else
      let num := m * 2 ^ 64
      BitVec.ofNat 32 (fp32.round (a != b) (2 * (num / n) + (if num % n = 0 then 0 else 1)) (e - d - 65))

/-- binary32 minus infinity. -/
def negInf : Word := 0xFF800000#32

/-- Terms of the exponential series on fixed point with 320 fraction bits. -/
def expSeries (y : Int) : Int :=
  let one : Int := 2 ^ 320
  ((List.range 40).foldl (fun (st : Int × Int) i =>
    let term := st.2 * y / ((i + 1 : Nat) * one)
    (st.1 + term, term)) (one, one)).1

/-- exp of -m × 2^e for 0 ≤ m × 2^e ≤ 128, on fixed point with 320 fraction bits: the series at a 2^-16 of the
argument, squared sixteen times. -/
def expNeg (m : Nat) (e : Int) : Nat :=
  let x : Int := if 0 ≤ e + 304 then m * 2 ^ (e + 304).toNat else m / 2 ^ (-(e + 304)).toNat
  ((List.range 16).foldl (fun (v : Int) _ => v * v / 2 ^ 320) (expSeries (-x))).toNat

/-- The largest binary32 value, as its bits, that is not above a positive value m * 2^e. -/
def floor32 (m : Nat) (e : Int) : Int :=
  let near : Int := fp32.round false m e true
  if FV.lt (.fin false m e) (f32 (BitVec.ofInt 32 near)) then near - 1 else near

/-- The exponent unit on a binary32 operand that is not above 0: a value within 2 ulp of exp, which no rational operand
but 0 gives exactly: one of the two below it or of the two above it (R155, R179); exp of 0 is exactly 1 (R186). -/
def expF (x : Word) : Word :=
  match f32 x with
  | .nan => freeNan x x
  | .inf true => 0#32
  | .inf false => 0x7F800000#32
  | .fin _ 0 _ => 0x3F800000#32
  | .fin true m e =>
    let big := FV.lt (.fin false 128 0) (.fin false m e)
    let low : Int := if big then 0 else floor32 (expNeg m e) (-320)
    let ulp := max (-1) (min 2 (Config.expUlp x))
    BitVec.ofNat 32 (max 0 (low + ulp)).toNat
  | .fin false _ _ => 0x7F800000#32

/-- The larger of two binary32 values for a running maximum; a NaN stands (R187). -/
def maxF (x y : Word) : Word :=
  if isNan32 x then x else if isNan32 y then y else if FV.lt (f32 x) (f32 y) then y else x

/-! ### Sums in an order that is not specified (R152, R203) -/

/-- The sum of a list by any sequence of pairwise additions: at each step two entries, chosen freely, are
replaced by their sum. `fuel` is the length of the list; `n` numbers the free choices. -/
def sumAny (add : Word → Word → Word) : Nat → List Word → Nat → Word × Nat
  | _, [], n => (0#32, n)
  | _, [x], n => (x, n)
  | 0, x :: _, n => (x, n)
  | fuel + 1, xs, n =>
    let i := Config.freeNat xs.length n % xs.length
    let a := xs.getD i 0#32
    let ys := xs.eraseIdx i
    let j := Config.freeNat ys.length (n + 1) % ys.length
    sumAny add fuel (ys.set j (add a (ys.getD j 0#32))) (n + 2)

/-! ### Stored element types (Table 6-3) -/

/-- Bits per element of a WTYPE (MX scales apart). -/
def wBits (t : Nat) : Nat :=
  match t with
  | 0 => 8 | 1 => 4 | 2 => 8 | 3 => 8 | 4 => 16 | 5 => 16 | 6 => 4 | 7 => 8 | _ => 32

/-- Bytes per element of a VTYPE. -/
def vBytes (t : Nat) : Nat := if t ≤ 1 then 2 else 1

/-- The signed integer of w bits. -/
def sint (w x : Nat) : Int := if x.testBit (w - 1) then (x : Int) - 2 ^ w else x

/-- The exact value of a stored element of WTYPE t; MXINT8 elements carry the OCP's 2^-6. -/
def wValue (t x : Nat) : FV :=
  match t with
  | 0 => intFV (sint 8 x) | 1 => intFV (sint 4 x) | 2 => e4m3Value x | 3 => e5m2.value x
  | 4 => fp16.value x | 5 => bf16.value x | 6 => e2m1.finite x | 7 => (intFV (sint 8 x)).scale (-6)
  | 8 => fp32.value x | _ => intFV (sint 32 x)

/-- The exact value of a vector element of VTYPE t. -/
def vValue (t x : Nat) : FV :=
  match t with
  | 0 => bf16.value x | 1 => fp16.value x | 2 => intFV (sint 8 x) | _ => e4m3Value x

/-- An element scaled by an E8M0 scale; 0xFF is NaN (R152). -/
def mxScale (v : FV) (sc : Nat) : FV := if sc = 255 then .nan else v.scale ((sc : Int) - 127)

/-! ### Atomic element operations (Table 7-4) -/

/-- Element types of atomics and reduce-writes: width in bits (Tables 7-3 and 7-5). -/
def eBits (et : Nat) : Nat :=
  match et with
  | 0 => 32 | 1 => 16 | 2 => 16 | 3 => 32 | 4 => 64 | 5 => 32 | _ => 64

/-- The floating format of an element type, if it is one. -/
def eFmt (et : Nat) : Option Fmt :=
  match et with
  | 0 => some fp32 | 1 => some fp16 | 2 => some bf16 | _ => none

/-- Whether an element type is signed. -/
def eSigned (et : Nat) : Bool := et == 3 || et == 4

/-- ADD of Table 7-4. -/
def eAdd (et x y : Nat) : Nat :=
  match eFmt et with
  | some f => f.ofFV (FV.add (f.value x) (f.value y))
  | none => (x + y) % 2 ^ eBits et

/-- x ranks below y for MIN and MAX: -0 below +0 for floating point. -/
def eBelow (et x y : Nat) : Bool :=
  match eFmt et with
  | some f =>
    let a := f.value x
    let b := f.value y
    FV.lt a b || (!FV.lt b a && x.testBit (f.eb + f.mb) && !y.testBit (f.eb + f.mb))
  | none => if eSigned et then decide (sint (eBits et) x < sint (eBits et) y) else decide (x < y)

/-- MIN (`big` false) and MAX (`big` true) of Table 7-4: a NaN operand is ignored. -/
def eMinMax (big : Bool) (et x y : Nat) : Nat :=
  let nx := match eFmt et with | some f => f.value x == .nan | none => false
  let ny := match eFmt et with | some f => f.value y == .nan | none => false
  if nx && ny then (match eFmt et with | some f => f.qnan | none => x)
  else if nx then y
  else if ny then x
  else if eBelow et x y = big then y else x

/-- The new value of an element under an atomic operation other than CAS (Table 7-4). -/
def eOp (aop et x y : Nat) : Nat :=
  match aop with
  | 0 => eAdd et x y
  | 1 => eMinMax false et x y
  | 2 => eMinMax true et x y
  | 3 => x &&& y
  | 4 => x ||| y
  | 5 => x ^^^ y
  | _ => y

/-- A 256-bit sector with w bits from lo replaced. -/
def putElem (d : BitVec 256) (lo w v : Nat) : BitVec 256 :=
  (d &&& ~~~(BitVec.ofNat 256 ((2 ^ w - 1) * 2 ^ lo))) ||| BitVec.ofNat 256 ((v % 2 ^ w) * 2 ^ lo)

/-- Every element of a sector combined with the operand's (R189, R193). -/
def vecOp (f : Nat → Nat → Nat) (w : Nat) (x y : BitVec 256) : BitVec 256 :=
  (List.range (256 / w)).foldl
    (fun acc i => putElem acc (w * i) w (f (fieldNat x (w * i) w) (fieldNat y (w * i) w))) x

/-- The sector that an atomic leaves (R189; CAS compares element with operand bytes 0-7). -/
def atomicOp (aop et : Nat) (vec : Bool) (ofs : Nat) (x y : BitVec 256) : BitVec 256 :=
  let w := eBits et
  if aop = 7 then
    if fieldNat x (8 * ofs) 64 = fieldNat y 0 64 then putElem x (8 * ofs) 64 (fieldNat y 64 64) else x
  else if vec then vecOp (eOp aop et) w x y
  else putElem x (8 * ofs) w (eOp aop et (fieldNat x (8 * ofs) w) (fieldNat y (8 * ofs) w))

/-- The sector that a reduce-write leaves (R193). -/
def reduceOp (et : Nat) (x y : BitVec 256) : BitVec 256 := vecOp (eAdd et) (eBits et) x y

end Sys2Proof.Machine
end

