-- ==== Sys2Proof/Machine/SliceMath.lean ====
section
/-! DEFINITION. What the stack computes in a slice, and what the Crowns compute on partials: the arithmetic and
partial formats of chapters 6 and 7 over values read from the array. -/

namespace Sys2Proof.Machine

/-! ### Words and sectors -/

/-- A sector as a reader sees it: its plain bytes, and whether each granule may not be used. -/
structure SecVal where
  data : BitVec 256
  bad0 : Bool
  bad1 : Bool
  deriving DecidableEq, Repr

/-- A sector's value after correction. -/
def secVal (s : Sector) : SecVal :=
  let t := correctSector s
  { data := plain t, bad0 := granuleBad s.g0, bad1 := granuleBad s.g1 }

/-- Some granule may not be used. -/
def SecVal.bad (v : SecVal) : Bool := v.bad0 || v.bad1

/-- The codeword sector of a value; granules that may not be used carry poison (R174, R281). -/
def SecVal.sector (v : SecVal) : Sector :=
  let s := sectorOf v.data
  ⟨if v.bad0 then poisonGranule s.g0 else s.g0, if v.bad1 then poisonGranule s.g1 else s.g1⟩

/-- The eight 32-bit words of a sector, none where their granule may not be used. -/
def secWords (v : SecVal) : List (Option Word) :=
  (List.range 8).map (fun i =>
    if (if i < 4 then v.bad0 else v.bad1) then none else some (field v.data (32 * i) 32))

/-- Words of a list of sectors. -/
def allWords (vs : List SecVal) : List (Option Word) := vs.flatMap secWords

/-- One sector from up to eight words; a granule with a word that may not be used carries poison. -/
def packWords (ws : List (Option Word)) : SecVal :=
  let at' := fun i => ws.getD i (some 0#32)
  { data := (List.range 8).foldl (fun (acc : BitVec 256) i => putElem acc (32 * i) 32 ((at' i).getD 0#32).toNat) 0#256
    bad0 := (List.range 4).any (fun i => (at' i).isNone)
    bad1 := (List.range 4).any (fun i => (at' (i + 4)).isNone) }

/-- Words packed 8 per sector, the last sector padded with zeros. -/
def packAll (ws : List (Option Word)) : List SecVal :=
  (List.range ((ws.length + 7) / 8)).map (fun i => packWords ((ws.drop (8 * i)).take 8))

/-- Element i of w bits of a run of sectors. -/
def elemAt (vs : List SecVal) (w i : Nat) : Nat :=
  match vs[i * w / 256]? with
  | some v => fieldNat v.data (i * w % 256) w
  | none => 0

/-- Any sector of a list may not be used. -/
def anyBad (vs : List SecVal) : Bool := vs.any SecVal.bad

/-- A list in an order that nothing fixes (R158): at each step the next entry is chosen freely. -/
def permute {α : Type} : Nat → List α → Nat → List α × Nat
  | 0, xs, n => (xs, n)
  | _, [], n => ([], n)
  | fuel + 1, x :: xs, n =>
    let i := Config.freeNat (xs.length + 1) n % (xs.length + 1)
    let ys := x :: xs
    let (rest, n') := permute fuel (ys.eraseIdx i) (n + 1)
    (ys.getD i x :: rest, n')

/-! ### The slice -/

/-- What a slice works on: the fields of its parameter block (Table 8-5), its operand sectors in run order, the
vector buffer, and for each unit of an ATTN its token (log 12). -/
structure SliceIn where
  op : Nat
  mode : Nat
  wt : Nat
  vt : Nat
  isInt : Bool
  nvec : Nat
  ufirst : Nat
  ucount : Nat
  rank : Nat
  p : Nat
  cntM : Nat
  cntK : Nat
  bofs : Nat
  param0 : Word
  param1 : Word
  resume : Nat
  budget : Nat
  xa : List SecVal
  xb : List SecVal
  tokens : List Nat
  limit : Nat
  npos : Nat
  deriving DecidableEq, Repr

/-- What a slice leaves: output sectors, sectors written (operand B or A, index in run order), the resume point,
entries cut at the footprint's end, tenths of a nanosecond used, the free choices taken, and the sectors read: of operands
A and B by their numbers in run order, and of the vector buffer. -/
structure SliceOut where
  outs : List SecVal
  writes : List (Bool × Nat × SecVal)
  resume : Word
  idxoor : Nat
  cost : Nat
  free : Nat
  usedA : List Nat
  usedB : List Nat
  usedV : List Nat
  deriving DecidableEq, Repr

/-- A value that may not be used. -/
def SecVal.spoil (v : SecVal) : SecVal := { v with bad0 := true, bad1 := true }

/-- The operand sectors that a slice names, by their numbers in run order. -/
def allOf (xs : List SecVal) : List Nat := List.range xs.length

/-- Sectors of a DOT row (R150). -/
def rowSectors' (wt kc : Nat) : Nat :=
  if wt = 6 then (kc / 32 * 17 + 31) / 32 else if wt = 7 then (kc / 32 * 33 + 31) / 32
  else (kc * wBits wt + 255) / 256

/-- The exact value of element k of a DOT row; MX rows hold their blocks, then their scales (R150). -/
def rowElem (wt kc : Nat) (row : List SecVal) (k : Nat) : FV :=
  let v := wValue wt (elemAt row (wBits wt) k)
  if wt = 6 then mxScale v (elemAt row 8 (kc / 32 * 16 + k / 32))
  else if wt = 7 then mxScale v (elemAt row 8 (kc / 32 * 32 + k / 32))
  else v

/-- The vector sectors of query or vector v in the buffer. -/
def vecSecs (vb : Nat → SecVal) (from_ n : Nat) : List SecVal := (List.range n).map (fun i => vb (from_ + i))

/-- One output of a DOT: a row by a vector segment starting at element k0 (R152). -/
def dotOne (x : SliceIn) (row vec : List SecVal) (k0 n : Nat) : Word × Nat :=
  if x.isInt then
    (BitVec.ofInt 32 ((List.range x.cntK).foldl (fun (acc : Int) k =>
      acc + sint (wBits x.wt) (elemAt row (wBits x.wt) k) * sint 8 (elemAt vec 8 (k0 + k))) 0), n)
  else
    let prods := (List.range x.cntK).map (fun k =>
      toF32 (FV.mul (rowElem x.wt x.cntK row k) (vValue x.vt (elemAt vec (8 * vBytes x.vt) (k0 + k)))) 0 0)
    sumAny addF prods.length prods n

/-- The vector-buffer sectors of a DOT's segments: vectors' stride, first sector of a segment in its vector, sectors of a
segment, and the segment's first element (R150, R151). -/
def dotSeg (x : SliceIn) : Nat × Nat × Nat × Nat :=
  let ksplit := x.mode % 2 = 1
  let ktot := if ksplit then x.p * x.cntK else x.cntK
  let k0 := if ksplit then x.rank * x.cntK else 0
  let s0 := k0 * vBytes x.vt / 32
  ((ktot * vBytes x.vt + 31) / 32, s0, (k0 * vBytes x.vt + x.cntK * vBytes x.vt + 31) / 32 - s0, k0)

/-- DOT (R150-R152): the outputs of the slice's rows for vector 0, then vector 1, each padded to whole sectors. -/
def sliceDot (x : SliceIn) (vb : Nat → SecVal) (n : Nat) : List SecVal × Nat :=
  let rs := rowSectors' x.wt x.cntK
  let (vs, s0, sn, k0) := dotSeg x
  (List.range x.nvec).foldl (fun acc v =>
    let seg := vecSecs vb (x.bofs + v * vs + s0) sn
    let r := (List.range x.ucount).foldl (fun (a : List (Option Word) × Nat) i =>
      let row := (x.xa.drop (i * rs)).take rs
      if anyBad row then (a.1 ++ [none], a.2)
      else
        let (w, n') := dotOne x row seg (k0 - s0 * 32 / vBytes x.vt) a.2
        (a.1 ++ [some w], n')) ([], acc.2)
    (acc.1 ++ packAll r.1, r.2)) ([], n)

/-- Layout of ATTN records (R153, PARAM1). -/
structure AttnFmt where
  tstride : Nat
  roff : Nat
  reclen : Nat
  klen : Nat
  deriving DecidableEq, Repr

/-- The record layout that PARAM1 gives. -/
def attnFmt (p1 : Word) : AttnFmt :=
  { tstride := fieldNat p1 0 8, roff := fieldNat p1 8 8, reclen := fieldNat p1 16 4, klen := fieldNat p1 20 4 }

/-- dk, the elements of a key (R155). -/
def attnDk (wt : Nat) (f : AttnFmt) : Nat := f.klen * 256 / wBits wt
/-- dv, the elements of a value (R155). -/
def attnDv (wt : Nat) (f : AttnFmt) : Nat := (f.reclen - f.klen) * 256 / wBits wt

/-- Whether query v covers a token (R154). -/
def attnCovers (cntM limit nvec mode v tok : Nat) : Bool :=
  decide (cntM ≤ tok ∧ tok < limit - (if mode % 2 = 1 then nvec - 1 - v else 0))

/-- A partial of no record: m = −∞, s = 0, o = 0 (R155). -/
def emptyPartial (dv : Nat) : List (Option Word) := some negInf :: some 0#32 :: List.replicate dv (some 0#32)

/-- The sectors of a partial: m and s in a sector of their own, then o padded to whole sectors (R155). -/
def partialSecs (p : List (Option Word)) : List SecVal := packAll (p.take 2) ++ packAll (p.drop 2)

/-- The partial of one query over the slice's records (R155). -/
def attnQuery (x : SliceIn) (q : List SecVal) (v n : Nat) : List (Option Word) × Nat :=
  let f := attnFmt x.param1
  let dk := attnDk x.wt f
  let dv := attnDv x.wt f
  let recs := (x.tokens.zipIdx).filter (fun t => attnCovers x.cntM x.limit x.nvec x.mode v t.1)
  let recOf := fun (i : Nat) => (x.xa.drop (i * f.reclen)).take f.reclen
  let scores := recs.foldl (fun (a : List Word × Nat) t =>
    let prods := (List.range dk).map (fun i =>
      toF32 (FV.mul (vValue x.vt (elemAt q (8 * vBytes x.vt) i)) (wValue x.wt (elemAt (recOf t.2) (wBits x.wt) i))) 0 0)
    let (sm, n') := sumAny addF prods.length prods a.2
    (a.1 ++ [mulF x.param0 sm], n')) ([], n)
  let m := scores.1.foldl maxF negInf
  let es := scores.1.map (fun sc => expF (addF sc (negF m)))
  if recs.isEmpty then (emptyPartial dv, n)
  else
    let (s, n1) := sumAny addF es.length es scores.2
    let o := (List.range dv).foldl (fun (a : List (Option Word) × Nat) j =>
      let terms := (recs.zip es).map (fun t =>
        mulF t.2 (toF32 (wValue x.wt (elemAt (recOf t.1.2) (wBits x.wt) (dk + j))) 0 0))
      let (w, n') := sumAny addF terms.length terms a.2
      (a.1 ++ [some w], n')) ([], n1)
    (some m :: some s :: o.1, o.2)

/-- ATTN: one partial per query; an operand that may not be used poisons the whole contribution (R174). -/
def sliceAttn (x : SliceIn) (vb : Nat → SecVal) (n : Nat) : List SecVal × Nat :=
  let f := attnFmt x.param1
  let qs := (attnDk x.wt f * vBytes x.vt + 31) / 32
  let bad := anyBad x.xa
  (List.range x.nvec).foldl (fun acc v =>
    let q := vecSecs vb (x.bofs + v * qs) qs
    let (p, n') := attnQuery x q v acc.2
    let p := if bad then p.map (fun _ => none) else p
    (acc.1 ++ partialSecs p, n')) ([], n)

/-- A list as the stack returns it: a header sector with COUNT, then the elements 8 per sector (R159, log 13). -/
def listSecs (bad : Bool) (xs : List Nat) : List SecVal :=
  let vs := packWords [some (BitVec.ofNat 32 xs.length)] :: packAll (xs.map (fun x => some (BitVec.ofNat 32 x)))
  if bad then vs.map (fun v => { v with bad0 := true, bad1 := true }) else vs

/-- The elements of a list held in sectors, read up to a capacity (R159); a header that may not be used gives none. -/
def listOf (vs : List SecVal) (cap : Nat) : List Nat :=
  match vs with
  | [] => []
  | h :: es => if h.bad then [] else (List.range (min (fieldNat h.data 0 32) cap)).map (elemAt es 32)

/-- Merge of ascending lists; equal neighbours kept or removed. -/
def mergeAsc (dedup : Bool) (xs ys : List Nat) : List Nat :=
  let all := (xs ++ ys).mergeSort (fun a b => decide (a ≤ b))
  if dedup then all.dedup else all

/-- The set operation of MODE[1:0]: intersection, union, A minus B (R160). -/
def setOp (mode : Nat) (a b : List Nat) : List Nat :=
  match mode % 4 with
  | 0 => a.filter (fun v => b.contains v)
  | 1 => mergeAsc true a b
  | _ => a.filter (fun v => !b.contains v)

/-- The cost by Table 6-7 of reading sectors by their numbers in run order, after sector `last`: each sector, and each
run of successive ones. -/
def readCost (last : Option Nat) : List Nat → Nat
  | [] => 0
  | i :: t => 2 + (if last.map (· + 1) = some i then 0 else 5) + readCost (some i) t

/-- The sectors of a list that hold n of its elements from number i on, its header sector first (R159). -/
def listReads (i n : Nat) : List Nat :=
  0 :: (if n = 0 then [] else (List.range ((i + n - 1) / 8 - i / 8 + 1)).map (fun q => 1 + i / 8 + q))

/-- What reading them costs (Table 6-7). -/
def listCost (i n : Nat) : Nat :=
  7 + (if n = 0 then 0 else 2 * ((i + n - 1) / 8 - i / 8 + 1) + (if i / 8 = 0 then 0 else 5))

/-- The smaller of two lists' first values. -/
def nextVal (a b : List Nat) : Nat :=
  match a, b with
  | x :: _, y :: _ => min x y
  | x :: _, [] => x
  | [], y :: _ => y
  | [], [] => 0

/-- How many elements of two ascending lists a slice takes, value by value, before the next value would pass its bank time
(R145); `ia` and `ib` are their first elements' numbers. The last value of all is no resume point. -/
def mergeTake (ia ib lim : Nat) : Nat → List Nat → List Nat → Nat × Nat → Nat × Nat
  | 0, _, _, n => n
  | fuel + 1, a, b, n =>
    if a.isEmpty && b.isEmpty then n
    else
      let v := nextVal a b
      let ta := a.head? == some v
      let tb := b.head? == some v
      let n' := (if ta then n.1 + 1 else n.1, if tb then n.2 + 1 else n.2)
      if 0 < n.1 + n.2 ∧ lim < 600 + listCost ia n'.1 + listCost ib n'.2 ∧ v ≠ 0xFFFFFFFF then n
      else mergeTake ia ib lim fuel (if ta then a.tail else a) (if tb then b.tail else b) n'

/-- The values of a list rise strictly (R159). -/
def rising : List Nat → Bool
  | x :: y :: t => decide (x < y) && rising (y :: t)
  | _ => true

/-- A list of at most `cap` values that nothing fixes, and the free choices taken: the result over lists that do not rise
strictly (R159, R160; log 13). -/
def freeList (cap n : Nat) : List Nat × Nat :=
  let k := Config.freeNat (cap + 1) n % (cap + 1)
  ((List.range k).map (fun i => Config.freeNat (2 ^ 32) (n + 1 + i) % 2 ^ 32), n + 1 + k)

/-- SETX: elements from the resume value on, until the slice's bank time reaches its budget (R145, R160); the resume
point is the next value, or 0xFFFF_FFFF at the end (log 13). -/
def sliceSetx (x : SliceIn) (n : Nat) : SliceOut :=
  let la := listOf x.xa x.cntM
  let lb := listOf x.xb x.cntK
  let a := la.filter (fun v => decide (x.resume ≤ v))
  let b := lb.filter (fun v => decide (x.resume ≤ v))
  let ia := la.length - a.length
  let ib := lb.length - b.length
  let t := mergeTake ia ib (x.budget * 40) (a.length + b.length) a b (0, 0)
  let ra := listReads ia t.1
  let rb := listReads ib t.2
  let bad := ra.any (fun i => (x.xa[i]?).any SecVal.bad) || rb.any (fun i => (x.xb[i]?).any SecVal.bad)
  if !bad && !(rising la && rising lb) then
    let (l, n') := freeList (la.length + lb.length) n
    { outs := listSecs false l, writes := [], idxoor := 0, free := n', resume := 0xFFFFFFFF#32
      cost := 600 + listCost 0 la.length + listCost 0 lb.length
      usedA := listReads 0 la.length, usedB := listReads 0 lb.length, usedV := [] }
  else
    let rest := (a.drop t.1, b.drop t.2)
    { outs := listSecs bad (setOp x.mode (a.take t.1) (b.take t.2)), writes := [], idxoor := 0, free := n
      resume := if rest.1.isEmpty && rest.2.isEmpty then 0xFFFFFFFF#32 else BitVec.ofNat 32 (nextVal rest.1 rest.2)
      cost := 600 + listCost ia t.1 + listCost ib t.2, usedA := ra, usedB := rb, usedV := [] }

/-- The neighbours of local vertex l: the first entry, the entry after the last that lies in the footprint, and whether some
are cut (R161). The offsets compare as unsigned numbers (DEDUCED, log 13). -/
def neighbours (x : SliceIn) (l : Nat) : Nat × Nat × Bool :=
  let lo := elemAt x.xa 32 l
  let hi := elemAt x.xa 32 (l + 1)
  let cap := 8 * x.xb.length
  (lo, min hi cap, decide (lo < hi ∧ cap < hi))

/-- The walk of an EXPAND over its frontier: neighbours found, vertices cut, cost, steps of the whole partition so far, and
the sectors read of the offset array, the neighbour array (latest first) and the frontier. A step is the reading of one
vertex's offsets or of one sector of its neighbours; `stop` is the step before which the slice stops. -/
structure Walk where
  out : List Nat
  oor : Nat
  cost : Nat
  step : Nat
  ra : List Nat
  rb : List Nat
  rv : List Nat
  went : Bool
  stop : Option Nat
  deriving DecidableEq, Repr

/-- One step of a walk: it reads sectors of the two arrays and finds `els`, unless the slice's bank time would pass its
limit first (R145). A slice takes one step at least, and a step that no resume point can name is taken too (log 13). -/
def Walk.take (lim : Nat) (w : Walk) (a b els : List Nat) (cut : Bool) : Walk :=
  let c := readCost w.ra.head? a + readCost w.rb.head? b
  if w.stop.isSome then w
  else if w.went && decide (lim < w.cost + c) && decide (w.step < 0xFFFFFFFF) then { w with stop := some w.step }
  else
    { w with out := w.out ++ els, oor := w.oor + (if cut then 1 else 0), cost := w.cost + c, step := w.step + 1
             ra := a.reverse ++ w.ra, rb := b.reverse ++ w.rb, went := true }

/-- The steps of frontier position i, local vertex l; those before the resume point were taken by earlier slices, but a
vertex left inside its neighbours has its offsets read again (R145, R161). -/
def Walk.vertex (x : SliceIn) (w : Walk) (i l : Nat) : Walk :=
  let (lo, hi, cut) := neighbours x l
  let ns := if hi ≤ lo then 0 else (hi - 1) / 8 - lo / 8 + 1
  let offs := (List.range ((l + 1) / 8 - l / 8 + 1)).map (· + l / 8)
  if w.stop.isSome then w
  else if w.step + 1 + ns ≤ x.resume then { w with step := w.step + 1 + ns }
  else
    let first := x.resume - w.step - 1
    let w := { w with rv := (x.bofs + i / 8) :: w.rv }
    let w := if w.step < x.resume then
        { w with cost := w.cost + readCost w.ra.head? offs, ra := offs.reverse ++ w.ra, step := x.resume }
      else w.take (x.budget * 40) offs [] [] cut
    (List.range (ns - first)).foldl (fun w j =>
      let q := lo / 8 + first + j
      let e0 := max lo (8 * q)
      w.take (x.budget * 40) [] [q] ((List.range (min hi (8 * q + 8) - e0)).map (fun t => elemAt x.xb 32 (e0 + t))) false) w

/-- EXPAND: frontier positions from the resume point on, until the budget is used (R145, R161). -/
def sliceExpand (x : SliceIn) (vb : Nat → SecVal) (n : Nat) : SliceOut :=
  let fr := vecSecs vb x.bofs ((x.npos + 7) / 8)
  let w : Walk := (List.range x.npos).foldl (fun w i => Walk.vertex x w i (elemAt fr 32 i))
    { out := [], oor := 0, cost := 600, step := 0, ra := [], rb := [], rv := [], went := false, stop := none }
  let bad := w.ra.any (fun i => (x.xa[i]?).any SecVal.bad) || w.rb.any (fun i => (x.xb[i]?).any SecVal.bad)
  { outs := listSecs bad (mergeAsc (x.mode % 2 = 1) w.out []), writes := [], idxoor := w.oor, free := n
    resume := match w.stop with | some t => BitVec.ofNat 32 t | none => 0xFFFFFFFF#32, cost := w.cost
    usedA := w.ra.reverse, usedB := w.rb.reverse, usedV := w.rv.reverse.dedup }

/-- The predicate of FILTER (R162). -/
def filterPass (pred : Nat) (fl : Bool) (p0 p1 v : Word) : Bool :=
  let nan := fl && (isNan32 v || isNan32 p0 || (pred == 6 && isNan32 p1))
  let lt := fun (a b : Word) => if fl then FV.lt (f32 a) (f32 b) else a.slt b
  match pred with
  | 0 => !nan && !lt v p0 && !lt p0 v
  | 1 => nan || lt v p0 || lt p0 v
  | 2 => !nan && lt v p0
  | 3 => !nan && !lt p0 v
  | 4 => !nan && lt p0 v
  | 5 => !nan && !lt v p0
  | 6 => !nan && !lt v p0 && !lt p1 v
  | _ => v &&& p0 != 0#32

/-- FILTER: the local positions that pass, over the slice's sectors (R162). -/
def sliceFilter (x : SliceIn) : List SecVal :=
  let fl := x.wt = 8
  let idx := (List.range (8 * x.ucount)).filter (fun i =>
    decide (8 * x.ufirst + i < x.cntM) &&
      filterPass (x.mode % 8) fl x.param0 x.param1 (BitVec.ofNat 32 (elemAt x.xa 32 i)))
  listSecs (anyBad x.xa) (idx.map (fun i => 8 * x.ufirst + i))

/-- SCATTER_ADD: each value item added into its table item, in an order that nothing fixes (R158); nothing is
added into an item that cannot be read (R174). -/
def sliceScatter (x : SliceIn) (vb : Nat → SecVal) (n : Nat) : List (Bool × Nat × SecVal) × Nat :=
  let item := x.mode % 16
  let et := match x.wt with | 8 => 0 | 4 => 1 | 5 => 2 | _ => 3
  let pos := fun u => elemAt (vecSecs vb x.bofs ((x.npos + 7) / 8)) 32 u
  let (order, n') := permute x.ucount (List.range x.ucount) n
  let out := order.foldl (fun (tab : List (Nat × BitVec 256)) i =>
    let l := pos (x.ufirst + i)
    let secs := (x.xa.drop (i * item)).take item
    if anyBad secs then tab
    else (List.range item).foldl (fun (tab : List (Nat × BitVec 256)) j =>
      let k := l * item + j
      let old := ((tab.find? (fun e => e.1 == k)).map (·.2)).getD (secs.getD j ⟨0, false, false⟩).data
      let v := vb (x.bofs + (x.npos + 7) / 8 + (x.ufirst + i) * item + j)
      (k, reduceOp et old v.data) :: tab.filter (fun e => e.1 != k)) tab) []
  let ws := (List.range x.ucount).flatMap (fun i => (List.range item).filterMap (fun j =>
    let k := pos (x.ufirst + i) * item + j
    (out.find? (fun e => e.1 == k)).map (fun e => (false, i * item + j, ⟨e.2, false, false⟩))))
  (ws, n')

/-- The vector-buffer sectors that a slice reads, the walk of an EXPAND apart (Table 6-5). -/
def slotReads (x : SliceIn) : List Nat :=
  match x.op with
  | 1 => let (vs, s0, sn, _) := dotSeg x; (List.range x.nvec).flatMap (fun v => (List.range sn).map (fun i => x.bofs + v * vs + s0 + i))
  | 2 => (List.range (x.nvec * ((attnDk x.wt (attnFmt x.param1) * vBytes x.vt + 31) / 32))).map (x.bofs + ·)
  | 4 =>
    let item := x.mode % 16
    if x.ucount = 0 then []
    else (List.range ((x.ufirst + x.ucount - 1) / 8 - x.ufirst / 8 + 1)).map (fun i => x.bofs + x.ufirst / 8 + i) ++
      (List.range (x.ucount * item)).map (fun i => x.bofs + (x.npos + 7) / 8 + x.ufirst * item + i)
  | 9 => if x.mode % 2 = 1 then [x.bofs] else []
  | _ => []

/-- The items of a GATHER; one with a sector that may not be used carries poison whole (R174). -/
def gatherItems (item : Nat) : Nat → List SecVal → List SecVal
  | 0, _ => []
  | _, [] => []
  | fuel + 1, xs =>
    let it := xs.take item
    (if anyBad it then it.map SecVal.spoil else it) ++ gatherItems item fuel (xs.drop item)

/-- The work of a slice over operands that can be used (R150-R164). `fixed` is the cost that the slicer gave it. -/
def sliceWork (x : SliceIn) (vb : Nat → SecVal) (fixed n : Nat) : SliceOut :=
  let base : SliceOut := { outs := [], writes := [], resume := 0#32, idxoor := 0, cost := fixed, free := n
                           usedA := allOf x.xa, usedB := [], usedV := slotReads x }
  let plainOut := fun (o : List SecVal × Nat) => { base with outs := o.1, free := o.2 }
  match x.op with
  | 1 => plainOut (sliceDot x vb n)
  | 2 => plainOut (sliceAttn x vb n)
  | 3 => plainOut (gatherItems (max 1 (x.mode % 16)) x.xa.length x.xa, n)
  | 4 => let (w, n') := sliceScatter x vb n; { base with writes := w, free := n' }
  | 5 => sliceSetx x n
  | 6 => sliceExpand x vb n
  | 7 => plainOut (sliceFilter x, n)
  | 8 => { base with writes := (x.xa.zipIdx).map (fun v => (true, v.2, v.1)) }
  | _ =>
    let pat := if x.mode % 2 = 1 then vb x.bofs else packWords (List.replicate 8 (some x.param0))
    { base with writes := (List.range x.xa.length).map (fun i => (false, i, pat)), usedA := [] }

/-- The work of a slice (R150-R164). A vector-buffer sector that may not be used makes every output of the slice carry
poison (R277): what it returns, and what it writes. -/
def runSlice (x : SliceIn) (vb : Nat → SecVal) (fixed n : Nat) : SliceOut :=
  let r := sliceWork x vb fixed n
  if anyBad (r.usedV.map vb) then
    { r with outs := r.outs.map SecVal.spoil
             writes := if x.op = 4 then (x.xa.zipIdx).map (fun v => (false, v.2, v.1.spoil))
               else r.writes.map (fun w => (w.1, w.2.1, w.2.2.spoil)) }
  else r

/-! ### Crown arithmetic -/

/-- A partial with a NaN anywhere is NaN in m, s and all of o (R187); one that may not be used carries poison whole. -/
def attnSpread (p : List (Option Word)) : List (Option Word) :=
  if p.any Option.isNone then p.map (fun _ => none)
  else
    match p.find? (fun w => isNan32 (w.getD 0#32)) with
    | some w => p.map (fun v => some (freeNan (w.getD 0#32) (v.getD 0#32)))
    | none => p

/-- The merge of an attention partial p into accumulator a (R186, R187): m, s, then o. -/
def attnMerge (a p : List (Option Word)) : List (Option Word) :=
  if a.any Option.isNone || p.any Option.isNone then a.map (fun _ => none)
  else
    let ga := fun i => (a.getD i (some 0#32)).getD 0#32
    let gp := fun i => (p.getD i (some 0#32)).getD 0#32
    let nan := a.any (fun w => isNan32 (w.getD 0#32)) || p.any (fun w => isNan32 (w.getD 0#32))
    if nan then (List.range a.length).map (fun i => some (freeNan (ga i) (gp i)))
    else if gp 0 = negInf then a
    else if ga 0 = negInf then p
    else if ga 0 = 0x7F800000#32 ∧ gp 0 = 0x7F800000#32 then
      (List.range a.length).map (fun i => some (freeNan (ga i) (gp i)))
    else
      let m := maxF (ga 0) (gp 0)
      let fa := expF (addF (ga 0) (negF m))
      let fp := expF (addF (gp 0) (negF m))
      some m :: (List.range (a.length - 1)).map (fun i => some (fmaF (gp (i + 1)) fp (mulF (ga (i + 1)) fa)))

/-- The result of a query from its merged partial (R156): the partial, or o / s with zeros for s = 0. -/
def attnResult (norm : Bool) (p : List (Option Word)) : List SecVal :=
  if !norm then partialSecs p
  else
    match p.getD 1 none with
    | none => packAll ((p.drop 2).map (fun _ => none))
    | some s =>
      packAll ((p.drop 2).map (fun o => o.map (fun w => if s = 0#32 ∨ s = 0x80000000#32 then 0#32 else divF w s)))

/-- A list result: its header, and the smallest elements that fit in RCAP − 1 sectors (R166). -/
def listResult (bad : Bool) (rcap : Nat) (xs : List Nat) : List SecVal :=
  let kept := xs.take (8 * (rcap - 1))
  let trunc := decide (kept.length < xs.length)
  let hdr := packWords [some (BitVec.ofNat 32 kept.length), some (BitVec.ofNat 32 (min xs.length 0xFFFFFFFF)),
    some (if trunc then 1#32 else 0#32)]
  let vs := hdr :: packAll (kept.map (fun x => some (BitVec.ofNat 32 x)))
  if bad then vs.map (fun v => { v with bad0 := true, bad1 := true }) else vs

end Sys2Proof.Machine
end

