-- ==== Sys2Proof/Machine/StackCore.lean ====
section
/-! DEFINITION. The stack logic die's own operations: its array and vector buffer, its slice contexts and status,
and ALERT (08, and what 06, 10 and 11 require of the stack, R11). -/

namespace Sys2Proof.Machine

/-! ### Array and vector buffer -/

/-- The key of a granule in a channel's array: field spare or not, bank, row or spare index, column, half. -/
def arrKey (spare : Bool) (bank row col half : Nat) : Nat :=
  ((((if spare then 16 else 0) + bank) * 2 ^ 17 + row) * 32 + col) * 2 + half

/-- What an unlisted array granule reads as (R229; boot step 10 for rows outside the field spares, log 5). -/
def arrDflt (st : Stack) (ch key : Nat) : Granule :=
  match st.base with
  | .powerOn gen => Config.powerOnArray gen ch key
  | .swept k scr =>
    let bank := key / 64 / 2 ^ 17
    if 16 ≤ bank then Config.powerOnArray st.gen ch key
    else scramble scr k ch bank (key / 64 % 2 ^ 17) (key / 2 % 32) (key % 2) 0#152

/-- What an unlisted vector-buffer granule reads as (R229). -/
def vbufDflt (st : Stack) (ch key : Nat) : Granule := Config.powerOnVbuf st.gen ch key

/-- A sector of the array as it is stored. -/
def arrRead (s : State) (ch : Nat) (spare : Bool) (bank row col : Nat) : Sector :=
  let a := (stk s ch).array
  let g := fun h => ramRead (arrDflt s.stack ch) a (arrKey spare bank row col h)
  ⟨g 0, g 1⟩

/-- A channel's array with a sector stored. -/
def arrWrite (st : Stack) (ch : Nat) (x : StkChan) (spare : Bool) (bank row col : Nat) (d : Sector) : StkChan :=
  let a := ramWrite (arrDflt st ch) x.array (arrKey spare bank row col 0) d.g0
  { x with array := ramWrite (arrDflt st ch) a (arrKey spare bank row col 1) d.g1 }

/-- A sector of the vector buffer. -/
def vbufRead (s : State) (ch sec : Nat) : Sector :=
  let v := (stk s ch).vbuf
  ⟨ramRead (vbufDflt s.stack ch) v (2 * sec), ramRead (vbufDflt s.stack ch) v (2 * sec + 1)⟩

/-- A channel's vector buffer with a sector stored. -/
def vbufWrite (st : Stack) (ch : Nat) (x : StkChan) (sec : Nat) (d : Sector) : StkChan :=
  let v := ramWrite (vbufDflt st ch) x.vbuf (2 * sec) d.g0
  { x with vbuf := ramWrite (vbufDflt st ch) v (2 * sec + 1) d.g1 }

/-- Where the stack finds a logical row inside a slice: its own row, a spare, or a fenced row (R296). -/
inductive RowAt where
  | row | spare (i : Nat) | fenced
  deriving DecidableEq, Repr

/-- SR_REMAPe applied to a bank and row (R296, Table 11-11). -/
def stkRowAt (x : StkChan) (bank row : Nat) : RowAt :=
  match x.remap.find? (fun e => e.2.getLsbD 0 && fieldNat e.2 2 4 == bank && fieldNat e.2 6 17 == row) with
  | none => .row
  | some e => if e.2.getLsbD 1 then .fenced else .spare (fieldNat e.2 23 5)

/-- A sector as an internal access reads it: descrambled, and poisoned in a fenced row (R176, R296). -/
def stkRead (s : State) (p : Place) : Sector :=
  match stkRowAt (stk s p.ch) p.bank p.row with
  | .fenced => poisonSector zeroSector
  | .row => scrambleSector s.stack.scrEn s.stack.key p.ch p.bank p.row p.col (arrRead s p.ch false p.bank p.row p.col)
  | .spare i => scrambleSector s.stack.scrEn s.stack.key p.ch p.bank p.row p.col (arrRead s p.ch true p.bank i p.col)

/-- An internal write: scrambled, and dropped in a fenced row (R176, R296). -/
def stkWrite (s : State) (p : Place) (d : Sector) : State :=
  let w := scrambleSector s.stack.scrEn s.stack.key p.ch p.bank p.row p.col d
  match stkRowAt (stk s p.ch) p.bank p.row with
  | .fenced => s
  | .row => modStk s p.ch (fun x => arrWrite s.stack p.ch x false p.bank p.row p.col w)
  | .spare i => modStk s p.ch (fun x => arrWrite s.stack p.ch x true p.bank i p.col w)

/-! ### Bank time (R148, R185) -/

/-- Core cycles of a slice's bank time. -/
def Ctx.whole (v : Ctx) : Nat := (v.cost + 3) / 4

/-- A context brought up to core cycle `now`: a running slice uses bank time until its work is done, and is stalled from then
on while outputs find no room (R148, R185; log 15). -/
def Ctx.upTo (now : Nat) (v : Ctx) : Ctx :=
  let d := if v.st = .running then now - v.mark else 0
  let u := max v.used (min v.whole (v.used + d))
  { v with used := u, stalled := v.stalled + (if v.wait.isEmpty then 0 else d - (u - v.used)), mark := now }

/-! ### Presence, ALERT -/

/-- The stack takes commands: it is powered and out of reset (R228, R229). -/
def stackOn (s : State) : Bool := s.pins.stkPgood && s.pins.stkRstN

/-- The channel's stack enters ALERT: the cause is recorded and running slices pause (R216, Table 8-9). -/
def enterAlert (s : State) (c cause : Nat) : State :=
  modStk s c (fun x =>
    { x with alert := true, alertCause := cause, alertCount := x.alertCount + 1,
             ctxs := x.ctxs.map (fun e => (e.1, if e.2.st = .running then { Ctx.upTo s.time.cyc e.2 with st := .paused } else e.2)) })

/-- The stack's minimum timing, in core cycles (Table 5-4). -/
structure StkTim where
  rcd : Nat
  rp : Nat
  ras : Nat
  rc : Nat
  faw : Nat
  rrdS : Nat
  rrdL : Nat
  wr : Nat
  rtp : Nat
  ccdS : Nat
  ccdL : Nat
  wtr : Nat
  rtw : Nat
  rfc : Nat
  deriving DecidableEq, Repr

/-- The values of Table 5-4 at point p (log 14). -/
def stkTim (p : Nat) : StkTim :=
  { rcd := 35, rp := 35, ras := 75, rc := 110, faw := 30, rrdS := 6, rrdL := 8, wr := 30, rtp := 8
    ccdS := 2 * 2 ^ p, ccdL := 4 * 2 ^ p, wtr := 10, rtw := 4 * 2 ^ p, rfc := 400 }

/-- The timing of the point that the stack's latencies stand at (R208). -/
def State.stkTim (s : State) : StkTim := Machine.stkTim s.stack.point

/-- Core cycles of a slot at the stack (Table 8-2). -/
def stkSlot (s : State) : Nat := 2 * 2 ^ s.stack.point
/-- Core cycles from the start of a read-type column command to its data, RL behind its last UI (R208, Table 8-2). -/
def stkRl (s : State) : Nat := stkSlot s + (if s.stack.point = 0 then 25 else if s.stack.point = 1 then 26 else 28)
/-- And from a write-type column command to its data, by WL. -/
def stkWl (s : State) : Nat := stkSlot s + (if s.stack.point = 2 then 8 else 4)

/-- At least n cycles lie between the time listed at k, if any, and t. -/
def since (tab : Tab Nat) (k t n : Nat) : Bool := match Tab.find tab k with | none => true | some a => decide (a + n ≤ t)

/-- At least n cycles lie between a time, if any, and t. -/
def after (o : Option Nat) (t n : Nat) : Bool := match o with | none => true | some a => decide (a + n ≤ t)

/-- RRD and FAW allow an activate, a refresh or a neighbour refresh of bank b in cycle t (Table 5-4). -/
def stkRateOk (m : StkTim) (x : StkChan) (b t : Nat) : Bool :=
  x.acts.all (fun a => decide (a.1 + (if a.2 % 4 = b % 4 then m.rrdL else m.rrdS) ≤ t)) &&
    decide ((x.acts.filter (fun a => decide (a.2 % 4 / 2 = b % 4 / 2 ∧ t < a.1 + m.faw))).length < 4)

/-- CCD, RTW and WTR allow a column command of bank group g in cycle t; 4 stands for the vector buffer and the contexts, which
lie in no bank (Table 5-4). -/
def stkColOk (m : StkTim) (x : StkChan) (g t : Nat) (read : Bool) : Bool :=
  after x.lastCol t m.ccdS && (decide (g = 4) || since x.colAt g t m.ccdL) &&
    (if read then after x.lastWr t m.wtr else after x.lastRd t m.rtw)

/-- The earliest cycle at which Table 5-1 lets a half precharge: RAS, RTP and WR. -/
def stkPreFrom (s : State) (x : StkChan) (k : Nat) : Nat :=
  let m := s.stkTim
  let f := fun (tab : Tab Nat) (n : Nat) => match Tab.find tab k with | some a => a + n | none => 0
  max (f x.tAct m.ras) (max (f x.tRd m.rtp) (f x.tWr (stkSlot s + m.wr)))

/-- Neither a precharge, a refresh nor a neighbour refresh still occupies a half in cycle t. -/
def stkIdleOk (m : StkTim) (x : StkChan) (b h t : Nat) : Bool :=
  since x.tPre (halfKey b h) t m.rp && since x.tRef b t m.rfc && since x.tNrf (halfKey b h) t 0

/-- An activate, refresh or neighbour refresh is noted; old ones are forgotten. -/
def StkChan.noteAct (x : StkChan) (b t : Nat) : StkChan :=
  { x with acts := x.acts.filter (fun a => decide (t < a.1 + 512)) ++ [(t, b)] }

/-- No command of before bears on the timing: all banks come out of RSYNC, self-refresh or reset IDLE (R217, R268). -/
def StkChan.calm (x : StkChan) : StkChan :=
  { x with tAct := [], tPre := [], tRd := [], tWr := [], tRef := [], tNrf := [], acts := [], lastCol := none, colAt := []
           lastRd := none, lastWr := none }

/-- A bank half has a row open in the stack. -/
def stkOpen (x : StkChan) (bank h : Nat) : Bool := (Tab.find x.opens (halfKey bank h)).isSome

/-- A half closes, its precharge beginning in cycle t. -/
def stkClose (t : Nat) (x : StkChan) (bank h : Nat) : StkChan :=
  if stkOpen x bank h then
    { x with opens := Tab.drop x.opens (halfKey bank h), tPre := Tab.put x.tPre (halfKey bank h) t }
  else x

/-! ### Self-refresh (R268) -/

/-- The stack's hottest valid sensor reads above 85 °C, so that self-refresh runs at the doubled rate (R268). -/
def stkHot (s : State) : Bool := s.stack.temps.any (fun e => e.2.getLsbD 16 && decide (1360 < (field e.2 0 16 : BitVec 16).toInt))

/-- The refresh counters of a channel in self-refresh move on to now: every row in each window, 8 rows at a time in every bank,
from the positions that the block's REFs have left (R255, R256, R268). -/
def srAdvance (s : State) (c : Nat) : State :=
  modStk s c (fun x =>
    if !x.selfRefresh then x
    else
      let n := (s.time.tick - x.srMark) * (rowsPerBank s / 8) / (if stkHot s then 4000000 else 8000000)
      { x with srMark := s.time.tick
               refCtr := (List.range 16).foldl (fun t b => Tab.put t b ((Tab.get t b 0 + 8 * n) % rowsPerBank s)) x.refCtr })

/-- A channel of the stack enters self-refresh, with its rows closed. -/
def srEnter (s : State) (c : Nat) : State := modStk s c (fun x => { x with selfRefresh := true, srMark := s.time.tick, opens := [] })

/-! ### The stack's disturbance generator (R264, Table 10-3) -/

/-- A row is activated inside a slice: the generator makes a step, and may draw a refresh of the row's neighbours, by EN, RAD2
and K of SR_NRF_CFG (R264). -/
def sliceAct (x : StkChan) (bank row : Nat) : StkChan :=
  let g := xorshift64 x.gen
  let k := max 4 (min 16 (fieldNat x.nrfCfg 3 5))
  if x.nrfCfg.getLsbD 0 && decide (g.toNat % 2 ^ k = 0) then
    { x with gen := g, lastNrf := some (bank, row, false, x.nrfCfg.getLsbD 1), nrfCount := x.nrfCount + 1 }
  else { x with gen := g }

/-- The rows that a slice activates, one after the other: each place that lies in another row than the one before it. -/
def sliceActs (x : StkChan) (ps : List Place) : StkChan :=
  (ps.foldl (fun (acc : StkChan × Option (Nat × Nat)) p =>
    if acc.2 = some (p.bank, p.row) then acc else (sliceAct acc.1 p.bank p.row, some (p.bank, p.row))) (x, none)).1

/-! ### Slice contexts -/

/-- What a context's status sector shows before a slice has started in it: IDLE, and arbitrary values (R229). -/
def rawStatus (gen c ctx : Nat) : BitVec 256 :=
  let g := fun h => (Config.powerOnCtx gen c (8 + 2 * ctx + h)).setWidth 128
  (g 1 ++ g 0) &&& ~~~0xFF#256

/-- What a context's parameter sector holds before anything is written (R229). -/
def parmDflt (s : State) (c ctx part : Nat) : Sector :=
  ⟨Config.powerOnCtx s.stack.gen c (4 * ctx + 2 * part), Config.powerOnCtx s.stack.gen c (4 * ctx + 2 * part + 1)⟩

/-- A slice context. -/
def StkChan.ctx (x : StkChan) (i : Nat) : Ctx := Tab.get x.ctxs i Ctx.reset
/-- The channel with a slice context replaced. -/
def StkChan.setCtx (x : StkChan) (i : Nat) (v : Ctx) : StkChan := { x with ctxs := Tab.put x.ctxs i v }

/-- The 64 bytes of a context's parameter block (Table 8-5), corrected. -/
def parmBlock (s : State) (c ctx : Nat) : BitVec 512 :=
  let v := (stk s c).ctx ctx
  let sec := fun i => plain (correctSector (Tab.get v.parm i (parmDflt s c ctx i)))
  sec 1 ++ sec 0

/-- The places of the sectors that a run list names, for one operand, in the banks reserved for the slice, which are all that
the stack touches (R177, R214). -/
def runPlaces (c : Nat) (banks : BitVec 16) (entries : List (BitVec 64)) (operand : Nat) : List Place :=
  (entries.filter (fun e => fieldNat e 26 2 == operand && banks.getLsbD (fieldNat e 22 4))).flatMap (fun e =>
    (List.range (fieldNat e 32 32)).map (fun i =>
      let a := fieldNat e 5 17 * 32 + fieldNat e 0 5 + i
      { ch := c, bank := fieldNat e 22 4, row := a / 32, col := a % 32 }))

/-- The vector-buffer sectors of a parameter block's run list (R214). -/
def runSecs (pb : BitVec 512) : List Nat := (List.range ((fieldNat pb 176 16 + 3) / 4)).map (fieldNat pb 160 16 + ·)

/-- The run list of a parameter block, from the vector buffer: nothing where it cannot be read (R214, R277). -/
def runEntries (s : State) (c : Nat) (pb : BitVec 512) : List (BitVec 64) :=
  if (runSecs pb).any (fun i => sectorBad (vbufRead s c i)) then []
  else (List.range (fieldNat pb 176 16)).map (fun i =>
    field (plain (correctSector (vbufRead s c (fieldNat pb 160 16 + i / 4)))) (64 * (i % 4)) 64)

/-- The form of OPRA of a place (Table 8-6). -/
def oprForm (p : Place) : Nat := p.col + p.row * 32 + p.bank * 2 ^ 22

/-- Granules of a sector that the decoder corrects. -/
def ceCount (s : Sector) : Nat :=
  let one := fun g => match decodeGranule g with | .corrected _ _ => 1 | _ => 0
  one s.g0 + one s.g1

/-- What the slice of a context works on (log 12): its tokens and partition length come from the slice that the
block's slicer cut. -/
def sliceInput (pb : BitVec 512) (xa xb : List SecVal) (tokens : List Nat)
    (limit npos : Nat) : SliceIn :=
  { op := fieldNat pb 0 8, mode := fieldNat pb 8 8, wt := fieldNat pb 16 4, vt := fieldNat pb 20 4,
    isInt := pb.getLsbD 24, nvec := fieldNat pb 40 3 + 1, ufirst := fieldNat pb 64 32, ucount := fieldNat pb 96 32,
    rank := fieldNat pb 128 16, p := fieldNat pb 144 16, cntM := fieldNat pb 256 32, cntK := fieldNat pb 288 32,
    bofs := fieldNat pb 320 13, param0 := field pb 352 32, param1 := field pb 384 32,
    resume := fieldNat pb 416 32, budget := fieldNat pb 224 16, xa := xa, xb := xb, tokens := tokens, limit := limit,
    npos := npos }

/-- A run entry goes on from the one before it: same operand, next bank, first column (R136, R214). -/
def runGoesOn (a b : BitVec 64) : Bool :=
  fieldNat a 26 2 == fieldNat b 26 2 && fieldNat b 22 4 == fieldNat a 22 4 + 1 && fieldNat b 0 5 == 0

/-- The cost of a slice's runs by Table 6-7, in tenths of a nanosecond; a run that wraps to the next bank is one. -/
def runCost (entries : List (BitVec 64)) : Nat :=
  (entries.foldl (fun (acc : Nat × Option (BitVec 64)) e =>
    let fresh := match acc.2 with | some p => !runGoesOn p e | none => true
    (acc.1 + (if fresh then 5 else 0) + 2 * fieldNat e 32 32, some e)) (600, none)).1

/-- What the slice of a context would do on its banks, with its operands as they stand (R126, R214): the places of its
operands, and its work. A run list that cannot be read makes all it returns carry poison (R277). -/
def sliceRun (s : State) (c ctx : Nat) (banks : BitVec 16) (tokens : List Nat) (limit npos : Nat) :
    List Place × List Place × SliceOut :=
  let pb := parmBlock s c ctx
  let es := runEntries s c pb
  let pa := runPlaces c banks es 0
  let pbs := runPlaces c banks es 1
  let fixed := if fieldNat pb 0 8 = 4 then 600 + 2 * (runCost es - 600) else runCost es
  let x := sliceInput pb (pa.map (fun p => secVal (stkRead s p))) (pbs.map (fun p => secVal (stkRead s p))) tokens limit npos
  let idle : SliceOut := { outs := [], writes := [], resume := 0#32, idxoor := 0, cost := runCost es, free := s.free
                           usedA := [], usedB := [], usedV := [] }
  let r := if 1 ≤ x.op ∧ x.op ≤ 9 then runSlice x (fun i => secVal (vbufRead s c i)) fixed s.free else idle
  (pa, pbs, if (runSecs pb).any (fun i => sectorBad (vbufRead s c i)) then { r with outs := r.outs.map SecVal.spoil } else r)

/-- A context's outputs move into its output area as far as it has room, from output number `n` on (R185, R214). -/
def fillOuts (s : State) (c ctx : Nat) : State :=
  let v := (stk s c).ctx ctx
  let n := min (v.outLen - v.ready) v.wait.length
  let s := ((v.wait.take n).zipIdx).foldl (fun t e =>
    modStk t c (fun y => vbufWrite s.stack c y (v.outOfs + (v.head + v.ready + e.2) % v.outLen) e.1)) s
  modStk s c (fun y => y.setCtx ctx { y.ctx ctx with wait := v.wait.drop n, ready := v.ready + n })

/-- The start of a context's slice on its banks (R214, R126): it reads its operands as they stand, and its
outputs and status follow over its bank time. -/
def startSlice (s : State) (c ctx : Nat) (banks : BitVec 16) (tokens : List Nat) (limit npos : Nat) : State :=
  let pb := parmBlock s c ctx
  let (pa, pbs, r) := sliceRun s c ctx banks tokens limit npos
  let reads := (r.usedA.filterMap (fun i => pa[i]?) ++ r.usedB.filterMap (fun i => pbs[i]?)).map (fun p => (p, stkRead s p))
  let vce := ((runSecs pb ++ r.usedV).map (fun i => ceCount (vbufRead s c i))).sum
  let dst := r.writes.filterMap (fun w => (if w.1 then pbs else pa)[w.2.1]?.map (fun p => (p, w.2.2.sector)))
  let s := modStk s c (fun y => sliceActs y (reads.map (·.1) ++ dst.map (·.1)))
  let s := dst.foldl (fun t w => stkWrite t w.1 w.2) s
  let s := { s with free := r.free }
  let s := modStk s c (fun y =>
    let v := y.ctx ctx
    let v := { v with st := .running, raw := false, banks := banks, pausedBanks := 0, wait := r.outs.map SecVal.sector
                      ready := 0, head := 0, ce := (reads.map (fun e => ceCount e.2)).sum + vce, resume := r.resume
                      ues := ((reads.filter (fun e => sectorBad e.2)).map (·.1)).eraseDups, idxoor := r.idxoor
                      used := 0, stalled := 0, mark := s.time.cyc, cost := r.cost, outOfs := fieldNat pb 192 16
                      outLen := fieldNat pb 208 16, wrote := dst.map (·.1) }
    let y := y.setCtx ctx v
    { y with rsv := (List.range 16).foldl (fun t b => if banks.getLsbD b then Tab.put t b ctx else t) y.rsv })
  fillOuts s c ctx

/-- The state that SRD reports: a slice is done when its bank time has passed and its outputs fit their area
(R148, R185, R215; log 15). -/
def ctxState (now : Nat) (v : Ctx) : CtxSt :=
  match v.st with
  | .running =>
    if (v.upTo now).used < v.whole then .running else if v.wait.isEmpty then .done else .stalled
  | st => st

/-- The code of a context state (Table 8-6). -/
def CtxSt.code : CtxSt → Nat
  | .idle => 0 | .running => 1 | .paused => 2 | .stalled => 3 | .done => 4 | .aborted => 5

/-- Outputs that wait for PRD: those in the output area, once the slice's work is done (R215). -/
def Ctx.outrdy (now : Nat) (v : Ctx) : Nat := if (v.upTo now).used < v.whole then 0 else v.ready

/-- The status sector of a context (Table 8-6). -/
def statusSector (gen c ctx now : Nat) (v : Ctx) : Sector :=
  if v.raw then sectorOf (rawStatus gen c ctx)
  else
    let ue := fun i => match v.ues[i]? with | some p => oprForm p | none => 0
    let d : Nat := (ctxState now v).code + min (v.outrdy now) 65535 * 2 ^ 16 + v.ce % 2 ^ 32 * 2 ^ 32 + v.resume.toNat * 2 ^ 64 +
      min v.ues.length 65535 * 2 ^ 96 + min ((v.upTo now).used / 10) 65535 * 2 ^ 112 + ue 0 * 2 ^ 128 + ue 1 * 2 ^ 160 +
      ue 2 * 2 ^ 192 + v.idxoor % 2 ^ 32 * 2 ^ 224
    sectorOf (BitVec.ofNat 256 d)

/-- The banks of a context are released IDLE with rows closed (R127, R215). -/
def releaseBanks (x : StkChan) (ctx : Nat) : StkChan :=
  { x with rsv := x.rsv.filter (fun e => e.2 != ctx) }

/-- What an aborted slice had written is left as valid codewords of undefined value (R172, log 6). -/
def scrambleWrote (s : State) (ps : List Place) : State :=
  ps.foldl (fun t p =>
    let (v, t) := takeFree 256 t
    stkWrite t p (sectorOf v)) s

/-- The abort of a context (SLX, R217): its outputs are discarded and its banks released. -/
def abortCtx (s : State) (c ctx : Nat) : State :=
  let v := (stk s c).ctx ctx
  if v.st = .idle ∨ v.st = .aborted then s
  else
    let s := if v.st = .done ∨ ctxState s.time.cyc v = .done then s else scrambleWrote s (v.wrote.map (fun p => { p with ch := c }))
    modStk s c (fun x =>
      releaseBanks (x.setCtx ctx { v.upTo s.time.cyc with st := .aborted, wait := [], ready := 0, wrote := [], pausedBanks := 0 }) ctx)

/-! ### The spare at the stack's end (R213, R244) -/

/-- The role that the last LANE gives a spare. -/
def StkLane.mode (x : StkLane) : LaneMode := { wire := if x.sel then some x.wire else none, pat := x.pat }
/-- The role of a spare in a burst that begins in cycle t. -/
def StkLane.modeAt (x : StkLane) (t : Nat) : LaneMode := if x.from_ ≤ t then x.mode else x.was

/-- The stack's lane state of a half-channel. -/
def StkChan.lane (x : StkChan) (h : Nat) : StkLane := Tab.get x.lanes h StkLane.reset

/-- A half-channel's PRBS7 checker hears a write burst: SR_LN_ERR counts the mismatches of the covered wire while PAT = 1
(R213, R244). -/
def laneHears (x : StkChan) (h : Nat) (t : Nat) (d : LaneMode) (prbs : Byte) (noise : BitVec 320) (g : Granule) : StkChan :=
  let l := x.lane h
  match (l.modeAt t).pat, (l.modeAt t).wire with
  | true, some i =>
    let (n, hist) := prbsCheck l.hist (wireShows d prbs noise h g i)
    { x with lnErr := x.lnErr + BitVec.ofNat 32 n, lanes := Tab.put x.lanes h { l with hist := hist } }
  | _, _ => x

/-- The number of a wire within its half-channel, as LANE names it (R213). -/
def laneWire (w : Nat) : Nat := if w < 32 then w % 16 else 16 + (w - 32) % 3

/-- The role of a spare that the block's last LANE gives it. -/
def SpareWire.mode (x : SpareWire) : LaneMode := { wire := x.wire.map laneWire, pat := x.pat }
/-- The block's role for a spare in a burst that begins at the stack in core cycle t (R213). -/
def SpareWire.modeAt (x : SpareWire) (t : Nat) : LaneMode := if x.from_ ≤ t then x.mode else x.was

/-- The block's role for the spare of half-channel h in a burst that begins at the stack in cycle t (R213). -/
def blockLane (c : Chan) (h t : Nat) : LaneMode := (Tab.get c.spares h SpareWire.reset).modeAt t

/-- A write burst as the stack receives it, beginning in cycle t: what the wires add to it, the block's PRBS7 on covered
wires, and the stack's count of its mismatches (R207, R213, R244). -/
def writeBurst (s : State) (c t : Nat) (d : Sector) (noise : BitVec 320) : Sector × State :=
  let x := chan s c
  let y := stk s c
  let prbs := fun (h : Nat) => (prbs7 (Tab.get x.spares h SpareWire.reset).tx).1
  let one := fun (h : Nat) (g : Granule) => throughWires (blockLane x h t) ((y.lane h).modeAt t) (prbs h) noise h g
  let s := modStk s c (fun y => laneHears (laneHears y 0 t (blockLane x 0 t) (prbs 0) noise d.g0) 1 t (blockLane x 1 t) (prbs 1) noise d.g1)
  let s := modChan s c (fun x =>
    { x with spares := x.spares.map (fun e => (e.1, if (blockLane x e.1 t).pat then { e.2 with tx := (prbs7 e.2.tx).2 } else e.2)) })
  (⟨one 0 d.g0, one 1 d.g1⟩, s)

/-! ### Delivery of wire commands -/

/-- The core cycle in which a row command went out, if it is at the front of the wires; else now. -/
def rowTime (s : State) (c : Nat) (i : Instr) : Nat :=
  match (chan s c).rowOut with
  | (t, h) :: _ => if h = i then t else s.time.cyc
  | [] => s.time.cyc

/-- The command at the front of a channel's row wires, if it is this one, has reached the stack. -/
def takeRow (s : State) (c : Nat) (i : Instr) : State :=
  match (chan s c).rowOut with
  | h :: t => if h.2 = i then modChan s c (fun x => { x with rowOut := t }) else s
  | [] => s

/-- The core cycle in which a column command went out, if it is at the front of the wires; else now. -/
def colTime (s : State) (c : Nat) (i : Instr) : Nat :=
  match (chan s c).colOut with
  | (t, h) :: _ => if h = i then t else s.time.cyc
  | [] => s.time.cyc

/-- The order of the command at the front of a channel's column wires, or 0 where this is another. -/
def colOrder (s : State) (c : Nat) (i : Instr) : Nat :=
  let x := chan s c
  match x.colOut with
  | h :: _ => if h.2 = i then x.order + 1 - x.colOut.length else 0
  | [] => 0

/-- The command at the front of a channel's column wires, if it is this one, has reached the stack. -/
def takeCol (s : State) (c : Nat) (i : Instr) : State :=
  match (chan s c).colOut with
  | h :: t => if h.2 = i then modChan s c (fun x => { x with colOut := t }) else s
  | [] => s

/-- A channel's stack hears its wires: on, and neither in self-refresh nor in power-down (R267, R268). -/
def stkAwake (s : State) (c : Nat) : Bool :=
  stackOn s && !(stk s c).selfRefresh && !(stk s c).powerDown

/-- A burst that the stack returns to the column command of cycle t. -/
def pushBurst (s : State) (c t order : Nat) (d : Sector) (alert : Bool) : State :=
  modStk s c (fun x => { x with ret := x.ret ++ [{ g0 := d.g0, g1 := d.g1, alert := alert, order := order, at_ := t + stkRl s }] })

/-- The alert pattern, 0x55 on every data-type wire (R216). -/
def alertSector : Sector :=
  let g : Granule := BitVec.ofNat 152 ((List.range 19).foldl (fun a _ => a * 256 + 0x55) 0)
  ⟨g, g⟩

/-- A column command is noted for the timing of the next ones; g is its bank group, 4 where it has none. -/
def StkChan.noteCol (x : StkChan) (g t : Nat) (read : Bool) : StkChan :=
  { x with col := x.col + 1, lastCol := some t, colAt := Tab.put x.colAt g t
           lastRd := if read then some t else x.lastRd, lastWr := if read then x.lastWr else some t }

/-- A read-type command of cycle t: in ALERT, or too early, it is answered with the alert pattern, else by `f` (R216). -/
def stkReadCmd (s : State) (c t o g : Nat) (f : State → State) : State :=
  if !stkAwake s c then s
  else if (stk s c).alert then pushBurst s c t o alertSector true
  else if !stkColOk s.stkTim (stk s c) g t true then pushBurst (enterAlert s c 4) c t o alertSector true
  else f (modStk s c (fun x => x.noteCol g t true))

/-- A write-type command of cycle t, with its burst: ignored in ALERT, a breach where it is too early, else `f` with the
sector as received (R216). -/
def stkWriteCmd (s : State) (c t g : Nat) (d : Sector) (noise : BitVec 320) (f : Sector → State → State) : State :=
  if !stkAwake s c || (stk s c).alert then s
  else if !stkColOk s.stkTim (stk s c) g t false then enterAlert s c 4
  else
    let (x, s) := writeBurst (modStk s c (fun x => x.noteCol g t false)) c (t + stkWl s) d noise
    f x s

/-- A row command: executed by an awake stack, in ALERT only where `inAlert` (R216). -/
def stkRowCmd (s : State) (c : Nat) (inAlert : Bool) (f : State → State) : State :=
  if !stkAwake s c || ((stk s c).alert && !inAlert) then s else f s

/-- Column access of cycle t to an open half of an unreserved bank, RCD after its activate: `f` with the open row and
whether it is a field spare; otherwise ALERT (R216). -/
def withOpenRow (s : State) (c t b h : Nat) (f : Nat → Bool → State) (bad : State → State) : State :=
  let x := stk s c
  match Tab.find x.opens (halfKey b h) with
  | none => bad (enterAlert s c 3)
  | some (row, spare) =>
    if (Tab.find x.rsv b).isSome then bad (enterAlert s c 3)
    else if !since x.tAct (halfKey b h) t s.stkTim.rcd then bad (enterAlert s c 4)
    else f row spare

/-- RDA and WRA close their half at the earliest time that Table 5-1 allows (R212). -/
def autoClose (s : State) (c t b h : Nat) : State :=
  modStk s c (fun x => stkClose (max t (stkPreFrom s x (halfKey b h))) x b h)

/-- RD and RDA: the sector of the open row on the wires; RDA closes the half (R208, R212). -/
def stkColRead (s : State) (c t b h col o : Nat) (auto : Bool) : State :=
  withOpenRow s c t b h
    (fun row spare =>
      let s := pushBurst s c t o (arrRead s c spare b row col) false
      let s := modStk s c (fun x => { x with tRd := Tab.put x.tRd (halfKey b h) t })
      if auto then autoClose s c t b h else s)
    (fun s => pushBurst s c t o alertSector true)

/-- WR and WRA: the sector on the wires is stored in the open row; WRA closes the half (R208, R212). -/
def stkColWrite (s : State) (c t b h col : Nat) (d : Sector) (auto : Bool) : State :=
  withOpenRow s c t b h
    (fun row spare =>
      let s := modStk s c (fun x => { arrWrite s.stack c x spare b row col d with tWr := Tab.put x.tWr (halfKey b h) t })
      if auto then autoClose s c t b h else s)
    (fun s => s)

/-- Corrections of command wires are counted in SR_CMD_CE0 to 9, wire 40 + k in counter k, saturating (R211, Table 8-9). -/
def noteFixed (s : State) (c : Nat) (ks : List Nat) : State :=
  modStk s c (fun x => { x with cmdCe := ks.foldl (fun t k => Tab.put t k (min 65535 (Tab.get t k 0 + 1))) x.cmdCe })

/-- A command that is not executed puts an awake stack into ALERT (R211, R216). -/
def breach (s : State) (c cause : Nat) : State :=
  if stkAwake s c && !(stk s c).alert then enterAlert s c cause else s

end Sys2Proof.Machine
end

