-- ==== Sys2Proof/Machine/Channel.lean ====
section
/-! DEFINITION. A channel's queues: joining with the hazard rules, the Liner, the readiness of entries, the grant
and what a started grant sends (04, 05). -/

namespace Sys2Proof.Machine

/-! ### Settings -/

/-- A timing set as used: zero fields count as 1, RC at least RAS + RP (R128). -/
structure Tim where
  rcd : Nat
  rp : Nat
  ras : Nat
  rc : Nat
  faw : Nat
  rrdS : Nat
  rrdL : Nat
  wr : Nat
  rtp : Nat
  ccdS : Nat
  ccdL : Nat
  wtr : Nat
  rtw : Nat
  rfc : Nat
  deriving DecidableEq, Repr

/-- The active timing set of channel c (Table 5-5). -/
def tim (s : State) (c : Nat) : Tim :=
  let pg := chPage c
  let b := if regB s pg 0x120 0 then 0x110 else 0x100
  let f := fun o lo w => max 1 (regF s pg (b + o) lo w)
  { rcd := f 0 0 8, rp := f 0 8 8, ras := f 0 16 8, rc := max (f 0 24 8) (f 0 16 8 + f 0 8 8), faw := f 4 0 8,
    rrdS := f 4 8 4, rrdL := f 4 12 4, wr := f 4 16 8, rtp := f 4 24 8, ccdS := f 8 0 6, ccdL := f 8 8 6, wtr := f 8 16 6,
    rtw := f 8 24 6, rfc := f 12 0 12 }

/-- Core cycles per slot at the point in force (R96). -/
def slotLen (s : State) : Nat := 2 * 2 ^ s.hk.point

/-- Core cycles per window (R96). -/
def winLen (s : State) : Nat := 64 * slotLen s

/-- SLACK of a channel, in ticks. -/
def slack (s : State) (c : Nat) : Int := regF s (chPage c) 0x040 0 10

/-- BATCH_MAX of a channel; 0 is used as 1. -/
def batchMax (s : State) (c : Nat) : Nat := max 1 (regF s (chPage c) 0x040 16 6)

/-- Writes may not start: write-forbid holds or the block is in TRIP (R308, R309). -/
def writeForbidden (s : State) : Bool := s.thm.forbid || s.thm.w == .trip

/-- The attributes that an entry's events count with (R387, R388). -/
def ownerAttr (s : State) (o : Owner) (cls : Cls) : Attr :=
  let ofReq := fun id => match findReq s id with | some r => r.attr | none => internalAttr cls
  match o with
  | .port id _ => ofReq id
  | .crown k j =>
    match (oct s k).jobs.find? (fun x => x.jid == j) with
    | some x => (match x.req with | some id => ofReq id | none => internalAttr cls)
    | none => internalAttr cls
  | .slice d => (match Tab.find s.disp.ops d with | some op => ofReq op.req | none => internalAttr cls)
  | _ => internalAttr cls

/-! ### Sectors of entries -/

/-- Place of sector i of an entry. -/
def Entry.at (e : Entry) (i : Nat) : Place := { e.place with col := e.place.col + i }

/-- The entry moves array sectors; vector-buffer and context transfers carry bank 16 or above. -/
def Entry.onArray (e : Entry) : Bool := decide (e.place.bank < 16)

/-- Sector i still needs a transfer: a write not replaced by a later one, a read not served by forwarding. -/
def Entry.needs (e : Entry) (i : Nat) : Bool :=
  if e.write then (e.mask.getD i fullMask) != 0
  else !(e.overlays.any (fun o => o.ofs == i && o.mask == fullMask))

/-- The next sector of an entry to be granted. -/
def Entry.next (e : Entry) : Option Nat := (List.range e.n).find? (fun i => decide (e.done ≤ i) && e.needs i)

/-- Sector at a place that an entry has still to transfer, by index. -/
def Entry.has (e : Entry) (p : Place) : Option Nat :=
  (List.range e.n).find? (fun i => decide (e.done ≤ i) && e.needs i && decide (e.at i = p))

/-- Internal rewrites, which write-forbid and newer writes cancel (R117, R284). -/
def Owner.isRewrite : Owner → Bool
  | .writeBack => true
  | .recon _ _ _ => true
  | _ => false

/-- Remap copies. -/
def Owner.isRemap : Owner → Bool
  | .remap => true
  | _ => false

/-- Accesses of a reconstruction to the row that it holds. -/
def Owner.rebuilds (o : Owner) (c bank row : Nat) : Bool :=
  match o with | .recon c' b r => c == c' && bank == b && row == r | _ => false

/-- Reads and writes that a repair or a reconstruction makes of the rows that it holds: no lock and no hazard keeps them,
since the accesses that they would wait for wait for them (R290, R294). -/
def Owner.ofHold : Owner → Bool
  | .recon _ _ _ => true
  | .remap => true
  | .replay => true
  | _ => false

/-- The lock on a place, if any: its Crown and its job, which keeps the serial at which it was taken (R201). -/
def lockOn (s : State) (p : Place) : Option (Nat × Job) :=
  s.octs.findSome? (fun e =>
    match e.2.locks.find? (fun l => l.2 == p) with
    | some (j, _) => (e.2.jobs.find? (fun x => x.jid == j)).map (fun x => (e.1, x))
    | none => none)

/-- A job owns an entry. -/
def Owner.isJob (o : Owner) (k j : Nat) : Bool := match o with | .crown k' j' => k == k' && j == j' | _ => false

/-- Sector p is locked against entry e: another's lock taken before e joined (R24, R115). -/
def lockedOut (s : State) (e : Entry) (p : Place) : Bool :=
  match lockOn s p with
  | some (k, j) => !e.owner.ofHold && !e.owner.isJob k j.jid && decide (j.seq ≤ e.seq)
  | none => false

/-- Held fragments wait for a place (R198). -/
def heldOn (s : State) (p : Place) : Bool := (oct s (octOf p.ch)).held.any (fun h => h.place == p)

/-- A domain has a clock (Table 13-2, R333). -/
def clocked (s : State) (d : Nat) : Bool := !s.clk.stopped.getLsbD d && (decide (92 ≤ d) || s.clk.coreRun)

/-! ### The Liner (R117-R122) -/

/-- HIWAT of a channel (Table 5-5). -/
def hiwat (s : State) (c : Nat) : Nat := max 1 (min 32 (regF s (chPage c) 0x044 16 6))

/-- The Liner entries of a sector, oldest first. -/
def linersAt (c : Chan) (p : Place) : List Liner := c.liner.filter (fun l => l.place == p)

/-- An entry is sent to EVICTING: its sector is read (R119, R120). -/
def evict (s : State) (c serial : Nat) (cls : Cls) (dl : Int) : State :=
  match (chan s c).liner.find? (fun l => l.serial == serial && l.st == .merging) with
  | none => s
  | some l =>
    let s := modChan s c (fun x =>
      { x with liner := x.liner.map (fun y => if y.serial = serial then { y with st := .evicting, evDl := dl } else y) })
    let s := evCh s c 0x0F 1 none
    enqueue s (newEntry s (.evict serial) 18 cls dl false false (onePiece l.place l.vault none))

/-- Pressure: MERGING entries are evicted, oldest first, while MERGING and EVICTING together reach HIWAT (R119). -/
def linerPressure (s : State) (c : Nat) : State :=
  let merging := (chan s c).liner.filter (fun l => l.st == .merging)
  let extra := merging.length + 1 - hiwat s c
  if hiwat s c ≤ merging.length then
    (merging.take extra).foldl (fun t l => evict t c l.serial .bl (synthDl t .rt)) s
  else s

/-- Every MERGING entry that a test picks is evicted with the RT horizon (R119). -/
def evictAll (s : State) (c : Nat) (pick : Liner → Bool) : State :=
  ((chan s c).liner.filter (fun l => l.st == .merging && pick l)).foldl
    (fun t l => evict t c l.serial .bl (synthDl t .rt)) s

/-- A partial sector merges into its Liner entry, or takes a new one (R118, R122). An entry keeps the deadline of its
oldest write. -/
def linerMerge (s : State) (p : Place) (v : Option Vault) (cls : Cls) (dl : Int) (bytes : BitVec 256) (m : BitVec 32)
    (req : Option Nat) (a : Attr) : State :=
  let c := chan s p.ch
  let s := evCh s p.ch 0x0E 1 (some a)
  match c.liner.find? (fun l => l.place == p && (l.st == .merging || l.st == .full)) with
  | some l =>
    let mask := l.mask ||| m
    let l' := { l with plain := mergeBytes l.plain bytes m, mask := mask
                       st := if mask = fullMask then .full else l.st, reqs := l.reqs ++ req.toList }
    linerPressure (setChan s p.ch { c with liner := c.liner.map (fun x => if x.serial = l.serial then l' else x) }) p.ch
  | none =>
    let l : Liner :=
      { serial := c.serial, place := p, plain := mergeBytes 0 bytes m, mask := m, dl := dl, evDl := dl,
        st := if m = fullMask then .full else .merging, born := s.time.tick, vault := v, cls := cls,
        reqs := req.toList, readBack := none }
    let s := setChan s p.ch { c with liner := c.liner ++ [l], serial := c.serial + 1 }
    if v.isSome then evict s p.ch l.serial .bl (synthDl s .rt) else linerPressure s p.ch

/-! ### Joining the command queue (R91, R115, R121) -/

/-- An undelivered read has met a newer write of a sector: what it brings is no longer written back (R117). -/
def Entry.met (p : Place) (e : Entry) : Entry :=
  match (if e.write then none else (List.range e.n).find? (fun i => decide (e.at i = p))) with
  | some i => { e with newer := i :: e.newer }
  | none => e

/-- Rewrites of a sector are cancelled by a newer write (R117): queued ones leave, write-backs of the place are counted
done with no verify (R283), and reads of it under way bring nothing to write back. -/
def cancelRewrites (c : Chan) (p : Place) : Chan :=
  let keep := fun (e : Entry) => !((e.owner == .writeBack || (e.owner.isRewrite && e.write)) && decide (e.place = p))
  { c with rq := c.rq.filter keep, cmdq := (c.cmdq.filter keep).map (Entry.met p), wbs := c.wbs.filter (fun w => w.place != p)
           inflight := c.inflight.map (fun f => match f.what with
             | .data e q => { f with what := .data (e.met p) q }
             | _ => f) }

/-- A sector is overlaid on every read of its place that joined before and has not been delivered; `first` puts it ahead of
what the read took when it joined (R24, R198). `d` is what each such read gets, and `n` the order of the write. -/
def overlayReads (c : Chan) (p : Place) (d : Entry → Sector) (n : Nat) (first : Bool) (pick : Entry → Bool) : Chan :=
  let put := fun (e : Entry) =>
    match (if !e.write && pick e then (List.range e.n).find? (fun i => decide (e.at i = p)) else none) with
    | some i =>
      let o : Overlay := { ofs := i, mask := fullMask, data := d e, seq := n }
      { e with overlays := if first then o :: e.overlays else e.overlays ++ [o] }
    | none => e
  { c with cmdq := c.cmdq.map put
           inflight := c.inflight.map (fun f => match f.what with
             | .data e pl => { f with what := .data (put e) pl }
             | _ => f) }

/-- An entry takes its place in the command queue, which stands in the order of `seq`: a Crown's entry has the order of its
lock (R24). -/
def intoQueue (e : Entry) : List Entry → List Entry
  | [] => [e]
  | q :: t => if e.seq < q.seq then e :: q :: t else q :: intoQueue e t

/-- The newest queued whole-sector write of a place that is not yet granted, among those ordered before `n`: its entry and
the sector's index. A remap's copy into a spare is no write of the place. -/
def writeBefore (c : Chan) (p : Place) (n : Nat) : Option (Entry × Nat) :=
  (c.cmdq.reverse.find? (fun e => e.write && e.onArray && e.spare.isNone && decide (e.seq < n) && (e.has p).isSome)).bind (fun e =>
    (e.has p).map (fun i => (e, i)))

/-- The newest queued whole-sector write of a place that is not yet granted. -/
def queuedWrite (c : Chan) (p : Place) : Option (Entry × Nat) :=
  (c.cmdq.reverse.find? (fun e => e.write && e.onArray && e.spare.isNone && (e.has p).isSome)).bind (fun e =>
    (e.has p).map (fun i => (e, i)))

/-- What a joining read of order n takes by forwarding for a place, oldest first: from the newest queued write, then from
the Liner, whose bytes are newer (R115, R121). -/
def forwardFor (c : Chan) (p : Place) (i n : Nat) : List Overlay :=
  let w := match writeBefore c p n with
    | some (e, j) => (match e.data[j]? with | some d => [{ ofs := i, mask := fullMask, data := d, seq := e.seq }] | none => [])
    | none => []
  w ++ (linersAt c p).map (fun l => { ofs := i, mask := l.mask, data := sectorOf l.plain, seq := l.serial })

/-- Bank half states give the class of an access at joining (R110). -/
def hitClass (s : State) (c : Chan) (e : Entry) : Nat :=
  let h := c.half e.place.bank (halfOf s e.place.row)
  let (row, sp) := entryRow s c e
  match h.st with
  | .open_ => if h.row = row ∧ h.spare = sp then 0 else 2
  | .activating => if h.row = row ∧ h.spare = sp then 0 else 2
  | _ => 1

/-- One sector of a joining whole-sector write: an earlier queued write takes its data, and the Liner's entry is
cleared (Table 5-2); the mask of the joining sector tells whether it still needs a transfer. -/
def joinSector (s : State) (c : Chan) (e : Entry) (i : Nat) : Chan × BitVec 32 :=
  let p := e.at i
  let c := cancelRewrites c p
  let c := { c with liner := c.liner.filter (fun l => l.place != p)
                    rq := c.rq.filter (fun q => match q.owner with
                      | .evict n => !(linersAt c p).any (fun l => l.serial == n)
                      | _ => true)
                    cmdq := c.cmdq.filter (fun q => match q.owner with
                      | .evict n => q.write || !(linersAt c p).any (fun l => l.serial == n)
                      | _ => true) }
  match writeBefore c p e.seq with
  | some (w, j) =>
    if lockedOut s e p then (c, fullMask)
    else
      let w' := { w with data := w.data.set j (e.data.getD i zeroSector), dl := min w.dl e.dl }
      ({ c with cmdq := c.cmdq.map (fun q => if q.seq = w.seq then w' else q) }, 0#32)
  | none => (c, fullMask)

/-- An overlay's bytes over a sector: a whole sector replaces it as it stands; under a partial one a sector that is bad
stays poisoned (R116, R282). -/
def applyOverlay (d : Sector) (o : Overlay) : Sector :=
  if o.mask = fullMask then o.data
  else
    let x := sectorOf (mergeBytes (plain d) (plain o.data) o.mask)
    if sectorBad d then poisonSector x else x

/-- The bytes of an entry's overlays over a sector read from the array, oldest first (R116, R121). -/
def applyOverlays (e : Entry) (i : Nat) (d : Sector) : Sector :=
  (e.overlays.filter (fun o => o.ofs == i)).foldl applyOverlay d

/-- Forwarding serves a sector of a read whole (R121). -/
def Entry.whole (e : Entry) (i : Nat) : Bool := e.overlays.any (fun o => o.ofs == i && o.mask == fullMask)

/-- A sector of a read that forwarding serves whole (R121). -/
def servedAt (e : Entry) (i : Nat) : Option Sector :=
  if e.whole i then some (applyOverlays e i zeroSector) else none

/-- The order of the newest whole write that sector i of a read takes by forwarding. -/
def Entry.taken (e : Entry) (i : Nat) : Nat :=
  (e.overlays.filter (fun o => o.ofs == i && o.mask == fullMask)).foldl (fun m o => max m o.seq) 0

/-- The held fragments that a read adds to sector i, in arrival order: those held when it joined, but for fragments that a
write it takes is to overwrite (R198). -/
def heldOver (s : State) (e : Entry) (i : Nat) (p : Place) : List Held :=
  (oct s (octOf p.ch)).held.filter (fun h => h.place == p && decide (h.seq ≤ e.seq) && decide (e.taken i ≤ h.seq))

/-- Fragments added to a sector, each in its own element type (R198, R199). -/
def addHeld (hs : List Held) (d : Sector) : Sector :=
  hs.foldl (fun t h => sectorOf (reduceOp h.etype (plain t) (plain (correctSector h.data)))) d

/-- What an unlisted scratch granule reads as: zeroised at boot and before a scratch test, and undefined after a fault whose
scope includes the Crown (R194). -/
def scratchDflt (o : Oct) (k key : Nat) : Granule :=
  match o.lost with | some n => Config.lostScratch n k key | none => 0#152

/-- Scratch sectors of octant k have been decoded: their errors are counted, and an uncorrectable one latches (R180). -/
def scratchErrs (s : State) (k : Nat) (xs : List Sector) : State :=
  let ce := (xs.map ceCount).sum
  let ue := (xs.map (fun x => (if granuleBad x.g0 then 1 else 0) + (if granuleBad x.g1 then 1 else 0))).sum
  let s := if 0 < ce then bumpReg s (octPage k) 0x098 0 16 ce else s
  if 0 < ue then latch (bumpReg s (octPage k) 0x098 16 16 ue) (octPage k) 5 else s

/-! ### Readiness and the gate (R98, R99, R109, R112-R114) -/

/-- A slice waiting in the slice queue ranks on its banks by its key (R123). -/
def Slice.key (x : Slice) : Key := { dl := x.dl, cls := Cls.num x.cls, joined := x.seq, pos := 17 }

/-- Banks of the running slices. -/
def runningBanks (c : Chan) : BitVec 16 := c.running.foldl (fun a e => a ||| e.2.banks) 0#16

/-- The pending slice of a channel: the first waiting slice whose banks no running slice holds, and which may start while
writing is forbidden (R123, R173). -/
def pendingSlice (s : State) (c : Chan) : Option Slice :=
  c.sliceq.find? (fun x => x.banks &&& runningBanks c == 0#16 && !(x.writes && writeForbidden s))

/-- The pending slice of a channel names bank b. -/
def slicePends (s : State) (c : Chan) (b : Nat) : Bool :=
  match pendingSlice s c with | some x => x.banks.getLsbD b | none => false

/-- A running slice is paused on bank b, which stays reserved for it (R101, R127). -/
def pausedBank (c : Chan) (b : Nat) : Bool := c.running.any (fun e => e.2.pausedBanks.getLsbD b)

/-- A bank is reserved by a slice. -/
def reserved (c : Chan) (b : Nat) : Bool := (c.half b 0).st == .reserved

/-- URGENT of a channel, 1 to 7 (Table 10-7). -/
def urgent (s : State) (c : Nat) : Nat := max 1 (min 7 (regF s (chPage c) 0x060 4 4))

/-- The refresh of a bank heads it: a Gauntlet, an owed REF, or a debt that has reached URGENT (Table 10-2). -/
def refreshHeads (s : State) (ci : Nat) (c : Chan) (b : Nat) : Bool :=
  let k := c.bank b
  k.gauntlet || decide (0 < k.owed) || decide ((urgent s ci : Int) ≤ k.debt) || (k.afterSlice && decide (1 ≤ k.debt))

/-- A row is held by a reconstruction or a repair (R290, R294). -/
def rowHeld (c : Chan) (b row : Nat) : Bool :=
  c.heldRows.contains (b, row) || c.recon.any (fun r => r.place.bank == b && r.place.row == row)

/-- An entry's row is held against it: a reconstruction's own accesses and a remap's copies go on. -/
def heldAgainst (c : Chan) (e : Entry) : Bool := rowHeld c e.place.bank e.place.row && !e.owner.ofHold

/-- The entries that the scheduler looks at: while a recovery sends transfers again, the next one of them alone (R217). -/
def Chan.work (c : Chan) : List Entry := match c.replayq with | [] => c.cmdq | e :: _ => [e]

/-- Entries on a bank half that still have a transfer and whose row is not held. -/
def entriesOn (s : State) (c : Chan) (b h : Nat) : List Entry :=
  c.work.filter (fun e => e.onArray && e.place.bank == b && halfOf s e.place.row == h && e.next.isSome && !heldAgainst c e)

/-- An entry of the command queue lies on a bank. -/
def entryOn (c : Chan) (b : Nat) : Bool := c.work.any (fun e => e.onArray && e.place.bank == b)

/-- The drain of a frequency change or of a trip is under way (R270, R317). -/
def draining (s : State) : Bool := s.thm.tripPh == 1 || s.hk.freq == .drain

/-- MERGING entries on the banks of the pending slice, or of a channel that drains, are evicted (R119, R125). -/
def evictPending (s : State) (ci : Nat) : State :=
  evictAll s ci (fun l => draining s || slicePends s (chan s ci) l.place.bank)

/-- The queues of a channel are empty: no entry, no Liner entry, no slice (R265). -/
def chanEmpty (c : Chan) : Bool :=
  c.rq.isEmpty && c.cmdq.isEmpty && c.replayq.isEmpty && c.liner.isEmpty && c.slicer.isEmpty && c.sliceq.isEmpty && c.running.isEmpty

/-- The channel pulls in refreshes on its way to power-down, and nothing has arrived since (R265). -/
def Chan.sleepy (c : Chan) : Bool := (c.pd == .pulling || c.pd == .confirming) && chanEmpty c

/-- A recovery from ALERT holds channel c (R217). -/
def alertRecov (s : State) (c : Nat) : Bool :=
  s.recov.any (fun r => r.src == .alert && (match r.scope with | .channel d => d == c | .octant _ => false | .block => true))

/-- A grant that the sequences of a frequency change or a trip allow: in a drain Liner evictions, and what a recovery from ALERT
sends again, which goes on within it (R270, R272, R317). -/
def phaseAllows (s : State) (e : Entry) : Bool :=
  if s.thm.tripPh ≠ 0 then false
  else if s.hk.freq = .selfRefresh then false
  else if s.hk.freq = .drain then (match e.owner with | .evict _ => true | .replay => alertRecov s e.place.ch | _ => false)
  else true

/-- What the scheduler wants of a bank half (R112, R123, R125). -/
inductive Want where
  | nothing
  | close
  | offer (es : List Entry)
  | open_ (e : Entry)
  deriving DecidableEq, Repr

/-- An entry's row is the one open in a half. -/
def onOpenRow (s : State) (c : Chan) (h : Half) (e : Entry) : Bool :=
  decide (entryRow s c e = (h.row, h.spare))

/-- Crown entries. -/
def Owner.isCrown : Owner → Bool
  | .crown _ _ => true
  | _ => false

/-- Liner evictions. -/
def Owner.isEvict : Owner → Bool
  | .evict _ => true
  | _ => false

/-- An entry of a Crown that holds the lock on its sector (R24). -/
def holdsLock (s : State) (e : Entry) : Bool :=
  e.owner.isCrown && (match lockOn s e.place with | some (k, j) => e.owner.isJob k j.jid | none => false)

/-- What goes ahead on the banks of a pending slice: writes, the reads of evictions, and locked sectors (R24, R125). -/
def beforeSlice (s : State) (e : Entry) : Bool := e.write || e.owner.isEvict || holdsLock s e

/-- bank_head_state of R112, with a pending slice (R123, R125) and refresh (Table 10-2) as heads. -/
def halfWant (s : State) (ci : Nat) (c : Chan) (b h : Nat) : Want :=
  let x := c.half b h
  let isOpen := x.st == .open_ || x.st == .activating
  let all := entriesOn s c b h
  let bankBest := bestEntry c.rot (entriesOn s c b 0 ++ entriesOn s c b 1)
  let slicePend := match pendingSlice s c with
    | some p => p.banks.getLsbD b && (match bankBest with | some e => Key.before c.rot p.key e.key | none => true)
    | none => false
  let es := if slicePend then all.filter (beforeSlice s) else if draining s then all.filter (phaseAllows s) else all
  if x.st == .reserved || pausedBank c b then .nothing
  else if refreshHeads s ci c b then (if isOpen then .close else .nothing)
  else
    match bestEntry c.rot es with
    | none =>
      if isOpen && (slicePend || draining s || c.sleepy || (decide (1 ≤ (c.bank b).debt) && !entryOn c b) ||
          c.heldRows.any (fun r => r.1 == b && halfOf s r.2 == h) || c.nrfq.any (fun q => q.bank == b && (if q.spare then q.row / 32 % 2 else halfOf s q.row) == h)) then .close
      else .nothing
    | some head =>
      if !isOpen then .open_ head
      else if onOpenRow s c x head then .offer (es.filter (onOpenRow s c x))
      else
        let hits := es.filter (fun e => onOpenRow s c x e && decide (e.dl ≤ head.dl + slack s ci))
        if hits.isEmpty then .close else .offer hits

/-- The traffic of an entry is exempt from the power budget: its requester is, or it belongs to a remap or to the drain of a
frequency change (Table 12-4). -/
def exemptNow (s : State) (e : Entry) : Bool := e.exempt || e.owner.isRemap || s.hk.freq == .drain

/-- The channel's energy credit lets an entry be offered (R311). -/
def energyOk (c : Chan) (exempt : Bool) : Bool := exempt || decide (0 < c.credit)

/-- An entry writes only while writing is allowed: internal rewrites, remap copies, and the poisoning of a handle entry
(R82, R117, R284). -/
def Entry.waitsWriting (e : Entry) : Bool :=
  e.write && (e.owner.isRewrite || e.owner.isRemap || (match e.owner with | .hdl _ => e.data.any sectorBad | _ => false))

/-- Sector i of an entry is held by a hazard of R115, by a lock or by held fragments (R24, R198). Writes that a lock kept
apart go in their order. A read that waits behind a Crown's lock does not hold that Crown's write. -/
def heldBack (s : State) (c : Chan) (e : Entry) (i : Nat) : Bool :=
  let p := e.at i
  if e.owner.ofHold then false
  else
  lockedOut s e p || (e.write && (writeBefore c p e.seq).isSome) ||
  (e.write && c.cmdq.any (fun q => !q.write && decide (q.seq < e.seq) && (q.has p).isSome &&
    !(e.owner.isCrown && lockedOut s q p))) ||
  (e.write && !e.owner.isCrown && !e.owner.isEvict &&
    (oct s (octOf p.ch)).held.any (fun h => h.place == p && decide (h.seq ≤ e.seq)))

/-- The core cycle at which the next slot starts: a decision is made in the last cycle of a slot (R99). -/
def nextSlotAt (s : State) : Nat := s.time.cyc + 1

/-- CCD_S since the last column command, and CCD_L since the last one to bank group g, permit one to it at `now`; 4 is no
bank group (R109, R128). -/
def colOk (c : Chan) (t : Tim) (now g : Nat) : Bool :=
  (match c.lastCol with | some a => decide (a + t.ccdS ≤ now) | none => true) &&
    (match Tab.find c.colAt g with | some a => decide (g = 4 ∨ a + t.ccdL ≤ now) | none => true)

/-- A list operation (Table 6-2). -/
def OpForm.isList (f : OpForm) : Bool := f == .setxI || f == .setxU || f == .setxD || f == .expand || f == .filter

/-- Partial sectors of operation d from channel ci that its Crown has not taken yet (R185). -/
def inputHeld (s : State) (ci d : Nat) (c : Chan) : Nat :=
  (c.inflight.filter (fun f => match f.what with | .prd d' _ => d' == d | _ => false)).length +
    (c.partIn.filter (fun p => p.1 == d)).length +
    ((oct s (octOf ci)).queue.filter (fun q => match q.item with | .partialSec d' c' _ => d' == d && c' == ci | _ => false)).length

/-- A list operation's partial transfer finds no free sector in its Crown's input buffer of 8 KiB for the channel (R185, Table
7-6). -/
def inputFull (s : State) (ci : Nat) (c : Chan) (e : Entry) : Bool :=
  match e.owner with
  | .slice d =>
    e.place.bank == 17 && !e.write &&
      (match Tab.find s.disp.ops d with | some op => op.form.isList && decide (256 ≤ inputHeld s ci d c) | none => false)
  | _ => false

/-- An entry is ready for the next slot but for turnaround (R109). -/
def readyEntry (s : State) (ci : Nat) (c : Chan) (t : Tim) (e : Entry) : Bool :=
  match e.next with
  | none => false
  | some i =>
    let now := nextSlotAt s
    colOk c t now (if e.onArray then e.place.bank % 4 else 4) && phaseAllows s e && energyOk c (exemptNow s e) && !(e.waitsWriting && writeForbidden s) &&
      (if e.onArray then
        let h := c.half e.place.bank (halfOf s e.place.row)
        !heldBack s c e i && (h.st == .open_ || h.st == .activating) && decide (h.exit ≤ now) &&
          (match halfWant s ci c e.place.bank (halfOf s e.place.row) with
            | .offer es => es.any (fun q => q.seq == e.seq)
            | _ => false)
      else !inputFull s ci c e)

/-- The quota of a class (Table 4-5). -/
def ArbSet.quotaOf (a : ArbSet) (c : Cls) : Nat :=
  match c with
  | .lc => fieldNat a.quota 0 7 | .rt => fieldNat a.quota 8 7 | .bl => fieldNat a.quota 16 7 | .mt => fieldNat a.quota 24 7

/-- The count of a class. -/
def Counts.of (k : Counts) (c : Cls) : Nat := match c with | .lc => k.lc | .rt => k.rt | .bl => k.bl | .mt => k.mt

/-- The count of a class raised by one. -/
def Counts.bump (k : Counts) (c : Cls) : Counts :=
  match c with
  | .lc => { k with lc := k.lc + 1 } | .rt => { k with rt := k.rt + 1 }
  | .bl => { k with bl := k.bl + 1 } | .mt => { k with mt := k.mt + 1 }

/-- The count of a class lowered by one. -/
def Counts.drop (k : Counts) (c : Cls) : Counts :=
  match c with
  | .lc => { k with lc := k.lc - 1 } | .rt => { k with rt := k.rt - 1 }
  | .bl => { k with bl := k.bl - 1 } | .mt => { k with mt := k.mt - 1 }

/-- Zero counts (R97). -/
def Counts.zero : Counts := { lc := 0, rt := 0, bl := 0, mt := 0 }

/-- The turnaround of R114 permits a transfer in a direction at the next slot. -/
def turnOk (s : State) (c : Chan) (t : Tim) (write : Bool) : Bool :=
  let now := nextSlotAt s
  if write then (match c.lastRd with | some a => decide (a + t.rtw ≤ now) | none => true)
  else (match c.lastWr with | some a => decide (a + t.wtr ≤ now) | none => true)

/-- The winner among a pool: turnaround batching, then the row-hit preference (R113, R114). -/
def gateWinner (s : State) (ci : Nat) (c : Chan) (pool : List Entry) : Option Entry :=
  let cur := pool.filter (fun e => e.write == c.dirWrite)
  let oth := pool.filter (fun e => e.write != c.dirWrite)
  match bestEntry c.rot cur, bestEntry c.rot oth with
  | none, o => o
  | some a, none => some a
  | some a, some b =>
    if b.dl + slack s ci < a.dl ∨ batchMax s ci ≤ c.batch then some b else some a

end Sys2Proof.Machine
end

