-- ==== Sys2Proof/Machine/Sideband.lean ====
section
/-! DEFINITION. The block's side of the sideband: transactions wait by user and go out one at a time (R221, R222). -/

namespace Sys2Proof.Machine

/-- The longest-waiting transaction of the user served first starts, when none is outstanding (R221, R222). -/
def sbStart (s : State) : State :=
  match s.link.cur with
  | some _ => s
  | none =>
    match bestBy (fun (a b : Sb × Nat) => decide (a.1.user < b.1.user)) s.link.queue.zipIdx with
    | some (x, i) =>
      { s with link := { s.link with cur := some { x with sentTick := s.time.tick }, queue := s.link.queue.eraseIdx i } }
    | none => s

/-- A transaction is queued for the LINK unit, which starts it at once when the sideband is free. -/
def sbQueue (s : State) (user cmd : Nat) (ch : Byte) (addr len : Nat) (ws : List Word) : State :=
  let x : Sb :=
    { cmd := cmd, ch := ch, addr := BitVec.ofNat 24 addr, len := len, words := ws, orig := cmd, user := user, tries := 0, sentTick := 0,
      resp := none }
  sbStart { s with link := { s.link with queue := s.link.queue ++ [x] } }

/-- A register write of the block: words from a word address on. -/
def sbWrite (s : State) (user : Nat) (ch : Byte) (addr : Nat) (ws : List Word) : State :=
  sbQueue s user 2 ch addr (ws.length - 1) ws

/-- The sideband channel number of the whole stack. -/
def sbAll : Byte := 0xFF#8

/-! ### Frames (R220, R221) -/

/-- The commands whose request carries words (R221, Table 8-8). -/
def sbWrites (cmd : Nat) : Bool := cmd == 2 || cmd == 4 || cmd == 7

/-- The words of a frame, one behind the other from bit 0 upward. -/
def sbWords {w : Nat} (ws : List Word) : BitVec w :=
  (ws.zipIdx).foldl (fun (acc : BitVec w) e => acc ||| (BitVec.setWidth w e.1).shiftLeft (32 * e.2)) 0

/-- The 64-bit header of a request, with its CRC-8 (R221). -/
def sbHeader (cmd len : Nat) (ch : Byte) (addr : BitVec 24) : BitVec 64 :=
  let f : BitVec 56 := BitVec.ofNat 56 (cmd % 16 + len % 16 * 2 ^ 4 + ch.toNat * 2 ^ 8 + addr.toNat * 2 ^ 16)
  crc8 (bitsOf 56 f.toNat) ++ f

/-- Bits of a request behind its start bit (R221). -/
def sbLength (cmd : Nat) (ws : List Word) : Nat := if sbWrites cmd then 64 + 32 * ws.length + 8 else 64

/-- A request: its header, and for a writing command its words and the CRC-8 over them; behind its end the line is high
(R220, R221). -/
def sbRequest (cmd len : Nat) (ch : Byte) (addr : BitVec 24) (ws : List Word) : BitVec 584 :=
  let n := 32 * ws.length
  let body : BitVec 584 := if sbWrites cmd then
      sbWords ws ||| (BitVec.setWidth 584 (crc8 (bitsOf n (sbWords (w := 512) ws).toNat))).shiftLeft n
    else 0
  (BitVec.setWidth 584 (sbHeader cmd len ch addr)) ||| body.shiftLeft 64 ||| (BitVec.allOnes 584).shiftLeft (sbLength cmd ws)

/-- What the stack reads from a request: the CRC status, the status of a command it does not know, or the command, its channel,
address, length and words (R221, Table 8-8). -/
inductive SbRx where
  | refused (status : Byte)
  | cmd (c : Nat) (ch : Byte) (addr : BitVec 24) (len : Nat) (ws : List Word)
  deriving DecidableEq, Repr

/-- A request as the stack receives it (R221). -/
def sbReceive (f : BitVec 584) : SbRx :=
  let c := fieldNat f 0 4
  let len := fieldNat f 4 4
  let n := 32 * (len + 1)
  if crc8 (bitsOf 56 (fieldNat f 0 56)) ≠ field f 56 8 then .refused 1#8
  else if c = 0 ∨ 8 ≤ c then .refused 2#8
  else if sbWrites c && crc8 (bitsOf n (fieldNat f 64 512)) != field f (64 + n) 8 then .refused 1#8
  else .cmd c (field f 8 8) (field f 16 24) len (if sbWrites c then (List.range (len + 1)).map (fun i => field f (64 + 32 * i) 32) else [])

/-- A response: STATUS, the read words and a CRC-8 over both (R221). -/
def sbReply (st : Byte) (ws : List Word) : BitVec 528 :=
  let n := 8 + 32 * ws.length
  let b : BitVec 528 := st.setWidth 528 ||| (sbWords ws).shiftLeft 8
  b ||| (BitVec.setWidth 528 (crc8 (bitsOf n b.toNat))).shiftLeft n

/-- A response of n words as the LINK unit receives it: whether its CRC holds, its status and its words (R221). -/
def sbHeard (f : BitVec 528) (n : Nat) : Bool × Byte × List Word :=
  (crc8 (bitsOf (8 + 32 * n) f.toNat) == field f (8 + 32 * n) 8, field f 0 8, (List.range n).map (fun i => field f (8 + 32 * i) 32))

/-- The level of SB_DO: high when idle, a low start bit, and the request from bit 0 upward, a bit in every cycle of SB_CK
(R220, Table 8-7). -/
def sbDo (s : State) : Bool :=
  match s.link.cur with
  | none => true
  | some x =>
    let i := (s.time.tick - x.sentTick) / 5
    if i = 0 then false else if i ≤ sbLength x.cmd x.words then (sbRequest x.cmd x.len x.ch x.addr x.words).getLsbD (i - 1) else true

/-! ### Disturbance settings and seeds (R261, R264, Table 10-3) -/

/-- K of a channel, 4 to 16. -/
def nrfK (s : State) (c : Nat) : Nat := max 4 (min 16 (regF s (chPage c) 0x068 8 5))

/-- RADIUS of a channel is 2. -/
def nrfRad2 (s : State) (c : Nat) : Bool := decide (2 ≤ regF s (chPage c) 0x068 1 2)

/-- SR_NRF_CFG as the block writes it for a channel. -/
def nrfCfgWord (s : State) (c : Nat) : Word :=
  BitVec.ofNat 32 ((regB s (chPage c) 0x068 0).toNat + (nrfRad2 s c).toNat * 2 + nrfK s c * 8)

/-- SEC draws seeds for a channel's generator and the stack's own; zero is replaced by 1 (R261, R264). -/
def nrfSeed (s : State) (c : Nat) : State :=
  let (a, s) := takeFreeNonzero 64 1#64 s
  let (b, s) := takeFree 64 s
  let s := modChan s c (fun x => { x with gen := a })
  sbWrite s 1 (BitVec.ofNat 8 c) 0x019 [field b 0 32, field b 32 32]

/-- The sampler generator is seeded (R395). -/
def smpSeed (s : State) : State :=
  let (a, s) := takeFreeNonzero 64 1#64 s
  { s with pmu := { s.pmu with smpGen := a } }

/-- A draw for a channel's RESEED waits while the health tests fail (R411). -/
def reseed (s : State) (c : Nat) : State :=
  if s.sec.health then nrfSeed s c
  else { s with sec := { s.sec with waits := if s.sec.waits.contains c then s.sec.waits else s.sec.waits ++ [c] } }

end Sys2Proof.Machine
end

