-- ==== Sys2Proof/Machine/Fault.lean ====
section
/-! DEFINITION. Faults, what they discard and keep, recovery, replay, and the loss of the stack (14, R217, R218, R297,
R298). -/

namespace Sys2Proof.Machine

/-- The core cycle, from `t` on, in which the next row command of a channel may start: at a burst boundary, 16 UI after the
last one (R209, Table 8-2). -/
def rowSlotFrom (s : State) (c t : Nat) : Nat :=
  let e := match (chan s c).lastRow with | some a => max t (a + 2 * slotLen s) | none => t
  let r := (e + slotLen s - s.winStart % slotLen s) % slotLen s
  if r = 0 then e else e + slotLen s - r

/-- The core cycle in which the next row command of a channel may start. -/
def rowSlot (s : State) (c : Nat) : Nat := rowSlotFrom s c s.time.cyc

/-- A row command takes the next slot of a channel's row wires from cycle `t` on (R209, Table 8-3). -/
def sendRowFrom (s : State) (c t : Nat) (i : Instr) : State :=
  let t := rowSlotFrom s c t
  modChan s c (fun x => { x with rowOut := x.rowOut ++ [(t, i)], lastRow := some t })

/-- A row command takes the next slot of a channel's row wires (R209, Table 8-3). -/
def sendRow (s : State) (c : Nat) (i : Instr) : State := sendRowFrom s c s.time.cyc i

/-- Channel number as a command operand. -/
def chanFin (c : Nat) : Fin 64 := ⟨c % 64, by omega⟩
/-- Bank number as a command operand. -/
def bankFin (b : Nat) : Fin 16 := ⟨b % 16, by omega⟩
/-- Half, context or parameter-sector number as a command operand. -/
def bitFin (h : Nat) : Fin 2 := ⟨h % 2, by omega⟩

/-! ### Sweeps (R248) -/

/-- The half-channel of a data-type wire: DQ0-15 and CB0-2 lie in half 0, DQ16-31 and CB3-5 in half 1; 38 and 39 are
the spares (Table 8-1). -/
def wireHalf (w : Nat) : Nat :=
  if w < 32 then w / 16 else if w < 38 then (w - 32) / 3 else w - 38

/-- The calibration record of a wire. -/
def Chan.wire (c : Chan) (w : Nat) : CalWire := Tab.get c.cal w CalWire.reset
/-- The channel with a wire's record replaced. -/
def Chan.setWire (c : Chan) (w : Nat) (x : CalWire) : Chan := { c with cal := Tab.put c.cal w x }
/-- A half-channel's spare. -/
def Chan.spare (c : Chan) (h : Nat) : SpareWire := Tab.get c.spares h SpareWire.reset
/-- The channel with a half-channel's spare replaced. -/
def Chan.setSpare (c : Chan) (h : Nat) (x : SpareWire) : Chan := { c with spares := Tab.put c.spares h x }

/-- From a LANE that goes out in core cycle t, both ends switch with the first burst at least 8 ns after its last UI
(R213). -/
def laneFrom (s : State) (t : Nat) : Nat := t + 2 * slotLen s + 20

/-- The spare of a half-channel takes a role, which LANE gives to the stack. A run of corrections of the spare starts anew
with another wire (R213, R249). -/
def steer (s : State) (c h : Nat) (wire : Option Nat) (pat : Bool) : State :=
  let t := laneFrom s (rowSlot s c)
  let s := modChan s c (fun x =>
    let sp := x.spare h
    let x := if sp.wire = wire then x else x.setWire (38 + h) { x.wire (38 + h) with runs := 0 }
    x.setSpare h { sp with wire := wire, pat := pat, was := sp.modeAt t, from_ := t })
  sendRow s c (.lane ⟨chanFin c, 0⟩ (bitFin h) (BitVec.ofNat 5 (laneWire (wire.getD 0))) wire.isSome pat)

/-- LANE for a half-channel's spare in the state that the block holds (R213, R248). -/
def sendLane (s : State) (c h : Nat) : State :=
  let x := (chan s c).spare h
  steer s c h x.wire x.pat

/-- What an abandoned sweep has changed goes back: the wire's delays, its residual and its drift_at_sweep (R248). -/
def sweepUndo (s : State) (n : Nat) : State :=
  let e := cal s n
  setCal (modChan s (16 * n + e.chofs) (fun x =>
    x.setWire e.wire { x.wire e.wire with rApplied := e.oldR, wApplied := e.oldW, rres := e.oldRres, driftAt := e.oldDrift, mitten := false })) n
    { e with active := false, phase := .idle, openPos := [], found := none }

/-- A sweep in progress is abandoned: the wire returns to its own lane with its old delays, and the reading of SR_LN_ERR that
ends it is discarded (R246, R248; log 86). -/
def sweepAbandon (s : State) (n : Nat) : State :=
  let e := cal s n
  if !e.active then s
  else
    let c := 16 * n + e.chofs
    let s := sweepUndo s n
    let s := if e.phase = .wait then s else steer s c (wireHalf e.wire) none false
    let p : Probe := { wire := e.wire, ch := c, right := ((chan s c).wire e.wire).probeRight, eye := none, st := .dropped }
    sbQueue (setCal s n { cal s n with pendErr := (cal s n).pendErr ++ [p] }) 2 1 (BitVec.ofNat 8 c) 0x011 0 []

/-- The sweep of a channel is abandoned, if one runs there. -/
def sweepAbandonOn (s : State) (c : Nat) : State :=
  let n := c / 16
  if (cal s n).active ∧ 16 * n + (cal s n).chofs = c then sweepAbandon s n else s

/-! ### Held fragments lost (R200) -/

/-- The collective IDs of a directory, each once. -/
def heldCids (hs : List Held) : List (BitVec 16) := (hs.map (·.cid)).dedup

/-- A Crown's held directory is lost: counted, recorded, and logged per collective (R200, Table 14-9). -/
def loseHeld (s : State) (k : Nat) : State :=
  let hs := (oct s k).held
  if hs.isEmpty then s
  else
    let pg := octPage k
    let s := modOct s k (fun o => { o with held := [] })
    let s := bumpReg s pg 0x090 0 32 hs.length
    let s := setReg s pg 0x094 (BitVec.ofNat 32 (((hs.getLast?).map (·.cid)).getD 0#16).toNat ||| 0x10000#32)
    let s := (heldCids hs).foldl (fun t cid =>
      let n := (hs.filter (fun h => h.cid == cid)).length
      logEv t 0x0400 pg .error (BitVec.ofNat 32 (cid.toNat + min n 65535 * 65536))) s
    latch s pg 4

/-- A Crown's scratch after a fault whose scope includes it holds undefined granules (R194; log 6). -/
def loseScratch (s : State) (k : Nat) : State :=
  modOct { s with free := s.free + 1 } k (fun o => { o with scratch := [], lost := some s.free })

/-- The drains of a lost directory stop: those whose sum has not joined the command queue write nothing (R200). -/
def dropDrains (s : State) (k : Nat) : State :=
  let o := oct s k
  let joined := fun (j : Job) => j.st == .writing && !((chan s j.place.ch).rq.any (fun e => e.owner.isJob k j.jid))
  let ids := (o.jobs.filter (fun j => (match j.kind with | .drain => true | _ => false) && !joined j)).map (·.jid)
  let s := setOct s k { o with jobs := o.jobs.filter (fun j => !ids.contains j.jid)
                               locks := o.locks.filter (fun l => !ids.contains l.1)
                               queue := o.queue.filter (fun q => match q.item with | .job j => !ids.contains j | _ => true) }
  forN (nChan s) (fun t c => if octOf c = k then
    modChan t c (fun x => dropEntries x (fun ow => match ow with | .crown k' j => k' == k && ids.contains j | _ => false)) else t) s

/-! ### Discard (R51, R107, R358) -/

/-- Transfers of an entry that are still to come. -/
def Entry.remaining (e : Entry) : Nat := ((List.range e.n).filter (fun i => decide (e.done ≤ i) && e.needs i)).length

/-- Parts of request `id` that lie in the queues, in flight and behind reconstructions of a channel, by sectors. -/
def partsIn (c : Chan) (id : Nat) : Nat :=
  let mine := fun (e : Entry) => match e.owner with | .port i _ => i == id | _ => false
  ((c.rq.filter mine).map (·.n)).sum + ((c.cmdq.filter (fun e => mine e && !e.write)).map Entry.remaining).sum +
    (c.inflight.filter (fun f => match f.what with | .data e _ => mine e | _ => false)).length +
    (c.recon.map (fun r => (r.flights.filter (fun f => mine f.1)).length)).sum

/-- The Crown jobs of request `id` in octant k are dropped, their locks released without a write (R201, R358). -/
def dropJobs (s : State) (k id : Nat) (pick : Job → Bool) : State :=
  let o := oct s k
  let gone := o.jobs.filter (fun j => j.req == some id && pick j)
  if gone.isEmpty then s
  else
    let ids := gone.map (·.jid)
    let s := setOct s k { o with jobs := o.jobs.filter (fun j => !ids.contains j.jid)
                                 locks := o.locks.filter (fun l => !ids.contains l.1)
                                 queue := o.queue.filter (fun q => match q.item with | .job j => !ids.contains j | _ => true) }
    let mine := fun (ow : Owner) => match ow with | .crown k' j => k' == k && ids.contains j | _ => false
    let s := forN (nChan s) (fun t c =>
      if octOf c = k then modChan t c (fun x => dropEntries x mine) else t) s
    modReq s id (fun r => { r with todo := r.todo - gone.length })

/-- Running slices of descriptor d outside a set of channels. -/
def runningElse (s : State) (d : Nat) (inScope : Nat → Bool) : Bool :=
  (List.range (nChan s)).any (fun c => !inScope c && (chan s c).running.any (fun e => e.2.d == d))

/-- A stopped operation replies once its last running slice has released its banks (R171, R175, R290). -/
def opStopped (s : State) (d : Nat) : State :=
  match Tab.find s.disp.ops d with
  | none => s
  | some op =>
    if op.stopped && !runningElse s d (fun _ => false) then
      match findReq s op.req with
      | some r =>
        (match r.discard, r.gatedBy with
         | some det, _ => replyReq s r .discard det []
         | none, some det => replyReq s r .gated det []
         | none, none =>
           let s := bumpReg s (octPage 0) 0x04C 0 16 1
           let s := evBlk s 0x0A 1 (some r.attr)
           replyReq s r .timeout 1#8 [])
      | none => { s with disp := { s.disp with ops := Tab.drop s.disp.ops d } }
    else s

/-- An operation stops at its cancel points: no copy, slice or result write of it starts any more (R171, R175). Destination
sectors that no stopped slice was writing keep the value they have: DESIGN CHOICE, log 92. -/
def opStop (s : State) (d : Nat) : State :=
  let s := forN (nChan s) (fun t c => modChan t c (fun x =>
    { dropEntries x (fun o => match o with | .slice d' => d' == d | _ => false) with
      slicer := x.slicer.filter (fun l => l.d != d), sliceq := x.sliceq.filter (fun l => l.d != d)
      partIn := x.partIn.filter (fun l => l.1 != d), sliceWait := x.sliceWait.filter (fun l => l.x.d != d) })) s
  let s := forN (nOct s) (fun t k => modOct t k (fun o =>
    { o with queue := o.queue.filter (fun q => match q.item with
        | .partialSec d' _ _ => d' != d | .sliceEnd d' _ _ _ _ _ => d' != d | .fabric d' _ => d' != d | _ => true) })) s
  match Tab.find s.disp.ops d with
  | some op => { s with disp := { s.disp with ops := Tab.put s.disp.ops d { op with stopped := true } } }
  | none => s

/-- Scope tests of a fault: channels and octants (Table 14-1). -/
structure Within where
  chans : BitVec 64
  octs : Byte
  all : Bool
  deriving DecidableEq, Repr

/-- The channels and octants of a scope. -/
def Scope.within (x : Scope) : Within :=
  match x with
  | .channel c => { chans := 1#64 <<< c, octs := 0, all := false }
  | .octant k => { chans := 0, octs := 1#8 <<< k, all := false }
  | .block => { chans := BitVec.allOnes 64, octs := BitVec.allOnes 8, all := true }

/-- Channel c lies in the scope. -/
def Within.chan (w : Within) (c : Nat) : Bool := w.chans.getLsbD c
/-- Octant k lies in the scope. -/
def Within.oct (w : Within) (k : Nat) : Bool := w.octs.getLsbD k

/-- An operation uses a scope: a channel of its mask, or an octant that holds one (R175). -/
def opIn (w : Within) (op : Op) : Bool :=
  w.all || (List.range 64).any (fun c => op.mask.getLsbD c && (w.chan c || w.oct (octOf c))) || w.oct op.head

/-- A request past step 6 has a part in the scope (R358). -/
def reqIn (s : State) (w : Within) (r : Req) : Bool :=
  r.stage == .admitted &&
    (w.all ||
      (match r.desc with
       | some d => (match Tab.find s.disp.ops d with | some op => opIn w op | none => false)
       | none => false) ||
      (List.range (nChan s)).any (fun c => w.chan c && decide (0 < partsIn (chan s c) r.id)) ||
      (List.range (nOct s)).any (fun k => (oct s k).jobs.any (fun j =>
        j.req == some r.id && (w.oct k || w.chan j.place.ch))))

/-- The parts of request `id` leave a channel's queues, and its reads in flight serve nobody (R107, R358). -/
def dropParts (s : State) (c id : Nat) : State :=
  let n := partsIn (chan s c) id
  let s := modChan s c (fun x =>
    let y := dropEntries x (fun o => match o with | .port i _ => i == id | _ => false)
    { y with inflight := y.inflight.filter (fun f => match f.what with
        | .data e _ => (match e.owner with | .port i _ => i != id | _ => true)
        | _ => true)
             recon := y.recon.map (fun r => { r with flights := r.flights.filter (fun f => match f.1.owner with | .port i _ => i != id | _ => true) }) })
  modReq s id (fun q => { q with todo := q.todo - n })

/-- A Crown job has not started and waits on write-forbid or on held fragments (R358). -/
def jobWaits (s : State) (j : Job) : Bool := (j.st == .queued || j.st == .wantLock) && (writeForbidden s || heldOn s j.place)

/-- The pieces of request `id` in channel c that have not joined and wait on held fragments are dropped (R198, R358). -/
def dropHeld (s : State) (c id : Nat) : State :=
  let gone := fun (e : Entry) => e.write && (match e.owner with | .port i _ => i == id | _ => false) &&
    (List.range e.n).any (fun i => heldOn s (e.at i))
  let n := (((chan s c).rq.filter gone).map (·.n)).sum
  if n = 0 then s
  else modReq (modChan s c (fun x => { x with rq := x.rq.filter (fun e => !gone e) })) id (fun q => { q with todo := q.todo - n })

/-- A request in the scope of a fault loses its parts there, and replies DISCARD when its other parts are done; parts
outside that have not started are dropped when they wait on write-forbid or on held fragments (R358). The result writes of
an operation that have started run to completion; the rest of it stops (R171, R175). -/
def discardReq (s : State) (w : Within) (det : Byte) (r : Req) : State :=
  let s := modReq s r.id (fun q =>
    { q with discard := some (match q.discard with | some d => maxByte d det | none => det) })
  match r.desc with
  | some d =>
    let s := opStop s d
    let s := forN (nChan s) (fun t c => if w.all || w.chan c then modChan t c (fun x =>
      { x with running := x.running.filter (fun e => e.2.d != d) }) else t) s
    let s := forN (nOct s) (fun t k => dropJobs t k r.id (fun j =>
      w.all || w.oct k || w.chan j.place.ch || j.st == .queued || j.st == .wantLock)) s
    if (List.range (nOct s)).any (fun k => (oct s k).jobs.any (fun j => j.req == some r.id)) then s else opStopped s d
  | none =>
    let s := forN (nChan s) (fun t c => if w.all || w.chan c then dropParts t c r.id else dropHeld t c r.id) s
    let s := forN (nOct s) (fun t k => dropJobs t k r.id (fun j =>
      w.all || w.oct k || w.chan j.place.ch || jobWaits t j)) s
    match findReq s r.id with
    | some q => if w.all then replyReq s q .discard det [] else if q.todo = 0 then finishReq s r.id else s
    | none => s

/-- The requests in the scope of a fault. -/
def inScope (s : State) (w : Within) : List Req := (unreplied s).filter (reqIn s w)

/-! ### Replay (R217, R218) -/

/-- A write-type transfer to be sent again, as an entry that ranks before all other work (R217). Its class, rotation position
and deadline are the model's (DESIGN CHOICE, log 96): it is no requester of Table 4-1. -/
def replayEntry (s : State) (r : Replay) (n : Nat) : Option Entry :=
  let mk := fun (pl : Place) (d : Sector) =>
    { newEntry s .replay 16 .lc 0 true true (onePiece pl none (some d)) with joined := n, seq := n + 1, spare := r.spare }
  match r.cmd with
  | .colWr ⟨c, _⟩ b _ col ⟨d, _⟩ => some (mk { ch := c, bank := b, row := r.row, col := col.toNat } (scrambleSector s.ecc.scrNow s.sec.key c b r.row col.toNat d))
  | .colWra ⟨c, _⟩ b _ col ⟨d, _⟩ => some (mk { ch := c, bank := b, row := r.row, col := col.toNat } (scrambleSector s.ecc.scrNow s.sec.key c b r.row col.toNat d))
  | .vwr ⟨c, _⟩ sec ⟨d, _⟩ => some (mk { ch := c, bank := 16, row := 0, col := sec.toNat } d)
  | .spw ⟨c, _⟩ ctx part ⟨d, _⟩ => some (mk { ch := c, bank := 18, row := ctx, col := part } d)
  | _ => none

/-- A half after a recovery's row commands: RSYNC closes every bank; SLX closes the banks of its slices, stopping
within tRC (R217, Table 8-3). -/
def halfAfter (m : Tim) (now : Nat) (alert : Bool) (h : Half) : Half :=
  if h.st = .reserved then { h with st := .precharging, exit := now + (if alert then m.rp else m.rc) }
  else if alert ∧ (h.st = .open_ ∨ h.st = .activating) then { h with st := .precharging, exit := now + m.rp }
  else h

/-- A read in flight that its owner still needs, as an entry to be read anew: the discarded requests have none, and
reconstructions and remaps begin again (R358-R360). -/
def readAgain (s : State) (f : InFlight) : Option Entry :=
  match f.what with
  | .data e p => if e.owner.ofHold then none
      else some { e with place := p, n := 1, done := 0, seq := 0, overlays := [], granted := false }
  | .verify p _ => some (newEntry s .writeBack 20 .mt (synthDl s .rt) false false (onePiece p none none))
  | _ => none

/-- Every unconfirmed write-type transfer of a channel is to be sent again in its original order, ahead of all other work,
and the reads in flight that are still needed are queued anew (R217, R218). -/
def replayAll (s : State) (alert : Bool) (c : Nat) : State :=
  let x := chan s c
  let es := (x.replay.filter (fun r => !r.confirmed)).zipIdx.filterMap (fun r => replayEntry s r.1 r.2)
  setChan s c { x with replayq := es ++ x.replayq, replay := x.replay.filter (·.confirmed), colOut := [], inflight := []
                       rq := x.inflight.filterMap (readAgain s) ++ x.rq
                       halves := x.halves.map (fun h => (h.1, halfAfter (tim s c) s.time.cyc alert h.2)) }

/-- The reconstructions of channel d that still read begin again, since a fault has lost reads of channel c (R290, R360). -/
def reconRestartIn (s : State) (d : Nat) : State :=
  let gone := fun (o : Owner) => (chan s d).recon.any (fun r => r.res.isNone && o.rebuilds d r.place.bank r.place.row)
  let o := (d + nChan s / 2) % nChan s
  let s := modChan (modChan s d (fun x => dropEntries x gone)) o (fun x =>
    let y := dropEntries x gone
    { y with inflight := y.inflight.filter (fun f => match f.what with | .data e _ => !gone e.owner | _ => true) })
  modChan s d (fun x => { x with recon := x.recon.map (fun r =>
    if r.res.isNone then { r with asked := false, got := [], newer := [] } else r) })

/-- The reconstructions that a fault of channel c meets: those of its own rows, and those whose parity it holds. -/
def reconRestart (s : State) (c : Nat) : State := reconRestartIn (reconRestartIn s c) ((c + nChan s / 2) % nChan s)

/-! ### The ports open (R35, R39) -/

/-- PORT_OPEN rises and grants 64 header credits and 256 beat credits on each port (R35). -/
def openPorts (s : State) : State :=
  forN 16 (fun t p => modPort t p (fun x => { x with hdrCredits := 64, beatCredits := 256, beatHeld := 0 }))
    { s with pins := { s.pins with portOpen := true } }

/-- Ticks per millisecond. -/
def ticksPerMs : Nat := 250000

/-- Boot ends in READY or LOST: its duration and its entry are recorded and the ports open (R350, R352, Table 14-9). -/
def bootEnd (s : State) : State :=
  let s : State := { s with blk := { s.blk with bootMs := (s.time.tick - s.blk.bootStart) / ticksPerMs } }
  openPorts (logEv s 0x0002 pgBlk .notice (if s.blk.st = .lost then 2 else 1))

/-! ### The loss of the stack (R297, R298) -/

/-- The sequence is a memory test, which needs no stack. -/
def Seq.isMbist : Seq → Bool
  | .mbist _ => true
  | _ => false

/-- Every request that has not replied, but for configuration access, replies DISCARD with detail STACK_LOST (R3). -/
def lostReplies (s : State) : State :=
  (unreplied s).foldl (fun t r => if r.ghost || r.opc == 0x20#8 || r.opc == 0x21#8 then t
    else
      let t := if r.stage = .beats then modReq t r.id (fun q => { q with ghost := true }) else t
      replyReq t { r with discard := some 5#8 } .discard 5#8 []) s

/-- The Crowns lose their work and their held fragments. -/
def lostOcts (s : State) : State :=
  forN (nOct s) (fun t k => modOct (loseHeld t k) k (fun o =>
    { o with queue := [], jobs := [], locks := [], rsvBytes := [], rsvLocks := [] })) s

/-- The channels lose their work and stop. -/
def lostChans (s : State) : State :=
  forN (nChan s) (fun t c => modChan t c (fun x =>
    { x with rq := [], cmdq := [], liner := [], inflight := [], replay := [], replayq := [], rowOut := [], colOut := [], slicer := []
             sliceq := [], running := [], wbs := [], vrets := [], recon := [], heldRows := [], nrfq := [], partIn := [], sliceWait := []
             halted := true })) s

/-- A sweep in progress is undone, and its spare no longer covers the wire (R248). -/
def lostSweep (s : State) (n : Nat) : State :=
  if (cal s n).active then
    let e := cal s n
    modChan (sweepUndo s n) (16 * n + e.chofs) (fun x => x.setSpare (wireHalf e.wire)
      (if e.phase = .wait then x.spare (wireHalf e.wire) else { x.spare (wireHalf e.wire) with wire := none, pat := false }))
  else s

/-- The sweeps in progress are undone. -/
def lostSweeps (s : State) : State := forN 4 lostSweep s

/-- The block enters LOST, unless it is LOST or has halted, which only a reset ends (R352): requests are discarded, held
fragments are lost, and the stack gets no further command (R298). `code` is the log code of the cause's entry, which the caller has written. -/
def enterLost (s : State) (code : Nat) : State :=
  if s.blk.st = .lost ∨ s.blk.st = .halted then s
  else
    let booting := s.blk.st == .boot
    let s := logEv s 0x0006 pgBlk .fatal (BitVec.ofNat 32 code)
    let s := { s with blk := { s.blk with st := .lost, lost := true } }
    let s := lostSweeps (lostChans (lostOcts (lostReplies s)))
    let s : State := { s with disp := { s.disp with ops := [] }, ecc := { s.ecc with queue := [], repair := none }
                              hk := { s.hk with cur := if (s.hk.cur.map Seq.isMbist).getD false then s.hk.cur else none
                                                waiting := s.hk.waiting.filter Seq.isMbist, freq := .none, freqBusy := false
                                                freqResult := if s.hk.freqBusy then 3 else s.hk.freqResult } }
    if booting then bootEnd s else s

/-! ### Detection and recovery (R355-R361) -/

/-- The code of a fault source (Table 14-2). -/
def srcCode : FaultSource → Nat
  | .sramUe => 1 | .state => 2 | .progress => 3 | .alert => 4 | .overrun => 5 | .fabric => 6 | .lock => 7
  | .forced => 8 | .pll => 9 | .escalated => 10

/-- Class of a fault: by its source where Table 14-2 fixes it, else of the unit (R356, R357). -/
def faultClass (s : State) (page : Nat) (src : FaultSource) (part : FaultPart) : Nat :=
  match src with
  | .alert | .overrun => 2
  | .fabric | .lock => 3
  | .forced | .pll | .escalated => 4
  | _ =>
    match unitOf s page with
    | some (.ch, _) => 2
    | some (.oct, _) => if part = .dispatcher then 4 else 3
    | some (.cal, _) | some (.log, _) | some (.pmu, _) | some (.test, _) => 0
    | _ => 4

/-- The scope of a fault of a class at a page (Table 14-1). -/
def faultScope (page cls : Nat) : Scope :=
  if cls = 2 then .channel (page - 64) else if cls = 3 then .octant (page - 16) else .block

/-- One scope lies within another, or is the same. -/
def Scope.inside (a b : Scope) : Bool := decide (a = b) || decide (b = .block)

/-- UNIT_FAULT of a unit records a fault, which is now the last one (Tables 14-5 and 14-6). -/
def recordFault (s : State) (page cls : Nat) (src : FaultSource) : State :=
  let s := setRegF (setRegF s page 0x018 0 4 cls) page 0x018 8 8 (srcCode src)
  { bumpReg s page 0x018 16 16 1 with lastFault := (page, srcCode src) }

/-- An F0 unit fault resets that unit alone (R357, R384). -/
def resetUnit (s : State) (page : Nat) : State :=
  match unitOf s page with
  | some (.cal, n) => sweepAbandon s n
  | some (.log, _) => { s with log := { s.log with inq := [] } }
  | some (.pmu, _) => { s with pmu := { s.pmu with buf := [] } }
  | _ => s

/-- What a fault loses beyond its requests (R194, R200, R359). -/
def faultLoses (s : State) (w : Within) : State :=
  let s := forN (nOct s) (fun t k => if w.oct k then loseScratch (loseHeld (dropDrains t k) k) k else t) s
  if w.all then
    s.hdl.cache.foldl (fun t e =>
      if e.2.dirty then
        let (v, t) := takeFree 24 t
        let lo := hCommitted e.2.bytes
        let n := lo + v.toNat % (hTentative e.2.bytes - lo + 1)
        { t with hdl := { t.hdl with cache := Tab.put t.hdl.cache e.1 { e.2 with bytes := hSetTentative e.2.bytes n } } }
      else t) s
  else s

/-- A repair before its activation is abandoned without change, and its failure is queued again (R294, R317, R339). -/
def abandonRepair (s : State) : State :=
  match s.ecc.repair with
  | none => s
  | some r =>
    let s := modChan s r.row.ch (fun c =>
      { dropEntries c Owner.isRemap with
        heldRows := c.heldRows.filter (fun h => h != (r.row.bank, r.row.row))
        inflight := c.inflight.filter (fun f => match f.what with | .data e _ => !e.owner.isRemap | _ => true)
        recon := c.recon.map (fun x => { x with flights := x.flights.filter (fun f => !f.1.owner.isRemap) }) })
    { s with ecc := { s.ecc with repair := none, queue := s.ecc.queue ++ [r.row] }
             hk := { s.hk with cur := if s.hk.cur = some .repair then none else s.hk.cur, waiting := s.hk.waiting ++ [.repair] } }

/-- The row commands of a channel's recovery: RSYNC and both LANEs in ALERT, else SLX on both contexts (Table 14-3, R217). -/
def recovRow (s : State) (c : Nat) (alert : Bool) : State :=
  if alert then sendLane (sendLane (sendRow s c (.rsync ⟨chanFin c, 0⟩)) c 0) c 1
  else sendRow (sendRow s c (.slx ⟨chanFin c, 0⟩ 0)) c (.slx ⟨chanFin c, 0⟩ 1)

/-- SLP for every bank that a running slice of the channel holds: a drain that a fault meets closes them so, and the fault's own
row commands wait for its end (R270, R317, R361). -/
def pauseRow (s : State) (c : Nat) : State :=
  (chan s c).running.foldl (fun t e => (List.range 16).foldl (fun u b =>
    if e.2.banks.getLsbD b && !e.2.pausedBanks.getLsbD b then
      sendRow (modChan u c (fun x => [0, 1].foldl (fun y h =>
        y.setHalf b h { y.half b h with st := .precharging, exit := u.time.cyc + (tim u c).rc }) x)) c (.slp ⟨chanFin c, 0⟩ (bitFin e.1) (bankFin b))
    else u) t) s

/-- The channel steps of a recovery: the gate stops, RSYNC in ALERT or SLX on both contexts, lanes, replay (Table
14-3, R217, R248). In a drain the steps that need the stack wait; only the recovery from ALERT goes on in that of a frequency
change (R272, R361). -/
def recoverChan (s : State) (alert : Bool) (c : Nat) : State :=
  let wait := draining s && !(alert && s.thm.tripPh == 0)
  let s := if wait && (chan s c).pd != .selfRefresh then pauseRow s c else s
  let s := modChan s c (fun x => { x with halted := true, running := [] })
  let s := sweepAbandonOn s c
  let s := reconRestart (if (s.ecc.repair.map (·.row.ch)) = some c then abandonRepair s else s) c
  let s := if wait || (chan s c).pd = .selfRefresh then s else recovRow s c alert
  replayAll s (alert && !wait) c

/-- A fault of class F2 to F4 is recorded, logged and counted (R355, R356, Tables 14-5 and 14-6). -/
def faultNote (s : State) (page cls : Nat) (src : FaultSource) (n : Nat) : State :=
  let s := recordFault s page cls src
  let s := logEv s 0x0100 page .error (BitVec.ofNat 32 (cls + srcCode src * 256 + min n 65535 * 65536))
  let s := evBlk s 0x09 1 none
  let s := if cls = 4 then bumpReg s pgBlk 0x0AC 0 16 1 else bumpReg s pgBlk 0x0A8 (if cls = 2 then 0 else 16) 16 1
  let s := if cls = 2 then
      let s := latch s page 8
      if src = .progress then latch s page 9 else s
    else s
  s

/-- The requests of a list are discarded within a scope (R358). -/
def discardAll (s : State) (w : Within) (det : Byte) (rs : List Req) : State :=
  rs.foldl (fun t r => match findReq t r.id with | some q => discardReq t w det q | none => t) s

/-- SLX for the slices of an octant's channels whose operation is stopped or gone, which the slicer then polls (Table 14-3,
F3 step 2, R215). -/
def octAborts (s : State) (k : Nat) : State :=
  let gone := fun (u : State) (x : Slice) => match Tab.find u.disp.ops x.d with | some op => op.stopped | none => true
  forN 8 (fun t i =>
    let c := 8 * k + i
    (chan t c).running.foldl (fun u e =>
      if gone u e.2 then
        modChan (sendRow u c (.slx ⟨chanFin c, 0⟩ (bitFin e.1))) c (fun x =>
          { x with running := Tab.put x.running e.1 { e.2 with pollAt := 0 } })
      else u) t) s

/-- The steps of a recovery that need the stack start (Table 14-3). -/
def scopeSteps (s : State) (sc : Scope) (src : FaultSource) : State :=
  match sc with
  | .channel c => recoverChan s (src == FaultSource.alert) c
  | .octant k => octAborts s k
  | .block => forN (nChan s) (fun t c => recoverChan t false c) s

/-- A recovery of a scope starts, or the one that holds the scope starts again (R361). -/
def openRecovery (s : State) (sc : Scope) (page cls : Nat) (src : FaultSource) : State :=
  match s.recov.find? (fun r => sc.inside r.scope) with
  | some r =>
    { s with recov := s.recov.map (fun q => if q.scope = r.scope then
        { q with restarts := q.restarts + 1, start := s.time.tick, src := if src = .alert then src else q.src } else q) }
  | none =>
    { s with recov := s.recov.filter (fun q => !(q.scope.inside sc)) ++
        [{ scope := sc, cls := cls, page := page, src := src, start := s.time.tick, restarts := 0 }] }

/-- A fault of class F2 to F4 discards its scope and starts, joins or restarts a recovery (R355-R361). -/
def faultRun (s : State) (page cls : Nat) (src : FaultSource) : State :=
  let sc := faultScope page cls
  let w := sc.within
  let rs := inScope s w
  let s := faultLoses (faultNote s page cls src rs.length) w
  openRecovery (scopeSteps (discardAll s w (BitVec.ofNat 8 cls) rs) sc src) sc page cls src

/-- The restarts of the recovery of a scope. -/
def restartsOf (s : State) (sc : Scope) : Nat :=
  match s.recov.find? (fun r => r.scope == sc) with | some r => r.restarts | none => 0

/-- A fault is detected and classed (R355-R361). -/
def faultAt (s : State) (page : Nat) (src : FaultSource) (part : FaultPart) : State :=
  let cls := faultClass s page src part
  if s.blk.st = .lost ∨ s.blk.st = .halted then
    resetUnit (logEv (recordFault s page cls src) 0x0100 page .error (BitVec.ofNat 32 (cls + srcCode src * 256))) page
  else if cls = 0 then
    resetUnit (logEv (recordFault s page 0 src) 0x0100 page .error (BitVec.ofNat 32 (srcCode src * 256))) page
  else if s.blk.st = .boot then
    let s := resetUnit (logEv (recordFault s page cls src) 0x0100 page .error (BitVec.ofNat 32 (cls + srcCode src * 256))) page
    { s with blk := { s.blk with stepStart := s.time.tick } }
  else
    let s := faultRun s page cls src
    if cls < 4 ∧ restartsOf s (faultScope page cls) = 3 then faultRun s page 4 .escalated else s

/-- ALERT shown by a read burst: loss of the stack when an unconfirmed write has left the store, else an F2 fault
(R217, R218). -/
def alertSeen (s : State) (c : Nat) : State :=
  if (chan s c).replayLost then
    enterLost (logEv s 0x0110 (chPage c) .warn (BitVec.ofNat 32 ((stk s c).alertCause + (stk s c).alertCount * 256))) 0x0110
  else faultAt s (chPage c) .alert .unit

end Sys2Proof.Machine
end

