-- ==== Sys2Proof/Machine/Ecc.lean ====
section
/-! DEFINITION. Corrections, uncorrectable granules, row failures and wire failures as a channel meets them, and what
a returned sector is delivered to (R20, R249-R251, R282-R292). -/

namespace Sys2Proof.Machine

/-! ### Counting (R285, R300) -/

/-- Corrected granules of a channel: the count, the event and the leaky bucket (R20, R285). -/
def ceRise (s : State) (c n : Nat) : State :=
  if n = 0 then s
  else
    let pg := chPage c
    let old := regF s pg 0x080 0 16
    let lvl := min 65535 (old + n)
    let th := max 1 (regF s pgEcc 0x044 0 16)
    let s := bumpReg s pg 0x084 0 32 n
    let s := setRegF s pg 0x080 0 16 lvl
    let s := if regF s pg 0x080 16 16 < lvl then setRegF s pg 0x080 16 16 lvl else s
    let s := evCh s c 0x15 n none
    if old < th ∧ th ≤ lvl then latch s pg 0 else s

/-- An uncorrectable granule, not poisoned, was read from the array (Table 11-9, Table 11-10). -/
def noteUe (s : State) (p : Place) (half : Nat) : State :=
  let pg := chPage p.ch
  let s := bumpReg s pg 0x088 0 16 1
  let s := setReg s pg 0x08C (BitVec.ofNat 32 (p.bank % 16 + (p.row % 2 ^ 17) * 2 ^ 4 + (p.col % 32) * 2 ^ 21 + half * 2 ^ 26))
  latch (evCh s p.ch 0x16 1 none) pg 1

/-- A row failure: queued for repair, dropped with the queue full, or only logged (R292). -/
def rowFailure (s : State) (p : Place) : State :=
  let here := fun (f : RowFail) => f.ch == p.ch && f.bank == p.bank && f.row == p.row
  if fenced s p || s.ecc.queue.any here || (match s.ecc.repair with | some r => here r.row | none => false) then s
  else if !regB s pgEcc 0x040 3 then logEv s 0x0307 (chPage p.ch) .warn (placeForm p.bank p.row)
  else if s.ecc.queue.length < 16 then
    { s with ecc := { s.ecc with queue := s.ecc.queue ++ [{ ch := p.ch, bank := p.bank, row := p.row }] }
             hk := { s.hk with waiting := s.hk.waiting ++ [.repair] } }
  else
    let s := latch (bumpReg s pgEcc 0x05C 0 16 1) pgEcc 2
    logEv s 0x0307 (chPage p.ch) .warn (placeForm p.bank p.row ||| 0x02000000#32)

/-! ### Write-back (R117, R283) -/

/-- A newer write to a place waits in the command queue or the Liner (R117). -/
def newerWrite (c : Chan) (p : Place) : Bool := (queuedWrite c p).isSome || !(linersAt c p).isEmpty

/-- ECC traffic takes issue + ARB_HZN_RT as class MT (R284). -/
def eccEntry (s : State) (o : Owner) (write : Bool) (p : Piece) : Entry :=
  newEntry s o 20 .mt (synthDl s .rt) write false p

/-- The ECC unit starts no new write-back, verify or repair from a stop request on (Table 16-5). -/
def eccStopping (s : State) : Bool := s.ecc.run == .stopReq || s.ecc.run == .stopped

/-- A corrected array sector is queued for write-back, unless a newer write waits; the deadline follows from the horizon of
class h (R283, R284). -/
def queueWriteBack (s : State) (h : Cls) (p : Place) (d : Sector) (corr : List (Nat × Nat × Byte)) : State :=
  let c := chan s p.ch
  if !regB s pgEcc 0x040 2 || eccStopping s || newerWrite c p || c.wbs.any (fun w => w.place == p) then s
  else if writeForbidden s || decide (8 ≤ c.wbs.length) then bumpReg s (chPage p.ch) 0x088 16 16 1
  else
    let w : WriteBack := { place := p, data := d, corr := corr, state := 0, seq := c.serial }
    let s := setChan s p.ch { c with wbs := c.wbs ++ [w], serial := c.serial + 1 }
    enqueue s { eccEntry s .writeBack true (onePiece p none (some d)) with dl := synthDl s h }

/-- The write of a write-back has been granted: its verify read is queued (R283). -/
def queueVerify (s : State) (p : Place) : State :=
  match (chan s p.ch).wbs.find? (fun w => w.place == p && w.state == 0) with
  | none => s
  | some _ =>
    let s := modChan s p.ch (fun c => { c with wbs := c.wbs.map (fun w => if w.place = p then { w with state := 1 } else w) })
    enqueue s (eccEntry s .writeBack false (onePiece p none none))

/-! ### Wire failures (R249-R251) -/

/-- A data-type wire fails for a cause (1 read eye, 2 write eye, 3 corrections, 4 boot check): the half's spare takes
it over, sending PRBS7 on the wire after a boot check, or the stack is lost with the half's second failure (R230, R250,
R251). -/
def wireFail (s : State) (c w cause : Nat) : State :=
  let x := chan s c
  let h := wireHalf w
  let sp := x.spare h
  let first := (List.range 40).find? (fun v => decide (wireHalf v = h) && (if v < 38 then (x.wire v).failed else sp.failed))
  if w < 38 && (x.wire w).failed || decide (38 ≤ w) && sp.failed then s
  else
    let s := latch s (calPage (c / 16)) 0
    match first with
    | some v =>
      let s := modChan s c (fun y => if w < 38 then y.setWire w { y.wire w with failed := true }
        else y.setSpare h { y.spare h with failed := true })
      let s := logEv s 0x0201 (chPage c) .fatal (BitVec.ofNat 32 (v + w * 256))
      enterLost (latch s (calPage (c / 16)) 1) 0x0201
    | none =>
      let s := logEv s 0x0200 (chPage c) .warn (BitVec.ofNat 32 (w + cause * 256))
      let e := cal s (c / 16)
      let own := e.active && e.phase != .wait && decide (16 * (c / 16) + e.chofs = c) && decide (wireHalf e.wire = h)
      let s := if own && e.wire ≠ w then sweepAbandon s (c / 16) else s
      let s := if own && e.wire = w then setCal s (c / 16) { cal s (c / 16) with active := false, phase := .idle } else s
      if 38 ≤ w then modChan s c (fun y => y.setSpare h { y.spare h with failed := true, wire := none, pat := false })
      else
        steer (modChan s c (fun y =>
          let y := y.setWire w { y.wire w with failed := true, covered := true, mitten := false }
          y.setSpare h { y.spare h with taken := true, failed := false })) c h (some w) (cause == 4)

/-- The wire that carries symbol i of half-channel h in a burst: its own, or the spare that covers it (R207, R213). -/
def carrier (x : Chan) (t h i : Nat) : Nat := if ((x.spare h).modeAt t).wire = some i then 38 + h else symWire h i

/-- Runs of corrected bursts by the wire that carried the symbol: each wire with 64 or more of the bursts it carried corrected
one after the other has failed (R249). The burst began in core cycle t. -/
def wireRuns (s : State) (c t : Nat) (corr : List (Nat × Nat × Byte)) : State :=
  let hit := corr.map (fun e => carrier (chan s c) t e.1 (if e.2.1 < 3 then 16 + e.2.1 else e.2.1 - 3))
  let carried := (List.range 38).map (fun i => carrier (chan s c) t (i / 19) (i % 19))
  let s := modChan s c (fun y => carried.foldl (fun z w =>
    let r := z.wire w
    if hit.contains w then z.setWire w { r with runs := r.runs + 1 } else if 0 < r.runs then z.setWire w { r with runs := 0 } else z) y)
  (hit.filter (fun w => decide (64 ≤ ((chan s c).wire w).runs))).foldl (fun u w => wireFail u c w 3) s

/-! ### Decoding a returned sector (Table 11-1, Table 11-2) -/

/-- What the channel's decoder finds in a sector. -/
structure SecDec where
  data : Sector
  corr : List (Nat × Nat × Byte)
  ue : List Nat
  poisoned : Bool
  deriving DecidableEq, Repr

/-- A raw sector decoded at a place, then descrambled (R279): corrected granules become codewords, others stay. -/
def decodeAt (s : State) (p : Place) (raw : Sector) : SecDec :=
  let d0 := decodeGranule raw.g0
  let d1 := decodeGranule raw.g1
  let c := fun (h : Nat) (d : Decoded) => match d with | .corrected e v => [(h, e, v)] | _ => []
  let u := fun (h : Nat) (d : Decoded) => match d with | .uncorrectable => [h] | _ => []
  { data := scrambleSector s.ecc.scrNow s.sec.key p.ch p.bank p.row p.col (correctSector raw)
    corr := c 0 d0 ++ c 1 d1, ue := u 0 d0 ++ u 1 d1
    poisoned := d0 == .poisoned || d1 == .poisoned }

/-- At least 32 of the 38 symbol-carrying wires show 0x55 (R217). -/
def alertShown (raw : Sector) : Bool :=
  let n := fun (g : Granule) => ((List.range 19).filter (fun i => decide (field g (8 * i) 8 = 0x55#8))).length
  decide (32 ≤ n raw.g0 + n raw.g1)

/-- The sector as it stands in the array for the link: its row or the spare that holds it, as stored. -/
def linkRead (s : State) (p : Place) : Sector :=
  let (row, sp) := linkRow s (chan s p.ch) p.bank p.row
  arrRead s p.ch sp p.bank (if sp then row % 32 else row) p.col

/-! ### Delivery -/

/-- Stage times of the piece that arrives last (R397). -/
def stampPiece (r : Req) (s : State) (e : Entry) : Req :=
  { r with tJoin := some e.tJoin, tGrant := some e.tGrant, tDone := some s.time.cyc, pieceCh := some e.place.ch }

/-- A sector reaches the port of its request (R20, R54). -/
def deliverPort (s : State) (id idx : Nat) (e : Entry) (d : Sector) (bad fencedRow corrected recon : Bool) : State :=
  let s := modReq s id (fun r =>
    let r := stampPiece r s e
    { r with rdata := Tab.put r.rdata idx (if bad then poisonSector d else d), corrected := r.corrected || corrected
             okDetail := if recon then maxByte r.okDetail 2#8 else r.okDetail
             poison := if bad then worse r.poison (if fencedRow then 1#8 else 0#8) else r.poison })
  partsDone s id 1

/-- The stage times of a Crown job's read belong to its request (R397). -/
def stampJob (s : State) (k j : Nat) (e : Entry) : State :=
  match ((oct s k).jobs.find? (fun x => x.jid == j)).bind (·.req) with
  | some id => modReq s id (fun r => stampPiece r s e)
  | none => s

/-- The sector of a Crown job's read is back, with what its request's reply must say of it (R54, R189). -/
def deliverJob (s : State) (k j : Nat) (d : Sector) (corrected recon : Bool) : State :=
  let s := modOct s k (fun o => { o with jobs := o.jobs.map (fun x => if x.jid = j then { x with got := some d, st := .returned } else x) })
  match ((oct s k).jobs.find? (fun x => x.jid == j)).bind (·.req) with
  | some id =>
    let s := modReq s id (fun r => { r with corrected := r.corrected || corrected })
    if recon then reconReq s id else s
  | none => s

/-- A handle entry is back: it fills the cache (R80, R82). -/
def fillHandle (s : State) (h : Nat) (d : Sector) (ue poisoned : Bool) : State :=
  let e : HdlEntry := { bytes := plain d, bad := ue, poisoned := poisoned && !ue, dirty := false, used := s.hdl.uses }
  if (Tab.find s.hdl.cache h).isSome then s
  else { s with hdl := { s.hdl with cache := Tab.put s.hdl.cache h e, uses := s.hdl.uses + 1 } }

/-- A place lies in the row of a reconstruction. -/
def Recon.holds (r : Recon) (p : Place) : Bool := decide (p.ch = r.place.ch ∧ p.bank = r.place.bank ∧ p.row = r.place.row)

/-- The reconstructions of a channel with those of a row changed by f. -/
def modRecon (s : State) (ci bank row : Nat) (f : Recon → Recon) : State :=
  modChan s ci (fun c => { c with recon := c.recon.map (fun r => if r.place.bank = bank ∧ r.place.row = row then f r else r) })

/-- The number of a sector among those that a reconstruction reads: its column, or 32 and up for the parity sectors. -/
def reconIdx (s : State) (r : Recon) (p : Place) : Nat :=
  if p.ch = r.place.ch ∧ p.row = r.place.row then p.col else 32 + (p.col - (parityPlace s r.vault r.place).col)

/-- The row's 32 sectors after the outer code has been applied, or none when it fails (R287, R288, R291). -/
def rebuild (v : Vault) (got : Tab Sector) : Option (List Sector) :=
  let row := (List.range 32).map (fun i => Tab.get got i zeroSector)
  let par := (List.range (parSectors v.t)).map (fun i => Tab.get got (32 + i) zeroSector)
  let isPoison := fun (d : Sector) => decodeGranule d.g0 == .poisoned || decodeGranule d.g1 == .poisoned
  if row.any isPoison || par.any sectorBad then none
  else
    let bits := rowBits row
    let pbits := (par.zipIdx).foldl (fun (acc : BitVec 768) e => acc ||| ((plain e.1).setWidth 768 <<< (256 * e.2))) 0#768
    let word := (List.range (2 * v.t)).map (fun j => field pbits (10 * j) 10) ++
      (List.range 820).map (fun i => field bits (10 * i) 10)
    (vaultDecode v.t word).map (fun w => rowSectors (symbolsRow (w.drop (2 * v.t))))

/-- An entry of a reconstruction: Crown traffic with the class and deadline of the request that met the granule (R23,
R290). -/
def reconEntry (s : State) (r : Recon) (p : Place) (d : Option Sector) : Entry :=
  newEntry s (.recon r.place.ch r.place.bank r.place.row) 16 r.cls r.dl d.isSome false (onePiece p none d)

/-- A sector of a reconstruction is back. With the last one the outer code is applied, and every sector that changed and
that no newer write has met is queued as an internal rewrite, or counted as dropped while writing is forbidden (R117, R284,
R290). -/
def reconGot (s : State) (ci bank row : Nat) (p : Place) (d : Sector) (newer : Bool) : State :=
  match (chan s ci).recon.find? (fun r => r.place.bank == bank && r.place.row == row) with
  | none => s
  | some r =>
    let i := reconIdx s r p
    let got := Tab.put r.got i d
    let nw := if newer then i :: r.newer else r.newer
    if got.length < 32 + parSectors r.vault.t then modRecon s ci bank row (fun x => { x with got := got, newer := nw })
    else
      let res := rebuild r.vault got
      let s := modRecon s ci bank row (fun x => { x with got := got, newer := nw, res := some res })
      let todo := (((res.getD []).zipIdx).filter (fun e => Tab.get got e.2 zeroSector != e.1 && !nw.contains e.2))
      if writeForbidden s then bumpReg s (chPage ci) 0x088 16 16 todo.length
      else todo.foldl (fun t e =>
        let q := { r.place with col := e.2 }
        enqueue (modChan t ci (fun c => { c with wbs := c.wbs.filter (fun w => w.place != q) })) (reconEntry t r q (some e.1))) s

/-- A sector of the row being remapped is back: for the copy, whose last sector queues the writes to the spare, or for the
verify, which asks for Clean, or Poisoned where poison was written (Table 11-5, steps 3 and 4). -/
def remapGot (s : State) (e : Entry) (p : Place) (d : Sector) (changed : Bool) : State :=
  match s.ecc.repair with
  | none => s
  | some r =>
    if e.spare.isSome then
      let poison := fun (x : Sector) => decodeGranule x.g0 == .poisoned || decodeGranule x.g1 == .poisoned
      let want := Tab.get r.got p.col zeroSector
      let bad := changed || (sectorBad d && !poison d) || poison d != sectorBad want
      { s with ecc := { s.ecc with repair := some { r with checked := r.checked + 1, bad := r.bad || bad } } }
    else
      let ue := decodeGranule d.g0 == .uncorrectable || decodeGranule d.g1 == .uncorrectable
      let got := Tab.put r.got p.col (if ue then poisonSector d else d)
      if r.ph != .read || got.length < 32 then { s with ecc := { s.ecc with repair := some { r with got := got } } }
      else
        let s : State := { s with ecc := { s.ecc with repair := some { r with got := got, ph := .write } } }
        enqueueAll s ((List.range 4).map (fun i =>
          { eccEntry s .remap true
              { idx := 0, place := { p with col := 8 * i }, vault := none, n := 8
                data := (List.range 8).map (fun j => Tab.get got (8 * i + j) zeroSector)
                mask := List.replicate 8 fullMask } with spare := some r.spare }))

/-- A read sector goes to whoever asked for it (R18, R20). What became visible before the read joined, and the sum of a
drain, lie over what the array gave. -/
def deliver (s : State) (e : Entry) (i : Nat) (p : Place) (d : Sector) (ue poisoned fencedRow corrected recon : Bool) : State :=
  let x := applyOverlays e i d
  let bad := if e.whole i then sectorBad x else ue || poisoned
  match e.owner with
  | .port id idx =>
    let hs := if bad then [] else heldOver s e i p
    let ue := hs.any (fun h => sectorBad h.data)
    deliverPort (scratchErrs s (octOf p.ch) (hs.map (·.data))) id (idx + i) e
      (if bad then d else if ue then poisonSector x else addHeld hs x) (bad || ue) fencedRow corrected recon
  | .crown k j => deliverJob (stampJob s k j e) k j (if bad then poisonSector d else x) corrected recon
  | .evict n => modChan s p.ch (fun c =>
      { c with liner := c.liner.map (fun l => if l.serial = n then { l with readBack := some (if bad then poisonSector d else x) } else l) })
  | .hdl h => fillHandle s h x (ue && !e.whole i) (bad && (e.whole i || !ue))
  | .recon c b r => reconGot s c b r p x (e.newer.contains i)
  | .remap => remapGot s e p x corrected
  | _ => s

/-! ### Reconstruction starts (R290) -/

/-- No update of the row's parity is under way, so that its data and parity agree (R289, R290): no parity job of the row, no
read of its old data in flight, and no write of it that has read its old data and not joined yet. -/
def rowSettled (s : State) (r : Recon) : Bool :=
  let jobs := (oct s (octOf r.place.ch)).jobs
  let oldRead := fun (o : Owner) => match o with | .crown _ j => jobs.any (fun x => x.jid == j && (match x.kind with | .parity q _ => q == x.place | _ => false)) | _ => false
  !(jobs.any (fun j => match j.kind with | .parity q _ => r.holds q && q != j.place | _ => false)) &&
    !((chan s r.place.ch).inflight.any (fun f => match f.what with | .data e p => r.holds p && oldRead e.owner | _ => false)) &&
    (chan s r.place.ch).rq.all (fun e => !e.write || !r.holds e.place || (List.range e.n).all (fun i =>
      jobs.any (fun j => match j.kind with | .parity q _ => q == j.place && q == e.at i | _ => false)))

/-- The Crown asks for the row's 32 sectors and its parity sectors once the row is settled (R290, step 2). -/
def reconAsk (s : State) (ci : Nat) (r : Recon) : State :=
  if r.asked || !rowSettled s r then s
  else
    let pp := parityPlace s r.vault r.place
    let s := modRecon s ci r.place.bank r.place.row (fun x => { x with asked := true })
    enqueueAll s ((List.range 32).map (fun i => reconEntry s r { r.place with col := i } none) ++
      (List.range (parSectors r.vault.t)).map (fun i => reconEntry s r { pp with col := pp.col + i } none))

/-- Every reconstruction that waits for its row to settle is looked at again. -/
def reconAskAll (s : State) : State :=
  s.chans.foldl (fun t e => e.2.recon.foldl (fun u r => reconAsk u e.1 r) t) s

/-- An uncorrectable granule in a vault row holds the row and starts its reconstruction, or waits for the one that runs
(R290). For ECC traffic the class is MT, and the deadline follows from ARB_HZN_RT. -/
def startReconOf (s : State) (p : Place) (v : Vault) (cls : Cls) (dl : Int) (fl : List (Entry × Place)) : State :=
  match (chan s p.ch).recon.find? (fun r => r.place.bank == p.bank && r.place.row == p.row) with
  | some _ => modRecon s p.ch p.bank p.row (fun r => { r with flights := r.flights ++ fl })
  | none =>
    let r : Recon := { place := p, vault := v, cls := cls, dl := dl, flights := fl, asked := false, got := [], newer := [], res := none }
    reconAsk (modChan s p.ch (fun c => { c with recon := c.recon ++ [r] })) p.ch r

/-- The lowest gated domain on the path of a request whose read or slice needs a reconstruction of a row: the parity channel
and the octant lie on it too (R28, R290). -/
def reconGate (s : State) (id : Nat) (p : Place) (v : Vault) : Option Byte :=
  match findReq s id with
  | none => none
  | some r =>
    let more := [(parityPlace s v p).ch, 80 + octOf p.ch]
    if more.any (gated s) then
      (((64 + r.port.val) :: (r.secs.map (fun (x : SecRef) => x.place.ch) ++ more)).filter (gated s)).min?.map (BitVec.ofNat 8)
    else none

/-- A request replies GATED with a domain as detail (R290). -/
def gateReq (s : State) (id : Nat) (d : Byte) : State := modReq s id (fun r => { r with gatedBy := some d })

/-- A port's read whose reconstruction needs a gated domain: its request, and the domain (R290). -/
def gatedRead (s : State) (e : Entry) (p : Place) (v : Vault) : Option (Nat × Byte) :=
  match e.owner with | .port id _ => (reconGate s id p v).map (fun d => (id, d)) | _ => none

/-- The reconstruction for a read that has met an uncorrectable granule. -/
def startRecon (s : State) (e : Entry) (p : Place) (v : Vault) : State :=
  if e.pos = 20 then startReconOf s p v .mt (synthDl s .rt) [(e, p)] else startReconOf s p v e.cls e.dl [(e, p)]

end Sys2Proof.Machine
end

