-- ==== Sys2Proof/Machine/Crown.lean ====
section
/-! DEFINITION. The Crowns: scratch, reservations, jobs under locks, parity updates and held fragments (07, R289). -/

namespace Sys2Proof.Machine

/-! ### Scratch and reservations (R194-R197, R201) -/

/-- CRN_SCR_CFG.CLIENT in bytes; values above 16 are used as 16. -/
def clientBytes (s : State) (k : Nat) : Nat := min 16 (regF s (octPage k) 0x080 0 5) * 65536

/-- Bytes of working area. -/
def workBytes (s : State) (k : Nat) : Nat := 2 ^ 21 - clientBytes s k

/-- Working area reserved by admitted operations. -/
def rsvTotal (o : Oct) : Nat := (o.rsvBytes.map (·.2)).sum
/-- Lock slots reserved by admitted requests. -/
def lockTotal (o : Oct) : Nat := (o.rsvLocks.map (·.2)).sum
/-- Working area that holds fragments, 32 bytes each (R196). -/
def heldBytes (o : Oct) : Nat := 32 * o.held.length

/-- `n` bytes of working area and `l` lock slots are free in octant k (R195, R196, R201). -/
def octHasRoom (s : State) (k n l : Nat) : Bool :=
  let o := oct s k
  (n == 0 || decide (rsvTotal o + heldBytes o + n ≤ workBytes s k)) && (l == 0 || decide (lockTotal o + l ≤ 240))

/-- A request reserves bytes and lock slots in octant k. -/
def octReserve (s : State) (k id n l : Nat) : State :=
  modOct s k (fun o => { o with rsvBytes := if n = 0 then o.rsvBytes else o.rsvBytes ++ [(id, n)]
                                rsvLocks := if l = 0 then o.rsvLocks else o.rsvLocks ++ [(id, l)] })

/-- A sector of scratch as it is stored, by its number. -/
def scratchAt (s : State) (k i : Nat) : Sector :=
  let o := oct s k
  let g := fun h => ramRead (scratchDflt o k) o.scratch (2 * i + h)
  ⟨g 0, g 1⟩

/-- A sector stored in scratch, by its number (R180). -/
def scratchPut (s : State) (k i : Nat) (d : Sector) : State :=
  modOct s k (fun o =>
    { o with scratch := ramWrite (scratchDflt o k) (ramWrite (scratchDflt o k) o.scratch (2 * i) d.g0) (2 * i + 1) d.g1 })

/-- The bytes [o, o + 32) of two neighbouring sectors; a granule that takes a byte of one that may not be used carries poison
(R180). -/
def spanVal (o : Nat) (lo hi : SecVal) : SecVal :=
  let bad := fun (a : Nat) => (List.range 4).any (fun g =>
    [lo.bad0, lo.bad1, hi.bad0, hi.bad1].getD g false && decide (16 * g < a + 16 ∧ a < 16 * g + 16))
  { data := ((hi.data ++ lo.data) >>> (8 * o)).setWidth 256, bad0 := bad o, bad1 := bad (o + 16) }

/-- Bytes [0, o) of one sector and the rest of another. -/
def joinVal (o : Nat) (x y : SecVal) : SecVal :=
  let m : BitVec 256 := BitVec.ofNat 256 (2 ^ (8 * o) - 1)
  { data := (x.data &&& m) ||| (y.data &&& ~~~m)
    bad0 := (x.bad0 && decide (0 < o)) || (y.bad0 && decide (o < 16)), bad1 := (x.bad1 && decide (16 < o)) || (y.bad1 && decide (o < 32)) }

/-- n sectors of scratch from byte offset b on, decoded (R180): errors are counted, and a sector that depends on an
uncorrectable granule carries poison. -/
def scratchRead (s : State) (k b n : Nat) : List Sector × State :=
  let o := b % 32
  let raw := (List.range (if n = 0 then 0 else if o = 0 then n else n + 1)).map (fun i => scratchAt s k (b / 32 + i))
  let vs := raw.map secVal
  let zero : SecVal := { data := 0, bad0 := false, bad1 := false }
  ((List.range n).map (fun i =>
    let v := spanVal o (vs.getD i zero) (vs.getD (i + 1) zero)
    (if v.bad then v.spoil else v).sector), scratchErrs s k raw)

/-- Sectors written to scratch from byte offset b on (R165, R180): the first and the last sector of an offset inside a sector
keep their other bytes. -/
def scratchWrite (s : State) (k b : Nat) (xs : List Sector) : State :=
  let o := b % 32
  if o = 0 then (xs.zipIdx).foldl (fun t e => scratchPut t k (b / 32 + e.2) e.1) s
  else if xs.isEmpty then s
  else
    let n := xs.length
    let first := scratchAt s k (b / 32)
    let last := scratchAt s k (b / 32 + n)
    let vs := xs.map secVal
    let zero : SecVal := { data := 0, bad0 := false, bad1 := false }
    let s := scratchErrs s k [first, last]
    (List.range (n + 1)).foldl (fun t j =>
      let v := spanVal (32 - o) (if j = 0 then zero else vs.getD (j - 1) zero) (vs.getD j zero)
      let v := if j = 0 then joinVal o (secVal first) v else v
      let v := if j = n then joinVal o v (secVal last) else v
      scratchPut t k (b / 32 + j) v.sector) s

/-! ### Jobs -/

/-- A job joins its Crown's queue of work items (R181); internal drains carry port 16. -/
def addJob (s : State) (k : Nat) (req : Option Nat) (kind : JobKind) (p : Place) (v : Option Vault) (cls : Cls) (dl : Int)
    (portNo : Nat) : State :=
  modOct s k (fun o =>
    let j : Job :=
      { jid := o.jid, req := req, kind := kind, place := p, vault := v, cls := cls, dl := dl, seq := 0, port := portNo,
        st := .queued, lock := false, mark := 0, got := none, base := none }
    { o with jobs := o.jobs ++ [j], jid := o.jid + 1
             queue := o.queue ++ [{ item := .job j.jid, dl := dl, cls := cls, joined := s.time.cyc, port := portNo }] })

/-- A job of octant k replaced. -/
def setJob (s : State) (k : Nat) (j : Job) : State :=
  modOct s k (fun o => { o with jobs := o.jobs.map (fun x => if x.jid = j.jid then j else x) })

/-- A job is done: its lock is released and it leaves (R201). -/
def endJob (s : State) (k jid : Nat) : State :=
  modOct s k (fun o => { o with jobs := o.jobs.filter (fun x => x.jid != jid), locks := o.locks.filter (fun l => l.1 != jid) })

/-- Energy exemption of a job's traffic: collective reduce-writes with their parity updates, and drains (Table 12-4). -/
def jobExempt (s : State) (j : Job) : Bool :=
  match j.kind, j.req with
  | .drain, _ => true
  | _, some id =>
    (match findReq s id with | some r => r.opc == 0x05#8 && r.h.flags.getLsbD 3 | none => false)
  | _, none => false

/-- A Crown entry of a job: rotation position 16, the class and deadline of its cause (R23, Table 4-1). -/
def jobEntry (s : State) (k : Nat) (j : Job) (d : Option Sector) : Entry :=
  newEntry s (.crown k j.jid) 16 j.cls j.dl d.isSome (jobExempt s j) (onePiece j.place none d)

/-- The parity jobs of a data sector's change (R78, R289): one per parity sector, part of the request. -/
def addParity (s : State) (req : Option Nat) (p : Place) (v : Vault) (delta : BitVec 256) (cls : Cls) (dl : Int)
    (portNo : Nat) : State :=
  let pp := parityPlace s v p
  let n := parSectors v.t
  let s := match req with | some id => modReq s id (fun r => { r with todo := r.todo + n }) | none => s
  (List.range n).foldl (fun t i =>
    addJob t (octOf p.ch) req (.parity p delta) { pp with col := pp.col + i } (some v) cls dl portNo) s

/-- An update starts by reading the old data before the new data is written (R289). -/
def addVaultWrite (s : State) (id : Nat) (p : Place) (v : Vault) (new : Sector) (cls : Cls) (dl : Int) (portNo : Nat) : State :=
  let k := octOf p.ch
  let jid := (oct s k).jid
  let s := modReq s id (fun r => { r with todo := r.todo + 1 })
  let s := modOct s k (fun o =>
    let j : Job :=
      { jid := jid, req := some id, kind := .parity p (plain new), place := p, vault := some v, cls := cls, dl := dl, seq := 0,
        port := portNo, st := .reading, lock := false, mark := 0, got := none, base := none }
    { o with jobs := o.jobs ++ [j], jid := jid + 1 })
  match (oct s k).jobs.find? (fun j => j.jid == jid) with
  | some j => enqueue s (jobEntry s k j none)
  | none => s

/-- A parity job waits for an earlier one on the same parity sector (R289). -/
def parityTurn (o : Oct) (j : Job) : Bool :=
  !(o.jobs.any (fun x => decide (x.jid < j.jid) && decide (x.place = j.place) && (match x.kind with | .parity q _ => q != x.place | _ => false)))

/-- Source of a job: its request's SRC and port (R56, R182). -/
def jobSource (s : State) (j : Job) : Option (Nat × BitVec 10) :=
  j.req.bind (fun id => (findReq s id).map (fun r => (r.port.val, r.h.src)))

/-- Place order of locks (R202). -/
def placeNum (p : Place) : Nat := ((p.ch * 16 + p.bank) * 2 ^ 17 + p.row) * 32 + p.col

/-- Jobs that are drains. -/
def Job.isDrain (j : Job) : Bool := match j.kind with | .drain => true | _ => false

/-- An entry that the source of a job issued before it on its sector has not joined the command queue yet (R18). -/
def behindEntry (s : State) (j : Job) : Bool :=
  let src := jobSource s j
  src.isSome && (chan s j.place.ch).rq.any (fun e =>
    match e.owner with
    | .port id _ => j.req.any (fun i => decide (id < i)) && (List.range e.n).any (fun i => decide (e.at i = j.place)) &&
        (findReq s id).map (fun r => (r.port.val, r.h.src)) == src
    | _ => false)

/-- A job may take its lock now (R18, R182, R198, R201, R202). -/
def lockReady (s : State) (k : Nat) (o : Oct) (j : Job) : Bool :=
  let drains := (o.locks.filter (fun l => o.jobs.any (fun x => x.jid == l.1 && x.isDrain))).length
  let waiting := fun (x : Job) => x.st == .wantLock || x.st == .queued
  j.st == .wantLock && !behindEntry s j && !(o.locks.any (fun l => l.2 == j.place)) &&
    (if j.isDrain then decide (drains < 16) else decide (o.locks.length - drains < 240)) &&
    (match j.kind with | .atomic _ _ _ _ _ | .result _ => !(o.held.any (fun h => h.place == j.place)) | _ => true) &&
    (j.vault.isNone || (linersAt (chan s j.place.ch) j.place).isEmpty) &&
    (match j.req with
     | some id =>
       decide ((o.locks.filter (fun l => o.jobs.any (fun x => x.jid == l.1 && x.req == j.req))).length <
         ((o.rsvLocks.find? (fun x => x.1 == id)).map (·.2)).getD 1) &&
       !(o.jobs.any (fun x => x.req == j.req && waiting x && decide (placeNum x.place < placeNum j.place)))
     | none => true) &&
    !(o.jobs.any (fun x => decide (x.jid < j.jid) && waiting x && x.req != j.req && (jobSource s x).isSome &&
      jobSource s x == jobSource s j)) && decide (k < 8)

/-- A result or a drain starts no new write while writing is not allowed (R173, R199). -/
def mayStart (s : State) (j : Job) : Bool :=
  match j.kind with
  | .result _ => !writeForbidden s
  | .drain => s.thm.w == .open_ || s.thm.w == .brim
  | _ => true

/-- The element of a sector replaced by an atomic operation, or every element with VEC (R189). -/
def atomicSector (aop et : Nat) (vec : Bool) (ofs : Nat) (x y : BitVec 256) : BitVec 256 :=
  atomicOp aop et vec ofs x y

/-- The held fragments of a place, in arrival order. -/
def heldAt (o : Oct) (p : Place) : List Held := o.held.filter (fun h => h.place == p)

/-- A sector with fragments added; poison where it or one of them may not be used (R198-R200). -/
def heldSum (hs : List Held) (d : Sector) : Sector :=
  if sectorBad d || hs.any (fun h => sectorBad h.data) then poisonSector d else addHeld hs d

/-- A job whose result is its write: the write is queued as Crown traffic, and its parity update follows (R22, R289). -/
def jobWrite (s : State) (k : Nat) (j : Job) (old new : Sector) : State :=
  let s := setJob s k { j with st := .writing, got := some new }
  let s := enqueue s (jobEntry s k j (some new))
  match j.vault with
  | some v => if sectorBad old || sectorBad new then s else addParity s j.req j.place v (plain old ^^^ plain new) j.cls j.dl j.port
  | none => s

/-- A job that meets an uncorrectable or fenced sector writes nothing; its request replies POISON (R191, R193). -/
def jobPoison (s : State) (k : Nat) (j : Job) (d : Sector) : State :=
  let det : Byte := if fenced s j.place then 1#8 else 0#8
  let s := endJob s k j.jid
  match j.req with
  | some id =>
    let s := poisonReq s id det
    let s := modReq s id (fun r => if r.opc = 0x04#8 ∧ r.h.flags.getLsbD 2 then { r with rdata := Tab.put r.rdata 0 (poisonSector d) } else r)
    partsDone s id 1
  | none => s

/-- The read of a job has returned: it computes and writes, or writes nothing (R189-R193, R199, R200, R289). Where a poisoned
drain has several fragments, the CID logged is that of the first one held: DESIGN CHOICE, log 92. -/
def jobReturned (s : State) (k : Nat) (j : Job) (d : Sector) : State :=
  match j.kind with
  | .atomic aop et vec ofs y =>
    if sectorBad d then jobPoison s k j d
    else
      let s := match j.req with
        | some id =>
          let s := evOct s k 0x0B 1 ((findReq s id).map Req.attr)
          modReq s id (fun r => if r.h.flags.getLsbD 2 then { r with rdata := Tab.put r.rdata 0 d } else r)
        | none => s
      jobWrite s k j d (sectorOf (atomicSector aop et vec ofs (plain d) (plain y)))
  | .reduce et y =>
    if sectorBad d then jobPoison s k j d else jobWrite s k j d (sectorOf (reduceOp et (plain d) (plain y)))
  | .drain =>
    let hs := heldAt (oct s k) j.place
    let s := scratchErrs s k (hs.map (·.data))
    let j := { j with mark := (chan s j.place.ch).serial + 1, base := some d }
    let s := modChan s j.place.ch (fun c => { c with serial := c.serial + 1 })
    let new := heldSum hs d
    if sectorBad new then
      let cid := ((hs.head?).map (·.cid)).getD 0#16
      let s := logEv s 0x0401 (octPage k) .error (BitVec.ofNat 32 (cid.toNat + j.place.ch * 2 ^ 16 + j.place.bank * 2 ^ 22))
      let s := logEv s 0x0402 (octPage k) .error (BitVec.ofNat 32 (j.place.row % 2 ^ 17 + j.place.col * 2 ^ 17))
      jobWrite (if sectorBad d then latch s (chPage j.place.ch) 1 else s) k j d new
    else jobWrite s k j d new
  | .parity q delta =>
    if j.place = q then
      let s := endJob s k j.jid
      let s := match j.vault with
        | some v => if sectorBad d then s else addParity s j.req q v (plain d ^^^ delta) j.cls j.dl j.port
        | none => s
      match j.req with | some id => partsDone s id 1 | none => s
    else
      match j.vault with
      | some v =>
        let bits := parityDelta v.t q.col delta
        let i := j.place.col - (parityPlace s v q).col
        if sectorBad d then
          let s := endJob s k j.jid
          (match j.req with | some id => partsDone s id 1 | none => s)
        else
          let new := sectorOf (plain d ^^^ (bits >>> (256 * i)).setWidth 256)
          let s := setJob s k { j with st := .writing, got := some new }
          enqueue s (jobEntry s k j (some new))
      | none => endJob s k j.jid
  | .result data => jobWrite s k j d data

/-- A drain's sum has joined the command queue: its fragments leave the directory. Each read that joined while they were held
takes the sum with the fragments that were held then, unless it takes a later write (R198, R199). -/
def drainJoined (s : State) (k : Nat) (j : Job) : State :=
  let hs := (heldAt (oct s k) j.place).filter (fun h => decide (h.seq < j.mark))
  let s := modOct s k (fun o => { o with held := o.held.filter (fun h => !(h.place == j.place && decide (h.seq < j.mark))) })
  let s := evOct s k 0x09 hs.length none
  let n0 := ((hs.head?).map (·.seq)).getD 0
  match j.base with
  | some d => modChan s j.place.ch (fun c =>
      overlayReads c j.place (fun e => heldSum (hs.filter (fun h => decide (h.seq ≤ e.seq))) d) n0 false (fun e =>
        decide (n0 ≤ e.seq) && ((List.range e.n).all (fun i => decide (e.at i ≠ j.place ∨ e.taken i < n0))) && !e.owner.isJob k j.jid))
  | none => s

end Sys2Proof.Machine
end

