-- ==== Sys2Proof/Machine/Oper.lean ====
section
/-! DEFINITION. Operations: the checks of a descriptor, its units and slices, and the combination of its results
(06, 07). -/

namespace Sys2Proof.Machine

/-! ### Channel-local operands (R136, R137) -/

/-- A footprint sector as its number in the successor order of R136. -/
def linOf (r : Region) (bank row col : Nat) : Nat := ((bank - r.bank0) * r.rows + (row - r.rowLo)) * 32 + col

/-- The place in channel c of a footprint sector number. -/
def linPlace (r : Region) (c l : Nat) : Place :=
  { ch := c, bank := r.bank0 + l / 32 / r.rows, row := r.rowLo + l / 32 % r.rows, col := l % 32 }

/-- Sectors of the footprint in one channel. -/
def linTotal (r : Region) : Nat := r.banks * r.rows * 32

/-- A failed check of step 2: REJECT with a detail, in the order of Table 2-10, or DESC with a code of Table 6-6. -/
structure Bad where
  stale : Bool
  bounds : Bool
  range : Bool
  tenant : Bool
  wprot : Bool
  codes : List Nat
  deriving DecidableEq, Repr

/-- Nothing failed. -/
def Bad.none : Bad := { stale := false, bounds := false, range := false, tenant := false, wprot := false, codes := [] }

/-- Two sets of failures. -/
def Bad.and (a b : Bad) : Bad :=
  { stale := a.stale || b.stale, bounds := a.bounds || b.bounds, range := a.range || b.range
    tenant := a.tenant || b.tenant, wprot := a.wprot || b.wprot, codes := a.codes ++ b.codes }

/-- A DESC code when a condition holds. -/
def descIf (b : Bool) (code : Nat) : Bad := { Bad.none with codes := if b then [code] else [] }

/-- Tenant and write-enable checks of a region (R137). -/
def regionBad (r : Region) (h : Hdr) (write : Bool) : Bad :=
  { Bad.none with tenant := h.priv == 0#2 && r.tenant != h.tenant, wprot := write && !r.we }

/-- The region of a resident operand of n sectors at a channel-local address, and what fails (R136, R137). -/
def residentOp (s : State) (h : Hdr) (a : Word) (n : Nat) (write : Bool) : Option Region × Bad :=
  let bank := fieldNat a 22 4
  let row := fieldNat a 5 17
  match rowRegion s bank row with
  | none => (none, { Bad.none with range := true })
  | some r =>
    let ends := linTotal r < linOf r bank row (fieldNat a 0 5) + n
    (some r, (regionBad r h write).and (descIf (!r.resident || ends) 6))

/-- The sectors of a data range of n sectors, and what fails: it lies in one region, of the STRIPED map when `striped`. -/
def dataOp (s : State) (h : Hdr) (addr n : Nat) (write striped : Bool) : List SecRef × Bad :=
  match regionOf s addr 1 with
  | none => ([], { Bad.none with range := true })
  | some r =>
    let ends := !(r.holds s addr (32 * n))
    (if ends then [] else sectorsIn s r addr n,
      (regionBad r h write).and (descIf (ends || (striped && r.resident)) 6))

/-! ### Types and sizes -/

/-- The weights of an operation's results per channel and overall, by its counts (Tables 6-2 and 6-4, R165). -/
def Desc.nv (d : Desc) : Nat := fieldNat d.nvec 0 3 + 1
/-- WTYPE. -/
def Desc.wt (d : Desc) : Nat := fieldNat d.types 0 4
/-- VTYPE. -/
def Desc.vt (d : Desc) : Nat := fieldNat d.types 4 4
/-- DEST. -/
def Desc.dest (d : Desc) : Nat := fieldNat d.ctl 1 2
/-- ITEM of GATHER and SCATTER_ADD. -/
def Desc.item (d : Desc) : Nat := fieldNat d.mode 0 4
/-- BOFS. -/
def Desc.slot (d : Desc) : Nat := fieldNat d.bofs 0 13
/-- BLEN. -/
def Desc.slotLen (d : Desc) : Nat := fieldNat d.blen 0 14
/-- HDLV. -/
def Desc.hdlv (d : Desc) : Bool := d.flags.getLsbD 4
/-- DROP_LATE. -/
def Desc.dropLate (d : Desc) : Bool := d.flags.getLsbD 0
/-- CNT_M. -/
def Desc.m (d : Desc) : Nat := d.cntM.toNat
/-- CNT_K. -/
def Desc.k (d : Desc) : Nat := d.cntK.toNat

/-- Sectors of n items of w bytes. -/
def secsFor (n w : Nat) : Nat := (n * w + 31) / 32

/-- ITEM is a number of sectors that Table 6-4 lists. -/
def itemOk (d : Desc) : Nat := if 1 ≤ d.item ∧ d.item ≤ 8 then 0 else 2

/-- The form that OP and MODE name, and the code of Table 6-6 where a code of OP (1) or of MODE (2) is not listed (Tables
6-2, 6-4). A reserved MODE whose operation leaves the operands' checks the same still has a form (R137, R144). An ITEM
outside 1-8 is a MODE value not listed: code MODE (DEDUCED, log 85). -/
def formOf (d : Desc) : Option OpForm × Nat :=
  match d.op.toNat with
  | 1 => (if d.mode.toNat % 2 = 0 then some .dotRow else some .dotK, 0)
  | 2 => (some .attn, 0)
  | 3 => (some .gather, itemOk d)
  | 4 => (some .scatter, itemOk d)
  | 5 => (match d.mode.toNat % 4 with | 0 => (some .setxI, 0) | 1 => (some .setxU, 0) | 2 => (some .setxD, 0) | _ => (some .setxI, 2))
  | 6 => (some .expand, 0)
  | 7 => (some .filter, 0)
  | 8 => (match d.mode.toNat % 4 with | 0 => (some .copyRes, 0) | 1 => (some .copyStr, 0) | 2 => (some .copyCrown, 0) | _ => (none, 2))
  | 9 => (some .fill, 0)
  | _ => (none, 1)

/-- Types and DEST permitted for a form (R134, R152, Table 6-4). -/
def typesOk (f : OpForm) (d : Desc) : Bool :=
  let w := d.wt
  let v := d.vt
  let isInt := d.ctl.getLsbD 0
  let destOk := decide (d.dest ≤ 2)
  match f with
  | .dotRow | .dotK =>
    decide (w ≤ 9) && decide (v ≤ 3) && destOk && (!isInt || (decide (w ≤ 1) && v == 2))
  | .attn => [4, 5, 2, 3].contains w && [0, 1, 3].contains v && destOk
  | .gather => destOk
  | .scatter => [8, 4, 5, 9].contains w
  | .setxI | .setxU | .setxD | .expand => w == 9 && destOk
  | .filter => (w == 9 || w == 8) && destOk
  | .copyRes | .copyStr | .fill => d.dest == 2
  | .copyCrown => d.dest == 0 || d.dest == 2

/-- Bits set in a mask. -/
def popcount (m : BitVec 64) : Nat := ((List.range 64).filter (fun c => m.getLsbD c)).length

/-- The channels of a mask, ascending: the channel of rank j is the j-th (R138). -/
def maskChans (m : BitVec 64) : List Nat := (List.range 64).filter (fun c => m.getLsbD c)

/-- The mask must be zero: ATTN, COPY STRIPED and FILL to a data address (R153, R163, R164). -/
def maskDerived (f : OpForm) (d : Desc) : Bool :=
  match f with
  | .attn | .copyStr => true
  | .fill => d.mode.getLsbD 1
  | _ => false

/-- Sectors of a fixed-size result (R165): DOT, ATTN, GATHER, COPY FROM_CROWN; RCAP for lists; none for the rest. -/
def resultSecs (f : OpForm) (d : Desc) : Nat :=
  let p := popcount d.chmask
  match f with
  | .dotRow => secsFor (p * d.m * d.nv) 4
  | .dotK => secsFor (d.m * d.nv) 4
  | .attn =>
    let o := secsFor (attnDv d.wt (attnFmt d.param1)) 4
    d.nv * (if d.mode.getLsbD 1 then o else 1 + o)
  | .gather => d.k * d.item
  | .setxI | .setxU | .setxD | .expand | .filter => d.rcap.toNat
  | .copyCrown => d.m
  | _ => 0

/-- The slot length that a form requires, none where the slot is ignored (Table 6-4). -/
def slotNeed (f : OpForm) (d : Desc) : Option Nat :=
  let p := popcount d.chmask
  match f with
  | .dotRow => some (d.nv * secsFor d.k (vBytes d.vt))
  | .dotK => some (d.nv * secsFor (p * d.k) (vBytes d.vt))
  | .attn => some (d.nv * secsFor (attnDk d.wt (attnFmt d.param1)) (vBytes d.vt))
  | .gather | .expand => some ((d.k + 7) / 8)
  | .scatter => some ((d.k + 7) / 8 + d.k * d.item)
  | .fill => if d.mode.getLsbD 0 then some 1 else none
  | _ => none

/-- Count ranges and alignment rules of a form (Table 6-4, R150, R151, R153, R163): DESC code COUNT. -/
def countBad (f : OpForm) (d : Desc) : Bool :=
  let idxBad := decide (d.k < 1 ∨ 65536 < d.k)
  match f with
  | .dotRow | .dotK =>
    decide (d.m < 1 ∨ d.k < 1 ∨ 16384 < d.k) || ((d.wt == 6 || d.wt == 7) && decide (d.k % 32 ≠ 0)) ||
      (f == .dotK && decide (d.k * vBytes d.vt % 32 ≠ 0))
  | .attn =>
    let a := attnFmt d.param1
    decide (a.tstride < 1 ∨ 128 < a.tstride) || !([1, 2, 4, 8].contains a.reclen) || decide (a.klen < 1 ∨ a.reclen ≤ a.klen)
  | .gather | .scatter | .expand => idxBad
  | .copyStr => false
  | _ => false

/-- Handle layout rules of ATTN that need the descriptor alone (R153): DESC code HANDLE. -/
def attnLayoutBad (a : AttnFmt) : Bool :=
  !(a.tstride == 1 || a.tstride == 2 || a.tstride == 4 || a.tstride % 8 == 0) || decide (a.roff % max 1 a.reclen ≠ 0) ||
    decide (a.tstride < a.roff + a.reclen)

/-- Resident operands of a form: operand A and B with their lengths and whether they are written (Table 6-4). -/
def residentOps (f : OpForm) (d : Desc) : Option (Nat × Bool) × Option (Nat × Bool) :=
  match f with
  | .dotRow | .dotK => (some (d.m * rowSectors' d.wt d.k, false), none)
  | .gather => (some (d.m * d.item, false), none)
  | .scatter => (some (d.m * d.item, true), none)
  | .setxI | .setxU | .setxD => (some (1 + (d.m + 7) / 8, false), some (1 + (d.k + 7) / 8, false))
  | .expand => (some ((d.m + 1 + 7) / 8, false), some (1, false))
  | .filter => (some ((d.m + 7) / 8, false), none)
  | .copyRes => (some (d.m, false), some (d.m, true))
  | .fill => (if d.mode.getLsbD 1 then none else some (d.m, true), none)
  | _ => (none, none)

/-- The source data address of COPY STRIPED: PARAM1[7:0], PARAM0 (R163). -/
def copySource (d : Desc) : Nat := fieldNat d.param1 0 8 * 2 ^ 32 + d.param0.toNat

/-- A writing request among operations (R79, R308). -/
def opWrites (f : OpForm) (d : Desc) : Bool :=
  match f with
  | .scatter | .fill | .copyRes | .copyStr => true
  | _ => d.dest == 2

/-! ### Reservations (Tables 7-6 and 7-7) -/

/-- The octants of a mask. -/
def octsOf (m : BitVec 64) : List Nat := ((maskChans m).map octOf).dedup

/-- The head Crown (R25). -/
def headOf (m : BitVec 64) : Nat := match maskChans m with | c :: _ => octOf c | [] => 0

/-- Bytes reserved in each Crown of the mask, and in the head in addition (Table 7-6). -/
def workNeed (f : OpForm) (d : Desc) : Nat × Nat :=
  let res := 32 * resultSecs f d
  let rc := if d.dest = 2 then 0 else res
  let r := if d.dest = 0 then res else 0
  match f with
  | .dotRow | .gather => (16384, rc)
  | .dotK => (32 * secsFor (d.m * d.nv) 4, r)
  | .attn => (32 * (d.nv * (1 + (attnDv d.wt (attnFmt d.param1) + 7) / 8)), r)
  | .setxI | .setxU | .setxD | .expand | .filter => (65536, 65536 + r)
  | _ => (0, 0)

/-- Lock slots reserved in octant k: 8 in each Crown that writes result sectors (Table 7-7). -/
def lockNeed (f : OpForm) (d : Desc) (m : BitVec 64) (k : Nat) : Nat :=
  if d.dest ≠ 2 then 0
  else match f with
    | .dotRow | .gather => if (octsOf m).contains k then 8 else 0
    | .dotK | .attn | .setxI | .setxU | .setxD | .expand | .filter | .copyCrown => if k = headOf m then 8 else 0
    | _ => 0

/-- Bytes reserved in octant k. -/
def octNeed (f : OpForm) (d : Desc) (m : BitVec 64) (k : Nat) : Nat :=
  let w := workNeed f d
  (if (octsOf m).contains k then w.1 else 0) + (if k = headOf m then w.2 else 0)

end Sys2Proof.Machine
end

