-- ==== Sys2Proof/Machine/Plan.lean ====
section
/-! DEFINITION. An operation's checks at step 2, its units and slices, its vector copies, and the combination of its
partials (R133-R166, R183-R187). -/

namespace Sys2Proof.Machine

/-! ### Streams through a handle (R85) -/

/-- A handle as a request names it: its entry, its parent's entry, and whether either was poisoned when fetched. -/
structure Named where
  entry : BitVec 256
  par : BitVec 256
  bad : Bool
  parBad : Bool
  deriving DecidableEq, Repr

/-- The areas of stream sectors [o, o + n): data address and length of the part below PLEN and of the part above. -/
def streamAreas (x : Named) (o n : Nat) : List (Nat × Nat) :=
  let pl := if hChild x.entry then hPlen x.entry else 0
  let below := min (o + n) pl - o
  let above := n - below
  (if below = 0 then [] else [((hBase x.par + o) * 32, below)]) ++
    (if above = 0 then [] else [((hBase x.entry + (o + below - pl)) * 32, above)])

/-- The handle does not serve stream sectors [o, o + n): it is not VALID, or a parent entry it needs is poisoned
(R82, R86). -/
def streamStale (x : Named) (o n : Nat) : Bool :=
  x.bad || !hValid x.entry || (x.parBad && hChild x.entry && decide (0 < min (o + n) (hPlen x.entry) - o))

/-- Two sets of translated sectors with their failures, one after the other. -/
def joinOps (a b : List SecRef × Bad) : List SecRef × Bad := (a.1 ++ b.1, a.2.and b.2)

/-- The sectors of areas, each checked as a data range (R85, R137). -/
def areasOp (s : State) (h : Hdr) (as : List (Nat × Nat)) (write striped : Bool) : List SecRef × Bad :=
  as.foldl (fun t a => joinOps t (dataOp s h a.1 a.2 write striped)) ([], Bad.none)

/-! ### The plan of a descriptor -/

/-- The mask of the channels that hold a list of sectors. -/
def maskOf (rs : List SecRef) : BitVec 64 := rs.foldl (fun m r => m ||| (1#64 <<< r.place.ch)) 0#64

/-- DADDR names a data address (Table 6-1, R163-R165). -/
def usesDaddr (f : OpForm) (d : Desc) : Bool :=
  match f with
  | .scatter | .copyRes => false
  | .fill => d.mode.getLsbD 1
  | _ => d.dest == 2

/-- Visible length of a handle's stream for an ATTN (Table 3-9, R154, R169). -/
def visibleLen (h : Hdr) (d : Desc) (e : BitVec 256) : Nat :=
  if d.flags.getLsbD 1 && !d.flags.getLsbD 2 && h.tenant == hTenant e then hTentative e else hCommitted e

/-- The tokens that an ATTN covers, first and limit E (R154). -/
def attnRange (d : Desc) (lvis : Nat) : Nat × Nat :=
  let e := lvis / max 1 (attnFmt d.param1).tstride
  (d.m, if 0 < d.k then min e (d.m + d.k) else e)

/-- The header with the tenant that a handle's regions are compared with: the request's TENANT is compared with the
handle's, and the handle's with the region's (R58, R85; DEDUCED, log 83). -/
def asTenant (h : Hdr) (e : BitVec 256) : Hdr := { h with tenant := hTenant e }

/-- Tenant check of a named handle (R58, R169). -/
def handleTenant (h : Hdr) (e : BitVec 256) : Bad := { Bad.none with tenant := h.priv == 0#2 && h.tenant != hTenant e }

/-- The units of an ATTN: each token with the sectors of its record (R153, R154). -/
def attnUnits (s : State) (h : Hdr) (d : Desc) (x : Named) (lvis : Nat) : List (Nat × List SecRef) × Bad :=
  let f := attnFmt d.param1
  let (t0, e) := attnRange d lvis
  let us := (List.range (e - t0)).map (fun i =>
    let o := (t0 + i) * f.tstride + f.roff
    (t0 + i, areasOp s (asTenant h x.entry) (streamAreas x o f.reclen) false false,
      streamStale x o f.reclen))
  (us.map (fun u => (u.1, u.2.1.1)),
    us.foldl (fun b u => b.and { u.2.1.2 with stale := u.2.2 }) Bad.none)

/-- Two lists of data ranges share a sector. -/
def areasMeet (a b : List (Nat × Nat)) : Bool :=
  a.any (fun x => b.any (fun y => decide (x.1 < y.1 + 32 * y.2 ∧ y.1 < x.1 + 32 * x.2)))

/-- Units of COPY STRIPED and of FILL to a data address: each sector number with its source and destination. -/
def pairUnits (src dst : List SecRef) : List (Nat × List SecRef) :=
  (dst.zipIdx).map (fun e => (e.2, (match src[e.2]? with | some r => [r] | none => []) ++ [e.1]))

/-- What is wrong with a descriptor, and its plan (R134-R137, R144, R153, R162-R165, Table 6-6). The Bool is ALIGN.
`nm` is the handle it names, when it names one. -/
def planOf (s : State) (h : Hdr) (d : Desc) (nm : Option Named) : Bool × Bad × Option Plan :=
  match formOf d with
  | (none, c) => (c == 2 && decide (d.dest = 2) && decide (d.daddr.toNat % 32 ≠ 0), descIf true (if d.dest = 3 then 1 else c), none)
  | (some f, c) =>
    let n := nChan s
    let absent := decide (2 ^ n ≤ d.chmask.toNat)
    let maskBad := absent ||
      (if maskDerived f d then d.chmask != 0
       else d.chmask == 0 || (f == .copyCrown && decide (popcount d.chmask ≠ 1)))
    let res := resultSecs f d
    let slotBad := match slotNeed f d with
      | some k => decide (8192 < d.slot + d.slotLen ∨ d.slotLen ≠ k)
      | none => false
    -- resident operands
    let ra := match (residentOps f d).1 with
      | some (k, w) => if k = 0 then (none, Bad.none) else residentOp s h d.opra k w
      | none => (none, Bad.none)
    let rb := match (residentOps f d).2 with
      | some (k, w) => if k = 0 then (none, Bad.none) else residentOp s h d.oprb k w
      | none => (none, Bad.none)
    let resOverlap := f == .copyRes && (match ra.1, rb.1 with
      | some g, some g' =>
        let a := linOf g (fieldNat d.opra 22 4) (fieldNat d.opra 5 17) (fieldNat d.opra 0 5)
        let b := linOf g' (fieldNat d.oprb 22 4) (fieldNat d.oprb 5 17) (fieldNat d.oprb 0 5)
        decide (g = g') && decide (a < b + d.m ∧ b < a + d.m)
      | _, _ => false)
    -- the handle
    let hdlUse := d.hdlv && (f == .attn || f == .copyStr)
    let x := nm.getD { entry := 0, par := 0, bad := true, parBad := true }
    let af := attnFmt d.param1
    let lvis := if f == .attn && hdlUse then visibleLen h d x.entry else 0
    let attnOk := !(countBad f d) && !(attnLayoutBad af)
    let hdlLayout := f == .attn && (!d.hdlv || (!countBad f d && (attnLayoutBad af ||
      (hdlUse && (decide (hBase x.entry % 8 ≠ 0) ||
        (hChild x.entry && decide (hBase x.par % 8 ≠ 0 ∨ hPlen x.entry % 8 ≠ 0)))))))
    let au := if f == .attn && hdlUse && attnOk then attnUnits s h d x lvis else ([], Bad.none)
    -- COPY STRIPED and FILL to a data address
    let srcAreas := if hdlUse then streamAreas x d.k d.m else [(copySource d, d.m)]
    let src := if f == .copyStr && decide (0 < d.m) then
      areasOp s (if hdlUse then asTenant h x.entry else h) srcAreas false true else ([], Bad.none)
    let toData := f == .copyStr || (f == .fill && d.mode.getLsbD 1)
    let nd := if toData then d.m else if d.dest = 2 then res else 0
    let dst := if usesDaddr f d && decide (0 < nd) then dataOp s h d.daddr.toNat nd true toData else ([], Bad.none)
    let shift := f == .copyStr && srcAreas.any (fun a => decide (0 < a.2)) &&
      (src.1.zip dst.1).any (fun p => p.1.place.ch != p.2.place.ch)
    let apart := (copySource d) % 2 ^ 20 ≠ d.daddr.toNat % 2 ^ 20
    let congr := f == .copyStr && (if hdlUse then
        (srcAreas.foldl (fun (acc : Nat × Bool) a =>
          (acc.1 + a.2, acc.2 || decide (a.1 % 2 ^ 20 ≠ (d.daddr.toNat + 32 * acc.1) % 2 ^ 20))) (0, false)).2
      else decide apart) || shift
    let copyOver := f == .copyStr && areasMeet srcAreas [(d.daddr.toNat, d.m)]
    let stale := if hdlUse then
        (if f == .attn then !hValid x.entry || x.bad else streamStale x d.k d.m) || au.2.stale
      else false
    let bounds := f == .copyStr && hdlUse && decide (hCommitted x.entry < d.k + d.m)
    let units := if f == .attn then au.1
      else if f == .copyStr then pairUnits src.1 dst.1
      else if f == .fill && d.mode.getLsbD 1 then pairUnits [] dst.1 else []
    let mask := if maskDerived f d then maskOf (units.flatMap (·.2)) else d.chmask
    let head := headOf mask
    let crownOut := d.dest == 1 && decide (0 < res) && decide (clientBytes s head < d.daddr.toNat + 32 * res)
    let fromOut := f == .copyCrown && decide (clientBytes s head < d.param0.toNat + 32 * d.m)
    let tooBig := (List.range (nOct s)).any (fun k => decide (workBytes s k < octNeed f d mask k))
    let resultBad := (d.dest == 0 && decide (128 < res)) || (f.isList && d.rcap == 0#16) || crownOut
    let codes := [(!typesOk f d, 1), (c == 2 || (f == .filter && d.mode.toNat % 8 == 7 && d.wt == 8), 2), (maskBad, 3),
      (countBad f d || congr || tooBig, 4), (slotBad, 5), (fromOut, 6), (hdlLayout, 7), (resultBad, 8),
      (resOverlap || copyOver, 9)]
    let bad := ((((ra.2.and rb.2).and au.2).and src.2).and dst.2).and
      { (if hdlUse then handleTenant h x.entry else Bad.none) with
          stale := stale, bounds := bounds, codes := (codes.filter (·.1)).map (·.2) }
    (usesDaddr f d && d.dest == 2 && decide (d.daddr.toNat % 32 ≠ 0), bad,
      some { form := f, mask := mask, units := units, dst := dst.1, opA := ra.1, opB := rb.1, lvis := lvis })

/-! ### Partition of index lists (R138, R157, R161) -/

/-- The forms that distribute a list of items over the mask. -/
def OpForm.partitions (f : OpForm) : Bool := f == .gather || f == .scatter || f == .expand

/-- The sectors of the broadcast slot from sector `a` on, n of them. -/
def slotSecs (s : State) (a n : Nat) : List Sector :=
  (List.range n).map (fun i => ⟨Tab.get s.disp.bbuf (2 * (a + i)) 0#152, Tab.get s.disp.bbuf (2 * (a + i) + 1) 0#152⟩)

/-- The indices of the slot in list order. -/
def slotIndices (s : State) (d : Desc) : List Nat :=
  let vs := (slotSecs s d.slot ((d.k + 7) / 8)).map secVal
  (List.range d.k).map (fun i => elemAt vs 32 i)

/-- The partition of a channel of rank j: list position and local position of its items in range. -/
def partOf (s : State) (d : Desc) (j : Nat) : List (Nat × Nat) :=
  let p := popcount d.chmask
  ((slotIndices s d).zipIdx).filterMap (fun e =>
    if e.1 % p = j ∧ e.1 / p < d.m then some (e.2, e.1 / p) else none)

/-- Items out of range by CNT_M, which the slicers count (R157, R161). -/
def partOor (s : State) (d : Desc) : Nat :=
  let p := popcount d.chmask
  ((slotIndices s d).filter (fun i => decide (d.m ≤ i / p))).length

/-! ### Units and slices (R145-R147, Table 6-7) -/

/-- Sector i of a resident operand in channel c. -/
def operandPlace (r : Option Region) (a : Word) (c i : Nat) : Place :=
  match r with
  | some g => linPlace g c (linOf g (fieldNat a 22 4) (fieldNat a 5 17) (fieldNat a 0 5) + i)
  | none => { ch := c, bank := fieldNat a 22 4, row := fieldNat a 5 17, col := fieldNat a 0 5 + i }

/-- n sectors of a resident operand from sector i on. -/
def operandPlaces (r : Option Region) (a : Word) (c i n : Nat) : List Place :=
  (List.range n).map (fun q => operandPlace r a c (i + q))

/-- Sectors of the footprint from an operand's first sector to the footprint's last. -/
def operandRest (r : Option Region) (a : Word) : Nat :=
  match r with
  | some g => linTotal g - linOf g (fieldNat a 22 4) (fieldNat a 5 17) (fieldNat a 0 5)
  | none => 0

/-- The units of an operation in channel c, in order: the places of operands A and B that each uses. -/
def chanUnits (op : Op) (c : Nat) : List (List Place × List Place) :=
  let d := op.d
  let mine := (op.units.filter (fun u => (u.2.head?.map (fun r => r.place.ch)) == some c)).map (·.2)
  let pos := ((Tab.find op.chans c).map (·.part)).getD []
  match op.form with
  | .dotRow | .dotK =>
    let rs := rowSectors' d.wt d.k
    (List.range d.m).map (fun u => (operandPlaces op.opA d.opra c (u * rs) rs, []))
  | .attn => mine.map (fun rs => (rs.map (·.place), []))
  | .gather | .scatter => pos.map (fun p => (operandPlaces op.opA d.opra c (p.2 * d.item) d.item, []))
  | .filter => (List.range ((d.m + 7) / 8)).map (fun u => ([operandPlace op.opA d.opra c u], []))
  | .copyRes => (List.range d.m).map (fun u => ([operandPlace op.opA d.opra c u], [operandPlace op.opB d.oprb c u]))
  | .copyStr => mine.map (fun rs => ((rs.take 1).map (·.place), (rs.drop 1).map (·.place)))
  | .fill =>
    if d.mode.getLsbD 1 then mine.map (fun rs => (rs.map (·.place), []))
    else (List.range d.m).map (fun u => ([operandPlace op.opA d.opra c u], []))
  | _ => []

/-- Sector q follows sector p in the successor order (R136): in its row, in the next row, or in the next bank of the
operand's footprint. -/
def follows (r : Option Region) (p q : Place) : Bool :=
  (p.bank == q.bank && p.row * 32 + p.col + 1 == q.row * 32 + q.col) ||
    (match r with
     | some g => linOf g q.bank q.row q.col == linOf g p.bank p.row p.col + 1
     | none => false)

/-- Runs of successive sectors that a list of places starts, after place `last`. -/
def runStarts (r : Option Region) (last : Option Place) : List Place → Nat
  | [] => 0
  | q :: t =>
    (match last with | some p => if follows r p q then 0 else 1 | none => 1) + runStarts r (some q) t

/-- The slice budget of octant k in tenths of a nanosecond (Table 6-9). -/
def sliceBudget (s : State) (k : Nat) : Nat := max 50 (min 500 (regF s (octPage k) 0x060 0 10)) * 40

/-- Reads and writes per sector named: SCATTER_ADD reads and writes each (Table 6-8). -/
def OpForm.passes (f : OpForm) : Nat := if f == .scatter then 2 else 1

/-- A slice as split() builds it: first unit, units, places of A and B, and cost in tenths of a nanosecond. -/
structure Cut where
  first : Nat
  count : Nat
  a : List Place
  b : List Place
  cost : Nat
  deriving DecidableEq, Repr, Inhabited

/-- split() of R145 over the units of a channel. -/
def splitUnits (op : Op) (budget : Nat) (us : List (List Place × List Place)) : List Cut :=
  let cost := fun (la lb : Option Place) (u : List Place × List Place) =>
    op.form.passes * (2 * (u.1.length + u.2.length) + 5 * (runStarts op.opA la u.1 + runStarts op.opB lb u.2))
  let r := us.foldl (fun (st : List Cut × Cut) u =>
    let x := st.2
    let c := cost x.a.getLast? x.b.getLast? u
    if 0 < x.count ∧ budget < x.cost + c then
      (st.1 ++ [x], { first := x.first + x.count, count := 1, a := u.1, b := u.2, cost := 600 + cost none none u })
    else (st.1, { x with count := x.count + 1, a := x.a ++ u.1, b := x.b ++ u.2, cost := x.cost + c }))
    ([], { first := 0, count := 0, a := [], b := [], cost := 600 })
  if 0 < r.2.count then r.1 ++ [r.2] else r.1

/-- The slices of an operation in channel c: by split(), or one over the whole lists for SETX and EXPAND, whose bank
time is the budget (R145). -/
def cutsOf (s : State) (op : Op) (c : Nat) : List Cut :=
  let d := op.d
  let budget := sliceBudget s (octOf c)
  match op.form with
  | .setxI | .setxU | .setxD =>
    [{ first := 0, count := 1, a := operandPlaces op.opA d.opra c 0 (1 + (d.m + 7) / 8)
       b := operandPlaces op.opB d.oprb c 0 (1 + (d.k + 7) / 8), cost := budget }]
  | .expand =>
    let n := (((Tab.find op.chans c).map (·.part)).getD []).length
    if n = 0 then []
    else [{ first := 0, count := n, a := operandPlaces op.opA d.opra c 0 ((d.m + 8) / 8)
            b := operandPlaces op.opB d.oprb c 0 (operandRest op.opB d.oprb), cost := budget }]
  | _ => splitUnits op budget (chanUnits op c)

/-- Run entries of a list of places, each within one bank (R214). -/
def runsOf (isB : Bool) (ps : List Place) : List (Bool × Nat × Nat × Nat × Nat) :=
  (ps.foldl (fun (acc : List (Bool × Nat × Nat × Nat × Nat)) p =>
    match acc with
    | (o, b, r, c, n) :: t =>
      if b = p.bank ∧ r * 32 + c + n = p.row * 32 + p.col then (o, b, r, c, n + 1) :: t
      else (isB, p.bank, p.row, p.col, 1) :: acc
    | [] => [(isB, p.bank, p.row, p.col, 1)]) []).reverse

/-- The banks of a list of places. -/
def banksOf (ps : List Place) : BitVec 16 := ps.foldl (fun m p => m ||| (1#16 <<< p.bank)) 0#16

/-- The form writes the array inside its slices (R173). -/
def OpForm.writesArray : OpForm → Bool
  | .scatter => true
  | .copyRes => true
  | .copyStr => true
  | .fill => true
  | _ => false

/-- A slice from its cut, with the BUDGET in ticks that it was cut by (R178). -/
def sliceFrom (op : Op) (c budget : Nat) (x : Cut) (resume : Word) : Slice :=
  { d := op.num, ch := c, first := x.first, count := x.count, runs := runsOf false x.a ++ runsOf true x.b
    banks := banksOf (x.a ++ x.b), cost := x.cost, budget := budget, writes := op.form.writesArray, cls := op.cls, dl := op.dl, seq := op.num, resume := resume
    started := none, pausedBanks := 0, pausedAt := none, pausedFor := 0, ctx := none, area := (0, 0), pollAt := 0
    got := [], final := none }

/-! ### Vector buffer content (Table 6-5) -/

/-- What an operation copies to a channel's vector buffer: sector offsets with their data. -/
def copyContent (s : State) (op : Op) (c : Nat) : List (Nat × Sector) :=
  let d := op.d
  let whole := fun (a n : Nat) => ((slotSecs s a n).zipIdx).map (fun e => (a + e.2, e.1))
  let x := (Tab.find op.chans c)
  let pos := (x.map (·.part)).getD []
  let packed := (packAll (pos.map (fun p => some (BitVec.ofNat 32 p.2)))).map SecVal.sector
  let list := (packed.zipIdx).map (fun e => (d.slot + e.2, e.1))
  match op.form with
  | .dotRow | .attn => whole d.slot d.slotLen
  | .dotK =>
    let p := popcount op.mask
    let j := ((maskChans op.mask).findIdx (· == c))
    let vs := secsFor (p * d.k) (vBytes d.vt)
    let n := d.k * vBytes d.vt / 32
    (List.range d.nv).flatMap (fun v => whole (d.slot + v * vs + j * n) n)
  | .gather | .expand => list
  | .scatter =>
    let v0 := d.slot + (d.k + 7) / 8
    let vals := pos.flatMap (fun p => slotSecs s (v0 + p.1 * d.item) d.item)
    list ++ (vals.zipIdx).map (fun e => (d.slot + (pos.length + 7) / 8 + e.2, e.1))
  | .fill => if d.mode.getLsbD 0 then whole d.slot 1 else []
  | _ => []

/-- The operation has content to copy to channel c. -/
def hasContent (op : Op) (c : Nat) : Bool :=
  match op.form with
  | .dotRow | .dotK | .attn => true
  | .gather | .scatter | .expand => !(((Tab.find op.chans c).map (·.part)).getD []).isEmpty
  | .fill => op.d.mode.getLsbD 0
  | _ => false

/-- The vector-buffer range that a descriptor uses: empty where its form uses none (R142). -/
def slotRange (op : Op) : Nat × Nat := match slotNeed op.form op.d with | some _ => (op.d.slot, op.d.slotLen) | none => (0, 0)

/-- Two ranges of sectors share a sector. -/
def rangesMeet (a b : Nat × Nat) : Bool := spansMeet a.1 a.2 b.1 b.2

/-- An operation's entries in a channel's queues that carry its vector copy. -/
def copyQueued (s : State) (d c : Nat) : Bool :=
  let q := fun (e : Entry) => decide (e.place.bank = 16) && (match e.owner with | .slice d' => d' == d | _ => false)
  (chan s c).rq.any q || (chan s c).cmdq.any q

/-- Every copy sector of an operation in channel c has been sent. -/
def copySent (s : State) (op : Op) (c : Nat) : Bool :=
  match Tab.find op.chans c with
  | some x => x.copied || x.done || (x.copying && !copyQueued s op.num c)
  | none => true

/-- A BCAST of sectors [a, a + n) waits for the copies out of an admitted operation's slot (R140). -/
def bcastBlocked (s : State) (a n : Nat) : Bool :=
  s.disp.ops.any (fun e => !e.2.stopped && rangesMeet (slotRange e.2) (a, n) &&
    (maskChans e.2.mask).any (fun c => !copySent s e.2 c))

/-! ### Combination (Table 7-2, R165, R166, R183-R187) -/

/-- The values of words summed in an order that is not specified; a value that may not be used makes the sum so. -/
def sumWords (isInt : Bool) (ws : List (Option Word)) (n : Nat) : Option Word × Nat :=
  if ws.any Option.isNone then (none, n)
  else
    let vs := ws.map (fun w => w.getD 0#32)
    if isInt then (some (vs.foldl (· + ·) 0#32), n)
    else
      let (v, n') := sumAny addF vs.length vs n
      (some v, n')

/-- What channel c returned, slice by slice. -/
def chanParts (op : Op) (c : Nat) : List (Nat × Nat × List SecVal) :=
  (((Tab.find op.chans c).map (·.parts)).getD []).map (fun p => (p.1, p.2.1, p.2.2.map secVal))

/-- The outputs of a channel of a DOT for vector v, in row order. -/
def dotOuts (op : Op) (c v : Nat) : List (Option Word) :=
  (chanParts op c).flatMap (fun p =>
    let n := (p.2.1 + 7) / 8
    (allWords ((p.2.2.drop (v * n)).take n)).take p.2.1)

/-- The partials of a channel of an ATTN for query v, one per slice. -/
def attnParts (op : Op) (c v : Nat) : List (List (Option Word)) :=
  let dv := attnDv op.d.wt (attnFmt op.d.param1)
  let n := 1 + (dv + 7) / 8
  (chanParts op c).map (fun p =>
    let ss := (p.2.2.drop (v * n)).take n
    (allWords (ss.take 1)).take 2 ++ (allWords (ss.drop 1)).take dv)

/-- The elements of the list that a slice returned, and whether a sector of it may not be used. -/
def partList (p : List SecVal) : List Nat × Bool := (listOf p (8 * p.length), anyBad p)

/-- The octants of an operation's mask, each with its channels: one Crown works on the partials of each (R183). -/
def crownChans (op : Op) : List (List Nat) :=
  (octsOf op.mask).map (fun k => (maskChans op.mask).filter (fun c => octOf c == k))

/-- KSPLIT: output m of vector v. Each Crown adds its channels' values, and the head Crown adds the Crowns' sums (Table
7-2). -/
def addCrowns (isInt : Bool) (outs : List (List (List (Option Word)))) (m n : Nat) : Option Word × Nat :=
  let r := outs.foldl (fun (a : List (Option Word) × Nat) g =>
    let (w, n) := sumWords isInt (g.map (fun o => o.getD m none)) a.2
    (a.1 ++ [w], n)) ([], n)
  sumWords isInt r.1 r.2

/-- Partials merged in an arrival order that is not fixed, from the first one (R186, R187). -/
def mergeParts (ps : List (List (Option Word))) (n : Nat) : List (List (Option Word)) × Nat :=
  let (qs, n') := permute ps.length ps n
  (match qs with | [] => [] | p :: t => [t.foldl attnMerge p], n')

/-- The merged partial of query v: each Crown merges its channels' partials, and the head Crown the Crowns' (Table 7-2). -/
def mergeCrowns (op : Op) (v n : Nat) : List (Option Word) × Nat :=
  let r := (crownChans op).foldl (fun (a : List (List (Option Word)) × Nat) cs =>
    let (p, n) := mergeParts ((cs.flatMap (fun c => attnParts op c v)).map attnSpread) a.2
    (a.1 ++ p, n)) ([], n)
  let (p, n) := mergeParts r.1 r.2
  (p.headD (emptyPartial (attnDv op.d.wt (attnFmt op.d.param1))), n)

/-- The ascending stream of a list operation: each Crown merges its channels' streams, and the head Crown the Crowns'
(Table 7-2); and whether a sector of one may not be used. -/
def mergeStreams (op : Op) (dedup : Bool) : List Nat × Bool :=
  let p := popcount op.mask
  let rank := fun (c : Nat) => (maskChans op.mask).findIdx (· == c)
  let rs := (crownChans op).map (fun cs =>
    let ls := cs.flatMap (fun c => (chanParts op c).map (fun q =>
      let l := partList q.2.2
      (if op.form == .filter then l.1.map (fun v => v * p + rank c) else l.1, l.2)))
    (mergeAsc dedup (ls.flatMap (·.1)) [], ls.any (·.2)))
  (mergeAsc dedup (rs.flatMap (·.1)) [], rs.any (·.2))

/-- The final result of an operation as sectors, and the free choices taken (Table 7-2). -/
def combine (op : Op) (free : Nat) : List SecVal × Nat :=
  let d := op.d
  let cs := maskChans op.mask
  match op.form with
  | .dotRow => (packAll ((List.range d.nv).flatMap (fun v => cs.flatMap (fun c => dotOuts op c v))), free)
  | .dotK =>
    let r := (List.range d.nv).foldl (fun (acc : List (Option Word) × Nat) v =>
      let outs := (crownChans op).map (fun g => g.map (fun c => dotOuts op c v))
      (List.range d.m).foldl (fun (a : List (Option Word) × Nat) m =>
        let (w, n) := addCrowns (d.ctl.getLsbD 0) outs m a.2
        (a.1 ++ [w], n)) acc) ([], free)
    (packAll r.1, r.2)
  | .attn =>
    (List.range d.nv).foldl (fun (acc : List SecVal × Nat) v =>
      let (m, n) := mergeCrowns op v acc.2
      (acc.1 ++ attnResult (d.mode.getLsbD 1) m, n)) ([], free)
  | .gather =>
    let items := cs.flatMap (fun c =>
      let part := ((Tab.find op.chans c).map (·.part)).getD []
      let secs := (chanParts op c).flatMap (fun p => p.2.2)
      (part.zipIdx).map (fun e => (e.1.1, (secs.drop (e.2 * d.item)).take d.item)))
    let zero : SecVal := { data := 0, bad0 := false, bad1 := false }
    ((List.range d.k).flatMap (fun i =>
      match items.find? (fun e => e.1 == i) with
      | some e => if anyBad e.2 then e.2.map SecVal.spoil else e.2
      | none => List.replicate d.item zero), free)
  | .setxI | .setxU | .setxD | .expand | .filter =>
    let r := mergeStreams op (op.form != .filter && (op.form != .expand || d.mode.getLsbD 0))
    (listResult r.2 d.rcap.toNat r.1, free)
  | _ => ([], free)

/-- The Crown that writes result sector i to the stack: for ROWSPLIT and GATHER the Crown of the channel whose output
stands first in it, else the head Crown (Table 7-2). -/
def resultCrown (op : Op) (i : Nat) : Nat :=
  let cs := maskChans op.mask
  match op.form with
  | .dotRow => octOf (cs.getD (8 * i / max 1 op.d.m % max 1 cs.length) 0)
  | .gather =>
    match cs.find? (fun c => (((Tab.find op.chans c).map (·.part)).getD []).any (fun p => p.1 == i / max 1 op.d.item)) with
    | some c => octOf c
    | none => op.head
  | _ => op.head

/-- Octants of the mask whose channels ran a slice (R183). -/
def sendingOcts (op : Op) : List Nat :=
  ((maskChans op.mask).filter (fun c =>
    match Tab.find op.chans c with | some x => !x.parts.isEmpty | none => false)).map octOf |>.dedup

/-- Every channel of the mask in octant k is done. -/
def octReady (op : Op) (k : Nat) : Bool :=
  (maskChans op.mask).all (fun c => octOf c != k || (match Tab.find op.chans c with | some x => x.done | none => true))

/-- All work before the result is done: every channel, and every Crown's result at the head Crown. -/
def opReady (op : Op) : Bool :=
  (maskChans op.mask).all (fun c => match Tab.find op.chans c with | some x => x.done | none => true) &&
    (sendingOcts op).all (fun k => op.octDone.contains k)

end Sys2Proof.Machine
end

