-- ==== Sys2Proof/Machine/Hdl.lean ====
section
/-! DEFINITION. The handle unit: its cache, the fetch and write-through of entries, and the effects of handle commands
(03). -/

namespace Sys2Proof.Machine

/-! ### The cache (R80-R82) -/

/-- The cached entry of handle h. -/
def hdlGet (s : State) (h : Nat) : Option HdlEntry := Tab.find s.hdl.cache h

/-- Handle h is in the cache. -/
def hdlCached (s : State) (h : Nat) : Bool := (hdlGet s h).isSome

/-- The bytes of handle h's cached entry. -/
def hdlBytes (s : State) (h : Nat) : BitVec 256 := ((hdlGet s h).map (·.bytes)).getD 0#256

/-- A cached entry whose read was uncorrectable or poisoned, which is invalid (R82). -/
def hdlPoisoned (s : State) (h : Nat) : Bool := match hdlGet s h with | some e => e.bad || e.poisoned | none => false

/-- The cached entry of handle h changed by f. -/
def modHdlEntry (s : State) (h : Nat) (f : HdlEntry → HdlEntry) : State :=
  match hdlGet s h with
  | some e => { s with hdl := { s.hdl with cache := Tab.put s.hdl.cache h (f e) } }
  | none => s

/-- A use of handle h's entry. -/
def hdlTouch (s : State) (h : Nat) : State :=
  let s := modHdlEntry s h (fun e => { e with used := s.hdl.uses })
  { s with hdl := { s.hdl with uses := s.hdl.uses + 1 } }

/-- The bytes of handle h's entry replaced in the cache; `dirty` while the store has not got them. -/
def hdlSet (s : State) (h : Nat) (b : BitVec 256) (dirty : Bool) : State :=
  modHdlEntry s h (fun e => { e with bytes := b, dirty := dirty })

/-- Some admitted request names handle h (R80). -/
def hdlNamed (s : State) (h : Nat) : Bool :=
  s.reqs.any (fun r => r.stage != .replied && r.stage != .beats && r.handles.contains (BitVec.ofNat 16 h)) ||
    (match s.hdl.op with
     | some o => o.handle.toNat == h || hParent o.image == h || hParent (hdlBytes s o.handle.toNat) == h
     | none => false)

/-- Read entries for handle h are on their way. -/
def hdlFetching (s : State) (h : Nat) : Bool :=
  let c := chan s (hdlPlace s h).ch
  let mine := fun (e : Entry) => e.owner == .hdl h && !e.write
  c.rq.any mine || c.cmdq.any mine || c.inflight.any (fun f => match f.what with | .data e _ => mine e | _ => false)

/-- Handle h's entry is fetched from the store, unless it is cached or on its way (R80). -/
def hdlFetch (s : State) (h pos : Nat) (cls : Cls) (dl : Int) : State :=
  if hdlCached s h || hdlFetching s h then s
  else enqueue s (newEntry s (.hdl h) pos cls dl false false (onePiece (hdlPlace s h) none none))

/-- Handle h's entry is written to the store (R81). -/
def hdlStore (s : State) (h pos : Nat) (cls : Cls) (dl : Int) (d : Sector) : State :=
  enqueue s (newEntry s (.hdl h) pos cls dl true false (onePiece (hdlPlace s h) none (some d)))

/-- Store writes of handle h that have not joined their command queue. -/
def hdlWriting (s : State) (h : Nat) : Bool :=
  (chan s (hdlPlace s h).ch).rq.any (fun e => e.owner == .hdl h && e.write)

/-- The cache keeps 4,096 entries: the least recently used one that no request names leaves, a dirty one with its
write-back (R80, R81, Table 4-1). -/
def hdlEvict (s : State) : State :=
  if s.hdl.cache.length ≤ 4096 then s
  else
    match bestBy (fun (a b : Nat × HdlEntry) => decide (a.2.used < b.2.used)) (s.hdl.cache.filter (fun e => !hdlNamed s e.1)) with
    | none => s
    | some (h, e) =>
      let s := if e.dirty then hdlStore s h 19 .bl (synthDl s .bl) (sectorOf e.bytes) else s
      { s with hdl := { s.hdl with cache := Tab.drop s.hdl.cache h } }

/-- Uncorrectable entries that have been read become poisoned ones: ENTRY_UE latches, HDL_LAST_UE names the handle, and
the poison pattern is written to the store (R82). -/
def settleBad (s : State) : State :=
  (s.hdl.cache.filter (fun e => e.2.bad)).foldl (fun t e =>
    let t := latch t pgHdl 0
    let t := setReg t pgHdl 0x044 (BitVec.ofNat 32 e.1)
    let t := hdlStore t e.1 19 .rt (synthDl t .rt) (poisonSector (sectorOf e.2.bytes))
    modHdlEntry t e.1 (fun x => { x with bad := false, poisoned := true, dirty := false })) s

/-! ### Names (R85, R86) -/

/-- A handle as a request names it; none while its entry, or the parent entry that offset `o` needs, is not cached. -/
def nameOf (s : State) (h o : Nat) : Option Named :=
  match hdlGet s h with
  | none => none
  | some e =>
    let bad := e.bad || e.poisoned
    if !bad && hValid e.bytes && hChild e.bytes && decide (o < hPlen e.bytes) then
      match hdlGet s (hParent e.bytes) with
      | some p => some { entry := e.bytes, par := p.bytes, bad := false, parBad := p.bad || p.poisoned }
      | none => none
    else some { entry := e.bytes, par := 0, bad := bad, parBad := false }

/-- The handles whose entries a request through handle h at offset o needs (R80, R82). -/
def handlesNeeded (s : State) (h o : Nat) : List Nat :=
  match hdlGet s h with
  | some e =>
    if !(e.bad || e.poisoned) && hValid e.bytes && hChild e.bytes && decide (o < hPlen e.bytes) then [h, hParent e.bytes] else [h]
  | none => [h]

/-! ### Commands (R84, R88) -/

/-- Handles in use fall or rise. -/
def validCount (s : State) (d : Int) : State :=
  { s with hdl := { s.hdl with validCount := (s.hdl.validCount + d).toNat } }

/-- An entry is written through to cache and store. -/
def hdlWriteThrough (s : State) (h pos : Nat) (cls : Cls) (dl : Int) (b : BitVec 256) : State :=
  hdlStore (hdlSet s h b false) h pos cls dl (sectorOf b)

/-- A release of handle h, as HREL does it (R88). An uncorrectable or poisoned parent entry stays as it is (R82). -/
def hdlRelease (s : State) (h pos : Nat) (cls : Cls) (dl : Int) : State :=
  let e := hdlBytes s h
  let s := hdlWriteThrough s h pos cls dl (hRelease e)
  if hChildren e ≠ 0 then s
  else
    let s := validCount s (-1)
    if hChild e then
      let p := hParent e
      let pe := hdlBytes s p
      let n := hChildren pe - 1
      let freed := n = 0 ∧ hRetained pe = true
      let pe' := hSetChildren pe n
      if hdlPoisoned s p then s
      else
        let s := hdlWriteThrough s p pos cls dl (if freed then hSetState pe' false false else pe')
        if freed then validCount s (-1) else s
    else s

/-- The checks of CREATE in order: its RESULT, or none while the parent's entry is not cached (R84). -/
def createResult (s : State) (h : Nat) (im : BitVec 256) : Option Nat :=
  let e := hdlBytes s h
  let area := regionOf s (hBase im * 32) (hCap im * 32)
  if hdlPoisoned s h then some 7
  else if hValid e || hRetained e then some 1
  else if hCap im = 0 ∨ 2 ^ 24 - 1 < hPlen im + hCap im then some 6
  else
    match area with
    | none => some 3
    | some r =>
      if r.tenant ≠ hTenant im then some 4
      else if !hChild im then some 0
      else
        match hdlGet s (hParent im) with
        | none => none
        | some p =>
          if p.bad || p.poisoned || !hValid p.bytes || hRetained p.bytes || hChild p.bytes || hTenant p.bytes != hTenant im ||
              decide (hCommitted p.bytes < hPlen im) then some 5
          else some 0

/-- CREATE writes the entry with its lengths at PLEN, and counts in its parent (R84). -/
def createEntry (s : State) (h : Nat) (im : BitVec 256) (dl : Int) : State :=
  let pl := hPlen im
  let e := hSetChildren (hSetState (hSetTentative (hSetCommitted im pl) pl) true false) 0
  let s := validCount (hdlWriteThrough s h 19 .rt dl e) 1
  if hChild im then
    let p := hParent im
    let pe := hdlBytes s p
    hdlWriteThrough s p 19 .rt dl (hSetChildren pe (hChildren pe + 1))
  else s

/-- Word i of a 256-bit image. -/
def imageWord (b : BitVec 256) (i : Nat) : Word := field b (32 * i) 32

/-- A request that passed step 2 naming handle h has not replied (R88). -/
def hdlInUse (s : State) (h : Nat) : Bool :=
  s.reqs.any (fun q => q.handles.head? == some (BitVec.ofNat 16 h) &&
    (match q.stage with
     | .hold4 | .step5 | .handle | .admitted => true
     | .replied => (port s q.port).replies.any (fun x => x.id == q.id)
     | _ => false))

/-- The HDL_OP command in progress acts once the entries it needs are cached; a missing one is fetched (R84). FREE waits, as
HREL does, for the requests of every source that passed step 2 naming its handle (R88, log 83). -/
def hdlOpRun (s : State) : State :=
  match s.hdl.op with
  | none => s
  | some o =>
    let h := o.handle.toNat
    let fin := fun (t : State) (r : Nat) => { t with hdl := { t.hdl with op := some { o with judged := true, result := r } } }
    if o.judged then s
    else if !hdlCached s h then hdlFetch s h 19 .rt o.dl
    else
      let s := hdlTouch s h
      let e := hdlBytes s h
      match o.cmd with
      | 1 =>
        (match createResult s h o.image with
         | none => hdlFetch s (hParent o.image) 19 .rt o.dl
         | some 0 => fin (createEntry s h o.image o.dl) 0
         | some r => fin s r)
      | 2 =>
        let s := (List.range 8).foldl (fun t i => setReg t pgHdl (0x060 + 4 * i) (imageWord (if hdlPoisoned s h then e else hClean e) i)) s
        fin s (if hdlPoisoned s h then 7 else 0)
      | _ =>
        if hdlPoisoned s h then fin s 7
        else if !hValid e then fin s 2
        else if hChild e && !hdlCached s (hParent e) then hdlFetch s (hParent e) 19 .rt o.dl
        else if hdlInUse s h then s
        else fin (hdlRelease s h 19 .rt o.dl) 0

/-- The zero writes of a rollback: own-area sectors of stream [lo, hi) that a writable region holds (R88). -/
def zeroSectors (s : State) (e : BitVec 256) (lo hi : Nat) : List SecRef :=
  let pl := if hChild e then hPlen e else 0
  (List.range (hi - lo)).flatMap (fun i =>
    let a := (hBase e + (lo + i - pl)) * 32
    match regionOf s a 32 with
    | some r => if r.we then sectorsIn s r a 1 else []
    | none => [])

end Sys2Proof.Machine
end

