-- ==== Sys2Proof/Machine/Regs.lean ====
section
/-! DEFINITION. The register map as configuration access sees it: the common header, the live views, and what a write
does beyond its fields (R10, R60-R66, R403-R412, and the register tables of the chapters). -/

namespace Sys2Proof.Machine

/-! ### The common header (Tables 16-2 and 16-3) -/

/-- UNIT_ID.TYPE. -/
def unitType : UnitKind → Nat
  | .blk => 0x01 | .clk => 0x02 | .hk => 0x03 | .thm => 0x04 | .pwr => 0x05 | .cal => 0x06 | .log => 0x07 | .pmu => 0x08
  | .test => 0x09 | .sec => 0x0A | .arb => 0x0B | .rgn => 0x0C | .hdl => 0x0D | .oct => 0x0E | .link => 0x0F | .ecc => 0x10
  | .port => 0x11 | .ch => 0x12

/-- UNIT_ID.LEVEL (R13). -/
def unitLevel : UnitKind → Nat
  | .ch => 3 | .oct => 4 | _ => 5

/-- UNIT_ID. -/
def unitId (u : UnitKind × Nat) : Word :=
  BitVec.ofNat 32 (unitType u.1 + u.2 * 2 ^ 8 + 0x01 * 2 ^ 16 + unitLevel u.1 * 2 ^ 24)

/-- A unit lies in the scope of a recovery in progress (R360, R404). -/
def inRecovery (s : State) (u : UnitKind × Nat) : Bool :=
  s.recov.any (fun r =>
    let w := r.scope.within
    match u.1 with
    | .ch => w.chan u.2
    | .oct => w.oct u.2
    | .cal | .log | .pmu | .test => false
    | _ => w.all)

/-- A recovery of class F4 is in progress: admission holds at step 5 (Table 14-3). -/
def blockRecovery (s : State) : Bool := s.recov.any (fun r => r.scope == .block)

/-- The stop state of a unit; only OCT and ECC can stop (R404). -/
def runOf (s : State) (u : UnitKind × Nat) : RunSt :=
  match u.1 with
  | .oct => (oct s u.2).run
  | .ecc => s.ecc.run
  | _ => .running

/-- UNIT_RUN. -/
def unitRun (s : State) (u : UnitKind × Nat) : Word :=
  let r := runOf s u
  let st := if inRecovery s u then 2 else if r = .stopped then 1 else 0
  BitVec.ofNat 32 ((r == .running).toNat + (r == .stopReq).toNat * 2 + st * 4)

/-- Some queue of a channel holds work. -/
def Chan.busy (c : Chan) : Bool :=
  !(c.rq.isEmpty && c.cmdq.isEmpty && c.liner.isEmpty && c.inflight.isEmpty && c.slicer.isEmpty && c.sliceq.isEmpty &&
    c.running.isEmpty && c.wbs.isEmpty && c.recon.isEmpty)

/-- A unit holds admitted work or runs a sequence (UNIT_STATUS.BUSY). -/
def unitBusy (s : State) (u : UnitKind × Nat) : Bool :=
  match u.1 with
  | .blk => s.blk.st == .boot || !s.recov.isEmpty
  | .clk => s.clk.fmeasBusy
  | .hk => s.hk.cur.isSome || !s.hk.waiting.isEmpty
  | .thm => s.thm.tripPh != 0
  | .pwr => false
  | .cal => (cal s u.2).active
  | .log => s.log.rdBusy || !s.log.inq.isEmpty
  | .pmu => s.pmu.rdBusy
  | .test => s.test.mbistBusy || s.test.t1500Busy
  | .sec => false
  | .arb => s.arb.waiter.isSome
  | .rgn => false
  | .hdl => s.hdl.op.isSome
  | .oct =>
    let o := oct s u.2
    !(o.queue.isEmpty && o.jobs.isEmpty && o.held.isEmpty && o.rsvBytes.isEmpty && o.rsvLocks.isEmpty) ||
      (u.2 == 0 && !s.disp.ops.isEmpty)
  | .link => s.link.cur.isSome || !s.link.queue.isEmpty
  | .ecc => !s.ecc.queue.isEmpty || s.ecc.repair.isSome || (List.range (nChan s)).any (fun c => !(chan s c).wbs.isEmpty)
  | .port => s.reqs.any (fun r => r.port.val == u.2 && r.stage != .replied)
  | .ch => (chan s u.2).busy

/-- UNIT_STATUS. -/
def unitStatus (s : State) (page : Nat) (u : UnitKind × Nat) : Word :=
  BitVec.ofNat 32 ((pageAttn s page).toNat + (reg s page 0x010 != 0).toNat * 2 + (unitBusy s u).toNat * 4)

/-- UNIT_COMMIT: units with RWS fields report a waiting commit and count the ones that took effect. -/
def unitCommit (s : State) (page : Nat) (u : UnitKind × Nat) : Word :=
  match u.1 with
  | .arb => BitVec.ofNat 32 (s.arb.waiter.isSome.toNat * 2 + regF s page 0x00C 16 16 * 2 ^ 16)
  | .rgn => BitVec.ofNat 32 (regF s page 0x00C 16 16 * 2 ^ 16)
  | _ => 0

/-! ### Live views -/

/-- A word from fields (low bit, value). -/
def wordOf (fs : List (Nat × Nat)) : Word := BitVec.ofNat 32 ((fs.map (fun f => f.2 * 2 ^ f.1)).sum)

/-- A signed value in w bits. -/
def intBits (w : Nat) (x : Int) : Nat := (BitVec.ofInt w x).toNat

/-- Dies in the stack (Table 0-1). -/
def stackHeight (s : State) : Nat := if s.part = .rosura64H then 16 else 12

/-- BLK page. -/
def blkView (s : State) (off : Nat) : Option Word :=
  match off with
  | 0x040 => some (wordOf [(0, nChan s), (8, nOct s), (16, stackHeight s), (24, rowsPerBank s / 1024)])
  | 0x044 => some (wordOf [(0, match s.blk.st with | .boot => 0 | .ready => 1 | .lost => 2 | .halted => 3), (4, s.blk.step % 16),
      (8, s.blk.cause), (12, s.blk.waitThermal.toNat), (13, s.blk.warm.toNat), (16, min 65535 s.blk.bootMs)])
  | 0x048 => some (wordOf [(0, s.blk.lbist.toNat)])
  | 0x050 => some (field s.time.blk 0 32)
  | 0x054 => some s.time.hiLatch
  | 0x060 => some (putBits (reg s pgBlk 0x060) 1 1 s.time.uncertain.toNat)
  | 0x080 => some (attnSummary s)
  | 0x084 => some (attnWord s 32 16)
  | 0x088 => some (attnWord s 64 32)
  | 0x08C => some (attnWord s 96 32)
  | 0x0A4 =>
    let act := s.recov.foldl (fun m r => max m r.cls) 0
    let rst := match s.recov.getLast? with | some r => r.restarts | none => regF s pgBlk 0x0A4 24 8
    some (wordOf [(0, act), (8, s.lastFault.1 % 128), (16, s.lastFault.2 % 256), (24, min 255 rst)])
  | 0x0AC => some (putBits (reg s pgBlk 0x0AC) 16 16 (min 65535 s.lastInt))
  | _ => none

/-- Register j of a row of 128-bit gate words. -/
def gateWord (g : BitVec 128) (j : Nat) : Word := field g (32 * j) 32

/-- CLK page. -/
def clkView (s : State) (off : Nat) : Option Word :=
  let k := s.clk
  if 0x050 ≤ off ∧ off ≤ 0x05C then some (gateWord k.gate ((off - 0x050) / 4))
  else if 0x060 ≤ off ∧ off ≤ 0x06C then some (gateWord k.stopped ((off - 0x060) / 4))
  else
    match off with
    | 0x040 => some (wordOf [(0, k.refOk.toNat), (1, k.pllLock.toNat), (2, k.onPll.toNat), (3, k.coreRun.toNat),
        (16, min 65535 k.relocks)])
    | 0x044 => some (wordOf [(0, k.lastCount % 2 ^ 18), (20, k.passed % 16), (24, min 255 k.fails)])
    | 0x048 => some (wordOf [(0, k.ratio % 2 ^ 18)])
    | 0x078 => some (wordOf [(0, k.fmeasBusy.toNat), (1, k.fmeasDone.toNat), (2, k.fmeasStopped.toNat)])
    | 0x080 => some (wordOf [(0, k.swDomain % 128), (7, k.swForced.toNat), (16, min 65535 k.forcedCount)])
    | _ => none

/-- HK page; a memory test runs from its place at the head of the queue (Table 16-8). -/
def hkView (s : State) (off : Nat) : Option Word :=
  let k := s.hk
  match off with
  | 0x040 =>
    match k.cur, k.waiting with
    | none, .mbist _ :: ws => some (wordOf [(0, 3), (8, min 18 ws.length)])
    | none, ws => some (wordOf [(8, min 18 ws.length)])
    | some (.freq _ _), ws => some (wordOf [(0, 1), (8, min 18 ws.length)])
    | some .repair, ws => some (wordOf [(0, 2), (8, min 18 ws.length)])
    | some (.mbist _), ws => some (wordOf [(0, 3), (8, min 18 ws.length)])
  | 0x0C4 => some (wordOf [(0, k.point), (2, k.freqBusy.toNat), (4, k.freqResult), (16, min 65535 k.freqCount)])
  | 0x0C8 => some (wordOf [(0, min 65535 k.freqLast), (16, min 65535 k.freqMax)])
  | _ => none

/-- A sensor's record, by its register index. -/
def sensor (s : State) (i : Nat) : Sensor := Tab.get s.thm.sens i Sensor.reset

/-- THM page. -/
def thmView (s : State) (off : Nat) : Option Word :=
  let t := s.thm
  if 0x400 ≤ off ∧ off < 0x540 then
    let x := sensor s ((off - 0x400) / 4)
    some (wordOf [(0, intBits 16 x.heldVal), (16, x.rvalid.toNat), (17, (x.st == .suspect).toNat), (18, (x.st == .failed).toNat),
      (20, x.dis % 8), (24, x.srounds % 128)])
  else
    match off with
    | 0x040 => some (wordOf [(0, match t.w with | .open_ => 0 | .brim => 1 | .hold => 2 | .trip => 3), (2, t.degraded.toNat),
        (4, t.tstep % 8), (8, min 15 t.clear), (16, (t.sens.filter (fun e => e.2.st == .failed)).length)])
    | 0x044 => some (wordOf [(0, intBits 16 t.hot), (16, intBits 16 t.cold)])
    | 0x048 => some (putBits (reg s pgThm 0x048) 0 16 (intBits 16 t.rate))
    | 0x058 => some (putBits (reg s pgThm 0x058) 0 15 t.budget)
    | _ => none

/-- The hardware step: TSTEP, or 4 while protection is degraded and that is higher (R310). -/
def hwStep (s : State) : Nat := if s.thm.degraded then max 4 s.thm.tstep else s.thm.tstep

/-- FLOOR of PWR_PL (Table 12-11). -/
def plFloor (s : State) : Nat := regF s pgPwr 0x044 4 3

/-- The effective step: the hardware step, or SW up to FLOOR where that is deeper (R310, Table 12-11). -/
def effStep (s : State) : Nat := max (hwStep s) (min (regF s pgPwr 0x044 0 3) (plFloor s))

/-- PWR page. -/
def pwrView (s : State) (off : Nat) : Option Word :=
  let p := s.pwr
  match off with
  | 0x040 => some (wordOf [(0, s.pins.stkPwrEn.toNat), (1, s.pins.stkPgood.toNat), (2, p.pmbOk.toNat), (3, p.avsOk.toNat),
      (4, effStep s % 8), (8, hwStep s % 8)])
  | 0x048 => some (putBits (reg s pgPwr 0x048) 16 12 p.vddCur)
  | 0x058 => some (wordOf [(0, p.vin.toNat), (16, p.iin.toNat)])
  | 0x05C => some (wordOf [(0, p.coreV.toNat), (16, p.coreI.toNat)])
  | 0x060 => some (wordOf [(0, p.arrI.toNat), (16, p.ctemp.toNat)])
  | 0x064 => some (putBits (reg s pgPwr 0x064) 0 16 p.status.toNat)
  | 0x068 => some (putBits (putBits (reg s pgPwr 0x068) 0 1 p.ovPl.toNat) 1 1 p.ovVdd.toNat)
  | 0x074 => some (wordOf [(0, p.margin % 256), (8, min 16 p.lowRnds)])
  | _ => none

/-- CAL page of engine n. -/
def calView (s : State) (n off : Nat) : Option Word :=
  let e := cal s n
  match off with
  | 0x04C => some (wordOf [(0, e.wire % 64), (6, e.chofs % 16), (10, e.active.toNat), (16, min 65535 e.passes)])
  | 0x050 => some (wordOf [(0, e.extOk.toNat), (1, e.fallback.toNat), (8, min 65535 e.extCount)])
  | _ => none

/-- LOG page. -/
def logView (s : State) (off : Nat) : Option Word :=
  match off with
  | 0x040 => some (wordOf [(0, (match s.log.entries.head? with | some e => e.seq | none => s.log.next).toNat),
      (16, s.log.entries.length)])
  | 0x044 => some (wordOf [(0, s.log.next.toNat)])
  | 0x064 => some (wordOf [(0, s.log.rdBusy.toNat), (4, s.log.rdResult)])
  | _ => none

/-- Counters of this part (Table 15-1). -/
def counterExists (s : State) (i : Nat) : Bool :=
  decide (i < 368) && !(s.part == .rosura32 && (decide (128 ≤ i ∧ i < 256) || decide (336 ≤ i ∧ i < 352)))

/-- PMU page, as a port reads it (R394). -/
def pmuView (s : State) (p off : Nat) : Option Word :=
  if 0x400 ≤ off ∧ off < 0x400 + 8 * 368 then
    let i := (off - 0x400) / 8
    if !counterExists s i then some 0
    else if off % 8 = 0 then some (field (counter s i) 0 32)
    else some ((port s p).cntStamp ++ (port s p).cntHi)
  else
    match off with
    | 0x040 => some (wordOf [(0, s.pmu.cfgErr.toNat)])
    | 0x04C => some ((Tab.get s.pmu.cfg (regF s pgPmu 0x048 0 9) 0#17).setWidth 32)
    | 0x188 => some (wordOf [(0, (s.pmu.buf.filter (fun r => !r.read)).length),
        (16, (match s.pmu.buf.head? with | some r => r.seq | none => s.pmu.next).toNat)])
    | 0x194 => some (wordOf [(0, s.pmu.rdBusy.toNat), (4, s.pmu.rdResult)])
    | _ => none

/-- TEST page. -/
def testView (s : State) (off : Nat) : Option Word :=
  let t := s.test
  match off with
  | 0x040 => some (wordOf [(0, t.zeroised.toNat), (1, t.hold.toNat)])
  | 0x044 => some (wordOf [(0, t.stackTest.toNat)])
  | 0x048 => some (wordOf [(0, t.lbistRan.toNat), (1, t.lbistPass.toNat), (16, t.failPart.toNat)])
  | 0x050 => some (wordOf [(0, t.mbistBusy.toNat), (2, t.mbistResult), (8, t.mbistRows.toNat), (16, t.mbistCols.toNat),
      (24, t.mbistFused.toNat)])
  | 0x064 => some (wordOf [(0, t.t1500Busy.toNat), (4, t.t1500Result)])
  | _ => none

/-- HDL page. -/
def hdlView (s : State) (off : Nat) : Option Word :=
  match off with
  | 0x040 => some (wordOf [(0, s.hdl.validCount)])
  | 0x084 => some (wordOf [(0, s.hdl.op.isSome.toNat), (4, s.hdl.result)])
  | _ => none

/-- KiB that bytes take, rounded up. -/
def kib (n : Nat) : Nat := (n + 1023) / 1024

/-- OCT page of octant k. -/
def octView (s : State) (k off : Nat) : Option Word :=
  let o := oct s k
  match off with
  | 0x040 => if k = 0 then some (wordOf [(0, s.disp.ops.length)]) else none
  | 0x084 => some (wordOf [(0, kib (rsvTotal o)), (16, kib (heldBytes o))])
  | 0x088 => some (wordOf [(0, lockTotal o), (16, o.locks.length)])
  | 0x08C => some (wordOf [(0, o.held.length)])
  | _ => none

/-- LINK page. -/
def linkView (s : State) (off : Nat) : Option Word :=
  let l := s.link
  match off with
  | 0x040 => some (wordOf [(0, l.sbUp.toNat), (1, l.ppValid.toNat), (2, l.ppArea.toNat), (3, l.ppBusy.toNat), (16, l.ppLive)])
  | 0x068 => some (wordOf [(0, l.opBusy.toNat), (4, l.opResult)])
  | _ => none

/-- Visits of a scrub pass (R286). -/
def patrolVisits (s : State) : Nat := 16 * rowsPerBank s

/-- ECC page. -/
def eccView (s : State) (off : Nat) : Option Word :=
  match off with
  | 0x04C => some (wordOf [(0, min 65535 s.ecc.passes), (16, s.ecc.visits * 65536 / (patrolVisits s * nChan s) % 65536)])
  | 0x050 => some (wordOf [(0, s.ecc.queue.length), (5, s.ecc.repair.isSome.toNat),
      (6, ((s.ecc.repair.map (fun r => r.row.ch)).getD 0))])
  | _ => none

/-- A delay in P0 taps as taps of the active point (R235). -/
def tapsAt (s : State) (x : Int) : Int := if s.hk.point = 0 then x else (x + 2 ^ (s.hk.point - 1)) / 2 ^ s.hk.point

/-- Free spares of a bank (R293, Table 11-9). -/
def freeSpares (c : Chan) (b : Nat) : List Nat :=
  (List.range 32).filter (fun i => !(c.dead.contains (b, i)) && !(c.remap.any (fun e => e.2.bank == b && !e.2.fenced && e.2.spare == i)))

/-- A data-type wire is tracked in place: its half-channel's spare is taken or failed, its engine does not sweep, or it is
a spare that carries a mittened wire (R241). -/
def inPlace (s : State) (c w : Nat) : Bool :=
  let sp := (chan s c).spare (wireHalf w)
  decide (w < 40) && (sp.taken || sp.failed || !regB s (calPage (c / 16)) 0x040 2 || (decide (38 ≤ w) && sp.wire.isSome))

/-- The calibration registers of wire w of channel c (Table 9-6). -/
def wireView (s : State) (c w r : Nat) : Word :=
  let x := (chan s c).wire w
  match r with
  | 0 => wordOf [(0, intBits 8 x.rApplied), (8, intBits 8 x.wApplied), (16, intBits 8 x.bApplied), (24, x.sref % 256)]
  | 1 => wordOf [(0, x.reye / 2 ^ s.hk.point % 256), (8, x.weye / 2 ^ s.hk.point % 256), (16, intBits 8 (tapsAt s x.rresShown)),
      (24, intBits 8 (tapsAt s x.wres))]
  | 2 =>
    let sp := (chan s c).spare (w - 38)
    let failed := if 38 ≤ w then sp.failed else x.failed
    let covered := if 38 ≤ w then sp.taken else x.covered
    let place := inPlace s c w
    wordOf [(0, failed.toNat), (1, covered.toNat), (2, x.mitten.toNat), (3, place.toNat), (4, (x.stale || place).toNat),
      (8, min 15 x.lowShown),
      (16, min 65535 x.sweeps)]
  | _ => wordOf [(0, min 65535 (x.reye * 25)), (16, min 65535 (x.weye * 25))]

/-- CH page of channel c. -/
def chView (s : State) (c off : Nat) : Option Word :=
  let x := chan s c
  if 0x400 ≤ off ∧ off < 0x730 then some (wireView s c ((off - 0x400) / 16) (off / 4 % 4))
  else if 0x740 ≤ off ∧ off < 0x750 then
    let q := Tab.get x.cuffs ((off - 0x740) / 4) Cuff.reset
    some (wordOf [(0, intBits 8 q.d), (8, q.held.toNat)])
  else if 0x800 ≤ off ∧ off < 0xA00 then
    match Tab.find x.remap ((off - 0x800) / 8) with
    | none => some 0
    | some r =>
      if off % 8 = 0 then some (wordOf [(0, 1), (1, r.fenced.toNat), (2, r.fails % 4), (4, r.bank), (8, r.row)])
      else some (wordOf [(0, r.spare)])
  else
    match off with
    | 0x048 => some (wordOf [(0, x.cmdq.length), (8, x.liner.length), (16, x.running.length), (20, x.sliceq.length)])
    | 0x04C => some (wordOf ((List.range 32).map (fun i =>
        (i, (match (x.half (i % 16) (i / 16)).st with | .open_ => 1 | _ => 0)))))
    | 0x050 => some (wordOf ((List.range 16).map (fun b => (b, (reserved x b).toNat))))
    | 0x064 =>
      let d := (x.banks.foldl (fun m e => max m e.2.debt) (0 : Int)).toNat
      some (putBits (putBits (reg s (chPage c) 0x064) 0 1 s.thm.x2.toNat) 4 4 (min 8 d))
    | 0x074 => some (putBits (reg s (chPage c) 0x074) 0 2
        (match x.pd with | .active => 0 | .pulling => 1 | .confirming => 1 | .powerdown => 2 | .selfRefresh => 3))
    | 0x090 => some (wordOf ((List.range 4).map (fun m => (8 * m, (freeSpares x m).length))))
    | 0x094 => some (wordOf ((List.range 4).map (fun m => (8 * m, (freeSpares x (4 + m)).length))))
    | 0x098 => some (wordOf ((List.range 4).map (fun m => (8 * m, (freeSpares x (8 + m)).length))))
    | 0x09C => some (wordOf ((List.range 4).map (fun m => (8 * m, (freeSpares x (12 + m)).length))))
    | _ => none

/-- The live view of a register of a unit, as port p reads it; none where the register's home is its word. -/
def liveView (s : State) (p : Nat) (u : UnitKind × Nat) (off : Nat) : Option Word :=
  match u.1 with
  | .blk => blkView s off
  | .clk => clkView s off
  | .hk => hkView s off
  | .thm => thmView s off
  | .pwr => pwrView s off
  | .cal => calView s u.2 off
  | .log => logView s off
  | .pmu => pmuView s p off
  | .test => testView s off
  | .sec => if off = 0x040 then some (wordOf [(0, s.sec.keyed.toNat), (1, s.sec.health.toNat)]) else none
  | .hdl => hdlView s off
  | .oct => octView s u.2 off
  | .link => linkView s off
  | .ecc => eccView s off
  | .port => if off = 0x04C then some (wordOf [(0, admittedOf s u.2), (16, waitingOf s u.2)]) else none
  | .ch => chView s u.2 off
  | _ => none

/-- The bits of a register that read: those of its listed fields but write-only ones (R10). -/
def readMask (fs : List RegField) : Word := fs.foldl (fun m f => if f.acc = .wo then m else m ||| maskAt f.lo f.w) 0

/-- What a configuration read of a register returns. -/
def regView (s : State) (p page off : Nat) : Word :=
  match unitOf s page with
  | none => 0
  | some u =>
    match off with
    | 0x000 => unitId u
    | 0x004 => unitRun s u
    | 0x008 => unitStatus s page u
    | 0x00C => unitCommit s page u
    | _ =>
      let fs := fieldsAt s u off
      match (if fs.isEmpty then none else liveView s p u off) with
      | some w => w
      | none => reg s page off &&& readMask fs

/-- A read of BLK_TIME_LO latches the high word, and a read of a counter's LO the port's high word and stamp (R343,
R394). -/
def regReadEffect (s : State) (p page off : Nat) : State :=
  if page = pgBlk ∧ off = 0x050 then { s with time := { s.time with hiLatch := field s.time.blk 32 32 } }
  else if page = pgPmu ∧ 0x400 ≤ off ∧ off < 0x400 + 8 * 368 ∧ off % 8 = 0 ∧ counterExists s ((off - 0x400) / 8) = true then
    modPort s p (fun x => { x with cntHi := field (counter s ((off - 0x400) / 8)) 32 16, cntStamp := field s.time.blk 0 16 })
  else s

/-! ### Writes -/

/-- A field of the register written with a word (Table 0-3, R408). -/
def writeField (old v : Word) (f : RegField) : Word :=
  let x := fieldNat v f.lo f.w
  match f.acc with
  | .rw | .rws | .rwx => putBits old f.lo f.w x
  | .w1c => old &&& ~~~(v &&& maskAt f.lo f.w)
  | .rc => if x = 0 then putBits old f.lo f.w 0 else old
  | .ro | .wo => old

/-- The stored word after a write to every field of a register. -/
def writeFields (fs : List RegField) (old v : Word) : Word := fs.foldl (fun w f => writeField w v f) old

/-- Registers whose home is not their word: gates and counters. -/
def hookOnly (u : UnitKind × Nat) (off : Nat) : Bool :=
  (u.1 == .clk && decide (0x050 ≤ off ∧ off < 0x060)) || (u.1 == .pmu && decide (0x400 ≤ off)) || (u.1 == .blk && off == 0x048)

/-! ### Gates (R333, R334, Table 13-2) -/

/-- Domains whose gate needs state LOST (Table 13-2). -/
def protectedDomain (d : Nat) : Bool := decide (d < 64) || decide (88 ≤ d ∧ d ≤ 92) || d == 97 || d == 98

/-- Domains without a gate (Table 13-10). -/
def ungatable (d : Nat) : Bool := d == 93 || d == 99 || decide (100 ≤ d)

/-- The domain exists on the part (R5, R16). -/
def domainExists (s : State) (d : Nat) : Bool :=
  if d < 64 then decide (d < nChan s)
  else if d < 80 then true
  else if d < 88 then decide (d - 80 < nOct s)
  else if d < 92 then decide (d - 88 < nCal s)
  else decide (d < 100)

/-- A write to CLK_GATEj (R333, R334). -/
def gateWrite (s : State) (j : Nat) (v : Word) : State :=
  (List.range 32).foldl (fun t i =>
    let d := 32 * j + i
    if ungatable d || !domainExists t d then t
    else if !v.getLsbD i then
      { t with clk := { t.clk with gate := t.clk.gate &&& ~~~(1#128 <<< d), stopped := t.clk.stopped &&& ~~~(1#128 <<< d) } }
    else if protectedDomain d && !(t.blk.st == .lost) then latch t pgClk 3
    else { t with clk := { t.clk with gate := t.clk.gate ||| (1#128 <<< d) } }) s

/-! ### Commits (R74, R75, R104, R105, R406) -/

/-- A commit that took effect counts. -/
def commitCount (s : State) (page : Nat) : State := bumpReg s page 0x00C 16 16 1

/-- The RGN commit: the shadow table replaces the active one when every rule of Table 3-3 holds (R74, R75). -/
def rgnCommitNow (s : State) : State :=
  let es := shadowRegions s
  match regionFault s es with
  | none => commitCount (setReg { s with rgn := es } pgRgn 0x040 0) pgRgn
  | some (code, n) => latch (setReg s pgRgn 0x040 (wordOf [(0, 1), (8, n), (16, code)])) pgRgn 0

/-- The shadow settings of ARB. -/
def shadowArb (s : State) : ArbSet :=
  { ctl := reg s pgArb 0x044, quota := reg s pgArb 0x048, mtRsv := reg s pgArb 0x04C, hznLc := reg s pgArb 0x050,
    hznRt := reg s pgArb 0x054, hznBl := reg s pgArb 0x058, hznMt := reg s pgArb 0x05C, portCap := reg s pgArb 0x060 }

/-- The first rule of Table 4-6 that the settings break; 0 for none. -/
def arbFault (a : ArbSet) : Nat :=
  let q := fun lo => fieldNat a.quota lo 7
  let h := fun (w : Word) => fieldNat w 0 22
  if [0, 8, 16, 24].any (fun lo => decide (q lo < 1 ∨ 64 < q lo)) then 1
  else if 8 < fieldNat a.mtRsv 0 4 then 2
  else if h a.hznLc < 1 ∨ h a.hznRt < h a.hznLc ∨ h a.hznBl < h a.hznRt ∨ h a.hznMt < h a.hznBl then 3
  else 0

/-- The ARB commit of request `id`: settings that pass wait for a window boundary at least 8 ns away (R104, R105). -/
def arbCommitNow (s : State) (id : Option Nat) : State :=
  let a := shadowArb s
  match arbFault a with
  | 0 => { s with arb := { s.arb with next := some a, waiter := id, notBefore := s.time.cyc + 20 } }
  | n => latch (setReg s pgArb 0x040 (wordOf [(0, 1), (16, n)])) pgArb 0

/-! ### Stops (R404, R405) -/

/-- RUN = 1 at an octant: a stop ends or is cancelled, unless a failed scratch test holds it (R376, R404). -/
def octRestart (s : State) (k : Nat) : State := modOct s k (fun o => if o.dead then o else { o with run := .running })

/-- RUN = 1 at ECC: a changed SCR is first written to the stack (R404, R405). -/
def eccRestart (s : State) : State :=
  let scr := regB s pgEcc 0x040 0
  let s := if s.ecc.run = .stopped ∧ scr ≠ s.ecc.scrNow then
      sbWrite s 1 sbAll 0x164 [BitVec.ofNat 32 scr.toNat]
    else s
  { s with ecc := { s.ecc with run := .running } }

/-- A write to UNIT_RUN. -/
def runWrite (s : State) (u : UnitKind × Nat) (v : Word) : State :=
  let stop := fun (r : RunSt) => if r = .running then RunSt.stopReq else r
  match u.1 with
  | .oct => if v.getLsbD 0 then octRestart s u.2 else modOct s u.2 (fun o => { o with run := stop o.run })
  | .ecc => if v.getLsbD 0 then eccRestart s else { s with ecc := { s.ecc with run := stop s.ecc.run } }
  | _ => s

/-! ### Command registers -/

/-- GO and other single-bit actions. -/
def bit31 (v : Word) : Bool := v.getLsbD 31

/-- HK_FREQ_REQ with GO = 1 (R274). -/
def freqRequest (s : State) (v : Word) : State :=
  let pt := fieldNat v 0 2
  let res := fun (t : State) (n : Nat) => { t with hk := { t.hk with freqResult := n } }
  if !bit31 v then s
  else if s.blk.st = .lost then res s 3
  else if pt = 3 then res s 1
  else if pt = s.hk.point && !(s.thm.w == .trip) then res s 2
  else { s with hk := { s.hk with freqBusy := true, waiting := s.hk.waiting ++ [.freq pt (v.getLsbD 2)] } }

/-- The interval of the sampler: N, or drawn uniformly from 1 to 2N - 1 (R395). -/
def smpInterval (s : State) : Nat × State :=
  let n := 2 ^ (min 20 (regF s pgPmu 0x180 1 5))
  if regB s pgPmu 0x180 6 then
    let g := xorshift64 s.pmu.smpGen
    (1 + g.toNat % (2 * n - 1), { s with pmu := { s.pmu with smpGen := g } })
  else (n, s)

/-- PMU_SMP_CTL: a new EN starts an interval, and CLR empties the buffer (R395, R396). -/
def smpCtl (s : State) (wasEn : Bool) (v : Word) : State :=
  let s := if v.getLsbD 8 then { s with pmu := { s.pmu with buf := [], next := 0 } } else s
  if v.getLsbD 0 && !wasEn then
    let (n, s) := smpInterval s
    { s with pmu := { s.pmu with smpLeft := n } }
  else s

/-- The 256 bits of a record at eight words from an offset. -/
def copyWords (s : State) (page off n : Nat) (b : BitVec 256) : State :=
  (List.range n).foldl (fun t i => setReg t page (off + 4 * i) (field b (32 * i) 32)) s

/-- GONE or NOTYET by the distance back from the next number (R371). -/
def goneOr (next n : BitVec 16) : Nat := let d := (next - n).toNat; if 1 ≤ d ∧ d ≤ 32768 then 1 else 2

/-- The 16 bytes of a log entry (Table 14-8): time, TU, sequence, code, unit, level and data. -/
def logBytes (e : LogEntry) : BitVec 256 :=
  BitVec.ofNat 256 (e.time.toNat + e.seq.toNat * 2 ^ 48 + e.code.toNat * 2 ^ 64 + e.unit.toNat * 2 ^ 80 + (e.level % 8) * 2 ^ 88 +
    e.tu.toNat * 2 ^ 91 + e.data.toNat * 2 ^ 96)

/-- LOG_RD: entry n is copied in one cycle (R371). -/
def logRead (s : State) (n : BitVec 16) : State :=
  match s.log.entries.find? (fun e => e.seq == n) with
  | some e => { copyWords s pgLog 0x070 4 (logBytes e) with log := { s.log with rdResult := 0 } }
  | none => { s with log := { s.log with rdResult := goneOr s.log.next n } }

/-- PMU_SMP_RD: record n is copied in one cycle and is read from then on (R398). -/
def smpRead (s : State) (n : BitVec 16) : State :=
  match s.pmu.buf.find? (fun r => r.seq == n) with
  | some r =>
    let t := copyWords s pgPmu 0x1A0 8 r.bits
    { t with pmu := { s.pmu with rdResult := 0, buf := s.pmu.buf.map (fun x => if x.seq = n then { x with read := true } else x) } }
  | none => { s with pmu := { s.pmu with rdResult := goneOr s.pmu.next n } }

/-- The native codes of a kind of unit (Table 15-3). -/
def eventListed (k : EvKind) (code : Nat) : Bool :=
  match k with
  | .channel => decide (code ≤ 0x16)
  | .port => decide (code ≤ 0x10)
  | .octant => decide (code ≤ 0x0B)
  | .block => decide (code ≤ 0x0A)

/-- PMU_CFG_SET, or its refusal (R385, R386). -/
def cfgSet (s : State) (v : Word) : State :=
  let w : BitVec 17 := field v 0 17
  let i := fieldNat v 17 9
  let k := counterKind i w
  let legacy := w.getLsbD 8
  let bad := !counterExists s i ||
    (if legacy then (pordon (fieldNat w 0 8)).isNone else !eventListed k (fieldNat w 0 8)) ||
    (legacy && !(k == .channel)) || (decide (i < 352) && fieldNat w 12 2 != 0) || (w.getLsbD 14 && i % 2 == 0)
  if bad then { s with pmu := { s.pmu with cfgErr := true } }
  else { s with pmu := { s.pmu with cfgErr := false, cfg := Tab.put s.pmu.cfg i w } }

/-- A write to a counter's registers by port p (R392). -/
def counterWrite (s : State) (p i : Nat) (hi : Bool) (v : Word) : State :=
  if !counterExists s i then s
  else if hi then modPort s p (fun x => { x with cntStage := some (field v 0 16) })
  else
    let s := setCounter s i (((port s p).cntStage.getD 0#16) ++ v)
    modPort s p (fun x => { x with cntStage := none })

/-- HDL_OP starts its command on the handle with the staged image (R84). -/
def hdlOpWrite (s : State) (v : Word) : State :=
  let cmd := fieldNat v 16 2
  if cmd = 0 then s
  else
    let im := BitVec.ofNat 256 (((List.range 8).map (fun i => (reg s pgHdl (0x060 + 4 * i)).toNat * 2 ^ (32 * i))).sum)
    hdlOpRun { s with hdl := { s.hdl with op := some { cmd := cmd, handle := field v 0 16, image := hImage im, judged := false, result := 0, dl := synthDl s .rt } } }

/-- LINK_PP_OP: READ of any word, PROG below 0x1_0000 only (R226). -/
def ppOpWrite (s : State) (v : Word) : State :=
  let a := fieldNat v 0 18
  let busy := fun (t : State) => { t with link := { t.link with opBusy := true } }
  match fieldNat v 18 2 with
  | 1 => sbQueue (busy s) 4 3 0 a 0 []
  | 2 => if a < 0x10000 then sbQueue (busy s) 4 4 0 a 0 [reg s pgLink 0x064]
    else { s with link := { s.link with opResult := 1 } }
  | _ => s

/-- LEN of a T1500 shift in bits. -/
def t1500Len (s : State) : Nat := max 1 (min 512 (regF s pgTest 0x060 1 10))

/-- The TEST unit's shift: a WIR value other than WS_BYPASS needs LOST or the stack-test hold (R377). -/
def t1500Go (s : State) : State :=
  let wdr := regB s pgTest 0x060 0
  let len := t1500Len s
  let n := (len + 31) / 32
  let ws := (List.range n).map (fun i => reg s pgTest (0x080 + 4 * i))
  let v := (ws.headD 0#32).toNat % 2 ^ (min len 32)
  if !wdr && decide (v ≠ 0) && !(s.blk.st == .lost) && !s.test.hold then
    latch { s with test := { s.test with t1500Result := 1 } } pgTest 1
  else sbQueue { s with test := { s.test with t1500Busy := true } } 5 7 sbAll (wdr.toNat + len * 8) (n - 1) ws

/-- TEST_MBIST_CTL with GO on a stopped octant (R376): HK runs the test as one of its sequences (Table 16-8). -/
def mbistGo (s : State) (v : Word) : State :=
  let t := fieldNat v 0 4
  if bit31 v && decide (1 ≤ t ∧ t ≤ nOct s) then
    { s with hk := { s.hk with waiting := s.hk.waiting ++ [.mbist (t - 1)] }
             test := { s.test with mbistBusy := true } }
  else s

/-- CLK_FMEAS_CTL with GO (R336). -/
def fmeasGo (s : State) (v : Word) : State :=
  if bit31 v then { s with clk := { s.clk with fmeasBusy := true, fmeasDone := false, fmeasStopped := false } } else s

/-- BLK_RESET with its key asks for a warm reset 1 µs after the reply (R346). -/
def blkReset (s : State) (v : Word) : State :=
  if fieldNat v 0 8 = 0xA5 && bit31 v then { s with blk := { s.blk with warmDue := some (s.time.tick + ticksPerUs) } } else s

/-- CAL_FORCE with GO names the next wire of an engine (R242). -/
def calForceWrite (s : State) (n : Nat) (v : Word) : State :=
  if bit31 v && decide (fieldNat v 0 6 < 38) then setCal s n { cal s n with forced := some (fieldNat v 0 6, fieldNat v 6 4) } else s

/-- A hardware loop goes past a software setting: POLICY_OVERRIDDEN latches with its count and its log entry (R327). -/
def overridden (s : State) (vdd : Bool) (setting value : Nat) : State :=
  let s := logEv s 0x0510 pgPwr .notice (BitVec.ofNat 32 (vdd.toNat + setting % 256 * 256 + value % 65536 * 65536))
  latch (bumpReg s pgPwr 0x068 16 16 1) pgPwr 0

/-- PWR_OVERRIDE follows the hardware step and the core rail; each rise from 0 counts (R310, R322, R327). -/
def overrides (s : State) : State :=
  let pl := decide (plFloor s < hwStep s)
  let maxMv := max 650 (min 900 (regF s pgPwr 0x048 0 12))
  let vdd := decide (maxMv < s.pwr.vddCur)
  let t := if pl && !s.pwr.ovPl then overridden s false (plFloor s) (hwStep s) else s
  let t := if vdd && !s.pwr.ovVdd then overridden t true maxMv s.pwr.vddCur else t
  { t with pwr := { t.pwr with ovPl := pl, ovVdd := vdd } }

/-- What a write by request `id` on port p does beyond the register's fields. `old` is the word before it. -/
def writeHook (s : State) (p : Nat) (u : UnitKind × Nat) (off : Nat) (old v : Word) (id : Option Nat) : State :=
  if off = 0x004 then runWrite s u v
  else if off = 0x00C then
    (if !v.getLsbD 0 then s
     else match u.1 with
       | .rgn => rgnCommitNow s
       | .arb => arbCommitNow s id
       | _ => s)
  else if off = 0x010 then attnRecheck s id.isSome (id.getD 0)
  else if off = 0x014 then attnRecheck s id.isSome (id.getD 0)
  else
    match u.1, off with
    | .blk, 0x048 => { s with blk := { s.blk with lbist := v.getLsbD 0 } }
    | .blk, 0x04C => blkReset s v
    | .clk, 0x070 => fmeasGo s v
    | .hk, 0x0C0 => freqRequest s v
    | .pwr, 0x044 => overrides s
    | .pwr, 0x048 => overrides s
    | .cal, 0x040 => if !v.getLsbD 1 then sweepAbandon s u.2 else s
    | .cal, 0x058 => calForceWrite s u.2 v
    | .log, 0x060 => logRead s (field v 0 16)
    | .log, 0x080 => logEv s 0x0F00 pgLog .info v
    | .pmu, 0x044 => cfgSet s v
    | .pmu, 0x180 => smpCtl s (old.getLsbD 0) v
    | .pmu, 0x190 => smpRead s (field v 0 16)
    | .test, 0x04C => mbistGo s v
    | .test, 0x060 => if bit31 v then t1500Go s else s
    | .hdl, 0x080 => hdlOpWrite s v
    | .link, 0x060 => ppOpWrite s v
    | .ch, 0x068 =>
      let s := if (old &&& 0x1F07#32) ≠ (v &&& 0x1F07#32) then sbWrite s 1 (BitVec.ofNat 8 u.2) 0x018 [nrfCfgWord s u.2] else s
      if bit31 v then reseed s u.2 else s
    | .clk, _ => if 0x050 ≤ off ∧ off < 0x060 then gateWrite s ((off - 0x050) / 4) v else s
    | .pmu, _ => if 0x400 ≤ off ∧ off < 0x400 + 8 * 368 then counterWrite s p ((off - 0x400) / 8) (off % 8 == 4) v else s
    | _, _ => s

/-- A configuration write of a register by request `id` on port p (R10, R62). -/
def regWrite (s : State) (p page off : Nat) (v : Word) (id : Option Nat) : State :=
  match unitOf s page with
  | none => s
  | some u =>
    let old := reg s page off
    let fs := fieldsAt s u off
    let s := if fs.isEmpty || hookOnly u off then s else setReg s page off (writeFields fs old v)
    writeHook s p u off old v id

/-- A write would change an RWX field of a unit that is not stopped (Table 0-3). -/
def rwxBlocked (s : State) (page off : Nat) (v : Word) : Bool :=
  match unitOf s page with
  | none => false
  | some u =>
    (fieldsAt s u off).any (fun f => f.acc == .rwx && fieldNat v f.lo f.w != fieldNat (reg s page off) f.lo f.w) &&
      (!(runOf s u == .stopped) || inRecovery s u)

/-- A write that replies REJECT with detail UNIT_RUNNING: an RWX field of a running unit, a command register that is
busy, or a timing set in use (R84, R129, R272, R274, R336, R376, R381, Table 0-3). -/
def cfgBusy (s : State) (page off : Nat) (v : Word) : Bool :=
  rwxBlocked s page off v ||
  (match unitOf s page with
   | some (.clk, _) => off == 0x070 && bit31 v && s.clk.fmeasBusy
   | some (.hk, _) => off == 0x0C0 && bit31 v && s.hk.freqBusy
   | some (.hdl, _) => off == 0x080 && s.hdl.op.isSome
   | some (.link, _) => off == 0x060 && s.link.opBusy
   | some (.test, _) =>
     (off == 0x04C && bit31 v && (s.test.mbistBusy ||
       (decide (1 ≤ fieldNat v 0 4 ∧ fieldNat v 0 4 ≤ nOct s) && !((oct s (fieldNat v 0 4 - 1)).run == .stopped)))) ||
     (off == 0x060 && bit31 v && s.test.t1500Busy)
   | some (.ch, c) =>
     let a := decide (0x100 ≤ off ∧ off < 0x110)
     let b := decide (0x110 ≤ off ∧ off < 0x120)
     ((a || b) && s.hk.freqBusy) || (if regB s (chPage c) 0x120 0 then b else a)
   | _ => false)

/-- The port's own privilege rule for a warm reset (R346), and the pages that need PRIV = 2 (R61). -/
def cfgPrivOk (s : State) (write : Bool) (priv : BitVec 2) (page off : Nat) : Bool :=
  if write then
    decide (1 ≤ priv.toNat) && (!([1, 11, 12, 24].contains page && (unitOf s page).isSome) || priv == 2#2)
  else
    decide (1 ≤ priv.toNat) ||
      (page == pgPmu && decide (0x400 ≤ off ∧ off < 0x400 + 8 * 368) && userGranted s ((off - 0x400) / 8) &&
        counterExists s ((off - 0x400) / 8))

end Sys2Proof.Machine
end

