-- ==== Sys2Proof/WellFormed.lean ====
section
/-! DEFINITION. Well-formed commands: a row's operands spell the row's own command. -/

namespace Sys2Proof

/-- The opcodes of Table 2-4. -/
def opcodeListed (o : Byte) : Bool :=
  [0x01#8, 0x02#8, 0x03#8, 0x04#8, 0x05#8, 0x08#8, 0x09#8, 0x0C#8, 0x10#8, 0x11#8, 0x12#8, 0x20#8, 0x21#8].contains o

/-- A header that step 1 refuses for a reserved opcode, a reserved flag or privilege 3 (R42). -/
def headerReserved (o : Byte) (h : Hdr) : Bool :=
  !opcodeListed o || field h.flags 4 4 != 0#4 || h.priv == 3#2

/-- The AT control word names atomic operation `aop` (Table 7-3). -/
def auxIs (aop : Nat) (aux : Word) : Bool := fieldNat aux 0 4 == aop

/-- OP and MODE of the descriptor that a SOP's first beat carries (Table 6-1). -/
def beatOp (bs : List Beat) : Option (Nat × Nat) := bs.head?.map (fun b => (fieldNat b.g0 0 8, fieldNat b.g0 8 8))

/-- The descriptor is for operation `op` with `mode` in the low `w` bits of MODE (Tables 6-2 and 6-4). -/
def descIs (op w mode : Nat) (bs : List Beat) : Bool :=
  match beatOp bs with
  | some (o, m) => o == op && m % 2 ^ w == mode
  | none => false

/-- A command whose operands spell another row, or no frame at all, is ill formed. -/
def Instr.wf : Instr → Bool
  | .reservedOpcode _ o h _ _ => headerReserved o h
  | .atAdd _ _ a _ => auxIs 0 a
  | .atMin _ _ a _ => auxIs 1 a
  | .atMax _ _ a _ => auxIs 2 a
  | .atAnd _ _ a _ => auxIs 3 a
  | .atOr _ _ a _ => auxIs 4 a
  | .atXor _ _ a _ => auxIs 5 a
  | .atSwap _ _ a _ => auxIs 6 a
  | .atCas _ _ a _ => auxIs 7 a
  | .sopDotRowsplit _ _ bs => descIs 1 1 0 bs
  | .sopDotKsplit _ _ bs => descIs 1 1 1 bs
  | .sopAttn _ _ bs => descIs 2 0 0 bs
  | .sopGather _ _ bs => descIs 3 0 0 bs
  | .sopScatterAdd _ _ bs => descIs 4 0 0 bs
  | .sopSetxIntersect _ _ bs => descIs 5 2 0 bs
  | .sopSetxUnion _ _ bs => descIs 5 2 1 bs
  | .sopSetxDiff _ _ bs => descIs 5 2 2 bs
  | .sopExpand _ _ bs => descIs 6 0 0 bs
  | .sopFilter _ _ bs => descIs 7 0 0 bs
  | .sopCopyResident _ _ bs => descIs 8 2 0 bs
  | .sopCopyStriped _ _ bs => descIs 8 2 1 bs
  | .sopCopyFromCrown _ _ bs => descIs 8 2 2 bs
  | .sopFill _ _ bs => descIs 9 0 0 bs
  | .sbRegWr _ _ ws => decide (1 ≤ ws.length ∧ ws.length ≤ 16)
  | .sbPpProg _ ws => decide (1 ≤ ws.length ∧ ws.length ≤ 16)
  | .sbT1500 _ ws => decide (1 ≤ ws.length ∧ ws.length ≤ 16)
  | .lane _ _ w _ _ => decide (w.toNat ≤ 18)
  | .srx _ p => decide (p ≠ 3#2)
  | _ => true

end Sys2Proof
end

