-- ==== Sys2Proof/Machine/Checks.lean ====
section
/-! DEFINITION. The checks of admission: each step's first failing check gives the reply (R17, R42-R49, R53, R60, R61,
R79, R86, Table 2-10). -/

namespace Sys2Proof.Machine

/-- The opcode brings write-data beats. A header of an opcode with no write beats never owns any: beats that follow it go to a
later header (R38; DESIGN CHOICE, log 82). -/
def takesBeats (o : Byte) : Bool := [opWr, opWrp, opAt, opRdw, opSop, opBcast, opCfgWr].contains o

/-- Beats of LEN + 1 sectors. -/
def secBeats (len : BitVec 7) : Nat := (len.toNat + 2) / 2

/-- The beat count that Table 2-4 requires. -/
def beatCount (o : Byte) (len : BitVec 7) : Nat :=
  if [opWr, opWrp, opRdw, opBcast].contains o then secBeats len else if takesBeats o then 1 else 0

/-- LEN permitted for the opcode (Table 2-4). -/
def lenOk (o : Byte) (len : BitVec 7) : Bool :=
  if [opRd, opWr, opWrp, opRdw, opBcast].contains o then true
  else if o = opSop then len == 1#7 else len == 0#7

/-- A handle command. -/
def isHdlCmd (o : Byte) : Bool := [opHcmt, opHrbk, opHrel].contains o
/-- A configuration request. -/
def isCfg (o : Byte) : Bool := o == opCfgRd || o == opCfgWr
/-- A request for sectors of the data space. -/
def isData (o : Byte) : Bool := [opRd, opWr, opWrp, opAt, opRdw].contains o
/-- CLASS and DEADLINE are ignored (R44). -/
def classless (o : Byte) : Bool := o == opFence || isHdlCmd o || isCfg o

/-- FLAGS.HDL. -/
def Req.hdl (r : Req) : Bool := r.h.flags.getLsbD 0
/-- FLAGS.COLLECTIVE of an RDW. -/
def Req.collective (r : Req) : Bool := r.opc == opRdw && r.h.flags.getLsbD 3
/-- The handle in ADDR[39:24]. -/
def Req.handle (r : Req) : Nat := fieldNat r.h.addr 24 16
/-- The offset in ADDR[23:0]. -/
def Req.ofs (r : Req) : Nat := fieldNat r.h.addr 0 24
/-- The page of a configuration request. -/
def Req.page (r : Req) : Nat := fieldNat r.h.addr 12 8
/-- Its offset within the page. -/
def Req.off (r : Req) : Nat := fieldNat r.h.addr 0 12
/-- The value of a configuration write, corrected where the port checks (R49, R60). -/
def Req.value (r : Req) : Word :=
  match r.beats with | b :: _ => field (if r.gen then b.g0 else correctGranule b.g0) 0 32 | [] => 0
/-- The descriptor of a SOP, corrected where the port checks (R49). -/
def Req.descr (r : Req) : Desc :=
  match r.beats with
  | b :: _ => descOf (beatBytes (if r.gen then b else { b with g0 := correctGranule b.g0, g1 := correctGranule b.g1, g2 := correctGranule b.g2, g3 := correctGranule b.g3 }))
  | [] => descOf 0

/-- The handle that a request names, with the first stream offset it uses: by FLAGS.HDL, or by a descriptor's HDLV
(R85, R153, R163). -/
def Req.names (r : Req) : Option (Nat × Nat) :=
  if r.opc = opSop then
    let d := r.descr
    match (formOf d).1 with
    | some .attn => if d.hdlv then some (d.handle.toNat, d.m * (attnFmt d.param1).tstride + (attnFmt d.param1).roff) else none
    | some .copyStr => if d.hdlv then some (d.handle.toNat, d.k) else none
    | _ => none
  else if isHdlCmd r.opc then some (r.handle, 2 ^ 24)
  else if isData r.opc && r.hdl then some (r.handle, r.ofs)
  else none

/-- The AT control word is permitted (Tables 7-3 and 7-4). -/
def atAuxOk (a : Word) : Bool :=
  let aop := fieldNat a 0 4
  let et := fieldNat a 4 3
  decide (aop ≤ 7 ∧ et ≤ 6) &&
    (match aop with
     | 3 | 4 | 5 => decide (3 ≤ et)
     | 7 => (et == 4 || et == 6) && !a.getLsbD 7
     | _ => true)

/-- FLAGS.HDL is permitted for the opcode (R47). -/
def hdlFlagOk (o : Byte) (hdl : Bool) : Bool :=
  if isHdlCmd o then hdl else if o = opSop ∨ o = opBcast ∨ o = opFence ∨ isCfg o then !hdl else true

/-! ### Step 1 -/

/-- A request holds its source and tag: its reply has not left, and it was not turned away for want of a credit. -/
def Req.open_ (s : State) (r : Req) : Bool :=
  (Machine.port s r.port).replies.any (fun q => q.id == r.id && q.outcome != Outcome.reject.code) || !r.ghost &&
    (r.stage != .replied || (Machine.port s r.port).replies.any (fun q => q.id == r.id))

/-- Earlier requests of the same port that are still open. -/
def earlierOpen (s : State) (r : Req) : List Req :=
  s.reqs.filter (fun q => q.port == r.port && decide (q.id < r.id) && q.open_ s)

/-- Earlier open requests of the same source (R56). -/
def earlierSame (s : State) (r : Req) : List Req := (earlierOpen s r).filter (fun q => q.h.src == r.h.src)

/-- The outcome of step 1, if a check fails (Table 2-10). -/
def check1 (s : State) (r : Req) : Option (Outcome × Byte) :=
  let rej := fun d => some (Outcome.reject, d)
  let o := r.opc
  let es := earlierOpen s r
  if s.blk.st = .lost ∧ isCfg o = false then some (.discard, 5#8)
  else if !opcodeListed o || field r.h.flags 4 4 != 0#4 || !hdlFlagOk o r.hdl ||
      (o == opAt && !atAuxOk r.aux) || (o == opRdw && decide (4 < fieldNat r.aux 16 3)) then rej rejOpcode
  else if r.h.priv == 3#2 || (!classless o && r.h.cls == .mt && r.h.priv != 2#2) ||
      (isCfg o && !cfgPrivOk s (o == opCfgWr) r.h.priv r.page r.off) ||
      (o == opCfgWr && r.page == pgBlk && r.off == 0x04C && r.h.priv != 2#2) then rej rejPriv
  else if !lenOk o r.h.len || r.beats.length != beatCount o r.h.len then rej rejLength
  else if es.any (fun q => q.h.src == r.h.src && q.h.tag == r.h.tag) then rej rejTagbusy
  else if es.any (fun q => q.h.src != r.h.src && field q.h.src 0 8 == field r.h.src 0 8) then rej rejSrcalias
  else none

/-! ### Step 2 -/

/-- What step 2 finds: a failing check, or the translation. -/
structure Judged where
  fail : Option (Outcome × Byte)
  secs : List SecRef
  ranges : List (Nat × Nat)
  plan : Option Plan
  code : Option Nat
  deriving DecidableEq, Repr

/-- Step 2 fails. -/
def Judged.bad (o : Outcome) (d : Byte) : Judged := { fail := some (o, d), secs := [], ranges := [], plan := none, code := none }

/-- Step 2 passes with nothing translated. -/
def Judged.ok : Judged := { fail := none, secs := [], ranges := [], plan := none, code := none }

/-- ADDR reaches beyond the data address width of the part (Table 2-3). -/
def addrWide (s : State) (a : BitVec 40) : Bool :=
  if s.part = .rosura64H then field a 37 3 != 0#3 else field a 36 4 != 0#4

/-- The writing requests of R79 among data requests. -/
def writesData (o : Byte) : Bool := [opWr, opWrp, opAt, opRdw].contains o

/-- The element width and offset of an AT are aligned (R188). -/
def atAligned (a : Word) : Bool :=
  let ofs := fieldNat a 8 5
  let w := eBits (fieldNat a 4 3) / 8
  if a.getLsbD 7 then ofs == 0 else ofs % w == 0

/-- Data areas of a request, each checked by R79 under a tenant. -/
def judgeAreas (s : State) (r : Req) (as : List (Nat × Nat)) (hb : Bad) (h : Hdr) : Judged :=
  let (refs, b) := areasOp s h as (writesData r.opc) false
  let b := hb.and b
  let wide := !r.hdl && addrWide s r.h.addr
  if b.stale then .bad .stale 0#8
  else if b.bounds then .bad .reject rejBounds
  else if b.range || wide || !b.codes.isEmpty then .bad .reject rejRange
  else if b.tenant then .bad .reject rejTenant
  else if b.wprot then .bad .reject rejWprot
  else { Judged.ok with secs := refs, ranges := as.map (fun a => (a.1 / 32, a.2)) }

/-- Step 2 of a data request (R43, R79, R86). -/
def judgeData (s : State) (r : Req) (nm : Option Named) : Judged :=
  if r.opc = opAt ∧ atAligned r.aux = false then .bad .reject rejAlign
  else if !r.hdl then
    if fieldNat r.h.addr 0 5 ≠ 0 then .bad .reject rejAlign
    else judgeAreas s r [(r.h.addr.toNat, r.n)] Bad.none r.h
  else
    let x := nm.getD { entry := 0, par := 0, bad := true, parBad := true }
    let e := x.entry
    let pl := if hChild e then hPlen e else 0
    let hb : Bad :=
      { Bad.none with
          stale := streamStale x r.ofs r.n
          bounds := decide (pl + hCap e < r.ofs + r.n) || (writesData r.opc && decide (r.ofs < pl))
          tenant := (r.h.priv == 0#2 && r.h.tenant != hTenant e) ||
            (r.opc == opRd && r.h.tenant != hTenant e && decide (hCommitted e < r.ofs + r.n)) }
    judgeAreas s r (streamAreas x r.ofs r.n) hb (asTenant r.h e)

/-- Step 2 of a configuration request (R60). -/
def judgeCfg (s : State) (r : Req) : Judged :=
  if (unitOf s r.page).isNone then .bad .reject rejRsvpage
  else if fieldNat r.h.addr 0 2 ≠ 0 then .bad .reject rejAlign
  else if fieldNat r.h.addr 20 20 ≠ 0 then .bad .reject rejRange
  else if r.opc = opCfgWr ∧ (r.beats.head?.map (·.mask)) ≠ some 0xF#64 then .bad .reject rejWidth
  else .ok

/-- Step 2 of a SOP (R134-R137, R144). -/
def judgeSop (s : State) (r : Req) (nm : Option Named) : Judged :=
  let (align, b, p) := planOf s r.h r.descr nm
  if align then .bad .reject rejAlign
  else if b.stale then .bad .stale 0#8
  else if b.bounds then .bad .reject rejBounds
  else if b.range then .bad .reject rejRange
  else if b.tenant then .bad .reject rejTenant
  else if b.wprot then .bad .reject rejWprot
  else if !b.codes.isEmpty then { Judged.bad .reject rejDesc with code := some (b.codes.foldl min 255) }
  else
    { Judged.ok with
        plan := p
        ranges := match p with
          | some q => if q.dst.isEmpty || q.form == .fill || q.form == .copyStr then [] else [(r.descr.daddr.toNat / 32, q.dst.length)]
          | none => [] }

/-- Step 2 of a BCAST (R46, R139). -/
def judgeBcast (r : Req) : Judged :=
  if fieldNat r.h.addr 0 5 ≠ 0 then .bad .reject rejAlign
  else if fieldNat r.h.addr 18 22 ≠ 0 ∨ 2 ^ 18 < fieldNat r.h.addr 0 18 + 32 * r.n then .bad .reject rejRange
  else .ok

/-- The committed length that an HCMT asks for (R88). -/
def hcmtLen (r : Req) (e : BitVec 256) : Nat := hCommitted e + fieldNat r.aux 0 24

/-- An HCMT asks for more than its handle's TENTATIVE (R88). -/
def hcmtOver (r : Req) (e : BitVec 256) : Bool := r.opc == opHcmt && decide (hTentative e < hcmtLen r e)

/-- Step 2 of a handle command (R47, R53, R58, R88): bounds alone are judged at its turn. -/
def judgeHdl (s : State) (r : Req) : Judged :=
  let e := hdlBytes s r.handle
  if r.ofs ≠ 0 then .bad .reject rejAlign
  else if hdlPoisoned s r.handle || !hValid e then .bad .stale 0#8
  else if r.h.priv == 0#2 && r.h.tenant != hTenant e then .bad .reject (if hcmtOver r e then rejBounds else rejTenant)
  else .ok

/-- ALIGN of step 2 fails, which needs no handle entry: a handle command's offset, an atomic's element, a descriptor's DADDR
(R47, R53, R137, R188). -/
def alignBad (s : State) (r : Req) : Bool :=
  if isHdlCmd r.opc then r.ofs != 0
  else if r.opc = opAt then !atAligned r.aux
  else if r.opc = opSop then (planOf s r.h r.descr none).1
  else false

/-- Step 2 of admission. -/
def check2 (s : State) (r : Req) (nm : Option Named) : Judged :=
  if isData r.opc then judgeData s r nm
  else if isCfg r.opc then judgeCfg s r
  else if r.opc = opSop then judgeSop s r nm
  else if r.opc = opBcast then judgeBcast r
  else if isHdlCmd r.opc then judgeHdl s r
  else .ok

/-! ### Step 3 (R28, R308, R404) -/

/-- Channels of translated sectors. -/
def chansOf (secs : List SecRef) : List Nat := (secs.map (fun r => r.place.ch)).dedup

/-- Channels in which a request has a piece that has not been served. -/
def pieceChans (s : State) (r : Req) : List Nat :=
  (List.range (nChan s)).filter (fun c => decide (0 < partsIn (chan s c) r.id))

/-- The clock domains on a request's path (Table 1-4). -/
def pathOf (s : State) (r : Req) : List Nat :=
  let p := 64 + r.port.val
  let cs := chansOf r.secs
  let vs := r.secs.filter (fun x => x.vault.isSome)
  if isData r.opc then
    let par := vs.flatMap (fun x => match x.vault with | some v => [(parityPlace s v x.place).ch] | none => [])
    [p] ++ cs ++ (if r.hdl then [93] else []) ++
      (if r.opc = opAt ∨ r.opc = opRdw then cs.map (fun c => 80 + octOf c)
       else if r.opc = opWr ∨ r.opc = opWrp then par ++ (chansOf vs).map (fun c => 80 + octOf c)
       else [])
  else if r.opc = opSop then
    match r.plan with
    | some q => [p, 80] ++ maskChans q.mask ++ (octsOf q.mask).map (80 + ·)
    | none => [p, 80]
  else if r.opc = opBcast then [p, 80]
  else if r.opc = opFence then [p] ++ (earlierSame s r).flatMap (pieceChans s)
  else if isHdlCmd r.opc then [p, 93, (hdlPlace s r.handle).ch]
  else [p, pageDomain r.page]

/-- The lowest gated domain on a request's path. -/
def gatedOn (s : State) (r : Req) : Option Nat :=
  (pathOf s r).foldl (fun m d => if gated s d then some (match m with | some x => min x d | none => d) else m) none

/-- A writing request that write-forbid refuses (R308, R314). -/
def thermalRefused (s : State) (r : Req) : Bool :=
  if r.opc = opRdw then
    (if r.collective then false else writeForbidden s || !(s.thm.w == .open_))
  else
    writeForbidden s &&
      (writesData r.opc || (r.opc == opHrbk && hZero (hdlBytes s r.handle)) ||
        (r.opc == opSop && (match r.plan with | some q => opWrites q.form r.descr | none => false)))

/-- UNIT_RUNNING of step 3 (R404, Table 2-9). -/
def runningRefused (s : State) (r : Req) : Bool :=
  (!isCfg r.opc && (pathOf s r).any (fun d => decide (80 ≤ d ∧ d < 88) && !((oct s (d - 80)).run == .running))) ||
    (r.opc == opSop && eccStopping s) ||
    (r.opc == opCfgWr && cfgBusy s r.page r.off r.value)

/-- The outcome of step 3, if a check fails. -/
def check3 (s : State) (r : Req) : Option (Outcome × Byte) :=
  match gatedOn s r with
  | some d => some (.gated, BitVec.ofNat 8 d)
  | none =>
    if thermalRefused s r then some (.reject, rejThermal)
    else if runningRefused s r then some (.reject, rejRunning)
    else none

/-! ### Write data (R49) -/

/-- The granules of beats in order. -/
def beatGranules (bs : List Beat) : List Granule := bs.flatMap (fun b => [b.g0, b.g1, b.g2, b.g3])

/-- The granules that a request uses. -/
def usedGranules (r : Req) : List Granule :=
  (beatGranules r.beats).take
    (if [opWr, opWrp, opRdw, opBcast].contains r.opc then 2 * r.n
     else if r.opc = opAt then 2 else if r.opc = opSop then 4 else if r.opc = opCfgWr then 1 else 0)

/-- PORT_CFG.WCHK = GENERATE. -/
def wchkGen (s : State) (p : Nat) : Bool := regB s (portPage p) 0x040 0

/-- Some used granule is uncorrectable and the port checks (R49). -/
def wdataBad (r : Req) : Bool := !r.gen && (usedGranules r).any granuleBad

/-- Some used granule is corrected (R49). -/
def wdataCorrected (r : Req) : Bool :=
  !r.gen && (usedGranules r).any (fun g => correctGranule g != g)

/-- A write granule as it is taken: corrected, or with fresh check bits. -/
def takeGranule (gen : Bool) (g : Granule) : Granule := if gen then encodeGranule (granuleData g) else correctGranule g

/-- Pairs of granules as sectors. -/
def pairSectors : List Granule → List Sector
  | a :: b :: t => ⟨a, b⟩ :: pairSectors t
  | _ => []

/-- The write sectors of a request. -/
def writeSectors (r : Req) : List Sector :=
  pairSectors ((usedGranules r).map (takeGranule r.gen))

/-- The byte masks of a WRP's sectors: the two halves of each beat's mask (Table 2-1). -/
def writeMasks (r : Req) : List (BitVec 32) :=
  (r.beats.flatMap (fun b => [field b.mask 0 32, field b.mask 32 32])).take r.n

end Sys2Proof.Machine
end

