-- ==== Sys2Proof/Machine/Admit.lean ====
section
/-! DEFINITION. Admission: how a header and its beats arrive, the steps of Table 1-3, and what passing step 6 hands to the
channels, Crowns and dispatcher (R17, R33-R62). -/

namespace Sys2Proof.Machine

/-! ### Arrival (R35-R38) -/

/-- The state with a request's stage set. -/
def setStage (s : State) (id : Nat) (st : Stage) : State := modReq s id (fun r => { r with stage := st })

/-- A header as it is accepted at a port. -/
def newReq (s : State) (p : Fin 16) (opc : Byte) (h : Hdr) (aux : Word) (ghost : Bool) : Req :=
  { id := s.nextReq, port := p, opc := opc, h := h, aux := aux, beats := [],
    stage := if takesBeats opc then .beats else .replied, ghost := ghost, accTick := s.time.tick, accBlk := s.time.blk,
    accCyc := s.time.cyc, cls := h.cls, dl := none, corrected := false, secs := [],
    ranges := if isData opc && !h.flags.getLsbD 0 then [(h.addr.toNat / 32, if opc = opAt then 1 else h.len.toNat + 1)] else [], handles := [], todo := 0,
    rdata := [], poison := none, okDetail := 0#8, discard := none, desc := none, sampled := false, gen := false, hdlTurn := none,
    slack := none, gatedBy := none, tAdmit := none, tJoin := none, tGrant := none, tDone := none, pieceCh := none, plan := none }

/-- A new request is listed, and waits for its beats where it has any. -/
def listReq (s : State) (r : Req) : State :=
  let s := { s with reqs := s.reqs ++ [r], nextReq := s.nextReq + 1 }
  if takesBeats r.opc then modPort s r.port (fun x => { x with waiting := x.waiting ++ [r.id] }) else s

/-- A request is forgotten once its reply has left and its beats have been consumed. -/
def dropReq (s : State) (id : Nat) : State := { s with reqs := s.reqs.filter (fun r => r.id != id) }

/-- The reply of request `id` still waits at its port. -/
def replyWaits (s : State) (p id : Nat) : Bool := (port s p).replies.any (fun q => q.id == id)

/-! ### Steps 2 to 4 -/

/-- A request is held before step 2: by an earlier handle command of its source on the handle it names (R88), and by an
earlier CFG_WR of its source that has not been performed (R62). -/
def holds2 (s : State) (r : Req) : Bool :=
  (earlierSame s r).any (fun q => q.opc == opCfgWr && q.stage != .replied && q.tAdmit.isNone) ||
    (match r.names with
     | some (h, _) => (earlierSame s r).any (fun q => isHdlCmd q.opc && q.handle == h)
     | none => false)

/-- An earlier FENCE of the same source holds a request before step 4 (R57). -/
def holds4 (s : State) (r : Req) : Bool := (earlierSame s r).any (fun q => q.opc == opFence)

/-- Class and deadline of a request's own traffic (R92-R94, R135, Table 4-1). -/
def reqClsDl (s : State) (r : Req) : Cls × Int :=
  if isHdlCmd r.opc then (.rt, r.accBlk.toNat + horizon s .rt)
  else if r.opc = opSop then fixDl s r.port r.h.cls (r.descr.flags.getLsbD 3) r.descr.deadline r.accBlk
  else fixDl s r.port r.h.cls (r.h.flags.getLsbD 1) r.h.deadline r.accBlk

/-- The word that a configuration read returns, in lane 0 (R60). -/
def cfgData (w : Word) : List RplData := [{ g0 := encodeGranule (w.setWidth 128), g1 := 0, g2 := 0, g3 := 0 }]

/-- An admitted request leaves the header queue and the write buffer (R36), and counts. -/
def passed6 (s : State) (r : Req) : State :=
  let s := freeBeats s r.port r.beats.length
  let s := modPort s r.port (fun x => { x with hdrCredits := x.hdrCredits + 1, prog := 0 })
  let s := modReq s r.id (fun q =>
    { q with stage := .admitted, tAdmit := some s.time.cyc, corrected := q.corrected || wdataCorrected r, beats := [] })
  let s := evPort s r.port 0x02 1 (some r.attr)
  if writesData r.opc || r.opc == opBcast then
    evPort s r.port 0x10 (if r.opc = opAt then 1 else r.n) (some r.attr) else s

/-- A configuration request is performed and replies; an ARB commit replies after its boundary (R60-R62, R104). A write that
its unit cannot take when it is performed is refused (R10, R84, Table 2-9). -/
def cfgPerform (s : State) (r : Req) : State :=
  let v := r.value
  let s' := s
  let s := passed6 s r
  if r.opc == opCfgWr && cfgBusy s' r.page r.off v then replyReq s' r .reject rejRunning []
  else if r.opc = opCfgRd then
    let w := regView s r.port r.page r.off
    let s := regReadEffect s r.port r.page r.off
    match findReq s r.id with
    | some q => replyReq s q .ok 0#8 (cfgData w)
    | none => s
  else
    let s := regWrite s r.port r.page r.off v (some r.id)
    if s.arb.waiter = some r.id then s else finishReq s r.id

/-! ### Step 5 and step 6 -/

/-- Partial sectors of a WRP: those with some byte enabled but not all (R46). -/
def wrpPartials (r : Req) : List SecRef :=
  ((r.secs.zip (writeMasks r)).filter (fun e => e.2 != 0 && e.2 != fullMask)).map (·.1)

/-- A Liner entry takes further partial writes of a sector (R118, Table 5-3). -/
def linerOpen (c : Chan) (p : Place) : Bool := c.liner.any (fun l => l.place == p && (l.st == .merging || l.st == .full))

/-- New Liner entries that channel c needs for partial sectors: those on their way and those of a list, one for each sector
with no entry of its own (R17, 05). -/
def linerNeeds (s : State) (c : Nat) (ps : List Place) : Nat :=
  let x := chan s c
  let way := (x.rq.filter (fun e => e.write && e.mask.any (fun m => m != fullMask && m != 0))).map (·.place)
  ((way ++ ps).filter (fun p => !linerOpen x p)).dedup.length

/-- The Liner of channel c has room for the partial sectors of a list. -/
def linerRoom (s : State) (c : Nat) (ps : List Place) : Bool := decide ((chan s c).liner.length + linerNeeds s c ps ≤ 32)

/-- Sectors of an RDW that are held: all while writing is not allowed, else those behind fragments (R197, R198, R314). -/
def heldSecs (s : State) (r : Req) : List SecRef :=
  if s.thm.w = .hold ∨ s.thm.w = .trip then r.secs else r.secs.filter (fun x => heldOn s x.place)

/-- Sectors of a list in octant k. -/
def secsInOct (xs : List SecRef) (k : Nat) : Nat := (xs.filter (fun x => octOf x.place.ch == k)).length

/-- The octants whose scratch lacks the held sectors of an RDW (R197). -/
def heldLacks (s : State) (r : Req) : List Nat :=
  (List.range (nOct s)).filter (fun k =>
    let n := secsInOct (heldSecs s r) k
    !octHasRoom s k (32 * n) 0 && decide (0 < n))

/-- The lock slots and working area that a request reserves in octant k (R195, R201). -/
def octWants (s : State) (r : Req) (k : Nat) : Nat × Nat :=
  if r.opc = opAt then (0, if secsInOct r.secs k = 0 then 0 else 1)
  else if r.opc = opRdw then (0, min 8 (secsInOct r.secs k - secsInOct (heldSecs s r) k))
  else
    match r.plan with
    | some q => (octNeed q.form r.descr q.mask k, lockNeed q.form r.descr q.mask k)
    | none => (0, 0)

/-- Every resource that a request needs at step 5 is free (R17, R69, R140, R143, R195, R407). -/
def hasResources (s : State) (r : Req) : Bool :=
  decide (admittedOf s r.port < 256) &&
    (List.range (nOct s)).all (fun k => octHasRoom s k (octWants s r k).1 (octWants s r k).2) &&
    (r.opc != opWrp || (chansOf (wrpPartials r)).all (fun c =>
      linerRoom s c (((wrpPartials r).filter (fun x => x.place.ch == c)).map (·.place)))) &&
    (r.opc != opSop || decide (s.disp.ops.length < 256)) &&
    (r.opc != opBcast || !bcastBlocked s (fieldNat r.h.addr 5 13) r.n) &&
    (r.opc != opRdw || (heldLacks s r).isEmpty) &&
    (r.opc != opCfgWr || !(r.page == pgArb && r.off == 0x00C && r.value.getLsbD 0 && s.arb.waiter.isSome))

/-- The pieces of a request join their channels' requester queues (R18, R91). -/
def enqueuePieces (s : State) (r : Req) (cls : Cls) (dl : Int) (write : Bool) (ps : List Piece) : State :=
  ps.foldl (fun t p => enqueue t (newEntry t (.port r.id p.idx) r.port cls dl write false p)) s

/-- The written sectors of a request in VAULT rows start their parity updates (R22, R289). -/
def vaultWrites (s : State) (r : Req) (cls : Cls) (dl : Int) (xs : List (SecRef × Sector)) : State :=
  xs.foldl (fun t x => match x.1.vault with
    | some v => addVaultWrite t r.id x.1.place v x.2 cls dl r.port
    | none => t) s

/-- A read at step 6. -/
def admitRd (s : State) (r : Req) (cls : Cls) (dl : Int) : State :=
  let s := modReq s r.id (fun q => { q with todo := r.secs.length })
  enqueuePieces s r cls dl false (piecesOf r.secs [] [])

/-- A write at step 6: whole sectors as writes, partial ones on their way to the Liner (R21, R46, R118). -/
def admitWr (s : State) (r : Req) (cls : Cls) (dl : Int) (data : List Sector) (masks : List (BitVec 32)) : State :=
  let xs := (r.secs.zip (data.zip masks)).filter (fun e => e.2.2 != 0)
  let s := modReq s r.id (fun q => { q with todo := xs.length })
  let s := vaultWrites s r cls dl ((xs.filter (fun e => e.2.2 == fullMask)).map (fun e => (e.1, e.2.1)))
  let s := enqueuePieces s r cls dl true (piecesOf r.secs data masks)
  if xs.isEmpty then finishReq s r.id else s

/-- A fragment sector is entered in the held directory of its Crown (R197, R198). -/
def holdSector (s : State) (r : Req) (x : SecRef) (d : Sector) : State :=
  let k := octOf x.place.ch
  let f : Held :=
    { place := x.place, etype := fieldNat r.aux 16 3, cid := field r.aux 0 16, data := d, seq := (chan s x.place.ch).serial,
      vault := x.vault }
  let was := (oct s k).held.isEmpty
  let s := modChan s x.place.ch (fun c => { c with serial := c.serial + 1 })
  let s := modOct s k (fun o => { o with held := o.held ++ [f] })
  let s := evOct s k 0x08 1 none
  if was then latch s (octPage k) 2 else s

/-- An RDW at step 6 (R193, R197, R198). -/
def admitRdw (s : State) (r : Req) (cls : Cls) (dl : Int) (data : List Sector) : State :=
  let held := heldSecs s r
  let isHeld := fun (x : SecRef) => held.contains x
  let xs := r.secs.zip data
  let run := xs.filter (fun e => !isHeld e.1)
  let s := modReq s r.id (fun q => { q with todo := run.length, okDetail := if held.isEmpty then q.okDetail else 3#8 })
  let s := (xs.filter (fun e => isHeld e.1)).foldl (fun t e => holdSector t r e.1 e.2) s
  let s := run.foldl (fun t e =>
    addJob t (octOf e.1.place.ch) (some r.id) (.reduce (fieldNat r.aux 16 3) e.2) e.1.place e.1.vault cls dl r.port) s
  if run.isEmpty then finishReq s r.id else s

/-- An atomic at step 6: its Crown gets the operand (R188, R189). -/
def admitAt (s : State) (r : Req) (cls : Cls) (dl : Int) (data : List Sector) : State :=
  let s := modReq s r.id (fun q => { q with todo := 1 })
  match r.secs, data with
  | x :: _, d :: _ =>
    addJob s (octOf x.place.ch) (some r.id)
      (.atomic (fieldNat r.aux 0 4) (fieldNat r.aux 4 3) (r.aux.getLsbD 7) (fieldNat r.aux 8 5) d) x.place x.vault cls dl r.port
  | _, _ => s

/-- The broadcast buffer takes sectors from a sector offset on (R139). -/
def bbufWrite (s : State) (a : Nat) (data : List Sector) : State :=
  (data.zipIdx).foldl (fun t e =>
    { t with disp := { t.disp with bbuf := Tab.put (Tab.put t.disp.bbuf (2 * (a + e.2)) e.1.g0) (2 * (a + e.2) + 1) e.1.g1 } }) s

/-- The lowest free descriptor number (R143). -/
def freeDesc (s : State) : Nat := ((List.range 256).find? (fun n => (Tab.find s.disp.ops n).isNone)).getD 0

/-- The slices of an operation are cut for channel c and listed with its slicer (R145). -/
def cutChan (s : State) (n c : Nat) : State :=
  match Tab.find s.disp.ops n with
  | none => s
  | some op =>
    let cuts := cutsOf s op c
    let x : OpChan :=
      { (Tab.find op.chans c).getD { copied := true, copying := false, left := 0, part := [], parts := [], done := true } with
          copied := !hasContent op c, left := cuts.length, done := cuts.isEmpty }
    let s := { s with disp := { s.disp with ops := Tab.put s.disp.ops n { op with chans := Tab.put op.chans c x } } }
    modChan s c (fun y => { y with slicer := y.slicer ++ cuts.map (fun k => sliceFrom op c (sliceBudget s (octOf c) / 40) k 0#32) })

/-- A SOP at step 6: its descriptor is entered, its partitions are formed and its slices cut (R138, R143, R145). -/
def admitSop (s : State) (r : Req) (cls : Cls) (dl : Int) : State :=
  match r.plan with
  | none => s
  | some q =>
    let n := freeDesc s
    let d := r.descr
    let cs := maskChans q.mask
    let chans := (cs.zipIdx).map (fun e =>
      (e.1, ({ copied := false, copying := false, left := 0, part := if q.form.partitions then partOf s d e.2 else [], parts := [],
               done := false } : OpChan)))
    let op : Op :=
      { num := n, req := r.id, d := d, form := q.form, mask := q.mask, head := headOf q.mask, cls := cls, dl := dl, lvis := q.lvis,
        units := q.units, dst := q.dst, opA := q.opA, opB := q.opB, chans := chans, octDone := [], writing := false,
        left := 0, stopped := false, poison := none, recon := false, order := s.disp.order }
    let s := { s with disp := { s.disp with ops := Tab.put s.disp.ops n op, order := s.disp.order + 1 } }
    let s := modReq s r.id (fun x => { x with desc := some n, todo := 1 })
    let s := if q.form.partitions then bumpReg s (octPage 0) 0x048 0 32 (partOor s d) else s
    let s := evBlk s 0x03 1 (some r.attr)
    cs.foldl (fun t c => cutChan t n c) s

/-- A writing request through a handle raises its TENTATIVE (R86). -/
def raiseTentative (s : State) (r : Req) : State :=
  if r.hdl && writesData r.opc then
    let e := hdlBytes s r.handle
    let s := hdlTouch s r.handle
    if hTentative e < r.ofs + r.n then hdlSet s r.handle (hSetTentative e (r.ofs + r.n)) true else s
  else s

/-- Passing step 6: the request leaves its port's queues, and what it needs of the Crowns is reserved (R17, R195). -/
def enter6 (s : State) (r : Req) : State :=
  let want := (List.range (nOct s)).map (fun k => (k, octWants s r k))
  let s := want.foldl (fun t e => if e.2 = (0, 0) then t else octReserve t e.1 r.id e.2.1 e.2.2) (passed6 s r)
  raiseTentative s r

/-- Step 6: the request is handed to the channels, the Crowns, the dispatcher or a register (R17). -/
def admitReq (s : State) (r : Req) : State :=
  if isCfg r.opc then cfgPerform s r
  else
    let (cls, dl) := (r.cls, r.dl.getD 0)
    let data := writeSectors r
    let s := enter6 s r
    if r.opc = opRd then admitRd s r cls dl
    else if r.opc = opWr then admitWr s r cls dl data (r.secs.map (fun _ => fullMask))
    else if r.opc = opWrp then admitWr s r cls dl data (writeMasks r)
    else if r.opc = opAt then admitAt s r cls dl data
    else if r.opc = opRdw then admitRdw s r cls dl data
    else if r.opc = opSop then admitSop s r cls dl
    else if r.opc = opBcast then finishReq (bbufWrite s (fieldNat r.h.addr 5 13) data) r.id
    else s

/-- An RDW that cannot be held while writing is not allowed is refused (R197). -/
def refuseHeld (s : State) (r : Req) : State :=
  let s := (heldLacks s r).foldl (fun t k => setReg (latch t (octPage k) 3) (octPage k) 0x094 ((field r.aux 0 16).setWidth 32)) s
  replyReq s r .reject rejThermal []

/-- A request at the head of its port's order passes step 5, is refused, or goes on waiting (R17, R49, R197);
during an F4 recovery it waits (Table 14-3). WDATA is judged before the THERMAL refusal of an RDW that cannot be held, which
the manual does not order (DESIGN CHOICE, log 82). -/
def passStep5 (s : State) (r : Req) : State :=
  if blockRecovery s then s
  else if wdataBad r then replyReq s r .reject rejWdata []
  else if r.opc == opRdw && (s.thm.w == .hold || s.thm.w == .trip) && !(heldLacks s r).isEmpty then refuseHeld s r
  else if hasResources s r then admitReq s r
  else s

/-- The first request of port p that waits at step 5 (R17). -/
def firstStep5 (s : State) (p : Nat) : Option Req := s.reqs.find? (fun r => r.port.val == p && r.stage == .step5)

/-- An earlier request of the same source has not been translated yet, so that its bytes are not known (R18). -/
def untranslated (s : State) (r : Req) : Bool :=
  (earlierSame s r).any (fun q => isData q.opc && (q.stage == .beats || q.stage == .fetch))

/-- Step 4, and where the request waits next (R57, R88, R92-R94). A configuration request at the head of its port's order
passes at once. A handle command reaches the HDL unit, and the deadline of its store traffic is fixed (R88, R106). -/
def step4 (s : State) (r : Req) : State :=
  let (cls, dl) := reqClsDl s r
  let s := if classless r.opc then s
    else modReq s r.id (fun q => { q with cls := cls, dl := some dl, slack := some (dl - (s.time.blk.toNat : Int)) })
  if r.opc = opFence then setStage s r.id .fence
  else if isHdlCmd r.opc then
    let n := s.hdl.arrivals
    modReq { s with hdl := { s.hdl with arrivals := n + 1 } } r.id (fun q =>
      { q with stage := .handle, hdlTurn := some (n, dl) })
  else
    let s := setStage s r.id .step5
    match firstStep5 s r.port with
    | some q => if q.id = r.id ∧ isCfg r.opc = true then passStep5 s q else s
    | none => s

/-! ### The sampler's candidates (R395) -/

/-- Request `id` is sampled, with its reply where that already waits (R395). -/
def sampleReq (s : State) (id : Nat) : State :=
  let s := modReq s id (fun r => { r with sampled := true })
  match findReq s id with
  | some r =>
    modPort s r.port (fun x =>
      { x with replies := x.replies.map (fun q => if q.id = id ∧ q.sent = 0 then { q with sampled := some r } else q) })
  | none => s

/-- The candidate that ended the sampling interval is selected, and a new interval is drawn (R395). -/
def selectDue (s : State) : State :=
  match s.pmu.smpDue with
  | some id =>
    let (n, t) := smpInterval s
    sampleReq { t with pmu := { t.pmu with smpDue := none, smpLeft := n } } id
  | none => s

/-- The candidate that is due is sampled without waiting for its SAMPLE_SELECT, since the next candidate or its own reply is
there (R395; DEDUCED, log 48). -/
def dueNow (s : State) : State :=
  match s.pmu.smpDue with
  | some id =>
    let (n, t) := smpInterval s
    { t with pmu := { t.pmu with smpDue := none, smpLeft := n, smpSel := t.pmu.smpSel ++ [id] } }
  | none => s

/-- A request is a candidate of the sampler: its port and filter are selected (R395). -/
def isCandidate (s : State) (r : Req) (a : Attr) : Bool :=
  regB s pgPmu 0x180 0 && regB s pgPmu 0x180 (16 + r.port.val) && passesFilter s (regF s pgPmu 0x180 9 3) a

/-- A candidate counts down the sampling interval, after the selection of one that ended it; at zero it is due (R395). -/
def countCandidate (s : State) (r : Req) (a : Attr) : State :=
  if !isCandidate s r a || gated s 95 then s
  else
    let s := dueNow s
    if s.pmu.smpLeft ≤ 1 then { s with pmu := { s.pmu with smpLeft := 0, smpDue := some r.id } }
    else { s with pmu := { s.pmu with smpLeft := s.pmu.smpLeft - 1 } }

/-- An accepted header is counted, and may be a candidate of the sampler (Table 15-3, R395). A request through a handle and a
SOP come here a second time, `late`, for the windows alone, once their data addresses are known (R388; DEDUCED, log 48). -/
def countHeader (s : State) (r : Req) (late : Bool) : State :=
  let a : Attr := { r.attr with late := late }
  countCandidate (evPort s r.port 0x01 1 (some a)) r a

/-- Steps 2 and 3 (Table 2-10); a FENCE holds what follows it before step 4. -/
def step2 (s : State) (r : Req) (nm : Option Named) : State :=
  let j := check2 s r nm
  match j.fail with
  | some (o, d) =>
    let s := match j.code with
      | some c => latch (setReg s (octPage 0) 0x044 (wordOf [(0, c), (8, r.h.tag.toNat), (20, r.port.val)])) (octPage 0) 0
      | none => s
    replyReq s r o d []
  | none =>
    let r := { r with secs := j.secs, ranges := j.ranges, plan := j.plan }
    let s := modReq s r.id (fun q => { q with secs := j.secs, ranges := j.ranges, plan := j.plan })
    let s := if r.hdl || r.opc = opSop then countHeader s r true else s
    match check3 s r with
    | some (o, d) => replyReq s r o d []
    | none => if holds4 s r then setStage s r.id .hold4 else step4 s r

/-- The reply of a request whose handle entry was uncorrectable when it was fetched (R82). -/
def poisonFetch (s : State) (r : Req) : State :=
  let n := if r.opc = opRd then r.n else 0
  replyReq s r .poison 0#8 (beatsOf (List.replicate n (poisonSector zeroSector)))

/-- The handle entries that a request needs: those its sectors lie through, and for HREL the parent's, which loses a child
(R80, R82, R88). -/
def Req.needs (r : Req) (s : State) (h o : Nat) : List Nat :=
  if r.opc = opHrel then
    match hdlGet s h with
    | some e => if !(e.bad || e.poisoned) && hValid e.bytes && hChild e.bytes then [h, hParent e.bytes] else [h]
    | none => [h]
  else handlesNeeded s h o

/-- The handle entries that a request needs are looked up, and missing ones fetched, before step 2 (R80, R82). An ALIGN
failure needs none (R53). -/
def lookup (s : State) (r : Req) : State :=
  match r.names with
  | none => step2 s r none
  | some (h, o) =>
    let need := r.needs s h o
    if alignBad s r then replyReq s r .reject rejAlign [] else
    let s := modReq s r.id (fun q => { q with handles := need.map (BitVec.ofNat 16) })
    if need.any (fun x => match hdlGet s x with | some e => e.bad | none => false) then poisonFetch s r
    else if need.all (hdlCached s) then
      let s := need.foldl hdlTouch s
      match findReq s r.id with
      | some q => step2 s q (nameOf s h o)
      | none => s
    else
      let (cls, dl) := reqClsDl s r
      let s := need.foldl (fun t x => hdlFetch t x r.port cls dl) s
      setStage s r.id .fetch

/-- A request goes on from where it is held, if it may (R57, R80, R88). -/
def goOn (s : State) (id : Nat) : State :=
  match findReq s id with
  | none => s
  | some r =>
    match r.stage with
    | .hold2 => if holds2 s r then s else lookup s r
    | .fetch => lookup s r
    | .hold4 => if holds4 s r then s else step4 s r
    | _ => s

/-- The held requests of port p go on, in the order of their acceptance. -/
def pump (s : State) (p : Nat) : State :=
  ((s.reqs.filter (fun r => r.port.val == p)).map (·.id)).foldl goOn s

/-- The held requests of every port go on, and so does the HDL_OP command. -/
def pumpAll (s : State) : State := forN 16 pump (hdlOpRun s)

/-- A request that steps 1 and 2 judge now, with the checks of step 1 (R17, R53, R62). -/
def judgeNow (s : State) (id : Nat) : State :=
  match findReq s id with
  | none => s
  | some r =>
    match check1 s r with
    | some (o, d) => replyReq s r o d []
    | none => if holds2 s r then setStage s r.id .hold2 else lookup s r

/-- A request with its header and all its beats is judged: TAGBUSY and SRCALIAS too are judged only now, and the WCHK setting
of this moment holds for it (R45, R49; DESIGN CHOICE, log 82). -/
def judge (s : State) (id : Nat) : State := judgeNow (modReq s id (fun q => { q with gen := wchkGen s q.port })) id

/-! ### Headers and beats at the port -/

/-- The next beat of the write buffer goes to the request whose beats are due (R38): a request that has already been
answered discards it, and WD_LAST ends the group. -/
def feedOne (s : State) (p : Nat) : State :=
  let x := port s p
  match x.waiting, x.wbuf with
  | id :: rest, b :: bs =>
    let s := modPort s p (fun y => { y with wbuf := bs, waiting := if b.last then rest else y.waiting })
    (match findReq s id with
     | none => freeBeats s p 1
     | some r =>
       if r.ghost then
         let s := freeBeats s p 1
         if !b.last then s else if replyWaits s p id then setStage s id .replied else dropReq s id
       else
         let s := if 65 ≤ r.beats.length then freeBeats s p 1 else modReq s id (fun q => { q with beats := q.beats ++ [b] })
         if b.last then judge s id else s)
  | _, _ => s

/-- Beats go to their requests while there are any. -/
def feed : Nat → State → Nat → State
  | 0, s, _ => s
  | n + 1, s, p => feed n (feedOne s p) p

/-- A write-data beat is presented (R36, R37). -/
def presentBeat (s : State) (p : Fin 16) (b : Beat) : State :=
  if !s.pins.portOpen || !s.clk.coreRun then s
  else if (port s p).beatCredits = 0 then latch s (portPage p) 0
  else
    let s := modPort s p (fun x =>
      { x with beatCredits := x.beatCredits - 1, beatHeld := x.beatHeld + 1, wbuf := x.wbuf ++ [b] })
    feed (port s p).wbuf.length s p

/-- A header without a credit: REJECT with detail CREDIT, and its beats are consumed (R37). -/
def creditReject (s : State) (p : Fin 16) (opc : Byte) (h : Hdr) (aux : Word) : State :=
  let r := newReq s p opc h aux true
  replyReq (latch (listReq s r) (portPage p) 0) r .reject rejCredit []

/-- A header on a gated port is answered by the stub (R335). -/
def stubReply (s : State) (p : Fin 16) (opc : Byte) (h : Hdr) (aux : Word) : State :=
  let r := newReq s p opc h aux true
  let s := modPort (listReq s r) p (fun x => { x with hdrCredits := x.hdrCredits - 1 })
  if s.blk.st = .lost ∧ isCfg opc = false then replyReq s { r with ghost := false } .discard 5#8 []
  else replyReq s { r with ghost := false } .gated (BitVec.ofNat 8 (0x40 + p.val)) []

/-- A header is accepted with its credit (R35, R36). -/
def takeHeader (s : State) (p : Fin 16) (opc : Byte) (h : Hdr) (aux : Word) : State :=
  let r := newReq s p opc h aux false
  let s := modPort (listReq s r) p (fun x => { x with hdrCredits := x.hdrCredits - 1 })
  let s := countHeader s r false
  if takesBeats opc then feed (port s p).wbuf.length s p else judge s r.id

/-- A header word arrives on REQ_HDR of port p (R33-R37, R335). -/
def acceptHdr (s : State) (p : Fin 16) (w : BitVec 128) (aux : Word) : State :=
  let opc := hdrOpc w
  let h := hdrOf w
  if (port s p).hdrCredits = 0 then creditReject s p opc h aux
  else if gated s (64 + p.val) then stubReply s p opc h aux
  else takeHeader s p opc h aux

/-- A request header arrives at port p, with the beats that come with it (R33-R38, R335). -/
def accept (s : State) (p : Fin 16) (opc : Byte) (h : Hdr) (aux : Word) (bs : List Beat) : State :=
  if !s.pins.portOpen || !s.clk.coreRun then s
  else bs.foldl (fun t b => presentBeat t p b) (acceptHdr s p (reqHdr opc h) aux)

/-! ### Configuration requests as commands of their own -/

/-- The header of a one-register access: its page and offset, LEN 0. -/
def cfgHdr (h : Hdr) (page off : Nat) : Hdr := { h with addr := BitVec.ofNat 40 (page * 4096 + off), len := 0 }

/-- The beat of a configuration write. -/
def cfgBeat (v : Word) : Beat :=
  { g0 := encodeGranule (v.setWidth 128), g1 := 0, g2 := 0, g3 := 0, mask := 0xF#64, last := true }

/-- A CFG_WR of a register arrives at port p. -/
def cfgWrite (s : State) (p : Fin 16) (h : Hdr) (page off : Nat) (v : Word) : State :=
  accept s p opCfgWr (cfgHdr h page off) 0 [cfgBeat v]

/-- A CFG_RD of a register arrives at port p. -/
def cfgRead (s : State) (p : Fin 16) (h : Hdr) (page off : Nat) : State := accept s p opCfgRd (cfgHdr h page off) 0 []

/-! ### Waiting requests -/

/-- Request with source and tag at a port. -/
def findTag (s : State) (p : Nat) (src : BitVec 10) (tag : BitVec 12) (pick : Req → Bool) : Option Req :=
  s.reqs.find? (fun r => r.port.val == p && r.h.src == src && r.h.tag == tag && !r.ghost && pick r)

/-- PORT_TIMEOUT of a request has run out (R59). -/
def timedOut (s : State) (r : Req) : Bool :=
  let lim := regF s (portPage r.port) 0x044 0 24
  decide (lim ≠ 0) && decide (r.accTick + lim * ticksPerUs ≤ s.time.tick)

/-- A request still before the end of step 5 that PORT_TIMEOUT covers (R57, R59, R88). -/
def timeable (r : Req) : Bool :=
  r.opc != opFence &&
    (match r.stage with | .beats | .fetch | .hold2 | .hold4 | .step5 => true | .handle => r.tAdmit.isNone | _ => false)

/-- When a handle command reached the HDL unit (R88). -/
def Req.hdlOrd (r : Req) : Nat := (r.hdlTurn.map (·.1)).getD 0

/-- A request that has passed step 2 names handle h and has not replied (R88). -/
def usesHandle (s : State) (h : Nat) (r q : Req) : Bool :=
  q.open_ s && q.id != r.id && ((q.names.map (·.1)) == some h || q.handles.head? == some (BitVec.ofNat 16 h)) &&
    (match q.stage with
     | .hold4 | .step5 | .admitted | .replied => true
     | .handle => decide (q.hdlOrd < r.hdlOrd)
     | _ => false)

/-- The turn of a handle command has come (R69, R88). -/
def handleTurn (s : State) (r : Req) : Bool :=
  let h := r.handle
  let e := hdlBytes s h
  hdlCached s h && r.tAdmit.isNone &&
    !(earlierSame s r).any (fun q => (q.names.map (·.1)) == some h || q.handles.head? == some (BitVec.ofNat 16 h)) &&
    decide (admittedOf s r.port < 256) &&
    !s.reqs.any (fun q => q.stage == .handle && decide (q.hdlOrd < r.hdlOrd) && q.handle == h) &&
    (r.opc == opHcmt || (r.opc == opHrbk && !hZero e) || !s.reqs.any (usesHandle s h r)) &&
    (r.opc != opHrel || !hChild e || !hValid e || hdlCached s (hParent e))

/-- An HREL lacks the entry of its handle's parent, which has come to be one since step 2 (R88). -/
def lacksParent (s : State) (r : Req) : Bool :=
  let e := hdlBytes s r.handle
  r.opc == opHrel && hdlCached s r.handle && hChild e && hValid e && !hdlCached s (hParent e)

/-- The deadline of a handle command's store traffic (R106, Table 4-1). -/
def Req.storeDl (s : State) (r : Req) : Int := (r.hdlTurn.map (·.2)).getD (r.accBlk.toNat + horizon s .rt)

/-- HCMT on its handle (R88). -/
def doHcmt (s : State) (r : Req) (dl : Int) : State :=
  let e := hdlBytes s r.handle
  let n := hcmtLen r e
  let e := hSetCommitted e n
  hdlWriteThrough s r.handle r.port .rt dl (if r.aux.getLsbD 24 then hSetTentative e n else e)

/-- HRBK on its handle, with its zero writes (R88). -/
def doHrbk (s : State) (r : Req) (dl : Int) : State :=
  let e := hdlBytes s r.handle
  let s := hdlWriteThrough s r.handle r.port .rt dl (hSetTentative e (hCommitted e))
  if !hZero e then s
  else
    let xs := zeroSectors s e (hCommitted e) (hTentative e)
    let zdl := synthDl s .bl
    let s := vaultWrites s r .bl zdl (xs.map (fun x => (x, zeroSector)))
    (piecesOf xs (xs.map (fun _ => zeroSector)) (xs.map (fun _ => fullMask))).foldl
      (fun t p => enqueue t (newEntry t (.zero r.id) 19 .bl zdl true false p)) s

/-- A handle command takes effect on the entry as it stands at its turn; its checks keep the order of Table 2-10 (R53,
R88). -/
def handleEffect (s : State) (r : Req) : State :=
  let h := r.handle
  let e := hdlBytes s h
  let dl := r.storeDl s
  if hdlPoisoned s h || !hValid e then replyReq s r .stale 0#8 []
  else if hcmtOver r e then replyReq s r .reject rejBounds []
  else if r.h.priv == 0#2 && r.h.tenant != hTenant e then replyReq s r .reject rejTenant []
  else
    let s := modReq s r.id (fun q =>
      { q with tAdmit := some s.time.cyc
               handles := BitVec.ofNat 16 h :: (if r.opc = opHrel ∧ hChild e = true then [BitVec.ofNat 16 (hParent e)] else []) })
    let s := modPort s r.port (fun x => { x with hdrCredits := x.hdrCredits + 1 })
    let s := evPort s r.port 0x02 1 (some r.attr)
    match findReq s r.id with
    | none => s
    | some q => if r.opc = opHcmt then doHcmt s q dl else if r.opc = opHrbk then doHrbk s q dl else hdlRelease s h r.port .rt dl

/-- Handle commands whose store and zero writes are all visible reply OK (R81, R88). -/
def handlesDone (s : State) : State :=
  (s.reqs.filter (fun r => r.stage == .handle && r.tAdmit.isSome)).foldl (fun t r =>
    let zeros := (List.range (nChan t)).any (fun c => (chan t c).rq.any (fun e => e.owner == .zero r.id))
    if r.todo = 0 && !zeros && r.handles.all (fun h => !hdlWriting t h.toNat) then
      let t := pumpAll (replyReq t r .ok 0#8 [])
      t
    else t) s

/-! ### Replies leave (R40, R50, R396) -/

/-- A saturating 16-bit latency. -/
def lat16 (n : Nat) : Nat := min 65535 n

/-- A time between two stages, 0 where one was never reached. -/
def between (a b : Option Nat) : Nat := match a, b with | some x, some y => lat16 (y - x) | _, _ => 0

/-- The slack field of a record, saturating (Table 15-5). -/
def slackField (x : Option Int) : Nat :=
  match x with
  | none => 0x800000
  | some v => (BitVec.ofInt 24 (max (-8388607) (min 8388607 v))).toNat

/-- Channel byte of a sample record: the channel, or 128 for none. -/
def sampleLane (r : Req) : Nat :=
  match r.pieceCh with
  | some c => c % 64
  | none => 128

/-- The sample record of a request at its first reply beat (R397, Table 15-5). -/
def sampleBits (s : State) (r : Req) (q : Reply) (attn : Bool) : BitVec 256 :=
  let toAdmit := between (some r.accCyc) r.tAdmit
  let queue := between r.tAdmit r.tJoin
  let gate := if r.opc = opSop then 0 else between r.tJoin r.tGrant
  let bank := if r.opc = opSop then between r.tJoin r.tDone else between r.tGrant r.tDone
  let ends := fun (x y : Option Nat) => match x, y with | some _, some e => e | _, _ => 0
  let last := max (r.tAdmit.getD r.accCyc) (max (ends r.tAdmit r.tJoin)
    (if r.opc = opSop then ends r.tJoin r.tDone else max (ends r.tJoin r.tGrant) (ends r.tGrant r.tDone)))
  let ret := lat16 (s.time.cyc - last)
  let v : Nat := r.h.tag.toNat + r.port.val * 2 ^ 12 +
    (r.h.src.toNat + Cls.num r.cls * 2 ^ 10 + r.h.priv.toNat * 2 ^ 12 + r.hdl.toNat * 2 ^ 14) * 2 ^ 16 +
    r.opc.toNat * 2 ^ 32 + (q.outcome.toNat + attn.toNat * 8) * 2 ^ 40 + q.detail.toNat * 2 ^ 48 + r.h.len.toNat * 2 ^ 56 +
    r.h.addr.toNat * 2 ^ 64 + slackField r.slack * 2 ^ 104 + toAdmit * 2 ^ 128 + queue * 2 ^ 144 + gate * 2 ^ 160 + bank * 2 ^ 176 +
    ret * 2 ^ 192 + sampleLane r * 2 ^ 208 + (s.time.blk.toNat % 2 ^ 32) * 2 ^ 224
  BitVec.ofNat 256 v

/-- A record enters the sample buffer (R396). -/
def sampleStore (s : State) (b : BitVec 256) : State :=
  let wrap := regB s pgPmu 0x180 7
  let full := decide (4096 ≤ (s.pmu.buf.filter (fun r => !r.read)).length)
  let s := if full then latch (bumpReg s pgPmu 0x18C 0 32 1) pgPmu 2 else s
  if full && !wrap then s
  else
    let rec_ : Sample := { bits := b, seq := s.pmu.next, read := false }
    let keep := if 4096 ≤ s.pmu.buf.length then s.pmu.buf.drop 1 else s.pmu.buf
    let s := { s with pmu := { s.pmu with buf := keep ++ [rec_], next := s.pmu.next + 1 } }
    if regF s pgPmu 0x184 0 13 ≤ (s.pmu.buf.filter (fun r => !r.read)).length then latch s pgPmu 1 else s

/-- What the first beat of a reply counts and returns: the header credit, the port's events and the sample (R36, R396,
Table 15-3). -/
def firstBeat (s : State) (p : Nat) (q : Reply) (attn : Bool) : State :=
  let s := if q.hdrCredit then modPort s p (fun x => { x with hdrCredits := x.hdrCredits + 1 }) else s
  match findReq s q.id with
  | none => s
  | some r =>
    let a := some r.attr
    let s := evPort s p (0x03 + q.outcome.toNat) 1 a
    let s := if attn then evPort s p 0x0B 1 none else s
    let s := evPort (evPort s p 0x0C (s.time.cyc - r.accCyc) a) p 0x0F q.sectors a
    let s := if s.pmu.smpDue = some q.id then dueNow s else s
    let mine := s.pmu.smpSel.contains q.id
    let s := if mine then { s with pmu := { s.pmu with smpSel := s.pmu.smpSel.filter (· != q.id) } } else s
    match (if mine then some r else q.sampled) with
    | some x => if gated s 95 then s else sampleStore s (sampleBits s x q attn)
    | none => s

/-- The reply header (Table 2-7). -/
def replyHdr (q : Reply) (attn : Bool) : Word :=
  wordOf [(0, q.tag.toNat), (12, q.lsrc.toNat), (20, q.outcome.toNat), (23, attn.toNat), (24, q.detail.toNat)]

/-- The port sends the next beat of the reply that ranks first (R40, R50). -/
def sendBeat (s : State) (p : Nat) : State :=
  let x := port s p
  if !s.pins.portOpen || !s.clk.coreRun || x.stall then s
  else
    match bestBy Reply.before x.replies with
    | none => s
    | some q =>
      let (attn, s) := attnBit s p
      let s := modPort s p (fun y => { y with prog := 0 })
      let b : RplBeat := { hdr := replyHdr q attn, beat := q.sent, data := q.beats[q.sent]? }
      let s := if q.sent = 0 then firstBeat s p q attn else s
      let q' := { q with sent := q.sent + 1 }
      if q.beats.length ≤ q.sent + 1 then
        let s := modPort s p (fun y => { y with out := some b, replies := y.replies.filter (fun r => r.id != q.id) })
        let s := attnReplySent s q.id
        let s := match findReq s q.id with
          | some r => if r.stage = .replied then dropReq s q.id else s
          | none => s
        pumpAll s
      else modPort s p (fun y => { y with out := some b, replies := y.replies.map (fun r => if r.id = q.id then q' else r) })

/-! ### Closing (R39) -/

/-- PORT_OPEN falls: every request that has not replied is void, and the client's credits return to zero (R39). -/
def closePorts (s : State) : State :=
  { s with pins := { s.pins with portOpen := false }, reqs := []
           ports := s.ports.map (fun e =>
             (e.1, { e.2 with hdrCredits := 0, beatCredits := 0, beatHeld := 0, wbuf := [], waiting := [], replies := [], out := none }))
           arb := { s.arb with waiter := none } }

end Sys2Proof.Machine
end

