-- ==== Sys2Proof/Machine/Sched.lean ====
section
/-! DEFINITION. The scheduler's command slots: when a row command may go out, and what issuing it does (05, 10). -/

namespace Sys2Proof.Machine

/-! ### Service -/

/-- The channel's stack is in service for link commands: booted so far, not lost, awake (R298, R350). -/
def inService (s : State) (c : Nat) : Bool :=
  s.clk.coreRun && (s.blk.st == .ready || (s.blk.st == .boot && decide (10 ≤ s.blk.step))) &&
    ((chan s c).pd != .powerdown && (chan s c).pd != .selfRefresh) &&
    (match (chan s c).wakeAt with | some a => decide (a ≤ s.time.cyc) | none => true) &&
    decide (s.thm.tripPh ≤ 1) && s.hk.freq != .selfRefresh

/-- Energy units leave a channel's credit, which stays at or above -2^23 (R311). -/
def spend (s : State) (c w : Nat) : State :=
  modChan s c (fun x => { x with credit := max (-8388608) (x.credit - (w : Int)) })

/-- A weight of PWR_EW0 or PWR_EW1 (Table 12-4). -/
def weight (s : State) (off lo : Nat) : Nat := regF s pgPwr off lo 8

/-! ### Timing of row commands (Table 5-1, R128) -/

/-- The half is IDLE, or its timed state has run out. -/
def Half.idleAt (h : Half) (now : Nat) : Bool :=
  h.st == .idle || ((h.st == .precharging || h.st == .refreshing) && decide (h.exit ≤ now))

/-- The earliest cycle at which an open half may be precharged (Table 5-1). -/
def preFrom (t : Tim) (slot : Nat) (h : Half) : Nat :=
  let f := fun (o : Option Nat) n => match o with | some a => a + n | none => 0
  max (f h.tAct t.ras) (max (f h.tRd t.rtp) (f h.tWr (slot + t.wr)))

/-- RRD and FAW permit an activate-like command to a bank now (R110). -/
def rateOk (c : Chan) (t : Tim) (now b : Nat) : Bool :=
  c.acts.all (fun a => decide (a.1 + (if a.2 % 4 = b % 4 then t.rrdL else t.rrdS) ≤ now)) &&
    decide ((c.acts.filter (fun a => decide (a.2 % 4 / 2 = b % 4 / 2 ∧ now < a.1 + t.faw))).length < 4)

/-- RC permits an activate of a half now. -/
def rcOk (h : Half) (t : Tim) (now : Nat) : Bool := match h.tAct with | some a => decide (a + t.rc ≤ now) | none => true

/-- An activate-like command is recorded; old ones are forgotten. -/
def noteAct (s : State) (c b : Nat) : State :=
  modChan s c (fun x => { x with acts := x.acts.filter (fun a => decide (s.time.cyc < a.1 + 512)) ++ [(s.time.cyc, b)] })

/-- The row bus is free, and a burst begins: one row command per 16 UI, from a burst boundary on (R209, Table 8-2). -/
def rowFree (s : State) (c : Nat) : Bool := rowSlot s c == s.time.cyc

/-- The channel's progress timer restarts (Table 14-4). -/
def progressed (s : State) (c : Nat) : State := modChan s c (fun x => { x with prog := 0 })

/-- Both halves of a bank. -/
def Chan.both (c : Chan) (b : Nat) (f : Half → Half) : Chan :=
  [0, 1].foldl (fun y h => y.setHalf b h (f (y.half b h))) c

/-- The half of a pending neighbour refresh. -/
def nrfHalf (s : State) (q : NrfReq) : Nat := if q.spare then q.row / 32 % 2 else halfOf s q.row

/-- A pending neighbour refresh waits on a bank. -/
def nrfOn (c : Chan) (b : Nat) : Bool := c.nrfq.any (fun q => q.bank == b)

/-! ### Issuing (R112, R258-R264, R311) -/

/-- ACT for the head of a half, with its energy and the disturbance draw (R112, R261). -/
def issueAct (s : State) (ci b h : Nat) (e : Entry) : State :=
  let c := chan s ci
  let (row, sp) := entryRow s c e
  let g := xorshift64 c.gen
  let hit := regB s (chPage ci) 0x068 0 && decide (g.toNat % 2 ^ nrfK s ci = 0)
  let x : Half :=
    { st := .activating, row := row, spare := sp, exit := s.time.cyc + (tim s ci).rcd,
      tAct := some s.time.cyc, tRd := none, tWr := none }
  let c := c.setHalf b h x
  let s := setChan s ci { c with gen := g, nrfq := if hit then c.nrfq ++ [{ bank := b, row := row, spare := sp }] else c.nrfq }
  let s := evCh (spend (noteAct s ci b) ci (weight s 0x06C 0)) ci 0x08 1 none
  sendRow s ci (.act ⟨chanFin ci, 0⟩ (bankFin b) (BitVec.ofNat 17 row) sp)

/-- PRE for one half, or both (R112, R212). -/
def issuePre (s : State) (ci b : Nat) (hs : List Nat) : State :=
  let exit := s.time.cyc + (tim s ci).rp
  let s := modChan s ci (fun c => hs.foldl (fun y h =>
    y.setHalf b h { y.half b h with st := .precharging, exit := exit }) c)
  let s := evCh s ci 0x09 1 none
  sendRow s ci (.pre ⟨chanFin ci, 0⟩ (bankFin b) (bitFin (hs.headD 0)) (decide (1 < hs.length)))

/-- REF for a bank: its debt, or what it owes, falls by one (R257, R258). -/
def issueRef (s : State) (ci b : Nat) : State :=
  let exit := s.time.cyc + (tim s ci).rfc
  let s := modChan s ci (fun c =>
    let k := c.bank b
    let k := if k.gauntlet then { k with gauntlet := false, debt := k.debt - 1 }
      else if 0 < k.owed then { k with owed := k.owed - 1 } else { k with debt := k.debt - 1 }
    let k := { k with afterSlice := k.afterSlice && decide (1 ≤ k.debt) }
    (c.setBank b k).both b (fun h => { h with st := .refreshing, exit := exit }))
  let s := evCh (spend (noteAct s ci b) ci (weight s 0x070 0)) ci 0x0A 1 none
  sendRow (progressed s ci) ci (.ref ⟨chanFin ci, 0⟩ (bankFin b))

/-- NRF for a pending neighbour refresh: the half is occupied for 2 or 4 RC (R262, R263). -/
def issueNrf (s : State) (ci : Nat) (q : NrfReq) : State :=
  let t := tim s ci
  let rad2 := nrfRad2 s ci
  let n := if rad2 then 4 else 2
  let h := nrfHalf s q
  let s := modChan s ci (fun c =>
    let c := { c with nrfq := c.nrfq.erase q }
    c.setHalf q.bank h { c.half q.bank h with st := .refreshing, exit := s.time.cyc + n * t.rc
                                              tAct := some s.time.cyc })
  let s := spend (noteAct s ci q.bank) ci (weight s 0x070 8 * (n / 2))
  let s := evCh (bumpReg s (chPage ci) 0x06C 0 32 1) ci 0x0B 1 none
  sendRow (progressed s ci) ci (.nrf ⟨chanFin ci, 0⟩ (bankFin q.bank) (BitVec.ofNat 17 q.row) q.spare rad2)

/-! ### Choosing -/

/-- Table 10-2 lets bank b be refreshed now, timing apart. A bank on which a slice is paused is refreshed for what paused it
alone: its other refreshes stay postponed (R101, R127). -/
def refWanted (s : State) (ci : Nat) (c : Chan) (b : Nat) : Bool :=
  let k := c.bank b
  (c.half b 0).idleAt s.time.cyc && (c.half b 1).idleAt s.time.cyc && !nrfOn c b &&
    (if pausedBank c b then k.gauntlet || decide (0 < k.owed) || (draining s && decide (1 ≤ k.debt))
     else refreshHeads s ci c b || (decide (1 ≤ k.debt) && (!entryOn c b || draining s)) || (decide (-7 ≤ k.debt) && c.sleepy) ||
      (decide (-7 ≤ k.debt ∧ k.debt ≤ 0) && !draining s && regB s (chPage ci) 0x060 0 && !entryOn c b && !slicePends s c b))

/-- The bank of the earliest Gauntlet: Gauntlets are refreshed in the order in which they arose (R102). -/
def firstGauntlet (c : Chan) : Option Nat :=
  bestBy (fun a b => decide ((c.bank a).gauntletSeq < (c.bank b).gauntletSeq)) ((List.range 16).filter (fun b => (c.bank b).gauntlet))

/-- A REF to bank b may go out now. -/
def refMay (s : State) (ci : Nat) (c : Chan) (b : Nat) : Bool :=
  refWanted s ci c b && rateOk c (tim s ci) s.time.cyc b

/-- The bank to refresh: the earliest Gauntlet's first, then higher debt first, then the lower bank (R100, R102, R258). -/
def refBest (s : State) (ci : Nat) (c : Chan) : Option Nat :=
  bestBy (fun a b =>
      let x := c.bank a
      let y := c.bank b
      if x.debt ≠ y.debt then decide (y.debt < x.debt) else decide (a < b))
    ((List.range 16).filter (fun b => refMay s ci c b && (!(c.bank b).gauntlet || firstGauntlet c = some b)))

/-- A bank that a running slice holds unpaused and that is under a Gauntlet, or in a drain: its context and the bank
(R101, R270, R317). -/
def pauseWanted (s : State) (c : Chan) : Option (Nat × Nat) :=
  c.running.findSome? (fun e =>
    ((List.range 16).find? (fun b =>
      e.2.banks.getLsbD b && !e.2.pausedBanks.getLsbD b && ((c.bank b).gauntlet || decide (0 < (c.bank b).owed) || draining s))).map (fun b => (e.1, b)))

/-- SLP for a bank: the slice stops within RC, and the bank closes (R101). -/
def issueSlp (s : State) (ci ctx b : Nat) : State :=
  let exit := s.time.cyc + (tim s ci).rc
  let s := modChan s ci (fun c =>
    let c := match Tab.find c.running ctx with
      | some x =>
        let x := { x with pausedBanks := x.pausedBanks ||| (1#16 <<< b), pausedAt := x.pausedAt.or (some s.time.cyc) }
        { c with running := Tab.put c.running ctx x }
      | none => c
    c.both b (fun h => { h with st := .precharging, exit := exit }))
  sendRow s ci (.slp ⟨chanFin ci, 0⟩ (bitFin ctx) (bankFin b))

/-- Halves that are to close and may now, in bank order. -/
def closable (s : State) (ci : Nat) (c : Chan) : List (Nat × Nat) :=
  let t := tim s ci
  (List.range 32).filterMap (fun i =>
    let h := c.half (i / 2) (i % 2)
    if (h.st == .open_ || (h.st == .activating && decide (h.exit ≤ s.time.cyc))) && decide (preFrom t (slotLen s) h ≤ s.time.cyc) &&
        halfWant s ci c (i / 2) (i % 2) == Want.close then some (i / 2, i % 2) else none)

/-- Halves whose head may be activated now, with the head. -/
def openable (s : State) (ci : Nat) (c : Chan) : List (Nat × Nat × Entry) :=
  let t := tim s ci
  if 16 ≤ c.nrfq.length || (c.halted && c.replayq.isEmpty) then []
  else (List.range 32).filterMap (fun i =>
    let h := c.half (i / 2) (i % 2)
    match halfWant s ci c (i / 2) (i % 2) with
    | .open_ e =>
      if h.idleAt s.time.cyc && rcOk h t s.time.cyc && rateOk c t s.time.cyc (i / 2) && energyOk c (exemptNow s e) && phaseAllows s e &&
          !(e.waitsWriting && writeForbidden s) &&
          !(c.nrfq.any (fun q => q.bank == i / 2 && nrfHalf s q == i % 2)) then some (i / 2, i % 2, e) else none
    | _ => none)

/-- A pending neighbour refresh that may go out now (R263). -/
def nrfReady (s : State) (ci : Nat) (c : Chan) : Option NrfReq :=
  let t := tim s ci
  c.nrfq.find? (fun q =>
    let h := c.half q.bank (nrfHalf s q)
    h.idleAt s.time.cyc && rcOk h t s.time.cyc && rateOk c t s.time.cyc q.bank)

/-- PRE for the first half of a list, and for its other half where that is to close too (R212). -/
def closeHalves (s : State) (ci b h : Nat) (rest : List (Nat × Nat)) : State :=
  issuePre s ci b (if rest.contains (b, 1) && h == 0 then [0, 1] else [h])

/-- What the Gauntlet takes first: the pause of a slice on its bank, its REF, and the precharges of its bank (R100-R102). -/
def gauntletSlot (s : State) (ci : Nat) (c : Chan) : Option State :=
  match (if c.halted then none else pauseWanted s c) with
  | some (ctx, b) => some (issueSlp s ci ctx b)
  | none =>
    match (firstGauntlet c).filter (refMay s ci c) with
    | some b => some (issueRef s ci b)
    | none =>
      match (closable s ci c).filter (fun x => (c.bank x.1).gauntlet) with
      | (b, h) :: rest => some (closeHalves s ci b h rest)
      | [] => none

/-- The row command of one command slot: what a Gauntlet takes, then a neighbour refresh, a refresh, a precharge or an
activate, in this order (R100, R101, R112, R258, R263). While a recovery holds the gate no other bank closes or opens, but
for the transfers that it sends again, and for what a drain closes (R217, R272, R317). -/
def commandSlot (s : State) (ci : Nat) : State :=
  let c := chan s ci
  if !inService s ci || !rowFree s ci then s
  else
    match gauntletSlot s ci c with
    | some t => t
    | none =>
      match nrfReady s ci c with
      | some q => issueNrf s ci q
      | none =>
        match refBest s ci c with
        | some b => issueRef s ci b
        | none =>
          if c.halted && c.replayq.isEmpty && !draining s then s
          else
            match closable s ci c with
            | (b, h) :: rest => closeHalves s ci b h rest
            | [] =>
              match bestBy (fun (x y : Nat × Nat × Entry) => Key.before c.rot x.2.2.key y.2.2.key) (openable s ci c) with
              | some (b, h, e) => issueAct s ci b h e
              | none => s

/-! ### Refresh due times (R100, R257) -/

/-- Ticks of the refresh window in a mode (R256). -/
def refWindow (x2 : Bool) : Nat := if x2 then 4000000 else 8000000

/-- Due time i of bank b from origin t0 (R257). -/
def dueAt (s : State) (t0 : Nat) (x2 : Bool) (b i : Nat) : Nat :=
  t0 + (16 * i + b) * refWindow x2 / (2 * rowsPerBank s)

/-- The next due time of a bank. -/
def nextDue (s : State) (k : Bank) (b : Nat) : Nat := dueAt s k.t0 k.x2 b k.due

/-- A decided grant to bank b is revoked: its entry keeps its place, and its class is not counted (R97, R99, R100). -/
def revoke (c : Chan) (b : Nat) : Chan :=
  let hit := fun (e : Entry) => e.onArray && e.place.bank == b && e.granted
  let undo := fun (e : Entry) => if hit e then { e with granted := false } else e
  { c with cmdq := c.cmdq.map undo, replayq := c.replayq.map undo
           counts := match c.cmdq.find? hit with | some e => c.counts.drop e.cls | none => c.counts }

/-- A due time of bank b passes: its debt rises, and at 8 the Gauntlet arises, which revokes a decided grant (R100,
R257). A change of mode applies from this due time. -/
def refreshDue (s : State) (ci b : Nat) : State :=
  let c := chan s ci
  let k := c.bank b
  let at_ := nextDue s k b
  let k := if k.x2 = s.thm.x2 then { k with due := k.due + 1 }
    else { k with x2 := s.thm.x2, t0 := at_ - b * refWindow s.thm.x2 / (2 * rowsPerBank s), due := 1 }
  let owes := decide (8 ≤ k.debt)
  let k := if owes then { k with owed := k.owed + 1 } else { k with debt := k.debt + 1 }
  let arises := owes || decide (k.debt = 8)
  if arises then
    let k := if owes then k else { k with gauntlet := true, gauntletSeq := c.gauntletSeq }
    let c := c.setBank b k
    let s := setChan s ci (revoke { c with gauntletSeq := c.gauntletSeq + 1 } b)
    evCh (bumpReg s (chPage ci) 0x064 16 16 1) ci 0x0C 1 none
  else setChan s ci (c.setBank b k)

end Sys2Proof.Machine
end

