-- ==== Sys2Proof/Machine/Gate.lean ====
section
/-! DEFINITION. The command queue and the gate: joining with the hazards, the grant of a slot, what a started grant
sends, and what a returned burst does (R20, R91, R96-R122, R217, R218, R283). -/

namespace Sys2Proof.Machine

/-! ### Joining (R91, R115, R116, R121) -/

/-- Heads of the requester queues, one per rotation position (R91). -/
def rqHeads (c : Chan) : List Entry := (List.range 23).filterMap (fun p => c.rq.find? (fun e => e.pos == p))

/-- The job of an owner, if it is one. -/
def Owner.job (s : State) : Owner → Option Job
  | .crown k j => (oct s k).jobs.find? (fun x => x.jid == j)
  | _ => none

/-- An entry is a Crown's read of the old data of a vault write (R289). -/
def isOldRead (s : State) (e : Entry) : Bool :=
  !e.write && (match e.owner.job s with
    | some x => (match x.kind with | .parity q _ => q == x.place | _ => false)
    | none => false)

/-- An earlier waiting write of the same sector. -/
def earlierWrite (c : Chan) (e : Entry) : Bool :=
  (c.rq.takeWhile (fun q => q != e)).any (fun q => q.write && (List.range q.n).any (fun i => decide (q.at i = e.place)))

/-- A Crown has not yet taken the lock of an atomic or reduce-write that the source of a port's entry issued before it on
one of its sectors (R18, R182). -/
def behindJob (s : State) (e : Entry) : Bool :=
  match e.owner with
  | .port id _ =>
    let src := (findReq s id).map (fun r => (r.port.val, r.h.src))
    (oct s (octOf e.place.ch)).jobs.any (fun j => (j.st == .queued || j.st == .wantLock) && j.req.any (fun i => decide (i < id)) &&
      (match j.kind with | .atomic _ _ _ _ _ => true | .reduce _ _ => true | _ => false) &&
      (List.range e.n).any (fun i => decide (e.at i = j.place)) && src.isSome && jobSource s j == src)
  | _ => false

/-- A partial sector has a place to go: a queued write, a Liner entry that still takes bytes, or room for a new one: at most
two hold one sector (R115, R118). -/
def partRoom (c : Chan) (e : Entry) : Bool :=
  (e.vault.isNone && (queuedWrite c e.place).isSome) || (linersAt c e.place).any (fun l => l.st == .merging || l.st == .full) ||
    (decide (c.liner.length < 32) && decide ((linersAt c e.place).length < 2))

/-- A reconstruction reads the row of an entry: writes of the row and reads of its old data wait behind it, so that data and
parity stay those that it reads (R290). -/
def reconBars (s : State) (c : Chan) (e : Entry) : Bool :=
  (e.write || isOldRead s e) && !e.owner.ofHold && c.recon.any (fun r => r.asked && r.holds e.place)

/-- An earlier access of the same handle entry waits. -/
def behindHdl (c : Chan) (e : Entry) : Bool :=
  match e.owner with
  | .hdl h => (c.rq.takeWhile (fun q => q != e)).any (fun q => q.owner == .hdl h)
  | _ => false

/-- A head may join now. Requests of one source on one sector keep their order (R18). A sector's parity updates keep theirs
(R289): the Crown's read of the old data follows earlier writes and Liner entries of the sector, and the write follows that
read. A partial write waits for a lock (Table 5-2), and for held fragments to drain (R198). The accesses of one handle entry keep their order (R81). -/
def joinable (s : State) (c : Chan) (e : Entry) : Bool :=
  if behindJob s e || reconBars s c e || behindHdl c e then false
  else if isOldRead s e then !earlierWrite c e && (linersAt c e.place).isEmpty
  else if !e.write || !e.onArray then true
  else
    (e.vault.isNone || (List.range e.n).all (fun i =>
      !(c.rq.any (fun q => isOldRead s q && decide (q.place = e.at i))) && (linersAt c (e.at i)).isEmpty)) &&
    (e.mask.all (· == fullMask) ||
      (!lockedOut s { e with seq := c.serial } e.place && !heldOn s e.place && partRoom c e))

/-- The oldest Liner entry that waits to join the command queue (R118). While a Crown holds its sector's lock it stays in
the Liner: the Crown has read its bytes, and its write clears it (R24, Table 5-2). It waits behind a reconstruction too. -/
def linerWaiting (s : State) (c : Chan) : Option Liner :=
  c.liner.find? (fun l => (l.st == .full || l.st == .merged) && (lockOn s l.place).isNone && !c.recon.any (fun r => r.asked && r.holds l.place))

/-- The head that joins the command queue next (R91, R118): the best of the heads that may join (log 84). While any MT head
waits, the last ARB_MT_RSV.RSV entries are for MT work. -/
def nextJoin (s : State) (c : Chan) : Option Entry :=
  if 64 ≤ c.cmdq.length ∨ (linerWaiting s c).isSome then none
  else
    let heads := (rqHeads c).filter (joinable s c)
    let tight := (rqHeads c).any (fun e => e.cls == Cls.mt) && decide (64 - c.cmdq.length ≤ fieldNat s.arb.cur.mtRsv 0 4)
    bestEntry c.rot (if tight then heads.filter (fun e => e.cls == Cls.mt) else heads)

/-- Reads that look at the array itself, not at newer writes. -/
def Owner.rawRead : Owner → Bool
  | .writeBack => true
  | .patrol => true
  | .confirm => true
  | .remap => true
  | _ => false

/-- The overlays of a joining read (R115, R121). An eviction does not forward from its own Liner entry, and a reconstruction
from none: the parity covers queued writes, and not the bytes of the Liner (R122, R289). -/
def overlaysOf (c : Chan) (e : Entry) : List Overlay :=
  if e.owner.rawRead then []
  else
    let c := match e.owner with
      | .evict n => { c with liner := c.liner.filter (fun l => l.serial != n) }
      | .recon _ _ _ => { c with liner := [] }
      | _ => c
    (List.range e.n).flatMap (fun i => forwardFor c (e.at i) i e.seq)

/-- Every remaining sector of a read that forwarding serves whole is delivered. -/
def serveFrom (s : State) (e : Entry) : State :=
  (List.range e.n).foldl (fun t i =>
    if i < e.done then t
    else match servedAt e i with
      | some d => deliver t e i (e.at i) d false (sectorBad d) false false false
      | none => t) s

/-- A read has nothing left to transfer, and no lock holds any of its sectors. -/
def servedNow (s : State) (e : Entry) : Bool :=
  !e.write && e.onArray && e.next.isNone && (List.range e.n).all (fun i => decide (i < e.done) || !lockedOut s e (e.at i))

/-- Reads of channel ci that forwarding now serves leave the queue (R121). -/
def flushServed (s : State) (ci : Nat) : State :=
  let es := (chan s ci).cmdq.filter (servedNow s)
  es.foldl (fun t e =>
    serveFrom (modChan t ci (fun c => { c with cmdq := c.cmdq.filter (fun q => q.seq != e.seq) })) e) s

/-- Every sector of a read in a fenced row is answered FENCED (R295). -/
def serveFenced (s : State) (e : Entry) : State :=
  (List.range e.n).foldl (fun t i => deliver t e i (e.at i) (poisonSector zeroSector) false true true false false) s

/-- A read joins the command queue. -/
def joinRead (s : State) (e : Entry) : State :=
  let ci := e.place.ch
  if !e.onArray then modChan s ci (fun c => { c with cmdq := c.cmdq ++ [e] })
  else if fenced s e.place then serveFenced s e
  else
    let c := chan s ci
    let e := { e with newer := (List.range e.n).filter (fun i => newerWrite c (e.at i)) }
    if e.owner == .writeBack && !(c.wbs.any (fun w => w.place == e.place)) then s
    else
      let e := { e with overlays := overlaysOf c e, hitCls := hitClass s c e }
      let n := ((List.range e.n).filter (fun i => (servedAt e i).isSome)).length
      let s := evCh s ci 0x10 n (some (ownerAttr s e.owner e.cls))
      flushServed (modChan s ci (fun c => { c with cmdq := intoQueue e c.cmdq })) ci

/-- The write of a fenced row writes nothing, and its request replies POISON with detail FENCED (R295). -/
def dropFenced (s : State) (e : Entry) : State :=
  match e.owner with
  | .port id _ => partsDone (poisonReq s id 1#8) id e.n
  | .crown _ _ => (match (e.owner.job s).bind (·.req) with | some id => poisonReq s id 1#8 | none => s)
  | _ => s

/-- A partial sector merges into a queued write of the sector, or into the Liner (R115, R118). -/
def joinPartial (s : State) (e : Entry) : State :=
  let p := e.place
  let m := e.mask.headD 0#32
  let d := e.data.headD zeroSector
  let s := modChan s p.ch (fun c => cancelRewrites c p)
  let id := match e.owner with | .port i _ => some i | _ => none
  match (if e.vault.isNone then queuedWrite (chan s p.ch) p else none) with
  | some (w, j) =>
    let w' := { w with data := w.data.set j (applyOverlay (w.data.getD j zeroSector) { ofs := 0, mask := m, data := d, seq := e.seq }) }
    let s := modChan s p.ch (fun c => { c with cmdq := c.cmdq.map (fun q => if q.seq = w.seq then w' else q) })
    match id with | some i => partsDone (pieceJoined s i p.ch) i 1 | none => s
  | none =>
    let s := evictPending (linerMerge s p e.vault e.cls e.dl (plain d) m id (ownerAttr s e.owner e.cls)) p.ch
    match id with
    | some i => if e.vault.isSome then pieceJoined s i p.ch else partsDone (pieceJoined s i p.ch) i 1
    | none => s

/-- A whole-sector write joins: earlier queued writes of its sectors take its data, the rest is queued (Table 5-2). -/
def joinWhole (s : State) (e : Entry) : State :=
  let ci := e.place.ch
  let r := (List.range e.n).foldl (fun (acc : Chan × List (BitVec 32)) i =>
    let (c, m) := joinSector s acc.1 e i
    (c, acc.2 ++ [m])) (chan s ci, [])
  let e := { e with mask := r.2 }
  let c := if e.next.isSome then { r.1 with cmdq := intoQueue { e with hitCls := hitClass s r.1 e } r.1.cmdq } else r.1
  linerPressure (setChan s ci c) ci

/-- What the join of a write makes visible: its request's parts, the sums of drains, and the reads that waited behind the
Crown's lock (R21, R24, R198). -/
def madeVisible (s : State) (e : Entry) : State :=
  match e.owner with
  | .port id _ => partsDone (pieceJoined s id e.place.ch) id e.n
  | .crown k j =>
    (match (oct s k).jobs.find? (fun x => x.jid == j) with
     | some x =>
       if x.isDrain then drainJoined s k x
       else if x.lock then
         (match e.data.head? with
          | some d => modChan s e.place.ch (fun c => overlayReads c e.place (fun _ => d) x.seq true (fun q =>
              decide (x.seq ≤ q.seq) && !q.owner.isJob k j && ((writeBefore c e.place q.seq).all (fun w => decide (w.1.seq ≤ x.seq)))))
          | none => s)
       else s
     | none => s)
  | _ => s

/-- A write joins the command queue, or is cancelled, dropped or merged. -/
def joinWrite (s : State) (e : Entry) : State :=
  let ci := e.place.ch
  if !e.onArray then modChan s ci (fun c => { c with cmdq := c.cmdq ++ [e] })
  else if fenced s e.place then dropFenced s e
  else if e.owner.isRewrite && newerWrite (chan s ci) e.place then
    modChan s ci (fun c => { c with wbs := c.wbs.filter (fun w => w.place != e.place) })
  else if e.owner.isRewrite && writeForbidden s then
    bumpReg (modChan s ci (fun c => { c with wbs := c.wbs.filter (fun w => w.place != e.place) })) (chPage ci) 0x088 16 16 1
  else if e.mask.any (· != fullMask) then joinPartial s e
  else if e.owner.isRewrite || e.owner.isRemap then
    modChan s ci (fun c => { c with cmdq := c.cmdq ++ [{ e with hitCls := hitClass s c e }] })
  else madeVisible (joinWhole s e) e

/-- The order of a joining entry: a Crown's entry under a lock has the order of the lock (R24), and a drain's that of the
oldest fragment it adds, so that it follows what was written before the fragments were held, and writes that wait for the
drain follow it (R198, R199). -/
def joinSeq (s : State) (c : Chan) (e : Entry) : Nat :=
  match e.owner.job s with
  | some j =>
    if j.isDrain then (((heldAt (oct s (octOf j.place.ch)) j.place).head?).map (·.seq)).getD j.seq
    else if j.lock then j.seq else c.serial
  | none => c.serial

/-- A handle entry that has come back wakes what waits for it (R80, R82). -/
def hdlWake (s : State) (e : Entry) : State :=
  match e.owner with
  | .hdl _ => hdlEvict (settleBad (pumpAll (hdlOpRun s)))
  | _ => s

/-- The best head joins the command queue, if it may (R91). -/
def joinNext (s : State) (ci : Nat) : State :=
  let c := chan s ci
  match nextJoin s c with
  | none => s
  | some e =>
    let s := setChan s ci { c with rq := c.rq.erase e, serial := c.serial + 1 }
    let e := { e with seq := joinSeq s c e, tJoin := s.time.cyc }
    handlesDone (if e.write then joinWrite s e else hdlWake (joinRead s e) e)

/-! ### The Liner's entries join (R118, R120, R122) -/

/-- The merged sector or the full entry of the Liner, as it is written: poison when its read could not be used (R120). -/
def linerData (l : Liner) : Sector :=
  match l.readBack with
  | some old => if sectorBad old then poisonSector (sectorOf l.plain) else sectorOf l.plain
  | none => sectorOf l.plain

/-- What a vault partial write still waits for once its merged sector has joined: the parity update, then its reply
(R122). -/
def linerParity (s : State) (l : Liner) : State :=
  match l.vault, l.readBack, l.reqs with
  | some v, some old, id :: _ =>
    let s := if sectorBad old then poisonReq s id 0#8
      else addParity s (some id) l.place v (plain old ^^^ l.plain) l.cls l.dl 18
    partsDone s id 1
  | _, _, _ => s

/-- The oldest waiting Liner entry becomes a whole-sector write of the command queue, and is freed (R118). Where fragments are
held for its sector, its bytes are older than they are, and it keeps its own order (R198). -/
def linerJoin (s : State) (ci : Nat) : State :=
  let c := chan s ci
  match linerWaiting s c with
  | none => s
  | some l =>
    if 64 ≤ c.cmdq.length then s
    else
      let e := newEntry s (.evict l.serial) 18 .bl (if l.st = .full then l.dl else l.evDl) true false (onePiece l.place none (some (linerData l)))
      let e := { e with seq := if heldOn s l.place then l.serial else c.serial, tJoin := s.time.cyc, hitCls := hitClass s c e }
      let c := cancelRewrites { c with serial := c.serial + 1, liner := c.liner.filter (fun x => x.serial != l.serial) } l.place
      let c := match queuedWrite c l.place with
        | some (w, j) =>
          let w' := { w with data := w.data.set j (linerData l), dl := min w.dl e.dl }
          { c with cmdq := c.cmdq.map (fun q => if q.seq = w.seq then w' else q) }
        | none => { c with cmdq := intoQueue e c.cmdq }
      linerParity (linerPressure (setChan s ci c) ci) l

/-- The read of an eviction is back: the entry's bytes are merged over it; over an uncorrectable or poisoned sector the
bytes are lost (R120). -/
def evictionReturn (s : State) (ci : Nat) : State :=
  match (chan s ci).liner.find? (fun l => l.st == .evicting && l.readBack.isSome) with
  | none => s
  | some l =>
    let old := l.readBack.getD zeroSector
    let l' := { l with st := .merged, plain := mergeBytes (plain old) l.plain l.mask, mask := fullMask }
    let s := modChan s ci (fun c => { c with liner := c.liner.map (fun x => if x.serial = l.serial then l' else x) })
    if sectorBad old && l.vault.isNone then
      let s := logEv s 0x0303 (chPage ci) .error (placeForm l.place.bank l.place.row ||| BitVec.ofNat 32 (l.place.col * 2 ^ 25))
      latch s (chPage ci) 3
    else s

/-- A MERGING entry that has reached AGE is evicted (R119). -/
def linerAge (s : State) (ci : Nat) : State :=
  let age := max 1 (regF s (chPage ci) 0x044 0 12)
  match (chan s ci).liner.find? (fun l => l.st == .merging && decide (l.born + age ≤ s.time.tick)) with
  | some l => evict s ci l.serial .bl (synthDl s .bl)
  | none => s

/-! ### The grant of a slot (R96-R99, R218) -/

/-- The slot in progress, counted from the window origin. -/
def slotNow (s : State) : Nat := (s.time.cyc - s.winStart) / slotLen s

/-- Windows restart with slot 0 now, in every channel (R96). -/
def restartWindows (s : State) : State :=
  { s with winStart := s.time.cyc
           chans := s.chans.map (fun e => (e.1, { e.2 with slotIdx := 0, counts := Counts.zero })) }

/-- This is the last core cycle of a slot. -/
def lastCycle (s : State) : Bool := decide (s.winStart ≤ s.time.cyc) && decide ((s.time.cyc - s.winStart) % slotLen s = slotLen s - 1)

/-- A column command goes onto a channel's column wires in core cycle t, in its order (R209, Table 8-4). -/
def putCol (s : State) (ci t : Nat) (i : Instr) (f : Option Flight) : State :=
  modChan s ci (fun c =>
    let o := c.order + 1
    { c with order := o, colOut := c.colOut ++ [(t, i)]
             inflight := match f with | some w => c.inflight ++ [{ order := o, what := w }] | none => c.inflight })

/-- Unconfirmed write-type transfers (R218). -/
def unconfirmed (c : Chan) : Nat := (c.replay.filter (fun r => !r.confirmed)).length

/-- The settings that the next slot is decided under (R99, R104). -/
def nextSettings (s : State) (first : Bool) : ArbSet :=
  match s.arb.next with
  | some a => if first && decide (s.arb.notBefore ≤ s.time.cyc + 1) then a else s.arb.cur
  | none => s.arb.cur

/-- The pool of the next slot, and the best-ranked ready entry that its quota masks (R97, R98). -/
def slotPool (a : ArbSet) (k : Counts) (i rot : Nat) (ready : List Entry) : List Entry × Option Entry :=
  let need := fieldNat a.mtRsv 0 4 - k.mt
  let mt := ready.filter (fun e => e.cls == Cls.mt)
  let free := ready.filter (fun e => decide (k.of e.cls < a.quotaOf e.cls))
  let masked := match bestEntry rot ready with
    | some e => if k.of e.cls < a.quotaOf e.cls then none else some e
    | none => none
  if 0 < need ∧ 64 - i ≤ need ∧ !mt.isEmpty then (mt, masked)
  else (if free.isEmpty && a.ctl.getLsbD 0 then ready else free, masked)

/-- VRD of vector-buffer sector 0 in the next slot, whose burst confirms the writes before it (R218). -/
def sendProbe (s : State) (ci : Nat) : State :=
  let s := spend s ci (weight s 0x06C 8)
  let s := modChan s ci (fun c => { c with lastCol := some (nextSlotAt s), lastRd := some (nextSlotAt s) })
  putCol s ci (nextSlotAt s) (.vrd ⟨chanFin ci, 0⟩ 0) (some (.vrd false))

/-- A confirming read is on its way. -/
def probing (c : Chan) : Bool := c.inflight.any (fun f => match f.what with | .vrd _ => true | _ => false)

/-- Every bank has been pulled in to a debt of -8, and no neighbour refresh waits (R265). -/
def pulledIn (c : Chan) : Bool := c.nrfq.isEmpty && (List.range 16).all (fun b => decide ((c.bank b).debt ≤ -8))

/-- An empty slot carries a probe while more than 128 writes are unconfirmed (R218), in the drain of a frequency change
once its evictions are done (R270), and before power-down (R265), when the timing set allows a read (R128). -/
def emptySlot (s : State) (ci : Nat) : State :=
  let s := evCh s ci 0x03 1 none
  let c := chan s ci
  let t := tim s ci
  if turnOk s c t false = false ∨ colOk c t (nextSlotAt s) 4 = false then s
  else if c.pd = .pulling ∧ c.sleepy = true ∧ pulledIn c = true then modChan (sendProbe s ci) ci (fun c => { c with pd := .confirming })
  else if 128 < unconfirmed c then sendProbe s ci
  else if s.hk.freq = .drain ∧ 0 < unconfirmed c ∧ c.liner = [] ∧ probing c = false then sendProbe s ci
  else s

/-- An entry of the command queue is decided for the next slot: its class is counted and the pointer moves past its
requester (R95, R97, R99). -/
def grantEntry (c : Chan) (e : Entry) : Chan :=
  { c with cmdq := c.cmdq.map (fun q => if q.seq = e.seq then { q with granted := true } else q)
           counts := c.counts.bump e.cls, rot := (e.pos + 1) % 23 }

/-- While transfers are to be sent again the gate decides nothing else, and counts none of them (R217, log 71). -/
def decideReplay (s : State) (ci : Nat) (e : Entry) : State :=
  let c := chan s ci
  let t := tim s ci
  if readyEntry s ci c t e && turnOk s c t true then
    modChan s ci (fun x => { x with replayq := { e with granted := true } :: x.replayq.drop 1 })
  else s

/-- The gate decides the next slot among the ready entries of the command queue (R97-R99). -/
def decideQueue (s : State) (ci : Nat) (a : ArbSet) (i : Nat) : State :=
  let c := chan s ci
  let t := tim s ci
  let ready := c.cmdq.filter (readyEntry s ci c t)
  let all := c.cmdq.filter (readyEntry s ci { c with credit := 1 } t)
  let (pool, masked) := slotPool a c.counts i c.rot ready
  let s := evCh s ci 0x12 c.cmdq.length none
  let s := if ready.length < all.length then evCh s ci 0x13 1 none else s
  let s := match masked with | some e => evCh s ci 0x04 1 (some (ownerAttr s e.owner e.cls)) | none => s
  match gateWinner s ci c pool with
  | some e => if turnOk s c t e.write then modChan s ci (fun x => grantEntry x e) else emptySlot s ci
  | none => emptySlot s ci

/-- The gate decides the grant for the next slot; the counts of its window start from zero at slot 0 (R97, R99). -/
def decideSlot (s : State) (ci : Nat) : State :=
  let c := chan s ci
  let n := slotNow s + 1
  if !inService s ci || !lastCycle s || c.slotIdx == n then s
  else
    let first := decide (n % 64 = 0)
    let a := nextSettings s first
    let s := setChan s ci { c with slotIdx := n, counts := if first then Counts.zero else c.counts }
    match c.replayq with
    | e :: _ => decideReplay s ci e
    | [] => if c.halted then s else decideQueue s ci a (n % 64)

/-! ### A started grant (R99, R112, R114, R212, R218) -/

/-- An armed injection corrupts the granule that it names, and disarms (Table 11-9). -/
def inject (s : State) (ci : Nat) (d : Sector) : Sector × State :=
  let r := reg s (chPage ci) 0x0A0
  if !bit31 r then (d, s)
  else
    let exp := fieldNat r 0 5
    let v : Byte := field r 8 8
    let hit := fun (g : Granule) =>
      if 19 ≤ exp then g
      else
        let g := addSymbol g exp v
        if r.getLsbD 16 then addSymbol g ((exp + 1) % 19) v else g
    (if r.getLsbD 5 then { d with g1 := hit d.g1 } else { d with g0 := hit d.g0 }, setRegF s (chPage ci) 0x0A0 31 1 0)

/-- R112 closes a half after this access: its head needs another row, and no hit within the slack is left (R212). -/
def closesByHead (s : State) (ci : Nat) (c : Chan) (b h : Nat) : Bool :=
  let x := c.half b h
  let es := entriesOn s c b h
  !refreshHeads s ci c b && !slicePends s c b &&
    (match bestEntry c.rot es with
     | some head => !onOpenRow s c x head && !(es.any (fun e => onOpenRow s c x e && decide (e.dl ≤ head.dl + slack s ci)))
     | none => false)

/-- A write-type transfer enters the replay store of 256 (R218). -/
def keepReplay (c : Chan) (i : Instr) (row : Nat) (spare : Option Nat) : Chan :=
  let r : Replay := { order := c.order + 1, cmd := i, row := row, spare := spare, confirmed := false }
  if c.replay.length < 256 then { c with replay := c.replay ++ [r] }
  else
    { c with replay := c.replay.drop 1 ++ [r]
             replayLost := c.replayLost || (match c.replay.head? with | some x => !x.confirmed | none => false) }

/-- The last write of a remap's copy has gone out: the spare is read back (Table 11-5, step 4). -/
def remapVerify (s : State) : State :=
  match s.ecc.repair with
  | none => s
  | some r =>
    let c := chan s r.row.ch
    if (c.rq ++ c.cmdq).any (fun e => e.write && e.owner.isRemap) then s
    else
      enqueueAll { s with ecc := { s.ecc with repair := some { r with ph := .verify } } } ((List.range 4).map (fun i =>
        { eccEntry s .remap false { idx := 0, place := { ch := r.row.ch, bank := r.row.bank, row := r.row.row, col := 8 * i }, vault := none,
                                    data := [], mask := [], n := 8 } with spare := some r.spare }))

/-- The column command of a started write, with its replay entry. -/
def sendWrite (s : State) (ci : Nat) (e : Entry) (p : Place) (d : Sector) (auto : Bool) : State :=
  let cf := chanFin ci
  let go := fun (t : State) (i : Instr) (row : Nat) (sp : Option Nat) => putCol (modChan t ci (fun c => keepReplay c i row sp)) ci t.time.cyc i none
  if p.bank = 16 then
    let (d, s) := inject s ci d
    go s (.vwr ⟨cf, 0⟩ (BitVec.ofNat 13 p.col) ⟨d, 0⟩) 0 none
  else if p.bank = 18 then
    let (d, s) := inject s ci d
    go s (.spw ⟨cf, 0⟩ (bitFin p.row) (bitFin p.col) ⟨d, 0⟩) 0 none
  else
    let w := scrambleSector s.ecc.scrNow s.sec.key ci p.bank p.row p.col d
    let (w, s) := inject s ci w
    let h := bitFin (halfOf s p.row)
    let hf := (chan s ci).half p.bank h
    let sp := if hf.spare then some (hf.row % 32) else none
    let s := go s (if auto then .colWra ⟨cf, 0⟩ (bankFin p.bank) h (BitVec.ofNat 5 p.col) ⟨w, 0⟩
      else .colWr ⟨cf, 0⟩ (bankFin p.bank) h (BitVec.ofNat 5 p.col) ⟨w, 0⟩) p.row sp
    match e.owner with
    | .writeBack => queueVerify s p
    | .remap => remapVerify s
    | _ => s

/-- The column command of a started read. -/
def sendRead (s : State) (ci : Nat) (e : Entry) (p : Place) (auto : Bool) : State :=
  let cf := chanFin ci
  let d := match e.owner with | .slice d => d | _ => 0
  if p.bank = 16 then putCol s ci s.time.cyc (.vrd ⟨cf, 0⟩ (BitVec.ofNat 13 p.col)) (some (.vrd (e.owner == .cal)))
  else if p.bank = 17 then putCol s ci s.time.cyc (.prd ⟨cf, 0⟩ (bitFin p.row)) (some (.prd d p.row))
  else if p.bank = 19 then putCol s ci s.time.cyc (.srd ⟨cf, 0⟩ (bitFin p.row)) (some (.srd p.row))
  else
    let h := bitFin (halfOf s p.row)
    let i : Instr := if auto then .colRda ⟨cf, 0⟩ (bankFin p.bank) h (BitVec.ofNat 5 p.col)
      else .colRd ⟨cf, 0⟩ (bankFin p.bank) h (BitVec.ofNat 5 p.col)
    let what := match e.owner with
      | .writeBack => Flight.verify p (((chan s ci).wbs.find? (fun w => w.place == p)).map (·.corr) |>.getD [])
      | _ => Flight.data e p
    putCol s ci s.time.cyc i (some what)

/-- The half of a started array access: its times, and its precharge where the access closes it (R212). -/
def touchHalf (s : State) (ci : Nat) (p : Place) (write auto : Bool) : State :=
  let now := s.time.cyc
  let b := p.bank
  let h := halfOf s p.row
  let s := modChan s ci (fun c =>
    let x := c.half b h
    let x := { x with st := if x.st = .activating then .open_ else x.st
                      tRd := if write then x.tRd else some now, tWr := if write then some now else x.tWr }
    let x := if auto then
        { x with st := .precharging, exit := max now (preFrom (tim s ci) (slotLen s) x) + (tim s ci).rp } else x
    c.setHalf b h x)
  if auto then evCh s ci 0x09 1 none else s

/-- Direction, column timing and energy of a started grant (R114, R128, R311, Table 15-3). -/
def countGrant (s : State) (ci : Nat) (e : Entry) (group : Nat) : State :=
  let now := s.time.cyc
  let a := some (ownerAttr s e.owner e.cls)
  let c := chan s ci
  let turn := c.dirWrite != e.write
  let s := setChan s ci { c with dirWrite := e.write, prog := 0
                                 batch := if turn then 1 else c.batch + 1, lastCol := some now, colAt := Tab.put c.colAt group now
                                 lastRd := if e.write then c.lastRd else some now
                                 lastWr := if e.write then some now else c.lastWr }
  let s := if turn then evCh s ci 0x11 1 none else s
  let s := evCh s ci (if e.write then 0x02 else 0x01) 1 a
  let s := if e.done = 0 && e.onArray && e.tGrant == 0 then evCh s ci (0x05 + e.hitCls) 1 a else s
  spend s ci (weight s 0x06C (if e.write then 16 else 8))

/-- A granted entry's transfer starts: the column command goes out, and the entry moves on (R99, R108). -/
def startGrant (s : State) (ci : Nat) (e : Entry) : State :=
  match e.next with
  | none => s
  | some i =>
    let p := e.at i
    let s := countGrant s ci e (if e.onArray then p.bank % 4 else 4)
    let e' := { e with done := i + 1, granted := false, tGrant := if e.tGrant = 0 then s.time.cyc else e.tGrant }
    let s := modChan s ci (fun c =>
      if e.owner = .replay then { c with replayq := c.replayq.drop 1 }
      else { c with cmdq := if e'.next.isSome then c.cmdq.map (fun q => if q.seq = e.seq then e' else q)
                       else c.cmdq.filter (fun q => q.seq != e.seq) })
    let auto := e.onArray && closesByHead s ci (chan s ci) p.bank (halfOf s p.row)
    let s := if e.write then sendWrite s ci e' p (e.data.getD i zeroSector) auto else sendRead s ci e' p auto
    let s := if e.onArray then touchHalf s ci p e.write auto else s
    if e.write then s
    else serveFrom s { e with n := i } |> fun t => if e'.next.isNone then serveFrom t e' else t

/-- The slot that begins now: the grants decided for it start (R99). -/
def startSlots (s : State) : State :=
  if s.time.cyc < s.winStart ∨ (s.time.cyc - s.winStart) % slotLen s ≠ 0 then s
  else s.chans.foldl (fun t e =>
    match (e.2.replayq.take 1 ++ e.2.cmdq).find? (·.granted) with
    | some q => startGrant t e.1 q
    | none => t) s

/-! ### Returning bursts (R20, R215, R217, R218) -/

/-- A burst without the alert pattern confirms the transfers sent before its command (R218). -/
def confirm (c : Chan) (o : Nat) : Chan :=
  { c with replay := c.replay.map (fun r => if r.order < o then { r with confirmed := true } else r)
           replayLost := c.replayLost && !(match c.replay.head? with | some r => decide (r.order < o) | none => true) }

/-- The vault data of the sector that a read serves, where its uncorrectable granules start a reconstruction (R289,
R290). -/
def vaultOf (s : State) (e : Entry) : Option Vault :=
  match e.owner.job s with
  | some j => (match j.kind with | .parity q _ => if q = j.place then j.vault else none | _ => j.vault)
  | none => e.vault

/-- What a decoded array burst does (R20, R283, R285, R290, R292). A write-back follows a correction for ports, Crowns,
scrub and reconstruction, unless a newer write has met the read (R117). -/
def arrayBurst (s : State) (ci t : Nat) (e : Entry) (p : Place) (raw : Sector) : State :=
  let r := decodeAt s p raw
  let s := ceRise s ci r.corr.length
  let s := wireRuns s ci t r.corr
  let s := r.ue.foldl (fun t h => noteUe t p h) s
  let i := p.col - e.place.col
  let wb := !r.corr.isEmpty && r.ue.isEmpty && !r.poisoned && !e.owner.isRemap && !e.newer.contains i
  let s := if wb then queueWriteBack s (if e.owner == .patrol then .mt else .rt) p r.data r.corr else s
  if r.ue.isEmpty then deliver s e i p r.data false r.poisoned (fenced s p) (!r.corr.isEmpty) false
  else
    let s := rowFailure s p
    match (if fenced s p then none else vaultOf s e) with
    | some v =>
      (match gatedRead s e p v with
       | some (id, d) => deliver (gateReq s id d) e i p r.data true r.poisoned false false false
       | none => startRecon s e p v)
    | none => deliver s e i p r.data true r.poisoned (fenced s p) false false

/-- PRDs of a context that a status sector of order o has not seen executed. -/
def prdWaiting (c : Chan) (ctx o : Nat) : Nat :=
  let q := fun (e : Entry) => !e.write && e.place.bank == 17 && e.place.row == ctx
  (c.rq.filter q).length + (c.cmdq.filter q).length +
    (c.inflight.filter (fun f => decide (o < f.order) && (match f.what with | .prd _ x => x == ctx | _ => false))).length

/-- A status sector arrives: outputs that wait are read, and DONE with none waiting, or ABORTED, ends the slice (R215). -/
def statusBurst (s : State) (ci ctx o : Nat) (d : Sector) : State :=
  match Tab.find (chan s ci).running ctx with
  | none => s
  | some x =>
    let w := plain d
    let ready := fieldNat w 16 16
    let fin := (decide (fieldNat w 0 8 = 4) && decide (ready = 0)) || decide (fieldNat w 0 8 = 5)
    let x := { x with final := if fin then some d else x.final }
    let s := modChan s ci (fun c => { c with running := Tab.put c.running ctx x, prog := 0 })
    let n := ready - prdWaiting (chan s ci) ctx o
    enqueueAll s (List.replicate n
      (newEntry s (.slice x.d) 17 x.cls x.dl false false (onePiece { ch := ci, bank := 17, row := ctx, col := 0 } none none)))

/-- A burst that carries no array sector: corrected, and counted like one (R20). -/
def plainBurst (s : State) (ci t : Nat) (raw : Sector) : Sector × State :=
  let d0 := decodeGranule raw.g0
  let d1 := decodeGranule raw.g1
  let c := fun (h : Nat) (d : Decoded) => match d with | .corrected e v => [(h, e, v)] | _ => []
  let corr := c 0 d0 ++ c 1 d1
  let s := wireRuns (ceRise s ci corr.length) ci t corr
  (if sectorBad raw then poisonSector raw else correctSector raw, s)

/-- What a burst brings, by the command that asked for it. -/
def flightBurst (s : State) (ci t : Nat) (f : InFlight) (raw : Sector) : State :=
  match f.what with
  | .data e p =>
    hdlWake (arrayBurst s ci t e p raw) e
  | .verify p exp => modChan (wireRuns s ci t (decodeAt s p raw).corr) ci (fun c => { c with vrets := c.vrets ++ [{ place := p, corr := exp, data := raw }] })
  | .vrd _ => (plainBurst s ci t raw).2
  | .prd d ctx =>
    let (x, s) := plainBurst s ci t raw
    modChan s ci (fun c => { c with partIn := c.partIn ++ [(d, ctx, x)] })
  | .srd ctx =>
    let (x, s) := plainBurst s ci t raw
    statusBurst s ci ctx f.order x

/-- A read burst as the block receives half-channel h of it: over the wires that carry its symbols at that moment, with what
the wires add; the stack's PRBS7 goes on where it drives it (R207, R213, R244). -/
def burstHalf (s : State) (ci h : Nat) (b : Burst) (noise : BitVec 320) : Granule :=
  let l := Tab.get (stk s ci).lanes h StkLane.reset
  throughWires (l.modeAt b.at_) (((chan s ci).spare h).modeAt b.at_) (prbs7 l.tx).1 noise h (if h = 0 then b.g0 else b.g1)

/-- The stack's PRBS7 of a channel after a read burst (R213). -/
def prbsSent (x : StkChan) (t : Nat) : StkChan :=
  { x with lanes := x.lanes.map (fun l => (l.1, if (l.2.modeAt t).pat then { l.2 with tx := (prbs7 l.2.tx).2 } else l.2)) }

/-- A read burst arrives from the stack, with what the wires have added to it. -/
def readBurst (s : State) (ci : Nat) (noise : BitVec 320) : State :=
  match (stk s ci).ret with
  | [] => s
  | b :: rest =>
    let raw : Sector := ⟨burstHalf s ci 0 b noise, burstHalf s ci 1 b noise⟩
    let s := modStk s ci (fun x => prbsSent { x with ret := rest } b.at_)
    let s := modChan s ci (fun c => { c with readBursts := c.readBursts + 1, stepBursts := c.stepBursts + 1 })
    if b.order = 0 || s.blk.st == .lost then s
    else if alertShown raw then sbQueue (alertSeen s ci) 2 1 (BitVec.ofNat 8 ci) 0x010 0 []
    else
      let s := modChan s ci (fun c => confirm c b.order)
      match (chan s ci).inflight.find? (fun f => f.order == b.order) with
      | none => s
      | some f =>
        let s := modChan s ci (fun c => { c with inflight := c.inflight.filter (fun g => g.order != b.order) })
        flightBurst s ci b.at_ f raw

/-- A verify read is judged (R283); an uncorrectable one in a vault row starts the row's reconstruction (R290). -/
def verifyResult (s : State) (ci : Nat) : State :=
  match (chan s ci).vrets with
  | [] => s
  | v :: rest =>
    let s := modChan s ci (fun c => { c with vrets := rest, wbs := c.wbs.filter (fun w => w.place != v.place) })
    let r := decodeAt s v.place v.data
    let s := ceRise s ci r.corr.length
    let s := r.ue.foldl (fun t h => noteUe t v.place h) s
    if !r.ue.isEmpty || r.corr.any (fun x => v.corr.contains x) then
      let s := rowFailure s v.place
      match (if r.ue.isEmpty || fenced s v.place then none else rowVault s v.place.bank v.place.row) with
      | some q => startReconOf s v.place q .mt (synthDl s .rt) []
      | none => s
    else s

end Sys2Proof.Machine
end

