-- ==== Sys2Proof/Machine/StackRows.lean ====
section
/-! DEFINITION. The commands on a channel's row and column buses, as the stack executes them (Tables 8-3 and 8-4). -/

namespace Sys2Proof.Machine

/-- An event of channel c: a fault where the part has no such channel. -/
def onChan (s : State) (c : Nat) (f : State → State) : Host.Outcome State Fault Refusal :=
  if c < nChan s then .next (f s) else .fault .absentUnit

/-! ### Row commands (Table 8-3): what each does in core cycle t -/

/-- ACT opens a row in its half, or a field spare (R110); to an open half or a reserved bank, or earlier than Table 5-4 allows,
it puts the stack into ALERT (R216). -/
def doAct (c : Nat) (b : Fin 16) (row : BitVec 17) (spare : Bool) (t : Nat) (s : State) : State :=
  stkRowCmd s c false (fun s =>
    let h := if spare then fieldNat row 5 1 else halfOf s row.toNat
    let x := stk s c
    let k := halfKey b h
    if !spare && decide (rowsPerBank s ≤ row.toNat) then enterAlert s c 2
    else if stkOpen x b h || (Tab.find x.rsv b).isSome then enterAlert s c 3
    else if !since x.tAct k t s.stkTim.rc || !stkIdleOk s.stkTim x b h t || !stkRateOk s.stkTim x b t then enterAlert s c 4
    else modStk s c (fun x =>
      { x.noteAct b t with opens := Tab.put x.opens k (if spare then fieldNat row 0 5 else row.toNat, spare)
                           tAct := Tab.put x.tAct k t }))

/-- PRE closes one half or both halves (R212); earlier than RAS, RTP and WR allow it puts the stack into ALERT (R216). -/
def doPre (c : Nat) (b : Fin 16) (h : Fin 2) (both : Bool) (t : Nat) (s : State) : State :=
  stkRowCmd s c false (fun s =>
    let x := stk s c
    let hs := if both then [0, 1] else [h.val]
    if hs.any (fun i => stkOpen x b i && decide (t < stkPreFrom s x (halfKey b i))) then enterAlert s c 4
    else modStk s c (fun x => hs.foldl (fun y i => stkClose t y b i) x))

/-- REF refreshes the bank's next 8 rows by the stack's own counter (R255); it passes ALERT (R216). -/
def doRef (c : Nat) (b : Fin 16) (t : Nat) (s : State) : State :=
  stkRowCmd s c true (fun s =>
    let x := stk s c
    if !x.alert && (stkOpen x b 0 || stkOpen x b 1) then enterAlert s c 3
    else if !x.alert && (!stkIdleOk s.stkTim x b 0 t || !stkIdleOk s.stkTim x b 1 t || !stkRateOk s.stkTim x b t) then enterAlert s c 4
    else modStk s c (fun x =>
      { x.noteAct b t with refCtr := Tab.put x.refCtr b ((Tab.get x.refCtr b 0 + 8) % rowsPerBank s)
                           tRef := Tab.put x.tRef b t }))

/-- NRF refreshes the physical neighbours of a row at distance 1, or up to 2, over 2 or 4 RC (R262, R263); it passes ALERT
(R216). -/
def doNrf (c : Nat) (b : Fin 16) (row : BitVec 17) (spare rad2 : Bool) (t : Nat) (s : State) : State :=
  stkRowCmd s c true (fun s =>
    let h := if spare then fieldNat row 5 1 else halfOf s row.toNat
    let k := halfKey b h
    let x := stk s c
    if !x.alert && stkOpen x b h then enterAlert s c 3
    else if !x.alert && (!since x.tAct k t s.stkTim.rc || !stkIdleOk s.stkTim x b h t || !stkRateOk s.stkTim x b t) then enterAlert s c 4
    else modStk s c (fun x =>
      { x.noteAct b t with lastNrf := some (b, row.toNat, spare, rad2), nrfCount := x.nrfCount + 1, tAct := Tab.put x.tAct k t
                           tNrf := Tab.put x.tNrf k (t + (if rad2 then 4 else 2) * s.stkTim.rc) }))

/-- The tokens that a slice's units are, in unit order (R153; log 12). -/
def sliceTokens (s : State) (c : Nat) (sl : Slice) : List Nat :=
  match Tab.find s.disp.ops sl.d with
  | some op =>
    let mine := op.units.filter (fun u => (u.2.head?.map (fun r => r.place.ch)) == some c)
    ((mine.drop sl.first).take sl.count).map (·.1)
  | none => []

/-- The first token beyond an ATTN's range: E of R154. -/
def attnLimit (op : Op) : Nat :=
  let e := op.lvis / max 1 (attnFmt op.d.param1).tstride
  let k := op.d.cntK.toNat
  if 0 < k then min e (op.d.cntM.toNat + k) else e

/-- SLS starts the slice held in a context on its banks (R214); an open or reserved bank is a breach (R216). -/
def doSls (c : Nat) (ctx : Fin 2) (banks : BitVec 16) (s : State) : State :=
  stkRowCmd s c false (fun s =>
    let x := stk s c
    if (List.range 16).any (fun b => banks.getLsbD b &&
        (stkOpen x b 0 || stkOpen x b 1 || (Tab.find x.rsv b).isSome)) then enterAlert s c 3
    else
      match Tab.find (chan s c).running ctx.val with
      | some sl =>
        let op := Tab.find s.disp.ops sl.d
        startSlice s c ctx banks (sliceTokens s c sl) ((op.map attnLimit).getD 0)
          ((op.map (fun o => ((Tab.find o.chans c).map (fun q => q.part.length)).getD 0)).getD 0)
      | none => startSlice s c ctx banks [] 0 0)

/-- SLP pauses a context on one bank, within tRC (R101); the slice stops and keeps its other banks. -/
def doSlp (c : Nat) (ctx : Fin 2) (b : Fin 16) (s : State) : State :=
  stkRowCmd s c false (fun s => modStk s c (fun x =>
    let v := x.ctx ctx
    if v.st = .running ∨ v.st = .paused then
      let x := x.setCtx ctx { v.upTo s.time.cyc with st := .paused, pausedBanks := v.pausedBanks ||| (1#16 <<< b.val) }
      { x with rsv := if Tab.find x.rsv b.val = some ctx.val then Tab.drop x.rsv b.val else x.rsv }
    else x))

/-- SLR resumes a context on one bank; the slice goes on when no bank is paused (R101, R177). -/
def doSlr (c : Nat) (ctx : Fin 2) (b : Fin 16) (s : State) : State :=
  stkRowCmd s c false (fun s => modStk s c (fun x =>
    let v := x.ctx ctx
    if v.pausedBanks.getLsbD b then
      let pb := v.pausedBanks &&& ~~~(1#16 <<< b.val)
      let v := if pb = 0 then { v.upTo s.time.cyc with st := .running, pausedBanks := 0 } else { v with pausedBanks := pb }
      let x := x.setCtx ctx v
      { x with rsv := Tab.put x.rsv b.val ctx.val }
    else x))

/-- SLX aborts a context: its outputs are discarded and its banks released (Table 8-3). -/
def doSlx (c : Nat) (ctx : Fin 2) (s : State) : State := stkRowCmd s c false (fun s => abortCtx s c ctx)

/-- SRE enters self-refresh; it passes ALERT (R216, R268). -/
def doSre (c : Nat) (s : State) : State :=
  stkRowCmd s c true (fun s => srEnter s c)

/-- SRX leaves self-refresh at a named point, whose latencies the stack takes (R208, R268). It passes ALERT (R216). -/
def doSrx (c : Nat) (point : BitVec 2) (s : State) : State :=
  if !stackOn s || !(stk s c).selfRefresh then s
  else if point = 3#2 then enterAlert s c 2
  else
    let s := modStk (srAdvance s c) c (fun x => { x.calm with selfRefresh := false })
    { s with stack := { s.stack with point := point.toNat } }

/-- PDE enters power-down (R267). -/
def doPde (c : Nat) (s : State) : State := stkRowCmd s c false (fun s => modStk s c (fun x => { x with powerDown := true }))

/-- PDX leaves power-down, the only command executed there (R266, R267). -/
def doPdx (c : Nat) (s : State) : State :=
  if stackOn s && (stk s c).powerDown && !(stk s c).selfRefresh then modStk s c (fun x => { x with powerDown := false }) else s

/-- RSYNC aborts both contexts, closes all banks and leaves ALERT (R217). -/
def doRsync (c : Nat) (s : State) : State :=
  stkRowCmd s c true (fun s =>
    modStk (abortCtx (abortCtx s c 0) c 1) c (fun x => { x.calm with opens := [], alert := false }))

/-- LANE sets the role of a half-channel's spare, from the first burst at least 8 ns behind its last UI on (R213); a wire above
18 is a reserved value (R216). -/
def doLane (c : Nat) (h : Fin 2) (wire : BitVec 5) (sel pat : Bool) (t : Nat) (s : State) : State :=
  stkRowCmd s c false (fun s =>
    if 18 < wire.toNat then enterAlert s c 2
    else modStk s c (fun x =>
      let from_ := t + 2 * stkSlot s + 20
      { x with lanes := Tab.put x.lanes h.val
                 { x.lane h with wire := wire.toNat, sel := sel, pat := sel && pat, was := (x.lane h).modeAt from_, from_ := from_ } }))

/-- What the stack of channel c does on a row command of cycle t (Table 8-3). -/
def rowEffect (c t : Nat) : Instr → State → State
  | .act _ b row spare => doAct c b row spare t
  | .pre _ b h both => doPre c b h both t
  | .ref _ b => doRef c b t
  | .nrf _ b row spare rad2 => doNrf c b row spare rad2 t
  | .sls _ ctx banks => doSls c ctx banks
  | .slp _ ctx b => doSlp c ctx b
  | .slr _ ctx b => doSlr c ctx b
  | .slx _ ctx => doSlx c ctx
  | .sre _ => doSre c
  | .srx _ point => doSrx c point
  | .pde _ => doPde c
  | .pdx _ => doPdx c
  | .rsync _ => doRsync c
  | .lane _ h wire sel pat => doLane c h wire sel pat t
  | _ => id

/-- A row command whose wires have changed on the way (R211): corrections are counted, and it is executed as it decodes; a
command that cannot be decoded or fails its CRC, or spells a reserved code or field, puts the stack into ALERT (R216). -/
def rowGarbled (s : State) (c : Fin 64) (t : Nat) (rx : WireRx 27) : State :=
  let s := if stkAwake s c then noteFixed s c rx.fixed else s
  if !rx.ok then breach s c 1
  else
    match rowOf c rx.payload with
    | some i => rowEffect c t i s
    | none => breach s c 2

/-- A row command reaches the stack: it is taken off the wires, and executed as it was sent or as the wires leave it (R209,
R211). -/
def onRowWires (s : State) (c : Fin 64) (i : Instr) (err : BitVec 64) (f : Nat → State → State) : State :=
  let t := rowTime s c i
  let s := takeRow s c i
  if err = 0 then f t s else rowGarbled s c t (rowReceive (rowFields i) err)

/-- ROW NOP has no effect (R209). -/
def execRowNop (c : RowWires) (s : State) : Host.Outcome State Fault Refusal :=
  onChan s c.ch (fun s => onRowWires s c.ch (.rowNop ⟨c.ch, 0⟩) c.err (fun _ s => s))

/-- ACT on the row wires (Table 8-3). -/
def execAct (c : RowWires) (b : Fin 16) (row : BitVec 17) (spare : Bool) (s : State) :
    Host.Outcome State Fault Refusal :=
  onChan s c.ch (fun s => onRowWires s c.ch (.act ⟨c.ch, 0⟩ b row spare) c.err (doAct c.ch b row spare))

/-- PRE on the row wires (Table 8-3). -/
def execPre (c : RowWires) (b : Fin 16) (h : Fin 2) (both : Bool) (s : State) : Host.Outcome State Fault Refusal :=
  onChan s c.ch (fun s => onRowWires s c.ch (.pre ⟨c.ch, 0⟩ b h both) c.err (doPre c.ch b h both))

/-- REF on the row wires (Table 8-3). -/
def execRef (c : RowWires) (b : Fin 16) (s : State) : Host.Outcome State Fault Refusal :=
  onChan s c.ch (fun s => onRowWires s c.ch (.ref ⟨c.ch, 0⟩ b) c.err (doRef c.ch b))

/-- NRF on the row wires (Table 8-3). -/
def execNrf (c : RowWires) (b : Fin 16) (row : BitVec 17) (spare rad2 : Bool) (s : State) :
    Host.Outcome State Fault Refusal :=
  onChan s c.ch (fun s => onRowWires s c.ch (.nrf ⟨c.ch, 0⟩ b row spare rad2) c.err (doNrf c.ch b row spare rad2))

/-- SLS on the row wires (Table 8-3). -/
def execSls (c : RowWires) (ctx : Fin 2) (banks : BitVec 16) (s : State) : Host.Outcome State Fault Refusal :=
  onChan s c.ch (fun s => onRowWires s c.ch (.sls ⟨c.ch, 0⟩ ctx banks) c.err (fun _ => doSls c.ch ctx banks))

/-- SLP on the row wires (Table 8-3). -/
def execSlp (c : RowWires) (ctx : Fin 2) (b : Fin 16) (s : State) : Host.Outcome State Fault Refusal :=
  onChan s c.ch (fun s => onRowWires s c.ch (.slp ⟨c.ch, 0⟩ ctx b) c.err (fun _ => doSlp c.ch ctx b))

/-- SLR on the row wires (Table 8-3). -/
def execSlr (c : RowWires) (ctx : Fin 2) (b : Fin 16) (s : State) : Host.Outcome State Fault Refusal :=
  onChan s c.ch (fun s => onRowWires s c.ch (.slr ⟨c.ch, 0⟩ ctx b) c.err (fun _ => doSlr c.ch ctx b))

/-- SLX on the row wires (Table 8-3). -/
def execSlx (c : RowWires) (ctx : Fin 2) (s : State) : Host.Outcome State Fault Refusal :=
  onChan s c.ch (fun s => onRowWires s c.ch (.slx ⟨c.ch, 0⟩ ctx) c.err (fun _ => doSlx c.ch ctx))

/-- SRE on the row wires (Table 8-3). -/
def execSre (c : RowWires) (s : State) : Host.Outcome State Fault Refusal :=
  onChan s c.ch (fun s => onRowWires s c.ch (.sre ⟨c.ch, 0⟩) c.err (fun _ => doSre c.ch))

/-- SRX on the row wires (Table 8-3). -/
def execSrx (c : RowWires) (point : BitVec 2) (s : State) : Host.Outcome State Fault Refusal :=
  onChan s c.ch (fun s => onRowWires s c.ch (.srx ⟨c.ch, 0⟩ point) c.err (fun _ => doSrx c.ch point))

/-- PDE on the row wires (Table 8-3). -/
def execPde (c : RowWires) (s : State) : Host.Outcome State Fault Refusal :=
  onChan s c.ch (fun s => onRowWires s c.ch (.pde ⟨c.ch, 0⟩) c.err (fun _ => doPde c.ch))

/-- PDX on the row wires (Table 8-3). -/
def execPdx (c : RowWires) (s : State) : Host.Outcome State Fault Refusal :=
  onChan s c.ch (fun s => onRowWires s c.ch (.pdx ⟨c.ch, 0⟩) c.err (fun _ => doPdx c.ch))

/-- RSYNC on the row wires (Table 8-3). -/
def execRsync (c : RowWires) (s : State) : Host.Outcome State Fault Refusal :=
  onChan s c.ch (fun s => onRowWires s c.ch (.rsync ⟨c.ch, 0⟩) c.err (fun _ => doRsync c.ch))

/-- LANE on the row wires (Table 8-3). -/
def execLane (c : RowWires) (h : Fin 2) (wire : BitVec 5) (sel pat : Bool) (s : State) :
    Host.Outcome State Fault Refusal :=
  onChan s c.ch (fun s => onRowWires s c.ch (.lane ⟨c.ch, 0⟩ h wire sel pat) c.err (doLane c.ch h wire sel pat))

/-! ### Column commands (Table 8-4): what each does in core cycle t -/

/-- RD reads one sector of an open row (R208), as the answer to column command o. -/
def doRd (c : Nat) (b : Fin 16) (h : Fin 2) (col : BitVec 5) (auto : Bool) (t o : Nat) (s : State) : State :=
  stkReadCmd s c t o (b.val % 4) (fun s => stkColRead s c t b h col.toNat o auto)

/-- WR writes one sector of an open row (R208). -/
def doWr (c : Nat) (b : Fin 16) (h : Fin 2) (col : BitVec 5) (d : Sector) (noise : BitVec 320) (auto : Bool) (t : Nat) (s : State) :
    State :=
  stkWriteCmd s c t (b.val % 4) d noise (fun d s => stkColWrite s c t b h col.toNat d auto)

/-- VWR writes a vector-buffer sector (Table 8-4). -/
def doVwr (c : Nat) (sector : BitVec 13) (d : Sector) (noise : BitVec 320) (t : Nat) (s : State) : State :=
  stkWriteCmd s c t 4 d noise (fun d s => modStk s c (fun x => vbufWrite s.stack c x sector.toNat d))

/-- VRD reads a vector-buffer sector (Table 8-4). -/
def doVrd (c : Nat) (sector : BitVec 13) (t o : Nat) (s : State) : State :=
  stkReadCmd s c t o 4 (fun s => pushBurst s c t o (vbufRead s c sector.toNat) false)

/-- SPW writes half of a context's parameter block (R214). -/
def doSpw (c : Nat) (ctx part : Fin 2) (d : Sector) (noise : BitVec 320) (t : Nat) (s : State) : State :=
  stkWriteCmd s c t 4 d noise (fun d s => modStk s c (fun x =>
    let v := x.ctx ctx
    x.setCtx ctx { v with parm := Tab.put v.parm part.val d }))

/-- PRD reads the next output sector of a context from its output area, and an output that waits takes its place; with none
in the area the sector is undefined (R185, R215, log 6). -/
def doPrd (c : Nat) (ctx : Fin 2) (t o : Nat) (s : State) : State :=
  stkReadCmd s c t o 4 (fun s =>
    let v := (stk s c).ctx ctx
    if v.outrdy s.time.cyc = 0 then
      let (w, s) := takeFree 256 s
      pushBurst s c t o (sectorOf w) false
    else
      let d := vbufRead s c (v.outOfs + v.head % v.outLen)
      let s := modStk s c (fun x => x.setCtx ctx { v.upTo s.time.cyc with ready := v.ready - 1, head := v.head + 1 })
      pushBurst (fillOuts s c ctx) c t o d false)

/-- SRD reads a context's status sector; the done response releases the context's banks (R215, Table 8-6). -/
def doSrd (c : Nat) (ctx : Fin 2) (t o : Nat) (s : State) : State :=
  stkReadCmd s c t o 4 (fun s =>
    let v := (stk s c).ctx ctx
    let s := pushBurst s c t o (statusSector s.stack.gen c ctx s.time.cyc v) false
    if ctxState s.time.cyc v = .done ∧ v.outrdy s.time.cyc = 0 then
      modStk s c (fun x => releaseBanks (x.setCtx ctx { v.upTo s.time.cyc with st := .done, wrote := [] }) ctx)
    else s)

/-- What the stack of channel c does on a column command of cycle t, which is number o of the block's (Table 8-4). -/
def colEffect (c t o : Nat) : Instr → State → State
  | .colRd _ b h col => doRd c b h col false t o
  | .colRda _ b h col => doRd c b h col true t o
  | .colWr _ b h col ⟨d, n⟩ => doWr c b h col d n false t
  | .colWra _ b h col ⟨d, n⟩ => doWr c b h col d n true t
  | .vwr _ sec ⟨d, n⟩ => doVwr c sec d n t
  | .vrd _ sec => doVrd c sec t o
  | .spw _ ctx part ⟨d, n⟩ => doSpw c ctx part d n t
  | .prd _ ctx => doPrd c ctx t o
  | .srd _ ctx => doSrd c ctx t o
  | _ => id

/-- The answer that the block takes for column command o where the stack drives none: its wires are low (R208). -/
def undriven (s : State) (c t o : Nat) : State :=
  if (stk s c).ret.any (fun b => b.order == o) then s else pushBurst s c t o ⟨0#152, 0#152⟩ false

/-- A column command whose wires have changed on the way (R211, R216). The block takes a burst exactly where it has sent a
read. -/
def colGarbled (s : State) (c : Fin 64) (t o : Nat) (i : Instr) (noise : BitVec 320) (rx : WireRx 24) : State :=
  if !stkAwake s c then s
  else
    let u := noteFixed s c rx.fixed
    let u :=
      if !rx.ok then breach u c 1
      else
        match colOf c rx.payload (burstOf i) noise with
        | some j => colEffect c t o j u
        | none => breach u c 2
    if isReadCmd i then undriven u c t o else modStk u c (fun x => { x with ret := (stk s c).ret })

/-- A column command reaches the stack: it is taken off the wires, and executed as it was sent or as the wires leave it
(R209, R211). -/
def onColWires (s : State) (c : Fin 64) (i : Instr) (err : BitVec 48) (noise : BitVec 320) (f : Nat → Nat → State → State) : State :=
  let t := colTime s c i
  let o := colOrder s c i
  let s := takeCol s c i
  if err = 0 then f t o s else colGarbled s c t o i noise (colReceive (colFields i) err)

/-- COL NOP has no effect (R209). -/
def execColNop (c : ColWires) (s : State) : Host.Outcome State Fault Refusal :=
  onChan s c.ch (fun s => onColWires s c.ch (.colNop ⟨c.ch, 0⟩) c.err 0 (fun _ _ s => s))

/-- RD on the column wires (Table 8-4). -/
def execColRd (c : ColWires) (b : Fin 16) (h : Fin 2) (col : BitVec 5) (s : State) :
    Host.Outcome State Fault Refusal :=
  onChan s c.ch (fun s => onColWires s c.ch (.colRd ⟨c.ch, 0⟩ b h col) c.err 0 (doRd c.ch b h col false))

/-- RDA on the column wires: it reads one sector and then precharges the half (R212). -/
def execColRda (c : ColWires) (b : Fin 16) (h : Fin 2) (col : BitVec 5) (s : State) :
    Host.Outcome State Fault Refusal :=
  onChan s c.ch (fun s => onColWires s c.ch (.colRda ⟨c.ch, 0⟩ b h col) c.err 0 (doRd c.ch b h col true))

/-- WR on the column wires, with its burst (Table 8-4). -/
def execColWr (c : ColWires) (b : Fin 16) (h : Fin 2) (col : BitVec 5) (d : WriteData) (s : State) :
    Host.Outcome State Fault Refusal :=
  onChan s c.ch (fun s => onColWires s c.ch (.colWr ⟨c.ch, 0⟩ b h col ⟨d.data, 0⟩) c.err d.noise (fun t _ => doWr c.ch b h col d.data d.noise false t))

/-- WRA on the column wires: it writes one sector and then precharges the half (R212). -/
def execColWra (c : ColWires) (b : Fin 16) (h : Fin 2) (col : BitVec 5) (d : WriteData) (s : State) :
    Host.Outcome State Fault Refusal :=
  onChan s c.ch (fun s => onColWires s c.ch (.colWra ⟨c.ch, 0⟩ b h col ⟨d.data, 0⟩) c.err d.noise (fun t _ => doWr c.ch b h col d.data d.noise true t))

/-- VWR on the column wires, with its burst (Table 8-4). -/
def execVwr (c : ColWires) (sector : BitVec 13) (d : WriteData) (s : State) :
    Host.Outcome State Fault Refusal :=
  onChan s c.ch (fun s => onColWires s c.ch (.vwr ⟨c.ch, 0⟩ sector ⟨d.data, 0⟩) c.err d.noise (fun t _ => doVwr c.ch sector d.data d.noise t))

/-- VRD on the column wires (Table 8-4). -/
def execVrd (c : ColWires) (sector : BitVec 13) (s : State) : Host.Outcome State Fault Refusal :=
  onChan s c.ch (fun s => onColWires s c.ch (.vrd ⟨c.ch, 0⟩ sector) c.err 0 (doVrd c.ch sector))

/-- SPW on the column wires, with its burst (Table 8-4). -/
def execSpw (c : ColWires) (ctx part : Fin 2) (d : WriteData) (s : State) :
    Host.Outcome State Fault Refusal :=
  onChan s c.ch (fun s => onColWires s c.ch (.spw ⟨c.ch, 0⟩ ctx part ⟨d.data, 0⟩) c.err d.noise (fun t _ => doSpw c.ch ctx part d.data d.noise t))

/-- PRD on the column wires (Table 8-4). -/
def execPrd (c : ColWires) (ctx : Fin 2) (s : State) : Host.Outcome State Fault Refusal :=
  onChan s c.ch (fun s => onColWires s c.ch (.prd ⟨c.ch, 0⟩ ctx) c.err 0 (doPrd c.ch ctx))

/-- SRD on the column wires (Table 8-4). -/
def execSrd (c : ColWires) (ctx : Fin 2) (s : State) : Host.Outcome State Fault Refusal :=
  onChan s c.ch (fun s => onColWires s c.ch (.srd ⟨c.ch, 0⟩ ctx) c.err 0 (doSrd c.ch ctx))

/-- When WCK stops for 1 µs without SRE or PDE, the channel's stack enters self-refresh by itself (R341). -/
def execStackWckStop (c : Fin 64) (s : State) : Host.Outcome State Fault Refusal :=
  onChan s c (fun s =>
    if stkAwake s c then srEnter s c else s)

end Sys2Proof.Machine
end

