-- ==== Sys2Proof/Machine/ChanRows.lean ====
section
/-! DEFINITION. The events of a channel: its queues, its gate, its scheduler, the Liner, returning bursts and
reconstruction (04, 05, 10, 11). -/

namespace Sys2Proof.Machine

/-- The best-ranked requester-queue head joins the command queue (R91, R115). -/
def execRequesterQueueToCmdq (c : Fin 64) (s : State) : Host.Outcome State Fault Refusal := onChan s c (fun s => joinNext s c)

/-- The gate decides the next slot (R99). -/
def execGateSlotDecision (c : Fin 64) (s : State) : Host.Outcome State Fault Refusal := onChan s c (fun s => decideSlot s c)

/-! ### Windows (R96, R104, R311, R405) -/

/-- Committed ARB settings take effect, and their commit write replies (R104). ARB_STATUS becomes 0: that ERR_CODE goes with
ERR is the model's reading (DEDUCED, log 95). -/
def applyArb (s : State) : State :=
  match s.arb.next with
  | none => s
  | some a =>
    if s.time.cyc < s.arb.notBefore then s
    else
      let id := s.arb.waiter
      let s := { s with arb := { s.arb with cur := a, next := none, waiter := none } }
      let s := commitCount (setReg s pgArb 0x040 0) pgArb
      match id with | some i => finishReq s i | none => s

/-- The energy budget of a window, B of R311. -/
def energyBudget (s : State) : Int := (regF s pgPwr 0x070 16 12 * 2 ^ s.hk.point * (8 - effStep s) / 8 : Nat)

/-- A channel at slot 0 of a window: counts start from zero, as they did for a slot that has been decided, and the credit
rises (R97, R311). -/
def windowChan (slot : Nat) (b : Int) (c : Chan) : Chan :=
  { c with counts := if c.slotIdx = slot then c.counts else Counts.zero, credit := min (c.credit + b) b }

/-- A channel under a sweep that had fewer than two read bursts in the last window gets a calibration read (R245). -/
def calReads (s : State) (c : Nat) : State :=
  let e := cal s (c / 16)
  let need := e.active && decide (16 * (c / 16) + e.chofs = c) && (e.phase == .scan || e.phase == .verify) &&
    decide ((chan s c).readBursts < 2)
  let s := if need then
      enqueue s (newEntry s .cal 21 .mt (synthDl s .mt) false true (onePiece { ch := c, bank := 16, row := 0, col := 0 } none none))
    else s
  modChan s c (fun x => { x with readBursts := 0 })

/-- Slot 0 of a window begins (R96, R97, R104, R245, R311, R405). -/
def execWindowStart (s : State) : Host.Outcome State Fault Refusal :=
  .next (if s.time.cyc < s.winStart ∨ (s.time.cyc - s.winStart) % winLen s ≠ 0 then s
    else
      let s := applyArb s
      let s : State := match s.ecc.scrNext with
        | some b => { s with ecc := { s.ecc with scrNow := b, scrNext := none } }
        | none => s
      let b := energyBudget s
      forN (nChan s) (fun t c => calReads (modChan t c (windowChan (slotNow t) b)) c) s)

/-! ### Commands and bank halves -/

/-- A command slot of the scheduler (R112, R258, R263). -/
def execSchedCommandSlot (c : Fin 64) (s : State) : Host.Outcome State Fault Refusal := onChan s c (fun s => commandSlot s c)

/-- A timed bank-half state reaches its exit (Table 5-1). -/
def halfExpiry (now : Nat) (h : Half) : Half :=
  if now < h.exit then h
  else match h.st with
    | .activating => { h with st := .open_ }
    | .precharging => { h with st := .idle }
    | .refreshing => { h with st := .idle }
    | _ => h

/-- The timed state of a bank half moves on (R111, Table 5-1). -/
def execBankHalfTimingExpiry (c : Fin 64) (b : Fin 16) (h : Fin 2) (s : State) : Host.Outcome State Fault Refusal :=
  onChan s c (fun s => modChan s c (fun x => x.setHalf b h (halfExpiry s.time.cyc (x.half b h))))

/-- Refresh has started and the block keeps it (R257, R268, R298). -/
def refreshRuns (s : State) (c : Nat) : Bool :=
  (s.blk.st == .ready || (s.blk.st == .boot && decide (10 ≤ s.blk.step))) && (chan s c).pd != .selfRefresh && s.clk.coreRun

/-- A due time of a bank has come (R257, R100). -/
def execRefreshDue (c : Fin 64) (b : Fin 16) (s : State) : Host.Outcome State Fault Refusal :=
  onChan s c (fun s =>
    if refreshRuns s c && decide (nextDue s ((chan s c).bank b) b ≤ s.time.tick) then refreshDue s c b else s)

/-- The paused slice of a bank, with its context. -/
def pausedOn (c : Chan) (b : Nat) : Option (Nat × Slice) := c.running.find? (fun e => e.2.pausedBanks.getLsbD b)

/-- The bank's refreshes are done, and its slice resumes on it (R101, R177). -/
def resumeSlice (s : State) (ci b : Nat) : State :=
  let c := chan s ci
  let k := c.bank b
  match pausedOn c b with
  | none => s
  | some (ctx, x) =>
    if draining s || k.gauntlet || decide (0 < k.owed) || nrfOn c b || !((c.half b 0).idleAt s.time.cyc && (c.half b 1).idleAt s.time.cyc) ||
        !rowFree s ci || !inService s ci then s
    else
      let pb := x.pausedBanks &&& ~~~(1#16 <<< b)
      let x := if pb = 0 then
          { x with pausedBanks := 0, pausedFor := x.pausedFor + (s.time.cyc - x.pausedAt.getD s.time.cyc), pausedAt := none }
        else { x with pausedBanks := pb }
      let c := { c with running := Tab.put c.running ctx x }
      let s := setChan s ci (c.both b (fun h => { h with st := .reserved }))
      sendRow s ci (.slr ⟨chanFin ci, 0⟩ (bitFin ctx) (bankFin b))

/-- After the Gauntlet's refresh the slice resumes on the bank (R101). -/
def execSliceResume (c : Fin 64) (b : Fin 16) (s : State) : Host.Outcome State Fault Refusal :=
  onChan s c (fun s => resumeSlice s c b)

/-! ### Bursts and verifies -/

/-- A read burst arrives (R20, R217, R283, R285, R290). -/
def execReadBurstArrival (c : ReadWires) (s : State) : Host.Outcome State Fault Refusal :=
  onChan s c.ch (fun s => readBurst s c.ch c.noise)

/-- A verify read is judged (R283). -/
def execVerifyReadResult (c : Fin 64) (s : State) : Host.Outcome State Fault Refusal := onChan s c (fun s => verifyResult s c)

/-! ### The Liner (R118-R122) -/

/-- A MERGING entry reaches AGE (R119). -/
def execLinerAgeExpiry (c : Fin 64) (s : State) : Host.Outcome State Fault Refusal := onChan s c (fun s => linerAge s c)

/-- The read of an eviction has returned (R120). -/
def execLinerEvictionReadReturn (c : Fin 64) (s : State) : Host.Outcome State Fault Refusal :=
  onChan s c (fun s => evictionReturn s c)

/-- A FULL entry or a merged eviction joins the command queue (R118). -/
def execLinerEntryJoinCmdq (c : Fin 64) (s : State) : Host.Outcome State Fault Refusal := onChan s c (fun s => linerJoin s c)

end Sys2Proof.Machine
end

