-- ==== Sys2Proof/Machine/Slices.lean ====
section
/-! DEFINITION. Operations on their way: vector copies, slices in the queue, in a context and running, the results they
bring, and the final delivery (R123-R127, R141-R149, R165, R171-R175, R183, R214, R215). -/

namespace Sys2Proof.Machine

/-- An operation of the descriptor table. -/
def opOf (s : State) (d : Nat) : Option Op := Tab.find s.disp.ops d

/-- The state with an operation replaced. -/
def putOp (s : State) (d : Nat) (x : Op) : State := { s with disp := { s.disp with ops := Tab.put s.disp.ops d x } }

/-- The state with an operation's record of channel c changed by f. -/
def modOpChan (s : State) (d c : Nat) (f : OpChan → OpChan) : State :=
  match opOf s d with
  | some op => (match Tab.find op.chans c with
    | some x => putOp s d { op with chans := Tab.put op.chans c (f x) }
    | none => s)
  | none => s

/-- The port of an operation's request, which ranks its work items among equals (R181). -/
def opPort (s : State) (d : Nat) : Nat :=
  match (opOf s d).bind (fun op => findReq s op.req) with | some r => r.port.val | none => 0

/-- The attributes of an operation's events (R387). -/
def opAttr (s : State) (op : Op) : Option Attr := (findReq s op.req).map Req.attr

/-- At a cancel point past its deadline a DROP_LATE operation stops (R171). -/
def lateAt (s : State) (op : Op) : Bool := op.d.dropLate && pastDl s op.dl

/-- The operation stops, and replies TIMEOUT with detail LATE once no slice of it runs (R171). -/
def cancelLate (s : State) (d : Nat) : State := opStopped (opStop s d) d

/-! ### Vector copies (R141, R142) -/

/-- An operation has not finished in channel c: it has slices to run there, or, once it is stopped, one still runs (R142,
R171). -/
def stillIn (s : State) (n : Nat) (op : Op) (c : Nat) : Bool :=
  if op.stopped then (chan s c).running.any (fun r => r.2.d == n) || copyQueued s n c
  else match Tab.find op.chans c with | some x => !x.done | none => false

/-- An earlier operation still uses an overlapping range of channel c's vector buffer (R142). -/
def slotBusy (s : State) (op : Op) (c : Nat) : Bool :=
  s.disp.ops.any (fun e => decide (e.2.order < op.order) && rangesMeet (slotRange e.2) (slotRange op) && stillIn s e.1 e.2 c)

/-- The vector copy of operation d into channel c starts (R141). -/
def copyStart (s : State) (d c : Nat) : State :=
  match opOf s d with
  | none => s
  | some op =>
    match Tab.find op.chans c with
    | none => s
    | some x =>
      if op.stopped || x.copied || x.copying || x.done || slotBusy s op c then s
      else if lateAt s op then cancelLate s d
      else
        let es := (copyContent s op c).map (fun e =>
          newEntry s (.slice d) 17 op.cls op.dl true false
            (onePiece { ch := c, bank := 16, row := 0, col := e.1 } none (some e.2)))
        enqueueAll (modOpChan s d c (fun y => { y with copying := true })) es

/-! ### Slice contexts (R214) -/

/-- Vector-buffer ranges in use in channel c: the slots of its operations, and the areas of its slices. -/
def usedRanges (s : State) (c : Nat) : List (Nat × Nat) :=
  let x := chan s c
  (s.disp.ops.filter (fun e => stillIn s e.1 e.2 c)).map (fun e => slotRange e.2) ++ x.sliceq.map (·.area) ++ x.running.map (fun e => e.2.area)

/-- The largest gap between the ranges in use, as first sector and length. -/
def largestGap (us : List (Nat × Nat)) : Nat × Nat :=
  let starts := 0 :: us.map (fun u => u.1 + u.2)
  let free := fun (a : Nat) =>
    if us.any (fun u => decide (u.1 ≤ a ∧ a < u.1 + u.2)) then 0
    else (us.filter (fun u => decide (a ≤ u.1 ∧ 0 < u.2))).foldl (fun m u => min m (u.1 - a)) (8192 - a)
  starts.foldl (fun best a => if best.2 < free a then (a, free a) else best) (0, 0)

/-- A run entry of 8 bytes (R214). -/
def runWord (r : Bool × Nat × Nat × Nat × Nat) : Nat :=
  let (b, bank, row, col, n) := r
  col + row * 2 ^ 5 + bank * 2 ^ 22 + (if b then 2 ^ 26 else 0) + n * 2 ^ 32

/-- The run list as vector-buffer sectors, four entries to a sector. -/
def runSectors : List (Bool × Nat × Nat × Nat × Nat) → List Sector
  | a :: b :: c :: d :: t =>
    sectorOf (BitVec.ofNat 256 (runWord a + runWord b * 2 ^ 64 + runWord c * 2 ^ 128 + runWord d * 2 ^ 192)) :: runSectors t
  | [] => []
  | l => [sectorOf (BitVec.ofNat 256 ((l.zipIdx).foldl (fun acc e => acc + runWord e.1 * 2 ^ (64 * e.2)) 0))]

/-- The parameter block of a slice (Table 8-5), whose run list lies at `ofs` and whose outputs follow it. -/
def paramBlock (op : Op) (x : Slice) : BitVec 512 :=
  let d := op.d
  let nrun := (x.runs.length + 3) / 4
  let rank := (maskChans op.mask).findIdx (· == x.ch)
  let fs : List (Nat × Nat) :=
    [(0, d.op.toNat), (8, d.mode.toNat), (16, d.types.toNat), (24, d.ctl.toNat % 2), (40, d.nvec.toNat), (64, x.first),
      (96, x.count), (128, rank), (144, popcount op.mask), (160, x.area.1), (176, x.runs.length), (192, x.area.1 + nrun),
      (208, x.area.2 - nrun), (224, x.budget % 65536), (256, d.m), (288, d.k), (320, d.bofs.toNat), (336, d.blen.toNat),
      (352, d.param0.toNat), (384, d.param1.toNat), (416, x.resume.toNat)]
  BitVec.ofNat 512 ((fs.map (fun f => f.2 * 2 ^ f.1)).sum)

/-- The area that a slice's run list and outputs take: half of the largest gap between the slots. Where the slots leave no
room for the run list, the context's own area beyond the 8,192 sectors (log 27). -/
def sliceArea (s : State) (c k : Nat) (x : Slice) : Nat × Nat :=
  let nrun := (x.runs.length + 3) / 4
  let (a, n) := largestGap (usedRanges s c)
  if nrun < n then (a, max (nrun + 1) (n / 2)) else (8192 + 16384 * k, 16384)

/-- A free context of a channel, else one that only a waiting slice holds. -/
def ctxFor (c : Chan) : Option Nat :=
  let idle := [0, 1].filter (fun k => (Tab.find c.running k).isNone)
  match idle.find? (fun k => !(c.sliceq.any (fun x => x.ctx == some k))) with
  | some k => some k
  | none => idle.head?

/-- The pending slice's banks are cleared of Liner entries, and its context is filled: two SPW transfers, and its run list
by VWR (R119, R125, R214); a run list in the context's own area goes with them (log 27). -/
def fillCtx (s : State) (c : Nat) : State :=
  let s := evictPending s c
  let ch := chan s c
  match pendingSlice s ch with
  | none => s
  | some x =>
    if x.ctx.isSome then s
    else
      match ctxFor ch, opOf s x.d with
      | some k, some op =>
        let x := { x with ctx := some k, area := sliceArea s c k x }
        let pb := paramBlock op x
        let runs := ((runSectors x.runs).zipIdx).map (fun e => (x.area.1 + e.2, e.1))
        let far := decide (8192 ≤ x.area.1)
        let ent := fun (bank row col : Nat) (d : Sector) =>
          newEntry s (.slice x.d) 17 x.cls x.dl true false (onePiece { ch := c, bank := bank, row := row, col := col } none (some d))
        let es := [ent 18 k 0 (sectorOf (field pb 0 256)), ent 18 k 1 (sectorOf (field pb 256 256))] ++
          (if far then [] else runs.map (fun e => ent 16 0 e.1 e.2))
        let s := if far then modStk s c (fun y => runs.foldl (fun y e => vbufWrite s.stack c y e.1 e.2) y) else s
        let s := modChan s c (fun y => { y with sliceq := y.sliceq.map (fun z =>
          if z.d = x.d then x else if z.ctx = some k then { z with ctx := none, area := (0, 0) } else z) })
        enqueueAll s es
      | _, _ => s

/-- A slice of d takes its place in the slice queue: by R95, then the lower descriptor number (R123). -/
def insertSlice (rot : Nat) (x : Slice) : List Slice → List Slice
  | [] => [x]
  | y :: t =>
    let before := if Key.before rot x.key y.key then true else if Key.before rot y.key x.key then false else decide (x.d < y.d)
    if before then x :: y :: t else y :: insertSlice rot x t

/-- The next slice of the slicer's list that may be offered (R141, R147). -/
def nextSlice (s : State) (c : Nat) : Option Slice :=
  let ch := chan s c
  ch.slicer.find? (fun x =>
    (match opOf s x.d with | some op => !op.stopped && copySent s op c | none => false) &&
      !(ch.sliceq.any (fun y => y.d == x.d)) && !(ch.running.any (fun e => e.2.d == x.d)) &&
      !(ch.sliceWait.any (fun w => w.x.d == x.d)))

/-- A slice enters the channel's slice queue (R123, R125, R147). -/
def sliceTake (s : State) (c : Nat) : State :=
  let ch := chan s c
  if 8 ≤ ch.sliceq.length ∨ inRecovery s (.oct, octOf c) = true then s
  else
    match nextSlice s c with
    | none => s
    | some x =>
      let x := { x with seq := s.time.cyc }
      let s := setChan s c { ch with slicer := ch.slicer.eraseP (fun z => z.d == x.d), sliceq := insertSlice ch.rot x ch.sliceq }
      let s := modOpChan { s with disp := { s.disp with prog := 0 } } x.d c (fun y => { y with copied := true })
      fillCtx s c

/-! ### Running slices (R125-R127, R148, R149, R215) -/

/-- Transfers that fill a slice's context are still queued, or have not gone out on the column wires yet: a run list is
written before SLS (R214). -/
def fillQueued (c : Chan) (d : Nat) : Bool :=
  let q := fun (e : Entry) => e.write && !e.onArray && e.owner == .slice d
  c.rq.any q || c.cmdq.any q || c.colOut.any (fun i => match i.2 with | .vwr ⟨_, _⟩ _ ⟨_, _⟩ | .spw ⟨_, _⟩ _ _ ⟨_, _⟩ => true | _ => false)

/-- All banks of a slice are idle and written, no sector of them is locked, and nothing owed comes first (R24, R125, R259,
R263, R294). -/
def banksReady (s : State) (ci : Nat) (c : Chan) (banks : BitVec 16) : Bool :=
  (List.range 16).all (fun b => !banks.getLsbD b ||
    ((c.half b 0).idleAt s.time.cyc && (c.half b 1).idleAt s.time.cyc && !refreshHeads s ci c b && !nrfOn c b &&
      !(c.cmdq.any (fun e => e.write && e.onArray && e.place.bank == b)) && !(c.liner.any (fun l => l.place.bank == b)) &&
      !(c.heldRows.any (fun h => h.1 == b)) && !(c.recon.any (fun r => r.place.bank == b)) && !c.noSlice.contains b &&
      !((oct s (octOf ci)).locks.any (fun l => l.2.ch == ci && l.2.bank == b))))

/-- Core cycles of a cost in tenths of a nanosecond. -/
def costCycles (n : Nat) : Nat := (n + 3) / 4

/-- The pending slice of a channel starts (R125, R127, R171, R173, R311). -/
def sliceStart (s : State) (ci : Nat) : State :=
  let c := chan s ci
  match pendingSlice s c with
  | none => s
  | some x =>
    match opOf s x.d, x.ctx with
    | some op, some k =>
      if c.halted || !inService s ci || s.thm.tripPh != 0 || s.hk.freq != .none || (Tab.find c.running k).isSome ||
          fillQueued c x.d || !banksReady s ci c x.banks || !rowFree s ci || !energyOk c false ||
          (op.form.writesArray && writeForbidden s) then s
      else if lateAt s op then cancelLate s x.d
      else
        let y := { x with started := some s.time.cyc, pollAt := costCycles x.cost }
        let c := { c with sliceq := c.sliceq.filter (fun z => z.d != x.d), running := Tab.put c.running k y, prog := 0 }
        let c := (List.range 16).foldl (fun z b => if x.banks.getLsbD b then z.both b (fun h => { h with st := .reserved }) else z) c
        let s := spend (setChan s ci c) ci (weight s 0x06C 24 * ((x.cost + 7) / 8))
        let s := evOct s (octOf ci) 0x06 1 (opAttr s op)
        let s := modReq s op.req (fun r => { r with tJoin := r.tJoin.or (some s.time.cyc) })
        fillCtx (sendRow s ci (.sls ⟨chanFin ci, 0⟩ (bitFin k) x.banks)) ci
    | _, _ => fillCtx s ci

/-- Core cycles since a running slice started, its pauses apart. -/
def sliceRunning (s : State) (x : Slice) : Nat :=
  (match x.pausedAt with | some a => a | none => s.time.cyc) - x.started.getD s.time.cyc - x.pausedFor

/-- Core cycles of them that count for its bank time: stalled time counts as paused (R149, R185). -/
def sliceUsed (s : State) (x : Slice) : Nat :=
  sliceRunning s x - (match x.ctx with | some k => (((stk s x.ch).ctx k).upTo s.time.cyc).stalled | none => 0)

/-- SRDs of a context that have not been answered. -/
def srdWaiting (c : Chan) (ctx : Nat) : Bool :=
  let q := fun (e : Entry) => !e.write && e.place.bank == 19 && e.place.row == ctx
  c.rq.any q || c.cmdq.any q || c.inflight.any (fun f => match f.what with | .srd x => x == ctx | _ => false)

/-- The slicer polls a slice at its estimated end, and every 100 ns after (R215). -/
def slicePoll (s : State) (ci ctx : Nat) : State :=
  let c := chan s ci
  match Tab.find c.running ctx with
  | none => s
  | some x =>
    if x.pausedAt.isSome || x.final.isSome || srdWaiting c ctx || decide (sliceRunning s x < x.pollAt) then s
    else
      let s := setChan s ci { c with running := Tab.put c.running ctx { x with pollAt := sliceRunning s x + 250 } }
      enqueue s (newEntry s (.slice x.d) 17 x.cls x.dl false false (onePiece { ch := ci, bank := 19, row := ctx, col := 0 } none none))

/-- The place that a status sector names in the form of OPRA. -/
def placeOfForm (c n : Nat) : Place := { ch := c, bank := n / 2 ^ 22 % 16, row := n / 32 % 2 ^ 17, col := n % 32 }

/-- The uncorrectable sectors that a status sector names (Table 8-6). -/
def statusUes (c : Nat) (w : BitVec 256) : List Place :=
  (List.range (min 3 (fieldNat w 96 16))).map (fun i => placeOfForm c (fieldNat w (128 + 32 * i) 32))


/-- A sector named by a slice's status is read again through the link (R292). -/
def confirmRead (s : State) (p : Place) : State := enqueue s (eccEntry s .confirm false (onePiece p none none))

/-- What becomes of the uncorrectable sectors that a slice's status names: the poison of fenced rows and of rows outside
vault regions, which are read again, and the sectors of vault rows, which are to be reconstructed (R174, R292, R295). -/
def sortUes (s : State) (ps : List Place) : Option Byte × List Place × State :=
  ps.foldl (fun (acc : Option Byte × List Place × State) p =>
    let (po, left, t) := acc
    if fenced t p then (worse po 1#8, left, t)
    else if (rowVault t p.bank p.row).isSome then (po, left ++ [p], t)
    else (worse po 0#8, left, confirmRead t p)) (none, [], s)

/-- The slice that runs again after a reconstruction: whole, or the units of a SCATTER_ADD that the status named
(R174). -/
def rerunSlice (op : Op) (x : Slice) (ps : List Place) : List Slice :=
  let fresh := fun (y : Slice) => { y with started := none, pausedAt := none, pausedFor := 0, pausedBanks := 0, ctx := none
                                           area := (0, 0), got := [], final := none }
  if op.form = .scatter then
    let us := chanUnits op x.ch
    ((List.range x.count).filterMap (fun i =>
      match us[x.first + i]? with
      | some u => if u.1.any (fun p => ps.contains p) then
          (splitUnits op (40 * x.budget) [u]).head?.map (fun k => fresh (sliceFrom op x.ch x.budget { k with first := x.first + i } 0#32)) else none
      | none => none))
  else [fresh x]

/-- The banks of a slice are released IDLE, and owed refreshes follow (R127, R259). -/
def releaseSlice (s : State) (ci ctx : Nat) (banks : BitVec 16) : State :=
  modChan s ci (fun c =>
    let c := { c with running := Tab.drop c.running ctx }
    (List.range 16).foldl (fun z b =>
      if banks.getLsbD b then
        let k := z.bank b
        (z.setBank b { k with afterSlice := decide (1 ≤ k.debt) }).both b (fun h =>
          if h.st = .reserved then { h with st := .idle } else h)
      else z) c)

/-- A slice's end joins its Crown's queue (R183). -/
def pushEnd (s : State) (x : Slice) (last : Bool) : State :=
  modOct s (octOf x.ch) (fun o =>
    { o with queue := o.queue ++ [{ item := .sliceEnd x.d x.ch x.first x.count last x.got, dl := x.dl, cls := x.cls, joined := s.time.cyc, port := opPort s x.d }] })

/-- What follows a slice that has ended: it runs again after a reconstruction, its continuation is queued, or its end goes
to the Crown (R145, R174, R183). -/
def sliceGoesOn (s : State) (ci : Nat) (x : Slice) (op : Op) (ps : List Place) (again : Bool) (res : Word) : State :=
  let cont := (match op.form with | .setxI | .setxU | .setxD | .expand => true | _ => false) && res != 0xFFFFFFFF#32
  if again then
    let ys := rerunSlice op x ps
    let s := modChan s ci (fun y => { y with slicer := ys ++ y.slicer })
    let s := modOct s (octOf ci) (fun o => { o with queue := o.queue.filter (fun q => match q.item with
      | .partialSec d' c' _ => !(d' == x.d && c' == ci) | _ => true) })
    modOpChan s x.d ci (fun y => { y with left := y.left + ys.length - 1 })
  else if cont then
    let b := sliceBudget s (octOf ci)
    let y : Slice := { x with resume := res, budget := b / 40, cost := b, started := none, pausedFor := 0, ctx := none, area := (0, 0), got := [], final := none }
    modChan (pushEnd s x false) ci (fun z => { z with slicer := y :: z.slicer })
  else pushEnd s x true

/-- A slice's status is accounted to its operation once every row that it named has been reconstructed or has failed. A
slice that runs again counts its out-of-range entries then (R54, R145, R161, R174). -/
def sliceAccount (s : State) (ci : Nat) (w : SliceWait) : State :=
  match opOf s w.x.d with
  | none => fillCtx s ci
  | some op =>
    if op.stopped then fillCtx (opStopped s w.x.d) ci
    else
      let po := if w.more && (w.all.any (fun p => (rowVault s p.bank p.row).isNone)) then worse w.poison 0#8 else w.poison
      let po := if w.good then po else worse po 0#8
      let again := po.isNone && w.all.any (fun p => (rowVault s p.bank p.row).isSome)
      let s := putOp s w.x.d { op with poison := match po with | some b => worse op.poison b | none => op.poison, recon := op.recon || again }
      let s := if again then s else bumpReg s (octPage 0) 0x048 0 32 w.idx
      fillCtx (sliceGoesOn s ci w.x op w.all again w.resume) ci

/-- A gated domain that the reconstruction of a row named by a slice's status needs (R290). -/
def gatedSlice (s : State) (w : SliceWait) : Option (Nat × Byte) :=
  match opOf s w.x.d with
  | some op => w.left.findSome? (fun p => ((rowVault s p.bank p.row).bind (reconGate s op.req p)).map (fun d => (op.req, d)))
  | none => none

/-- An ended slice whose status named vault rows waits for their reconstructions, which run with its class and deadline
(R174, R290). Its operation stops with GATED where one of them needs a gated domain. -/
def sliceAwait (s : State) (ci : Nat) (w : SliceWait) : State :=
  match gatedSlice s w with
  | some (id, d) =>
    let s := w.left.foldl rowFailure s
    fillCtx (opStopped (opStop (gateReq s id d) w.x.d) w.x.d) ci
  | none =>
  let s := modChan s ci (fun c => { c with sliceWait := c.sliceWait ++ [w] })
  let s := w.left.foldl (fun t p =>
    match rowVault t p.bank p.row with
    | some v => startReconOf (rowFailure t p) p v w.x.cls w.x.dl []
    | none => t) s
  fillCtx s ci

/-- A slice has reported done: its banks are free, and a run again, a continuation or its end follows (R127, R145, R147,
R174, R215, R285). One that reports ABORTED leaves nothing (R175). -/
def sliceDone (s : State) (ci ctx : Nat) : State :=
  let c := chan s ci
  match Tab.find c.running ctx with
  | none => s
  | some x =>
    match x.final with
    | none => s
    | some st =>
      let w := plain st
      let ps := statusUes ci w
      if fieldNat w 0 8 = 5 then fillCtx (opStopped (releaseSlice s ci ctx x.banks) x.d) ci
      else if c.partIn.any (fun p => p.2.1 == ctx) then s
      else
        let s := ceRise (releaseSlice s ci ctx x.banks) ci (fieldNat w 32 32)
        let (po, left, s) := sortUes s ps
        let e : SliceWait :=
          { x := x, all := ps, left := left, good := true, poison := po, more := decide (ps.length < fieldNat w 96 16)
            resume := field w 64 32, idx := fieldNat w 224 32 }
        if left.isEmpty || ((opOf s x.d).map (·.stopped)).getD true then sliceAccount s ci e else sliceAwait s ci e

/-! ### The end of a reconstruction (R290, R291) -/

/-- Rewrites of a reconstruction that have not gone out yet. -/
def rewritesOf (c : Chan) (ci : Nat) (r : Recon) : Nat :=
  ((c.rq ++ c.cmdq).filter (fun e => e.write && e.owner.rebuilds ci r.place.bank r.place.row)).length

/-- Requests whose partial write waits on a reconstructed sector (R122). -/
def reconLiner (s : State) (e : Entry) : State :=
  match e.owner with
  | .evict n => (((chan s e.place.ch).liner.filter (fun l => l.serial == n)).flatMap (·.reqs)).foldl reconReq s
  | _ => s

/-- A read that waited for a reconstruction is served: with the rebuilt sector, or with the one that could not be used. A
remap's copy takes all that it has of the row from the rebuilt one (R290, R291, Table 11-5). -/
def reconServe (s : State) (r : Recon) (e : Entry) (p : Place) : State :=
  let i := p.col - e.place.col
  match r.res.join with
  | some ss =>
    let s : State := if e.owner.isRemap then
        { s with ecc := { s.ecc with repair := s.ecc.repair.map (fun x => { x with got := x.got.map (fun g => (g.1, ss.getD g.1 g.2)) }) } }
      else s
    reconLiner (deliver s e i p (ss.getD p.col zeroSector) false false false false true) e
  | none =>
    let d := Tab.get r.got p.col zeroSector
    deliver s e i p d true false (fenced s p) false false

/-- A row that slices wait for is done with: the slices that waited for nothing else are accounted (R174). -/
def sliceWake (s : State) (ci : Nat) (r : Recon) : State :=
  let s := modChan s ci (fun c => { c with sliceWait := c.sliceWait.map (fun w =>
    if w.left.any r.holds then { w with left := w.left.filter (fun p => !r.holds p), good := w.good && r.res.join.isSome } else w) })
  let done := (chan s ci).sliceWait.filter (fun w => w.left.isEmpty)
  let s := modChan s ci (fun c => { c with sliceWait := c.sliceWait.filter (fun w => !w.left.isEmpty) })
  done.foldl (fun t w => sliceAccount t ci w) s

/-- A reconstruction is over: the row is released, the reads that waited are served, and its outcome is counted (R290,
R291). -/
def reconOver (s : State) (ci : Nat) (r : Recon) : State :=
  let s := modChan s ci (fun c =>
    { dropEntries c (fun o => o.rebuilds ci r.place.bank r.place.row) with recon := c.recon.filter (fun x => !x.holds r.place) })
  let s := match r.res.join with
    | some _ => bumpReg s pgEcc 0x058 0 16 1
    | none =>
      let s := latch (bumpReg s pgEcc 0x058 16 16 1) pgEcc 3
      logEv s 0x0304 (chPage ci) .error (placeForm r.place.bank r.place.row)
  sliceWake (r.flights.foldl (fun t f => reconServe t r f.1 f.2) s) ci r

/-- The oldest reconstruction of channel ci whose result is known ends once its rewrites have gone out; those that writing
is forbidden to are dropped and counted (R284, R290, R291). -/
def reconDone (s : State) (ci : Nat) : State :=
  let c := chan s ci
  match c.recon.find? (fun r => r.res.isSome && (writeForbidden s || rewritesOf c ci r == 0)) with
  | none => s
  | some r => reconOver (bumpReg s (chPage ci) 0x088 16 16 (rewritesOf c ci r)) ci r

/-- A row's reconstruction ends (R290, R291). -/
def execVaultReconstructionDone (c : Fin 64) (s : State) : Host.Outcome State Fault Refusal := onChan s c (fun s => reconDone s c)

/-- A slice that has not reported done within twice its bank time, its pauses and 1 µs is a fault (R149). -/
def sliceOverrun (s : State) (ci ctx : Nat) : State :=
  match Tab.find (chan s ci).running ctx with
  | none => s
  | some x =>
    if x.started.isSome && x.final.isNone && x.pausedAt.isNone && decide (2 * costCycles x.cost + 2500 < sliceUsed s x) then
      let pg := octPage (octOf ci)
      faultAt (latch (bumpReg s pg 0x064 0 16 1) pg 1) (chPage ci) .overrun .unit
    else s

/-- A partial sector is with its Crown as a work item (R181). -/
def partialArrives (s : State) (ci : Nat) : State :=
  let c := chan s ci
  match c.partIn with
  | [] => s
  | (d, ctx, x) :: rest =>
    let s := setChan s ci { c with partIn := rest, running := match Tab.find c.running ctx with
      | some r => if r.d = d then Tab.put c.running ctx { r with got := r.got ++ [x] } else c.running
      | none => c.running }
    match opOf s d with
    | none => s
    | some op =>
      let s := evOct s (octOf ci) 0x07 1 (opAttr s op)
      modOct s (octOf ci) (fun o =>
        { o with queue := o.queue ++ [{ item := .partialSec d ci x, dl := op.dl, cls := op.cls, joined := s.time.cyc, port := opPort s d }] })

/-! ### Combination and delivery (R165, R172, R173, R183) -/

/-- Sectors of a Crown's own parts of an operation. -/
def octSectors (op : Op) (k : Nat) : Nat :=
  (((maskChans op.mask).filter (fun c => octOf c == k)).map (fun c =>
    ((((Tab.find op.chans c).map (·.parts)).getD []).map (fun p => p.2.2.length)).sum)).sum

/-- A Crown's combined result of operation d joins the head Crown's queue (R183). -/
def fabricArrives (s : State) (d k : Nat) : State :=
  match opOf s d with
  | none => s
  | some op =>
    let queued := (oct s op.head).queue.any (fun q => q.item == .fabric d k)
    if op.stopped || k == op.head || !(sendingOcts op).contains k || !octReady op k || op.octDone.contains k || queued then s
    else
      let s := evOct s k 0x0A (octSectors op k) none
      modOct s op.head (fun o =>
        { o with queue := o.queue ++ [{ item := .fabric d k, dl := op.dl, cls := op.cls, joined := s.time.cyc, port := opPort s d }] })

/-- The head Crown's own part is combined once all its channels are done. -/
def headReady (s : State) (d : Nat) : State :=
  match opOf s d with
  | some op => if octReady op op.head && !op.octDone.contains op.head then putOp s d { op with octDone := op.octDone ++ [op.head] } else s
  | none => s

/-- Sectors of a COPY FROM_CROWN, from byte offset PARAM0 of the head Crown's scratch (R163, R180). -/
def crownSource (s : State) (op : Op) : List Sector × State := scratchRead s op.head op.d.param0.toNat op.d.m

/-- The outcome that an operation's slices leave to its request (R174). -/
def opOutcome (s : State) (op : Op) : State :=
  let s := match op.poison with | some b => poisonReq s op.req b | none => s
  if op.recon then reconReq s op.req else s

/-- The sectors of an operation's result (R156, R163). -/
def resultSectors (s : State) (op : Op) : List Sector × State :=
  if op.form = .copyCrown then crownSource s op
  else
    let (vs, n) := combine op s.free
    (vs.map SecVal.sector, { s with free := n })

/-- A result goes to STACK: the Crowns write its sectors under locks (R165, Table 7-7). -/
def deliverStack (s : State) (d : Nat) (op : Op) (xs : List Sector) : State :=
  let s := putOp s d { op with writing := true }
  let pairs := (op.dst.zip xs).zipIdx
  let s := modReq s op.req (fun r => { r with todo := pairs.length })
  let pt := match findReq s op.req with | some r => r.port.val | none => 0
  let s := pairs.foldl (fun t e =>
    addJob t (resultCrown op e.2) (some op.req) (.result e.1.2) e.1.1.place e.1.1.vault op.cls op.dl pt) s
  if pairs.isEmpty then finishReq s op.req else s

/-- A result goes to CROWN: it is stored in the head Crown's client area from byte DADDR (R165, R194). -/
def deliverCrown (s : State) (op : Op) (xs : List Sector) : State :=
  let s := scratchWrite s op.head op.d.daddr.toNat xs
  partsDone (modReq s op.req (fun r => { r with tDone := some s.time.cyc })) op.req 1

/-- A result goes to RETURN: the reply carries it (R165). -/
def deliverReturn (s : State) (op : Op) (xs : List Sector) : State :=
  let s := modReq s op.req (fun r => { r with rdata := (xs.zipIdx).map (fun e => (e.2, e.1)), tDone := some s.time.cyc })
  partsDone s op.req 1

/-- A result goes to its destination (R165). -/
def deliverTo (s : State) (d : Nat) (op : Op) (xs : List Sector) : State :=
  let s := opOutcome s op
  let s := if xs.any sectorBad then poisonReq s op.req 0#8 else s
  let s := evOct s op.head 0x04 (match op.form with
    | .setxI | .setxU | .setxD | .expand | .filter => fieldNat (plain (xs.headD zeroSector)) 0 32 | _ => 0) none
  if op.d.dest = 0 then deliverReturn s op xs
  else if op.d.dest = 1 then deliverCrown s op xs
  else deliverStack s d op xs

/-- The result of an operation goes to its destination (R165); one with no result replies, and has no cancel point left (R171). -/
def deliverResult (s : State) (d : Nat) : State :=
  match opOf s d with
  | none => s
  | some op =>
    if op.stopped || op.writing || !opReady op then s
    else if (match op.form with | .scatter | .fill | .copyRes | .copyStr => true | _ => false) then partsDone (opOutcome s op) op.req 1
    else if lateAt s op then cancelLate s d
    else
      if op.d.dest = 2 && writeForbidden s then s
      else
        let (xs, s) := resultSectors s op
        deliverTo s d op xs

end Sys2Proof.Machine
end

