-- ==== Sys2Proof/Machine/OpRows.lean ====
section
/-! DEFINITION. The events of operations and Crowns: slices, vector copies, partials, work items, locks, drains and final
delivery (06, 07). -/

namespace Sys2Proof.Machine

/-- An event on an octant that the part has; on any other it faults (R16). -/
def onOct (s : State) (k : Nat) (f : State → State) : Host.Outcome State Fault Refusal :=
  if k < nOct s then .next (f s) else .fault .absentUnit

/-- The slicer offers its next slice to the channel's slice queue (R123, R147). -/
def execSliceQueueTake (c : Fin 64) (s : State) : Host.Outcome State Fault Refusal := onChan s c (fun s => sliceTake s c)

/-- The vector copy of an operation into a channel starts (R141, R171). -/
def execVectorCopyStart (d : BitVec 8) (c : Fin 64) (s : State) : Host.Outcome State Fault Refusal :=
  onChan s c (fun s => copyStart s d.toNat c)

/-- The pending slice of a channel starts (R125, R171-R173, R311). -/
def execSliceStart (c : Fin 64) (s : State) : Host.Outcome State Fault Refusal := onChan s c (fun s => sliceStart s c)

/-- The slicer polls a running slice (R215). -/
def execSliceStatusPoll (c : Fin 64) (ctx : Fin 2) (s : State) : Host.Outcome State Fault Refusal :=
  onChan s c (fun s => slicePoll s c ctx)

/-- A slice that has reported done ends (R127, R145, R174, R215). -/
def execSliceDone (c : Fin 64) (ctx : Fin 2) (s : State) : Host.Outcome State Fault Refusal :=
  onChan s c (fun s => sliceDone s c ctx)

/-- A slice is overdue (R149). -/
def execSliceOverrun (c : Fin 64) (ctx : Fin 2) (s : State) : Host.Outcome State Fault Refusal :=
  onChan s c (fun s => sliceOverrun s c ctx)

/-- A returned partial sector joins its Crown's queue (R181, R183). -/
def execPartialArrival (c : Fin 64) (s : State) : Host.Outcome State Fault Refusal := onChan s c (fun s => partialArrives s c)

/-- A Crown's combined result arrives at the head Crown (R183). -/
def execFabricTransferArrival (d : BitVec 8) (k : Fin 8) (s : State) : Host.Outcome State Fault Refusal :=
  onOct s k (fun s => fabricArrives s d.toNat k)

/-- An operation's result is complete and goes to its destination (R156, R165, R171, R173). -/
def execOperationResultDelivery (d : BitVec 8) (s : State) : Host.Outcome State Fault Refusal := .next (deliverResult s d.toNat)

/-! ### Work items (R181-R184) -/

/-- A Crown works: its octant's domain has a clock (R179), and it is in no recovery and was not left stopped. -/
def crownRuns (s : State) (k : Nat) : Bool := clocked s (80 + k) && !inRecovery s (.oct, k) && !(oct s k).dead && s.blk.st != .lost

/-- An item is a job of a drain. -/
def itemDrains (o : Oct) (q : QItem) : Bool :=
  match q.item with | .job j => o.jobs.any (fun x => x.jid == j && x.isDrain) | _ => false

/-- The ranking of work items: drains after the rest, then keys 1 to 3 of R95, then the lower port (R181). -/
def itemBefore (o : Oct) (a b : QItem) : Bool :=
  if itemDrains o a != itemDrains o b then itemDrains o b
  else if a.dl ≠ b.dl then decide (a.dl < b.dl)
  else if a.cls ≠ b.cls then decide (Cls.num a.cls < Cls.num b.cls)
  else if a.joined ≠ b.joined then decide (a.joined < b.joined)
  else decide (a.port < b.port)

/-- A work item is ready: a parity update once no earlier one on its sector is under way (R289). -/
def itemReady (o : Oct) (q : QItem) : Bool :=
  match q.item with
  | .job j => (match o.jobs.find? (fun x => x.jid == j) with
    | some x => (match x.kind with | .parity p _ => p == x.place || parityTurn o x | _ => true)
    | none => true)
  | _ => true

/-- A job is taken: it wants its lock, or, a parity update, reads its parity sector (R201, R289). -/
def takeJob (s : State) (k jid : Nat) : State :=
  match (oct s k).jobs.find? (fun x => x.jid == jid) with
  | none => s
  | some j =>
    match j.kind with
    | .parity _ _ => enqueue (setJob s k { j with st := .reading }) (jobEntry s k { j with st := .reading } none)
    | _ => setJob s k { j with st := .wantLock }

/-- Lane and exponent operations of merging a channel's or a Crown's partials into those already there (Table 7-2,
R186). -/
def mergeOps (s : State) (k : Nat) (op : Op) (more : Bool) : State :=
  if !more then s
  else match op.form with
    | .attn => evOct (evOct s k 0x02 (op.d.nv * (2 * (attnDv op.d.wt (attnFmt op.d.param1) + 1))) none) k 0x03 op.d.nv none
    | .dotK => evOct s k 0x02 (op.d.m * op.d.nv) none
    | _ => s

/-- A slice's end is taken: its partials count, and its channel is done after its last slice (R183). -/
def takeEnd (s : State) (k d ch first count : Nat) (last : Bool) (res : List Sector) : State :=
  match opOf s d with
  | none => s
  | some op =>
    let more := (maskChans op.mask).any (fun c => octOf c == k && (match Tab.find op.chans c with | some x => !x.parts.isEmpty | none => false))
    let s := mergeOps s k op more
    let s := modOpChan s d ch (fun x =>
      let left := if last then x.left - 1 else x.left
      { x with parts := x.parts ++ [(first, count, res)], left := left, done := x.done || decide (left = 0) })
    headReady s d

/-- A Crown's result is taken by the head Crown (R183). -/
def takeFabric (s : State) (k d oc : Nat) : State :=
  match opOf s d with
  | none => s
  | some op => mergeOps (putOp s d { op with octDone := op.octDone ++ [oc] }) k op (!op.octDone.isEmpty)

/-- A Crown takes its best ready work item (R181). -/
def itemTake (s : State) (k : Nat) : State :=
  if !crownRuns s k then s
  else
    let o := oct s k
    match bestBy (itemBefore o) (o.queue.filter (itemReady o)) with
    | none => s
    | some q =>
      let s := setOct s k { o with queue := o.queue.erase q, prog := 0 }
      let s := evOct s k 0x01 1 none
      match q.item with
      | .job j => takeJob s k j
      | .partialSec _ _ _ => s
      | .sliceEnd d ch first count last res => takeEnd s k d ch first count last res
      | .fabric d oc => takeFabric s k d oc

/-- A Crown takes a work item (R181). -/
def execCrownItemTake (k : Fin 8) (s : State) : Host.Outcome State Fault Refusal := onOct s k (fun s => itemTake s k)

/-! ### Locks and jobs (R182, R189-R202) -/

/-- Jobs that wait for their locks rank by deadline, class and admission, drains last. -/
def jobBefore (a b : Job) : Bool :=
  if a.isDrain != b.isDrain then b.isDrain
  else if a.dl ≠ b.dl then decide (a.dl < b.dl)
  else if a.cls ≠ b.cls then decide (Cls.num a.cls < Cls.num b.cls)
  else decide (a.jid < b.jid)

/-- A Crown takes a lock, and issues the read or, with nothing to read, the write (R201, R202). -/
def lockTake (s : State) (k : Nat) : State :=
  let o := oct s k
  if !crownRuns s k then s
  else
    match bestBy jobBefore (o.jobs.filter (fun j => lockReady s k o j && mayStart s j)) with
    | none => s
    | some j =>
      let j := { j with lock := true, seq := (chan s j.place.ch).serial }
      let s := modChan s j.place.ch (fun c => { c with serial := c.serial + 1 })
      let s := modOct s k (fun x => { x with locks := x.locks ++ [(j.jid, j.place)] })
      match j.kind, j.vault with
      | .result d, none => jobWrite s k j zeroSector d
      | _, _ => enqueue (setJob s k { j with st := .reading }) (jobEntry s k j none)

/-- A Crown takes a lock (R201, R202). -/
def execCrownLockTake (k : Fin 8) (s : State) : Host.Outcome State Fault Refusal := onOct s k (fun s => lockTake s k)

/-- Elements of a sector by ETYPE (Table 7-3). -/
def etypeCount (et : Nat) : Nat := match et with | 1 => 16 | 2 => 16 | 4 => 4 | 6 => 4 | _ => 8

/-- Lane operations that a job's computation takes: one for each element it changes. -/
def jobOps (o : Oct) (j : Job) : Nat :=
  match j.kind with
  | .atomic _ et vec _ _ => if vec then etypeCount et else 1
  | .reduce et _ => etypeCount et
  | .drain => ((o.held.filter (fun h => h.place == j.place)).map (fun h => etypeCount h.etype)).sum
  | .parity _ _ => 8
  | .result _ => 0

/-- A Crown's read has returned, and its job computes and writes (R189-R193, R199, R200). -/
def readReturn (s : State) (k : Nat) : State :=
  let o := oct s k
  if !crownRuns s k then s
  else
    match o.jobs.find? (fun j => j.st == .returned && j.got.isSome) with
    | none => s
    | some j =>
      let s := evOct s k 0x02 (jobOps o j) none
      flushServed (jobReturned s k j (j.got.getD zeroSector)) j.place.ch

/-- A Crown's read has returned (R189-R193). -/
def execCrownReadReturn (k : Fin 8) (s : State) : Host.Outcome State Fault Refusal := onOct s k (fun s => handlesDone (readReturn s k))

/-- The write of a job has joined its command queue. -/
def writeJoined (s : State) (k : Nat) (j : Job) : Bool :=
  j.st == .writing && !((chan s j.place.ch).rq.any (fun e => e.owner.isJob k j.jid))

/-- A Crown's write is visible: its lock is released, and its part of the request is done (R22, R24, R201). -/
def writeVisible (s : State) (k : Nat) : State :=
  match (oct s k).jobs.find? (writeJoined s k) with
  | none => s
  | some j =>
    let s := endJob s k j.jid
    let s := match j.req with
      | some id =>
        partsDone (modReq s id (fun r => if r.desc.isSome then r else { r with tDone := some s.time.cyc, pieceCh := some j.place.ch })) id 1
      | none => s
    flushServed s j.place.ch

/-- A Crown's write reaches its point of visibility (R22, R201). -/
def execCrownWriteVisible (k : Fin 8) (s : State) : Host.Outcome State Fault Refusal := onOct s k (fun s => handlesDone (writeVisible s k))

/-! ### Drains (R199) -/

/-- Held fragments of a Crown start to drain, in arrival order: one job for each sector (R199). -/
def drainStart (s : State) (k : Nat) : State :=
  let o := oct s k
  if o.held.isEmpty || !(s.thm.w == .open_ || s.thm.w == .brim) || !crownRuns s k then s
  else
    let todo := (o.held.filter (fun h => !(o.jobs.any (fun j => j.isDrain && j.place == h.place)))).map (fun h => (h.place, h.vault))
    todo.eraseDups.foldl (fun t p => addJob t k none .drain p.1 p.2 .bl (synthDl t .bl) 16) s

/-- Writing is allowed again, and a Crown starts to drain (R199). -/
def execHeldDrainStart (k : Fin 8) (s : State) : Host.Outcome State Fault Refusal := onOct s k (fun s => drainStart s k)

end Sys2Proof.Machine
end

