-- ==== Sys2Proof/Machine/CmdRows.lean ====
section
/-! DEFINITION. The rows that act through one named register, as the CFG_WR or CFG_RD that carries them, and the unit
events that go with them (R60-R62, R84, R226, R333, R336, R346, R371, R385-R399, R403-R411). -/

namespace Sys2Proof.Machine

/-- A CFG_WR of a word to a register of a page. -/
def writeRow (p : Fin 16) (h : Hdr) (page off : Nat) (v : Word) (s : State) : Host.Outcome State Fault Refusal :=
  .next (cfgWrite s p h page off v)

/-- A CFG_RD of a register of a page. -/
def readRow (p : Fin 16) (h : Hdr) (page off : Nat) (s : State) : Host.Outcome State Fault Refusal :=
  .next (cfgRead s p h page off)

/-! ### Registers of every unit (R9, R10, R63, R404) -/

/-- A write to any register (R9, R10). -/
def execRegisterWrite (p : Fin 16) (h : Hdr) (page : Byte) (off : BitVec 12) (v : Word) (s : State) :
    Host.Outcome State Fault Refusal := writeRow p h page.toNat off.toNat v s

/-- A write to UNIT_ATTN clears the causes named (R63, R64). -/
def execUnitAttnClear (p : Fin 16) (h : Hdr) (page : Byte) (v : Word) (s : State) : Host.Outcome State Fault Refusal :=
  writeRow p h page.toNat 0x010 v s

/-- A write of RUN = 0 (R404). -/
def execUnitStopRequest (p : Fin 16) (h : Hdr) (page : Byte) (s : State) : Host.Outcome State Fault Refusal :=
  writeRow p h page.toNat 0x004 0 s

/-- A write of RUN = 1 ends or cancels a stop (R404, R405). -/
def execUnitRunRestart (p : Fin 16) (h : Hdr) (page : Byte) (s : State) : Host.Outcome State Fault Refusal :=
  writeRow p h page.toNat 0x004 1 s

/-- Nothing admitted uses octant k (Table 16-5). -/
def octIdle (s : State) (k : Nat) : Bool :=
  let o := oct s k
  o.held.isEmpty && o.jobs.isEmpty && o.queue.isEmpty && o.rsvBytes.isEmpty && o.rsvLocks.isEmpty &&
    !(s.disp.ops.any (fun e => !e.2.stopped && (octsOf e.2.mask).contains k))

/-- No ECC work is in flight and no slice runs or is queued (Table 16-5). -/
def eccIdle (s : State) : Bool :=
  s.ecc.repair.isNone && (List.range (nChan s)).all (fun ci =>
    let c := chan s ci
    let mine := fun (e : Entry) => match e.owner with | .writeBack => true | .patrol => true | .confirm => true | .remap => true | _ => false
    c.wbs.isEmpty && c.sliceq.isEmpty && c.running.isEmpty && !c.rq.any mine && !c.cmdq.any mine &&
      !c.inflight.any (fun f => match f.what with | .data e _ => mine e | .verify _ _ => true | _ => false))

/-- A stop requested is reached once its condition holds, and not during a recovery (R404). -/
def stopReached (s : State) (page : Nat) : State :=
  match unitOf s page with
  | some (.oct, k) =>
    if (oct s k).run = .stopReq ∧ !inRecovery s (.oct, k) = true ∧ octIdle s k = true then
      modOct s k (fun o => { o with run := .stopped }) else s
  | some (.ecc, _) =>
    if s.ecc.run = .stopReq ∧ !inRecovery s (.ecc, 0) = true ∧ eccIdle s = true then
      { s with ecc := { s.ecc with run := .stopped } } else s
  | _ => s

/-- A unit reaches STOPPED (R404, Table 16-5). -/
def execUnitStopped (page : Byte) (s : State) : Host.Outcome State Fault Refusal := .next (stopReached s page.toNat)

/-! ### Commits (R74, R104) -/

/-- The RGN commit (R74, R75). -/
def execRgnCommit (p : Fin 16) (h : Hdr) (s : State) : Host.Outcome State Fault Refusal := writeRow p h pgRgn 0x00C 1 s

/-- The ARB commit (R104, R105). -/
def execArbCommit (p : Fin 16) (h : Hdr) (s : State) : Host.Outcome State Fault Refusal := writeRow p h pgArb 0x00C 1 s

/-! ### HDL_OP (R84) -/

/-- HDL_OP with a command on a handle. -/
def hdlOpValue (cmd : Nat) (hd : BitVec 16) : Word := wordOf [(0, hd.toNat), (16, cmd)]

/-- CREATE (R84). -/
def execHdlOpCreate (p : Fin 16) (h : Hdr) (hd : BitVec 16) (s : State) : Host.Outcome State Fault Refusal :=
  writeRow p h pgHdl 0x080 (hdlOpValue 1 hd) s

/-- READ (R84). -/
def execHdlOpRead (p : Fin 16) (h : Hdr) (hd : BitVec 16) (s : State) : Host.Outcome State Fault Refusal :=
  writeRow p h pgHdl 0x080 (hdlOpValue 2 hd) s

/-- FREE (R84). -/
def execHdlOpFree (p : Fin 16) (h : Hdr) (hd : BitVec 16) (s : State) : Host.Outcome State Fault Refusal :=
  writeRow p h pgHdl 0x080 (hdlOpValue 3 hd) s

/-- The HDL_OP command completes once its store traffic has joined its command queues: BUSY falls and OP_DONE latches
(R84). -/
def hdlOpEnd (s : State) : State :=
  match s.hdl.op with
  | none => s
  | some o =>
    let hs := [o.handle.toNat, hParent o.image, hParent (hdlBytes s o.handle.toNat)]
    if !o.judged || (hs.any (hdlWriting s) && (o.cmd != 2)) then s
    else latch { s with hdl := { s.hdl with op := none, result := o.result } } pgHdl 1

/-- An HDL_OP command completes (R84). -/
def execHdlOpDone (s : State) : Host.Outcome State Fault Refusal := .next (hdlOpEnd s)

/-! ### Passport, tests, entropy (R226, R376, R377, R411) -/

/-- LINK_PP_OP READ (R226). -/
def execLinkPpOpRead (p : Fin 16) (h : Hdr) (addr : BitVec 18) (s : State) : Host.Outcome State Fault Refusal :=
  writeRow p h pgLink 0x060 (wordOf [(0, addr.toNat), (18, 1)]) s

/-- LINK_PP_OP PROG (R226). -/
def execLinkPpOpProg (p : Fin 16) (h : Hdr) (addr : BitVec 18) (s : State) : Host.Outcome State Fault Refusal :=
  writeRow p h pgLink 0x060 (wordOf [(0, addr.toNat), (18, 2)]) s

/-- TEST_MBIST_CTL (R376). -/
def execTestMbistGo (p : Fin 16) (h : Hdr) (v : Word) (s : State) : Host.Outcome State Fault Refusal :=
  writeRow p h pgTest 0x04C v s

/-- TEST_T1500_CTL (R377). -/
def execTestT1500Go (p : Fin 16) (h : Hdr) (v : Word) (s : State) : Host.Outcome State Fault Refusal :=
  writeRow p h pgTest 0x060 v s

/-- CH_NRF_CFG, with RESEED where bit 31 is set (R261, R264, R273). -/
def execNrfReseed (p : Fin 16) (h : Hdr) (c : Fin 64) (v : Word) (s : State) : Host.Outcome State Fault Refusal :=
  writeRow p h (chPage c) 0x068 v s

/-- A continuous health test of the entropy source fails (R411, Table 16-7). -/
def execEntropyHealthFail (t : HealthTest) (s : State) : Host.Outcome State Fault Refusal :=
  let s := bumpReg s pgSec 0x044 (match t with | .rct => 0 | .apt => 16) 16 1
  .next (latch { s with sec := { s.sec with health := false } } pgSec 0)

/-- After 1,024 samples that pass, the draws that wait are served (R411). -/
def execEntropyHealthRestored (s : State) : Host.Outcome State Fault Refusal :=
  .next (s.sec.waits.foldl nrfSeed { s with sec := { s.sec with health := true, waits := [] } })

/-! ### Channels, calibration, HK (R242, R274, R300) -/

/-- CH_ECC_INJ (R300). -/
def execChEccInjArm (p : Fin 16) (h : Hdr) (c : Fin 64) (v : Word) (s : State) : Host.Outcome State Fault Refusal :=
  writeRow p h (chPage c) 0x0A0 v s

/-- CAL_FORCE (R242). -/
def execCalForce (p : Fin 16) (h : Hdr) (n : Fin 4) (v : Word) (s : State) : Host.Outcome State Fault Refusal :=
  writeRow p h (calPage n) 0x058 v s

/-- HK_FREQ_REQ (R274). -/
def execHkFreqRequest (p : Fin 16) (h : Hdr) (v : Word) (s : State) : Host.Outcome State Fault Refusal :=
  writeRow p h pgHk 0x0C0 v s

/-! ### Clocks and time (R333, R336, R343, R346) -/

/-- BLK_RESET (R346). -/
def execBlkResetWarm (p : Fin 16) (h : Hdr) (v : Word) (s : State) : Host.Outcome State Fault Refusal :=
  writeRow p h pgBlk 0x04C v s

/-- A read of BLK_TIME_LO latches the high word (R343). -/
def execBlkTimeLoRead (p : Fin 16) (h : Hdr) (s : State) : Host.Outcome State Fault Refusal := readRow p h pgBlk 0x050 s

/-- CLK_GATEj (R333, R334). -/
def execClkGateWrite (p : Fin 16) (h : Hdr) (j : Fin 4) (v : Word) (s : State) : Host.Outcome State Fault Refusal :=
  writeRow p h pgClk (0x050 + 4 * j.val) v s

/-- CLK_FMEAS_CTL (R336). -/
def execClkFmeasGo (p : Fin 16) (h : Hdr) (v : Word) (s : State) : Host.Outcome State Fault Refusal :=
  writeRow p h pgClk 0x070 v s

/-! ### Log and performance monitor (R371, R385-R398) -/

/-- LOG_RD (R371). -/
def execLogRd (p : Fin 16) (h : Hdr) (v : Word) (s : State) : Host.Outcome State Fault Refusal := writeRow p h pgLog 0x060 v s

/-- LOG_MARK (R370). -/
def execLogMark (p : Fin 16) (h : Hdr) (v : Word) (s : State) : Host.Outcome State Fault Refusal := writeRow p h pgLog 0x080 v s

/-- PMU_CFG_SET (R385, R386). -/
def execPmuCfgSet (p : Fin 16) (h : Hdr) (v : Word) (s : State) : Host.Outcome State Fault Refusal := writeRow p h pgPmu 0x044 v s

/-- A read of PMU_CNTi_LO latches the high bits and a stamp for its port (R394). -/
def execPmuCntLoRead (p : Fin 16) (h : Hdr) (i : Fin 368) (s : State) : Host.Outcome State Fault Refusal :=
  readRow p h pgPmu (0x400 + 8 * i.val) s

/-- A write of PMU_CNTi_HI stages the high bits for its port (R392). -/
def execPmuCntHiWrite (p : Fin 16) (h : Hdr) (i : Fin 368) (v : Word) (s : State) : Host.Outcome State Fault Refusal :=
  writeRow p h pgPmu (0x404 + 8 * i.val) v s

/-- A write of PMU_CNTi_LO loads the counter (R392). -/
def execPmuCntLoWrite (p : Fin 16) (h : Hdr) (i : Fin 368) (v : Word) (s : State) : Host.Outcome State Fault Refusal :=
  writeRow p h pgPmu (0x400 + 8 * i.val) v s

/-- A counter at its largest value takes one increment (R391). -/
def execCounterAtMax (i : Fin 368) (s : State) : Host.Outcome State Fault Refusal :=
  .next (if counterExists s i && counter s i == BitVec.allOnes 48 then counterAdd s i 1 else s)

/-- PMU_SMP_RD (R398). -/
def execPmuSmpRd (p : Fin 16) (h : Hdr) (v : Word) (s : State) : Host.Outcome State Fault Refusal := writeRow p h pgPmu 0x190 v s

/-- PMU_SMP_CTL, with CLR where bit 8 is set (R395, R396). -/
def execPmuSmpClr (p : Fin 16) (h : Hdr) (v : Word) (s : State) : Host.Outcome State Fault Refusal := writeRow p h pgPmu 0x180 v s

end Sys2Proof.Machine
end

