-- ==== Sys2Proof/Machine/SbRows.lean ====
section
/-! DEFINITION. The sideband at the stack: its registers, its passport and its answers to frames, and the repair records
that the LINK unit writes (R221-R227, Tables 8-8 to 8-10). -/

namespace Sys2Proof.Machine

/-! ### Registers of the stack (Tables 8-9, 9-1, 10-3, 11-11, 12-7) -/

/-- A stack register read: its word. An address that no table lists reads a free value (log 6). -/
def srRead (s : State) (ch : Byte) (a : Nat) : Word × State :=
  let c := ch.toNat
  if ch = sbAll then
    if (0x100 ≤ a ∧ a < 0x148) then
      (match Tab.find s.stack.temps a with | some w => (w, s) | none => takeFree 32 s)
    else if a = 0x150 then (s.stack.vmon, s)
    else if 0x160 ≤ a ∧ a < 0x164 then (0, s)
    else if a = 0x164 then (BitVec.ofNat 32 s.stack.scrEn.toNat, s)
    else takeFree 32 s
  else if nChan s ≤ c then takeFree 32 s
  else
    let x := stk s c
    if a < 0x00A then (BitVec.ofNat 32 (Tab.get x.cmdCe a 0), s)
    else if a = 0x010 then (BitVec.ofNat 32 (x.alertCause % 16 + x.alertCount % 2 ^ 24 * 256), s)
    else if a = 0x011 then (x.lnErr, s)
    else if a = 0x018 then (x.nrfCfg, s)
    else if a = 0x019 ∨ a = 0x01A then (0, s)
    else if 0x040 ≤ a ∧ a < 0x068 then (BitVec.ofNat 32 (Tab.get x.sref (a - 0x040) 0x80), s)
    else if 0x080 ≤ a ∧ a < 0x0C0 then (Tab.get x.remap (a - 0x080) 0, s)
    else takeFree 32 s

/-- A stack register write. An address that no table lists takes no effect (log 28). -/
def srWrite (s : State) (ch : Byte) (a : Nat) (v : Word) : State :=
  let c := ch.toNat
  if ch = sbAll then
    if 0x160 ≤ a ∧ a < 0x164 then
      let i := a - 0x160
      let k := (s.stack.keyLoad &&& ~~~((0xFFFFFFFF#128) <<< (32 * i))) ||| (v.setWidth 128 <<< (32 * i))
      { s with stack := { s.stack with keyLoad := k, key := if i = 3 then k else s.stack.key } }
    else if a = 0x164 then { s with stack := { s.stack with scrEn := v.getLsbD 0 } }
    else s
  else if nChan s ≤ c then s
  else
    modStk s c (fun x =>
      if a < 0x00A then (if v = 0 then { x with cmdCe := Tab.put x.cmdCe a 0 } else x)
      else if a = 0x011 then (if v = 0 then { x with lnErr := 0 } else x)
      else if a = 0x018 then { x with nrfCfg := v &&& 0xFB#32 }
      else if a = 0x019 then { x with seedLo := v }
      else if a = 0x01A then { x with gen := (v.setWidth 64 <<< 32) ||| x.seedLo.setWidth 64 }
      else if 0x040 ≤ a ∧ a < 0x068 then { x with sref := Tab.put x.sref (a - 0x040) (fieldNat v 0 8) }
      else if 0x080 ≤ a ∧ a < 0x0C0 then { x with remap := Tab.put x.remap (a - 0x080) (v &&& 0x0FFFFFFF#32) }
      else x)

/-! ### The stack's answers (R221, Table 8-8) -/

/-- A frame matches the transaction that the LINK unit has outstanding. -/
def sbMatches (x : Sb) (cmd : Nat) (ch : Byte) (addr : BitVec 24) (len : Nat) (ws : List Word) : Bool :=
  x.cmd == cmd && x.ch == ch && (cmd == 5 || x.addr == addr) && x.len == len && x.words == ws && x.resp.isNone

/-- The stack answers a frame; the answer belongs to the outstanding transaction where the frame is that one. -/
def sbAnswer (s : State) (cmd : Nat) (ch : Byte) (addr : BitVec 24) (len : Nat) (ws : List Word) (st : Byte)
    (out : List Word) : State :=
  match s.link.cur with
  | some x => if sbMatches x cmd ch addr len ws then
      { s with link := { s.link with cur := some { x with resp := some (st, out) } } } else s
  | none => s

/-- A list of words read one after the other. -/
def readWords (f : State → Nat → Word × State) (n : Nat) (s : State) : List Word × State :=
  (List.range n).foldl (fun (acc : List Word × State) i =>
    let (w, t) := f acc.2 i
    (acc.1 ++ [w], t)) ([], s)

/-! ### The passport as it is made (R223, R224, Table 8-10) -/

/-- A number's byte i. -/
def byteOf (n i : Nat) : Byte := BitVec.ofNat 8 (n / 256 ^ i)

/-- Byte i of the header but its CRC: the values that R223 fixes for the part, temperature points in rising order, and what the
maker chooses. -/
def headerByte (pt : Part) (i : Nat) : Byte :=
  if i < 4 then byteOf 0x4F4C5956 i
  else if i < 6 then byteOf 1 (i - 4)
  else if i = 18 then (if pt = .rosura64H then 16 else 12)
  else if i = 19 then (if pt = .rosura32 then 32 else 64)
  else if 20 ≤ i ∧ i < 23 then byteOf (if pt = .rosura64H then 98304 else 65536) (i - 20)
  else if i = 23 then 32
  else if i = 24 then 3 + (Config.passport 24 &&& 1#8)
  else if 25 ≤ i ∧ i < 29 then BitVec.ofInt 8 (40 * ((i : Int) - 26) + (Config.passport i &&& 31#8).toNat)
  else if 32 ≤ i ∧ i < 36 then byteOf 0x1000 (i - 32)
  else if 36 ≤ i ∧ i < 40 then byteOf 0x10000 (i - 36)
  else if 40 ≤ i ∧ i < 44 then byteOf 0x28000 (i - 40)
  else if 44 ≤ i ∧ i < 48 then byteOf 0x18000 (i - 44)
  else Config.passport i

/-- What a byte of the passport holds that has not been programmed since the stack was made: the header, the delay blocks with
their CRCs, and erased repair areas (R223, log 4). -/
def ppDflt (pt : Part) (a : Nat) : Byte :=
  if a < 252 then headerByte pt a
  else if a < 256 then byteOf (crc32 ((List.range 252).map (headerByte pt))).toNat (a - 252)
  else if a < 0x1000 then Config.passport a
  else if a < 0x10000 then
    let o := (a - 0x1000) % 192
    if o < 188 then Config.passport a
    else byteOf (crc32 ((List.range 188).map (fun i => Config.passport (a - o + i)))).toNat (o - 188)
  else 0xFF#8

/-- A byte of the passport. -/
def ppByte (pt : Part) (p : Tab Byte) (a : Nat) : Byte := match Tab.find p a with | some b => b | none => ppDflt pt a

/-- A little-endian word of the passport. -/
def ppWord (pt : Part) (p : Tab Byte) (a : Nat) : Word :=
  ppByte pt p (a + 3) ++ ppByte pt p (a + 2) ++ ppByte pt p (a + 1) ++ ppByte pt p a

/-- The passport with a word stored. -/
def ppStore (p : Tab Byte) (a : Nat) (w : Word) : Tab Byte :=
  (List.range 4).foldl (fun t i => Tab.put t (a + i) (field w (8 * i) 8)) p

/-- The passport with words stored from an address on. -/
def ppStoreAll (p : Tab Byte) (a : Nat) (ws : List Word) : Tab Byte := (ws.zipIdx).foldl (fun t e => ppStore t (a + 4 * e.2) e.1) p

/-- An address in the passport, a multiple of 4, with n words (R223). -/
def ppAddrOk (a n : Nat) : Bool := a % 4 == 0 && decide (a + 4 * n ≤ 2 ^ 18)

/-- Bytes of a repair area (Table 8-10). -/
def areaBytes : Nat := 0x18000
/-- Where a repair area lies: A or B (Table 8-10). -/
def areaBase (b : Bool) : Nat := if b then 0x28000 else 0x10000

/-- The passport with n bytes from a erased. -/
def ppErased (p : Tab Byte) (a n : Nat) : Tab Byte := p.filter (fun e => !(decide (a ≤ e.1 ∧ e.1 < a + n)))

/-! ### The stack's answers to a command (Table 8-8): status, words, and what it does -/

/-- An answer whose status the manual does not give (log 6). -/
def ansFree (s : State) : Byte × List Word × State := let (st, s) := takeFree 8 s; (st, [], s)

/-- REG_RD. -/
def ansRegRd (ch : Byte) (addr : BitVec 24) (len : Nat) (s : State) : Byte × List Word × State :=
  let (ws, s) := readWords (fun t i => srRead t ch (addr.toNat + i)) (len + 1) s
  (0#8, ws, s)

/-- REG_WR. -/
def ansRegWr (ch : Byte) (addr : BitVec 24) (ws : List Word) (s : State) : Byte × List Word × State :=
  (0#8, [], (ws.zipIdx).foldl (fun t e => srWrite t ch (addr.toNat + e.2) e.1) s)

/-- PP_RD. -/
def ansPpRd (addr : BitVec 24) (len : Nat) (s : State) : Byte × List Word × State :=
  if ppAddrOk addr.toNat (len + 1) then
    (0#8, (List.range (len + 1)).map (fun i => ppWord s.part s.stack.passport (addr.toNat + 4 * i)), s)
  else ansFree s

/-- PP_PROG: the stack is busy until the programming is done. -/
def ansPpProg (addr : BitVec 24) (ws : List Word) (s : State) : Byte × List Word × State :=
  if ppAddrOk addr.toNat ws.length then
    (0#8, [], { s with stack := { s.stack with passport := ppStoreAll s.stack.passport addr.toNat ws, ppBusy := true, ppFail := false
                                               ppWork := some (addr.toNat, 4 * ws.length) } })
  else ansFree s

/-- PP_STAT. -/
def ansPpStat (s : State) : Byte × List Word × State :=
  (0#8, [wordOf [(0, s.stack.ppBusy.toNat), (1, s.stack.ppFail.toNat)]], s)

/-- PP_ERASE of a repair area. -/
def ansPpErase (addr : BitVec 24) (s : State) : Byte × List Word × State :=
  if addr.toNat = areaBase false ∨ addr.toNat = areaBase true then
    (0#8, [], { s with stack := { s.stack with passport := ppErased s.stack.passport addr.toNat areaBytes, ppBusy := true
                                               ppFail := false, ppWork := some (addr.toNat, areaBytes) } })
  else ansFree s

/-- The wrapper's instruction after n bits have been shifted through it, bit 0 of the words first: the last 8 of them (R227,
log 87). -/
def wirShift (old : Byte) (n : Nat) (ws : List Word) : Byte :=
  let bit := fun (k : Nat) => if k < 8 then old.getLsbD k else (ws.getD ((k - 8) / 32) 0#32).getLsbD ((k - 8) % 32)
  (List.range 8).foldl (fun (acc : Byte) i => if bit (n + i) then acc ||| (1#8 <<< i) else acc) 0#8

/-- T1500: a shift through the WIR loads the wrapper's instruction, and the captured words are the wrapper's own (R227, R377,
log 6). -/
def ansT1500 (addr : BitVec 24) (ws : List Word) (s : State) : Byte × List Word × State :=
  let s : State := if addr.getLsbD 0 then s
    else { s with stack := { s.stack with wir := wirShift s.stack.wir (fieldNat addr 3 10) ws } }
  let (out, s) := readWords (fun t _ => takeFree 32 t) ws.length s
  (0#8, out, s)

/-- The stack's answer to a command by its code; a code that Table 8-8 does not list is BADCMD. -/
def sbAns (cmd : Nat) (ch : Byte) (addr : BitVec 24) (len : Nat) (ws : List Word) (s : State) : Byte × List Word × State :=
  match cmd with
  | 1 => ansRegRd ch addr len s
  | 2 => ansRegWr ch addr ws s
  | 3 => ansPpRd addr len s
  | 4 => ansPpProg addr ws s
  | 5 => ansPpStat s
  | 6 => ansPpErase addr s
  | 7 => ansT1500 addr ws s
  | _ => (2#8, [], s)

/-- A frame reaches a stack that is up, as it was sent, or with what the sideband has added to it: then its CRCs and its code
decide what the stack makes of it (R221). While the passport is being programmed every request but PP_STAT is answered BUSY
(Table 8-8). -/
def sbFrame (s : State) (cmd : Nat) (ch : Byte) (addr : BitVec 24) (len : Nat) (ws : List Word) (noise : BitVec 584)
    (f : State → Byte × List Word × State) : State :=
  let answer := fun (r : Byte × List Word × State) => sbAnswer r.2.2 cmd ch addr len ws r.1 r.2.1
  let run := fun (cmd : Nat) (f : State → Byte × List Word × State) => if s.stack.ppBusy && cmd != 5 then (3#8, [], s) else f s
  if !stackOn s then s
  else if noise = 0 then answer (run cmd f)
  else
    match sbReceive (sbRequest cmd len ch addr ws ^^^ noise) with
    | .refused st => answer (st, [], s)
    | .cmd c ch addr len ws => answer (run c (sbAns c ch addr len ws))

/-- REG_RD (Table 8-8). -/
def execSbRegRd (ch : Byte) (q : SbPlace) (len : BitVec 4) (s : State) : Host.Outcome State Fault Refusal :=
  .next (sbFrame s 1 ch q.addr len.toNat [] q.noise (ansRegRd ch q.addr len.toNat))

/-- REG_WR (Table 8-8). -/
def execSbRegWr (ch : Byte) (q : SbPlace) (ws : List Word) (s : State) : Host.Outcome State Fault Refusal :=
  .next (sbFrame s 2 ch q.addr (ws.length - 1) ws q.noise (ansRegWr ch q.addr ws))

/-- PP_RD (Table 8-8). -/
def execSbPpRd (q : SbPlace) (len : BitVec 4) (s : State) : Host.Outcome State Fault Refusal :=
  .next (sbFrame s 3 0 q.addr len.toNat [] q.noise (ansPpRd q.addr len.toNat))

/-- PP_PROG (Table 8-8). -/
def execSbPpProg (q : SbPlace) (ws : List Word) (s : State) : Host.Outcome State Fault Refusal :=
  .next (sbFrame s 4 0 q.addr (ws.length - 1) ws q.noise (ansPpProg q.addr ws))

/-- PP_STAT (Table 8-8). What the sideband adds to this frame comes with its response (DESIGN CHOICE, log 97). -/
def execSbPpStat (s : State) : Host.Outcome State Fault Refusal :=
  .next (sbFrame s 5 0 0 0 [] 0 ansPpStat)

/-- PP_ERASE (Table 8-8). -/
def execSbPpErase (q : SbPlace) (s : State) : Host.Outcome State Fault Refusal :=
  .next (sbFrame s 6 0 q.addr 0 [] q.noise (ansPpErase q.addr))

/-- T1500 (Table 8-8). -/
def execSbT1500 (q : SbPlace) (ws : List Word) (s : State) : Host.Outcome State Fault Refusal :=
  .next (sbFrame s 7 sbAll q.addr (ws.length - 1) ws q.noise (ansT1500 q.addr ws))

/-- Programming or erasing ends; where it failed, what was being written holds free values (Table 8-8). -/
def ppEnd (s : State) (fail : Bool) : State :=
  match s.stack.ppWork with
  | none => s
  | some (a, n) =>
    let s := if fail then (List.range n).foldl (fun t i =>
        let (v, t) := takeFree 8 t
        { t with stack := { t.stack with passport := Tab.put t.stack.passport (a + i) v } }) s
      else s
    { s with stack := { s.stack with ppBusy := false, ppFail := fail, ppWork := none } }

/-- The stack finishes programming or erasing its passport (Table 8-8). -/
def execPpProgramComplete (fail : Bool) (s : State) : Host.Outcome State Fault Refusal := .next (ppEnd s fail)

/-! ### Repair records (R223-R225, Table 8-10) -/

/-- The four words of a repair record. -/
def recordWords (seq kind ch bank spare row fails : Nat) : List Word :=
  let n := seq % 2 ^ 32 + (kind % 256) * 2 ^ 32 + (ch % 256) * 2 ^ 40 + (bank % 256) * 2 ^ 48 + (spare % 256) * 2 ^ 56 +
    (row % 2 ^ 24) * 2 ^ 64 + (fails % 256) * 2 ^ 88
  let v := BitVec.ofNat 128 n
  let c := crc16 ((List.range 14).map (fun i => field v (8 * i) 8))
  let v := v ||| (c.setWidth 128 <<< 112)
  (List.range 4).map (fun i => field v (32 * i) 32)

/-- Records that a repair area holds (Table 8-10). -/
def areaRecords : Nat := 6144

/-- A word group is programmed as repair work of the LINK unit. -/
def queueRecord (s : State) (addr : Nat) (ws : List Word) : State := sbQueue s 3 4 0 addr 3 ws

/-- Live repair records: each remap or fence, and each retired spare (R225). -/
def liveRecords (s : State) : List (Nat × Nat × Nat × Nat × Nat × Nat) :=
  (List.range (nChan s)).flatMap (fun c =>
    ((chan s c).remap.map (fun e =>
      if e.2.fenced then (2, c, e.2.bank, 0xFF, e.2.row, e.2.fails) else (1, c, e.2.bank, e.2.spare, e.2.row, e.2.fails))) ++
    ((chan s c).dead.map (fun d => (3, c, d.1, d.2, 0, 0))))

/-- Compaction of the repair records into the other area: erase, every live record behind the first place, and last, in
the first place, the SEAL, with which the area becomes the active one (R224, R225; log 29). -/
def compact (s : State) : State :=
  let area := !s.link.ppDest
  let live := liveRecords s
  let s := sbQueue s 3 6 0 (areaBase area) 0 []
  let s := (live.zipIdx).foldl (fun t e =>
    let (k, c, b, sp, row, f) := e.1
    queueRecord t (areaBase area + 16 * (e.2 + 1)) (recordWords (s.link.ppSeq + 2 + e.2) k c b sp row f)) s
  let n := live.length
  let s := queueRecord s (areaBase area) (recordWords (s.link.ppSeq + 1) 4 0 0 0xFF 0 0)
  { s with link := { s.link with ppDest := area, ppSeq := s.link.ppSeq + n + 1, ppNext := n + 1, ppLive := n, ppBusy := true } }

/-- A repair's record goes to the passport; with the area full it is compacted, and with too many live records it is not
persisted (R225). -/
def persist (s : State) (kind ch bank spare row fails : Nat) : State :=
  let live := (liveRecords s).length
  let s := { s with link := { s.link with ppLive := min live areaRecords } }
  if areaRecords - 1 < live then latch s pgLink 2
  else if s.link.ppNext < areaRecords then
    let ws := recordWords (s.link.ppSeq + 1) kind ch bank spare row fails
    queueRecord { s with link := { s.link with ppSeq := s.link.ppSeq + 1, ppNext := s.link.ppNext + 1, ppBusy := true } }
      (areaBase s.link.ppDest + 16 * s.link.ppNext) ws
  else compact s

end Sys2Proof.Machine
end

