-- ==== Sys2Proof/Machine/RepairRows.lean ====
section
/-! DEFINITION. Patrol scrub and row repair (R286, R292-R296, Tables 11-4 and 11-5). -/

namespace Sys2Proof.Machine

/-! ### Patrol (R286) -/

/-- A row belongs to the scrub set (R286). -/
def inScrubSet (s : State) (bank row : Nat) : Bool :=
  decide (hdlRow0 s ≤ row) || (match footRegion s bank row with | some r => r.scrub | none => false)

/-- The patrol's reads of a row's 32 sectors, eight to an entry (R108, R284). -/
def patrolReads (s : State) (c bank row : Nat) : State :=
  enqueueAll s ((List.range 4).map (fun i =>
    newEntry s .patrol 20 .mt (synthDl s .mt) false false
      { idx := 0, place := { ch := c, bank := bank, row := row, col := 8 * i }, vault := rowVault s bank row, data := [], mask := [], n := 8 }))

/-- The next place of a channel's patrol. -/
def patrolNext (s : State) (c : Chan) : Chan :=
  if c.patrolBank < 15 then { c with patrolBank := c.patrolBank + 1 }
  else { c with patrolBank := 0, patrolRow := if c.patrolRow + 1 < rowsPerBank s then c.patrolRow + 1 else 0 }

/-- A visit is counted; a pass ends after the last one (Table 11-7). -/
def visitCount (s : State) : State :=
  let n := s.ecc.visits + 1
  if n < patrolVisits s * nChan s then { s with ecc := { s.ecc with visits := n } }
  else { s with ecc := { s.ecc with visits := 0, passes := s.ecc.passes + 1 } }

/-- The patrol works: scrub is on, and the ECC unit, the block and the stack serve it (R286, R298, R318, R404). -/
def patrolRuns (s : State) : Bool :=
  regB s pgEcc 0x040 1 && !eccStopping s && s.blk.st == .ready && s.thm.tripPh == 0

/-- Ticks between two visits: PERIOD, of at least 15 minutes, over the visits of a pass (R286, Table 11-7). -/
def patrolGap (s : State) : Nat := max 15 (regF s pgEcc 0x048 0 16) * 15000000000 / patrolVisits s

/-- The channel's next visit time has come (R286). -/
def patrolDue (s : State) (c : Chan) : Bool := decide (c.patrolAt + patrolGap s ≤ s.time.tick)

/-- A visit of channel c's patrol (R286). -/
def patrolVisit (s : State) (ci : Nat) : State :=
  let c := chan s ci
  if !patrolRuns s || !patrolDue s c then s
  else
    let p : Place := { ch := ci, bank := c.patrolBank, row := c.patrolRow, col := 0 }
    let s := if inScrubSet s p.bank p.row && !fenced s p then patrolReads s ci p.bank p.row else s
    visitCount (modChan s ci (fun c => { patrolNext s c with patrolAt := s.time.tick }))

/-- A patrol visit (R286). -/
def execPatrolVisit (c : Fin 64) (s : State) : Host.Outcome State Fault Refusal := onChan s c (fun s => patrolVisit s c)

/-! ### The remap table (R293) -/

/-- SR_REMAPe as the block writes it (Table 11-11). -/
def remapWord (r : Remap) : Word := wordOf [(0, 1), (1, r.fenced.toNat), (2, r.bank), (6, r.row), (23, r.spare)]

/-- An entry of a channel's remap table is set, and written to the stack (R294, R295). -/
def setRemap (s : State) (c e : Nat) (r : Remap) : State :=
  sbWrite (modChan s c (fun x => { x with remap := Tab.put x.remap e r })) 1 (BitVec.ofNat 8 c) (0x080 + e) [remapWord r]

/-- SPARE_LOW latches when a bank's free spares, n of them before, have fallen to the limit (Table 11-8). -/
def spareLow (n : Nat) (s : State) (c bank : Nat) : State :=
  let m := (freeSpares (chan s c) bank).length
  if m < n ∧ m ≤ regF s pgEcc 0x060 0 6 then latch s pgEcc 0 else s

/-- A spare is retired: it is logged, and its record goes to the passport (R293, R225). -/
def retireSpare (s : State) (c bank spare : Nat) : State :=
  let n := (freeSpares (chan s c) bank).length
  let s := modChan s c (fun x => { x with dead := x.dead ++ [(bank, spare)] })
  persist (spareLow n (logEv s 0x0302 (chPage c) .warn (wordOf [(4, bank), (8, spare)])) c bank) 3 c bank spare 0 0

/-- The entry that a row has or may take: its own, or the lowest free one of 64. -/
def remapSlot (c : Chan) (bank row : Nat) : Option Nat :=
  match remapOf c bank row with
  | some (e, _) => some e
  | none => (List.range 64).find? (fun e => (Tab.find c.remap e).isNone)

/-- The row's hold ends. -/
def unhold (s : State) (f : RowFail) : State :=
  modChan s f.ch (fun c => { c with heldRows := c.heldRows.filter (fun h => h != (f.bank, f.row)) })

/-! ### Fences (R295) -/

/-- A place lies in a failed row. -/
def RowFail.holds (f : RowFail) (p : Place) : Bool := decide (p.ch = f.ch ∧ p.bank = f.bank ∧ p.row = f.row)

/-- Queued writes and Liner entries of a fenced row are discarded, and queued reads are answered (R295). -/
def fenceQueues (s : State) (f : RowFail) : State :=
  let c := chan s f.ch
  let lost := c.cmdq.filter (fun e => e.write && f.holds e.place) != [] || c.liner.any (fun l => f.holds l.place)
  let reads := c.cmdq.filter (fun e => !e.write && f.holds e.place)
  let waiting := (c.liner.filter (fun l => f.holds l.place && l.vault.isSome)).flatMap (·.reqs)
  let s := setChan s f.ch { c with cmdq := c.cmdq.filter (fun e => !f.holds e.place), liner := c.liner.filter (fun l => !f.holds l.place)
                                   wbs := c.wbs.filter (fun w => !f.holds w.place) }
  let s := reads.foldl (fun t e => hdlWake (serveFenced t e) e) s
  let s := waiting.foldl (fun t id => partsDone (poisonReq t id 1#8) id 1) s
  if lost then latch s (chPage f.ch) 3 else s

/-- A row is fenced in entry e, as its failure number `fails` (R293, R295). -/
def fenceRow (s : State) (f : RowFail) (e fails : Nat) : State :=
  let old := remapOf (chan s f.ch) f.bank f.row
  let s := match old with
    | some (_, r) => if r.fenced then s else retireSpare s f.ch f.bank r.spare
    | none => s
  let s := setRemap s f.ch e { fenced := true, fails := fails, bank := f.bank, row := f.row, spare := 0 }
  let s := fenceQueues (unhold s f) f
  let s := logEv (latch s (chPage f.ch) 2) 0x0301 (chPage f.ch) .error (placeForm f.bank f.row)
  let s := bumpReg s pgEcc 0x054 16 16 1
  persist s 2 f.ch f.bank 0xFF f.row fails

/-! ### The sequence (R293, R294) -/

/-- The repair is over, and HK takes its next sequence. -/
def repairOver (s : State) : State :=
  { s with ecc := { s.ecc with repair := none }, hk := { s.hk with cur := none } }

/-- HK may take a repair of a row: no trip or recovery holds its channel (R270, R318, R404). -/
def repairReady (s : State) (f : RowFail) : Bool :=
  s.blk.st == .ready && s.thm.tripPh == 0 && s.hk.cur.isNone && !eccStopping s && !inRecovery s (.ch, f.ch)

/-- A remap may start: its bank is not reserved by a slice, and write-forbid does not hold (R294). -/
def remapMay (s : State) (f : RowFail) : Bool := !writeForbidden s && !reserved (chan s f.ch) f.bank

/-- HK takes the next row failure and applies the ladder (R293, Table 11-4). -/
def repairStart (s : State) : State :=
  match s.hk.waiting, s.ecc.queue with
  | .repair :: ws, f :: rest =>
    if !repairReady s f then s
    else
      let c := chan s f.ch
      let old := remapOf c f.bank f.row
      let free := freeSpares c f.bank
      let t := { s with hk := { s.hk with waiting := ws }, ecc := { s.ecc with queue := rest } }
      match remapSlot c f.bank f.row with
      | none => latch t pgEcc 1
      | some e =>
        let fails := match old with | some (_, r) => r.fails + 1 | none => 1
        (match free with
         | sp :: _ =>
           if 3 ≤ fails then fenceRow t f e fails
           else if !remapMay s f then s
           else
             let s := t
             let s := modChan s f.ch (fun x => { x with heldRows := x.heldRows ++ [(f.bank, f.row)] })
             let r : Repair :=
               { row := f, entry := e, spare := sp, fails := fails, tries := 0, ph := .quiet, got := [], checked := 0, bad := false }
             { s with hk := { s.hk with cur := some .repair }
                      ecc := { s.ecc with repair := some r } }
         | [] => fenceRow t f e fails)
  | _, _ => s

/-- HK takes a row failure from the repair queue (R292-R295). -/
def execRepairSequenceStart (s : State) : Host.Outcome State Fault Refusal := .next (repairStart s)

/-- Started transfers of the row are complete: no read of it is in flight, and no write of it is on the wires. -/
def rowQuiet (s : State) (f : RowFail) : Bool :=
  let c := chan s f.ch
  let sent := c.order - c.colOut.length
  !c.inflight.any (fun x => match x.what with | .data _ p => f.holds p | .verify p _ => f.holds p | _ => false) &&
    !c.replay.any (fun r => decide (sent < r.order) && ((replayEntry s r 0).map (fun e => f.holds e.place)).getD false)

/-- The copy begins once the row's started transfers are complete: the row's 32 sectors are read, as ECC traffic (R284,
Table 11-5, steps 2 and 3). -/
def remapCopy (s : State) : State :=
  match s.ecc.repair with
  | none => s
  | some r =>
    if r.ph != .quiet || !rowQuiet s r.row then s
    else
      let f := r.row
      let s : State := { s with ecc := { s.ecc with repair := some { r with ph := .read, got := [], checked := 0, bad := false } } }
      enqueueAll s ((List.range 4).map (fun i =>
        eccEntry s .remap false { idx := 0, place := { ch := f.ch, bank := f.bank, row := f.row, col := 8 * i }, data := [], mask := [], n := 8, vault := rowVault s f.bank f.row }))

/-- A remap takes effect: its entry names the spare, the old spare is retired, and the stack and the passport learn of it
(Table 11-5, steps 6 to 8). -/
def remapDone (s : State) (r : Repair) : State :=
  let f := r.row
  let old := remapOf (chan s f.ch) f.bank f.row
  let m : Remap := { fenced := false, fails := r.fails, bank := f.bank, row := f.row, spare := r.spare }
  let n := (freeSpares (chan s f.ch) f.bank).length
  let s := modChan s f.ch (fun c => { c with noSlice := c.noSlice ++ [f.bank] })
  let s := spareLow n (setRemap s f.ch r.entry m) f.ch f.bank
  let s := match old with | some (_, o) => retireSpare s f.ch f.bank o.spare | none => s
  let s := logEv (latch (unhold s f) (chPage f.ch) 4) 0x0300 (chPage f.ch) .notice (placeForm f.bank f.row)
  let s := bumpReg s pgEcc 0x054 0 16 1
  repairOver (persist s 1 f.ch f.bank r.spare f.row r.fails)

/-- A failed verify retires the spare, and the copy is tried once more with the next one; a second failure, or no spare
left, fences the row (Table 11-5, step 5). -/
def remapAgain (s : State) (r : Repair) : State :=
  let f := r.row
  let s := retireSpare s f.ch f.bank r.spare
  match freeSpares (chan s f.ch) f.bank with
  | sp :: _ =>
    if r.tries = 0 then { s with ecc := { s.ecc with repair := some { r with spare := sp, tries := 1, ph := .quiet, got := [], checked := 0, bad := false } } }
    else repairOver (fenceRow s f r.entry r.fails)
  | [] => repairOver (fenceRow s f r.entry r.fails)

/-- The verify has read the whole spare, and is judged (Table 11-5). -/
def remapTry (s : State) : State :=
  match s.ecc.repair with
  | none => s
  | some r =>
    if r.ph != .verify || decide (r.checked < 32) || inRecovery s (.ch, r.row.ch) || s.thm.tripPh != 0 then s
    else if r.bad then remapAgain s r
    else remapDone s r

/-- A remap's copy is verified and becomes active (R294, R295). -/
def execRemapActivate (s : State) : Host.Outcome State Fault Refusal := .next (remapTry s)

end Sys2Proof.Machine
end

