-- ==== Sys2Proof/Machine/CalRows.lean ====
section
/-! DEFINITION. Link calibration: interpolation, the tracking step, and the sweep of a wire (09). -/

namespace Sys2Proof.Machine

/-! ### Interpolation (R233-R235) -/

/-- A byte of the delay block of channel c at point p, as read at boot (Table 8-10). -/
def delayByte (s : State) (p c i : Nat) : Nat := (ppByte s.part s.link.tables (0x1000 + (p * nChan s + c) * 192 + i)).toNat

/-- Temperature points of the passport in °C (Table 8-10). -/
def tempPoints (s : State) : List Int :=
  (List.range (min 4 (ppByte s.part s.link.tables 24).toNat)).map (fun i => (ppByte s.part s.link.tables (25 + i)).toInt)

/-- interp of R234 over the values at the temperature points, T in 1/16 °C. -/
def interpAt (temps vs : List Int) (t : Int) : Int :=
  let last := temps.length - 1
  if t ≤ 16 * temps.getD 0 0 then vs.getD 0 0
  else if 16 * temps.getD last 0 ≤ t then vs.getD last 0
  else
    let i := ((List.range temps.length).filter (fun i => decide (16 * temps.getD i 0 ≤ t))).getLastD 0
    let span := 16 * (temps.getD (i + 1) 0 - temps.getD i 0)
    let num := (vs.getD (i + 1) 0 - vs.getD i 0) * (t - 16 * temps.getD i 0)
    vs.getD i 0 + (2 * num + span) / (2 * span)

/-- The temperature that the engine uses for channel c, in 1/16 °C (R233, Table 9-4). -/
def calTemp (s : State) (c : Nat) : Int :=
  (field (reg s (calPage (c / 16)) 0x054) (16 * (octOf c % 2)) 16 : BitVec 16).toInt

/-- The interpolated value of byte i of the delay blocks of channel c (R234). -/
def interp (s : State) (c i : Nat) : Int :=
  let ts := tempPoints s
  interpAt ts ((List.range ts.length).map (fun p => (delayByte s p c i : Int))) (calTemp s c)

/-- RDLY of wire w. -/
def rdlyAt (s : State) (c w : Nat) : Int := interp s c w
/-- WDLY of a data-type wire, CDLY of a command wire, KDLY of the wire clock. -/
def wdlyAt (s : State) (c w : Nat) : Int := interp s c (if w < 40 then 40 + w else 160 + (w - 40))
/-- BREF of wire w. -/
def brefAt (s : State) (c w : Nat) : Int := interp s c (80 + w)
/-- SREF of wire w. -/
def srefAt (s : State) (c w : Nat) : Int := interp s c (120 + w)

/-- A delay or code within 0 to 255 (R238). -/
def clamp255 (x : Int) : Int := max 0 (min 255 x)

/-- The cuff of a data-type wire (Table 8-1). -/
def wireCuff (w : Nat) : Nat :=
  if w < 32 then w / 8
  else if w < 34 then 0 else if w < 35 then 1 else if w < 37 then 2 else if w < 38 then 3 else if w = 38 then 1 else 3

/-- The drift of a cuff. -/
def cuffOf (x : Chan) (q : Nat) : Cuff := Tab.get x.cuffs q Cuff.reset

/-! ### Targets and applied values (R238) -/

/-- The targets of a wire (R238). -/
def retarget (s : State) (c w : Nat) : State :=
  modChan s c (fun x =>
    let r := x.wire w
    let d := (cuffOf x (wireCuff w)).d - r.driftAt
    if w < 40 then
      x.setWire w { r with rTarget := clamp255 (tapsAt s (rdlyAt s c w + r.rres + d))
                           wTarget := clamp255 (tapsAt s (wdlyAt s c w + r.wres + d)), bTarget := clamp255 (brefAt s c w) }
    else x.setWire w { r with wTarget := clamp255 (tapsAt s (wdlyAt s c w)) })

/-- One step towards a target. -/
def towards (x t : Int) : Int := if x < t then x + 1 else if t < x then x - 1 else x

/-- The applied values of a wire move by at most one step; a wire under a mitten keeps its delays (R238). -/
def applyStep (x : Chan) (w : Nat) : Chan :=
  let r := x.wire w
  let r := { r with bApplied := towards r.bApplied r.bTarget }
  x.setWire w (if r.mitten then r else { r with rApplied := towards r.rApplied r.rTarget, wApplied := towards r.wApplied r.wTarget })

/-- The applied values of a wire become its targets at once (R236, R270). -/
def applyNow (x : Chan) (w : Nat) : Chan :=
  let r := x.wire w
  x.setWire w { r with rApplied := r.rTarget, wApplied := r.wTarget, bApplied := r.bTarget }

/-- Every wire of every channel takes its targets at once (R236, R270). -/
def applyAll (s : State) : State :=
  forN (nChan s) (fun t c => modChan (forN 51 (fun u w => retarget u c w) t) c (fun x => (List.range 51).foldl applyNow x)) s

/-! ### Drift and tracking in place (R239, R241) -/

/-- The engine is served by CALREF (R239, R240). -/
def usesExt (s : State) (n : Nat) : Bool := regB s (calPage n) 0x040 0 && !(cal s n).fallback

/-- A data-type wire is in service: not failed, not covered, not under a mitten; a spare is while it carries a wire
(R239). -/
def wireInService (x : Chan) (w : Nat) : Bool :=
  if w < 38 then let r := x.wire w; !r.failed && !r.covered && !r.mitten
  else let sp := x.spare (w - 38); sp.wire.isSome && !sp.failed

/-- Transitions that a wire can show in a step: eight bits to each read burst. -/
def maxTransitions (x : Chan) (wires : Nat) : Nat := 8 * x.stepBursts * wires

/-- Early and late transitions of a step: free values within what the bursts can show (R239, log 6). -/
def edgeCounts (s : State) (m : Nat) : (Nat × Nat) × State :=
  let (a, s) := takeFree 32 s
  let (b, s) := takeFree 32 s
  let early := a.toNat % (m + 1)
  ((early, b.toNat % (m - early + 1)), s)

/-- The drift of cuff q after a step under STAT (R239). -/
def statDrift (s : State) (c q : Nat) : State :=
  let x := chan s c
  let ws := (List.range 40).filter (fun w => wireCuff w == q && wireInService x w)
  let ((early, late), s) := edgeCounts s (maxTransitions x ws.length)
  let d := (cuffOf x q).d
  let e : Int := early
  let l : Int := late
  let v : Cuff := if early + late < 1024 then { d := d, held := true }
    else if e + l < 8 * (l - e) then { d := d + 1, held := false }
    else if e + l < 8 * (e - l) then { d := d - 1, held := false }
    else { d := d, held := false }
  modChan s c (fun y => { y with cuffs := Tab.put y.cuffs q v })

/-- The drift of cuff q after a step under EXT: the detector's change is a free value (R239, log 6). -/
def extDrift (s : State) (c q : Nat) : State :=
  let (v, s) := takeFree 2 s
  modChan s c (fun x =>
    let d := (cuffOf x q).d
    { x with cuffs := Tab.put x.cuffs q { d := if v = 1#2 then d + 1 else if v = 2#2 then d - 1 else d, held := false } })

/-- The read residual of a wire that is tracked in place (R241). -/
def trackWire (s : State) (c w : Nat) : State :=
  let x := chan s c
  if !inPlace s c w || !wireInService x w then s
  else
    let ((early, late), s) := edgeCounts s (maxTransitions x 1)
    let e : Int := early
    let l : Int := late
    let step : Int := if early + late < 256 then 0 else if e + l < 8 * (l - e) then 1 else if e + l < 8 * (e - l) then -1 else 0
    modChan s c (fun y =>
      let r := y.wire w
      y.setWire w { r with rres := r.rres + step, rresShown := r.rres + step })

/-- A channel at a CAL_STEP boundary (R238, R239, R241). -/
def stepChan (s : State) (n c : Nat) : State :=
  let s := forN 4 (fun t q => if usesExt t n then extDrift t c q else statDrift t c q) s
  let s := forN 40 (fun t w => trackWire t c w) s
  let s := forN 51 (fun t w => retarget t c w) s
  modChan s c (fun x => { (List.range 51).foldl applyStep x with stepBursts := 0 })

/-- Calibration of the block runs: tracking has started, and the stack is not lost (R252, R298). -/
def calRuns (s : State) (n : Nat) : Bool :=
  regB s (calPage n) 0x040 1 && s.clk.coreRun && s.thm.tripPh == 0 && s.hk.freq == .none &&
    (s.blk.st == .ready || (s.blk.st == .boot && decide (12 ≤ s.blk.step)))

/-- An engine's CAL_STEP boundary (R238). -/
def calStep (s : State) (n : Nat) : State :=
  let e := cal s n
  if !calRuns s n || decide (s.time.tick < e.stepAt + max 250 (regF s (calPage n) 0x044 0 12)) then s
  else forN 16 (fun t i => stepChan t n (16 * n + i)) (setCal s n { e with stepAt := s.time.tick })

/-- An event of a calibration engine that the part has. -/
def onCal (s : State) (n : Nat) (f : State → State) : Host.Outcome State Fault Refusal :=
  if n < nCal s then .next (f s) else .fault .absentUnit

/-- At each CAL_STEP the engine recomputes its targets and moves the applied delays (R238). -/
def execCalStepBoundary (n : Fin 4) (s : State) : Host.Outcome State Fault Refusal := onCal s n (fun s => calStep s n)

/-! ### The order of sweeps (R242) -/

/-- Channel c's wire w is skipped (R242). -/
def sweepSkips (s : State) (c w : Nat) : Bool :=
  let x := chan s c
  let sp := x.spare (wireHalf w)
  decide (nChan s ≤ c) || (x.wire w).failed || sp.taken || sp.failed || x.pd == .powerdown || x.pd == .selfRefresh ||
    inRecovery s (.ch, c)

/-- Step i of an engine's loop: its wire and its channel offset. -/
def sweepAt (i : Nat) : Nat × Nat := (i / 16, i % 16)

/-- Steps of the loop from `lo` on that are not skipped. -/
def sweepsFrom (s : State) (n lo : Nat) : List Nat :=
  (List.range 608).filter (fun i => decide (lo ≤ i) && !sweepSkips s (16 * n + i % 16) (i / 16))

/-- A cycle of the loop is complete. -/
def countPass (e : CalEng) : CalEng := { e with resume := 0, passes := min 65535 (e.passes + 1) }

/-- The wire that is swept next, with the engine as it stands after the choice: the forced one, else the loop's next. -/
def nextSweep (s : State) (n : Nat) : Option (Nat × Nat × CalEng) :=
  let e := cal s n
  let e0 := { e with forced := none }
  let loop : Option (Nat × Nat × CalEng) :=
    match sweepsFrom s n e.resume with
    | i :: _ => some ((sweepAt i).1, (sweepAt i).2, { e0 with resume := i + 1 })
    | [] =>
      match sweepsFrom s n 0 with
      | i :: _ => some ((sweepAt i).1, (sweepAt i).2, { countPass e0 with resume := i + 1 })
      | [] => none
  match e.forced with
  | some (w, o) => if sweepSkips s (16 * n + o) w then loop else some (w, o, e0)
  | none => loop

/-! ### A sweep (R243-R247) -/

/-- The wire's record after a write probe was judged or discarded: a field that the sweep has not measured keeps its value, and
STALE shows it (R246, R253, R254). -/
def sweepRecord (s : State) (c w : Nat) (eye : Option Nat) (probed : Bool) : State :=
  modChan s c (fun x =>
    let r := x.wire w
    x.setWire w { r with reye := eye.getD r.reye, rresShown := r.rres, lowShown := r.low, stale := eye.isNone || !probed
                         sweeps := min 65535 (r.sweeps + 1) })

/-- A probe whose reading has not come before the wire's next sweep is discarded, and counted; a reading that still comes is
dropped (R246). -/
def discardProbe (s : State) (n c w : Nat) : State :=
  let e := cal s n
  match e.pendErr.find? (fun p => p.wire == w && p.ch == c && p.st != .dropped) with
  | none => s
  | some p =>
    let s := setCal s n { e with pendErr := if p.st = .lost then e.pendErr.erase p
                                  else e.pendErr.map (fun q => if q = p then { q with st := .dropped } else q) }
    sweepRecord (bumpReg s (calPage n) 0x05C 0 16 1) c w p.eye false

/-- Grid position i of the read scan around c (R245). -/
def gridPos (centre : Int) (i : Nat) : Int := centre - 40 + 2 * i

/-- The tap of dwell `pos`: the 41 grid positions, then the single taps beyond the outermost open ones (R245). -/
def scanTap (e : CalEng) : Option Int :=
  if e.pos < 41 then some (gridPos e.centre e.pos)
  else
    let grid := e.openPos.filter (fun p => (p - e.centre) % 2 = 0)
    let lo := grid.foldl min (grid.headD 0)
    let hi := grid.foldl max (grid.headD 0)
    if grid.isEmpty then none
    else if e.pos = 41 then (if e.centre - 40 < lo then some (lo - 1) else none)
    else (if hi < e.centre + 40 then some (hi + 1) else none)

/-- A sweep starts (R243, R246): the next wire goes under the mitten. -/
def sweepStart (s : State) (n : Nat) : State :=
  if (cal s n).active || !calRuns s n || !regB s (calPage n) 0x040 2 then s
  else
    match nextSweep s n with
    | none => s
    | some (w, o, e) =>
      let c := 16 * n + o
      let s := discardProbe (setCal s n e) n c w
      let x := chan s c
      let r := x.wire w
      let edge := if r.probeRight then r.er else r.el
      let probe := clamp255 (tapsAt s (wdlyAt s c w + edge + ((cuffOf x (wireCuff w)).d - r.driftAt)))
      let e := { cal s n with wire := w, chofs := o, active := true, phase := .scan, pos := 0, centre := r.rTarget, openPos := []
                              oldR := r.rApplied, oldW := r.wApplied, oldRres := r.rres, oldDrift := r.driftAt, vfail := false, found := none }
      let s := setCal s n e
      steer (modChan s c (fun x => x.setWire w { r with wApplied := probe, rApplied := clamp255 (gridPos r.rTarget 0), mitten := true }))
        c (wireHalf w) (some w) true

/-- A sweep starts (R243). -/
def execSweepTakeOver (n : Fin 4) (s : State) : Host.Outcome State Fault Refusal := onCal s n (fun s => sweepStart s n)

/-- Runs of consecutive open taps between lo and hi; a tap between two neighbouring open grid positions is open
(R245). -/
def eyeRuns (centre : Int) (open_ : List Int) : List (Int × Int) :=
  let isOpen := fun (p : Int) => open_.contains p ||
    (!decide ((p - centre) % 2 = 0) && open_.contains (p - 1) && open_.contains (p + 1))
  let taps := (List.range 83).map (fun (i : Nat) => centre - 41 + (i : Int))
  (taps.foldl (fun (acc : List (Int × Int)) p =>
    if !isOpen p then acc
    else match acc with
      | (a, b) :: rest => if b + 1 = p then (a, p) :: rest else (p, p) :: acc
      | [] => [(p, p)]) []).reverse

/-- The eye of a scan: its width and the scan result. Among runs of the same greatest width the choice is free (R245,
log 6). -/
def scanEye (s : State) (e : CalEng) : (Nat × Int) × State :=
  let runs := eyeRuns e.centre e.openPos
  let width := fun (r : Int × Int) => (r.2 - r.1 + 1).toNat
  let w := runs.foldl (fun m r => max m (width r)) 0
  let best := runs.filter (fun r => width r == w)
  let k := Config.freeNat best.length s.free % max 1 best.length
  let s := { s with free := s.free + 1 }
  match best[k]? with
  | some r => ((w, (r.1 + r.2 + 1) / 2), s)
  | none => ((0, e.oldR), s)

/-- The stack counts the PRBS7 mismatches of the slots that carried no write burst on the wire under the sweep, as long as its
PAT = 1 (R244). -/
def idlePrbs (s : State) (c h prbs : Nat) : State :=
  modStk s c (fun x => if ((x.lane h).modeAt s.time.cyc).pat then { x with lnErr := x.lnErr + BitVec.ofNat 32 prbs } else x)

/-- A scan position's dwell ends (R245). -/
def dwellEnd (s : State) (n bursts : Nat) (mismatch : Bool) (prbs : Nat) : State :=
  let e := cal s n
  if !e.active || e.phase != .scan || decide (43 ≤ e.pos) then s
  else
    let s := idlePrbs s (16 * n + e.chofs) (wireHalf e.wire) prbs
    let tap := scanTap e
    let isOpen := decide (24 ≤ bursts) && !mismatch && (match tap with | some p => decide (0 ≤ p ∧ p ≤ 255) | none => false)
    let e := { e with pos := e.pos + 1, openPos := if isOpen then e.openPos ++ tap.toList else e.openPos }
    let (found, s) := if e.pos = 43 then (fun (p : (Nat × Int) × State) => (some p.1, p.2)) (scanEye s e) else (none, s)
    let e := { e with found := found }
    let s := setCal s n e
    modChan s (16 * n + e.chofs) (fun x =>
      x.setWire e.wire { x.wire e.wire with rApplied := (match (if e.pos < 43 then scanTap e else none) with
        | some p => clamp255 p | none => (x.wire e.wire).rApplied) })

/-- A scan position's dwell ends and is judged open or closed (R245). -/
def execScanPositionDwellEnd (n : Fin 4) (bursts : Nat) (seen : DwellSeen) (s : State) :
    Host.Outcome State Fault Refusal :=
  onCal s n (fun s => dwellEnd s n bursts seen.mismatch seen.prbs)

/-- The scan is done: the wire takes the scan result and returns to data for the verify (R243). -/
def sweepBack (s : State) (n : Nat) : State :=
  let e := cal s n
  match e.found with
  | none => s
  | some (_, res) =>
    if !e.active || e.phase != .scan then s
    else
      let c := 16 * n + e.chofs
      let s := setCal s n { e with phase := .verify }
      let s := modChan s c (fun x =>
        let r := x.wire e.wire
        x.setWire e.wire { r with rApplied := clamp255 res, wApplied := r.wTarget })
      steer s c (wireHalf e.wire) (some e.wire) false

/-- The wire returns to data for the verify phase (R243). -/
def execSweepReturn (n : Fin 4) (s : State) : Host.Outcome State Fault Refusal := onCal s n (fun s => sweepBack s n)

/-- MIN and FAIL_SWEEPS of an engine (Table 9-4). -/
def eyeMin (s : State) (n : Nat) : Nat := max 1 (min 63 (regF s (calPage n) 0x048 0 8))
/-- Low sweeps that fail a wire. -/
def failSweeps (s : State) (n : Nat) : Nat := max 1 (regF s (calPage n) 0x048 8 4)

/-- The verify ends: the residual takes the scan result, or the read delay returns (R247); the wire fails on its last low
sweep (R249), else the spare is released. -/
def sweepFree (s : State) (n bursts : Nat) (mismatch : Bool) : State :=
  let e := cal s n
  match e.found with
  | none => s
  | some (w, res) =>
    if !e.active || e.phase != .verify || decide (bursts < 24) then s
    else
      let c := 16 * n + e.chofs
      let r := (chan s c).wire e.wire
      let narrow := decide (w < eyeMin s n)
      let low := narrow || mismatch
      let r := { r with low := if low then r.low + 1 else 0 }
      let r := if mismatch then { r with rApplied := e.oldR }
        else if w = 0 then r
        else { r with rres := res * 2 ^ s.hk.point - rdlyAt s c e.wire, driftAt := (cuffOf (chan s c) (wireCuff e.wire)).d }
      let s := setCal s n { e with phase := .wait, vfail := mismatch }
      let s := modChan s c (fun x => x.setWire e.wire r)
      let s := if mismatch then bumpReg s (calPage n) 0x05C 16 16 1 else s
      let s := if narrow then latch s (calPage n) 3 else s
      if failSweeps s n ≤ r.low then wireFail s c e.wire 1
      else
        steer s c (wireHalf e.wire) none false

/-- The verify phase ends (R247, R249). -/
def execSweepRelease (n : Fin 4) (bursts : Nat) (mismatch : Bool) (s : State) : Host.Outcome State Fault Refusal :=
  onCal s n (fun s => sweepFree s n bursts mismatch)

/-- The sweep ends: SR_LN_ERR is to be read, and a cycle that has nothing left to sweep is complete (R242, R243, R246). -/
def sweepDone (s : State) (n : Nat) : State :=
  let e := cal s n
  if !e.active || e.phase != .wait then s
  else
    let c := 16 * n + e.chofs
    let r := (chan s c).wire e.wire
    let eye := if e.vfail then none else e.found.map (fun f => f.1 * 2 ^ s.hk.point)
    let e : CalEng := { e with active := false, phase := .idle, pendErr := e.pendErr ++ [{ wire := e.wire, ch := c, right := r.probeRight, eye := eye, st := .waiting }] }
    let s := setCal s n (if (sweepsFrom s n e.resume).isEmpty && decide (0 < e.resume) then countPass e else e)
    let s := modChan s c (fun x => x.setWire e.wire { r with mitten := false, probeRight := !r.probeRight })
    sbQueue s 2 1 (BitVec.ofNat 8 c) 0x011 0 []

/-- The sweep ends (R243). -/
def execSweepEnd (n : Fin 4) (s : State) : Host.Outcome State Fault Refusal := onCal s n (fun s => sweepDone s n)

/-- The mismatch count of a probe moves the probed edge, and the wire's record is updated (R246, R249, R254). -/
def probeJudge (s : State) (n : Nat) (p : Probe) (diff : Word) : State :=
  let closed := decide (16 < diff.toNat)
  let r := (chan s p.ch).wire p.wire
  let el := if p.right then r.el else if closed then r.el + 1 else r.el - 1
  let er := if p.right then (if closed then r.er - 1 else r.er + 1) else r.er
  let we := er - el + 1
  let narrow := decide (tapsAt s we < eyeMin s n)
  let r := { r with el := el, er := er, wres := (el + er + 1) / 2, weye := we.toNat, wlow := if narrow then r.wlow + 1 else 0 }
  let s := sweepRecord (modChan s p.ch (fun x => x.setWire p.wire r)) p.ch p.wire p.eye true
  let s := if narrow then latch s (calPage n) 3 else s
  if failSweeps s n ≤ r.wlow then wireFail s p.ch p.wire 2 else s

/-- A reading of SR_LN_ERR is in: the count is the difference from the reading before, modulo 2^32. The readings of a channel
come in the order in which they were asked for; one whose probe was discarded moves nothing (R246, R248). -/
def lnErrRead (s : State) (n : Nat) : State :=
  let e := cal s n
  match e.lnGot with
  | [] => s
  | (c, count) :: rest =>
    let diff := count - Tab.get e.lastErr (c % 16) 0#32
    let e := { e with lnGot := rest, lastErr := Tab.put e.lastErr (c % 16) count }
    match e.pendErr.find? (fun p => p.ch == c && p.st != .lost) with
    | none => setCal s n e
    | some p =>
      let s := setCal s n { e with pendErr := e.pendErr.erase p }
      if p.st = .dropped then s else probeJudge s n p diff

/-- The oldest reading of SR_LN_ERR that has come over the sideband is `count`. -/
def lnErrIs (s : State) (n : Nat) (count : Word) : Bool := ((cal s n).lnGot.head?.map (·.2)) == some count

/-- The SR_LN_ERR read of a swept wire completes with the reading `count`: the one that the sideband has brought (R246). -/
def execSrLnErrReading (n : Fin 4) (count : Word) (s : State) : Host.Outcome State Fault Refusal :=
  onCal s n (fun s => if lnErrIs s n count then lnErrRead s n else s)

end Sys2Proof.Machine
end

