-- ==== Sys2Proof/Machine/PowerRows.lean ====
section
/-! DEFINITION. Power-down, self-refresh and frequency changes of the link (10). -/

namespace Sys2Proof.Machine

/-! ### Power-down (R265, R266) -/

/-- The conditions of R265 hold now. -/
def pdQuiet (s : State) (ci : Nat) : Bool :=
  let e := cal s (ci / 16)
  chanEmpty (chan s ci) && !(e.active && decide (16 * (ci / 16) + e.chofs = ci)) && s.hk.freq == .none && s.thm.tripPh == 0 &&
    !(chan s ci).halted && s.blk.st == .ready

/-- Every half is closed or closing in time. -/
def allClosed (s : State) (c : Chan) : Bool := c.halves.all (fun h => h.2.idleAt s.time.cyc)

/-- Idle time before power-down in ticks (Table 10-7). -/
def pdIdle (s : State) (c : Nat) : Nat := max 25 (regF s (chPage c) 0x070 16 12)

/-- The wire clock stops tCKSRE after the last UI of the PDE or SRE that goes out next (Table 10-4). -/
def wckStopAt (s : State) (c : Nat) : Nat := rowSlot s c + 2 * slotLen s + 25

/-- A channel on its way to power-down: idle for PD_IDLE it starts to pull in refreshes, and once these are done, its
writes confirmed and its halves closed, PDE goes out; work that arrives ends the sequence (R265). -/
def pdEnter (s : State) (ci : Nat) : State :=
  let c := chan s ci
  if !pdQuiet s ci then
    modChan s ci (fun x => { x with idleSince := none, pd := if x.pd == .pulling || x.pd == .confirming then .active else x.pd })
  else
    match c.pd, c.idleSince with
    | .active, some t =>
      if regB s (chPage ci) 0x070 0 && decide (t + pdIdle s ci ≤ s.time.tick) && inService s ci then
        modChan s ci (fun x => { x with pd := .pulling })
      else s
    | .confirming, _ =>
      if pulledIn c && c.inflight.isEmpty && allClosed s c && rowFree s ci then
        sendRow (modChan (bumpReg s (chPage ci) 0x074 16 16 1) ci (fun x => { x with pd := .powerdown, wckOff := some (wckStopAt s ci) })) ci
          (.pde ⟨chanFin ci, 0⟩)
      else s
    | _, _ => s

/-- A channel idle for PD_IDLE goes into power-down (R265). -/
def execPowerdownEntry (c : Fin 64) (s : State) : Host.Outcome State Fault Refusal := onChan s c (fun s => pdEnter s c)

/-- tCKPDX and tXP in core cycles (Table 10-4). -/
def ckpdx : Nat := 40
/-- PDX to the next command. -/
def txp : Nat := 60

/-- The wire clock restarts, PDX goes out tCKPDX later, and the first command tXP after its last UI (R266). -/
def pdWake (s : State) (ci : Nat) : State :=
  match (chan s ci).pd with
  | .powerdown =>
    let t := rowSlotFrom s ci (s.time.cyc + ckpdx)
    sendRowFrom (modChan s ci (fun x => { x with pd := .active, wckOff := none, wakeAt := some (t + 2 * slotLen s + txp) })) ci t
      (.pdx ⟨chanFin ci, 0⟩)
  | .pulling => modChan s ci (fun x => { x with pd := .active })
  | .confirming => modChan s ci (fun x => { x with pd := .active })
  | _ => s

/-- A channel in power-down has work, or the debt of a bank has risen to 0 (R266). -/
def wakeWanted (c : Chan) : Bool := !chanEmpty c || (List.range 16).any (fun b => decide (0 ≤ (c.bank b).debt))

/-- A channel leaves power-down (R266). -/
def execPowerdownExit (c : Fin 64) (s : State) : Host.Outcome State Fault Refusal :=
  onChan s c (fun s => if (chan s c).pd == .powerdown && wakeWanted (chan s c) then pdWake s c else s)

/-! ### Self-refresh (R268) -/

/-- The stack's commands are the block's to send: the link is loaded and the stack not lost (R298, R350). -/
def linkLive (s : State) : Bool := s.blk.st == .ready || (s.blk.st == .boot && decide (10 ≤ s.blk.step))

/-- No refresh is owed, no neighbour refresh waits and every bank is closed or paused: SRE may follow (R263, R268). -/
def quietBanks (s : State) (ci : Nat) : Bool :=
  let c := chan s ci
  c.nrfq.isEmpty && (List.range 16).all (fun b => decide ((c.bank b).debt ≤ 0 ∧ (c.bank b).owed = 0)) && allClosed s c &&
    c.running.all (fun e => e.2.banks == e.2.pausedBanks)

/-- SRE on a channel, whose wire clock stops tCKSRE later (R268, Table 10-6). -/
def sleepChan (s : State) (ci : Nat) : State :=
  sendRow (modChan s ci (fun x => { x with pd := .selfRefresh, wckOff := some (wckStopAt s ci) })) ci (.sre ⟨chanFin ci, 0⟩)

/-- The first due time of a bank that has not passed. -/
def dueFrom (s : State) (k : Bank) (b : Nat) : Nat :=
  let per := 2 * rowsPerBank s
  let i := ((s.time.tick - k.t0) * per / refWindow k.x2 - b) / 16
  if s.time.tick < dueAt s k.t0 k.x2 b i then i
  else if s.time.tick < dueAt s k.t0 k.x2 b (i + 1) then i + 1 else i + 2

/-- A bank after SRX: its debt is 0, and due times that passed in self-refresh count for nothing (R268). -/
def freshBank (s : State) (b : Nat) (k : Bank) : Bank :=
  { k with debt := 0, owed := 0, gauntlet := false, afterSlice := false, due := max k.due (dueFrom s k b) }

/-- A paused slice that resumes: the time of the pause does not count (R271, R318). -/
def unpause (now : Nat) (x : Slice) : Slice :=
  { x with pausedBanks := 0, pausedAt := none, pausedFor := x.pausedFor + (now - x.pausedAt.getD now) }

/-- The paused banks of a channel's running slices, each with its context. -/
def pausedBanks (c : Chan) : List (Nat × Nat) :=
  c.running.flatMap (fun e => ((List.range 16).filter (fun b => e.2.pausedBanks.getLsbD b)).map (fun b => (e.1, b)))

/-- SRX on a channel at the current point; after tXS its debts are 0 and its paused slices resume, or, where a recovery
holds the channel, that recovery's row commands go out (R268, R270, R272, R319, R361). -/
def wakeChan (s : State) (ci : Nat) : State :=
  let c := chan s ci
  let s := sendRow s ci (.srx ⟨chanFin ci, 0⟩ (BitVec.ofNat 2 s.hk.point))
  let s := if c.halted then recovRow s ci (alertRecov s ci)
    else (pausedBanks c).foldl (fun t e => sendRow t ci (.slr ⟨chanFin ci, 0⟩ (bitFin e.1) (bankFin e.2))) s
  modChan s ci (fun (x : Chan) =>
    let x : Chan := { x with halves := x.halves.map (fun (h : Nat × Half) => (h.1, { h.2 with st := .idle })) }
    let x := (List.range 16).foldl (fun y b => y.setBank b (freshBank s b (y.bank b))) x
    let x := (pausedBanks c).foldl (fun y e => y.both e.2 (fun h => { h with st := .reserved })) x
    { x with pd := .active, wakeAt := none, wckOff := none, running := x.running.map (fun (e : Nat × Slice) => (e.1, unpause s.time.cyc e.2)) })

/-- Every channel leaves self-refresh (R270, R319). -/
def wakeStack (s : State) : State := forN (nChan s) wakeChan s

/-! ### Frequency changes (R270-R274) -/

/-- The default timing words of a point (Table 5-4). -/
def timWords (point : Nat) : List Word :=
  [0x6E4B2323#32, 0x081E861E#32,
   if point = 0 then 0x040A0402#32 else if point = 1 then 0x080A0804#32 else 0x100A1008#32, 0x00000190#32]

/-- The target point's default timing goes into the inactive set of every channel (Table 10-6). -/
def loadDefaults (s : State) (point : Nat) : State :=
  forN (nChan s) (fun t c =>
    let base := if regB t (chPage c) 0x120 0 then 0x100 else 0x110
    (timWords point).zipIdx.foldl (fun u w => setReg u (chPage c) (base + 4 * w.2) w.1) t) s

/-- A drain begins in a channel: it leaves power-down and abandons its sweep (R248, R270, R317). -/
def drainChan (s : State) (c : Nat) : State := sweepAbandonOn (pdWake s c) c

/-- HK starts the change that heads its queue; one to the current point ends with RESULT SAME (R270, R274). -/
def freqBegin (s : State) : State :=
  match s.hk.waiting with
  | .freq p ld :: rest =>
    if s.hk.cur.isSome || s.thm.w == .trip || s.thm.tripPh != 0 || s.blk.st != .ready || !s.clk.coreRun then s
    else if p = s.hk.point then { s with hk := { s.hk with waiting := rest, freqBusy := false, freqResult := 2 } }
    else
      let s := { s with hk := { s.hk with waiting := rest, cur := some (.freq p ld), freq := .drain
                                          freqStart := s.time.tick } }
      let s := if ld then loadDefaults s p else s
      forN (nChan s) (fun t c => evictAll (drainChan t c) c (fun _ => true)) s
  | _ => s

/-- A frequency change starts, and with it the drain (R270). -/
def execFreqChangeStart (s : State) : Host.Outcome State Fault Refusal := .next (freqBegin s)

/-- A channel has done its part of step 1 (Table 10-6). The change goes on over a channel that a recovery holds; only one from
ALERT ends within the step (R272). -/
def freqDrained (s : State) (ci : Nat) : Bool :=
  let c := chan s ci
  quietBanks s ci && (c.halted && !alertRecov s ci ||
    (c.liner.isEmpty && c.inflight.isEmpty && decide (unconfirmed c = 0) && !c.halted &&
      (c.rq ++ c.cmdq).all (fun e => !e.owner.isEvict)))

/-- The last channel is drained: self-refresh, the divider, the timing sets and the delays follow (Table 10-6). -/
def freqSwap (s : State) : State :=
  match s.hk.cur with
  | some (.freq p _) =>
    if s.hk.freq != .drain || !(List.range (nChan s)).all (freqDrained s) then s
    else
      let s := forN (nChan s) sleepChan s
      let s := { s with hk := { s.hk with freq := .selfRefresh, point := p } }
      let s := forN (nChan s) (fun t c => setRegF t (chPage c) 0x120 0 1 (1 - regF t (chPage c) 0x120 0 1)) s
      applyAll s
  | _ => s

/-- The drain of a frequency change is done (R270). -/
def execFreqDrainDone (s : State) : Host.Outcome State Fault Refusal := .next (freqSwap s)

/-! ### The trip's start (R316, R317) -/

/-- The trip sequence starts: THERM_TRIP_N falls, the state is TRIP, and every channel drains (R317). -/
def tripStart (s : State) (i : Nat) : State :=
  let s := logEv s 0x0501 pgThm .fatal (BitVec.ofNat 32 (i + intBits 16 (sensor s i).heldVal * 65536))
  let s := latch s pgThm 5
  let s := if s.thm.tstep = 0 then latch s pgThm 1 else s
  let s := { s with pins := { s.pins with thermTripN := false }
                    thm := { s.thm with w := .trip, tstep := 7, clear := 0, tripPh := 1, tripRounds := 0, tripClear := 0, tripWait := false } }
  let s := abandonRepair s
  let s := overrides s
  if linkLive s then forN (nChan s) drainChan s else s

/-! ### The change's end -/

/-- After SRX and tXS the change is complete, and a trip that waited for it starts (R270, R317). -/
def freqEnd (s : State) : State :=
  let n := s.time.tick - s.hk.freqStart
  let s := { s with hk := { s.hk with freq := .none, cur := none, freqBusy := false, freqResult := 0
                                      freqCount := min 65535 (s.hk.freqCount + 1), freqLast := n, freqMax := max s.hk.freqMax n } }
  if s.thm.tripWait then tripStart s s.thm.tripSensor else s

/-- The frequency change resumes service (R270). -/
def execFreqChangeResume (s : State) : Host.Outcome State Fault Refusal :=
  .next (if s.hk.freq == .selfRefresh && s.clk.coreRun then freqEnd (wakeStack (restartWindows s)) else s)

end Sys2Proof.Machine
end

