-- ==== Sys2Proof/Machine/ThermRows.lean ====
section
/-! DEFINITION. Temperature and power supervision: rounds, the cross-check, write-forbid, throttling, trips and the
power stage (12). -/

namespace Sys2Proof.Machine

/-! ### Sensors (R302-R305, R351) -/

/-- The DRAM sensors, by their register index (Table 12-9). -/
def dramSensors (s : State) : List Nat :=
  List.range 48 ++ (if s.part = .rosura64H then (List.range 16).map (64 + ·) else [])

/-- Every temperature sensor of the part. -/
def allSensors (s : State) : List Nat := dramSensors s ++ (List.range 12).map (48 + ·)

/-- The die of a DRAM sensor. -/
def dieOf (i : Nat) : Nat := if i < 48 then i / 4 else 12 + (i - 64) / 4

/-- The sensor of quadrant q of die d. -/
def dieSensor (d q : Nat) : Nat := if d < 12 then 4 * d + q else 64 + 4 * (d - 12) + q

/-- The neighbours of a sensor (R304). -/
def sensorNeighbours (s : State) (i : Nat) : List Nat :=
  if 48 ≤ i ∧ i < 56 then [48 + (i - 48 + 7) % 8, 48 + (i - 48 + 1) % 8]
  else if 56 ≤ i ∧ i < 60 then ((List.range 4).map (56 + ·)).filter (fun j => j != i)
  else
    let d := dieOf i
    let q := i % 4
    [dieSensor d (q ^^^ 1), dieSensor d (q ^^^ 2)] ++ (if 0 < d then [dieSensor (d - 1) q] else []) ++
      (if d + 1 < nDies s then [dieSensor (d + 1) q] else [])

/-- The state with a sensor's record replaced. -/
def setSensor (s : State) (i : Nat) (x : Sensor) : State := { s with thm := { s.thm with sens := Tab.put s.thm.sens i x } }

/-- The round reads dies 12 to 15: rounds are counted from the first after step 8 of boot begins (R302). -/
def oddRound (s : State) : Bool := decide (2 ≤ s.thm.rounds8) && s.thm.rounds8 % 2 == 0

/-- The sensor that the slot reads; none for an electrical slot, or before step 8 of boot (Table 12-1, R351). -/
def slotSensor (s : State) : Option Nat :=
  let i := s.thm.slot
  if 60 ≤ i then none
  else if 56 ≤ i then some i
  else if !s.thm.started then none
  else if i < 16 ∧ s.part = .rosura64H ∧ oddRound s = true then some (64 + i)
  else some i

/-- The stack register that a sensor is read from (Table 12-1); none for a block-die sensor. -/
def sensorReg (i : Nat) : Option Nat :=
  if i < 48 then some (0x100 + i) else if i < 56 then some (0x140 + (i - 48)) else if i < 64 then none else some (0x130 + (i - 64))

/-- A sensor's record after a reading, or after a missing one (R303, R305, R351). -/
def Sensor.read (x : Sensor) (r : Option (BitVec 16)) : Sensor :=
  match r with
  | some v => { x with readNow := true, rvalid := true, reading := v.toInt, seen := true
                       heldVal := if x.st = .good ∨ x.seen = false then v.toInt else x.heldVal }
  | none => { x with readNow := true, rvalid := false }

/-- The sensor that a stack register holds. -/
def regSensor (a : Nat) : Nat := if a < 0x130 then a - 0x100 else if a < 0x140 then 64 + (a - 0x130) else 48 + (a - 0x140)

/-- THM has a sensor's reading, or finds it missing (R303). -/
def takeReading (s : State) (i : Nat) (r : Option (BitVec 16)) : State := setSensor s i ((sensor s i).read r)

/-- A sensor register of the stack shows what its sensor measures now, with VALID where that is something (Table 8-9). -/
def showTemp (s : State) (a : Nat) (r : Option (BitVec 16)) : State :=
  let s := forN (nChan s) srAdvance s
  let w := match r with | some v => wordOf [(0, v.toNat), (16, 1)] | none => 0#32
  { s with stack := { s.stack with temps := Tab.put s.stack.temps a w } }

/-- A housekeeping read of the stack's register a is queued, unless one of it waits still (R222, R302). -/
def poll (s : State) (a : Nat) : State :=
  let mine := fun (x : Sb) => x.user == 1 && x.cmd == 1 && x.addr == BitVec.ofNat 24 a
  if s.link.queue.any mine || (s.link.cur.map mine).getD false then s else sbQueue s 1 1 sbAll a 0 []

/-! ### Levels (R307-R314) -/

/-- The effective upper write limit (R307). -/
def wrHi (s : State) : Int := min (field (reg s pgThm 0x050) 0 16 : BitVec 16).toInt 0x690
/-- The effective lower write limit (R307). -/
def wrLo (s : State) : Int := max (field (reg s pgThm 0x050) 16 16 : BitVec 16).toInt 0
/-- The Brim in 1/16 °C. -/
def brimDeg (s : State) : Int := 16 * regF s pgThm 0x054 0 2
/-- The Brim time in ms per second. -/
def brimTime (s : State) : Nat := min 20 (regF s pgThm 0x054 8 5)
/-- The effective throttle level (Table 12-9). -/
def throtT (s : State) : Int := max 0x3C0 (min 0x5F0 (field (reg s pgThm 0x04C) 0 16 : BitVec 16).toInt)
/-- The effective hysteresis of write-forbid (Table 12-9). -/
def throtHyst (s : State) : Int := max 0x10 (min 0x50 (regF s pgThm 0x04C 16 8))

/-- Held values of the DRAM sensors that have one. -/
def heldDram (s : State) : List Int := (((dramSensors s).map (sensor s)).filter (·.seen)).map (·.heldVal)
/-- HOT of the held values. -/
def hotNow (s : State) : Int := (heldDram s).foldl max ((heldDram s).headD 0)
/-- COLD of the held values. -/
def coldNow (s : State) : Int := (heldDram s).foldl min ((heldDram s).headD 0)

/-- BRIM's conditions hold (Table 12-3). -/
def brimOk (s : State) : Bool :=
  decide (brimDeg s ≠ 0 ∧ brimTime s ≠ 0 ∧ hotNow s ≤ wrHi s + brimDeg s ∧ wrLo s ≤ coldNow s ∧
    brimTime s * 250 ≤ s.thm.budget)

/-- The write state changes. -/
def setW (s : State) (w : WSt) : State := { s with thm := { s.thm with w := w } }

/-- The state under write-forbid: BRIM where its conditions hold, else HOLD (Table 12-3, R313). -/
def forbidState (s : State) : State :=
  if brimOk s then bumpReg (latch (setW s .brim) pgThm 3) pgThm 0x058 16 16 1 else setW s .hold

/-- The trip condition at a reading of sensor i (R317). -/
def tripDue (s : State) (i : Nat) : Bool :=
  decide (1840 ≤ (sensor s i).heldVal) && (sensorNeighbours s i).any (fun j => (sensor s j).seen && decide (1680 ≤ (sensor s j).heldVal))

/-- A trip starts, or waits for the frequency change in progress (R317, R270). -/
def tripCheck (s : State) (i : Nat) : State :=
  if s.thm.w == .trip || !tripDue s i then s
  else if s.hk.freq == .none then tripStart s i
  else { s with thm := { s.thm with tripWait := true, tripSensor := i } }

/-- Write-forbid starts at a held value outside the limits (R308). -/
def forbidCheck (s : State) (v : Int) : State :=
  if s.thm.forbid || decide (wrLo s ≤ v ∧ v ≤ wrHi s) then s
  else
    let s := latch { s with thm := { s.thm with forbid := true } } pgThm 2
    if s.thm.w == .open_ then forbidState s else s

/-- BRIM is left for HOLD at a reading above HI + DEG or below LO (Table 12-3). -/
def brimCheck (s : State) (v : Int) : State :=
  if s.thm.w == .brim && !decide (wrLo s ≤ v ∧ v ≤ wrHi s + brimDeg s) then setW s .hold else s

/-- The levels that are evaluated at each DRAM reading; they take effect from the first boundary after step 8 (R307,
R351). -/
def levelCheck (s : State) (i : Nat) : State :=
  let x := sensor s i
  if !x.seen || decide (s.thm.rounds8 = 0) || decide (48 ≤ i ∧ i < 64) then s
  else brimCheck (forbidCheck (tripCheck s i) x.heldVal) x.heldVal

/-! ### Slots (Table 12-1) -/

/-- A PMBus reading of kind k is not older than two rounds (R303). -/
def pmbCurrent (s : State) (k : Nat) : Bool :=
  match Tab.find s.pwr.pmbFresh k with | some n => decide (s.thm.round ≤ n + 2) | none => false

/-- A missing PMBus reading of the round is noted (R310). -/
def pmbSlot (s : State) (ks : List Nat) : State :=
  if ks.all (pmbCurrent s) then s else { s with thm := { s.thm with missNow := true } }

/-- SR_VMON has been read, or could not be (R322, Table 12-7). -/
def vmonRead (s : State) (r : Option Word) : State :=
  match r with
  | some v =>
    if v.getLsbD 8 then { s with pwr := { s.pwr with margin := fieldNat v 0 8, marginValid := true } }
    else { s with pwr := { s.pwr with marginValid := false } }
  | none => { s with pwr := { s.pwr with marginValid := false } }

/-- Slot 62: SR_VMON shows what the stack measures now, and is read over the sideband (Table 12-1). -/
def vmonSlot (s : State) (r : Option (BitVec 16)) : State :=
  poll { s with stack := { s.stack with vmon := (r.getD 0#16).setWidth 32 } } 0x150

/-- A housekeeping read of the stack's register a has ended: with its word, or abandoned (R303, R322). -/
def polled (s : State) (a : Nat) (w : Option Word) : State :=
  if a = 0x150 then vmonRead s w
  else
    let r := match w with | some v => if v.getLsbD 16 then some (field v 0 16) else none | none => none
    levelCheck (takeReading s (regSensor a) r) (regSensor a)

/-- The slot's measurement: a sensor of the stack shows its temperature and is read over the sideband, one of the block's own
die is read at once (Table 12-1). -/
def slotReading (s : State) (r : Option (BitVec 16)) : State :=
  match slotSensor s with
  | some i =>
    (match sensorReg i with
     | some a => poll (showTemp s a r) a
     | none => levelCheck (takeReading s i r) i)
  | none =>
    match s.thm.slot with
    | 60 => pmbSlot s [0]
    | 61 => pmbSlot s [1]
    | 62 => vmonSlot s r
    | 63 => pmbSlot s [2, 3, 4]
    | _ => s

/-- Ticks of a slot of 16 µs (R302). -/
def slotTicks : Nat := 4000

/-- A slot begins, 16 µs after the one before it, and takes its measurement (R302). -/
def execThmSlotMeasurement (reading : Option (BitVec 16)) (s : State) : Host.Outcome State Fault Refusal :=
  .next (if 64 ≤ s.thm.slot ∨ s.time.tick < s.thm.slotAt then s
    else
      let s := slotReading s reading
      { s with thm := { s.thm with slot := s.thm.slot + 1, slotAt := s.thm.slotAt + slotTicks } })

/-! ### The cross-check (R304, R305) -/

/-- A value put in its place in a rising list. -/
def insertInt (x : Int) : List Int → List Int
  | [] => [x]
  | y :: t => if x ≤ y then x :: y :: t else y :: insertInt x t

/-- The median of at least two values; of an even number, the mean of the middle two rounded down (R304). -/
def medianOf (xs : List Int) : Option Int :=
  let ys := xs.foldr insertInt []
  let n := ys.length
  if n < 2 then none
  else if n % 2 = 1 then some (ys.getD (n / 2) 0)
  else some ((ys.getD (n / 2 - 1) 0 + ys.getD (n / 2) 0) / 2)

/-- The value of a neighbour that is neither failed nor missing: its reading of the round, or the held value it last
took where the round does not read it (R302, R304). -/
def neighbourValue (s : State) (i : Nat) : Option Int :=
  let x := sensor s i
  if x.st == .failed then none
  else if x.readNow then (if x.rvalid then some x.reading else none)
  else if x.seen then some x.heldVal else none

/-- The median of a sensor's neighbours. -/
def neighbourMedian (s : State) (i : Nat) : Option Int := medianOf ((sensorNeighbours s i).filterMap (neighbourValue s))

/-- The held value after a round (R305). -/
def Sensor.hold (x : Sensor) (m : Option Int) : Sensor :=
  { x with heldVal := if x.st = .good ∧ x.rvalid = true then x.reading else if x.seen then m.getD x.heldVal else x.heldVal }

/-- A sensor's state and held value at a round boundary (R305). -/
def Sensor.crossed (x : Sensor) (m : Option Int) : Sensor :=
  let disagrees := !x.rvalid || (match m with | some v => decide (96 < (x.reading - v).natAbs) | none => false)
  let compared := !x.rvalid || m.isSome
  let y : Sensor :=
    match x.st with
    | .good =>
      let n := if !compared then x.dis else if disagrees then x.dis + 1 else 0
      if 4 ≤ n then { x with st := .suspect, dis := 0, srounds := 0 } else { x with dis := n }
    | .suspect =>
      let n := if !compared then x.dis else if disagrees then 0 else x.dis + 1
      if 4 ≤ n then { x with st := .good, dis := 0, srounds := 0 }
      else if 64 ≤ x.srounds + 1 then { x with st := .failed, dis := n, srounds := 64 }
      else { x with dis := n, srounds := x.srounds + 1 }
    | .failed => x
  y.hold m

/-- Every sensor that the round read is compared with its neighbours, all on the values of the round (R304, R305). -/
def crossCheck (s : State) : State :=
  (allSensors s).foldl (fun t i =>
    let x := sensor s i
    if !x.readNow then t
    else
      let y := x.crossed (neighbourMedian s i)
      let t := setSensor t i y
      if x.st = .good ∧ y.st = .suspect then latch t pgThm 6
      else if x.st = .suspect ∧ y.st = .failed then logEv (latch t pgThm 7) 0x0500 pgThm .warn (BitVec.ofNat 32 i)
      else t) s

/-- FAILED DRAM sensors. -/
def failedDram (s : State) : Nat := ((dramSensors s).filter (fun i => (sensor s i).st == .failed)).length

/-- Thermal protection becomes degraded (R306). -/
def degradeCheck (s : State) : State :=
  if s.thm.degraded || decide (failedDram s ≤ (if s.part = .rosura64H then 10 else 8)) then s
  else logEv (latch { s with thm := { s.thm with degraded := true } } pgThm 8) 0x0503 pgThm .error (BitVec.ofNat 32 (failedDram s))

/-! ### Rise and throttling (R307, R310) -/

/-- HOT, COLD and the rise over 8 rounds; none is evaluated in the first 8 rounds after boot or a trip (R307). -/
def riseCheck (s : State) : Option Int × State :=
  let h := hotNow s
  let rate : Option Int := if 8 ≤ s.thm.hist.length then some (125 * (h - s.thm.hist.headD 0) / 256) else none
  let hist := if s.blk.st == .boot then [] else (s.thm.hist ++ [h]).drop (s.thm.hist.length - 7)
  let t : State := { s with thm := { s.thm with hot := h, cold := coldNow s, hist := hist, rate := rate.getD s.thm.rate } }
  match rate with
  | some r => (rate, if decide ((max 1 (regF s pgThm 0x048 16 8) : Int) ≤ r) then latch t pgThm 0 else t)
  | none => (none, t)

/-- A throttle condition holds (R310). -/
def throttleHolds (s : State) (rate : Option Int) : Bool :=
  decide (throtT s < s.thm.hot) || (match rate with | some r => decide ((max 1 (min 32 (regF s pgThm 0x048 24 8)) : Int) ≤ r) | none => false) ||
    s.thm.statusSeen || decide (s.pwr.lowRnds = 16) || decide (4 ≤ s.thm.missPmb)

/-- TSTEP after a round; in TRIP it stays at 7 (R310, R317). -/
def throttle (s : State) (rate : Option Int) : State :=
  if s.thm.w == .trip then s
  else if throttleHolds s rate then
    let s := if s.thm.tstep = 0 then latch s pgThm 1 else s
    { s with thm := { s.thm with tstep := min 7 (s.thm.tstep + 1), clear := 0 } }
  else if 16 ≤ s.thm.clear + 1 then { s with thm := { s.thm with tstep := s.thm.tstep - 1, clear := 0 } }
  else { s with thm := { s.thm with clear := s.thm.clear + 1 } }

/-- Refresh doubling after a round (R256, R306). -/
def doubling (s : State) : State :=
  let cool := if s.thm.hot ≤ 1328 then min 4 (s.thm.coolRounds + 1) else 0
  let on := s.thm.degraded || decide (1360 < s.thm.hot) || (s.thm.x2 && decide (cool < 4))
  { s with thm := { s.thm with x2 := on, coolRounds := cool } }

/-! ### The core rail (R322) -/

/-- STEP of PWR_AVS_CFG in mV. -/
def avsStep (s : State) : Nat := max 1 (min 10 (regF s pgPwr 0x04C 16 4))
/-- MAX of PWR_VDD in mV. -/
def vddMax (s : State) : Nat := max 650 (min 900 (regF s pgPwr 0x048 0 12))

/-- The rail's adjustment at a round boundary; a missing margin leaves it unchanged (R322). -/
def railAdjust (s : State) : State :=
  let p := s.pwr
  let lo := regF s pgPwr 0x04C 0 8
  let hi := max lo (regF s pgPwr 0x04C 8 8)
  if !p.marginValid then s
  else if p.margin < lo then
    let n := min 16 (p.lowRnds + 1)
    let s := if n = 16 ∧ p.lowRnds ≠ 16 then latch s pgPwr 6 else s
    { s with pwr := { s.pwr with lowRnds := n, hiRnds := 0, vddNext := some (min 900 (p.vddCur + avsStep s)) } }
  else
    let n := if hi < p.margin then p.hiRnds + 1 else 0
    let down := max 650 (p.vddCur - avsStep s)
    if 16 ≤ n then { s with pwr := { p with lowRnds := 0, hiRnds := 0, vddNext := some down } }
    else if vddMax s < p.vddCur then { s with pwr := { p with lowRnds := 0, hiRnds := n, vddNext := some down } }
    else { s with pwr := { p with lowRnds := 0, hiRnds := n } }

/-! ### Buckets, references, temperatures of the link (R285, R240, R233, R219) -/

/-- A channel's bucket leaks, and CE_STORM latches again while it stands at the threshold (R285). -/
def bucketLeak (s : State) (c : Nat) : State :=
  let v := regF s (chPage c) 0x080 0 16 - 1
  let s := if regF s (chPage c) 0x080 0 16 = 0 then s else setRegF s (chPage c) 0x080 0 16 v
  if max 1 (regF s pgEcc 0x044 0 16) ≤ v then latch s (chPage c) 0 else s

/-- An engine's CALREF check; the count and the detector's lock are free values (R240, log 6). -/
def refCheck (s : State) (n : Nat) : State :=
  if !regB s (calPage n) 0x040 0 || !s.clk.coreRun then s
  else
    let (cnt, s) := takeFree 16 s
    let (lock, s) := takeFree 1 s
    let good := decide (4095 ≤ cnt.toNat ∧ cnt.toNat ≤ 4097) && lock == 1#1
    let e := cal s n
    if good then
      let g := min 8 (e.goodRounds + 1)
      setCal s n { e with extOk := true, extCount := cnt.toNat, goodRounds := g, fallback := e.fallback && decide (g < 8) }
    else latch (setCal s n { e with extOk := false, extCount := cnt.toNat, goodRounds := 0, fallback := true }) (calPage n) 2

/-- CAL_TEMP of an engine follows the base-die sensors of its octants (R233, Table 9-4). -/
def calTempUpdate (s : State) (n : Nat) : State :=
  (List.range 2).foldl (fun t i =>
    let x := sensor t (48 + 2 * n + i)
    if x.seen then setRegF t (calPage n) 0x054 (16 * i) 16 (intBits 16 x.heldVal) else t) s

/-- The command-counter read of a channel is queued once per round (R219). -/
def counterRead (s : State) (c : Nat) : State :=
  let mine := fun (x : Sb) => x.user == 2 && x.cmd == 1 && x.addr == 0#24 && x.ch.toNat == c
  if !stackOn s || s.link.queue.any mine || (s.link.cur.map mine).getD false then s
  else sbQueue s 2 1 (BitVec.ofNat 8 c) 0 9 []

/-! ### The end of write-forbid and of a trip (R308, R312, R319) -/

/-- Every held DRAM value lies within the limits less the hysteresis. -/
def forbidOver (s : State) : Bool :=
  (heldDram s).all (fun v => decide (wrLo s + throtHyst s ≤ v ∧ v ≤ wrHi s - throtHyst s))

/-- The write state at a round boundary (Table 12-3). -/
def forbidRound (s : State) : State :=
  if !s.thm.forbid then s
  else if forbidOver s then
    let s := { s with thm := { s.thm with forbid := false } }
    if s.thm.w == .trip then s else setW s .open_
  else if s.thm.w == .hold && brimOk s then forbidState s
  else s

/-- A round of a trip: 16 consecutive ones at or below the throttle level end it (R319). -/
def tripRound (s : State) : State :=
  if s.thm.tripPh = 0 then s
  else
    let n := if s.thm.hot ≤ throtT s then s.thm.tripClear + 1 else 0
    { s with thm := { s.thm with tripRounds := s.thm.tripRounds + 1, tripClear := n
                                 tripPh := if s.thm.tripPh = 2 ∧ 16 ≤ n then 3 else s.thm.tripPh } }

/-- What the levels decide at a round boundary, from the first after step 8 of boot on (R307, R351). -/
def roundLevels (s : State) : State :=
  let (rate, s) := riseCheck (degradeCheck (crossCheck s))
  tripRound (forbidRound (doubling (throttle s rate)))

/-- The rail, the count of missing PMBus readings and the levels at a round boundary (R307, R322). -/
def roundJudge (s : State) : State :=
  let s := railAdjust s
  let s : State := { s with thm := { s.thm with missPmb := if s.thm.missNow then s.thm.missPmb + 1 else 0 } }
  if s.thm.started then roundLevels s else s

/-- What each unit does once a round: error counts decay, references and calibration temperatures follow, and the stack's
counters are read (R219, R233, R240, R285). -/
def roundUnits (s : State) : State :=
  let s := forN (nChan s) bucketLeak (overrides s)
  let s := forN (nCal s) (fun t n => calTempUpdate (refCheck t n) n) s
  forN (nChan s) counterRead s

/-- The events a round counts (Table 15-3). -/
def roundCounts (s : State) : State :=
  let s := evBlk s 0x02 1 none
  if effStep s = 0 then s else evBlk s 0x05 1 none

/-- The next round begins with slot 0 (R302). -/
def roundTurn (s : State) : State :=
  { s with thm := { s.thm with slot := 0, round := s.thm.round + 1
                               rounds8 := if s.thm.started then s.thm.rounds8 + 1 else 0
                               sens := s.thm.sens.map (fun (e : Nat × Sensor) => (e.1, { e.2 with readNow := false }))
                               statusSeen := false, missNow := false } }

/-- The end of slot 63 (R302). -/
def roundEnd (s : State) : State := roundTurn (roundCounts (roundUnits (roundJudge s)))

/-- A round ends with its slot 63 (R302). -/
def execRoundBoundary (s : State) : Host.Outcome State Fault Refusal :=
  .next (if s.thm.slot < 64 ∨ s.time.tick < s.thm.slotAt then s else roundEnd s)

/-! ### The trip (R317-R319) -/

/-- The drain of a trip is done in a channel. -/
def tripDrained (s : State) (c : Nat) : Bool := (chan s c).pd == .selfRefresh || quietBanks s c

/-- SRE on every channel that is not in self-refresh yet (R317). -/
def tripSleep (s : State) : State :=
  if s.thm.tripPh ≠ 1 then s
  else if !linkLive s then { s with thm := { s.thm with tripPh := 2 } }
  else if (List.range (nChan s)).all (tripDrained s) then
    let s := forN (nChan s) (fun t c => if (chan t c).pd == .selfRefresh then t else sleepChan t c) s
    { s with thm := { s.thm with tripPh := 2 } }
  else s

/-- The trip's drain completes (R317). -/
def execTripSelfRefreshEntry (s : State) : Host.Outcome State Fault Refusal := .next (tripSleep s)

/-- The trip ends: the stack wakes, THERM_TRIP_N is released, and the write state follows Table 12-3 (R319). -/
def tripEnd (s : State) : State :=
  if s.thm.tripPh ≠ 3 || !s.clk.coreRun then s
  else
    let s := { s with thm := { s.thm with tripPh := 0, hist := [] }, pins := { s.pins with thermTripN := true } }
    let s := restartWindows s
    let s := if linkLive s then wakeStack s else s
    let s := if s.thm.forbid then forbidState s else setW s .open_
    let s := setRegF (bumpReg s pgThm 0x05C 0 16 1) pgThm 0x05C 16 16 (min 65535 s.thm.tripRounds)
    logEv s 0x0502 pgThm .notice (BitVec.ofNat 32 s.thm.tripRounds)

/-- The trip's exit (R319). -/
def execTripResume (s : State) : Host.Outcome State Fault Refusal := .next (tripEnd s)

/-- The Brim budget has reached 0 (R313). -/
def execBrimBudgetExhausted (s : State) : Host.Outcome State Fault Refusal :=
  .next (if s.thm.w == .brim && s.thm.budget == 0 && s.thm.budgetFrac == 0 then latch (setW s .hold) pgThm 4 else s)

/-! ### PMBus and AVSBus (R321-R323) -/

/-- A PMBus reading of kind k has completed. -/
def pmbDone (s : State) (k : Nat) : State := { s with pwr := { s.pwr with pmbFresh := Tab.put s.pwr.pmbFresh k s.thm.round } }

/-- The bus voltage is judged with its hysteresis (R323). -/
def vinCheck (s : State) (mv : Nat) : State :=
  if mv < 34000 ∨ 46000 < mv then
    let s := if s.pwr.vinOut then s else latch s pgPwr 1
    { s with pwr := { s.pwr with vinOut := true } }
  else if 34500 ≤ mv ∧ mv ≤ 45500 then { s with pwr := { s.pwr with vinOut := false } }
  else s

/-- STATUS_WORD has been read (Table 12-6, R323). -/
def statusRead (s : State) (w : BitVec 16) : State :=
  let warn := w.getLsbD 2 || w.getLsbD 14
  let bad := w &&& 0x78#16
  let new := bad &&& ~~~s.pwr.status
  let s := if warn then latch { s with thm := { s.thm with statusSeen := true } } pgPwr 2 else s
  let s := if bad = 0 then s else latch s pgPwr 3
  let s := if new ≠ 0 ∧ s.pins.stkPgood = true then logEv s 0x0511 pgPwr .error (w.setWidth 32) else s
  { s with pwr := { s.pwr with status := w, pmbOk := true }, pins := { s.pins with pmbAlertN := true } }

/-- A PMBus transaction ends (R321). -/
def pmbEnd (s : State) (r : PmbEnd) : State :=
  match r with
  | .vin v => vinCheck (pmbDone { s with pwr := { s.pwr with vin := v } } 0) v.toNat
  | .iin v => pmbDone { s with pwr := { s.pwr with iin := v } } 1
  | .iout v => pmbDone { s with pwr := { s.pwr with arrI := v } } 2
  | .temp v => pmbDone { s with pwr := { s.pwr with ctemp := v } } 3
  | .status w => statusRead (pmbDone s 4) w
  | .write => s
  | .fail => latch (bumpReg { s with pwr := { s.pwr with pmbOk := false } } pgPwr 0x064 16 16 1) pgPwr 4

/-- A PMBus transaction completes, or fails after its retries (R321). -/
def execPmbusTransactionDone (r : PmbEnd) (s : State) : Host.Outcome State Fault Refusal := .next (pmbEnd s r)

/-- PMB_ALERT_N falls; it stays low until STATUS_WORD, which PWR reads next, has been read (R321, log 73). -/
def execPmbAlert (s : State) : Host.Outcome State Fault Refusal :=
  .next { s with pins := { s.pins with pmbAlertN := false } }

/-- An AVSBus frame ends (R322). -/
def avsEnd (s : State) (r : AvsEnd) : State :=
  let ok := fun (p : Pwr) => { p with avsOk := true }
  match r with
  | .voltage v => { s with pwr := { ok s.pwr with coreV := v } }
  | .current v => { s with pwr := { ok s.pwr with coreI := v } }
  | .written => overrides { s with pwr := { ok s.pwr with vddCur := s.pwr.vddNext.getD s.pwr.vddCur, vddNext := none } }
  | .status => { s with pwr := ok s.pwr }
  | .fail => latch { s with pwr := { s.pwr with avsOk := false, vddNext := none } } pgPwr 5

/-- An AVSBus frame completes, or fails after three retries (R322). -/
def execAvsFrameDone (r : AvsEnd) (s : State) : Host.Outcome State Fault Refusal := .next (avsEnd s r)

/-! ### The stack's power (R228, R297, R323) -/

/-- The stack as a power-on leaves it: its passport, and arbitrary contents (R229). -/
def stackFresh (s : State) : State :=
  { s with stack := { Stack.reset with passport := s.stack.passport, gen := s.stack.gen + 1, base := .powerOn (s.stack.gen + 1) } }

/-- STK_PGOOD rises while STK_PWR_EN is high; the wire clock starts at P0 (R228). -/
def pgoodRise (s : State) : State :=
  if s.pins.stkPwrEn && !s.pins.stkPgood then
    { s with pins := { s.pins with stkPgood := true, stkRstN := false, wckRun := true }, pwr := { s.pwr with pgoodTick := s.time.tick } }
  else s

/-- STK_PGOOD rises (R228). -/
def execStkPgoodRise (s : State) : Host.Outcome State Fault Refusal := .next (pgoodRise s)

/-- The boot waits for the stack's power (Table 13-8, step 7). -/
def poweringOn (s : State) : Bool := s.blk.st == .boot && s.blk.step == 7 && s.pins.stkPwrEn

/-- Ticks that STK_PGOOD has to rise (R323). -/
def pgoodTicks : Nat := 2500000

/-- STK_PGOOD has not risen in time (R323). -/
def pgoodLate (s : State) : State :=
  if poweringOn s && !s.pins.stkPgood && decide (s.pwr.pwrOnTick + pgoodTicks ≤ s.time.tick) then
    enterLost (logEv { s with pins := { s.pins with stkPwrEn := false } } 0x0512 pgPwr .fatal 0) 0x0512
  else s

/-- STK_PGOOD has not risen within 10 ms (R323). -/
def execPgoodTimeout (s : State) : Host.Outcome State Fault Refusal := .next (pgoodLate s)

/-- Ticks from STK_PGOOD to the release of STK_RST_N (R228). -/
def rstTicks : Nat := 50000

/-- STK_RST_N is released (R228). -/
def stkRelease (s : State) : State :=
  if poweringOn s && s.pins.stkPgood && !s.pins.stkRstN && decide (s.pwr.pgoodTick + rstTicks ≤ s.time.tick) then
    let s := stackFresh s
    { s with pins := { s.pins with stkRstN := true } }
  else s

/-- STK_RST_N is released 200 µs after STK_PGOOD rises (R228). -/
def execStkResetRelease (s : State) : Host.Outcome State Fault Refusal := .next (stkRelease s)

/-- STK_PGOOD falls: STK_RST_N is low until 200 µs after the next rise (R228), the stack loses its contents, and with STK_PWR_EN high the block enters LOST (R297, R323, R347). -/
def pgoodFall (s : State) : State :=
  if !s.pins.stkPgood then s
  else
    let s := stackFresh { s with pins := { s.pins with stkPgood := false, stkRstN := false } }
    if s.pins.stkPwrEn then enterLost (logEv s 0x0512 pgPwr .fatal 1) 0x0512 else s

/-- STK_PGOOD falls (R297). -/
def execStkPgoodFall (s : State) : Host.Outcome State Fault Refusal := .next (pgoodFall s)

end Sys2Proof.Machine
end

