-- ==== Sys2Proof/Machine/SbEnd.lean ====
section
/-! DEFINITION. The sideband at the LINK unit: what becomes of a response or of its absence, and what it brings the users of
the sideband (R219-R226, R303, Table 8-11). -/

namespace Sys2Proof.Machine

/-! ### The LINK unit's transactions (R219, R222, R226) -/

/-- Repair records that are still being programmed. -/
def ppStillBusy (s : State) : Bool :=
  s.link.queue.any (fun x => x.user == 3) || (match s.link.cur with | some x => x.user == 3 | none => false)

/-- The transaction is over, and the next one starts. -/
def sbNext (s : State) : State :=
  let s := sbStart { s with link := { s.link with cur := none } }
  { s with link := { s.link with ppBusy := ppStillBusy s } }

/-- LINK_PP_OP ends with a RESULT (Table 8-11). -/
def ppOpEnd (s : State) (r : Nat) : State := { s with link := { s.link with opBusy := false, opResult := r } }

/-- The T1500 shift ends with a RESULT (Table 14-15). -/
def t1500End (s : State) (r : Nat) : State := latch { s with test := { s.test with t1500Busy := false, t1500Result := r } } pgTest 1

/-- A passport that cannot be used at boot: PP_INVALID is logged and the block enters LOST (R222, R223). -/
def ppInvalid (s : State) (why addr : Nat) : State :=
  enterLost (logEv s 0x0308 pgLink .fatal (wordOf [(0, why), (8, addr)])) 0x0308

/-- The SR_LN_ERR read of a channel is abandoned: no reading comes for its probe (R222, R246). -/
def probeLost (s : State) (c : Nat) : State :=
  let e := cal s (c / 16)
  match e.pendErr.find? (fun p => p.ch == c && p.st != .lost) with
  | none => s
  | some p => setCal s (c / 16) { e with pendErr := if p.st = .dropped then e.pendErr.erase p
                                          else e.pendErr.map (fun q => if q = p then { q with st := .lost } else q) }

/-- What the user of a transaction learns when it has failed: 2 abandoned, 1 denied, 3 failed. -/
def sbFailed (s : State) (x : Sb) (why : Nat) : State :=
  if x.user = 3 ∧ (x.cmd = 4 ∨ x.cmd = 5 ∨ x.cmd = 6) then latch (logEv s 0x0306 pgLink .error (BitVec.ofNat 32 x.addr.toNat)) pgLink 3
  else if x.user = 4 then ppOpEnd s why
  else if x.user = 5 then t1500End s (if why = 1 then 1 else 2)
  else if s.blk.st = .boot ∧ x.cmd = 3 then ppInvalid s 3 x.addr.toNat
  else if x.cmd = 1 ∧ x.addr = 0x011#24 then probeLost s x.ch.toNat
  else if x.cmd = 1 ∧ x.user = 1 then polled s x.addr.toNat none
  else s

/-- The transaction is abandoned after its retries (R222). -/
def sbAbandon (s : State) (x : Sb) : State := sbNext (sbFailed (latch s pgLink 0) x 2)

/-- A transaction is sent again, or abandoned when its retries are used up (R222). -/
def sbRetry (s : State) (x : Sb) : State :=
  if x.tries < regF s pgLink 0x044 0 3 then
    { s with link := { s.link with cur := some { x with tries := x.tries + 1, resp := none, sentTick := s.time.tick } } }
  else sbAbandon s x

/-- The command-counter reading of a channel: corrections since the last reading, per wire (R219). A wire with
corrections in FAIL_ROUNDS rounds running puts the block in LOST. -/
def cmdCounters (s : State) (c : Nat) (ws : List Word) : State :=
  let n := (ws.map (fun w => fieldNat w 0 16)).sum
  let s := (ws.zipIdx).foldl (fun t e =>
    let k := 10 * c + e.2
    let r := if fieldNat e.1 0 16 = 0 then 0 else Tab.get t.link.ceRounds k 0 + 1
    { t with link := { t.link with ceRounds := Tab.put t.link.ceRounds k r } }) s
  let rounds := (List.range 10).foldl (fun m i => max m (Tab.get s.link.ceRounds (10 * c + i) 0)) 0
  let s := setRegF (bumpReg s pgLink (0x200 + 4 * c) 0 16 n) pgLink (0x200 + 4 * c) 16 4 (min 15 rounds)
  let s := if 0 < n then sbWrite s 2 (BitVec.ofNat 8 c) 0x000 (List.replicate 10 0#32) else s
  let lim := max 1 (regF s pgLink 0x04C 0 4)
  match (List.range 10).find? (fun i => decide (lim ≤ Tab.get s.link.ceRounds (10 * c + i) 0)) with
  | some i => enterLost (logEv s 0x0202 (chPage c) .fatal (BitVec.ofNat 32 (40 + i))) 0x0202
  | none => s

/-- The cause of an ALERT has been read: it is logged, counted, and CMD_ALERT latches (Table 8-11, Table 14-9). -/
def alertRead (s : State) (c : Nat) (w : Word) : State :=
  let s := logEv s 0x0110 (chPage c) .warn w
  latch (bumpReg s pgLink (0x200 + 4 * c) 24 8 1) pgLink 1

/-- A remap entry has been written to the stack: its bank may take slices again (R294). -/
def remapWritten (s : State) (c : Nat) (ws : List Word) : State :=
  ws.foldl (fun t w => modChan t c (fun x => { x with noSlice := x.noSlice.filter (fun b => b != fieldNat w 2 4) })) s

/-! ### The passport at boot (R223, R224) -/

/-- A block of 64 bytes of a repair area holds no record. -/
def areaEmpty (pt : Part) (p : Tab Byte) (a : Nat) : Bool := (List.range 4).all (fun i => ppWord pt p (a + 16 * i) == 0xFFFFFFFF#32)

/-- SEQ of the SEAL in the first place of an area, 0 without one. -/
def firstSeal (pt : Part) (p : Tab Byte) (a : Nat) : Nat := if ppByte pt p (a + 4) = 4#8 then (ppWord pt p a).toNat else 0

/-- The end of the delay blocks (Table 8-10). -/
def delayEnd (s : State) : Nat := 0x1000 + min 4 (ppByte s.part s.link.tables 24).toNat * nChan s * 192

/-- Where boot reads next after the 64 bytes at a: the header, the first places of both repair areas, the active area up to an
empty block, and in step 9 the delay blocks (R223, R224, Table 13-8; log 88). -/
def bootNext (s : State) (a : Nat) : Option Nat :=
  let p := s.link.tables
  if a < 192 then some (a + 64)
  else if a = 192 then some (areaBase false)
  else if a < 0x10000 then (if a + 64 < delayEnd s then some (a + 64) else none)
  else if a = areaBase false then some (areaBase true)
  else if a = areaBase true then
    some (areaBase (decide (firstSeal s.part p (areaBase false) < firstSeal s.part p (areaBase true))) + 64)
  else if areaEmpty s.part p a || decide ((a + 64 - areaBase false) % areaBytes = 0) then none
  else some (a + 64)

/-- Boot reads 16 words of the passport (R223). -/
def bootRead (s : State) (a : Nat) : State := sbQueue { s with link := { s.link with bootAt := some a } } 3 3 0 a 15 []

/-- Words of the passport that boot has asked for are in. -/
def bootGot (s : State) (a : Nat) (ws : List Word) : State :=
  let s : State := { s with link := { s.link with tables := ppStoreAll s.link.tables a ws } }
  match bootNext s a with
  | some b => bootRead s b
  | none => { s with link := { s.link with bootAt := none } }

/-- What a completed transaction brings its user. -/
def sbDeliver (s : State) (x : Sb) (ws : List Word) : State :=
  let c := x.ch.toNat
  match x.cmd with
  | 1 =>
    if x.user = 1 then polled s x.addr.toNat (some (ws.headD 0#32)) else
    if x.addr = 0x010#24 then alertRead s c (ws.headD 0#32)
    else if x.addr = 0#24 then cmdCounters s c ws
    else if x.addr = 0x011#24 then
      setCal s (c / 16) { cal s (c / 16) with lnGot := (cal s (c / 16)).lnGot ++ [(c, ws.headD 0#32)] }
    else s
  | 2 =>
    if x.ch = sbAll ∧ x.addr = 0x164#24 then { s with ecc := { s.ecc with scrNext := some ((x.words.headD 0#32).getLsbD 0) } }
    else if x.ch ≠ sbAll ∧ 0x080 ≤ x.addr.toNat ∧ x.addr.toNat < 0x0C0 then remapWritten s c x.words
    else s
  | 3 =>
    if x.user = 4 then ppOpEnd (setReg s pgLink 0x064 (ws.headD 0#32)) 0
    else if s.link.bootAt = some x.addr.toNat then bootGot s x.addr.toNat ws
    else s
  | 5 =>
    if (ws.headD 0#32).getLsbD 1 then sbFailed s x 3
    else if x.user = 4 then ppOpEnd s 0
    else if x.orig = 4 ∧ x.addr.toNat = areaBase s.link.ppDest then { s with link := { s.link with ppArea := s.link.ppDest } }
    else s
  | 7 => t1500End ((ws.zipIdx).foldl (fun t e => setReg t pgTest (0x080 + 4 * e.2) e.1) s) 0
  | _ => s

/-- The transaction that follows this one directly: programming and erasing are polled with PP_STAT until done. -/
def sbPoll (x : Sb) (ws : List Word) : Bool :=
  x.cmd == 4 || x.cmd == 6 || (x.cmd == 5 && (ws.headD 0#32).getLsbD 0)

/-- A response has been heard: a CRC failure or a status CRC is retried, BUSY is sent again (log 89), and the rest ends the
transaction (R221, R222). -/
def sbTake (s : State) (x : Sb) (crcOk : Bool) (st : Byte) (ws : List Word) : State :=
  let s := { s with link := { s.link with sbUp := true } }
  if !crcOk || st = 1#8 then sbRetry (bumpReg s pgLink 0x048 0 16 1) x
  else if st = 3#8 then { s with link := { s.link with cur := some { x with resp := none, sentTick := s.time.tick } } }
  else if st = 0#8 then
    if sbPoll x ws then
      { s with link := { s.link with cur := some { x with cmd := 5, ch := 0, len := 0, words := [], resp := none
                                                          tries := 0, sentTick := s.time.tick } } }
    else sbNext (sbDeliver s x ws)
  else sbNext (sbFailed s x (if st = 4#8 then 1 else if st = 5#8 then 3 else 2))

/-- The response that the stack has given arrives, with what the sideband adds to it (R221, R222). -/
def sbResponse (s : State) (noise : BitVec 528) : State :=
  match s.link.cur with
  | none => s
  | some x =>
    match x.resp with
    | none => s
    | some (st, ws) =>
      if noise = 0 then sbTake s x true st ws
      else
        let r := sbHeard (sbReply st ws ^^^ noise) ws.length
        sbTake s x r.1 r.2.1 r.2.2

/-- A sideband response arrives (R221, R222). -/
def execSbResponse (noise : BitVec 528) (s : State) : Host.Outcome State Fault Refusal := .next (sbResponse s noise)

/-- Ticks of a request on the sideband, at 5 ticks to a bit (R220, R221). -/
def sbTicks (x : Sb) : Nat := (1 + sbLength x.cmd x.words) * 5

/-- No response has started within 64 SB_CK cycles of the request's last bit (R222). -/
def sbTimeout (s : State) : State :=
  match s.link.cur with
  | none => s
  | some x =>
    if x.resp.isSome || decide (s.time.tick < x.sentTick + sbTicks x + 320) then s
    else sbRetry (bumpReg s pgLink 0x048 16 16 1) x

/-- A sideband response has not started in time (R222). -/
def execSbResponseTimeout (s : State) : Host.Outcome State Fault Refusal := .next (sbTimeout s)

end Sys2Proof.Machine
end

