-- ==== Sys2Proof/Machine/BootRows.lean ====
section
/-! DEFINITION. Reset and boot (R346-R352, and what R223, R224, R230, R236, R373-R377 lay down for boot). -/

namespace Sys2Proof.Machine

/-! ### Reset -/

/-- What lies outside the block and its supplies, and the model's own fields: nothing resets them. -/
def coldState (s : State) : State :=
  let r := State.reset
  { r with part := s.part, free := s.free, pending := s.pending, clk := { r.clk with refPresent := s.clk.refPresent }
           stack := { r.stack with passport := s.stack.passport, gen := s.stack.gen } }

/-- BLK_RST_N resets everything (R346). -/
def execColdReset (s : State) : Host.Outcome State Fault Refusal := .next (coldState s)

/-- The passport once the records on their way have been programmed (R347, step 2). -/
def passportDone (s : State) : Tab Byte :=
  ((s.link.cur.toList ++ s.link.queue).filter (fun x => x.user == 3)).foldl (fun p x =>
    if x.cmd = 4 then ppStoreAll p x.addr.toNat x.words
    else if x.cmd = 6 then ppErased p x.addr.toNat areaBytes
    else p) s.stack.passport

/-- Stored registers that a warm reset keeps: LOG_LOST and LOG_DROP (Table 13-6, R369). -/
def keptRegs (s : State) : Tab Word := s.regs.filter (fun e => e.1 == regKey pgLog 0x048 || e.1 == regKey pgLog 0x04C)

/-- A warm reset: the passport's record is finished, the stack is powered down, and every domain but the log and the LOST
latch is reset (R347, Table 13-6). -/
def warmState (s : State) (byReg : Bool) : State :=
  let s := logEv { s with stack := { s.stack with passport := if stackOn s then passportDone s else s.stack.passport } }
    0x0004 pgBlk .notice (BitVec.ofNat 32 byReg.toNat)
  let t := coldState s
  { t with regs := keptRegs s
           log := { s.log with rdBusy := false, rdResult := 0 }
           blk := { t.blk with warm := true, lost := s.blk.lost, lbist := s.blk.lbist }
           test := { t.test with stackTest := s.test.stackTest, ir := s.test.ir, cfgDr := s.test.cfgDr, bypassDr := s.test.bypassDr } }

/-- The reset was asked for by BLK_RESET, whose delay is over (R346). -/
def resetAsked (s : State) : Bool := match s.blk.warmDue with | some t => decide (t ≤ s.time.tick) | none => false

/-- A warm reset, by BLK_WRST_N or by BLK_RESET (R347). -/
def execWarmReset (s : State) : Host.Outcome State Fault Refusal := .next (warmState s (resetAsked s))

/-- The block halts: its ports and the stack's power are off until a reset (R352). -/
def haltWith (s : State) (cause : Nat) : State :=
  let s := closePorts s
  let s := { s with blk := { s.blk with st := .halted, cause := cause }, pins := { s.pins with stkPwrEn := false } }
  logEv s 0x0003 pgBlk .fatal (BitVec.ofNat 32 cause)

/-! ### Zeroisation (R373) -/

/-- The SEC unit zeroises the block's stores (R373). -/
def zeroise (s : State) : State :=
  let s : State := { s with hdl := { s.hdl with cache := [] }, sec := { s.sec with key := 0, keyed := false }
                            disp := { s.disp with ops := [], bbuf := [] }, pmu := { s.pmu with buf := [], smpGen := 0 } }
  let s := forN (nChan s) (fun t c => modChan t c (fun x =>
    { x with rq := [], cmdq := [], liner := [], replay := [], gen := 0 })) s
  let s := forN (nOct s) (fun t k => modOct t k (fun o => { o with scratch := [], lost := none, held := [], queue := [], jobs := [] })) s
  let s := forN 16 (fun t p => modPort t p (fun x => { x with wbuf := [], waiting := [], replies := [] })) s
  { s with test := { s.test with zeroised := true } }

/-- SEC draws the scramble key and the seeds; an all-zero key is left as drawn (R261, R280, R395, log 6). -/
def drawKeys (s : State) : State :=
  let (k, s) := takeFree 128 s
  let s := { s with sec := { s.sec with key := k, keyed := true, health := true }, test := { s.test with zeroised := false } }
  let s := forN (nChan s) (fun t c =>
    let (g, t) := takeFreeNonzero 64 1#64 t
    modChan t c (fun x => { x with gen := g })) s
  smpSeed s

/-! ### The passport at boot (R223, R224, Table 8-10) -/

/-- n bytes of the passport from a. -/
def ppBytes (pt : Part) (p : Tab Byte) (a n : Nat) : List Byte := (List.range n).map (fun i => ppByte pt p (a + i))

/-- The header check of R223, on the header as boot has read it. -/
def headerOk (s : State) : Bool :=
  let p := s.link.tables
  let ppWord := ppWord s.part
  let ppByte := ppByte s.part
  let ppBytes := ppBytes s.part
  ppWord p 0 == 0x4F4C5956#32 && ppByte p 4 == 1#8 && ppByte p 5 == 0#8 && ppWord p 252 == crc32 (ppBytes p 0 252) &&
    (ppByte p 19).toNat == nChan s && (ppByte p 18).toNat == stackHeight s &&
    (ppByte p 20).toNat + 256 * (ppByte p 21).toNat + 65536 * (ppByte p 22).toNat == rowsPerBank s

/-- The first delay block whose CRC fails (R223). -/
def badDelayBlock (s : State) : Option Nat :=
  let n := min 4 (ppByte s.part s.link.tables 24).toNat
  ((List.range (n * nChan s)).map (fun i => 0x1000 + i * 192)).find? (fun a =>
    ppWord s.part s.link.tables (a + 188) != crc32 (ppBytes s.part s.link.tables a 188))

/-- A repair record as it stands in the passport. -/
structure PpRec where
  addr : Nat
  seq : Nat
  kind : Nat
  ch : Nat
  bank : Nat
  spare : Nat
  row : Nat
  fails : Nat
  good : Bool
  deriving DecidableEq, Repr

/-- The record at an address. -/
def recordAt (pt : Part) (p : Tab Byte) (a : Nat) : PpRec :=
  let b := fun i => (ppByte pt p (a + i)).toNat
  { addr := a, seq := (ppWord pt p a).toNat, kind := b 4, ch := b 5, bank := b 6, spare := b 7,
    row := b 8 + 256 * b 9 + 65536 * b 10, fails := b 11,
    good := crc16 (ppBytes pt p a 14) == ppByte pt p (a + 15) ++ ppByte pt p (a + 14) }

/-- The records of an area that are not erased; places that hold no programmed byte are erased. -/
def areaList (pt : Part) (p : Tab Byte) (area : Bool) : List PpRec :=
  let a := areaBase area
  let ixs := ((p.filter (fun e => decide (a ≤ e.1 ∧ e.1 < a + areaBytes))).map (fun e => (e.1 - a) / 16)).dedup
  (ixs.map (fun i => recordAt pt p (a + 16 * i))).filter (fun r => r.seq != 0xFFFFFFFF)

/-- The highest SEQ of a SEAL among records. -/
def sealSeq (rs : List PpRec) : Nat := ((rs.filter (fun r => r.good && r.kind == 4)).map (·.seq)).foldl max 0

/-- A record put in its place by SEQ. -/
def insertRec (x : PpRec) : List PpRec → List PpRec
  | [] => [x]
  | y :: t => if x.seq ≤ y.seq then x :: y :: t else y :: insertRec x t

/-- A record takes effect in the block's tables (R224, R293). -/
def applyRecord (s : State) (r : PpRec) : State :=
  if nChan s ≤ r.ch ∨ 16 ≤ r.bank then s
  else
    match r.kind with
    | 1 | 2 =>
      (match remapSlot (chan s r.ch) r.bank r.row with
       | some e =>
         let m : Remap := { fenced := r.kind == 2, fails := r.fails, bank := r.bank, row := r.row, spare := if r.kind = 1 then r.spare else 0 }
         modChan s r.ch (fun x => { x with remap := Tab.put x.remap e m })
       | none => s)
    | 3 => modChan s r.ch (fun x => { x with dead := if x.dead.contains (r.bank, r.spare) then x.dead else x.dead ++ [(r.bank, r.spare)] })
    | _ => s

/-- The repair area, as boot has read it, is loaded (R224). -/
def loadRepairs (s : State) : State :=
  let p := s.link.tables
  let area := decide (sealSeq (areaList s.part p false) < sealSeq (areaList s.part p true))
  let rs := areaList s.part p area
  let q := sealSeq rs
  let bad := rs.filter (fun r => !r.good)
  let s := bad.foldl (fun t r => logEv t 0x0305 pgLink .warn (BitVec.ofNat 32 r.addr)) s
  let s := ((rs.filter (fun r => r.good && decide (q < r.seq))).foldr insertRec []).foldl applyRecord s
  { s with link := { s.link with ppArea := area, ppDest := area, ppSeq := (rs.map (·.seq)).foldl max 0
                                 ppNext := (rs.map (fun r => (r.addr - areaBase area) / 16 + 1)).foldl max 0
                                 ppLive := min areaRecords (liveRecords s).length } }

/-! ### The link at boot (R230, R236) -/

/-- The temperatures of the delay load: the base-die sensors (R236). -/
def loadTemps (s : State) : State :=
  forN 8 (fun t k =>
    if nCal t ≤ k / 2 then t
    else
      let x := sensor t (48 + k)
      let (v, t) := if x.seen then (intBits 16 x.heldVal, t) else
        (match srRead t sbAll (0x140 + k) with | (w, t) => (fieldNat w 0 16, t))
      setRegF t (calPage (k / 2)) 0x054 (16 * (k % 2)) 16 v) s

/-- SREF codes go to the stack, and stand in the records (R236, Table 9-6). -/
def loadSref (s : State) : State :=
  forN (nChan s) (fun t c => forN 40 (fun u w =>
    let v := (srefAt u c w).toNat
    let u := modChan u c (fun x => x.setWire w { x.wire w with sref := v })
    srWrite u (BitVec.ofNat 8 c) (0x040 + w) (BitVec.ofNat 32 v)) t) s

/-- SR_SCR_KEY, SR_SCR_EN, SR_NRF_CFG with seeds, and SR_REMAP are written to the stack (R264, R281, R296, Table 13-8). -/
def loadStackRegs (s : State) : State :=
  let s := forN 4 (fun t i => srWrite t sbAll (0x160 + i) (field t.sec.key (32 * i) 32)) s
  let s := srWrite s sbAll 0x164 (BitVec.ofNat 32 s.ecc.scrNow.toNat)
  forN (nChan s) (fun t c =>
    let ch : Byte := BitVec.ofNat 8 c
    let t := srWrite t ch 0x018 (nrfCfgWord t c)
    let (g, t) := takeFree 64 t
    let t := srWrite (srWrite t ch 0x019 (field g 0 32)) ch 0x01A (field g 32 32)
    (chan t c).remap.foldl (fun u e => srWrite u ch (0x080 + e.1) (remapWord e.2)) t) s

/-- What the link check of step 9 finds on a wire: bits [5:0] of the detail name it, [13:8] its channel, bit 16 a command wire,
and [23:20] the passes of the four in which it mismatched or was corrected. Two or more passes fail the wire (R230). -/
def linkCheckFail (s : State) (d : Word) : State :=
  let c := fieldNat d 8 6
  let w := fieldNat d 0 6
  let passes := ((List.range 4).filter (fun i => d.getLsbD (20 + i))).length
  if nChan s ≤ c ∨ passes < 2 then s
  else if d.getLsbD 16 then enterLost (logEv s 0x0202 (chPage c) .fatal (BitVec.ofNat 32 w)) 0x0202
  else if w < 40 then wireFail s c w 4
  else s

/-- The link check has written 64 sectors of PRBS7 data into every vector buffer; the manual names neither the sectors nor the
seed (R230; log 88). -/
def linkChecked (s : State) : State :=
  forN (nChan s) (fun t c => forN 64 (fun u i =>
    let (a, u) := takeFree 152 u
    let (b, u) := takeFree 152 u
    modStk u c (fun x => vbufWrite u.stack c x i ⟨a, b⟩)) t) s

/-! ### The sweep (Table 13-8, steps 10 and 11) -/

/-- Refresh starts in every channel: t0 is now, and every debt 0 (R257). -/
def refreshStart (s : State) : State :=
  forN (nChan s) (fun t c => modChan t c (fun x =>
    { x with banks := (List.range 16).map (fun b => (b, { Bank.reset with t0 := t.time.tick, x2 := t.thm.x2 })) })) s

/-- Zero data goes to the spares of remapped rows, as scrambled valid codewords. -/
def sweepSpares (s : State) : State :=
  forN (nChan s) (fun t c => (chan t c).remap.foldl (fun u e =>
    if e.2.fenced then u
    else
      (List.range 32).foldl (fun v col =>
        let d := scrambleSector v.ecc.scrNow v.sec.key c e.2.bank e.2.row col (sectorOf 0#256)
        modStk v c (fun x => arrWrite v.stack c x true e.2.bank e.2.spare col d)) u) t) s

/-- Every sector is zero data under the key (Table 13-8, steps 10 and 11). -/
def sweepArray (s : State) : State :=
  let s := { s with stack := { s.stack with base := .swept s.sec.key s.ecc.scrNow
                                            chans := s.stack.chans.map (fun (e : Nat × StkChan) => (e.1, { e.2 with array := [] })) } }
  sweepSpares s

/-! ### The steps (Table 13-8) -/

/-- The step in progress ends: it is logged with its duration (Table 14-9). -/
def stepLog (s : State) : State :=
  logEv s 0x0001 pgBlk .info (wordOf [(0, s.blk.step), (16, min 65535 ((s.time.tick - s.blk.stepStart) / ticksPerMs))])

/-- Step n begins. -/
def atStep (s : State) (n : Nat) : State := { s with blk := { s.blk with step := n, stepStart := s.time.tick } }

/-- Boot step 7 begins: the rails are set and STK_PWR_EN rises (R323). -/
def powerOn (s : State) : State :=
  overrides { s with pwr := { s.pwr with vddCur := vddMax s, vddNext := none, pwrOnTick := s.time.tick }
                     pins := { s.pins with stkPwrEn := true } }

/-- The block waits in step 10 while writing is not allowed (R352). -/
def thermalWait (s : State) : State :=
  let s := { s with blk := { s.blk with waitThermal := true } }
  if s.blk.waitLogged then s
  else logEv { s with blk := { s.blk with waitLogged := true } } 0x0005 pgBlk .warn 0

/-- The last step: READY, or LOST after a warm reset in LOST, and the ports open (R350). -/
def lastStep (s : State) : State :=
  bootEnd (stepLog { s with blk := { s.blk with st := if s.blk.lost then .lost else .ready } })

/-- The next step begins; in state LOST after a warm reset steps 7 to 12 are skipped (Table 13-8). -/
def nextStep (s : State) (n : Nat) : State :=
  let n := if s.blk.lost ∧ 7 ≤ n then 13 else n
  let s := atStep s n
  match n with
  | 7 => powerOn s
  | 8 => bootRead { s with thm := { s.thm with started := true } } 0
  | 9 => bootRead s 0x1000
  | 10 =>
    let s := refreshStart s
    if writeForbidden s then thermalWait s else s
  | 13 => lastStep s
  | _ => s

/-- Memory self-test ends; its counts are free values (R375, Table 14-9, log 6). -/
def mbistEnd (s : State) (fail : Option Nat) : State :=
  let (r, s) := takeFree 8 s
  let (c, s) := takeFree 8 s
  let (f, s) := takeFree 8 s
  let s := if s.log.tested then s else logUnstage s
  let s := { s with test := { s.test with mbistRows := r, mbistCols := c, mbistFused := f } }
  logEv s 0x0701 pgTest (if fail.isSome then .fatal else .notice) (wordOf [(0, r.toNat), (8, c.toNat), (16, fail.getD 0 % 256)])

/-- Logic self-test ends, after its zeroisation (R373, R374). -/
def lbistEnd (s : State) (fail : Option (BitVec 16)) : State :=
  let s := zeroise s
  let s := { s with test := { s.test with lbistRan := true, lbistPass := fail.isNone, failPart := fail.getD 0 } }
  logEv s 0x0700 pgTest (if fail.isSome then .fatal else .notice) ((fail.getD 0).setWidth 32)

/-- Step 8 succeeds: the header is checked and the repair area loaded (R223, R224). -/
def passportStep (s : State) : State :=
  if headerOk s then loadRepairs s else ppInvalid s 1 0

/-- Step 9 loads delays, references and stack registers once the delay blocks are read and pass (R223, R236); PP_VALID shows
it. -/
def loadStep (s : State) : State :=
  if s.link.ppValid then s
  else
    match badDelayBlock s with
    | some a => ppInvalid s 2 a
    | none => loadStackRegs (loadSref (applyAll (loadTemps { s with link := { s.link with ppValid := true } })))

/-- Step 12 succeeds: tracking and sweeps start, and covered wires carry their symbol alone (R250, R252). -/
def trackStep (s : State) : State :=
  let s := forN (nCal s) (fun t n => setRegF t (calPage n) 0x040 1 2 3) s
  forN (nChan s) (fun t c => forN 2 (fun u h =>
    if ((chan u c).spare h).pat then steer u c h ((chan u c).spare h).wire false else u) t) s

/-- The step in progress has done its work; where it needs more, it goes on (Table 13-8). -/
def bootOk (s : State) : State :=
  let go := fun (t : State) => if t.blk.st == .boot then nextStep (stepLog t) (s.blk.step + 1) else t
  match s.blk.step with
  | 1 => go s
  | 2 => if s.clk.refOk then go s else s
  | 3 => if s.clk.onPll then go s else s
  | 4 => go (mbistEnd s none)
  | 5 => go (if s.blk.lbist then lbistEnd s none else s)
  | 6 => go (drawKeys (zeroise s))
  | 7 => if stackOn s then go s else s
  | 8 => if s.link.bootAt.isSome then s else go (passportStep s)
  | 9 =>
    if s.test.hold || s.link.bootAt.isSome then s
    else
      let t := linkChecked (loadStep s)
      if t.blk.st == .boot && t.test.stackTest then { stepLog t with test := { t.test with hold := true } } else go t
  | 10 =>
    if s.blk.waitThermal && writeForbidden s then s
    else go (sweepArray { s with blk := { s.blk with waitThermal := false } })
  | 11 => go { s with hdl := Hdl.reset }
  | 12 => go (trackStep s)
  | _ => s

/-- The step in progress has failed (Table 13-8); bit 31 of the detail says that its zeroisation did (R373). -/
def bootFail (s : State) (d : Word) : State :=
  match s.blk.step with
  | 2 => { s with clk := { s.clk with passed := 0, sum := 0 }, blk := { s.blk with stepStart := s.time.tick } }
  | 3 => if s.clk.onPll then s else haltWith s 1
  | 4 => haltWith (mbistEnd s (some d.toNat)) 2
  | 5 => if !s.blk.lbist then s else if d.getLsbD 31 then haltWith s 3 else haltWith (lbistEnd s (some (field d 0 16))) 3
  | 6 =>
    if d.getLsbD 31 then haltWith s 3
    else if 2 ≤ s.blk.entropyTries then haltWith s 4
    else { s with blk := { s.blk with entropyTries := s.blk.entropyTries + 1 } }
  | 9 =>
    if s.test.hold || s.link.bootAt.isSome then s
    else
      let t := loadStep s
      if t.blk.st == .boot then linkCheckFail t d else t
  | _ => s

/-- Boot may go on: no trip and no scan access holds it, and the domains it needs run (R340, R352, R380). -/
def bootMoves (s : State) : Bool :=
  s.blk.st == .boot && !s.test.scanning && s.thm.tripPh == 0 && (s.clk.coreRun || decide (s.blk.step ≤ 3))

/-- A boot step completes, or fails (R350). -/
def execBootStepComplete (r : BootEnd) (s : State) : Host.Outcome State Fault Refusal :=
  .next (if !bootMoves s then s else match r with | .ok => bootOk s | .fail d => bootFail s d)

end Sys2Proof.Machine
end

