-- ==== Sys2Proof/Machine/ClockRows.lean ====
section
/-! DEFINITION. Clock sources, the PLL, domain switches and gates, the time base, and frequency measurement (R328-R345). -/

namespace Sys2Proof.Machine

/-! ### The reference (R328, R329, R340) -/

/-- Windows that the reference test needs, and the test's end: the mean count becomes the ratio (R329). -/
def refPassed (s : State) (count : Nat) : State :=
  let k := s.clk
  let n := k.passed + 1
  let k := { k with passed := n, sum := k.sum + count }
  if n < 8 then { s with clk := k }
  else { s with clk := { k with refOk := true, ratio := k.sum / 8, phase := if k.phase = .refFull then .locking else k.phase } }

/-- A window that fails starts the count of 8 again (R329). -/
def refFailed (s : State) : State :=
  { s with clk := { s.clk with passed := 0, sum := 0, refOk := false, fails := min 255 (s.clk.fails + 1) } }

/-- The full reference test runs: at boot step 2, or in a recovery that lost REFCLK (R329, R340). -/
def refTesting (s : State) : Bool :=
  (s.blk.st == .boot && s.blk.step == 2 && decide (s.clk.passed < 8)) || s.clk.phase == .refFull

/-- A window of the short check passes within 1% of the reference ratio over 4,096 cycles (R340). -/
def shortPass (s : State) (count : Nat) : Bool := decide (99 * s.clk.ratio ≤ 1600 * count ∧ 1600 * count ≤ 101 * s.clk.ratio)

/-- A reference window ends: REFCLK is there (R329, R340). -/
def refWindowDone (s : State) (count : Nat) : State :=
  let s := { s with clk := { s.clk with lastCount := count, refPresent := true } }
  match s.clk.phase with
  | .refCheck w =>
    if !shortPass s count then
      { s with clk := { s.clk with fails := min 255 (s.clk.fails + 1), refOk := false, phase := .refCheck 0 } }
    else { s with clk := { s.clk with refOk := s.clk.refOk || decide (1 ≤ w), phase := if w = 0 then .refCheck 1 else .locking } }
  | _ => if decide (157287 ≤ count ∧ count ≤ 170393) then refPassed s count else refFailed s

/-- A window of the reference check in progress ends (R329, R340). -/
def execRefclkWindowEnd (count : Nat) (s : State) : Host.Outcome State Fault Refusal :=
  .next (if refTesting s || (match s.clk.phase with | .refCheck _ => true | _ => false) then refWindowDone s count else s)

/-- REFCLK is lost: it is logged, and a check in progress starts again as the full one (R328, R340). -/
def refLost (s : State) : State :=
  if !s.clk.refPresent then s
  else
    let s := logEv (latch s pgClk 0) 0x0104 pgClk .error 0
    { s with clk := { s.clk with refPresent := false, refOk := false, passed := 0, sum := 0
                                 phase := if s.clk.phase = .none then .none else .refFull } }

/-- Fewer than 2 REFCLK edges in 64 IRC cycles (R328). -/
def execRefclkLoss (s : State) : Host.Outcome State Fault Refusal := .next (refLost s)

/-! ### The time base (R343-R345) -/

/-- The time base becomes uncertain (R344, R353). -/
def uncertainTime (s : State) : State :=
  if s.time.uncertain then s else latch { s with time := { s.time with uncertain := true } } pgBlk 1

/-- Every deadline of a channel moves by d (R345). -/
def shiftChan (d : Int) (c : Chan) : Chan :=
  let e := fun (x : Entry) => { x with dl := x.dl + d }
  let sl := fun (x : Slice) => { x with dl := x.dl + d }
  { c with rq := c.rq.map e, cmdq := c.cmdq.map e, liner := c.liner.map (fun (l : Liner) => { l with dl := l.dl + d, evDl := l.evDl + d })
           slicer := c.slicer.map sl, sliceq := c.sliceq.map sl, running := c.running.map (fun (p : Nat × Slice) => (p.1, sl p.2))
           inflight := c.inflight.map (fun (f : InFlight) =>
             { f with what := match f.what with | .data x p => .data (e x) p | w => w })
           recon := c.recon.map (fun (r : Recon) =>
             { r with dl := r.dl + d, flights := r.flights.map (fun (x : Entry × Place) => (e x.1, x.2)) })
           sliceWait := c.sliceWait.map (fun (w : SliceWait) => { w with x := sl w.x }) }

/-- A request's deadline and the acceptance time it is judged from move by d. -/
def shiftReq (d : Int) (r : Req) : Req :=
  { r with dl := r.dl.map (· + d), hdlTurn := r.hdlTurn.map (fun x => (x.1, x.2 + d)), accBlk := r.accBlk + BitVec.ofInt 64 d }

/-- Every internal deadline of the block moves by d, so that no slack changes (R345). -/
def shiftDeadlines (s : State) (d : Int) : State :=
  { s with
    reqs := s.reqs.map (shiftReq d),
    ports := s.ports.map (fun (e : Nat × Port) => (e.1, { e.2 with replies := e.2.replies.map (fun (r : Reply) => { r with dl := r.dl + d }) })),
    chans := s.chans.map (fun (e : Nat × Chan) => (e.1, shiftChan d e.2)),
    octs := s.octs.map (fun (e : Nat × Oct) => (e.1, { e.2 with
      jobs := e.2.jobs.map (fun (j : Job) => { j with dl := j.dl + d }),
      queue := e.2.queue.map (fun (q : QItem) => { q with dl := q.dl + d }) })),
    hdl := { s.hdl with op := s.hdl.op.map (fun (o : HdlOp) => { o with dl := o.dl + d }) },
    disp := { s.disp with ops := s.disp.ops.map (fun (e : Nat × Op) => (e.1, { e.2 with dl := e.2.dl + d })) } }

/-- A signed difference of ticks in 32 bits, saturating. -/
def satDiff (d : Int) : Word := BitVec.ofInt 32 (max (-2147483648) (min 2147483647 d))

/-- An armed TIME_SYNC edge loads BLK_TIME (R345). -/
def timeLoad (s : State) : State :=
  let new := reg s pgBlk 0x05C ++ reg s pgBlk 0x058
  let d : Int := (new.toNat : Int) - s.time.blk.toNat
  let s := shiftDeadlines { s with time := { s.time with blk := new, uncertain := false } } d
  let s := logEv (setRegF s pgBlk 0x060 0 1 0) 0x0007 pgBlk .notice (satDiff d)
  if 250000 < d.natAbs then latch s pgBlk 0 else s

/-- A rising edge on TIME_SYNC (R345). -/
def timeSync (s : State) : State :=
  if s.clk.stopped.getLsbD 92 then s
  else
    let armed := regB s pgBlk 0x060 0
    let s := setReg (setReg s pgBlk 0x064 (field s.time.blk 0 32)) pgBlk 0x068 (field s.time.blk 32 32)
    let s := bumpReg s pgBlk 0x060 8 16 1
    if armed then timeLoad s else s

/-- TIME_SYNC rises (R345). -/
def execTimeSyncEdge (s : State) : Host.Outcome State Fault Refusal := .next (timeSync s)

/-! ### The PLL (R330, R340) -/

/-- A channel after the relock: SRX at the current point, debts 0, RSYNC, and both LANEs; its replay is queued (R340, step
6). -/
def relockChan (s : State) (c : Nat) : State :=
  let s := sendRow (sendRow s c (.srx ⟨chanFin c, 0⟩ (BitVec.ofNat 2 s.hk.point))) c (.rsync ⟨chanFin c, 0⟩)
  let s := sendLane (sendLane s c 0) c 1
  modChan s c (fun (x : Chan) =>
    let x : Chan := { x with halves := x.halves.map (fun (h : Nat × Half) => (h.1, { h.2 with st := .idle })) }
    let x := (List.range 16).foldl (fun y b => y.setBank b (freshBank s b (y.bank b))) x
    { x with pd := .active, wakeAt := none, wckOff := none })

/-- The stack wakes after a relock, unless a trip keeps it asleep; a frequency change past its step 4 completes (R340). -/
def relockStack (s : State) : State :=
  if !linkLive s || s.thm.tripPh != 0 then s
  else
    let s := forN (nChan s) relockChan s
    if s.hk.freq == .selfRefresh then freqEnd s else s

/-- The PLL has locked: domains 92 to 98 switch to it by a normal switch, which loses no time, and domains 0 to 91 run
(R330, R332, R338, R340). -/
def pllLocked (s : State) : State :=
  let boot := s.blk.st == .boot && s.blk.step == 3 && !s.clk.onPll
  let again := s.clk.phase == .locking
  if !boot && !again then s
  else
    let s := restartWindows s
    let s := { s with pins := { s.pins with wckRun := s.pins.stkPgood }
                      clk := { s.clk with pllLock := true, onPll := true, coreRun := true, phase := .none, tries := 0
                                          swDomain := 98, swForced := false
                                          attempts := if again then s.clk.attempts + 1 else s.clk.attempts
                                          relocks := if again then s.clk.relocks + 1 else s.clk.relocks } }
    if again then relockStack s else s

/-- The PLL reports lock (R330). -/
def execPllLock (s : State) : Host.Outcome State Fault Refusal := .next (pllLocked s)

/-- No lock after 150 µs: the PLL restarts, and the third failure halts the block (R330); LOST ends only with power (R3, R298; log
68), and there the PLL goes on restarting. -/
def pllLate (s : State) : State :=
  let again := s.clk.phase == .locking
  if !(s.blk.st == .boot && s.blk.step == 3 && !s.clk.onPll) && !again then s
  else
    let s := { s with clk := { s.clk with tries := s.clk.tries + 1, attempts := if again then s.clk.attempts + 1 else s.clk.attempts } }
    if s.blk.st = .lost then { s with clk := { s.clk with tries := if 3 ≤ s.clk.tries then 0 else s.clk.tries } }
    else if 3 ≤ s.clk.tries then haltWith { s with clk := { s.clk with phase := .none } } 1 else s

/-- The PLL has not locked in time (R330). -/
def execPllLockTimeout (s : State) : Host.Outcome State Fault Refusal := .next (pllLate s)

/-- The PLL's clock stops or its lock drops: domains 0 to 91 stop with their state, the wire clock stops, and the recovery
of R340 begins (R339, R340, R344). -/
def pllLoss (s : State) (stopped present : Bool) : State :=
  if !s.clk.onPll then s
  else
    let s := logEv (latch s pgClk 1) 0x0103 pgClk .error (BitVec.ofNat 32 (min 65535 s.clk.attempts))
    let s := uncertainTime s
    let live := linkLive s
    let k := s.clk
    let s := { s with pins := { s.pins with wckRun := false }
                      clk := { k with coreRun := false, pllLock := false, onPll := false, tries := 0, passed := 0, sum := 0
                                      refPresent := present, refOk := k.refOk && present
                                      phase := if present then .refCheck 0 else .refFull
                                      swDomain := if stopped then k.swDomain else 98, swForced := stopped && k.swForced } }
    let s := if live then forN (nChan s) (fun t c => modChan t c (fun x => { x with pd := .selfRefresh })) s else s
    faultAt s pgClk .pll .unit

/-- The PLL clock is lost (R340). -/
def execPllClockLoss (outputStopped refclkPresent : Bool) (s : State) : Host.Outcome State Fault Refusal :=
  .next (pllLoss s outputStopped refclkPresent)

/-! ### Forced switches (R339) -/

/-- The unit of a domain that a forced switch resets (Table 1-2). -/
def domainPage (d : Nat) : Nat :=
  if d = 93 then pgBlk else if d = 94 then pgLog else if d = 95 then pgPmu else if d = 96 then pgTest
  else if d = 97 then pgLink else if d = 98 then pgPwr else pgHk

/-- The housekeeping sequence that a reset interrupts is abandoned; a repair and a frequency change before its step 4 are
queued again (R339, R340). -/
def dropSequence (s : State) : State :=
  match s.hk.cur with
  | some .repair => abandonRepair s
  | some (.freq p ld) =>
    if s.hk.freq == .drain then { s with hk := { s.hk with cur := none, freq := .none, waiting := .freq p ld :: s.hk.waiting } } else s
  | _ => s

/-- The sideband's transactions are discarded: their users learn that they have failed. -/
def dropSideband (s : State) : State :=
  let xs := s.link.cur.toList ++ s.link.queue
  xs.foldl (fun t x => sbFailed t x 2) { s with link := { s.link with cur := none, queue := [], ppBusy := false } }

/-- What the reset of a domain takes from its units; configuration registers keep their values (R339). -/
def domainReset (s : State) (d : Nat) : State :=
  match d with
  | 92 => dropSequence s
  | 94 => { s with log := { s.log with inq := [] } }
  | 95 => { s with pmu := { s.pmu with buf := [] } }
  | 96 => { s with test := { s.test with t1500Busy := false } }
  | 97 => dropSideband s
  | 98 => { s with pwr := { s.pwr with vddNext := none } }
  | _ => s

/-- A domain is reset onto the IRC (R339). -/
def forceSwitch (s : State) (d : Nat) : State :=
  if d < 92 ∨ 98 < d ∨ !(s.clk.onPll || s.clk.phase != .none) then s
  else
    let s := logEv (latch s pgClk 2) 0x0102 pgClk .error (BitVec.ofNat 32 d)
    let s := { s with clk := { s.clk with swDomain := d, swForced := true, forcedCount := min 65535 (s.clk.forcedCount + 1) } }
    let s := if d = 92 then uncertainTime s else s
    faultAt (domainReset s d) (domainPage d) .forced .unit

/-- A domain's PLL-derived clock shows no edges (R339). -/
def execForcedSwitch (d : Fin 100) (s : State) : Host.Outcome State Fault Refusal := .next (forceSwitch s d)

/-! ### Gates (R333) -/

/-- Nothing of the work admitted in a domain remains (R333). -/
def domainIdle (s : State) (d : Nat) : Bool :=
  if d < 64 then !(chan s d).busy && (chan s d).partIn.isEmpty
  else if d < 80 then !(s.reqs.any (fun r => r.port.val == d - 64)) && (port s (d - 64)).replies.isEmpty
  else if d < 88 then octIdle s (d - 80) && (oct s (d - 80)).held.isEmpty && (d != 80 || s.disp.ops.isEmpty)
  else if d < 92 then !(cal s (d - 88)).active && (cal s (d - 88)).pendErr.isEmpty
  else if d = 92 then s.hk.cur.isNone && s.hk.waiting.isEmpty && s.ecc.repair.isNone
  else if d = 96 then !s.test.mbistBusy && !s.test.t1500Busy
  else if d = 97 then s.link.cur.isNone && s.link.queue.isEmpty
  else true

/-- A gated domain's clock stops once its work is done (R333). -/
def gateStop (s : State) (d : Nat) : State :=
  if gated s d && domainIdle s d then { s with clk := { s.clk with stopped := s.clk.stopped ||| (1#128 <<< d) } } else s

/-- A gated domain's clock stops (R333). -/
def execGateClockStop (d : Fin 100) (s : State) : Host.Outcome State Fault Refusal := .next (gateStop s d)

/-! ### Frequency measurement (R336) -/

/-- The measurement ends with its count, or because a source stopped (R336). -/
def fmeasEnd (s : State) (count : Word) (stopped : Bool) : State :=
  if !s.clk.fmeasBusy then s
  else
    let s := setReg { s with clk := { s.clk with fmeasBusy := false, fmeasDone := true, fmeasStopped := stopped } } pgClk 0x074 count
    latch s pgClk 4

/-- A frequency measurement ends (R336). -/
def execFmeasComplete (count : Word) (stopped : Bool) (s : State) : Host.Outcome State Fault Refusal :=
  .next (fmeasEnd s count stopped)

end Sys2Proof.Machine
end

