-- ==== Sys2Proof/Machine/FaultRows.lean ====
section
/-! DEFINITION. Faults as events, the progress timers, and the end of a recovery (R355-R363). -/

namespace Sys2Proof.Machine

/-! ### Detection (R355-R359) -/

/-- The source may arise at the unit (Table 14-2). -/
def sourceFits (k : UnitKind) (src : FaultSource) : Bool :=
  match src with
  | .alert | .overrun => k == .ch
  | .fabric | .lock => k == .oct
  | _ => true

/-- Entries of a channel that a fault keeps: its queued writes, then its Liner entries. -/
def keptWrites (c : Chan) : Nat := (c.cmdq.filter (·.write)).length

/-- A kept entry whose own check fails is written as poison, and DATA_LOSS latches (R359). -/
def poisonKept (s : State) (ci i : Nat) : State :=
  let c := chan s ci
  let bad := fun (e : Entry) => { e with data := e.data.map poisonSector, mask := e.mask.map (fun _ => fullMask) }
  let s := match (c.cmdq.filter (·.write))[i]? with
    | some e => setChan s ci { c with cmdq := c.cmdq.map (fun q => if q.seq = e.seq ∧ q.write = true then bad q else q) }
    | none =>
      match c.liner[i - keptWrites c]? with
      | some l => setChan s ci { c with liner := c.liner.map (fun x => if x.serial = l.serial then
          { x with st := .merged, mask := fullMask, readBack := some (poisonSector zeroSector) } else x) }
      | none => s
  latch s (chPage ci) 3

/-- After an uncorrectable word of a channel's own SRAM, which kept entry failed its check, if any, is a free choice
(R359, log 6). -/
def keptCheck (s : State) (ci : Nat) : State :=
  let n := keptWrites (chan s ci) + (chan s ci).liner.length
  let i := Config.freeNat (n + 1) s.free % (n + 1)
  let s := { s with free := s.free + 1 }
  if i < n then poisonKept s ci i else s

/-- A fault is detected in a unit of the part (R355-R357). -/
def detect (s : State) (page : Nat) (k : UnitKind) (src : FaultSource) (part : FaultPart) : State :=
  if !sourceFits k src then s
  else if src = .alert then alertSeen s (page - 64)
  else
    let live := s.blk.st == .ready
    let s := faultAt s page src part
    if live && src == .sramUe && k == .ch then keptCheck s (page - 64) else s

/-- A fault is detected and classed (R355). -/
def execFaultDetected (page : Fin 128) (src : FaultSource) (part : FaultPart) (s : State) : Host.Outcome State Fault Refusal :=
  match unitOf s page with
  | some u => .next (detect s page u.1 src part)
  | none => .fault .absentUnit

/-! ### Progress timers (R362, R363, Table 14-4) -/

/-- A channel's entry waits only on write-forbid, a lock or held fragments (R363). -/
def waitsOnly (s : State) (e : Entry) : Bool :=
  (e.waitsWriting && writeForbidden s) || (List.range e.n).any (fun i => lockedOut s e (e.at i) || heldOn s (e.at i))

/-- A channel's timer runs: it holds entries, slices or Liner entries, and not only ones that wait as R363 says. -/
def chanProg (s : State) (ci : Nat) : Bool :=
  let c := chan s ci
  let es := c.rq ++ c.cmdq
  let slices := !(c.slicer.isEmpty && c.sliceq.isEmpty && c.running.isEmpty)
  (slices || !c.liner.isEmpty || !es.isEmpty) && !(!es.isEmpty && !slices && es.all (waitsOnly s))

/-- Timers pause during a trip, a frequency change and the recovery of their own scope (R363). -/
def progPaused (s : State) (u : UnitKind × Nat) : Bool :=
  s.thm.tripPh != 0 || s.hk.freq != .none || inRecovery s u || !s.clk.coreRun

/-- The dispatcher holds descriptors whose slices are not all queued. -/
def dispProg (s : State) : Bool := s.disp.ops.any (fun e => !e.2.stopped && e.2.chans.any (fun c => decide (0 < c.2.left)))

/-- The progress timer of a unit runs now (Table 14-4). -/
def progRuns (s : State) (u : UnitKind × Nat) (part : FaultPart) : Bool :=
  match u.1, part with
  | .ch, _ => chanProg s u.2 && !progPaused s u
  | .oct, .unit => !(oct s u.2).queue.isEmpty && !progPaused s u
  | .oct, .dispatcher => u.2 == 0 && dispProg s && !progPaused s u
  | .port, _ => !(port s u.2).replies.isEmpty && !(port s u.2).stall && !progPaused s u
  | _, _ => false

/-- The ticks that a unit's progress timer has counted. -/
def progOf (s : State) (u : UnitKind × Nat) (part : FaultPart) : Nat :=
  match u.1, part with
  | .ch, _ => (chan s u.2).prog
  | .oct, .unit => (oct s u.2).prog
  | .oct, .dispatcher => s.disp.prog
  | .port, _ => (port s u.2).prog
  | _, _ => 0

/-- LIMIT in ticks (Table 14-6). -/
def progLimit (s : State) : Nat := max 100 (regF s pgBlk 0x0A0 0 14) * ticksPerUs

/-- The timer of a unit has expired. -/
def progExpired (s : State) (u : UnitKind × Nat) (part : FaultPart) : Bool :=
  regB s pgBlk 0x0A0 31 && progRuns s u part && decide (progLimit s ≤ progOf s u part)

/-- Units whose expiry has a larger scope than a class of fault (R363). -/
def largerExpired (s : State) (cls : Nat) : Bool :=
  (decide (cls < 3) && (List.range (nOct s)).any (fun k => progExpired s (.oct, k) .unit)) ||
    (decide (cls < 4) && (progExpired s (.oct, 0) .dispatcher || (List.range 16).any (fun p => progExpired s (.port, p) .unit)))

/-- A progress timer expires: the largest scope's fault is declared (R362, R363). -/
def expire (s : State) (page : Nat) (u : UnitKind × Nat) (part : FaultPart) : State :=
  if !progExpired s u part || largerExpired s (faultClass s page .progress part) then s
  else faultAt s page .progress part

/-- A progress timer reaches its limit (R362). -/
def execProgressTimerExpiry (page : Fin 128) (part : FaultPart) (s : State) : Host.Outcome State Fault Refusal :=
  match unitOf s page with
  | some u => .next (expire s page u part)
  | none => .fault .absentUnit

/-! ### The end of a recovery (R360, Table 14-3) -/

/-- The recovery's steps are done: no trip or frequency change holds the stack, but that one from ALERT ends within the drain
of a change (R272), the clocks run, the row commands of its
channels have gone out, and their unconfirmed writes have been sent again (Table 14-3). -/
def recoveryReady (s : State) (r : Recovery) : Bool :=
  let w := r.scope.within
  s.thm.tripPh == 0 && (s.hk.freq == .none || (s.hk.freq == .drain && r.src == .alert)) && s.clk.coreRun &&
    (List.range (nChan s)).all (fun c => !w.chan c || ((chan s c).rowOut.isEmpty && (chan s c).replayq.isEmpty) || !linkLive s)

/-- Grants resume in the scope, and its timers restart (Table 14-3). -/
def resumeScope (s : State) (sc : Scope) : State :=
  match sc with
  | .channel c => modChan s c (fun x => { x with halted := false, prog := 0 })
  | .octant k => modOct s k (fun o => { o with scratch := [], lost := none, prog := 0 })
  | .block =>
    let s := forN (nChan s) (fun t c => modChan t c (fun x => { x with halted := false, prog := 0 })) s
    let s := forN (nOct s) (fun t k => modOct t k (fun o => { o with prog := 0 })) s
    let s := forN 16 (fun t p => modPort t p (fun x => { x with prog := 0 })) s
    { s with disp := { s.disp with prog := 0 } }

/-- The recovery of a unit's fault ends: it is logged with its length, and service resumes (R360, Tables 14-6 and 14-9). -/
def recovered (s : State) (page : Nat) : State :=
  match s.recov.find? (fun r => r.page == page) with
  | none => s
  | some r =>
    if !recoveryReady s r then s
    else
      let n := s.time.tick - r.start
      let s := if s.blk.st = .lost then s else resumeScope s r.scope
      let s := setRegF s pgBlk 0x0A4 24 8 (min 255 r.restarts)
      let s := { s with recov := s.recov.filter (fun q => q.page != page), lastInt := (n + ticksPerUs - 1) / ticksPerUs }
      logEv s 0x0101 page .notice (BitVec.ofNat 32 (min 0xFFFFFFFF (4 * n)))

/-- Recovery ends (R360). -/
def execRecoveryComplete (page : Fin 128) (s : State) : Host.Outcome State Fault Refusal :=
  match unitOf s page with
  | some _ => .next (recovered s page)
  | none => .fault .absentUnit

end Sys2Proof.Machine
end

