-- ==== Sys2Proof/Machine/PortRows.lean ====
section
/-! DEFINITION. The request rows and the events of the ports: headers, beats, admission, fences, handle commands and
replies (02, 03). -/

namespace Sys2Proof.Machine

/-- The header of a row as it arrives at its port. -/
def arrive (p : Fin 16) (opc : Byte) (h : Hdr) (aux : Word) (bs : List Beat) (s : State) :
    Host.Outcome State Fault Refusal := .next (accept s p opc h aux bs)

/-! ### Credits (R35-R38) -/

/-- A header presented without a header credit is refused, and its beats are consumed (R37). -/
def execHeaderWithoutCredit (p : Fin 16) (opc : Byte) (h : Hdr) (aux : Word) (bs : List Beat) (s : State) :
    Host.Outcome State Fault Refusal :=
  if (port s p).hdrCredits = 0 then arrive p opc h aux bs s else .next s

/-- A beat presented without a beat credit is lost, and CREDIT_ERR latches (R37). -/
def execBeatWithoutCredit (p : Fin 16) (b : Beat) (s : State) : Host.Outcome State Fault Refusal :=
  .next (if (port s p).beatCredits = 0 then presentBeat s p b else s)

/-- A write-data beat goes to the oldest header whose beats are due (R38). -/
def execWriteDataBeat (p : Fin 16) (b : Beat) (s : State) : Host.Outcome State Fault Refusal :=
  .next (presentBeat s p b)

/-- A header that step 1 refuses for its opcode, flags or privilege (R42, R43). -/
def execReservedOpcode (p : Fin 16) (opc : Byte) (h : Hdr) (aux : Word) (bs : List Beat) (s : State) :
    Host.Outcome State Fault Refusal := arrive p opc h aux bs s

/-! ### Sector requests (Table 2-4) -/

/-- RD reads LEN + 1 sectors (R45). -/
def execRd (p : Fin 16) (h : Hdr) (s : State) : Host.Outcome State Fault Refusal := arrive p opRd h 0 [] s

/-- WR writes LEN + 1 whole sectors (R45). -/
def execWr (p : Fin 16) (h : Hdr) (bs : List Beat) (s : State) : Host.Outcome State Fault Refusal := arrive p opWr h 0 bs s

/-- WRP writes the enabled bytes of LEN + 1 sectors (R46). -/
def execWrp (p : Fin 16) (h : Hdr) (bs : List Beat) (s : State) : Host.Outcome State Fault Refusal := arrive p opWrp h 0 bs s

/-- AT with AOP ADD (R188-R191, Table 7-3). -/
def execAtAdd (p : Fin 16) (h : Hdr) (aux : Word) (bs : List Beat) (s : State) : Host.Outcome State Fault Refusal :=
  arrive p opAt h aux bs s

/-- AT with AOP MIN (Table 7-3). -/
def execAtMin (p : Fin 16) (h : Hdr) (aux : Word) (bs : List Beat) (s : State) : Host.Outcome State Fault Refusal :=
  arrive p opAt h aux bs s

/-- AT with AOP MAX (Table 7-3). -/
def execAtMax (p : Fin 16) (h : Hdr) (aux : Word) (bs : List Beat) (s : State) : Host.Outcome State Fault Refusal :=
  arrive p opAt h aux bs s

/-- AT with AOP AND (Table 7-3). -/
def execAtAnd (p : Fin 16) (h : Hdr) (aux : Word) (bs : List Beat) (s : State) : Host.Outcome State Fault Refusal :=
  arrive p opAt h aux bs s

/-- AT with AOP OR (Table 7-3). -/
def execAtOr (p : Fin 16) (h : Hdr) (aux : Word) (bs : List Beat) (s : State) : Host.Outcome State Fault Refusal :=
  arrive p opAt h aux bs s

/-- AT with AOP XOR (Table 7-3). -/
def execAtXor (p : Fin 16) (h : Hdr) (aux : Word) (bs : List Beat) (s : State) : Host.Outcome State Fault Refusal :=
  arrive p opAt h aux bs s

/-- AT with AOP SWAP (Table 7-3). -/
def execAtSwap (p : Fin 16) (h : Hdr) (aux : Word) (bs : List Beat) (s : State) : Host.Outcome State Fault Refusal :=
  arrive p opAt h aux bs s

/-- AT with AOP CAS (Table 7-3). -/
def execAtCas (p : Fin 16) (h : Hdr) (aux : Word) (bs : List Beat) (s : State) : Host.Outcome State Fault Refusal :=
  arrive p opAt h aux bs s

/-- RDW adds a fragment into LEN + 1 sectors (R193, R197). -/
def execRdw (p : Fin 16) (h : Hdr) (aux : Word) (bs : List Beat) (s : State) : Host.Outcome State Fault Refusal :=
  arrive p opRdw h aux bs s

/-! ### Vyolo operations (06): a SOP with its descriptor -/

/-- DOT, ROWSPLIT (R150). -/
def execSopDotRowsplit (p : Fin 16) (h : Hdr) (bs : List Beat) (s : State) : Host.Outcome State Fault Refusal :=
  arrive p opSop h 0 bs s

/-- DOT, KSPLIT (R151). -/
def execSopDotKsplit (p : Fin 16) (h : Hdr) (bs : List Beat) (s : State) : Host.Outcome State Fault Refusal :=
  arrive p opSop h 0 bs s

/-- ATTN (R153-R157). -/
def execSopAttn (p : Fin 16) (h : Hdr) (bs : List Beat) (s : State) : Host.Outcome State Fault Refusal :=
  arrive p opSop h 0 bs s

/-- GATHER (R138, Table 6-4). -/
def execSopGather (p : Fin 16) (h : Hdr) (bs : List Beat) (s : State) : Host.Outcome State Fault Refusal :=
  arrive p opSop h 0 bs s

/-- SCATTER_ADD (R158, Table 6-4). -/
def execSopScatterAdd (p : Fin 16) (h : Hdr) (bs : List Beat) (s : State) : Host.Outcome State Fault Refusal :=
  arrive p opSop h 0 bs s

/-- SETX, intersection (R159, R160). -/
def execSopSetxIntersect (p : Fin 16) (h : Hdr) (bs : List Beat) (s : State) : Host.Outcome State Fault Refusal :=
  arrive p opSop h 0 bs s

/-- SETX, union (R159, R160). -/
def execSopSetxUnion (p : Fin 16) (h : Hdr) (bs : List Beat) (s : State) : Host.Outcome State Fault Refusal :=
  arrive p opSop h 0 bs s

/-- SETX, difference (R159, R160). -/
def execSopSetxDiff (p : Fin 16) (h : Hdr) (bs : List Beat) (s : State) : Host.Outcome State Fault Refusal :=
  arrive p opSop h 0 bs s

/-- EXPAND (R161). -/
def execSopExpand (p : Fin 16) (h : Hdr) (bs : List Beat) (s : State) : Host.Outcome State Fault Refusal :=
  arrive p opSop h 0 bs s

/-- FILTER (R162). -/
def execSopFilter (p : Fin 16) (h : Hdr) (bs : List Beat) (s : State) : Host.Outcome State Fault Refusal :=
  arrive p opSop h 0 bs s

/-- COPY between resident operands (R163). -/
def execSopCopyResident (p : Fin 16) (h : Hdr) (bs : List Beat) (s : State) : Host.Outcome State Fault Refusal :=
  arrive p opSop h 0 bs s

/-- COPY between data ranges (R163). -/
def execSopCopyStriped (p : Fin 16) (h : Hdr) (bs : List Beat) (s : State) : Host.Outcome State Fault Refusal :=
  arrive p opSop h 0 bs s

/-- COPY from a Crown's scratch (R163). -/
def execSopCopyFromCrown (p : Fin 16) (h : Hdr) (bs : List Beat) (s : State) : Host.Outcome State Fault Refusal :=
  arrive p opSop h 0 bs s

/-- FILL (R164). -/
def execSopFill (p : Fin 16) (h : Hdr) (bs : List Beat) (s : State) : Host.Outcome State Fault Refusal :=
  arrive p opSop h 0 bs s

/-- BCAST writes sectors of the broadcast buffer (R139, R140). -/
def execBcast (p : Fin 16) (h : Hdr) (bs : List Beat) (s : State) : Host.Outcome State Fault Refusal :=
  arrive p opBcast h 0 bs s

/-! ### Ordering and handles (R56, R57, R80-R89) -/

/-- FENCE waits for every earlier request of its source (R57). -/
def execFence (p : Fin 16) (h : Hdr) (s : State) : Host.Outcome State Fault Refusal := arrive p opFence h 0 [] s

/-- A FENCE replies OK once every earlier request of its source has replied (R57). -/
def execFenceRelease (p : Fin 16) (src : BitVec 10) (tag : BitVec 12) (s : State) : Host.Outcome State Fault Refusal :=
  .next (match findTag s p src tag (fun r => r.stage == .fence) with
    | some r => if (earlierSame s r).isEmpty then replyReq s r .ok 0#8 [] else s
    | none => s)

/-- HCMT commits sectors of a stream (R88). -/
def execHcmt (p : Fin 16) (h : Hdr) (aux : Word) (s : State) : Host.Outcome State Fault Refusal := arrive p opHcmt h aux [] s

/-- HRBK rolls a stream back to its committed length (R88). -/
def execHrbk (p : Fin 16) (h : Hdr) (s : State) : Host.Outcome State Fault Refusal := arrive p opHrbk h 0 [] s

/-- HREL releases a handle (R88). -/
def execHrel (p : Fin 16) (h : Hdr) (s : State) : Host.Outcome State Fault Refusal := arrive p opHrel h 0 [] s

/-- A handle command whose turn has come takes effect on its entry (R88). -/
def execHandleCmdTakesEffect (p : Fin 16) (src : BitVec 10) (tag : BitVec 12) (s : State) :
    Host.Outcome State Fault Refusal :=
  .next (match findTag s p src tag (fun r => r.stage == .handle && r.tAdmit.isNone) with
    | some r =>
      if handleTurn s r then handlesDone (handleEffect s r)
      else if lacksParent s r then hdlFetch s (hParent (hdlBytes s r.handle)) r.port .rt (r.storeDl s)
      else s
    | none => s)

/-! ### Configuration and gated ports (R60-R62, R335) -/

/-- CFG_RD reads one register (R60). -/
def execCfgRd (p : Fin 16) (h : Hdr) (s : State) : Host.Outcome State Fault Refusal := arrive p opCfgRd h 0 [] s

/-- CFG_WR writes one register (R60). -/
def execCfgWr (p : Fin 16) (h : Hdr) (bs : List Beat) (s : State) : Host.Outcome State Fault Refusal := arrive p opCfgWr h 0 bs s

/-- The stub of a gated port answers GATED, and discards what comes with the header (R335). -/
def execGatedPortStub (p : Fin 16) (opc : Byte) (h : Hdr) (bs : List Beat) (s : State) : Host.Outcome State Fault Refusal :=
  if gated s (64 + p.val) then arrive p opc h 0 bs s else .next s

/-! ### Admission and replies -/

/-- The first request of a port that waits at step 5 passes it when its resources are free (R17, R49, R197). -/
def execAdmissionStep5Pass (p : Fin 16) (s : State) : Host.Outcome State Fault Refusal :=
  .next (match firstStep5 s p with
    | some r => if untranslated s r then s else passStep5 s r
    | none => s)

/-- A request still before the end of step 5 when PORT_TIMEOUT has passed replies TIMEOUT (R59). -/
def execPortTimeoutExpiry (p : Fin 16) (src : BitVec 10) (tag : BitVec 12) (s : State) : Host.Outcome State Fault Refusal :=
  .next (match findTag s p src tag (fun r => timeable r && timedOut s r) with
    | some r =>
      let s := if r.stage = .beats then modReq s r.id (fun q => { q with ghost := true }) else s
      pumpAll (replyReq s r .timeout 0#8 [])
    | none => s)

/-- The port sends the next beat of the reply that ranks first, unless RPL_STALL was high in the cycle before; `stall` is
RPL_STALL in this cycle (R34, R40, R41, R50, R396). -/
def execReplyBeatSend (p : ReplyTurn) (s : State) : Host.Outcome State Fault Refusal :=
  .next (modPort (sendBeat s p.port) p.port (fun x => { x with stall := p.stall }))

/-- The candidate that ended the sampling interval is selected, and a new interval is drawn (R395). -/
def execSampleSelect (s : State) : Host.Outcome State Fault Refusal := .next (selectDue s)

end Sys2Proof.Machine
end

