-- ==== Sys2Proof/Machine/TestRows.lean ====
section
/-! DEFINITION. The in-service memory test and the test access port (R376-R380). -/

namespace Sys2Proof.Machine

/-! ### The scratch test (R376) -/

/-- The code of a memory test's result (Table 14-15). -/
def mbistCode : MbistEnd → Nat
  | .pass => 0 | .repaired => 1 | .fail => 2

/-- The scratch test that heads HK's queue ends: the scratch reads zero, and an unrepairable one leaves its octant stopped
(R376, Table 16-8). -/
def mbistDone (s : State) (r : MbistEnd) (rows cols : Byte) : State :=
  match s.hk.cur, s.hk.waiting with
  | none, .mbist k :: rest =>
    let s := modOct s k (fun o => { o with scratch := [], lost := none, dead := o.dead || r == .fail, run := if r = .fail then .stopped else o.run })
    let s := { s with hk := { s.hk with waiting := rest }
                      test := { s.test with mbistBusy := false, mbistResult := mbistCode r, mbistRows := rows, mbistCols := cols } }
    latch s pgTest 0
  | _, _ => s

/-- The scratch test ends (R376). -/
def execMbistComplete (r : MbistEnd) (rows cols : Byte) (s : State) : Host.Outcome State Fault Refusal :=
  .next (mbistDone s r rows cols)

/-! ### The test access port (R378-R380) -/

/-- An instruction of the test access port is loaded. -/
def loadIr (s : State) (i : JtagIr) : State := { s with test := { s.test with ir := i } }

/-- An instruction that acts as BYPASS: the 1-bit register captures 0. -/
def asBypass (s : State) (i : JtagIr) : State := { s with test := { s.test with ir := i, bypassDr := false } }

/-- BYPASS (Table 14-14). -/
def execJtagBypass (s : State) : Host.Outcome State Fault Refusal := .next (asBypass s .bypass)

/-- The part code of IDCODE (Table 14-14). -/
def partCode (s : State) : BitVec 16 :=
  match s.part with | .rosura32 => 0x0032#16 | .rosura64 => 0x0064#16 | .rosura64H => 0x064E#16

/-- The 32-bit identity (Table 14-14). -/
def idcode (s : State) : Word := Config.idcodeVersion ++ partCode s ++ Config.idcodeMaker ++ 1#1

/-- IDCODE captures the identity (Table 14-14). -/
def execJtagIdcode (s : State) : Host.Outcome State Fault Refusal :=
  .next (loadIr { s with test := { s.test with idDr := idcode s } } .idcode)

/-- The key under which the test access port's configuration access counts as a port (R392, R394, R379). -/
def jtagPort : Nat := 16

/-- A configuration access at PRIV = 2 would reply OK (R60, R28, R84, R379). -/
def jtagOk (s : State) (page off : Nat) (write : Bool) (v : Word) : Bool :=
  (unitOf s page).isSome && off % 4 == 0 && !gated s (pageDomain page) && clocked s (pageDomain page) &&
    !(write && cfgBusy s page off v)

/-- Update-DR of CFG: the access, and what the following Capture-DR loads (R379). -/
def jtagAccess (s : State) (dr : BitVec 54) : State :=
  let page := fieldNat dr 12 8
  let off := fieldNat dr 0 12
  let write := dr.getLsbD 20
  let v : Word := field dr 21 32
  let head : BitVec 21 := field dr 0 21
  if !jtagOk s page off write v then { s with test := { s.test with cfgDr := 1#1 ++ v ++ head } }
  else if write then
    let s := regWrite s jtagPort page off v none
    { s with test := { s.test with cfgDr := 0#1 ++ v ++ head } }
  else
    let w := regView s jtagPort page off
    let s := regReadEffect s jtagPort page off
    { s with test := { s.test with cfgDr := 0#1 ++ w ++ head } }

/-- CFG (R379). -/
def execJtagCfg (dr : BitVec 54) (s : State) : Host.Outcome State Fault Refusal := .next (jtagAccess (loadIr s .cfg) dr)

/-- TESTCTL writes TEST_CTL.STACKTEST (R377, Table 14-14). -/
def execJtagTestctl (b : Bool) (s : State) : Host.Outcome State Fault Refusal :=
  .next { s with test := { s.test with ir := .testctl, stackTest := b } }

/-- Scan access is permitted: BOOT before step 7, or HALTED (R380). -/
def scanMay (s : State) : Bool := (s.blk.st == .boot && decide (s.blk.step < 7)) || s.blk.st == .halted

/-- SCAN zeroises and then connects the chains; at any other time it acts as BYPASS (R380). -/
def execJtagScan (s : State) : Host.Outcome State Fault Refusal :=
  .next (if scanMay s then
      let s := zeroise s
      { s with test := { s.test with ir := .scan, scanning := true } }
    else asBypass s .scan)

/-- Leaving SCAN performs a warm reset (R380). -/
def execJtagScanLeave (s : State) : Host.Outcome State Fault Refusal :=
  .next (if s.test.scanning then loadIr (warmState s false) .bypass
    else if s.test.ir == .scan then loadIr s .bypass
    else s)

/-- FUSE acts as BYPASS outside chip test (Table 14-14). -/
def execJtagFuse (s : State) : Host.Outcome State Fault Refusal := .next (asBypass s .fuse)

end Sys2Proof.Machine
end

