-- ==== Sys2Proof/Machine/Dispatch.lean ====
section
/-! DEFINITION. One arm per command: each calls its meaning, or is rejected by name. -/

namespace Sys2Proof.Machine

/-- The effect of a command on everything but the queue. -/
def exec (i : Instr) (s : State) : Host.Outcome State Fault Refusal :=
  match i with
  | .headerWithoutCredit p opc h aux bs => Sys2Proof.Machine.execHeaderWithoutCredit p opc h aux bs s
  | .beatWithoutCredit p b => Sys2Proof.Machine.execBeatWithoutCredit p b s
  | .writeDataBeat p b => Sys2Proof.Machine.execWriteDataBeat p b s
  | .reservedOpcode p opc h aux bs => Sys2Proof.Machine.execReservedOpcode p opc h aux bs s
  | .rd p h => Sys2Proof.Machine.execRd p h s
  | .wr p h bs => Sys2Proof.Machine.execWr p h bs s
  | .wrp p h bs => Sys2Proof.Machine.execWrp p h bs s
  | .atAdd p h aux bs => Sys2Proof.Machine.execAtAdd p h aux bs s
  | .atMin p h aux bs => Sys2Proof.Machine.execAtMin p h aux bs s
  | .atMax p h aux bs => Sys2Proof.Machine.execAtMax p h aux bs s
  | .atAnd p h aux bs => Sys2Proof.Machine.execAtAnd p h aux bs s
  | .atOr p h aux bs => Sys2Proof.Machine.execAtOr p h aux bs s
  | .atXor p h aux bs => Sys2Proof.Machine.execAtXor p h aux bs s
  | .atSwap p h aux bs => Sys2Proof.Machine.execAtSwap p h aux bs s
  | .atCas p h aux bs => Sys2Proof.Machine.execAtCas p h aux bs s
  | .rdw p h aux bs => Sys2Proof.Machine.execRdw p h aux bs s
  | .sopDotRowsplit p h bs => Sys2Proof.Machine.execSopDotRowsplit p h bs s
  | .sopDotKsplit p h bs => Sys2Proof.Machine.execSopDotKsplit p h bs s
  | .sopAttn p h bs => Sys2Proof.Machine.execSopAttn p h bs s
  | .sopGather p h bs => Sys2Proof.Machine.execSopGather p h bs s
  | .sopScatterAdd p h bs => Sys2Proof.Machine.execSopScatterAdd p h bs s
  | .sopSetxIntersect p h bs => Sys2Proof.Machine.execSopSetxIntersect p h bs s
  | .sopSetxUnion p h bs => Sys2Proof.Machine.execSopSetxUnion p h bs s
  | .sopSetxDiff p h bs => Sys2Proof.Machine.execSopSetxDiff p h bs s
  | .sopExpand p h bs => Sys2Proof.Machine.execSopExpand p h bs s
  | .sopFilter p h bs => Sys2Proof.Machine.execSopFilter p h bs s
  | .sopCopyResident p h bs => Sys2Proof.Machine.execSopCopyResident p h bs s
  | .sopCopyStriped p h bs => Sys2Proof.Machine.execSopCopyStriped p h bs s
  | .sopCopyFromCrown p h bs => Sys2Proof.Machine.execSopCopyFromCrown p h bs s
  | .sopFill p h bs => Sys2Proof.Machine.execSopFill p h bs s
  | .bcast p h bs => Sys2Proof.Machine.execBcast p h bs s
  | .fence p h => Sys2Proof.Machine.execFence p h s
  | .fenceRelease p src tag => Sys2Proof.Machine.execFenceRelease p src tag s
  | .hcmt p h aux => Sys2Proof.Machine.execHcmt p h aux s
  | .hrbk p h => Sys2Proof.Machine.execHrbk p h s
  | .hrel p h => Sys2Proof.Machine.execHrel p h s
  | .handleCmdTakesEffect p src tag => Sys2Proof.Machine.execHandleCmdTakesEffect p src tag s
  | .cfgRd p h => Sys2Proof.Machine.execCfgRd p h s
  | .cfgWr p h bs => Sys2Proof.Machine.execCfgWr p h bs s
  | .gatedPortStub p opc h bs => Sys2Proof.Machine.execGatedPortStub p opc h bs s
  | .admissionStep5Pass p => Sys2Proof.Machine.execAdmissionStep5Pass p s
  | .portTimeoutExpiry p src tag => Sys2Proof.Machine.execPortTimeoutExpiry p src tag s
  | .replyBeatSend p => Sys2Proof.Machine.execReplyBeatSend p s
  | .sampleSelect => Sys2Proof.Machine.execSampleSelect s
  | .requesterQueueToCmdq c => Sys2Proof.Machine.execRequesterQueueToCmdq c s
  | .gateSlotDecision c => Sys2Proof.Machine.execGateSlotDecision c s
  | .windowStart => Sys2Proof.Machine.execWindowStart s
  | .schedCommandSlot c => Sys2Proof.Machine.execSchedCommandSlot c s
  | .bankHalfTimingExpiry c b h => Sys2Proof.Machine.execBankHalfTimingExpiry c b h s
  | .refreshDue c b => Sys2Proof.Machine.execRefreshDue c b s
  | .sliceResume c b => Sys2Proof.Machine.execSliceResume c b s
  | .readBurstArrival c => Sys2Proof.Machine.execReadBurstArrival c s
  | .vaultReconstructionDone c => Sys2Proof.Machine.execVaultReconstructionDone c s
  | .verifyReadResult c => Sys2Proof.Machine.execVerifyReadResult c s
  | .linerAgeExpiry c => Sys2Proof.Machine.execLinerAgeExpiry c s
  | .linerEvictionReadReturn c => Sys2Proof.Machine.execLinerEvictionReadReturn c s
  | .linerEntryJoinCmdq c => Sys2Proof.Machine.execLinerEntryJoinCmdq c s
  | .sliceQueueTake c => Sys2Proof.Machine.execSliceQueueTake c s
  | .vectorCopyStart d c => Sys2Proof.Machine.execVectorCopyStart d c s
  | .sliceStart c => Sys2Proof.Machine.execSliceStart c s
  | .sliceStatusPoll c ctx => Sys2Proof.Machine.execSliceStatusPoll c ctx s
  | .sliceDone c ctx => Sys2Proof.Machine.execSliceDone c ctx s
  | .sliceOverrun c ctx => Sys2Proof.Machine.execSliceOverrun c ctx s
  | .partialArrival c => Sys2Proof.Machine.execPartialArrival c s
  | .fabricTransferArrival d k => Sys2Proof.Machine.execFabricTransferArrival d k s
  | .crownItemTake k => Sys2Proof.Machine.execCrownItemTake k s
  | .crownLockTake k => Sys2Proof.Machine.execCrownLockTake k s
  | .crownReadReturn k => Sys2Proof.Machine.execCrownReadReturn k s
  | .crownWriteVisible k => Sys2Proof.Machine.execCrownWriteVisible k s
  | .operationResultDelivery d => Sys2Proof.Machine.execOperationResultDelivery d s
  | .heldDrainStart k => Sys2Proof.Machine.execHeldDrainStart k s
  | .patrolVisit c => Sys2Proof.Machine.execPatrolVisit c s
  | .repairSequenceStart => Sys2Proof.Machine.execRepairSequenceStart s
  | .remapActivate => Sys2Proof.Machine.execRemapActivate s
  | .chEccInjArm p h c v => Sys2Proof.Machine.execChEccInjArm p h c v s
  | .calStepBoundary n => Sys2Proof.Machine.execCalStepBoundary n s
  | .sweepTakeOver n => Sys2Proof.Machine.execSweepTakeOver n s
  | .scanPositionDwellEnd n bursts mismatch => Sys2Proof.Machine.execScanPositionDwellEnd n bursts mismatch s
  | .sweepReturn n => Sys2Proof.Machine.execSweepReturn n s
  | .sweepRelease n bursts mismatch => Sys2Proof.Machine.execSweepRelease n bursts mismatch s
  | .sweepEnd n => Sys2Proof.Machine.execSweepEnd n s
  | .srLnErrReading n count => Sys2Proof.Machine.execSrLnErrReading n count s
  | .calForce p h n v => Sys2Proof.Machine.execCalForce p h n v s
  | .thmSlotMeasurement reading => Sys2Proof.Machine.execThmSlotMeasurement reading s
  | .tripSelfRefreshEntry => Sys2Proof.Machine.execTripSelfRefreshEntry s
  | .roundBoundary => Sys2Proof.Machine.execRoundBoundary s
  | .tripResume => Sys2Proof.Machine.execTripResume s
  | .brimBudgetExhausted => Sys2Proof.Machine.execBrimBudgetExhausted s
  | .pmbusTransactionDone r => Sys2Proof.Machine.execPmbusTransactionDone r s
  | .pmbAlert => Sys2Proof.Machine.execPmbAlert s
  | .avsFrameDone r => Sys2Proof.Machine.execAvsFrameDone r s
  | .stkPgoodRise => Sys2Proof.Machine.execStkPgoodRise s
  | .pgoodTimeout => Sys2Proof.Machine.execPgoodTimeout s
  | .stkResetRelease => Sys2Proof.Machine.execStkResetRelease s
  | .stkPgoodFall => Sys2Proof.Machine.execStkPgoodFall s
  | .powerdownEntry c => Sys2Proof.Machine.execPowerdownEntry c s
  | .powerdownExit c => Sys2Proof.Machine.execPowerdownExit c s
  | .hkFreqRequest p h v => Sys2Proof.Machine.execHkFreqRequest p h v s
  | .freqChangeStart => Sys2Proof.Machine.execFreqChangeStart s
  | .freqDrainDone => Sys2Proof.Machine.execFreqDrainDone s
  | .freqChangeResume => Sys2Proof.Machine.execFreqChangeResume s
  | .coldReset => Sys2Proof.Machine.execColdReset s
  | .blkResetWarm p h v => Sys2Proof.Machine.execBlkResetWarm p h v s
  | .warmReset => Sys2Proof.Machine.execWarmReset s
  | .bootStepComplete r => Sys2Proof.Machine.execBootStepComplete r s
  | .refclkWindowEnd count => Sys2Proof.Machine.execRefclkWindowEnd count s
  | .refclkLoss => Sys2Proof.Machine.execRefclkLoss s
  | .pllLock => Sys2Proof.Machine.execPllLock s
  | .pllLockTimeout => Sys2Proof.Machine.execPllLockTimeout s
  | .pllClockLoss outputStopped refclkPresent => Sys2Proof.Machine.execPllClockLoss outputStopped refclkPresent s
  | .forcedSwitch d => Sys2Proof.Machine.execForcedSwitch d s
  | .timeSyncEdge => Sys2Proof.Machine.execTimeSyncEdge s
  | .blkTimeLoRead p h => Sys2Proof.Machine.execBlkTimeLoRead p h s
  | .clkGateWrite p h j v => Sys2Proof.Machine.execClkGateWrite p h j v s
  | .gateClockStop d => Sys2Proof.Machine.execGateClockStop d s
  | .clkFmeasGo p h v => Sys2Proof.Machine.execClkFmeasGo p h v s
  | .fmeasComplete count stopped => Sys2Proof.Machine.execFmeasComplete count stopped s
  | .faultDetected page src part => Sys2Proof.Machine.execFaultDetected page src part s
  | .progressTimerExpiry page part => Sys2Proof.Machine.execProgressTimerExpiry page part s
  | .recoveryComplete page => Sys2Proof.Machine.execRecoveryComplete page s
  | .logRd p h v => Sys2Proof.Machine.execLogRd p h v s
  | .logMark p h v => Sys2Proof.Machine.execLogMark p h v s
  | .pmuCfgSet p h v => Sys2Proof.Machine.execPmuCfgSet p h v s
  | .pmuCntLoRead p h n => Sys2Proof.Machine.execPmuCntLoRead p h n s
  | .pmuCntHiWrite p h n v => Sys2Proof.Machine.execPmuCntHiWrite p h n v s
  | .pmuCntLoWrite p h n v => Sys2Proof.Machine.execPmuCntLoWrite p h n v s
  | .counterAtMax n => Sys2Proof.Machine.execCounterAtMax n s
  | .pmuSmpRd p h v => Sys2Proof.Machine.execPmuSmpRd p h v s
  | .pmuSmpClr p h v => Sys2Proof.Machine.execPmuSmpClr p h v s
  | .hdlOpCreate p h hd => Sys2Proof.Machine.execHdlOpCreate p h hd s
  | .hdlOpRead p h hd => Sys2Proof.Machine.execHdlOpRead p h hd s
  | .hdlOpFree p h hd => Sys2Proof.Machine.execHdlOpFree p h hd s
  | .hdlOpDone => Sys2Proof.Machine.execHdlOpDone s
  | .linkPpOpRead p h addr => Sys2Proof.Machine.execLinkPpOpRead p h addr s
  | .linkPpOpProg p h addr => Sys2Proof.Machine.execLinkPpOpProg p h addr s
  | .rgnCommit p h => Sys2Proof.Machine.execRgnCommit p h s
  | .arbCommit p h => Sys2Proof.Machine.execArbCommit p h s
  | .unitStopRequest p h page => Sys2Proof.Machine.execUnitStopRequest p h page s
  | .unitStopped page => Sys2Proof.Machine.execUnitStopped page s
  | .unitRunRestart p h page => Sys2Proof.Machine.execUnitRunRestart p h page s
  | .unitAttnClear p h page v => Sys2Proof.Machine.execUnitAttnClear p h page v s
  | .registerWrite p h page off v => Sys2Proof.Machine.execRegisterWrite p h page off v s
  | .nrfReseed p h c v => Sys2Proof.Machine.execNrfReseed p h c v s
  | .entropyHealthFail t => Sys2Proof.Machine.execEntropyHealthFail t s
  | .testMbistGo p h v => Sys2Proof.Machine.execTestMbistGo p h v s
  | .mbistComplete r rows cols => Sys2Proof.Machine.execMbistComplete r rows cols s
  | .testT1500Go p h v => Sys2Proof.Machine.execTestT1500Go p h v s
  | .jtagBypass => Sys2Proof.Machine.execJtagBypass s
  | .jtagIdcode => Sys2Proof.Machine.execJtagIdcode s
  | .jtagCfg dr => Sys2Proof.Machine.execJtagCfg dr s
  | .jtagTestctl b => Sys2Proof.Machine.execJtagTestctl b s
  | .jtagScan => Sys2Proof.Machine.execJtagScan s
  | .jtagScanLeave => Sys2Proof.Machine.execJtagScanLeave s
  | .jtagFuse => Sys2Proof.Machine.execJtagFuse s
  | .sbRegRd ch addr len => Sys2Proof.Machine.execSbRegRd ch addr len s
  | .sbRegWr ch addr ws => Sys2Proof.Machine.execSbRegWr ch addr ws s
  | .sbPpRd addr len => Sys2Proof.Machine.execSbPpRd addr len s
  | .sbPpProg addr ws => Sys2Proof.Machine.execSbPpProg addr ws s
  | .sbPpStat => Sys2Proof.Machine.execSbPpStat s
  | .sbPpErase addr => Sys2Proof.Machine.execSbPpErase addr s
  | .sbT1500 addr ws => Sys2Proof.Machine.execSbT1500 addr ws s
  | .ppProgramComplete fail => Sys2Proof.Machine.execPpProgramComplete fail s
  | .sbResponse crcOk => Sys2Proof.Machine.execSbResponse crcOk s
  | .sbResponseTimeout => Sys2Proof.Machine.execSbResponseTimeout s
  | .rowNop c => Sys2Proof.Machine.execRowNop c s
  | .act c b row spare => Sys2Proof.Machine.execAct c b row spare s
  | .pre c b h both => Sys2Proof.Machine.execPre c b h both s
  | .ref c b => Sys2Proof.Machine.execRef c b s
  | .nrf c b row spare rad2 => Sys2Proof.Machine.execNrf c b row spare rad2 s
  | .sls c ctx banks => Sys2Proof.Machine.execSls c ctx banks s
  | .slp c ctx b => Sys2Proof.Machine.execSlp c ctx b s
  | .slr c ctx b => Sys2Proof.Machine.execSlr c ctx b s
  | .slx c ctx => Sys2Proof.Machine.execSlx c ctx s
  | .sre c => Sys2Proof.Machine.execSre c s
  | .srx c point => Sys2Proof.Machine.execSrx c point s
  | .pde c => Sys2Proof.Machine.execPde c s
  | .pdx c => Sys2Proof.Machine.execPdx c s
  | .rsync c => Sys2Proof.Machine.execRsync c s
  | .lane c h wire sel pat => Sys2Proof.Machine.execLane c h wire sel pat s
  | .colNop c => Sys2Proof.Machine.execColNop c s
  | .colRd c b h col => Sys2Proof.Machine.execColRd c b h col s
  | .colRda c b h col => Sys2Proof.Machine.execColRda c b h col s
  | .colWr c b h col d => Sys2Proof.Machine.execColWr c b h col d s
  | .colWra c b h col d => Sys2Proof.Machine.execColWra c b h col d s
  | .vwr c sector d => Sys2Proof.Machine.execVwr c sector d s
  | .vrd c sector => Sys2Proof.Machine.execVrd c sector s
  | .spw c ctx part d => Sys2Proof.Machine.execSpw c ctx part d s
  | .prd c ctx => Sys2Proof.Machine.execPrd c ctx s
  | .srd c ctx => Sys2Proof.Machine.execSrd c ctx s
  | .stackWckStop c => Sys2Proof.Machine.execStackWckStop c s
  | .entropyHealthRestored => Sys2Proof.Machine.execEntropyHealthRestored s

end Sys2Proof.Machine
end

