-- ==== Sys2Proof/Machine/Tick.lean ====
section
/-! DEFINITION. What passes with time: 0.4 ns, one core cycle of a running block, on an empty queue (log 2). -/

namespace Sys2Proof.Machine

/-! ### Counters (Table 15-3) -/

/-- RESERVED banks of a channel. -/
def reservedBanks (c : Chan) : Nat := ((List.range 16).filter (reserved c)).length

/-- Events counted in each core cycle. -/
def cycleCounts (s : State) : State :=
  if s.pmu.cfg.isEmpty then s
  else
    let s := forN (nChan s) (fun t c =>
      let t := evCh t c 0x00 1 none
      if (chan t c).pd == .powerdown || (chan t c).pd == .selfRefresh then evCh t c 0x14 1 none else t) s
    let s := forN 16 (fun t p =>
      let t := evPort (evPort t p 0x00 1 none) p 0x0D (waitingOf t p) none
      if (port t p).stall then evPort t p 0x0E 1 none else t) s
    let s := forN (nOct s) (fun t k =>
      let t := evOct t k 0x00 1 none
      if (oct t k).jobs.any (fun j => j.st == .wantLock) then evOct t k 0x05 1 none else t) s
    evBlk s 0x00 1 none

/-- Events counted in each tick. -/
def tickCounts (s : State) : State :=
  if s.pmu.cfg.isEmpty then s
  else
    let s := forN (nChan s) (fun t c => evCh t c 0x0D (reservedBanks (chan t c)) none) s
    let s := evBlk (evBlk s 0x01 1 none) 0x04 s.disp.ops.length none
    let s := if s.thm.forbid then evBlk s 0x06 1 none else s
    let s := if s.thm.w == .brim then evBlk s 0x07 1 none else s
    if s.thm.w == .hold || s.thm.w == .trip then evBlk s 0x08 1 none else s

/-! ### The Brim budget (R313) -/

/-- The budget after a tick, in 1/250,000 µs: it falls in BRIM by 1/250 µs and rises outside it by TIME/250,000 µs. -/
def budgetAfter (s : State) : Nat :=
  let b := s.thm.budget * 250000 + s.thm.budgetFrac
  if s.thm.w == .brim then min (b - 1000) (brimTime s * 250000000) else min (b + brimTime s) (brimTime s * 250000000)

/-- The Brim budget moves. -/
def budgetTick (s : State) : State :=
  let b := budgetAfter s
  { s with thm := { s.thm with budget := b / 250000, budgetFrac := b % 250000 } }

/-! ### Timers (R265, R362) -/

/-- A channel notes since when it has had nothing to do. -/
def idleTick (s : State) (c : Nat) : State :=
  let q := pdQuiet s c
  if q && (chan s c).idleSince.isSome || !q && (chan s c).idleSince.isNone then s
  else modChan s c (fun x => { x with idleSince := if q then some s.time.tick else none })

/-- The progress timers that run count a tick. -/
def progTick (s : State) : State :=
  let t := forN (nChan s) (fun t c => if progRuns s (.ch, c) .unit then modChan t c (fun x => { x with prog := x.prog + 1 }) else t) s
  let t := forN (nOct s) (fun t k => if progRuns s (.oct, k) .unit then modOct t k (fun o => { o with prog := o.prog + 1 }) else t) t
  let t := forN 16 (fun t p => if progRuns s (.port, p) .unit then modPort t p (fun x => { x with prog := x.prog + 1 }) else t) t
  if progRuns s (.oct, 0) .dispatcher then { t with disp := { t.disp with prog := t.disp.prog + 1 } } else t

/-! ### Time (R343) -/

/-- A tick of domain 92. -/
def timeTick (s : State) : State :=
  if s.clk.stopped.getLsbD 92 then s
  else
    let s := { s with time := { s.time with tick := s.time.tick + 1, blk := s.time.blk + 1 } }
    let s := logTake (forN (nChan s) idleTick (progTick (budgetTick s)))
    tickCounts s

/-- A core cycle of domains 0 to 91: reconstructions and a remap whose row has come to rest begin their reads, and the slot
that begins now takes its grants. -/
def coreCycle (s : State) : State :=
  cycleCounts (startSlots (remapCopy (reconAskAll { s with time := { s.time with cyc := s.time.cyc + 1 } })))

/-- 0.4 ns pass: a core cycle while the core runs, and every tenth time a tick. -/
def tick (s : State) : State :=
  let s := if s.clk.coreRun then coreCycle s else s
  if s.time.sub + 1 < cycPerTick then { s with time := { s.time with sub := s.time.sub + 1 } }
  else timeTick { s with time := { s.time with sub := 0 } }

end Sys2Proof.Machine
end

