-- ==== Sys2Proof/Safety.lean ====
section
/-! DEFINITION. What a safe state is, in the terms the statements use: the pins follow the states that drive them, requests
have identities of their own, and the stack's memory keeps its canonical form. -/

namespace Sys2Proof.Machine

/-- PORT_OPEN is up exactly in READY and LOST (R39), THERM_TRIP_N is low exactly in write state TRIP (R316, Table 12-5),
and a block in HALTED has the stack's power off (R352). -/
def PinsSound (s : State) : Prop :=
  (s.pins.portOpen = true ↔ s.blk.st = .ready ∨ s.blk.st = .lost) ∧
  (s.pins.thermTripN = false ↔ s.thm.w = .trip) ∧
  (s.blk.st = .halted → s.pins.stkPwrEn = false)

/-- Every request listed was given its identity before the next one (the model's own numbering). -/
def IdsFresh (s : State) : Prop := ∀ r ∈ s.reqs, r.id < s.nextReq

/-- The canonical form of the stack's memory: in the array and the vector buffer of every channel, keys rise strictly and
no entry equals what its granule reads as unlisted. -/
def Memory.wf (st : Stack) : Bool :=
  (List.range 64).all (fun c =>
    ramWf (arrDflt st c) (Tab.get st.chans c StkChan.reset).array && ramWf (vbufDflt st c) (Tab.get st.chans c StkChan.reset).vbuf)

/-- The stack's memory has its canonical form. -/
def MemorySound (s : State) : Prop := Memory.wf s.stack = true

/-! ### Frames -/

/-- Every sector of the stack's array and vector buffer reads as before. -/
def MemoryKept (s t : State) : Prop :=
  (∀ c sp b r k, arrRead t c sp b r k = arrRead s c sp b r k) ∧ ∀ c k, vbufRead t c k = vbufRead s c k

/-- Nothing changes but channel c of the stack, and the wires of channel c that the command came over. -/
def OnlyStackChannel (s t : State) (c : Nat) : Prop :=
  t = { s with chans := t.chans, stack := { s.stack with chans := t.stack.chans } } ∧
  (∀ d, d ≠ c → chan t d = chan s d ∧ stk t d = stk s d) ∧
  chan t c = { chan s c with rowOut := (chan t c).rowOut, colOut := (chan t c).colOut }

/-- The frame of a write-type column command: as OnlyStackChannel, and the PRBS7 that the block drives on covered wires of
channel c goes on (R213). -/
def OnlyStackBurst (s t : State) (c : Nat) : Prop :=
  t = { s with chans := t.chans, stack := { s.stack with chans := t.stack.chans } } ∧
  (∀ d, d ≠ c → chan t d = chan s d ∧ stk t d = stk s d) ∧
  chan t c = { chan s c with rowOut := (chan t c).rowOut, colOut := (chan t c).colOut, spares := (chan t c).spares } ∧
  (chan t c).spares.map (fun e => (e.1, { e.2 with tx := 0 })) = (chan s c).spares.map (fun e => (e.1, { e.2 with tx := 0 }))

/-- The sector that the stack of channel c receives with write-type command i, whose burst is d (R207, R208, R213). -/
def received (s : State) (c : Fin 64) (i : Instr) (d : Sector) (noise : BitVec 320) : Sector :=
  (writeBurst s c (colTime s c i + stkWl s) d noise).1

/-- Both ends give the spares of channel c the same roles in a burst that begins in cycle t, without PRBS7 (R213). -/
def lanesAgree (s : State) (c t : Nat) : Prop :=
  ∀ h < 2, blockLane (chan s c) h t = ((stk s c).lane h).modeAt t ∧ (blockLane (chan s c) h t).pat = false

/-- A channel's stack hears its wires and is not in ALERT (R216, R267, R268). -/
def StackReady (s : State) (c : Nat) : Prop := c < nChan s ∧ stkAwake s c = true ∧ (stk s c).alert = false

/-- The granules of a channel's array that the stack's own write of a sector stores: those of its row or of the spare that
holds it, and none of a fenced row (R296). -/
def storeKeys (x : StkChan) (p : Place) : List Nat :=
  match stkRowAt x p.bank p.row with
  | .fenced => []
  | .row => [arrKey false p.bank p.row p.col 0, arrKey false p.bank p.row p.col 1]
  | .spare i => [arrKey true p.bank i p.col 0, arrKey true p.bank i p.col 1]

/-- In the array of channel c every sector reads as before but those that the stack's own writes of these places store. -/
def StoresOnly (s t : State) (c : Nat) (ps : List Place) : Prop :=
  ∀ sp b r k, (∀ p ∈ ps, ∀ h < 2, arrKey sp b r k h ∉ storeKeys (stk s c) p) → arrRead t c sp b r k = arrRead s c sp b r k

/-- Nothing changes but stored register words, the attention line, the counters and the log. -/
def Booked (s t : State) : Prop := t = { s with regs := t.regs, attn := t.attn, pmu := t.pmu, log := t.log }

/-- A row command as it arrives: its channel, what its wires add to it, and the command as it was sent (R209, R210). -/
def onRow : Instr → Option (Fin 64 × BitVec 64 × Instr)
  | .rowNop ⟨c, e⟩ => some (c, e, .rowNop ⟨c, 0⟩)
  | .act ⟨c, e⟩ b row sp => some (c, e, .act ⟨c, 0⟩ b row sp)
  | .pre ⟨c, e⟩ b h both => some (c, e, .pre ⟨c, 0⟩ b h both)
  | .ref ⟨c, e⟩ b => some (c, e, .ref ⟨c, 0⟩ b)
  | .nrf ⟨c, e⟩ b row sp r => some (c, e, .nrf ⟨c, 0⟩ b row sp r)
  | .sls ⟨c, e⟩ x banks => some (c, e, .sls ⟨c, 0⟩ x banks)
  | .slp ⟨c, e⟩ x b => some (c, e, .slp ⟨c, 0⟩ x b)
  | .slr ⟨c, e⟩ x b => some (c, e, .slr ⟨c, 0⟩ x b)
  | .slx ⟨c, e⟩ x => some (c, e, .slx ⟨c, 0⟩ x)
  | .sre ⟨c, e⟩ => some (c, e, .sre ⟨c, 0⟩)
  | .srx ⟨c, e⟩ p => some (c, e, .srx ⟨c, 0⟩ p)
  | .pde ⟨c, e⟩ => some (c, e, .pde ⟨c, 0⟩)
  | .pdx ⟨c, e⟩ => some (c, e, .pdx ⟨c, 0⟩)
  | .rsync ⟨c, e⟩ => some (c, e, .rsync ⟨c, 0⟩)
  | .lane ⟨c, e⟩ h w a p => some (c, e, .lane ⟨c, 0⟩ h w a p)
  | _ => none

/-- A column command as it arrives: its channel, what its command wires add to it, and the command as it was sent. -/
def onCol : Instr → Option (Fin 64 × BitVec 48 × Instr)
  | .colNop ⟨c, e⟩ => some (c, e, .colNop ⟨c, 0⟩)
  | .colRd ⟨c, e⟩ b h k => some (c, e, .colRd ⟨c, 0⟩ b h k)
  | .colRda ⟨c, e⟩ b h k => some (c, e, .colRda ⟨c, 0⟩ b h k)
  | .colWr ⟨c, e⟩ b h k ⟨d, _⟩ => some (c, e, .colWr ⟨c, 0⟩ b h k ⟨d, 0⟩)
  | .colWra ⟨c, e⟩ b h k ⟨d, _⟩ => some (c, e, .colWra ⟨c, 0⟩ b h k ⟨d, 0⟩)
  | .vwr ⟨c, e⟩ k ⟨d, _⟩ => some (c, e, .vwr ⟨c, 0⟩ k ⟨d, 0⟩)
  | .vrd ⟨c, e⟩ k => some (c, e, .vrd ⟨c, 0⟩ k)
  | .spw ⟨c, e⟩ x p ⟨d, _⟩ => some (c, e, .spw ⟨c, 0⟩ x p ⟨d, 0⟩)
  | .prd ⟨c, e⟩ x => some (c, e, .prd ⟨c, 0⟩ x)
  | .srd ⟨c, e⟩ x => some (c, e, .srd ⟨c, 0⟩ x)
  | _ => none

/-- The channel that a command acts on. -/
def chanOf : Instr → Option (Fin 64)
  | .requesterQueueToCmdq c | .gateSlotDecision c | .schedCommandSlot c | .bankHalfTimingExpiry c _ _ | .refreshDue c _
  | .sliceResume c _ | .readBurstArrival ⟨c, _⟩ | .vaultReconstructionDone c | .verifyReadResult c | .linerAgeExpiry c
  | .linerEvictionReadReturn c | .linerEntryJoinCmdq c | .sliceQueueTake c | .vectorCopyStart _ c | .sliceStart c
  | .sliceStatusPoll c _ | .sliceDone c _ | .sliceOverrun c _ | .partialArrival c | .patrolVisit c | .powerdownEntry c
  | .powerdownExit c | .stackWckStop c => some c
  | i => ((onRow i).map (·.1)).or ((onCol i).map (·.1))

/-- The octant that a command acts on. -/
def octIn : Instr → Option (Fin 8)
  | .fabricTransferArrival _ k | .crownItemTake k | .crownLockTake k | .crownReadReturn k | .crownWriteVisible k
  | .heldDrainStart k => some k
  | _ => none

/-- The calibration engine that a command acts on. -/
def calIn : Instr → Option (Fin 4)
  | .calStepBoundary n | .sweepTakeOver n | .scanPositionDwellEnd n _ _ | .sweepReturn n | .sweepRelease n _ _
  | .sweepEnd n | .srLnErrReading n _ => some n
  | _ => none

/-- The page of the unit that a fault, an expired timer or the end of a recovery is of. -/
def pageIn : Instr → Option (Fin 128)
  | .faultDetected page _ _ | .progressTimerExpiry page _ | .recoveryComplete page => some page
  | _ => none

/-- The part has the unit that a command acts on (R16). -/
def unitPresent (s : State) (i : Instr) : Prop :=
  (∀ c, chanOf i = some c → c < nChan s) ∧ (∀ k, octIn i = some k → k < nOct s) ∧ (∀ n, calIn i = some n → n < nCal s) ∧
  ∀ page, pageIn i = some page → unitOf s page ≠ none

/-! ### Requests at a port -/

/-- Port p takes a request with n beats at once: it is open, clocked and not gated, holds credits, and no beats are due
before these (R35-R39, R335). -/
def PortReady (s : State) (p : Fin 16) (n : Nat) : Prop :=
  s.pins.portOpen = true ∧ s.clk.coreRun = true ∧ gated s (64 + p.val) = false ∧ 0 < (port s p).hdrCredits ∧
  n ≤ (port s p).beatCredits ∧ (port s p).wbuf = [] ∧ (port s p).waiting = [] ∧ IdsFresh s

/-- WD_LAST marks the last beat of a group, and no other (R38). -/
def lastMarked : List Beat → Bool
  | [] => true
  | [b] => b.last
  | b :: t => !b.last && lastMarked t

/-- A group of beats belongs to the opcode: there where it takes beats, marked, and of at most 65 (R38). -/
def Grouped (opc : Byte) (bs : List Beat) : Prop :=
  takesBeats opc = !bs.isEmpty ∧ bs.length ≤ 65 ∧ lastMarked bs = true

/-- The port, opcode, header, auxiliary word and beats of a request row (Table 2-4). -/
def requestOf : Instr → Option (Fin 16 × Byte × Hdr × Word × List Beat)
  | .rd p h => some (p, opRd, h, 0, [])
  | .wr p h bs => some (p, opWr, h, 0, bs)
  | .wrp p h bs => some (p, opWrp, h, 0, bs)
  | .atAdd p h a bs => some (p, opAt, h, a, bs)
  | .atMin p h a bs => some (p, opAt, h, a, bs)
  | .atMax p h a bs => some (p, opAt, h, a, bs)
  | .atAnd p h a bs => some (p, opAt, h, a, bs)
  | .atOr p h a bs => some (p, opAt, h, a, bs)
  | .atXor p h a bs => some (p, opAt, h, a, bs)
  | .atSwap p h a bs => some (p, opAt, h, a, bs)
  | .atCas p h a bs => some (p, opAt, h, a, bs)
  | .rdw p h a bs => some (p, opRdw, h, a, bs)
  | .sopDotRowsplit p h bs => some (p, opSop, h, 0, bs)
  | .sopDotKsplit p h bs => some (p, opSop, h, 0, bs)
  | .sopAttn p h bs => some (p, opSop, h, 0, bs)
  | .sopGather p h bs => some (p, opSop, h, 0, bs)
  | .sopScatterAdd p h bs => some (p, opSop, h, 0, bs)
  | .sopSetxIntersect p h bs => some (p, opSop, h, 0, bs)
  | .sopSetxUnion p h bs => some (p, opSop, h, 0, bs)
  | .sopSetxDiff p h bs => some (p, opSop, h, 0, bs)
  | .sopExpand p h bs => some (p, opSop, h, 0, bs)
  | .sopFilter p h bs => some (p, opSop, h, 0, bs)
  | .sopCopyResident p h bs => some (p, opSop, h, 0, bs)
  | .sopCopyStriped p h bs => some (p, opSop, h, 0, bs)
  | .sopCopyFromCrown p h bs => some (p, opSop, h, 0, bs)
  | .sopFill p h bs => some (p, opSop, h, 0, bs)
  | .bcast p h bs => some (p, opBcast, h, 0, bs)
  | .fence p h => some (p, opFence, h, 0, [])
  | .hcmt p h a => some (p, opHcmt, h, a, [])
  | .hrbk p h => some (p, opHrbk, h, 0, [])
  | .hrel p h => some (p, opHrel, h, 0, [])
  | .cfgRd p h => some (p, opCfgRd, h, 0, [])
  | .cfgWr p h bs => some (p, opCfgWr, h, 0, bs)
  | .reservedOpcode p o h a bs => some (p, o, h, a, bs)
  | _ => none

/-- The state once a request's header has been taken: a credit used, the request listed and counted (R35, R36, R395). -/
def headed (s : State) (p : Fin 16) (opc : Byte) (h : Hdr) (aux : Word) : State :=
  let r := newReq s p opc h aux false
  countHeader (modPort (listReq s r) p (fun x => { x with hdrCredits := x.hdrCredits - 1 })) r false

/-- The state once its beats have been taken too, each with a credit (R36, R38). -/
def taken (s : State) (p : Fin 16) (opc : Byte) (h : Hdr) (aux : Word) (bs : List Beat) : State :=
  if bs.isEmpty then headed s p opc h aux
  else
    modReq (modPort (headed s p opc h aux) p (fun x =>
      { x with beatCredits := x.beatCredits - bs.length, beatHeld := x.beatHeld + bs.length, wbuf := [], waiting := [] }))
      s.nextReq (fun q => { q with beats := bs })

/-- A request as it stands with its beats, and with the WCHK setting of that moment (R49). -/
def arrived (s : State) (p : Fin 16) (opc : Byte) (h : Hdr) (aux : Word) (bs : List Beat) : Req :=
  { newReq s p opc h aux false with beats := bs, gen := wchkGen (taken s p opc h aux bs) p }

/-- The state in which a request with its header and beats is judged. -/
def gathered (s : State) (p : Fin 16) (opc : Byte) (h : Hdr) (aux : Word) (bs : List Beat) : State :=
  modReq (taken s p opc h aux bs) s.nextReq (fun q => { q with gen := wchkGen (taken s p opc h aux bs) q.port })

/-- The state and the request once the handle entries it needs have been looked up in the cache (R80). -/
def lookedUp (s : State) (r : Req) : State × Req :=
  match r.names with
  | none => (s, r)
  | some (h, o) =>
    let need := r.needs s h o
    (need.foldl hdlTouch (modReq s r.id (fun q => { q with handles := need.map (BitVec.ofNat 16) })),
      { r with handles := need.map (BitVec.ofNat 16) })

/-- What the cache gives for the handle that a request names. -/
def namedBy (s : State) (r : Req) : Option Named := r.names.bind (fun n => nameOf s n.1 n.2)

/-- The request with its translation. -/
def withPlaces (r : Req) (j : Judged) : Req := { r with secs := j.secs, ranges := j.ranges, plan := j.plan }

/-- The state with the translation of its request listed; a request through a handle and a SOP are counted for the windows
now that their data addresses are known (R388, log 48). -/
def placed (s : State) (r : Req) (j : Judged) : State :=
  let t := modReq s r.id (fun q => { q with secs := j.secs, ranges := j.ranges, plan := j.plan })
  if r.hdl || r.opc = opSop then countHeader t (withPlaces r j) true else t

/-- Steps 1 to 3 of admission find nothing against a request, nothing holds it, and its handles are cached; step 2 gives j
(R17, R57, R80, R88, Table 2-10). -/
def Passes (s : State) (r : Req) (j : Judged) : Prop :=
  check1 s r = none ∧ holds2 s r = false ∧ alignBad s r = false ∧
  r.names.all (fun n => (r.needs s n.1 n.2).all (fun x => match hdlGet s x with | some e => !e.bad | none => false)) = true ∧
  check2 (lookedUp s r).1 (lookedUp s r).2 (namedBy (lookedUp s r).1 r) = j ∧ j.fail = none ∧
  check3 (placed (lookedUp s r).1 (lookedUp s r).2 j) (withPlaces (lookedUp s r).2 j) = none ∧
  holds4 (placed (lookedUp s r).1 (lookedUp s r).2 j) (withPlaces (lookedUp s r).2 j) = false

/-- No request but `id` is held between the steps of admission, where the reply of an earlier one would let it go on, and
no HDL_OP command waits to act (R57, R80, R84, R88). -/
def NoneHeld (s : State) (id : Nat) : Prop :=
  s.hdl.op.all (·.judged) = true ∧ ∀ r ∈ s.reqs, r.id ≠ id → r.stage ≠ .hold2 ∧ r.stage ≠ .fetch ∧ r.stage ≠ .hold4

/-! ### Configuration accesses -/

/-- The port, opcode, header and beats of a configuration row: CFG_RD and CFG_WR as they stand, and the rows of a named
register as the access that carries them (R60). -/
def configOf : Instr → Option (Fin 16 × Byte × Hdr × List Beat)
  | .cfgRd p h => some (p, opCfgRd, h, [])
  | .cfgWr p h bs => some (p, opCfgWr, h, bs)
  | .blkTimeLoRead p h => some (p, opCfgRd, cfgHdr h pgBlk 0x050, [])
  | .pmuCntLoRead p h i => some (p, opCfgRd, cfgHdr h pgPmu (0x400 + 8 * i.val), [])
  | .registerWrite p h page off v => some (p, opCfgWr, cfgHdr h page.toNat off.toNat, [cfgBeat v])
  | .unitAttnClear p h page v => some (p, opCfgWr, cfgHdr h page.toNat 0x010, [cfgBeat v])
  | .unitStopRequest p h page => some (p, opCfgWr, cfgHdr h page.toNat 0x004, [cfgBeat 0])
  | .unitRunRestart p h page => some (p, opCfgWr, cfgHdr h page.toNat 0x004, [cfgBeat 1])
  | .rgnCommit p h => some (p, opCfgWr, cfgHdr h pgRgn 0x00C, [cfgBeat 1])
  | .arbCommit p h => some (p, opCfgWr, cfgHdr h pgArb 0x00C, [cfgBeat 1])
  | .hdlOpCreate p h hd => some (p, opCfgWr, cfgHdr h pgHdl 0x080, [cfgBeat (hdlOpValue 1 hd)])
  | .hdlOpRead p h hd => some (p, opCfgWr, cfgHdr h pgHdl 0x080, [cfgBeat (hdlOpValue 2 hd)])
  | .hdlOpFree p h hd => some (p, opCfgWr, cfgHdr h pgHdl 0x080, [cfgBeat (hdlOpValue 3 hd)])
  | .linkPpOpRead p h a => some (p, opCfgWr, cfgHdr h pgLink 0x060, [cfgBeat (wordOf [(0, a.toNat), (18, 1)])])
  | .linkPpOpProg p h a => some (p, opCfgWr, cfgHdr h pgLink 0x060, [cfgBeat (wordOf [(0, a.toNat), (18, 2)])])
  | .testMbistGo p h v => some (p, opCfgWr, cfgHdr h pgTest 0x04C, [cfgBeat v])
  | .testT1500Go p h v => some (p, opCfgWr, cfgHdr h pgTest 0x060, [cfgBeat v])
  | .nrfReseed p h c v => some (p, opCfgWr, cfgHdr h (chPage c) 0x068, [cfgBeat v])
  | .chEccInjArm p h c v => some (p, opCfgWr, cfgHdr h (chPage c) 0x0A0, [cfgBeat v])
  | .calForce p h n v => some (p, opCfgWr, cfgHdr h (calPage n) 0x058, [cfgBeat v])
  | .hkFreqRequest p h v => some (p, opCfgWr, cfgHdr h pgHk 0x0C0, [cfgBeat v])
  | .blkResetWarm p h v => some (p, opCfgWr, cfgHdr h pgBlk 0x04C, [cfgBeat v])
  | .clkGateWrite p h j v => some (p, opCfgWr, cfgHdr h pgClk (0x050 + 4 * j.val), [cfgBeat v])
  | .clkFmeasGo p h v => some (p, opCfgWr, cfgHdr h pgClk 0x070, [cfgBeat v])
  | .logRd p h v => some (p, opCfgWr, cfgHdr h pgLog 0x060, [cfgBeat v])
  | .logMark p h v => some (p, opCfgWr, cfgHdr h pgLog 0x080, [cfgBeat v])
  | .pmuCfgSet p h v => some (p, opCfgWr, cfgHdr h pgPmu 0x044, [cfgBeat v])
  | .pmuCntHiWrite p h i v => some (p, opCfgWr, cfgHdr h pgPmu (0x404 + 8 * i.val), [cfgBeat v])
  | .pmuCntLoWrite p h i v => some (p, opCfgWr, cfgHdr h pgPmu (0x400 + 8 * i.val), [cfgBeat v])
  | .pmuSmpRd p h v => some (p, opCfgWr, cfgHdr h pgPmu 0x190, [cfgBeat v])
  | .pmuSmpClr p h v => some (p, opCfgWr, cfgHdr h pgPmu 0x180, [cfgBeat v])
  | _ => none

/-- The state in which a configuration access reaches its register: the request at port p listed as admitted, its credits
returned, and the events of its port counted (R36, R60). -/
def Reached (s u : State) (p : Fin 16) (opc : Byte) (h : Hdr) : Prop :=
  u = { s with ports := u.ports, reqs := u.reqs, nextReq := u.nextReq, regs := u.regs, attn := u.attn, pmu := u.pmu, log := u.log } ∧
  (∃ q, findReq u s.nextReq = some q ∧ q.stage = .admitted ∧ q.port = p ∧ q.opc = opc ∧ q.h = h ∧ q.discard = none ∧
    q.poison = none ∧ q.dl = none ∧ q.rdata = []) ∧
  (∀ id, id ≠ s.nextReq → findReq u id = findReq s id) ∧
  (port u p).replies = (port s p).replies ∧ (port u p).hdrCredits = (port s p).hdrCredits ∧
  (port u p).beatCredits = (port s p).beatCredits

/-! ### Channels -/

/-- Nothing changes but channel c, register words, counters, the attention line and the log. -/
def ChanOnly (s t : State) (c : Nat) : Prop := Booked { s with chans := t.chans } t ∧ ∀ d, d ≠ c → chan t d = chan s d

/-- Row command i is put on channel c's row wires in this cycle, and nothing outside the channel changes but counts. -/
def SendsRow (s t : State) (c : Nat) (i : Instr) : Prop :=
  (chan t c).rowOut = (chan s c).rowOut ++ [(s.time.cyc, i)] ∧ (chan t c).lastRow = some s.time.cyc ∧ ChanOnly s t c

/-- The entries that the scheduler offers for the next slot of channel c, after quotas and reservations (R97-R99). -/
def offered (s : State) (c : Nat) : List Entry :=
  let n := slotNow s + 1
  let first := decide (n % 64 = 0)
  (slotPool (nextSettings s first) (if first then Counts.zero else (chan s c).counts) (n % 64) (chan s c).rot
    ((chan s c).cmdq.filter (readyEntry s c (chan s c) (tim s c)))).1

/-! ### Rounds -/

/-- What a round boundary judges the throttle level from: the rail adjusted, the missing readings counted, the sensors
cross-checked, and the rise evaluated (R304-R307, R322). -/
def roundSeen (s : State) : Option Int × State :=
  let s := railAdjust s
  riseCheck (degradeCheck (crossCheck { s with thm := { s.thm with missPmb := if s.thm.missNow then s.thm.missPmb + 1 else 0 } }))

end Sys2Proof.Machine
end

