-- ==== Sys2Proof/Certificates/Slice0/Obligations.lean ====
section
/-! DEFINITION. The statements about the block, by chapter: what each command does, what it leaves alone, and the invariants
that every step keeps. -/

open Sys2Proof Sys2Proof.Machine

/-! ### The block as a whole (00, 01, 13) -/

/-- A step runs the command at the front of the queue on the state with the queue's rest. -/
def Obligations.StepRunsTheFrontCommand : Prop :=
  ∀ (s : State) (c : Instr) (rest : List Instr),
    step { s with pending := c :: rest } = exec c { s with pending := rest }

/-- On an empty queue 0.4 ns pass (the model's choice, log 2): every tenth time BLK_TIME counts a tick, unless domain 92 is
gated (R343), and nothing of the stack or its memory changes. -/
def Obligations.IdleStepsPassTime : Prop :=
  ∀ s : State, s.pending = [] → s.clk.stopped.getLsbD 92 = false →
    ∃ t, step s = .next t ∧ MemoryKept s t ∧ t.pending = [] ∧ t.pins = s.pins ∧
      t.time.sub = (if s.time.sub + 1 < 10 then s.time.sub + 1 else 0) ∧
      t.time.blk = (if s.time.sub + 1 < 10 then s.time.blk else s.time.blk + 1) ∧
      t.time.cyc = (if s.clk.coreRun = true then s.time.cyc + 1 else s.time.cyc)

/-- No command changes the part or the queue of waiting commands. -/
def Obligations.CommandsKeepPartAndQueue : Prop :=
  ∀ (c : Instr) (s t : State), exec c s = .next t → t.part = s.part ∧ t.pending = s.pending

/-- After reset the block is in BOOT at step 1, its pins are released or low, no client holds a credit, nothing is queued, the
write state is OPEN with TSTEP 0, and the time base is uncertain (R35, R310, R312, R344, R350, Table 13-7). The invariants
hold of the state after reset. -/
def Obligations.ResetLeavesASoundBlock : Prop :=
  (State.reset.blk.st = .boot ∧ State.reset.blk.step = 1 ∧ State.reset.pins.portOpen = false ∧
  State.reset.pins.stkPwrEn = false ∧ State.reset.pins.stkRstN = false ∧ State.reset.pins.thermTripN = true ∧
  State.reset.clk.onPll = false ∧ State.reset.clk.coreRun = false ∧ State.reset.time.uncertain = true ∧
  State.reset.thm.w = .open_ ∧ State.reset.thm.tstep = 0 ∧ State.reset.clk.gate = 0 ∧ State.reset.hk.point = 0 ∧
  State.reset.reqs = [] ∧ State.reset.log.entries = [] ∧ State.reset.pending = [] ∧
  (∀ p : Fin 16, (port State.reset p).hdrCredits = 0 ∧ (port State.reset p).beatCredits = 0 ∧ (port State.reset p).replies = []) ∧
  (∀ c : Fin 64, (chan State.reset c).cmdq = [] ∧ (chan State.reset c).liner = [] ∧ (chan State.reset c).running = [])) ∧
  (PinsSound State.reset ∧ IdsFresh State.reset ∧ MemorySound State.reset)

/-- The block drives THERM_TRIP_N low in state TRIP only and releases it otherwise: every step keeps it so, with PORT_OPEN up
exactly in READY and LOST (R39) and the stack's power off in HALTED. -/
def Obligations.ThermTripFollowsItsState : Prop :=
  ∀ s t : State, PinsSound s → IdsFresh s → step s = .next t →
    PinsSound t ∧ IdsFresh t ∧ (t.pins.thermTripN = false ↔ t.thm.w = .trip)

/-- Every step keeps the canonical form of the stack's memory. -/
def Obligations.StepsKeepTheMemoryCanonical : Prop :=
  ∀ s t : State, MemorySound s → step s = .next t → MemorySound t

/-- Only the three resets end HALTED or LOST (R3, R298, R346, R350, R380). -/
def Obligations.HaltedAndLostEndByResetOnly : Prop :=
  ∀ (c : Instr) (s t : State), c ≠ .coldReset → c ≠ .warmReset → c ≠ .jtagScanLeave → exec c s = .next t →
    (s.blk.st = .halted → t.blk.st = .halted) ∧ (s.blk.st = .lost → t.blk.st = .lost)

/-- UNIT_ID.LEVEL holds 3 in every CH unit, 4 in every OCT unit and 5 in every other unit. -/
def Obligations.UnitLevels : Prop :=
  ∀ (s : State) (p page : Nat) (u : UnitKind × Nat), unitOf s page = some u →
    fieldNat (regView s p page 0x000) 24 8 = (if u.1 = .ch then 3 else if u.1 = .oct then 4 else 5)

/-- The entry of handle h is the sector at channel h[5:0], bank h[9:6], column h[14:10], row ROWS − 2 + h[15]; on Rosura 32
the fields are one bit shorter for the channel and one longer for the row, counted from ROWS − 4. -/
def Obligations.HandleEntriesLieInTheTopRows : Prop :=
  ∀ (s : State) (h : BitVec 16),
    (s.part ≠ .rosura32 → hdlPlace s h.toNat =
      { ch := fieldNat h 0 6, bank := fieldNat h 6 4, col := fieldNat h 10 5, row := rowsPerBank s - 2 + fieldNat h 15 1 }) ∧
    (s.part = .rosura32 → hdlPlace s h.toNat =
      { ch := fieldNat h 0 5, bank := fieldNat h 5 4, col := fieldNat h 9 5, row := rowsPerBank s - 4 + fieldNat h 14 2 })

/-- A RESIDENT region maps offset o = A − BASE as {channel, bank offset, row offset, column[4:0], byte[4:0]}; the place is
bank BANK_LO + bank offset and row ROW_LO + row offset. -/
def Obligations.ResidentRegionsMapDirectly : Prop :=
  ∀ (s : State) (g : Region) (c b r k y : Nat), g.resident = true → b < 2 ^ g.bankLog2 → r < 2 ^ g.rowLog2 → k < 32 → y < 32 →
    placeIn s g (g.baseB + ((((c * 2 ^ g.bankLog2 + b) * 2 ^ g.rowLog2 + r) * 32 + k) * 32 + y)) =
      { ch := c, bank := g.bankLo + b, row := g.rowLo + r, col := k }

/-- Every command completes, whatever state it comes in, where the part has the unit that it acts on; an event on a channel,
octant, calibration engine or page that the part has not faults, and changes nothing (R16; the model's choice, log 7). -/
def Obligations.AbsentUnitsFault : Prop :=
  ∀ (s : State) (i : Instr),
    (unitPresent s i → ∃ t, exec i s = .next t ∧ t.part = s.part ∧ t.pending = s.pending) ∧
    (¬ unitPresent s i → exec i s = .fault .absentUnit)

/-! ### Configuration (02, 16) -/

/-- A configuration access that admission lets pass is served at once: a read answers OK with the register's value as it
stands, in lane 0 of one beat; a write acts on its register, and answers once it has (R60, R62, R104). -/
def Obligations.ConfigurationAccessesAreServed : Prop :=
  ∀ (s : State) (i : Instr) (p : Fin 16) (opc : Byte) (h : Hdr) (bs : List Beat),
    configOf i = some (p, opc, h, bs) → PortReady s p bs.length → Grouped opc bs →
    let r := arrived s p opc h 0 bs
    Passes (gathered s p opc h 0 bs) r .ok → (∀ q ∈ s.reqs, q.port = p → q.stage ≠ .step5) → blockRecovery s = false →
    admittedOf s p < 256 → s.arb.waiter = none → (usedGranules r).any granuleBad = false →
    ∃ t u, exec i s = .next t ∧ Reached s u p opc h ∧
      (opc = opCfgRd →
        ∃ rp, (port t p).replies = (port s p).replies ++ [rp] ∧ rp.tag = h.tag ∧ rp.outcome = Outcome.ok.code ∧
          rp.beats = cfgData (regView u p r.page r.off) ∧ t.chans = s.chans ∧ t.stack = s.stack ∧ t.pins = s.pins ∧ t.hdl = s.hdl) ∧
      (opc = opCfgWr →
        let w := regWrite u p r.page r.off r.value (some s.nextReq)
        t = if w.arb.waiter = some s.nextReq then w else finishReq w s.nextReq)

/-- A write of UNIT_ATTN clears the causes that are written as 1 and no other, whatever the unit (R63, R65). -/
def Obligations.AttentionCausesAreClearedByOnes : Prop :=
  ∀ (s : State) (p page : Nat) (v : Word) (id : Option Nat) (u : UnitKind × Nat),
    unitOf s page = some u → reg s page 0x010 &&& readMask (fieldsAt s u 0x010) = reg s page 0x010 →
    reg (regWrite s p page 0x010 v id) page 0x010 = reg s page 0x010 &&& ~~~v ∧
    (∀ off, off < 4096 → off ≠ 0x010 → reg (regWrite s p page 0x010 v id) page off = reg s page off) ∧
    (regWrite s p page 0x010 v id).stack = s.stack ∧ (regWrite s p page 0x010 v id).chans = s.chans

/-- What a write of some registers does: LOG_MARK logs its word (R370); PMU_CNTi_LO loads its counter with the high bits that
its port staged, PMU_CNTi_HI stages them (R392); RUN = 0 asks an octant or the ECC unit to stop (R404); BLK_RESET with its
key starts a warm reset 1 µs later (R346); a read of BLK_TIME_LO latches the high word (R343). -/
def Obligations.NamedRegistersAct : Prop :=
  ∀ (s : State) (p : Nat) (v : Word) (id : Option Nat),
    regWrite s p pgLog 0x080 v id = logEv (setReg s pgLog 0x080 (writeFields (fieldsAt s (.log, 0) 0x080) (reg s pgLog 0x080) v)) 0x0F00 pgLog .info v ∧
    (∀ i : Fin 368, counterExists s i = true →
      regWrite s p pgPmu (0x400 + 8 * i.val) v id =
        modPort (setCounter s i ((port s p).cntStage.getD 0#16 ++ v)) p (fun x => { x with cntStage := none }) ∧
      regWrite s p pgPmu (0x404 + 8 * i.val) v id = modPort s p (fun x => { x with cntStage := some (field v 0 16) })) ∧
    (∀ k : Fin 8, k < nOct s → (oct s k).run = .running →
      (oct (regWrite s p (octPage k) 0x004 0 id) k).run = .stopReq ∧
      (∀ j, j ≠ k.val → oct (regWrite s p (octPage k) 0x004 0 id) j = oct s j)) ∧
    (fieldNat v 0 8 = 0xA5 → v.getLsbD 31 = true →
      (regWrite s p pgBlk 0x04C v id).blk.warmDue = some (s.time.tick + ticksPerUs)) ∧
    (regReadEffect s p pgBlk 0x050).time.hiLatch = field s.time.blk 32 32

/-! ### Requests at a port (02, 03) -/

/-- The header on REQ_HDR says the opcode and the fields that were put on it (Table 2-2). A request that its port takes and that steps 1 to 3 of admission pass uses a header credit, and one for each of its beats;
it waits at step 5 with its translation, a FENCE waits for the requests before it, and a handle command for its turn (R17,
R35-R38, R57, R88, Table 2-4). No channel, Crown or stack is touched before step 6. -/
def Obligations.RequestsWaitForAdmission : Prop :=
  (∀ (o : Byte) (h : Hdr), hdrOpc (reqHdr o h) = o ∧ hdrOf (reqHdr o h) = h) ∧
  ∀ (s : State) (i : Instr) (p : Fin 16) (opc : Byte) (h : Hdr) (aux : Word) (bs : List Beat) (j : Judged),
    requestOf i = some (p, opc, h, aux, bs) → isCfg opc = false → PortReady s p bs.length → Grouped opc bs →
    Passes (gathered s p opc h aux bs) (arrived s p opc h aux bs) j →
    ∃ t q, exec i s = .next t ∧ findReq t s.nextReq = some q ∧
      q.stage = (if opc = opFence then .fence else if isHdlCmd opc then .handle else .step5) ∧
      q.port = p ∧ q.opc = opc ∧ q.h = h ∧ q.aux = aux ∧ q.beats = bs ∧ q.secs = j.secs ∧ q.ranges = j.ranges ∧ q.plan = j.plan ∧
      (∀ id, id ≠ s.nextReq → findReq t id = findReq s id) ∧ t.nextReq = s.nextReq + 1 ∧
      port t p = { port s p with
        hdrCredits := (port s p).hdrCredits - 1, beatCredits := (port s p).beatCredits - bs.length
        beatHeld := (port s p).beatHeld + bs.length } ∧
      (∀ e, e ≠ p.val → port t e = port s e) ∧
      Booked { s with ports := t.ports, reqs := t.reqs, nextReq := t.nextReq, hdl := t.hdl } t

/-- A request that step 1 refuses is answered with the outcome and detail of the check, without data; its beats give their
credits back and its header credit returns with the reply (R36, R53, Table 2-10). A header with an unlisted opcode is
answered REJECT with detail OPCODE, unless the block is LOST (R42, R53, Table 2-4). -/
def Obligations.RefusedRequestsReply : Prop :=
  (∀ (s : State) (i : Instr) (p : Fin 16) (opc : Byte) (h : Hdr) (aux : Word) (bs : List Beat) (o : Outcome) (d : Byte),
    requestOf i = some (p, opc, h, aux, bs) → PortReady s p bs.length → Grouped opc bs →
    check1 (gathered s p opc h aux bs) (arrived s p opc h aux bs) = some (o, d) →
    ∃ t rp, exec i s = .next t ∧ (port t p).replies = (port s p).replies ++ [rp] ∧
      rp.id = s.nextReq ∧ rp.tag = h.tag ∧ rp.lsrc = field h.src 0 8 ∧ rp.outcome = o.code ∧ rp.detail = d ∧ rp.beats = [] ∧
      rp.sent = 0 ∧ rp.hdrCredit = true ∧
      (port t p).hdrCredits = (port s p).hdrCredits - 1 ∧ (port t p).beatCredits = (port s p).beatCredits ∧
      (∀ id, id ≠ s.nextReq → findReq t id = findReq s id) ∧ t.chans = s.chans ∧ t.stack = s.stack ∧ t.hdl = s.hdl ∧
      t.pins = s.pins ∧ t.thm = s.thm) ∧
  (∀ (s : State) (p : Fin 16) (opc : Byte) (h : Hdr) (aux : Word),
    PortReady s p 0 → opcodeListed opc = false → s.blk.st ≠ .lost →
    ∃ t rp, exec (.reservedOpcode p opc h aux []) s = .next t ∧ (port t p).replies = (port s p).replies ++ [rp] ∧
      rp.tag = h.tag ∧ rp.outcome = Outcome.reject.code ∧ rp.detail = rejOpcode ∧ rp.beats = [] ∧ rp.sent = 0 ∧
      (port t p).hdrCredits = (port s p).hdrCredits - 1 ∧ t.chans = s.chans ∧ t.stack = s.stack)

/-- While the port is open, a header without a credit is answered REJECT with detail CREDIT, and takes no credit; CREDIT_ERR
latches; a beat without a credit is discarded, and CREDIT_ERR latches (R37, Table 2-13). -/
def Obligations.MissingCreditsAreAnswered : Prop :=
  (∀ (s : State) (p : Fin 16) (opc : Byte) (h : Hdr) (aux : Word),
    s.pins.portOpen = true → s.clk.coreRun = true → (port s p).hdrCredits = 0 →
    ∃ t rp, exec (.headerWithoutCredit p opc h aux []) s = .next t ∧ (port t p).replies = (port s p).replies ++ [rp] ∧
      rp.tag = h.tag ∧ rp.outcome = Outcome.reject.code ∧ rp.detail = rejCredit ∧ rp.beats = [] ∧ rp.hdrCredit = false ∧
      (port t p).hdrCredits = 0 ∧ (port t p).beatCredits = (port s p).beatCredits ∧
      (reg t (portPage p) 0x010).getLsbD 0 = true ∧ t.chans = s.chans ∧ t.stack = s.stack ∧ t.pins = s.pins) ∧
  (∀ (s : State) (p : Fin 16) (b : Beat),
    s.pins.portOpen = true → s.clk.coreRun = true → (port s p).beatCredits = 0 →
    ∃ t, exec (.beatWithoutCredit p b) s = .next t ∧ (reg t (portPage p) 0x010).getLsbD 0 = true ∧ Booked s t)

/-- While PORT_OPEN is low a header or beat is not seen (R37). The stub of a gated port answers GATED with detail 0x40 + n,
without the request being seen by the port's own logic (R335). -/
def Obligations.ClosedAndGatedPorts : Prop :=
  (∀ (s : State) (i : Instr) (p : Fin 16) (opc : Byte) (h : Hdr) (aux : Word) (bs : List Beat) (b : Beat),
    s.pins.portOpen = false → requestOf i = some (p, opc, h, aux, bs) →
    exec i s = .next s ∧ exec (.writeDataBeat p b) s = .next s ∧ exec (.beatWithoutCredit p b) s = .next s ∧
    exec (.headerWithoutCredit p opc h aux bs) s = .next s ∧ exec (.gatedPortStub p opc h bs) s = .next s) ∧
  (∀ (s : State) (p : Fin 16) (opc : Byte) (h : Hdr),
    s.pins.portOpen = true → s.clk.coreRun = true → 0 < (port s p).hdrCredits → gated s (64 + p.val) = true →
    (s.blk.st ≠ .lost ∨ isCfg opc = true) →
    ∃ t rp, exec (.gatedPortStub p opc h []) s = .next t ∧ (port t p).replies = (port s p).replies ++ [rp] ∧
      rp.tag = h.tag ∧ rp.outcome = Outcome.gated.code ∧ rp.detail = BitVec.ofNat 8 (0x40 + p.val) ∧ rp.beats = [] ∧
      rp.hdrCredit = true ∧ (port t p).hdrCredits = (port s p).hdrCredits - 1 ∧ t.chans = s.chans ∧ t.stack = s.stack ∧
      t.pins = s.pins)

/-- A write-data beat goes to the oldest request whose beats are due, and takes a credit; the last one ends the group, and the
request is judged (R36, R38). -/
def Obligations.BeatsReachTheirRequest : Prop :=
  ∀ (s : State) (p : Fin 16) (b : Beat) (id : Nat) (rest : List Nat) (r : Req),
    s.pins.portOpen = true → s.clk.coreRun = true → 0 < (port s p).beatCredits → (port s p).wbuf = [] →
    (port s p).waiting = id :: rest → findReq s id = some r → r.ghost = false → r.beats.length < 65 →
    (b.last = false →
      ∃ t, exec (.writeDataBeat p b) s = .next t ∧ findReq t id = some { r with beats := r.beats ++ [b] } ∧
        (∀ e, e ≠ id → findReq t e = findReq s e) ∧
        port t p = { port s p with beatCredits := (port s p).beatCredits - 1, beatHeld := (port s p).beatHeld + 1 } ∧
        t = { s with ports := t.ports, reqs := t.reqs }) ∧
    (b.last = true →
      ∃ t, exec (.writeDataBeat p b) s = .next t ∧
        t = judge (modReq (modPort s p (fun x => { x with beatCredits := x.beatCredits - 1, beatHeld := x.beatHeld + 1, waiting := rest }))
          id (fun q => { q with beats := q.beats ++ [b] })) id)

/-- The first request of a port at step 5 passes when its resources are free: a read is admitted, its header credit returns,
and each of its sectors is asked of its channel; without the resources it waits (R17, R36, R45, R49). -/
def Obligations.ReadsAreAdmitted : Prop :=
  ∀ (s : State) (p : Fin 16) (r : Req),
    firstStep5 s p = some r → findReq s r.id = some r → r.port = p → untranslated s r = false → blockRecovery s = false →
    r.opc = opRd → r.beats = [] →
    (hasResources s r = false → exec (.admissionStep5Pass p) s = .next s) ∧
    (hasResources s r = true →
      ∃ t q, exec (.admissionStep5Pass p) s = .next t ∧ findReq t r.id = some q ∧ q.stage = .admitted ∧
        q.todo = r.secs.length ∧ q.secs = r.secs ∧ q.tAdmit = some s.time.cyc ∧
        (port t p).hdrCredits = (port s p).hdrCredits + 1 ∧ (port t p).replies = (port s p).replies ∧
        (∀ c, (chan t c).rq = (chan s c).rq ++ ((piecesOf r.secs [] []).filter (fun x => x.place.ch = c)).map
          (fun x => newEntry s (.port r.id x.idx) p r.cls (r.dl.getD 0) false false x)) ∧
        (∀ c, chan t c = { chan s c with rq := (chan t c).rq }) ∧ t.stack = s.stack ∧ t.pins = s.pins ∧ t.thm = s.thm)

/-- A FENCE replies OK once every earlier request of its source has replied, and waits until then (R57). A request that has
not passed step 5 when its port's limit has passed replies TIMEOUT with detail PORT (R59). -/
def Obligations.FencesAndTimeoutsReply : Prop :=
  (∀ (s : State) (p : Fin 16) (src : BitVec 10) (tag : BitVec 12) (r : Req),
    findTag s p src tag (fun q => q.stage == .fence) = some r → findReq s r.id = some r →
    (earlierSame s r ≠ [] → exec (.fenceRelease p src tag) s = .next s) ∧
    (earlierSame s r = [] →
      ∃ t rp, exec (.fenceRelease p src tag) s = .next t ∧ (port t p).replies = (port s p).replies ++ [rp] ∧ rp.id = r.id ∧
        rp.tag = tag ∧ rp.outcome = Outcome.ok.code ∧ rp.detail = 0#8 ∧ rp.beats = [] ∧
        (∀ id, id ≠ r.id → findReq t id = findReq s id) ∧ t.chans = s.chans ∧ t.stack = s.stack ∧ t.regs = s.regs)) ∧
  (∀ (s : State) (p : Fin 16) (src : BitVec 10) (tag : BitVec 12) (r : Req),
    findTag s p src tag (fun q => timeable q && timedOut s q) = some r → findReq s r.id = some r → NoneHeld s r.id →
    ∃ t rp, exec (.portTimeoutExpiry p src tag) s = .next t ∧ (port t p).replies = (port s p).replies ++ [rp] ∧ rp.id = r.id ∧
      rp.tag = tag ∧ rp.outcome = Outcome.timeout.code ∧ rp.detail = 0#8 ∧ rp.beats = [] ∧
      (reg t (portPage p) 0x010).getLsbD 1 = true ∧
      (∀ id, id ≠ r.id → findReq t id = findReq s id) ∧ t.chans = s.chans ∧ t.stack = s.stack)

/-- The port sends the next beat of the reply that ranks first: its header carries outcome, tag and detail, and its data is
the reply's next beat; a reply whose last beat has been sent leaves its port; in the cycle after RPL_STALL was high the port
sends nothing (R34, R40, R50, Table 2-7). The candidate that ended the sampling interval is marked, and the next interval
begins (R395). -/
def Obligations.RepliesLeaveBeatByBeat : Prop :=
  (∀ (s : State) (p : Fin 16) (stall : Bool), (port s p).stall = true →
    exec (.replyBeatSend ⟨p, stall⟩) s = .next (modPort s p (fun x => { x with stall := stall }))) ∧
  (∀ (s : State) (p : Fin 16) (stall : Bool) (q : Reply),
    s.pins.portOpen = true → s.clk.coreRun = true → (port s p).stall = false → bestBy Reply.before (port s p).replies = some q →
    (∀ id, NoneHeld s id) →
    ∃ t attn, exec (.replyBeatSend ⟨p, stall⟩) s = .next t ∧ (port t p).stall = stall ∧
      (port t p).out = some { hdr := replyHdr q attn, beat := q.sent, data := q.beats[q.sent]? } ∧
      (port t p).replies = (if q.beats.length ≤ q.sent + 1 then (port s p).replies.filter (fun r => r.id != q.id)
        else (port s p).replies.map (fun r => if r.id = q.id then { q with sent := q.sent + 1 } else r)) ∧
      (port t p).hdrCredits = (port s p).hdrCredits + (if q.sent = 0 ∧ q.hdrCredit = true then 1 else 0) ∧
      t.chans = s.chans ∧ t.stack = s.stack ∧ t.pins = s.pins) ∧
  (∀ (s : State) (id : Nat) (r : Req), s.pmu.smpDue = some id → findReq s id = some r →
    ∃ t, exec .sampleSelect s = .next t ∧ t.pmu.smpDue = none ∧ t.pmu.smpLeft = (smpInterval s).1 ∧
      findReq t id = some { r with sampled := true } ∧ (∀ e, e ≠ id → findReq t e = findReq s e) ∧
      t = { s with reqs := t.reqs, ports := t.ports, pmu := t.pmu })

/-- A handle command whose turn has come takes effect on its entry, in cache and store: HCMT raises the committed length by
its operand, and with bit 24 the tentative length too; HRBK takes the tentative length back to the committed one, and of a
handle with ZERO zeroes the sectors between; HREL releases the handle, and its last child's release frees a retained parent
(R81, R88). -/
def Obligations.HandleCommandsTakeEffect : Prop :=
  ∀ (s : State) (p : Fin 16) (src : BitVec 10) (tag : BitVec 12) (r : Req) (e : BitVec 256),
    findTag s p src tag (fun q => q.stage == .handle && q.tAdmit.isNone) = some r → findReq s r.id = some r →
    (∀ q ∈ s.reqs, q.stage = .handle → q.tAdmit = none) → handleTurn s r = true → e = hdlBytes s r.handle →
    hdlPoisoned s r.handle = false → hValid e = true → hcmtOver r e = false → (r.h.priv ≠ 0#2 ∨ r.h.tenant = hTenant e) →
    (r.opc = opHcmt ∨ r.opc = opHrbk ∨ r.opc = opHrel) → (hChild e = true → hParent e ≠ r.handle) →
    let toParent := r.opc = opHrel ∧ hChildren e = 0 ∧ hChild e = true ∧ hdlPoisoned s (hParent e) = false
    let par := hdlBytes s (hParent e)
    let left := hSetChildren par (hChildren par - 1)
    ∃ t, exec (.handleCmdTakesEffect p src tag) s = .next t ∧
      hdlBytes t r.handle =
        (if r.opc = opHcmt then
          (if r.aux.getLsbD 24 then hSetTentative (hSetCommitted e (hcmtLen r e)) (hcmtLen r e) else hSetCommitted e (hcmtLen r e))
        else if r.opc = opHrbk then hSetTentative e (hCommitted e) else hRelease e) ∧
      (toParent → hdlBytes t (hParent e) =
        (if hChildren par - 1 = 0 ∧ hRetained par = true then hSetState left false false else left)) ∧
      hdlWriting t r.handle = true ∧
      (∀ h, h ≠ r.handle → (toParent → h ≠ hParent e) → hdlGet t h = hdlGet s h) ∧
      (port t p).hdrCredits = (port s p).hdrCredits + 1 ∧
      (¬ toParent → (r.opc = opHrbk → hZero e = false) →
        ∀ c, c ≠ (hdlPlace s r.handle).ch → chan t c = chan s c) ∧
      (r.opc = opHrbk → hZero e = true → ∀ x ∈ zeroSectors s e (hCommitted e) (hTentative e),
        ∃ q ∈ (chan t x.place.ch).rq, q.owner = .zero r.id ∧ q.write = true) ∧
      t.stack = s.stack ∧ t.pins = s.pins

/-! ### Channels (04, 05, 11) -/

/-- The best-ranked head of the requester queues joins: a read of an unfenced row that no queued write or Liner entry of its
sectors serves leaves its requester queue and waits in the command queue, with the channel's next serial number (R91, R115). A
handle entry's read is the same, while nothing waits for handle entries. -/
def Obligations.ReadsJoinTheCommandQueue : Prop :=
  ∀ (s : State) (c : Fin 64) (e : Entry),
    c < nChan s → nextJoin s (chan s c) = some e → e.place.ch = c.val → e.write = false →
    (e.owner = .writeBack → (chan s c).wbs.any (fun w => w.place == e.place) = true) →
    (∀ h, e.owner = .hdl h → (∀ id, NoneHeld s id) ∧ s.hdl.cache.length ≤ 4096 ∧ ∀ x ∈ s.hdl.cache, x.2.bad = false) →
    0 < e.n → e.done = 0 → fenced s e.place = false → (∀ i n, i < e.n → forwardFor (chan s c) (e.at i) i n = []) →
    (∀ q ∈ (chan s c).cmdq, q.next ≠ none) → (∀ q ∈ s.reqs, q.stage = .handle → q.tAdmit = none) →
    ∃ t q, exec (.requesterQueueToCmdq c) s = .next t ∧
      (chan t c).cmdq = (if e.onArray then intoQueue q (chan s c).cmdq else (chan s c).cmdq ++ [q]) ∧
      (chan t c).rq = (chan s c).rq.erase e ∧ q.tJoin = s.time.cyc ∧
      { q with seq := e.seq, tJoin := e.tJoin, overlays := e.overlays, hitCls := e.hitCls, newer := e.newer } = e ∧
      (chan t c).serial = (chan s c).serial + 1 ∧ ChanOnly s t c

/-- In the last cycle of a slot the gate grants the next slot to the best-ranked entry offered, if the turn of its direction
allows, counts its class and moves the rotation past its requester; while transfers are to be sent again it takes the next
of them alone; at any other cycle, or twice for one slot, it decides nothing (R95, R97-R99, R217). -/
def Obligations.TheGateGrantsASlot : Prop :=
  ∀ (s : State) (c : Fin 64), c < nChan s →
    (inService s c = false ∨ lastCycle s = false ∨ (chan s c).slotIdx = slotNow s + 1 → exec (.gateSlotDecision c) s = .next s) ∧
    (inService s c = true → lastCycle s = true → (chan s c).slotIdx ≠ slotNow s + 1 →
      let counts := if (slotNow s + 1) % 64 = 0 then Counts.zero else (chan s c).counts
      (∀ e, (chan s c).replayq = [] → (chan s c).halted = false →
        gateWinner s c (chan s c) (offered s c) = some e → turnOk s (chan s c) (tim s c) e.write = true →
        ∃ t, exec (.gateSlotDecision c) s = .next t ∧ (chan t c).slotIdx = slotNow s + 1 ∧
          (chan t c).cmdq = (chan s c).cmdq.map (fun q => if q.seq = e.seq then { q with granted := true } else q) ∧
          (chan t c).counts = counts.bump e.cls ∧ (chan t c).rot = (e.pos + 1) % 23 ∧ ChanOnly s t c) ∧
      (∀ e rest, (chan s c).replayq = e :: rest →
        readyEntry s c (chan s c) (tim s c) e = true → turnOk s (chan s c) (tim s c) true = true →
        ∃ t, exec (.gateSlotDecision c) s = .next t ∧ (chan t c).slotIdx = slotNow s + 1 ∧
          (chan t c).replayq = { e with granted := true } :: rest ∧ (chan t c).cmdq = (chan s c).cmdq ∧
          (chan t c).counts = counts ∧ ChanOnly s t c) ∧
      ((chan s c).replayq = [] → (chan s c).halted = true →
        ∃ t, exec (.gateSlotDecision c) s = .next t ∧ chan t c = { chan s c with slotIdx := slotNow s + 1, counts := counts } ∧
          ChanOnly s t c))

/-- Slot 0 of a window: grant counts start from zero, each channel's energy credit rises by B and at most to B, and committed
gate settings and a committed scrambler setting take effect (R96, R104, R311, R405). -/
def Obligations.WindowsStartAfresh : Prop :=
  ∀ s : State, s.winStart ≤ s.time.cyc → (s.time.cyc - s.winStart) % winLen s = 0 → s.arb.waiter = none →
    ∃ t, exec .windowStart s = .next t ∧
      (s.arb.next = none → t.arb = s.arb ∧ ∀ c, c < nChan s →
        (chan t c).credit = min ((chan s c).credit + energyBudget s) (energyBudget s) ∧ (chan t c).readBursts = 0 ∧
        (chan t c).counts = (if (chan s c).slotIdx = slotNow s then (chan s c).counts else Counts.zero) ∧
        (chan t c).cmdq = (chan s c).cmdq) ∧
      (∀ a, s.arb.next = some a → s.arb.notBefore ≤ s.time.cyc → t.arb.cur = a ∧ t.arb.next = none) ∧
      t.ecc = (match s.ecc.scrNext with | some b => { s.ecc with scrNow := b, scrNext := none } | none => s.ecc) ∧
      t.stack = s.stack

/-- A timed state of a bank half reaches its exit, and not before: ACTIVATING becomes OPEN, PRECHARGING and REFRESHING become
IDLE (R111, Table 5-1). A due time of a bank raises its debt by one; at 8 the Gauntlet arises and takes back the bank's
grants, and beyond 8 refreshes are owed; a change of the refresh rate counts from a due time on (R100, R257). -/
def Obligations.BanksMoveOnAndFallDue : Prop :=
  (∀ (s : State) (c : Fin 64) (b : Fin 16) (h : Fin 2), c < nChan s →
    ∃ t, exec (.bankHalfTimingExpiry c b h) s = .next t ∧
      (chan t c).half b h = (if s.time.cyc < ((chan s c).half b h).exit then (chan s c).half b h
        else { (chan s c).half b h with st := match ((chan s c).half b h).st with
          | .activating => .open_ | .precharging => .idle | .refreshing => .idle | x => x }) ∧
      (∀ b' h', halfKey b' h' ≠ halfKey b h → (chan t c).half b' h' = (chan s c).half b' h') ∧ ChanOnly s t c) ∧
  (∀ (s : State) (c : Fin 64) (b : Fin 16), c < nChan s → refreshRuns s c = true →
    (s.time.tick < nextDue s ((chan s c).bank b) b → exec (.refreshDue c b) s = .next s) ∧
    (nextDue s ((chan s c).bank b) b ≤ s.time.tick →
      ∃ t, exec (.refreshDue c b) s = .next t ∧ ((chan t c).bank b).x2 = s.thm.x2 ∧
        ((chan t c).bank b).due = (if ((chan s c).bank b).x2 = s.thm.x2 then ((chan s c).bank b).due + 1 else 1) ∧
        (((chan s c).bank b).debt < 7 → ((chan t c).bank b).debt = ((chan s c).bank b).debt + 1 ∧
          (chan t c).cmdq = (chan s c).cmdq ∧ ((chan t c).bank b).gauntlet = ((chan s c).bank b).gauntlet) ∧
        (((chan s c).bank b).debt = 7 → ((chan t c).bank b).debt = 8 ∧ ((chan t c).bank b).gauntlet = true ∧
          ∀ e ∈ (chan t c).cmdq, e.onArray = true → e.place.bank = b.val → e.granted = false) ∧
        (8 ≤ ((chan s c).bank b).debt → ((chan t c).bank b).debt = ((chan s c).bank b).debt ∧
          ((chan t c).bank b).owed = ((chan s c).bank b).owed + 1) ∧ ChanOnly s t c))

/-- A command slot of the scheduler puts one row command on free row wires (R209). A Gauntlet comes first: SLP for a slice on
its bank, its REF, then PRE for its bank (R100-R102). Otherwise a neighbour refresh goes out, else a refresh, else a
precharge, else the activate of the best head, each chosen by its rule (R112, R258, R263); the order among these four is the
model's (log 34). While a recovery holds the gate and sends nothing again, no bank closes or opens (R217). A paused slice
resumes on a bank whose refreshes are done: SLR goes out, and both halves are RESERVED (R101, R177). -/
def Obligations.TheSchedulerSendsRowCommands : Prop :=
  (∀ (s : State) (c : Fin 64), c < nChan s →
    (inService s c = false ∨ rowFree s c = false → exec (.schedCommandSlot c) s = .next s) ∧
    (inService s c = true → rowFree s c = true →
      (∀ ctx b, (chan s c).halted = false → pauseWanted s (chan s c) = some (ctx, b) →
        ∃ t, exec (.schedCommandSlot c) s = .next t ∧ SendsRow s t c (.slp ⟨c, 0⟩ (bitFin ctx) (bankFin b))) ∧
      ((chan s c).halted = true ∨ pauseWanted s (chan s c) = none →
        (∀ b, firstGauntlet (chan s c) = some b → refMay s c (chan s c) b = true →
          ∃ t, exec (.schedCommandSlot c) s = .next t ∧ SendsRow s t c (.ref ⟨c, 0⟩ (bankFin b)) ∧
            ((chan t c).bank b).gauntlet = false ∧ ((chan t c).half b 0).st = .refreshing ∧ ((chan t c).half b 1).st = .refreshing) ∧
        (∀ b h rest, (firstGauntlet (chan s c)).filter (refMay s c (chan s c)) = none →
          (closable s c (chan s c)).filter (fun x => ((chan s c).bank x.1).gauntlet) = (b, h) :: rest →
          ∃ t, exec (.schedCommandSlot c) s = .next t ∧
            SendsRow s t c (.pre ⟨c, 0⟩ (bankFin b) (bitFin h) (rest.contains (b, 1) && h == 0)) ∧
            ((chan t c).half b h).st = .precharging)) ∧
      (gauntletSlot s c (chan s c) = none →
        (∀ q, nrfReady s c (chan s c) = some q →
          ∃ t, exec (.schedCommandSlot c) s = .next t ∧
            SendsRow s t c (.nrf ⟨c, 0⟩ (bankFin q.bank) (BitVec.ofNat 17 q.row) q.spare (nrfRad2 s c))) ∧
        (∀ b, nrfReady s c (chan s c) = none → refBest s c (chan s c) = some b →
          ∃ t, exec (.schedCommandSlot c) s = .next t ∧ SendsRow s t c (.ref ⟨c, 0⟩ (bankFin b)) ∧
            ((chan t c).half b 0).st = .refreshing ∧ ((chan t c).half b 1).st = .refreshing) ∧
        (nrfReady s c (chan s c) = none → refBest s c (chan s c) = none →
          ((chan s c).halted = true → (chan s c).replayq = [] → draining s = false → exec (.schedCommandSlot c) s = .next s) ∧
          ((chan s c).halted = false ∨ (chan s c).replayq ≠ [] ∨ draining s = true →
            (∀ b h rest, closable s c (chan s c) = (b, h) :: rest →
              ∃ t, exec (.schedCommandSlot c) s = .next t ∧
                SendsRow s t c (.pre ⟨c, 0⟩ (bankFin b) (bitFin h) (rest.contains (b, 1) && h == 0)) ∧
                ((chan t c).half b h).st = .precharging ∧
                (rest.contains (b, 1) = true → h = 0 → ((chan t c).half b 1).st = .precharging)) ∧
            (closable s c (chan s c) = [] →
              let best := bestBy (fun (x y : Nat × Nat × Entry) => Key.before (chan s c).rot x.2.2.key y.2.2.key) (openable s c (chan s c))
              (best = none → exec (.schedCommandSlot c) s = .next s) ∧
              (∀ b h e, best = some (b, h, e) →
                ∃ t, exec (.schedCommandSlot c) s = .next t ∧
                  SendsRow s t c (.act ⟨c, 0⟩ (bankFin b) (BitVec.ofNat 17 (entryRow s (chan s c) e).1) (entryRow s (chan s c) e).2) ∧
                  ((chan t c).half b h).st = .activating ∧ ((chan t c).half b h).row = (entryRow s (chan s c) e).1 ∧
                  ((chan t c).half b h).exit = s.time.cyc + (tim s c).rcd))))))) ∧
  (∀ (s : State) (c : Fin 64) (b : Fin 16) (ctx : Nat) (x : Slice), c < nChan s → pausedOn (chan s c) b = some (ctx, x) →
    (draining s = true ∨ ((chan s c).bank b).gauntlet = true ∨ 0 < ((chan s c).bank b).owed → exec (.sliceResume c b) s = .next s) ∧
    (draining s = false → ((chan s c).bank b).gauntlet = false → ((chan s c).bank b).owed = 0 → nrfOn (chan s c) b = false →
      ((chan s c).half b 0).idleAt s.time.cyc = true → ((chan s c).half b 1).idleAt s.time.cyc = true →
      rowFree s c = true → inService s c = true →
      ∃ t, exec (.sliceResume c b) s = .next t ∧ SendsRow s t c (.slr ⟨c, 0⟩ (bitFin ctx) b) ∧
        ((chan t c).half b 0).st = .reserved ∧ ((chan t c).half b 1).st = .reserved))

/-- A read burst that comes back, as its wires carry it, goes to the access it answers, and confirms the writes before it; the
stack's ALERT pattern raises the channel's fault and asks for its cause; in LOST it goes nowhere (R20, R207, R217, R218). A
verify read that finds nothing new ends its write-back, and one that finds the corrected error again reports a row failure
(R283, R292). A reconstruction whose result is known ends once its rewrites have gone out: the row is released, the read that
waited is served with the rebuilt sector, and a failure shows in the ECC unit's cause (R290, R291). -/
def Obligations.BurstsReachTheirAccess : Prop :=
  (∀ (s : State) (c : Fin 64) (noise : BitVec 320) (b : Burst) (rest : List Burst),
    c < nChan s → (stk s c).ret = b :: rest →
    let raw : Sector := ⟨burstHalf s c 0 b noise, burstHalf s c 1 b noise⟩
    ∃ u, stk u c = prbsSent { stk s c with ret := rest } b.at_ ∧
      (chan u c).readBursts = (chan s c).readBursts + 1 ∧
      u = { s with chans := u.chans, stack := { s.stack with chans := u.stack.chans } } ∧ MemoryKept s u ∧
      (b.order = 0 ∨ s.blk.st = .lost → exec (.readBurstArrival ⟨c, noise⟩) s = .next u) ∧
      (b.order ≠ 0 → s.blk.st ≠ .lost → alertShown raw = true →
        exec (.readBurstArrival ⟨c, noise⟩) s = .next (sbQueue (alertSeen u c) 2 1 (BitVec.ofNat 8 c) 0x010 0 [])) ∧
      (∀ f, b.order ≠ 0 → s.blk.st ≠ .lost → alertShown raw = false →
        (chan s c).inflight.find? (fun x => x.order == b.order) = some f →
        ∃ v, exec (.readBurstArrival ⟨c, noise⟩) s = .next (flightBurst v c b.at_ f raw) ∧
          (chan v c).inflight = (chan s c).inflight.filter (fun x => x.order != b.order) ∧
          (∀ r ∈ (chan v c).replay, r.order < b.order → r.confirmed = true) ∧ v = { u with chans := v.chans } ∧
          ∀ d, d ≠ c.val → chan v d = chan s d)) ∧
  (∀ (s : State) (c : Fin 64) (v : VerifyRet) (rest : List VerifyRet),
    c < nChan s → (chan s c).vrets = v :: rest → (decodeAt s v.place v.data).ue = [] →
    ∃ t, exec (.verifyReadResult c) s = .next t ∧ (chan t c).vrets = rest ∧
      (chan t c).wbs = (chan s c).wbs.filter (fun w => w.place != v.place) ∧ t.stack = s.stack ∧
      ((decodeAt s v.place v.data).corr.any (fun x => v.corr.contains x) = false → t.ecc = s.ecc ∧ ChanOnly s t c) ∧
      ((decodeAt s v.place v.data).corr.any (fun x => v.corr.contains x) = true → fenced s v.place = false →
        s.ecc.repair = none → s.ecc.queue = [] → regB s pgEcc 0x040 3 = true →
        t.ecc.queue = [{ ch := v.place.ch, bank := v.place.bank, row := v.place.row }] ∧
        t.hk.waiting = s.hk.waiting ++ [.repair])) ∧
  (∀ (s : State) (c : Fin 64), c < nChan s →
    let ready := (chan s c).recon.find? (fun r => r.res.isSome && (writeForbidden s || rewritesOf (chan s c) c r == 0))
    (ready = none → exec (.vaultReconstructionDone c) s = .next s) ∧
    (∀ r, ready = some r → (∀ f ∈ r.flights, ∃ id i, f.1.owner = .port id i) →
      (∀ w ∈ (chan s c).sliceWait, w.left ≠ [] ∧ w.left.any r.holds = false) →
      ∃ t, exec (.vaultReconstructionDone c) s = .next t ∧ t.stack = s.stack ∧
        (chan t c).recon = (chan s c).recon.filter (fun x => !x.holds r.place) ∧
        (r.res = some none → r.flights = [] → (reg t pgEcc 0x010).getLsbD 3 = true) ∧
        (∀ e p id i q ss, r.flights = [(e, p)] → e.owner = .port id i → findReq s id = some q → 1 < q.todo →
          e.overlays = [] → (oct s (octOf p.ch)).held = [] → r.res = some (some ss) →
          ∃ q', findReq t id = some q' ∧ q'.todo = q.todo - 1 ∧ q'.okDetail = maxByte q.okDetail 2#8 ∧
            Tab.find q'.rdata (i + (p.col - e.place.col)) = some (ss.getD p.col zeroSector))))

/-- A MERGING Liner entry that has reached AGE starts its eviction, which reads its sector; when the read returns, the entry's
bytes are merged over it, and over a sector that cannot be used they are lost, which the channel's cause shows; the oldest
full or merged entry joins the command queue as one write of its sector (R118-R120). -/
def Obligations.LinerEntriesAgeMergeAndJoin : Prop :=
  (∀ (s : State) (c : Fin 64), c < nChan s →
    let aged := (chan s c).liner.find? (fun l => l.st == .merging && decide (l.born + max 1 (regF s (chPage c) 0x044 0 12) ≤ s.time.tick))
    (aged = none → exec (.linerAgeExpiry c) s = .next s) ∧
    (∀ l, aged = some l → l.place.ch = c.val → (∀ y ∈ (chan s c).liner, y.serial = l.serial → y = l) →
      ∃ t e, exec (.linerAgeExpiry c) s = .next t ∧
        (chan t c).liner = (chan s c).liner.map (fun y => if y.serial = l.serial then { y with st := .evicting, evDl := synthDl s .bl } else y) ∧
        (chan t c).rq = (chan s c).rq ++ [e] ∧ e.owner = .evict l.serial ∧ e.place = l.place ∧ e.write = false ∧ e.cls = .bl ∧
        e.dl = synthDl s .bl ∧ ChanOnly s t c)) ∧
  (∀ (s : State) (c : Fin 64), c < nChan s →
    let back := (chan s c).liner.find? (fun l => l.st == .evicting && l.readBack.isSome)
    (back = none → exec (.linerEvictionReadReturn c) s = .next s) ∧
    (∀ l old, back = some l → l.readBack = some old →
      ∃ t, exec (.linerEvictionReadReturn c) s = .next t ∧
        (chan t c).liner = (chan s c).liner.map (fun x =>
          if x.serial = l.serial then { l with st := .merged, plain := mergeBytes (plain old) l.plain l.mask, mask := fullMask } else x) ∧
        (sectorBad old = false → t.regs = s.regs) ∧
        (sectorBad old = true → l.vault = none → (reg t (chPage c) 0x010).getLsbD 3 = true) ∧ ChanOnly s t c)) ∧
  (∀ (s : State) (c : Fin 64), c < nChan s →
    (linerWaiting s (chan s c) = none ∨ 64 ≤ (chan s c).cmdq.length → exec (.linerEntryJoinCmdq c) s = .next s) ∧
    (∀ l, linerWaiting s (chan s c) = some l → (chan s c).cmdq.length < 64 → l.vault = none →
      queuedWrite (cancelRewrites (chan s c) l.place) l.place = none →
      ((chan s c).liner.filter (fun x => x.st == .merging)).length < hiwat s c →
      ∃ t e, exec (.linerEntryJoinCmdq c) s = .next t ∧
        (chan t c).cmdq = intoQueue e (cancelRewrites (chan s c) l.place).cmdq ∧
        (chan t c).liner = (chan s c).liner.filter (fun x => x.serial != l.serial) ∧ e.place = l.place ∧ e.write = true ∧
        e.data = [linerData l] ∧ e.cls = .bl ∧ e.dl = (if l.st = .full then l.dl else l.evDl) ∧ e.tJoin = s.time.cyc ∧
        ChanOnly s t c))

/-! ### Slices, operations and Crowns (06, 07) -/

/-- A slice enters its channel's slice queue, which holds eight (R123, R147); a vector copy is asked of its channel sector by
sector, and an operation past its deadline stops instead (R141, R171); the status of a running slice is asked for when its
poll is due, and not before (R215). -/
def Obligations.SlicesAreQueuedCopiedAndPolled : Prop :=
  (∀ (s : State) (c : Fin 64), c < nChan s → 8 ≤ (chan s c).sliceq.length ∨ nextSlice s c = none → exec (.sliceQueueTake c) s = .next s) ∧
  (∀ (s : State) (c : Fin 64) (x : Slice), c < nChan s → (chan s c).sliceq.length < 8 → inRecovery s (.oct, octOf c) = false →
    nextSlice s c = some x →
    ∃ t, exec (.sliceQueueTake c) s = .next t ∧ (chan t c).slicer = (chan s c).slicer.eraseP (fun z => z.d == x.d) ∧
      (∃ y ∈ (chan t c).sliceq, y.d = x.d ∧ y.banks = x.banks ∧ y.runs = x.runs) ∧
      (chan t c).sliceq.length = (chan s c).sliceq.length + 1 ∧ (chan t c).running = (chan s c).running ∧
      (∀ e sp b r k, arrRead t e sp b r k = arrRead s e sp b r k) ∧ t.ports = s.ports) ∧
  (∀ (s : State) (d : BitVec 8) (c : Fin 64) (op : Op) (x : OpChan), c < nChan s → opOf s d.toNat = some op → Tab.find op.chans c = some x →
    op.stopped = false → x.copied = false → x.copying = false → x.done = false → slotBusy s op c = false →
    (lateAt s op = true → exec (.vectorCopyStart d c) s = .next (cancelLate s d.toNat)) ∧
    (lateAt s op = false →
      ∃ t, exec (.vectorCopyStart d c) s = .next t ∧
        (chan t c).rq.map (fun e => (e.place.bank, e.place.col, e.write, e.data)) = (chan s c).rq.map (fun e => (e.place.bank, e.place.col, e.write, e.data)) ++
          (copyContent s op c).map (fun e => (16, e.1, true, [e.2])) ∧
        t = { s with chans := t.chans, disp := t.disp } ∧ ∀ e, e ≠ c.val → chan t e = chan s e)) ∧
  (∀ (s : State) (c : Fin 64) (k : Fin 2) (x : Slice), c < nChan s → Tab.find (chan s c).running k = some x → x.pausedAt = none →
    x.final = none → srdWaiting (chan s c) k = false →
    (sliceRunning s x < x.pollAt → exec (.sliceStatusPoll c k) s = .next s) ∧
    (x.pollAt ≤ sliceRunning s x →
      ∃ t e, exec (.sliceStatusPoll c k) s = .next t ∧ (chan t c).rq = (chan s c).rq ++ [e] ∧ e.place.bank = 19 ∧ e.place.row = k.val ∧
        e.write = false ∧ e.cls = x.cls ∧ e.dl = x.dl ∧ ChanOnly s t c))

/-- The pending slice of a channel starts once its banks, its context, its energy and the row wires allow: SLS goes out, the
slice runs in its context and its banks are RESERVED (R125, R171-R173, R311); write-forbid keeps a writing form from
starting, and lets the others pass it (R173, R309). A slice that has reported done or aborted releases its context and its
banks (R127, R174, R175, R215). An overdue slice is a fault of its channel (R149). -/
def Obligations.SlicesStartEndAndOverrun : Prop :=
  (∀ (s : State) (c : Fin 64) (x : Slice) (op : Op) (k : Nat), c < nChan s → pendingSlice s (chan s c) = some x →
    opOf s x.d = some op → x.ctx = some k → k < 2 →
    (writeForbidden s = true → x.writes = false) ∧
    (op.form.writesArray = true → writeForbidden s = true → exec (.sliceStart c) s = .next s) ∧
    ((chan s c).halted = false → inService s c = true → s.thm.tripPh = 0 → s.hk.freq = .none → Tab.find (chan s c).running k = none →
      fillQueued (chan s c) x.d = false → banksReady s c (chan s c) x.banks = true → rowFree s c = true →
      0 < (chan s c).credit → (op.form.writesArray && writeForbidden s) = false →
      (lateAt s op = true → exec (.sliceStart c) s = .next (cancelLate s x.d)) ∧
      (lateAt s op = false →
        ∃ t, exec (.sliceStart c) s = .next t ∧ (chan t c).rowOut = (chan s c).rowOut ++ [(s.time.cyc, .sls ⟨c, 0⟩ (bitFin k) x.banks)] ∧
          (chan t c).lastRow = some s.time.cyc ∧
          Tab.find (chan t c).running k = some { x with started := some s.time.cyc, pollAt := costCycles x.cost } ∧
          (∀ b : Fin 16, x.banks.getLsbD b = true → ∀ h < 2, ((chan t c).half b h).st = .reserved) ∧
          (∀ e sp b r k, arrRead t e sp b r k = arrRead s e sp b r k) ∧ t.ports = s.ports))) ∧
  (∀ (s : State) (c : Fin 64) (k : Fin 2) (x : Slice), c < nChan s → Tab.find (chan s c).running k = some x →
    (x.final = none → exec (.sliceDone c k) s = .next s) ∧
    (∀ st, x.final = some st →
      fieldNat (plain st) 0 8 = 5 ∨ ((∀ p ∈ (chan s c).partIn, p.2.1 ≠ k.val) ∧ statusUes c (plain st) = []) →
      ∃ t, exec (.sliceDone c k) s = .next t ∧ (chan t c).running = Tab.drop (chan s c).running k ∧
        (∀ b : Fin 16, x.banks.getLsbD b = true → ∀ h < 2,
          ((chan t c).half b h).st = (if ((chan s c).half b h).st = .reserved then .idle else ((chan s c).half b h).st)))) ∧
  (∀ (s : State) (c : Fin 64) (k : Fin 2) (x : Slice), c < nChan s → Tab.find (chan s c).running k = some x → x.started.isSome = true →
    x.final = none → x.pausedAt = none →
    (sliceUsed s x ≤ 2 * costCycles x.cost + 2500 → exec (.sliceOverrun c k) s = .next s) ∧
    (2 * costCycles x.cost + 2500 < sliceUsed s x →
      exec (.sliceOverrun c k) s =
        .next (faultAt (latch (bumpReg s (octPage (octOf c)) 0x064 0 16 1) (octPage (octOf c)) 1) (chPage c) .overrun .unit)))

/-- A partial sector joins its Crown's queue with the deadline, class and port of its operation (R181, R183); a Crown's
combined result joins the head Crown's (R183). A Crown that works takes its best ready item: a job then wants its lock, a
slice's end adds its partials, and another Crown's result is taken (R181, R183). -/
def Obligations.CrownsQueueAndTakeItems : Prop :=
  (∀ (s : State) (c : Fin 64) (d k : Nat) (x : Sector) (rest : List (Nat × Nat × Sector)) (op : Op), c < nChan s →
    (chan s c).partIn = (d, k, x) :: rest → opOf s d = some op →
    ∃ t, exec (.partialArrival c) s = .next t ∧ (chan t c).partIn = rest ∧
      (oct t (octOf c)).queue = (oct s (octOf c)).queue ++
        [{ item := .partialSec d c x, dl := op.dl, cls := op.cls, joined := s.time.cyc, port := opPort s d }] ∧ t.stack = s.stack) ∧
  (∀ (s : State) (d : BitVec 8) (k : Fin 8) (op : Op), k < nOct s → opOf s d.toNat = some op → op.stopped = false → k.val ≠ op.head →
    (sendingOcts op).contains k.val = true → octReady op k = true → op.octDone.contains k.val = false →
    (∀ q ∈ (oct s op.head).queue, q.item ≠ .fabric d.toNat k) →
    ∃ t, exec (.fabricTransferArrival d k) s = .next t ∧
      (oct t op.head).queue = (oct s op.head).queue ++
        [{ item := .fabric d.toNat k, dl := op.dl, cls := op.cls, joined := s.time.cyc, port := opPort s d.toNat }] ∧
      t.chans = s.chans ∧ t.stack = s.stack) ∧
  (∀ (s : State) (k : Fin 8) (q : QItem), k < nOct s → crownRuns s k = true →
    bestBy (itemBefore (oct s k)) ((oct s k).queue.filter (itemReady (oct s k))) = some q →
    ∃ t, exec (.crownItemTake k) s = .next t ∧ (oct t k).queue = (oct s k).queue.erase q ∧ t.stack = s.stack ∧ t.ports = s.ports ∧
      (∀ (j : Job), q.item = .job j.jid → (oct s k).jobs.find? (fun x => x.jid == j.jid) = some j → (∀ p v, j.kind ≠ .parity p v) →
        (oct t k).jobs = (oct s k).jobs.map (fun x => if x.jid = j.jid then { j with st := .wantLock } else x)) ∧
      (∀ d ch first count last res op x, q.item = .sliceEnd d ch first count last res → opOf s d = some op →
        Tab.find op.chans ch = some x →
        ∃ op' y, opOf t d = some op' ∧ Tab.find op'.chans ch = some y ∧ y.parts = x.parts ++ [(first, count, res)]) ∧
      (∀ d oc op, q.item = .fabric d oc → opOf s d = some op → opOf t d = some { op with octDone := op.octDone ++ [oc] })) ∧
  (∀ (s : State) (k : Fin 8), k < nOct s → crownRuns s k = false → exec (.crownItemTake k) s = .next s)

/-- A Crown takes the lock of its best job and asks for its sector, or writes at once where there is nothing to read (R201,
R202); the returned sector of an atomic or a reduce-write is computed on and written, and the old sector goes to the request
that asked for it (R189-R193); once the write has joined its command queue the job ends, its lock is free, and the last part
of a request lets it reply (R22, R201). -/
def Obligations.CrownJobsLockReadAndWrite : Prop :=
  (∀ (s : State) (k : Fin 8) (j : Job), k < nOct s → crownRuns s k = true →
    bestBy jobBefore ((oct s k).jobs.filter (fun x => lockReady s k (oct s k) x && mayStart s x)) = some j →
    ∃ t e, exec (.crownLockTake k) s = .next t ∧ (oct t k).locks = (oct s k).locks ++ [(j.jid, j.place)] ∧
      (chan t j.place.ch).rq = (chan s j.place.ch).rq ++ [e] ∧ e.place = j.place ∧ e.owner = .crown k j.jid ∧
      e.cls = j.cls ∧ e.dl = j.dl ∧ t = { s with chans := t.chans, octs := t.octs } ∧
      (((∀ d, j.kind ≠ .result d) ∨ j.vault ≠ none) → e.write = false ∧ e.data = [] ∧
        (oct t k).jobs = (oct s k).jobs.map (fun x => if x.jid = j.jid then
          { j with lock := true, seq := (chan s j.place.ch).serial, st := .reading } else x)) ∧
      (∀ d, j.kind = .result d → j.vault = none → e.write = true ∧ e.data = [d])) ∧
  (∀ (s : State) (k : Fin 8) (j : Job) (d new : Sector), k < nOct s → crownRuns s k = true →
    (oct s k).jobs.find? (fun x => x.st == .returned && x.got.isSome) = some j → j.got = some d → j.vault = none →
    sectorBad d = false → (∀ q ∈ (chan s j.place.ch).cmdq, q.next ≠ none) → (∀ q ∈ s.reqs, q.stage = .handle → q.tAdmit = none) →
    (match j.kind with
      | .atomic aop et vec ofs y => some (sectorOf (atomicSector aop et vec ofs (plain d) (plain y)))
      | .reduce et y => some (sectorOf (reduceOp et (plain d) (plain y)))
      | _ => none) = some new →
    ∃ t e, exec (.crownReadReturn k) s = .next t ∧
      (oct t k).jobs = (oct s k).jobs.map (fun x => if x.jid = j.jid then { j with st := .writing, got := some new } else x) ∧
      (chan t j.place.ch).rq = (chan s j.place.ch).rq ++ [e] ∧ e.place = j.place ∧ e.write = true ∧ e.data = [new] ∧
      (∀ aop et vec ofs y id r, j.kind = .atomic aop et vec ofs y → j.req = some id → findReq s id = some r →
        r.h.flags.getLsbD 2 = true → ∃ r', findReq t id = some r' ∧ Tab.find r'.rdata 0 = some d) ∧ t.stack = s.stack) ∧
  (∀ (s : State) (k : Fin 8) (j : Job), k < nOct s → (oct s k).jobs.find? (writeJoined s k) = some j →
    (∀ q ∈ (chan s j.place.ch).cmdq, q.next ≠ none) → (∀ q ∈ s.reqs, q.stage = .handle → q.tAdmit = none) →
    ∃ t, exec (.crownWriteVisible k) s = .next t ∧ (oct t k).jobs = (oct s k).jobs.filter (fun x => x.jid != j.jid) ∧
      (oct t k).locks = (oct s k).locks.filter (fun l => l.1 != j.jid) ∧ t.chans = s.chans ∧ t.stack = s.stack ∧
      (∀ id r, j.req = some id → findReq s id = some r → r.stage = .admitted → r.todo = 1 →
        ∃ rp, (port t r.port).replies = (port s r.port).replies ++ [rp] ∧ rp.id = id ∧ rp.tag = r.h.tag))

/-- Held fragments start to drain when writing is allowed, one job to a sector in the order of their arrival, and not before
(R199). An operation whose parts are complete replies, with its result where DEST is RETURN; while parts are missing nothing
is delivered (R156, R165, R171). -/
def Obligations.DrainsAndResults : Prop :=
  (∀ (s : State) (k : Fin 8), k < nOct s → (s.thm.w = .hold ∨ s.thm.w = .trip) → exec (.heldDrainStart k) s = .next s) ∧
  (∀ (s : State) (k : Fin 8), k < nOct s → crownRuns s k = true → s.thm.w = .open_ ∨ s.thm.w = .brim →
    let todo := (((oct s k).held.filter (fun h => !((oct s k).jobs.any (fun j => j.isDrain && j.place == h.place)))).map
      (fun h => (h.place, h.vault))).eraseDups
    ∃ t, exec (.heldDrainStart k) s = .next t ∧
      (oct t k).jobs.map (fun j => (j.kind, j.place, j.vault, j.cls)) = (oct s k).jobs.map (fun j => (j.kind, j.place, j.vault, j.cls)) ++
        todo.map (fun p => (.drain, p.1, p.2, .bl)) ∧
      (oct t k).queue.length = (oct s k).queue.length + todo.length ∧ (oct t k).held = (oct s k).held ∧ t = { s with octs := t.octs }) ∧
  (∀ (s : State) (d : BitVec 8) (op : Op), opOf s d.toNat = some op → opReady op = false ∨ op.writing = true ∨ op.stopped = true →
    exec (.operationResultDelivery d) s = .next s) ∧
  (∀ (s : State) (d : BitVec 8) (op : Op) (r : Req), opOf s d.toNat = some op → op.stopped = false → op.writing = false →
    opReady op = true → op.poison = none → op.recon = false → findReq s op.req = some r → r.stage = .admitted → r.todo = 1 →
    (op.form = .fill ∨ op.form = .copyRes ∨ op.form = .copyStr ∨ op.form = .scatter → r.rdata = [] →
      ∃ t rp, exec (.operationResultDelivery d) s = .next t ∧ (port t r.port).replies = (port s r.port).replies ++ [rp] ∧
        rp.id = op.req ∧ rp.tag = r.h.tag ∧ rp.outcome = (finalOutcome s r).1.code ∧ rp.detail = (finalOutcome s r).2 ∧ rp.beats = [] ∧
        t.stack = s.stack ∧ t.chans = s.chans) ∧
    (op.form ≠ .fill → op.form ≠ .copyRes → op.form ≠ .copyStr → op.form ≠ .scatter →
      (lateAt s op = true → exec (.operationResultDelivery d) s = .next (cancelLate s d.toNat)) ∧
      (lateAt s op = false → op.d.dest = 0 → (resultSectors s op).1.any sectorBad = false →
        ∃ t rp, exec (.operationResultDelivery d) s = .next t ∧ (port t r.port).replies = (port s r.port).replies ++ [rp] ∧
          rp.id = op.req ∧ rp.tag = r.h.tag ∧ rp.outcome = (finalOutcome s r).1.code ∧ rp.detail = (finalOutcome s r).2 ∧
          rp.beats = (if (finalOutcome s r).1 = .discard ∨ (finalOutcome s r).1 = .gated then [] else beatsOf (resultSectors s op).1) ∧
          t.stack = s.stack ∧ t.chans = s.chans)))

/-! ### The stack's buses (08, 10) -/

/-- ACT, sent in cycle t0, opens a row of the half it lies in, or field spare ROW[4:0] in half ROW[5] (Table 8-3), where the
half is closed, the bank unreserved and the timing of the point lets it (Table 5-4, log 14). Nothing else changes. PRE closes
its half, or both halves with BOTH = 1 (Table 8-3), each of which is closed already or may precharge (Table 5-1); the other
halves and all else stay. -/
def Obligations.ActAndPreMoveTheirHalf : Prop :=
  (∀ (s : State) (c : Fin 64) (b : Fin 16) (row : BitVec 17) (spare : Bool) (h t0 : Nat),
    StackReady s c → (spare = false → row.toNat < rowsPerBank s) →
    h = (if spare then fieldNat row 5 1 else halfOf s row.toNat) → t0 = rowTime s c (.act ⟨c, 0⟩ b row spare) →
    Tab.find (stk s c).opens (halfKey b h) = none → Tab.find (stk s c).rsv b = none →
    since (stk s c).tAct (halfKey b h) t0 s.stkTim.rc = true → stkIdleOk s.stkTim (stk s c) b h t0 = true →
    stkRateOk s.stkTim (stk s c) b t0 = true →
    ∃ t, exec (.act ⟨c, 0⟩ b row spare) s = .next t ∧
      stk t c = { (stk s c).noteAct b t0 with
        opens := Tab.put (stk s c).opens (halfKey b h) (if spare then fieldNat row 0 5 else row.toNat, spare)
        tAct := Tab.put (stk s c).tAct (halfKey b h) t0 } ∧
      OnlyStackChannel s t c ∧ MemoryKept s t) ∧
  (∀ (s : State) (c : Fin 64) (b : Fin 16) (h : Fin 2) (both : Bool),
    StackReady s c → Tab.rising (stk s c).opens = true →
    (∀ i : Fin 2, both = true ∨ i = h → stkOpen (stk s c) b i = true →
      stkPreFrom s (stk s c) (halfKey b i) ≤ rowTime s c (.pre ⟨c, 0⟩ b h both)) →
    ∃ t, exec (.pre ⟨c, 0⟩ b h both) s = .next t ∧
      (∀ i : Fin 2, both = true ∨ i = h → stkOpen (stk t c) b i = false) ∧
      (∀ (b' : Fin 16) (i : Fin 2), ¬ (b' = b ∧ (both = true ∨ i = h)) →
        Tab.find (stk t c).opens (halfKey b' i) = Tab.find (stk s c).opens (halfKey b' i)) ∧
      (stk t c = { stk s c with opens := (stk t c).opens, tPre := (stk t c).tPre }) ∧
      OnlyStackChannel s t c ∧ MemoryKept s t)

/-- REF refreshes the bank's next 8 rows by the stack's own counter, with both halves closed and the timing of the point
passed (R255, Table 5-4, log 14), and passes ALERT (R216). NRF refreshes the neighbours of the row it names, over 2 RC or 4
RC: the stack notes which, at which radius, and counts it; it passes ALERT (R216, R262, R263). -/
def Obligations.RefreshCommands : Prop :=
  (∀ (s : State) (c : Fin 64) (b : Fin 16) (t0 : Nat),
    c.val < nChan s → stkAwake s c = true → t0 = rowTime s c (.ref ⟨c, 0⟩ b) →
    ((stk s c).alert = true ∨
      (stkOpen (stk s c) b 0 = false ∧ stkOpen (stk s c) b 1 = false ∧ stkIdleOk s.stkTim (stk s c) b 0 t0 = true ∧
        stkIdleOk s.stkTim (stk s c) b 1 t0 = true ∧ stkRateOk s.stkTim (stk s c) b t0 = true)) →
    ∃ t, exec (.ref ⟨c, 0⟩ b) s = .next t ∧
      stk t c = { (stk s c).noteAct b t0 with
        refCtr := Tab.put (stk s c).refCtr b ((Tab.get (stk s c).refCtr b 0 + 8) % rowsPerBank s)
        tRef := Tab.put (stk s c).tRef b t0 } ∧
      OnlyStackChannel s t c ∧ MemoryKept s t) ∧
  (∀ (s : State) (c : Fin 64) (b : Fin 16) (row : BitVec 17) (spare rad2 : Bool) (h t0 : Nat),
    c.val < nChan s → stkAwake s c = true → h = (if spare then fieldNat row 5 1 else halfOf s row.toNat) →
    t0 = rowTime s c (.nrf ⟨c, 0⟩ b row spare rad2) →
    ((stk s c).alert = true ∨
      (stkOpen (stk s c) b h = false ∧ since (stk s c).tAct (halfKey b h) t0 s.stkTim.rc = true ∧
        stkIdleOk s.stkTim (stk s c) b h t0 = true ∧ stkRateOk s.stkTim (stk s c) b t0 = true)) →
    ∃ t, exec (.nrf ⟨c, 0⟩ b row spare rad2) s = .next t ∧
      stk t c = { (stk s c).noteAct b t0 with
        lastNrf := some (b.val, row.toNat, spare, rad2)
        nrfCount := (stk s c).nrfCount + 1
        tAct := Tab.put (stk s c).tAct (halfKey b h) t0
        tNrf := Tab.put (stk s c).tNrf (halfKey b h) (t0 + (if rad2 then 4 else 2) * s.stkTim.rc) } ∧
      OnlyStackChannel s t c ∧ MemoryKept s t)

/-- SLS starts the slice held in its context on the banks named, which are closed and unreserved: the context runs from now
and each of its banks is reserved to it (Table 8-3, R214); no other context or channel changes, of the vector buffers only
the context's output area, and of the array only the sectors that the slice's own results lie in (Tables 8-5 and 8-6). SLP
pauses a slice on one bank, which is free for other commands meanwhile; SLR gives the bank back, and the slice runs on once
no bank of it is paused (R101, Table 8-3). SLX aborts its context: it discards the outputs and releases the banks; RSYNC
aborts both contexts, closes every bank and leaves ALERT (R217, Table 8-3). Of the array only the sectors change that an
aborted slice had written (R172). -/
def Obligations.SliceCommandsOfTheStack : Prop :=
  (∀ (s : State) (c : Fin 64) (ctx : Fin 2) (banks : BitVec 16),
    StackReady s c →
    (∀ b : Fin 16, banks.getLsbD b = true →
      stkOpen (stk s c) b 0 = false ∧ stkOpen (stk s c) b 1 = false ∧ Tab.find (stk s c).rsv b = none) →
    ∃ t v, exec (.sls ⟨c, 0⟩ ctx banks) s = .next t ∧ v = (stk t c).ctx ctx ∧
      v.st = .running ∧ v.raw = false ∧ v.banks = banks ∧ v.mark = s.time.cyc ∧ v.used = 0 ∧ v.stalled = 0 ∧
      v.pausedBanks = 0#16 ∧ v.parm = ((stk s c).ctx ctx).parm ∧ v.ready ≤ v.outLen ∧
      (∀ b : Fin 16, Tab.find (stk t c).rsv b = if banks.getLsbD b then some ctx.val else Tab.find (stk s c).rsv b) ∧
      (∀ i : Fin 2, i ≠ ctx → (stk t c).ctx i = (stk s c).ctx i) ∧
      stk t c = { stk s c with
        array := (stk t c).array, vbuf := (stk t c).vbuf, rsv := (stk t c).rsv, ctxs := (stk t c).ctxs, gen := (stk t c).gen
        lastNrf := (stk t c).lastNrf, nrfCount := (stk t c).nrfCount } ∧
      (∀ d, d ≠ c.val → chan t d = chan s d ∧ stk t d = stk s d) ∧ chan t c = { chan s c with rowOut := (chan t c).rowOut } ∧
      (∀ d k, ¬ (d = c.val ∧ v.outOfs ≤ k ∧ k < v.outOfs + v.outLen) → vbufRead t d k = vbufRead s d k) ∧
      StoresOnly s t c v.wrote ∧
      t = { s with chans := t.chans, stack := { s.stack with chans := t.stack.chans }, free := t.free }) ∧
  ((∀ (s : State) (c : Fin 64) (ctx : Fin 2) (b : Fin 16),
    StackReady s c → ((stk s c).ctx ctx).st = .running ∨ ((stk s c).ctx ctx).st = .paused →
    ∃ t, exec (.slp ⟨c, 0⟩ ctx b) s = .next t ∧
      (stk t c).ctx ctx = { ((stk s c).ctx ctx).upTo s.time.cyc with
        st := .paused, pausedBanks := ((stk s c).ctx ctx).pausedBanks ||| (1#16 <<< b.val) } ∧
      (∀ i : Fin 2, i ≠ ctx → (stk t c).ctx i = (stk s c).ctx i) ∧
      (∀ i : Fin 16, i ≠ b → Tab.find (stk t c).rsv i = Tab.find (stk s c).rsv i) ∧
      stk t c = { stk s c with rsv := (stk t c).rsv, ctxs := (stk t c).ctxs } ∧ OnlyStackChannel s t c ∧ MemoryKept s t) ∧
  (∀ (s : State) (c : Fin 64) (ctx : Fin 2) (b : Fin 16),
    StackReady s c → ((stk s c).ctx ctx).st = .paused → ((stk s c).ctx ctx).pausedBanks.getLsbD b = true →
    ∃ t, exec (.slr ⟨c, 0⟩ ctx b) s = .next t ∧
      ((stk t c).ctx ctx).pausedBanks = ((stk s c).ctx ctx).pausedBanks &&& ~~~(1#16 <<< b.val) ∧
      ((stk t c).ctx ctx).st = (if ((stk t c).ctx ctx).pausedBanks = 0#16 then .running else .paused) ∧
      (∀ i : Fin 2, i ≠ ctx → (stk t c).ctx i = (stk s c).ctx i) ∧
      Tab.find (stk t c).rsv b = some ctx.val ∧ (∀ i : Fin 16, i ≠ b → Tab.find (stk t c).rsv i = Tab.find (stk s c).rsv i) ∧
      stk t c = { stk s c with rsv := (stk t c).rsv, ctxs := (stk t c).ctxs } ∧ OnlyStackChannel s t c ∧ MemoryKept s t)) ∧
  ((∀ (s : State) (c : Fin 64) (ctx : Fin 2),
    StackReady s c → ((stk s c).ctx ctx).st ≠ .idle → ((stk s c).ctx ctx).st ≠ .aborted →
    ∃ t, exec (.slx ⟨c, 0⟩ ctx) s = .next t ∧ ((stk t c).ctx ctx).st = .aborted ∧ ((stk t c).ctx ctx).wait = [] ∧
      ((stk t c).ctx ctx).ready = 0 ∧
      (∀ e ∈ (stk t c).rsv, e.2 ≠ ctx.val) ∧ (∀ i : Fin 2, i ≠ ctx → (stk t c).ctx i = (stk s c).ctx i) ∧
      stk t c = { stk s c with array := (stk t c).array, rsv := (stk t c).rsv, ctxs := (stk t c).ctxs } ∧
      (∀ d, d ≠ c.val → chan t d = chan s d ∧ stk t d = stk s d) ∧ chan t c = { chan s c with rowOut := (chan t c).rowOut } ∧
      (∀ d k, vbufRead t d k = vbufRead s d k) ∧ StoresOnly s t c ((stk s c).ctx ctx).wrote ∧
      t = { s with chans := t.chans, stack := { s.stack with chans := t.stack.chans }, free := t.free }) ∧
  (∀ (s : State) (c : Fin 64),
    c.val < nChan s → stkAwake s c = true →
    ∃ t, exec (.rsync ⟨c, 0⟩) s = .next t ∧
      stk t c = { (stk s c).calm with
        array := (stk t c).array, rsv := (stk t c).rsv, ctxs := (stk t c).ctxs, opens := [], alert := false } ∧
      (∀ ctx : Fin 2, ((stk t c).ctx ctx).st = .idle ∨ ((stk t c).ctx ctx).st = .aborted) ∧
      (∀ d, d ≠ c.val → chan t d = chan s d ∧ stk t d = stk s d) ∧ chan t c = { chan s c with rowOut := (chan t c).rowOut } ∧
      (∀ d k, vbufRead t d k = vbufRead s d k) ∧
      StoresOnly s t c (((stk s c).ctx 0).wrote ++ ((stk s c).ctx 1).wrote) ∧
      t = { s with chans := t.chans, stack := { s.stack with chans := t.stack.chans }, free := t.free }))

/-- SRE, and a WCK that stops for 1 µs without SRE or PDE, put the channel's stack into self-refresh, its rows closed; SRX
leaves it at the point it names, with the refresh counters as self-refresh has left them; PDE and PDX enter and leave
power-down (R208, R266-R268, R341, Table 8-3). The contents stay. LANE sets the role of its half-channel's spare, from the
first burst at least 8 ns behind its last UI on: the wire it covers, SEL and PAT, where PAT counts with SEL = 1 only (R213). A
NOP on either bus changes nothing in the stack (R209, Tables 8-3 and 8-4). -/
def Obligations.PowerLaneAndNop : Prop :=
  ((∀ (s : State) (c : Fin 64), c.val < nChan s → stkAwake s c = true →
    (∃ t, exec (.sre ⟨c, 0⟩) s = .next t ∧ stk t c = { stk s c with selfRefresh := true, srMark := s.time.tick, opens := [] } ∧
      OnlyStackChannel s t c ∧ MemoryKept s t) ∧
    (∃ t, exec (.stackWckStop c) s = .next t ∧ stk t c = { stk s c with selfRefresh := true, srMark := s.time.tick, opens := [] } ∧
      OnlyStackChannel s t c ∧ MemoryKept s t)) ∧
  (∀ (s : State) (c : Fin 64) (p : BitVec 2), c.val < nChan s → stackOn s = true → (stk s c).selfRefresh = true → p ≠ 3#2 →
    ∃ t, exec (.srx ⟨c, 0⟩ p) s = .next t ∧
      stk t c = { (stk s c).calm with selfRefresh := false, srMark := s.time.tick, refCtr := (stk t c).refCtr } ∧
      (∀ b : Fin 16, Tab.get (stk t c).refCtr b 0 =
        (Tab.get (stk s c).refCtr b 0 +
          8 * ((s.time.tick - (stk s c).srMark) * (rowsPerBank s / 8) / (if stkHot s then 4000000 else 8000000))) % rowsPerBank s) ∧
      t.stack.point = p.toNat ∧
      (∀ d, d ≠ c.val → chan t d = chan s d ∧ stk t d = stk s d) ∧
      chan t c = { chan s c with rowOut := (chan t c).rowOut, colOut := (chan t c).colOut } ∧
      t = { s with chans := t.chans, stack := { s.stack with chans := t.stack.chans, point := p.toNat } } ∧ MemoryKept s t) ∧
  (∀ (s : State) (c : Fin 64), StackReady s c →
    ∃ t, exec (.pde ⟨c, 0⟩) s = .next t ∧ stk t c = { stk s c with powerDown := true } ∧ OnlyStackChannel s t c ∧ MemoryKept s t) ∧
  (∀ (s : State) (c : Fin 64), c.val < nChan s → stackOn s = true → (stk s c).powerDown = true → (stk s c).selfRefresh = false →
    ∃ t, exec (.pdx ⟨c, 0⟩) s = .next t ∧ stk t c = { stk s c with powerDown := false } ∧ OnlyStackChannel s t c ∧ MemoryKept s t)) ∧
  (∀ (s : State) (c : Fin 64) (h : Fin 2) (wire : BitVec 5) (sel pat : Bool) (from_ : Nat),
    StackReady s c → wire.toNat ≤ 18 → from_ = rowTime s c (.lane ⟨c, 0⟩ h wire sel pat) + 2 * stkSlot s + 20 →
    ∃ t, exec (.lane ⟨c, 0⟩ h wire sel pat) s = .next t ∧
      stk t c = { stk s c with
        lanes := Tab.put (stk s c).lanes h
          { (stk s c).lane h with
            wire := wire.toNat, sel := sel, pat := sel && pat, was := ((stk s c).lane h).modeAt from_, from_ := from_ } } ∧
      OnlyStackChannel s t c ∧ MemoryKept s t) ∧
  (∀ (s : State) (c : Fin 64), c.val < nChan s →
    (∃ t, exec (.rowNop ⟨c, 0⟩) s = .next t ∧ stk t c = stk s c ∧ OnlyStackChannel s t c ∧ MemoryKept s t) ∧
    (∃ t, exec (.colNop ⟨c, 0⟩) s = .next t ∧ stk t c = stk s c ∧ OnlyStackChannel s t c ∧ MemoryKept s t))

/-- RD and RDA, sent in a cycle that CCD and WTR allow, RCD behind the activate, put the sector of the open row on the wires,
RL later; RDA closes the half after it (R208, R212, Tables 5-4 and 8-4). -/
def Obligations.ReadsReturnTheOpenRow : Prop :=
  ∀ (s : State) (c : Fin 64) (b : Fin 16) (h : Fin 2) (col : BitVec 5) (row : Nat) (spare : Bool),
    StackReady s c → Tab.find (stk s c).opens (halfKey b h) = some (row, spare) → Tab.find (stk s c).rsv b = none →
    (∀ t0, t0 = colTime s c (.colRd ⟨c, 0⟩ b h col) → stkColOk s.stkTim (stk s c) (b.val % 4) t0 true = true →
      since (stk s c).tAct (halfKey b h) t0 s.stkTim.rcd = true →
      ∃ t, exec (.colRd ⟨c, 0⟩ b h col) s = .next t ∧
        (stk t c).ret = (stk s c).ret ++ [{ g0 := (arrRead s c spare b row col.toNat).g0, g1 := (arrRead s c spare b row col.toNat).g1
                                            alert := false, order := colOrder s c (.colRd ⟨c, 0⟩ b h col), at_ := t0 + stkRl s }] ∧
        (stk t c).opens = (stk s c).opens ∧ (stk t c).ctxs = (stk s c).ctxs ∧ OnlyStackChannel s t c ∧ MemoryKept s t) ∧
    (∀ t0, t0 = colTime s c (.colRda ⟨c, 0⟩ b h col) → stkColOk s.stkTim (stk s c) (b.val % 4) t0 true = true →
      since (stk s c).tAct (halfKey b h) t0 s.stkTim.rcd = true →
      ∃ t, exec (.colRda ⟨c, 0⟩ b h col) s = .next t ∧
        (stk t c).ret = (stk s c).ret ++ [{ g0 := (arrRead s c spare b row col.toNat).g0, g1 := (arrRead s c spare b row col.toNat).g1
                                            alert := false, order := colOrder s c (.colRda ⟨c, 0⟩ b h col), at_ := t0 + stkRl s }] ∧
        (stk t c).opens = Tab.drop (stk s c).opens (halfKey b h) ∧ (stk t c).ctxs = (stk s c).ctxs ∧
        OnlyStackChannel s t c ∧ MemoryKept s t)

/-- WR and WRA, sent in a cycle that CCD and RTW allow, RCD behind the activate, store the sector that the stack receives in
the open row, and nowhere else; WRA closes the half after it (R208, R212, Tables 5-4 and 8-4). Where both ends give the
spares the same roles and the wires add nothing, the stack receives what was sent (R207, R213). -/
def Obligations.WritesStoreInTheOpenRow : Prop :=
  (∀ (s : State) (c : Fin 64) (b : Fin 16) (h : Fin 2) (col : BitVec 5) (d : Sector) (n : BitVec 320) (row : Nat) (spare : Bool),
    StackReady s c → MemorySound s → Tab.find (stk s c).opens (halfKey b h) = some (row, spare) → row < 2 ^ 17 →
    Tab.find (stk s c).rsv b = none →
    (∀ t0, t0 = colTime s c (.colWr ⟨c, 0⟩ b h col ⟨d, 0⟩) → stkColOk s.stkTim (stk s c) (b.val % 4) t0 false = true →
      since (stk s c).tAct (halfKey b h) t0 s.stkTim.rcd = true →
      ∃ t, exec (.colWr ⟨c, 0⟩ b h col ⟨d, n⟩) s = .next t ∧
        arrRead t c spare b row col.toNat = received s c (.colWr ⟨c, 0⟩ b h col ⟨d, 0⟩) d n ∧
        (∀ e sp b' r k, b' < 16 → r < 2 ^ 17 → k < 32 → (e, sp, b', r, k) ≠ (c.val, spare, b.val, row, col.toNat) →
          arrRead t e sp b' r k = arrRead s e sp b' r k) ∧
        (∀ e k, vbufRead t e k = vbufRead s e k) ∧ (stk t c).opens = (stk s c).opens ∧ (stk t c).ctxs = (stk s c).ctxs ∧
        (stk t c).ret = (stk s c).ret ∧ OnlyStackBurst s t c) ∧
    (∀ t0, t0 = colTime s c (.colWra ⟨c, 0⟩ b h col ⟨d, 0⟩) → stkColOk s.stkTim (stk s c) (b.val % 4) t0 false = true →
      since (stk s c).tAct (halfKey b h) t0 s.stkTim.rcd = true →
      ∃ t, exec (.colWra ⟨c, 0⟩ b h col ⟨d, n⟩) s = .next t ∧
        arrRead t c spare b row col.toNat = received s c (.colWra ⟨c, 0⟩ b h col ⟨d, 0⟩) d n ∧
        (∀ e sp b' r k, b' < 16 → r < 2 ^ 17 → k < 32 → (e, sp, b', r, k) ≠ (c.val, spare, b.val, row, col.toNat) →
          arrRead t e sp b' r k = arrRead s e sp b' r k) ∧
        (∀ e k, vbufRead t e k = vbufRead s e k) ∧ (stk t c).opens = Tab.drop (stk s c).opens (halfKey b h) ∧
        (stk t c).ctxs = (stk s c).ctxs ∧ (stk t c).ret = (stk s c).ret ∧ OnlyStackBurst s t c)) ∧
  (∀ (s : State) (c : Fin 64) (i : Instr) (d : Sector), lanesAgree s c (colTime s c i + stkWl s) → received s c i d 0 = d)

/-- VWR stores the sector that the stack receives in the vector buffer, and nowhere else; VRD puts one on the wires (Table
8-4). SPW writes half of a context's parameter block; PRD gives the context's next output sector from its output area, where
the next waiting output takes its place; SRD gives its status sector, and a context found done with no output waiting gives
up its banks (R185, R214, R215, Table 8-6). -/
def Obligations.VectorBufferAndContexts : Prop :=
  (∀ (s : State) (c : Fin 64) (sec : BitVec 13) (d : Sector) (n : BitVec 320), StackReady s c →
    (MemorySound s → stkColOk s.stkTim (stk s c) 4 (colTime s c (.vwr ⟨c, 0⟩ sec ⟨d, 0⟩)) false = true →
      ∃ t, exec (.vwr ⟨c, 0⟩ sec ⟨d, n⟩) s = .next t ∧ vbufRead t c sec.toNat = received s c (.vwr ⟨c, 0⟩ sec ⟨d, 0⟩) d n ∧
        (∀ e k, (e, k) ≠ (c.val, sec.toNat) → vbufRead t e k = vbufRead s e k) ∧
        (∀ e sp b r k, arrRead t e sp b r k = arrRead s e sp b r k) ∧ (stk t c).opens = (stk s c).opens ∧
        (stk t c).ctxs = (stk s c).ctxs ∧ OnlyStackBurst s t c) ∧
    (∀ t0, t0 = colTime s c (.vrd ⟨c, 0⟩ sec) → stkColOk s.stkTim (stk s c) 4 t0 true = true →
      ∃ t, exec (.vrd ⟨c, 0⟩ sec) s = .next t ∧
        (stk t c).ret = (stk s c).ret ++ [{ g0 := (vbufRead s c sec.toNat).g0, g1 := (vbufRead s c sec.toNat).g1
                                            alert := false, order := colOrder s c (.vrd ⟨c, 0⟩ sec), at_ := t0 + stkRl s }] ∧
        (stk t c).opens = (stk s c).opens ∧ (stk t c).ctxs = (stk s c).ctxs ∧ OnlyStackChannel s t c ∧ MemoryKept s t)) ∧
  ((∀ (s : State) (c : Fin 64) (ctx part : Fin 2) (d : Sector) (n : BitVec 320), StackReady s c →
    stkColOk s.stkTim (stk s c) 4 (colTime s c (.spw ⟨c, 0⟩ ctx part ⟨d, 0⟩)) false = true →
    ∃ t, exec (.spw ⟨c, 0⟩ ctx part ⟨d, n⟩) s = .next t ∧
      (stk t c).ctx ctx = { (stk s c).ctx ctx with
        parm := Tab.put ((stk s c).ctx ctx).parm part (received s c (.spw ⟨c, 0⟩ ctx part ⟨d, 0⟩) d n) } ∧
      (∀ i : Fin 2, i ≠ ctx → (stk t c).ctx i = (stk s c).ctx i) ∧ (stk t c).opens = (stk s c).opens ∧
      OnlyStackBurst s t c ∧ MemoryKept s t) ∧
  (∀ (s : State) (c : Fin 64) (ctx : Fin 2) (v : Ctx) (t0 : Nat), StackReady s c → v = (stk s c).ctx ctx →
    t0 = colTime s c (.prd ⟨c, 0⟩ ctx) → stkColOk s.stkTim (stk s c) 4 t0 true = true → v.outrdy s.time.cyc ≠ 0 →
    ∃ t d, exec (.prd ⟨c, 0⟩ ctx) s = .next t ∧ d = vbufRead s c (v.outOfs + v.head % v.outLen) ∧
      (stk t c).ret = (stk s c).ret ++ [{ g0 := d.g0, g1 := d.g1, alert := false, order := colOrder s c (.prd ⟨c, 0⟩ ctx)
                                          at_ := t0 + stkRl s }] ∧
      ((stk t c).ctx ctx).head = v.head + 1 ∧
      ((stk t c).ctx ctx).ready + ((stk t c).ctx ctx).wait.length + 1 = v.ready + v.wait.length ∧
      (∀ i : Fin 2, i ≠ ctx → (stk t c).ctx i = (stk s c).ctx i) ∧ (stk t c).opens = (stk s c).opens ∧
      (∀ e k, ¬ (e = c.val ∧ v.outOfs ≤ k ∧ k < v.outOfs + v.outLen) → vbufRead t e k = vbufRead s e k) ∧
      (∀ e sp b r k, arrRead t e sp b r k = arrRead s e sp b r k) ∧ OnlyStackChannel s t c) ∧
  (∀ (s : State) (c : Fin 64) (ctx : Fin 2) (v : Ctx) (t0 : Nat), StackReady s c → v = (stk s c).ctx ctx →
    t0 = colTime s c (.srd ⟨c, 0⟩ ctx) → stkColOk s.stkTim (stk s c) 4 t0 true = true →
    ∃ t d, exec (.srd ⟨c, 0⟩ ctx) s = .next t ∧ d = statusSector s.stack.gen c ctx s.time.cyc v ∧
      (stk t c).ret = (stk s c).ret ++ [{ g0 := d.g0, g1 := d.g1, alert := false, order := colOrder s c (.srd ⟨c, 0⟩ ctx)
                                          at_ := t0 + stkRl s }] ∧
      (ctxState s.time.cyc v = .done → v.outrdy s.time.cyc = 0 →
        ((stk t c).ctx ctx).st = .done ∧ ∀ e ∈ (stk t c).rsv, e.2 ≠ ctx.val) ∧
      (ctxState s.time.cyc v ≠ .done ∨ v.outrdy s.time.cyc ≠ 0 →
        (stk t c).ctxs = (stk s c).ctxs ∧ (stk t c).rsv = (stk s c).rsv) ∧
      (∀ i : Fin 2, i ≠ ctx → (stk t c).ctx i = (stk s c).ctx i) ∧ OnlyStackChannel s t c ∧ MemoryKept s t))

/-- A protocol breach puts the channel's stack into ALERT and records its cause: an activate to an open half, a column command
to a closed half or a RESERVED bank (R216); no sector of the array changes. In ALERT the stack answers read-type commands
with the alert pattern, 0x55 on every wire, and ignores every other command but REF, NRF, SRE, SRX and RSYNC (R216). A command
whose wires cannot be corrected, or whose CRC fails, is not executed, and its cause is 1; one that decodes to a reserved code
or field has cause 2; any other is executed as it decodes, and its corrections are counted (R211). The payload of a command as
it was sent spells that command (Tables 8-3 and 8-4). -/
def Obligations.AlertOfTheStack : Prop :=
  ((∀ (s : State) (c : Fin 64) (b : Fin 16) (row : BitVec 17), StackReady s c → row.toNat < rowsPerBank s →
    stkOpen (stk s c) b (halfOf s row.toNat) = true →
    ∃ t, exec (.act ⟨c, 0⟩ b row false) s = .next t ∧ (stk t c).alert = true ∧ (stk t c).alertCause = 3 ∧
      (stk t c).alertCount = (stk s c).alertCount + 1 ∧
      (stk t c).opens = (stk s c).opens ∧ OnlyStackChannel s t c ∧ MemoryKept s t) ∧
  (∀ (s : State) (c : Fin 64) (b : Fin 16) (h : Fin 2) (col : BitVec 5) (d : Sector) (n : BitVec 320), StackReady s c →
    (Tab.find (stk s c).opens (halfKey b h) = none ∨ Tab.find (stk s c).rsv b ≠ none) →
    (∃ t, exec (.colWr ⟨c, 0⟩ b h col ⟨d, n⟩) s = .next t ∧ (stk t c).alert = true ∧
      (stk t c).alertCount = (stk s c).alertCount + 1 ∧ OnlyStackBurst s t c ∧ MemoryKept s t) ∧
    (∃ t, exec (.colRd ⟨c, 0⟩ b h col) s = .next t ∧ (stk t c).alert = true ∧
      (stk t c).alertCount = (stk s c).alertCount + 1 ∧ OnlyStackChannel s t c ∧ MemoryKept s t))) ∧
  (∀ (s : State) (c : Fin 64), c.val < nChan s → stkAwake s c = true → (stk s c).alert = true →
    (∀ i : Instr, (∃ b row sp, i = .act ⟨c, 0⟩ b row sp) ∨ (∃ b h both, i = .pre ⟨c, 0⟩ b h both) ∨ (∃ x banks, i = .sls ⟨c, 0⟩ x banks) ∨
        (∃ x b, i = .slp ⟨c, 0⟩ x b) ∨ (∃ x b, i = .slr ⟨c, 0⟩ x b) ∨ (∃ x, i = .slx ⟨c, 0⟩ x) ∨ i = .pde ⟨c, 0⟩ ∨
        (∃ h w a p, i = .lane ⟨c, 0⟩ h w a p) ∨ (∃ b h k d n, i = .colWr ⟨c, 0⟩ b h k ⟨d, n⟩) ∨ (∃ b h k d n, i = .colWra ⟨c, 0⟩ b h k ⟨d, n⟩) ∨
        (∃ a d n, i = .vwr ⟨c, 0⟩ a ⟨d, n⟩) ∨ (∃ x p d n, i = .spw ⟨c, 0⟩ x p ⟨d, n⟩) →
      ∃ t, exec i s = .next t ∧ stk t c = stk s c ∧ OnlyStackChannel s t c ∧ MemoryKept s t) ∧
    (∀ i : Instr, (∃ b h k, i = .colRd ⟨c, 0⟩ b h k) ∨ (∃ b h k, i = .colRda ⟨c, 0⟩ b h k) ∨ (∃ a, i = .vrd ⟨c, 0⟩ a) ∨
        (∃ x, i = .prd ⟨c, 0⟩ x) ∨ (∃ x, i = .srd ⟨c, 0⟩ x) →
      ∃ t, exec i s = .next t ∧
        stk t c = { stk s c with ret := (stk s c).ret ++ [{ g0 := alertSector.g0, g1 := alertSector.g1, alert := true
                                                            order := colOrder s c i, at_ := colTime s c i + stkRl s }] } ∧
        OnlyStackChannel s t c ∧ MemoryKept s t)) ∧
  ((∀ (s : State) (i j : Instr) (c : Fin 64) (e : BitVec 64) (x : WireRx 27), onRow i = some (c, e, j) → e ≠ 0 → StackReady s c →
    x = rowReceive (rowFields j) e →
    (x.ok = false ∨ rowOf c x.payload = none →
      ∃ t, exec i s = .next t ∧ (stk t c).alert = true ∧ (stk t c).alertCause = (if x.ok then 2 else 1) ∧
        (stk t c).alertCount = (stk s c).alertCount + 1 ∧ (stk t c).opens = (stk s c).opens ∧ OnlyStackChannel s t c ∧ MemoryKept s t) ∧
    (∀ k, x.ok = true → rowOf c x.payload = some k →
      exec i s = .next (rowEffect c (rowTime s c j) k (noteFixed (takeRow s c j) c x.fixed)))) ∧
  (∀ (s : State) (i j : Instr) (c : Fin 64) (e : BitVec 48) (x : WireRx 24), onCol i = some (c, e, j) → e ≠ 0 → StackReady s c →
    x = colReceive (colFields j) e → (x.ok = false ∨ colOf c x.payload (burstOf j) 0 = none) →
    ∃ t, exec i s = .next t ∧ (stk t c).alert = true ∧ (stk t c).alertCause = (if x.ok then 2 else 1) ∧
      (stk t c).alertCount = (stk s c).alertCount + 1 ∧ (stk t c).opens = (stk s c).opens ∧ OnlyStackChannel s t c ∧ MemoryKept s t) ∧
  (∀ (i j : Instr) (c : Fin 64) (e : BitVec 64), onRow i = some (c, e, j) → rowOf c (rowFields j) = some j) ∧
  (∀ (i j : Instr) (c : Fin 64) (e : BitVec 48), onCol i = some (c, e, j) → colOf c (colFields j) (burstOf j) 0 = some j))

/-! ### The sideband, scrub and repair (08, 11) -/

/-- A frame that reaches a stack that is up and not programming does what its command says and answers OK: REG_RD reads words,
REG_WR writes them, PP_RD reads the passport, PP_PROG writes words and starts programming, PP_ERASE erases a repair area,
PP_STAT tells of both, and T1500 loads the wrapper's instruction and shifts out as many words; while the passport is
programmed all but PP_STAT are answered BUSY (R221, R227, Table 8-8). A request that fails a CRC, or whose code is not listed,
is answered with its status and does nothing; one as it was sent spells its command. -/
def Obligations.SidebandFramesAct : Prop :=
  (∀ (s : State) (x : Sb), stackOn s = true → s.link.cur = some x → x.resp = none →
    (s.stack.ppBusy = false →
      (∀ (c : Fin 64) (a : BitVec 24) (n : BitVec 4), c < nChan s → x.cmd = 1 → x.ch = BitVec.ofNat 8 c → x.addr = a → x.len = n.toNat →
        x.words = [] →
        ∃ t ws, exec (.sbRegRd (BitVec.ofNat 8 c) ⟨a, 0⟩ n) s = .next t ∧ t.link.cur = some { x with resp := some (0#8, ws) } ∧
          ws.length = n.toNat + 1 ∧
          (∀ i w, ws[i]? = some w →
            (a.toNat + i = 0x011 → w = (stk s c).lnErr) ∧
            (a.toNat + i = 0x010 → fieldNat w 0 4 = (stk s c).alertCause % 16 ∧ fieldNat w 8 24 = (stk s c).alertCount % 2 ^ 24) ∧
            (0x080 ≤ a.toNat + i → a.toNat + i < 0x0C0 → w = Tab.get (stk s c).remap (a.toNat + i - 0x080) 0)) ∧
          t = { s with link := t.link, free := t.free }) ∧
      (∀ (c : Fin 64) (a : BitVec 24) (ws : List Word), c < nChan s → x.cmd = 2 → x.ch = BitVec.ofNat 8 c → x.addr = a →
        x.len = ws.length - 1 → x.words = ws →
        ∃ t, exec (.sbRegWr (BitVec.ofNat 8 c) ⟨a, 0⟩ ws) s = .next t ∧ t.link.cur = some { x with resp := some (0#8, []) } ∧
          (∀ v, ws = [v] → 0x040 ≤ a.toNat → a.toNat < 0x068 →
            stk t c = { stk s c with sref := Tab.put (stk s c).sref (a.toNat - 0x040) (fieldNat v 0 8) }) ∧
          (∀ v, ws = [v] → a.toNat = 0x01A → (stk t c).gen = v ++ (stk s c).seedLo) ∧
          (∀ e, e ≠ c.val → stk t e = stk s e) ∧ t = { s with link := t.link, stack := { s.stack with chans := t.stack.chans } } ∧
          MemoryKept s t) ∧
      (∀ (a : BitVec 24) (n : BitVec 4), x.cmd = 3 → x.ch = 0 → x.addr = a → x.len = n.toNat → x.words = [] →
        (ppAddrOk a.toNat (n.toNat + 1) = true →
          ∃ t, exec (.sbPpRd ⟨a, 0⟩ n) s = .next t ∧
            t.link.cur = some { x with resp := some (0#8, (List.range (n.toNat + 1)).map (fun i =>
              ppWord s.part s.stack.passport (a.toNat + 4 * i))) } ∧
            t = { s with link := t.link }) ∧
        (ppAddrOk a.toNat (n.toNat + 1) = false →
          ∃ t st, exec (.sbPpRd ⟨a, 0⟩ n) s = .next t ∧ t.link.cur = some { x with resp := some (st, []) } ∧
            t = { s with link := t.link, free := t.free })) ∧
      (∀ (a : BitVec 24) (ws : List Word), x.cmd = 4 → x.ch = 0 → x.addr = a → x.len = ws.length - 1 → x.words = ws →
        ppAddrOk a.toNat ws.length = true →
        ∃ t, exec (.sbPpProg ⟨a, 0⟩ ws) s = .next t ∧ t.link.cur = some { x with resp := some (0#8, []) } ∧
          (∀ i w, ws[i]? = some w → ppWord t.part t.stack.passport (a.toNat + 4 * i) = w) ∧
          t.stack.ppBusy = true ∧ t.stack.ppFail = false ∧
          (∀ b, (b < a.toNat ∨ a.toNat + 4 * ws.length ≤ b) → ppByte t.part t.stack.passport b = ppByte s.part s.stack.passport b) ∧
          MemoryKept s t) ∧
      (∀ (b : Bool), x.cmd = 6 → x.ch = 0 → x.addr = BitVec.ofNat 24 (areaBase b) → x.len = 0 → x.words = [] →
        ∃ t, exec (.sbPpErase ⟨BitVec.ofNat 24 (areaBase b), 0⟩) s = .next t ∧ t.link.cur = some { x with resp := some (0#8, []) } ∧
          (∀ i, i < areaBytes → ppByte t.part t.stack.passport (areaBase b + i) = 0xFF#8) ∧
          (∀ i, (i < areaBase b ∨ areaBase b + areaBytes ≤ i) → ppByte t.part t.stack.passport i = ppByte s.part s.stack.passport i) ∧
          t.stack.ppBusy = true ∧ MemoryKept s t) ∧
      (∀ (a : BitVec 24) (ws : List Word), x.cmd = 7 → x.ch = sbAll → x.addr = a → x.len = ws.length - 1 → x.words = ws →
        ∃ t out, exec (.sbT1500 ⟨a, 0⟩ ws) s = .next t ∧ t.link.cur = some { x with resp := some (0#8, out) } ∧ out.length = ws.length ∧
          t.stack.wir = (if a.getLsbD 0 then s.stack.wir else wirShift s.stack.wir (fieldNat a 3 10) ws) ∧ MemoryKept s t)) ∧
    (s.stack.ppBusy = true → ∀ (a : BitVec 24) (n : BitVec 4), x.cmd = 3 → x.ch = 0 → x.addr = a → x.len = n.toNat → x.words = [] →
      ∃ t, exec (.sbPpRd ⟨a, 0⟩ n) s = .next t ∧ t.link.cur = some { x with resp := some (3#8, []) } ∧ t = { s with link := t.link }) ∧
    (x.cmd = 5 → x.ch = 0 → x.len = 0 → x.words = [] →
      ∃ t, exec .sbPpStat s = .next t ∧
        t.link.cur = some { x with resp := some (0#8, [wordOf [(0, s.stack.ppBusy.toNat), (1, s.stack.ppFail.toNat)]]) } ∧
        t = { s with link := t.link }) ∧
    (∀ (a : BitVec 24) (n : BitVec 4) (e : BitVec 584) (st : Byte), e ≠ 0 → sbReceive (sbRequest 3 n.toNat 0 a [] ^^^ e) = .refused st →
      x.cmd = 3 → x.ch = 0 → x.addr = a → x.len = n.toNat → x.words = [] →
      ∃ t, exec (.sbPpRd ⟨a, e⟩ n) s = .next t ∧ t.link.cur = some { x with resp := some (st, []) } ∧ t = { s with link := t.link })) ∧
  (∀ (cmd len : Nat) (ch : Byte) (addr : BitVec 24) (ws : List Word), 1 ≤ cmd → cmd < 8 → len < 16 →
    ws.length = (if sbWrites cmd then len + 1 else 0) → sbReceive (sbRequest cmd len ch addr ws) = .cmd cmd ch addr len ws)

/-- The stack finishes programming its passport: the busy bit falls, and the fail bit tells how it ended; after a success the
bytes stand as written (Table 8-8). A request whose response fails its CRC, or is late, is sent again up to the retry
limit, and a BUSY answer is sent again; after the limit LINK_PP_OP ends with RESULT 2, and the failure is latched; a good
answer to LINK_PP_OP READ gives its word and RESULT 0 (R221, R222, R226). A response as the stack drives it is heard. -/
def Obligations.SidebandAnswersAreJudged : Prop :=
  (∀ (s : State) (a n : Nat), s.stack.ppWork = some (a, n) →
    ∃ t, exec (.ppProgramComplete false) s = .next t ∧
      t = { s with stack := { s.stack with ppBusy := false, ppFail := false, ppWork := none } }) ∧
  (∀ (s : State) (a n : Nat), s.stack.ppWork = some (a, n) →
    ∃ t, exec (.ppProgramComplete true) s = .next t ∧ t.stack.ppBusy = false ∧ t.stack.ppFail = true ∧ t.stack.ppWork = none ∧
      (∀ b, (b < a ∨ a + n ≤ b) → ppByte t.part t.stack.passport b = ppByte s.part s.stack.passport b) ∧ MemoryKept s t) ∧
  (∀ (s : State) (x : Sb) (st : Byte) (ws : List Word) (e : BitVec 528), s.link.cur = some x → x.resp = some (st, ws) →
    (e = 0 ∧ st = 1#8 ∨ e ≠ 0 ∧ (sbHeard (sbReply st ws ^^^ e) ws.length).1 = false) →
    (x.tries < regF s pgLink 0x044 0 3 →
      ∃ t, exec (.sbResponse e) s = .next t ∧
        t.link.cur = some { x with tries := x.tries + 1, resp := none, sentTick := s.time.tick } ∧ t.link.queue = s.link.queue ∧
        t.stack = s.stack ∧ t.chans = s.chans) ∧
    (regF s pgLink 0x044 0 3 ≤ x.tries → x.user = 4 → s.link.queue = [] →
      ∃ t, exec (.sbResponse e) s = .next t ∧ t.link.cur = none ∧ t.link.opBusy = false ∧ t.link.opResult = 2 ∧
        (reg t pgLink 0x010).getLsbD 0 = true ∧ t.stack = s.stack ∧ t.chans = s.chans)) ∧
  (∀ (s : State) (x : Sb) (ws : List Word), s.link.cur = some x → x.resp = some (3#8, ws) →
    ∃ t, exec (.sbResponse 0) s = .next t ∧ t.link.cur = some { x with resp := none, sentTick := s.time.tick } ∧
      t = { s with link := t.link }) ∧
  (∀ (s : State) (x : Sb) (w : Word), s.link.cur = some x → x.resp = some (0#8, [w]) → x.user = 4 → x.cmd = 3 → s.link.queue = [] →
    ∃ t, exec (.sbResponse 0) s = .next t ∧ t.link.cur = none ∧ t.link.opBusy = false ∧ t.link.opResult = 0 ∧
      reg t pgLink 0x064 = w ∧ t.stack = s.stack ∧ t.chans = s.chans) ∧
  (∀ (s : State) (x : Sb), s.link.cur = some x → x.resp = none →
    (s.time.tick < x.sentTick + sbTicks x + 320 → exec .sbResponseTimeout s = .next s) ∧
    (x.sentTick + sbTicks x + 320 ≤ s.time.tick → x.tries < regF s pgLink 0x044 0 3 →
      ∃ t, exec .sbResponseTimeout s = .next t ∧
        t.link.cur = some { x with tries := x.tries + 1, resp := none, sentTick := s.time.tick } ∧ t.stack = s.stack ∧ t.chans = s.chans)) ∧
  (∀ (st : Byte) (ws : List Word), ws.length ≤ 16 → sbHeard (sbReply st ws) ws.length = (true, st, ws))

/-- A patrol visit that is due reads a row of the scrub set in four reads of eight sectors, moves to the next place and is
counted; a patrol that is off, or not due, reads nothing (R286). A row failure that heads HK's queue takes the lowest free
spare of its bank, and its row is held; a bank without a free spare, or a third failure, is fenced (R292-R295). A remap becomes
active once the copy has been read back right: the row's entry names the spare, and the repair is over; a copy that reads back
wrong takes the next free spare, once; until all 32 sectors have been read nothing happens (R294, R295, Table 11-5). -/
def Obligations.ScrubAndRepair : Prop :=
  ((∀ (s : State) (c : Fin 64), c < nChan s → (patrolRuns s = false ∨ patrolDue s (chan s c) = false) → exec (.patrolVisit c) s = .next s) ∧
  (∀ (s : State) (c : Fin 64), c < nChan s → patrolRuns s = true → patrolDue s (chan s c) = true →
    inScrubSet s (chan s c).patrolBank (chan s c).patrolRow = true →
    fenced s { ch := c, bank := (chan s c).patrolBank, row := (chan s c).patrolRow, col := 0 } = false →
    ∃ t, exec (.patrolVisit c) s = .next t ∧
      (chan t c).rq.map (fun e => (e.place, e.n, e.write, e.owner)) = (chan s c).rq.map (fun e => (e.place, e.n, e.write, e.owner)) ++
        [0, 8, 16, 24].map (fun k => (({ ch := c, bank := (chan s c).patrolBank, row := (chan s c).patrolRow, col := k } : Place), 8, false, Owner.patrol)) ∧
      (chan t c).patrolBank = (if (chan s c).patrolBank < 15 then (chan s c).patrolBank + 1 else 0) ∧
      (chan t c).patrolAt = s.time.tick ∧
      t = { s with chans := t.chans, ecc := t.ecc } ∧ ∀ d, d ≠ c.val → chan t d = chan s d) ∧
  (∀ (s : State) (f : RowFail) (fs : List RowFail) (ws : List Seq) (e fails sp : Nat) (sps : List Nat), s.hk.waiting = .repair :: ws →
    s.ecc.queue = f :: fs → repairReady s f = true →
    fails = (match remapOf (chan s f.ch) f.bank f.row with | some (_, r) => r.fails + 1 | none => 1) → fails < 3 →
    remapSlot (chan s f.ch) f.bank f.row = some e → freeSpares (chan s f.ch) f.bank = sp :: sps →
    (remapMay s f = false → exec .repairSequenceStart s = .next s) ∧
    (remapMay s f = true →
      ∃ t, exec .repairSequenceStart s = .next t ∧ t.hk.cur = some .repair ∧ t.hk.waiting = ws ∧ t.ecc.queue = fs ∧
        t.ecc.repair = some { row := f, entry := e, spare := sp, fails := fails, tries := 0, ph := .quiet, got := [], checked := 0, bad := false } ∧
        (chan t f.ch).heldRows = (chan s f.ch).heldRows ++ [(f.bank, f.row)] ∧ t.stack = s.stack)) ∧
  (∀ (s : State) (f : RowFail) (fs : List RowFail) (ws : List Seq) (e fails : Nat), s.hk.waiting = .repair :: ws →
    s.ecc.queue = f :: fs → repairReady s f = true →
    fails = (match remapOf (chan s f.ch) f.bank f.row with | some (_, r) => r.fails + 1 | none => 1) →
    remapSlot (chan s f.ch) f.bank f.row = some e → (freeSpares (chan s f.ch) f.bank = [] ∨ 3 ≤ fails) →
    (chan s f.ch).cmdq = [] → (chan s f.ch).liner = [] →
    ∃ t, exec .repairSequenceStart s = .next t ∧ t.hk.waiting = ws ∧ t.ecc.queue = fs ∧
      remapOf (chan t f.ch) f.bank f.row = some (e, { fenced := true, fails := fails, bank := f.bank, row := f.row, spare := 0 }) ∧
      MemoryKept s t)) ∧
  (∀ (s : State) (r : Repair), s.ecc.repair = some r →
    (r.ph ≠ .verify ∨ r.checked < 32 ∨ inRecovery s (.ch, r.row.ch) = true ∨ s.thm.tripPh ≠ 0 → exec .remapActivate s = .next s) ∧
    (r.ph = .verify → 32 ≤ r.checked → inRecovery s (.ch, r.row.ch) = false → s.thm.tripPh = 0 →
      (r.bad = false →
        ∃ t, exec .remapActivate s = .next t ∧
          Tab.find (chan t r.row.ch).remap r.entry =
            some { fenced := false, fails := r.fails, bank := r.row.bank, row := r.row.row, spare := r.spare } ∧
          (chan t r.row.ch).heldRows = (chan s r.row.ch).heldRows.filter (fun h => h != (r.row.bank, r.row.row)) ∧
          t.ecc.repair = none ∧ t.hk.cur = none ∧ MemoryKept s t) ∧
      (r.bad = true → r.tries = 0 →
        ∀ sp sps, (freeSpares (chan s r.row.ch) r.row.bank).filter (fun i => i != r.spare) = sp :: sps →
        ∃ t, exec .remapActivate s = .next t ∧
          t.ecc.repair = some { r with spare := sp, tries := 1, ph := .quiet, got := [], checked := 0, bad := false } ∧
          (chan t r.row.ch).dead = (chan s r.row.ch).dead ++ [(r.row.bank, r.spare)] ∧ MemoryKept s t)))

/-! ### Calibration (09) -/

/-- A calibration step that is not due, or while tracking is off, moves nothing; one that is due moves every cuff's drift by
at most one and starts the next step (R238, R239). A sweep takes the next wire under its half's spare, with LANE on the
row wires, from which both ends switch 8 ns after its last UI (R213, R243); each dwell records an open tap, where it saw 24
bursts without a mismatch, and the stack counts mismatches of PRBS7 while PAT = 1 (R244, R245); the wire goes back to
data with the scan's result for the verify (R243); after a good verify its residual takes the result and the spare is free,
after a bad one the old read delay returns, and the last low sweep fails the wire (R247, R249); the sweep's end asks for
SR_LN_ERR (R246); and the reading moves the probed edge by one tap, unless its probe has been discarded (R246). -/
def Obligations.CalibrationStepsAndSweeps : Prop :=
  (∀ (s : State) (n : Fin 4), n < nCal s →
    (calRuns s n = false ∨ s.time.tick < (cal s n).stepAt + max 250 (regF s (calPage n) 0x044 0 12) →
      exec (.calStepBoundary n) s = .next s) ∧
    (calRuns s n = true → (cal s n).stepAt + max 250 (regF s (calPage n) 0x044 0 12) ≤ s.time.tick →
      ∃ t, exec (.calStepBoundary n) s = .next t ∧ (cal t n).stepAt = s.time.tick ∧
        (∀ i < 16, (chan t (16 * n + i)).stepBursts = 0 ∧
          ∀ q < 4, ((cuffOf (chan t (16 * n + i)) q).d - (cuffOf (chan s (16 * n + i)) q).d).natAbs ≤ 1) ∧
        (∀ c, (c < 16 * n ∨ 16 * n + 16 ≤ c) → chan t c = chan s c) ∧ t.stack = s.stack)) ∧
  ((∀ (s : State) (n : Fin 4) (w o : Nat) (e : CalEng), n < nCal s → calRuns s n = true → (cal s n).active = false →
    regB s (calPage n) 0x040 2 = true → nextSweep s n = some (w, o, e) →
    let c := 16 * n + o
    ∃ t, exec (.sweepTakeOver n) s = .next t ∧ (cal t n).active = true ∧ (cal t n).wire = w ∧ (cal t n).chofs = o ∧
      (cal t n).phase = .scan ∧ (cal t n).pos = 0 ∧ ((chan t c).wire w).mitten = true ∧
      ((chan t c).wire w).rApplied = clamp255 (gridPos ((chan s c).wire w).rTarget 0) ∧
      (chan t c).spare (wireHalf w) = { (chan s c).spare (wireHalf w) with
        wire := some w, pat := true, from_ := laneFrom s (rowSlot s c)
        was := ((chan s c).spare (wireHalf w)).modeAt (laneFrom s (rowSlot s c)) } ∧
      (chan t c).rowOut = (chan s c).rowOut ++
        [(rowSlot s c, .lane ⟨chanFin c, 0⟩ (bitFin (wireHalf w)) (BitVec.ofNat 5 (laneWire w)) true true)] ∧
      t = { s with chans := t.chans, cals := t.cals, regs := t.regs } ∧
      ((∀ p ∈ e.pendErr, p.wire = w → p.ch = c → p.st = .dropped) → t.regs = s.regs)) ∧
  (∀ (s : State) (n : Fin 4), n < nCal s →
    (calRuns s n = false ∨ (cal s n).active = true ∨ regB s (calPage n) 0x040 2 = false ∨ nextSweep s n = none) →
    exec (.sweepTakeOver n) s = .next s) ∧
  (∀ (s : State) (n : Fin 4) (bursts prbs : Nat) (mis : Bool), n < nCal s →
    let c := 16 * n.val + (cal s n).chofs
    ((cal s n).active = false ∨ (cal s n).phase ≠ .scan ∨ 43 ≤ (cal s n).pos → exec (.scanPositionDwellEnd n bursts ⟨mis, prbs⟩) s = .next s) ∧
    ((cal s n).active = true → (cal s n).phase = .scan → (cal s n).pos < 43 →
      ∃ t, exec (.scanPositionDwellEnd n bursts ⟨mis, prbs⟩) s = .next t ∧ (cal t n).pos = (cal s n).pos + 1 ∧
        ((cal s n).pos < 41 → (cal t n).openPos = (cal s n).openPos ++
          (if 24 ≤ bursts ∧ mis = false ∧ 0 ≤ gridPos (cal s n).centre (cal s n).pos ∧ gridPos (cal s n).centre (cal s n).pos ≤ 255
            then [gridPos (cal s n).centre (cal s n).pos] else [])) ∧
        ((cal s n).pos < 40 →
          ((chan t c).wire (cal s n).wire).rApplied = clamp255 (gridPos (cal s n).centre ((cal s n).pos + 1))) ∧
        ((cal s n).pos = 42 → (cal t n).found ≠ none) ∧
        (stk t c).lnErr = (if (((stk s c).lane (wireHalf (cal s n).wire)).modeAt s.time.cyc).pat = true
          then (stk s c).lnErr + BitVec.ofNat 32 prbs else (stk s c).lnErr) ∧
        t = { s with chans := t.chans, cals := t.cals, free := t.free, stack := { s.stack with chans := t.stack.chans } } ∧
        (∀ d, d ≠ c → chan t d = chan s d ∧ stk t d = stk s d))) ∧
  (∀ (s : State) (n : Fin 4), n < nCal s →
    ((cal s n).active = false ∨ (cal s n).phase ≠ .scan ∨ (cal s n).found = none → exec (.sweepReturn n) s = .next s) ∧
    (∀ (eye : Nat) (res : Int), (cal s n).active = true → (cal s n).phase = .scan → (cal s n).found = some (eye, res) →
      ∃ t, exec (.sweepReturn n) s = .next t ∧ cal t n = { cal s n with phase := .verify } ∧
        ((chan t (16 * n + (cal s n).chofs)).wire (cal s n).wire).rApplied = clamp255 res ∧
        ((chan t (16 * n + (cal s n).chofs)).spare (wireHalf (cal s n).wire)).pat = false ∧
        t = { s with chans := t.chans, cals := t.cals })) ∧
  (∀ (s : State) (n : Fin 4) (bursts eye : Nat) (res : Int) (mis : Bool), n < nCal s → (cal s n).active = true →
    (cal s n).phase = .verify → (cal s n).found = some (eye, res) →
    let c := 16 * n.val + (cal s n).chofs
    let w := (cal s n).wire
    (bursts < 24 → exec (.sweepRelease n bursts mis) s = .next s) ∧
    (24 ≤ bursts → mis = false → eyeMin s n ≤ eye →
      ∃ t, exec (.sweepRelease n bursts mis) s = .next t ∧ (cal t n).phase = .wait ∧
        ((chan t c).wire w).rres = res * 2 ^ s.hk.point - rdlyAt s c w ∧ ((chan t c).wire w).low = 0 ∧
        ((chan t c).spare (wireHalf w)).wire = none ∧ t = { s with chans := t.chans, cals := t.cals }) ∧
    (24 ≤ bursts → mis = true → ((chan s c).wire w).low + 1 < failSweeps s n →
      ∃ t, exec (.sweepRelease n bursts mis) s = .next t ∧ (cal t n).phase = .wait ∧
        ((chan t c).wire w).rApplied = (cal s n).oldR ∧ ((chan t c).wire w).rres = ((chan s c).wire w).rres ∧
        ((chan t c).wire w).low = ((chan s c).wire w).low + 1 ∧ ((chan t c).spare (wireHalf w)).wire = none ∧ t.stack = s.stack) ∧
    (24 ≤ bursts → (mis = true ∨ eye < eyeMin s n) → failSweeps s n ≤ ((chan s c).wire w).low + 1 → w < 38 →
      (∀ v < 38, wireHalf v = wireHalf w → ((chan s c).wire v).failed = false) → ((chan s c).spare (wireHalf w)).failed = false →
      ∃ t, exec (.sweepRelease n bursts mis) s = .next t ∧ ((chan t c).wire w).failed = true ∧
        ((chan t c).spare (wireHalf w)).taken = true ∧ ((chan t c).spare (wireHalf w)).wire = some w ∧ t.stack = s.stack)) ∧
  (∀ (s : State) (n : Fin 4), n < nCal s →
    ((cal s n).active = false ∨ (cal s n).phase ≠ .wait → exec (.sweepEnd n) s = .next s) ∧
    ((cal s n).active = true → (cal s n).phase = .wait →
      ∃ t, exec (.sweepEnd n) s = .next t ∧ (cal t n).active = false ∧
        (∃ eye, (cal t n).pendErr = (cal s n).pendErr ++ [{ wire := (cal s n).wire, ch := 16 * n + (cal s n).chofs, eye := eye, st := .waiting
                                                            right := ((chan s (16 * n + (cal s n).chofs)).wire (cal s n).wire).probeRight }]) ∧
        ((chan t (16 * n + (cal s n).chofs)).wire (cal s n).wire).mitten = false ∧ t.stack = s.stack ∧
        (s.link.cur = none → s.link.queue = [] → ∃ x, t.link.cur = some x ∧ x.cmd = 1 ∧
          x.ch = BitVec.ofNat 8 (16 * n + (cal s n).chofs) ∧ x.addr = 0x011#24))) ∧
  (∀ (s : State) (n : Fin 4), n < nCal s →
    (∀ v, (∀ c w rest, (cal s n).lnGot = (c, w) :: rest → w ≠ v) → exec (.srLnErrReading n v) s = .next s) ∧
    (∀ (c : Nat) (count : Word) (rest : List (Nat × Word)) (p : Probe), (cal s n).lnGot = (c, count) :: rest →
      (cal s n).pendErr.find? (fun q => q.ch == c && q.st != .lost) = some p →
      (p.st = .dropped →
        ∃ t, exec (.srLnErrReading n count) s = .next t ∧ (cal t n).lnGot = rest ∧ (cal t n).pendErr = (cal s n).pendErr.erase p ∧
          t = { s with cals := t.cals }) ∧
      (p.st ≠ .dropped → ((chan s c).wire p.wire).wlow + 1 < failSweeps s n →
        let r := (chan s c).wire p.wire
        ∃ t, exec (.srLnErrReading n count) s = .next t ∧ (cal t n).lnGot = rest ∧ (cal t n).pendErr = (cal s n).pendErr.erase p ∧
          (16 < (count - Tab.get (cal s n).lastErr (c % 16) 0#32).toNat →
            ((chan t c).wire p.wire).er = (if p.right then r.er - 1 else r.er) ∧
            ((chan t c).wire p.wire).el = (if p.right then r.el else r.el + 1)) ∧
          ((count - Tab.get (cal s n).lastErr (c % 16) 0#32).toNat ≤ 16 →
            ((chan t c).wire p.wire).er = (if p.right then r.er + 1 else r.er) ∧
            ((chan t c).wire p.wire).el = (if p.right then r.el else r.el - 1)) ∧ t.stack = s.stack))))

/-! ### Temperature and power (12) -/

/-- A slot begins 16 µs after the one before it: a sensor of the stack shows what it measures, with VALID, and its register is
read over the sideband; a sensor of the block's own die is read at once (R302, R303). When the stack's answer has come, the
reading is the held value of a GOOD sensor; one outside the write limits starts write-forbid, from OPEN to HOLD where BRIM
may not be taken; one that makes a trip due starts it: THERM_TRIP_N falls, the state is TRIP and TSTEP is 7 (R302, R303,
R307, R308, R317). -/
def Obligations.SensorReadingsActOnTheLevels : Prop :=
  (∀ (s : State) (r : Option (BitVec 16)), (64 ≤ s.thm.slot ∨ s.time.tick < s.thm.slotAt → exec (.thmSlotMeasurement r) s = .next s) ∧
    (s.thm.slot < 64 → s.thm.slotAt ≤ s.time.tick →
      ∃ t, exec (.thmSlotMeasurement r) s = .next t ∧ t.thm.slot = s.thm.slot + 1 ∧ t.thm.slotAt = s.thm.slotAt + slotTicks ∧
        (∀ i a, slotSensor s = some i → sensorReg i = some a → s.link.cur = none → s.link.queue = [] →
          Tab.get t.stack.temps a 0#32 = (match r with | some v => wordOf [(0, v.toNat), (16, 1)] | none => 0#32) ∧
          t.thm = { s.thm with slot := t.thm.slot, slotAt := t.thm.slotAt } ∧
          ∃ x, t.link.cur = some x ∧ x.cmd = 1 ∧ x.user = 1 ∧ x.ch = sbAll ∧ x.addr = BitVec.ofNat 24 a) ∧
        (∀ i v, slotSensor s = some i → sensorReg i = none → r = some v → (sensor s i).st = .good →
          (sensor t i).heldVal = v.toInt ∧ (sensor t i).rvalid = true))) ∧
  (∀ (s : State) (x : Sb) (w : Word) (ws : List Word), s.link.cur = some x → x.cmd = 1 → x.user = 1 → x.resp = some (0#8, w :: ws) →
    0x100 ≤ x.addr.toNat → x.addr.toNat < 0x140 → w.getLsbD 16 = true →
    let i := regSensor x.addr.toNat
    let v : Int := (field w 0 16 : BitVec 16).toInt
    let u := takeReading s i (some (field w 0 16))
    (sensor s i).st = .good →
    (s.thm.rounds8 = 0 →
      ∃ t, exec (.sbResponse 0) s = .next t ∧ (sensor t i).heldVal = v ∧ t.thm.w = s.thm.w ∧ t.pins = s.pins) ∧
    (0 < s.thm.rounds8 → tripDue u i = false →
      (wrLo s ≤ v → v ≤ wrHi s →
        ∃ t, exec (.sbResponse 0) s = .next t ∧ (sensor t i).heldVal = v ∧ t.thm.w = s.thm.w ∧ t.thm.forbid = s.thm.forbid ∧
          t.pins = s.pins) ∧
      ((v < wrLo s ∨ wrHi s < v) → s.thm.w = .open_ → brimOk { u with thm := { u.thm with forbid := true } } = false →
        s.thm.forbid = false →
        ∃ t, exec (.sbResponse 0) s = .next t ∧ (sensor t i).heldVal = v ∧ t.thm.forbid = true ∧ t.thm.w = .hold ∧ t.pins = s.pins)) ∧
    (0 < s.thm.rounds8 → tripDue u i = true → s.thm.w ≠ .trip → s.hk.freq = .none →
      ∃ t, exec (.sbResponse 0) s = .next t ∧ (sensor t i).heldVal = v ∧ t.thm.w = .trip ∧ t.thm.tstep = 7 ∧
        t.pins.thermTripN = false))

/-- A round ends after its 64 slots: the next begins with slot 0, and TSTEP rises by one, at most to 7, while a throttle
condition holds, falls by one after 16 rounds without one, and stays at 7 in TRIP (R302, R310; that it stays in TRIP is
the model's reading, log 52). A trip's drain done, every channel is in self-refresh; its end wakes the stack and releases
THERM_TRIP_N, and the write state is OPEN unless write-forbid holds (R317, R319). The Brim budget at 0 ends BRIM in HOLD
(R313, Table 12-3). -/
def Obligations.RoundsAndTrips : Prop :=
  ((∀ s : State, s.thm.slot < 64 ∨ s.time.tick < s.thm.slotAt → exec .roundBoundary s = .next s) ∧
  (∀ s : State, s.thm.slot = 64 → s.thm.slotAt ≤ s.time.tick → s.thm.started = true →
    ∃ t, exec .roundBoundary s = .next t ∧ t.thm.slot = 0 ∧ t.thm.round = s.thm.round + 1 ∧ t.thm.rounds8 = s.thm.rounds8 + 1 ∧
      t.thm.tstep =
        (if s.thm.w = .trip then s.thm.tstep
         else if throttleHolds (roundSeen s).2 (roundSeen s).1 = true then min 7 (s.thm.tstep + 1)
         else if 16 ≤ s.thm.clear + 1 then s.thm.tstep - 1 else s.thm.tstep))) ∧
  ((∀ s : State, s.thm.tripPh ≠ 1 ∨ (linkLive s = true ∧ ∃ c, c < nChan s ∧ tripDrained s c = false) →
    exec .tripSelfRefreshEntry s = .next s) ∧
  (∀ s : State, s.thm.tripPh = 1 → linkLive s = false →
    ∃ t, exec .tripSelfRefreshEntry s = .next t ∧ t = { s with thm := { s.thm with tripPh := 2 } }) ∧
  (∀ s : State, s.thm.tripPh = 1 → linkLive s = true → (∀ c, c < nChan s → tripDrained s c = true) →
    ∃ t, exec .tripSelfRefreshEntry s = .next t ∧ t.thm = { s.thm with tripPh := 2 } ∧
      (∀ c, c < nChan s → (chan t c).pd = .selfRefresh ∧
        ((chan s c).pd ≠ .selfRefresh → (chan t c).rowOut = (chan s c).rowOut ++ [(rowSlot s c, .sre ⟨chanFin c, 0⟩)])) ∧
      t = { s with chans := t.chans, thm := t.thm }) ∧
  (∀ s : State, s.thm.tripPh ≠ 3 ∨ s.clk.coreRun = false → exec .tripResume s = .next s) ∧
  (∀ s : State, s.thm.tripPh = 3 → s.clk.coreRun = true →
    ∃ t, exec .tripResume s = .next t ∧ t.pins = { s.pins with thermTripN := true } ∧ t.thm.tripPh = 0 ∧
      (s.thm.forbid = false → t.thm.w = .open_) ∧ (s.thm.forbid = true → t.thm.w = .brim ∨ t.thm.w = .hold) ∧
      t.stack = s.stack) ∧
  (∀ s : State, s.thm.w = .brim → s.thm.budget = 0 → s.thm.budgetFrac = 0 →
    ∃ t, exec .brimBudgetExhausted s = .next t ∧ t.thm = { s.thm with w := .hold } ∧ (reg t pgThm 0x010).getLsbD 4 = true ∧
      Booked { s with thm := t.thm } t) ∧
  (∀ s : State, s.thm.w ≠ .brim ∨ s.thm.budget ≠ 0 ∨ s.thm.budgetFrac ≠ 0 → exec .brimBudgetExhausted s = .next s))

/-- A PMBus transaction's end brings its reading or counts as a failure; STATUS_WORD read lets PMB_ALERT_N rise, which fell
with the power stage's alert; an AVSBus voltage write makes the setting the rail's (R321-R323, Table 12-6; that the pin
rises with STATUS_WORD is the model's, log 73). -/
def Obligations.PowerStageTransactionsEnd : Prop :=
  (∀ (s : State) (v : BitVec 16),
    ∃ t, exec (.pmbusTransactionDone (.vin v)) s = .next t ∧ t.pwr.vin = v ∧
      t.pwr.vinOut = (if v.toNat < 34000 ∨ 46000 < v.toNat then true else if 34500 ≤ v.toNat ∧ v.toNat ≤ 45500 then false else s.pwr.vinOut) ∧
      Booked { s with pwr := t.pwr } t) ∧
  (∀ (s : State) (v : BitVec 16),
    (∃ t, exec (.pmbusTransactionDone (.iin v)) s = .next t ∧ t.pwr.iin = v ∧ t = { s with pwr := t.pwr }) ∧
    (∃ t, exec (.pmbusTransactionDone (.iout v)) s = .next t ∧ t.pwr.arrI = v ∧ t = { s with pwr := t.pwr }) ∧
    (∃ t, exec (.pmbusTransactionDone (.temp v)) s = .next t ∧ t.pwr.ctemp = v ∧ t = { s with pwr := t.pwr })) ∧
  (∀ (s : State) (w : BitVec 16),
    ∃ t, exec (.pmbusTransactionDone (.status w)) s = .next t ∧ t.pwr.status = w ∧ t.pins = { s.pins with pmbAlertN := true } ∧
      (w.getLsbD 2 = true ∨ w.getLsbD 14 = true → t.thm.statusSeen = true)) ∧
  (∀ s : State,
    ∃ t, exec (.pmbusTransactionDone .fail) s = .next t ∧ t.pwr = { s.pwr with pmbOk := false } ∧
      (reg t pgPwr 0x010).getLsbD 4 = true ∧ Booked { s with pwr := t.pwr } t) ∧
  (∀ s : State, exec (.pmbusTransactionDone .write) s = .next s) ∧
  (∀ s : State, ∃ t, exec .pmbAlert s = .next t ∧ t = { s with pins := { s.pins with pmbAlertN := false } }) ∧
  (∀ (s : State) (n : Nat), s.pwr.vddNext = some n →
    ∃ t, exec (.avsFrameDone .written) s = .next t ∧ t.pwr.vddCur = n ∧ t.pwr.vddNext = none ∧ t.pins = s.pins) ∧
  (∀ (s : State) (v : BitVec 16),
    (∃ t, exec (.avsFrameDone (.voltage v)) s = .next t ∧ t = { s with pwr := { s.pwr with avsOk := true, coreV := v } }) ∧
    (∃ t, exec (.avsFrameDone (.current v)) s = .next t ∧ t = { s with pwr := { s.pwr with avsOk := true, coreI := v } }) ∧
    (∃ t, exec (.avsFrameDone .status) s = .next t ∧ t = { s with pwr := { s.pwr with avsOk := true } })) ∧
  (∀ (s : State), ∃ t, exec (.avsFrameDone .fail) s = .next t ∧ t.pwr = { s.pwr with avsOk := false, vddNext := none } ∧
    (reg t pgPwr 0x010).getLsbD 5 = true ∧ Booked { s with pwr := t.pwr } t)

/-- STK_PGOOD rises with the wire clock and STK_RST_N low; without it within 10 ms of boot step 7 the power goes off and the
block is LOST; it is followed by the release of STK_RST_N no less than 200 µs later, with arbitrary contents in the stack; and
its fall costs the stack its contents and the block its service (R228, R229, R297, R323). -/
def Obligations.TheStackIsPoweredOnAndLost : Prop :=
  (∀ s : State, s.pins.stkPwrEn = true → s.pins.stkPgood = false →
    ∃ t, exec .stkPgoodRise s = .next t ∧ t.pins = { s.pins with stkPgood := true, stkRstN := false, wckRun := true } ∧
      t.pwr.pgoodTick = s.time.tick ∧ t = { s with pins := t.pins, pwr := t.pwr }) ∧
  (∀ s : State, s.pins.stkPwrEn = false ∨ s.pins.stkPgood = true → exec .stkPgoodRise s = .next s) ∧
  (∀ s : State, poweringOn s = true → s.pins.stkPgood = false →
    (s.time.tick < s.pwr.pwrOnTick + pgoodTicks → exec .pgoodTimeout s = .next s) ∧
    (s.pwr.pwrOnTick + pgoodTicks ≤ s.time.tick →
      ∃ t, exec .pgoodTimeout s = .next t ∧ t.blk.st = .lost ∧ t.pins.stkPwrEn = false ∧ t.pins.portOpen = true)) ∧
  (∀ s : State, poweringOn s = true → s.pins.stkPgood = true → s.pins.stkRstN = false →
    (s.time.tick < s.pwr.pgoodTick + rstTicks → exec .stkResetRelease s = .next s) ∧
    (s.pwr.pgoodTick + rstTicks ≤ s.time.tick →
      ∃ t, exec .stkResetRelease s = .next t ∧ t.pins = { s.pins with stkRstN := true } ∧ t.stack.passport = s.stack.passport ∧
        t.stack.gen = s.stack.gen + 1 ∧ t = { s with pins := t.pins, stack := t.stack } ∧ ∀ c, stk t c = StkChan.reset)) ∧
  (∀ s : State, s.pins.stkPgood = false → exec .stkPgoodFall s = .next s) ∧
  (∀ s : State, s.pins.stkPgood = true →
    ∃ t, exec .stkPgoodFall s = .next t ∧ t.pins.stkPgood = false ∧ t.pins.stkRstN = false ∧ t.stack.gen = s.stack.gen + 1 ∧
      t.stack.passport = s.stack.passport ∧ (s.pins.stkPwrEn = true → s.blk.st = .ready → t.blk.st = .lost) ∧
      (s.pins.stkPwrEn = false → t.blk = s.blk))

/-! ### Power-down and frequency points (10) -/

/-- A quiet channel that has been idle for PD_IDLE goes over to pulling in its refreshes, and when these are done and its
writes confirmed, PDE goes out, and its wire clock stops tCKSRE later; work ends the sequence. A channel in power-down with
work or a due refresh leaves it: its wire clock restarts, PDX goes out tCKPDX later, and its commands wait tXP from its last
UI (R265, R266, Table 10-4). -/
def Obligations.ChannelsPowerDownAndWake : Prop :=
  (∀ (s : State) (c : Fin 64) (a : Nat), c < nChan s → pdQuiet s c = true → (chan s c).pd = .active → (chan s c).idleSince = some a →
    (s.time.tick < a + pdIdle s c → exec (.powerdownEntry c) s = .next s) ∧
    (a + pdIdle s c ≤ s.time.tick → regB s (chPage c) 0x070 0 = true → inService s c = true →
      ∃ t, exec (.powerdownEntry c) s = .next t ∧ chan t c = { chan s c with pd := .pulling } ∧ ChanOnly s t c)) ∧
  (∀ (s : State) (c : Fin 64), c < nChan s → pdQuiet s c = true → (chan s c).pd = .confirming → pulledIn (chan s c) = true →
    (chan s c).inflight = [] → allClosed s (chan s c) = true → rowFree s c = true →
    ∃ t, exec (.powerdownEntry c) s = .next t ∧ (chan t c).pd = .powerdown ∧
      (chan t c).wckOff = some (s.time.cyc + 2 * slotLen s + 25) ∧ SendsRow s t c (.pde ⟨c, 0⟩)) ∧
  (∀ (s : State) (c : Fin 64), c < nChan s → pdQuiet s c = false →
    ∃ t, exec (.powerdownEntry c) s = .next t ∧ (chan t c).idleSince = none ∧
      ((chan s c).pd = .pulling ∨ (chan s c).pd = .confirming → (chan t c).pd = .active) ∧ ChanOnly s t c) ∧
  (∀ (s : State) (c : Fin 64), c < nChan s → (chan s c).pd = .powerdown → wakeWanted (chan s c) = true →
    let a := rowSlotFrom s c (s.time.cyc + 40)
    ∃ t, exec (.powerdownExit c) s = .next t ∧
      chan t c = { chan s c with pd := .active, wckOff := none, wakeAt := some (a + 2 * slotLen s + 60), lastRow := some a
                                 rowOut := (chan s c).rowOut ++ [(a, .pdx ⟨c, 0⟩)] } ∧
      ChanOnly s t c) ∧
  (∀ (s : State) (c : Fin 64), c < nChan s → (chan s c).pd ≠ .powerdown ∨ wakeWanted (chan s c) = false →
    exec (.powerdownExit c) s = .next s)

/-- A change to the current point ends at once with RESULT SAME; one to another point begins with the drain of every channel;
its drain done, all channels are in self-refresh, the point is the target's and every channel's other timing set is
active; and its end wakes every channel at that point and counts the change (R270, R274, Table 10-6). -/
def Obligations.FrequencyChangesRun : Prop :=
  (∀ (s : State) (ld : Bool) (ws : List Seq), s.hk.waiting = .freq s.hk.point ld :: ws → s.hk.cur = none → s.thm.w ≠ .trip →
    s.thm.tripPh = 0 → s.blk.st = .ready → s.clk.coreRun = true →
    ∃ t, exec .freqChangeStart s = .next t ∧ t.hk = { s.hk with waiting := ws, freqBusy := false, freqResult := 2 } ∧
      t = { s with hk := t.hk }) ∧
  (∀ (s : State) (p : Nat) (ld : Bool) (ws : List Seq), s.hk.waiting = .freq p ld :: ws → p ≠ s.hk.point → s.hk.cur = none →
    s.thm.w ≠ .trip → s.thm.tripPh = 0 → s.blk.st = .ready → s.clk.coreRun = true →
    ∃ t, exec .freqChangeStart s = .next t ∧ t.hk.cur = some (.freq p ld) ∧ t.hk.freq = .drain ∧ t.hk.freqStart = s.time.tick ∧
      t.hk.waiting = ws ∧ t.hk.point = s.hk.point ∧ t.stack = s.stack ∧ t.pins = s.pins ∧
      (∀ c, c < nChan s → (chan t c).pd ≠ .powerdown)) ∧
  (∀ s : State, s.hk.waiting = [] → exec .freqChangeStart s = .next s) ∧
  (∀ (s : State) (p : Nat) (ld : Bool), s.hk.cur = some (.freq p ld) → s.hk.freq = .drain →
    ((∃ c, c < nChan s ∧ freqDrained s c = false) → exec .freqDrainDone s = .next s) ∧
    ((∀ c, c < nChan s → freqDrained s c = true) →
      ∃ t, exec .freqDrainDone s = .next t ∧ t.hk = { s.hk with freq := .selfRefresh, point := p } ∧
        (∀ c, c < nChan s → (chan t c).pd = .selfRefresh ∧ 
          (chan t c).rowOut = (chan s c).rowOut ++ [(rowSlot s c, .sre ⟨chanFin c, 0⟩)] ∧
          regB t (chPage c) 0x120 0 = !regB s (chPage c) 0x120 0) ∧ t.stack = s.stack)) ∧
  (∀ s : State, s.hk.freq = .selfRefresh → s.clk.coreRun = true → s.thm.tripWait = false →
    ∃ t, exec .freqChangeResume s = .next t ∧ t.hk.freq = .none ∧ t.hk.cur = none ∧ t.hk.freqBusy = false ∧ t.hk.freqResult = 0 ∧
      t.hk.freqCount = min 65535 (s.hk.freqCount + 1) ∧ t.hk.freqLast = s.time.tick - s.hk.freqStart ∧ t.hk.point = s.hk.point ∧
      t.winStart = s.time.cyc ∧ (∀ c, c < nChan s → (chan t c).pd = .active ∧ ∀ b < 16, ((chan t c).bank b).debt = 0)) ∧
  (∀ s : State, s.hk.freq ≠ .selfRefresh ∨ s.clk.coreRun = false → exec .freqChangeResume s = .next s)

/-! ### Clocks, reset and boot (13) -/

/-- A window of the full reference test counts towards eight that pass within 4% of the nominal count, and the eighth gives
the ratio; one that does not pass starts the eight again (R329). The PLL's lock starts domains 0 to 91; without it the PLL
is tried again, and the third failure halts the block with cause PLL (R330, R332). -/
def Obligations.ReferenceAndPllAreChecked : Prop :=
  (∀ (s : State) (n : Nat), refTesting s = true → (∀ w, s.clk.phase ≠ .refCheck w) →
    (157287 ≤ n → n ≤ 170393 →
      ∃ t, exec (.refclkWindowEnd n) s = .next t ∧ t.clk.passed = s.clk.passed + 1 ∧ t.clk.sum = s.clk.sum + n ∧
        (s.clk.passed = 7 → t.clk.refOk = true ∧ t.clk.ratio = (s.clk.sum + n) / 8) ∧ (s.clk.passed < 7 → t.clk.refOk = s.clk.refOk) ∧
        t = { s with clk := t.clk }) ∧
    (n < 157287 ∨ 170393 < n →
      ∃ t, exec (.refclkWindowEnd n) s = .next t ∧ t.clk.passed = 0 ∧ t.clk.sum = 0 ∧ t.clk.fails = min 255 (s.clk.fails + 1) ∧
        t = { s with clk := t.clk })) ∧
  (∀ s : State, s.blk.st = .boot → s.blk.step = 3 → s.clk.onPll = false → s.clk.phase = .none →
    (∃ t, exec .pllLock s = .next t ∧ t.clk.onPll = true ∧ t.clk.coreRun = true ∧ t.clk.pllLock = true ∧
      t.winStart = s.time.cyc ∧ (∀ c, chan t c = { chan s c with slotIdx := 0, counts := Counts.zero }) ∧
      t = { s with winStart := t.winStart, chans := t.chans, pins := t.pins, clk := t.clk }) ∧
    (s.clk.tries < 2 →
      ∃ t, exec .pllLockTimeout s = .next t ∧ t.clk.tries = s.clk.tries + 1 ∧ t.blk = s.blk ∧ t = { s with clk := t.clk }) ∧
    (2 ≤ s.clk.tries →
      ∃ t, exec .pllLockTimeout s = .next t ∧ t.blk.st = .halted ∧ t.blk.cause = 1 ∧ t.pins.portOpen = false)) ∧
  (∀ s : State, s.blk.st = .lost → s.clk.phase = .locking →
    ∃ t, exec .pllLockTimeout s = .next t ∧ t.clk.phase = .locking ∧ t = { s with clk := t.clk }) ∧
  (∀ s : State, s.blk.st = .ready → s.clk.phase = .none → exec .pllLock s = .next s ∧ exec .pllLockTimeout s = .next s)

/-- REFCLK's loss is logged and latched, and ends the reference's validity (R328); the PLL clock's loss stops domains 0 to 91
and the wire clock, makes the time base uncertain, and starts the reference check that what is left of REFCLK asks for
(R340, R344); a forced switch puts its domain on the IRC and is counted (R339). -/
def Obligations.ClockLossesAreHandled : Prop :=
  (∀ s : State, s.clk.refPresent = false → exec .refclkLoss s = .next s) ∧
  (∀ s : State, s.clk.refPresent = true →
    ∃ t, exec .refclkLoss s = .next t ∧ t.clk.refPresent = false ∧ t.clk.refOk = false ∧ t.clk.passed = 0 ∧
      (reg t pgClk 0x010).getLsbD 0 = true ∧ t.pins = s.pins ∧ t.stack = s.stack) ∧
  (∀ (s : State) (b r : Bool), s.clk.onPll = false → exec (.pllClockLoss b r) s = .next s) ∧
  (∀ (s : State) (b r : Bool), s.clk.onPll = true →
    ∃ t, exec (.pllClockLoss b r) s = .next t ∧ t.clk.onPll = false ∧ t.clk.coreRun = false ∧ t.clk.refPresent = r ∧
      t.clk.phase = (if r then .refCheck 0 else .refFull) ∧ t.pins.wckRun = false ∧ t.time.uncertain = true) ∧
  (∀ (s : State) (d : Fin 100), 92 ≤ d.val → d.val ≤ 98 → (s.clk.onPll = true ∨ s.clk.phase ≠ .none) →
    ∃ t, exec (.forcedSwitch d) s = .next t ∧ t.clk.swDomain = d.val ∧ t.clk.swForced = true ∧
      t.clk.forcedCount = min 65535 (s.clk.forcedCount + 1) ∧ (d.val = 92 → t.time.uncertain = true)) ∧
  (∀ (s : State) (d : Fin 100), (d.val < 92 ∨ 98 < d.val ∨ (s.clk.onPll = false ∧ s.clk.phase = .none)) →
    exec (.forcedSwitch d) s = .next s)

/-- A TIME_SYNC edge captures BLK_TIME and is counted, and an armed one loads the time base; every deadline moves with it, so
that no slack changes (R345). A gated domain's clock stops when its work is done (R333), and a measurement ends with its
count (R336). -/
def Obligations.TimeGatesAndMeasurements : Prop :=
  (∀ s : State, s.clk.stopped.getLsbD 92 = false → regB s pgBlk 0x060 0 = false →
    ∃ t, exec .timeSyncEdge s = .next t ∧ reg t pgBlk 0x064 = field s.time.blk 0 32 ∧ reg t pgBlk 0x068 = field s.time.blk 32 32 ∧
      t = { s with regs := t.regs }) ∧
  (∀ s : State, s.clk.stopped.getLsbD 92 = false → regB s pgBlk 0x060 0 = true →
    ∃ t, exec .timeSyncEdge s = .next t ∧ t.time.blk = reg s pgBlk 0x05C ++ reg s pgBlk 0x058 ∧ t.time.uncertain = false ∧
      regB t pgBlk 0x060 0 = false ∧
      (∀ id r, findReq s id = some r → ∃ q, findReq t id = some q ∧
        q.dl = r.dl.map (fun x => x + ((t.time.blk.toNat : Int) - s.time.blk.toNat)) ∧ q.stage = r.stage) ∧
      (∀ c, (chan t c).cmdq = (chan s c).cmdq.map (fun e => { e with dl := e.dl + ((t.time.blk.toNat : Int) - s.time.blk.toNat) }))) ∧
  (∀ (s : State) (d : Fin 100), gated s d = true → domainIdle s d = true →
    ∃ t, exec (.gateClockStop d) s = .next t ∧ t.clk.stopped.getLsbD d = true ∧
      (∀ e, e < 100 → e ≠ d.val → t.clk.stopped.getLsbD e = s.clk.stopped.getLsbD e) ∧ t = { s with clk := t.clk }) ∧
  (∀ (s : State) (d : Fin 100), gated s d = false ∨ domainIdle s d = false → exec (.gateClockStop d) s = .next s) ∧
  (∀ (s : State) (n : Word) (b : Bool), s.clk.fmeasBusy = true →
    ∃ t, exec (.fmeasComplete n b) s = .next t ∧ t.clk = { s.clk with fmeasBusy := false, fmeasDone := true, fmeasStopped := b } ∧
      reg t pgClk 0x074 = n ∧ (reg t pgClk 0x010).getLsbD 4 = true ∧ Booked { s with clk := t.clk } t) ∧
  (∀ (s : State) (n : Word) (b : Bool), s.clk.fmeasBusy = false → exec (.fmeasComplete n b) s = .next s)

/-- Cold reset brings the reset state back: what stays is the part, the passport and what stands outside the block; a warm
reset keeps besides the log, the loss latch and the boot configuration (R346, R347, Table 13-6). Boot goes from step to
step, waits in a step whose condition is missing, and halts on the failures that Table 13-8 names (R350). -/
def Obligations.ResetsAndBootSteps : Prop :=
  (∀ s : State, ∃ t, exec .coldReset s = .next t ∧
    t = { State.reset with part := s.part, free := s.free, pending := s.pending,
                           clk := { State.reset.clk with refPresent := s.clk.refPresent },
                           stack := { State.reset.stack with passport := s.stack.passport, gen := s.stack.gen } }) ∧
  (∀ s : State, ∃ t, exec .warmReset s = .next t ∧ t.blk.st = .boot ∧ t.blk.step = 1 ∧ t.blk.warm = true ∧
    t.blk.lost = s.blk.lost ∧ t.pins = State.reset.pins ∧ t.reqs = [] ∧ t.chans = [] ∧ t.ports = [] ∧
    t.log.entries = s.log.entries) ∧
  (∀ s : State, bootMoves s = true → s.blk.step = 2 → s.clk.refOk = false → exec (.bootStepComplete .ok) s = .next s) ∧
  (∀ s : State, bootMoves s = true → s.blk.step = 2 → s.clk.refOk = true →
    ∃ t, exec (.bootStepComplete .ok) s = .next t ∧ t.blk.st = .boot ∧ t.blk.step = 3 ∧ t.stack = s.stack) ∧
  (∀ s : State, bootMoves s = true → s.blk.step = 3 → s.clk.onPll = false → ∀ d,
    ∃ t, exec (.bootStepComplete (.fail d)) s = .next t ∧ t.blk.st = .halted ∧ t.blk.cause = 1) ∧
  (∀ s : State, bootMoves s = true → s.blk.step = 8 → s.link.bootAt ≠ none → exec (.bootStepComplete .ok) s = .next s) ∧
  (∀ s : State, bootMoves s = true → s.blk.step = 12 →
    ∃ t, exec (.bootStepComplete .ok) s = .next t ∧ t.blk.st = (if s.blk.lost then .lost else .ready) ∧ t.pins.portOpen = true) ∧
  (∀ s : State, bootMoves s = false → ∀ r, exec (.bootStepComplete r) s = .next s)

/-! ### Faults, tests and the test access port (14, 15, 16) -/

/-- A fault in READY is recorded in its unit's UNIT_FAULT with its class and source, and opens a recovery of its scope; one
that cannot arise in the unit does nothing (R355-R357, R364). A recovery ends once its steps are done, and its channel
serves again (R360). A progress timer at its limit is a fault of its unit, and below it nothing (R362). -/
def Obligations.FaultsRecoverTheirScope : Prop :=
  (∀ (s : State) (page : Fin 128) (u : UnitKind × Nat) (src : FaultSource) (part : FaultPart), unitOf s page = some u →
    sourceFits u.1 src = false → exec (.faultDetected page src part) s = .next s) ∧
  (∀ (s : State) (c : Fin 64), c < nChan s → s.blk.st = .ready → s.recov = [] →
    ∃ t, exec (.faultDetected ⟨64 + c.val, by omega⟩ .overrun .unit) s = .next t ∧
      fieldNat (reg t (chPage c) 0x018) 0 4 = faultClass s (chPage c) .overrun .unit ∧
      fieldNat (reg t (chPage c) 0x018) 8 8 = srcCode .overrun ∧ t.recov ≠ []) ∧
  (∀ (s : State) (page : Fin 128), unitOf s page = none → ∀ src part,
    exec (.faultDetected page src part) s = .fault .absentUnit ∧ exec (.recoveryComplete page) s = .fault .absentUnit) ∧
  (∀ (s : State) (c : Fin 64) (r : Recovery), c < nChan s → s.recov = [r] → r.page = chPage c → r.scope = .channel c →
    s.blk.st = .ready → recoveryReady s r = true →
    ∃ t, exec (.recoveryComplete ⟨64 + c.val, by omega⟩) s = .next t ∧ t.recov = [] ∧ (chan t c).halted = false ∧ (chan t c).prog = 0 ∧
      t.stack = s.stack ∧ ∀ d, d ≠ c.val → chan t d = chan s d) ∧
  (∀ (s : State) (c : Fin 64), c < nChan s → progExpired s (.ch, c) .unit = false →
    exec (.progressTimerExpiry ⟨64 + c.val, by omega⟩ .unit) s = .next s) ∧
  (∀ (s : State) (c : Fin 64), c < nChan s → progExpired s (.ch, c) .unit = true →
    largerExpired s (faultClass s (chPage c) .progress .unit) = false →
    exec (.progressTimerExpiry ⟨64 + c.val, by omega⟩ .unit) s = .next (faultAt s (chPage c) .progress .unit))

/-- A counter at its largest value sets its OVF bit, and wraps to 0 where it is supervisor-owned or stays where it is user-
granted (R391); an HDL_OP command that needs no more store traffic completes with OP_DONE (R84); a stop is reached when
nothing admitted uses its unit (R404); a health test that fails counts and is latched, and a restored source serves the
draws that wait (R411); a scratch test's end gives its result and leaves the scratch zero (R376). -/
def Obligations.CountersCommandsAndTestsEnd : Prop :=
  (∀ (s : State) (i : Fin 368), counterExists s i = true → counter s i ≠ BitVec.allOnes 48 → exec (.counterAtMax i) s = .next s) ∧
  (∀ (s : State) (i : Fin 368), counterExists s i = true → counter s i = BitVec.allOnes 48 →
    (i.val % 2 = 1 ∨ chainedPair s (i / 2) = false) →
    ∃ t, exec (.counterAtMax i) s = .next t ∧ counter t i = (if userGranted s i then BitVec.allOnes 48 else 0#48) ∧
      regB t pgPmu (0x0C0 + 4 * (i / 32)) (i % 32) = true ∧ Booked s t) ∧
  (∀ (s : State) (o : HdlOp), s.hdl.op = some o → o.judged = false → exec .hdlOpDone s = .next s) ∧
  (∀ (s : State) (o : HdlOp), s.hdl.op = some o → o.judged = true → o.cmd = 2 →
    ∃ t, exec .hdlOpDone s = .next t ∧ t.hdl = { s.hdl with op := none, result := o.result } ∧
      (reg t pgHdl 0x010).getLsbD 1 = true ∧ Booked { s with hdl := t.hdl } t) ∧
  (∀ (s : State) (k : Fin 8), k < nOct s → (oct s k).run = .stopReq → inRecovery s (.oct, k) = false →
    (octIdle s k = true → ∃ t, exec (.unitStopped (BitVec.ofNat 8 (octPage k))) s = .next t ∧
      oct t k = { oct s k with run := .stopped } ∧ t = { s with octs := t.octs }) ∧
    (octIdle s k = false → exec (.unitStopped (BitVec.ofNat 8 (octPage k))) s = .next s)) ∧
  (∀ (s : State) (h : HealthTest),
    ∃ t, exec (.entropyHealthFail h) s = .next t ∧ t.sec = { s.sec with health := false } ∧
      (reg t pgSec 0x010).getLsbD 0 = true ∧ Booked { s with sec := t.sec } t) ∧
  (∀ s : State, s.sec.waits = [] →
    ∃ t, exec .entropyHealthRestored s = .next t ∧ t = { s with sec := { s.sec with health := true } }) ∧
  (∀ (s : State) (r : MbistEnd) (rows cols : Byte) (k : Nat) (rest : List Seq), s.hk.cur = none → s.hk.waiting = .mbist k :: rest →
    ∃ t, exec (.mbistComplete r rows cols) s = .next t ∧ t.hk.waiting = rest ∧ t.test.mbistBusy = false ∧
      t.test.mbistResult = mbistCode r ∧ t.test.mbistRows = rows ∧ t.test.mbistCols = cols ∧ (oct t k).scratch = [] ∧
      (r = .fail → (oct t k).run = .stopped) ∧ (reg t pgTest 0x010).getLsbD 0 = true)

/-- The instructions of the test access port: BYPASS and, outside chip test, FUSE select the bypass register, which captures
0; IDCODE captures the identity with the part's code; TESTCTL sets STACKTEST; CFG reads or writes one register as PRIV 2
would, and shows an access that would not reply OK in bit 53; SCAN connects the chains after zeroising only in BOOT before
step 7 or in HALTED, and leaving it is a warm reset (R378-R380, Table 14-14). -/
def Obligations.TestAccessPortInstructions : Prop :=
  (∀ s : State, (∃ t, exec .jtagBypass s = .next t ∧ t = { s with test := { s.test with ir := .bypass, bypassDr := false } }) ∧
    (∃ t, exec .jtagFuse s = .next t ∧ t = { s with test := { s.test with ir := .fuse, bypassDr := false } }) ∧
    (∃ t, exec .jtagIdcode s = .next t ∧ t = { s with test := { s.test with ir := .idcode, idDr := t.test.idDr } } ∧
      t.test.idDr.getLsbD 0 = true ∧
      field t.test.idDr 12 16 = (match s.part with | .rosura32 => 0x0032#16 | .rosura64 => 0x0064#16 | .rosura64H => 0x064E#16)) ∧
    (∀ b, ∃ t, exec (.jtagTestctl b) s = .next t ∧ t = { s with test := { s.test with ir := .testctl, stackTest := b } })) ∧
  (∀ (s : State) (page off : Nat) (v : Word), page < 256 → off < 4096 → jtagOk s page off true v = true →
    ∃ t, exec (.jtagCfg (0#1 ++ v ++ 1#1 ++ BitVec.ofNat 8 page ++ BitVec.ofNat 12 off)) s = .next t ∧ t.test.cfgDr.getLsbD 53 = false ∧
      t.stack = (regWrite { s with test := { s.test with ir := .cfg } } jtagPort page off v none).stack ∧
      t.regs = (regWrite { s with test := { s.test with ir := .cfg } } jtagPort page off v none).regs) ∧
  (∀ (s : State) (page off : Nat) (v : Word), page < 256 → off < 4096 → jtagOk s page off false v = true →
    ∃ t, exec (.jtagCfg (0#1 ++ v ++ 0#1 ++ BitVec.ofNat 8 page ++ BitVec.ofNat 12 off)) s = .next t ∧ t.test.cfgDr.getLsbD 53 = false ∧
      field t.test.cfgDr 21 32 = regView { s with test := { s.test with ir := .cfg } } jtagPort page off ∧ t.regs = s.regs) ∧
  (∀ (s : State) (page off : Nat) (v : Word), page < 256 → off < 4096 → jtagOk s page off true v = false →
    ∃ t, exec (.jtagCfg (0#1 ++ v ++ 1#1 ++ BitVec.ofNat 8 page ++ BitVec.ofNat 12 off)) s = .next t ∧ t.test.cfgDr.getLsbD 53 = true ∧
      t = { s with test := t.test }) ∧
  (∀ s : State, scanMay s = true → ∃ t, exec .jtagScan s = .next t ∧ t.test.scanning = true ∧ t.test.ir = .scan ∧ t.blk = s.blk) ∧
  (∀ s : State, scanMay s = false → ∃ t, exec .jtagScan s = .next t ∧ t = { s with test := { s.test with ir := .scan, bypassDr := false } }) ∧
  (∀ s : State, s.test.scanning = true →
    ∃ t, exec .jtagScanLeave s = .next t ∧ t.blk.st = .boot ∧ t.blk.step = 1 ∧ t.blk.warm = true ∧ t.test.scanning = false ∧ t.reqs = [])
end

