-- ==== Sys2Proof/Laws/Keys.lean ====
section
/-! SUPPORT. Frames of the whole machine: what every operation but a few leaves alone. `key` collects the part, the command
queue, the pins, the block's and the writes' state and the identities of the requests; one lemma for each operation says
that the operation keeps it. The few operations that change it stand in Laws/Sound.lean. -/

set_option Elab.async false

namespace Sys2Proof.Machine

/-- What every command but a few leaves alone: the part, the queue, the pins, the block's and the writes' state, and the
identities of the requests. -/
def key (s : State) : Part × List Instr × Pins × BlkSt × WSt × List Nat × Nat :=
  (s.part, s.pending, s.pins, s.blk.st, s.thm.w, s.reqs.map (·.id), s.nextReq)

theorem key_of {s t : State} (h1 : t.part = s.part) (h2 : t.pending = s.pending) (h3 : t.pins = s.pins)
    (h4 : t.blk.st = s.blk.st) (h5 : t.thm.w = s.thm.w) (h6 : t.reqs.map (·.id) = s.reqs.map (·.id))
    (h7 : t.nextReq = s.nextReq) : key t = key s := by
  unfold key; rw [h1, h2, h3, h4, h5, h6, h7]

@[simp] theorem key_fold (s : State) :
    (s.part, s.pending, s.pins, s.blk.st, s.thm.w, s.reqs.map (·.id), s.nextReq) = key s := Eq.trans rfl rfl

@[simp] theorem key_ite (c : Prop) [Decidable c] (s t : State) : key (if c then s else t) = if c then key s else key t := by
  split <;> rfl

theorem key_foldl {α : Type} (f : State → α → State) (l : List α) (s : State)
    (h : ∀ t x, key (f t x) = key t) : key (l.foldl f s) = key s := by
  induction l generalizing s with
  | nil => rfl
  | cons x l ih => exact (ih (f s x)).trans (h s x)

@[simp] theorem key_mk (part : Part) (time : Time) (clk : Clk) (blk : Blk) (pins : Pins) (regs : Tab Word) (ports : Tab Port) (reqs : List Req) (nextReq : Nat) (rgn : Tab Region) (attn : AttnWin) (hdl : Hdl) (arb : Arb) (winStart : Nat) (chans : Tab Chan) (disp : Disp) (octs : Tab Oct) (link : Link) (cals : Tab CalEng) (hk : Hk) (ecc : Ecc) (thm : Thm) (pwr : Pwr) (log : Log) (recov : List Recovery) (lastFault : Nat × Nat) (lastInt : Nat) (test : Test) (pmu : Pmu) (sec : Sec) (stack : Stack) (free : Nat) (pending : List Instr) :
    key (State.mk part time clk blk pins regs ports reqs nextReq rgn attn hdl arb winStart chans disp octs link cals hk ecc thm pwr log recov lastFault lastInt test pmu sec stack free pending) =
      (part, pending, pins, blk.st, thm.w, reqs.map (fun r => r.id), nextReq) := Eq.trans rfl rfl

theorem key_foldl₂ {α β : Type} (f : β × State → α → β × State) (l : List α) (a : β × State)
    (h : ∀ a x, key (f a x).2 = key a.2) : key (l.foldl f a).2 = key a.2 := by
  induction l generalizing a with
  | nil => rfl
  | cons x l ih => exact (ih (f a x)).trans (h a x)

theorem key_foldl₃ {α β γ : Type} (f : β × γ × State → α → β × γ × State) (l : List α) (a : β × γ × State)
    (h : ∀ a x, key (f a x).2.2 = key a.2.2) : key (l.foldl f a).2.2 = key a.2.2 := by
  induction l generalizing a with
  | nil => rfl
  | cons x l ih => exact (ih (f a x)).trans (h a x)

@[simp] theorem setPort_key (s) (p) (x) : key (setPort s p x) = key s := by simp only [setPort, key_mk, key_fold, key_ite, ite_self]
@[simp] theorem setChan_key (s) (c) (x) : key (setChan s c x) = key s := by simp only [setChan, key_mk, key_fold, key_ite, ite_self]
@[simp] theorem modChan_key (s) (c) (f) : key (modChan s c f) = key s := by simp only [modChan, key_mk, key_fold, key_ite, ite_self, setChan_key]
@[simp] theorem setOct_key (s) (k) (x) : key (setOct s k x) = key s := by simp only [setOct, key_mk, key_fold, key_ite, ite_self]
@[simp] theorem modOct_key (s) (k) (f) : key (modOct s k f) = key s := by simp only [modOct, key_mk, key_fold, key_ite, ite_self, setOct_key]
@[simp] theorem setCal_key (s) (n) (x) : key (setCal s n x) = key s := by simp only [setCal, key_mk, key_fold, key_ite, ite_self]
@[simp] theorem setStk_key (s) (c) (x) : key (setStk s c x) = key s := by simp only [setStk, key_mk, key_fold, key_ite, ite_self]
@[simp] theorem modStk_key (s) (c) (f) : key (modStk s c f) = key s := by simp only [modStk, key_mk, key_fold, key_ite, ite_self, setStk_key]
@[simp] theorem forN_key (n : Nat) (f : State → Nat → State) (s : State) (h : ∀ t k, key (f t k) = key t) : key (forN n f s) = key s := key_foldl f _ s h
@[simp] theorem modReq_key (s : State) (id : Nat) (f : Req → Req) (h : ∀ r, (f r).id = r.id) : key (modReq s id f) = key s := by
  refine key_of rfl rfl rfl rfl rfl ?_ rfl
  simp only [modReq, List.map_map]
  apply List.map_congr_left
  intro r _
  simp only [Function.comp]; split <;> simp [h]
@[simp] theorem takeFree_key (w) (s) : key (takeFree w s).2 = key s := by simp only [takeFree, key_mk, key_fold, key_ite, ite_self]
@[simp] theorem takeFreeNonzero_key (w) (sub) (s) : key (takeFreeNonzero w sub s).2 = key s := by unfold takeFreeNonzero; (try dsimp only); (repeat' split) <;> first | with_reducible rfl | (simp only [key_mk, key_fold, key_ite, ite_self, takeFree_key]; done) | fail
@[simp] theorem setReg_key (s) (page) (off) (w) : key (setReg s page off w) = key s := by simp only [setReg, key_mk, key_fold, key_ite, ite_self]
@[simp] theorem setRegF_key (s) (page) (off) (lo) (w) (v) : key (setRegF s page off lo w v) = key s := by simp only [setRegF, key_mk, key_fold, key_ite, ite_self, setReg_key]
@[simp] theorem bumpReg_key (s) (page) (off) (lo) (w) (inc) : key (bumpReg s page off lo w inc) = key s := by simp only [bumpReg, key_mk, key_fold, key_ite, ite_self, setRegF_key]
@[simp] theorem latch_key (s) (page) (bit) : key (latch s page bit) = key s := by simp only [latch, key_mk, key_fold, key_ite, ite_self, setRegF_key]
@[simp] theorem attnRecheck_key (s) (clearing) (id) : key (attnRecheck s clearing id) = key s := by simp only [attnRecheck, key_mk, key_fold, key_ite, ite_self]
@[simp] theorem setOvf_key (s) (i) : key (setOvf s i) = key s := by simp only [setOvf, key_mk, key_fold, key_ite, ite_self, setRegF_key, latch_key]
@[simp] theorem setCounter_key (s) (i) (v) : key (setCounter s i v) = key s := by simp only [setCounter, key_mk, key_fold, key_ite, ite_self]
@[simp] theorem counterAddPlain_key (s) (i) (inc) : key (counterAddPlain s i inc) = key s := by simp only [counterAddPlain, key_mk, key_fold, key_ite, ite_self, setOvf_key, setCounter_key]
@[simp] theorem counterAdd_key (s) (i) (inc) : key (counterAdd s i inc) = key s := by simp only [counterAdd, key_mk, key_fold, key_ite, ite_self, setCounter_key, counterAddPlain_key]
@[simp] theorem countEv_key (s) (k) (inst) (code) (inc) (a) : key (countEv s k inst code inc a) = key s := by simp (disch := (intros; first | with_reducible rfl | (simp only [key_mk, key_fold, key_ite, ite_self, counterAdd_key]; done) | ((repeat' split) <;> first | with_reducible rfl | (simp only [key_mk, key_fold, key_ite, ite_self, counterAdd_key]; done) | fail) | fail)) only [countEv, key_foldl, key_mk, key_fold, key_ite, ite_self, counterAdd_key]
@[simp] theorem evCh_key (s) (c) (code) (inc) (a) : key (evCh s c code inc a) = key s := by simp only [evCh, key_mk, key_fold, key_ite, ite_self, countEv_key]
@[simp] theorem evPort_key (s) (p) (code) (inc) (a) : key (evPort s p code inc a) = key s := by simp only [evPort, key_mk, key_fold, key_ite, ite_self, countEv_key]
@[simp] theorem evOct_key (s) (k) (code) (inc) (a) : key (evOct s k code inc a) = key s := by simp only [evOct, key_mk, key_fold, key_ite, ite_self, countEv_key]
@[simp] theorem evBlk_key (s) (code) (inc) (a) : key (evBlk s code inc a) = key s := by simp only [evBlk, key_mk, key_fold, key_ite, ite_self, countEv_key]
@[simp] theorem logDrop_key (s) : key (logDrop s) = key s := by simp only [logDrop, key_mk, key_fold, key_ite, ite_self, bumpReg_key, latch_key]
@[simp] theorem logEnter_key (s) (e) : key (logEnter s e) = key s := by simp only [logEnter, key_mk, key_fold, key_ite, ite_self, bumpReg_key, latch_key]
@[simp] theorem logEv_key (s) (code) (unit) (lvl) (data) : key (logEv s code unit lvl data) = key s := by simp only [logEv, key_mk, key_fold, key_ite, ite_self, logDrop_key]
@[simp] theorem logTake_key (s) : key (logTake s) = key s := by unfold logTake; (try dsimp only); (repeat' split) <;> first | with_reducible rfl | (simp only [key_mk, key_fold, key_ite, ite_self, logEnter_key]; done) | fail
@[simp] theorem logUnstage_key (s) : key (logUnstage s) = key s := by simp only [logUnstage, key_mk, key_fold, key_ite, ite_self]
@[simp] theorem stkWrite_key (s) (p) (d) : key (stkWrite s p d) = key s := by unfold stkWrite; (try dsimp only); (repeat' split) <;> first | with_reducible rfl | (simp only [key_mk, key_fold, key_ite, ite_self, modStk_key]; done) | (simp (disch := (intros; first | with_reducible rfl | (simp only [key_mk, key_fold, key_ite, ite_self, modStk_key]; done) | ((repeat' split) <;> first | with_reducible rfl | (simp only [key_mk, key_fold, key_ite, ite_self, modStk_key]; done) | fail) | fail)) only [key_foldl, key_mk, key_fold, key_ite, ite_self, modStk_key]; done) | fail
@[simp] theorem enterAlert_key (s) (c) (cause) : key (enterAlert s c cause) = key s := by simp (disch := (intros; first | with_reducible rfl | (simp only [key_mk, key_fold, key_ite, ite_self, modStk_key]; done) | ((repeat' split) <;> first | with_reducible rfl | (simp only [key_mk, key_fold, key_ite, ite_self, modStk_key]; done) | fail) | fail)) only [enterAlert, key_foldl, key_mk, key_fold, key_ite, ite_self, modStk_key]
@[simp] theorem srAdvance_key (s) (c) : key (srAdvance s c) = key s := by simp (disch := (intros; first | with_reducible rfl | (simp only [key_mk, key_fold, key_ite, ite_self, modStk_key]; done) | ((repeat' split) <;> first | with_reducible rfl | (simp only [key_mk, key_fold, key_ite, ite_self, modStk_key]; done) | fail) | fail)) only [srAdvance, key_foldl, key_mk, key_fold, key_ite, ite_self, modStk_key]
@[simp] theorem srEnter_key (s) (c) : key (srEnter s c) = key s := by simp (disch := (intros; first | with_reducible rfl | (simp only [key_mk, key_fold, key_ite, ite_self, modStk_key]; done) | ((repeat' split) <;> first | with_reducible rfl | (simp only [key_mk, key_fold, key_ite, ite_self, modStk_key]; done) | fail) | fail)) only [srEnter, key_foldl, key_mk, key_fold, key_ite, ite_self, modStk_key]
@[simp] theorem fillOuts_key (s) (c) (ctx) : key (fillOuts s c ctx) = key s := by simp (disch := (intros; first | with_reducible rfl | (simp only [key_mk, key_fold, key_ite, ite_self, modStk_key]; done) | ((repeat' split) <;> first | with_reducible rfl | (simp only [key_mk, key_fold, key_ite, ite_self, modStk_key]; done) | fail) | fail)) only [fillOuts, key_foldl, key_mk, key_fold, key_ite, ite_self, modStk_key]
@[simp] theorem startSlice_key (s) (c) (ctx) (banks) (tokens) (limit) (npos) : key (startSlice s c ctx banks tokens limit npos) = key s := by unfold startSlice; (try dsimp only); (repeat' split) <;> first | with_reducible rfl | (simp only [key_mk, key_fold, key_ite, ite_self, modStk_key, stkWrite_key, fillOuts_key]; done) | (simp (disch := (intros; first | with_reducible rfl | (simp only [key_mk, key_fold, key_ite, ite_self, modStk_key, stkWrite_key, fillOuts_key]; done) | ((repeat' split) <;> first | with_reducible rfl | (simp only [key_mk, key_fold, key_ite, ite_self, modStk_key, stkWrite_key, fillOuts_key]; done) | fail) | fail)) only [key_foldl, key_mk, key_fold, key_ite, ite_self, modStk_key, stkWrite_key, fillOuts_key]; done) | fail
@[simp] theorem scrambleWrote_key (s) (ps) : key (scrambleWrote s ps) = key s := by unfold scrambleWrote; (try dsimp only); (repeat' split) <;> first | with_reducible rfl | (simp only [key_mk, key_fold, key_ite, ite_self, takeFree_key, stkWrite_key]; done) | (simp (disch := (intros; first | with_reducible rfl | (simp only [key_mk, key_fold, key_ite, ite_self, takeFree_key, stkWrite_key]; done) | ((repeat' split) <;> first | with_reducible rfl | (simp only [key_mk, key_fold, key_ite, ite_self, takeFree_key, stkWrite_key]; done) | fail) | fail)) only [key_foldl, key_mk, key_fold, key_ite, ite_self, takeFree_key, stkWrite_key]; done) | fail
@[simp] theorem abortCtx_key (s) (c) (ctx) : key (abortCtx s c ctx) = key s := by simp (disch := (intros; first | with_reducible rfl | (simp only [key_mk, key_fold, key_ite, ite_self, modStk_key, scrambleWrote_key]; done) | ((repeat' split) <;> first | with_reducible rfl | (simp only [key_mk, key_fold, key_ite, ite_self, modStk_key, scrambleWrote_key]; done) | fail) | fail)) only [abortCtx, key_foldl, key_mk, key_fold, key_ite, ite_self, modStk_key, scrambleWrote_key]
@[simp] theorem writeBurst_key (s) (c) (t) (d) (noise) : key (writeBurst s c t d noise).2 = key s := by simp (disch := (intros; first | with_reducible rfl | (simp only [key_mk, key_fold, key_ite, ite_self, modChan_key, modStk_key]; done) | ((repeat' split) <;> first | with_reducible rfl | (simp only [key_mk, key_fold, key_ite, ite_self, modChan_key, modStk_key]; done) | fail) | fail)) only [writeBurst, key_foldl, key_mk, key_fold, key_ite, ite_self, modChan_key, modStk_key]
@[simp] theorem takeRow_key (s) (c) (i) : key (takeRow s c i) = key s := by unfold takeRow; (try dsimp only); (repeat' split) <;> first | with_reducible rfl | (simp only [key_mk, key_fold, key_ite, ite_self, modChan_key]; done) | (simp (disch := (intros; first | with_reducible rfl | (simp only [key_mk, key_fold, key_ite, ite_self, modChan_key]; done) | ((repeat' split) <;> first | with_reducible rfl | (simp only [key_mk, key_fold, key_ite, ite_self, modChan_key]; done) | fail) | fail)) only [key_foldl, key_mk, key_fold, key_ite, ite_self, modChan_key]; done) | fail
@[simp] theorem takeCol_key (s) (c) (i) : key (takeCol s c i) = key s := by unfold takeCol; (try dsimp only); (repeat' split) <;> first | with_reducible rfl | (simp only [key_mk, key_fold, key_ite, ite_self, modChan_key]; done) | (simp (disch := (intros; first | with_reducible rfl | (simp only [key_mk, key_fold, key_ite, ite_self, modChan_key]; done) | ((repeat' split) <;> first | with_reducible rfl | (simp only [key_mk, key_fold, key_ite, ite_self, modChan_key]; done) | fail) | fail)) only [key_foldl, key_mk, key_fold, key_ite, ite_self, modChan_key]; done) | fail
@[simp] theorem pushBurst_key (s) (c) (t) (order) (d) (alert) : key (pushBurst s c t order d alert) = key s := by simp (disch := (intros; first | with_reducible rfl | (simp only [key_mk, key_fold, key_ite, ite_self, modStk_key]; done) | ((repeat' split) <;> first | with_reducible rfl | (simp only [key_mk, key_fold, key_ite, ite_self, modStk_key]; done) | fail) | fail)) only [pushBurst, key_foldl, key_mk, key_fold, key_ite, ite_self, modStk_key]
@[simp] theorem stkReadCmd_key (s : State) (c t o g : Nat) (f : State → State) (h : ∀ t, key (f t) = key t) :
    key (stkReadCmd s c t o g f) = key s := by
  unfold stkReadCmd; (repeat' split) <;> simp only [h, modStk_key, pushBurst_key, enterAlert_key]
@[simp] theorem stkWriteCmd_key (s : State) (c t g : Nat) (d : Sector) (noise : BitVec 320) (f : Sector → State → State)
    (h : ∀ d t, key (f d t) = key t) : key (stkWriteCmd s c t g d noise f) = key s := by
  unfold stkWriteCmd; split
  · rfl
  · split
    · exact enterAlert_key ..
    · exact (h _ _).trans ((writeBurst_key ..).trans (modStk_key ..))
@[simp] theorem stkRowCmd_key (s : State) (c : Nat) (b : Bool) (f : State → State) (h : ∀ t, key (f t) = key t) :
    key (stkRowCmd s c b f) = key s := by
  unfold stkRowCmd; split <;> simp only [h]
@[simp] theorem withOpenRow_key (s : State) (c t b h : Nat) (f : Nat → Bool → State) (bad : State → State)
    (h1 : ∀ r p, key (f r p) = key s) (h2 : ∀ t, key (bad t) = key t) : key (withOpenRow s c t b h f bad) = key s := by
  unfold withOpenRow; dsimp only; (repeat' split) <;> simp only [h1, h2, enterAlert_key]
@[simp] theorem autoClose_key (s) (c) (t) (b) (h) : key (autoClose s c t b h) = key s := by simp (disch := (intros; first | with_reducible rfl | (simp only [key_mk, key_fold, key_ite, ite_self, modStk_key]; done) | ((repeat' split) <;> first | with_reducible rfl | (simp only [key_mk, key_fold, key_ite, ite_self, modStk_key]; done) | fail) | fail)) only [autoClose, key_foldl, key_mk, key_fold, key_ite, ite_self, modStk_key]
@[simp] theorem stkColRead_key (s) (c) (t) (b) (h) (col) (o) (auto) : key (stkColRead s c t b h col o auto) = key s := by simp (disch := (intros; first | with_reducible rfl | (simp only [key_mk, key_fold, key_ite, ite_self, modStk_key, pushBurst_key, withOpenRow_key, autoClose_key]; done) | ((repeat' split) <;> first | with_reducible rfl | (simp only [key_mk, key_fold, key_ite, ite_self, modStk_key, pushBurst_key, withOpenRow_key, autoClose_key]; done) | fail) | fail)) only [stkColRead, key_foldl, key_mk, key_fold, key_ite, ite_self, modStk_key, pushBurst_key, withOpenRow_key, autoClose_key]
@[simp] theorem stkColWrite_key (s) (c) (t) (b) (h) (col) (d) (auto) : key (stkColWrite s c t b h col d auto) = key s := by simp (disch := (intros; first | with_reducible rfl | (simp only [key_mk, key_fold, key_ite, ite_self, modStk_key, withOpenRow_key, autoClose_key]; done) | ((repeat' split) <;> first | with_reducible rfl | (simp only [key_mk, key_fold, key_ite, ite_self, modStk_key, withOpenRow_key, autoClose_key]; done) | fail) | fail)) only [stkColWrite, key_foldl, key_mk, key_fold, key_ite, ite_self, modStk_key, withOpenRow_key, autoClose_key]
@[simp] theorem noteFixed_key (s) (c) (ks) : key (noteFixed s c ks) = key s := by simp (disch := (intros; first | with_reducible rfl | (simp only [key_mk, key_fold, key_ite, ite_self, modStk_key]; done) | ((repeat' split) <;> first | with_reducible rfl | (simp only [key_mk, key_fold, key_ite, ite_self, modStk_key]; done) | fail) | fail)) only [noteFixed, key_foldl, key_mk, key_fold, key_ite, ite_self, modStk_key]
@[simp] theorem breach_key (s) (c) (cause) : key (breach s c cause) = key s := by simp only [breach, key_mk, key_fold, key_ite, ite_self, enterAlert_key]
@[simp] theorem doAct_key (c) (b) (row) (spare) (t) (s) : key (doAct c b row spare t s) = key s := by simp (disch := (intros; first | with_reducible rfl | (simp only [key_mk, key_fold, key_ite, ite_self, modStk_key, enterAlert_key, stkRowCmd_key]; done) | ((repeat' split) <;> first | with_reducible rfl | (simp only [key_mk, key_fold, key_ite, ite_self, modStk_key, enterAlert_key, stkRowCmd_key]; done) | fail) | fail)) only [doAct, key_foldl, key_mk, key_fold, key_ite, ite_self, modStk_key, enterAlert_key, stkRowCmd_key]
@[simp] theorem doPre_key (c) (b) (h) (both) (t) (s) : key (doPre c b h both t s) = key s := by simp (disch := (intros; first | with_reducible rfl | (simp only [key_mk, key_fold, key_ite, ite_self, modStk_key, enterAlert_key, stkRowCmd_key]; done) | ((repeat' split) <;> first | with_reducible rfl | (simp only [key_mk, key_fold, key_ite, ite_self, modStk_key, enterAlert_key, stkRowCmd_key]; done) | fail) | fail)) only [doPre, key_foldl, key_mk, key_fold, key_ite, ite_self, modStk_key, enterAlert_key, stkRowCmd_key]
@[simp] theorem doRef_key (c) (b) (t) (s) : key (doRef c b t s) = key s := by simp (disch := (intros; first | with_reducible rfl | (simp only [key_mk, key_fold, key_ite, ite_self, modStk_key, enterAlert_key, stkRowCmd_key]; done) | ((repeat' split) <;> first | with_reducible rfl | (simp only [key_mk, key_fold, key_ite, ite_self, modStk_key, enterAlert_key, stkRowCmd_key]; done) | fail) | fail)) only [doRef, key_foldl, key_mk, key_fold, key_ite, ite_self, modStk_key, enterAlert_key, stkRowCmd_key]
@[simp] theorem doNrf_key (c) (b) (row) (spare) (rad2) (t) (s) : key (doNrf c b row spare rad2 t s) = key s := by simp (disch := (intros; first | with_reducible rfl | (simp only [key_mk, key_fold, key_ite, ite_self, modStk_key, enterAlert_key, stkRowCmd_key]; done) | ((repeat' split) <;> first | with_reducible rfl | (simp only [key_mk, key_fold, key_ite, ite_self, modStk_key, enterAlert_key, stkRowCmd_key]; done) | fail) | fail)) only [doNrf, key_foldl, key_mk, key_fold, key_ite, ite_self, modStk_key, enterAlert_key, stkRowCmd_key]
@[simp] theorem doSls_key (c) (ctx) (banks) (s) : key (doSls c ctx banks s) = key s := by unfold doSls; (try dsimp only); (repeat' split) <;> first | with_reducible rfl | (simp only [key_mk, key_fold, key_ite, ite_self, enterAlert_key, startSlice_key, stkRowCmd_key]; done) | (simp (disch := (intros; first | with_reducible rfl | (simp only [key_mk, key_fold, key_ite, ite_self, enterAlert_key, startSlice_key, stkRowCmd_key]; done) | ((repeat' split) <;> first | with_reducible rfl | (simp only [key_mk, key_fold, key_ite, ite_self, enterAlert_key, startSlice_key, stkRowCmd_key]; done) | fail) | fail)) only [key_foldl, key_mk, key_fold, key_ite, ite_self, enterAlert_key, startSlice_key, stkRowCmd_key]; done) | fail
@[simp] theorem doSlp_key (c) (ctx) (b) (s) : key (doSlp c ctx b s) = key s := by simp (disch := (intros; first | with_reducible rfl | (simp only [key_mk, key_fold, key_ite, ite_self, modStk_key, stkRowCmd_key]; done) | ((repeat' split) <;> first | with_reducible rfl | (simp only [key_mk, key_fold, key_ite, ite_self, modStk_key, stkRowCmd_key]; done) | fail) | fail)) only [doSlp, key_foldl, key_mk, key_fold, key_ite, ite_self, modStk_key, stkRowCmd_key]
@[simp] theorem doSlr_key (c) (ctx) (b) (s) : key (doSlr c ctx b s) = key s := by simp (disch := (intros; first | with_reducible rfl | (simp only [key_mk, key_fold, key_ite, ite_self, modStk_key, stkRowCmd_key]; done) | ((repeat' split) <;> first | with_reducible rfl | (simp only [key_mk, key_fold, key_ite, ite_self, modStk_key, stkRowCmd_key]; done) | fail) | fail)) only [doSlr, key_foldl, key_mk, key_fold, key_ite, ite_self, modStk_key, stkRowCmd_key]
@[simp] theorem doSlx_key (c) (ctx) (s) : key (doSlx c ctx s) = key s := by simp (disch := (intros; first | with_reducible rfl | (simp only [key_mk, key_fold, key_ite, ite_self, abortCtx_key, stkRowCmd_key]; done) | ((repeat' split) <;> first | with_reducible rfl | (simp only [key_mk, key_fold, key_ite, ite_self, abortCtx_key, stkRowCmd_key]; done) | fail) | fail)) only [doSlx, key_foldl, key_mk, key_fold, key_ite, ite_self, abortCtx_key, stkRowCmd_key]
@[simp] theorem doSre_key (c) (s) : key (doSre c s) = key s := by simp (disch := (intros; first | with_reducible rfl | (simp only [key_mk, key_fold, key_ite, ite_self, srEnter_key, stkRowCmd_key]; done) | ((repeat' split) <;> first | with_reducible rfl | (simp only [key_mk, key_fold, key_ite, ite_self, srEnter_key, stkRowCmd_key]; done) | fail) | fail)) only [doSre, key_foldl, key_mk, key_fold, key_ite, ite_self, srEnter_key, stkRowCmd_key]
@[simp] theorem doSrx_key (c) (point) (s) : key (doSrx c point s) = key s := by simp (disch := (intros; first | with_reducible rfl | (simp only [key_mk, key_fold, key_ite, ite_self, modStk_key, enterAlert_key, srAdvance_key]; done) | ((repeat' split) <;> first | with_reducible rfl | (simp only [key_mk, key_fold, key_ite, ite_self, modStk_key, enterAlert_key, srAdvance_key]; done) | fail) | fail)) only [doSrx, key_foldl, key_mk, key_fold, key_ite, ite_self, modStk_key, enterAlert_key, srAdvance_key]
@[simp] theorem doPde_key (c) (s) : key (doPde c s) = key s := by simp (disch := (intros; first | with_reducible rfl | (simp only [key_mk, key_fold, key_ite, ite_self, modStk_key, stkRowCmd_key]; done) | ((repeat' split) <;> first | with_reducible rfl | (simp only [key_mk, key_fold, key_ite, ite_self, modStk_key, stkRowCmd_key]; done) | fail) | fail)) only [doPde, key_foldl, key_mk, key_fold, key_ite, ite_self, modStk_key, stkRowCmd_key]
@[simp] theorem doPdx_key (c) (s) : key (doPdx c s) = key s := by simp (disch := (intros; first | with_reducible rfl | (simp only [key_mk, key_fold, key_ite, ite_self, modStk_key]; done) | ((repeat' split) <;> first | with_reducible rfl | (simp only [key_mk, key_fold, key_ite, ite_self, modStk_key]; done) | fail) | fail)) only [doPdx, key_foldl, key_mk, key_fold, key_ite, ite_self, modStk_key]
@[simp] theorem doRsync_key (c) (s) : key (doRsync c s) = key s := by simp (disch := (intros; first | with_reducible rfl | (simp only [key_mk, key_fold, key_ite, ite_self, modStk_key, abortCtx_key, stkRowCmd_key]; done) | ((repeat' split) <;> first | with_reducible rfl | (simp only [key_mk, key_fold, key_ite, ite_self, modStk_key, abortCtx_key, stkRowCmd_key]; done) | fail) | fail)) only [doRsync, key_foldl, key_mk, key_fold, key_ite, ite_self, modStk_key, abortCtx_key, stkRowCmd_key]
@[simp] theorem doLane_key (c) (h) (wire) (sel) (pat) (t) (s) : key (doLane c h wire sel pat t s) = key s := by simp (disch := (intros; first | with_reducible rfl | (simp only [key_mk, key_fold, key_ite, ite_self, modStk_key, enterAlert_key, stkRowCmd_key]; done) | ((repeat' split) <;> first | with_reducible rfl | (simp only [key_mk, key_fold, key_ite, ite_self, modStk_key, enterAlert_key, stkRowCmd_key]; done) | fail) | fail)) only [doLane, key_foldl, key_mk, key_fold, key_ite, ite_self, modStk_key, enterAlert_key, stkRowCmd_key]
@[simp] theorem rowEffect_key (c t : Nat) (i : Instr) (s : State) : key (rowEffect c t i s) = key s := by
  unfold rowEffect; split <;> first | rfl | simp only [doAct_key, doPre_key, doRef_key, doNrf_key, doSls_key, doSlp_key, doSlr_key,
    doSlx_key, doSre_key, doSrx_key, doPde_key, doPdx_key, doRsync_key, doLane_key]
@[simp] theorem rowGarbled_key (s) (c) (t) (rx) : key (rowGarbled s c t rx) = key s := by unfold rowGarbled; (try dsimp only); (repeat' split) <;> first | with_reducible rfl | (simp only [key_mk, key_fold, key_ite, ite_self, noteFixed_key, breach_key, rowEffect_key]; done) | fail
@[simp] theorem onRowWires_key (s : State) (c : Fin 64) (i : Instr) (err : BitVec 64) (f : Nat → State → State)
    (h : ∀ t u, key (f t u) = key u) : key (onRowWires s c i err f) = key s := by
  unfold onRowWires; dsimp only; split <;> simp only [h, rowGarbled_key, takeRow_key]
@[simp] theorem doRd_key (c) (b) (h) (col) (auto) (t) (o) (s) : key (doRd c b h col auto t o s) = key s := by simp (disch := (intros; first | with_reducible rfl | (simp only [key_mk, key_fold, key_ite, ite_self, stkReadCmd_key, stkColRead_key]; done) | ((repeat' split) <;> first | with_reducible rfl | (simp only [key_mk, key_fold, key_ite, ite_self, stkReadCmd_key, stkColRead_key]; done) | fail) | fail)) only [doRd, key_foldl, key_mk, key_fold, key_ite, ite_self, stkReadCmd_key, stkColRead_key]
@[simp] theorem doWr_key (c) (b) (h) (col) (d) (noise) (auto) (t) (s) : key (doWr c b h col d noise auto t s) = key s := by simp (disch := (intros; first | with_reducible rfl | (simp only [key_mk, key_fold, key_ite, ite_self, stkWriteCmd_key, stkColWrite_key]; done) | ((repeat' split) <;> first | with_reducible rfl | (simp only [key_mk, key_fold, key_ite, ite_self, stkWriteCmd_key, stkColWrite_key]; done) | fail) | fail)) only [doWr, key_foldl, key_mk, key_fold, key_ite, ite_self, stkWriteCmd_key, stkColWrite_key]
@[simp] theorem doVwr_key (c) (sector) (d) (noise) (t) (s) : key (doVwr c sector d noise t s) = key s := by simp (disch := (intros; first | with_reducible rfl | (simp only [key_mk, key_fold, key_ite, ite_self, modStk_key, stkWriteCmd_key]; done) | ((repeat' split) <;> first | with_reducible rfl | (simp only [key_mk, key_fold, key_ite, ite_self, modStk_key, stkWriteCmd_key]; done) | fail) | fail)) only [doVwr, key_foldl, key_mk, key_fold, key_ite, ite_self, modStk_key, stkWriteCmd_key]
@[simp] theorem doVrd_key (c) (sector) (t) (o) (s) : key (doVrd c sector t o s) = key s := by simp (disch := (intros; first | with_reducible rfl | (simp only [key_mk, key_fold, key_ite, ite_self, pushBurst_key, stkReadCmd_key]; done) | ((repeat' split) <;> first | with_reducible rfl | (simp only [key_mk, key_fold, key_ite, ite_self, pushBurst_key, stkReadCmd_key]; done) | fail) | fail)) only [doVrd, key_foldl, key_mk, key_fold, key_ite, ite_self, pushBurst_key, stkReadCmd_key]
@[simp] theorem doSpw_key (c) (ctx) (part) (d) (noise) (t) (s) : key (doSpw c ctx part d noise t s) = key s := by simp (disch := (intros; first | with_reducible rfl | (simp only [key_mk, key_fold, key_ite, ite_self, modStk_key, stkWriteCmd_key]; done) | ((repeat' split) <;> first | with_reducible rfl | (simp only [key_mk, key_fold, key_ite, ite_self, modStk_key, stkWriteCmd_key]; done) | fail) | fail)) only [doSpw, key_foldl, key_mk, key_fold, key_ite, ite_self, modStk_key, stkWriteCmd_key]
@[simp] theorem doPrd_key (c) (ctx) (t) (o) (s) : key (doPrd c ctx t o s) = key s := by unfold doPrd; (try dsimp only); (repeat' split) <;> first | with_reducible rfl | (simp only [key_mk, key_fold, key_ite, ite_self, modStk_key, takeFree_key, fillOuts_key, pushBurst_key, stkReadCmd_key]; done) | (simp (disch := (intros; first | with_reducible rfl | (simp only [key_mk, key_fold, key_ite, ite_self, modStk_key, takeFree_key, fillOuts_key, pushBurst_key, stkReadCmd_key]; done) | ((repeat' split) <;> first | with_reducible rfl | (simp only [key_mk, key_fold, key_ite, ite_self, modStk_key, takeFree_key, fillOuts_key, pushBurst_key, stkReadCmd_key]; done) | fail) | fail)) only [key_foldl, key_mk, key_fold, key_ite, ite_self, modStk_key, takeFree_key, fillOuts_key, pushBurst_key, stkReadCmd_key]; done) | fail
@[simp] theorem doSrd_key (c) (ctx) (t) (o) (s) : key (doSrd c ctx t o s) = key s := by simp (disch := (intros; first | with_reducible rfl | (simp only [key_mk, key_fold, key_ite, ite_self, modStk_key, pushBurst_key, stkReadCmd_key]; done) | ((repeat' split) <;> first | with_reducible rfl | (simp only [key_mk, key_fold, key_ite, ite_self, modStk_key, pushBurst_key, stkReadCmd_key]; done) | fail) | fail)) only [doSrd, key_foldl, key_mk, key_fold, key_ite, ite_self, modStk_key, pushBurst_key, stkReadCmd_key]
@[simp] theorem colEffect_key (c t o : Nat) (i : Instr) (s : State) : key (colEffect c t o i s) = key s := by
  unfold colEffect; split <;> first | rfl | simp only [doRd_key, doWr_key, doVwr_key, doVrd_key, doSpw_key, doPrd_key, doSrd_key]
@[simp] theorem undriven_key (s) (c) (t) (o) : key (undriven s c t o) = key s := by simp (disch := (intros; first | with_reducible rfl | (simp only [key_mk, key_fold, key_ite, ite_self, pushBurst_key]; done) | ((repeat' split) <;> first | with_reducible rfl | (simp only [key_mk, key_fold, key_ite, ite_self, pushBurst_key]; done) | fail) | fail)) only [undriven, key_foldl, key_mk, key_fold, key_ite, ite_self, pushBurst_key]
@[simp] theorem colGarbled_key (s) (c) (t) (o) (i) (noise) (rx) : key (colGarbled s c t o i noise rx) = key s := by unfold colGarbled; (try dsimp only); (repeat' split) <;> first | with_reducible rfl | (simp only [key_mk, key_fold, key_ite, ite_self, modStk_key, noteFixed_key, breach_key, colEffect_key, undriven_key]; done) | (simp (disch := (intros; first | with_reducible rfl | (simp only [key_mk, key_fold, key_ite, ite_self, modStk_key, noteFixed_key, breach_key, colEffect_key, undriven_key]; done) | ((repeat' split) <;> first | with_reducible rfl | (simp only [key_mk, key_fold, key_ite, ite_self, modStk_key, noteFixed_key, breach_key, colEffect_key, undriven_key]; done) | fail) | fail)) only [key_foldl, key_mk, key_fold, key_ite, ite_self, modStk_key, noteFixed_key, breach_key, colEffect_key, undriven_key]; done) | fail
@[simp] theorem onColWires_key (s : State) (c : Fin 64) (i : Instr) (err : BitVec 48) (noise : BitVec 320)
    (f : Nat → Nat → State → State) (h : ∀ t o u, key (f t o u) = key u) : key (onColWires s c i err noise f) = key s := by
  unfold onColWires; dsimp only; split <;> simp only [h, colGarbled_key, takeCol_key]
@[simp] theorem attnBit_key (s) (p) : key (attnBit s p).2 = key s := by unfold attnBit; (try dsimp only); (repeat' split) <;> first | with_reducible rfl | (simp only [key_mk, key_fold, key_ite, ite_self, setPort_key, takeFree_key]; done) | fail
@[simp] theorem attnReplySent_key (s) (id) : key (attnReplySent s id) = key s := by simp only [attnReplySent, key_mk, key_fold, key_ite, ite_self]
@[simp] theorem modPort_key (s) (p) (f : Port → Port) : key (modPort s p f) = key s := by simp only [modPort, key_mk, key_fold, key_ite, ite_self, setPort_key]
@[simp] theorem releaseRes_key (s) (id) : key (releaseRes s id) = key s := by simp (disch := (intros; first | with_reducible rfl | (simp only [key_mk, key_fold, key_ite, ite_self]; done) | ((repeat' split) <;> first | with_reducible rfl | (simp only [key_mk, key_fold, key_ite, ite_self]; done) | fail) | fail)) only [releaseRes, key_foldl, key_mk, key_fold, key_ite, ite_self]
@[simp] theorem freeBeats_key (s) (p) (n) : key (freeBeats s p n) = key s := by simp (disch := (intros; first | with_reducible rfl | (simp only [key_mk, key_fold, key_ite, ite_self, modPort_key]; done) | ((repeat' split) <;> first | with_reducible rfl | (simp only [key_mk, key_fold, key_ite, ite_self, modPort_key]; done) | fail) | fail)) only [freeBeats, key_foldl, key_mk, key_fold, key_ite, ite_self, modPort_key]
@[simp] theorem replyCauses_key (s) (p) (o) (d) : key (replyCauses s p o d) = key s := by simp only [replyCauses, key_mk, key_fold, key_ite, ite_self, latch_key]
@[simp] theorem replyReq_key (s) (r) (o) (d) (data) : key (replyReq s r o d data) = key s := by unfold replyReq; (try dsimp only); (repeat' split) <;> first | with_reducible rfl | (simp only [key_mk, key_fold, key_ite, ite_self, modReq_key, modPort_key, releaseRes_key, freeBeats_key, replyCauses_key]; done) | (simp (disch := (intros; first | with_reducible rfl | (simp only [key_mk, key_fold, key_ite, ite_self, modReq_key, modPort_key, releaseRes_key, freeBeats_key, replyCauses_key]; done) | ((repeat' split) <;> first | with_reducible rfl | (simp only [key_mk, key_fold, key_ite, ite_self, modReq_key, modPort_key, releaseRes_key, freeBeats_key, replyCauses_key]; done) | fail) | fail)) only [key_foldl, key_mk, key_fold, key_ite, ite_self, modReq_key, modPort_key, releaseRes_key, freeBeats_key, replyCauses_key]; done) | fail
@[simp] theorem finishReq_key (s) (id) : key (finishReq s id) = key s := by unfold finishReq; (try dsimp only); (repeat' split) <;> first | with_reducible rfl | (simp only [key_mk, key_fold, key_ite, ite_self, bumpReg_key, replyReq_key]; done) | fail
@[simp] theorem partsDone_key (s) (id) (n) : key (partsDone s id n) = key s := by unfold partsDone; (try dsimp only); (repeat' split) <;> first | with_reducible rfl | (simp only [key_mk, key_fold, key_ite, ite_self, modReq_key, finishReq_key]; done) | (simp (disch := (intros; first | with_reducible rfl | (simp only [key_mk, key_fold, key_ite, ite_self, modReq_key, finishReq_key]; done) | ((repeat' split) <;> first | with_reducible rfl | (simp only [key_mk, key_fold, key_ite, ite_self, modReq_key, finishReq_key]; done) | fail) | fail)) only [key_foldl, key_mk, key_fold, key_ite, ite_self, modReq_key, finishReq_key]; done) | fail
@[simp] theorem pieceJoined_key (s) (id) (ch) : key (pieceJoined s id ch) = key s := by simp (disch := (intros; first | with_reducible rfl | (simp only [key_mk, key_fold, key_ite, ite_self, modReq_key]; done) | ((repeat' split) <;> first | with_reducible rfl | (simp only [key_mk, key_fold, key_ite, ite_self, modReq_key]; done) | fail) | fail)) only [pieceJoined, key_foldl, key_mk, key_fold, key_ite, ite_self, modReq_key]
@[simp] theorem poisonReq_key (s) (id) (d) : key (poisonReq s id d) = key s := by simp (disch := (intros; first | with_reducible rfl | (simp only [key_mk, key_fold, key_ite, ite_self, modReq_key]; done) | ((repeat' split) <;> first | with_reducible rfl | (simp only [key_mk, key_fold, key_ite, ite_self, modReq_key]; done) | fail) | fail)) only [poisonReq, key_foldl, key_mk, key_fold, key_ite, ite_self, modReq_key]
@[simp] theorem reconReq_key (s) (id) : key (reconReq s id) = key s := by simp (disch := (intros; first | with_reducible rfl | (simp only [key_mk, key_fold, key_ite, ite_self, modReq_key]; done) | ((repeat' split) <;> first | with_reducible rfl | (simp only [key_mk, key_fold, key_ite, ite_self, modReq_key]; done) | fail) | fail)) only [reconReq, key_foldl, key_mk, key_fold, key_ite, ite_self, modReq_key]
@[simp] theorem enqueue_key (s) (e) : key (enqueue s e) = key s := by simp (disch := (intros; first | with_reducible rfl | (simp only [key_mk, key_fold, key_ite, ite_self, modChan_key]; done) | ((repeat' split) <;> first | with_reducible rfl | (simp only [key_mk, key_fold, key_ite, ite_self, modChan_key]; done) | fail) | fail)) only [enqueue, key_foldl, key_mk, key_fold, key_ite, ite_self, modChan_key]
@[simp] theorem enqueueAll_key (s) (es) : key (enqueueAll s es) = key s := by simp (disch := (intros; first | with_reducible rfl | (simp only [key_mk, key_fold, key_ite, ite_self, enqueue_key]; done) | ((repeat' split) <;> first | with_reducible rfl | (simp only [key_mk, key_fold, key_ite, ite_self, enqueue_key]; done) | fail) | fail)) only [enqueueAll, key_foldl, key_mk, key_fold, key_ite, ite_self, enqueue_key]
@[simp] theorem evict_key (s) (c) (serial) (cls) (dl) : key (evict s c serial cls dl) = key s := by unfold evict; (try dsimp only); (repeat' split) <;> first | with_reducible rfl | (simp only [key_mk, key_fold, key_ite, ite_self, modChan_key, evCh_key, enqueue_key]; done) | (simp (disch := (intros; first | with_reducible rfl | (simp only [key_mk, key_fold, key_ite, ite_self, modChan_key, evCh_key, enqueue_key]; done) | ((repeat' split) <;> first | with_reducible rfl | (simp only [key_mk, key_fold, key_ite, ite_self, modChan_key, evCh_key, enqueue_key]; done) | fail) | fail)) only [key_foldl, key_mk, key_fold, key_ite, ite_self, modChan_key, evCh_key, enqueue_key]; done) | fail
@[simp] theorem linerPressure_key (s) (c) : key (linerPressure s c) = key s := by simp (disch := (intros; first | with_reducible rfl | (simp only [key_mk, key_fold, key_ite, ite_self, evict_key]; done) | ((repeat' split) <;> first | with_reducible rfl | (simp only [key_mk, key_fold, key_ite, ite_self, evict_key]; done) | fail) | fail)) only [linerPressure, key_foldl, key_mk, key_fold, key_ite, ite_self, evict_key]
@[simp] theorem evictAll_key (s) (c) (pick : Liner → Bool) : key (evictAll s c pick) = key s := by simp (disch := (intros; first | with_reducible rfl | (simp only [key_mk, key_fold, key_ite, ite_self, evict_key]; done) | ((repeat' split) <;> first | with_reducible rfl | (simp only [key_mk, key_fold, key_ite, ite_self, evict_key]; done) | fail) | fail)) only [evictAll, key_foldl, key_mk, key_fold, key_ite, ite_self, evict_key]
@[simp] theorem linerMerge_key (s) (p) (v) (cls) (dl) (bytes) (m) (req) (a) : key (linerMerge s p v cls dl bytes m req a) = key s := by unfold linerMerge; (try dsimp only); (repeat' split) <;> first | with_reducible rfl | (simp only [key_mk, key_fold, key_ite, ite_self, setChan_key, evCh_key, evict_key, linerPressure_key]; done) | (simp (disch := (intros; first | with_reducible rfl | (simp only [key_mk, key_fold, key_ite, ite_self, setChan_key, evCh_key, evict_key, linerPressure_key]; done) | ((repeat' split) <;> first | with_reducible rfl | (simp only [key_mk, key_fold, key_ite, ite_self, setChan_key, evCh_key, evict_key, linerPressure_key]; done) | fail) | fail)) only [key_foldl, key_mk, key_fold, key_ite, ite_self, setChan_key, evCh_key, evict_key, linerPressure_key]; done) | fail
@[simp] theorem scratchErrs_key (s) (k) (xs) : key (scratchErrs s k xs) = key s := by simp (disch := (intros; first | with_reducible rfl | (simp only [key_mk, key_fold, key_ite, ite_self, bumpReg_key, latch_key]; done) | ((repeat' split) <;> first | with_reducible rfl | (simp only [key_mk, key_fold, key_ite, ite_self, bumpReg_key, latch_key]; done) | fail) | fail)) only [scratchErrs, key_foldl, key_mk, key_fold, key_ite, ite_self, bumpReg_key, latch_key]
@[simp] theorem evictPending_key (s) (ci) : key (evictPending s ci) = key s := by simp (disch := (intros; first | with_reducible rfl | (simp only [key_mk, key_fold, key_ite, ite_self, evictAll_key]; done) | ((repeat' split) <;> first | with_reducible rfl | (simp only [key_mk, key_fold, key_ite, ite_self, evictAll_key]; done) | fail) | fail)) only [evictPending, key_foldl, key_mk, key_fold, key_ite, ite_self, evictAll_key]
@[simp] theorem sbStart_key (s) : key (sbStart s) = key s := by unfold sbStart; (try dsimp only); (repeat' split) <;> first | with_reducible rfl | (simp only [key_mk, key_fold, key_ite, ite_self]; done) | (simp (disch := (intros; first | with_reducible rfl | (simp only [key_mk, key_fold, key_ite, ite_self]; done) | ((repeat' split) <;> first | with_reducible rfl | (simp only [key_mk, key_fold, key_ite, ite_self]; done) | fail) | fail)) only [key_foldl, key_mk, key_fold, key_ite, ite_self]; done) | fail
@[simp] theorem sbQueue_key (s) (user) (cmd) (ch) (addr) (len) (ws) : key (sbQueue s user cmd ch addr len ws) = key s := by simp only [sbQueue, key_mk, key_fold, key_ite, ite_self, sbStart_key]
@[simp] theorem sbWrite_key (s) (user) (ch) (addr) (ws) : key (sbWrite s user ch addr ws) = key s := by simp only [sbWrite, key_mk, key_fold, key_ite, ite_self, sbQueue_key]
@[simp] theorem nrfSeed_key (s) (c) : key (nrfSeed s c) = key s := by unfold nrfSeed; (try dsimp only); (repeat' split) <;> first | with_reducible rfl | (simp only [key_mk, key_fold, key_ite, ite_self, modChan_key, takeFree_key, takeFreeNonzero_key, sbWrite_key]; done) | (simp (disch := (intros; first | with_reducible rfl | (simp only [key_mk, key_fold, key_ite, ite_self, modChan_key, takeFree_key, takeFreeNonzero_key, sbWrite_key]; done) | ((repeat' split) <;> first | with_reducible rfl | (simp only [key_mk, key_fold, key_ite, ite_self, modChan_key, takeFree_key, takeFreeNonzero_key, sbWrite_key]; done) | fail) | fail)) only [key_foldl, key_mk, key_fold, key_ite, ite_self, modChan_key, takeFree_key, takeFreeNonzero_key, sbWrite_key]; done) | fail
@[simp] theorem smpSeed_key (s) : key (smpSeed s) = key s := by unfold smpSeed; (try dsimp only); (repeat' split) <;> first | with_reducible rfl | (simp only [key_mk, key_fold, key_ite, ite_self, takeFreeNonzero_key]; done) | fail
@[simp] theorem reseed_key (s) (c) : key (reseed s c) = key s := by simp only [reseed, key_mk, key_fold, key_ite, ite_self, nrfSeed_key]
@[simp] theorem sendRowFrom_key (s) (c) (t) (i) : key (sendRowFrom s c t i) = key s := by simp (disch := (intros; first | with_reducible rfl | (simp only [key_mk, key_fold, key_ite, ite_self, modChan_key]; done) | ((repeat' split) <;> first | with_reducible rfl | (simp only [key_mk, key_fold, key_ite, ite_self, modChan_key]; done) | fail) | fail)) only [sendRowFrom, key_foldl, key_mk, key_fold, key_ite, ite_self, modChan_key]
@[simp] theorem sendRow_key (s) (c) (i) : key (sendRow s c i) = key s := by simp only [sendRow, key_mk, key_fold, key_ite, ite_self, sendRowFrom_key]
@[simp] theorem steer_key (s) (c) (h) (wire) (pat) : key (steer s c h wire pat) = key s := by simp (disch := (intros; first | with_reducible rfl | (simp only [key_mk, key_fold, key_ite, ite_self, modChan_key, sendRow_key]; done) | ((repeat' split) <;> first | with_reducible rfl | (simp only [key_mk, key_fold, key_ite, ite_self, modChan_key, sendRow_key]; done) | fail) | fail)) only [steer, key_foldl, key_mk, key_fold, key_ite, ite_self, modChan_key, sendRow_key]
@[simp] theorem sendLane_key (s) (c) (h) : key (sendLane s c h) = key s := by simp only [sendLane, key_mk, key_fold, key_ite, ite_self, steer_key]
@[simp] theorem sweepUndo_key (s) (n) : key (sweepUndo s n) = key s := by simp (disch := (intros; first | with_reducible rfl | (simp only [key_mk, key_fold, key_ite, ite_self, modChan_key, setCal_key]; done) | ((repeat' split) <;> first | with_reducible rfl | (simp only [key_mk, key_fold, key_ite, ite_self, modChan_key, setCal_key]; done) | fail) | fail)) only [sweepUndo, key_foldl, key_mk, key_fold, key_ite, ite_self, modChan_key, setCal_key]
@[simp] theorem sweepAbandon_key (s) (n) : key (sweepAbandon s n) = key s := by simp only [sweepAbandon, key_mk, key_fold, key_ite, ite_self, setCal_key, sbQueue_key, steer_key, sweepUndo_key]
@[simp] theorem sweepAbandonOn_key (s) (c) : key (sweepAbandonOn s c) = key s := by simp only [sweepAbandonOn, key_mk, key_fold, key_ite, ite_self, sweepAbandon_key]
@[simp] theorem loseHeld_key (s) (k) : key (loseHeld s k) = key s := by simp (disch := (intros; first | with_reducible rfl | (simp only [key_mk, key_fold, key_ite, ite_self, modOct_key, setReg_key, bumpReg_key, latch_key, logEv_key]; done) | ((repeat' split) <;> first | with_reducible rfl | (simp only [key_mk, key_fold, key_ite, ite_self, modOct_key, setReg_key, bumpReg_key, latch_key, logEv_key]; done) | fail) | fail)) only [loseHeld, key_foldl, key_mk, key_fold, key_ite, ite_self, modOct_key, setReg_key, bumpReg_key, latch_key, logEv_key]
@[simp] theorem loseScratch_key (s) (k) : key (loseScratch s k) = key s := by simp (disch := (intros; first | with_reducible rfl | (simp only [key_mk, key_fold, key_ite, ite_self, modOct_key]; done) | ((repeat' split) <;> first | with_reducible rfl | (simp only [key_mk, key_fold, key_ite, ite_self, modOct_key]; done) | fail) | fail)) only [loseScratch, key_foldl, key_mk, key_fold, key_ite, ite_self, modOct_key]
@[simp] theorem dropDrains_key (s) (k) : key (dropDrains s k) = key s := by unfold dropDrains; (try dsimp only); (repeat' split) <;> first | with_reducible rfl | (simp only [key_mk, key_fold, key_ite, ite_self, modChan_key, setOct_key, forN_key]; done) | (simp (disch := (intros; first | with_reducible rfl | (simp only [key_mk, key_fold, key_ite, ite_self, modChan_key, setOct_key, forN_key]; done) | ((repeat' split) <;> first | with_reducible rfl | (simp only [key_mk, key_fold, key_ite, ite_self, modChan_key, setOct_key, forN_key]; done) | fail) | fail)) only [key_foldl, key_mk, key_fold, key_ite, ite_self, modChan_key, setOct_key, forN_key]; done) | fail
@[simp] theorem dropJobs_key (s) (k) (id) (pick : Job → Bool) : key (dropJobs s k id pick) = key s := by unfold dropJobs; (try dsimp only); (repeat' split) <;> first | with_reducible rfl | (simp only [key_mk, key_fold, key_ite, ite_self, modChan_key, setOct_key, forN_key, modReq_key]; done) | (simp (disch := (intros; first | with_reducible rfl | (simp only [key_mk, key_fold, key_ite, ite_self, modChan_key, setOct_key, forN_key, modReq_key]; done) | ((repeat' split) <;> first | with_reducible rfl | (simp only [key_mk, key_fold, key_ite, ite_self, modChan_key, setOct_key, forN_key, modReq_key]; done) | fail) | fail)) only [key_foldl, key_mk, key_fold, key_ite, ite_self, modChan_key, setOct_key, forN_key, modReq_key]; done) | fail
@[simp] theorem opStopped_key (s) (d) : key (opStopped s d) = key s := by unfold opStopped; (try dsimp only); (repeat' split) <;> first | with_reducible rfl | (simp only [key_mk, key_fold, key_ite, ite_self, bumpReg_key, evBlk_key, replyReq_key]; done) | (simp (disch := (intros; first | with_reducible rfl | (simp only [key_mk, key_fold, key_ite, ite_self, bumpReg_key, evBlk_key, replyReq_key]; done) | ((repeat' split) <;> first | with_reducible rfl | (simp only [key_mk, key_fold, key_ite, ite_self, bumpReg_key, evBlk_key, replyReq_key]; done) | fail) | fail)) only [key_foldl, key_mk, key_fold, key_ite, ite_self, bumpReg_key, evBlk_key, replyReq_key]; done) | fail
@[simp] theorem opStop_key (s) (d) : key (opStop s d) = key s := by unfold opStop; (try dsimp only); (repeat' split) <;> first | with_reducible rfl | (simp only [key_mk, key_fold, key_ite, ite_self, modChan_key, modOct_key, forN_key]; done) | (simp (disch := (intros; first | with_reducible rfl | (simp only [key_mk, key_fold, key_ite, ite_self, modChan_key, modOct_key, forN_key]; done) | ((repeat' split) <;> first | with_reducible rfl | (simp only [key_mk, key_fold, key_ite, ite_self, modChan_key, modOct_key, forN_key]; done) | fail) | fail)) only [key_foldl, key_mk, key_fold, key_ite, ite_self, modChan_key, modOct_key, forN_key]; done) | fail
@[simp] theorem dropParts_key (s) (c) (id) : key (dropParts s c id) = key s := by unfold dropParts; (try dsimp only); (repeat' split) <;> first | with_reducible rfl | (simp only [key_mk, key_fold, key_ite, ite_self, modChan_key, modReq_key]; done) | (simp (disch := (intros; first | with_reducible rfl | (simp only [key_mk, key_fold, key_ite, ite_self, modChan_key, modReq_key]; done) | ((repeat' split) <;> first | with_reducible rfl | (simp only [key_mk, key_fold, key_ite, ite_self, modChan_key, modReq_key]; done) | fail) | fail)) only [key_foldl, key_mk, key_fold, key_ite, ite_self, modChan_key, modReq_key]; done) | fail
@[simp] theorem dropHeld_key (s) (c) (id) : key (dropHeld s c id) = key s := by unfold dropHeld; (try dsimp only); (repeat' split) <;> first | with_reducible rfl | (simp only [key_mk, key_fold, key_ite, ite_self, modChan_key, modReq_key]; done) | (simp (disch := (intros; first | with_reducible rfl | (simp only [key_mk, key_fold, key_ite, ite_self, modChan_key, modReq_key]; done) | ((repeat' split) <;> first | with_reducible rfl | (simp only [key_mk, key_fold, key_ite, ite_self, modChan_key, modReq_key]; done) | fail) | fail)) only [key_foldl, key_mk, key_fold, key_ite, ite_self, modChan_key, modReq_key]; done) | fail
@[simp] theorem discardReq_key (s) (w) (det) (r) : key (discardReq s w det r) = key s := by unfold discardReq; (try dsimp only); (repeat' split) <;> first | with_reducible rfl | (simp only [key_mk, key_fold, key_ite, ite_self, modChan_key, forN_key, modReq_key, replyReq_key, finishReq_key, dropJobs_key, opStopped_key, opStop_key, dropParts_key, dropHeld_key]; done) | (simp (disch := (intros; first | with_reducible rfl | (simp only [key_mk, key_fold, key_ite, ite_self, modChan_key, forN_key, modReq_key, replyReq_key, finishReq_key, dropJobs_key, opStopped_key, opStop_key, dropParts_key, dropHeld_key]; done) | ((repeat' split) <;> first | with_reducible rfl | (simp only [key_mk, key_fold, key_ite, ite_self, modChan_key, forN_key, modReq_key, replyReq_key, finishReq_key, dropJobs_key, opStopped_key, opStop_key, dropParts_key, dropHeld_key]; done) | fail) | fail)) only [key_foldl, key_mk, key_fold, key_ite, ite_self, modChan_key, forN_key, modReq_key, replyReq_key, finishReq_key, dropJobs_key, opStopped_key, opStop_key, dropParts_key, dropHeld_key]; done) | fail
@[simp] theorem replayAll_key (s) (alert) (c) : key (replayAll s alert c) = key s := by simp (disch := (intros; first | with_reducible rfl | (simp only [key_mk, key_fold, key_ite, ite_self, setChan_key]; done) | ((repeat' split) <;> first | with_reducible rfl | (simp only [key_mk, key_fold, key_ite, ite_self, setChan_key]; done) | fail) | fail)) only [replayAll, key_foldl, key_mk, key_fold, key_ite, ite_self, setChan_key]
@[simp] theorem reconRestartIn_key (s) (d) : key (reconRestartIn s d) = key s := by unfold reconRestartIn; (try dsimp only); (repeat' split) <;> first | with_reducible rfl | (simp only [key_mk, key_fold, key_ite, ite_self, modChan_key]; done) | (simp (disch := (intros; first | with_reducible rfl | (simp only [key_mk, key_fold, key_ite, ite_self, modChan_key]; done) | ((repeat' split) <;> first | with_reducible rfl | (simp only [key_mk, key_fold, key_ite, ite_self, modChan_key]; done) | fail) | fail)) only [key_foldl, key_mk, key_fold, key_ite, ite_self, modChan_key]; done) | fail
@[simp] theorem reconRestart_key (s) (c) : key (reconRestart s c) = key s := by simp only [reconRestart, key_mk, key_fold, key_ite, ite_self, reconRestartIn_key]
@[simp] theorem lostReplies_key (s) : key (lostReplies s) = key s :=
  key_foldl _ _ _ (by
    intro t r; dsimp only; split
    · rfl
    · refine (replyReq_key ..).trans ?_
      split
      · exact modReq_key _ _ _ (fun _ => rfl)
      · rfl)
@[simp] theorem lostOcts_key (s) : key (lostOcts s) = key s := by simp (disch := (intros; first | with_reducible rfl | (simp only [key_mk, key_fold, key_ite, ite_self, modOct_key, forN_key, loseHeld_key]; done) | ((repeat' split) <;> first | with_reducible rfl | (simp only [key_mk, key_fold, key_ite, ite_self, modOct_key, forN_key, loseHeld_key]; done) | fail) | fail)) only [lostOcts, key_foldl, key_mk, key_fold, key_ite, ite_self, modOct_key, forN_key, loseHeld_key]
@[simp] theorem lostChans_key (s) : key (lostChans s) = key s := by simp (disch := (intros; first | with_reducible rfl | (simp only [key_mk, key_fold, key_ite, ite_self, modChan_key, forN_key]; done) | ((repeat' split) <;> first | with_reducible rfl | (simp only [key_mk, key_fold, key_ite, ite_self, modChan_key, forN_key]; done) | fail) | fail)) only [lostChans, key_foldl, key_mk, key_fold, key_ite, ite_self, modChan_key, forN_key]
@[simp] theorem lostSweep_key (s) (n) : key (lostSweep s n) = key s := by simp (disch := (intros; first | with_reducible rfl | (simp only [key_mk, key_fold, key_ite, ite_self, modChan_key, sweepUndo_key]; done) | ((repeat' split) <;> first | with_reducible rfl | (simp only [key_mk, key_fold, key_ite, ite_self, modChan_key, sweepUndo_key]; done) | fail) | fail)) only [lostSweep, key_foldl, key_mk, key_fold, key_ite, ite_self, modChan_key, sweepUndo_key]
@[simp] theorem lostSweeps_key (s) : key (lostSweeps s) = key s := by simp (disch := (intros; first | with_reducible rfl | (simp only [key_mk, key_fold, key_ite, ite_self, forN_key, lostSweep_key]; done) | ((repeat' split) <;> first | with_reducible rfl | (simp only [key_mk, key_fold, key_ite, ite_self, forN_key, lostSweep_key]; done) | fail) | fail)) only [lostSweeps, key_foldl, key_mk, key_fold, key_ite, ite_self, forN_key, lostSweep_key]
@[simp] theorem recordFault_key (s) (page) (cls) (src) : key (recordFault s page cls src) = key s := by simp only [recordFault, key_mk, key_fold, key_ite, ite_self, setRegF_key, bumpReg_key]
@[simp] theorem resetUnit_key (s) (page) : key (resetUnit s page) = key s := by unfold resetUnit; (try dsimp only); (repeat' split) <;> first | with_reducible rfl | (simp only [key_mk, key_fold, key_ite, ite_self, sweepAbandon_key]; done) | fail
@[simp] theorem faultLoses_key (s) (w) : key (faultLoses s w) = key s := by unfold faultLoses; (try dsimp only); (repeat' split) <;> first | with_reducible rfl | (simp only [key_mk, key_fold, key_ite, ite_self, forN_key, takeFree_key, loseHeld_key, loseScratch_key, dropDrains_key]; done) | (simp (disch := (intros; first | with_reducible rfl | (simp only [key_mk, key_fold, key_ite, ite_self, forN_key, takeFree_key, loseHeld_key, loseScratch_key, dropDrains_key]; done) | ((repeat' split) <;> first | with_reducible rfl | (simp only [key_mk, key_fold, key_ite, ite_self, forN_key, takeFree_key, loseHeld_key, loseScratch_key, dropDrains_key]; done) | fail) | fail)) only [key_foldl, key_mk, key_fold, key_ite, ite_self, forN_key, takeFree_key, loseHeld_key, loseScratch_key, dropDrains_key]; done) | fail
@[simp] theorem abandonRepair_key (s) : key (abandonRepair s) = key s := by unfold abandonRepair; (try dsimp only); (repeat' split) <;> first | with_reducible rfl | (simp only [key_mk, key_fold, key_ite, ite_self, modChan_key]; done) | (simp (disch := (intros; first | with_reducible rfl | (simp only [key_mk, key_fold, key_ite, ite_self, modChan_key]; done) | ((repeat' split) <;> first | with_reducible rfl | (simp only [key_mk, key_fold, key_ite, ite_self, modChan_key]; done) | fail) | fail)) only [key_foldl, key_mk, key_fold, key_ite, ite_self, modChan_key]; done) | fail
@[simp] theorem recovRow_key (s) (c) (alert) : key (recovRow s c alert) = key s := by simp only [recovRow, key_mk, key_fold, key_ite, ite_self, sendRow_key, sendLane_key]
@[simp] theorem pauseRow_key (s) (c) : key (pauseRow s c) = key s :=
  key_foldl _ _ _ (fun t e => key_foldl _ _ _ (by
    intro u b; dsimp only; split
    · exact (sendRow_key ..).trans (modChan_key ..)
    · rfl))
@[simp] theorem recoverChan_key (s) (alert) (c) : key (recoverChan s alert c) = key s := by simp (disch := (intros; first | with_reducible rfl | (simp only [key_mk, key_fold, key_ite, ite_self, modChan_key, sweepAbandonOn_key, replayAll_key, reconRestart_key, abandonRepair_key, recovRow_key, pauseRow_key]; done) | ((repeat' split) <;> first | with_reducible rfl | (simp only [key_mk, key_fold, key_ite, ite_self, modChan_key, sweepAbandonOn_key, replayAll_key, reconRestart_key, abandonRepair_key, recovRow_key, pauseRow_key]; done) | fail) | fail)) only [recoverChan, key_foldl, key_mk, key_fold, key_ite, ite_self, modChan_key, sweepAbandonOn_key, replayAll_key, reconRestart_key, abandonRepair_key, recovRow_key, pauseRow_key]
@[simp] theorem faultNote_key (s) (page) (cls) (src) (n) : key (faultNote s page cls src n) = key s := by simp only [faultNote, key_mk, key_fold, key_ite, ite_self, bumpReg_key, latch_key, evBlk_key, logEv_key, recordFault_key]
@[simp] theorem discardAll_key (s) (w) (det) (rs) : key (discardAll s w det rs) = key s := by unfold discardAll; (try dsimp only); (repeat' split) <;> first | with_reducible rfl | (simp only [key_mk, key_fold, key_ite, ite_self, discardReq_key]; done) | (simp (disch := (intros; first | with_reducible rfl | (simp only [key_mk, key_fold, key_ite, ite_self, discardReq_key]; done) | ((repeat' split) <;> first | with_reducible rfl | (simp only [key_mk, key_fold, key_ite, ite_self, discardReq_key]; done) | fail) | fail)) only [key_foldl, key_mk, key_fold, key_ite, ite_self, discardReq_key]; done) | fail
@[simp] theorem octAborts_key (s) (k) : key (octAborts s k) = key s :=
  forN_key _ _ _ (fun t i => key_foldl _ _ _ (by
    intro u e; dsimp only; split
    · exact (modChan_key ..).trans (sendRow_key ..)
    · rfl))
@[simp] theorem scopeSteps_key (s) (sc) (src) : key (scopeSteps s sc src) = key s := by unfold scopeSteps; (try dsimp only); (repeat' split) <;> first | with_reducible rfl | (simp only [key_mk, key_fold, key_ite, ite_self, forN_key, recoverChan_key, octAborts_key]; done) | (simp (disch := (intros; first | with_reducible rfl | (simp only [key_mk, key_fold, key_ite, ite_self, forN_key, recoverChan_key, octAborts_key]; done) | ((repeat' split) <;> first | with_reducible rfl | (simp only [key_mk, key_fold, key_ite, ite_self, forN_key, recoverChan_key, octAborts_key]; done) | fail) | fail)) only [key_foldl, key_mk, key_fold, key_ite, ite_self, forN_key, recoverChan_key, octAborts_key]; done) | fail
@[simp] theorem openRecovery_key (s) (sc) (page) (cls) (src) : key (openRecovery s sc page cls src) = key s := by unfold openRecovery; (try dsimp only); (repeat' split) <;> first | with_reducible rfl | (simp only [key_mk, key_fold, key_ite, ite_self]; done) | (simp (disch := (intros; first | with_reducible rfl | (simp only [key_mk, key_fold, key_ite, ite_self]; done) | ((repeat' split) <;> first | with_reducible rfl | (simp only [key_mk, key_fold, key_ite, ite_self]; done) | fail) | fail)) only [key_foldl, key_mk, key_fold, key_ite, ite_self]; done) | fail
@[simp] theorem faultRun_key (s) (page) (cls) (src) : key (faultRun s page cls src) = key s := by simp only [faultRun, key_mk, key_fold, key_ite, ite_self, faultLoses_key, faultNote_key, discardAll_key, scopeSteps_key, openRecovery_key]
@[simp] theorem faultAt_key (s) (page) (src) (part) : key (faultAt s page src part) = key s := by simp only [faultAt, key_mk, key_fold, key_ite, ite_self, logEv_key, recordFault_key, resetUnit_key, faultRun_key]
@[simp] theorem ceRise_key (s) (c) (n) : key (ceRise s c n) = key s := by simp only [ceRise, key_mk, key_fold, key_ite, ite_self, setRegF_key, bumpReg_key, latch_key, evCh_key]
@[simp] theorem noteUe_key (s) (p) (half) : key (noteUe s p half) = key s := by simp only [noteUe, key_mk, key_fold, key_ite, ite_self, setReg_key, bumpReg_key, latch_key, evCh_key]
@[simp] theorem rowFailure_key (s) (p) : key (rowFailure s p) = key s := by unfold rowFailure; (try dsimp only); (repeat' split) <;> first | with_reducible rfl | (simp only [key_mk, key_fold, key_ite, ite_self, bumpReg_key, latch_key, logEv_key]; done) | (simp (disch := (intros; first | with_reducible rfl | (simp only [key_mk, key_fold, key_ite, ite_self, bumpReg_key, latch_key, logEv_key]; done) | ((repeat' split) <;> first | with_reducible rfl | (simp only [key_mk, key_fold, key_ite, ite_self, bumpReg_key, latch_key, logEv_key]; done) | fail) | fail)) only [key_foldl, key_mk, key_fold, key_ite, ite_self, bumpReg_key, latch_key, logEv_key]; done) | fail
@[simp] theorem queueWriteBack_key (s) (h) (p) (d) (corr) : key (queueWriteBack s h p d corr) = key s := by simp (disch := (intros; first | with_reducible rfl | (simp only [key_mk, key_fold, key_ite, ite_self, setChan_key, bumpReg_key, enqueue_key]; done) | ((repeat' split) <;> first | with_reducible rfl | (simp only [key_mk, key_fold, key_ite, ite_self, setChan_key, bumpReg_key, enqueue_key]; done) | fail) | fail)) only [queueWriteBack, key_foldl, key_mk, key_fold, key_ite, ite_self, setChan_key, bumpReg_key, enqueue_key]
@[simp] theorem queueVerify_key (s) (p) : key (queueVerify s p) = key s := by unfold queueVerify; (try dsimp only); (repeat' split) <;> first | with_reducible rfl | (simp only [key_mk, key_fold, key_ite, ite_self, modChan_key, enqueue_key]; done) | (simp (disch := (intros; first | with_reducible rfl | (simp only [key_mk, key_fold, key_ite, ite_self, modChan_key, enqueue_key]; done) | ((repeat' split) <;> first | with_reducible rfl | (simp only [key_mk, key_fold, key_ite, ite_self, modChan_key, enqueue_key]; done) | fail) | fail)) only [key_foldl, key_mk, key_fold, key_ite, ite_self, modChan_key, enqueue_key]; done) | fail
@[simp] theorem deliverPort_key (s) (id) (idx) (e) (d) (bad) (fencedRow) (corrected) (recon) :
    key (deliverPort s id idx e d bad fencedRow corrected recon) = key s :=
  (partsDone_key ..).trans (modReq_key _ _ _ (by intro r; rfl))
@[simp] theorem stampJob_key (s) (k) (j) (e) : key (stampJob s k j e) = key s := by
  unfold stampJob; split
  · exact modReq_key _ _ _ (by intro r; rfl)
  · rfl
@[simp] theorem deliverJob_key (s) (k) (j) (d) (corrected) (recon) : key (deliverJob s k j d corrected recon) = key s := by unfold deliverJob; (try dsimp only); (repeat' split) <;> first | with_reducible rfl | (simp only [key_mk, key_fold, key_ite, ite_self, modOct_key, modReq_key, reconReq_key]; done) | (simp (disch := (intros; first | with_reducible rfl | (simp only [key_mk, key_fold, key_ite, ite_self, modOct_key, modReq_key, reconReq_key]; done) | ((repeat' split) <;> first | with_reducible rfl | (simp only [key_mk, key_fold, key_ite, ite_self, modOct_key, modReq_key, reconReq_key]; done) | fail) | fail)) only [key_foldl, key_mk, key_fold, key_ite, ite_self, modOct_key, modReq_key, reconReq_key]; done) | fail
@[simp] theorem fillHandle_key (s) (h) (d) (ue) (poisoned) : key (fillHandle s h d ue poisoned) = key s := by simp only [fillHandle, key_mk, key_fold, key_ite, ite_self]
@[simp] theorem modRecon_key (s) (ci) (bank) (row) (f : Recon → Recon) : key (modRecon s ci bank row f) = key s := by simp (disch := (intros; first | with_reducible rfl | (simp only [key_mk, key_fold, key_ite, ite_self, modChan_key]; done) | ((repeat' split) <;> first | with_reducible rfl | (simp only [key_mk, key_fold, key_ite, ite_self, modChan_key]; done) | fail) | fail)) only [modRecon, key_foldl, key_mk, key_fold, key_ite, ite_self, modChan_key]
@[simp] theorem reconGot_key (s) (ci) (bank) (row) (p) (d) (newer) : key (reconGot s ci bank row p d newer) = key s := by unfold reconGot; (try dsimp only); (repeat' split) <;> first | with_reducible rfl | (simp only [key_mk, key_fold, key_ite, ite_self, modChan_key, bumpReg_key, enqueue_key, modRecon_key]; done) | (simp (disch := (intros; first | with_reducible rfl | (simp only [key_mk, key_fold, key_ite, ite_self, modChan_key, bumpReg_key, enqueue_key, modRecon_key]; done) | ((repeat' split) <;> first | with_reducible rfl | (simp only [key_mk, key_fold, key_ite, ite_self, modChan_key, bumpReg_key, enqueue_key, modRecon_key]; done) | fail) | fail)) only [key_foldl, key_mk, key_fold, key_ite, ite_self, modChan_key, bumpReg_key, enqueue_key, modRecon_key]; done) | fail
@[simp] theorem remapGot_key (s) (e) (p) (d) (changed) : key (remapGot s e p d changed) = key s := by unfold remapGot; (try dsimp only); (repeat' split) <;> first | with_reducible rfl | (simp only [key_mk, key_fold, key_ite, ite_self, enqueueAll_key]; done) | (simp (disch := (intros; first | with_reducible rfl | (simp only [key_mk, key_fold, key_ite, ite_self, enqueueAll_key]; done) | ((repeat' split) <;> first | with_reducible rfl | (simp only [key_mk, key_fold, key_ite, ite_self, enqueueAll_key]; done) | fail) | fail)) only [key_foldl, key_mk, key_fold, key_ite, ite_self, enqueueAll_key]; done) | fail
@[simp] theorem deliver_key (s) (e) (i) (p) (d) (ue) (poisoned) (fencedRow) (corrected) (recon) : key (deliver s e i p d ue poisoned fencedRow corrected recon) = key s := by unfold deliver; (try dsimp only); (repeat' split) <;> first | with_reducible rfl | (simp only [key_mk, key_fold, key_ite, ite_self, modChan_key, evict_key, scratchErrs_key, deliverPort_key, stampJob_key, deliverJob_key, fillHandle_key, reconGot_key, remapGot_key]; done) | (simp (disch := (intros; first | with_reducible rfl | (simp only [key_mk, key_fold, key_ite, ite_self, modChan_key, evict_key, scratchErrs_key, deliverPort_key, stampJob_key, deliverJob_key, fillHandle_key, reconGot_key, remapGot_key]; done) | ((repeat' split) <;> first | with_reducible rfl | (simp only [key_mk, key_fold, key_ite, ite_self, modChan_key, evict_key, scratchErrs_key, deliverPort_key, stampJob_key, deliverJob_key, fillHandle_key, reconGot_key, remapGot_key]; done) | fail) | fail)) only [key_foldl, key_mk, key_fold, key_ite, ite_self, modChan_key, evict_key, scratchErrs_key, deliverPort_key, stampJob_key, deliverJob_key, fillHandle_key, reconGot_key, remapGot_key]; done) | fail
@[simp] theorem reconAsk_key (s) (ci) (r) : key (reconAsk s ci r) = key s := by simp (disch := (intros; first | with_reducible rfl | (simp only [key_mk, key_fold, key_ite, ite_self, enqueueAll_key, modRecon_key]; done) | ((repeat' split) <;> first | with_reducible rfl | (simp only [key_mk, key_fold, key_ite, ite_self, enqueueAll_key, modRecon_key]; done) | fail) | fail)) only [reconAsk, key_foldl, key_mk, key_fold, key_ite, ite_self, enqueueAll_key, modRecon_key]
@[simp] theorem reconAskAll_key (s) : key (reconAskAll s) = key s :=
  key_foldl _ _ _ (fun t e => key_foldl _ _ _ (fun u r => reconAsk_key ..))
@[simp] theorem startReconOf_key (s) (p) (v) (cls) (dl) (fl) : key (startReconOf s p v cls dl fl) = key s := by unfold startReconOf; (try dsimp only); (repeat' split) <;> first | with_reducible rfl | (simp only [key_mk, key_fold, key_ite, ite_self, modChan_key, modRecon_key, reconAsk_key]; done) | (simp (disch := (intros; first | with_reducible rfl | (simp only [key_mk, key_fold, key_ite, ite_self, modChan_key, modRecon_key, reconAsk_key]; done) | ((repeat' split) <;> first | with_reducible rfl | (simp only [key_mk, key_fold, key_ite, ite_self, modChan_key, modRecon_key, reconAsk_key]; done) | fail) | fail)) only [key_foldl, key_mk, key_fold, key_ite, ite_self, modChan_key, modRecon_key, reconAsk_key]; done) | fail
@[simp] theorem gateReq_key (s) (id) (d) : key (gateReq s id d) = key s := by simp (disch := (intros; first | with_reducible rfl | (simp only [key_mk, key_fold, key_ite, ite_self, modReq_key]; done) | ((repeat' split) <;> first | with_reducible rfl | (simp only [key_mk, key_fold, key_ite, ite_self, modReq_key]; done) | fail) | fail)) only [gateReq, key_foldl, key_mk, key_fold, key_ite, ite_self, modReq_key]
@[simp] theorem startRecon_key (s) (e) (p) (v) : key (startRecon s e p v) = key s := by simp only [startRecon, key_mk, key_fold, key_ite, ite_self, startReconOf_key]
@[simp] theorem octReserve_key (s) (k) (id) (n) (l) : key (octReserve s k id n l) = key s := by simp (disch := (intros; first | with_reducible rfl | (simp only [key_mk, key_fold, key_ite, ite_self, modOct_key]; done) | ((repeat' split) <;> first | with_reducible rfl | (simp only [key_mk, key_fold, key_ite, ite_self, modOct_key]; done) | fail) | fail)) only [octReserve, key_foldl, key_mk, key_fold, key_ite, ite_self, modOct_key]
@[simp] theorem scratchPut_key (s) (k) (i) (d) : key (scratchPut s k i d) = key s := by simp (disch := (intros; first | with_reducible rfl | (simp only [key_mk, key_fold, key_ite, ite_self, modOct_key]; done) | ((repeat' split) <;> first | with_reducible rfl | (simp only [key_mk, key_fold, key_ite, ite_self, modOct_key]; done) | fail) | fail)) only [scratchPut, key_foldl, key_mk, key_fold, key_ite, ite_self, modOct_key]
@[simp] theorem scratchRead_key (s) (k) (b) (n) : key (scratchRead s k b n).2 = key s := by simp (disch := (intros; first | with_reducible rfl | (simp only [key_mk, key_fold, key_ite, ite_self, scratchErrs_key]; done) | ((repeat' split) <;> first | with_reducible rfl | (simp only [key_mk, key_fold, key_ite, ite_self, scratchErrs_key]; done) | fail) | fail)) only [scratchRead, key_foldl, key_mk, key_fold, key_ite, ite_self, scratchErrs_key]
@[simp] theorem scratchWrite_key (s) (k) (b) (xs) : key (scratchWrite s k b xs) = key s := by simp (disch := (intros; first | with_reducible rfl | (simp only [key_mk, key_fold, key_ite, ite_self, scratchErrs_key, scratchPut_key]; done) | ((repeat' split) <;> first | with_reducible rfl | (simp only [key_mk, key_fold, key_ite, ite_self, scratchErrs_key, scratchPut_key]; done) | fail) | fail)) only [scratchWrite, key_foldl, key_mk, key_fold, key_ite, ite_self, scratchErrs_key, scratchPut_key]
@[simp] theorem addJob_key (s) (k) (req) (kind) (p) (v) (cls) (dl) (portNo) : key (addJob s k req kind p v cls dl portNo) = key s := by simp (disch := (intros; first | with_reducible rfl | (simp only [key_mk, key_fold, key_ite, ite_self, modOct_key]; done) | ((repeat' split) <;> first | with_reducible rfl | (simp only [key_mk, key_fold, key_ite, ite_self, modOct_key]; done) | fail) | fail)) only [addJob, key_foldl, key_mk, key_fold, key_ite, ite_self, modOct_key]
@[simp] theorem setJob_key (s) (k) (j) : key (setJob s k j) = key s := by simp (disch := (intros; first | with_reducible rfl | (simp only [key_mk, key_fold, key_ite, ite_self, modOct_key]; done) | ((repeat' split) <;> first | with_reducible rfl | (simp only [key_mk, key_fold, key_ite, ite_self, modOct_key]; done) | fail) | fail)) only [setJob, key_foldl, key_mk, key_fold, key_ite, ite_self, modOct_key]
@[simp] theorem endJob_key (s) (k) (jid) : key (endJob s k jid) = key s := by simp (disch := (intros; first | with_reducible rfl | (simp only [key_mk, key_fold, key_ite, ite_self, modOct_key]; done) | ((repeat' split) <;> first | with_reducible rfl | (simp only [key_mk, key_fold, key_ite, ite_self, modOct_key]; done) | fail) | fail)) only [endJob, key_foldl, key_mk, key_fold, key_ite, ite_self, modOct_key]
@[simp] theorem addParity_key (s) (req) (p) (v) (delta) (cls) (dl) (portNo) : key (addParity s req p v delta cls dl portNo) = key s := by unfold addParity; (try dsimp only); (repeat' split) <;> first | with_reducible rfl | (simp only [key_mk, key_fold, key_ite, ite_self, modReq_key, addJob_key]; done) | (simp (disch := (intros; first | with_reducible rfl | (simp only [key_mk, key_fold, key_ite, ite_self, modReq_key, addJob_key]; done) | ((repeat' split) <;> first | with_reducible rfl | (simp only [key_mk, key_fold, key_ite, ite_self, modReq_key, addJob_key]; done) | fail) | fail)) only [key_foldl, key_mk, key_fold, key_ite, ite_self, modReq_key, addJob_key]; done) | fail
@[simp] theorem addVaultWrite_key (s) (id) (p) (v) (new) (cls) (dl) (portNo) : key (addVaultWrite s id p v new cls dl portNo) = key s := by unfold addVaultWrite; (try dsimp only); (repeat' split) <;> first | with_reducible rfl | (simp only [key_mk, key_fold, key_ite, ite_self, modOct_key, modReq_key, enqueue_key]; done) | (simp (disch := (intros; first | with_reducible rfl | (simp only [key_mk, key_fold, key_ite, ite_self, modOct_key, modReq_key, enqueue_key]; done) | ((repeat' split) <;> first | with_reducible rfl | (simp only [key_mk, key_fold, key_ite, ite_self, modOct_key, modReq_key, enqueue_key]; done) | fail) | fail)) only [key_foldl, key_mk, key_fold, key_ite, ite_self, modOct_key, modReq_key, enqueue_key]; done) | fail
@[simp] theorem jobWrite_key (s) (k) (j) (old) (new) : key (jobWrite s k j old new) = key s := by unfold jobWrite; (try dsimp only); (repeat' split) <;> first | with_reducible rfl | (simp only [key_mk, key_fold, key_ite, ite_self, enqueue_key, setJob_key, addParity_key]; done) | fail
@[simp] theorem jobPoison_key (s) (k) (j) (d) : key (jobPoison s k j d) = key s := by unfold jobPoison; (try dsimp only); (repeat' split) <;> first | with_reducible rfl | (simp only [key_mk, key_fold, key_ite, ite_self, modReq_key, partsDone_key, poisonReq_key, endJob_key]; done) | (simp (disch := (intros; first | with_reducible rfl | (simp only [key_mk, key_fold, key_ite, ite_self, modReq_key, partsDone_key, poisonReq_key, endJob_key]; done) | ((repeat' split) <;> first | with_reducible rfl | (simp only [key_mk, key_fold, key_ite, ite_self, modReq_key, partsDone_key, poisonReq_key, endJob_key]; done) | fail) | fail)) only [key_foldl, key_mk, key_fold, key_ite, ite_self, modReq_key, partsDone_key, poisonReq_key, endJob_key]; done) | fail
@[simp] theorem jobReturned_key (s) (k) (j) (d) : key (jobReturned s k j d) = key s := by unfold jobReturned; (try dsimp only); (repeat' split) <;> first | with_reducible rfl | (simp only [key_mk, key_fold, key_ite, ite_self, modChan_key, modReq_key, latch_key, evOct_key, logEv_key, partsDone_key, enqueue_key, scratchErrs_key, setJob_key, endJob_key, addParity_key, jobWrite_key, jobPoison_key]; done) | (simp (disch := (intros; first | with_reducible rfl | (simp only [key_mk, key_fold, key_ite, ite_self, modChan_key, modReq_key, latch_key, evOct_key, logEv_key, partsDone_key, enqueue_key, scratchErrs_key, setJob_key, endJob_key, addParity_key, jobWrite_key, jobPoison_key]; done) | ((repeat' split) <;> first | with_reducible rfl | (simp only [key_mk, key_fold, key_ite, ite_self, modChan_key, modReq_key, latch_key, evOct_key, logEv_key, partsDone_key, enqueue_key, scratchErrs_key, setJob_key, endJob_key, addParity_key, jobWrite_key, jobPoison_key]; done) | fail) | fail)) only [key_foldl, key_mk, key_fold, key_ite, ite_self, modChan_key, modReq_key, latch_key, evOct_key, logEv_key, partsDone_key, enqueue_key, scratchErrs_key, setJob_key, endJob_key, addParity_key, jobWrite_key, jobPoison_key]; done) | fail
@[simp] theorem drainJoined_key (s) (k) (j) : key (drainJoined s k j) = key s := by unfold drainJoined; (try dsimp only); (repeat' split) <;> first | with_reducible rfl | (simp only [key_mk, key_fold, key_ite, ite_self, modChan_key, modOct_key, evOct_key]; done) | (simp (disch := (intros; first | with_reducible rfl | (simp only [key_mk, key_fold, key_ite, ite_self, modChan_key, modOct_key, evOct_key]; done) | ((repeat' split) <;> first | with_reducible rfl | (simp only [key_mk, key_fold, key_ite, ite_self, modChan_key, modOct_key, evOct_key]; done) | fail) | fail)) only [key_foldl, key_mk, key_fold, key_ite, ite_self, modChan_key, modOct_key, evOct_key]; done) | fail
@[simp] theorem modHdlEntry_key (s) (h) (f : HdlEntry → HdlEntry) : key (modHdlEntry s h f) = key s := by unfold modHdlEntry; (try dsimp only); (repeat' split) <;> first | with_reducible rfl | (simp only [key_mk, key_fold, key_ite, ite_self]; done) | fail
@[simp] theorem hdlTouch_key (s) (h) : key (hdlTouch s h) = key s := by simp (disch := (intros; first | with_reducible rfl | (simp only [key_mk, key_fold, key_ite, ite_self, modHdlEntry_key]; done) | ((repeat' split) <;> first | with_reducible rfl | (simp only [key_mk, key_fold, key_ite, ite_self, modHdlEntry_key]; done) | fail) | fail)) only [hdlTouch, key_foldl, key_mk, key_fold, key_ite, ite_self, modHdlEntry_key]
@[simp] theorem hdlSet_key (s) (h) (b) (dirty) : key (hdlSet s h b dirty) = key s := by simp (disch := (intros; first | with_reducible rfl | (simp only [key_mk, key_fold, key_ite, ite_self, modHdlEntry_key]; done) | ((repeat' split) <;> first | with_reducible rfl | (simp only [key_mk, key_fold, key_ite, ite_self, modHdlEntry_key]; done) | fail) | fail)) only [hdlSet, key_foldl, key_mk, key_fold, key_ite, ite_self, modHdlEntry_key]
@[simp] theorem hdlFetch_key (s) (h) (pos) (cls) (dl) : key (hdlFetch s h pos cls dl) = key s := by simp only [hdlFetch, key_mk, key_fold, key_ite, ite_self, enqueue_key]
@[simp] theorem hdlStore_key (s) (h) (pos) (cls) (dl) (d) : key (hdlStore s h pos cls dl d) = key s := by simp only [hdlStore, key_mk, key_fold, key_ite, ite_self, enqueue_key]
@[simp] theorem hdlEvict_key (s) : key (hdlEvict s) = key s := by unfold hdlEvict; (try dsimp only); (repeat' split) <;> first | with_reducible rfl | (simp only [key_mk, key_fold, key_ite, ite_self, hdlStore_key]; done) | (simp (disch := (intros; first | with_reducible rfl | (simp only [key_mk, key_fold, key_ite, ite_self, hdlStore_key]; done) | ((repeat' split) <;> first | with_reducible rfl | (simp only [key_mk, key_fold, key_ite, ite_self, hdlStore_key]; done) | fail) | fail)) only [key_foldl, key_mk, key_fold, key_ite, ite_self, hdlStore_key]; done) | fail
@[simp] theorem settleBad_key (s) : key (settleBad s) = key s := by simp (disch := (intros; first | with_reducible rfl | (simp only [key_mk, key_fold, key_ite, ite_self, setReg_key, latch_key, modHdlEntry_key, hdlStore_key]; done) | ((repeat' split) <;> first | with_reducible rfl | (simp only [key_mk, key_fold, key_ite, ite_self, setReg_key, latch_key, modHdlEntry_key, hdlStore_key]; done) | fail) | fail)) only [settleBad, key_foldl, key_mk, key_fold, key_ite, ite_self, setReg_key, latch_key, modHdlEntry_key, hdlStore_key]
@[simp] theorem validCount_key (s) (d) : key (validCount s d) = key s := by simp only [validCount, key_mk, key_fold, key_ite, ite_self]
@[simp] theorem hdlWriteThrough_key (s) (h) (pos) (cls) (dl) (b) : key (hdlWriteThrough s h pos cls dl b) = key s := by simp only [hdlWriteThrough, key_mk, key_fold, key_ite, ite_self, hdlSet_key, hdlStore_key]
@[simp] theorem hdlRelease_key (s) (h) (pos) (cls) (dl) : key (hdlRelease s h pos cls dl) = key s := by simp only [hdlRelease, key_mk, key_fold, key_ite, ite_self, validCount_key, hdlWriteThrough_key]
@[simp] theorem createEntry_key (s) (h) (im) (dl) : key (createEntry s h im dl) = key s := by simp only [createEntry, key_mk, key_fold, key_ite, ite_self, validCount_key, hdlWriteThrough_key]
@[simp] theorem hdlOpRun_key (s) : key (hdlOpRun s) = key s := by unfold hdlOpRun; (try dsimp only); (repeat' split) <;> first | with_reducible rfl | (simp only [key_mk, key_fold, key_ite, ite_self, setReg_key, hdlTouch_key, hdlFetch_key, hdlRelease_key, createEntry_key]; done) | (simp (disch := (intros; first | with_reducible rfl | (simp only [key_mk, key_fold, key_ite, ite_self, setReg_key, hdlTouch_key, hdlFetch_key, hdlRelease_key, createEntry_key]; done) | ((repeat' split) <;> first | with_reducible rfl | (simp only [key_mk, key_fold, key_ite, ite_self, setReg_key, hdlTouch_key, hdlFetch_key, hdlRelease_key, createEntry_key]; done) | fail) | fail)) only [key_foldl, key_mk, key_fold, key_ite, ite_self, setReg_key, hdlTouch_key, hdlFetch_key, hdlRelease_key, createEntry_key]; done) | fail
@[simp] theorem regReadEffect_key (s) (p) (page) (off) : key (regReadEffect s p page off) = key s := by simp (disch := (intros; first | with_reducible rfl | (simp only [key_mk, key_fold, key_ite, ite_self, modPort_key]; done) | ((repeat' split) <;> first | with_reducible rfl | (simp only [key_mk, key_fold, key_ite, ite_self, modPort_key]; done) | fail) | fail)) only [regReadEffect, key_foldl, key_mk, key_fold, key_ite, ite_self, modPort_key]
@[simp] theorem gateWrite_key (s) (j) (v) : key (gateWrite s j v) = key s := by simp (disch := (intros; first | with_reducible rfl | (simp only [key_mk, key_fold, key_ite, ite_self, latch_key]; done) | ((repeat' split) <;> first | with_reducible rfl | (simp only [key_mk, key_fold, key_ite, ite_self, latch_key]; done) | fail) | fail)) only [gateWrite, key_foldl, key_mk, key_fold, key_ite, ite_self, latch_key]
@[simp] theorem commitCount_key (s) (page) : key (commitCount s page) = key s := by simp only [commitCount, key_mk, key_fold, key_ite, ite_self, bumpReg_key]
@[simp] theorem rgnCommitNow_key (s) : key (rgnCommitNow s) = key s := by unfold rgnCommitNow; (try dsimp only); (repeat' split) <;> first | with_reducible rfl | (simp only [key_mk, key_fold, key_ite, ite_self, setReg_key, latch_key, commitCount_key]; done) | fail
@[simp] theorem arbCommitNow_key (s) (id) : key (arbCommitNow s id) = key s := by unfold arbCommitNow; (try dsimp only); (repeat' split) <;> first | with_reducible rfl | (simp only [key_mk, key_fold, key_ite, ite_self, setReg_key, latch_key]; done) | fail
@[simp] theorem octRestart_key (s) (k) : key (octRestart s k) = key s := by simp (disch := (intros; first | with_reducible rfl | (simp only [key_mk, key_fold, key_ite, ite_self, modOct_key]; done) | ((repeat' split) <;> first | with_reducible rfl | (simp only [key_mk, key_fold, key_ite, ite_self, modOct_key]; done) | fail) | fail)) only [octRestart, key_foldl, key_mk, key_fold, key_ite, ite_self, modOct_key]
@[simp] theorem eccRestart_key (s) : key (eccRestart s) = key s := by simp only [eccRestart, key_mk, key_fold, key_ite, ite_self, sbWrite_key]
@[simp] theorem runWrite_key (s) (u) (v) : key (runWrite s u v) = key s := by unfold runWrite; (try dsimp only); (repeat' split) <;> first | with_reducible rfl | (simp only [key_mk, key_fold, key_ite, ite_self, modOct_key, octRestart_key, eccRestart_key]; done) | (simp (disch := (intros; first | with_reducible rfl | (simp only [key_mk, key_fold, key_ite, ite_self, modOct_key, octRestart_key, eccRestart_key]; done) | ((repeat' split) <;> first | with_reducible rfl | (simp only [key_mk, key_fold, key_ite, ite_self, modOct_key, octRestart_key, eccRestart_key]; done) | fail) | fail)) only [key_foldl, key_mk, key_fold, key_ite, ite_self, modOct_key, octRestart_key, eccRestart_key]; done) | fail
@[simp] theorem freqRequest_key (s) (v) : key (freqRequest s v) = key s := by simp (disch := (intros; first | with_reducible rfl | (simp only [key_mk, key_fold, key_ite, ite_self]; done) | ((repeat' split) <;> first | with_reducible rfl | (simp only [key_mk, key_fold, key_ite, ite_self]; done) | fail) | fail)) only [freqRequest, key_foldl, key_mk, key_fold, key_ite, ite_self]
@[simp] theorem smpInterval_key (s) : key (smpInterval s).2 = key s := by unfold smpInterval; (try dsimp only); (repeat' split) <;> first | with_reducible rfl | (simp only [key_mk, key_fold, key_ite, ite_self]; done) | fail
@[simp] theorem smpCtl_key (s) (wasEn) (v) : key (smpCtl s wasEn v) = key s := by unfold smpCtl; (try dsimp only); (repeat' split) <;> first | with_reducible rfl | (simp only [key_mk, key_fold, key_ite, ite_self, smpInterval_key]; done) | fail
@[simp] theorem copyWords_key (s) (page) (off) (n) (b) : key (copyWords s page off n b) = key s := by simp (disch := (intros; first | with_reducible rfl | (simp only [key_mk, key_fold, key_ite, ite_self, setReg_key]; done) | ((repeat' split) <;> first | with_reducible rfl | (simp only [key_mk, key_fold, key_ite, ite_self, setReg_key]; done) | fail) | fail)) only [copyWords, key_foldl, key_mk, key_fold, key_ite, ite_self, setReg_key]
@[simp] theorem logRead_key (s) (n) : key (logRead s n) = key s := by unfold logRead; (try dsimp only); (repeat' split) <;> first | with_reducible rfl | (simp only [key_mk, key_fold, key_ite, ite_self, copyWords_key]; done) | (simp (disch := (intros; first | with_reducible rfl | (simp only [key_mk, key_fold, key_ite, ite_self, copyWords_key]; done) | ((repeat' split) <;> first | with_reducible rfl | (simp only [key_mk, key_fold, key_ite, ite_self, copyWords_key]; done) | fail) | fail)) only [key_foldl, key_mk, key_fold, key_ite, ite_self, copyWords_key]; done) | fail
@[simp] theorem smpRead_key (s) (n) : key (smpRead s n) = key s := by unfold smpRead; (try dsimp only); (repeat' split) <;> first | with_reducible rfl | (simp only [key_mk, key_fold, key_ite, ite_self, copyWords_key]; done) | (simp (disch := (intros; first | with_reducible rfl | (simp only [key_mk, key_fold, key_ite, ite_self, copyWords_key]; done) | ((repeat' split) <;> first | with_reducible rfl | (simp only [key_mk, key_fold, key_ite, ite_self, copyWords_key]; done) | fail) | fail)) only [key_foldl, key_mk, key_fold, key_ite, ite_self, copyWords_key]; done) | fail
@[simp] theorem cfgSet_key (s) (v) : key (cfgSet s v) = key s := by simp only [cfgSet, key_mk, key_fold, key_ite, ite_self]
@[simp] theorem counterWrite_key (s) (p) (i) (hi) (v) : key (counterWrite s p i hi v) = key s := by simp (disch := (intros; first | with_reducible rfl | (simp only [key_mk, key_fold, key_ite, ite_self, setCounter_key, modPort_key]; done) | ((repeat' split) <;> first | with_reducible rfl | (simp only [key_mk, key_fold, key_ite, ite_self, setCounter_key, modPort_key]; done) | fail) | fail)) only [counterWrite, key_foldl, key_mk, key_fold, key_ite, ite_self, setCounter_key, modPort_key]
@[simp] theorem hdlOpWrite_key (s) (v) : key (hdlOpWrite s v) = key s := by simp (disch := (intros; first | with_reducible rfl | (simp only [key_mk, key_fold, key_ite, ite_self, hdlOpRun_key]; done) | ((repeat' split) <;> first | with_reducible rfl | (simp only [key_mk, key_fold, key_ite, ite_self, hdlOpRun_key]; done) | fail) | fail)) only [hdlOpWrite, key_foldl, key_mk, key_fold, key_ite, ite_self, hdlOpRun_key]
@[simp] theorem ppOpWrite_key (s) (v) : key (ppOpWrite s v) = key s := by unfold ppOpWrite; (try dsimp only); (repeat' split) <;> first | with_reducible rfl | (simp only [key_mk, key_fold, key_ite, ite_self, sbQueue_key]; done) | (simp (disch := (intros; first | with_reducible rfl | (simp only [key_mk, key_fold, key_ite, ite_self, sbQueue_key]; done) | ((repeat' split) <;> first | with_reducible rfl | (simp only [key_mk, key_fold, key_ite, ite_self, sbQueue_key]; done) | fail) | fail)) only [key_foldl, key_mk, key_fold, key_ite, ite_self, sbQueue_key]; done) | fail
@[simp] theorem t1500Go_key (s) : key (t1500Go s) = key s := by simp (disch := (intros; first | with_reducible rfl | (simp only [key_mk, key_fold, key_ite, ite_self, latch_key, sbQueue_key]; done) | ((repeat' split) <;> first | with_reducible rfl | (simp only [key_mk, key_fold, key_ite, ite_self, latch_key, sbQueue_key]; done) | fail) | fail)) only [t1500Go, key_foldl, key_mk, key_fold, key_ite, ite_self, latch_key, sbQueue_key]
@[simp] theorem mbistGo_key (s) (v) : key (mbistGo s v) = key s := by simp only [mbistGo, key_mk, key_fold, key_ite, ite_self]
@[simp] theorem fmeasGo_key (s) (v) : key (fmeasGo s v) = key s := by simp only [fmeasGo, key_mk, key_fold, key_ite, ite_self]
@[simp] theorem blkReset_key (s) (v) : key (blkReset s v) = key s := by simp only [blkReset, key_mk, key_fold, key_ite, ite_self]
@[simp] theorem calForceWrite_key (s) (n) (v) : key (calForceWrite s n v) = key s := by simp only [calForceWrite, key_mk, key_fold, key_ite, ite_self, setCal_key]
@[simp] theorem overridden_key (s) (vdd) (setting) (value) : key (overridden s vdd setting value) = key s := by simp only [overridden, key_mk, key_fold, key_ite, ite_self, bumpReg_key, latch_key, logEv_key]
@[simp] theorem overrides_key (s) : key (overrides s) = key s := by simp only [overrides, key_mk, key_fold, key_ite, ite_self, overridden_key]
@[simp] theorem writeHook_key (s) (p) (u) (off) (old) (v) (id) : key (writeHook s p u off old v id) = key s := by unfold writeHook; (try dsimp only); (repeat' split) <;> first | with_reducible rfl | (simp only [key_mk, key_fold, key_ite, ite_self, attnRecheck_key, logEv_key, sbWrite_key, reseed_key, sweepAbandon_key, gateWrite_key, rgnCommitNow_key, arbCommitNow_key, runWrite_key, freqRequest_key, smpCtl_key, logRead_key, smpRead_key, cfgSet_key, counterWrite_key, hdlOpWrite_key, ppOpWrite_key, t1500Go_key, mbistGo_key, fmeasGo_key, blkReset_key, calForceWrite_key, overrides_key]; done) | fail
@[simp] theorem regWrite_key (s) (p) (page) (off) (v) (id) : key (regWrite s p page off v id) = key s := by unfold regWrite; (try dsimp only); (repeat' split) <;> first | with_reducible rfl | (simp only [key_mk, key_fold, key_ite, ite_self, setReg_key, writeHook_key]; done) | fail
@[simp] theorem setStage_key (s) (id) (st) : key (setStage s id st) = key s := by simp (disch := (intros; first | with_reducible rfl | (simp only [key_mk, key_fold, key_ite, ite_self, modReq_key]; done) | ((repeat' split) <;> first | with_reducible rfl | (simp only [key_mk, key_fold, key_ite, ite_self, modReq_key]; done) | fail) | fail)) only [setStage, key_foldl, key_mk, key_fold, key_ite, ite_self, modReq_key]
@[simp] theorem passed6_key (s) (r) : key (passed6 s r) = key s := by simp (disch := (intros; first | with_reducible rfl | (simp only [key_mk, key_fold, key_ite, ite_self, modReq_key, evPort_key, modPort_key, freeBeats_key]; done) | ((repeat' split) <;> first | with_reducible rfl | (simp only [key_mk, key_fold, key_ite, ite_self, modReq_key, evPort_key, modPort_key, freeBeats_key]; done) | fail) | fail)) only [passed6, key_foldl, key_mk, key_fold, key_ite, ite_self, modReq_key, evPort_key, modPort_key, freeBeats_key]
@[simp] theorem cfgPerform_key (s) (r) : key (cfgPerform s r) = key s := by unfold cfgPerform; (try dsimp only); (repeat' split) <;> first | with_reducible rfl | (simp only [key_mk, key_fold, key_ite, ite_self, replyReq_key, finishReq_key, regReadEffect_key, regWrite_key, passed6_key]; done) | fail
@[simp] theorem enqueuePieces_key (s) (r) (cls) (dl) (write) (ps) : key (enqueuePieces s r cls dl write ps) = key s := by simp (disch := (intros; first | with_reducible rfl | (simp only [key_mk, key_fold, key_ite, ite_self, enqueue_key]; done) | ((repeat' split) <;> first | with_reducible rfl | (simp only [key_mk, key_fold, key_ite, ite_self, enqueue_key]; done) | fail) | fail)) only [enqueuePieces, key_foldl, key_mk, key_fold, key_ite, ite_self, enqueue_key]
@[simp] theorem vaultWrites_key (s) (r) (cls) (dl) (xs) : key (vaultWrites s r cls dl xs) = key s := by unfold vaultWrites; (try dsimp only); (repeat' split) <;> first | with_reducible rfl | (simp only [key_mk, key_fold, key_ite, ite_self, addVaultWrite_key]; done) | (simp (disch := (intros; first | with_reducible rfl | (simp only [key_mk, key_fold, key_ite, ite_self, addVaultWrite_key]; done) | ((repeat' split) <;> first | with_reducible rfl | (simp only [key_mk, key_fold, key_ite, ite_self, addVaultWrite_key]; done) | fail) | fail)) only [key_foldl, key_mk, key_fold, key_ite, ite_self, addVaultWrite_key]; done) | fail
@[simp] theorem admitRd_key (s) (r) (cls) (dl) : key (admitRd s r cls dl) = key s := by simp (disch := (intros; first | with_reducible rfl | (simp only [key_mk, key_fold, key_ite, ite_self, modReq_key, enqueuePieces_key]; done) | ((repeat' split) <;> first | with_reducible rfl | (simp only [key_mk, key_fold, key_ite, ite_self, modReq_key, enqueuePieces_key]; done) | fail) | fail)) only [admitRd, key_foldl, key_mk, key_fold, key_ite, ite_self, modReq_key, enqueuePieces_key]
@[simp] theorem admitWr_key (s) (r) (cls) (dl) (data) (masks) : key (admitWr s r cls dl data masks) = key s := by simp (disch := (intros; first | with_reducible rfl | (simp only [key_mk, key_fold, key_ite, ite_self, modReq_key, finishReq_key, enqueuePieces_key, vaultWrites_key]; done) | ((repeat' split) <;> first | with_reducible rfl | (simp only [key_mk, key_fold, key_ite, ite_self, modReq_key, finishReq_key, enqueuePieces_key, vaultWrites_key]; done) | fail) | fail)) only [admitWr, key_foldl, key_mk, key_fold, key_ite, ite_self, modReq_key, finishReq_key, enqueuePieces_key, vaultWrites_key]
@[simp] theorem holdSector_key (s) (r) (x) (d) : key (holdSector s r x d) = key s := by simp (disch := (intros; first | with_reducible rfl | (simp only [key_mk, key_fold, key_ite, ite_self, modChan_key, modOct_key, latch_key, evOct_key]; done) | ((repeat' split) <;> first | with_reducible rfl | (simp only [key_mk, key_fold, key_ite, ite_self, modChan_key, modOct_key, latch_key, evOct_key]; done) | fail) | fail)) only [holdSector, key_foldl, key_mk, key_fold, key_ite, ite_self, modChan_key, modOct_key, latch_key, evOct_key]
@[simp] theorem admitRdw_key (s) (r) (cls) (dl) (data) : key (admitRdw s r cls dl data) = key s := by simp (disch := (intros; first | with_reducible rfl | (simp only [key_mk, key_fold, key_ite, ite_self, modReq_key, finishReq_key, addJob_key, holdSector_key]; done) | ((repeat' split) <;> first | with_reducible rfl | (simp only [key_mk, key_fold, key_ite, ite_self, modReq_key, finishReq_key, addJob_key, holdSector_key]; done) | fail) | fail)) only [admitRdw, key_foldl, key_mk, key_fold, key_ite, ite_self, modReq_key, finishReq_key, addJob_key, holdSector_key]
@[simp] theorem admitAt_key (s) (r) (cls) (dl) (data) : key (admitAt s r cls dl data) = key s := by unfold admitAt; (try dsimp only); (repeat' split) <;> first | with_reducible rfl | (simp only [key_mk, key_fold, key_ite, ite_self, modReq_key, addJob_key]; done) | (simp (disch := (intros; first | with_reducible rfl | (simp only [key_mk, key_fold, key_ite, ite_self, modReq_key, addJob_key]; done) | ((repeat' split) <;> first | with_reducible rfl | (simp only [key_mk, key_fold, key_ite, ite_self, modReq_key, addJob_key]; done) | fail) | fail)) only [key_foldl, key_mk, key_fold, key_ite, ite_self, modReq_key, addJob_key]; done) | fail
@[simp] theorem bbufWrite_key (s) (a) (data) : key (bbufWrite s a data) = key s := by simp (disch := (intros; first | with_reducible rfl | (simp only [key_mk, key_fold, key_ite, ite_self]; done) | ((repeat' split) <;> first | with_reducible rfl | (simp only [key_mk, key_fold, key_ite, ite_self]; done) | fail) | fail)) only [bbufWrite, key_foldl, key_mk, key_fold, key_ite, ite_self]
@[simp] theorem cutChan_key (s) (n) (c) : key (cutChan s n c) = key s := by unfold cutChan; (try dsimp only); (repeat' split) <;> first | with_reducible rfl | (simp only [key_mk, key_fold, key_ite, ite_self, modChan_key]; done) | (simp (disch := (intros; first | with_reducible rfl | (simp only [key_mk, key_fold, key_ite, ite_self, modChan_key]; done) | ((repeat' split) <;> first | with_reducible rfl | (simp only [key_mk, key_fold, key_ite, ite_self, modChan_key]; done) | fail) | fail)) only [key_foldl, key_mk, key_fold, key_ite, ite_self, modChan_key]; done) | fail
@[simp] theorem admitSop_key (s) (r) (cls) (dl) : key (admitSop s r cls dl) = key s := by unfold admitSop; (try dsimp only); (repeat' split) <;> first | with_reducible rfl | (simp only [key_mk, key_fold, key_ite, ite_self, modReq_key, bumpReg_key, evBlk_key, cutChan_key]; done) | (simp (disch := (intros; first | with_reducible rfl | (simp only [key_mk, key_fold, key_ite, ite_self, modReq_key, bumpReg_key, evBlk_key, cutChan_key]; done) | ((repeat' split) <;> first | with_reducible rfl | (simp only [key_mk, key_fold, key_ite, ite_self, modReq_key, bumpReg_key, evBlk_key, cutChan_key]; done) | fail) | fail)) only [key_foldl, key_mk, key_fold, key_ite, ite_self, modReq_key, bumpReg_key, evBlk_key, cutChan_key]; done) | fail
@[simp] theorem raiseTentative_key (s) (r) : key (raiseTentative s r) = key s := by simp only [raiseTentative, key_mk, key_fold, key_ite, ite_self, hdlTouch_key, hdlSet_key]
@[simp] theorem enter6_key (s) (r) : key (enter6 s r) = key s := by simp (disch := (intros; first | with_reducible rfl | (simp only [key_mk, key_fold, key_ite, ite_self, octReserve_key, passed6_key, raiseTentative_key]; done) | ((repeat' split) <;> first | with_reducible rfl | (simp only [key_mk, key_fold, key_ite, ite_self, octReserve_key, passed6_key, raiseTentative_key]; done) | fail) | fail)) only [enter6, key_foldl, key_mk, key_fold, key_ite, ite_self, octReserve_key, passed6_key, raiseTentative_key]
@[simp] theorem admitReq_key (s) (r) : key (admitReq s r) = key s := by unfold admitReq; (try dsimp only); (repeat' split) <;> first | with_reducible rfl | (simp only [key_mk, key_fold, key_ite, ite_self, finishReq_key, cfgPerform_key, admitRd_key, admitWr_key, admitRdw_key, admitAt_key, bbufWrite_key, admitSop_key, enter6_key]; done) | (simp (disch := (intros; first | with_reducible rfl | (simp only [key_mk, key_fold, key_ite, ite_self, finishReq_key, cfgPerform_key, admitRd_key, admitWr_key, admitRdw_key, admitAt_key, bbufWrite_key, admitSop_key, enter6_key]; done) | ((repeat' split) <;> first | with_reducible rfl | (simp only [key_mk, key_fold, key_ite, ite_self, finishReq_key, cfgPerform_key, admitRd_key, admitWr_key, admitRdw_key, admitAt_key, bbufWrite_key, admitSop_key, enter6_key]; done) | fail) | fail)) only [key_foldl, key_mk, key_fold, key_ite, ite_self, finishReq_key, cfgPerform_key, admitRd_key, admitWr_key, admitRdw_key, admitAt_key, bbufWrite_key, admitSop_key, enter6_key]; done) | fail
@[simp] theorem refuseHeld_key (s) (r) : key (refuseHeld s r) = key s := by simp (disch := (intros; first | with_reducible rfl | (simp only [key_mk, key_fold, key_ite, ite_self, setReg_key, latch_key, replyReq_key]; done) | ((repeat' split) <;> first | with_reducible rfl | (simp only [key_mk, key_fold, key_ite, ite_self, setReg_key, latch_key, replyReq_key]; done) | fail) | fail)) only [refuseHeld, key_foldl, key_mk, key_fold, key_ite, ite_self, setReg_key, latch_key, replyReq_key]
@[simp] theorem passStep5_key (s) (r) : key (passStep5 s r) = key s := by simp only [passStep5, key_mk, key_fold, key_ite, ite_self, replyReq_key, admitReq_key, refuseHeld_key]
@[simp] theorem step4_key (s) (r) : key (step4 s r) = key s := by unfold step4; (try dsimp only); (repeat' split) <;> first | with_reducible rfl | (simp only [key_mk, key_fold, key_ite, ite_self, modReq_key, setStage_key, passStep5_key]; done) | (simp (disch := (intros; first | with_reducible rfl | (simp only [key_mk, key_fold, key_ite, ite_self, modReq_key, setStage_key, passStep5_key]; done) | ((repeat' split) <;> first | with_reducible rfl | (simp only [key_mk, key_fold, key_ite, ite_self, modReq_key, setStage_key, passStep5_key]; done) | fail) | fail)) only [key_foldl, key_mk, key_fold, key_ite, ite_self, modReq_key, setStage_key, passStep5_key]; done) | fail
@[simp] theorem sampleReq_key (s) (id) : key (sampleReq s id) = key s := by unfold sampleReq; (try dsimp only); (repeat' split) <;> first | with_reducible rfl | (simp only [key_mk, key_fold, key_ite, ite_self, modReq_key, modPort_key]; done) | (simp (disch := (intros; first | with_reducible rfl | (simp only [key_mk, key_fold, key_ite, ite_self, modReq_key, modPort_key]; done) | ((repeat' split) <;> first | with_reducible rfl | (simp only [key_mk, key_fold, key_ite, ite_self, modReq_key, modPort_key]; done) | fail) | fail)) only [key_foldl, key_mk, key_fold, key_ite, ite_self, modReq_key, modPort_key]; done) | fail
@[simp] theorem selectDue_key (s) : key (selectDue s) = key s := by unfold selectDue; (try dsimp only); (repeat' split) <;> first | with_reducible rfl | (simp only [key_mk, key_fold, key_ite, ite_self, smpInterval_key, sampleReq_key]; done) | fail
@[simp] theorem dueNow_key (s) : key (dueNow s) = key s := by unfold dueNow; (try dsimp only); (repeat' split) <;> first | with_reducible rfl | (simp only [key_mk, key_fold, key_ite, ite_self, smpInterval_key]; done) | fail
@[simp] theorem countCandidate_key (s) (r) (a) : key (countCandidate s r a) = key s := by simp only [countCandidate, key_mk, key_fold, key_ite, ite_self, dueNow_key]
@[simp] theorem countHeader_key (s) (r) (late) : key (countHeader s r late) = key s := by simp only [countHeader, key_mk, key_fold, key_ite, ite_self, evPort_key, countCandidate_key]
@[simp] theorem step2_key (s) (r) (nm) : key (step2 s r nm) = key s := by unfold step2; (try dsimp only); (repeat' split) <;> first | with_reducible rfl | (simp only [key_mk, key_fold, key_ite, ite_self, modReq_key, setReg_key, latch_key, replyReq_key, setStage_key, step4_key, countHeader_key]; done) | (simp (disch := (intros; first | with_reducible rfl | (simp only [key_mk, key_fold, key_ite, ite_self, modReq_key, setReg_key, latch_key, replyReq_key, setStage_key, step4_key, countHeader_key]; done) | ((repeat' split) <;> first | with_reducible rfl | (simp only [key_mk, key_fold, key_ite, ite_self, modReq_key, setReg_key, latch_key, replyReq_key, setStage_key, step4_key, countHeader_key]; done) | fail) | fail)) only [key_foldl, key_mk, key_fold, key_ite, ite_self, modReq_key, setReg_key, latch_key, replyReq_key, setStage_key, step4_key, countHeader_key]; done) | fail
@[simp] theorem poisonFetch_key (s) (r) : key (poisonFetch s r) = key s := by simp only [poisonFetch, key_mk, key_fold, key_ite, ite_self, replyReq_key]
@[simp] theorem lookup_key (s) (r) : key (lookup s r) = key s := by unfold lookup; (try dsimp only); (repeat' split) <;> first | with_reducible rfl | (simp only [key_mk, key_fold, key_ite, ite_self, modReq_key, replyReq_key, hdlTouch_key, hdlFetch_key, setStage_key, step2_key, poisonFetch_key]; done) | (simp (disch := (intros; first | with_reducible rfl | (simp only [key_mk, key_fold, key_ite, ite_self, modReq_key, replyReq_key, hdlTouch_key, hdlFetch_key, setStage_key, step2_key, poisonFetch_key]; done) | ((repeat' split) <;> first | with_reducible rfl | (simp only [key_mk, key_fold, key_ite, ite_self, modReq_key, replyReq_key, hdlTouch_key, hdlFetch_key, setStage_key, step2_key, poisonFetch_key]; done) | fail) | fail)) only [key_foldl, key_mk, key_fold, key_ite, ite_self, modReq_key, replyReq_key, hdlTouch_key, hdlFetch_key, setStage_key, step2_key, poisonFetch_key]; done) | fail
@[simp] theorem goOn_key (s) (id) : key (goOn s id) = key s := by unfold goOn; (try dsimp only); (repeat' split) <;> first | with_reducible rfl | (simp only [key_mk, key_fold, key_ite, ite_self, step4_key, lookup_key]; done) | fail
@[simp] theorem pump_key (s) (p) : key (pump s p) = key s := by simp (disch := (intros; first | with_reducible rfl | (simp only [key_mk, key_fold, key_ite, ite_self, goOn_key]; done) | ((repeat' split) <;> first | with_reducible rfl | (simp only [key_mk, key_fold, key_ite, ite_self, goOn_key]; done) | fail) | fail)) only [pump, key_foldl, key_mk, key_fold, key_ite, ite_self, goOn_key]
@[simp] theorem pumpAll_key (s) : key (pumpAll s) = key s := by simp (disch := (intros; first | with_reducible rfl | (simp only [key_mk, key_fold, key_ite, ite_self, forN_key, hdlOpRun_key, pump_key]; done) | ((repeat' split) <;> first | with_reducible rfl | (simp only [key_mk, key_fold, key_ite, ite_self, forN_key, hdlOpRun_key, pump_key]; done) | fail) | fail)) only [pumpAll, key_foldl, key_mk, key_fold, key_ite, ite_self, forN_key, hdlOpRun_key, pump_key]
@[simp] theorem judgeNow_key (s) (id) : key (judgeNow s id) = key s := by unfold judgeNow; (try dsimp only); (repeat' split) <;> first | with_reducible rfl | (simp only [key_mk, key_fold, key_ite, ite_self, replyReq_key, setStage_key, lookup_key]; done) | fail
@[simp] theorem judge_key (s) (id) : key (judge s id) = key s := by simp (disch := (intros; first | with_reducible rfl | (simp only [key_mk, key_fold, key_ite, ite_self, modReq_key, judgeNow_key]; done) | ((repeat' split) <;> first | with_reducible rfl | (simp only [key_mk, key_fold, key_ite, ite_self, modReq_key, judgeNow_key]; done) | fail) | fail)) only [judge, key_foldl, key_mk, key_fold, key_ite, ite_self, modReq_key, judgeNow_key]
@[simp] theorem doHcmt_key (s) (r) (dl) : key (doHcmt s r dl) = key s := by simp only [doHcmt, key_mk, key_fold, key_ite, ite_self, hdlWriteThrough_key]
@[simp] theorem doHrbk_key (s) (r) (dl) : key (doHrbk s r dl) = key s := by simp (disch := (intros; first | with_reducible rfl | (simp only [key_mk, key_fold, key_ite, ite_self, enqueue_key, hdlWriteThrough_key, vaultWrites_key]; done) | ((repeat' split) <;> first | with_reducible rfl | (simp only [key_mk, key_fold, key_ite, ite_self, enqueue_key, hdlWriteThrough_key, vaultWrites_key]; done) | fail) | fail)) only [doHrbk, key_foldl, key_mk, key_fold, key_ite, ite_self, enqueue_key, hdlWriteThrough_key, vaultWrites_key]
@[simp] theorem handleEffect_key (s) (r) : key (handleEffect s r) = key s := by unfold handleEffect; (try dsimp only); (repeat' split) <;> first | with_reducible rfl | (simp only [key_mk, key_fold, key_ite, ite_self, modReq_key, evPort_key, modPort_key, replyReq_key, hdlRelease_key, doHcmt_key, doHrbk_key]; done) | (simp (disch := (intros; first | with_reducible rfl | (simp only [key_mk, key_fold, key_ite, ite_self, modReq_key, evPort_key, modPort_key, replyReq_key, hdlRelease_key, doHcmt_key, doHrbk_key]; done) | ((repeat' split) <;> first | with_reducible rfl | (simp only [key_mk, key_fold, key_ite, ite_self, modReq_key, evPort_key, modPort_key, replyReq_key, hdlRelease_key, doHcmt_key, doHrbk_key]; done) | fail) | fail)) only [key_foldl, key_mk, key_fold, key_ite, ite_self, modReq_key, evPort_key, modPort_key, replyReq_key, hdlRelease_key, doHcmt_key, doHrbk_key]; done) | fail
@[simp] theorem handlesDone_key (s) : key (handlesDone s) = key s := by simp (disch := (intros; first | with_reducible rfl | (simp only [key_mk, key_fold, key_ite, ite_self, replyReq_key, pumpAll_key]; done) | ((repeat' split) <;> first | with_reducible rfl | (simp only [key_mk, key_fold, key_ite, ite_self, replyReq_key, pumpAll_key]; done) | fail) | fail)) only [handlesDone, key_foldl, key_mk, key_fold, key_ite, ite_self, replyReq_key, pumpAll_key]
@[simp] theorem sampleStore_key (s) (b) : key (sampleStore s b) = key s := by simp (disch := (intros; first | with_reducible rfl | (simp only [key_mk, key_fold, key_ite, ite_self, bumpReg_key, latch_key]; done) | ((repeat' split) <;> first | with_reducible rfl | (simp only [key_mk, key_fold, key_ite, ite_self, bumpReg_key, latch_key]; done) | fail) | fail)) only [sampleStore, key_foldl, key_mk, key_fold, key_ite, ite_self, bumpReg_key, latch_key]
@[simp] theorem firstBeat_key (s) (p) (q) (attn) : key (firstBeat s p q attn) = key s := by unfold firstBeat; (try dsimp only); (repeat' split) <;> first | with_reducible rfl | (simp only [key_mk, key_fold, key_ite, ite_self, evPort_key, modPort_key, dueNow_key, sampleStore_key]; done) | (simp (disch := (intros; first | with_reducible rfl | (simp only [key_mk, key_fold, key_ite, ite_self, evPort_key, modPort_key, dueNow_key, sampleStore_key]; done) | ((repeat' split) <;> first | with_reducible rfl | (simp only [key_mk, key_fold, key_ite, ite_self, evPort_key, modPort_key, dueNow_key, sampleStore_key]; done) | fail) | fail)) only [key_foldl, key_mk, key_fold, key_ite, ite_self, evPort_key, modPort_key, dueNow_key, sampleStore_key]; done) | fail
@[simp] theorem spend_key (s) (c) (w) : key (spend s c w) = key s := by simp (disch := (intros; first | with_reducible rfl | (simp only [key_mk, key_fold, key_ite, ite_self, modChan_key]; done) | ((repeat' split) <;> first | with_reducible rfl | (simp only [key_mk, key_fold, key_ite, ite_self, modChan_key]; done) | fail) | fail)) only [spend, key_foldl, key_mk, key_fold, key_ite, ite_self, modChan_key]
@[simp] theorem noteAct_key (s) (c) (b) : key (noteAct s c b) = key s := by simp (disch := (intros; first | with_reducible rfl | (simp only [key_mk, key_fold, key_ite, ite_self, modChan_key]; done) | ((repeat' split) <;> first | with_reducible rfl | (simp only [key_mk, key_fold, key_ite, ite_self, modChan_key]; done) | fail) | fail)) only [noteAct, key_foldl, key_mk, key_fold, key_ite, ite_self, modChan_key]
@[simp] theorem progressed_key (s) (c) : key (progressed s c) = key s := by simp (disch := (intros; first | with_reducible rfl | (simp only [key_mk, key_fold, key_ite, ite_self, modChan_key]; done) | ((repeat' split) <;> first | with_reducible rfl | (simp only [key_mk, key_fold, key_ite, ite_self, modChan_key]; done) | fail) | fail)) only [progressed, key_foldl, key_mk, key_fold, key_ite, ite_self, modChan_key]
@[simp] theorem issueAct_key (s) (ci) (b) (h) (e) : key (issueAct s ci b h e) = key s := by unfold issueAct; (try dsimp only); (repeat' split) <;> first | with_reducible rfl | (simp only [key_mk, key_fold, key_ite, ite_self, setChan_key, evCh_key, sendRow_key, spend_key, noteAct_key]; done) | fail
@[simp] theorem issuePre_key (s) (ci) (b) (hs) : key (issuePre s ci b hs) = key s := by simp (disch := (intros; first | with_reducible rfl | (simp only [key_mk, key_fold, key_ite, ite_self, modChan_key, evCh_key, sendRow_key]; done) | ((repeat' split) <;> first | with_reducible rfl | (simp only [key_mk, key_fold, key_ite, ite_self, modChan_key, evCh_key, sendRow_key]; done) | fail) | fail)) only [issuePre, key_foldl, key_mk, key_fold, key_ite, ite_self, modChan_key, evCh_key, sendRow_key]
@[simp] theorem issueRef_key (s) (ci) (b) : key (issueRef s ci b) = key s := by simp (disch := (intros; first | with_reducible rfl | (simp only [key_mk, key_fold, key_ite, ite_self, modChan_key, evCh_key, sendRow_key, spend_key, noteAct_key, progressed_key]; done) | ((repeat' split) <;> first | with_reducible rfl | (simp only [key_mk, key_fold, key_ite, ite_self, modChan_key, evCh_key, sendRow_key, spend_key, noteAct_key, progressed_key]; done) | fail) | fail)) only [issueRef, key_foldl, key_mk, key_fold, key_ite, ite_self, modChan_key, evCh_key, sendRow_key, spend_key, noteAct_key, progressed_key]
@[simp] theorem issueNrf_key (s) (ci) (q) : key (issueNrf s ci q) = key s := by simp (disch := (intros; first | with_reducible rfl | (simp only [key_mk, key_fold, key_ite, ite_self, modChan_key, bumpReg_key, evCh_key, sendRow_key, spend_key, noteAct_key, progressed_key]; done) | ((repeat' split) <;> first | with_reducible rfl | (simp only [key_mk, key_fold, key_ite, ite_self, modChan_key, bumpReg_key, evCh_key, sendRow_key, spend_key, noteAct_key, progressed_key]; done) | fail) | fail)) only [issueNrf, key_foldl, key_mk, key_fold, key_ite, ite_self, modChan_key, bumpReg_key, evCh_key, sendRow_key, spend_key, noteAct_key, progressed_key]
@[simp] theorem issueSlp_key (s) (ci) (ctx) (b) : key (issueSlp s ci ctx b) = key s := by unfold issueSlp; (try dsimp only); (repeat' split) <;> first | with_reducible rfl | (simp only [key_mk, key_fold, key_ite, ite_self, modChan_key, sendRow_key]; done) | (simp (disch := (intros; first | with_reducible rfl | (simp only [key_mk, key_fold, key_ite, ite_self, modChan_key, sendRow_key]; done) | ((repeat' split) <;> first | with_reducible rfl | (simp only [key_mk, key_fold, key_ite, ite_self, modChan_key, sendRow_key]; done) | fail) | fail)) only [key_foldl, key_mk, key_fold, key_ite, ite_self, modChan_key, sendRow_key]; done) | fail
@[simp] theorem closeHalves_key (s) (ci) (b) (h) (rest) : key (closeHalves s ci b h rest) = key s := by simp only [closeHalves, key_mk, key_fold, key_ite, ite_self, issuePre_key]
theorem gauntletSlot_key (s) (ci) (c) (t) (h : gauntletSlot s ci c = some t) : key t = key s := by
  revert h; unfold gauntletSlot
  (repeat' split) <;> intro h <;> simp only [Option.some.injEq, reduceCtorEq] at h <;>
    (subst h; simp only [issueSlp_key, issueRef_key, closeHalves_key])
@[simp] theorem commandSlot_key (s) (ci) : key (commandSlot s ci) = key s := by
  unfold commandSlot; dsimp only
  split
  · rfl
  · split
    · rename_i h; exact gauntletSlot_key _ _ _ _ h
    · (repeat' split) <;> first | with_reducible rfl | simp only [issueNrf_key, issueRef_key, closeHalves_key, issueAct_key]
@[simp] theorem refreshDue_key (s) (ci) (b) : key (refreshDue s ci b) = key s := by simp only [refreshDue, key_mk, key_fold, key_ite, ite_self, setChan_key, bumpReg_key, evCh_key]
@[simp] theorem serveFrom_key (s) (e) : key (serveFrom s e) = key s := by unfold serveFrom; (try dsimp only); (repeat' split) <;> first | with_reducible rfl | (simp only [key_mk, key_fold, key_ite, ite_self, deliver_key]; done) | (simp (disch := (intros; first | with_reducible rfl | (simp only [key_mk, key_fold, key_ite, ite_self, deliver_key]; done) | ((repeat' split) <;> first | with_reducible rfl | (simp only [key_mk, key_fold, key_ite, ite_self, deliver_key]; done) | fail) | fail)) only [key_foldl, key_mk, key_fold, key_ite, ite_self, deliver_key]; done) | fail
@[simp] theorem flushServed_key (s) (ci) : key (flushServed s ci) = key s := by simp (disch := (intros; first | with_reducible rfl | (simp only [key_mk, key_fold, key_ite, ite_self, modChan_key, serveFrom_key]; done) | ((repeat' split) <;> first | with_reducible rfl | (simp only [key_mk, key_fold, key_ite, ite_self, modChan_key, serveFrom_key]; done) | fail) | fail)) only [flushServed, key_foldl, key_mk, key_fold, key_ite, ite_self, modChan_key, serveFrom_key]
@[simp] theorem serveFenced_key (s) (e) : key (serveFenced s e) = key s := by simp (disch := (intros; first | with_reducible rfl | (simp only [key_mk, key_fold, key_ite, ite_self, deliver_key]; done) | ((repeat' split) <;> first | with_reducible rfl | (simp only [key_mk, key_fold, key_ite, ite_self, deliver_key]; done) | fail) | fail)) only [serveFenced, key_foldl, key_mk, key_fold, key_ite, ite_self, deliver_key]
@[simp] theorem joinRead_key (s) (e) : key (joinRead s e) = key s := by simp (disch := (intros; first | with_reducible rfl | (simp only [key_mk, key_fold, key_ite, ite_self, modChan_key, evCh_key, flushServed_key, serveFenced_key]; done) | ((repeat' split) <;> first | with_reducible rfl | (simp only [key_mk, key_fold, key_ite, ite_self, modChan_key, evCh_key, flushServed_key, serveFenced_key]; done) | fail) | fail)) only [joinRead, key_foldl, key_mk, key_fold, key_ite, ite_self, modChan_key, evCh_key, flushServed_key, serveFenced_key]
@[simp] theorem dropFenced_key (s) (e) : key (dropFenced s e) = key s := by unfold dropFenced; (try dsimp only); (repeat' split) <;> first | with_reducible rfl | (simp only [key_mk, key_fold, key_ite, ite_self, partsDone_key, poisonReq_key]; done) | fail
@[simp] theorem joinPartial_key (s) (e) : key (joinPartial s e) = key s := by unfold joinPartial; (try dsimp only); (repeat' split) <;> first | with_reducible rfl | (simp only [key_mk, key_fold, key_ite, ite_self, modChan_key, partsDone_key, pieceJoined_key, linerMerge_key, evictPending_key]; done) | (simp (disch := (intros; first | with_reducible rfl | (simp only [key_mk, key_fold, key_ite, ite_self, modChan_key, partsDone_key, pieceJoined_key, linerMerge_key, evictPending_key]; done) | ((repeat' split) <;> first | with_reducible rfl | (simp only [key_mk, key_fold, key_ite, ite_self, modChan_key, partsDone_key, pieceJoined_key, linerMerge_key, evictPending_key]; done) | fail) | fail)) only [key_foldl, key_mk, key_fold, key_ite, ite_self, modChan_key, partsDone_key, pieceJoined_key, linerMerge_key, evictPending_key]; done) | fail
@[simp] theorem joinWhole_key (s) (e) : key (joinWhole s e) = key s := by unfold joinWhole; (try dsimp only); (repeat' split) <;> first | with_reducible rfl | (simp only [key_mk, key_fold, key_ite, ite_self, setChan_key, linerPressure_key]; done) | (simp (disch := (intros; first | with_reducible rfl | (simp only [key_mk, key_fold, key_ite, ite_self, setChan_key, linerPressure_key]; done) | ((repeat' split) <;> first | with_reducible rfl | (simp only [key_mk, key_fold, key_ite, ite_self, setChan_key, linerPressure_key]; done) | fail) | fail)) only [key_foldl, key_mk, key_fold, key_ite, ite_self, setChan_key, linerPressure_key]; done) | fail
@[simp] theorem madeVisible_key (s) (e) : key (madeVisible s e) = key s := by unfold madeVisible; (try dsimp only); (repeat' split) <;> first | with_reducible rfl | (simp only [key_mk, key_fold, key_ite, ite_self, modChan_key, partsDone_key, pieceJoined_key, drainJoined_key]; done) | (simp (disch := (intros; first | with_reducible rfl | (simp only [key_mk, key_fold, key_ite, ite_self, modChan_key, partsDone_key, pieceJoined_key, drainJoined_key]; done) | ((repeat' split) <;> first | with_reducible rfl | (simp only [key_mk, key_fold, key_ite, ite_self, modChan_key, partsDone_key, pieceJoined_key, drainJoined_key]; done) | fail) | fail)) only [key_foldl, key_mk, key_fold, key_ite, ite_self, modChan_key, partsDone_key, pieceJoined_key, drainJoined_key]; done) | fail
@[simp] theorem joinWrite_key (s) (e) : key (joinWrite s e) = key s := by simp (disch := (intros; first | with_reducible rfl | (simp only [key_mk, key_fold, key_ite, ite_self, modChan_key, bumpReg_key, dropFenced_key, joinPartial_key, joinWhole_key, madeVisible_key]; done) | ((repeat' split) <;> first | with_reducible rfl | (simp only [key_mk, key_fold, key_ite, ite_self, modChan_key, bumpReg_key, dropFenced_key, joinPartial_key, joinWhole_key, madeVisible_key]; done) | fail) | fail)) only [joinWrite, key_foldl, key_mk, key_fold, key_ite, ite_self, modChan_key, bumpReg_key, dropFenced_key, joinPartial_key, joinWhole_key, madeVisible_key]
@[simp] theorem hdlWake_key (s) (e) : key (hdlWake s e) = key s := by unfold hdlWake; (try dsimp only); (repeat' split) <;> first | with_reducible rfl | (simp only [key_mk, key_fold, key_ite, ite_self, hdlEvict_key, settleBad_key, hdlOpRun_key, pumpAll_key]; done) | fail
@[simp] theorem joinNext_key (s) (ci) : key (joinNext s ci) = key s := by unfold joinNext; (try dsimp only); (repeat' split) <;> first | with_reducible rfl | (simp only [key_mk, key_fold, key_ite, ite_self, setChan_key, handlesDone_key, joinRead_key, joinWrite_key, hdlWake_key]; done) | fail
@[simp] theorem linerParity_key (s) (l) : key (linerParity s l) = key s := by unfold linerParity; (try dsimp only); (repeat' split) <;> first | with_reducible rfl | (simp only [key_mk, key_fold, key_ite, ite_self, partsDone_key, poisonReq_key, addParity_key]; done) | fail
@[simp] theorem linerJoin_key (s) (ci) : key (linerJoin s ci) = key s := by unfold linerJoin; (try dsimp only); (repeat' split) <;> first | with_reducible rfl | (simp only [key_mk, key_fold, key_ite, ite_self, setChan_key, evict_key, linerPressure_key, linerParity_key]; done) | (simp (disch := (intros; first | with_reducible rfl | (simp only [key_mk, key_fold, key_ite, ite_self, setChan_key, evict_key, linerPressure_key, linerParity_key]; done) | ((repeat' split) <;> first | with_reducible rfl | (simp only [key_mk, key_fold, key_ite, ite_self, setChan_key, evict_key, linerPressure_key, linerParity_key]; done) | fail) | fail)) only [key_foldl, key_mk, key_fold, key_ite, ite_self, setChan_key, evict_key, linerPressure_key, linerParity_key]; done) | fail
@[simp] theorem evictionReturn_key (s) (ci) : key (evictionReturn s ci) = key s := by unfold evictionReturn; (try dsimp only); (repeat' split) <;> first | with_reducible rfl | (simp only [key_mk, key_fold, key_ite, ite_self, modChan_key, latch_key, logEv_key]; done) | (simp (disch := (intros; first | with_reducible rfl | (simp only [key_mk, key_fold, key_ite, ite_self, modChan_key, latch_key, logEv_key]; done) | ((repeat' split) <;> first | with_reducible rfl | (simp only [key_mk, key_fold, key_ite, ite_self, modChan_key, latch_key, logEv_key]; done) | fail) | fail)) only [key_foldl, key_mk, key_fold, key_ite, ite_self, modChan_key, latch_key, logEv_key]; done) | fail
@[simp] theorem linerAge_key (s) (ci) : key (linerAge s ci) = key s := by unfold linerAge; (try dsimp only); (repeat' split) <;> first | with_reducible rfl | (simp only [key_mk, key_fold, key_ite, ite_self, evict_key]; done) | (simp (disch := (intros; first | with_reducible rfl | (simp only [key_mk, key_fold, key_ite, ite_self, evict_key]; done) | ((repeat' split) <;> first | with_reducible rfl | (simp only [key_mk, key_fold, key_ite, ite_self, evict_key]; done) | fail) | fail)) only [key_foldl, key_mk, key_fold, key_ite, ite_self, evict_key]; done) | fail
@[simp] theorem restartWindows_key (s) : key (restartWindows s) = key s := by simp (disch := (intros; first | with_reducible rfl | (simp only [key_mk, key_fold, key_ite, ite_self]; done) | ((repeat' split) <;> first | with_reducible rfl | (simp only [key_mk, key_fold, key_ite, ite_self]; done) | fail) | fail)) only [restartWindows, key_foldl, key_mk, key_fold, key_ite, ite_self]
@[simp] theorem putCol_key (s) (ci) (t) (i) (f) : key (putCol s ci t i f) = key s := by unfold putCol; (try dsimp only); (repeat' split) <;> first | with_reducible rfl | (simp only [key_mk, key_fold, key_ite, ite_self, modChan_key]; done) | (simp (disch := (intros; first | with_reducible rfl | (simp only [key_mk, key_fold, key_ite, ite_self, modChan_key]; done) | ((repeat' split) <;> first | with_reducible rfl | (simp only [key_mk, key_fold, key_ite, ite_self, modChan_key]; done) | fail) | fail)) only [key_foldl, key_mk, key_fold, key_ite, ite_self, modChan_key]; done) | fail
@[simp] theorem sendProbe_key (s) (ci) : key (sendProbe s ci) = key s := by simp (disch := (intros; first | with_reducible rfl | (simp only [key_mk, key_fold, key_ite, ite_self, modChan_key, spend_key, putCol_key]; done) | ((repeat' split) <;> first | with_reducible rfl | (simp only [key_mk, key_fold, key_ite, ite_self, modChan_key, spend_key, putCol_key]; done) | fail) | fail)) only [sendProbe, key_foldl, key_mk, key_fold, key_ite, ite_self, modChan_key, spend_key, putCol_key]
@[simp] theorem emptySlot_key (s) (ci) : key (emptySlot s ci) = key s := by simp (disch := (intros; first | with_reducible rfl | (simp only [key_mk, key_fold, key_ite, ite_self, modChan_key, evCh_key, sendProbe_key]; done) | ((repeat' split) <;> first | with_reducible rfl | (simp only [key_mk, key_fold, key_ite, ite_self, modChan_key, evCh_key, sendProbe_key]; done) | fail) | fail)) only [emptySlot, key_foldl, key_mk, key_fold, key_ite, ite_self, modChan_key, evCh_key, sendProbe_key]
@[simp] theorem decideReplay_key (s) (ci) (e) : key (decideReplay s ci e) = key s := by simp (disch := (intros; first | with_reducible rfl | (simp only [key_mk, key_fold, key_ite, ite_self, modChan_key]; done) | ((repeat' split) <;> first | with_reducible rfl | (simp only [key_mk, key_fold, key_ite, ite_self, modChan_key]; done) | fail) | fail)) only [decideReplay, key_foldl, key_mk, key_fold, key_ite, ite_self, modChan_key]
@[simp] theorem decideQueue_key (s) (ci) (a) (i) : key (decideQueue s ci a i) = key s := by unfold decideQueue; (try dsimp only); (repeat' split) <;> first | with_reducible rfl | (simp only [key_mk, key_fold, key_ite, ite_self, modChan_key, evCh_key, emptySlot_key]; done) | (simp (disch := (intros; first | with_reducible rfl | (simp only [key_mk, key_fold, key_ite, ite_self, modChan_key, evCh_key, emptySlot_key]; done) | ((repeat' split) <;> first | with_reducible rfl | (simp only [key_mk, key_fold, key_ite, ite_self, modChan_key, evCh_key, emptySlot_key]; done) | fail) | fail)) only [key_foldl, key_mk, key_fold, key_ite, ite_self, modChan_key, evCh_key, emptySlot_key]; done) | fail
@[simp] theorem decideSlot_key (s) (ci) : key (decideSlot s ci) = key s := by unfold decideSlot; (try dsimp only); (repeat' split) <;> first | with_reducible rfl | (simp only [key_mk, key_fold, key_ite, ite_self, setChan_key, decideReplay_key, decideQueue_key]; done) | fail
@[simp] theorem inject_key (s) (ci) (d) : key (inject s ci d).2 = key s := by unfold inject; (try dsimp only); (repeat' split) <;> first | with_reducible rfl | (simp only [key_mk, key_fold, key_ite, ite_self, setRegF_key]; done) | (simp (disch := (intros; first | with_reducible rfl | (simp only [key_mk, key_fold, key_ite, ite_self, setRegF_key]; done) | ((repeat' split) <;> first | with_reducible rfl | (simp only [key_mk, key_fold, key_ite, ite_self, setRegF_key]; done) | fail) | fail)) only [key_foldl, key_mk, key_fold, key_ite, ite_self, setRegF_key]; done) | fail
@[simp] theorem remapVerify_key (s) : key (remapVerify s) = key s := by unfold remapVerify; (try dsimp only); (repeat' split) <;> first | with_reducible rfl | (simp only [key_mk, key_fold, key_ite, ite_self, enqueueAll_key]; done) | (simp (disch := (intros; first | with_reducible rfl | (simp only [key_mk, key_fold, key_ite, ite_self, enqueueAll_key]; done) | ((repeat' split) <;> first | with_reducible rfl | (simp only [key_mk, key_fold, key_ite, ite_self, enqueueAll_key]; done) | fail) | fail)) only [key_foldl, key_mk, key_fold, key_ite, ite_self, enqueueAll_key]; done) | fail
@[simp] theorem sendWrite_key (s) (ci) (e) (p) (d) (auto) : key (sendWrite s ci e p d auto) = key s := by unfold sendWrite; (try dsimp only); (repeat' split) <;> first | with_reducible rfl | (simp only [key_mk, key_fold, key_ite, ite_self, modChan_key, queueVerify_key, putCol_key, inject_key, remapVerify_key]; done) | (simp (disch := (intros; first | with_reducible rfl | (simp only [key_mk, key_fold, key_ite, ite_self, modChan_key, queueVerify_key, putCol_key, inject_key, remapVerify_key]; done) | ((repeat' split) <;> first | with_reducible rfl | (simp only [key_mk, key_fold, key_ite, ite_self, modChan_key, queueVerify_key, putCol_key, inject_key, remapVerify_key]; done) | fail) | fail)) only [key_foldl, key_mk, key_fold, key_ite, ite_self, modChan_key, queueVerify_key, putCol_key, inject_key, remapVerify_key]; done) | fail
@[simp] theorem sendRead_key (s) (ci) (e) (p) (auto) : key (sendRead s ci e p auto) = key s := by unfold sendRead; (try dsimp only); (repeat' split) <;> first | with_reducible rfl | (simp only [key_mk, key_fold, key_ite, ite_self, putCol_key]; done) | (simp (disch := (intros; first | with_reducible rfl | (simp only [key_mk, key_fold, key_ite, ite_self, putCol_key]; done) | ((repeat' split) <;> first | with_reducible rfl | (simp only [key_mk, key_fold, key_ite, ite_self, putCol_key]; done) | fail) | fail)) only [key_foldl, key_mk, key_fold, key_ite, ite_self, putCol_key]; done) | fail
@[simp] theorem touchHalf_key (s) (ci) (p) (write) (auto) : key (touchHalf s ci p write auto) = key s := by simp (disch := (intros; first | with_reducible rfl | (simp only [key_mk, key_fold, key_ite, ite_self, modChan_key, evCh_key]; done) | ((repeat' split) <;> first | with_reducible rfl | (simp only [key_mk, key_fold, key_ite, ite_self, modChan_key, evCh_key]; done) | fail) | fail)) only [touchHalf, key_foldl, key_mk, key_fold, key_ite, ite_self, modChan_key, evCh_key]
@[simp] theorem countGrant_key (s) (ci) (e) (group) : key (countGrant s ci e group) = key s := by simp only [countGrant, key_mk, key_fold, key_ite, ite_self, setChan_key, evCh_key, spend_key]
@[simp] theorem startGrant_key (s) (ci) (e) : key (startGrant s ci e) = key s := by unfold startGrant; (try dsimp only); (repeat' split) <;> first | with_reducible rfl | (simp only [key_mk, key_fold, key_ite, ite_self, modChan_key, serveFrom_key, sendWrite_key, sendRead_key, touchHalf_key, countGrant_key]; done) | (simp (disch := (intros; first | with_reducible rfl | (simp only [key_mk, key_fold, key_ite, ite_self, modChan_key, serveFrom_key, sendWrite_key, sendRead_key, touchHalf_key, countGrant_key]; done) | ((repeat' split) <;> first | with_reducible rfl | (simp only [key_mk, key_fold, key_ite, ite_self, modChan_key, serveFrom_key, sendWrite_key, sendRead_key, touchHalf_key, countGrant_key]; done) | fail) | fail)) only [key_foldl, key_mk, key_fold, key_ite, ite_self, modChan_key, serveFrom_key, sendWrite_key, sendRead_key, touchHalf_key, countGrant_key]; done) | fail
@[simp] theorem startSlots_key (s) : key (startSlots s) = key s := by unfold startSlots; (try dsimp only); (repeat' split) <;> first | with_reducible rfl | (simp only [key_mk, key_fold, key_ite, ite_self, startGrant_key]; done) | (simp (disch := (intros; first | with_reducible rfl | (simp only [key_mk, key_fold, key_ite, ite_self, startGrant_key]; done) | ((repeat' split) <;> first | with_reducible rfl | (simp only [key_mk, key_fold, key_ite, ite_self, startGrant_key]; done) | fail) | fail)) only [key_foldl, key_mk, key_fold, key_ite, ite_self, startGrant_key]; done) | fail
@[simp] theorem statusBurst_key (s) (ci) (ctx) (o) (d) : key (statusBurst s ci ctx o d) = key s := by unfold statusBurst; (try dsimp only); (repeat' split) <;> first | with_reducible rfl | (simp only [key_mk, key_fold, key_ite, ite_self, modChan_key, enqueueAll_key]; done) | (simp (disch := (intros; first | with_reducible rfl | (simp only [key_mk, key_fold, key_ite, ite_self, modChan_key, enqueueAll_key]; done) | ((repeat' split) <;> first | with_reducible rfl | (simp only [key_mk, key_fold, key_ite, ite_self, modChan_key, enqueueAll_key]; done) | fail) | fail)) only [key_foldl, key_mk, key_fold, key_ite, ite_self, modChan_key, enqueueAll_key]; done) | fail
@[simp] theorem verifyResult_key (s) (ci) : key (verifyResult s ci) = key s := by unfold verifyResult; (try dsimp only); (repeat' split) <;> first | with_reducible rfl | (simp only [key_mk, key_fold, key_ite, ite_self, modChan_key, ceRise_key, noteUe_key, rowFailure_key, startReconOf_key]; done) | (simp (disch := (intros; first | with_reducible rfl | (simp only [key_mk, key_fold, key_ite, ite_self, modChan_key, ceRise_key, noteUe_key, rowFailure_key, startReconOf_key]; done) | ((repeat' split) <;> first | with_reducible rfl | (simp only [key_mk, key_fold, key_ite, ite_self, modChan_key, ceRise_key, noteUe_key, rowFailure_key, startReconOf_key]; done) | fail) | fail)) only [key_foldl, key_mk, key_fold, key_ite, ite_self, modChan_key, ceRise_key, noteUe_key, rowFailure_key, startReconOf_key]; done) | fail
@[simp] theorem applyArb_key (s) : key (applyArb s) = key s := by unfold applyArb; (try dsimp only); (repeat' split) <;> first | with_reducible rfl | (simp only [key_mk, key_fold, key_ite, ite_self, setReg_key, finishReq_key, commitCount_key]; done) | fail
@[simp] theorem calReads_key (s) (c) : key (calReads s c) = key s := by simp (disch := (intros; first | with_reducible rfl | (simp only [key_mk, key_fold, key_ite, ite_self, modChan_key, enqueue_key]; done) | ((repeat' split) <;> first | with_reducible rfl | (simp only [key_mk, key_fold, key_ite, ite_self, modChan_key, enqueue_key]; done) | fail) | fail)) only [calReads, key_foldl, key_mk, key_fold, key_ite, ite_self, modChan_key, enqueue_key]
@[simp] theorem resumeSlice_key (s) (ci) (b) : key (resumeSlice s ci b) = key s := by unfold resumeSlice; (try dsimp only); (repeat' split) <;> first | with_reducible rfl | (simp only [key_mk, key_fold, key_ite, ite_self, setChan_key, sendRow_key]; done) | (simp (disch := (intros; first | with_reducible rfl | (simp only [key_mk, key_fold, key_ite, ite_self, setChan_key, sendRow_key]; done) | ((repeat' split) <;> first | with_reducible rfl | (simp only [key_mk, key_fold, key_ite, ite_self, setChan_key, sendRow_key]; done) | fail) | fail)) only [key_foldl, key_mk, key_fold, key_ite, ite_self, setChan_key, sendRow_key]; done) | fail
@[simp] theorem putOp_key (s) (d) (x) : key (putOp s d x) = key s := by simp only [putOp, key_mk, key_fold, key_ite, ite_self]
@[simp] theorem modOpChan_key (s) (d) (c) (f : OpChan → OpChan) : key (modOpChan s d c f) = key s := by unfold modOpChan; (try dsimp only); (repeat' split) <;> first | with_reducible rfl | (simp only [key_mk, key_fold, key_ite, ite_self, putOp_key]; done) | fail
@[simp] theorem cancelLate_key (s) (d) : key (cancelLate s d) = key s := by simp only [cancelLate, key_mk, key_fold, key_ite, ite_self, opStopped_key, opStop_key]
@[simp] theorem copyStart_key (s) (d) (c) : key (copyStart s d c) = key s := by unfold copyStart; (try dsimp only); (repeat' split) <;> first | with_reducible rfl | (simp only [key_mk, key_fold, key_ite, ite_self, enqueueAll_key, modOpChan_key, cancelLate_key]; done) | (simp (disch := (intros; first | with_reducible rfl | (simp only [key_mk, key_fold, key_ite, ite_self, enqueueAll_key, modOpChan_key, cancelLate_key]; done) | ((repeat' split) <;> first | with_reducible rfl | (simp only [key_mk, key_fold, key_ite, ite_self, enqueueAll_key, modOpChan_key, cancelLate_key]; done) | fail) | fail)) only [key_foldl, key_mk, key_fold, key_ite, ite_self, enqueueAll_key, modOpChan_key, cancelLate_key]; done) | fail
@[simp] theorem fillCtx_key (s) (c) : key (fillCtx s c) = key s := by unfold fillCtx; (try dsimp only); (repeat' split) <;> first | with_reducible rfl | (simp only [key_mk, key_fold, key_ite, ite_self, modChan_key, modStk_key, enqueueAll_key, evictPending_key]; done) | (simp (disch := (intros; first | with_reducible rfl | (simp only [key_mk, key_fold, key_ite, ite_self, modChan_key, modStk_key, enqueueAll_key, evictPending_key]; done) | ((repeat' split) <;> first | with_reducible rfl | (simp only [key_mk, key_fold, key_ite, ite_self, modChan_key, modStk_key, enqueueAll_key, evictPending_key]; done) | fail) | fail)) only [key_foldl, key_mk, key_fold, key_ite, ite_self, modChan_key, modStk_key, enqueueAll_key, evictPending_key]; done) | fail
@[simp] theorem sliceTake_key (s) (c) : key (sliceTake s c) = key s := by unfold sliceTake; (try dsimp only); (repeat' split) <;> first | with_reducible rfl | (simp only [key_mk, key_fold, key_ite, ite_self, setChan_key, modOpChan_key, fillCtx_key]; done) | (simp (disch := (intros; first | with_reducible rfl | (simp only [key_mk, key_fold, key_ite, ite_self, setChan_key, modOpChan_key, fillCtx_key]; done) | ((repeat' split) <;> first | with_reducible rfl | (simp only [key_mk, key_fold, key_ite, ite_self, setChan_key, modOpChan_key, fillCtx_key]; done) | fail) | fail)) only [key_foldl, key_mk, key_fold, key_ite, ite_self, setChan_key, modOpChan_key, fillCtx_key]; done) | fail
@[simp] theorem sliceStart_key (s) (ci) : key (sliceStart s ci) = key s := by unfold sliceStart; (try dsimp only); (repeat' split) <;> first | with_reducible rfl | (simp only [key_mk, key_fold, key_ite, ite_self, setChan_key, modReq_key, evOct_key, sendRow_key, spend_key, cancelLate_key, fillCtx_key]; done) | (simp (disch := (intros; first | with_reducible rfl | (simp only [key_mk, key_fold, key_ite, ite_self, setChan_key, modReq_key, evOct_key, sendRow_key, spend_key, cancelLate_key, fillCtx_key]; done) | ((repeat' split) <;> first | with_reducible rfl | (simp only [key_mk, key_fold, key_ite, ite_self, setChan_key, modReq_key, evOct_key, sendRow_key, spend_key, cancelLate_key, fillCtx_key]; done) | fail) | fail)) only [key_foldl, key_mk, key_fold, key_ite, ite_self, setChan_key, modReq_key, evOct_key, sendRow_key, spend_key, cancelLate_key, fillCtx_key]; done) | fail
@[simp] theorem slicePoll_key (s) (ci) (ctx) : key (slicePoll s ci ctx) = key s := by unfold slicePoll; (try dsimp only); (repeat' split) <;> first | with_reducible rfl | (simp only [key_mk, key_fold, key_ite, ite_self, setChan_key, enqueue_key]; done) | fail
@[simp] theorem confirmRead_key (s) (p) : key (confirmRead s p) = key s := by simp only [confirmRead, key_mk, key_fold, key_ite, ite_self, enqueue_key]
@[simp] theorem sortUes_key (s) (ps) : key (sortUes s ps).2.2 = key s := by
  unfold sortUes
  refine key_foldl₃ _ _ _ (fun acc p => ?_)
  dsimp only; (repeat' split) <;> first | rfl | exact confirmRead_key ..
@[simp] theorem releaseSlice_key (s) (ci) (ctx) (banks) : key (releaseSlice s ci ctx banks) = key s := by simp (disch := (intros; first | with_reducible rfl | (simp only [key_mk, key_fold, key_ite, ite_self, modChan_key]; done) | ((repeat' split) <;> first | with_reducible rfl | (simp only [key_mk, key_fold, key_ite, ite_self, modChan_key]; done) | fail) | fail)) only [releaseSlice, key_foldl, key_mk, key_fold, key_ite, ite_self, modChan_key]
@[simp] theorem pushEnd_key (s) (x) (last) : key (pushEnd s x last) = key s := by simp (disch := (intros; first | with_reducible rfl | (simp only [key_mk, key_fold, key_ite, ite_self, modOct_key]; done) | ((repeat' split) <;> first | with_reducible rfl | (simp only [key_mk, key_fold, key_ite, ite_self, modOct_key]; done) | fail) | fail)) only [pushEnd, key_foldl, key_mk, key_fold, key_ite, ite_self, modOct_key]
@[simp] theorem sliceGoesOn_key (s) (ci) (x) (op) (ps) (again) (res) : key (sliceGoesOn s ci x op ps again res) = key s := by unfold sliceGoesOn; (try dsimp only); (repeat' split) <;> first | with_reducible rfl | (simp only [key_mk, key_fold, key_ite, ite_self, modChan_key, modOct_key, modOpChan_key, pushEnd_key]; done) | (simp (disch := (intros; first | with_reducible rfl | (simp only [key_mk, key_fold, key_ite, ite_self, modChan_key, modOct_key, modOpChan_key, pushEnd_key]; done) | ((repeat' split) <;> first | with_reducible rfl | (simp only [key_mk, key_fold, key_ite, ite_self, modChan_key, modOct_key, modOpChan_key, pushEnd_key]; done) | fail) | fail)) only [key_foldl, key_mk, key_fold, key_ite, ite_self, modChan_key, modOct_key, modOpChan_key, pushEnd_key]; done) | fail
@[simp] theorem sliceAccount_key (s) (ci) (w) : key (sliceAccount s ci w) = key s := by unfold sliceAccount; (try dsimp only); (repeat' split) <;> first | with_reducible rfl | (simp only [key_mk, key_fold, key_ite, ite_self, bumpReg_key, opStopped_key, putOp_key, fillCtx_key, sliceGoesOn_key]; done) | (simp (disch := (intros; first | with_reducible rfl | (simp only [key_mk, key_fold, key_ite, ite_self, bumpReg_key, opStopped_key, putOp_key, fillCtx_key, sliceGoesOn_key]; done) | ((repeat' split) <;> first | with_reducible rfl | (simp only [key_mk, key_fold, key_ite, ite_self, bumpReg_key, opStopped_key, putOp_key, fillCtx_key, sliceGoesOn_key]; done) | fail) | fail)) only [key_foldl, key_mk, key_fold, key_ite, ite_self, bumpReg_key, opStopped_key, putOp_key, fillCtx_key, sliceGoesOn_key]; done) | fail
@[simp] theorem sliceAwait_key (s) (ci) (w) : key (sliceAwait s ci w) = key s := by unfold sliceAwait; (try dsimp only); (repeat' split) <;> first | with_reducible rfl | (simp only [key_mk, key_fold, key_ite, ite_self, modChan_key, opStopped_key, opStop_key, rowFailure_key, startReconOf_key, gateReq_key, fillCtx_key]; done) | (simp (disch := (intros; first | with_reducible rfl | (simp only [key_mk, key_fold, key_ite, ite_self, modChan_key, opStopped_key, opStop_key, rowFailure_key, startReconOf_key, gateReq_key, fillCtx_key]; done) | ((repeat' split) <;> first | with_reducible rfl | (simp only [key_mk, key_fold, key_ite, ite_self, modChan_key, opStopped_key, opStop_key, rowFailure_key, startReconOf_key, gateReq_key, fillCtx_key]; done) | fail) | fail)) only [key_foldl, key_mk, key_fold, key_ite, ite_self, modChan_key, opStopped_key, opStop_key, rowFailure_key, startReconOf_key, gateReq_key, fillCtx_key]; done) | fail
@[simp] theorem sliceDone_key (s) (ci) (ctx) : key (sliceDone s ci ctx) = key s := by unfold sliceDone; (try dsimp only); (repeat' split) <;> first | with_reducible rfl | (simp only [key_mk, key_fold, key_ite, ite_self, opStopped_key, ceRise_key, fillCtx_key, sortUes_key, releaseSlice_key, sliceAccount_key, sliceAwait_key]; done) | (simp (disch := (intros; first | with_reducible rfl | (simp only [key_mk, key_fold, key_ite, ite_self, opStopped_key, ceRise_key, fillCtx_key, sortUes_key, releaseSlice_key, sliceAccount_key, sliceAwait_key]; done) | ((repeat' split) <;> first | with_reducible rfl | (simp only [key_mk, key_fold, key_ite, ite_self, opStopped_key, ceRise_key, fillCtx_key, sortUes_key, releaseSlice_key, sliceAccount_key, sliceAwait_key]; done) | fail) | fail)) only [key_foldl, key_mk, key_fold, key_ite, ite_self, opStopped_key, ceRise_key, fillCtx_key, sortUes_key, releaseSlice_key, sliceAccount_key, sliceAwait_key]; done) | fail
@[simp] theorem reconLiner_key (s) (e) : key (reconLiner s e) = key s := by unfold reconLiner; (try dsimp only); (repeat' split) <;> first | with_reducible rfl | (simp only [key_mk, key_fold, key_ite, ite_self, reconReq_key, evict_key]; done) | (simp (disch := (intros; first | with_reducible rfl | (simp only [key_mk, key_fold, key_ite, ite_self, reconReq_key, evict_key]; done) | ((repeat' split) <;> first | with_reducible rfl | (simp only [key_mk, key_fold, key_ite, ite_self, reconReq_key, evict_key]; done) | fail) | fail)) only [key_foldl, key_mk, key_fold, key_ite, ite_self, reconReq_key, evict_key]; done) | fail
@[simp] theorem reconServe_key (s) (r) (e) (p) : key (reconServe s r e p) = key s := by unfold reconServe; (try dsimp only); (repeat' split) <;> first | with_reducible rfl | (simp only [key_mk, key_fold, key_ite, ite_self, deliver_key, reconLiner_key]; done) | (simp (disch := (intros; first | with_reducible rfl | (simp only [key_mk, key_fold, key_ite, ite_self, deliver_key, reconLiner_key]; done) | ((repeat' split) <;> first | with_reducible rfl | (simp only [key_mk, key_fold, key_ite, ite_self, deliver_key, reconLiner_key]; done) | fail) | fail)) only [key_foldl, key_mk, key_fold, key_ite, ite_self, deliver_key, reconLiner_key]; done) | fail
@[simp] theorem sliceWake_key (s) (ci) (r) : key (sliceWake s ci r) = key s := by simp (disch := (intros; first | with_reducible rfl | (simp only [key_mk, key_fold, key_ite, ite_self, modChan_key, sliceAccount_key]; done) | ((repeat' split) <;> first | with_reducible rfl | (simp only [key_mk, key_fold, key_ite, ite_self, modChan_key, sliceAccount_key]; done) | fail) | fail)) only [sliceWake, key_foldl, key_mk, key_fold, key_ite, ite_self, modChan_key, sliceAccount_key]
@[simp] theorem reconOver_key (s) (ci) (r) : key (reconOver s ci r) = key s := by unfold reconOver; (try dsimp only); (repeat' split) <;> first | with_reducible rfl | (simp only [key_mk, key_fold, key_ite, ite_self, modChan_key, bumpReg_key, latch_key, logEv_key, reconServe_key, sliceWake_key]; done) | (simp (disch := (intros; first | with_reducible rfl | (simp only [key_mk, key_fold, key_ite, ite_self, modChan_key, bumpReg_key, latch_key, logEv_key, reconServe_key, sliceWake_key]; done) | ((repeat' split) <;> first | with_reducible rfl | (simp only [key_mk, key_fold, key_ite, ite_self, modChan_key, bumpReg_key, latch_key, logEv_key, reconServe_key, sliceWake_key]; done) | fail) | fail)) only [key_foldl, key_mk, key_fold, key_ite, ite_self, modChan_key, bumpReg_key, latch_key, logEv_key, reconServe_key, sliceWake_key]; done) | fail
@[simp] theorem reconDone_key (s) (ci) : key (reconDone s ci) = key s := by unfold reconDone; (try dsimp only); (repeat' split) <;> first | with_reducible rfl | (simp only [key_mk, key_fold, key_ite, ite_self, bumpReg_key, reconOver_key]; done) | (simp (disch := (intros; first | with_reducible rfl | (simp only [key_mk, key_fold, key_ite, ite_self, bumpReg_key, reconOver_key]; done) | ((repeat' split) <;> first | with_reducible rfl | (simp only [key_mk, key_fold, key_ite, ite_self, bumpReg_key, reconOver_key]; done) | fail) | fail)) only [key_foldl, key_mk, key_fold, key_ite, ite_self, bumpReg_key, reconOver_key]; done) | fail
@[simp] theorem sliceOverrun_key (s) (ci) (ctx) : key (sliceOverrun s ci ctx) = key s := by unfold sliceOverrun; (try dsimp only); (repeat' split) <;> first | with_reducible rfl | (simp only [key_mk, key_fold, key_ite, ite_self, bumpReg_key, latch_key, faultAt_key]; done) | fail
@[simp] theorem partialArrives_key (s) (ci) : key (partialArrives s ci) = key s := by unfold partialArrives; (try dsimp only); (repeat' split) <;> first | with_reducible rfl | (simp only [key_mk, key_fold, key_ite, ite_self, setChan_key, modOct_key, evOct_key]; done) | (simp (disch := (intros; first | with_reducible rfl | (simp only [key_mk, key_fold, key_ite, ite_self, setChan_key, modOct_key, evOct_key]; done) | ((repeat' split) <;> first | with_reducible rfl | (simp only [key_mk, key_fold, key_ite, ite_self, setChan_key, modOct_key, evOct_key]; done) | fail) | fail)) only [key_foldl, key_mk, key_fold, key_ite, ite_self, setChan_key, modOct_key, evOct_key]; done) | fail
@[simp] theorem fabricArrives_key (s) (d) (k) : key (fabricArrives s d k) = key s := by unfold fabricArrives; (try dsimp only); (repeat' split) <;> first | with_reducible rfl | (simp only [key_mk, key_fold, key_ite, ite_self, modOct_key, evOct_key]; done) | (simp (disch := (intros; first | with_reducible rfl | (simp only [key_mk, key_fold, key_ite, ite_self, modOct_key, evOct_key]; done) | ((repeat' split) <;> first | with_reducible rfl | (simp only [key_mk, key_fold, key_ite, ite_self, modOct_key, evOct_key]; done) | fail) | fail)) only [key_foldl, key_mk, key_fold, key_ite, ite_self, modOct_key, evOct_key]; done) | fail
@[simp] theorem headReady_key (s) (d) : key (headReady s d) = key s := by unfold headReady; (try dsimp only); (repeat' split) <;> first | with_reducible rfl | (simp only [key_mk, key_fold, key_ite, ite_self, putOp_key]; done) | fail
@[simp] theorem crownSource_key (s) (op) : key (crownSource s op).2 = key s := by simp only [crownSource, key_mk, key_fold, key_ite, ite_self, scratchRead_key]
@[simp] theorem opOutcome_key (s) (op) : key (opOutcome s op) = key s := by unfold opOutcome; (try dsimp only); (repeat' split) <;> first | with_reducible rfl | (simp only [key_mk, key_fold, key_ite, ite_self, poisonReq_key, reconReq_key]; done) | fail
@[simp] theorem resultSectors_key (s) (op) : key (resultSectors s op).2 = key s := by unfold resultSectors; (try dsimp only); (repeat' split) <;> first | with_reducible rfl | (simp only [key_mk, key_fold, key_ite, ite_self, crownSource_key]; done) | fail
@[simp] theorem deliverStack_key (s) (d) (op) (xs) : key (deliverStack s d op xs) = key s := by unfold deliverStack; (try dsimp only); (repeat' split) <;> first | with_reducible rfl | (simp only [key_mk, key_fold, key_ite, ite_self, modReq_key, finishReq_key, addJob_key, putOp_key]; done) | (simp (disch := (intros; first | with_reducible rfl | (simp only [key_mk, key_fold, key_ite, ite_self, modReq_key, finishReq_key, addJob_key, putOp_key]; done) | ((repeat' split) <;> first | with_reducible rfl | (simp only [key_mk, key_fold, key_ite, ite_self, modReq_key, finishReq_key, addJob_key, putOp_key]; done) | fail) | fail)) only [key_foldl, key_mk, key_fold, key_ite, ite_self, modReq_key, finishReq_key, addJob_key, putOp_key]; done) | fail
@[simp] theorem deliverCrown_key (s) (op) (xs) : key (deliverCrown s op xs) = key s := by simp (disch := (intros; first | with_reducible rfl | (simp only [key_mk, key_fold, key_ite, ite_self, modReq_key, partsDone_key, scratchWrite_key]; done) | ((repeat' split) <;> first | with_reducible rfl | (simp only [key_mk, key_fold, key_ite, ite_self, modReq_key, partsDone_key, scratchWrite_key]; done) | fail) | fail)) only [deliverCrown, key_foldl, key_mk, key_fold, key_ite, ite_self, modReq_key, partsDone_key, scratchWrite_key]
@[simp] theorem deliverReturn_key (s) (op) (xs) : key (deliverReturn s op xs) = key s := by simp (disch := (intros; first | with_reducible rfl | (simp only [key_mk, key_fold, key_ite, ite_self, modReq_key, partsDone_key]; done) | ((repeat' split) <;> first | with_reducible rfl | (simp only [key_mk, key_fold, key_ite, ite_self, modReq_key, partsDone_key]; done) | fail) | fail)) only [deliverReturn, key_foldl, key_mk, key_fold, key_ite, ite_self, modReq_key, partsDone_key]
@[simp] theorem deliverTo_key (s) (d) (op) (xs) : key (deliverTo s d op xs) = key s := by unfold deliverTo; (try dsimp only); (repeat' split) <;> first | with_reducible rfl | (simp only [key_mk, key_fold, key_ite, ite_self, evOct_key, poisonReq_key, opOutcome_key, deliverStack_key, deliverCrown_key, deliverReturn_key]; done) | fail
@[simp] theorem deliverResult_key (s) (d) : key (deliverResult s d) = key s := by unfold deliverResult; (try dsimp only); (repeat' split) <;> first | with_reducible rfl | (simp only [key_mk, key_fold, key_ite, ite_self, partsDone_key, cancelLate_key, opOutcome_key, resultSectors_key, deliverTo_key]; done) | fail
@[simp] theorem takeJob_key (s) (k) (jid) : key (takeJob s k jid) = key s := by unfold takeJob; (try dsimp only); (repeat' split) <;> first | with_reducible rfl | (simp only [key_mk, key_fold, key_ite, ite_self, enqueue_key, setJob_key]; done) | (simp (disch := (intros; first | with_reducible rfl | (simp only [key_mk, key_fold, key_ite, ite_self, enqueue_key, setJob_key]; done) | ((repeat' split) <;> first | with_reducible rfl | (simp only [key_mk, key_fold, key_ite, ite_self, enqueue_key, setJob_key]; done) | fail) | fail)) only [key_foldl, key_mk, key_fold, key_ite, ite_self, enqueue_key, setJob_key]; done) | fail
@[simp] theorem mergeOps_key (s) (k) (op) (more) : key (mergeOps s k op more) = key s := by unfold mergeOps; (try dsimp only); (repeat' split) <;> first | with_reducible rfl | (simp only [key_mk, key_fold, key_ite, ite_self, evOct_key]; done) | fail
@[simp] theorem takeEnd_key (s) (k) (d) (ch) (first) (count) (last) (res) : key (takeEnd s k d ch first count last res) = key s := by unfold takeEnd; (try dsimp only); (repeat' split) <;> first | with_reducible rfl | (simp only [key_mk, key_fold, key_ite, ite_self, modOpChan_key, headReady_key, mergeOps_key]; done) | (simp (disch := (intros; first | with_reducible rfl | (simp only [key_mk, key_fold, key_ite, ite_self, modOpChan_key, headReady_key, mergeOps_key]; done) | ((repeat' split) <;> first | with_reducible rfl | (simp only [key_mk, key_fold, key_ite, ite_self, modOpChan_key, headReady_key, mergeOps_key]; done) | fail) | fail)) only [key_foldl, key_mk, key_fold, key_ite, ite_self, modOpChan_key, headReady_key, mergeOps_key]; done) | fail
@[simp] theorem takeFabric_key (s) (k) (d) (oc) : key (takeFabric s k d oc) = key s := by unfold takeFabric; (try dsimp only); (repeat' split) <;> first | with_reducible rfl | (simp only [key_mk, key_fold, key_ite, ite_self, putOp_key, mergeOps_key]; done) | fail
@[simp] theorem itemTake_key (s) (k) : key (itemTake s k) = key s := by unfold itemTake; (try dsimp only); (repeat' split) <;> first | with_reducible rfl | (simp only [key_mk, key_fold, key_ite, ite_self, setOct_key, evOct_key, takeJob_key, takeEnd_key, takeFabric_key]; done) | fail
@[simp] theorem lockTake_key (s) (k) : key (lockTake s k) = key s := by unfold lockTake; (try dsimp only); (repeat' split) <;> first | with_reducible rfl | (simp only [key_mk, key_fold, key_ite, ite_self, modChan_key, modOct_key, enqueue_key, setJob_key, jobWrite_key]; done) | (simp (disch := (intros; first | with_reducible rfl | (simp only [key_mk, key_fold, key_ite, ite_self, modChan_key, modOct_key, enqueue_key, setJob_key, jobWrite_key]; done) | ((repeat' split) <;> first | with_reducible rfl | (simp only [key_mk, key_fold, key_ite, ite_self, modChan_key, modOct_key, enqueue_key, setJob_key, jobWrite_key]; done) | fail) | fail)) only [key_foldl, key_mk, key_fold, key_ite, ite_self, modChan_key, modOct_key, enqueue_key, setJob_key, jobWrite_key]; done) | fail
@[simp] theorem readReturn_key (s) (k) : key (readReturn s k) = key s := by unfold readReturn; (try dsimp only); (repeat' split) <;> first | with_reducible rfl | (simp only [key_mk, key_fold, key_ite, ite_self, evOct_key, jobReturned_key, flushServed_key]; done) | (simp (disch := (intros; first | with_reducible rfl | (simp only [key_mk, key_fold, key_ite, ite_self, evOct_key, jobReturned_key, flushServed_key]; done) | ((repeat' split) <;> first | with_reducible rfl | (simp only [key_mk, key_fold, key_ite, ite_self, evOct_key, jobReturned_key, flushServed_key]; done) | fail) | fail)) only [key_foldl, key_mk, key_fold, key_ite, ite_self, evOct_key, jobReturned_key, flushServed_key]; done) | fail
@[simp] theorem writeVisible_key (s) (k) : key (writeVisible s k) = key s := by unfold writeVisible; (try dsimp only); (repeat' split) <;> first | with_reducible rfl | (simp only [key_mk, key_fold, key_ite, ite_self, modReq_key, partsDone_key, endJob_key, flushServed_key]; done) | (simp (disch := (intros; first | with_reducible rfl | (simp only [key_mk, key_fold, key_ite, ite_self, modReq_key, partsDone_key, endJob_key, flushServed_key]; done) | ((repeat' split) <;> first | with_reducible rfl | (simp only [key_mk, key_fold, key_ite, ite_self, modReq_key, partsDone_key, endJob_key, flushServed_key]; done) | fail) | fail)) only [key_foldl, key_mk, key_fold, key_ite, ite_self, modReq_key, partsDone_key, endJob_key, flushServed_key]; done) | fail
@[simp] theorem drainStart_key (s) (k) : key (drainStart s k) = key s := by simp (disch := (intros; first | with_reducible rfl | (simp only [key_mk, key_fold, key_ite, ite_self, addJob_key]; done) | ((repeat' split) <;> first | with_reducible rfl | (simp only [key_mk, key_fold, key_ite, ite_self, addJob_key]; done) | fail) | fail)) only [drainStart, key_foldl, key_mk, key_fold, key_ite, ite_self, addJob_key]
@[simp] theorem stopReached_key (s) (page) : key (stopReached s page) = key s := by unfold stopReached; (try dsimp only); (repeat' split) <;> first | with_reducible rfl | (simp only [key_mk, key_fold, key_ite, ite_self, modOct_key]; done) | (simp (disch := (intros; first | with_reducible rfl | (simp only [key_mk, key_fold, key_ite, ite_self, modOct_key]; done) | ((repeat' split) <;> first | with_reducible rfl | (simp only [key_mk, key_fold, key_ite, ite_self, modOct_key]; done) | fail) | fail)) only [key_foldl, key_mk, key_fold, key_ite, ite_self, modOct_key]; done) | fail
@[simp] theorem hdlOpEnd_key (s) : key (hdlOpEnd s) = key s := by unfold hdlOpEnd; (try dsimp only); (repeat' split) <;> first | with_reducible rfl | (simp only [key_mk, key_fold, key_ite, ite_self, latch_key]; done) | fail
@[simp] theorem srRead_key (s) (ch) (a) : key (srRead s ch a).2 = key s := by unfold srRead; (try dsimp only); (repeat' split) <;> first | with_reducible rfl | (simp only [key_mk, key_fold, key_ite, ite_self, takeFree_key]; done) | fail
@[simp] theorem srWrite_key (s) (ch) (a) (v) : key (srWrite s ch a v) = key s := by simp only [srWrite, key_mk, key_fold, key_ite, ite_self, modStk_key]
@[simp] theorem sbAnswer_key (s) (cmd) (ch) (addr) (len) (ws) (st) (out) : key (sbAnswer s cmd ch addr len ws st out) = key s := by unfold sbAnswer; (try dsimp only); (repeat' split) <;> first | with_reducible rfl | (simp only [key_mk, key_fold, key_ite, ite_self]; done) | fail
theorem readWords_key (f : State → Nat → Word × State) (n : Nat) (s : State) (h : ∀ t i, key (f t i).2 = key t) :
    key (readWords f n s).2 = key s := by
  unfold readWords
  generalize List.range n = l
  suffices H : ∀ (a : List Word) (t : State), key (l.foldl (fun (acc : List Word × State) i => ((acc.1 ++ [(f acc.2 i).1], (f acc.2 i).2))) (a, t)).2 = key t from H [] s
  induction l with
  | nil => intro a t; rfl
  | cons x l ih => intro a t; exact (ih _ _).trans (h t x)
@[simp] theorem ansFree_key (s) : key (ansFree s).2.2 = key s := by unfold ansFree; (try dsimp only); (repeat' split) <;> first | with_reducible rfl | (simp only [key_mk, key_fold, key_ite, ite_self, takeFree_key]; done) | fail
@[simp] theorem ansRegRd_key (ch) (addr) (len) (s) : key (ansRegRd ch addr len s).2.2 = key s := by
  unfold ansRegRd; dsimp only; exact readWords_key _ _ _ (fun t i => srRead_key ..)
@[simp] theorem ansRegWr_key (ch) (addr) (ws) (s) : key (ansRegWr ch addr ws s).2.2 = key s := by simp (disch := (intros; first | with_reducible rfl | (simp only [key_mk, key_fold, key_ite, ite_self, srWrite_key]; done) | ((repeat' split) <;> first | with_reducible rfl | (simp only [key_mk, key_fold, key_ite, ite_self, srWrite_key]; done) | fail) | fail)) only [ansRegWr, key_foldl, key_mk, key_fold, key_ite, ite_self, srWrite_key]
@[simp] theorem ansPpRd_key (addr) (len) (s) : key (ansPpRd addr len s).2.2 = key s := by unfold ansPpRd; (try dsimp only); (repeat' split) <;> first | with_reducible rfl | (simp only [key_mk, key_fold, key_ite, ite_self, ansFree_key]; done) | (simp (disch := (intros; first | with_reducible rfl | (simp only [key_mk, key_fold, key_ite, ite_self, ansFree_key]; done) | ((repeat' split) <;> first | with_reducible rfl | (simp only [key_mk, key_fold, key_ite, ite_self, ansFree_key]; done) | fail) | fail)) only [key_foldl, key_mk, key_fold, key_ite, ite_self, ansFree_key]; done) | fail
@[simp] theorem ansPpProg_key (addr) (ws) (s) : key (ansPpProg addr ws s).2.2 = key s := by unfold ansPpProg; (try dsimp only); (repeat' split) <;> first | with_reducible rfl | (simp only [key_mk, key_fold, key_ite, ite_self, ansFree_key]; done) | fail
@[simp] theorem ansPpStat_key (s) : key (ansPpStat s).2.2 = key s := by simp only [ansPpStat, key_mk, key_fold, key_ite, ite_self]
@[simp] theorem ansPpErase_key (addr) (s) : key (ansPpErase addr s).2.2 = key s := by unfold ansPpErase; (try dsimp only); (repeat' split) <;> first | with_reducible rfl | (simp only [key_mk, key_fold, key_ite, ite_self, ansFree_key]; done) | fail
@[simp] theorem ansT1500_key (addr) (ws) (s) : key (ansT1500 addr ws s).2.2 = key s := by unfold ansT1500; (try dsimp only); (repeat' split) <;> first | with_reducible rfl | (simp only [key_mk, key_fold, key_ite, ite_self, takeFree_key, readWords_key]; done) | (simp (disch := (intros; first | with_reducible rfl | (simp only [key_mk, key_fold, key_ite, ite_self, takeFree_key, readWords_key]; done) | ((repeat' split) <;> first | with_reducible rfl | (simp only [key_mk, key_fold, key_ite, ite_self, takeFree_key, readWords_key]; done) | fail) | fail)) only [key_foldl, key_mk, key_fold, key_ite, ite_self, takeFree_key, readWords_key]; done) | fail
@[simp] theorem sbAns_key (cmd) (ch) (addr) (len) (ws) (s) : key (sbAns cmd ch addr len ws s).2.2 = key s := by unfold sbAns; (try dsimp only); (repeat' split) <;> first | with_reducible rfl | (simp only [key_mk, key_fold, key_ite, ite_self, ansRegRd_key, ansRegWr_key, ansPpRd_key, ansPpProg_key, ansPpStat_key, ansPpErase_key, ansT1500_key]; done) | fail
theorem sbFrame_key (s : State) (cmd : Nat) (ch : Byte) (addr : BitVec 24) (len : Nat) (ws : List Word) (noise : BitVec 584)
    (f : State → Byte × List Word × State) (h : ∀ t, key (f t).2.2 = key t) : key (sbFrame s cmd ch addr len ws noise f) = key s := by
  unfold sbFrame; dsimp only; (repeat' split) <;> simp only [sbAnswer_key, sbAns_key, h]
@[simp] theorem ppEnd_key (s) (fail) : key (ppEnd s fail) = key s := by unfold ppEnd; (try dsimp only); (repeat' split) <;> first | with_reducible rfl | (simp only [key_mk, key_fold, key_ite, ite_self, takeFree_key]; done) | (simp (disch := (intros; first | with_reducible rfl | (simp only [key_mk, key_fold, key_ite, ite_self, takeFree_key]; done) | ((repeat' split) <;> first | with_reducible rfl | (simp only [key_mk, key_fold, key_ite, ite_self, takeFree_key]; done) | fail) | fail)) only [key_foldl, key_mk, key_fold, key_ite, ite_self, takeFree_key]; done) | fail
@[simp] theorem queueRecord_key (s) (addr) (ws) : key (queueRecord s addr ws) = key s := by simp only [queueRecord, key_mk, key_fold, key_ite, ite_self, sbQueue_key]
@[simp] theorem compact_key (s) : key (compact s) = key s := by unfold compact; (try dsimp only); (repeat' split) <;> first | with_reducible rfl | (simp only [key_mk, key_fold, key_ite, ite_self, sbQueue_key, queueRecord_key]; done) | (simp (disch := (intros; first | with_reducible rfl | (simp only [key_mk, key_fold, key_ite, ite_self, sbQueue_key, queueRecord_key]; done) | ((repeat' split) <;> first | with_reducible rfl | (simp only [key_mk, key_fold, key_ite, ite_self, sbQueue_key, queueRecord_key]; done) | fail) | fail)) only [key_foldl, key_mk, key_fold, key_ite, ite_self, sbQueue_key, queueRecord_key]; done) | fail
@[simp] theorem persist_key (s) (kind) (ch) (bank) (spare) (row) (fails) : key (persist s kind ch bank spare row fails) = key s := by simp only [persist, key_mk, key_fold, key_ite, ite_self, latch_key, queueRecord_key, compact_key]
@[simp] theorem patrolReads_key (s) (c) (bank) (row) : key (patrolReads s c bank row) = key s := by simp (disch := (intros; first | with_reducible rfl | (simp only [key_mk, key_fold, key_ite, ite_self, enqueueAll_key]; done) | ((repeat' split) <;> first | with_reducible rfl | (simp only [key_mk, key_fold, key_ite, ite_self, enqueueAll_key]; done) | fail) | fail)) only [patrolReads, key_foldl, key_mk, key_fold, key_ite, ite_self, enqueueAll_key]
@[simp] theorem visitCount_key (s) : key (visitCount s) = key s := by simp only [visitCount, key_mk, key_fold, key_ite, ite_self]
@[simp] theorem patrolVisit_key (s) (ci) : key (patrolVisit s ci) = key s := by simp (disch := (intros; first | with_reducible rfl | (simp only [key_mk, key_fold, key_ite, ite_self, modChan_key, patrolReads_key, visitCount_key]; done) | ((repeat' split) <;> first | with_reducible rfl | (simp only [key_mk, key_fold, key_ite, ite_self, modChan_key, patrolReads_key, visitCount_key]; done) | fail) | fail)) only [patrolVisit, key_foldl, key_mk, key_fold, key_ite, ite_self, modChan_key, patrolReads_key, visitCount_key]
@[simp] theorem setRemap_key (s) (c) (e) (r) : key (setRemap s c e r) = key s := by simp (disch := (intros; first | with_reducible rfl | (simp only [key_mk, key_fold, key_ite, ite_self, modChan_key, sbWrite_key]; done) | ((repeat' split) <;> first | with_reducible rfl | (simp only [key_mk, key_fold, key_ite, ite_self, modChan_key, sbWrite_key]; done) | fail) | fail)) only [setRemap, key_foldl, key_mk, key_fold, key_ite, ite_self, modChan_key, sbWrite_key]
@[simp] theorem spareLow_key (n) (s) (c) (bank) : key (spareLow n s c bank) = key s := by simp only [spareLow, key_mk, key_fold, key_ite, ite_self, latch_key]
@[simp] theorem retireSpare_key (s) (c) (bank) (spare) : key (retireSpare s c bank spare) = key s := by simp (disch := (intros; first | with_reducible rfl | (simp only [key_mk, key_fold, key_ite, ite_self, modChan_key, logEv_key, persist_key, spareLow_key]; done) | ((repeat' split) <;> first | with_reducible rfl | (simp only [key_mk, key_fold, key_ite, ite_self, modChan_key, logEv_key, persist_key, spareLow_key]; done) | fail) | fail)) only [retireSpare, key_foldl, key_mk, key_fold, key_ite, ite_self, modChan_key, logEv_key, persist_key, spareLow_key]
@[simp] theorem unhold_key (s) (f) : key (unhold s f) = key s := by simp (disch := (intros; first | with_reducible rfl | (simp only [key_mk, key_fold, key_ite, ite_self, modChan_key]; done) | ((repeat' split) <;> first | with_reducible rfl | (simp only [key_mk, key_fold, key_ite, ite_self, modChan_key]; done) | fail) | fail)) only [unhold, key_foldl, key_mk, key_fold, key_ite, ite_self, modChan_key]
@[simp] theorem fenceQueues_key (s) (f) : key (fenceQueues s f) = key s := by simp (disch := (intros; first | with_reducible rfl | (simp only [key_mk, key_fold, key_ite, ite_self, setChan_key, latch_key, partsDone_key, poisonReq_key, serveFenced_key, hdlWake_key]; done) | ((repeat' split) <;> first | with_reducible rfl | (simp only [key_mk, key_fold, key_ite, ite_self, setChan_key, latch_key, partsDone_key, poisonReq_key, serveFenced_key, hdlWake_key]; done) | fail) | fail)) only [fenceQueues, key_foldl, key_mk, key_fold, key_ite, ite_self, setChan_key, latch_key, partsDone_key, poisonReq_key, serveFenced_key, hdlWake_key]
@[simp] theorem fenceRow_key (s) (f) (e) (fails) : key (fenceRow s f e fails) = key s := by unfold fenceRow; (try dsimp only); (repeat' split) <;> first | with_reducible rfl | (simp only [key_mk, key_fold, key_ite, ite_self, bumpReg_key, latch_key, logEv_key, persist_key, setRemap_key, retireSpare_key, unhold_key, fenceQueues_key]; done) | fail
@[simp] theorem repairOver_key (s) : key (repairOver s) = key s := by simp only [repairOver, key_mk, key_fold, key_ite, ite_self]
@[simp] theorem repairStart_key (s) : key (repairStart s) = key s := by unfold repairStart; (try dsimp only); (repeat' split) <;> first | with_reducible rfl | (simp only [key_mk, key_fold, key_ite, ite_self, modChan_key, latch_key, fenceRow_key]; done) | (simp (disch := (intros; first | with_reducible rfl | (simp only [key_mk, key_fold, key_ite, ite_self, modChan_key, latch_key, fenceRow_key]; done) | ((repeat' split) <;> first | with_reducible rfl | (simp only [key_mk, key_fold, key_ite, ite_self, modChan_key, latch_key, fenceRow_key]; done) | fail) | fail)) only [key_foldl, key_mk, key_fold, key_ite, ite_self, modChan_key, latch_key, fenceRow_key]; done) | fail
@[simp] theorem remapCopy_key (s) : key (remapCopy s) = key s := by unfold remapCopy; (try dsimp only); (repeat' split) <;> first | with_reducible rfl | (simp only [key_mk, key_fold, key_ite, ite_self, enqueueAll_key]; done) | (simp (disch := (intros; first | with_reducible rfl | (simp only [key_mk, key_fold, key_ite, ite_self, enqueueAll_key]; done) | ((repeat' split) <;> first | with_reducible rfl | (simp only [key_mk, key_fold, key_ite, ite_self, enqueueAll_key]; done) | fail) | fail)) only [key_foldl, key_mk, key_fold, key_ite, ite_self, enqueueAll_key]; done) | fail
@[simp] theorem remapDone_key (s) (r) : key (remapDone s r) = key s := by unfold remapDone; (try dsimp only); (repeat' split) <;> first | with_reducible rfl | (simp only [key_mk, key_fold, key_ite, ite_self, modChan_key, bumpReg_key, latch_key, logEv_key, persist_key, setRemap_key, spareLow_key, retireSpare_key, unhold_key, repairOver_key]; done) | (simp (disch := (intros; first | with_reducible rfl | (simp only [key_mk, key_fold, key_ite, ite_self, modChan_key, bumpReg_key, latch_key, logEv_key, persist_key, setRemap_key, spareLow_key, retireSpare_key, unhold_key, repairOver_key]; done) | ((repeat' split) <;> first | with_reducible rfl | (simp only [key_mk, key_fold, key_ite, ite_self, modChan_key, bumpReg_key, latch_key, logEv_key, persist_key, setRemap_key, spareLow_key, retireSpare_key, unhold_key, repairOver_key]; done) | fail) | fail)) only [key_foldl, key_mk, key_fold, key_ite, ite_self, modChan_key, bumpReg_key, latch_key, logEv_key, persist_key, setRemap_key, spareLow_key, retireSpare_key, unhold_key, repairOver_key]; done) | fail
@[simp] theorem remapAgain_key (s) (r) : key (remapAgain s r) = key s := by unfold remapAgain; (try dsimp only); (repeat' split) <;> first | with_reducible rfl | (simp only [key_mk, key_fold, key_ite, ite_self, retireSpare_key, fenceRow_key, repairOver_key]; done) | fail
@[simp] theorem remapTry_key (s) : key (remapTry s) = key s := by unfold remapTry; (try dsimp only); (repeat' split) <;> first | with_reducible rfl | (simp only [key_mk, key_fold, key_ite, ite_self, remapDone_key, remapAgain_key]; done) | fail
@[simp] theorem retarget_key (s) (c) (w) : key (retarget s c w) = key s := by simp (disch := (intros; first | with_reducible rfl | (simp only [key_mk, key_fold, key_ite, ite_self, modChan_key]; done) | ((repeat' split) <;> first | with_reducible rfl | (simp only [key_mk, key_fold, key_ite, ite_self, modChan_key]; done) | fail) | fail)) only [retarget, key_foldl, key_mk, key_fold, key_ite, ite_self, modChan_key]
@[simp] theorem applyAll_key (s) : key (applyAll s) = key s :=
  forN_key _ _ _ (fun t c => (modChan_key ..).trans (forN_key _ _ _ (fun u w => retarget_key ..)))
@[simp] theorem edgeCounts_key (s) (m) : key (edgeCounts s m).2 = key s := by simp only [edgeCounts, key_mk, key_fold, key_ite, ite_self, takeFree_key]
@[simp] theorem statDrift_key (s) (c) (q) : key (statDrift s c q) = key s := by simp only [statDrift, key_mk, key_fold, key_ite, ite_self, modChan_key, edgeCounts_key]
@[simp] theorem extDrift_key (s) (c) (q) : key (extDrift s c q) = key s := by unfold extDrift; (try dsimp only); (repeat' split) <;> first | with_reducible rfl | (simp only [key_mk, key_fold, key_ite, ite_self, modChan_key, takeFree_key]; done) | (simp (disch := (intros; first | with_reducible rfl | (simp only [key_mk, key_fold, key_ite, ite_self, modChan_key, takeFree_key]; done) | ((repeat' split) <;> first | with_reducible rfl | (simp only [key_mk, key_fold, key_ite, ite_self, modChan_key, takeFree_key]; done) | fail) | fail)) only [key_foldl, key_mk, key_fold, key_ite, ite_self, modChan_key, takeFree_key]; done) | fail
@[simp] theorem trackWire_key (s) (c) (w) : key (trackWire s c w) = key s := by simp only [trackWire, key_mk, key_fold, key_ite, ite_self, modChan_key, edgeCounts_key]
@[simp] theorem stepChan_key (s) (n) (c) : key (stepChan s n c) = key s := by simp (disch := (intros; first | with_reducible rfl | (simp only [key_mk, key_fold, key_ite, ite_self, modChan_key, forN_key, retarget_key, statDrift_key, extDrift_key, trackWire_key]; done) | ((repeat' split) <;> first | with_reducible rfl | (simp only [key_mk, key_fold, key_ite, ite_self, modChan_key, forN_key, retarget_key, statDrift_key, extDrift_key, trackWire_key]; done) | fail) | fail)) only [stepChan, key_foldl, key_mk, key_fold, key_ite, ite_self, modChan_key, forN_key, retarget_key, statDrift_key, extDrift_key, trackWire_key]
@[simp] theorem calStep_key (s) (n) : key (calStep s n) = key s := by simp (disch := (intros; first | with_reducible rfl | (simp only [key_mk, key_fold, key_ite, ite_self, setCal_key, forN_key, stepChan_key]; done) | ((repeat' split) <;> first | with_reducible rfl | (simp only [key_mk, key_fold, key_ite, ite_self, setCal_key, forN_key, stepChan_key]; done) | fail) | fail)) only [calStep, key_foldl, key_mk, key_fold, key_ite, ite_self, setCal_key, forN_key, stepChan_key]
@[simp] theorem sweepRecord_key (s) (c) (w) (eye) (probed) : key (sweepRecord s c w eye probed) = key s := by simp (disch := (intros; first | with_reducible rfl | (simp only [key_mk, key_fold, key_ite, ite_self, modChan_key]; done) | ((repeat' split) <;> first | with_reducible rfl | (simp only [key_mk, key_fold, key_ite, ite_self, modChan_key]; done) | fail) | fail)) only [sweepRecord, key_foldl, key_mk, key_fold, key_ite, ite_self, modChan_key]
@[simp] theorem discardProbe_key (s) (n) (c) (w) : key (discardProbe s n c w) = key s := by unfold discardProbe; (try dsimp only); (repeat' split) <;> first | with_reducible rfl | (simp only [key_mk, key_fold, key_ite, ite_self, setCal_key, bumpReg_key, sweepRecord_key]; done) | (simp (disch := (intros; first | with_reducible rfl | (simp only [key_mk, key_fold, key_ite, ite_self, setCal_key, bumpReg_key, sweepRecord_key]; done) | ((repeat' split) <;> first | with_reducible rfl | (simp only [key_mk, key_fold, key_ite, ite_self, setCal_key, bumpReg_key, sweepRecord_key]; done) | fail) | fail)) only [key_foldl, key_mk, key_fold, key_ite, ite_self, setCal_key, bumpReg_key, sweepRecord_key]; done) | fail
@[simp] theorem sweepStart_key (s) (n) : key (sweepStart s n) = key s := by unfold sweepStart; (try dsimp only); (repeat' split) <;> first | with_reducible rfl | (simp only [key_mk, key_fold, key_ite, ite_self, modChan_key, setCal_key, steer_key, discardProbe_key]; done) | (simp (disch := (intros; first | with_reducible rfl | (simp only [key_mk, key_fold, key_ite, ite_self, modChan_key, setCal_key, steer_key, discardProbe_key]; done) | ((repeat' split) <;> first | with_reducible rfl | (simp only [key_mk, key_fold, key_ite, ite_self, modChan_key, setCal_key, steer_key, discardProbe_key]; done) | fail) | fail)) only [key_foldl, key_mk, key_fold, key_ite, ite_self, modChan_key, setCal_key, steer_key, discardProbe_key]; done) | fail
@[simp] theorem scanEye_key (s) (e) : key (scanEye s e).2 = key s := by
  unfold scanEye; dsimp only; split <;> rfl
@[simp] theorem idlePrbs_key (s) (c) (h) (prbs) : key (idlePrbs s c h prbs) = key s := by simp (disch := (intros; first | with_reducible rfl | (simp only [key_mk, key_fold, key_ite, ite_self, modStk_key]; done) | ((repeat' split) <;> first | with_reducible rfl | (simp only [key_mk, key_fold, key_ite, ite_self, modStk_key]; done) | fail) | fail)) only [idlePrbs, key_foldl, key_mk, key_fold, key_ite, ite_self, modStk_key]
@[simp] theorem dwellEnd_key (s) (n) (bursts) (mismatch) (prbs) : key (dwellEnd s n bursts mismatch prbs) = key s := by unfold dwellEnd; (try dsimp only); (repeat' split) <;> first | with_reducible rfl | (simp only [key_mk, key_fold, key_ite, ite_self, modChan_key, setCal_key, scanEye_key, idlePrbs_key]; done) | (simp (disch := (intros; first | with_reducible rfl | (simp only [key_mk, key_fold, key_ite, ite_self, modChan_key, setCal_key, scanEye_key, idlePrbs_key]; done) | ((repeat' split) <;> first | with_reducible rfl | (simp only [key_mk, key_fold, key_ite, ite_self, modChan_key, setCal_key, scanEye_key, idlePrbs_key]; done) | fail) | fail)) only [key_foldl, key_mk, key_fold, key_ite, ite_self, modChan_key, setCal_key, scanEye_key, idlePrbs_key]; done) | fail
@[simp] theorem sweepBack_key (s) (n) : key (sweepBack s n) = key s := by unfold sweepBack; (try dsimp only); (repeat' split) <;> first | with_reducible rfl | (simp only [key_mk, key_fold, key_ite, ite_self, modChan_key, setCal_key, steer_key]; done) | (simp (disch := (intros; first | with_reducible rfl | (simp only [key_mk, key_fold, key_ite, ite_self, modChan_key, setCal_key, steer_key]; done) | ((repeat' split) <;> first | with_reducible rfl | (simp only [key_mk, key_fold, key_ite, ite_self, modChan_key, setCal_key, steer_key]; done) | fail) | fail)) only [key_foldl, key_mk, key_fold, key_ite, ite_self, modChan_key, setCal_key, steer_key]; done) | fail
@[simp] theorem sweepDone_key (s) (n) : key (sweepDone s n) = key s := by simp (disch := (intros; first | with_reducible rfl | (simp only [key_mk, key_fold, key_ite, ite_self, modChan_key, setCal_key, sbQueue_key]; done) | ((repeat' split) <;> first | with_reducible rfl | (simp only [key_mk, key_fold, key_ite, ite_self, modChan_key, setCal_key, sbQueue_key]; done) | fail) | fail)) only [sweepDone, key_foldl, key_mk, key_fold, key_ite, ite_self, modChan_key, setCal_key, sbQueue_key]
@[simp] theorem pdEnter_key (s) (ci) : key (pdEnter s ci) = key s := by unfold pdEnter; (try dsimp only); (repeat' split) <;> first | with_reducible rfl | (simp only [key_mk, key_fold, key_ite, ite_self, modChan_key, bumpReg_key, sendRow_key]; done) | (simp (disch := (intros; first | with_reducible rfl | (simp only [key_mk, key_fold, key_ite, ite_self, modChan_key, bumpReg_key, sendRow_key]; done) | ((repeat' split) <;> first | with_reducible rfl | (simp only [key_mk, key_fold, key_ite, ite_self, modChan_key, bumpReg_key, sendRow_key]; done) | fail) | fail)) only [key_foldl, key_mk, key_fold, key_ite, ite_self, modChan_key, bumpReg_key, sendRow_key]; done) | fail
@[simp] theorem pdWake_key (s) (ci) : key (pdWake s ci) = key s := by unfold pdWake; (try dsimp only); (repeat' split) <;> first | with_reducible rfl | (simp only [key_mk, key_fold, key_ite, ite_self, modChan_key, sendRowFrom_key]; done) | (simp (disch := (intros; first | with_reducible rfl | (simp only [key_mk, key_fold, key_ite, ite_self, modChan_key, sendRowFrom_key]; done) | ((repeat' split) <;> first | with_reducible rfl | (simp only [key_mk, key_fold, key_ite, ite_self, modChan_key, sendRowFrom_key]; done) | fail) | fail)) only [key_foldl, key_mk, key_fold, key_ite, ite_self, modChan_key, sendRowFrom_key]; done) | fail
@[simp] theorem sleepChan_key (s) (ci) : key (sleepChan s ci) = key s := by simp (disch := (intros; first | with_reducible rfl | (simp only [key_mk, key_fold, key_ite, ite_self, modChan_key, sendRow_key]; done) | ((repeat' split) <;> first | with_reducible rfl | (simp only [key_mk, key_fold, key_ite, ite_self, modChan_key, sendRow_key]; done) | fail) | fail)) only [sleepChan, key_foldl, key_mk, key_fold, key_ite, ite_self, modChan_key, sendRow_key]
@[simp] theorem wakeChan_key (s) (ci) : key (wakeChan s ci) = key s := by simp (disch := (intros; first | with_reducible rfl | (simp only [key_mk, key_fold, key_ite, ite_self, modChan_key, sendRow_key, recovRow_key]; done) | ((repeat' split) <;> first | with_reducible rfl | (simp only [key_mk, key_fold, key_ite, ite_self, modChan_key, sendRow_key, recovRow_key]; done) | fail) | fail)) only [wakeChan, key_foldl, key_mk, key_fold, key_ite, ite_self, modChan_key, sendRow_key, recovRow_key]
@[simp] theorem wakeStack_key (s) : key (wakeStack s) = key s := by simp (disch := (intros; first | with_reducible rfl | (simp only [key_mk, key_fold, key_ite, ite_self, forN_key, wakeChan_key]; done) | ((repeat' split) <;> first | with_reducible rfl | (simp only [key_mk, key_fold, key_ite, ite_self, forN_key, wakeChan_key]; done) | fail) | fail)) only [wakeStack, key_foldl, key_mk, key_fold, key_ite, ite_self, forN_key, wakeChan_key]
@[simp] theorem loadDefaults_key (s) (p) : key (loadDefaults s p) = key s :=
  forN_key _ _ _ (fun t c => key_foldl _ _ _ (fun u w => setReg_key ..))
@[simp] theorem drainChan_key (s) (c) : key (drainChan s c) = key s := by simp only [drainChan, key_mk, key_fold, key_ite, ite_self, sweepAbandonOn_key, pdWake_key]
@[simp] theorem freqBegin_key (s) : key (freqBegin s) = key s := by unfold freqBegin; (try dsimp only); (repeat' split) <;> first | with_reducible rfl | (simp only [key_mk, key_fold, key_ite, ite_self, forN_key, evictAll_key, loadDefaults_key, drainChan_key]; done) | (simp (disch := (intros; first | with_reducible rfl | (simp only [key_mk, key_fold, key_ite, ite_self, forN_key, evictAll_key, loadDefaults_key, drainChan_key]; done) | ((repeat' split) <;> first | with_reducible rfl | (simp only [key_mk, key_fold, key_ite, ite_self, forN_key, evictAll_key, loadDefaults_key, drainChan_key]; done) | fail) | fail)) only [key_foldl, key_mk, key_fold, key_ite, ite_self, forN_key, evictAll_key, loadDefaults_key, drainChan_key]; done) | fail
@[simp] theorem freqSwap_key (s) : key (freqSwap s) = key s := by unfold freqSwap; (try dsimp only); (repeat' split) <;> first | with_reducible rfl | (simp only [key_mk, key_fold, key_ite, ite_self, forN_key, setRegF_key, applyAll_key, sleepChan_key]; done) | (simp (disch := (intros; first | with_reducible rfl | (simp only [key_mk, key_fold, key_ite, ite_self, forN_key, setRegF_key, applyAll_key, sleepChan_key]; done) | ((repeat' split) <;> first | with_reducible rfl | (simp only [key_mk, key_fold, key_ite, ite_self, forN_key, setRegF_key, applyAll_key, sleepChan_key]; done) | fail) | fail)) only [key_foldl, key_mk, key_fold, key_ite, ite_self, forN_key, setRegF_key, applyAll_key, sleepChan_key]; done) | fail
@[simp] theorem setSensor_key (s) (i) (x) : key (setSensor s i x) = key s := by simp only [setSensor, key_mk, key_fold, key_ite, ite_self]
@[simp] theorem takeReading_key (s) (i) (r) : key (takeReading s i r) = key s := by simp only [takeReading, key_mk, key_fold, key_ite, ite_self, setSensor_key]
@[simp] theorem showTemp_key (s) (a) (r) : key (showTemp s a r) = key s := by unfold showTemp; (try dsimp only); (repeat' split) <;> first | with_reducible rfl | (simp only [key_mk, key_fold, key_ite, ite_self, forN_key, srAdvance_key]; done) | (simp (disch := (intros; first | with_reducible rfl | (simp only [key_mk, key_fold, key_ite, ite_self, forN_key, srAdvance_key]; done) | ((repeat' split) <;> first | with_reducible rfl | (simp only [key_mk, key_fold, key_ite, ite_self, forN_key, srAdvance_key]; done) | fail) | fail)) only [key_foldl, key_mk, key_fold, key_ite, ite_self, forN_key, srAdvance_key]; done) | fail
@[simp] theorem poll_key (s) (a) : key (poll s a) = key s := by simp (disch := (intros; first | with_reducible rfl | (simp only [key_mk, key_fold, key_ite, ite_self, sbQueue_key]; done) | ((repeat' split) <;> first | with_reducible rfl | (simp only [key_mk, key_fold, key_ite, ite_self, sbQueue_key]; done) | fail) | fail)) only [poll, key_foldl, key_mk, key_fold, key_ite, ite_self, sbQueue_key]
@[simp] theorem pmbSlot_key (s) (ks) : key (pmbSlot s ks) = key s := by simp only [pmbSlot, key_mk, key_fold, key_ite, ite_self]
@[simp] theorem vmonRead_key (s) (r) : key (vmonRead s r) = key s := by unfold vmonRead; (try dsimp only); (repeat' split) <;> first | with_reducible rfl | (simp only [key_mk, key_fold, key_ite, ite_self]; done) | fail
@[simp] theorem vmonSlot_key (s) (r) : key (vmonSlot s r) = key s := by simp only [vmonSlot, key_mk, key_fold, key_ite, ite_self, poll_key]
@[simp] theorem crossCheck_key (s) : key (crossCheck s) = key s := by simp (disch := (intros; first | with_reducible rfl | (simp only [key_mk, key_fold, key_ite, ite_self, latch_key, logEv_key, setSensor_key]; done) | ((repeat' split) <;> first | with_reducible rfl | (simp only [key_mk, key_fold, key_ite, ite_self, latch_key, logEv_key, setSensor_key]; done) | fail) | fail)) only [crossCheck, key_foldl, key_mk, key_fold, key_ite, ite_self, latch_key, logEv_key, setSensor_key]
@[simp] theorem degradeCheck_key (s) : key (degradeCheck s) = key s := by simp only [degradeCheck, key_mk, key_fold, key_ite, ite_self, latch_key, logEv_key]
@[simp] theorem riseCheck_key (s) : key (riseCheck s).2 = key s := by unfold riseCheck; (try dsimp only); (repeat' split) <;> first | with_reducible rfl | (simp only [key_mk, key_fold, key_ite, ite_self, latch_key]; done) | fail
@[simp] theorem throttle_key (s) (rate) : key (throttle s rate) = key s := by simp only [throttle, key_mk, key_fold, key_ite, ite_self, latch_key]
@[simp] theorem doubling_key (s) : key (doubling s) = key s := by simp only [doubling, key_mk, key_fold, key_ite, ite_self]
@[simp] theorem railAdjust_key (s) : key (railAdjust s) = key s := by simp only [railAdjust, key_mk, key_fold, key_ite, ite_self, latch_key]
@[simp] theorem bucketLeak_key (s) (c) : key (bucketLeak s c) = key s := by simp only [bucketLeak, key_mk, key_fold, key_ite, ite_self, setRegF_key, latch_key]
@[simp] theorem refCheck_key (s) (n) : key (refCheck s n) = key s := by unfold refCheck; (try dsimp only); (repeat' split) <;> first | with_reducible rfl | (simp only [key_mk, key_fold, key_ite, ite_self, setCal_key, takeFree_key, latch_key]; done) | fail
@[simp] theorem calTempUpdate_key (s) (n) : key (calTempUpdate s n) = key s := by simp (disch := (intros; first | with_reducible rfl | (simp only [key_mk, key_fold, key_ite, ite_self, setRegF_key]; done) | ((repeat' split) <;> first | with_reducible rfl | (simp only [key_mk, key_fold, key_ite, ite_self, setRegF_key]; done) | fail) | fail)) only [calTempUpdate, key_foldl, key_mk, key_fold, key_ite, ite_self, setRegF_key]
@[simp] theorem counterRead_key (s) (c) : key (counterRead s c) = key s := by simp (disch := (intros; first | with_reducible rfl | (simp only [key_mk, key_fold, key_ite, ite_self, sbQueue_key]; done) | ((repeat' split) <;> first | with_reducible rfl | (simp only [key_mk, key_fold, key_ite, ite_self, sbQueue_key]; done) | fail) | fail)) only [counterRead, key_foldl, key_mk, key_fold, key_ite, ite_self, sbQueue_key]
@[simp] theorem tripRound_key (s) : key (tripRound s) = key s := by simp only [tripRound, key_mk, key_fold, key_ite, ite_self]
@[simp] theorem roundUnits_key (s) : key (roundUnits s) = key s := by simp (disch := (intros; first | with_reducible rfl | (simp only [key_mk, key_fold, key_ite, ite_self, forN_key, overrides_key, bucketLeak_key, refCheck_key, calTempUpdate_key, counterRead_key]; done) | ((repeat' split) <;> first | with_reducible rfl | (simp only [key_mk, key_fold, key_ite, ite_self, forN_key, overrides_key, bucketLeak_key, refCheck_key, calTempUpdate_key, counterRead_key]; done) | fail) | fail)) only [roundUnits, key_foldl, key_mk, key_fold, key_ite, ite_self, forN_key, overrides_key, bucketLeak_key, refCheck_key, calTempUpdate_key, counterRead_key]
@[simp] theorem roundCounts_key (s) : key (roundCounts s) = key s := by simp only [roundCounts, key_mk, key_fold, key_ite, ite_self, evBlk_key]
@[simp] theorem roundTurn_key (s) : key (roundTurn s) = key s := by simp (disch := (intros; first | with_reducible rfl | (simp only [key_mk, key_fold, key_ite, ite_self]; done) | ((repeat' split) <;> first | with_reducible rfl | (simp only [key_mk, key_fold, key_ite, ite_self]; done) | fail) | fail)) only [roundTurn, key_foldl, key_mk, key_fold, key_ite, ite_self]
@[simp] theorem tripSleep_key (s) : key (tripSleep s) = key s := by simp (disch := (intros; first | with_reducible rfl | (simp only [key_mk, key_fold, key_ite, ite_self, forN_key, sleepChan_key]; done) | ((repeat' split) <;> first | with_reducible rfl | (simp only [key_mk, key_fold, key_ite, ite_self, forN_key, sleepChan_key]; done) | fail) | fail)) only [tripSleep, key_foldl, key_mk, key_fold, key_ite, ite_self, forN_key, sleepChan_key]
@[simp] theorem pmbDone_key (s) (k) : key (pmbDone s k) = key s := by simp only [pmbDone, key_mk, key_fold, key_ite, ite_self]
@[simp] theorem vinCheck_key (s) (mv) : key (vinCheck s mv) = key s := by simp only [vinCheck, key_mk, key_fold, key_ite, ite_self, latch_key]
@[simp] theorem avsEnd_key (s) (r) : key (avsEnd s r) = key s := by unfold avsEnd; (try dsimp only); (repeat' split) <;> first | with_reducible rfl | (simp only [key_mk, key_fold, key_ite, ite_self, latch_key, overrides_key]; done) | (simp (disch := (intros; first | with_reducible rfl | (simp only [key_mk, key_fold, key_ite, ite_self, latch_key, overrides_key]; done) | ((repeat' split) <;> first | with_reducible rfl | (simp only [key_mk, key_fold, key_ite, ite_self, latch_key, overrides_key]; done) | fail) | fail)) only [key_foldl, key_mk, key_fold, key_ite, ite_self, latch_key, overrides_key]; done) | fail
@[simp] theorem sbNext_key (s) : key (sbNext s) = key s := by simp only [sbNext, key_mk, key_fold, key_ite, ite_self, sbStart_key]
@[simp] theorem ppOpEnd_key (s) (r) : key (ppOpEnd s r) = key s := by simp only [ppOpEnd, key_mk, key_fold, key_ite, ite_self]
@[simp] theorem t1500End_key (s) (r) : key (t1500End s r) = key s := by simp only [t1500End, key_mk, key_fold, key_ite, ite_self, latch_key]
@[simp] theorem probeLost_key (s) (c) : key (probeLost s c) = key s := by unfold probeLost; (try dsimp only); (repeat' split) <;> first | with_reducible rfl | (simp only [key_mk, key_fold, key_ite, ite_self, setCal_key]; done) | (simp (disch := (intros; first | with_reducible rfl | (simp only [key_mk, key_fold, key_ite, ite_self, setCal_key]; done) | ((repeat' split) <;> first | with_reducible rfl | (simp only [key_mk, key_fold, key_ite, ite_self, setCal_key]; done) | fail) | fail)) only [key_foldl, key_mk, key_fold, key_ite, ite_self, setCal_key]; done) | fail
@[simp] theorem alertRead_key (s) (c) (w) : key (alertRead s c w) = key s := by simp only [alertRead, key_mk, key_fold, key_ite, ite_self, bumpReg_key, latch_key, logEv_key]
@[simp] theorem remapWritten_key (s) (c) (ws) : key (remapWritten s c ws) = key s := by simp (disch := (intros; first | with_reducible rfl | (simp only [key_mk, key_fold, key_ite, ite_self, modChan_key]; done) | ((repeat' split) <;> first | with_reducible rfl | (simp only [key_mk, key_fold, key_ite, ite_self, modChan_key]; done) | fail) | fail)) only [remapWritten, key_foldl, key_mk, key_fold, key_ite, ite_self, modChan_key]
@[simp] theorem bootRead_key (s) (a) : key (bootRead s a) = key s := by simp only [bootRead, key_mk, key_fold, key_ite, ite_self, sbQueue_key]
@[simp] theorem bootGot_key (s) (a) (ws) : key (bootGot s a ws) = key s := by unfold bootGot; (try dsimp only); (repeat' split) <;> first | with_reducible rfl | (simp only [key_mk, key_fold, key_ite, ite_self, bootRead_key]; done) | fail
@[simp] theorem zeroise_key (s) : key (zeroise s) = key s := by simp (disch := (intros; first | with_reducible rfl | (simp only [key_mk, key_fold, key_ite, ite_self, modChan_key, modOct_key, forN_key, modPort_key]; done) | ((repeat' split) <;> first | with_reducible rfl | (simp only [key_mk, key_fold, key_ite, ite_self, modChan_key, modOct_key, forN_key, modPort_key]; done) | fail) | fail)) only [zeroise, key_foldl, key_mk, key_fold, key_ite, ite_self, modChan_key, modOct_key, forN_key, modPort_key]
@[simp] theorem drawKeys_key (s) : key (drawKeys s) = key s := by unfold drawKeys; (try dsimp only); (repeat' split) <;> first | with_reducible rfl | (simp only [key_mk, key_fold, key_ite, ite_self, modChan_key, forN_key, takeFree_key, takeFreeNonzero_key, smpSeed_key]; done) | (simp (disch := (intros; first | with_reducible rfl | (simp only [key_mk, key_fold, key_ite, ite_self, modChan_key, forN_key, takeFree_key, takeFreeNonzero_key, smpSeed_key]; done) | ((repeat' split) <;> first | with_reducible rfl | (simp only [key_mk, key_fold, key_ite, ite_self, modChan_key, forN_key, takeFree_key, takeFreeNonzero_key, smpSeed_key]; done) | fail) | fail)) only [key_foldl, key_mk, key_fold, key_ite, ite_self, modChan_key, forN_key, takeFree_key, takeFreeNonzero_key, smpSeed_key]; done) | fail
@[simp] theorem applyRecord_key (s) (r) : key (applyRecord s r) = key s := by unfold applyRecord; (try dsimp only); (repeat' split) <;> first | with_reducible rfl | (simp only [key_mk, key_fold, key_ite, ite_self, modChan_key]; done) | (simp (disch := (intros; first | with_reducible rfl | (simp only [key_mk, key_fold, key_ite, ite_self, modChan_key]; done) | ((repeat' split) <;> first | with_reducible rfl | (simp only [key_mk, key_fold, key_ite, ite_self, modChan_key]; done) | fail) | fail)) only [key_foldl, key_mk, key_fold, key_ite, ite_self, modChan_key]; done) | fail
@[simp] theorem loadRepairs_key (s) : key (loadRepairs s) = key s := by simp (disch := (intros; first | with_reducible rfl | (simp only [key_mk, key_fold, key_ite, ite_self, logEv_key, applyRecord_key]; done) | ((repeat' split) <;> first | with_reducible rfl | (simp only [key_mk, key_fold, key_ite, ite_self, logEv_key, applyRecord_key]; done) | fail) | fail)) only [loadRepairs, key_foldl, key_mk, key_fold, key_ite, ite_self, logEv_key, applyRecord_key]
@[simp] theorem loadTemps_key (s) : key (loadTemps s) = key s := by unfold loadTemps; (try dsimp only); (repeat' split) <;> first | with_reducible rfl | (simp only [key_mk, key_fold, key_ite, ite_self, forN_key, setRegF_key, srRead_key]; done) | (simp (disch := (intros; first | with_reducible rfl | (simp only [key_mk, key_fold, key_ite, ite_self, forN_key, setRegF_key, srRead_key]; done) | ((repeat' split) <;> first | with_reducible rfl | (simp only [key_mk, key_fold, key_ite, ite_self, forN_key, setRegF_key, srRead_key]; done) | fail) | fail)) only [key_foldl, key_mk, key_fold, key_ite, ite_self, forN_key, setRegF_key, srRead_key]; done) | fail
@[simp] theorem loadSref_key (s) : key (loadSref s) = key s :=
  forN_key _ _ _ (fun t c => forN_key _ _ _ (fun u w => (srWrite_key ..).trans (modChan_key ..)))
@[simp] theorem loadStackRegs_key (s) : key (loadStackRegs s) = key s := by
  unfold loadStackRegs; dsimp only
  refine (forN_key _ _ _ (fun t c => (key_foldl _ _ _ (fun u e => srWrite_key ..)).trans ?_)).trans
    ((srWrite_key ..).trans (forN_key _ _ _ (fun t i => srWrite_key ..)))
  exact (srWrite_key ..).trans ((srWrite_key ..).trans ((takeFree_key ..).trans (srWrite_key ..)))
@[simp] theorem linkChecked_key (s) : key (linkChecked s) = key s :=
  forN_key _ _ _ (fun t c => forN_key _ _ _ (fun u i => (modStk_key ..).trans (takeFree_key 152 u)))
@[simp] theorem refreshStart_key (s) : key (refreshStart s) = key s := by simp (disch := (intros; first | with_reducible rfl | (simp only [key_mk, key_fold, key_ite, ite_self, modChan_key, forN_key]; done) | ((repeat' split) <;> first | with_reducible rfl | (simp only [key_mk, key_fold, key_ite, ite_self, modChan_key, forN_key]; done) | fail) | fail)) only [refreshStart, key_foldl, key_mk, key_fold, key_ite, ite_self, modChan_key, forN_key]
@[simp] theorem sweepSpares_key (s) : key (sweepSpares s) = key s :=
  forN_key _ _ _ (fun t c => key_foldl _ _ _ (by
    intro u e; dsimp only; split
    · rfl
    · exact key_foldl _ _ _ (fun v col => modStk_key ..)))
@[simp] theorem sweepArray_key (s) : key (sweepArray s) = key s := by simp (disch := (intros; first | with_reducible rfl | (simp only [key_mk, key_fold, key_ite, ite_self, sweepSpares_key]; done) | ((repeat' split) <;> first | with_reducible rfl | (simp only [key_mk, key_fold, key_ite, ite_self, sweepSpares_key]; done) | fail) | fail)) only [sweepArray, key_foldl, key_mk, key_fold, key_ite, ite_self, sweepSpares_key]
@[simp] theorem stepLog_key (s) : key (stepLog s) = key s := by simp only [stepLog, key_mk, key_fold, key_ite, ite_self, logEv_key]
@[simp] theorem atStep_key (s) (n) : key (atStep s n) = key s := by simp only [atStep, key_mk, key_fold, key_ite, ite_self]
@[simp] theorem thermalWait_key (s) : key (thermalWait s) = key s := by simp only [thermalWait, key_mk, key_fold, key_ite, ite_self, logEv_key]
@[simp] theorem mbistEnd_key (s) (fail) : key (mbistEnd s fail) = key s := by unfold mbistEnd; (try dsimp only); (repeat' split) <;> first | with_reducible rfl | (simp only [key_mk, key_fold, key_ite, ite_self, takeFree_key, logEv_key, logUnstage_key]; done) | fail
@[simp] theorem lbistEnd_key (s) (fail) : key (lbistEnd s fail) = key s := by simp only [lbistEnd, key_mk, key_fold, key_ite, ite_self, logEv_key, zeroise_key]
@[simp] theorem trackStep_key (s) : key (trackStep s) = key s :=
  (forN_key _ _ _ (fun t c => forN_key _ _ _ (by
    intro u h; split
    · exact steer_key ..
    · rfl))).trans (forN_key _ _ _ (fun t n => setRegF_key ..))
@[simp] theorem refPassed_key (s) (count) : key (refPassed s count) = key s := by simp only [refPassed, key_mk, key_fold, key_ite, ite_self]
@[simp] theorem refFailed_key (s) : key (refFailed s) = key s := by simp only [refFailed, key_mk, key_fold, key_ite, ite_self]
@[simp] theorem refWindowDone_key (s) (count) : key (refWindowDone s count) = key s := by unfold refWindowDone; (try dsimp only); (repeat' split) <;> first | with_reducible rfl | (simp only [key_mk, key_fold, key_ite, ite_self, refCheck_key, refPassed_key, refFailed_key]; done) | fail
@[simp] theorem refLost_key (s) : key (refLost s) = key s := by simp only [refLost, key_mk, key_fold, key_ite, ite_self, latch_key, logEv_key]
@[simp] theorem uncertainTime_key (s) : key (uncertainTime s) = key s := by simp only [uncertainTime, key_mk, key_fold, key_ite, ite_self, latch_key]
theorem shiftDeadlines_key (s) (d) : key (shiftDeadlines s d) = key s := by
  refine key_of rfl rfl rfl rfl rfl ?_ rfl
  simp only [shiftDeadlines, List.map_map]
  exact List.map_congr_left (fun r _ => rfl)
@[simp] theorem timeLoad_key (s) : key (timeLoad s) = key s := by simp only [timeLoad, key_mk, key_fold, key_ite, ite_self, setRegF_key, latch_key, logEv_key, shiftDeadlines_key]
@[simp] theorem timeSync_key (s) : key (timeSync s) = key s := by simp only [timeSync, key_mk, key_fold, key_ite, ite_self, setReg_key, bumpReg_key, timeLoad_key]
@[simp] theorem relockChan_key (s) (c) : key (relockChan s c) = key s := by simp (disch := (intros; first | with_reducible rfl | (simp only [key_mk, key_fold, key_ite, ite_self, modChan_key, sendRow_key, sendLane_key]; done) | ((repeat' split) <;> first | with_reducible rfl | (simp only [key_mk, key_fold, key_ite, ite_self, modChan_key, sendRow_key, sendLane_key]; done) | fail) | fail)) only [relockChan, key_foldl, key_mk, key_fold, key_ite, ite_self, modChan_key, sendRow_key, sendLane_key]
@[simp] theorem dropSequence_key (s) : key (dropSequence s) = key s := by unfold dropSequence; (try dsimp only); (repeat' split) <;> first | with_reducible rfl | (simp only [key_mk, key_fold, key_ite, ite_self, abandonRepair_key]; done) | fail
@[simp] theorem gateStop_key (s) (d) : key (gateStop s d) = key s := by simp only [gateStop, key_mk, key_fold, key_ite, ite_self]
@[simp] theorem fmeasEnd_key (s) (count) (stopped) : key (fmeasEnd s count stopped) = key s := by simp only [fmeasEnd, key_mk, key_fold, key_ite, ite_self, setReg_key, latch_key]
@[simp] theorem poisonKept_key (s) (ci) (i) : key (poisonKept s ci i) = key s := by unfold poisonKept; (try dsimp only); (repeat' split) <;> first | with_reducible rfl | (simp only [key_mk, key_fold, key_ite, ite_self, setChan_key, latch_key]; done) | (simp (disch := (intros; first | with_reducible rfl | (simp only [key_mk, key_fold, key_ite, ite_self, setChan_key, latch_key]; done) | ((repeat' split) <;> first | with_reducible rfl | (simp only [key_mk, key_fold, key_ite, ite_self, setChan_key, latch_key]; done) | fail) | fail)) only [key_foldl, key_mk, key_fold, key_ite, ite_self, setChan_key, latch_key]; done) | fail
@[simp] theorem keptCheck_key (s) (ci) : key (keptCheck s ci) = key s := by simp only [keptCheck, key_mk, key_fold, key_ite, ite_self, poisonKept_key]
@[simp] theorem expire_key (s) (page) (u) (part) : key (expire s page u part) = key s := by simp only [expire, key_mk, key_fold, key_ite, ite_self, faultAt_key]
@[simp] theorem resumeScope_key (s) (sc) : key (resumeScope s sc) = key s := by unfold resumeScope; (try dsimp only); (repeat' split) <;> first | with_reducible rfl | (simp only [key_mk, key_fold, key_ite, ite_self, modChan_key, modOct_key, forN_key, modPort_key]; done) | (simp (disch := (intros; first | with_reducible rfl | (simp only [key_mk, key_fold, key_ite, ite_self, modChan_key, modOct_key, forN_key, modPort_key]; done) | ((repeat' split) <;> first | with_reducible rfl | (simp only [key_mk, key_fold, key_ite, ite_self, modChan_key, modOct_key, forN_key, modPort_key]; done) | fail) | fail)) only [key_foldl, key_mk, key_fold, key_ite, ite_self, modChan_key, modOct_key, forN_key, modPort_key]; done) | fail
@[simp] theorem recovered_key (s) (page) : key (recovered s page) = key s := by unfold recovered; (try dsimp only); (repeat' split) <;> first | with_reducible rfl | (simp only [key_mk, key_fold, key_ite, ite_self, setRegF_key, logEv_key, resumeScope_key]; done) | (simp (disch := (intros; first | with_reducible rfl | (simp only [key_mk, key_fold, key_ite, ite_self, setRegF_key, logEv_key, resumeScope_key]; done) | ((repeat' split) <;> first | with_reducible rfl | (simp only [key_mk, key_fold, key_ite, ite_self, setRegF_key, logEv_key, resumeScope_key]; done) | fail) | fail)) only [key_foldl, key_mk, key_fold, key_ite, ite_self, setRegF_key, logEv_key, resumeScope_key]; done) | fail
@[simp] theorem mbistDone_key (s) (r) (rows) (cols) : key (mbistDone s r rows cols) = key s := by unfold mbistDone; (try dsimp only); (repeat' split) <;> first | with_reducible rfl | (simp only [key_mk, key_fold, key_ite, ite_self, modOct_key, latch_key]; done) | (simp (disch := (intros; first | with_reducible rfl | (simp only [key_mk, key_fold, key_ite, ite_self, modOct_key, latch_key]; done) | ((repeat' split) <;> first | with_reducible rfl | (simp only [key_mk, key_fold, key_ite, ite_self, modOct_key, latch_key]; done) | fail) | fail)) only [key_foldl, key_mk, key_fold, key_ite, ite_self, modOct_key, latch_key]; done) | fail
@[simp] theorem loadIr_key (s) (i) : key (loadIr s i) = key s := by simp only [loadIr, key_mk, key_fold, key_ite, ite_self]
@[simp] theorem asBypass_key (s) (i) : key (asBypass s i) = key s := by simp only [asBypass, key_mk, key_fold, key_ite, ite_self]
@[simp] theorem jtagAccess_key (s) (dr) : key (jtagAccess s dr) = key s := by simp only [jtagAccess, key_mk, key_fold, key_ite, ite_self, regReadEffect_key, regWrite_key]
@[simp] theorem cycleCounts_key (s) : key (cycleCounts s) = key s := by simp (disch := (intros; first | with_reducible rfl | (simp only [key_mk, key_fold, key_ite, ite_self, forN_key, evCh_key, evPort_key, evOct_key, evBlk_key]; done) | ((repeat' split) <;> first | with_reducible rfl | (simp only [key_mk, key_fold, key_ite, ite_self, forN_key, evCh_key, evPort_key, evOct_key, evBlk_key]; done) | fail) | fail)) only [cycleCounts, key_foldl, key_mk, key_fold, key_ite, ite_self, forN_key, evCh_key, evPort_key, evOct_key, evBlk_key]
@[simp] theorem tickCounts_key (s) : key (tickCounts s) = key s := by simp (disch := (intros; first | with_reducible rfl | (simp only [key_mk, key_fold, key_ite, ite_self, forN_key, evCh_key, evBlk_key]; done) | ((repeat' split) <;> first | with_reducible rfl | (simp only [key_mk, key_fold, key_ite, ite_self, forN_key, evCh_key, evBlk_key]; done) | fail) | fail)) only [tickCounts, key_foldl, key_mk, key_fold, key_ite, ite_self, forN_key, evCh_key, evBlk_key]
@[simp] theorem budgetTick_key (s) : key (budgetTick s) = key s := by simp only [budgetTick, key_mk, key_fold, key_ite, ite_self]
@[simp] theorem idleTick_key (s) (c) : key (idleTick s c) = key s := by simp (disch := (intros; first | with_reducible rfl | (simp only [key_mk, key_fold, key_ite, ite_self, modChan_key]; done) | ((repeat' split) <;> first | with_reducible rfl | (simp only [key_mk, key_fold, key_ite, ite_self, modChan_key]; done) | fail) | fail)) only [idleTick, key_foldl, key_mk, key_fold, key_ite, ite_self, modChan_key]
@[simp] theorem progTick_key (s) : key (progTick s) = key s := by simp (disch := (intros; first | with_reducible rfl | (simp only [key_mk, key_fold, key_ite, ite_self, modChan_key, modOct_key, forN_key, modPort_key]; done) | ((repeat' split) <;> first | with_reducible rfl | (simp only [key_mk, key_fold, key_ite, ite_self, modChan_key, modOct_key, forN_key, modPort_key]; done) | fail) | fail)) only [progTick, key_foldl, key_mk, key_fold, key_ite, ite_self, modChan_key, modOct_key, forN_key, modPort_key]
@[simp] theorem timeTick_key (s) : key (timeTick s) = key s := by simp (disch := (intros; first | with_reducible rfl | (simp only [key_mk, key_fold, key_ite, ite_self, forN_key, logTake_key, tickCounts_key, budgetTick_key, idleTick_key, progTick_key]; done) | ((repeat' split) <;> first | with_reducible rfl | (simp only [key_mk, key_fold, key_ite, ite_self, forN_key, logTake_key, tickCounts_key, budgetTick_key, idleTick_key, progTick_key]; done) | fail) | fail)) only [timeTick, key_foldl, key_mk, key_fold, key_ite, ite_self, forN_key, logTake_key, tickCounts_key, budgetTick_key, idleTick_key, progTick_key]
@[simp] theorem coreCycle_key (s) : key (coreCycle s) = key s := by simp only [coreCycle, key_mk, key_fold, key_ite, ite_self, reconAskAll_key, startSlots_key, remapCopy_key, cycleCounts_key]
@[simp] theorem tick_key (s) : key (tick s) = key s := by simp only [tick, key_mk, key_fold, key_ite, ite_self, timeTick_key, coreCycle_key]

end Sys2Proof.Machine
end

