-- ==== Sys2Proof/Laws/Tab.lean ====
section
/-! SUPPORT. Tables and RAMs: a read after a write, and the canonical form that every write keeps. -/

set_option Elab.async false

namespace Sys2Proof.Machine

/-! ### Tables -/

@[simp] theorem Tab.find_put_self {α : Type} (t : Tab α) (k : Nat) (v : α) : Tab.find (Tab.put t k v) k = some v := by
  induction t with
  | nil => simp [Tab.put, Tab.find]
  | cons e t ih =>
    unfold Tab.put
    split
    · simp [Tab.find]
    · split
      · simp [Tab.find]
      · rename_i h
        simp [Tab.find, Ne.symm h, ih]

theorem Tab.find_put_other {α : Type} (t : Tab α) (k j : Nat) (v : α) (h : j ≠ k) :
    Tab.find (Tab.put t k v) j = Tab.find t j := by
  induction t with
  | nil => simp [Tab.put, Tab.find, Ne.symm h]
  | cons e t ih =>
    unfold Tab.put
    split
    · simp [Tab.find, Ne.symm h]
    · split
      · rename_i hk; subst hk; simp [Tab.find, Ne.symm h]
      · simp [Tab.find, ih]

theorem Tab.put_put {α : Type} (t : Tab α) (k : Nat) (v w : α) : Tab.put (Tab.put t k v) k w = Tab.put t k w := by
  induction t with
  | nil => simp [Tab.put]
  | cons a t ih =>
    obtain ⟨k', v'⟩ := a
    by_cases h1 : k < k'
    · simp [Tab.put, h1]
    · by_cases h2 : k = k'
      · subst h2; simp [Tab.put]
      · simp [Tab.put, h1, h2, ih]

@[simp] theorem Tab.get_put_self {α : Type} (t : Tab α) (k : Nat) (v d : α) : Tab.get (Tab.put t k v) k d = v := by
  simp [Tab.get]

theorem Tab.get_put_other {α : Type} (t : Tab α) (k j : Nat) (v d : α) (h : j ≠ k) :
    Tab.get (Tab.put t k v) j d = Tab.get t j d := by
  simp [Tab.get, Tab.find_put_other t k j v h]

theorem Tab.find_drop_other {α : Type} (t : Tab α) (k j : Nat) (h : j ≠ k) : Tab.find (Tab.drop t k) j = Tab.find t j := by
  induction t with
  | nil => rfl
  | cons e t ih =>
    unfold Tab.drop
    split
    · rename_i hk; simp [Tab.find, hk, Ne.symm h]
    · simp [Tab.find, ih]

/-! ### Rising keys -/

theorem Tab.risingFrom_mono {α : Type} (t : Tab α) (a b : Nat) (h : a ≤ b) (r : Tab.risingFrom t b = true) :
    Tab.risingFrom t a = true := by
  cases t with
  | nil => rfl
  | cons e t =>
    simp only [Tab.risingFrom, Bool.and_eq_true, decide_eq_true_eq] at r ⊢
    exact ⟨le_trans h r.1, r.2⟩

theorem Tab.find_below {α : Type} (t : Tab α) (a k : Nat) (h : k < a) (r : Tab.risingFrom t a = true) :
    Tab.find t k = none := by
  induction t generalizing a with
  | nil => rfl
  | cons e t ih =>
    simp only [Tab.risingFrom, Bool.and_eq_true, decide_eq_true_eq] at r
    unfold Tab.find
    rw [if_neg (by omega)]
    exact ih (e.1 + 1) (by omega) r.2

theorem Tab.find_drop_self {α : Type} (t : Tab α) (a k : Nat) (r : Tab.risingFrom t a = true) :
    Tab.find (Tab.drop t k) k = none := by
  induction t generalizing a with
  | nil => rfl
  | cons e t ih =>
    simp only [Tab.risingFrom, Bool.and_eq_true, decide_eq_true_eq] at r
    unfold Tab.drop
    split
    · rename_i h; exact Tab.find_below t (e.1 + 1) k (by omega) r.2
    · rename_i h; simp only [Tab.find, if_neg h]; exact ih (e.1 + 1) r.2

theorem Tab.risingFrom_put {α : Type} (t : Tab α) (a k : Nat) (v : α) (h : a ≤ k) (r : Tab.risingFrom t a = true) :
    Tab.risingFrom (Tab.put t k v) a = true := by
  induction t generalizing a with
  | nil => simp [Tab.put, Tab.risingFrom, h]
  | cons e t ih =>
    simp only [Tab.risingFrom, Bool.and_eq_true, decide_eq_true_eq] at r
    unfold Tab.put
    split
    · simp only [Tab.risingFrom, Bool.and_eq_true, decide_eq_true_eq]; exact ⟨h, by omega, r.2⟩
    · split
      · rename_i hk; subst hk; simp only [Tab.risingFrom, Bool.and_eq_true, decide_eq_true_eq]; exact r
      · simp only [Tab.risingFrom, Bool.and_eq_true, decide_eq_true_eq]; exact ⟨r.1, ih _ (by omega) r.2⟩

theorem Tab.risingFrom_drop {α : Type} (t : Tab α) (a k : Nat) (r : Tab.risingFrom t a = true) :
    Tab.risingFrom (Tab.drop t k) a = true := by
  induction t generalizing a with
  | nil => rfl
  | cons e t ih =>
    simp only [Tab.risingFrom, Bool.and_eq_true, decide_eq_true_eq] at r
    unfold Tab.drop
    split
    · exact Tab.risingFrom_mono t a (e.1 + 1) (by omega) r.2
    · simp only [Tab.risingFrom, Bool.and_eq_true, decide_eq_true_eq]; exact ⟨r.1, ih _ r.2⟩

theorem Tab.mem_put {α : Type} (t : Tab α) (k : Nat) (v : α) (e : Nat × α) (h : e ∈ Tab.put t k v) :
    e = (k, v) ∨ e ∈ t := by
  induction t with
  | nil => simpa [Tab.put] using h
  | cons x t ih =>
    unfold Tab.put at h
    split at h
    · simpa using h
    · split at h
      · rcases List.mem_cons.1 h with h | h
        · exact .inl h
        · exact .inr (List.mem_cons_of_mem _ h)
      · rcases List.mem_cons.1 h with h | h
        · exact .inr (h ▸ List.mem_cons_self)
        · exact (ih h).imp_right (List.mem_cons_of_mem _)

theorem Tab.mem_drop {α : Type} (t : Tab α) (k : Nat) (e : Nat × α) (h : e ∈ Tab.drop t k) : e ∈ t := by
  induction t with
  | nil => simp [Tab.drop] at h
  | cons x t ih =>
    unfold Tab.drop at h
    split at h
    · exact List.mem_cons_of_mem _ h
    · rcases List.mem_cons.1 h with h | h
      · exact h ▸ List.mem_cons_self
      · exact List.mem_cons_of_mem _ (ih h)

/-! ### RAMs -/

/-- What a RAM in canonical form reads after a write. -/
theorem ramRead_ramWrite {n : Nat} (d : Nat → BitVec n) (t : Tab (BitVec n)) (k j : Nat) (v : BitVec n)
    (w : ramWf d t = true) : ramRead d (ramWrite d t k v) j = if j = k then v else ramRead d t j := by
  have r : Tab.risingFrom t 0 = true := (Bool.and_eq_true _ _ ▸ w).1
  unfold ramRead ramWrite
  by_cases hj : j = k
  · subst hj
    rw [if_pos rfl]
    split
    · rename_i hv; rw [Tab.find_drop_self t 0 j r]; exact hv.symm
    · rw [Tab.find_put_self]; rfl
  · rw [if_neg hj]
    split
    · rw [Tab.find_drop_other t k j hj]
    · rw [Tab.find_put_other t k j v hj]

/-- A RAM write leaves every other key alone, whatever the form. -/
theorem ramRead_ramWrite_other {n : Nat} (d : Nat → BitVec n) (t : Tab (BitVec n)) (k j : Nat) (v : BitVec n) (h : j ≠ k) :
    ramRead d (ramWrite d t k v) j = ramRead d t j := by
  unfold ramRead ramWrite
  split
  · rw [Tab.find_drop_other t k j h]
  · rw [Tab.find_put_other t k j v h]

/-- A RAM write keeps the canonical form. -/
theorem ramWf_ramWrite {n : Nat} (d : Nat → BitVec n) (t : Tab (BitVec n)) (k : Nat) (v : BitVec n) (w : ramWf d t = true) :
    ramWf d (ramWrite d t k v) = true := by
  simp only [ramWf, Tab.rising, Bool.and_eq_true, List.all_eq_true, decide_eq_true_eq] at w ⊢
  unfold ramWrite
  split
  · exact ⟨Tab.risingFrom_drop t 0 k w.1, fun e h => w.2 e (Tab.mem_drop t k e h)⟩
  · rename_i hv
    refine ⟨Tab.risingFrom_put t 0 k v (Nat.zero_le _) w.1, fun e h => ?_⟩
    rcases Tab.mem_put t k v e h with rfl | h
    · exact hv
    · exact w.2 e h

@[simp] theorem ramWf_nil {n : Nat} (d : Nat → BitVec n) : ramWf d [] = true := rfl

/-! ### The stack's stores -/

/-- Distinct places of the array have distinct keys. -/
theorem arrKey_inj {sp sp' : Bool} {b b' r r' c c' h h' : Nat} (hb : b < 16) (hb' : b' < 16) (hr : r < 2 ^ 17) (hr' : r' < 2 ^ 17)
    (hc : c < 32) (hc' : c' < 32) (hh : h < 2) (hh' : h' < 2) (e : arrKey sp b r c h = arrKey sp' b' r' c' h') :
    sp = sp' ∧ b = b' ∧ r = r' ∧ c = c' ∧ h = h' := by
  unfold arrKey at e
  cases sp <;> cases sp' <;> simp only [if_true, if_false, Bool.false_eq_true] at e <;> (first | omega | (refine ⟨?_, ?_, ?_, ?_, ?_⟩ <;> first | rfl | omega))

theorem arrWrite_wf (st : Stack) (ch : Nat) (x : StkChan) (sp : Bool) (b r c : Nat) (d : Sector)
    (w : ramWf (arrDflt st ch) x.array = true) : ramWf (arrDflt st ch) (arrWrite st ch x sp b r c d).array = true :=
  ramWf_ramWrite _ _ _ _ (ramWf_ramWrite _ _ _ _ w)

theorem vbufWrite_wf (st : Stack) (ch : Nat) (x : StkChan) (sec : Nat) (d : Sector)
    (w : ramWf (vbufDflt st ch) x.vbuf = true) : ramWf (vbufDflt st ch) (vbufWrite st ch x sec d).vbuf = true :=
  ramWf_ramWrite _ _ _ _ (ramWf_ramWrite _ _ _ _ w)

@[simp] theorem arrWrite_vbuf (st : Stack) (ch : Nat) (x : StkChan) (sp : Bool) (b r c : Nat) (d : Sector) :
    (arrWrite st ch x sp b r c d).vbuf = x.vbuf := rfl

@[simp] theorem vbufWrite_array (st : Stack) (ch : Nat) (x : StkChan) (sec : Nat) (d : Sector) :
    (vbufWrite st ch x sec d).array = x.array := rfl

end Sys2Proof.Machine
end

