-- ==== Sys2Proof/Laws/Mems.lean ====
section
/-! SUPPORT. Frames of the stack's memory: what every operation but a few leaves alone. `mem` is what the array and the vector
buffer hold; one lemma for each operation says that the operation keeps it. The operations that store into it stand in
Laws/Memory.lean. -/

set_option Elab.async false

namespace Sys2Proof.Machine

/-- What the stack's array and vector buffer hold: what an unlisted granule reads as, and the listed ones. -/
def memOf (base : ArrayBase) (gen : Nat) (chans : Tab StkChan) : ArrayBase × Nat × (Nat → Tab Granule × Tab Granule) :=
  (base, gen, fun c => ((Tab.get chans c StkChan.reset).array, (Tab.get chans c StkChan.reset).vbuf))

/-- The memory of the stack: its array and vector buffer. -/
def mem (s : State) : ArrayBase × Nat × (Nat → Tab Granule × Tab Granule) := memOf s.stack.base s.stack.gen s.stack.chans

@[simp] theorem mem_fold (s : State) : memOf s.stack.base s.stack.gen s.stack.chans = mem s := Eq.trans rfl rfl

@[simp] theorem mem_ite (c : Prop) [Decidable c] (s t : State) : mem (if c then s else t) = if c then mem s else mem t := by
  split <;> rfl

theorem mem_foldl {α : Type} (f : State → α → State) (l : List α) (s : State)
    (h : ∀ t x, mem (f t x) = mem t) : mem (l.foldl f s) = mem s := by
  induction l generalizing s with
  | nil => rfl
  | cons x l ih => exact (ih (f s x)).trans (h s x)

@[simp] theorem mem_mk (part : Part) (time : Time) (clk : Clk) (blk : Blk) (pins : Pins) (regs : Tab Word) (ports : Tab Port) (reqs : List Req) (nextReq : Nat) (rgn : Tab Region) (attn : AttnWin) (hdl : Hdl) (arb : Arb) (winStart : Nat) (chans : Tab Chan) (disp : Disp) (octs : Tab Oct) (link : Link) (cals : Tab CalEng) (hk : Hk) (ecc : Ecc) (thm : Thm) (pwr : Pwr) (log : Log) (recov : List Recovery) (lastFault : Nat × Nat) (lastInt : Nat) (test : Test) (pmu : Pmu) (sec : Sec) (stack : Stack) (free : Nat) (pending : List Instr) :
    mem (State.mk part time clk blk pins regs ports reqs nextReq rgn attn hdl arb winStart chans disp octs link cals hk ecc thm pwr log recov lastFault lastInt test pmu sec stack free pending) =
      memOf stack.base stack.gen stack.chans := Eq.trans rfl rfl

theorem mem_foldl₂ {α β : Type} (f : β × State → α → β × State) (l : List α) (a : β × State)
    (h : ∀ a x, mem (f a x).2 = mem a.2) : mem (l.foldl f a).2 = mem a.2 := by
  induction l generalizing a with
  | nil => rfl
  | cons x l ih => exact (ih (f a x)).trans (h a x)

theorem mem_foldl₃ {α β γ : Type} (f : β × γ × State → α → β × γ × State) (l : List α) (a : β × γ × State)
    (h : ∀ a x, mem (f a x).2.2 = mem a.2.2) : mem (l.foldl f a).2.2 = mem a.2.2 := by
  induction l generalizing a with
  | nil => rfl
  | cons x l ih => exact (ih (f a x)).trans (h a x)

/-! ### A channel's stores -/

/-- What a channel of the stack stores: its array and its vector buffer. -/
def StkChan.held (x : StkChan) : Tab Granule × Tab Granule := (x.array, x.vbuf)

@[simp] theorem held_fold (x : StkChan) : (x.array, x.vbuf) = x.held := Eq.trans rfl rfl

@[simp] theorem held_mk (array : Tab Granule) (vbuf : Tab Granule) (opens : Tab (Nat × Bool)) (rsv : Tab Nat) (ctxs : Tab Ctx) (alert : Bool) (alertCause : Nat) (alertCount : Nat) (lnErr : Word) (nrfCfg : Word) (seedLo : Word) (gen : BitVec 64) (lastNrf : Option (Nat × Nat × Bool × Bool)) (nrfCount : Nat) (refCtr : Tab Nat) (selfRefresh : Bool) (srMark : Nat) (powerDown : Bool) (cmdCe : Tab Nat) (sref : Tab Nat) (remap : Tab Word) (lanes : Tab StkLane) (ret : List Burst) (col : Nat) (tAct : Tab Nat) (tPre : Tab Nat) (tRd : Tab Nat) (tWr : Tab Nat) (tRef : Tab Nat) (tNrf : Tab Nat) (acts : List (Nat × Nat)) (lastCol : Option Nat) (colAt : Tab Nat) (lastRd : Option Nat) (lastWr : Option Nat) :
    (StkChan.mk array vbuf opens rsv ctxs alert alertCause alertCount lnErr nrfCfg seedLo gen lastNrf nrfCount refCtr selfRefresh srMark powerDown cmdCe sref remap lanes ret col tAct tPre tRd tWr tRef tNrf acts lastCol colAt lastRd lastWr).held = (array, vbuf) := Eq.trans rfl rfl

theorem held_ite (c : Prop) [Decidable c] (x y : StkChan) : (if c then x else y).held = if c then x.held else y.held := by
  split <;> rfl

theorem held_foldl {α : Type} (f : StkChan → α → StkChan) (l : List α) (x : StkChan) (h : ∀ y a, (f y a).held = y.held) :
    (l.foldl f x).held = x.held := by
  induction l generalizing x with
  | nil => rfl
  | cons a l ih => exact (ih (f x a)).trans (h x a)

@[simp] theorem noteAct_held (x : StkChan) (b t : Nat) : (x.noteAct b t).held = x.held := rfl
@[simp] theorem noteCol_held (x : StkChan) (g t : Nat) (r : Bool) : (x.noteCol g t r).held = x.held := rfl
@[simp] theorem calm_held (x : StkChan) : x.calm.held = x.held := rfl
@[simp] theorem setCtx_held (x : StkChan) (i : Nat) (v : Ctx) : (x.setCtx i v).held = x.held := rfl
@[simp] theorem releaseBanks_held (x : StkChan) (i : Nat) : (releaseBanks x i).held = x.held := rfl
@[simp] theorem prbsSent_held (x : StkChan) (t : Nat) : (prbsSent x t).held = x.held := rfl
@[simp] theorem stkClose_held (t : Nat) (x : StkChan) (b h : Nat) : (stkClose t x b h).held = x.held := by
  unfold stkClose; split <;> rfl
@[simp] theorem sliceAct_held (x : StkChan) (b r : Nat) : (sliceAct x b r).held = x.held := by
  unfold sliceAct; dsimp only; split <;> rfl
@[simp] theorem laneHears_held (x : StkChan) (h t : Nat) (d : LaneMode) (p : Byte) (n : BitVec 320) (g : Granule) :
    (laneHears x h t d p n g).held = x.held := by
  unfold laneHears; dsimp only; split <;> rfl
@[simp] theorem sliceActs_held (x : StkChan) (ps : List Place) : (sliceActs x ps).held = x.held := by
  unfold sliceActs
  suffices H : ∀ (a : StkChan × Option (Nat × Nat)), (ps.foldl (fun (acc : StkChan × Option (Nat × Nat)) p =>
      if acc.2 = some (p.bank, p.row) then acc else (sliceAct acc.1 p.bank p.row, some (p.bank, p.row))) a).1.held = a.1.held from
    H (x, none)
  induction ps with
  | nil => exact fun a => rfl
  | cons p ps ih =>
    intro a
    refine (ih _).trans ?_
    dsimp only
    split
    · rfl
    · exact sliceAct_held ..

theorem setStk_mem (s : State) (c : Nat) (x : StkChan) (h : x.held = (stk s c).held) : mem (setStk s c x) = mem s := by
  have h1 : x.array = (stk s c).array := congrArg Prod.fst h
  have h2 : x.vbuf = (stk s c).vbuf := congrArg Prod.snd h
  unfold mem memOf setStk
  simp only [Prod.mk.injEq, true_and]
  funext i
  by_cases hi : i = c
  · subst hi; simp only [Tab.get_put_self, h1, h2]; rfl
  · simp only [Tab.get_put_other _ _ _ _ _ hi]

@[simp] theorem modStk_mem (s : State) (c : Nat) (f : StkChan → StkChan) (h : ∀ x, (f x).held = x.held) :
    mem (modStk s c f) = mem s := setStk_mem s c _ (h _)

@[simp] theorem forN_mem (n : Nat) (f : State → Nat → State) (s : State) (h : ∀ t k, mem (f t k) = mem t) : mem (forN n f s) = mem s := mem_foldl f _ s h
@[simp] theorem setPort_mem (s) (p) (x) : mem (setPort s p x) = mem s := by simp only [setPort, mem_mk, mem_fold, mem_ite, ite_self]
@[simp] theorem setChan_mem (s) (c) (x) : mem (setChan s c x) = mem s := by simp only [setChan, mem_mk, mem_fold, mem_ite, ite_self]
@[simp] theorem modChan_mem (s) (c) (f : Chan → Chan) : mem (modChan s c f) = mem s := by simp only [modChan, mem_mk, mem_fold, mem_ite, ite_self, setChan_mem]
@[simp] theorem setOct_mem (s) (k) (x) : mem (setOct s k x) = mem s := by simp only [setOct, mem_mk, mem_fold, mem_ite, ite_self]
@[simp] theorem modOct_mem (s) (k) (f : Oct → Oct) : mem (modOct s k f) = mem s := by simp only [modOct, mem_mk, mem_fold, mem_ite, ite_self, setOct_mem]
@[simp] theorem setCal_mem (s) (n) (x) : mem (setCal s n x) = mem s := by simp only [setCal, mem_mk, mem_fold, mem_ite, ite_self]
@[simp] theorem modReq_mem (s) (id) (f : Req → Req) : mem (modReq s id f) = mem s := by simp (disch := (intros; first | with_reducible rfl | (simp only [mem_mk, mem_fold, mem_ite, ite_self]; done) | ((repeat' split) <;> first | with_reducible rfl | (simp only [mem_mk, mem_fold, mem_ite, ite_self]; done) | fail) | fail)) only [modReq, mem_foldl, mem_mk, mem_fold, mem_ite, ite_self]
@[simp] theorem takeFree_mem (w) (s) : mem (takeFree w s).2 = mem s := by simp only [takeFree, mem_mk, mem_fold, mem_ite, ite_self]
@[simp] theorem takeFreeNonzero_mem (w) (sub) (s) : mem (takeFreeNonzero w sub s).2 = mem s := by unfold takeFreeNonzero; (try dsimp only); (repeat' split) <;> first | with_reducible rfl | (simp only [mem_mk, mem_fold, mem_ite, ite_self, takeFree_mem]; done) | fail
@[simp] theorem setReg_mem (s) (page) (off) (w) : mem (setReg s page off w) = mem s := by simp only [setReg, mem_mk, mem_fold, mem_ite, ite_self]
@[simp] theorem setRegF_mem (s) (page) (off) (lo) (w) (v) : mem (setRegF s page off lo w v) = mem s := by simp only [setRegF, mem_mk, mem_fold, mem_ite, ite_self, setReg_mem]
@[simp] theorem bumpReg_mem (s) (page) (off) (lo) (w) (inc) : mem (bumpReg s page off lo w inc) = mem s := by simp only [bumpReg, mem_mk, mem_fold, mem_ite, ite_self, setRegF_mem]
@[simp] theorem latch_mem (s) (page) (bit) : mem (latch s page bit) = mem s := by simp only [latch, mem_mk, mem_fold, mem_ite, ite_self, setRegF_mem]
@[simp] theorem attnRecheck_mem (s) (clearing) (id) : mem (attnRecheck s clearing id) = mem s := by simp only [attnRecheck, mem_mk, mem_fold, mem_ite, ite_self]
@[simp] theorem setOvf_mem (s) (i) : mem (setOvf s i) = mem s := by simp only [setOvf, mem_mk, mem_fold, mem_ite, ite_self, setRegF_mem, latch_mem]
@[simp] theorem setCounter_mem (s) (i) (v) : mem (setCounter s i v) = mem s := by simp only [setCounter, mem_mk, mem_fold, mem_ite, ite_self]
@[simp] theorem counterAddPlain_mem (s) (i) (inc) : mem (counterAddPlain s i inc) = mem s := by simp only [counterAddPlain, mem_mk, mem_fold, mem_ite, ite_self, setOvf_mem, setCounter_mem]
@[simp] theorem counterAdd_mem (s) (i) (inc) : mem (counterAdd s i inc) = mem s := by simp only [counterAdd, mem_mk, mem_fold, mem_ite, ite_self, setCounter_mem, counterAddPlain_mem]
@[simp] theorem countEv_mem (s) (k) (inst) (code) (inc) (a) : mem (countEv s k inst code inc a) = mem s := by simp (disch := (intros; first | with_reducible rfl | (simp only [mem_mk, mem_fold, mem_ite, ite_self, counterAdd_mem]; done) | ((repeat' split) <;> first | with_reducible rfl | (simp only [mem_mk, mem_fold, mem_ite, ite_self, counterAdd_mem]; done) | fail) | fail)) only [countEv, mem_foldl, mem_mk, mem_fold, mem_ite, ite_self, counterAdd_mem]
@[simp] theorem evCh_mem (s) (c) (code) (inc) (a) : mem (evCh s c code inc a) = mem s := by simp only [evCh, mem_mk, mem_fold, mem_ite, ite_self, countEv_mem]
@[simp] theorem evPort_mem (s) (p) (code) (inc) (a) : mem (evPort s p code inc a) = mem s := by simp only [evPort, mem_mk, mem_fold, mem_ite, ite_self, countEv_mem]
@[simp] theorem evOct_mem (s) (k) (code) (inc) (a) : mem (evOct s k code inc a) = mem s := by simp only [evOct, mem_mk, mem_fold, mem_ite, ite_self, countEv_mem]
@[simp] theorem evBlk_mem (s) (code) (inc) (a) : mem (evBlk s code inc a) = mem s := by simp only [evBlk, mem_mk, mem_fold, mem_ite, ite_self, countEv_mem]
@[simp] theorem logDrop_mem (s) : mem (logDrop s) = mem s := by simp only [logDrop, mem_mk, mem_fold, mem_ite, ite_self, bumpReg_mem, latch_mem]
@[simp] theorem logEnter_mem (s) (e) : mem (logEnter s e) = mem s := by simp only [logEnter, mem_mk, mem_fold, mem_ite, ite_self, bumpReg_mem, latch_mem]
@[simp] theorem logEv_mem (s) (code) (unit) (lvl) (data) : mem (logEv s code unit lvl data) = mem s := by simp only [logEv, mem_mk, mem_fold, mem_ite, ite_self, logDrop_mem]
@[simp] theorem logTake_mem (s) : mem (logTake s) = mem s := by unfold logTake; (try dsimp only); (repeat' split) <;> first | with_reducible rfl | (simp only [mem_mk, mem_fold, mem_ite, ite_self, logEnter_mem]; done) | fail
@[simp] theorem logUnstage_mem (s) : mem (logUnstage s) = mem s := by simp only [logUnstage, mem_mk, mem_fold, mem_ite, ite_self]
@[simp] theorem enterAlert_mem (s) (c) (cause) : mem (enterAlert s c cause) = mem s := by simp (disch := (intros; first | with_reducible rfl | (simp only [mem_mk, mem_fold, mem_ite, ite_self, modStk_mem]; done) | ((repeat' split) <;> first | with_reducible rfl | (simp only [mem_mk, mem_fold, mem_ite, ite_self, modStk_mem]; done) | fail) | (simp only [held_mk, held_ite, held_foldl, held_fold, noteAct_held, noteCol_held, calm_held, setCtx_held, releaseBanks_held, prbsSent_held, stkClose_held, sliceAct_held, sliceActs_held, laneHears_held]; done) | ((repeat' split) <;> first | (simp only [held_mk, held_ite, held_foldl, held_fold, noteAct_held, noteCol_held, calm_held, setCtx_held, releaseBanks_held, prbsSent_held, stkClose_held, sliceAct_held, sliceActs_held, laneHears_held]; done)) | fail)) only [enterAlert, mem_foldl, mem_mk, mem_fold, mem_ite, ite_self, modStk_mem]
@[simp] theorem srAdvance_mem (s) (c) : mem (srAdvance s c) = mem s := by simp (disch := (intros; first | with_reducible rfl | (simp only [mem_mk, mem_fold, mem_ite, ite_self, modStk_mem]; done) | ((repeat' split) <;> first | with_reducible rfl | (simp only [mem_mk, mem_fold, mem_ite, ite_self, modStk_mem]; done) | fail) | (simp only [held_mk, held_ite, held_foldl, held_fold, noteAct_held, noteCol_held, calm_held, setCtx_held, releaseBanks_held, prbsSent_held, stkClose_held, sliceAct_held, sliceActs_held, laneHears_held]; done) | ((repeat' split) <;> first | (simp only [held_mk, held_ite, held_foldl, held_fold, noteAct_held, noteCol_held, calm_held, setCtx_held, releaseBanks_held, prbsSent_held, stkClose_held, sliceAct_held, sliceActs_held, laneHears_held]; done)) | fail)) only [srAdvance, mem_foldl, mem_mk, mem_fold, mem_ite, ite_self, modStk_mem]
@[simp] theorem srEnter_mem (s) (c) : mem (srEnter s c) = mem s := by simp (disch := (intros; first | with_reducible rfl | (simp only [mem_mk, mem_fold, mem_ite, ite_self, modStk_mem]; done) | ((repeat' split) <;> first | with_reducible rfl | (simp only [mem_mk, mem_fold, mem_ite, ite_self, modStk_mem]; done) | fail) | (simp only [held_mk, held_ite, held_foldl, held_fold, noteAct_held, noteCol_held, calm_held, setCtx_held, releaseBanks_held, prbsSent_held, stkClose_held, sliceAct_held, sliceActs_held, laneHears_held]; done) | ((repeat' split) <;> first | (simp only [held_mk, held_ite, held_foldl, held_fold, noteAct_held, noteCol_held, calm_held, setCtx_held, releaseBanks_held, prbsSent_held, stkClose_held, sliceAct_held, sliceActs_held, laneHears_held]; done)) | fail)) only [srEnter, mem_foldl, mem_mk, mem_fold, mem_ite, ite_self, modStk_mem]
@[simp] theorem writeBurst_mem (s) (c) (t) (d) (noise) : mem (writeBurst s c t d noise).2 = mem s :=
  (modChan_mem ..).trans (modStk_mem _ _ _ (fun x => (laneHears_held ..).trans (laneHears_held ..)))
@[simp] theorem takeRow_mem (s) (c) (i) : mem (takeRow s c i) = mem s := by unfold takeRow; (try dsimp only); (repeat' split) <;> first | with_reducible rfl | (simp only [mem_mk, mem_fold, mem_ite, ite_self, modChan_mem]; done) | (simp (disch := (intros; first | with_reducible rfl | (simp only [mem_mk, mem_fold, mem_ite, ite_self, modChan_mem]; done) | ((repeat' split) <;> first | with_reducible rfl | (simp only [mem_mk, mem_fold, mem_ite, ite_self, modChan_mem]; done) | fail) | fail)) only [mem_foldl, mem_mk, mem_fold, mem_ite, ite_self, modChan_mem]; done) | fail
@[simp] theorem takeCol_mem (s) (c) (i) : mem (takeCol s c i) = mem s := by unfold takeCol; (try dsimp only); (repeat' split) <;> first | with_reducible rfl | (simp only [mem_mk, mem_fold, mem_ite, ite_self, modChan_mem]; done) | (simp (disch := (intros; first | with_reducible rfl | (simp only [mem_mk, mem_fold, mem_ite, ite_self, modChan_mem]; done) | ((repeat' split) <;> first | with_reducible rfl | (simp only [mem_mk, mem_fold, mem_ite, ite_self, modChan_mem]; done) | fail) | fail)) only [mem_foldl, mem_mk, mem_fold, mem_ite, ite_self, modChan_mem]; done) | fail
@[simp] theorem pushBurst_mem (s) (c) (t) (order) (d) (alert) : mem (pushBurst s c t order d alert) = mem s := by simp (disch := (intros; first | with_reducible rfl | (simp only [mem_mk, mem_fold, mem_ite, ite_self, modStk_mem]; done) | ((repeat' split) <;> first | with_reducible rfl | (simp only [mem_mk, mem_fold, mem_ite, ite_self, modStk_mem]; done) | fail) | (simp only [held_mk, held_ite, held_foldl, held_fold, noteAct_held, noteCol_held, calm_held, setCtx_held, releaseBanks_held, prbsSent_held, stkClose_held, sliceAct_held, sliceActs_held, laneHears_held]; done) | ((repeat' split) <;> first | (simp only [held_mk, held_ite, held_foldl, held_fold, noteAct_held, noteCol_held, calm_held, setCtx_held, releaseBanks_held, prbsSent_held, stkClose_held, sliceAct_held, sliceActs_held, laneHears_held]; done)) | fail)) only [pushBurst, mem_foldl, mem_mk, mem_fold, mem_ite, ite_self, modStk_mem]
@[simp] theorem stkReadCmd_mem (s : State) (c t o g : Nat) (f : State → State) (h : ∀ t, mem (f t) = mem t) :
    mem (stkReadCmd s c t o g f) = mem s := by
  unfold stkReadCmd; (repeat' split)
  · rfl
  · exact pushBurst_mem ..
  · exact (pushBurst_mem ..).trans (enterAlert_mem ..)
  · exact (h _).trans (modStk_mem _ _ _ (fun x => rfl))
@[simp] theorem stkWriteCmd_mem (s : State) (c t g : Nat) (d : Sector) (noise : BitVec 320) (f : Sector → State → State)
    (h : ∀ d t, mem (f d t) = mem t) : mem (stkWriteCmd s c t g d noise f) = mem s := by
  unfold stkWriteCmd; split
  · rfl
  · split
    · exact enterAlert_mem ..
    · exact (h _ _).trans ((writeBurst_mem ..).trans (modStk_mem _ _ _ (fun x => rfl)))
@[simp] theorem stkRowCmd_mem (s : State) (c : Nat) (b : Bool) (f : State → State) (h : ∀ t, mem (f t) = mem t) :
    mem (stkRowCmd s c b f) = mem s := by
  unfold stkRowCmd; split <;> simp only [h]
@[simp] theorem withOpenRow_mem (s : State) (c t b h : Nat) (f : Nat → Bool → State) (bad : State → State)
    (h1 : ∀ r p, mem (f r p) = mem s) (h2 : ∀ t, mem (bad t) = mem t) : mem (withOpenRow s c t b h f bad) = mem s := by
  unfold withOpenRow; dsimp only; (repeat' split) <;> simp only [h1, h2, enterAlert_mem]
@[simp] theorem autoClose_mem (s) (c) (t) (b) (h) : mem (autoClose s c t b h) = mem s := by simp (disch := (intros; first | with_reducible rfl | (simp only [mem_mk, mem_fold, mem_ite, ite_self, modStk_mem]; done) | ((repeat' split) <;> first | with_reducible rfl | (simp only [mem_mk, mem_fold, mem_ite, ite_self, modStk_mem]; done) | fail) | (simp only [held_mk, held_ite, held_foldl, held_fold, noteAct_held, noteCol_held, calm_held, setCtx_held, releaseBanks_held, prbsSent_held, stkClose_held, sliceAct_held, sliceActs_held, laneHears_held]; done) | ((repeat' split) <;> first | (simp only [held_mk, held_ite, held_foldl, held_fold, noteAct_held, noteCol_held, calm_held, setCtx_held, releaseBanks_held, prbsSent_held, stkClose_held, sliceAct_held, sliceActs_held, laneHears_held]; done)) | fail)) only [autoClose, mem_foldl, mem_mk, mem_fold, mem_ite, ite_self, modStk_mem]
@[simp] theorem stkColRead_mem (s) (c) (t) (b) (h) (col) (o) (auto) : mem (stkColRead s c t b h col o auto) = mem s := by
  unfold stkColRead
  refine withOpenRow_mem _ _ _ _ _ _ _ (fun r p => ?_) (fun t => pushBurst_mem ..)
  dsimp only; split
  · exact (autoClose_mem ..).trans ((modStk_mem _ _ _ (by intro x; rfl)).trans (pushBurst_mem ..))
  · exact (modStk_mem _ _ _ (by intro x; rfl)).trans (pushBurst_mem ..)
@[simp] theorem noteFixed_mem (s) (c) (ks) : mem (noteFixed s c ks) = mem s := by simp (disch := (intros; first | with_reducible rfl | (simp only [mem_mk, mem_fold, mem_ite, ite_self, modStk_mem]; done) | ((repeat' split) <;> first | with_reducible rfl | (simp only [mem_mk, mem_fold, mem_ite, ite_self, modStk_mem]; done) | fail) | (simp only [held_mk, held_ite, held_foldl, held_fold, noteAct_held, noteCol_held, calm_held, setCtx_held, releaseBanks_held, prbsSent_held, stkClose_held, sliceAct_held, sliceActs_held, laneHears_held]; done) | ((repeat' split) <;> first | (simp only [held_mk, held_ite, held_foldl, held_fold, noteAct_held, noteCol_held, calm_held, setCtx_held, releaseBanks_held, prbsSent_held, stkClose_held, sliceAct_held, sliceActs_held, laneHears_held]; done)) | fail)) only [noteFixed, mem_foldl, mem_mk, mem_fold, mem_ite, ite_self, modStk_mem]
@[simp] theorem breach_mem (s) (c) (cause) : mem (breach s c cause) = mem s := by simp only [breach, mem_mk, mem_fold, mem_ite, ite_self, enterAlert_mem]
@[simp] theorem doAct_mem (c) (b) (row) (spare) (t) (s) : mem (doAct c b row spare t s) = mem s := by
  unfold doAct; refine stkRowCmd_mem _ _ _ _ (fun t => ?_); (try dsimp only)
  (repeat' split) <;> first | with_reducible rfl | exact enterAlert_mem .. | exact modStk_mem _ _ _ (by intro x; first | rfl | ((try dsimp only); (repeat' split) <;> rfl) | exact held_foldl _ _ _ (fun y a => stkClose_held ..))
@[simp] theorem doPre_mem (c) (b) (h) (both) (t) (s) : mem (doPre c b h both t s) = mem s := by
  unfold doPre; refine stkRowCmd_mem _ _ _ _ (fun t => ?_); (try dsimp only)
  (repeat' split) <;> first | with_reducible rfl | exact enterAlert_mem .. | exact modStk_mem _ _ _ (by intro x; first | rfl | ((try dsimp only); (repeat' split) <;> rfl) | exact held_foldl _ _ _ (fun y a => stkClose_held ..))
@[simp] theorem doRef_mem (c) (b) (t) (s) : mem (doRef c b t s) = mem s := by
  unfold doRef; refine stkRowCmd_mem _ _ _ _ (fun t => ?_); (try dsimp only)
  (repeat' split) <;> first | with_reducible rfl | exact enterAlert_mem .. | exact modStk_mem _ _ _ (by intro x; first | rfl | ((try dsimp only); (repeat' split) <;> rfl) | exact held_foldl _ _ _ (fun y a => stkClose_held ..))
@[simp] theorem doNrf_mem (c) (b) (row) (spare) (rad2) (t) (s) : mem (doNrf c b row spare rad2 t s) = mem s := by
  unfold doNrf; refine stkRowCmd_mem _ _ _ _ (fun t => ?_); (try dsimp only)
  (repeat' split) <;> first | with_reducible rfl | exact enterAlert_mem .. | exact modStk_mem _ _ _ (by intro x; first | rfl | ((try dsimp only); (repeat' split) <;> rfl) | exact held_foldl _ _ _ (fun y a => stkClose_held ..))
@[simp] theorem doSlp_mem (c) (ctx) (b) (s) : mem (doSlp c ctx b s) = mem s := by
  unfold doSlp; refine stkRowCmd_mem _ _ _ _ (fun t => ?_); (try dsimp only)
  (repeat' split) <;> first | with_reducible rfl | exact enterAlert_mem .. | exact modStk_mem _ _ _ (by intro x; first | rfl | ((try dsimp only); (repeat' split) <;> rfl) | exact held_foldl _ _ _ (fun y a => stkClose_held ..))
@[simp] theorem doSlr_mem (c) (ctx) (b) (s) : mem (doSlr c ctx b s) = mem s := by
  unfold doSlr; refine stkRowCmd_mem _ _ _ _ (fun t => ?_); (try dsimp only)
  (repeat' split) <;> first | with_reducible rfl | exact enterAlert_mem .. | exact modStk_mem _ _ _ (by intro x; first | rfl | ((try dsimp only); (repeat' split) <;> rfl) | exact held_foldl _ _ _ (fun y a => stkClose_held ..))
@[simp] theorem doSre_mem (c) (s) : mem (doSre c s) = mem s := by simp (disch := (intros; first | with_reducible rfl | (simp only [mem_mk, mem_fold, mem_ite, ite_self, srEnter_mem, stkRowCmd_mem]; done) | ((repeat' split) <;> first | with_reducible rfl | (simp only [mem_mk, mem_fold, mem_ite, ite_self, srEnter_mem, stkRowCmd_mem]; done) | fail) | fail)) only [doSre, mem_foldl, mem_mk, mem_fold, mem_ite, ite_self, srEnter_mem, stkRowCmd_mem]
@[simp] theorem doSrx_mem (c) (point) (s) : mem (doSrx c point s) = mem s := by simp (disch := (intros; first | with_reducible rfl | (simp only [mem_mk, mem_fold, mem_ite, ite_self, modStk_mem, enterAlert_mem, srAdvance_mem]; done) | ((repeat' split) <;> first | with_reducible rfl | (simp only [mem_mk, mem_fold, mem_ite, ite_self, modStk_mem, enterAlert_mem, srAdvance_mem]; done) | fail) | (simp only [held_mk, held_ite, held_foldl, held_fold, noteAct_held, noteCol_held, calm_held, setCtx_held, releaseBanks_held, prbsSent_held, stkClose_held, sliceAct_held, sliceActs_held, laneHears_held]; done) | ((repeat' split) <;> first | (simp only [held_mk, held_ite, held_foldl, held_fold, noteAct_held, noteCol_held, calm_held, setCtx_held, releaseBanks_held, prbsSent_held, stkClose_held, sliceAct_held, sliceActs_held, laneHears_held]; done)) | fail)) only [doSrx, mem_foldl, mem_mk, mem_fold, mem_ite, ite_self, modStk_mem, enterAlert_mem, srAdvance_mem]
@[simp] theorem doPde_mem (c) (s) : mem (doPde c s) = mem s := by
  unfold doPde; refine stkRowCmd_mem _ _ _ _ (fun t => ?_); (try dsimp only)
  (repeat' split) <;> first | with_reducible rfl | exact enterAlert_mem .. | exact modStk_mem _ _ _ (by intro x; first | rfl | ((try dsimp only); (repeat' split) <;> rfl) | exact held_foldl _ _ _ (fun y a => stkClose_held ..))
@[simp] theorem doPdx_mem (c) (s) : mem (doPdx c s) = mem s := by simp (disch := (intros; first | with_reducible rfl | (simp only [mem_mk, mem_fold, mem_ite, ite_self, modStk_mem]; done) | ((repeat' split) <;> first | with_reducible rfl | (simp only [mem_mk, mem_fold, mem_ite, ite_self, modStk_mem]; done) | fail) | (simp only [held_mk, held_ite, held_foldl, held_fold, noteAct_held, noteCol_held, calm_held, setCtx_held, releaseBanks_held, prbsSent_held, stkClose_held, sliceAct_held, sliceActs_held, laneHears_held]; done) | ((repeat' split) <;> first | (simp only [held_mk, held_ite, held_foldl, held_fold, noteAct_held, noteCol_held, calm_held, setCtx_held, releaseBanks_held, prbsSent_held, stkClose_held, sliceAct_held, sliceActs_held, laneHears_held]; done)) | fail)) only [doPdx, mem_foldl, mem_mk, mem_fold, mem_ite, ite_self, modStk_mem]
@[simp] theorem doLane_mem (c) (h) (wire) (sel) (pat) (t) (s) : mem (doLane c h wire sel pat t s) = mem s := by
  unfold doLane; refine stkRowCmd_mem _ _ _ _ (fun t => ?_); (try dsimp only)
  (repeat' split) <;> first | with_reducible rfl | exact enterAlert_mem .. | exact modStk_mem _ _ _ (by intro x; first | rfl | ((try dsimp only); (repeat' split) <;> rfl) | exact held_foldl _ _ _ (fun y a => stkClose_held ..))
@[simp] theorem doRd_mem (c) (b) (h) (col) (auto) (t) (o) (s) : mem (doRd c b h col auto t o s) = mem s := by simp (disch := (intros; first | with_reducible rfl | (simp only [mem_mk, mem_fold, mem_ite, ite_self, stkReadCmd_mem, stkColRead_mem]; done) | ((repeat' split) <;> first | with_reducible rfl | (simp only [mem_mk, mem_fold, mem_ite, ite_self, stkReadCmd_mem, stkColRead_mem]; done) | fail) | fail)) only [doRd, mem_foldl, mem_mk, mem_fold, mem_ite, ite_self, stkReadCmd_mem, stkColRead_mem]
@[simp] theorem doVrd_mem (c) (sector) (t) (o) (s) : mem (doVrd c sector t o s) = mem s := by simp (disch := (intros; first | with_reducible rfl | (simp only [mem_mk, mem_fold, mem_ite, ite_self, pushBurst_mem, stkReadCmd_mem]; done) | ((repeat' split) <;> first | with_reducible rfl | (simp only [mem_mk, mem_fold, mem_ite, ite_self, pushBurst_mem, stkReadCmd_mem]; done) | fail) | fail)) only [doVrd, mem_foldl, mem_mk, mem_fold, mem_ite, ite_self, pushBurst_mem, stkReadCmd_mem]
@[simp] theorem doSpw_mem (c) (ctx) (part) (d) (noise) (t) (s) : mem (doSpw c ctx part d noise t s) = mem s :=
  stkWriteCmd_mem _ _ _ _ _ _ _ (fun d t => modStk_mem _ _ _ (fun x => rfl))
@[simp] theorem doSrd_mem (c) (ctx) (t) (o) (s) : mem (doSrd c ctx t o s) = mem s := by
  unfold doSrd; refine stkReadCmd_mem _ _ _ _ _ _ (fun t => ?_); dsimp only; split
  · exact (modStk_mem _ _ _ (by intro x; rfl)).trans (pushBurst_mem ..)
  · exact pushBurst_mem ..
@[simp] theorem undriven_mem (s) (c) (t) (o) : mem (undriven s c t o) = mem s := by simp (disch := (intros; first | with_reducible rfl | (simp only [mem_mk, mem_fold, mem_ite, ite_self, pushBurst_mem]; done) | ((repeat' split) <;> first | with_reducible rfl | (simp only [mem_mk, mem_fold, mem_ite, ite_self, pushBurst_mem]; done) | fail) | fail)) only [undriven, mem_foldl, mem_mk, mem_fold, mem_ite, ite_self, pushBurst_mem]
@[simp] theorem attnBit_mem (s) (p) : mem (attnBit s p).2 = mem s := by unfold attnBit; (try dsimp only); (repeat' split) <;> first | with_reducible rfl | (simp only [mem_mk, mem_fold, mem_ite, ite_self, setPort_mem, takeFree_mem]; done) | fail
@[simp] theorem attnReplySent_mem (s) (id) : mem (attnReplySent s id) = mem s := by simp only [attnReplySent, mem_mk, mem_fold, mem_ite, ite_self]
@[simp] theorem modPort_mem (s) (p) (f : Port → Port) : mem (modPort s p f) = mem s := by simp only [modPort, mem_mk, mem_fold, mem_ite, ite_self, setPort_mem]
@[simp] theorem releaseRes_mem (s) (id) : mem (releaseRes s id) = mem s := by simp (disch := (intros; first | with_reducible rfl | (simp only [mem_mk, mem_fold, mem_ite, ite_self]; done) | ((repeat' split) <;> first | with_reducible rfl | (simp only [mem_mk, mem_fold, mem_ite, ite_self]; done) | fail) | fail)) only [releaseRes, mem_foldl, mem_mk, mem_fold, mem_ite, ite_self]
@[simp] theorem freeBeats_mem (s) (p) (n) : mem (freeBeats s p n) = mem s := by simp (disch := (intros; first | with_reducible rfl | (simp only [mem_mk, mem_fold, mem_ite, ite_self, modPort_mem]; done) | ((repeat' split) <;> first | with_reducible rfl | (simp only [mem_mk, mem_fold, mem_ite, ite_self, modPort_mem]; done) | fail) | fail)) only [freeBeats, mem_foldl, mem_mk, mem_fold, mem_ite, ite_self, modPort_mem]
@[simp] theorem replyCauses_mem (s) (p) (o) (d) : mem (replyCauses s p o d) = mem s := by simp only [replyCauses, mem_mk, mem_fold, mem_ite, ite_self, latch_mem]
@[simp] theorem replyReq_mem (s) (r) (o) (d) (data) : mem (replyReq s r o d data) = mem s := by unfold replyReq; (try dsimp only); (repeat' split) <;> first | with_reducible rfl | (simp only [mem_mk, mem_fold, mem_ite, ite_self, modReq_mem, modPort_mem, releaseRes_mem, freeBeats_mem, replyCauses_mem]; done) | (simp (disch := (intros; first | with_reducible rfl | (simp only [mem_mk, mem_fold, mem_ite, ite_self, modReq_mem, modPort_mem, releaseRes_mem, freeBeats_mem, replyCauses_mem]; done) | ((repeat' split) <;> first | with_reducible rfl | (simp only [mem_mk, mem_fold, mem_ite, ite_self, modReq_mem, modPort_mem, releaseRes_mem, freeBeats_mem, replyCauses_mem]; done) | fail) | fail)) only [mem_foldl, mem_mk, mem_fold, mem_ite, ite_self, modReq_mem, modPort_mem, releaseRes_mem, freeBeats_mem, replyCauses_mem]; done) | fail
@[simp] theorem finishReq_mem (s) (id) : mem (finishReq s id) = mem s := by unfold finishReq; (try dsimp only); (repeat' split) <;> first | with_reducible rfl | (simp only [mem_mk, mem_fold, mem_ite, ite_self, bumpReg_mem, replyReq_mem]; done) | fail
@[simp] theorem partsDone_mem (s) (id) (n) : mem (partsDone s id n) = mem s := by unfold partsDone; (try dsimp only); (repeat' split) <;> first | with_reducible rfl | (simp only [mem_mk, mem_fold, mem_ite, ite_self, modReq_mem, finishReq_mem]; done) | (simp (disch := (intros; first | with_reducible rfl | (simp only [mem_mk, mem_fold, mem_ite, ite_self, modReq_mem, finishReq_mem]; done) | ((repeat' split) <;> first | with_reducible rfl | (simp only [mem_mk, mem_fold, mem_ite, ite_self, modReq_mem, finishReq_mem]; done) | fail) | fail)) only [mem_foldl, mem_mk, mem_fold, mem_ite, ite_self, modReq_mem, finishReq_mem]; done) | fail
@[simp] theorem pieceJoined_mem (s) (id) (ch) : mem (pieceJoined s id ch) = mem s := by simp (disch := (intros; first | with_reducible rfl | (simp only [mem_mk, mem_fold, mem_ite, ite_self, modReq_mem]; done) | ((repeat' split) <;> first | with_reducible rfl | (simp only [mem_mk, mem_fold, mem_ite, ite_self, modReq_mem]; done) | fail) | fail)) only [pieceJoined, mem_foldl, mem_mk, mem_fold, mem_ite, ite_self, modReq_mem]
@[simp] theorem poisonReq_mem (s) (id) (d) : mem (poisonReq s id d) = mem s := by simp (disch := (intros; first | with_reducible rfl | (simp only [mem_mk, mem_fold, mem_ite, ite_self, modReq_mem]; done) | ((repeat' split) <;> first | with_reducible rfl | (simp only [mem_mk, mem_fold, mem_ite, ite_self, modReq_mem]; done) | fail) | fail)) only [poisonReq, mem_foldl, mem_mk, mem_fold, mem_ite, ite_self, modReq_mem]
@[simp] theorem reconReq_mem (s) (id) : mem (reconReq s id) = mem s := by simp (disch := (intros; first | with_reducible rfl | (simp only [mem_mk, mem_fold, mem_ite, ite_self, modReq_mem]; done) | ((repeat' split) <;> first | with_reducible rfl | (simp only [mem_mk, mem_fold, mem_ite, ite_self, modReq_mem]; done) | fail) | fail)) only [reconReq, mem_foldl, mem_mk, mem_fold, mem_ite, ite_self, modReq_mem]
@[simp] theorem enqueue_mem (s) (e) : mem (enqueue s e) = mem s := by simp (disch := (intros; first | with_reducible rfl | (simp only [mem_mk, mem_fold, mem_ite, ite_self, modChan_mem]; done) | ((repeat' split) <;> first | with_reducible rfl | (simp only [mem_mk, mem_fold, mem_ite, ite_self, modChan_mem]; done) | fail) | fail)) only [enqueue, mem_foldl, mem_mk, mem_fold, mem_ite, ite_self, modChan_mem]
@[simp] theorem enqueueAll_mem (s) (es) : mem (enqueueAll s es) = mem s := by simp (disch := (intros; first | with_reducible rfl | (simp only [mem_mk, mem_fold, mem_ite, ite_self, enqueue_mem]; done) | ((repeat' split) <;> first | with_reducible rfl | (simp only [mem_mk, mem_fold, mem_ite, ite_self, enqueue_mem]; done) | fail) | fail)) only [enqueueAll, mem_foldl, mem_mk, mem_fold, mem_ite, ite_self, enqueue_mem]
@[simp] theorem evict_mem (s) (c) (serial) (cls) (dl) : mem (evict s c serial cls dl) = mem s := by unfold evict; (try dsimp only); (repeat' split) <;> first | with_reducible rfl | (simp only [mem_mk, mem_fold, mem_ite, ite_self, modChan_mem, evCh_mem, enqueue_mem]; done) | (simp (disch := (intros; first | with_reducible rfl | (simp only [mem_mk, mem_fold, mem_ite, ite_self, modChan_mem, evCh_mem, enqueue_mem]; done) | ((repeat' split) <;> first | with_reducible rfl | (simp only [mem_mk, mem_fold, mem_ite, ite_self, modChan_mem, evCh_mem, enqueue_mem]; done) | fail) | fail)) only [mem_foldl, mem_mk, mem_fold, mem_ite, ite_self, modChan_mem, evCh_mem, enqueue_mem]; done) | fail
@[simp] theorem linerPressure_mem (s) (c) : mem (linerPressure s c) = mem s := by simp (disch := (intros; first | with_reducible rfl | (simp only [mem_mk, mem_fold, mem_ite, ite_self, evict_mem]; done) | ((repeat' split) <;> first | with_reducible rfl | (simp only [mem_mk, mem_fold, mem_ite, ite_self, evict_mem]; done) | fail) | fail)) only [linerPressure, mem_foldl, mem_mk, mem_fold, mem_ite, ite_self, evict_mem]
@[simp] theorem evictAll_mem (s) (c) (pick : Liner → Bool) : mem (evictAll s c pick) = mem s := by simp (disch := (intros; first | with_reducible rfl | (simp only [mem_mk, mem_fold, mem_ite, ite_self, evict_mem]; done) | ((repeat' split) <;> first | with_reducible rfl | (simp only [mem_mk, mem_fold, mem_ite, ite_self, evict_mem]; done) | fail) | fail)) only [evictAll, mem_foldl, mem_mk, mem_fold, mem_ite, ite_self, evict_mem]
@[simp] theorem linerMerge_mem (s) (p) (v) (cls) (dl) (bytes) (m) (req) (a) : mem (linerMerge s p v cls dl bytes m req a) = mem s := by unfold linerMerge; (try dsimp only); (repeat' split) <;> first | with_reducible rfl | (simp only [mem_mk, mem_fold, mem_ite, ite_self, setChan_mem, evCh_mem, evict_mem, linerPressure_mem]; done) | (simp (disch := (intros; first | with_reducible rfl | (simp only [mem_mk, mem_fold, mem_ite, ite_self, setChan_mem, evCh_mem, evict_mem, linerPressure_mem]; done) | ((repeat' split) <;> first | with_reducible rfl | (simp only [mem_mk, mem_fold, mem_ite, ite_self, setChan_mem, evCh_mem, evict_mem, linerPressure_mem]; done) | fail) | fail)) only [mem_foldl, mem_mk, mem_fold, mem_ite, ite_self, setChan_mem, evCh_mem, evict_mem, linerPressure_mem]; done) | fail
@[simp] theorem scratchErrs_mem (s) (k) (xs) : mem (scratchErrs s k xs) = mem s := by simp (disch := (intros; first | with_reducible rfl | (simp only [mem_mk, mem_fold, mem_ite, ite_self, bumpReg_mem, latch_mem]; done) | ((repeat' split) <;> first | with_reducible rfl | (simp only [mem_mk, mem_fold, mem_ite, ite_self, bumpReg_mem, latch_mem]; done) | fail) | fail)) only [scratchErrs, mem_foldl, mem_mk, mem_fold, mem_ite, ite_self, bumpReg_mem, latch_mem]
@[simp] theorem evictPending_mem (s) (ci) : mem (evictPending s ci) = mem s := by simp (disch := (intros; first | with_reducible rfl | (simp only [mem_mk, mem_fold, mem_ite, ite_self, evictAll_mem]; done) | ((repeat' split) <;> first | with_reducible rfl | (simp only [mem_mk, mem_fold, mem_ite, ite_self, evictAll_mem]; done) | fail) | fail)) only [evictPending, mem_foldl, mem_mk, mem_fold, mem_ite, ite_self, evictAll_mem]
@[simp] theorem sbStart_mem (s) : mem (sbStart s) = mem s := by unfold sbStart; (try dsimp only); (repeat' split) <;> first | with_reducible rfl | (simp only [mem_mk, mem_fold, mem_ite, ite_self]; done) | (simp (disch := (intros; first | with_reducible rfl | (simp only [mem_mk, mem_fold, mem_ite, ite_self]; done) | ((repeat' split) <;> first | with_reducible rfl | (simp only [mem_mk, mem_fold, mem_ite, ite_self]; done) | fail) | fail)) only [mem_foldl, mem_mk, mem_fold, mem_ite, ite_self]; done) | fail
@[simp] theorem sbQueue_mem (s) (user) (cmd) (ch) (addr) (len) (ws) : mem (sbQueue s user cmd ch addr len ws) = mem s := by simp only [sbQueue, mem_mk, mem_fold, mem_ite, ite_self, sbStart_mem]
@[simp] theorem sbWrite_mem (s) (user) (ch) (addr) (ws) : mem (sbWrite s user ch addr ws) = mem s := by simp only [sbWrite, mem_mk, mem_fold, mem_ite, ite_self, sbQueue_mem]
@[simp] theorem nrfSeed_mem (s) (c) : mem (nrfSeed s c) = mem s := by unfold nrfSeed; (try dsimp only); (repeat' split) <;> first | with_reducible rfl | (simp only [mem_mk, mem_fold, mem_ite, ite_self, modChan_mem, takeFree_mem, takeFreeNonzero_mem, sbWrite_mem]; done) | (simp (disch := (intros; first | with_reducible rfl | (simp only [mem_mk, mem_fold, mem_ite, ite_self, modChan_mem, takeFree_mem, takeFreeNonzero_mem, sbWrite_mem]; done) | ((repeat' split) <;> first | with_reducible rfl | (simp only [mem_mk, mem_fold, mem_ite, ite_self, modChan_mem, takeFree_mem, takeFreeNonzero_mem, sbWrite_mem]; done) | fail) | fail)) only [mem_foldl, mem_mk, mem_fold, mem_ite, ite_self, modChan_mem, takeFree_mem, takeFreeNonzero_mem, sbWrite_mem]; done) | fail
@[simp] theorem smpSeed_mem (s) : mem (smpSeed s) = mem s := by unfold smpSeed; (try dsimp only); (repeat' split) <;> first | with_reducible rfl | (simp only [mem_mk, mem_fold, mem_ite, ite_self, takeFreeNonzero_mem]; done) | fail
@[simp] theorem reseed_mem (s) (c) : mem (reseed s c) = mem s := by simp only [reseed, mem_mk, mem_fold, mem_ite, ite_self, nrfSeed_mem]
@[simp] theorem sendRowFrom_mem (s) (c) (t) (i) : mem (sendRowFrom s c t i) = mem s := by simp (disch := (intros; first | with_reducible rfl | (simp only [mem_mk, mem_fold, mem_ite, ite_self, modChan_mem]; done) | ((repeat' split) <;> first | with_reducible rfl | (simp only [mem_mk, mem_fold, mem_ite, ite_self, modChan_mem]; done) | fail) | fail)) only [sendRowFrom, mem_foldl, mem_mk, mem_fold, mem_ite, ite_self, modChan_mem]
@[simp] theorem sendRow_mem (s) (c) (i) : mem (sendRow s c i) = mem s := by simp only [sendRow, mem_mk, mem_fold, mem_ite, ite_self, sendRowFrom_mem]
@[simp] theorem steer_mem (s) (c) (h) (wire) (pat) : mem (steer s c h wire pat) = mem s := by simp (disch := (intros; first | with_reducible rfl | (simp only [mem_mk, mem_fold, mem_ite, ite_self, modChan_mem, sendRow_mem]; done) | ((repeat' split) <;> first | with_reducible rfl | (simp only [mem_mk, mem_fold, mem_ite, ite_self, modChan_mem, sendRow_mem]; done) | fail) | fail)) only [steer, mem_foldl, mem_mk, mem_fold, mem_ite, ite_self, modChan_mem, sendRow_mem]
@[simp] theorem sendLane_mem (s) (c) (h) : mem (sendLane s c h) = mem s := by simp only [sendLane, mem_mk, mem_fold, mem_ite, ite_self, steer_mem]
@[simp] theorem sweepUndo_mem (s) (n) : mem (sweepUndo s n) = mem s := by simp (disch := (intros; first | with_reducible rfl | (simp only [mem_mk, mem_fold, mem_ite, ite_self, modChan_mem, setCal_mem]; done) | ((repeat' split) <;> first | with_reducible rfl | (simp only [mem_mk, mem_fold, mem_ite, ite_self, modChan_mem, setCal_mem]; done) | fail) | fail)) only [sweepUndo, mem_foldl, mem_mk, mem_fold, mem_ite, ite_self, modChan_mem, setCal_mem]
@[simp] theorem sweepAbandon_mem (s) (n) : mem (sweepAbandon s n) = mem s := by simp only [sweepAbandon, mem_mk, mem_fold, mem_ite, ite_self, setCal_mem, sbQueue_mem, steer_mem, sweepUndo_mem]
@[simp] theorem sweepAbandonOn_mem (s) (c) : mem (sweepAbandonOn s c) = mem s := by simp only [sweepAbandonOn, mem_mk, mem_fold, mem_ite, ite_self, sweepAbandon_mem]
@[simp] theorem loseHeld_mem (s) (k) : mem (loseHeld s k) = mem s := by simp (disch := (intros; first | with_reducible rfl | (simp only [mem_mk, mem_fold, mem_ite, ite_self, modOct_mem, setReg_mem, bumpReg_mem, latch_mem, logEv_mem]; done) | ((repeat' split) <;> first | with_reducible rfl | (simp only [mem_mk, mem_fold, mem_ite, ite_self, modOct_mem, setReg_mem, bumpReg_mem, latch_mem, logEv_mem]; done) | fail) | fail)) only [loseHeld, mem_foldl, mem_mk, mem_fold, mem_ite, ite_self, modOct_mem, setReg_mem, bumpReg_mem, latch_mem, logEv_mem]
@[simp] theorem loseScratch_mem (s) (k) : mem (loseScratch s k) = mem s := by simp (disch := (intros; first | with_reducible rfl | (simp only [mem_mk, mem_fold, mem_ite, ite_self, modOct_mem]; done) | ((repeat' split) <;> first | with_reducible rfl | (simp only [mem_mk, mem_fold, mem_ite, ite_self, modOct_mem]; done) | fail) | fail)) only [loseScratch, mem_foldl, mem_mk, mem_fold, mem_ite, ite_self, modOct_mem]
@[simp] theorem dropDrains_mem (s) (k) : mem (dropDrains s k) = mem s := by unfold dropDrains; (try dsimp only); (repeat' split) <;> first | with_reducible rfl | (simp only [mem_mk, mem_fold, mem_ite, ite_self, modChan_mem, setOct_mem, forN_mem]; done) | (simp (disch := (intros; first | with_reducible rfl | (simp only [mem_mk, mem_fold, mem_ite, ite_self, modChan_mem, setOct_mem, forN_mem]; done) | ((repeat' split) <;> first | with_reducible rfl | (simp only [mem_mk, mem_fold, mem_ite, ite_self, modChan_mem, setOct_mem, forN_mem]; done) | fail) | fail)) only [mem_foldl, mem_mk, mem_fold, mem_ite, ite_self, modChan_mem, setOct_mem, forN_mem]; done) | fail
@[simp] theorem dropJobs_mem (s) (k) (id) (pick : Job → Bool) : mem (dropJobs s k id pick) = mem s := by unfold dropJobs; (try dsimp only); (repeat' split) <;> first | with_reducible rfl | (simp only [mem_mk, mem_fold, mem_ite, ite_self, modChan_mem, setOct_mem, forN_mem, modReq_mem]; done) | (simp (disch := (intros; first | with_reducible rfl | (simp only [mem_mk, mem_fold, mem_ite, ite_self, modChan_mem, setOct_mem, forN_mem, modReq_mem]; done) | ((repeat' split) <;> first | with_reducible rfl | (simp only [mem_mk, mem_fold, mem_ite, ite_self, modChan_mem, setOct_mem, forN_mem, modReq_mem]; done) | fail) | fail)) only [mem_foldl, mem_mk, mem_fold, mem_ite, ite_self, modChan_mem, setOct_mem, forN_mem, modReq_mem]; done) | fail
@[simp] theorem opStopped_mem (s) (d) : mem (opStopped s d) = mem s := by unfold opStopped; (try dsimp only); (repeat' split) <;> first | with_reducible rfl | (simp only [mem_mk, mem_fold, mem_ite, ite_self, bumpReg_mem, evBlk_mem, replyReq_mem]; done) | (simp (disch := (intros; first | with_reducible rfl | (simp only [mem_mk, mem_fold, mem_ite, ite_self, bumpReg_mem, evBlk_mem, replyReq_mem]; done) | ((repeat' split) <;> first | with_reducible rfl | (simp only [mem_mk, mem_fold, mem_ite, ite_self, bumpReg_mem, evBlk_mem, replyReq_mem]; done) | fail) | fail)) only [mem_foldl, mem_mk, mem_fold, mem_ite, ite_self, bumpReg_mem, evBlk_mem, replyReq_mem]; done) | fail
@[simp] theorem opStop_mem (s) (d) : mem (opStop s d) = mem s := by unfold opStop; (try dsimp only); (repeat' split) <;> first | with_reducible rfl | (simp only [mem_mk, mem_fold, mem_ite, ite_self, modChan_mem, modOct_mem, forN_mem]; done) | (simp (disch := (intros; first | with_reducible rfl | (simp only [mem_mk, mem_fold, mem_ite, ite_self, modChan_mem, modOct_mem, forN_mem]; done) | ((repeat' split) <;> first | with_reducible rfl | (simp only [mem_mk, mem_fold, mem_ite, ite_self, modChan_mem, modOct_mem, forN_mem]; done) | fail) | fail)) only [mem_foldl, mem_mk, mem_fold, mem_ite, ite_self, modChan_mem, modOct_mem, forN_mem]; done) | fail
@[simp] theorem dropParts_mem (s) (c) (id) : mem (dropParts s c id) = mem s := by unfold dropParts; (try dsimp only); (repeat' split) <;> first | with_reducible rfl | (simp only [mem_mk, mem_fold, mem_ite, ite_self, modChan_mem, modReq_mem]; done) | (simp (disch := (intros; first | with_reducible rfl | (simp only [mem_mk, mem_fold, mem_ite, ite_self, modChan_mem, modReq_mem]; done) | ((repeat' split) <;> first | with_reducible rfl | (simp only [mem_mk, mem_fold, mem_ite, ite_self, modChan_mem, modReq_mem]; done) | fail) | fail)) only [mem_foldl, mem_mk, mem_fold, mem_ite, ite_self, modChan_mem, modReq_mem]; done) | fail
@[simp] theorem dropHeld_mem (s) (c) (id) : mem (dropHeld s c id) = mem s := by unfold dropHeld; (try dsimp only); (repeat' split) <;> first | with_reducible rfl | (simp only [mem_mk, mem_fold, mem_ite, ite_self, modChan_mem, modReq_mem]; done) | (simp (disch := (intros; first | with_reducible rfl | (simp only [mem_mk, mem_fold, mem_ite, ite_self, modChan_mem, modReq_mem]; done) | ((repeat' split) <;> first | with_reducible rfl | (simp only [mem_mk, mem_fold, mem_ite, ite_self, modChan_mem, modReq_mem]; done) | fail) | fail)) only [mem_foldl, mem_mk, mem_fold, mem_ite, ite_self, modChan_mem, modReq_mem]; done) | fail
@[simp] theorem discardReq_mem (s) (w) (det) (r) : mem (discardReq s w det r) = mem s := by unfold discardReq; (try dsimp only); (repeat' split) <;> first | with_reducible rfl | (simp only [mem_mk, mem_fold, mem_ite, ite_self, modChan_mem, forN_mem, modReq_mem, replyReq_mem, finishReq_mem, dropJobs_mem, opStopped_mem, opStop_mem, dropParts_mem, dropHeld_mem]; done) | (simp (disch := (intros; first | with_reducible rfl | (simp only [mem_mk, mem_fold, mem_ite, ite_self, modChan_mem, forN_mem, modReq_mem, replyReq_mem, finishReq_mem, dropJobs_mem, opStopped_mem, opStop_mem, dropParts_mem, dropHeld_mem]; done) | ((repeat' split) <;> first | with_reducible rfl | (simp only [mem_mk, mem_fold, mem_ite, ite_self, modChan_mem, forN_mem, modReq_mem, replyReq_mem, finishReq_mem, dropJobs_mem, opStopped_mem, opStop_mem, dropParts_mem, dropHeld_mem]; done) | fail) | fail)) only [mem_foldl, mem_mk, mem_fold, mem_ite, ite_self, modChan_mem, forN_mem, modReq_mem, replyReq_mem, finishReq_mem, dropJobs_mem, opStopped_mem, opStop_mem, dropParts_mem, dropHeld_mem]; done) | fail
@[simp] theorem replayAll_mem (s) (alert) (c) : mem (replayAll s alert c) = mem s := by simp (disch := (intros; first | with_reducible rfl | (simp only [mem_mk, mem_fold, mem_ite, ite_self, setChan_mem]; done) | ((repeat' split) <;> first | with_reducible rfl | (simp only [mem_mk, mem_fold, mem_ite, ite_self, setChan_mem]; done) | fail) | fail)) only [replayAll, mem_foldl, mem_mk, mem_fold, mem_ite, ite_self, setChan_mem]
@[simp] theorem reconRestartIn_mem (s) (d) : mem (reconRestartIn s d) = mem s := by unfold reconRestartIn; (try dsimp only); (repeat' split) <;> first | with_reducible rfl | (simp only [mem_mk, mem_fold, mem_ite, ite_self, modChan_mem]; done) | (simp (disch := (intros; first | with_reducible rfl | (simp only [mem_mk, mem_fold, mem_ite, ite_self, modChan_mem]; done) | ((repeat' split) <;> first | with_reducible rfl | (simp only [mem_mk, mem_fold, mem_ite, ite_self, modChan_mem]; done) | fail) | fail)) only [mem_foldl, mem_mk, mem_fold, mem_ite, ite_self, modChan_mem]; done) | fail
@[simp] theorem reconRestart_mem (s) (c) : mem (reconRestart s c) = mem s := by simp only [reconRestart, mem_mk, mem_fold, mem_ite, ite_self, reconRestartIn_mem]
@[simp] theorem openPorts_mem (s) : mem (openPorts s) = mem s := by simp (disch := (intros; first | with_reducible rfl | (simp only [mem_mk, mem_fold, mem_ite, ite_self, forN_mem, modPort_mem]; done) | ((repeat' split) <;> first | with_reducible rfl | (simp only [mem_mk, mem_fold, mem_ite, ite_self, forN_mem, modPort_mem]; done) | fail) | fail)) only [openPorts, mem_foldl, mem_mk, mem_fold, mem_ite, ite_self, forN_mem, modPort_mem]
@[simp] theorem bootEnd_mem (s) : mem (bootEnd s) = mem s := by simp only [bootEnd, mem_mk, mem_fold, mem_ite, ite_self, logEv_mem, openPorts_mem]
@[simp] theorem lostReplies_mem (s) : mem (lostReplies s) = mem s :=
  mem_foldl _ _ _ (by
    intro t r; dsimp only; split
    · rfl
    · refine (replyReq_mem ..).trans ?_
      split
      · exact modReq_mem ..
      · rfl)
@[simp] theorem lostOcts_mem (s) : mem (lostOcts s) = mem s := by simp (disch := (intros; first | with_reducible rfl | (simp only [mem_mk, mem_fold, mem_ite, ite_self, modOct_mem, forN_mem, loseHeld_mem]; done) | ((repeat' split) <;> first | with_reducible rfl | (simp only [mem_mk, mem_fold, mem_ite, ite_self, modOct_mem, forN_mem, loseHeld_mem]; done) | fail) | fail)) only [lostOcts, mem_foldl, mem_mk, mem_fold, mem_ite, ite_self, modOct_mem, forN_mem, loseHeld_mem]
@[simp] theorem lostChans_mem (s) : mem (lostChans s) = mem s := by simp (disch := (intros; first | with_reducible rfl | (simp only [mem_mk, mem_fold, mem_ite, ite_self, modChan_mem, forN_mem]; done) | ((repeat' split) <;> first | with_reducible rfl | (simp only [mem_mk, mem_fold, mem_ite, ite_self, modChan_mem, forN_mem]; done) | fail) | fail)) only [lostChans, mem_foldl, mem_mk, mem_fold, mem_ite, ite_self, modChan_mem, forN_mem]
@[simp] theorem lostSweep_mem (s) (n) : mem (lostSweep s n) = mem s := by simp (disch := (intros; first | with_reducible rfl | (simp only [mem_mk, mem_fold, mem_ite, ite_self, modChan_mem, sweepUndo_mem]; done) | ((repeat' split) <;> first | with_reducible rfl | (simp only [mem_mk, mem_fold, mem_ite, ite_self, modChan_mem, sweepUndo_mem]; done) | fail) | fail)) only [lostSweep, mem_foldl, mem_mk, mem_fold, mem_ite, ite_self, modChan_mem, sweepUndo_mem]
@[simp] theorem lostSweeps_mem (s) : mem (lostSweeps s) = mem s := by simp (disch := (intros; first | with_reducible rfl | (simp only [mem_mk, mem_fold, mem_ite, ite_self, forN_mem, lostSweep_mem]; done) | ((repeat' split) <;> first | with_reducible rfl | (simp only [mem_mk, mem_fold, mem_ite, ite_self, forN_mem, lostSweep_mem]; done) | fail) | fail)) only [lostSweeps, mem_foldl, mem_mk, mem_fold, mem_ite, ite_self, forN_mem, lostSweep_mem]
@[simp] theorem enterLost_mem (s) (code) : mem (enterLost s code) = mem s := by simp only [enterLost, mem_mk, mem_fold, mem_ite, ite_self, logEv_mem, bootEnd_mem, lostReplies_mem, lostOcts_mem, lostChans_mem, lostSweeps_mem]
@[simp] theorem recordFault_mem (s) (page) (cls) (src) : mem (recordFault s page cls src) = mem s := by simp only [recordFault, mem_mk, mem_fold, mem_ite, ite_self, setRegF_mem, bumpReg_mem]
@[simp] theorem resetUnit_mem (s) (page) : mem (resetUnit s page) = mem s := by unfold resetUnit; (try dsimp only); (repeat' split) <;> first | with_reducible rfl | (simp only [mem_mk, mem_fold, mem_ite, ite_self, sweepAbandon_mem]; done) | fail
@[simp] theorem faultLoses_mem (s) (w) : mem (faultLoses s w) = mem s := by unfold faultLoses; (try dsimp only); (repeat' split) <;> first | with_reducible rfl | (simp only [mem_mk, mem_fold, mem_ite, ite_self, forN_mem, takeFree_mem, loseHeld_mem, loseScratch_mem, dropDrains_mem]; done) | (simp (disch := (intros; first | with_reducible rfl | (simp only [mem_mk, mem_fold, mem_ite, ite_self, forN_mem, takeFree_mem, loseHeld_mem, loseScratch_mem, dropDrains_mem]; done) | ((repeat' split) <;> first | with_reducible rfl | (simp only [mem_mk, mem_fold, mem_ite, ite_self, forN_mem, takeFree_mem, loseHeld_mem, loseScratch_mem, dropDrains_mem]; done) | fail) | fail)) only [mem_foldl, mem_mk, mem_fold, mem_ite, ite_self, forN_mem, takeFree_mem, loseHeld_mem, loseScratch_mem, dropDrains_mem]; done) | fail
@[simp] theorem abandonRepair_mem (s) : mem (abandonRepair s) = mem s := by unfold abandonRepair; (try dsimp only); (repeat' split) <;> first | with_reducible rfl | (simp only [mem_mk, mem_fold, mem_ite, ite_self, modChan_mem]; done) | (simp (disch := (intros; first | with_reducible rfl | (simp only [mem_mk, mem_fold, mem_ite, ite_self, modChan_mem]; done) | ((repeat' split) <;> first | with_reducible rfl | (simp only [mem_mk, mem_fold, mem_ite, ite_self, modChan_mem]; done) | fail) | fail)) only [mem_foldl, mem_mk, mem_fold, mem_ite, ite_self, modChan_mem]; done) | fail
@[simp] theorem recovRow_mem (s) (c) (alert) : mem (recovRow s c alert) = mem s := by simp only [recovRow, mem_mk, mem_fold, mem_ite, ite_self, sendRow_mem, sendLane_mem]
@[simp] theorem pauseRow_mem (s) (c) : mem (pauseRow s c) = mem s :=
  mem_foldl _ _ _ (fun t e => mem_foldl _ _ _ (by
    intro u b; dsimp only; split
    · exact (sendRow_mem ..).trans (modChan_mem ..)
    · rfl))
@[simp] theorem recoverChan_mem (s) (alert) (c) : mem (recoverChan s alert c) = mem s := by simp (disch := (intros; first | with_reducible rfl | (simp only [mem_mk, mem_fold, mem_ite, ite_self, modChan_mem, sweepAbandonOn_mem, replayAll_mem, reconRestart_mem, abandonRepair_mem, recovRow_mem, pauseRow_mem]; done) | ((repeat' split) <;> first | with_reducible rfl | (simp only [mem_mk, mem_fold, mem_ite, ite_self, modChan_mem, sweepAbandonOn_mem, replayAll_mem, reconRestart_mem, abandonRepair_mem, recovRow_mem, pauseRow_mem]; done) | fail) | fail)) only [recoverChan, mem_foldl, mem_mk, mem_fold, mem_ite, ite_self, modChan_mem, sweepAbandonOn_mem, replayAll_mem, reconRestart_mem, abandonRepair_mem, recovRow_mem, pauseRow_mem]
@[simp] theorem faultNote_mem (s) (page) (cls) (src) (n) : mem (faultNote s page cls src n) = mem s := by simp only [faultNote, mem_mk, mem_fold, mem_ite, ite_self, bumpReg_mem, latch_mem, evBlk_mem, logEv_mem, recordFault_mem]
@[simp] theorem discardAll_mem (s) (w) (det) (rs) : mem (discardAll s w det rs) = mem s := by unfold discardAll; (try dsimp only); (repeat' split) <;> first | with_reducible rfl | (simp only [mem_mk, mem_fold, mem_ite, ite_self, discardReq_mem]; done) | (simp (disch := (intros; first | with_reducible rfl | (simp only [mem_mk, mem_fold, mem_ite, ite_self, discardReq_mem]; done) | ((repeat' split) <;> first | with_reducible rfl | (simp only [mem_mk, mem_fold, mem_ite, ite_self, discardReq_mem]; done) | fail) | fail)) only [mem_foldl, mem_mk, mem_fold, mem_ite, ite_self, discardReq_mem]; done) | fail
@[simp] theorem octAborts_mem (s) (k) : mem (octAborts s k) = mem s :=
  forN_mem _ _ _ (fun t i => mem_foldl _ _ _ (by
    intro u e; dsimp only; split
    · exact (modChan_mem ..).trans (sendRow_mem ..)
    · rfl))
@[simp] theorem scopeSteps_mem (s) (sc) (src) : mem (scopeSteps s sc src) = mem s := by unfold scopeSteps; (try dsimp only); (repeat' split) <;> first | with_reducible rfl | (simp only [mem_mk, mem_fold, mem_ite, ite_self, forN_mem, recoverChan_mem, octAborts_mem]; done) | (simp (disch := (intros; first | with_reducible rfl | (simp only [mem_mk, mem_fold, mem_ite, ite_self, forN_mem, recoverChan_mem, octAborts_mem]; done) | ((repeat' split) <;> first | with_reducible rfl | (simp only [mem_mk, mem_fold, mem_ite, ite_self, forN_mem, recoverChan_mem, octAborts_mem]; done) | fail) | fail)) only [mem_foldl, mem_mk, mem_fold, mem_ite, ite_self, forN_mem, recoverChan_mem, octAborts_mem]; done) | fail
@[simp] theorem openRecovery_mem (s) (sc) (page) (cls) (src) : mem (openRecovery s sc page cls src) = mem s := by unfold openRecovery; (try dsimp only); (repeat' split) <;> first | with_reducible rfl | (simp only [mem_mk, mem_fold, mem_ite, ite_self]; done) | (simp (disch := (intros; first | with_reducible rfl | (simp only [mem_mk, mem_fold, mem_ite, ite_self]; done) | ((repeat' split) <;> first | with_reducible rfl | (simp only [mem_mk, mem_fold, mem_ite, ite_self]; done) | fail) | fail)) only [mem_foldl, mem_mk, mem_fold, mem_ite, ite_self]; done) | fail
@[simp] theorem faultRun_mem (s) (page) (cls) (src) : mem (faultRun s page cls src) = mem s := by simp only [faultRun, mem_mk, mem_fold, mem_ite, ite_self, faultLoses_mem, faultNote_mem, discardAll_mem, scopeSteps_mem, openRecovery_mem]
@[simp] theorem faultAt_mem (s) (page) (src) (part) : mem (faultAt s page src part) = mem s := by simp only [faultAt, mem_mk, mem_fold, mem_ite, ite_self, logEv_mem, recordFault_mem, resetUnit_mem, faultRun_mem]
@[simp] theorem alertSeen_mem (s) (c) : mem (alertSeen s c) = mem s := by simp only [alertSeen, mem_mk, mem_fold, mem_ite, ite_self, logEv_mem, enterLost_mem, faultAt_mem]
@[simp] theorem ceRise_mem (s) (c) (n) : mem (ceRise s c n) = mem s := by simp only [ceRise, mem_mk, mem_fold, mem_ite, ite_self, setRegF_mem, bumpReg_mem, latch_mem, evCh_mem]
@[simp] theorem noteUe_mem (s) (p) (half) : mem (noteUe s p half) = mem s := by simp only [noteUe, mem_mk, mem_fold, mem_ite, ite_self, setReg_mem, bumpReg_mem, latch_mem, evCh_mem]
@[simp] theorem rowFailure_mem (s) (p) : mem (rowFailure s p) = mem s := by unfold rowFailure; (try dsimp only); (repeat' split) <;> first | with_reducible rfl | (simp only [mem_mk, mem_fold, mem_ite, ite_self, bumpReg_mem, latch_mem, logEv_mem]; done) | (simp (disch := (intros; first | with_reducible rfl | (simp only [mem_mk, mem_fold, mem_ite, ite_self, bumpReg_mem, latch_mem, logEv_mem]; done) | ((repeat' split) <;> first | with_reducible rfl | (simp only [mem_mk, mem_fold, mem_ite, ite_self, bumpReg_mem, latch_mem, logEv_mem]; done) | fail) | fail)) only [mem_foldl, mem_mk, mem_fold, mem_ite, ite_self, bumpReg_mem, latch_mem, logEv_mem]; done) | fail
@[simp] theorem queueWriteBack_mem (s) (h) (p) (d) (corr) : mem (queueWriteBack s h p d corr) = mem s := by simp (disch := (intros; first | with_reducible rfl | (simp only [mem_mk, mem_fold, mem_ite, ite_self, setChan_mem, bumpReg_mem, enqueue_mem]; done) | ((repeat' split) <;> first | with_reducible rfl | (simp only [mem_mk, mem_fold, mem_ite, ite_self, setChan_mem, bumpReg_mem, enqueue_mem]; done) | fail) | fail)) only [queueWriteBack, mem_foldl, mem_mk, mem_fold, mem_ite, ite_self, setChan_mem, bumpReg_mem, enqueue_mem]
@[simp] theorem queueVerify_mem (s) (p) : mem (queueVerify s p) = mem s := by unfold queueVerify; (try dsimp only); (repeat' split) <;> first | with_reducible rfl | (simp only [mem_mk, mem_fold, mem_ite, ite_self, modChan_mem, enqueue_mem]; done) | (simp (disch := (intros; first | with_reducible rfl | (simp only [mem_mk, mem_fold, mem_ite, ite_self, modChan_mem, enqueue_mem]; done) | ((repeat' split) <;> first | with_reducible rfl | (simp only [mem_mk, mem_fold, mem_ite, ite_self, modChan_mem, enqueue_mem]; done) | fail) | fail)) only [mem_foldl, mem_mk, mem_fold, mem_ite, ite_self, modChan_mem, enqueue_mem]; done) | fail
@[simp] theorem wireFail_mem (s) (c) (w) (cause) : mem (wireFail s c w cause) = mem s := by unfold wireFail; (try dsimp only); (repeat' split) <;> first | with_reducible rfl | (simp only [mem_mk, mem_fold, mem_ite, ite_self, modChan_mem, setCal_mem, latch_mem, logEv_mem, steer_mem, sweepAbandon_mem, enterLost_mem]; done) | (simp (disch := (intros; first | with_reducible rfl | (simp only [mem_mk, mem_fold, mem_ite, ite_self, modChan_mem, setCal_mem, latch_mem, logEv_mem, steer_mem, sweepAbandon_mem, enterLost_mem]; done) | ((repeat' split) <;> first | with_reducible rfl | (simp only [mem_mk, mem_fold, mem_ite, ite_self, modChan_mem, setCal_mem, latch_mem, logEv_mem, steer_mem, sweepAbandon_mem, enterLost_mem]; done) | fail) | fail)) only [mem_foldl, mem_mk, mem_fold, mem_ite, ite_self, modChan_mem, setCal_mem, latch_mem, logEv_mem, steer_mem, sweepAbandon_mem, enterLost_mem]; done) | fail
@[simp] theorem wireRuns_mem (s) (c) (t) (corr) : mem (wireRuns s c t corr) = mem s := by simp (disch := (intros; first | with_reducible rfl | (simp only [mem_mk, mem_fold, mem_ite, ite_self, modChan_mem, wireFail_mem]; done) | ((repeat' split) <;> first | with_reducible rfl | (simp only [mem_mk, mem_fold, mem_ite, ite_self, modChan_mem, wireFail_mem]; done) | fail) | fail)) only [wireRuns, mem_foldl, mem_mk, mem_fold, mem_ite, ite_self, modChan_mem, wireFail_mem]
@[simp] theorem deliverPort_mem (s) (id) (idx) (e) (d) (bad) (fencedRow) (corrected) (recon) :
    mem (deliverPort s id idx e d bad fencedRow corrected recon) = mem s :=
  (partsDone_mem ..).trans (modReq_mem ..)
@[simp] theorem stampJob_mem (s) (k) (j) (e) : mem (stampJob s k j e) = mem s := by
  unfold stampJob; split
  · exact modReq_mem ..
  · rfl
@[simp] theorem deliverJob_mem (s) (k) (j) (d) (corrected) (recon) : mem (deliverJob s k j d corrected recon) = mem s := by unfold deliverJob; (try dsimp only); (repeat' split) <;> first | with_reducible rfl | (simp only [mem_mk, mem_fold, mem_ite, ite_self, modOct_mem, modReq_mem, reconReq_mem]; done) | (simp (disch := (intros; first | with_reducible rfl | (simp only [mem_mk, mem_fold, mem_ite, ite_self, modOct_mem, modReq_mem, reconReq_mem]; done) | ((repeat' split) <;> first | with_reducible rfl | (simp only [mem_mk, mem_fold, mem_ite, ite_self, modOct_mem, modReq_mem, reconReq_mem]; done) | fail) | fail)) only [mem_foldl, mem_mk, mem_fold, mem_ite, ite_self, modOct_mem, modReq_mem, reconReq_mem]; done) | fail
@[simp] theorem fillHandle_mem (s) (h) (d) (ue) (poisoned) : mem (fillHandle s h d ue poisoned) = mem s := by simp only [fillHandle, mem_mk, mem_fold, mem_ite, ite_self]
@[simp] theorem modRecon_mem (s) (ci) (bank) (row) (f : Recon → Recon) : mem (modRecon s ci bank row f) = mem s := by simp (disch := (intros; first | with_reducible rfl | (simp only [mem_mk, mem_fold, mem_ite, ite_self, modChan_mem]; done) | ((repeat' split) <;> first | with_reducible rfl | (simp only [mem_mk, mem_fold, mem_ite, ite_self, modChan_mem]; done) | fail) | fail)) only [modRecon, mem_foldl, mem_mk, mem_fold, mem_ite, ite_self, modChan_mem]
@[simp] theorem reconGot_mem (s) (ci) (bank) (row) (p) (d) (newer) : mem (reconGot s ci bank row p d newer) = mem s := by unfold reconGot; (try dsimp only); (repeat' split) <;> first | with_reducible rfl | (simp only [mem_mk, mem_fold, mem_ite, ite_self, modChan_mem, bumpReg_mem, enqueue_mem, modRecon_mem]; done) | (simp (disch := (intros; first | with_reducible rfl | (simp only [mem_mk, mem_fold, mem_ite, ite_self, modChan_mem, bumpReg_mem, enqueue_mem, modRecon_mem]; done) | ((repeat' split) <;> first | with_reducible rfl | (simp only [mem_mk, mem_fold, mem_ite, ite_self, modChan_mem, bumpReg_mem, enqueue_mem, modRecon_mem]; done) | fail) | fail)) only [mem_foldl, mem_mk, mem_fold, mem_ite, ite_self, modChan_mem, bumpReg_mem, enqueue_mem, modRecon_mem]; done) | fail
@[simp] theorem remapGot_mem (s) (e) (p) (d) (changed) : mem (remapGot s e p d changed) = mem s := by unfold remapGot; (try dsimp only); (repeat' split) <;> first | with_reducible rfl | (simp only [mem_mk, mem_fold, mem_ite, ite_self, enqueueAll_mem]; done) | (simp (disch := (intros; first | with_reducible rfl | (simp only [mem_mk, mem_fold, mem_ite, ite_self, enqueueAll_mem]; done) | ((repeat' split) <;> first | with_reducible rfl | (simp only [mem_mk, mem_fold, mem_ite, ite_self, enqueueAll_mem]; done) | fail) | fail)) only [mem_foldl, mem_mk, mem_fold, mem_ite, ite_self, enqueueAll_mem]; done) | fail
@[simp] theorem deliver_mem (s) (e) (i) (p) (d) (ue) (poisoned) (fencedRow) (corrected) (recon) : mem (deliver s e i p d ue poisoned fencedRow corrected recon) = mem s := by unfold deliver; (try dsimp only); (repeat' split) <;> first | with_reducible rfl | (simp only [mem_mk, mem_fold, mem_ite, ite_self, modChan_mem, evict_mem, scratchErrs_mem, deliverPort_mem, stampJob_mem, deliverJob_mem, fillHandle_mem, reconGot_mem, remapGot_mem]; done) | (simp (disch := (intros; first | with_reducible rfl | (simp only [mem_mk, mem_fold, mem_ite, ite_self, modChan_mem, evict_mem, scratchErrs_mem, deliverPort_mem, stampJob_mem, deliverJob_mem, fillHandle_mem, reconGot_mem, remapGot_mem]; done) | ((repeat' split) <;> first | with_reducible rfl | (simp only [mem_mk, mem_fold, mem_ite, ite_self, modChan_mem, evict_mem, scratchErrs_mem, deliverPort_mem, stampJob_mem, deliverJob_mem, fillHandle_mem, reconGot_mem, remapGot_mem]; done) | fail) | fail)) only [mem_foldl, mem_mk, mem_fold, mem_ite, ite_self, modChan_mem, evict_mem, scratchErrs_mem, deliverPort_mem, stampJob_mem, deliverJob_mem, fillHandle_mem, reconGot_mem, remapGot_mem]; done) | fail
@[simp] theorem reconAsk_mem (s) (ci) (r) : mem (reconAsk s ci r) = mem s := by simp (disch := (intros; first | with_reducible rfl | (simp only [mem_mk, mem_fold, mem_ite, ite_self, enqueueAll_mem, modRecon_mem]; done) | ((repeat' split) <;> first | with_reducible rfl | (simp only [mem_mk, mem_fold, mem_ite, ite_self, enqueueAll_mem, modRecon_mem]; done) | fail) | fail)) only [reconAsk, mem_foldl, mem_mk, mem_fold, mem_ite, ite_self, enqueueAll_mem, modRecon_mem]
@[simp] theorem reconAskAll_mem (s) : mem (reconAskAll s) = mem s :=
  mem_foldl _ _ _ (fun t e => mem_foldl _ _ _ (fun u r => reconAsk_mem ..))
@[simp] theorem startReconOf_mem (s) (p) (v) (cls) (dl) (fl) : mem (startReconOf s p v cls dl fl) = mem s := by unfold startReconOf; (try dsimp only); (repeat' split) <;> first | with_reducible rfl | (simp only [mem_mk, mem_fold, mem_ite, ite_self, modChan_mem, modRecon_mem, reconAsk_mem]; done) | (simp (disch := (intros; first | with_reducible rfl | (simp only [mem_mk, mem_fold, mem_ite, ite_self, modChan_mem, modRecon_mem, reconAsk_mem]; done) | ((repeat' split) <;> first | with_reducible rfl | (simp only [mem_mk, mem_fold, mem_ite, ite_self, modChan_mem, modRecon_mem, reconAsk_mem]; done) | fail) | fail)) only [mem_foldl, mem_mk, mem_fold, mem_ite, ite_self, modChan_mem, modRecon_mem, reconAsk_mem]; done) | fail
@[simp] theorem gateReq_mem (s) (id) (d) : mem (gateReq s id d) = mem s := by simp (disch := (intros; first | with_reducible rfl | (simp only [mem_mk, mem_fold, mem_ite, ite_self, modReq_mem]; done) | ((repeat' split) <;> first | with_reducible rfl | (simp only [mem_mk, mem_fold, mem_ite, ite_self, modReq_mem]; done) | fail) | fail)) only [gateReq, mem_foldl, mem_mk, mem_fold, mem_ite, ite_self, modReq_mem]
@[simp] theorem startRecon_mem (s) (e) (p) (v) : mem (startRecon s e p v) = mem s := by simp only [startRecon, mem_mk, mem_fold, mem_ite, ite_self, startReconOf_mem]
@[simp] theorem octReserve_mem (s) (k) (id) (n) (l) : mem (octReserve s k id n l) = mem s := by simp (disch := (intros; first | with_reducible rfl | (simp only [mem_mk, mem_fold, mem_ite, ite_self, modOct_mem]; done) | ((repeat' split) <;> first | with_reducible rfl | (simp only [mem_mk, mem_fold, mem_ite, ite_self, modOct_mem]; done) | fail) | fail)) only [octReserve, mem_foldl, mem_mk, mem_fold, mem_ite, ite_self, modOct_mem]
@[simp] theorem scratchPut_mem (s) (k) (i) (d) : mem (scratchPut s k i d) = mem s := by simp (disch := (intros; first | with_reducible rfl | (simp only [mem_mk, mem_fold, mem_ite, ite_self, modOct_mem]; done) | ((repeat' split) <;> first | with_reducible rfl | (simp only [mem_mk, mem_fold, mem_ite, ite_self, modOct_mem]; done) | fail) | fail)) only [scratchPut, mem_foldl, mem_mk, mem_fold, mem_ite, ite_self, modOct_mem]
@[simp] theorem scratchRead_mem (s) (k) (b) (n) : mem (scratchRead s k b n).2 = mem s := by simp (disch := (intros; first | with_reducible rfl | (simp only [mem_mk, mem_fold, mem_ite, ite_self, scratchErrs_mem]; done) | ((repeat' split) <;> first | with_reducible rfl | (simp only [mem_mk, mem_fold, mem_ite, ite_self, scratchErrs_mem]; done) | fail) | fail)) only [scratchRead, mem_foldl, mem_mk, mem_fold, mem_ite, ite_self, scratchErrs_mem]
@[simp] theorem scratchWrite_mem (s) (k) (b) (xs) : mem (scratchWrite s k b xs) = mem s := by simp (disch := (intros; first | with_reducible rfl | (simp only [mem_mk, mem_fold, mem_ite, ite_self, scratchErrs_mem, scratchPut_mem]; done) | ((repeat' split) <;> first | with_reducible rfl | (simp only [mem_mk, mem_fold, mem_ite, ite_self, scratchErrs_mem, scratchPut_mem]; done) | fail) | fail)) only [scratchWrite, mem_foldl, mem_mk, mem_fold, mem_ite, ite_self, scratchErrs_mem, scratchPut_mem]
@[simp] theorem addJob_mem (s) (k) (req) (kind) (p) (v) (cls) (dl) (portNo) : mem (addJob s k req kind p v cls dl portNo) = mem s := by simp (disch := (intros; first | with_reducible rfl | (simp only [mem_mk, mem_fold, mem_ite, ite_self, modOct_mem]; done) | ((repeat' split) <;> first | with_reducible rfl | (simp only [mem_mk, mem_fold, mem_ite, ite_self, modOct_mem]; done) | fail) | fail)) only [addJob, mem_foldl, mem_mk, mem_fold, mem_ite, ite_self, modOct_mem]
@[simp] theorem setJob_mem (s) (k) (j) : mem (setJob s k j) = mem s := by simp (disch := (intros; first | with_reducible rfl | (simp only [mem_mk, mem_fold, mem_ite, ite_self, modOct_mem]; done) | ((repeat' split) <;> first | with_reducible rfl | (simp only [mem_mk, mem_fold, mem_ite, ite_self, modOct_mem]; done) | fail) | fail)) only [setJob, mem_foldl, mem_mk, mem_fold, mem_ite, ite_self, modOct_mem]
@[simp] theorem endJob_mem (s) (k) (jid) : mem (endJob s k jid) = mem s := by simp (disch := (intros; first | with_reducible rfl | (simp only [mem_mk, mem_fold, mem_ite, ite_self, modOct_mem]; done) | ((repeat' split) <;> first | with_reducible rfl | (simp only [mem_mk, mem_fold, mem_ite, ite_self, modOct_mem]; done) | fail) | fail)) only [endJob, mem_foldl, mem_mk, mem_fold, mem_ite, ite_self, modOct_mem]
@[simp] theorem addParity_mem (s) (req) (p) (v) (delta) (cls) (dl) (portNo) : mem (addParity s req p v delta cls dl portNo) = mem s := by unfold addParity; (try dsimp only); (repeat' split) <;> first | with_reducible rfl | (simp only [mem_mk, mem_fold, mem_ite, ite_self, modReq_mem, addJob_mem]; done) | (simp (disch := (intros; first | with_reducible rfl | (simp only [mem_mk, mem_fold, mem_ite, ite_self, modReq_mem, addJob_mem]; done) | ((repeat' split) <;> first | with_reducible rfl | (simp only [mem_mk, mem_fold, mem_ite, ite_self, modReq_mem, addJob_mem]; done) | fail) | fail)) only [mem_foldl, mem_mk, mem_fold, mem_ite, ite_self, modReq_mem, addJob_mem]; done) | fail
@[simp] theorem addVaultWrite_mem (s) (id) (p) (v) (new) (cls) (dl) (portNo) : mem (addVaultWrite s id p v new cls dl portNo) = mem s := by unfold addVaultWrite; (try dsimp only); (repeat' split) <;> first | with_reducible rfl | (simp only [mem_mk, mem_fold, mem_ite, ite_self, modOct_mem, modReq_mem, enqueue_mem]; done) | (simp (disch := (intros; first | with_reducible rfl | (simp only [mem_mk, mem_fold, mem_ite, ite_self, modOct_mem, modReq_mem, enqueue_mem]; done) | ((repeat' split) <;> first | with_reducible rfl | (simp only [mem_mk, mem_fold, mem_ite, ite_self, modOct_mem, modReq_mem, enqueue_mem]; done) | fail) | fail)) only [mem_foldl, mem_mk, mem_fold, mem_ite, ite_self, modOct_mem, modReq_mem, enqueue_mem]; done) | fail
@[simp] theorem jobWrite_mem (s) (k) (j) (old) (new) : mem (jobWrite s k j old new) = mem s := by unfold jobWrite; (try dsimp only); (repeat' split) <;> first | with_reducible rfl | (simp only [mem_mk, mem_fold, mem_ite, ite_self, enqueue_mem, setJob_mem, addParity_mem]; done) | fail
@[simp] theorem jobPoison_mem (s) (k) (j) (d) : mem (jobPoison s k j d) = mem s := by unfold jobPoison; (try dsimp only); (repeat' split) <;> first | with_reducible rfl | (simp only [mem_mk, mem_fold, mem_ite, ite_self, modReq_mem, partsDone_mem, poisonReq_mem, endJob_mem]; done) | (simp (disch := (intros; first | with_reducible rfl | (simp only [mem_mk, mem_fold, mem_ite, ite_self, modReq_mem, partsDone_mem, poisonReq_mem, endJob_mem]; done) | ((repeat' split) <;> first | with_reducible rfl | (simp only [mem_mk, mem_fold, mem_ite, ite_self, modReq_mem, partsDone_mem, poisonReq_mem, endJob_mem]; done) | fail) | fail)) only [mem_foldl, mem_mk, mem_fold, mem_ite, ite_self, modReq_mem, partsDone_mem, poisonReq_mem, endJob_mem]; done) | fail
@[simp] theorem jobReturned_mem (s) (k) (j) (d) : mem (jobReturned s k j d) = mem s := by unfold jobReturned; (try dsimp only); (repeat' split) <;> first | with_reducible rfl | (simp only [mem_mk, mem_fold, mem_ite, ite_self, modChan_mem, modReq_mem, latch_mem, evOct_mem, logEv_mem, partsDone_mem, enqueue_mem, scratchErrs_mem, setJob_mem, endJob_mem, addParity_mem, jobWrite_mem, jobPoison_mem]; done) | (simp (disch := (intros; first | with_reducible rfl | (simp only [mem_mk, mem_fold, mem_ite, ite_self, modChan_mem, modReq_mem, latch_mem, evOct_mem, logEv_mem, partsDone_mem, enqueue_mem, scratchErrs_mem, setJob_mem, endJob_mem, addParity_mem, jobWrite_mem, jobPoison_mem]; done) | ((repeat' split) <;> first | with_reducible rfl | (simp only [mem_mk, mem_fold, mem_ite, ite_self, modChan_mem, modReq_mem, latch_mem, evOct_mem, logEv_mem, partsDone_mem, enqueue_mem, scratchErrs_mem, setJob_mem, endJob_mem, addParity_mem, jobWrite_mem, jobPoison_mem]; done) | fail) | fail)) only [mem_foldl, mem_mk, mem_fold, mem_ite, ite_self, modChan_mem, modReq_mem, latch_mem, evOct_mem, logEv_mem, partsDone_mem, enqueue_mem, scratchErrs_mem, setJob_mem, endJob_mem, addParity_mem, jobWrite_mem, jobPoison_mem]; done) | fail
@[simp] theorem drainJoined_mem (s) (k) (j) : mem (drainJoined s k j) = mem s := by unfold drainJoined; (try dsimp only); (repeat' split) <;> first | with_reducible rfl | (simp only [mem_mk, mem_fold, mem_ite, ite_self, modChan_mem, modOct_mem, evOct_mem]; done) | (simp (disch := (intros; first | with_reducible rfl | (simp only [mem_mk, mem_fold, mem_ite, ite_self, modChan_mem, modOct_mem, evOct_mem]; done) | ((repeat' split) <;> first | with_reducible rfl | (simp only [mem_mk, mem_fold, mem_ite, ite_self, modChan_mem, modOct_mem, evOct_mem]; done) | fail) | fail)) only [mem_foldl, mem_mk, mem_fold, mem_ite, ite_self, modChan_mem, modOct_mem, evOct_mem]; done) | fail
@[simp] theorem modHdlEntry_mem (s) (h) (f : HdlEntry → HdlEntry) : mem (modHdlEntry s h f) = mem s := by unfold modHdlEntry; (try dsimp only); (repeat' split) <;> first | with_reducible rfl | (simp only [mem_mk, mem_fold, mem_ite, ite_self]; done) | fail
@[simp] theorem hdlTouch_mem (s) (h) : mem (hdlTouch s h) = mem s := by simp (disch := (intros; first | with_reducible rfl | (simp only [mem_mk, mem_fold, mem_ite, ite_self, modHdlEntry_mem]; done) | ((repeat' split) <;> first | with_reducible rfl | (simp only [mem_mk, mem_fold, mem_ite, ite_self, modHdlEntry_mem]; done) | fail) | fail)) only [hdlTouch, mem_foldl, mem_mk, mem_fold, mem_ite, ite_self, modHdlEntry_mem]
@[simp] theorem hdlSet_mem (s) (h) (b) (dirty) : mem (hdlSet s h b dirty) = mem s := by simp (disch := (intros; first | with_reducible rfl | (simp only [mem_mk, mem_fold, mem_ite, ite_self, modHdlEntry_mem]; done) | ((repeat' split) <;> first | with_reducible rfl | (simp only [mem_mk, mem_fold, mem_ite, ite_self, modHdlEntry_mem]; done) | fail) | fail)) only [hdlSet, mem_foldl, mem_mk, mem_fold, mem_ite, ite_self, modHdlEntry_mem]
@[simp] theorem hdlFetch_mem (s) (h) (pos) (cls) (dl) : mem (hdlFetch s h pos cls dl) = mem s := by simp only [hdlFetch, mem_mk, mem_fold, mem_ite, ite_self, enqueue_mem]
@[simp] theorem hdlStore_mem (s) (h) (pos) (cls) (dl) (d) : mem (hdlStore s h pos cls dl d) = mem s := by simp only [hdlStore, mem_mk, mem_fold, mem_ite, ite_self, enqueue_mem]
@[simp] theorem hdlEvict_mem (s) : mem (hdlEvict s) = mem s := by unfold hdlEvict; (try dsimp only); (repeat' split) <;> first | with_reducible rfl | (simp only [mem_mk, mem_fold, mem_ite, ite_self, hdlStore_mem]; done) | (simp (disch := (intros; first | with_reducible rfl | (simp only [mem_mk, mem_fold, mem_ite, ite_self, hdlStore_mem]; done) | ((repeat' split) <;> first | with_reducible rfl | (simp only [mem_mk, mem_fold, mem_ite, ite_self, hdlStore_mem]; done) | fail) | fail)) only [mem_foldl, mem_mk, mem_fold, mem_ite, ite_self, hdlStore_mem]; done) | fail
@[simp] theorem settleBad_mem (s) : mem (settleBad s) = mem s := by simp (disch := (intros; first | with_reducible rfl | (simp only [mem_mk, mem_fold, mem_ite, ite_self, setReg_mem, latch_mem, modHdlEntry_mem, hdlStore_mem]; done) | ((repeat' split) <;> first | with_reducible rfl | (simp only [mem_mk, mem_fold, mem_ite, ite_self, setReg_mem, latch_mem, modHdlEntry_mem, hdlStore_mem]; done) | fail) | fail)) only [settleBad, mem_foldl, mem_mk, mem_fold, mem_ite, ite_self, setReg_mem, latch_mem, modHdlEntry_mem, hdlStore_mem]
@[simp] theorem validCount_mem (s) (d) : mem (validCount s d) = mem s := by simp only [validCount, mem_mk, mem_fold, mem_ite, ite_self]
@[simp] theorem hdlWriteThrough_mem (s) (h) (pos) (cls) (dl) (b) : mem (hdlWriteThrough s h pos cls dl b) = mem s := by simp only [hdlWriteThrough, mem_mk, mem_fold, mem_ite, ite_self, hdlSet_mem, hdlStore_mem]
@[simp] theorem hdlRelease_mem (s) (h) (pos) (cls) (dl) : mem (hdlRelease s h pos cls dl) = mem s := by simp only [hdlRelease, mem_mk, mem_fold, mem_ite, ite_self, validCount_mem, hdlWriteThrough_mem]
@[simp] theorem createEntry_mem (s) (h) (im) (dl) : mem (createEntry s h im dl) = mem s := by simp only [createEntry, mem_mk, mem_fold, mem_ite, ite_self, validCount_mem, hdlWriteThrough_mem]
@[simp] theorem hdlOpRun_mem (s) : mem (hdlOpRun s) = mem s := by unfold hdlOpRun; (try dsimp only); (repeat' split) <;> first | with_reducible rfl | (simp only [mem_mk, mem_fold, mem_ite, ite_self, setReg_mem, hdlTouch_mem, hdlFetch_mem, hdlRelease_mem, createEntry_mem]; done) | (simp (disch := (intros; first | with_reducible rfl | (simp only [mem_mk, mem_fold, mem_ite, ite_self, setReg_mem, hdlTouch_mem, hdlFetch_mem, hdlRelease_mem, createEntry_mem]; done) | ((repeat' split) <;> first | with_reducible rfl | (simp only [mem_mk, mem_fold, mem_ite, ite_self, setReg_mem, hdlTouch_mem, hdlFetch_mem, hdlRelease_mem, createEntry_mem]; done) | fail) | fail)) only [mem_foldl, mem_mk, mem_fold, mem_ite, ite_self, setReg_mem, hdlTouch_mem, hdlFetch_mem, hdlRelease_mem, createEntry_mem]; done) | fail
@[simp] theorem regReadEffect_mem (s) (p) (page) (off) : mem (regReadEffect s p page off) = mem s := by simp (disch := (intros; first | with_reducible rfl | (simp only [mem_mk, mem_fold, mem_ite, ite_self, modPort_mem]; done) | ((repeat' split) <;> first | with_reducible rfl | (simp only [mem_mk, mem_fold, mem_ite, ite_self, modPort_mem]; done) | fail) | fail)) only [regReadEffect, mem_foldl, mem_mk, mem_fold, mem_ite, ite_self, modPort_mem]
@[simp] theorem gateWrite_mem (s) (j) (v) : mem (gateWrite s j v) = mem s := by simp (disch := (intros; first | with_reducible rfl | (simp only [mem_mk, mem_fold, mem_ite, ite_self, latch_mem]; done) | ((repeat' split) <;> first | with_reducible rfl | (simp only [mem_mk, mem_fold, mem_ite, ite_self, latch_mem]; done) | fail) | fail)) only [gateWrite, mem_foldl, mem_mk, mem_fold, mem_ite, ite_self, latch_mem]
@[simp] theorem commitCount_mem (s) (page) : mem (commitCount s page) = mem s := by simp only [commitCount, mem_mk, mem_fold, mem_ite, ite_self, bumpReg_mem]
@[simp] theorem rgnCommitNow_mem (s) : mem (rgnCommitNow s) = mem s := by unfold rgnCommitNow; (try dsimp only); (repeat' split) <;> first | with_reducible rfl | (simp only [mem_mk, mem_fold, mem_ite, ite_self, setReg_mem, latch_mem, commitCount_mem]; done) | fail
@[simp] theorem arbCommitNow_mem (s) (id) : mem (arbCommitNow s id) = mem s := by unfold arbCommitNow; (try dsimp only); (repeat' split) <;> first | with_reducible rfl | (simp only [mem_mk, mem_fold, mem_ite, ite_self, setReg_mem, latch_mem]; done) | fail
@[simp] theorem octRestart_mem (s) (k) : mem (octRestart s k) = mem s := by simp (disch := (intros; first | with_reducible rfl | (simp only [mem_mk, mem_fold, mem_ite, ite_self, modOct_mem]; done) | ((repeat' split) <;> first | with_reducible rfl | (simp only [mem_mk, mem_fold, mem_ite, ite_self, modOct_mem]; done) | fail) | fail)) only [octRestart, mem_foldl, mem_mk, mem_fold, mem_ite, ite_self, modOct_mem]
@[simp] theorem eccRestart_mem (s) : mem (eccRestart s) = mem s := by simp only [eccRestart, mem_mk, mem_fold, mem_ite, ite_self, sbWrite_mem]
@[simp] theorem runWrite_mem (s) (u) (v) : mem (runWrite s u v) = mem s := by unfold runWrite; (try dsimp only); (repeat' split) <;> first | with_reducible rfl | (simp only [mem_mk, mem_fold, mem_ite, ite_self, modOct_mem, octRestart_mem, eccRestart_mem]; done) | (simp (disch := (intros; first | with_reducible rfl | (simp only [mem_mk, mem_fold, mem_ite, ite_self, modOct_mem, octRestart_mem, eccRestart_mem]; done) | ((repeat' split) <;> first | with_reducible rfl | (simp only [mem_mk, mem_fold, mem_ite, ite_self, modOct_mem, octRestart_mem, eccRestart_mem]; done) | fail) | fail)) only [mem_foldl, mem_mk, mem_fold, mem_ite, ite_self, modOct_mem, octRestart_mem, eccRestart_mem]; done) | fail
@[simp] theorem freqRequest_mem (s) (v) : mem (freqRequest s v) = mem s := by simp (disch := (intros; first | with_reducible rfl | (simp only [mem_mk, mem_fold, mem_ite, ite_self]; done) | ((repeat' split) <;> first | with_reducible rfl | (simp only [mem_mk, mem_fold, mem_ite, ite_self]; done) | fail) | fail)) only [freqRequest, mem_foldl, mem_mk, mem_fold, mem_ite, ite_self]
@[simp] theorem smpInterval_mem (s) : mem (smpInterval s).2 = mem s := by unfold smpInterval; (try dsimp only); (repeat' split) <;> first | with_reducible rfl | (simp only [mem_mk, mem_fold, mem_ite, ite_self]; done) | fail
@[simp] theorem smpCtl_mem (s) (wasEn) (v) : mem (smpCtl s wasEn v) = mem s := by unfold smpCtl; (try dsimp only); (repeat' split) <;> first | with_reducible rfl | (simp only [mem_mk, mem_fold, mem_ite, ite_self, smpInterval_mem]; done) | fail
@[simp] theorem copyWords_mem (s) (page) (off) (n) (b) : mem (copyWords s page off n b) = mem s := by simp (disch := (intros; first | with_reducible rfl | (simp only [mem_mk, mem_fold, mem_ite, ite_self, setReg_mem]; done) | ((repeat' split) <;> first | with_reducible rfl | (simp only [mem_mk, mem_fold, mem_ite, ite_self, setReg_mem]; done) | fail) | fail)) only [copyWords, mem_foldl, mem_mk, mem_fold, mem_ite, ite_self, setReg_mem]
@[simp] theorem logRead_mem (s) (n) : mem (logRead s n) = mem s := by unfold logRead; (try dsimp only); (repeat' split) <;> first | with_reducible rfl | (simp only [mem_mk, mem_fold, mem_ite, ite_self, copyWords_mem]; done) | (simp (disch := (intros; first | with_reducible rfl | (simp only [mem_mk, mem_fold, mem_ite, ite_self, copyWords_mem]; done) | ((repeat' split) <;> first | with_reducible rfl | (simp only [mem_mk, mem_fold, mem_ite, ite_self, copyWords_mem]; done) | fail) | fail)) only [mem_foldl, mem_mk, mem_fold, mem_ite, ite_self, copyWords_mem]; done) | fail
@[simp] theorem smpRead_mem (s) (n) : mem (smpRead s n) = mem s := by unfold smpRead; (try dsimp only); (repeat' split) <;> first | with_reducible rfl | (simp only [mem_mk, mem_fold, mem_ite, ite_self, copyWords_mem]; done) | (simp (disch := (intros; first | with_reducible rfl | (simp only [mem_mk, mem_fold, mem_ite, ite_self, copyWords_mem]; done) | ((repeat' split) <;> first | with_reducible rfl | (simp only [mem_mk, mem_fold, mem_ite, ite_self, copyWords_mem]; done) | fail) | fail)) only [mem_foldl, mem_mk, mem_fold, mem_ite, ite_self, copyWords_mem]; done) | fail
@[simp] theorem cfgSet_mem (s) (v) : mem (cfgSet s v) = mem s := by simp only [cfgSet, mem_mk, mem_fold, mem_ite, ite_self]
@[simp] theorem counterWrite_mem (s) (p) (i) (hi) (v) : mem (counterWrite s p i hi v) = mem s := by simp (disch := (intros; first | with_reducible rfl | (simp only [mem_mk, mem_fold, mem_ite, ite_self, setCounter_mem, modPort_mem]; done) | ((repeat' split) <;> first | with_reducible rfl | (simp only [mem_mk, mem_fold, mem_ite, ite_self, setCounter_mem, modPort_mem]; done) | fail) | fail)) only [counterWrite, mem_foldl, mem_mk, mem_fold, mem_ite, ite_self, setCounter_mem, modPort_mem]
@[simp] theorem hdlOpWrite_mem (s) (v) : mem (hdlOpWrite s v) = mem s := by simp (disch := (intros; first | with_reducible rfl | (simp only [mem_mk, mem_fold, mem_ite, ite_self, hdlOpRun_mem]; done) | ((repeat' split) <;> first | with_reducible rfl | (simp only [mem_mk, mem_fold, mem_ite, ite_self, hdlOpRun_mem]; done) | fail) | fail)) only [hdlOpWrite, mem_foldl, mem_mk, mem_fold, mem_ite, ite_self, hdlOpRun_mem]
@[simp] theorem ppOpWrite_mem (s) (v) : mem (ppOpWrite s v) = mem s := by unfold ppOpWrite; (try dsimp only); (repeat' split) <;> first | with_reducible rfl | (simp only [mem_mk, mem_fold, mem_ite, ite_self, sbQueue_mem]; done) | (simp (disch := (intros; first | with_reducible rfl | (simp only [mem_mk, mem_fold, mem_ite, ite_self, sbQueue_mem]; done) | ((repeat' split) <;> first | with_reducible rfl | (simp only [mem_mk, mem_fold, mem_ite, ite_self, sbQueue_mem]; done) | fail) | fail)) only [mem_foldl, mem_mk, mem_fold, mem_ite, ite_self, sbQueue_mem]; done) | fail
@[simp] theorem t1500Go_mem (s) : mem (t1500Go s) = mem s := by simp (disch := (intros; first | with_reducible rfl | (simp only [mem_mk, mem_fold, mem_ite, ite_self, latch_mem, sbQueue_mem]; done) | ((repeat' split) <;> first | with_reducible rfl | (simp only [mem_mk, mem_fold, mem_ite, ite_self, latch_mem, sbQueue_mem]; done) | fail) | fail)) only [t1500Go, mem_foldl, mem_mk, mem_fold, mem_ite, ite_self, latch_mem, sbQueue_mem]
@[simp] theorem mbistGo_mem (s) (v) : mem (mbistGo s v) = mem s := by simp only [mbistGo, mem_mk, mem_fold, mem_ite, ite_self]
@[simp] theorem fmeasGo_mem (s) (v) : mem (fmeasGo s v) = mem s := by simp only [fmeasGo, mem_mk, mem_fold, mem_ite, ite_self]
@[simp] theorem blkReset_mem (s) (v) : mem (blkReset s v) = mem s := by simp only [blkReset, mem_mk, mem_fold, mem_ite, ite_self]
@[simp] theorem calForceWrite_mem (s) (n) (v) : mem (calForceWrite s n v) = mem s := by simp only [calForceWrite, mem_mk, mem_fold, mem_ite, ite_self, setCal_mem]
@[simp] theorem overridden_mem (s) (vdd) (setting) (value) : mem (overridden s vdd setting value) = mem s := by simp only [overridden, mem_mk, mem_fold, mem_ite, ite_self, bumpReg_mem, latch_mem, logEv_mem]
@[simp] theorem overrides_mem (s) : mem (overrides s) = mem s := by simp only [overrides, mem_mk, mem_fold, mem_ite, ite_self, overridden_mem]
@[simp] theorem writeHook_mem (s) (p) (u) (off) (old) (v) (id) : mem (writeHook s p u off old v id) = mem s := by unfold writeHook; (try dsimp only); (repeat' split) <;> first | with_reducible rfl | (simp only [mem_mk, mem_fold, mem_ite, ite_self, attnRecheck_mem, logEv_mem, sbWrite_mem, reseed_mem, sweepAbandon_mem, gateWrite_mem, rgnCommitNow_mem, arbCommitNow_mem, runWrite_mem, freqRequest_mem, smpCtl_mem, logRead_mem, smpRead_mem, cfgSet_mem, counterWrite_mem, hdlOpWrite_mem, ppOpWrite_mem, t1500Go_mem, mbistGo_mem, fmeasGo_mem, blkReset_mem, calForceWrite_mem, overrides_mem]; done) | fail
@[simp] theorem regWrite_mem (s) (p) (page) (off) (v) (id) : mem (regWrite s p page off v id) = mem s := by unfold regWrite; (try dsimp only); (repeat' split) <;> first | with_reducible rfl | (simp only [mem_mk, mem_fold, mem_ite, ite_self, setReg_mem, writeHook_mem]; done) | fail
@[simp] theorem setStage_mem (s) (id) (st) : mem (setStage s id st) = mem s := by simp (disch := (intros; first | with_reducible rfl | (simp only [mem_mk, mem_fold, mem_ite, ite_self, modReq_mem]; done) | ((repeat' split) <;> first | with_reducible rfl | (simp only [mem_mk, mem_fold, mem_ite, ite_self, modReq_mem]; done) | fail) | fail)) only [setStage, mem_foldl, mem_mk, mem_fold, mem_ite, ite_self, modReq_mem]
@[simp] theorem listReq_mem (s) (r) : mem (listReq s r) = mem s := by simp (disch := (intros; first | with_reducible rfl | (simp only [mem_mk, mem_fold, mem_ite, ite_self, modPort_mem]; done) | ((repeat' split) <;> first | with_reducible rfl | (simp only [mem_mk, mem_fold, mem_ite, ite_self, modPort_mem]; done) | fail) | fail)) only [listReq, mem_foldl, mem_mk, mem_fold, mem_ite, ite_self, modPort_mem]
@[simp] theorem dropReq_mem (s) (id) : mem (dropReq s id) = mem s := by simp (disch := (intros; first | with_reducible rfl | (simp only [mem_mk, mem_fold, mem_ite, ite_self]; done) | ((repeat' split) <;> first | with_reducible rfl | (simp only [mem_mk, mem_fold, mem_ite, ite_self]; done) | fail) | fail)) only [dropReq, mem_foldl, mem_mk, mem_fold, mem_ite, ite_self]
@[simp] theorem passed6_mem (s) (r) : mem (passed6 s r) = mem s := by simp (disch := (intros; first | with_reducible rfl | (simp only [mem_mk, mem_fold, mem_ite, ite_self, modReq_mem, evPort_mem, modPort_mem, freeBeats_mem]; done) | ((repeat' split) <;> first | with_reducible rfl | (simp only [mem_mk, mem_fold, mem_ite, ite_self, modReq_mem, evPort_mem, modPort_mem, freeBeats_mem]; done) | fail) | fail)) only [passed6, mem_foldl, mem_mk, mem_fold, mem_ite, ite_self, modReq_mem, evPort_mem, modPort_mem, freeBeats_mem]
@[simp] theorem cfgPerform_mem (s) (r) : mem (cfgPerform s r) = mem s := by unfold cfgPerform; (try dsimp only); (repeat' split) <;> first | with_reducible rfl | (simp only [mem_mk, mem_fold, mem_ite, ite_self, replyReq_mem, finishReq_mem, regReadEffect_mem, regWrite_mem, passed6_mem]; done) | fail
@[simp] theorem enqueuePieces_mem (s) (r) (cls) (dl) (write) (ps) : mem (enqueuePieces s r cls dl write ps) = mem s := by simp (disch := (intros; first | with_reducible rfl | (simp only [mem_mk, mem_fold, mem_ite, ite_self, enqueue_mem]; done) | ((repeat' split) <;> first | with_reducible rfl | (simp only [mem_mk, mem_fold, mem_ite, ite_self, enqueue_mem]; done) | fail) | fail)) only [enqueuePieces, mem_foldl, mem_mk, mem_fold, mem_ite, ite_self, enqueue_mem]
@[simp] theorem vaultWrites_mem (s) (r) (cls) (dl) (xs) : mem (vaultWrites s r cls dl xs) = mem s := by unfold vaultWrites; (try dsimp only); (repeat' split) <;> first | with_reducible rfl | (simp only [mem_mk, mem_fold, mem_ite, ite_self, addVaultWrite_mem]; done) | (simp (disch := (intros; first | with_reducible rfl | (simp only [mem_mk, mem_fold, mem_ite, ite_self, addVaultWrite_mem]; done) | ((repeat' split) <;> first | with_reducible rfl | (simp only [mem_mk, mem_fold, mem_ite, ite_self, addVaultWrite_mem]; done) | fail) | fail)) only [mem_foldl, mem_mk, mem_fold, mem_ite, ite_self, addVaultWrite_mem]; done) | fail
@[simp] theorem admitRd_mem (s) (r) (cls) (dl) : mem (admitRd s r cls dl) = mem s := by simp (disch := (intros; first | with_reducible rfl | (simp only [mem_mk, mem_fold, mem_ite, ite_self, modReq_mem, enqueuePieces_mem]; done) | ((repeat' split) <;> first | with_reducible rfl | (simp only [mem_mk, mem_fold, mem_ite, ite_self, modReq_mem, enqueuePieces_mem]; done) | fail) | fail)) only [admitRd, mem_foldl, mem_mk, mem_fold, mem_ite, ite_self, modReq_mem, enqueuePieces_mem]
@[simp] theorem admitWr_mem (s) (r) (cls) (dl) (data) (masks) : mem (admitWr s r cls dl data masks) = mem s := by simp (disch := (intros; first | with_reducible rfl | (simp only [mem_mk, mem_fold, mem_ite, ite_self, modReq_mem, finishReq_mem, enqueuePieces_mem, vaultWrites_mem]; done) | ((repeat' split) <;> first | with_reducible rfl | (simp only [mem_mk, mem_fold, mem_ite, ite_self, modReq_mem, finishReq_mem, enqueuePieces_mem, vaultWrites_mem]; done) | fail) | fail)) only [admitWr, mem_foldl, mem_mk, mem_fold, mem_ite, ite_self, modReq_mem, finishReq_mem, enqueuePieces_mem, vaultWrites_mem]
@[simp] theorem holdSector_mem (s) (r) (x) (d) : mem (holdSector s r x d) = mem s := by simp (disch := (intros; first | with_reducible rfl | (simp only [mem_mk, mem_fold, mem_ite, ite_self, modChan_mem, modOct_mem, latch_mem, evOct_mem]; done) | ((repeat' split) <;> first | with_reducible rfl | (simp only [mem_mk, mem_fold, mem_ite, ite_self, modChan_mem, modOct_mem, latch_mem, evOct_mem]; done) | fail) | fail)) only [holdSector, mem_foldl, mem_mk, mem_fold, mem_ite, ite_self, modChan_mem, modOct_mem, latch_mem, evOct_mem]
@[simp] theorem admitRdw_mem (s) (r) (cls) (dl) (data) : mem (admitRdw s r cls dl data) = mem s := by simp (disch := (intros; first | with_reducible rfl | (simp only [mem_mk, mem_fold, mem_ite, ite_self, modReq_mem, finishReq_mem, addJob_mem, holdSector_mem]; done) | ((repeat' split) <;> first | with_reducible rfl | (simp only [mem_mk, mem_fold, mem_ite, ite_self, modReq_mem, finishReq_mem, addJob_mem, holdSector_mem]; done) | fail) | fail)) only [admitRdw, mem_foldl, mem_mk, mem_fold, mem_ite, ite_self, modReq_mem, finishReq_mem, addJob_mem, holdSector_mem]
@[simp] theorem admitAt_mem (s) (r) (cls) (dl) (data) : mem (admitAt s r cls dl data) = mem s := by unfold admitAt; (try dsimp only); (repeat' split) <;> first | with_reducible rfl | (simp only [mem_mk, mem_fold, mem_ite, ite_self, modReq_mem, addJob_mem]; done) | (simp (disch := (intros; first | with_reducible rfl | (simp only [mem_mk, mem_fold, mem_ite, ite_self, modReq_mem, addJob_mem]; done) | ((repeat' split) <;> first | with_reducible rfl | (simp only [mem_mk, mem_fold, mem_ite, ite_self, modReq_mem, addJob_mem]; done) | fail) | fail)) only [mem_foldl, mem_mk, mem_fold, mem_ite, ite_self, modReq_mem, addJob_mem]; done) | fail
@[simp] theorem bbufWrite_mem (s) (a) (data) : mem (bbufWrite s a data) = mem s := by simp (disch := (intros; first | with_reducible rfl | (simp only [mem_mk, mem_fold, mem_ite, ite_self]; done) | ((repeat' split) <;> first | with_reducible rfl | (simp only [mem_mk, mem_fold, mem_ite, ite_self]; done) | fail) | fail)) only [bbufWrite, mem_foldl, mem_mk, mem_fold, mem_ite, ite_self]
@[simp] theorem cutChan_mem (s) (n) (c) : mem (cutChan s n c) = mem s := by unfold cutChan; (try dsimp only); (repeat' split) <;> first | with_reducible rfl | (simp only [mem_mk, mem_fold, mem_ite, ite_self, modChan_mem]; done) | (simp (disch := (intros; first | with_reducible rfl | (simp only [mem_mk, mem_fold, mem_ite, ite_self, modChan_mem]; done) | ((repeat' split) <;> first | with_reducible rfl | (simp only [mem_mk, mem_fold, mem_ite, ite_self, modChan_mem]; done) | fail) | fail)) only [mem_foldl, mem_mk, mem_fold, mem_ite, ite_self, modChan_mem]; done) | fail
@[simp] theorem admitSop_mem (s) (r) (cls) (dl) : mem (admitSop s r cls dl) = mem s := by unfold admitSop; (try dsimp only); (repeat' split) <;> first | with_reducible rfl | (simp only [mem_mk, mem_fold, mem_ite, ite_self, modReq_mem, bumpReg_mem, evBlk_mem, cutChan_mem]; done) | (simp (disch := (intros; first | with_reducible rfl | (simp only [mem_mk, mem_fold, mem_ite, ite_self, modReq_mem, bumpReg_mem, evBlk_mem, cutChan_mem]; done) | ((repeat' split) <;> first | with_reducible rfl | (simp only [mem_mk, mem_fold, mem_ite, ite_self, modReq_mem, bumpReg_mem, evBlk_mem, cutChan_mem]; done) | fail) | fail)) only [mem_foldl, mem_mk, mem_fold, mem_ite, ite_self, modReq_mem, bumpReg_mem, evBlk_mem, cutChan_mem]; done) | fail
@[simp] theorem raiseTentative_mem (s) (r) : mem (raiseTentative s r) = mem s := by simp only [raiseTentative, mem_mk, mem_fold, mem_ite, ite_self, hdlTouch_mem, hdlSet_mem]
@[simp] theorem enter6_mem (s) (r) : mem (enter6 s r) = mem s := by simp (disch := (intros; first | with_reducible rfl | (simp only [mem_mk, mem_fold, mem_ite, ite_self, octReserve_mem, passed6_mem, raiseTentative_mem]; done) | ((repeat' split) <;> first | with_reducible rfl | (simp only [mem_mk, mem_fold, mem_ite, ite_self, octReserve_mem, passed6_mem, raiseTentative_mem]; done) | fail) | fail)) only [enter6, mem_foldl, mem_mk, mem_fold, mem_ite, ite_self, octReserve_mem, passed6_mem, raiseTentative_mem]
@[simp] theorem admitReq_mem (s) (r) : mem (admitReq s r) = mem s := by unfold admitReq; (try dsimp only); (repeat' split) <;> first | with_reducible rfl | (simp only [mem_mk, mem_fold, mem_ite, ite_self, finishReq_mem, cfgPerform_mem, admitRd_mem, admitWr_mem, admitRdw_mem, admitAt_mem, bbufWrite_mem, admitSop_mem, enter6_mem]; done) | (simp (disch := (intros; first | with_reducible rfl | (simp only [mem_mk, mem_fold, mem_ite, ite_self, finishReq_mem, cfgPerform_mem, admitRd_mem, admitWr_mem, admitRdw_mem, admitAt_mem, bbufWrite_mem, admitSop_mem, enter6_mem]; done) | ((repeat' split) <;> first | with_reducible rfl | (simp only [mem_mk, mem_fold, mem_ite, ite_self, finishReq_mem, cfgPerform_mem, admitRd_mem, admitWr_mem, admitRdw_mem, admitAt_mem, bbufWrite_mem, admitSop_mem, enter6_mem]; done) | fail) | fail)) only [mem_foldl, mem_mk, mem_fold, mem_ite, ite_self, finishReq_mem, cfgPerform_mem, admitRd_mem, admitWr_mem, admitRdw_mem, admitAt_mem, bbufWrite_mem, admitSop_mem, enter6_mem]; done) | fail
@[simp] theorem refuseHeld_mem (s) (r) : mem (refuseHeld s r) = mem s := by simp (disch := (intros; first | with_reducible rfl | (simp only [mem_mk, mem_fold, mem_ite, ite_self, setReg_mem, latch_mem, replyReq_mem]; done) | ((repeat' split) <;> first | with_reducible rfl | (simp only [mem_mk, mem_fold, mem_ite, ite_self, setReg_mem, latch_mem, replyReq_mem]; done) | fail) | fail)) only [refuseHeld, mem_foldl, mem_mk, mem_fold, mem_ite, ite_self, setReg_mem, latch_mem, replyReq_mem]
@[simp] theorem passStep5_mem (s) (r) : mem (passStep5 s r) = mem s := by simp only [passStep5, mem_mk, mem_fold, mem_ite, ite_self, replyReq_mem, admitReq_mem, refuseHeld_mem]
@[simp] theorem step4_mem (s) (r) : mem (step4 s r) = mem s := by unfold step4; (try dsimp only); (repeat' split) <;> first | with_reducible rfl | (simp only [mem_mk, mem_fold, mem_ite, ite_self, modReq_mem, setStage_mem, passStep5_mem]; done) | (simp (disch := (intros; first | with_reducible rfl | (simp only [mem_mk, mem_fold, mem_ite, ite_self, modReq_mem, setStage_mem, passStep5_mem]; done) | ((repeat' split) <;> first | with_reducible rfl | (simp only [mem_mk, mem_fold, mem_ite, ite_self, modReq_mem, setStage_mem, passStep5_mem]; done) | fail) | fail)) only [mem_foldl, mem_mk, mem_fold, mem_ite, ite_self, modReq_mem, setStage_mem, passStep5_mem]; done) | fail
@[simp] theorem sampleReq_mem (s) (id) : mem (sampleReq s id) = mem s := by unfold sampleReq; (try dsimp only); (repeat' split) <;> first | with_reducible rfl | (simp only [mem_mk, mem_fold, mem_ite, ite_self, modReq_mem, modPort_mem]; done) | (simp (disch := (intros; first | with_reducible rfl | (simp only [mem_mk, mem_fold, mem_ite, ite_self, modReq_mem, modPort_mem]; done) | ((repeat' split) <;> first | with_reducible rfl | (simp only [mem_mk, mem_fold, mem_ite, ite_self, modReq_mem, modPort_mem]; done) | fail) | fail)) only [mem_foldl, mem_mk, mem_fold, mem_ite, ite_self, modReq_mem, modPort_mem]; done) | fail
@[simp] theorem selectDue_mem (s) : mem (selectDue s) = mem s := by unfold selectDue; (try dsimp only); (repeat' split) <;> first | with_reducible rfl | (simp only [mem_mk, mem_fold, mem_ite, ite_self, smpInterval_mem, sampleReq_mem]; done) | fail
@[simp] theorem dueNow_mem (s) : mem (dueNow s) = mem s := by unfold dueNow; (try dsimp only); (repeat' split) <;> first | with_reducible rfl | (simp only [mem_mk, mem_fold, mem_ite, ite_self, smpInterval_mem]; done) | fail
@[simp] theorem countCandidate_mem (s) (r) (a) : mem (countCandidate s r a) = mem s := by simp only [countCandidate, mem_mk, mem_fold, mem_ite, ite_self, dueNow_mem]
@[simp] theorem countHeader_mem (s) (r) (late) : mem (countHeader s r late) = mem s := by simp only [countHeader, mem_mk, mem_fold, mem_ite, ite_self, evPort_mem, countCandidate_mem]
@[simp] theorem step2_mem (s) (r) (nm) : mem (step2 s r nm) = mem s := by unfold step2; (try dsimp only); (repeat' split) <;> first | with_reducible rfl | (simp only [mem_mk, mem_fold, mem_ite, ite_self, modReq_mem, setReg_mem, latch_mem, replyReq_mem, setStage_mem, step4_mem, countHeader_mem]; done) | (simp (disch := (intros; first | with_reducible rfl | (simp only [mem_mk, mem_fold, mem_ite, ite_self, modReq_mem, setReg_mem, latch_mem, replyReq_mem, setStage_mem, step4_mem, countHeader_mem]; done) | ((repeat' split) <;> first | with_reducible rfl | (simp only [mem_mk, mem_fold, mem_ite, ite_self, modReq_mem, setReg_mem, latch_mem, replyReq_mem, setStage_mem, step4_mem, countHeader_mem]; done) | fail) | fail)) only [mem_foldl, mem_mk, mem_fold, mem_ite, ite_self, modReq_mem, setReg_mem, latch_mem, replyReq_mem, setStage_mem, step4_mem, countHeader_mem]; done) | fail
@[simp] theorem poisonFetch_mem (s) (r) : mem (poisonFetch s r) = mem s := by simp only [poisonFetch, mem_mk, mem_fold, mem_ite, ite_self, replyReq_mem]
@[simp] theorem lookup_mem (s) (r) : mem (lookup s r) = mem s := by unfold lookup; (try dsimp only); (repeat' split) <;> first | with_reducible rfl | (simp only [mem_mk, mem_fold, mem_ite, ite_self, modReq_mem, replyReq_mem, hdlTouch_mem, hdlFetch_mem, setStage_mem, step2_mem, poisonFetch_mem]; done) | (simp (disch := (intros; first | with_reducible rfl | (simp only [mem_mk, mem_fold, mem_ite, ite_self, modReq_mem, replyReq_mem, hdlTouch_mem, hdlFetch_mem, setStage_mem, step2_mem, poisonFetch_mem]; done) | ((repeat' split) <;> first | with_reducible rfl | (simp only [mem_mk, mem_fold, mem_ite, ite_self, modReq_mem, replyReq_mem, hdlTouch_mem, hdlFetch_mem, setStage_mem, step2_mem, poisonFetch_mem]; done) | fail) | fail)) only [mem_foldl, mem_mk, mem_fold, mem_ite, ite_self, modReq_mem, replyReq_mem, hdlTouch_mem, hdlFetch_mem, setStage_mem, step2_mem, poisonFetch_mem]; done) | fail
@[simp] theorem goOn_mem (s) (id) : mem (goOn s id) = mem s := by unfold goOn; (try dsimp only); (repeat' split) <;> first | with_reducible rfl | (simp only [mem_mk, mem_fold, mem_ite, ite_self, step4_mem, lookup_mem]; done) | fail
@[simp] theorem pump_mem (s) (p) : mem (pump s p) = mem s := by simp (disch := (intros; first | with_reducible rfl | (simp only [mem_mk, mem_fold, mem_ite, ite_self, goOn_mem]; done) | ((repeat' split) <;> first | with_reducible rfl | (simp only [mem_mk, mem_fold, mem_ite, ite_self, goOn_mem]; done) | fail) | fail)) only [pump, mem_foldl, mem_mk, mem_fold, mem_ite, ite_self, goOn_mem]
@[simp] theorem pumpAll_mem (s) : mem (pumpAll s) = mem s := by simp (disch := (intros; first | with_reducible rfl | (simp only [mem_mk, mem_fold, mem_ite, ite_self, forN_mem, hdlOpRun_mem, pump_mem]; done) | ((repeat' split) <;> first | with_reducible rfl | (simp only [mem_mk, mem_fold, mem_ite, ite_self, forN_mem, hdlOpRun_mem, pump_mem]; done) | fail) | fail)) only [pumpAll, mem_foldl, mem_mk, mem_fold, mem_ite, ite_self, forN_mem, hdlOpRun_mem, pump_mem]
@[simp] theorem judgeNow_mem (s) (id) : mem (judgeNow s id) = mem s := by unfold judgeNow; (try dsimp only); (repeat' split) <;> first | with_reducible rfl | (simp only [mem_mk, mem_fold, mem_ite, ite_self, replyReq_mem, setStage_mem, lookup_mem]; done) | fail
@[simp] theorem judge_mem (s) (id) : mem (judge s id) = mem s := by simp (disch := (intros; first | with_reducible rfl | (simp only [mem_mk, mem_fold, mem_ite, ite_self, modReq_mem, judgeNow_mem]; done) | ((repeat' split) <;> first | with_reducible rfl | (simp only [mem_mk, mem_fold, mem_ite, ite_self, modReq_mem, judgeNow_mem]; done) | fail) | fail)) only [judge, mem_foldl, mem_mk, mem_fold, mem_ite, ite_self, modReq_mem, judgeNow_mem]
@[simp] theorem feedOne_mem (s) (p) : mem (feedOne s p) = mem s := by unfold feedOne; (try dsimp only); (repeat' split) <;> first | with_reducible rfl | (simp only [mem_mk, mem_fold, mem_ite, ite_self, modReq_mem, modPort_mem, freeBeats_mem, setStage_mem, dropReq_mem, judge_mem]; done) | (simp (disch := (intros; first | with_reducible rfl | (simp only [mem_mk, mem_fold, mem_ite, ite_self, modReq_mem, modPort_mem, freeBeats_mem, setStage_mem, dropReq_mem, judge_mem]; done) | ((repeat' split) <;> first | with_reducible rfl | (simp only [mem_mk, mem_fold, mem_ite, ite_self, modReq_mem, modPort_mem, freeBeats_mem, setStage_mem, dropReq_mem, judge_mem]; done) | fail) | fail)) only [mem_foldl, mem_mk, mem_fold, mem_ite, ite_self, modReq_mem, modPort_mem, freeBeats_mem, setStage_mem, dropReq_mem, judge_mem]; done) | fail
@[simp] theorem feed_mem (n : Nat) (s : State) (p : Nat) : mem (feed n s p) = mem s := by
  induction n generalizing s with
  | zero => rfl
  | succ n ih => exact (ih _).trans (feedOne_mem s p)
@[simp] theorem presentBeat_mem (s) (p) (b) : mem (presentBeat s p b) = mem s := by simp (disch := (intros; first | with_reducible rfl | (simp only [mem_mk, mem_fold, mem_ite, ite_self, latch_mem, modPort_mem, feed_mem]; done) | ((repeat' split) <;> first | with_reducible rfl | (simp only [mem_mk, mem_fold, mem_ite, ite_self, latch_mem, modPort_mem, feed_mem]; done) | fail) | fail)) only [presentBeat, mem_foldl, mem_mk, mem_fold, mem_ite, ite_self, latch_mem, modPort_mem, feed_mem]
@[simp] theorem creditReject_mem (s) (p) (opc) (h) (aux) : mem (creditReject s p opc h aux) = mem s := by simp only [creditReject, mem_mk, mem_fold, mem_ite, ite_self, latch_mem, replyReq_mem, listReq_mem]
@[simp] theorem stubReply_mem (s) (p) (opc) (h) (aux) : mem (stubReply s p opc h aux) = mem s := by simp (disch := (intros; first | with_reducible rfl | (simp only [mem_mk, mem_fold, mem_ite, ite_self, modPort_mem, replyReq_mem, listReq_mem]; done) | ((repeat' split) <;> first | with_reducible rfl | (simp only [mem_mk, mem_fold, mem_ite, ite_self, modPort_mem, replyReq_mem, listReq_mem]; done) | fail) | fail)) only [stubReply, mem_foldl, mem_mk, mem_fold, mem_ite, ite_self, modPort_mem, replyReq_mem, listReq_mem]
@[simp] theorem takeHeader_mem (s) (p) (opc) (h) (aux) : mem (takeHeader s p opc h aux) = mem s := by simp (disch := (intros; first | with_reducible rfl | (simp only [mem_mk, mem_fold, mem_ite, ite_self, modPort_mem, listReq_mem, countHeader_mem, judge_mem, feed_mem]; done) | ((repeat' split) <;> first | with_reducible rfl | (simp only [mem_mk, mem_fold, mem_ite, ite_self, modPort_mem, listReq_mem, countHeader_mem, judge_mem, feed_mem]; done) | fail) | fail)) only [takeHeader, mem_foldl, mem_mk, mem_fold, mem_ite, ite_self, modPort_mem, listReq_mem, countHeader_mem, judge_mem, feed_mem]
@[simp] theorem acceptHdr_mem (s) (p) (w) (aux) : mem (acceptHdr s p w aux) = mem s := by simp only [acceptHdr, mem_mk, mem_fold, mem_ite, ite_self, creditReject_mem, stubReply_mem, takeHeader_mem]
@[simp] theorem accept_mem (s) (p) (opc) (h) (aux) (bs) : mem (accept s p opc h aux bs) = mem s := by simp (disch := (intros; first | with_reducible rfl | (simp only [mem_mk, mem_fold, mem_ite, ite_self, presentBeat_mem, acceptHdr_mem]; done) | ((repeat' split) <;> first | with_reducible rfl | (simp only [mem_mk, mem_fold, mem_ite, ite_self, presentBeat_mem, acceptHdr_mem]; done) | fail) | fail)) only [accept, mem_foldl, mem_mk, mem_fold, mem_ite, ite_self, presentBeat_mem, acceptHdr_mem]
@[simp] theorem cfgWrite_mem (s) (p) (h) (page) (off) (v) : mem (cfgWrite s p h page off v) = mem s := by simp only [cfgWrite, mem_mk, mem_fold, mem_ite, ite_self, accept_mem]
@[simp] theorem cfgRead_mem (s) (p) (h) (page) (off) : mem (cfgRead s p h page off) = mem s := by simp only [cfgRead, mem_mk, mem_fold, mem_ite, ite_self, accept_mem]
@[simp] theorem doHcmt_mem (s) (r) (dl) : mem (doHcmt s r dl) = mem s := by simp only [doHcmt, mem_mk, mem_fold, mem_ite, ite_self, hdlWriteThrough_mem]
@[simp] theorem doHrbk_mem (s) (r) (dl) : mem (doHrbk s r dl) = mem s := by simp (disch := (intros; first | with_reducible rfl | (simp only [mem_mk, mem_fold, mem_ite, ite_self, enqueue_mem, hdlWriteThrough_mem, vaultWrites_mem]; done) | ((repeat' split) <;> first | with_reducible rfl | (simp only [mem_mk, mem_fold, mem_ite, ite_self, enqueue_mem, hdlWriteThrough_mem, vaultWrites_mem]; done) | fail) | fail)) only [doHrbk, mem_foldl, mem_mk, mem_fold, mem_ite, ite_self, enqueue_mem, hdlWriteThrough_mem, vaultWrites_mem]
@[simp] theorem handleEffect_mem (s) (r) : mem (handleEffect s r) = mem s := by unfold handleEffect; (try dsimp only); (repeat' split) <;> first | with_reducible rfl | (simp only [mem_mk, mem_fold, mem_ite, ite_self, modReq_mem, evPort_mem, modPort_mem, replyReq_mem, hdlRelease_mem, doHcmt_mem, doHrbk_mem]; done) | (simp (disch := (intros; first | with_reducible rfl | (simp only [mem_mk, mem_fold, mem_ite, ite_self, modReq_mem, evPort_mem, modPort_mem, replyReq_mem, hdlRelease_mem, doHcmt_mem, doHrbk_mem]; done) | ((repeat' split) <;> first | with_reducible rfl | (simp only [mem_mk, mem_fold, mem_ite, ite_self, modReq_mem, evPort_mem, modPort_mem, replyReq_mem, hdlRelease_mem, doHcmt_mem, doHrbk_mem]; done) | fail) | fail)) only [mem_foldl, mem_mk, mem_fold, mem_ite, ite_self, modReq_mem, evPort_mem, modPort_mem, replyReq_mem, hdlRelease_mem, doHcmt_mem, doHrbk_mem]; done) | fail
@[simp] theorem handlesDone_mem (s) : mem (handlesDone s) = mem s := by simp (disch := (intros; first | with_reducible rfl | (simp only [mem_mk, mem_fold, mem_ite, ite_self, replyReq_mem, pumpAll_mem]; done) | ((repeat' split) <;> first | with_reducible rfl | (simp only [mem_mk, mem_fold, mem_ite, ite_self, replyReq_mem, pumpAll_mem]; done) | fail) | fail)) only [handlesDone, mem_foldl, mem_mk, mem_fold, mem_ite, ite_self, replyReq_mem, pumpAll_mem]
@[simp] theorem sampleStore_mem (s) (b) : mem (sampleStore s b) = mem s := by simp (disch := (intros; first | with_reducible rfl | (simp only [mem_mk, mem_fold, mem_ite, ite_self, bumpReg_mem, latch_mem]; done) | ((repeat' split) <;> first | with_reducible rfl | (simp only [mem_mk, mem_fold, mem_ite, ite_self, bumpReg_mem, latch_mem]; done) | fail) | fail)) only [sampleStore, mem_foldl, mem_mk, mem_fold, mem_ite, ite_self, bumpReg_mem, latch_mem]
@[simp] theorem firstBeat_mem (s) (p) (q) (attn) : mem (firstBeat s p q attn) = mem s := by unfold firstBeat; (try dsimp only); (repeat' split) <;> first | with_reducible rfl | (simp only [mem_mk, mem_fold, mem_ite, ite_self, evPort_mem, modPort_mem, dueNow_mem, sampleStore_mem]; done) | (simp (disch := (intros; first | with_reducible rfl | (simp only [mem_mk, mem_fold, mem_ite, ite_self, evPort_mem, modPort_mem, dueNow_mem, sampleStore_mem]; done) | ((repeat' split) <;> first | with_reducible rfl | (simp only [mem_mk, mem_fold, mem_ite, ite_self, evPort_mem, modPort_mem, dueNow_mem, sampleStore_mem]; done) | fail) | fail)) only [mem_foldl, mem_mk, mem_fold, mem_ite, ite_self, evPort_mem, modPort_mem, dueNow_mem, sampleStore_mem]; done) | fail
@[simp] theorem sendBeat_mem (s) (p) : mem (sendBeat s p) = mem s := by unfold sendBeat; (try dsimp only); (repeat' split) <;> first | with_reducible rfl | (simp only [mem_mk, mem_fold, mem_ite, ite_self, attnBit_mem, attnReplySent_mem, modPort_mem, dropReq_mem, pumpAll_mem, firstBeat_mem]; done) | (simp (disch := (intros; first | with_reducible rfl | (simp only [mem_mk, mem_fold, mem_ite, ite_self, attnBit_mem, attnReplySent_mem, modPort_mem, dropReq_mem, pumpAll_mem, firstBeat_mem]; done) | ((repeat' split) <;> first | with_reducible rfl | (simp only [mem_mk, mem_fold, mem_ite, ite_self, attnBit_mem, attnReplySent_mem, modPort_mem, dropReq_mem, pumpAll_mem, firstBeat_mem]; done) | fail) | fail)) only [mem_foldl, mem_mk, mem_fold, mem_ite, ite_self, attnBit_mem, attnReplySent_mem, modPort_mem, dropReq_mem, pumpAll_mem, firstBeat_mem]; done) | fail
@[simp] theorem closePorts_mem (s) : mem (closePorts s) = mem s := by simp (disch := (intros; first | with_reducible rfl | (simp only [mem_mk, mem_fold, mem_ite, ite_self]; done) | ((repeat' split) <;> first | with_reducible rfl | (simp only [mem_mk, mem_fold, mem_ite, ite_self]; done) | fail) | fail)) only [closePorts, mem_foldl, mem_mk, mem_fold, mem_ite, ite_self]
@[simp] theorem spend_mem (s) (c) (w) : mem (spend s c w) = mem s := by simp (disch := (intros; first | with_reducible rfl | (simp only [mem_mk, mem_fold, mem_ite, ite_self, modChan_mem]; done) | ((repeat' split) <;> first | with_reducible rfl | (simp only [mem_mk, mem_fold, mem_ite, ite_self, modChan_mem]; done) | fail) | fail)) only [spend, mem_foldl, mem_mk, mem_fold, mem_ite, ite_self, modChan_mem]
@[simp] theorem noteAct_mem (s) (c) (b) : mem (noteAct s c b) = mem s := by simp (disch := (intros; first | with_reducible rfl | (simp only [mem_mk, mem_fold, mem_ite, ite_self, modChan_mem]; done) | ((repeat' split) <;> first | with_reducible rfl | (simp only [mem_mk, mem_fold, mem_ite, ite_self, modChan_mem]; done) | fail) | fail)) only [noteAct, mem_foldl, mem_mk, mem_fold, mem_ite, ite_self, modChan_mem]
@[simp] theorem progressed_mem (s) (c) : mem (progressed s c) = mem s := by simp (disch := (intros; first | with_reducible rfl | (simp only [mem_mk, mem_fold, mem_ite, ite_self, modChan_mem]; done) | ((repeat' split) <;> first | with_reducible rfl | (simp only [mem_mk, mem_fold, mem_ite, ite_self, modChan_mem]; done) | fail) | fail)) only [progressed, mem_foldl, mem_mk, mem_fold, mem_ite, ite_self, modChan_mem]
@[simp] theorem issueAct_mem (s) (ci) (b) (h) (e) : mem (issueAct s ci b h e) = mem s := by unfold issueAct; (try dsimp only); (repeat' split) <;> first | with_reducible rfl | (simp only [mem_mk, mem_fold, mem_ite, ite_self, setChan_mem, evCh_mem, sendRow_mem, spend_mem, noteAct_mem]; done) | fail
@[simp] theorem issuePre_mem (s) (ci) (b) (hs) : mem (issuePre s ci b hs) = mem s := by simp (disch := (intros; first | with_reducible rfl | (simp only [mem_mk, mem_fold, mem_ite, ite_self, modChan_mem, evCh_mem, sendRow_mem]; done) | ((repeat' split) <;> first | with_reducible rfl | (simp only [mem_mk, mem_fold, mem_ite, ite_self, modChan_mem, evCh_mem, sendRow_mem]; done) | fail) | fail)) only [issuePre, mem_foldl, mem_mk, mem_fold, mem_ite, ite_self, modChan_mem, evCh_mem, sendRow_mem]
@[simp] theorem issueRef_mem (s) (ci) (b) : mem (issueRef s ci b) = mem s := by simp (disch := (intros; first | with_reducible rfl | (simp only [mem_mk, mem_fold, mem_ite, ite_self, modChan_mem, evCh_mem, sendRow_mem, spend_mem, noteAct_mem, progressed_mem]; done) | ((repeat' split) <;> first | with_reducible rfl | (simp only [mem_mk, mem_fold, mem_ite, ite_self, modChan_mem, evCh_mem, sendRow_mem, spend_mem, noteAct_mem, progressed_mem]; done) | fail) | fail)) only [issueRef, mem_foldl, mem_mk, mem_fold, mem_ite, ite_self, modChan_mem, evCh_mem, sendRow_mem, spend_mem, noteAct_mem, progressed_mem]
@[simp] theorem issueNrf_mem (s) (ci) (q) : mem (issueNrf s ci q) = mem s := by simp (disch := (intros; first | with_reducible rfl | (simp only [mem_mk, mem_fold, mem_ite, ite_self, modChan_mem, bumpReg_mem, evCh_mem, sendRow_mem, spend_mem, noteAct_mem, progressed_mem]; done) | ((repeat' split) <;> first | with_reducible rfl | (simp only [mem_mk, mem_fold, mem_ite, ite_self, modChan_mem, bumpReg_mem, evCh_mem, sendRow_mem, spend_mem, noteAct_mem, progressed_mem]; done) | fail) | fail)) only [issueNrf, mem_foldl, mem_mk, mem_fold, mem_ite, ite_self, modChan_mem, bumpReg_mem, evCh_mem, sendRow_mem, spend_mem, noteAct_mem, progressed_mem]
@[simp] theorem issueSlp_mem (s) (ci) (ctx) (b) : mem (issueSlp s ci ctx b) = mem s := by unfold issueSlp; (try dsimp only); (repeat' split) <;> first | with_reducible rfl | (simp only [mem_mk, mem_fold, mem_ite, ite_self, modChan_mem, sendRow_mem]; done) | (simp (disch := (intros; first | with_reducible rfl | (simp only [mem_mk, mem_fold, mem_ite, ite_self, modChan_mem, sendRow_mem]; done) | ((repeat' split) <;> first | with_reducible rfl | (simp only [mem_mk, mem_fold, mem_ite, ite_self, modChan_mem, sendRow_mem]; done) | fail) | fail)) only [mem_foldl, mem_mk, mem_fold, mem_ite, ite_self, modChan_mem, sendRow_mem]; done) | fail
@[simp] theorem closeHalves_mem (s) (ci) (b) (h) (rest) : mem (closeHalves s ci b h rest) = mem s := by simp only [closeHalves, mem_mk, mem_fold, mem_ite, ite_self, issuePre_mem]
theorem gauntletSlot_mem (s) (ci) (c) (t) (h : gauntletSlot s ci c = some t) : mem t = mem s := by
  revert h; unfold gauntletSlot
  (repeat' split) <;> intro h <;> simp only [Option.some.injEq, reduceCtorEq] at h <;>
    (subst h; simp only [issueSlp_mem, issueRef_mem, closeHalves_mem])
@[simp] theorem commandSlot_mem (s) (ci) : mem (commandSlot s ci) = mem s := by
  unfold commandSlot; dsimp only
  split
  · rfl
  · split
    · rename_i h; exact gauntletSlot_mem _ _ _ _ h
    · (repeat' split) <;> first | with_reducible rfl | simp only [issueNrf_mem, issueRef_mem, closeHalves_mem, issueAct_mem]
@[simp] theorem refreshDue_mem (s) (ci) (b) : mem (refreshDue s ci b) = mem s := by simp only [refreshDue, mem_mk, mem_fold, mem_ite, ite_self, setChan_mem, bumpReg_mem, evCh_mem]
@[simp] theorem serveFrom_mem (s) (e) : mem (serveFrom s e) = mem s := by unfold serveFrom; (try dsimp only); (repeat' split) <;> first | with_reducible rfl | (simp only [mem_mk, mem_fold, mem_ite, ite_self, deliver_mem]; done) | (simp (disch := (intros; first | with_reducible rfl | (simp only [mem_mk, mem_fold, mem_ite, ite_self, deliver_mem]; done) | ((repeat' split) <;> first | with_reducible rfl | (simp only [mem_mk, mem_fold, mem_ite, ite_self, deliver_mem]; done) | fail) | fail)) only [mem_foldl, mem_mk, mem_fold, mem_ite, ite_self, deliver_mem]; done) | fail
@[simp] theorem flushServed_mem (s) (ci) : mem (flushServed s ci) = mem s := by simp (disch := (intros; first | with_reducible rfl | (simp only [mem_mk, mem_fold, mem_ite, ite_self, modChan_mem, serveFrom_mem]; done) | ((repeat' split) <;> first | with_reducible rfl | (simp only [mem_mk, mem_fold, mem_ite, ite_self, modChan_mem, serveFrom_mem]; done) | fail) | fail)) only [flushServed, mem_foldl, mem_mk, mem_fold, mem_ite, ite_self, modChan_mem, serveFrom_mem]
@[simp] theorem serveFenced_mem (s) (e) : mem (serveFenced s e) = mem s := by simp (disch := (intros; first | with_reducible rfl | (simp only [mem_mk, mem_fold, mem_ite, ite_self, deliver_mem]; done) | ((repeat' split) <;> first | with_reducible rfl | (simp only [mem_mk, mem_fold, mem_ite, ite_self, deliver_mem]; done) | fail) | fail)) only [serveFenced, mem_foldl, mem_mk, mem_fold, mem_ite, ite_self, deliver_mem]
@[simp] theorem joinRead_mem (s) (e) : mem (joinRead s e) = mem s := by simp (disch := (intros; first | with_reducible rfl | (simp only [mem_mk, mem_fold, mem_ite, ite_self, modChan_mem, evCh_mem, flushServed_mem, serveFenced_mem]; done) | ((repeat' split) <;> first | with_reducible rfl | (simp only [mem_mk, mem_fold, mem_ite, ite_self, modChan_mem, evCh_mem, flushServed_mem, serveFenced_mem]; done) | fail) | fail)) only [joinRead, mem_foldl, mem_mk, mem_fold, mem_ite, ite_self, modChan_mem, evCh_mem, flushServed_mem, serveFenced_mem]
@[simp] theorem dropFenced_mem (s) (e) : mem (dropFenced s e) = mem s := by unfold dropFenced; (try dsimp only); (repeat' split) <;> first | with_reducible rfl | (simp only [mem_mk, mem_fold, mem_ite, ite_self, partsDone_mem, poisonReq_mem]; done) | fail
@[simp] theorem joinPartial_mem (s) (e) : mem (joinPartial s e) = mem s := by unfold joinPartial; (try dsimp only); (repeat' split) <;> first | with_reducible rfl | (simp only [mem_mk, mem_fold, mem_ite, ite_self, modChan_mem, partsDone_mem, pieceJoined_mem, linerMerge_mem, evictPending_mem]; done) | (simp (disch := (intros; first | with_reducible rfl | (simp only [mem_mk, mem_fold, mem_ite, ite_self, modChan_mem, partsDone_mem, pieceJoined_mem, linerMerge_mem, evictPending_mem]; done) | ((repeat' split) <;> first | with_reducible rfl | (simp only [mem_mk, mem_fold, mem_ite, ite_self, modChan_mem, partsDone_mem, pieceJoined_mem, linerMerge_mem, evictPending_mem]; done) | fail) | fail)) only [mem_foldl, mem_mk, mem_fold, mem_ite, ite_self, modChan_mem, partsDone_mem, pieceJoined_mem, linerMerge_mem, evictPending_mem]; done) | fail
@[simp] theorem joinWhole_mem (s) (e) : mem (joinWhole s e) = mem s := by unfold joinWhole; (try dsimp only); (repeat' split) <;> first | with_reducible rfl | (simp only [mem_mk, mem_fold, mem_ite, ite_self, setChan_mem, linerPressure_mem]; done) | (simp (disch := (intros; first | with_reducible rfl | (simp only [mem_mk, mem_fold, mem_ite, ite_self, setChan_mem, linerPressure_mem]; done) | ((repeat' split) <;> first | with_reducible rfl | (simp only [mem_mk, mem_fold, mem_ite, ite_self, setChan_mem, linerPressure_mem]; done) | fail) | fail)) only [mem_foldl, mem_mk, mem_fold, mem_ite, ite_self, setChan_mem, linerPressure_mem]; done) | fail
@[simp] theorem madeVisible_mem (s) (e) : mem (madeVisible s e) = mem s := by unfold madeVisible; (try dsimp only); (repeat' split) <;> first | with_reducible rfl | (simp only [mem_mk, mem_fold, mem_ite, ite_self, modChan_mem, partsDone_mem, pieceJoined_mem, drainJoined_mem]; done) | (simp (disch := (intros; first | with_reducible rfl | (simp only [mem_mk, mem_fold, mem_ite, ite_self, modChan_mem, partsDone_mem, pieceJoined_mem, drainJoined_mem]; done) | ((repeat' split) <;> first | with_reducible rfl | (simp only [mem_mk, mem_fold, mem_ite, ite_self, modChan_mem, partsDone_mem, pieceJoined_mem, drainJoined_mem]; done) | fail) | fail)) only [mem_foldl, mem_mk, mem_fold, mem_ite, ite_self, modChan_mem, partsDone_mem, pieceJoined_mem, drainJoined_mem]; done) | fail
@[simp] theorem joinWrite_mem (s) (e) : mem (joinWrite s e) = mem s := by simp (disch := (intros; first | with_reducible rfl | (simp only [mem_mk, mem_fold, mem_ite, ite_self, modChan_mem, bumpReg_mem, dropFenced_mem, joinPartial_mem, joinWhole_mem, madeVisible_mem]; done) | ((repeat' split) <;> first | with_reducible rfl | (simp only [mem_mk, mem_fold, mem_ite, ite_self, modChan_mem, bumpReg_mem, dropFenced_mem, joinPartial_mem, joinWhole_mem, madeVisible_mem]; done) | fail) | fail)) only [joinWrite, mem_foldl, mem_mk, mem_fold, mem_ite, ite_self, modChan_mem, bumpReg_mem, dropFenced_mem, joinPartial_mem, joinWhole_mem, madeVisible_mem]
@[simp] theorem hdlWake_mem (s) (e) : mem (hdlWake s e) = mem s := by unfold hdlWake; (try dsimp only); (repeat' split) <;> first | with_reducible rfl | (simp only [mem_mk, mem_fold, mem_ite, ite_self, hdlEvict_mem, settleBad_mem, hdlOpRun_mem, pumpAll_mem]; done) | fail
@[simp] theorem joinNext_mem (s) (ci) : mem (joinNext s ci) = mem s := by unfold joinNext; (try dsimp only); (repeat' split) <;> first | with_reducible rfl | (simp only [mem_mk, mem_fold, mem_ite, ite_self, setChan_mem, handlesDone_mem, joinRead_mem, joinWrite_mem, hdlWake_mem]; done) | fail
@[simp] theorem linerParity_mem (s) (l) : mem (linerParity s l) = mem s := by unfold linerParity; (try dsimp only); (repeat' split) <;> first | with_reducible rfl | (simp only [mem_mk, mem_fold, mem_ite, ite_self, partsDone_mem, poisonReq_mem, addParity_mem]; done) | fail
@[simp] theorem linerJoin_mem (s) (ci) : mem (linerJoin s ci) = mem s := by unfold linerJoin; (try dsimp only); (repeat' split) <;> first | with_reducible rfl | (simp only [mem_mk, mem_fold, mem_ite, ite_self, setChan_mem, evict_mem, linerPressure_mem, linerParity_mem]; done) | (simp (disch := (intros; first | with_reducible rfl | (simp only [mem_mk, mem_fold, mem_ite, ite_self, setChan_mem, evict_mem, linerPressure_mem, linerParity_mem]; done) | ((repeat' split) <;> first | with_reducible rfl | (simp only [mem_mk, mem_fold, mem_ite, ite_self, setChan_mem, evict_mem, linerPressure_mem, linerParity_mem]; done) | fail) | fail)) only [mem_foldl, mem_mk, mem_fold, mem_ite, ite_self, setChan_mem, evict_mem, linerPressure_mem, linerParity_mem]; done) | fail
@[simp] theorem evictionReturn_mem (s) (ci) : mem (evictionReturn s ci) = mem s := by unfold evictionReturn; (try dsimp only); (repeat' split) <;> first | with_reducible rfl | (simp only [mem_mk, mem_fold, mem_ite, ite_self, modChan_mem, latch_mem, logEv_mem]; done) | (simp (disch := (intros; first | with_reducible rfl | (simp only [mem_mk, mem_fold, mem_ite, ite_self, modChan_mem, latch_mem, logEv_mem]; done) | ((repeat' split) <;> first | with_reducible rfl | (simp only [mem_mk, mem_fold, mem_ite, ite_self, modChan_mem, latch_mem, logEv_mem]; done) | fail) | fail)) only [mem_foldl, mem_mk, mem_fold, mem_ite, ite_self, modChan_mem, latch_mem, logEv_mem]; done) | fail
@[simp] theorem linerAge_mem (s) (ci) : mem (linerAge s ci) = mem s := by unfold linerAge; (try dsimp only); (repeat' split) <;> first | with_reducible rfl | (simp only [mem_mk, mem_fold, mem_ite, ite_self, evict_mem]; done) | (simp (disch := (intros; first | with_reducible rfl | (simp only [mem_mk, mem_fold, mem_ite, ite_self, evict_mem]; done) | ((repeat' split) <;> first | with_reducible rfl | (simp only [mem_mk, mem_fold, mem_ite, ite_self, evict_mem]; done) | fail) | fail)) only [mem_foldl, mem_mk, mem_fold, mem_ite, ite_self, evict_mem]; done) | fail
@[simp] theorem restartWindows_mem (s) : mem (restartWindows s) = mem s := by simp (disch := (intros; first | with_reducible rfl | (simp only [mem_mk, mem_fold, mem_ite, ite_self]; done) | ((repeat' split) <;> first | with_reducible rfl | (simp only [mem_mk, mem_fold, mem_ite, ite_self]; done) | fail) | fail)) only [restartWindows, mem_foldl, mem_mk, mem_fold, mem_ite, ite_self]
@[simp] theorem putCol_mem (s) (ci) (t) (i) (f) : mem (putCol s ci t i f) = mem s := by unfold putCol; (try dsimp only); (repeat' split) <;> first | with_reducible rfl | (simp only [mem_mk, mem_fold, mem_ite, ite_self, modChan_mem]; done) | (simp (disch := (intros; first | with_reducible rfl | (simp only [mem_mk, mem_fold, mem_ite, ite_self, modChan_mem]; done) | ((repeat' split) <;> first | with_reducible rfl | (simp only [mem_mk, mem_fold, mem_ite, ite_self, modChan_mem]; done) | fail) | fail)) only [mem_foldl, mem_mk, mem_fold, mem_ite, ite_self, modChan_mem]; done) | fail
@[simp] theorem sendProbe_mem (s) (ci) : mem (sendProbe s ci) = mem s := by simp (disch := (intros; first | with_reducible rfl | (simp only [mem_mk, mem_fold, mem_ite, ite_self, modChan_mem, spend_mem, putCol_mem]; done) | ((repeat' split) <;> first | with_reducible rfl | (simp only [mem_mk, mem_fold, mem_ite, ite_self, modChan_mem, spend_mem, putCol_mem]; done) | fail) | fail)) only [sendProbe, mem_foldl, mem_mk, mem_fold, mem_ite, ite_self, modChan_mem, spend_mem, putCol_mem]
@[simp] theorem emptySlot_mem (s) (ci) : mem (emptySlot s ci) = mem s := by simp (disch := (intros; first | with_reducible rfl | (simp only [mem_mk, mem_fold, mem_ite, ite_self, modChan_mem, evCh_mem, sendProbe_mem]; done) | ((repeat' split) <;> first | with_reducible rfl | (simp only [mem_mk, mem_fold, mem_ite, ite_self, modChan_mem, evCh_mem, sendProbe_mem]; done) | fail) | fail)) only [emptySlot, mem_foldl, mem_mk, mem_fold, mem_ite, ite_self, modChan_mem, evCh_mem, sendProbe_mem]
@[simp] theorem decideReplay_mem (s) (ci) (e) : mem (decideReplay s ci e) = mem s := by simp (disch := (intros; first | with_reducible rfl | (simp only [mem_mk, mem_fold, mem_ite, ite_self, modChan_mem]; done) | ((repeat' split) <;> first | with_reducible rfl | (simp only [mem_mk, mem_fold, mem_ite, ite_self, modChan_mem]; done) | fail) | fail)) only [decideReplay, mem_foldl, mem_mk, mem_fold, mem_ite, ite_self, modChan_mem]
@[simp] theorem decideQueue_mem (s) (ci) (a) (i) : mem (decideQueue s ci a i) = mem s := by unfold decideQueue; (try dsimp only); (repeat' split) <;> first | with_reducible rfl | (simp only [mem_mk, mem_fold, mem_ite, ite_self, modChan_mem, evCh_mem, emptySlot_mem]; done) | (simp (disch := (intros; first | with_reducible rfl | (simp only [mem_mk, mem_fold, mem_ite, ite_self, modChan_mem, evCh_mem, emptySlot_mem]; done) | ((repeat' split) <;> first | with_reducible rfl | (simp only [mem_mk, mem_fold, mem_ite, ite_self, modChan_mem, evCh_mem, emptySlot_mem]; done) | fail) | fail)) only [mem_foldl, mem_mk, mem_fold, mem_ite, ite_self, modChan_mem, evCh_mem, emptySlot_mem]; done) | fail
@[simp] theorem decideSlot_mem (s) (ci) : mem (decideSlot s ci) = mem s := by unfold decideSlot; (try dsimp only); (repeat' split) <;> first | with_reducible rfl | (simp only [mem_mk, mem_fold, mem_ite, ite_self, setChan_mem, decideReplay_mem, decideQueue_mem]; done) | fail
@[simp] theorem inject_mem (s) (ci) (d) : mem (inject s ci d).2 = mem s := by unfold inject; (try dsimp only); (repeat' split) <;> first | with_reducible rfl | (simp only [mem_mk, mem_fold, mem_ite, ite_self, setRegF_mem]; done) | (simp (disch := (intros; first | with_reducible rfl | (simp only [mem_mk, mem_fold, mem_ite, ite_self, setRegF_mem]; done) | ((repeat' split) <;> first | with_reducible rfl | (simp only [mem_mk, mem_fold, mem_ite, ite_self, setRegF_mem]; done) | fail) | fail)) only [mem_foldl, mem_mk, mem_fold, mem_ite, ite_self, setRegF_mem]; done) | fail
@[simp] theorem remapVerify_mem (s) : mem (remapVerify s) = mem s := by unfold remapVerify; (try dsimp only); (repeat' split) <;> first | with_reducible rfl | (simp only [mem_mk, mem_fold, mem_ite, ite_self, enqueueAll_mem]; done) | (simp (disch := (intros; first | with_reducible rfl | (simp only [mem_mk, mem_fold, mem_ite, ite_self, enqueueAll_mem]; done) | ((repeat' split) <;> first | with_reducible rfl | (simp only [mem_mk, mem_fold, mem_ite, ite_self, enqueueAll_mem]; done) | fail) | fail)) only [mem_foldl, mem_mk, mem_fold, mem_ite, ite_self, enqueueAll_mem]; done) | fail
@[simp] theorem sendWrite_mem (s) (ci) (e) (p) (d) (auto) : mem (sendWrite s ci e p d auto) = mem s := by unfold sendWrite; (try dsimp only); (repeat' split) <;> first | with_reducible rfl | (simp only [mem_mk, mem_fold, mem_ite, ite_self, modChan_mem, queueVerify_mem, putCol_mem, inject_mem, remapVerify_mem]; done) | (simp (disch := (intros; first | with_reducible rfl | (simp only [mem_mk, mem_fold, mem_ite, ite_self, modChan_mem, queueVerify_mem, putCol_mem, inject_mem, remapVerify_mem]; done) | ((repeat' split) <;> first | with_reducible rfl | (simp only [mem_mk, mem_fold, mem_ite, ite_self, modChan_mem, queueVerify_mem, putCol_mem, inject_mem, remapVerify_mem]; done) | fail) | fail)) only [mem_foldl, mem_mk, mem_fold, mem_ite, ite_self, modChan_mem, queueVerify_mem, putCol_mem, inject_mem, remapVerify_mem]; done) | fail
@[simp] theorem sendRead_mem (s) (ci) (e) (p) (auto) : mem (sendRead s ci e p auto) = mem s := by unfold sendRead; (try dsimp only); (repeat' split) <;> first | with_reducible rfl | (simp only [mem_mk, mem_fold, mem_ite, ite_self, putCol_mem]; done) | (simp (disch := (intros; first | with_reducible rfl | (simp only [mem_mk, mem_fold, mem_ite, ite_self, putCol_mem]; done) | ((repeat' split) <;> first | with_reducible rfl | (simp only [mem_mk, mem_fold, mem_ite, ite_self, putCol_mem]; done) | fail) | fail)) only [mem_foldl, mem_mk, mem_fold, mem_ite, ite_self, putCol_mem]; done) | fail
@[simp] theorem touchHalf_mem (s) (ci) (p) (write) (auto) : mem (touchHalf s ci p write auto) = mem s := by simp (disch := (intros; first | with_reducible rfl | (simp only [mem_mk, mem_fold, mem_ite, ite_self, modChan_mem, evCh_mem]; done) | ((repeat' split) <;> first | with_reducible rfl | (simp only [mem_mk, mem_fold, mem_ite, ite_self, modChan_mem, evCh_mem]; done) | fail) | fail)) only [touchHalf, mem_foldl, mem_mk, mem_fold, mem_ite, ite_self, modChan_mem, evCh_mem]
@[simp] theorem countGrant_mem (s) (ci) (e) (group) : mem (countGrant s ci e group) = mem s := by simp only [countGrant, mem_mk, mem_fold, mem_ite, ite_self, setChan_mem, evCh_mem, spend_mem]
@[simp] theorem startGrant_mem (s) (ci) (e) : mem (startGrant s ci e) = mem s := by unfold startGrant; (try dsimp only); (repeat' split) <;> first | with_reducible rfl | (simp only [mem_mk, mem_fold, mem_ite, ite_self, modChan_mem, serveFrom_mem, sendWrite_mem, sendRead_mem, touchHalf_mem, countGrant_mem]; done) | (simp (disch := (intros; first | with_reducible rfl | (simp only [mem_mk, mem_fold, mem_ite, ite_self, modChan_mem, serveFrom_mem, sendWrite_mem, sendRead_mem, touchHalf_mem, countGrant_mem]; done) | ((repeat' split) <;> first | with_reducible rfl | (simp only [mem_mk, mem_fold, mem_ite, ite_self, modChan_mem, serveFrom_mem, sendWrite_mem, sendRead_mem, touchHalf_mem, countGrant_mem]; done) | fail) | fail)) only [mem_foldl, mem_mk, mem_fold, mem_ite, ite_self, modChan_mem, serveFrom_mem, sendWrite_mem, sendRead_mem, touchHalf_mem, countGrant_mem]; done) | fail
@[simp] theorem startSlots_mem (s) : mem (startSlots s) = mem s := by unfold startSlots; (try dsimp only); (repeat' split) <;> first | with_reducible rfl | (simp only [mem_mk, mem_fold, mem_ite, ite_self, startGrant_mem]; done) | (simp (disch := (intros; first | with_reducible rfl | (simp only [mem_mk, mem_fold, mem_ite, ite_self, startGrant_mem]; done) | ((repeat' split) <;> first | with_reducible rfl | (simp only [mem_mk, mem_fold, mem_ite, ite_self, startGrant_mem]; done) | fail) | fail)) only [mem_foldl, mem_mk, mem_fold, mem_ite, ite_self, startGrant_mem]; done) | fail
@[simp] theorem arrayBurst_mem (s) (ci) (t) (e) (p) (raw) : mem (arrayBurst s ci t e p raw) = mem s := by unfold arrayBurst; (try dsimp only); (repeat' split) <;> first | with_reducible rfl | (simp only [mem_mk, mem_fold, mem_ite, ite_self, ceRise_mem, noteUe_mem, rowFailure_mem, queueWriteBack_mem, wireRuns_mem, deliver_mem, gateReq_mem, startRecon_mem]; done) | (simp (disch := (intros; first | with_reducible rfl | (simp only [mem_mk, mem_fold, mem_ite, ite_self, ceRise_mem, noteUe_mem, rowFailure_mem, queueWriteBack_mem, wireRuns_mem, deliver_mem, gateReq_mem, startRecon_mem]; done) | ((repeat' split) <;> first | with_reducible rfl | (simp only [mem_mk, mem_fold, mem_ite, ite_self, ceRise_mem, noteUe_mem, rowFailure_mem, queueWriteBack_mem, wireRuns_mem, deliver_mem, gateReq_mem, startRecon_mem]; done) | fail) | fail)) only [mem_foldl, mem_mk, mem_fold, mem_ite, ite_self, ceRise_mem, noteUe_mem, rowFailure_mem, queueWriteBack_mem, wireRuns_mem, deliver_mem, gateReq_mem, startRecon_mem]; done) | fail
@[simp] theorem statusBurst_mem (s) (ci) (ctx) (o) (d) : mem (statusBurst s ci ctx o d) = mem s := by unfold statusBurst; (try dsimp only); (repeat' split) <;> first | with_reducible rfl | (simp only [mem_mk, mem_fold, mem_ite, ite_self, modChan_mem, enqueueAll_mem]; done) | (simp (disch := (intros; first | with_reducible rfl | (simp only [mem_mk, mem_fold, mem_ite, ite_self, modChan_mem, enqueueAll_mem]; done) | ((repeat' split) <;> first | with_reducible rfl | (simp only [mem_mk, mem_fold, mem_ite, ite_self, modChan_mem, enqueueAll_mem]; done) | fail) | fail)) only [mem_foldl, mem_mk, mem_fold, mem_ite, ite_self, modChan_mem, enqueueAll_mem]; done) | fail
@[simp] theorem plainBurst_mem (s) (ci) (t) (raw) : mem (plainBurst s ci t raw).2 = mem s := by unfold plainBurst; (try dsimp only); (repeat' split) <;> first | with_reducible rfl | (simp only [mem_mk, mem_fold, mem_ite, ite_self, ceRise_mem, wireRuns_mem]; done) | (simp (disch := (intros; first | with_reducible rfl | (simp only [mem_mk, mem_fold, mem_ite, ite_self, ceRise_mem, wireRuns_mem]; done) | ((repeat' split) <;> first | with_reducible rfl | (simp only [mem_mk, mem_fold, mem_ite, ite_self, ceRise_mem, wireRuns_mem]; done) | fail) | fail)) only [mem_foldl, mem_mk, mem_fold, mem_ite, ite_self, ceRise_mem, wireRuns_mem]; done) | fail
@[simp] theorem flightBurst_mem (s) (ci) (t) (f) (raw) : mem (flightBurst s ci t f raw) = mem s := by unfold flightBurst; (try dsimp only); (repeat' split) <;> first | with_reducible rfl | (simp only [mem_mk, mem_fold, mem_ite, ite_self, modChan_mem, wireRuns_mem, hdlWake_mem, arrayBurst_mem, statusBurst_mem, plainBurst_mem]; done) | (simp (disch := (intros; first | with_reducible rfl | (simp only [mem_mk, mem_fold, mem_ite, ite_self, modChan_mem, wireRuns_mem, hdlWake_mem, arrayBurst_mem, statusBurst_mem, plainBurst_mem]; done) | ((repeat' split) <;> first | with_reducible rfl | (simp only [mem_mk, mem_fold, mem_ite, ite_self, modChan_mem, wireRuns_mem, hdlWake_mem, arrayBurst_mem, statusBurst_mem, plainBurst_mem]; done) | fail) | fail)) only [mem_foldl, mem_mk, mem_fold, mem_ite, ite_self, modChan_mem, wireRuns_mem, hdlWake_mem, arrayBurst_mem, statusBurst_mem, plainBurst_mem]; done) | fail
@[simp] theorem readBurst_mem (s) (ci) (noise) : mem (readBurst s ci noise) = mem s := by unfold readBurst; (try dsimp only); (repeat' split) <;> first | with_reducible rfl | (simp only [mem_mk, mem_fold, mem_ite, ite_self, modChan_mem, modStk_mem, sbQueue_mem, alertSeen_mem, flightBurst_mem]; done) | (simp (disch := (intros; first | with_reducible rfl | (simp only [mem_mk, mem_fold, mem_ite, ite_self, modChan_mem, modStk_mem, sbQueue_mem, alertSeen_mem, flightBurst_mem]; done) | ((repeat' split) <;> first | with_reducible rfl | (simp only [mem_mk, mem_fold, mem_ite, ite_self, modChan_mem, modStk_mem, sbQueue_mem, alertSeen_mem, flightBurst_mem]; done) | fail) | (simp only [held_mk, held_ite, held_foldl, held_fold, noteAct_held, noteCol_held, calm_held, setCtx_held, releaseBanks_held, prbsSent_held, stkClose_held, sliceAct_held, sliceActs_held, laneHears_held]; done) | ((repeat' split) <;> first | (simp only [held_mk, held_ite, held_foldl, held_fold, noteAct_held, noteCol_held, calm_held, setCtx_held, releaseBanks_held, prbsSent_held, stkClose_held, sliceAct_held, sliceActs_held, laneHears_held]; done)) | fail)) only [mem_foldl, mem_mk, mem_fold, mem_ite, ite_self, modChan_mem, modStk_mem, sbQueue_mem, alertSeen_mem, flightBurst_mem]; done) | fail
@[simp] theorem verifyResult_mem (s) (ci) : mem (verifyResult s ci) = mem s := by unfold verifyResult; (try dsimp only); (repeat' split) <;> first | with_reducible rfl | (simp only [mem_mk, mem_fold, mem_ite, ite_self, modChan_mem, ceRise_mem, noteUe_mem, rowFailure_mem, startReconOf_mem]; done) | (simp (disch := (intros; first | with_reducible rfl | (simp only [mem_mk, mem_fold, mem_ite, ite_self, modChan_mem, ceRise_mem, noteUe_mem, rowFailure_mem, startReconOf_mem]; done) | ((repeat' split) <;> first | with_reducible rfl | (simp only [mem_mk, mem_fold, mem_ite, ite_self, modChan_mem, ceRise_mem, noteUe_mem, rowFailure_mem, startReconOf_mem]; done) | fail) | fail)) only [mem_foldl, mem_mk, mem_fold, mem_ite, ite_self, modChan_mem, ceRise_mem, noteUe_mem, rowFailure_mem, startReconOf_mem]; done) | fail
@[simp] theorem applyArb_mem (s) : mem (applyArb s) = mem s := by unfold applyArb; (try dsimp only); (repeat' split) <;> first | with_reducible rfl | (simp only [mem_mk, mem_fold, mem_ite, ite_self, setReg_mem, finishReq_mem, commitCount_mem]; done) | fail
@[simp] theorem calReads_mem (s) (c) : mem (calReads s c) = mem s := by simp (disch := (intros; first | with_reducible rfl | (simp only [mem_mk, mem_fold, mem_ite, ite_self, modChan_mem, enqueue_mem]; done) | ((repeat' split) <;> first | with_reducible rfl | (simp only [mem_mk, mem_fold, mem_ite, ite_self, modChan_mem, enqueue_mem]; done) | fail) | fail)) only [calReads, mem_foldl, mem_mk, mem_fold, mem_ite, ite_self, modChan_mem, enqueue_mem]
@[simp] theorem resumeSlice_mem (s) (ci) (b) : mem (resumeSlice s ci b) = mem s := by unfold resumeSlice; (try dsimp only); (repeat' split) <;> first | with_reducible rfl | (simp only [mem_mk, mem_fold, mem_ite, ite_self, setChan_mem, sendRow_mem]; done) | (simp (disch := (intros; first | with_reducible rfl | (simp only [mem_mk, mem_fold, mem_ite, ite_self, setChan_mem, sendRow_mem]; done) | ((repeat' split) <;> first | with_reducible rfl | (simp only [mem_mk, mem_fold, mem_ite, ite_self, setChan_mem, sendRow_mem]; done) | fail) | fail)) only [mem_foldl, mem_mk, mem_fold, mem_ite, ite_self, setChan_mem, sendRow_mem]; done) | fail
@[simp] theorem putOp_mem (s) (d) (x) : mem (putOp s d x) = mem s := by simp only [putOp, mem_mk, mem_fold, mem_ite, ite_self]
@[simp] theorem modOpChan_mem (s) (d) (c) (f : OpChan → OpChan) : mem (modOpChan s d c f) = mem s := by unfold modOpChan; (try dsimp only); (repeat' split) <;> first | with_reducible rfl | (simp only [mem_mk, mem_fold, mem_ite, ite_self, putOp_mem]; done) | fail
@[simp] theorem cancelLate_mem (s) (d) : mem (cancelLate s d) = mem s := by simp only [cancelLate, mem_mk, mem_fold, mem_ite, ite_self, opStopped_mem, opStop_mem]
@[simp] theorem copyStart_mem (s) (d) (c) : mem (copyStart s d c) = mem s := by unfold copyStart; (try dsimp only); (repeat' split) <;> first | with_reducible rfl | (simp only [mem_mk, mem_fold, mem_ite, ite_self, enqueueAll_mem, modOpChan_mem, cancelLate_mem]; done) | (simp (disch := (intros; first | with_reducible rfl | (simp only [mem_mk, mem_fold, mem_ite, ite_self, enqueueAll_mem, modOpChan_mem, cancelLate_mem]; done) | ((repeat' split) <;> first | with_reducible rfl | (simp only [mem_mk, mem_fold, mem_ite, ite_self, enqueueAll_mem, modOpChan_mem, cancelLate_mem]; done) | fail) | fail)) only [mem_foldl, mem_mk, mem_fold, mem_ite, ite_self, enqueueAll_mem, modOpChan_mem, cancelLate_mem]; done) | fail
@[simp] theorem slicePoll_mem (s) (ci) (ctx) : mem (slicePoll s ci ctx) = mem s := by unfold slicePoll; (try dsimp only); (repeat' split) <;> first | with_reducible rfl | (simp only [mem_mk, mem_fold, mem_ite, ite_self, setChan_mem, enqueue_mem]; done) | fail
@[simp] theorem confirmRead_mem (s) (p) : mem (confirmRead s p) = mem s := by simp only [confirmRead, mem_mk, mem_fold, mem_ite, ite_self, enqueue_mem]
@[simp] theorem sortUes_mem (s) (ps) : mem (sortUes s ps).2.2 = mem s := by
  unfold sortUes
  refine mem_foldl₃ _ _ _ (fun acc p => ?_)
  dsimp only; (repeat' split) <;> first | rfl | exact confirmRead_mem ..
@[simp] theorem releaseSlice_mem (s) (ci) (ctx) (banks) : mem (releaseSlice s ci ctx banks) = mem s := by simp (disch := (intros; first | with_reducible rfl | (simp only [mem_mk, mem_fold, mem_ite, ite_self, modChan_mem]; done) | ((repeat' split) <;> first | with_reducible rfl | (simp only [mem_mk, mem_fold, mem_ite, ite_self, modChan_mem]; done) | fail) | fail)) only [releaseSlice, mem_foldl, mem_mk, mem_fold, mem_ite, ite_self, modChan_mem]
@[simp] theorem pushEnd_mem (s) (x) (last) : mem (pushEnd s x last) = mem s := by simp (disch := (intros; first | with_reducible rfl | (simp only [mem_mk, mem_fold, mem_ite, ite_self, modOct_mem]; done) | ((repeat' split) <;> first | with_reducible rfl | (simp only [mem_mk, mem_fold, mem_ite, ite_self, modOct_mem]; done) | fail) | fail)) only [pushEnd, mem_foldl, mem_mk, mem_fold, mem_ite, ite_self, modOct_mem]
@[simp] theorem sliceGoesOn_mem (s) (ci) (x) (op) (ps) (again) (res) : mem (sliceGoesOn s ci x op ps again res) = mem s := by unfold sliceGoesOn; (try dsimp only); (repeat' split) <;> first | with_reducible rfl | (simp only [mem_mk, mem_fold, mem_ite, ite_self, modChan_mem, modOct_mem, modOpChan_mem, pushEnd_mem]; done) | (simp (disch := (intros; first | with_reducible rfl | (simp only [mem_mk, mem_fold, mem_ite, ite_self, modChan_mem, modOct_mem, modOpChan_mem, pushEnd_mem]; done) | ((repeat' split) <;> first | with_reducible rfl | (simp only [mem_mk, mem_fold, mem_ite, ite_self, modChan_mem, modOct_mem, modOpChan_mem, pushEnd_mem]; done) | fail) | fail)) only [mem_foldl, mem_mk, mem_fold, mem_ite, ite_self, modChan_mem, modOct_mem, modOpChan_mem, pushEnd_mem]; done) | fail
@[simp] theorem reconLiner_mem (s) (e) : mem (reconLiner s e) = mem s := by unfold reconLiner; (try dsimp only); (repeat' split) <;> first | with_reducible rfl | (simp only [mem_mk, mem_fold, mem_ite, ite_self, reconReq_mem, evict_mem]; done) | (simp (disch := (intros; first | with_reducible rfl | (simp only [mem_mk, mem_fold, mem_ite, ite_self, reconReq_mem, evict_mem]; done) | ((repeat' split) <;> first | with_reducible rfl | (simp only [mem_mk, mem_fold, mem_ite, ite_self, reconReq_mem, evict_mem]; done) | fail) | fail)) only [mem_foldl, mem_mk, mem_fold, mem_ite, ite_self, reconReq_mem, evict_mem]; done) | fail
@[simp] theorem reconServe_mem (s) (r) (e) (p) : mem (reconServe s r e p) = mem s := by unfold reconServe; (try dsimp only); (repeat' split) <;> first | with_reducible rfl | (simp only [mem_mk, mem_fold, mem_ite, ite_self, deliver_mem, reconLiner_mem]; done) | (simp (disch := (intros; first | with_reducible rfl | (simp only [mem_mk, mem_fold, mem_ite, ite_self, deliver_mem, reconLiner_mem]; done) | ((repeat' split) <;> first | with_reducible rfl | (simp only [mem_mk, mem_fold, mem_ite, ite_self, deliver_mem, reconLiner_mem]; done) | fail) | fail)) only [mem_foldl, mem_mk, mem_fold, mem_ite, ite_self, deliver_mem, reconLiner_mem]; done) | fail
@[simp] theorem sliceOverrun_mem (s) (ci) (ctx) : mem (sliceOverrun s ci ctx) = mem s := by unfold sliceOverrun; (try dsimp only); (repeat' split) <;> first | with_reducible rfl | (simp only [mem_mk, mem_fold, mem_ite, ite_self, bumpReg_mem, latch_mem, faultAt_mem]; done) | fail
@[simp] theorem partialArrives_mem (s) (ci) : mem (partialArrives s ci) = mem s := by unfold partialArrives; (try dsimp only); (repeat' split) <;> first | with_reducible rfl | (simp only [mem_mk, mem_fold, mem_ite, ite_self, setChan_mem, modOct_mem, evOct_mem]; done) | (simp (disch := (intros; first | with_reducible rfl | (simp only [mem_mk, mem_fold, mem_ite, ite_self, setChan_mem, modOct_mem, evOct_mem]; done) | ((repeat' split) <;> first | with_reducible rfl | (simp only [mem_mk, mem_fold, mem_ite, ite_self, setChan_mem, modOct_mem, evOct_mem]; done) | fail) | fail)) only [mem_foldl, mem_mk, mem_fold, mem_ite, ite_self, setChan_mem, modOct_mem, evOct_mem]; done) | fail
@[simp] theorem fabricArrives_mem (s) (d) (k) : mem (fabricArrives s d k) = mem s := by unfold fabricArrives; (try dsimp only); (repeat' split) <;> first | with_reducible rfl | (simp only [mem_mk, mem_fold, mem_ite, ite_self, modOct_mem, evOct_mem]; done) | (simp (disch := (intros; first | with_reducible rfl | (simp only [mem_mk, mem_fold, mem_ite, ite_self, modOct_mem, evOct_mem]; done) | ((repeat' split) <;> first | with_reducible rfl | (simp only [mem_mk, mem_fold, mem_ite, ite_self, modOct_mem, evOct_mem]; done) | fail) | fail)) only [mem_foldl, mem_mk, mem_fold, mem_ite, ite_self, modOct_mem, evOct_mem]; done) | fail
@[simp] theorem headReady_mem (s) (d) : mem (headReady s d) = mem s := by unfold headReady; (try dsimp only); (repeat' split) <;> first | with_reducible rfl | (simp only [mem_mk, mem_fold, mem_ite, ite_self, putOp_mem]; done) | fail
@[simp] theorem crownSource_mem (s) (op) : mem (crownSource s op).2 = mem s := by simp only [crownSource, mem_mk, mem_fold, mem_ite, ite_self, scratchRead_mem]
@[simp] theorem opOutcome_mem (s) (op) : mem (opOutcome s op) = mem s := by unfold opOutcome; (try dsimp only); (repeat' split) <;> first | with_reducible rfl | (simp only [mem_mk, mem_fold, mem_ite, ite_self, poisonReq_mem, reconReq_mem]; done) | fail
@[simp] theorem resultSectors_mem (s) (op) : mem (resultSectors s op).2 = mem s := by unfold resultSectors; (try dsimp only); (repeat' split) <;> first | with_reducible rfl | (simp only [mem_mk, mem_fold, mem_ite, ite_self, crownSource_mem]; done) | fail
@[simp] theorem deliverStack_mem (s) (d) (op) (xs) : mem (deliverStack s d op xs) = mem s := by unfold deliverStack; (try dsimp only); (repeat' split) <;> first | with_reducible rfl | (simp only [mem_mk, mem_fold, mem_ite, ite_self, modReq_mem, finishReq_mem, addJob_mem, putOp_mem]; done) | (simp (disch := (intros; first | with_reducible rfl | (simp only [mem_mk, mem_fold, mem_ite, ite_self, modReq_mem, finishReq_mem, addJob_mem, putOp_mem]; done) | ((repeat' split) <;> first | with_reducible rfl | (simp only [mem_mk, mem_fold, mem_ite, ite_self, modReq_mem, finishReq_mem, addJob_mem, putOp_mem]; done) | fail) | fail)) only [mem_foldl, mem_mk, mem_fold, mem_ite, ite_self, modReq_mem, finishReq_mem, addJob_mem, putOp_mem]; done) | fail
@[simp] theorem deliverCrown_mem (s) (op) (xs) : mem (deliverCrown s op xs) = mem s := by simp (disch := (intros; first | with_reducible rfl | (simp only [mem_mk, mem_fold, mem_ite, ite_self, modReq_mem, partsDone_mem, scratchWrite_mem]; done) | ((repeat' split) <;> first | with_reducible rfl | (simp only [mem_mk, mem_fold, mem_ite, ite_self, modReq_mem, partsDone_mem, scratchWrite_mem]; done) | fail) | fail)) only [deliverCrown, mem_foldl, mem_mk, mem_fold, mem_ite, ite_self, modReq_mem, partsDone_mem, scratchWrite_mem]
@[simp] theorem deliverReturn_mem (s) (op) (xs) : mem (deliverReturn s op xs) = mem s := by simp (disch := (intros; first | with_reducible rfl | (simp only [mem_mk, mem_fold, mem_ite, ite_self, modReq_mem, partsDone_mem]; done) | ((repeat' split) <;> first | with_reducible rfl | (simp only [mem_mk, mem_fold, mem_ite, ite_self, modReq_mem, partsDone_mem]; done) | fail) | fail)) only [deliverReturn, mem_foldl, mem_mk, mem_fold, mem_ite, ite_self, modReq_mem, partsDone_mem]
@[simp] theorem deliverTo_mem (s) (d) (op) (xs) : mem (deliverTo s d op xs) = mem s := by unfold deliverTo; (try dsimp only); (repeat' split) <;> first | with_reducible rfl | (simp only [mem_mk, mem_fold, mem_ite, ite_self, evOct_mem, poisonReq_mem, opOutcome_mem, deliverStack_mem, deliverCrown_mem, deliverReturn_mem]; done) | fail
@[simp] theorem deliverResult_mem (s) (d) : mem (deliverResult s d) = mem s := by unfold deliverResult; (try dsimp only); (repeat' split) <;> first | with_reducible rfl | (simp only [mem_mk, mem_fold, mem_ite, ite_self, partsDone_mem, cancelLate_mem, opOutcome_mem, resultSectors_mem, deliverTo_mem]; done) | fail
@[simp] theorem takeJob_mem (s) (k) (jid) : mem (takeJob s k jid) = mem s := by unfold takeJob; (try dsimp only); (repeat' split) <;> first | with_reducible rfl | (simp only [mem_mk, mem_fold, mem_ite, ite_self, enqueue_mem, setJob_mem]; done) | (simp (disch := (intros; first | with_reducible rfl | (simp only [mem_mk, mem_fold, mem_ite, ite_self, enqueue_mem, setJob_mem]; done) | ((repeat' split) <;> first | with_reducible rfl | (simp only [mem_mk, mem_fold, mem_ite, ite_self, enqueue_mem, setJob_mem]; done) | fail) | fail)) only [mem_foldl, mem_mk, mem_fold, mem_ite, ite_self, enqueue_mem, setJob_mem]; done) | fail
@[simp] theorem mergeOps_mem (s) (k) (op) (more) : mem (mergeOps s k op more) = mem s := by unfold mergeOps; (try dsimp only); (repeat' split) <;> first | with_reducible rfl | (simp only [mem_mk, mem_fold, mem_ite, ite_self, evOct_mem]; done) | fail
@[simp] theorem takeEnd_mem (s) (k) (d) (ch) (first) (count) (last) (res) : mem (takeEnd s k d ch first count last res) = mem s := by unfold takeEnd; (try dsimp only); (repeat' split) <;> first | with_reducible rfl | (simp only [mem_mk, mem_fold, mem_ite, ite_self, modOpChan_mem, headReady_mem, mergeOps_mem]; done) | (simp (disch := (intros; first | with_reducible rfl | (simp only [mem_mk, mem_fold, mem_ite, ite_self, modOpChan_mem, headReady_mem, mergeOps_mem]; done) | ((repeat' split) <;> first | with_reducible rfl | (simp only [mem_mk, mem_fold, mem_ite, ite_self, modOpChan_mem, headReady_mem, mergeOps_mem]; done) | fail) | fail)) only [mem_foldl, mem_mk, mem_fold, mem_ite, ite_self, modOpChan_mem, headReady_mem, mergeOps_mem]; done) | fail
@[simp] theorem takeFabric_mem (s) (k) (d) (oc) : mem (takeFabric s k d oc) = mem s := by unfold takeFabric; (try dsimp only); (repeat' split) <;> first | with_reducible rfl | (simp only [mem_mk, mem_fold, mem_ite, ite_self, putOp_mem, mergeOps_mem]; done) | fail
@[simp] theorem itemTake_mem (s) (k) : mem (itemTake s k) = mem s := by unfold itemTake; (try dsimp only); (repeat' split) <;> first | with_reducible rfl | (simp only [mem_mk, mem_fold, mem_ite, ite_self, setOct_mem, evOct_mem, takeJob_mem, takeEnd_mem, takeFabric_mem]; done) | fail
@[simp] theorem lockTake_mem (s) (k) : mem (lockTake s k) = mem s := by unfold lockTake; (try dsimp only); (repeat' split) <;> first | with_reducible rfl | (simp only [mem_mk, mem_fold, mem_ite, ite_self, modChan_mem, modOct_mem, enqueue_mem, setJob_mem, jobWrite_mem]; done) | (simp (disch := (intros; first | with_reducible rfl | (simp only [mem_mk, mem_fold, mem_ite, ite_self, modChan_mem, modOct_mem, enqueue_mem, setJob_mem, jobWrite_mem]; done) | ((repeat' split) <;> first | with_reducible rfl | (simp only [mem_mk, mem_fold, mem_ite, ite_self, modChan_mem, modOct_mem, enqueue_mem, setJob_mem, jobWrite_mem]; done) | fail) | fail)) only [mem_foldl, mem_mk, mem_fold, mem_ite, ite_self, modChan_mem, modOct_mem, enqueue_mem, setJob_mem, jobWrite_mem]; done) | fail
@[simp] theorem readReturn_mem (s) (k) : mem (readReturn s k) = mem s := by unfold readReturn; (try dsimp only); (repeat' split) <;> first | with_reducible rfl | (simp only [mem_mk, mem_fold, mem_ite, ite_self, evOct_mem, jobReturned_mem, flushServed_mem]; done) | (simp (disch := (intros; first | with_reducible rfl | (simp only [mem_mk, mem_fold, mem_ite, ite_self, evOct_mem, jobReturned_mem, flushServed_mem]; done) | ((repeat' split) <;> first | with_reducible rfl | (simp only [mem_mk, mem_fold, mem_ite, ite_self, evOct_mem, jobReturned_mem, flushServed_mem]; done) | fail) | fail)) only [mem_foldl, mem_mk, mem_fold, mem_ite, ite_self, evOct_mem, jobReturned_mem, flushServed_mem]; done) | fail
@[simp] theorem writeVisible_mem (s) (k) : mem (writeVisible s k) = mem s := by unfold writeVisible; (try dsimp only); (repeat' split) <;> first | with_reducible rfl | (simp only [mem_mk, mem_fold, mem_ite, ite_self, modReq_mem, partsDone_mem, endJob_mem, flushServed_mem]; done) | (simp (disch := (intros; first | with_reducible rfl | (simp only [mem_mk, mem_fold, mem_ite, ite_self, modReq_mem, partsDone_mem, endJob_mem, flushServed_mem]; done) | ((repeat' split) <;> first | with_reducible rfl | (simp only [mem_mk, mem_fold, mem_ite, ite_self, modReq_mem, partsDone_mem, endJob_mem, flushServed_mem]; done) | fail) | fail)) only [mem_foldl, mem_mk, mem_fold, mem_ite, ite_self, modReq_mem, partsDone_mem, endJob_mem, flushServed_mem]; done) | fail
@[simp] theorem drainStart_mem (s) (k) : mem (drainStart s k) = mem s := by simp (disch := (intros; first | with_reducible rfl | (simp only [mem_mk, mem_fold, mem_ite, ite_self, addJob_mem]; done) | ((repeat' split) <;> first | with_reducible rfl | (simp only [mem_mk, mem_fold, mem_ite, ite_self, addJob_mem]; done) | fail) | fail)) only [drainStart, mem_foldl, mem_mk, mem_fold, mem_ite, ite_self, addJob_mem]
@[simp] theorem stopReached_mem (s) (page) : mem (stopReached s page) = mem s := by unfold stopReached; (try dsimp only); (repeat' split) <;> first | with_reducible rfl | (simp only [mem_mk, mem_fold, mem_ite, ite_self, modOct_mem]; done) | (simp (disch := (intros; first | with_reducible rfl | (simp only [mem_mk, mem_fold, mem_ite, ite_self, modOct_mem]; done) | ((repeat' split) <;> first | with_reducible rfl | (simp only [mem_mk, mem_fold, mem_ite, ite_self, modOct_mem]; done) | fail) | fail)) only [mem_foldl, mem_mk, mem_fold, mem_ite, ite_self, modOct_mem]; done) | fail
@[simp] theorem hdlOpEnd_mem (s) : mem (hdlOpEnd s) = mem s := by unfold hdlOpEnd; (try dsimp only); (repeat' split) <;> first | with_reducible rfl | (simp only [mem_mk, mem_fold, mem_ite, ite_self, latch_mem]; done) | fail
@[simp] theorem srRead_mem (s) (ch) (a) : mem (srRead s ch a).2 = mem s := by unfold srRead; (try dsimp only); (repeat' split) <;> first | with_reducible rfl | (simp only [mem_mk, mem_fold, mem_ite, ite_self, takeFree_mem]; done) | fail
@[simp] theorem srWrite_mem (s) (ch) (a) (v) : mem (srWrite s ch a v) = mem s := by
  unfold srWrite; dsimp only; (repeat' split) <;> first | with_reducible rfl | skip
  all_goals first | exact modStk_mem _ _ _ (by intro x; (repeat' split) <;> rfl) | rfl
@[simp] theorem sbAnswer_mem (s) (cmd) (ch) (addr) (len) (ws) (st) (out) : mem (sbAnswer s cmd ch addr len ws st out) = mem s := by unfold sbAnswer; (try dsimp only); (repeat' split) <;> first | with_reducible rfl | (simp only [mem_mk, mem_fold, mem_ite, ite_self]; done) | fail
theorem readWords_mem (f : State → Nat → Word × State) (n : Nat) (s : State) (h : ∀ t i, mem (f t i).2 = mem t) :
    mem (readWords f n s).2 = mem s := by
  unfold readWords
  generalize List.range n = l
  suffices H : ∀ (a : List Word) (t : State), mem (l.foldl (fun (acc : List Word × State) i => ((acc.1 ++ [(f acc.2 i).1], (f acc.2 i).2))) (a, t)).2 = mem t from H [] s
  induction l with
  | nil => intro a t; rfl
  | cons x l ih => intro a t; exact (ih _ _).trans (h t x)
@[simp] theorem ansFree_mem (s) : mem (ansFree s).2.2 = mem s := by unfold ansFree; (try dsimp only); (repeat' split) <;> first | with_reducible rfl | (simp only [mem_mk, mem_fold, mem_ite, ite_self, takeFree_mem]; done) | fail
@[simp] theorem ansRegRd_mem (ch) (addr) (len) (s) : mem (ansRegRd ch addr len s).2.2 = mem s := by
  unfold ansRegRd; dsimp only; exact readWords_mem _ _ _ (fun t i => srRead_mem ..)
@[simp] theorem ansRegWr_mem (ch) (addr) (ws) (s) : mem (ansRegWr ch addr ws s).2.2 = mem s := by simp (disch := (intros; first | with_reducible rfl | (simp only [mem_mk, mem_fold, mem_ite, ite_self, srWrite_mem]; done) | ((repeat' split) <;> first | with_reducible rfl | (simp only [mem_mk, mem_fold, mem_ite, ite_self, srWrite_mem]; done) | fail) | fail)) only [ansRegWr, mem_foldl, mem_mk, mem_fold, mem_ite, ite_self, srWrite_mem]
@[simp] theorem ansPpRd_mem (addr) (len) (s) : mem (ansPpRd addr len s).2.2 = mem s := by unfold ansPpRd; (try dsimp only); (repeat' split) <;> first | with_reducible rfl | (simp only [mem_mk, mem_fold, mem_ite, ite_self, ansFree_mem]; done) | (simp (disch := (intros; first | with_reducible rfl | (simp only [mem_mk, mem_fold, mem_ite, ite_self, ansFree_mem]; done) | ((repeat' split) <;> first | with_reducible rfl | (simp only [mem_mk, mem_fold, mem_ite, ite_self, ansFree_mem]; done) | fail) | fail)) only [mem_foldl, mem_mk, mem_fold, mem_ite, ite_self, ansFree_mem]; done) | fail
@[simp] theorem ansPpProg_mem (addr) (ws) (s) : mem (ansPpProg addr ws s).2.2 = mem s := by unfold ansPpProg; (try dsimp only); (repeat' split) <;> first | with_reducible rfl | (simp only [mem_mk, mem_fold, mem_ite, ite_self, ansFree_mem]; done) | fail
@[simp] theorem ansPpStat_mem (s) : mem (ansPpStat s).2.2 = mem s := by simp only [ansPpStat, mem_mk, mem_fold, mem_ite, ite_self]
@[simp] theorem ansPpErase_mem (addr) (s) : mem (ansPpErase addr s).2.2 = mem s := by unfold ansPpErase; (try dsimp only); (repeat' split) <;> first | with_reducible rfl | (simp only [mem_mk, mem_fold, mem_ite, ite_self, ansFree_mem]; done) | fail
@[simp] theorem ansT1500_mem (addr) (ws) (s) : mem (ansT1500 addr ws s).2.2 = mem s := by unfold ansT1500; (try dsimp only); (repeat' split) <;> first | with_reducible rfl | (simp only [mem_mk, mem_fold, mem_ite, ite_self, takeFree_mem, readWords_mem]; done) | (simp (disch := (intros; first | with_reducible rfl | (simp only [mem_mk, mem_fold, mem_ite, ite_self, takeFree_mem, readWords_mem]; done) | ((repeat' split) <;> first | with_reducible rfl | (simp only [mem_mk, mem_fold, mem_ite, ite_self, takeFree_mem, readWords_mem]; done) | fail) | fail)) only [mem_foldl, mem_mk, mem_fold, mem_ite, ite_self, takeFree_mem, readWords_mem]; done) | fail
@[simp] theorem sbAns_mem (cmd) (ch) (addr) (len) (ws) (s) : mem (sbAns cmd ch addr len ws s).2.2 = mem s := by unfold sbAns; (try dsimp only); (repeat' split) <;> first | with_reducible rfl | (simp only [mem_mk, mem_fold, mem_ite, ite_self, ansRegRd_mem, ansRegWr_mem, ansPpRd_mem, ansPpProg_mem, ansPpStat_mem, ansPpErase_mem, ansT1500_mem]; done) | fail
theorem sbFrame_mem (s : State) (cmd : Nat) (ch : Byte) (addr : BitVec 24) (len : Nat) (ws : List Word) (noise : BitVec 584)
    (f : State → Byte × List Word × State) (h : ∀ t, mem (f t).2.2 = mem t) : mem (sbFrame s cmd ch addr len ws noise f) = mem s := by
  unfold sbFrame; dsimp only; (repeat' split) <;> simp only [sbAnswer_mem, sbAns_mem, h]
@[simp] theorem ppEnd_mem (s) (fail) : mem (ppEnd s fail) = mem s := by unfold ppEnd; (try dsimp only); (repeat' split) <;> first | with_reducible rfl | (simp only [mem_mk, mem_fold, mem_ite, ite_self, takeFree_mem]; done) | (simp (disch := (intros; first | with_reducible rfl | (simp only [mem_mk, mem_fold, mem_ite, ite_self, takeFree_mem]; done) | ((repeat' split) <;> first | with_reducible rfl | (simp only [mem_mk, mem_fold, mem_ite, ite_self, takeFree_mem]; done) | fail) | fail)) only [mem_foldl, mem_mk, mem_fold, mem_ite, ite_self, takeFree_mem]; done) | fail
@[simp] theorem queueRecord_mem (s) (addr) (ws) : mem (queueRecord s addr ws) = mem s := by simp only [queueRecord, mem_mk, mem_fold, mem_ite, ite_self, sbQueue_mem]
@[simp] theorem compact_mem (s) : mem (compact s) = mem s := by unfold compact; (try dsimp only); (repeat' split) <;> first | with_reducible rfl | (simp only [mem_mk, mem_fold, mem_ite, ite_self, sbQueue_mem, queueRecord_mem]; done) | (simp (disch := (intros; first | with_reducible rfl | (simp only [mem_mk, mem_fold, mem_ite, ite_self, sbQueue_mem, queueRecord_mem]; done) | ((repeat' split) <;> first | with_reducible rfl | (simp only [mem_mk, mem_fold, mem_ite, ite_self, sbQueue_mem, queueRecord_mem]; done) | fail) | fail)) only [mem_foldl, mem_mk, mem_fold, mem_ite, ite_self, sbQueue_mem, queueRecord_mem]; done) | fail
@[simp] theorem persist_mem (s) (kind) (ch) (bank) (spare) (row) (fails) : mem (persist s kind ch bank spare row fails) = mem s := by simp only [persist, mem_mk, mem_fold, mem_ite, ite_self, latch_mem, queueRecord_mem, compact_mem]
@[simp] theorem patrolReads_mem (s) (c) (bank) (row) : mem (patrolReads s c bank row) = mem s := by simp (disch := (intros; first | with_reducible rfl | (simp only [mem_mk, mem_fold, mem_ite, ite_self, enqueueAll_mem]; done) | ((repeat' split) <;> first | with_reducible rfl | (simp only [mem_mk, mem_fold, mem_ite, ite_self, enqueueAll_mem]; done) | fail) | fail)) only [patrolReads, mem_foldl, mem_mk, mem_fold, mem_ite, ite_self, enqueueAll_mem]
@[simp] theorem visitCount_mem (s) : mem (visitCount s) = mem s := by simp only [visitCount, mem_mk, mem_fold, mem_ite, ite_self]
@[simp] theorem patrolVisit_mem (s) (ci) : mem (patrolVisit s ci) = mem s := by simp (disch := (intros; first | with_reducible rfl | (simp only [mem_mk, mem_fold, mem_ite, ite_self, modChan_mem, patrolReads_mem, visitCount_mem]; done) | ((repeat' split) <;> first | with_reducible rfl | (simp only [mem_mk, mem_fold, mem_ite, ite_self, modChan_mem, patrolReads_mem, visitCount_mem]; done) | fail) | fail)) only [patrolVisit, mem_foldl, mem_mk, mem_fold, mem_ite, ite_self, modChan_mem, patrolReads_mem, visitCount_mem]
@[simp] theorem setRemap_mem (s) (c) (e) (r) : mem (setRemap s c e r) = mem s := by simp (disch := (intros; first | with_reducible rfl | (simp only [mem_mk, mem_fold, mem_ite, ite_self, modChan_mem, sbWrite_mem]; done) | ((repeat' split) <;> first | with_reducible rfl | (simp only [mem_mk, mem_fold, mem_ite, ite_self, modChan_mem, sbWrite_mem]; done) | fail) | fail)) only [setRemap, mem_foldl, mem_mk, mem_fold, mem_ite, ite_self, modChan_mem, sbWrite_mem]
@[simp] theorem spareLow_mem (n) (s) (c) (bank) : mem (spareLow n s c bank) = mem s := by simp only [spareLow, mem_mk, mem_fold, mem_ite, ite_self, latch_mem]
@[simp] theorem retireSpare_mem (s) (c) (bank) (spare) : mem (retireSpare s c bank spare) = mem s := by simp (disch := (intros; first | with_reducible rfl | (simp only [mem_mk, mem_fold, mem_ite, ite_self, modChan_mem, logEv_mem, persist_mem, spareLow_mem]; done) | ((repeat' split) <;> first | with_reducible rfl | (simp only [mem_mk, mem_fold, mem_ite, ite_self, modChan_mem, logEv_mem, persist_mem, spareLow_mem]; done) | fail) | fail)) only [retireSpare, mem_foldl, mem_mk, mem_fold, mem_ite, ite_self, modChan_mem, logEv_mem, persist_mem, spareLow_mem]
@[simp] theorem unhold_mem (s) (f) : mem (unhold s f) = mem s := by simp (disch := (intros; first | with_reducible rfl | (simp only [mem_mk, mem_fold, mem_ite, ite_self, modChan_mem]; done) | ((repeat' split) <;> first | with_reducible rfl | (simp only [mem_mk, mem_fold, mem_ite, ite_self, modChan_mem]; done) | fail) | fail)) only [unhold, mem_foldl, mem_mk, mem_fold, mem_ite, ite_self, modChan_mem]
@[simp] theorem fenceQueues_mem (s) (f) : mem (fenceQueues s f) = mem s := by simp (disch := (intros; first | with_reducible rfl | (simp only [mem_mk, mem_fold, mem_ite, ite_self, setChan_mem, latch_mem, partsDone_mem, poisonReq_mem, serveFenced_mem, hdlWake_mem]; done) | ((repeat' split) <;> first | with_reducible rfl | (simp only [mem_mk, mem_fold, mem_ite, ite_self, setChan_mem, latch_mem, partsDone_mem, poisonReq_mem, serveFenced_mem, hdlWake_mem]; done) | fail) | fail)) only [fenceQueues, mem_foldl, mem_mk, mem_fold, mem_ite, ite_self, setChan_mem, latch_mem, partsDone_mem, poisonReq_mem, serveFenced_mem, hdlWake_mem]
@[simp] theorem fenceRow_mem (s) (f) (e) (fails) : mem (fenceRow s f e fails) = mem s := by unfold fenceRow; (try dsimp only); (repeat' split) <;> first | with_reducible rfl | (simp only [mem_mk, mem_fold, mem_ite, ite_self, bumpReg_mem, latch_mem, logEv_mem, persist_mem, setRemap_mem, retireSpare_mem, unhold_mem, fenceQueues_mem]; done) | fail
@[simp] theorem repairOver_mem (s) : mem (repairOver s) = mem s := by simp only [repairOver, mem_mk, mem_fold, mem_ite, ite_self]
@[simp] theorem repairStart_mem (s) : mem (repairStart s) = mem s := by unfold repairStart; (try dsimp only); (repeat' split) <;> first | with_reducible rfl | (simp only [mem_mk, mem_fold, mem_ite, ite_self, modChan_mem, latch_mem, fenceRow_mem]; done) | (simp (disch := (intros; first | with_reducible rfl | (simp only [mem_mk, mem_fold, mem_ite, ite_self, modChan_mem, latch_mem, fenceRow_mem]; done) | ((repeat' split) <;> first | with_reducible rfl | (simp only [mem_mk, mem_fold, mem_ite, ite_self, modChan_mem, latch_mem, fenceRow_mem]; done) | fail) | fail)) only [mem_foldl, mem_mk, mem_fold, mem_ite, ite_self, modChan_mem, latch_mem, fenceRow_mem]; done) | fail
@[simp] theorem remapCopy_mem (s) : mem (remapCopy s) = mem s := by unfold remapCopy; (try dsimp only); (repeat' split) <;> first | with_reducible rfl | (simp only [mem_mk, mem_fold, mem_ite, ite_self, enqueueAll_mem]; done) | (simp (disch := (intros; first | with_reducible rfl | (simp only [mem_mk, mem_fold, mem_ite, ite_self, enqueueAll_mem]; done) | ((repeat' split) <;> first | with_reducible rfl | (simp only [mem_mk, mem_fold, mem_ite, ite_self, enqueueAll_mem]; done) | fail) | fail)) only [mem_foldl, mem_mk, mem_fold, mem_ite, ite_self, enqueueAll_mem]; done) | fail
@[simp] theorem remapDone_mem (s) (r) : mem (remapDone s r) = mem s := by unfold remapDone; (try dsimp only); (repeat' split) <;> first | with_reducible rfl | (simp only [mem_mk, mem_fold, mem_ite, ite_self, modChan_mem, bumpReg_mem, latch_mem, logEv_mem, persist_mem, setRemap_mem, spareLow_mem, retireSpare_mem, unhold_mem, repairOver_mem]; done) | (simp (disch := (intros; first | with_reducible rfl | (simp only [mem_mk, mem_fold, mem_ite, ite_self, modChan_mem, bumpReg_mem, latch_mem, logEv_mem, persist_mem, setRemap_mem, spareLow_mem, retireSpare_mem, unhold_mem, repairOver_mem]; done) | ((repeat' split) <;> first | with_reducible rfl | (simp only [mem_mk, mem_fold, mem_ite, ite_self, modChan_mem, bumpReg_mem, latch_mem, logEv_mem, persist_mem, setRemap_mem, spareLow_mem, retireSpare_mem, unhold_mem, repairOver_mem]; done) | fail) | fail)) only [mem_foldl, mem_mk, mem_fold, mem_ite, ite_self, modChan_mem, bumpReg_mem, latch_mem, logEv_mem, persist_mem, setRemap_mem, spareLow_mem, retireSpare_mem, unhold_mem, repairOver_mem]; done) | fail
@[simp] theorem remapAgain_mem (s) (r) : mem (remapAgain s r) = mem s := by unfold remapAgain; (try dsimp only); (repeat' split) <;> first | with_reducible rfl | (simp only [mem_mk, mem_fold, mem_ite, ite_self, retireSpare_mem, fenceRow_mem, repairOver_mem]; done) | fail
@[simp] theorem remapTry_mem (s) : mem (remapTry s) = mem s := by unfold remapTry; (try dsimp only); (repeat' split) <;> first | with_reducible rfl | (simp only [mem_mk, mem_fold, mem_ite, ite_self, remapDone_mem, remapAgain_mem]; done) | fail
@[simp] theorem retarget_mem (s) (c) (w) : mem (retarget s c w) = mem s := by simp (disch := (intros; first | with_reducible rfl | (simp only [mem_mk, mem_fold, mem_ite, ite_self, modChan_mem]; done) | ((repeat' split) <;> first | with_reducible rfl | (simp only [mem_mk, mem_fold, mem_ite, ite_self, modChan_mem]; done) | fail) | fail)) only [retarget, mem_foldl, mem_mk, mem_fold, mem_ite, ite_self, modChan_mem]
@[simp] theorem applyAll_mem (s) : mem (applyAll s) = mem s :=
  forN_mem _ _ _ (fun t c => (modChan_mem ..).trans (forN_mem _ _ _ (fun u w => retarget_mem ..)))
@[simp] theorem edgeCounts_mem (s) (m) : mem (edgeCounts s m).2 = mem s := by simp only [edgeCounts, mem_mk, mem_fold, mem_ite, ite_self, takeFree_mem]
@[simp] theorem statDrift_mem (s) (c) (q) : mem (statDrift s c q) = mem s := by simp only [statDrift, mem_mk, mem_fold, mem_ite, ite_self, modChan_mem, edgeCounts_mem]
@[simp] theorem extDrift_mem (s) (c) (q) : mem (extDrift s c q) = mem s := by unfold extDrift; (try dsimp only); (repeat' split) <;> first | with_reducible rfl | (simp only [mem_mk, mem_fold, mem_ite, ite_self, modChan_mem, takeFree_mem]; done) | (simp (disch := (intros; first | with_reducible rfl | (simp only [mem_mk, mem_fold, mem_ite, ite_self, modChan_mem, takeFree_mem]; done) | ((repeat' split) <;> first | with_reducible rfl | (simp only [mem_mk, mem_fold, mem_ite, ite_self, modChan_mem, takeFree_mem]; done) | fail) | fail)) only [mem_foldl, mem_mk, mem_fold, mem_ite, ite_self, modChan_mem, takeFree_mem]; done) | fail
@[simp] theorem trackWire_mem (s) (c) (w) : mem (trackWire s c w) = mem s := by simp only [trackWire, mem_mk, mem_fold, mem_ite, ite_self, modChan_mem, edgeCounts_mem]
@[simp] theorem stepChan_mem (s) (n) (c) : mem (stepChan s n c) = mem s := by simp (disch := (intros; first | with_reducible rfl | (simp only [mem_mk, mem_fold, mem_ite, ite_self, modChan_mem, forN_mem, retarget_mem, statDrift_mem, extDrift_mem, trackWire_mem]; done) | ((repeat' split) <;> first | with_reducible rfl | (simp only [mem_mk, mem_fold, mem_ite, ite_self, modChan_mem, forN_mem, retarget_mem, statDrift_mem, extDrift_mem, trackWire_mem]; done) | fail) | fail)) only [stepChan, mem_foldl, mem_mk, mem_fold, mem_ite, ite_self, modChan_mem, forN_mem, retarget_mem, statDrift_mem, extDrift_mem, trackWire_mem]
@[simp] theorem calStep_mem (s) (n) : mem (calStep s n) = mem s := by simp (disch := (intros; first | with_reducible rfl | (simp only [mem_mk, mem_fold, mem_ite, ite_self, setCal_mem, forN_mem, stepChan_mem]; done) | ((repeat' split) <;> first | with_reducible rfl | (simp only [mem_mk, mem_fold, mem_ite, ite_self, setCal_mem, forN_mem, stepChan_mem]; done) | fail) | fail)) only [calStep, mem_foldl, mem_mk, mem_fold, mem_ite, ite_self, setCal_mem, forN_mem, stepChan_mem]
@[simp] theorem sweepRecord_mem (s) (c) (w) (eye) (probed) : mem (sweepRecord s c w eye probed) = mem s := by simp (disch := (intros; first | with_reducible rfl | (simp only [mem_mk, mem_fold, mem_ite, ite_self, modChan_mem]; done) | ((repeat' split) <;> first | with_reducible rfl | (simp only [mem_mk, mem_fold, mem_ite, ite_self, modChan_mem]; done) | fail) | fail)) only [sweepRecord, mem_foldl, mem_mk, mem_fold, mem_ite, ite_self, modChan_mem]
@[simp] theorem discardProbe_mem (s) (n) (c) (w) : mem (discardProbe s n c w) = mem s := by unfold discardProbe; (try dsimp only); (repeat' split) <;> first | with_reducible rfl | (simp only [mem_mk, mem_fold, mem_ite, ite_self, setCal_mem, bumpReg_mem, sweepRecord_mem]; done) | (simp (disch := (intros; first | with_reducible rfl | (simp only [mem_mk, mem_fold, mem_ite, ite_self, setCal_mem, bumpReg_mem, sweepRecord_mem]; done) | ((repeat' split) <;> first | with_reducible rfl | (simp only [mem_mk, mem_fold, mem_ite, ite_self, setCal_mem, bumpReg_mem, sweepRecord_mem]; done) | fail) | fail)) only [mem_foldl, mem_mk, mem_fold, mem_ite, ite_self, setCal_mem, bumpReg_mem, sweepRecord_mem]; done) | fail
@[simp] theorem sweepStart_mem (s) (n) : mem (sweepStart s n) = mem s := by unfold sweepStart; (try dsimp only); (repeat' split) <;> first | with_reducible rfl | (simp only [mem_mk, mem_fold, mem_ite, ite_self, modChan_mem, setCal_mem, steer_mem, discardProbe_mem]; done) | (simp (disch := (intros; first | with_reducible rfl | (simp only [mem_mk, mem_fold, mem_ite, ite_self, modChan_mem, setCal_mem, steer_mem, discardProbe_mem]; done) | ((repeat' split) <;> first | with_reducible rfl | (simp only [mem_mk, mem_fold, mem_ite, ite_self, modChan_mem, setCal_mem, steer_mem, discardProbe_mem]; done) | fail) | fail)) only [mem_foldl, mem_mk, mem_fold, mem_ite, ite_self, modChan_mem, setCal_mem, steer_mem, discardProbe_mem]; done) | fail
@[simp] theorem scanEye_mem (s) (e) : mem (scanEye s e).2 = mem s := by
  unfold scanEye; dsimp only; split <;> rfl
@[simp] theorem idlePrbs_mem (s) (c) (h) (prbs) : mem (idlePrbs s c h prbs) = mem s := by simp (disch := (intros; first | with_reducible rfl | (simp only [mem_mk, mem_fold, mem_ite, ite_self, modStk_mem]; done) | ((repeat' split) <;> first | with_reducible rfl | (simp only [mem_mk, mem_fold, mem_ite, ite_self, modStk_mem]; done) | fail) | (simp only [held_mk, held_ite, held_foldl, held_fold, noteAct_held, noteCol_held, calm_held, setCtx_held, releaseBanks_held, prbsSent_held, stkClose_held, sliceAct_held, sliceActs_held, laneHears_held]; done) | ((repeat' split) <;> first | (simp only [held_mk, held_ite, held_foldl, held_fold, noteAct_held, noteCol_held, calm_held, setCtx_held, releaseBanks_held, prbsSent_held, stkClose_held, sliceAct_held, sliceActs_held, laneHears_held]; done)) | fail)) only [idlePrbs, mem_foldl, mem_mk, mem_fold, mem_ite, ite_self, modStk_mem]
@[simp] theorem dwellEnd_mem (s) (n) (bursts) (mismatch) (prbs) : mem (dwellEnd s n bursts mismatch prbs) = mem s := by unfold dwellEnd; (try dsimp only); (repeat' split) <;> first | with_reducible rfl | (simp only [mem_mk, mem_fold, mem_ite, ite_self, modChan_mem, setCal_mem, scanEye_mem, idlePrbs_mem]; done) | (simp (disch := (intros; first | with_reducible rfl | (simp only [mem_mk, mem_fold, mem_ite, ite_self, modChan_mem, setCal_mem, scanEye_mem, idlePrbs_mem]; done) | ((repeat' split) <;> first | with_reducible rfl | (simp only [mem_mk, mem_fold, mem_ite, ite_self, modChan_mem, setCal_mem, scanEye_mem, idlePrbs_mem]; done) | fail) | fail)) only [mem_foldl, mem_mk, mem_fold, mem_ite, ite_self, modChan_mem, setCal_mem, scanEye_mem, idlePrbs_mem]; done) | fail
@[simp] theorem sweepBack_mem (s) (n) : mem (sweepBack s n) = mem s := by unfold sweepBack; (try dsimp only); (repeat' split) <;> first | with_reducible rfl | (simp only [mem_mk, mem_fold, mem_ite, ite_self, modChan_mem, setCal_mem, steer_mem]; done) | (simp (disch := (intros; first | with_reducible rfl | (simp only [mem_mk, mem_fold, mem_ite, ite_self, modChan_mem, setCal_mem, steer_mem]; done) | ((repeat' split) <;> first | with_reducible rfl | (simp only [mem_mk, mem_fold, mem_ite, ite_self, modChan_mem, setCal_mem, steer_mem]; done) | fail) | fail)) only [mem_foldl, mem_mk, mem_fold, mem_ite, ite_self, modChan_mem, setCal_mem, steer_mem]; done) | fail
@[simp] theorem sweepFree_mem (s) (n) (bursts) (mismatch) : mem (sweepFree s n bursts mismatch) = mem s := by unfold sweepFree; (try dsimp only); (repeat' split) <;> first | with_reducible rfl | (simp only [mem_mk, mem_fold, mem_ite, ite_self, modChan_mem, setCal_mem, bumpReg_mem, latch_mem, steer_mem, wireFail_mem]; done) | (simp (disch := (intros; first | with_reducible rfl | (simp only [mem_mk, mem_fold, mem_ite, ite_self, modChan_mem, setCal_mem, bumpReg_mem, latch_mem, steer_mem, wireFail_mem]; done) | ((repeat' split) <;> first | with_reducible rfl | (simp only [mem_mk, mem_fold, mem_ite, ite_self, modChan_mem, setCal_mem, bumpReg_mem, latch_mem, steer_mem, wireFail_mem]; done) | fail) | fail)) only [mem_foldl, mem_mk, mem_fold, mem_ite, ite_self, modChan_mem, setCal_mem, bumpReg_mem, latch_mem, steer_mem, wireFail_mem]; done) | fail
@[simp] theorem sweepDone_mem (s) (n) : mem (sweepDone s n) = mem s := by simp (disch := (intros; first | with_reducible rfl | (simp only [mem_mk, mem_fold, mem_ite, ite_self, modChan_mem, setCal_mem, sbQueue_mem]; done) | ((repeat' split) <;> first | with_reducible rfl | (simp only [mem_mk, mem_fold, mem_ite, ite_self, modChan_mem, setCal_mem, sbQueue_mem]; done) | fail) | fail)) only [sweepDone, mem_foldl, mem_mk, mem_fold, mem_ite, ite_self, modChan_mem, setCal_mem, sbQueue_mem]
@[simp] theorem probeJudge_mem (s) (n) (p) (diff) : mem (probeJudge s n p diff) = mem s := by simp (disch := (intros; first | with_reducible rfl | (simp only [mem_mk, mem_fold, mem_ite, ite_self, modChan_mem, latch_mem, wireFail_mem, sweepRecord_mem]; done) | ((repeat' split) <;> first | with_reducible rfl | (simp only [mem_mk, mem_fold, mem_ite, ite_self, modChan_mem, latch_mem, wireFail_mem, sweepRecord_mem]; done) | fail) | fail)) only [probeJudge, mem_foldl, mem_mk, mem_fold, mem_ite, ite_self, modChan_mem, latch_mem, wireFail_mem, sweepRecord_mem]
@[simp] theorem lnErrRead_mem (s) (n) : mem (lnErrRead s n) = mem s := by unfold lnErrRead; (try dsimp only); (repeat' split) <;> first | with_reducible rfl | (simp only [mem_mk, mem_fold, mem_ite, ite_self, setCal_mem, probeJudge_mem]; done) | (simp (disch := (intros; first | with_reducible rfl | (simp only [mem_mk, mem_fold, mem_ite, ite_self, setCal_mem, probeJudge_mem]; done) | ((repeat' split) <;> first | with_reducible rfl | (simp only [mem_mk, mem_fold, mem_ite, ite_self, setCal_mem, probeJudge_mem]; done) | fail) | fail)) only [mem_foldl, mem_mk, mem_fold, mem_ite, ite_self, setCal_mem, probeJudge_mem]; done) | fail
@[simp] theorem pdEnter_mem (s) (ci) : mem (pdEnter s ci) = mem s := by unfold pdEnter; (try dsimp only); (repeat' split) <;> first | with_reducible rfl | (simp only [mem_mk, mem_fold, mem_ite, ite_self, modChan_mem, bumpReg_mem, sendRow_mem]; done) | (simp (disch := (intros; first | with_reducible rfl | (simp only [mem_mk, mem_fold, mem_ite, ite_self, modChan_mem, bumpReg_mem, sendRow_mem]; done) | ((repeat' split) <;> first | with_reducible rfl | (simp only [mem_mk, mem_fold, mem_ite, ite_self, modChan_mem, bumpReg_mem, sendRow_mem]; done) | fail) | fail)) only [mem_foldl, mem_mk, mem_fold, mem_ite, ite_self, modChan_mem, bumpReg_mem, sendRow_mem]; done) | fail
@[simp] theorem pdWake_mem (s) (ci) : mem (pdWake s ci) = mem s := by unfold pdWake; (try dsimp only); (repeat' split) <;> first | with_reducible rfl | (simp only [mem_mk, mem_fold, mem_ite, ite_self, modChan_mem, sendRowFrom_mem]; done) | (simp (disch := (intros; first | with_reducible rfl | (simp only [mem_mk, mem_fold, mem_ite, ite_self, modChan_mem, sendRowFrom_mem]; done) | ((repeat' split) <;> first | with_reducible rfl | (simp only [mem_mk, mem_fold, mem_ite, ite_self, modChan_mem, sendRowFrom_mem]; done) | fail) | fail)) only [mem_foldl, mem_mk, mem_fold, mem_ite, ite_self, modChan_mem, sendRowFrom_mem]; done) | fail
@[simp] theorem sleepChan_mem (s) (ci) : mem (sleepChan s ci) = mem s := by simp (disch := (intros; first | with_reducible rfl | (simp only [mem_mk, mem_fold, mem_ite, ite_self, modChan_mem, sendRow_mem]; done) | ((repeat' split) <;> first | with_reducible rfl | (simp only [mem_mk, mem_fold, mem_ite, ite_self, modChan_mem, sendRow_mem]; done) | fail) | fail)) only [sleepChan, mem_foldl, mem_mk, mem_fold, mem_ite, ite_self, modChan_mem, sendRow_mem]
@[simp] theorem wakeChan_mem (s) (ci) : mem (wakeChan s ci) = mem s := by simp (disch := (intros; first | with_reducible rfl | (simp only [mem_mk, mem_fold, mem_ite, ite_self, modChan_mem, sendRow_mem, recovRow_mem]; done) | ((repeat' split) <;> first | with_reducible rfl | (simp only [mem_mk, mem_fold, mem_ite, ite_self, modChan_mem, sendRow_mem, recovRow_mem]; done) | fail) | fail)) only [wakeChan, mem_foldl, mem_mk, mem_fold, mem_ite, ite_self, modChan_mem, sendRow_mem, recovRow_mem]
@[simp] theorem wakeStack_mem (s) : mem (wakeStack s) = mem s := by simp (disch := (intros; first | with_reducible rfl | (simp only [mem_mk, mem_fold, mem_ite, ite_self, forN_mem, wakeChan_mem]; done) | ((repeat' split) <;> first | with_reducible rfl | (simp only [mem_mk, mem_fold, mem_ite, ite_self, forN_mem, wakeChan_mem]; done) | fail) | fail)) only [wakeStack, mem_foldl, mem_mk, mem_fold, mem_ite, ite_self, forN_mem, wakeChan_mem]
@[simp] theorem loadDefaults_mem (s) (p) : mem (loadDefaults s p) = mem s :=
  forN_mem _ _ _ (fun t c => mem_foldl _ _ _ (fun u w => setReg_mem ..))
@[simp] theorem drainChan_mem (s) (c) : mem (drainChan s c) = mem s := by simp only [drainChan, mem_mk, mem_fold, mem_ite, ite_self, sweepAbandonOn_mem, pdWake_mem]
@[simp] theorem freqBegin_mem (s) : mem (freqBegin s) = mem s := by unfold freqBegin; (try dsimp only); (repeat' split) <;> first | with_reducible rfl | (simp only [mem_mk, mem_fold, mem_ite, ite_self, forN_mem, evictAll_mem, loadDefaults_mem, drainChan_mem]; done) | (simp (disch := (intros; first | with_reducible rfl | (simp only [mem_mk, mem_fold, mem_ite, ite_self, forN_mem, evictAll_mem, loadDefaults_mem, drainChan_mem]; done) | ((repeat' split) <;> first | with_reducible rfl | (simp only [mem_mk, mem_fold, mem_ite, ite_self, forN_mem, evictAll_mem, loadDefaults_mem, drainChan_mem]; done) | fail) | fail)) only [mem_foldl, mem_mk, mem_fold, mem_ite, ite_self, forN_mem, evictAll_mem, loadDefaults_mem, drainChan_mem]; done) | fail
@[simp] theorem freqSwap_mem (s) : mem (freqSwap s) = mem s := by unfold freqSwap; (try dsimp only); (repeat' split) <;> first | with_reducible rfl | (simp only [mem_mk, mem_fold, mem_ite, ite_self, forN_mem, setRegF_mem, applyAll_mem, sleepChan_mem]; done) | (simp (disch := (intros; first | with_reducible rfl | (simp only [mem_mk, mem_fold, mem_ite, ite_self, forN_mem, setRegF_mem, applyAll_mem, sleepChan_mem]; done) | ((repeat' split) <;> first | with_reducible rfl | (simp only [mem_mk, mem_fold, mem_ite, ite_self, forN_mem, setRegF_mem, applyAll_mem, sleepChan_mem]; done) | fail) | fail)) only [mem_foldl, mem_mk, mem_fold, mem_ite, ite_self, forN_mem, setRegF_mem, applyAll_mem, sleepChan_mem]; done) | fail
@[simp] theorem tripStart_mem (s) (i) : mem (tripStart s i) = mem s := by simp (disch := (intros; first | with_reducible rfl | (simp only [mem_mk, mem_fold, mem_ite, ite_self, forN_mem, latch_mem, logEv_mem, abandonRepair_mem, overrides_mem, drainChan_mem]; done) | ((repeat' split) <;> first | with_reducible rfl | (simp only [mem_mk, mem_fold, mem_ite, ite_self, forN_mem, latch_mem, logEv_mem, abandonRepair_mem, overrides_mem, drainChan_mem]; done) | fail) | fail)) only [tripStart, mem_foldl, mem_mk, mem_fold, mem_ite, ite_self, forN_mem, latch_mem, logEv_mem, abandonRepair_mem, overrides_mem, drainChan_mem]
@[simp] theorem freqEnd_mem (s) : mem (freqEnd s) = mem s := by simp only [freqEnd, mem_mk, mem_fold, mem_ite, ite_self, tripStart_mem]
@[simp] theorem setSensor_mem (s) (i) (x) : mem (setSensor s i x) = mem s := by simp only [setSensor, mem_mk, mem_fold, mem_ite, ite_self]
@[simp] theorem takeReading_mem (s) (i) (r) : mem (takeReading s i r) = mem s := by simp only [takeReading, mem_mk, mem_fold, mem_ite, ite_self, setSensor_mem]
@[simp] theorem showTemp_mem (s) (a) (r) : mem (showTemp s a r) = mem s := by unfold showTemp; (try dsimp only); (repeat' split) <;> first | with_reducible rfl | (simp only [mem_mk, mem_fold, mem_ite, ite_self, forN_mem, srAdvance_mem]; done) | (simp (disch := (intros; first | with_reducible rfl | (simp only [mem_mk, mem_fold, mem_ite, ite_self, forN_mem, srAdvance_mem]; done) | ((repeat' split) <;> first | with_reducible rfl | (simp only [mem_mk, mem_fold, mem_ite, ite_self, forN_mem, srAdvance_mem]; done) | fail) | fail)) only [mem_foldl, mem_mk, mem_fold, mem_ite, ite_self, forN_mem, srAdvance_mem]; done) | fail
@[simp] theorem poll_mem (s) (a) : mem (poll s a) = mem s := by simp (disch := (intros; first | with_reducible rfl | (simp only [mem_mk, mem_fold, mem_ite, ite_self, sbQueue_mem]; done) | ((repeat' split) <;> first | with_reducible rfl | (simp only [mem_mk, mem_fold, mem_ite, ite_self, sbQueue_mem]; done) | fail) | fail)) only [poll, mem_foldl, mem_mk, mem_fold, mem_ite, ite_self, sbQueue_mem]
@[simp] theorem setW_mem (s) (w) : mem (setW s w) = mem s := by simp only [setW, mem_mk, mem_fold, mem_ite, ite_self]
@[simp] theorem forbidState_mem (s) : mem (forbidState s) = mem s := by simp only [forbidState, mem_mk, mem_fold, mem_ite, ite_self, bumpReg_mem, latch_mem, setW_mem]
@[simp] theorem tripCheck_mem (s) (i) : mem (tripCheck s i) = mem s := by simp only [tripCheck, mem_mk, mem_fold, mem_ite, ite_self, tripStart_mem]
@[simp] theorem forbidCheck_mem (s) (v) : mem (forbidCheck s v) = mem s := by simp only [forbidCheck, mem_mk, mem_fold, mem_ite, ite_self, latch_mem, forbidState_mem]
@[simp] theorem brimCheck_mem (s) (v) : mem (brimCheck s v) = mem s := by simp only [brimCheck, mem_mk, mem_fold, mem_ite, ite_self, setW_mem]
@[simp] theorem levelCheck_mem (s) (i) : mem (levelCheck s i) = mem s := by simp only [levelCheck, mem_mk, mem_fold, mem_ite, ite_self, tripCheck_mem, forbidCheck_mem, brimCheck_mem]
@[simp] theorem pmbSlot_mem (s) (ks) : mem (pmbSlot s ks) = mem s := by simp only [pmbSlot, mem_mk, mem_fold, mem_ite, ite_self]
@[simp] theorem vmonRead_mem (s) (r) : mem (vmonRead s r) = mem s := by unfold vmonRead; (try dsimp only); (repeat' split) <;> first | with_reducible rfl | (simp only [mem_mk, mem_fold, mem_ite, ite_self]; done) | fail
@[simp] theorem vmonSlot_mem (s) (r) : mem (vmonSlot s r) = mem s := by simp only [vmonSlot, mem_mk, mem_fold, mem_ite, ite_self, poll_mem]
@[simp] theorem polled_mem (s) (a) (w) : mem (polled s a w) = mem s := by unfold polled; (try dsimp only); (repeat' split) <;> first | with_reducible rfl | (simp only [mem_mk, mem_fold, mem_ite, ite_self, takeReading_mem, levelCheck_mem, vmonRead_mem]; done) | fail
@[simp] theorem slotReading_mem (s) (r) : mem (slotReading s r) = mem s := by unfold slotReading; (try dsimp only); (repeat' split) <;> first | with_reducible rfl | (simp only [mem_mk, mem_fold, mem_ite, ite_self, takeReading_mem, showTemp_mem, poll_mem, levelCheck_mem, pmbSlot_mem, vmonSlot_mem]; done) | fail
@[simp] theorem crossCheck_mem (s) : mem (crossCheck s) = mem s := by simp (disch := (intros; first | with_reducible rfl | (simp only [mem_mk, mem_fold, mem_ite, ite_self, latch_mem, logEv_mem, setSensor_mem]; done) | ((repeat' split) <;> first | with_reducible rfl | (simp only [mem_mk, mem_fold, mem_ite, ite_self, latch_mem, logEv_mem, setSensor_mem]; done) | fail) | fail)) only [crossCheck, mem_foldl, mem_mk, mem_fold, mem_ite, ite_self, latch_mem, logEv_mem, setSensor_mem]
@[simp] theorem degradeCheck_mem (s) : mem (degradeCheck s) = mem s := by simp only [degradeCheck, mem_mk, mem_fold, mem_ite, ite_self, latch_mem, logEv_mem]
@[simp] theorem riseCheck_mem (s) : mem (riseCheck s).2 = mem s := by unfold riseCheck; (try dsimp only); (repeat' split) <;> first | with_reducible rfl | (simp only [mem_mk, mem_fold, mem_ite, ite_self, latch_mem]; done) | fail
@[simp] theorem throttle_mem (s) (rate) : mem (throttle s rate) = mem s := by simp only [throttle, mem_mk, mem_fold, mem_ite, ite_self, latch_mem]
@[simp] theorem doubling_mem (s) : mem (doubling s) = mem s := by simp only [doubling, mem_mk, mem_fold, mem_ite, ite_self]
@[simp] theorem railAdjust_mem (s) : mem (railAdjust s) = mem s := by simp only [railAdjust, mem_mk, mem_fold, mem_ite, ite_self, latch_mem]
@[simp] theorem bucketLeak_mem (s) (c) : mem (bucketLeak s c) = mem s := by simp only [bucketLeak, mem_mk, mem_fold, mem_ite, ite_self, setRegF_mem, latch_mem]
@[simp] theorem refCheck_mem (s) (n) : mem (refCheck s n) = mem s := by unfold refCheck; (try dsimp only); (repeat' split) <;> first | with_reducible rfl | (simp only [mem_mk, mem_fold, mem_ite, ite_self, setCal_mem, takeFree_mem, latch_mem]; done) | fail
@[simp] theorem calTempUpdate_mem (s) (n) : mem (calTempUpdate s n) = mem s := by simp (disch := (intros; first | with_reducible rfl | (simp only [mem_mk, mem_fold, mem_ite, ite_self, setRegF_mem]; done) | ((repeat' split) <;> first | with_reducible rfl | (simp only [mem_mk, mem_fold, mem_ite, ite_self, setRegF_mem]; done) | fail) | fail)) only [calTempUpdate, mem_foldl, mem_mk, mem_fold, mem_ite, ite_self, setRegF_mem]
@[simp] theorem counterRead_mem (s) (c) : mem (counterRead s c) = mem s := by simp (disch := (intros; first | with_reducible rfl | (simp only [mem_mk, mem_fold, mem_ite, ite_self, sbQueue_mem]; done) | ((repeat' split) <;> first | with_reducible rfl | (simp only [mem_mk, mem_fold, mem_ite, ite_self, sbQueue_mem]; done) | fail) | fail)) only [counterRead, mem_foldl, mem_mk, mem_fold, mem_ite, ite_self, sbQueue_mem]
@[simp] theorem forbidRound_mem (s) : mem (forbidRound s) = mem s := by simp only [forbidRound, mem_mk, mem_fold, mem_ite, ite_self, setW_mem, forbidState_mem]
@[simp] theorem tripRound_mem (s) : mem (tripRound s) = mem s := by simp only [tripRound, mem_mk, mem_fold, mem_ite, ite_self]
@[simp] theorem roundLevels_mem (s) : mem (roundLevels s) = mem s := by unfold roundLevels; (try dsimp only); (repeat' split) <;> first | with_reducible rfl | (simp only [mem_mk, mem_fold, mem_ite, ite_self, crossCheck_mem, degradeCheck_mem, riseCheck_mem, throttle_mem, doubling_mem, forbidRound_mem, tripRound_mem]; done) | fail
@[simp] theorem roundJudge_mem (s) : mem (roundJudge s) = mem s := by simp only [roundJudge, mem_mk, mem_fold, mem_ite, ite_self, railAdjust_mem, roundLevels_mem]
@[simp] theorem roundUnits_mem (s) : mem (roundUnits s) = mem s := by simp (disch := (intros; first | with_reducible rfl | (simp only [mem_mk, mem_fold, mem_ite, ite_self, forN_mem, overrides_mem, bucketLeak_mem, refCheck_mem, calTempUpdate_mem, counterRead_mem]; done) | ((repeat' split) <;> first | with_reducible rfl | (simp only [mem_mk, mem_fold, mem_ite, ite_self, forN_mem, overrides_mem, bucketLeak_mem, refCheck_mem, calTempUpdate_mem, counterRead_mem]; done) | fail) | fail)) only [roundUnits, mem_foldl, mem_mk, mem_fold, mem_ite, ite_self, forN_mem, overrides_mem, bucketLeak_mem, refCheck_mem, calTempUpdate_mem, counterRead_mem]
@[simp] theorem roundCounts_mem (s) : mem (roundCounts s) = mem s := by simp only [roundCounts, mem_mk, mem_fold, mem_ite, ite_self, evBlk_mem]
@[simp] theorem roundTurn_mem (s) : mem (roundTurn s) = mem s := by simp (disch := (intros; first | with_reducible rfl | (simp only [mem_mk, mem_fold, mem_ite, ite_self]; done) | ((repeat' split) <;> first | with_reducible rfl | (simp only [mem_mk, mem_fold, mem_ite, ite_self]; done) | fail) | fail)) only [roundTurn, mem_foldl, mem_mk, mem_fold, mem_ite, ite_self]
@[simp] theorem roundEnd_mem (s) : mem (roundEnd s) = mem s := by simp only [roundEnd, mem_mk, mem_fold, mem_ite, ite_self, roundJudge_mem, roundUnits_mem, roundCounts_mem, roundTurn_mem]
@[simp] theorem tripSleep_mem (s) : mem (tripSleep s) = mem s := by simp (disch := (intros; first | with_reducible rfl | (simp only [mem_mk, mem_fold, mem_ite, ite_self, forN_mem, sleepChan_mem]; done) | ((repeat' split) <;> first | with_reducible rfl | (simp only [mem_mk, mem_fold, mem_ite, ite_self, forN_mem, sleepChan_mem]; done) | fail) | fail)) only [tripSleep, mem_foldl, mem_mk, mem_fold, mem_ite, ite_self, forN_mem, sleepChan_mem]
@[simp] theorem tripEnd_mem (s) : mem (tripEnd s) = mem s := by simp only [tripEnd, mem_mk, mem_fold, mem_ite, ite_self, setRegF_mem, bumpReg_mem, logEv_mem, restartWindows_mem, wakeStack_mem, setW_mem, forbidState_mem]
@[simp] theorem pmbDone_mem (s) (k) : mem (pmbDone s k) = mem s := by simp only [pmbDone, mem_mk, mem_fold, mem_ite, ite_self]
@[simp] theorem vinCheck_mem (s) (mv) : mem (vinCheck s mv) = mem s := by simp only [vinCheck, mem_mk, mem_fold, mem_ite, ite_self, latch_mem]
@[simp] theorem statusRead_mem (s) (w) : mem (statusRead s w) = mem s := by simp only [statusRead, mem_mk, mem_fold, mem_ite, ite_self, latch_mem, logEv_mem]
@[simp] theorem pmbEnd_mem (s) (r) : mem (pmbEnd s r) = mem s := by unfold pmbEnd; (try dsimp only); (repeat' split) <;> first | with_reducible rfl | (simp only [mem_mk, mem_fold, mem_ite, ite_self, bumpReg_mem, latch_mem, pmbDone_mem, vinCheck_mem, statusRead_mem]; done) | fail
@[simp] theorem avsEnd_mem (s) (r) : mem (avsEnd s r) = mem s := by unfold avsEnd; (try dsimp only); (repeat' split) <;> first | with_reducible rfl | (simp only [mem_mk, mem_fold, mem_ite, ite_self, latch_mem, overrides_mem]; done) | (simp (disch := (intros; first | with_reducible rfl | (simp only [mem_mk, mem_fold, mem_ite, ite_self, latch_mem, overrides_mem]; done) | ((repeat' split) <;> first | with_reducible rfl | (simp only [mem_mk, mem_fold, mem_ite, ite_self, latch_mem, overrides_mem]; done) | fail) | fail)) only [mem_foldl, mem_mk, mem_fold, mem_ite, ite_self, latch_mem, overrides_mem]; done) | fail
@[simp] theorem pgoodRise_mem (s) : mem (pgoodRise s) = mem s := by simp only [pgoodRise, mem_mk, mem_fold, mem_ite, ite_self]
@[simp] theorem pgoodLate_mem (s) : mem (pgoodLate s) = mem s := by simp only [pgoodLate, mem_mk, mem_fold, mem_ite, ite_self, logEv_mem, enterLost_mem]
@[simp] theorem sbNext_mem (s) : mem (sbNext s) = mem s := by simp only [sbNext, mem_mk, mem_fold, mem_ite, ite_self, sbStart_mem]
@[simp] theorem ppOpEnd_mem (s) (r) : mem (ppOpEnd s r) = mem s := by simp only [ppOpEnd, mem_mk, mem_fold, mem_ite, ite_self]
@[simp] theorem t1500End_mem (s) (r) : mem (t1500End s r) = mem s := by simp only [t1500End, mem_mk, mem_fold, mem_ite, ite_self, latch_mem]
@[simp] theorem ppInvalid_mem (s) (why) (addr) : mem (ppInvalid s why addr) = mem s := by simp only [ppInvalid, mem_mk, mem_fold, mem_ite, ite_self, logEv_mem, enterLost_mem]
@[simp] theorem probeLost_mem (s) (c) : mem (probeLost s c) = mem s := by unfold probeLost; (try dsimp only); (repeat' split) <;> first | with_reducible rfl | (simp only [mem_mk, mem_fold, mem_ite, ite_self, setCal_mem]; done) | (simp (disch := (intros; first | with_reducible rfl | (simp only [mem_mk, mem_fold, mem_ite, ite_self, setCal_mem]; done) | ((repeat' split) <;> first | with_reducible rfl | (simp only [mem_mk, mem_fold, mem_ite, ite_self, setCal_mem]; done) | fail) | fail)) only [mem_foldl, mem_mk, mem_fold, mem_ite, ite_self, setCal_mem]; done) | fail
@[simp] theorem sbFailed_mem (s) (x) (why) : mem (sbFailed s x why) = mem s := by simp only [sbFailed, mem_mk, mem_fold, mem_ite, ite_self, latch_mem, logEv_mem, polled_mem, ppOpEnd_mem, t1500End_mem, ppInvalid_mem, probeLost_mem]
@[simp] theorem sbAbandon_mem (s) (x) : mem (sbAbandon s x) = mem s := by simp only [sbAbandon, mem_mk, mem_fold, mem_ite, ite_self, latch_mem, sbNext_mem, sbFailed_mem]
@[simp] theorem sbRetry_mem (s) (x) : mem (sbRetry s x) = mem s := by simp only [sbRetry, mem_mk, mem_fold, mem_ite, ite_self, sbAbandon_mem]
@[simp] theorem cmdCounters_mem (s) (c) (ws) : mem (cmdCounters s c ws) = mem s := by unfold cmdCounters; (try dsimp only); (repeat' split) <;> first | with_reducible rfl | (simp only [mem_mk, mem_fold, mem_ite, ite_self, setRegF_mem, bumpReg_mem, logEv_mem, sbWrite_mem, enterLost_mem]; done) | (simp (disch := (intros; first | with_reducible rfl | (simp only [mem_mk, mem_fold, mem_ite, ite_self, setRegF_mem, bumpReg_mem, logEv_mem, sbWrite_mem, enterLost_mem]; done) | ((repeat' split) <;> first | with_reducible rfl | (simp only [mem_mk, mem_fold, mem_ite, ite_self, setRegF_mem, bumpReg_mem, logEv_mem, sbWrite_mem, enterLost_mem]; done) | fail) | fail)) only [mem_foldl, mem_mk, mem_fold, mem_ite, ite_self, setRegF_mem, bumpReg_mem, logEv_mem, sbWrite_mem, enterLost_mem]; done) | fail
@[simp] theorem alertRead_mem (s) (c) (w) : mem (alertRead s c w) = mem s := by simp only [alertRead, mem_mk, mem_fold, mem_ite, ite_self, bumpReg_mem, latch_mem, logEv_mem]
@[simp] theorem remapWritten_mem (s) (c) (ws) : mem (remapWritten s c ws) = mem s := by simp (disch := (intros; first | with_reducible rfl | (simp only [mem_mk, mem_fold, mem_ite, ite_self, modChan_mem]; done) | ((repeat' split) <;> first | with_reducible rfl | (simp only [mem_mk, mem_fold, mem_ite, ite_self, modChan_mem]; done) | fail) | fail)) only [remapWritten, mem_foldl, mem_mk, mem_fold, mem_ite, ite_self, modChan_mem]
@[simp] theorem bootRead_mem (s) (a) : mem (bootRead s a) = mem s := by simp only [bootRead, mem_mk, mem_fold, mem_ite, ite_self, sbQueue_mem]
@[simp] theorem bootGot_mem (s) (a) (ws) : mem (bootGot s a ws) = mem s := by unfold bootGot; (try dsimp only); (repeat' split) <;> first | with_reducible rfl | (simp only [mem_mk, mem_fold, mem_ite, ite_self, bootRead_mem]; done) | fail
@[simp] theorem sbDeliver_mem (s) (x) (ws) : mem (sbDeliver s x ws) = mem s := by unfold sbDeliver; (try dsimp only); (repeat' split) <;> first | with_reducible rfl | (simp only [mem_mk, mem_fold, mem_ite, ite_self, setCal_mem, setReg_mem, polled_mem, ppOpEnd_mem, t1500End_mem, sbFailed_mem, cmdCounters_mem, alertRead_mem, remapWritten_mem, bootGot_mem]; done) | (simp (disch := (intros; first | with_reducible rfl | (simp only [mem_mk, mem_fold, mem_ite, ite_self, setCal_mem, setReg_mem, polled_mem, ppOpEnd_mem, t1500End_mem, sbFailed_mem, cmdCounters_mem, alertRead_mem, remapWritten_mem, bootGot_mem]; done) | ((repeat' split) <;> first | with_reducible rfl | (simp only [mem_mk, mem_fold, mem_ite, ite_self, setCal_mem, setReg_mem, polled_mem, ppOpEnd_mem, t1500End_mem, sbFailed_mem, cmdCounters_mem, alertRead_mem, remapWritten_mem, bootGot_mem]; done) | fail) | fail)) only [mem_foldl, mem_mk, mem_fold, mem_ite, ite_self, setCal_mem, setReg_mem, polled_mem, ppOpEnd_mem, t1500End_mem, sbFailed_mem, cmdCounters_mem, alertRead_mem, remapWritten_mem, bootGot_mem]; done) | fail
@[simp] theorem sbTake_mem (s) (x) (crcOk) (st) (ws) : mem (sbTake s x crcOk st ws) = mem s := by simp only [sbTake, mem_mk, mem_fold, mem_ite, ite_self, bumpReg_mem, sbNext_mem, sbFailed_mem, sbRetry_mem, sbDeliver_mem]
@[simp] theorem sbResponse_mem (s) (noise) : mem (sbResponse s noise) = mem s := by unfold sbResponse; (try dsimp only); (repeat' split) <;> first | with_reducible rfl | (simp only [mem_mk, mem_fold, mem_ite, ite_self, sbTake_mem]; done) | fail
@[simp] theorem sbTimeout_mem (s) : mem (sbTimeout s) = mem s := by unfold sbTimeout; (try dsimp only); (repeat' split) <;> first | with_reducible rfl | (simp only [mem_mk, mem_fold, mem_ite, ite_self, bumpReg_mem, sbRetry_mem]; done) | fail
@[simp] theorem haltWith_mem (s) (cause) : mem (haltWith s cause) = mem s := by simp only [haltWith, mem_mk, mem_fold, mem_ite, ite_self, logEv_mem, closePorts_mem]
@[simp] theorem zeroise_mem (s) : mem (zeroise s) = mem s := by simp (disch := (intros; first | with_reducible rfl | (simp only [mem_mk, mem_fold, mem_ite, ite_self, modChan_mem, modOct_mem, forN_mem, modPort_mem]; done) | ((repeat' split) <;> first | with_reducible rfl | (simp only [mem_mk, mem_fold, mem_ite, ite_self, modChan_mem, modOct_mem, forN_mem, modPort_mem]; done) | fail) | fail)) only [zeroise, mem_foldl, mem_mk, mem_fold, mem_ite, ite_self, modChan_mem, modOct_mem, forN_mem, modPort_mem]
@[simp] theorem drawKeys_mem (s) : mem (drawKeys s) = mem s := by unfold drawKeys; (try dsimp only); (repeat' split) <;> first | with_reducible rfl | (simp only [mem_mk, mem_fold, mem_ite, ite_self, modChan_mem, forN_mem, takeFree_mem, takeFreeNonzero_mem, smpSeed_mem]; done) | (simp (disch := (intros; first | with_reducible rfl | (simp only [mem_mk, mem_fold, mem_ite, ite_self, modChan_mem, forN_mem, takeFree_mem, takeFreeNonzero_mem, smpSeed_mem]; done) | ((repeat' split) <;> first | with_reducible rfl | (simp only [mem_mk, mem_fold, mem_ite, ite_self, modChan_mem, forN_mem, takeFree_mem, takeFreeNonzero_mem, smpSeed_mem]; done) | fail) | fail)) only [mem_foldl, mem_mk, mem_fold, mem_ite, ite_self, modChan_mem, forN_mem, takeFree_mem, takeFreeNonzero_mem, smpSeed_mem]; done) | fail
@[simp] theorem applyRecord_mem (s) (r) : mem (applyRecord s r) = mem s := by unfold applyRecord; (try dsimp only); (repeat' split) <;> first | with_reducible rfl | (simp only [mem_mk, mem_fold, mem_ite, ite_self, modChan_mem]; done) | (simp (disch := (intros; first | with_reducible rfl | (simp only [mem_mk, mem_fold, mem_ite, ite_self, modChan_mem]; done) | ((repeat' split) <;> first | with_reducible rfl | (simp only [mem_mk, mem_fold, mem_ite, ite_self, modChan_mem]; done) | fail) | fail)) only [mem_foldl, mem_mk, mem_fold, mem_ite, ite_self, modChan_mem]; done) | fail
@[simp] theorem loadRepairs_mem (s) : mem (loadRepairs s) = mem s := by simp (disch := (intros; first | with_reducible rfl | (simp only [mem_mk, mem_fold, mem_ite, ite_self, logEv_mem, applyRecord_mem]; done) | ((repeat' split) <;> first | with_reducible rfl | (simp only [mem_mk, mem_fold, mem_ite, ite_self, logEv_mem, applyRecord_mem]; done) | fail) | fail)) only [loadRepairs, mem_foldl, mem_mk, mem_fold, mem_ite, ite_self, logEv_mem, applyRecord_mem]
@[simp] theorem loadTemps_mem (s) : mem (loadTemps s) = mem s := by unfold loadTemps; (try dsimp only); (repeat' split) <;> first | with_reducible rfl | (simp only [mem_mk, mem_fold, mem_ite, ite_self, forN_mem, setRegF_mem, srRead_mem]; done) | (simp (disch := (intros; first | with_reducible rfl | (simp only [mem_mk, mem_fold, mem_ite, ite_self, forN_mem, setRegF_mem, srRead_mem]; done) | ((repeat' split) <;> first | with_reducible rfl | (simp only [mem_mk, mem_fold, mem_ite, ite_self, forN_mem, setRegF_mem, srRead_mem]; done) | fail) | fail)) only [mem_foldl, mem_mk, mem_fold, mem_ite, ite_self, forN_mem, setRegF_mem, srRead_mem]; done) | fail
@[simp] theorem loadSref_mem (s) : mem (loadSref s) = mem s :=
  forN_mem _ _ _ (fun t c => forN_mem _ _ _ (fun u w => (srWrite_mem ..).trans (modChan_mem ..)))
@[simp] theorem loadStackRegs_mem (s) : mem (loadStackRegs s) = mem s := by
  unfold loadStackRegs; dsimp only
  refine (forN_mem _ _ _ (fun t c => (mem_foldl _ _ _ (fun u e => srWrite_mem ..)).trans ?_)).trans
    ((srWrite_mem ..).trans (forN_mem _ _ _ (fun t i => srWrite_mem ..)))
  exact (srWrite_mem ..).trans ((srWrite_mem ..).trans ((takeFree_mem ..).trans (srWrite_mem ..)))
@[simp] theorem linkCheckFail_mem (s) (d) : mem (linkCheckFail s d) = mem s := by simp (disch := (intros; first | with_reducible rfl | (simp only [mem_mk, mem_fold, mem_ite, ite_self, logEv_mem, enterLost_mem, wireFail_mem]; done) | ((repeat' split) <;> first | with_reducible rfl | (simp only [mem_mk, mem_fold, mem_ite, ite_self, logEv_mem, enterLost_mem, wireFail_mem]; done) | fail) | fail)) only [linkCheckFail, mem_foldl, mem_mk, mem_fold, mem_ite, ite_self, logEv_mem, enterLost_mem, wireFail_mem]
@[simp] theorem refreshStart_mem (s) : mem (refreshStart s) = mem s := by simp (disch := (intros; first | with_reducible rfl | (simp only [mem_mk, mem_fold, mem_ite, ite_self, modChan_mem, forN_mem]; done) | ((repeat' split) <;> first | with_reducible rfl | (simp only [mem_mk, mem_fold, mem_ite, ite_self, modChan_mem, forN_mem]; done) | fail) | fail)) only [refreshStart, mem_foldl, mem_mk, mem_fold, mem_ite, ite_self, modChan_mem, forN_mem]
@[simp] theorem stepLog_mem (s) : mem (stepLog s) = mem s := by simp only [stepLog, mem_mk, mem_fold, mem_ite, ite_self, logEv_mem]
@[simp] theorem atStep_mem (s) (n) : mem (atStep s n) = mem s := by simp only [atStep, mem_mk, mem_fold, mem_ite, ite_self]
@[simp] theorem powerOn_mem (s) : mem (powerOn s) = mem s := by simp only [powerOn, mem_mk, mem_fold, mem_ite, ite_self, overrides_mem]
@[simp] theorem thermalWait_mem (s) : mem (thermalWait s) = mem s := by simp only [thermalWait, mem_mk, mem_fold, mem_ite, ite_self, logEv_mem]
@[simp] theorem lastStep_mem (s) : mem (lastStep s) = mem s := by simp only [lastStep, mem_mk, mem_fold, mem_ite, ite_self, bootEnd_mem, stepLog_mem]
@[simp] theorem nextStep_mem (s) (n) : mem (nextStep s n) = mem s := by unfold nextStep; (try dsimp only); (repeat' split) <;> first | with_reducible rfl | (simp only [mem_mk, mem_fold, mem_ite, ite_self, bootRead_mem, refreshStart_mem, atStep_mem, powerOn_mem, thermalWait_mem, lastStep_mem]; done) | fail
@[simp] theorem mbistEnd_mem (s) (fail) : mem (mbistEnd s fail) = mem s := by unfold mbistEnd; (try dsimp only); (repeat' split) <;> first | with_reducible rfl | (simp only [mem_mk, mem_fold, mem_ite, ite_self, takeFree_mem, logEv_mem, logUnstage_mem]; done) | fail
@[simp] theorem lbistEnd_mem (s) (fail) : mem (lbistEnd s fail) = mem s := by simp only [lbistEnd, mem_mk, mem_fold, mem_ite, ite_self, logEv_mem, zeroise_mem]
@[simp] theorem passportStep_mem (s) : mem (passportStep s) = mem s := by simp only [passportStep, mem_mk, mem_fold, mem_ite, ite_self, ppInvalid_mem, loadRepairs_mem]
@[simp] theorem loadStep_mem (s) : mem (loadStep s) = mem s := by unfold loadStep; (try dsimp only); (repeat' split) <;> first | with_reducible rfl | (simp only [mem_mk, mem_fold, mem_ite, ite_self, applyAll_mem, ppInvalid_mem, loadTemps_mem, loadSref_mem, loadStackRegs_mem]; done) | fail
@[simp] theorem trackStep_mem (s) : mem (trackStep s) = mem s :=
  (forN_mem _ _ _ (fun t c => forN_mem _ _ _ (by
    intro u h; split
    · exact steer_mem ..
    · rfl))).trans (forN_mem _ _ _ (fun t n => setRegF_mem ..))
@[simp] theorem bootFail_mem (s) (d) : mem (bootFail s d) = mem s := by unfold bootFail; (try dsimp only); (repeat' split) <;> first | with_reducible rfl | (simp only [mem_mk, mem_fold, mem_ite, ite_self, haltWith_mem, linkCheckFail_mem, mbistEnd_mem, lbistEnd_mem, loadStep_mem]; done) | fail
@[simp] theorem refPassed_mem (s) (count) : mem (refPassed s count) = mem s := by simp only [refPassed, mem_mk, mem_fold, mem_ite, ite_self]
@[simp] theorem refFailed_mem (s) : mem (refFailed s) = mem s := by simp only [refFailed, mem_mk, mem_fold, mem_ite, ite_self]
@[simp] theorem refWindowDone_mem (s) (count) : mem (refWindowDone s count) = mem s := by unfold refWindowDone; (try dsimp only); (repeat' split) <;> first | with_reducible rfl | (simp only [mem_mk, mem_fold, mem_ite, ite_self, refCheck_mem, refPassed_mem, refFailed_mem]; done) | fail
@[simp] theorem refLost_mem (s) : mem (refLost s) = mem s := by simp only [refLost, mem_mk, mem_fold, mem_ite, ite_self, latch_mem, logEv_mem]
@[simp] theorem uncertainTime_mem (s) : mem (uncertainTime s) = mem s := by simp only [uncertainTime, mem_mk, mem_fold, mem_ite, ite_self, latch_mem]
@[simp] theorem shiftDeadlines_mem (s) (d) : mem (shiftDeadlines s d) = mem s := by simp (disch := (intros; first | with_reducible rfl | (simp only [mem_mk, mem_fold, mem_ite, ite_self]; done) | ((repeat' split) <;> first | with_reducible rfl | (simp only [mem_mk, mem_fold, mem_ite, ite_self]; done) | fail) | fail)) only [shiftDeadlines, mem_foldl, mem_mk, mem_fold, mem_ite, ite_self]
@[simp] theorem timeLoad_mem (s) : mem (timeLoad s) = mem s := by simp only [timeLoad, mem_mk, mem_fold, mem_ite, ite_self, setRegF_mem, latch_mem, logEv_mem, shiftDeadlines_mem]
@[simp] theorem timeSync_mem (s) : mem (timeSync s) = mem s := by simp only [timeSync, mem_mk, mem_fold, mem_ite, ite_self, setReg_mem, bumpReg_mem, timeLoad_mem]
@[simp] theorem relockChan_mem (s) (c) : mem (relockChan s c) = mem s := by simp (disch := (intros; first | with_reducible rfl | (simp only [mem_mk, mem_fold, mem_ite, ite_self, modChan_mem, sendRow_mem, sendLane_mem]; done) | ((repeat' split) <;> first | with_reducible rfl | (simp only [mem_mk, mem_fold, mem_ite, ite_self, modChan_mem, sendRow_mem, sendLane_mem]; done) | fail) | fail)) only [relockChan, mem_foldl, mem_mk, mem_fold, mem_ite, ite_self, modChan_mem, sendRow_mem, sendLane_mem]
@[simp] theorem relockStack_mem (s) : mem (relockStack s) = mem s := by simp (disch := (intros; first | with_reducible rfl | (simp only [mem_mk, mem_fold, mem_ite, ite_self, forN_mem, freqEnd_mem, relockChan_mem]; done) | ((repeat' split) <;> first | with_reducible rfl | (simp only [mem_mk, mem_fold, mem_ite, ite_self, forN_mem, freqEnd_mem, relockChan_mem]; done) | fail) | fail)) only [relockStack, mem_foldl, mem_mk, mem_fold, mem_ite, ite_self, forN_mem, freqEnd_mem, relockChan_mem]
@[simp] theorem pllLocked_mem (s) : mem (pllLocked s) = mem s := by simp only [pllLocked, mem_mk, mem_fold, mem_ite, ite_self, restartWindows_mem, relockStack_mem]
@[simp] theorem pllLate_mem (s) : mem (pllLate s) = mem s := by simp only [pllLate, mem_mk, mem_fold, mem_ite, ite_self, haltWith_mem]
@[simp] theorem pllLoss_mem (s) (stopped) (present) : mem (pllLoss s stopped present) = mem s := by simp (disch := (intros; first | with_reducible rfl | (simp only [mem_mk, mem_fold, mem_ite, ite_self, modChan_mem, forN_mem, latch_mem, logEv_mem, faultAt_mem, refCheck_mem, uncertainTime_mem]; done) | ((repeat' split) <;> first | with_reducible rfl | (simp only [mem_mk, mem_fold, mem_ite, ite_self, modChan_mem, forN_mem, latch_mem, logEv_mem, faultAt_mem, refCheck_mem, uncertainTime_mem]; done) | fail) | fail)) only [pllLoss, mem_foldl, mem_mk, mem_fold, mem_ite, ite_self, modChan_mem, forN_mem, latch_mem, logEv_mem, faultAt_mem, refCheck_mem, uncertainTime_mem]
@[simp] theorem dropSequence_mem (s) : mem (dropSequence s) = mem s := by unfold dropSequence; (try dsimp only); (repeat' split) <;> first | with_reducible rfl | (simp only [mem_mk, mem_fold, mem_ite, ite_self, abandonRepair_mem]; done) | fail
@[simp] theorem dropSideband_mem (s) : mem (dropSideband s) = mem s := by simp (disch := (intros; first | with_reducible rfl | (simp only [mem_mk, mem_fold, mem_ite, ite_self, sbFailed_mem]; done) | ((repeat' split) <;> first | with_reducible rfl | (simp only [mem_mk, mem_fold, mem_ite, ite_self, sbFailed_mem]; done) | fail) | fail)) only [dropSideband, mem_foldl, mem_mk, mem_fold, mem_ite, ite_self, sbFailed_mem]
@[simp] theorem domainReset_mem (s) (d) : mem (domainReset s d) = mem s := by unfold domainReset; (try dsimp only); (repeat' split) <;> first | with_reducible rfl | (simp only [mem_mk, mem_fold, mem_ite, ite_self, dropSequence_mem, dropSideband_mem]; done) | fail
@[simp] theorem forceSwitch_mem (s) (d) : mem (forceSwitch s d) = mem s := by simp only [forceSwitch, mem_mk, mem_fold, mem_ite, ite_self, latch_mem, logEv_mem, faultAt_mem, uncertainTime_mem, domainReset_mem]
@[simp] theorem gateStop_mem (s) (d) : mem (gateStop s d) = mem s := by simp only [gateStop, mem_mk, mem_fold, mem_ite, ite_self]
@[simp] theorem fmeasEnd_mem (s) (count) (stopped) : mem (fmeasEnd s count stopped) = mem s := by simp only [fmeasEnd, mem_mk, mem_fold, mem_ite, ite_self, setReg_mem, latch_mem]
@[simp] theorem poisonKept_mem (s) (ci) (i) : mem (poisonKept s ci i) = mem s := by unfold poisonKept; (try dsimp only); (repeat' split) <;> first | with_reducible rfl | (simp only [mem_mk, mem_fold, mem_ite, ite_self, setChan_mem, latch_mem]; done) | (simp (disch := (intros; first | with_reducible rfl | (simp only [mem_mk, mem_fold, mem_ite, ite_self, setChan_mem, latch_mem]; done) | ((repeat' split) <;> first | with_reducible rfl | (simp only [mem_mk, mem_fold, mem_ite, ite_self, setChan_mem, latch_mem]; done) | fail) | fail)) only [mem_foldl, mem_mk, mem_fold, mem_ite, ite_self, setChan_mem, latch_mem]; done) | fail
@[simp] theorem keptCheck_mem (s) (ci) : mem (keptCheck s ci) = mem s := by simp only [keptCheck, mem_mk, mem_fold, mem_ite, ite_self, poisonKept_mem]
@[simp] theorem detect_mem (s) (page) (k) (src) (part) : mem (detect s page k src part) = mem s := by simp only [detect, mem_mk, mem_fold, mem_ite, ite_self, faultAt_mem, alertSeen_mem, keptCheck_mem]
@[simp] theorem expire_mem (s) (page) (u) (part) : mem (expire s page u part) = mem s := by simp only [expire, mem_mk, mem_fold, mem_ite, ite_self, faultAt_mem]
@[simp] theorem resumeScope_mem (s) (sc) : mem (resumeScope s sc) = mem s := by unfold resumeScope; (try dsimp only); (repeat' split) <;> first | with_reducible rfl | (simp only [mem_mk, mem_fold, mem_ite, ite_self, modChan_mem, modOct_mem, forN_mem, modPort_mem]; done) | (simp (disch := (intros; first | with_reducible rfl | (simp only [mem_mk, mem_fold, mem_ite, ite_self, modChan_mem, modOct_mem, forN_mem, modPort_mem]; done) | ((repeat' split) <;> first | with_reducible rfl | (simp only [mem_mk, mem_fold, mem_ite, ite_self, modChan_mem, modOct_mem, forN_mem, modPort_mem]; done) | fail) | fail)) only [mem_foldl, mem_mk, mem_fold, mem_ite, ite_self, modChan_mem, modOct_mem, forN_mem, modPort_mem]; done) | fail
@[simp] theorem recovered_mem (s) (page) : mem (recovered s page) = mem s := by unfold recovered; (try dsimp only); (repeat' split) <;> first | with_reducible rfl | (simp only [mem_mk, mem_fold, mem_ite, ite_self, setRegF_mem, logEv_mem, resumeScope_mem]; done) | (simp (disch := (intros; first | with_reducible rfl | (simp only [mem_mk, mem_fold, mem_ite, ite_self, setRegF_mem, logEv_mem, resumeScope_mem]; done) | ((repeat' split) <;> first | with_reducible rfl | (simp only [mem_mk, mem_fold, mem_ite, ite_self, setRegF_mem, logEv_mem, resumeScope_mem]; done) | fail) | fail)) only [mem_foldl, mem_mk, mem_fold, mem_ite, ite_self, setRegF_mem, logEv_mem, resumeScope_mem]; done) | fail
@[simp] theorem mbistDone_mem (s) (r) (rows) (cols) : mem (mbistDone s r rows cols) = mem s := by unfold mbistDone; (try dsimp only); (repeat' split) <;> first | with_reducible rfl | (simp only [mem_mk, mem_fold, mem_ite, ite_self, modOct_mem, latch_mem]; done) | (simp (disch := (intros; first | with_reducible rfl | (simp only [mem_mk, mem_fold, mem_ite, ite_self, modOct_mem, latch_mem]; done) | ((repeat' split) <;> first | with_reducible rfl | (simp only [mem_mk, mem_fold, mem_ite, ite_self, modOct_mem, latch_mem]; done) | fail) | fail)) only [mem_foldl, mem_mk, mem_fold, mem_ite, ite_self, modOct_mem, latch_mem]; done) | fail
@[simp] theorem loadIr_mem (s) (i) : mem (loadIr s i) = mem s := by simp only [loadIr, mem_mk, mem_fold, mem_ite, ite_self]
@[simp] theorem asBypass_mem (s) (i) : mem (asBypass s i) = mem s := by simp only [asBypass, mem_mk, mem_fold, mem_ite, ite_self]
@[simp] theorem jtagAccess_mem (s) (dr) : mem (jtagAccess s dr) = mem s := by simp only [jtagAccess, mem_mk, mem_fold, mem_ite, ite_self, regReadEffect_mem, regWrite_mem]
@[simp] theorem cycleCounts_mem (s) : mem (cycleCounts s) = mem s := by simp (disch := (intros; first | with_reducible rfl | (simp only [mem_mk, mem_fold, mem_ite, ite_self, forN_mem, evCh_mem, evPort_mem, evOct_mem, evBlk_mem]; done) | ((repeat' split) <;> first | with_reducible rfl | (simp only [mem_mk, mem_fold, mem_ite, ite_self, forN_mem, evCh_mem, evPort_mem, evOct_mem, evBlk_mem]; done) | fail) | fail)) only [cycleCounts, mem_foldl, mem_mk, mem_fold, mem_ite, ite_self, forN_mem, evCh_mem, evPort_mem, evOct_mem, evBlk_mem]
@[simp] theorem tickCounts_mem (s) : mem (tickCounts s) = mem s := by simp (disch := (intros; first | with_reducible rfl | (simp only [mem_mk, mem_fold, mem_ite, ite_self, forN_mem, evCh_mem, evBlk_mem]; done) | ((repeat' split) <;> first | with_reducible rfl | (simp only [mem_mk, mem_fold, mem_ite, ite_self, forN_mem, evCh_mem, evBlk_mem]; done) | fail) | fail)) only [tickCounts, mem_foldl, mem_mk, mem_fold, mem_ite, ite_self, forN_mem, evCh_mem, evBlk_mem]
@[simp] theorem budgetTick_mem (s) : mem (budgetTick s) = mem s := by simp only [budgetTick, mem_mk, mem_fold, mem_ite, ite_self]
@[simp] theorem idleTick_mem (s) (c) : mem (idleTick s c) = mem s := by simp (disch := (intros; first | with_reducible rfl | (simp only [mem_mk, mem_fold, mem_ite, ite_self, modChan_mem]; done) | ((repeat' split) <;> first | with_reducible rfl | (simp only [mem_mk, mem_fold, mem_ite, ite_self, modChan_mem]; done) | fail) | fail)) only [idleTick, mem_foldl, mem_mk, mem_fold, mem_ite, ite_self, modChan_mem]
@[simp] theorem progTick_mem (s) : mem (progTick s) = mem s := by simp (disch := (intros; first | with_reducible rfl | (simp only [mem_mk, mem_fold, mem_ite, ite_self, modChan_mem, modOct_mem, forN_mem, modPort_mem]; done) | ((repeat' split) <;> first | with_reducible rfl | (simp only [mem_mk, mem_fold, mem_ite, ite_self, modChan_mem, modOct_mem, forN_mem, modPort_mem]; done) | fail) | fail)) only [progTick, mem_foldl, mem_mk, mem_fold, mem_ite, ite_self, modChan_mem, modOct_mem, forN_mem, modPort_mem]
@[simp] theorem timeTick_mem (s) : mem (timeTick s) = mem s := by simp (disch := (intros; first | with_reducible rfl | (simp only [mem_mk, mem_fold, mem_ite, ite_self, forN_mem, logTake_mem, tickCounts_mem, budgetTick_mem, idleTick_mem, progTick_mem]; done) | ((repeat' split) <;> first | with_reducible rfl | (simp only [mem_mk, mem_fold, mem_ite, ite_self, forN_mem, logTake_mem, tickCounts_mem, budgetTick_mem, idleTick_mem, progTick_mem]; done) | fail) | fail)) only [timeTick, mem_foldl, mem_mk, mem_fold, mem_ite, ite_self, forN_mem, logTake_mem, tickCounts_mem, budgetTick_mem, idleTick_mem, progTick_mem]
@[simp] theorem coreCycle_mem (s) : mem (coreCycle s) = mem s := by simp only [coreCycle, mem_mk, mem_fold, mem_ite, ite_self, reconAskAll_mem, startSlots_mem, remapCopy_mem, cycleCounts_mem]
@[simp] theorem tick_mem (s) : mem (tick s) = mem s := by simp only [tick, mem_mk, mem_fold, mem_ite, ite_self, timeTick_mem, coreCycle_mem]

end Sys2Proof.Machine
end

