-- ==== Sys2Proof/Laws/State.lean ====
section
/-! SUPPORT. The updates of the state, read back: what each leaves alone, field by field, and what a unit reads after it is
replaced. -/

set_option Elab.async false

namespace Sys2Proof.Machine

/-! ### setPort -/

@[simp] theorem setPort_part (s : State) (p : Nat) (x : Port) : (setPort s p x).part = s.part := rfl
@[simp] theorem setPort_time (s : State) (p : Nat) (x : Port) : (setPort s p x).time = s.time := rfl
@[simp] theorem setPort_clk (s : State) (p : Nat) (x : Port) : (setPort s p x).clk = s.clk := rfl
@[simp] theorem setPort_blk (s : State) (p : Nat) (x : Port) : (setPort s p x).blk = s.blk := rfl
@[simp] theorem setPort_pins (s : State) (p : Nat) (x : Port) : (setPort s p x).pins = s.pins := rfl
@[simp] theorem setPort_regs (s : State) (p : Nat) (x : Port) : (setPort s p x).regs = s.regs := rfl
@[simp] theorem setPort_reqs (s : State) (p : Nat) (x : Port) : (setPort s p x).reqs = s.reqs := rfl
@[simp] theorem setPort_nextReq (s : State) (p : Nat) (x : Port) : (setPort s p x).nextReq = s.nextReq := rfl
@[simp] theorem setPort_rgn (s : State) (p : Nat) (x : Port) : (setPort s p x).rgn = s.rgn := rfl
@[simp] theorem setPort_attn (s : State) (p : Nat) (x : Port) : (setPort s p x).attn = s.attn := rfl
@[simp] theorem setPort_hdl (s : State) (p : Nat) (x : Port) : (setPort s p x).hdl = s.hdl := rfl
@[simp] theorem setPort_arb (s : State) (p : Nat) (x : Port) : (setPort s p x).arb = s.arb := rfl
@[simp] theorem setPort_winStart (s : State) (p : Nat) (x : Port) : (setPort s p x).winStart = s.winStart := rfl
@[simp] theorem setPort_chans (s : State) (p : Nat) (x : Port) : (setPort s p x).chans = s.chans := rfl
@[simp] theorem setPort_disp (s : State) (p : Nat) (x : Port) : (setPort s p x).disp = s.disp := rfl
@[simp] theorem setPort_octs (s : State) (p : Nat) (x : Port) : (setPort s p x).octs = s.octs := rfl
@[simp] theorem setPort_link (s : State) (p : Nat) (x : Port) : (setPort s p x).link = s.link := rfl
@[simp] theorem setPort_cals (s : State) (p : Nat) (x : Port) : (setPort s p x).cals = s.cals := rfl
@[simp] theorem setPort_hk (s : State) (p : Nat) (x : Port) : (setPort s p x).hk = s.hk := rfl
@[simp] theorem setPort_ecc (s : State) (p : Nat) (x : Port) : (setPort s p x).ecc = s.ecc := rfl
@[simp] theorem setPort_thm (s : State) (p : Nat) (x : Port) : (setPort s p x).thm = s.thm := rfl
@[simp] theorem setPort_pwr (s : State) (p : Nat) (x : Port) : (setPort s p x).pwr = s.pwr := rfl
@[simp] theorem setPort_log (s : State) (p : Nat) (x : Port) : (setPort s p x).log = s.log := rfl
@[simp] theorem setPort_recov (s : State) (p : Nat) (x : Port) : (setPort s p x).recov = s.recov := rfl
@[simp] theorem setPort_lastFault (s : State) (p : Nat) (x : Port) : (setPort s p x).lastFault = s.lastFault := rfl
@[simp] theorem setPort_lastInt (s : State) (p : Nat) (x : Port) : (setPort s p x).lastInt = s.lastInt := rfl
@[simp] theorem setPort_test (s : State) (p : Nat) (x : Port) : (setPort s p x).test = s.test := rfl
@[simp] theorem setPort_pmu (s : State) (p : Nat) (x : Port) : (setPort s p x).pmu = s.pmu := rfl
@[simp] theorem setPort_sec (s : State) (p : Nat) (x : Port) : (setPort s p x).sec = s.sec := rfl
@[simp] theorem setPort_stack (s : State) (p : Nat) (x : Port) : (setPort s p x).stack = s.stack := rfl
@[simp] theorem setPort_free (s : State) (p : Nat) (x : Port) : (setPort s p x).free = s.free := rfl
@[simp] theorem setPort_pending (s : State) (p : Nat) (x : Port) : (setPort s p x).pending = s.pending := rfl

/-! ### modPort -/

@[simp] theorem modPort_part (s : State) (p : Nat) (f : Port → Port) : (modPort s p f).part = s.part := rfl
@[simp] theorem modPort_time (s : State) (p : Nat) (f : Port → Port) : (modPort s p f).time = s.time := rfl
@[simp] theorem modPort_clk (s : State) (p : Nat) (f : Port → Port) : (modPort s p f).clk = s.clk := rfl
@[simp] theorem modPort_blk (s : State) (p : Nat) (f : Port → Port) : (modPort s p f).blk = s.blk := rfl
@[simp] theorem modPort_pins (s : State) (p : Nat) (f : Port → Port) : (modPort s p f).pins = s.pins := rfl
@[simp] theorem modPort_regs (s : State) (p : Nat) (f : Port → Port) : (modPort s p f).regs = s.regs := rfl
@[simp] theorem modPort_reqs (s : State) (p : Nat) (f : Port → Port) : (modPort s p f).reqs = s.reqs := rfl
@[simp] theorem modPort_nextReq (s : State) (p : Nat) (f : Port → Port) : (modPort s p f).nextReq = s.nextReq := rfl
@[simp] theorem modPort_rgn (s : State) (p : Nat) (f : Port → Port) : (modPort s p f).rgn = s.rgn := rfl
@[simp] theorem modPort_attn (s : State) (p : Nat) (f : Port → Port) : (modPort s p f).attn = s.attn := rfl
@[simp] theorem modPort_hdl (s : State) (p : Nat) (f : Port → Port) : (modPort s p f).hdl = s.hdl := rfl
@[simp] theorem modPort_arb (s : State) (p : Nat) (f : Port → Port) : (modPort s p f).arb = s.arb := rfl
@[simp] theorem modPort_winStart (s : State) (p : Nat) (f : Port → Port) : (modPort s p f).winStart = s.winStart := rfl
@[simp] theorem modPort_chans (s : State) (p : Nat) (f : Port → Port) : (modPort s p f).chans = s.chans := rfl
@[simp] theorem modPort_disp (s : State) (p : Nat) (f : Port → Port) : (modPort s p f).disp = s.disp := rfl
@[simp] theorem modPort_octs (s : State) (p : Nat) (f : Port → Port) : (modPort s p f).octs = s.octs := rfl
@[simp] theorem modPort_link (s : State) (p : Nat) (f : Port → Port) : (modPort s p f).link = s.link := rfl
@[simp] theorem modPort_cals (s : State) (p : Nat) (f : Port → Port) : (modPort s p f).cals = s.cals := rfl
@[simp] theorem modPort_hk (s : State) (p : Nat) (f : Port → Port) : (modPort s p f).hk = s.hk := rfl
@[simp] theorem modPort_ecc (s : State) (p : Nat) (f : Port → Port) : (modPort s p f).ecc = s.ecc := rfl
@[simp] theorem modPort_thm (s : State) (p : Nat) (f : Port → Port) : (modPort s p f).thm = s.thm := rfl
@[simp] theorem modPort_pwr (s : State) (p : Nat) (f : Port → Port) : (modPort s p f).pwr = s.pwr := rfl
@[simp] theorem modPort_log (s : State) (p : Nat) (f : Port → Port) : (modPort s p f).log = s.log := rfl
@[simp] theorem modPort_recov (s : State) (p : Nat) (f : Port → Port) : (modPort s p f).recov = s.recov := rfl
@[simp] theorem modPort_lastFault (s : State) (p : Nat) (f : Port → Port) : (modPort s p f).lastFault = s.lastFault := rfl
@[simp] theorem modPort_lastInt (s : State) (p : Nat) (f : Port → Port) : (modPort s p f).lastInt = s.lastInt := rfl
@[simp] theorem modPort_test (s : State) (p : Nat) (f : Port → Port) : (modPort s p f).test = s.test := rfl
@[simp] theorem modPort_pmu (s : State) (p : Nat) (f : Port → Port) : (modPort s p f).pmu = s.pmu := rfl
@[simp] theorem modPort_sec (s : State) (p : Nat) (f : Port → Port) : (modPort s p f).sec = s.sec := rfl
@[simp] theorem modPort_stack (s : State) (p : Nat) (f : Port → Port) : (modPort s p f).stack = s.stack := rfl
@[simp] theorem modPort_free (s : State) (p : Nat) (f : Port → Port) : (modPort s p f).free = s.free := rfl
@[simp] theorem modPort_pending (s : State) (p : Nat) (f : Port → Port) : (modPort s p f).pending = s.pending := rfl

/-! ### setChan -/

@[simp] theorem setChan_part (s : State) (c : Nat) (x : Chan) : (setChan s c x).part = s.part := rfl
@[simp] theorem setChan_time (s : State) (c : Nat) (x : Chan) : (setChan s c x).time = s.time := rfl
@[simp] theorem setChan_clk (s : State) (c : Nat) (x : Chan) : (setChan s c x).clk = s.clk := rfl
@[simp] theorem setChan_blk (s : State) (c : Nat) (x : Chan) : (setChan s c x).blk = s.blk := rfl
@[simp] theorem setChan_pins (s : State) (c : Nat) (x : Chan) : (setChan s c x).pins = s.pins := rfl
@[simp] theorem setChan_regs (s : State) (c : Nat) (x : Chan) : (setChan s c x).regs = s.regs := rfl
@[simp] theorem setChan_ports (s : State) (c : Nat) (x : Chan) : (setChan s c x).ports = s.ports := rfl
@[simp] theorem setChan_reqs (s : State) (c : Nat) (x : Chan) : (setChan s c x).reqs = s.reqs := rfl
@[simp] theorem setChan_nextReq (s : State) (c : Nat) (x : Chan) : (setChan s c x).nextReq = s.nextReq := rfl
@[simp] theorem setChan_rgn (s : State) (c : Nat) (x : Chan) : (setChan s c x).rgn = s.rgn := rfl
@[simp] theorem setChan_attn (s : State) (c : Nat) (x : Chan) : (setChan s c x).attn = s.attn := rfl
@[simp] theorem setChan_hdl (s : State) (c : Nat) (x : Chan) : (setChan s c x).hdl = s.hdl := rfl
@[simp] theorem setChan_arb (s : State) (c : Nat) (x : Chan) : (setChan s c x).arb = s.arb := rfl
@[simp] theorem setChan_winStart (s : State) (c : Nat) (x : Chan) : (setChan s c x).winStart = s.winStart := rfl
@[simp] theorem setChan_disp (s : State) (c : Nat) (x : Chan) : (setChan s c x).disp = s.disp := rfl
@[simp] theorem setChan_octs (s : State) (c : Nat) (x : Chan) : (setChan s c x).octs = s.octs := rfl
@[simp] theorem setChan_link (s : State) (c : Nat) (x : Chan) : (setChan s c x).link = s.link := rfl
@[simp] theorem setChan_cals (s : State) (c : Nat) (x : Chan) : (setChan s c x).cals = s.cals := rfl
@[simp] theorem setChan_hk (s : State) (c : Nat) (x : Chan) : (setChan s c x).hk = s.hk := rfl
@[simp] theorem setChan_ecc (s : State) (c : Nat) (x : Chan) : (setChan s c x).ecc = s.ecc := rfl
@[simp] theorem setChan_thm (s : State) (c : Nat) (x : Chan) : (setChan s c x).thm = s.thm := rfl
@[simp] theorem setChan_pwr (s : State) (c : Nat) (x : Chan) : (setChan s c x).pwr = s.pwr := rfl
@[simp] theorem setChan_log (s : State) (c : Nat) (x : Chan) : (setChan s c x).log = s.log := rfl
@[simp] theorem setChan_recov (s : State) (c : Nat) (x : Chan) : (setChan s c x).recov = s.recov := rfl
@[simp] theorem setChan_lastFault (s : State) (c : Nat) (x : Chan) : (setChan s c x).lastFault = s.lastFault := rfl
@[simp] theorem setChan_lastInt (s : State) (c : Nat) (x : Chan) : (setChan s c x).lastInt = s.lastInt := rfl
@[simp] theorem setChan_test (s : State) (c : Nat) (x : Chan) : (setChan s c x).test = s.test := rfl
@[simp] theorem setChan_pmu (s : State) (c : Nat) (x : Chan) : (setChan s c x).pmu = s.pmu := rfl
@[simp] theorem setChan_sec (s : State) (c : Nat) (x : Chan) : (setChan s c x).sec = s.sec := rfl
@[simp] theorem setChan_stack (s : State) (c : Nat) (x : Chan) : (setChan s c x).stack = s.stack := rfl
@[simp] theorem setChan_free (s : State) (c : Nat) (x : Chan) : (setChan s c x).free = s.free := rfl
@[simp] theorem setChan_pending (s : State) (c : Nat) (x : Chan) : (setChan s c x).pending = s.pending := rfl

/-! ### modChan -/

@[simp] theorem modChan_part (s : State) (c : Nat) (f : Chan → Chan) : (modChan s c f).part = s.part := rfl
@[simp] theorem modChan_time (s : State) (c : Nat) (f : Chan → Chan) : (modChan s c f).time = s.time := rfl
@[simp] theorem modChan_clk (s : State) (c : Nat) (f : Chan → Chan) : (modChan s c f).clk = s.clk := rfl
@[simp] theorem modChan_blk (s : State) (c : Nat) (f : Chan → Chan) : (modChan s c f).blk = s.blk := rfl
@[simp] theorem modChan_pins (s : State) (c : Nat) (f : Chan → Chan) : (modChan s c f).pins = s.pins := rfl
@[simp] theorem modChan_regs (s : State) (c : Nat) (f : Chan → Chan) : (modChan s c f).regs = s.regs := rfl
@[simp] theorem modChan_ports (s : State) (c : Nat) (f : Chan → Chan) : (modChan s c f).ports = s.ports := rfl
@[simp] theorem modChan_reqs (s : State) (c : Nat) (f : Chan → Chan) : (modChan s c f).reqs = s.reqs := rfl
@[simp] theorem modChan_nextReq (s : State) (c : Nat) (f : Chan → Chan) : (modChan s c f).nextReq = s.nextReq := rfl
@[simp] theorem modChan_rgn (s : State) (c : Nat) (f : Chan → Chan) : (modChan s c f).rgn = s.rgn := rfl
@[simp] theorem modChan_attn (s : State) (c : Nat) (f : Chan → Chan) : (modChan s c f).attn = s.attn := rfl
@[simp] theorem modChan_hdl (s : State) (c : Nat) (f : Chan → Chan) : (modChan s c f).hdl = s.hdl := rfl
@[simp] theorem modChan_arb (s : State) (c : Nat) (f : Chan → Chan) : (modChan s c f).arb = s.arb := rfl
@[simp] theorem modChan_winStart (s : State) (c : Nat) (f : Chan → Chan) : (modChan s c f).winStart = s.winStart := rfl
@[simp] theorem modChan_disp (s : State) (c : Nat) (f : Chan → Chan) : (modChan s c f).disp = s.disp := rfl
@[simp] theorem modChan_octs (s : State) (c : Nat) (f : Chan → Chan) : (modChan s c f).octs = s.octs := rfl
@[simp] theorem modChan_link (s : State) (c : Nat) (f : Chan → Chan) : (modChan s c f).link = s.link := rfl
@[simp] theorem modChan_cals (s : State) (c : Nat) (f : Chan → Chan) : (modChan s c f).cals = s.cals := rfl
@[simp] theorem modChan_hk (s : State) (c : Nat) (f : Chan → Chan) : (modChan s c f).hk = s.hk := rfl
@[simp] theorem modChan_ecc (s : State) (c : Nat) (f : Chan → Chan) : (modChan s c f).ecc = s.ecc := rfl
@[simp] theorem modChan_thm (s : State) (c : Nat) (f : Chan → Chan) : (modChan s c f).thm = s.thm := rfl
@[simp] theorem modChan_pwr (s : State) (c : Nat) (f : Chan → Chan) : (modChan s c f).pwr = s.pwr := rfl
@[simp] theorem modChan_log (s : State) (c : Nat) (f : Chan → Chan) : (modChan s c f).log = s.log := rfl
@[simp] theorem modChan_recov (s : State) (c : Nat) (f : Chan → Chan) : (modChan s c f).recov = s.recov := rfl
@[simp] theorem modChan_lastFault (s : State) (c : Nat) (f : Chan → Chan) : (modChan s c f).lastFault = s.lastFault := rfl
@[simp] theorem modChan_lastInt (s : State) (c : Nat) (f : Chan → Chan) : (modChan s c f).lastInt = s.lastInt := rfl
@[simp] theorem modChan_test (s : State) (c : Nat) (f : Chan → Chan) : (modChan s c f).test = s.test := rfl
@[simp] theorem modChan_pmu (s : State) (c : Nat) (f : Chan → Chan) : (modChan s c f).pmu = s.pmu := rfl
@[simp] theorem modChan_sec (s : State) (c : Nat) (f : Chan → Chan) : (modChan s c f).sec = s.sec := rfl
@[simp] theorem modChan_stack (s : State) (c : Nat) (f : Chan → Chan) : (modChan s c f).stack = s.stack := rfl
@[simp] theorem modChan_free (s : State) (c : Nat) (f : Chan → Chan) : (modChan s c f).free = s.free := rfl
@[simp] theorem modChan_pending (s : State) (c : Nat) (f : Chan → Chan) : (modChan s c f).pending = s.pending := rfl

/-! ### setOct -/

@[simp] theorem setOct_part (s : State) (k : Nat) (x : Oct) : (setOct s k x).part = s.part := rfl
@[simp] theorem setOct_time (s : State) (k : Nat) (x : Oct) : (setOct s k x).time = s.time := rfl
@[simp] theorem setOct_clk (s : State) (k : Nat) (x : Oct) : (setOct s k x).clk = s.clk := rfl
@[simp] theorem setOct_blk (s : State) (k : Nat) (x : Oct) : (setOct s k x).blk = s.blk := rfl
@[simp] theorem setOct_pins (s : State) (k : Nat) (x : Oct) : (setOct s k x).pins = s.pins := rfl
@[simp] theorem setOct_regs (s : State) (k : Nat) (x : Oct) : (setOct s k x).regs = s.regs := rfl
@[simp] theorem setOct_ports (s : State) (k : Nat) (x : Oct) : (setOct s k x).ports = s.ports := rfl
@[simp] theorem setOct_reqs (s : State) (k : Nat) (x : Oct) : (setOct s k x).reqs = s.reqs := rfl
@[simp] theorem setOct_nextReq (s : State) (k : Nat) (x : Oct) : (setOct s k x).nextReq = s.nextReq := rfl
@[simp] theorem setOct_rgn (s : State) (k : Nat) (x : Oct) : (setOct s k x).rgn = s.rgn := rfl
@[simp] theorem setOct_attn (s : State) (k : Nat) (x : Oct) : (setOct s k x).attn = s.attn := rfl
@[simp] theorem setOct_hdl (s : State) (k : Nat) (x : Oct) : (setOct s k x).hdl = s.hdl := rfl
@[simp] theorem setOct_arb (s : State) (k : Nat) (x : Oct) : (setOct s k x).arb = s.arb := rfl
@[simp] theorem setOct_winStart (s : State) (k : Nat) (x : Oct) : (setOct s k x).winStart = s.winStart := rfl
@[simp] theorem setOct_chans (s : State) (k : Nat) (x : Oct) : (setOct s k x).chans = s.chans := rfl
@[simp] theorem setOct_disp (s : State) (k : Nat) (x : Oct) : (setOct s k x).disp = s.disp := rfl
@[simp] theorem setOct_link (s : State) (k : Nat) (x : Oct) : (setOct s k x).link = s.link := rfl
@[simp] theorem setOct_cals (s : State) (k : Nat) (x : Oct) : (setOct s k x).cals = s.cals := rfl
@[simp] theorem setOct_hk (s : State) (k : Nat) (x : Oct) : (setOct s k x).hk = s.hk := rfl
@[simp] theorem setOct_ecc (s : State) (k : Nat) (x : Oct) : (setOct s k x).ecc = s.ecc := rfl
@[simp] theorem setOct_thm (s : State) (k : Nat) (x : Oct) : (setOct s k x).thm = s.thm := rfl
@[simp] theorem setOct_pwr (s : State) (k : Nat) (x : Oct) : (setOct s k x).pwr = s.pwr := rfl
@[simp] theorem setOct_log (s : State) (k : Nat) (x : Oct) : (setOct s k x).log = s.log := rfl
@[simp] theorem setOct_recov (s : State) (k : Nat) (x : Oct) : (setOct s k x).recov = s.recov := rfl
@[simp] theorem setOct_lastFault (s : State) (k : Nat) (x : Oct) : (setOct s k x).lastFault = s.lastFault := rfl
@[simp] theorem setOct_lastInt (s : State) (k : Nat) (x : Oct) : (setOct s k x).lastInt = s.lastInt := rfl
@[simp] theorem setOct_test (s : State) (k : Nat) (x : Oct) : (setOct s k x).test = s.test := rfl
@[simp] theorem setOct_pmu (s : State) (k : Nat) (x : Oct) : (setOct s k x).pmu = s.pmu := rfl
@[simp] theorem setOct_sec (s : State) (k : Nat) (x : Oct) : (setOct s k x).sec = s.sec := rfl
@[simp] theorem setOct_stack (s : State) (k : Nat) (x : Oct) : (setOct s k x).stack = s.stack := rfl
@[simp] theorem setOct_free (s : State) (k : Nat) (x : Oct) : (setOct s k x).free = s.free := rfl
@[simp] theorem setOct_pending (s : State) (k : Nat) (x : Oct) : (setOct s k x).pending = s.pending := rfl

/-! ### modOct -/

@[simp] theorem modOct_part (s : State) (k : Nat) (f : Oct → Oct) : (modOct s k f).part = s.part := rfl
@[simp] theorem modOct_time (s : State) (k : Nat) (f : Oct → Oct) : (modOct s k f).time = s.time := rfl
@[simp] theorem modOct_clk (s : State) (k : Nat) (f : Oct → Oct) : (modOct s k f).clk = s.clk := rfl
@[simp] theorem modOct_blk (s : State) (k : Nat) (f : Oct → Oct) : (modOct s k f).blk = s.blk := rfl
@[simp] theorem modOct_pins (s : State) (k : Nat) (f : Oct → Oct) : (modOct s k f).pins = s.pins := rfl
@[simp] theorem modOct_regs (s : State) (k : Nat) (f : Oct → Oct) : (modOct s k f).regs = s.regs := rfl
@[simp] theorem modOct_ports (s : State) (k : Nat) (f : Oct → Oct) : (modOct s k f).ports = s.ports := rfl
@[simp] theorem modOct_reqs (s : State) (k : Nat) (f : Oct → Oct) : (modOct s k f).reqs = s.reqs := rfl
@[simp] theorem modOct_nextReq (s : State) (k : Nat) (f : Oct → Oct) : (modOct s k f).nextReq = s.nextReq := rfl
@[simp] theorem modOct_rgn (s : State) (k : Nat) (f : Oct → Oct) : (modOct s k f).rgn = s.rgn := rfl
@[simp] theorem modOct_attn (s : State) (k : Nat) (f : Oct → Oct) : (modOct s k f).attn = s.attn := rfl
@[simp] theorem modOct_hdl (s : State) (k : Nat) (f : Oct → Oct) : (modOct s k f).hdl = s.hdl := rfl
@[simp] theorem modOct_arb (s : State) (k : Nat) (f : Oct → Oct) : (modOct s k f).arb = s.arb := rfl
@[simp] theorem modOct_winStart (s : State) (k : Nat) (f : Oct → Oct) : (modOct s k f).winStart = s.winStart := rfl
@[simp] theorem modOct_chans (s : State) (k : Nat) (f : Oct → Oct) : (modOct s k f).chans = s.chans := rfl
@[simp] theorem modOct_disp (s : State) (k : Nat) (f : Oct → Oct) : (modOct s k f).disp = s.disp := rfl
@[simp] theorem modOct_link (s : State) (k : Nat) (f : Oct → Oct) : (modOct s k f).link = s.link := rfl
@[simp] theorem modOct_cals (s : State) (k : Nat) (f : Oct → Oct) : (modOct s k f).cals = s.cals := rfl
@[simp] theorem modOct_hk (s : State) (k : Nat) (f : Oct → Oct) : (modOct s k f).hk = s.hk := rfl
@[simp] theorem modOct_ecc (s : State) (k : Nat) (f : Oct → Oct) : (modOct s k f).ecc = s.ecc := rfl
@[simp] theorem modOct_thm (s : State) (k : Nat) (f : Oct → Oct) : (modOct s k f).thm = s.thm := rfl
@[simp] theorem modOct_pwr (s : State) (k : Nat) (f : Oct → Oct) : (modOct s k f).pwr = s.pwr := rfl
@[simp] theorem modOct_log (s : State) (k : Nat) (f : Oct → Oct) : (modOct s k f).log = s.log := rfl
@[simp] theorem modOct_recov (s : State) (k : Nat) (f : Oct → Oct) : (modOct s k f).recov = s.recov := rfl
@[simp] theorem modOct_lastFault (s : State) (k : Nat) (f : Oct → Oct) : (modOct s k f).lastFault = s.lastFault := rfl
@[simp] theorem modOct_lastInt (s : State) (k : Nat) (f : Oct → Oct) : (modOct s k f).lastInt = s.lastInt := rfl
@[simp] theorem modOct_test (s : State) (k : Nat) (f : Oct → Oct) : (modOct s k f).test = s.test := rfl
@[simp] theorem modOct_pmu (s : State) (k : Nat) (f : Oct → Oct) : (modOct s k f).pmu = s.pmu := rfl
@[simp] theorem modOct_sec (s : State) (k : Nat) (f : Oct → Oct) : (modOct s k f).sec = s.sec := rfl
@[simp] theorem modOct_stack (s : State) (k : Nat) (f : Oct → Oct) : (modOct s k f).stack = s.stack := rfl
@[simp] theorem modOct_free (s : State) (k : Nat) (f : Oct → Oct) : (modOct s k f).free = s.free := rfl
@[simp] theorem modOct_pending (s : State) (k : Nat) (f : Oct → Oct) : (modOct s k f).pending = s.pending := rfl

/-! ### setCal -/

@[simp] theorem setCal_part (s : State) (n : Nat) (x : CalEng) : (setCal s n x).part = s.part := rfl
@[simp] theorem setCal_time (s : State) (n : Nat) (x : CalEng) : (setCal s n x).time = s.time := rfl
@[simp] theorem setCal_clk (s : State) (n : Nat) (x : CalEng) : (setCal s n x).clk = s.clk := rfl
@[simp] theorem setCal_blk (s : State) (n : Nat) (x : CalEng) : (setCal s n x).blk = s.blk := rfl
@[simp] theorem setCal_pins (s : State) (n : Nat) (x : CalEng) : (setCal s n x).pins = s.pins := rfl
@[simp] theorem setCal_regs (s : State) (n : Nat) (x : CalEng) : (setCal s n x).regs = s.regs := rfl
@[simp] theorem setCal_ports (s : State) (n : Nat) (x : CalEng) : (setCal s n x).ports = s.ports := rfl
@[simp] theorem setCal_reqs (s : State) (n : Nat) (x : CalEng) : (setCal s n x).reqs = s.reqs := rfl
@[simp] theorem setCal_nextReq (s : State) (n : Nat) (x : CalEng) : (setCal s n x).nextReq = s.nextReq := rfl
@[simp] theorem setCal_rgn (s : State) (n : Nat) (x : CalEng) : (setCal s n x).rgn = s.rgn := rfl
@[simp] theorem setCal_attn (s : State) (n : Nat) (x : CalEng) : (setCal s n x).attn = s.attn := rfl
@[simp] theorem setCal_hdl (s : State) (n : Nat) (x : CalEng) : (setCal s n x).hdl = s.hdl := rfl
@[simp] theorem setCal_arb (s : State) (n : Nat) (x : CalEng) : (setCal s n x).arb = s.arb := rfl
@[simp] theorem setCal_winStart (s : State) (n : Nat) (x : CalEng) : (setCal s n x).winStart = s.winStart := rfl
@[simp] theorem setCal_chans (s : State) (n : Nat) (x : CalEng) : (setCal s n x).chans = s.chans := rfl
@[simp] theorem setCal_disp (s : State) (n : Nat) (x : CalEng) : (setCal s n x).disp = s.disp := rfl
@[simp] theorem setCal_octs (s : State) (n : Nat) (x : CalEng) : (setCal s n x).octs = s.octs := rfl
@[simp] theorem setCal_link (s : State) (n : Nat) (x : CalEng) : (setCal s n x).link = s.link := rfl
@[simp] theorem setCal_hk (s : State) (n : Nat) (x : CalEng) : (setCal s n x).hk = s.hk := rfl
@[simp] theorem setCal_ecc (s : State) (n : Nat) (x : CalEng) : (setCal s n x).ecc = s.ecc := rfl
@[simp] theorem setCal_thm (s : State) (n : Nat) (x : CalEng) : (setCal s n x).thm = s.thm := rfl
@[simp] theorem setCal_pwr (s : State) (n : Nat) (x : CalEng) : (setCal s n x).pwr = s.pwr := rfl
@[simp] theorem setCal_log (s : State) (n : Nat) (x : CalEng) : (setCal s n x).log = s.log := rfl
@[simp] theorem setCal_recov (s : State) (n : Nat) (x : CalEng) : (setCal s n x).recov = s.recov := rfl
@[simp] theorem setCal_lastFault (s : State) (n : Nat) (x : CalEng) : (setCal s n x).lastFault = s.lastFault := rfl
@[simp] theorem setCal_lastInt (s : State) (n : Nat) (x : CalEng) : (setCal s n x).lastInt = s.lastInt := rfl
@[simp] theorem setCal_test (s : State) (n : Nat) (x : CalEng) : (setCal s n x).test = s.test := rfl
@[simp] theorem setCal_pmu (s : State) (n : Nat) (x : CalEng) : (setCal s n x).pmu = s.pmu := rfl
@[simp] theorem setCal_sec (s : State) (n : Nat) (x : CalEng) : (setCal s n x).sec = s.sec := rfl
@[simp] theorem setCal_stack (s : State) (n : Nat) (x : CalEng) : (setCal s n x).stack = s.stack := rfl
@[simp] theorem setCal_free (s : State) (n : Nat) (x : CalEng) : (setCal s n x).free = s.free := rfl
@[simp] theorem setCal_pending (s : State) (n : Nat) (x : CalEng) : (setCal s n x).pending = s.pending := rfl

/-! ### setStk -/

@[simp] theorem setStk_part (s : State) (c : Nat) (x : StkChan) : (setStk s c x).part = s.part := rfl
@[simp] theorem setStk_time (s : State) (c : Nat) (x : StkChan) : (setStk s c x).time = s.time := rfl
@[simp] theorem setStk_clk (s : State) (c : Nat) (x : StkChan) : (setStk s c x).clk = s.clk := rfl
@[simp] theorem setStk_blk (s : State) (c : Nat) (x : StkChan) : (setStk s c x).blk = s.blk := rfl
@[simp] theorem setStk_pins (s : State) (c : Nat) (x : StkChan) : (setStk s c x).pins = s.pins := rfl
@[simp] theorem setStk_regs (s : State) (c : Nat) (x : StkChan) : (setStk s c x).regs = s.regs := rfl
@[simp] theorem setStk_ports (s : State) (c : Nat) (x : StkChan) : (setStk s c x).ports = s.ports := rfl
@[simp] theorem setStk_reqs (s : State) (c : Nat) (x : StkChan) : (setStk s c x).reqs = s.reqs := rfl
@[simp] theorem setStk_nextReq (s : State) (c : Nat) (x : StkChan) : (setStk s c x).nextReq = s.nextReq := rfl
@[simp] theorem setStk_rgn (s : State) (c : Nat) (x : StkChan) : (setStk s c x).rgn = s.rgn := rfl
@[simp] theorem setStk_attn (s : State) (c : Nat) (x : StkChan) : (setStk s c x).attn = s.attn := rfl
@[simp] theorem setStk_hdl (s : State) (c : Nat) (x : StkChan) : (setStk s c x).hdl = s.hdl := rfl
@[simp] theorem setStk_arb (s : State) (c : Nat) (x : StkChan) : (setStk s c x).arb = s.arb := rfl
@[simp] theorem setStk_winStart (s : State) (c : Nat) (x : StkChan) : (setStk s c x).winStart = s.winStart := rfl
@[simp] theorem setStk_chans (s : State) (c : Nat) (x : StkChan) : (setStk s c x).chans = s.chans := rfl
@[simp] theorem setStk_disp (s : State) (c : Nat) (x : StkChan) : (setStk s c x).disp = s.disp := rfl
@[simp] theorem setStk_octs (s : State) (c : Nat) (x : StkChan) : (setStk s c x).octs = s.octs := rfl
@[simp] theorem setStk_link (s : State) (c : Nat) (x : StkChan) : (setStk s c x).link = s.link := rfl
@[simp] theorem setStk_cals (s : State) (c : Nat) (x : StkChan) : (setStk s c x).cals = s.cals := rfl
@[simp] theorem setStk_hk (s : State) (c : Nat) (x : StkChan) : (setStk s c x).hk = s.hk := rfl
@[simp] theorem setStk_ecc (s : State) (c : Nat) (x : StkChan) : (setStk s c x).ecc = s.ecc := rfl
@[simp] theorem setStk_thm (s : State) (c : Nat) (x : StkChan) : (setStk s c x).thm = s.thm := rfl
@[simp] theorem setStk_pwr (s : State) (c : Nat) (x : StkChan) : (setStk s c x).pwr = s.pwr := rfl
@[simp] theorem setStk_log (s : State) (c : Nat) (x : StkChan) : (setStk s c x).log = s.log := rfl
@[simp] theorem setStk_recov (s : State) (c : Nat) (x : StkChan) : (setStk s c x).recov = s.recov := rfl
@[simp] theorem setStk_lastFault (s : State) (c : Nat) (x : StkChan) : (setStk s c x).lastFault = s.lastFault := rfl
@[simp] theorem setStk_lastInt (s : State) (c : Nat) (x : StkChan) : (setStk s c x).lastInt = s.lastInt := rfl
@[simp] theorem setStk_test (s : State) (c : Nat) (x : StkChan) : (setStk s c x).test = s.test := rfl
@[simp] theorem setStk_pmu (s : State) (c : Nat) (x : StkChan) : (setStk s c x).pmu = s.pmu := rfl
@[simp] theorem setStk_sec (s : State) (c : Nat) (x : StkChan) : (setStk s c x).sec = s.sec := rfl
@[simp] theorem setStk_free (s : State) (c : Nat) (x : StkChan) : (setStk s c x).free = s.free := rfl
@[simp] theorem setStk_pending (s : State) (c : Nat) (x : StkChan) : (setStk s c x).pending = s.pending := rfl

/-! ### modStk -/

@[simp] theorem modStk_part (s : State) (c : Nat) (f : StkChan → StkChan) : (modStk s c f).part = s.part := rfl
@[simp] theorem modStk_time (s : State) (c : Nat) (f : StkChan → StkChan) : (modStk s c f).time = s.time := rfl
@[simp] theorem modStk_clk (s : State) (c : Nat) (f : StkChan → StkChan) : (modStk s c f).clk = s.clk := rfl
@[simp] theorem modStk_blk (s : State) (c : Nat) (f : StkChan → StkChan) : (modStk s c f).blk = s.blk := rfl
@[simp] theorem modStk_pins (s : State) (c : Nat) (f : StkChan → StkChan) : (modStk s c f).pins = s.pins := rfl
@[simp] theorem modStk_regs (s : State) (c : Nat) (f : StkChan → StkChan) : (modStk s c f).regs = s.regs := rfl
@[simp] theorem modStk_ports (s : State) (c : Nat) (f : StkChan → StkChan) : (modStk s c f).ports = s.ports := rfl
@[simp] theorem modStk_reqs (s : State) (c : Nat) (f : StkChan → StkChan) : (modStk s c f).reqs = s.reqs := rfl
@[simp] theorem modStk_nextReq (s : State) (c : Nat) (f : StkChan → StkChan) : (modStk s c f).nextReq = s.nextReq := rfl
@[simp] theorem modStk_rgn (s : State) (c : Nat) (f : StkChan → StkChan) : (modStk s c f).rgn = s.rgn := rfl
@[simp] theorem modStk_attn (s : State) (c : Nat) (f : StkChan → StkChan) : (modStk s c f).attn = s.attn := rfl
@[simp] theorem modStk_hdl (s : State) (c : Nat) (f : StkChan → StkChan) : (modStk s c f).hdl = s.hdl := rfl
@[simp] theorem modStk_arb (s : State) (c : Nat) (f : StkChan → StkChan) : (modStk s c f).arb = s.arb := rfl
@[simp] theorem modStk_winStart (s : State) (c : Nat) (f : StkChan → StkChan) : (modStk s c f).winStart = s.winStart := rfl
@[simp] theorem modStk_chans (s : State) (c : Nat) (f : StkChan → StkChan) : (modStk s c f).chans = s.chans := rfl
@[simp] theorem modStk_disp (s : State) (c : Nat) (f : StkChan → StkChan) : (modStk s c f).disp = s.disp := rfl
@[simp] theorem modStk_octs (s : State) (c : Nat) (f : StkChan → StkChan) : (modStk s c f).octs = s.octs := rfl
@[simp] theorem modStk_link (s : State) (c : Nat) (f : StkChan → StkChan) : (modStk s c f).link = s.link := rfl
@[simp] theorem modStk_cals (s : State) (c : Nat) (f : StkChan → StkChan) : (modStk s c f).cals = s.cals := rfl
@[simp] theorem modStk_hk (s : State) (c : Nat) (f : StkChan → StkChan) : (modStk s c f).hk = s.hk := rfl
@[simp] theorem modStk_ecc (s : State) (c : Nat) (f : StkChan → StkChan) : (modStk s c f).ecc = s.ecc := rfl
@[simp] theorem modStk_thm (s : State) (c : Nat) (f : StkChan → StkChan) : (modStk s c f).thm = s.thm := rfl
@[simp] theorem modStk_pwr (s : State) (c : Nat) (f : StkChan → StkChan) : (modStk s c f).pwr = s.pwr := rfl
@[simp] theorem modStk_log (s : State) (c : Nat) (f : StkChan → StkChan) : (modStk s c f).log = s.log := rfl
@[simp] theorem modStk_recov (s : State) (c : Nat) (f : StkChan → StkChan) : (modStk s c f).recov = s.recov := rfl
@[simp] theorem modStk_lastFault (s : State) (c : Nat) (f : StkChan → StkChan) : (modStk s c f).lastFault = s.lastFault := rfl
@[simp] theorem modStk_lastInt (s : State) (c : Nat) (f : StkChan → StkChan) : (modStk s c f).lastInt = s.lastInt := rfl
@[simp] theorem modStk_test (s : State) (c : Nat) (f : StkChan → StkChan) : (modStk s c f).test = s.test := rfl
@[simp] theorem modStk_pmu (s : State) (c : Nat) (f : StkChan → StkChan) : (modStk s c f).pmu = s.pmu := rfl
@[simp] theorem modStk_sec (s : State) (c : Nat) (f : StkChan → StkChan) : (modStk s c f).sec = s.sec := rfl
@[simp] theorem modStk_free (s : State) (c : Nat) (f : StkChan → StkChan) : (modStk s c f).free = s.free := rfl
@[simp] theorem modStk_pending (s : State) (c : Nat) (f : StkChan → StkChan) : (modStk s c f).pending = s.pending := rfl

/-! ### modReq -/

@[simp] theorem modReq_part (s : State) (id : Nat) (f : Req → Req) : (modReq s id f).part = s.part := rfl
@[simp] theorem modReq_time (s : State) (id : Nat) (f : Req → Req) : (modReq s id f).time = s.time := rfl
@[simp] theorem modReq_clk (s : State) (id : Nat) (f : Req → Req) : (modReq s id f).clk = s.clk := rfl
@[simp] theorem modReq_blk (s : State) (id : Nat) (f : Req → Req) : (modReq s id f).blk = s.blk := rfl
@[simp] theorem modReq_pins (s : State) (id : Nat) (f : Req → Req) : (modReq s id f).pins = s.pins := rfl
@[simp] theorem modReq_regs (s : State) (id : Nat) (f : Req → Req) : (modReq s id f).regs = s.regs := rfl
@[simp] theorem modReq_ports (s : State) (id : Nat) (f : Req → Req) : (modReq s id f).ports = s.ports := rfl
@[simp] theorem modReq_nextReq (s : State) (id : Nat) (f : Req → Req) : (modReq s id f).nextReq = s.nextReq := rfl
@[simp] theorem modReq_rgn (s : State) (id : Nat) (f : Req → Req) : (modReq s id f).rgn = s.rgn := rfl
@[simp] theorem modReq_attn (s : State) (id : Nat) (f : Req → Req) : (modReq s id f).attn = s.attn := rfl
@[simp] theorem modReq_hdl (s : State) (id : Nat) (f : Req → Req) : (modReq s id f).hdl = s.hdl := rfl
@[simp] theorem modReq_arb (s : State) (id : Nat) (f : Req → Req) : (modReq s id f).arb = s.arb := rfl
@[simp] theorem modReq_winStart (s : State) (id : Nat) (f : Req → Req) : (modReq s id f).winStart = s.winStart := rfl
@[simp] theorem modReq_chans (s : State) (id : Nat) (f : Req → Req) : (modReq s id f).chans = s.chans := rfl
@[simp] theorem modReq_disp (s : State) (id : Nat) (f : Req → Req) : (modReq s id f).disp = s.disp := rfl
@[simp] theorem modReq_octs (s : State) (id : Nat) (f : Req → Req) : (modReq s id f).octs = s.octs := rfl
@[simp] theorem modReq_link (s : State) (id : Nat) (f : Req → Req) : (modReq s id f).link = s.link := rfl
@[simp] theorem modReq_cals (s : State) (id : Nat) (f : Req → Req) : (modReq s id f).cals = s.cals := rfl
@[simp] theorem modReq_hk (s : State) (id : Nat) (f : Req → Req) : (modReq s id f).hk = s.hk := rfl
@[simp] theorem modReq_ecc (s : State) (id : Nat) (f : Req → Req) : (modReq s id f).ecc = s.ecc := rfl
@[simp] theorem modReq_thm (s : State) (id : Nat) (f : Req → Req) : (modReq s id f).thm = s.thm := rfl
@[simp] theorem modReq_pwr (s : State) (id : Nat) (f : Req → Req) : (modReq s id f).pwr = s.pwr := rfl
@[simp] theorem modReq_log (s : State) (id : Nat) (f : Req → Req) : (modReq s id f).log = s.log := rfl
@[simp] theorem modReq_recov (s : State) (id : Nat) (f : Req → Req) : (modReq s id f).recov = s.recov := rfl
@[simp] theorem modReq_lastFault (s : State) (id : Nat) (f : Req → Req) : (modReq s id f).lastFault = s.lastFault := rfl
@[simp] theorem modReq_lastInt (s : State) (id : Nat) (f : Req → Req) : (modReq s id f).lastInt = s.lastInt := rfl
@[simp] theorem modReq_test (s : State) (id : Nat) (f : Req → Req) : (modReq s id f).test = s.test := rfl
@[simp] theorem modReq_pmu (s : State) (id : Nat) (f : Req → Req) : (modReq s id f).pmu = s.pmu := rfl
@[simp] theorem modReq_sec (s : State) (id : Nat) (f : Req → Req) : (modReq s id f).sec = s.sec := rfl
@[simp] theorem modReq_stack (s : State) (id : Nat) (f : Req → Req) : (modReq s id f).stack = s.stack := rfl
@[simp] theorem modReq_free (s : State) (id : Nat) (f : Req → Req) : (modReq s id f).free = s.free := rfl
@[simp] theorem modReq_pending (s : State) (id : Nat) (f : Req → Req) : (modReq s id f).pending = s.pending := rfl

/-! ### setReg -/

@[simp] theorem setReg_part (s : State) (p o : Nat) (w : Word) : (setReg s p o w).part = s.part := rfl
@[simp] theorem setReg_time (s : State) (p o : Nat) (w : Word) : (setReg s p o w).time = s.time := rfl
@[simp] theorem setReg_clk (s : State) (p o : Nat) (w : Word) : (setReg s p o w).clk = s.clk := rfl
@[simp] theorem setReg_blk (s : State) (p o : Nat) (w : Word) : (setReg s p o w).blk = s.blk := rfl
@[simp] theorem setReg_pins (s : State) (p o : Nat) (w : Word) : (setReg s p o w).pins = s.pins := rfl
@[simp] theorem setReg_ports (s : State) (p o : Nat) (w : Word) : (setReg s p o w).ports = s.ports := rfl
@[simp] theorem setReg_reqs (s : State) (p o : Nat) (w : Word) : (setReg s p o w).reqs = s.reqs := rfl
@[simp] theorem setReg_nextReq (s : State) (p o : Nat) (w : Word) : (setReg s p o w).nextReq = s.nextReq := rfl
@[simp] theorem setReg_rgn (s : State) (p o : Nat) (w : Word) : (setReg s p o w).rgn = s.rgn := rfl
@[simp] theorem setReg_attn (s : State) (p o : Nat) (w : Word) : (setReg s p o w).attn = s.attn := rfl
@[simp] theorem setReg_hdl (s : State) (p o : Nat) (w : Word) : (setReg s p o w).hdl = s.hdl := rfl
@[simp] theorem setReg_arb (s : State) (p o : Nat) (w : Word) : (setReg s p o w).arb = s.arb := rfl
@[simp] theorem setReg_winStart (s : State) (p o : Nat) (w : Word) : (setReg s p o w).winStart = s.winStart := rfl
@[simp] theorem setReg_chans (s : State) (p o : Nat) (w : Word) : (setReg s p o w).chans = s.chans := rfl
@[simp] theorem setReg_disp (s : State) (p o : Nat) (w : Word) : (setReg s p o w).disp = s.disp := rfl
@[simp] theorem setReg_octs (s : State) (p o : Nat) (w : Word) : (setReg s p o w).octs = s.octs := rfl
@[simp] theorem setReg_link (s : State) (p o : Nat) (w : Word) : (setReg s p o w).link = s.link := rfl
@[simp] theorem setReg_cals (s : State) (p o : Nat) (w : Word) : (setReg s p o w).cals = s.cals := rfl
@[simp] theorem setReg_hk (s : State) (p o : Nat) (w : Word) : (setReg s p o w).hk = s.hk := rfl
@[simp] theorem setReg_ecc (s : State) (p o : Nat) (w : Word) : (setReg s p o w).ecc = s.ecc := rfl
@[simp] theorem setReg_thm (s : State) (p o : Nat) (w : Word) : (setReg s p o w).thm = s.thm := rfl
@[simp] theorem setReg_pwr (s : State) (p o : Nat) (w : Word) : (setReg s p o w).pwr = s.pwr := rfl
@[simp] theorem setReg_log (s : State) (p o : Nat) (w : Word) : (setReg s p o w).log = s.log := rfl
@[simp] theorem setReg_recov (s : State) (p o : Nat) (w : Word) : (setReg s p o w).recov = s.recov := rfl
@[simp] theorem setReg_lastFault (s : State) (p o : Nat) (w : Word) : (setReg s p o w).lastFault = s.lastFault := rfl
@[simp] theorem setReg_lastInt (s : State) (p o : Nat) (w : Word) : (setReg s p o w).lastInt = s.lastInt := rfl
@[simp] theorem setReg_test (s : State) (p o : Nat) (w : Word) : (setReg s p o w).test = s.test := rfl
@[simp] theorem setReg_pmu (s : State) (p o : Nat) (w : Word) : (setReg s p o w).pmu = s.pmu := rfl
@[simp] theorem setReg_sec (s : State) (p o : Nat) (w : Word) : (setReg s p o w).sec = s.sec := rfl
@[simp] theorem setReg_stack (s : State) (p o : Nat) (w : Word) : (setReg s p o w).stack = s.stack := rfl
@[simp] theorem setReg_free (s : State) (p o : Nat) (w : Word) : (setReg s p o w).free = s.free := rfl
@[simp] theorem setReg_pending (s : State) (p o : Nat) (w : Word) : (setReg s p o w).pending = s.pending := rfl

/-! ### setRegF -/

@[simp] theorem setRegF_part (s : State) (p o l w v : Nat) : (setRegF s p o l w v).part = s.part := rfl
@[simp] theorem setRegF_time (s : State) (p o l w v : Nat) : (setRegF s p o l w v).time = s.time := rfl
@[simp] theorem setRegF_clk (s : State) (p o l w v : Nat) : (setRegF s p o l w v).clk = s.clk := rfl
@[simp] theorem setRegF_blk (s : State) (p o l w v : Nat) : (setRegF s p o l w v).blk = s.blk := rfl
@[simp] theorem setRegF_pins (s : State) (p o l w v : Nat) : (setRegF s p o l w v).pins = s.pins := rfl
@[simp] theorem setRegF_ports (s : State) (p o l w v : Nat) : (setRegF s p o l w v).ports = s.ports := rfl
@[simp] theorem setRegF_reqs (s : State) (p o l w v : Nat) : (setRegF s p o l w v).reqs = s.reqs := rfl
@[simp] theorem setRegF_nextReq (s : State) (p o l w v : Nat) : (setRegF s p o l w v).nextReq = s.nextReq := rfl
@[simp] theorem setRegF_rgn (s : State) (p o l w v : Nat) : (setRegF s p o l w v).rgn = s.rgn := rfl
@[simp] theorem setRegF_attn (s : State) (p o l w v : Nat) : (setRegF s p o l w v).attn = s.attn := rfl
@[simp] theorem setRegF_hdl (s : State) (p o l w v : Nat) : (setRegF s p o l w v).hdl = s.hdl := rfl
@[simp] theorem setRegF_arb (s : State) (p o l w v : Nat) : (setRegF s p o l w v).arb = s.arb := rfl
@[simp] theorem setRegF_winStart (s : State) (p o l w v : Nat) : (setRegF s p o l w v).winStart = s.winStart := rfl
@[simp] theorem setRegF_chans (s : State) (p o l w v : Nat) : (setRegF s p o l w v).chans = s.chans := rfl
@[simp] theorem setRegF_disp (s : State) (p o l w v : Nat) : (setRegF s p o l w v).disp = s.disp := rfl
@[simp] theorem setRegF_octs (s : State) (p o l w v : Nat) : (setRegF s p o l w v).octs = s.octs := rfl
@[simp] theorem setRegF_link (s : State) (p o l w v : Nat) : (setRegF s p o l w v).link = s.link := rfl
@[simp] theorem setRegF_cals (s : State) (p o l w v : Nat) : (setRegF s p o l w v).cals = s.cals := rfl
@[simp] theorem setRegF_hk (s : State) (p o l w v : Nat) : (setRegF s p o l w v).hk = s.hk := rfl
@[simp] theorem setRegF_ecc (s : State) (p o l w v : Nat) : (setRegF s p o l w v).ecc = s.ecc := rfl
@[simp] theorem setRegF_thm (s : State) (p o l w v : Nat) : (setRegF s p o l w v).thm = s.thm := rfl
@[simp] theorem setRegF_pwr (s : State) (p o l w v : Nat) : (setRegF s p o l w v).pwr = s.pwr := rfl
@[simp] theorem setRegF_log (s : State) (p o l w v : Nat) : (setRegF s p o l w v).log = s.log := rfl
@[simp] theorem setRegF_recov (s : State) (p o l w v : Nat) : (setRegF s p o l w v).recov = s.recov := rfl
@[simp] theorem setRegF_lastFault (s : State) (p o l w v : Nat) : (setRegF s p o l w v).lastFault = s.lastFault := rfl
@[simp] theorem setRegF_lastInt (s : State) (p o l w v : Nat) : (setRegF s p o l w v).lastInt = s.lastInt := rfl
@[simp] theorem setRegF_test (s : State) (p o l w v : Nat) : (setRegF s p o l w v).test = s.test := rfl
@[simp] theorem setRegF_pmu (s : State) (p o l w v : Nat) : (setRegF s p o l w v).pmu = s.pmu := rfl
@[simp] theorem setRegF_sec (s : State) (p o l w v : Nat) : (setRegF s p o l w v).sec = s.sec := rfl
@[simp] theorem setRegF_stack (s : State) (p o l w v : Nat) : (setRegF s p o l w v).stack = s.stack := rfl
@[simp] theorem setRegF_free (s : State) (p o l w v : Nat) : (setRegF s p o l w v).free = s.free := rfl
@[simp] theorem setRegF_pending (s : State) (p o l w v : Nat) : (setRegF s p o l w v).pending = s.pending := rfl

/-! ### bumpReg -/

@[simp] theorem bumpReg_part (s : State) (p o l w v : Nat) : (bumpReg s p o l w v).part = s.part := rfl
@[simp] theorem bumpReg_time (s : State) (p o l w v : Nat) : (bumpReg s p o l w v).time = s.time := rfl
@[simp] theorem bumpReg_clk (s : State) (p o l w v : Nat) : (bumpReg s p o l w v).clk = s.clk := rfl
@[simp] theorem bumpReg_blk (s : State) (p o l w v : Nat) : (bumpReg s p o l w v).blk = s.blk := rfl
@[simp] theorem bumpReg_pins (s : State) (p o l w v : Nat) : (bumpReg s p o l w v).pins = s.pins := rfl
@[simp] theorem bumpReg_ports (s : State) (p o l w v : Nat) : (bumpReg s p o l w v).ports = s.ports := rfl
@[simp] theorem bumpReg_reqs (s : State) (p o l w v : Nat) : (bumpReg s p o l w v).reqs = s.reqs := rfl
@[simp] theorem bumpReg_nextReq (s : State) (p o l w v : Nat) : (bumpReg s p o l w v).nextReq = s.nextReq := rfl
@[simp] theorem bumpReg_rgn (s : State) (p o l w v : Nat) : (bumpReg s p o l w v).rgn = s.rgn := rfl
@[simp] theorem bumpReg_attn (s : State) (p o l w v : Nat) : (bumpReg s p o l w v).attn = s.attn := rfl
@[simp] theorem bumpReg_hdl (s : State) (p o l w v : Nat) : (bumpReg s p o l w v).hdl = s.hdl := rfl
@[simp] theorem bumpReg_arb (s : State) (p o l w v : Nat) : (bumpReg s p o l w v).arb = s.arb := rfl
@[simp] theorem bumpReg_winStart (s : State) (p o l w v : Nat) : (bumpReg s p o l w v).winStart = s.winStart := rfl
@[simp] theorem bumpReg_chans (s : State) (p o l w v : Nat) : (bumpReg s p o l w v).chans = s.chans := rfl
@[simp] theorem bumpReg_disp (s : State) (p o l w v : Nat) : (bumpReg s p o l w v).disp = s.disp := rfl
@[simp] theorem bumpReg_octs (s : State) (p o l w v : Nat) : (bumpReg s p o l w v).octs = s.octs := rfl
@[simp] theorem bumpReg_link (s : State) (p o l w v : Nat) : (bumpReg s p o l w v).link = s.link := rfl
@[simp] theorem bumpReg_cals (s : State) (p o l w v : Nat) : (bumpReg s p o l w v).cals = s.cals := rfl
@[simp] theorem bumpReg_hk (s : State) (p o l w v : Nat) : (bumpReg s p o l w v).hk = s.hk := rfl
@[simp] theorem bumpReg_ecc (s : State) (p o l w v : Nat) : (bumpReg s p o l w v).ecc = s.ecc := rfl
@[simp] theorem bumpReg_thm (s : State) (p o l w v : Nat) : (bumpReg s p o l w v).thm = s.thm := rfl
@[simp] theorem bumpReg_pwr (s : State) (p o l w v : Nat) : (bumpReg s p o l w v).pwr = s.pwr := rfl
@[simp] theorem bumpReg_log (s : State) (p o l w v : Nat) : (bumpReg s p o l w v).log = s.log := rfl
@[simp] theorem bumpReg_recov (s : State) (p o l w v : Nat) : (bumpReg s p o l w v).recov = s.recov := rfl
@[simp] theorem bumpReg_lastFault (s : State) (p o l w v : Nat) : (bumpReg s p o l w v).lastFault = s.lastFault := rfl
@[simp] theorem bumpReg_lastInt (s : State) (p o l w v : Nat) : (bumpReg s p o l w v).lastInt = s.lastInt := rfl
@[simp] theorem bumpReg_test (s : State) (p o l w v : Nat) : (bumpReg s p o l w v).test = s.test := rfl
@[simp] theorem bumpReg_pmu (s : State) (p o l w v : Nat) : (bumpReg s p o l w v).pmu = s.pmu := rfl
@[simp] theorem bumpReg_sec (s : State) (p o l w v : Nat) : (bumpReg s p o l w v).sec = s.sec := rfl
@[simp] theorem bumpReg_stack (s : State) (p o l w v : Nat) : (bumpReg s p o l w v).stack = s.stack := rfl
@[simp] theorem bumpReg_free (s : State) (p o l w v : Nat) : (bumpReg s p o l w v).free = s.free := rfl
@[simp] theorem bumpReg_pending (s : State) (p o l w v : Nat) : (bumpReg s p o l w v).pending = s.pending := rfl

/-! ### takeFree -/

@[simp] theorem takeFree_part (w : Nat) (s : State) : (takeFree w s).2.part = s.part := rfl
@[simp] theorem takeFree_time (w : Nat) (s : State) : (takeFree w s).2.time = s.time := rfl
@[simp] theorem takeFree_clk (w : Nat) (s : State) : (takeFree w s).2.clk = s.clk := rfl
@[simp] theorem takeFree_blk (w : Nat) (s : State) : (takeFree w s).2.blk = s.blk := rfl
@[simp] theorem takeFree_pins (w : Nat) (s : State) : (takeFree w s).2.pins = s.pins := rfl
@[simp] theorem takeFree_regs (w : Nat) (s : State) : (takeFree w s).2.regs = s.regs := rfl
@[simp] theorem takeFree_ports (w : Nat) (s : State) : (takeFree w s).2.ports = s.ports := rfl
@[simp] theorem takeFree_reqs (w : Nat) (s : State) : (takeFree w s).2.reqs = s.reqs := rfl
@[simp] theorem takeFree_nextReq (w : Nat) (s : State) : (takeFree w s).2.nextReq = s.nextReq := rfl
@[simp] theorem takeFree_rgn (w : Nat) (s : State) : (takeFree w s).2.rgn = s.rgn := rfl
@[simp] theorem takeFree_attn (w : Nat) (s : State) : (takeFree w s).2.attn = s.attn := rfl
@[simp] theorem takeFree_hdl (w : Nat) (s : State) : (takeFree w s).2.hdl = s.hdl := rfl
@[simp] theorem takeFree_arb (w : Nat) (s : State) : (takeFree w s).2.arb = s.arb := rfl
@[simp] theorem takeFree_winStart (w : Nat) (s : State) : (takeFree w s).2.winStart = s.winStart := rfl
@[simp] theorem takeFree_chans (w : Nat) (s : State) : (takeFree w s).2.chans = s.chans := rfl
@[simp] theorem takeFree_disp (w : Nat) (s : State) : (takeFree w s).2.disp = s.disp := rfl
@[simp] theorem takeFree_octs (w : Nat) (s : State) : (takeFree w s).2.octs = s.octs := rfl
@[simp] theorem takeFree_link (w : Nat) (s : State) : (takeFree w s).2.link = s.link := rfl
@[simp] theorem takeFree_cals (w : Nat) (s : State) : (takeFree w s).2.cals = s.cals := rfl
@[simp] theorem takeFree_hk (w : Nat) (s : State) : (takeFree w s).2.hk = s.hk := rfl
@[simp] theorem takeFree_ecc (w : Nat) (s : State) : (takeFree w s).2.ecc = s.ecc := rfl
@[simp] theorem takeFree_thm (w : Nat) (s : State) : (takeFree w s).2.thm = s.thm := rfl
@[simp] theorem takeFree_pwr (w : Nat) (s : State) : (takeFree w s).2.pwr = s.pwr := rfl
@[simp] theorem takeFree_log (w : Nat) (s : State) : (takeFree w s).2.log = s.log := rfl
@[simp] theorem takeFree_recov (w : Nat) (s : State) : (takeFree w s).2.recov = s.recov := rfl
@[simp] theorem takeFree_lastFault (w : Nat) (s : State) : (takeFree w s).2.lastFault = s.lastFault := rfl
@[simp] theorem takeFree_lastInt (w : Nat) (s : State) : (takeFree w s).2.lastInt = s.lastInt := rfl
@[simp] theorem takeFree_test (w : Nat) (s : State) : (takeFree w s).2.test = s.test := rfl
@[simp] theorem takeFree_pmu (w : Nat) (s : State) : (takeFree w s).2.pmu = s.pmu := rfl
@[simp] theorem takeFree_sec (w : Nat) (s : State) : (takeFree w s).2.sec = s.sec := rfl
@[simp] theorem takeFree_stack (w : Nat) (s : State) : (takeFree w s).2.stack = s.stack := rfl
@[simp] theorem takeFree_pending (w : Nat) (s : State) : (takeFree w s).2.pending = s.pending := rfl

/-! ### setCounter -/

@[simp] theorem setCounter_part (s : State) (j : Nat) (v : BitVec 48) : (setCounter s j v).part = s.part := rfl
@[simp] theorem setCounter_time (s : State) (j : Nat) (v : BitVec 48) : (setCounter s j v).time = s.time := rfl
@[simp] theorem setCounter_clk (s : State) (j : Nat) (v : BitVec 48) : (setCounter s j v).clk = s.clk := rfl
@[simp] theorem setCounter_blk (s : State) (j : Nat) (v : BitVec 48) : (setCounter s j v).blk = s.blk := rfl
@[simp] theorem setCounter_pins (s : State) (j : Nat) (v : BitVec 48) : (setCounter s j v).pins = s.pins := rfl
@[simp] theorem setCounter_regs (s : State) (j : Nat) (v : BitVec 48) : (setCounter s j v).regs = s.regs := rfl
@[simp] theorem setCounter_ports (s : State) (j : Nat) (v : BitVec 48) : (setCounter s j v).ports = s.ports := rfl
@[simp] theorem setCounter_reqs (s : State) (j : Nat) (v : BitVec 48) : (setCounter s j v).reqs = s.reqs := rfl
@[simp] theorem setCounter_nextReq (s : State) (j : Nat) (v : BitVec 48) : (setCounter s j v).nextReq = s.nextReq := rfl
@[simp] theorem setCounter_rgn (s : State) (j : Nat) (v : BitVec 48) : (setCounter s j v).rgn = s.rgn := rfl
@[simp] theorem setCounter_attn (s : State) (j : Nat) (v : BitVec 48) : (setCounter s j v).attn = s.attn := rfl
@[simp] theorem setCounter_hdl (s : State) (j : Nat) (v : BitVec 48) : (setCounter s j v).hdl = s.hdl := rfl
@[simp] theorem setCounter_arb (s : State) (j : Nat) (v : BitVec 48) : (setCounter s j v).arb = s.arb := rfl
@[simp] theorem setCounter_winStart (s : State) (j : Nat) (v : BitVec 48) : (setCounter s j v).winStart = s.winStart := rfl
@[simp] theorem setCounter_chans (s : State) (j : Nat) (v : BitVec 48) : (setCounter s j v).chans = s.chans := rfl
@[simp] theorem setCounter_disp (s : State) (j : Nat) (v : BitVec 48) : (setCounter s j v).disp = s.disp := rfl
@[simp] theorem setCounter_octs (s : State) (j : Nat) (v : BitVec 48) : (setCounter s j v).octs = s.octs := rfl
@[simp] theorem setCounter_link (s : State) (j : Nat) (v : BitVec 48) : (setCounter s j v).link = s.link := rfl
@[simp] theorem setCounter_cals (s : State) (j : Nat) (v : BitVec 48) : (setCounter s j v).cals = s.cals := rfl
@[simp] theorem setCounter_hk (s : State) (j : Nat) (v : BitVec 48) : (setCounter s j v).hk = s.hk := rfl
@[simp] theorem setCounter_ecc (s : State) (j : Nat) (v : BitVec 48) : (setCounter s j v).ecc = s.ecc := rfl
@[simp] theorem setCounter_thm (s : State) (j : Nat) (v : BitVec 48) : (setCounter s j v).thm = s.thm := rfl
@[simp] theorem setCounter_pwr (s : State) (j : Nat) (v : BitVec 48) : (setCounter s j v).pwr = s.pwr := rfl
@[simp] theorem setCounter_log (s : State) (j : Nat) (v : BitVec 48) : (setCounter s j v).log = s.log := rfl
@[simp] theorem setCounter_recov (s : State) (j : Nat) (v : BitVec 48) : (setCounter s j v).recov = s.recov := rfl
@[simp] theorem setCounter_lastFault (s : State) (j : Nat) (v : BitVec 48) : (setCounter s j v).lastFault = s.lastFault := rfl
@[simp] theorem setCounter_lastInt (s : State) (j : Nat) (v : BitVec 48) : (setCounter s j v).lastInt = s.lastInt := rfl
@[simp] theorem setCounter_test (s : State) (j : Nat) (v : BitVec 48) : (setCounter s j v).test = s.test := rfl
@[simp] theorem setCounter_sec (s : State) (j : Nat) (v : BitVec 48) : (setCounter s j v).sec = s.sec := rfl
@[simp] theorem setCounter_stack (s : State) (j : Nat) (v : BitVec 48) : (setCounter s j v).stack = s.stack := rfl
@[simp] theorem setCounter_free (s : State) (j : Nat) (v : BitVec 48) : (setCounter s j v).free = s.free := rfl
@[simp] theorem setCounter_pending (s : State) (j : Nat) (v : BitVec 48) : (setCounter s j v).pending = s.pending := rfl

/-! ### dropReq -/

@[simp] theorem dropReq_part (s : State) (id : Nat) : (dropReq s id).part = s.part := rfl
@[simp] theorem dropReq_time (s : State) (id : Nat) : (dropReq s id).time = s.time := rfl
@[simp] theorem dropReq_clk (s : State) (id : Nat) : (dropReq s id).clk = s.clk := rfl
@[simp] theorem dropReq_blk (s : State) (id : Nat) : (dropReq s id).blk = s.blk := rfl
@[simp] theorem dropReq_pins (s : State) (id : Nat) : (dropReq s id).pins = s.pins := rfl
@[simp] theorem dropReq_regs (s : State) (id : Nat) : (dropReq s id).regs = s.regs := rfl
@[simp] theorem dropReq_ports (s : State) (id : Nat) : (dropReq s id).ports = s.ports := rfl
@[simp] theorem dropReq_nextReq (s : State) (id : Nat) : (dropReq s id).nextReq = s.nextReq := rfl
@[simp] theorem dropReq_rgn (s : State) (id : Nat) : (dropReq s id).rgn = s.rgn := rfl
@[simp] theorem dropReq_attn (s : State) (id : Nat) : (dropReq s id).attn = s.attn := rfl
@[simp] theorem dropReq_hdl (s : State) (id : Nat) : (dropReq s id).hdl = s.hdl := rfl
@[simp] theorem dropReq_arb (s : State) (id : Nat) : (dropReq s id).arb = s.arb := rfl
@[simp] theorem dropReq_winStart (s : State) (id : Nat) : (dropReq s id).winStart = s.winStart := rfl
@[simp] theorem dropReq_chans (s : State) (id : Nat) : (dropReq s id).chans = s.chans := rfl
@[simp] theorem dropReq_disp (s : State) (id : Nat) : (dropReq s id).disp = s.disp := rfl
@[simp] theorem dropReq_octs (s : State) (id : Nat) : (dropReq s id).octs = s.octs := rfl
@[simp] theorem dropReq_link (s : State) (id : Nat) : (dropReq s id).link = s.link := rfl
@[simp] theorem dropReq_cals (s : State) (id : Nat) : (dropReq s id).cals = s.cals := rfl
@[simp] theorem dropReq_hk (s : State) (id : Nat) : (dropReq s id).hk = s.hk := rfl
@[simp] theorem dropReq_ecc (s : State) (id : Nat) : (dropReq s id).ecc = s.ecc := rfl
@[simp] theorem dropReq_thm (s : State) (id : Nat) : (dropReq s id).thm = s.thm := rfl
@[simp] theorem dropReq_pwr (s : State) (id : Nat) : (dropReq s id).pwr = s.pwr := rfl
@[simp] theorem dropReq_log (s : State) (id : Nat) : (dropReq s id).log = s.log := rfl
@[simp] theorem dropReq_recov (s : State) (id : Nat) : (dropReq s id).recov = s.recov := rfl
@[simp] theorem dropReq_lastFault (s : State) (id : Nat) : (dropReq s id).lastFault = s.lastFault := rfl
@[simp] theorem dropReq_lastInt (s : State) (id : Nat) : (dropReq s id).lastInt = s.lastInt := rfl
@[simp] theorem dropReq_test (s : State) (id : Nat) : (dropReq s id).test = s.test := rfl
@[simp] theorem dropReq_pmu (s : State) (id : Nat) : (dropReq s id).pmu = s.pmu := rfl
@[simp] theorem dropReq_sec (s : State) (id : Nat) : (dropReq s id).sec = s.sec := rfl
@[simp] theorem dropReq_stack (s : State) (id : Nat) : (dropReq s id).stack = s.stack := rfl
@[simp] theorem dropReq_free (s : State) (id : Nat) : (dropReq s id).free = s.free := rfl
@[simp] theorem dropReq_pending (s : State) (id : Nat) : (dropReq s id).pending = s.pending := rfl

/-! ### Units read back -/

@[simp] theorem port_setPort (s : State) (p : Nat) (x : Port) : port (setPort s p x) p = x := Tab.get_put_self _ _ _ _
theorem port_setPort_other (s : State) (p q : Nat) (x : Port) (h : q ≠ p) : port (setPort s p x) q = port s q :=
  Tab.get_put_other _ _ _ _ _ h
@[simp] theorem port_modPort (s : State) (p : Nat) (f : Port → Port) : port (modPort s p f) p = f (port s p) :=
  port_setPort _ _ _
theorem port_modPort_other (s : State) (p q : Nat) (f : Port → Port) (h : q ≠ p) : port (modPort s p f) q = port s q :=
  port_setPort_other _ _ _ _ h
@[simp] theorem chan_setChan (s : State) (c : Nat) (x : Chan) : chan (setChan s c x) c = x := Tab.get_put_self _ _ _ _
theorem chan_setChan_other (s : State) (c e : Nat) (x : Chan) (h : e ≠ c) : chan (setChan s c x) e = chan s e :=
  Tab.get_put_other _ _ _ _ _ h
@[simp] theorem chan_modChan (s : State) (c : Nat) (f : Chan → Chan) : chan (modChan s c f) c = f (chan s c) :=
  chan_setChan _ _ _
theorem chan_modChan_other (s : State) (c e : Nat) (f : Chan → Chan) (h : e ≠ c) : chan (modChan s c f) e = chan s e :=
  chan_setChan_other _ _ _ _ h
@[simp] theorem oct_setOct (s : State) (k : Nat) (x : Oct) : oct (setOct s k x) k = x := Tab.get_put_self _ _ _ _
theorem oct_setOct_other (s : State) (k j : Nat) (x : Oct) (h : j ≠ k) : oct (setOct s k x) j = oct s j :=
  Tab.get_put_other _ _ _ _ _ h
@[simp] theorem oct_modOct (s : State) (k : Nat) (f : Oct → Oct) : oct (modOct s k f) k = f (oct s k) := oct_setOct _ _ _
@[simp] theorem cal_setCal (s : State) (n : Nat) (x : CalEng) : cal (setCal s n x) n = x := Tab.get_put_self _ _ _ _
theorem cal_setCal_other (s : State) (n m : Nat) (x : CalEng) (h : m ≠ n) : cal (setCal s n x) m = cal s m :=
  Tab.get_put_other _ _ _ _ _ h
@[simp] theorem stk_setStk (s : State) (c : Nat) (x : StkChan) : stk (setStk s c x) c = x := Tab.get_put_self _ _ _ _
theorem stk_setStk_other (s : State) (c e : Nat) (x : StkChan) (h : e ≠ c) : stk (setStk s c x) e = stk s e :=
  Tab.get_put_other _ _ _ _ _ h
@[simp] theorem stk_modStk (s : State) (c : Nat) (f : StkChan → StkChan) : stk (modStk s c f) c = f (stk s c) :=
  stk_setStk _ _ _
theorem stk_modStk_other (s : State) (c e : Nat) (f : StkChan → StkChan) (h : e ≠ c) : stk (modStk s c f) e = stk s e :=
  stk_setStk_other _ _ _ _ h

/-! ### Units that an update of another kind leaves alone -/

@[simp] theorem chan_setPort (s : State) (p : Nat) (x : Port) (i : Nat) : chan (setPort s p x) i = chan s i := rfl
@[simp] theorem oct_setPort (s : State) (p : Nat) (x : Port) (i : Nat) : oct (setPort s p x) i = oct s i := rfl
@[simp] theorem cal_setPort (s : State) (p : Nat) (x : Port) (i : Nat) : cal (setPort s p x) i = cal s i := rfl
@[simp] theorem stk_setPort (s : State) (p : Nat) (x : Port) (i : Nat) : stk (setPort s p x) i = stk s i := rfl
@[simp] theorem chan_modPort (s : State) (p : Nat) (f : Port → Port) (i : Nat) : chan (modPort s p f) i = chan s i := rfl
@[simp] theorem oct_modPort (s : State) (p : Nat) (f : Port → Port) (i : Nat) : oct (modPort s p f) i = oct s i := rfl
@[simp] theorem cal_modPort (s : State) (p : Nat) (f : Port → Port) (i : Nat) : cal (modPort s p f) i = cal s i := rfl
@[simp] theorem stk_modPort (s : State) (p : Nat) (f : Port → Port) (i : Nat) : stk (modPort s p f) i = stk s i := rfl
@[simp] theorem port_setChan (s : State) (c : Nat) (x : Chan) (i : Nat) : port (setChan s c x) i = port s i := rfl
@[simp] theorem oct_setChan (s : State) (c : Nat) (x : Chan) (i : Nat) : oct (setChan s c x) i = oct s i := rfl
@[simp] theorem cal_setChan (s : State) (c : Nat) (x : Chan) (i : Nat) : cal (setChan s c x) i = cal s i := rfl
@[simp] theorem stk_setChan (s : State) (c : Nat) (x : Chan) (i : Nat) : stk (setChan s c x) i = stk s i := rfl
@[simp] theorem port_modChan (s : State) (c : Nat) (f : Chan → Chan) (i : Nat) : port (modChan s c f) i = port s i := rfl
@[simp] theorem oct_modChan (s : State) (c : Nat) (f : Chan → Chan) (i : Nat) : oct (modChan s c f) i = oct s i := rfl
@[simp] theorem cal_modChan (s : State) (c : Nat) (f : Chan → Chan) (i : Nat) : cal (modChan s c f) i = cal s i := rfl
@[simp] theorem stk_modChan (s : State) (c : Nat) (f : Chan → Chan) (i : Nat) : stk (modChan s c f) i = stk s i := rfl
@[simp] theorem port_setOct (s : State) (k : Nat) (x : Oct) (i : Nat) : port (setOct s k x) i = port s i := rfl
@[simp] theorem chan_setOct (s : State) (k : Nat) (x : Oct) (i : Nat) : chan (setOct s k x) i = chan s i := rfl
@[simp] theorem cal_setOct (s : State) (k : Nat) (x : Oct) (i : Nat) : cal (setOct s k x) i = cal s i := rfl
@[simp] theorem stk_setOct (s : State) (k : Nat) (x : Oct) (i : Nat) : stk (setOct s k x) i = stk s i := rfl
@[simp] theorem port_modOct (s : State) (k : Nat) (f : Oct → Oct) (i : Nat) : port (modOct s k f) i = port s i := rfl
@[simp] theorem chan_modOct (s : State) (k : Nat) (f : Oct → Oct) (i : Nat) : chan (modOct s k f) i = chan s i := rfl
@[simp] theorem cal_modOct (s : State) (k : Nat) (f : Oct → Oct) (i : Nat) : cal (modOct s k f) i = cal s i := rfl
@[simp] theorem stk_modOct (s : State) (k : Nat) (f : Oct → Oct) (i : Nat) : stk (modOct s k f) i = stk s i := rfl
@[simp] theorem port_setCal (s : State) (n : Nat) (x : CalEng) (i : Nat) : port (setCal s n x) i = port s i := rfl
@[simp] theorem chan_setCal (s : State) (n : Nat) (x : CalEng) (i : Nat) : chan (setCal s n x) i = chan s i := rfl
@[simp] theorem oct_setCal (s : State) (n : Nat) (x : CalEng) (i : Nat) : oct (setCal s n x) i = oct s i := rfl
@[simp] theorem stk_setCal (s : State) (n : Nat) (x : CalEng) (i : Nat) : stk (setCal s n x) i = stk s i := rfl
@[simp] theorem port_setStk (s : State) (c : Nat) (x : StkChan) (i : Nat) : port (setStk s c x) i = port s i := rfl
@[simp] theorem chan_setStk (s : State) (c : Nat) (x : StkChan) (i : Nat) : chan (setStk s c x) i = chan s i := rfl
@[simp] theorem oct_setStk (s : State) (c : Nat) (x : StkChan) (i : Nat) : oct (setStk s c x) i = oct s i := rfl
@[simp] theorem cal_setStk (s : State) (c : Nat) (x : StkChan) (i : Nat) : cal (setStk s c x) i = cal s i := rfl
@[simp] theorem port_modStk (s : State) (c : Nat) (f : StkChan → StkChan) (i : Nat) : port (modStk s c f) i = port s i := rfl
@[simp] theorem chan_modStk (s : State) (c : Nat) (f : StkChan → StkChan) (i : Nat) : chan (modStk s c f) i = chan s i := rfl
@[simp] theorem oct_modStk (s : State) (c : Nat) (f : StkChan → StkChan) (i : Nat) : oct (modStk s c f) i = oct s i := rfl
@[simp] theorem cal_modStk (s : State) (c : Nat) (f : StkChan → StkChan) (i : Nat) : cal (modStk s c f) i = cal s i := rfl
@[simp] theorem port_modReq (s : State) (id : Nat) (f : Req → Req) (i : Nat) : port (modReq s id f) i = port s i := rfl
@[simp] theorem chan_modReq (s : State) (id : Nat) (f : Req → Req) (i : Nat) : chan (modReq s id f) i = chan s i := rfl
@[simp] theorem oct_modReq (s : State) (id : Nat) (f : Req → Req) (i : Nat) : oct (modReq s id f) i = oct s i := rfl
@[simp] theorem cal_modReq (s : State) (id : Nat) (f : Req → Req) (i : Nat) : cal (modReq s id f) i = cal s i := rfl
@[simp] theorem stk_modReq (s : State) (id : Nat) (f : Req → Req) (i : Nat) : stk (modReq s id f) i = stk s i := rfl
@[simp] theorem port_setReg (s : State) (p o : Nat) (w : Word) (i : Nat) : port (setReg s p o w) i = port s i := rfl
@[simp] theorem chan_setReg (s : State) (p o : Nat) (w : Word) (i : Nat) : chan (setReg s p o w) i = chan s i := rfl
@[simp] theorem oct_setReg (s : State) (p o : Nat) (w : Word) (i : Nat) : oct (setReg s p o w) i = oct s i := rfl
@[simp] theorem cal_setReg (s : State) (p o : Nat) (w : Word) (i : Nat) : cal (setReg s p o w) i = cal s i := rfl
@[simp] theorem stk_setReg (s : State) (p o : Nat) (w : Word) (i : Nat) : stk (setReg s p o w) i = stk s i := rfl
@[simp] theorem port_setRegF (s : State) (p o l w v : Nat) (i : Nat) : port (setRegF s p o l w v) i = port s i := rfl
@[simp] theorem chan_setRegF (s : State) (p o l w v : Nat) (i : Nat) : chan (setRegF s p o l w v) i = chan s i := rfl
@[simp] theorem oct_setRegF (s : State) (p o l w v : Nat) (i : Nat) : oct (setRegF s p o l w v) i = oct s i := rfl
@[simp] theorem cal_setRegF (s : State) (p o l w v : Nat) (i : Nat) : cal (setRegF s p o l w v) i = cal s i := rfl
@[simp] theorem stk_setRegF (s : State) (p o l w v : Nat) (i : Nat) : stk (setRegF s p o l w v) i = stk s i := rfl
@[simp] theorem port_bumpReg (s : State) (p o l w v : Nat) (i : Nat) : port (bumpReg s p o l w v) i = port s i := rfl
@[simp] theorem chan_bumpReg (s : State) (p o l w v : Nat) (i : Nat) : chan (bumpReg s p o l w v) i = chan s i := rfl
@[simp] theorem oct_bumpReg (s : State) (p o l w v : Nat) (i : Nat) : oct (bumpReg s p o l w v) i = oct s i := rfl
@[simp] theorem cal_bumpReg (s : State) (p o l w v : Nat) (i : Nat) : cal (bumpReg s p o l w v) i = cal s i := rfl
@[simp] theorem stk_bumpReg (s : State) (p o l w v : Nat) (i : Nat) : stk (bumpReg s p o l w v) i = stk s i := rfl
@[simp] theorem port_takeFree (w : Nat) (s : State) (i : Nat) : port (takeFree w s).2 i = port s i := rfl
@[simp] theorem chan_takeFree (w : Nat) (s : State) (i : Nat) : chan (takeFree w s).2 i = chan s i := rfl
@[simp] theorem oct_takeFree (w : Nat) (s : State) (i : Nat) : oct (takeFree w s).2 i = oct s i := rfl
@[simp] theorem cal_takeFree (w : Nat) (s : State) (i : Nat) : cal (takeFree w s).2 i = cal s i := rfl
@[simp] theorem stk_takeFree (w : Nat) (s : State) (i : Nat) : stk (takeFree w s).2 i = stk s i := rfl
@[simp] theorem port_setCounter (s : State) (j : Nat) (v : BitVec 48) (i : Nat) : port (setCounter s j v) i = port s i := rfl
@[simp] theorem chan_setCounter (s : State) (j : Nat) (v : BitVec 48) (i : Nat) : chan (setCounter s j v) i = chan s i := rfl
@[simp] theorem oct_setCounter (s : State) (j : Nat) (v : BitVec 48) (i : Nat) : oct (setCounter s j v) i = oct s i := rfl
@[simp] theorem cal_setCounter (s : State) (j : Nat) (v : BitVec 48) (i : Nat) : cal (setCounter s j v) i = cal s i := rfl
@[simp] theorem stk_setCounter (s : State) (j : Nat) (v : BitVec 48) (i : Nat) : stk (setCounter s j v) i = stk s i := rfl
@[simp] theorem port_dropReq (s : State) (id : Nat) (i : Nat) : port (dropReq s id) i = port s i := rfl
@[simp] theorem chan_dropReq (s : State) (id : Nat) (i : Nat) : chan (dropReq s id) i = chan s i := rfl
@[simp] theorem oct_dropReq (s : State) (id : Nat) (i : Nat) : oct (dropReq s id) i = oct s i := rfl
@[simp] theorem cal_dropReq (s : State) (id : Nat) (i : Nat) : cal (dropReq s id) i = cal s i := rfl
@[simp] theorem stk_dropReq (s : State) (id : Nat) (i : Nat) : stk (dropReq s id) i = stk s i := rfl

/-! ### Stored registers -/

@[simp] theorem reg_setReg (s : State) (p o : Nat) (w : Word) : reg (setReg s p o w) p o = w := by
  unfold reg setReg
  simp only [Tab.find_put_self]

theorem reg_setReg_other (s : State) (p o q r : Nat) (w : Word) (h : regKey q r ≠ regKey p o) :
    reg (setReg s p o w) q r = reg s q r := by
  unfold reg setReg
  simp only [Tab.find_put_other _ _ _ _ h]
  rfl

/-! ### The stack's memory -/

@[simp] theorem arrRead_modChan (s : State) (i : Nat) (f : Chan → Chan) (c : Nat) (sp : Bool) (b r k : Nat) :
    arrRead (modChan s i f) c sp b r k = arrRead s c sp b r k := rfl
@[simp] theorem vbufRead_modChan (s : State) (i : Nat) (f : Chan → Chan) (c k : Nat) :
    vbufRead (modChan s i f) c k = vbufRead s c k := rfl

end Sys2Proof.Machine
end

