-- ==== Sys2Proof/Laws/Memory.lean ====
section
/-! SUPPORT. The operations that store into the stack's memory keep its canonical form, and reset has it. -/

set_option Elab.async false

namespace Sys2Proof.Machine

theorem wf_iff (s : State) : MemorySound s ↔
    ∀ c < 64, ramWf (arrDflt s.stack c) (stk s c).array = true ∧ ramWf (vbufDflt s.stack c) (stk s c).vbuf = true := by
  simp only [MemorySound, Memory.wf, List.all_eq_true, List.mem_range, Bool.and_eq_true]
  rfl

theorem reset_memory_wf : MemorySound State.reset := by
  rw [wf_iff]
  intro c _
  exact ⟨rfl, rfl⟩

/-- What an unlisted granule reads as depends on the memory alone. -/
theorem arrDflt_mem {s t : State} (h : mem t = mem s) (c : Nat) : arrDflt t.stack c = arrDflt s.stack c := by
  have h1 : t.stack.base = s.stack.base := congrArg (fun m => m.1) h
  have h2 : t.stack.gen = s.stack.gen := congrArg (fun m => m.2.1) h
  funext k
  unfold arrDflt
  rw [h1, h2]

theorem vbufDflt_mem {s t : State} (h : mem t = mem s) (c : Nat) : vbufDflt t.stack c = vbufDflt s.stack c := by
  have h2 : t.stack.gen = s.stack.gen := congrArg (fun m => m.2.1) h
  funext k
  unfold vbufDflt
  rw [h2]

theorem stk_mem {s t : State} (h : mem t = mem s) (c : Nat) : (stk t c).array = (stk s c).array ∧ (stk t c).vbuf = (stk s c).vbuf := by
  have h3 := congrFun (congrArg (fun m => m.2.2) h) c
  exact ⟨congrArg Prod.fst h3, congrArg Prod.snd h3⟩

/-- An operation that keeps the memory keeps what every read of it gives. -/
theorem arrRead_mem {s t : State} (h : mem t = mem s) (c : Nat) (sp : Bool) (b r k : Nat) :
    arrRead t c sp b r k = arrRead s c sp b r k := by
  unfold arrRead
  rw [(stk_mem h c).1, arrDflt_mem h c]

theorem vbufRead_mem {s t : State} (h : mem t = mem s) (c k : Nat) : vbufRead t c k = vbufRead s c k := by
  unfold vbufRead
  rw [(stk_mem h c).2, vbufDflt_mem h c]

/-- An operation that keeps the memory keeps its form. -/
theorem wf_mem {s t : State} (h : mem t = mem s) (w : MemorySound s) : MemorySound t := by
  rw [wf_iff] at w ⊢
  intro c hc
  rw [arrDflt_mem h, vbufDflt_mem h, (stk_mem h c).1, (stk_mem h c).2]
  exact w c hc

theorem wf_stack {s t : State} (h : t.stack = s.stack) (w : MemorySound s) : MemorySound t := by
  unfold MemorySound
  rw [h]
  exact w

theorem wf_foldl {α : Type} (f : State → α → State) (l : List α) (s : State)
    (h : ∀ t x, MemorySound t → MemorySound (f t x)) (w : MemorySound s) :
    MemorySound (l.foldl f s) := by
  induction l generalizing s with
  | nil => exact w
  | cons x l ih => exact ih _ (h s x w)

theorem wf_ite {c : Prop} [Decidable c] {t u : State} (h : MemorySound t) (g : MemorySound u) :
    MemorySound (if c then t else u) := by
  split
  · exact h
  · exact g

/-- A change of one channel that keeps the form of its stores. -/
theorem modStk_wf (s : State) (c : Nat) (f : StkChan → StkChan)
    (h1 : ramWf (arrDflt s.stack c) (stk s c).array = true → ramWf (arrDflt s.stack c) (f (stk s c)).array = true)
    (h2 : ramWf (vbufDflt s.stack c) (stk s c).vbuf = true → ramWf (vbufDflt s.stack c) (f (stk s c)).vbuf = true)
    (w : MemorySound s) : MemorySound (modStk s c f) := by
  rw [wf_iff] at w ⊢
  intro i hi
  have ha : arrDflt (modStk s c f).stack = arrDflt s.stack := rfl
  have hv : vbufDflt (modStk s c f).stack = vbufDflt s.stack := rfl
  rw [ha, hv]
  by_cases e : i = c
  · subst e
    rw [stk_modStk]
    exact ⟨h1 (w i hi).1, h2 (w i hi).2⟩
  · rw [stk_modStk_other _ _ _ _ e]
    exact w i hi

theorem arrStore_wf (s : State) (c : Nat) (sp : Bool) (b r k : Nat) (d : Sector) (w : MemorySound s) :
    MemorySound (modStk s c (fun x => arrWrite s.stack c x sp b r k d)) :=
  modStk_wf s c _ (arrWrite_wf s.stack c _ sp b r k d) id w

/-- A sector stored in a vector buffer of a state whose memory has the same background. -/
theorem vbufStore_wf {s t : State} (hb : t.stack.gen = s.stack.gen) (c k : Nat) (d : Sector) (w : MemorySound t) :
    MemorySound (modStk t c (fun x => vbufWrite s.stack c x k d)) := by
  have hv : vbufDflt t.stack c = vbufDflt s.stack c := by funext i; unfold vbufDflt; rw [hb]
  refine modStk_wf t c _ id ?_ w
  rw [hv]
  exact vbufWrite_wf s.stack c _ k d

theorem stkWrite_wf (s : State) (p : Place) (d : Sector) (w : MemorySound s) :
    MemorySound (stkWrite s p d) := by
  unfold stkWrite
  dsimp only
  split
  · exact w
  · exact arrStore_wf _ _ _ _ _ _ _ w
  · exact arrStore_wf _ _ _ _ _ _ _ w

theorem scrambleWrote_wf (s : State) (ps : List Place) (w : MemorySound s) :
    MemorySound (scrambleWrote s ps) :=
  wf_foldl _ _ _ (fun t _ h => stkWrite_wf _ _ _ (wf_mem (takeFree_mem 256 t) h)) w

theorem abortCtx_wf (s : State) (c ctx : Nat) (w : MemorySound s) : MemorySound (abortCtx s c ctx) := by
  unfold abortCtx
  dsimp only
  refine wf_ite w (modStk_wf _ _ _ id id ?_)
  exact wf_ite w (scrambleWrote_wf _ _ w)

/-- Outputs that move into their area keep the form. -/
theorem fillOuts_wf (s : State) (c ctx : Nat) (w : MemorySound s) : MemorySound (fillOuts s c ctx) := by
  unfold fillOuts
  extract_lets v n u
  refine modStk_wf u c _ id id ?_
  suffices H : ∀ (l : List (Sector × Nat)) (t : State), t.stack.gen = s.stack.gen → MemorySound t →
      MemorySound (l.foldl (fun t e =>
        modStk t c (fun y => vbufWrite s.stack c y (v.outOfs + (v.head + v.ready + e.2) % v.outLen) e.1)) t) from H _ s rfl w
  intro l
  induction l with
  | nil => exact fun t _ h => h
  | cons e l ih => exact fun t hg h => ih _ hg (vbufStore_wf hg c _ _ h)

theorem startSlice_wf (s : State) (c ctx : Nat) (banks : BitVec 16) (tokens : List Nat) (limit npos : Nat)
    (w : MemorySound s) : MemorySound (startSlice s c ctx banks tokens limit npos) := by
  unfold startSlice
  extract_lets pb
  split
  extract_lets reads vce dst u v x
  have hu : MemorySound u := wf_mem (modStk_mem s c _ (fun y => sliceActs_held y _)) w
  have hv : MemorySound v := wf_foldl _ _ _ (fun t _ h => stkWrite_wf t _ _ h) hu
  have hx : MemorySound x := wf_stack (s := v) rfl hv
  exact fillOuts_wf _ _ _ (wf_mem (modStk_mem x c _ (by intro y; rfl)) hx)

/-! ### Row commands -/

/-- A row command keeps the form if what it does does. -/
theorem stkRowCmd_wf {s : State} (c : Nat) (a : Bool) {f : State → State} (h : MemorySound s → MemorySound (f s))
    (w : MemorySound s) : MemorySound (stkRowCmd s c a f) := wf_ite w (h w)

theorem doSls_wf (c : Nat) (ctx : Fin 2) (banks : BitVec 16) (s : State) (w : MemorySound s) : MemorySound (doSls c ctx banks s) := by
  refine stkRowCmd_wf c false (fun w => ?_) w
  refine wf_ite (wf_mem (enterAlert_mem _ _ _) w) ?_
  split
  · exact startSlice_wf _ _ _ _ _ _ _ w
  · exact startSlice_wf _ _ _ _ _ _ _ w

theorem doSlx_wf (c : Nat) (ctx : Fin 2) (s : State) (w : MemorySound s) : MemorySound (doSlx c ctx s) :=
  stkRowCmd_wf c false (abortCtx_wf s c ctx) w

theorem doRsync_wf (c : Nat) (s : State) (w : MemorySound s) : MemorySound (doRsync c s) :=
  stkRowCmd_wf c true (fun w => wf_mem (modStk_mem _ c _ (by intro y; rfl)) (abortCtx_wf _ _ _ (abortCtx_wf _ _ _ w))) w

/-- Every row command keeps the form, executed as it decodes. -/
theorem rowEffect_wf (c t : Nat) (i : Instr) (s : State) (w : MemorySound s) : MemorySound (rowEffect c t i s) := by
  unfold rowEffect
  split
  · exact wf_mem (doAct_mem ..) w
  · exact wf_mem (doPre_mem ..) w
  · exact wf_mem (doRef_mem ..) w
  · exact wf_mem (doNrf_mem ..) w
  · exact doSls_wf _ _ _ _ w
  · exact wf_mem (doSlp_mem ..) w
  · exact wf_mem (doSlr_mem ..) w
  · exact doSlx_wf _ _ _ w
  · exact wf_mem (doSre_mem ..) w
  · exact wf_mem (doSrx_mem ..) w
  · exact wf_mem (doPde_mem ..) w
  · exact wf_mem (doPdx_mem ..) w
  · exact doRsync_wf _ _ w
  · exact wf_mem (doLane_mem ..) w
  · exact w

theorem rowGarbled_wf (s : State) (c : Fin 64) (t : Nat) (rx : WireRx 27) (w : MemorySound s) :
    MemorySound (rowGarbled s c t rx) := by
  have h : MemorySound (if stkAwake s c then noteFixed s c rx.fixed else s) := wf_ite (wf_mem (noteFixed_mem _ _ _) w) w
  unfold rowGarbled
  extract_lets u
  refine wf_ite (wf_mem (breach_mem _ _ _) h) ?_
  split
  · exact rowEffect_wf _ _ _ _ h
  · exact wf_mem (breach_mem _ _ _) h

theorem onRowWires_wf (s : State) (c : Fin 64) (i : Instr) (err : BitVec 64) {f : Nat → State → State}
    (h : ∀ t u, MemorySound u → MemorySound (f t u)) (w : MemorySound s) : MemorySound (onRowWires s c i err f) := by
  have g : MemorySound (takeRow s c i) := wf_mem (takeRow_mem _ _ _) w
  exact wf_ite (h _ _ g) (rowGarbled_wf _ _ _ _ g)

/-! ### Column commands -/

theorem stkReadCmd_wf (s : State) (c t o g : Nat) {f : State → State} (h : ∀ u, MemorySound u → MemorySound (f u))
    (w : MemorySound s) : MemorySound (stkReadCmd s c t o g f) := by
  unfold stkReadCmd
  refine wf_ite w (wf_ite (wf_mem (pushBurst_mem ..) w) (wf_ite ?_ (h _ (modStk_wf _ _ _ id id w))))
  exact wf_mem ((pushBurst_mem ..).trans (enterAlert_mem ..)) w

theorem stkWriteCmd_wf (s : State) (c t g : Nat) (d : Sector) (n : BitVec 320) {f : Sector → State → State}
    (h : ∀ x u, MemorySound u → MemorySound (f x u)) (w : MemorySound s) : MemorySound (stkWriteCmd s c t g d n f) := by
  unfold stkWriteCmd
  refine wf_ite w (wf_ite (wf_mem (enterAlert_mem ..) w) ?_)
  exact h _ _ (wf_mem (writeBurst_mem ..) (modStk_wf _ _ _ id id w))

theorem stkColWrite_wf (s : State) (c t b h col : Nat) (d : Sector) (auto : Bool) (w : MemorySound s) :
    MemorySound (stkColWrite s c t b h col d auto) := by
  have g : ∀ sp row, MemorySound (modStk s c (fun x => { arrWrite s.stack c x sp b row col d with tWr := Tab.put x.tWr (halfKey b h) t })) :=
    fun sp row => modStk_wf s c _ (arrWrite_wf s.stack c _ sp b row col d) id w
  unfold stkColWrite withOpenRow
  dsimp only
  split
  · exact wf_mem (enterAlert_mem _ _ _) w
  · refine wf_ite (wf_mem (enterAlert_mem _ _ _) w) (wf_ite (wf_mem (enterAlert_mem _ _ _) w) (wf_ite ?_ (g _ _)))
    exact wf_mem (autoClose_mem ..) (g _ _)

theorem doWr_wf (c : Nat) (b : Fin 16) (h : Fin 2) (col : BitVec 5) (d : Sector) (n : BitVec 320) (auto : Bool) (t : Nat) (s : State)
    (w : MemorySound s) : MemorySound (doWr c b h col d n auto t s) :=
  stkWriteCmd_wf s c t _ d n (fun _ _ h => stkColWrite_wf _ _ _ _ _ _ _ _ h) w

theorem doVwr_wf (c : Nat) (k : BitVec 13) (d : Sector) (n : BitVec 320) (t : Nat) (s : State) (w : MemorySound s) :
    MemorySound (doVwr c k d n t s) :=
  stkWriteCmd_wf s c t _ d n (fun _ _ h => vbufStore_wf rfl _ _ _ h) w

theorem doPrd_wf (c : Nat) (ctx : Fin 2) (t o : Nat) (s : State) (w : MemorySound s) : MemorySound (doPrd c ctx t o s) := by
  refine stkReadCmd_wf s c t o 4 (fun u h => ?_) w
  refine wf_ite ?_ ?_
  · exact wf_mem ((pushBurst_mem ..).trans (takeFree_mem 256 u)) h
  · exact wf_mem (pushBurst_mem ..) (fillOuts_wf _ _ _ (modStk_wf u c _ id id h))

/-- Every column command keeps the form, executed as it decodes. -/
theorem colEffect_wf (c t o : Nat) (i : Instr) (s : State) (w : MemorySound s) : MemorySound (colEffect c t o i s) := by
  unfold colEffect
  split
  · exact wf_mem (doRd_mem ..) w
  · exact wf_mem (doRd_mem ..) w
  · exact doWr_wf _ _ _ _ _ _ _ _ _ w
  · exact doWr_wf _ _ _ _ _ _ _ _ _ w
  · exact doVwr_wf _ _ _ _ _ _ w
  · exact wf_mem (doVrd_mem ..) w
  · exact wf_mem (doSpw_mem ..) w
  · exact doPrd_wf _ _ _ _ _ w
  · exact wf_mem (doSrd_mem ..) w
  · exact w

theorem colGarbled_wf (s : State) (c : Fin 64) (t o : Nat) (i : Instr) (n : BitVec 320) (rx : WireRx 24) (w : MemorySound s) :
    MemorySound (colGarbled s c t o i n rx) := by
  have h : MemorySound (noteFixed s c rx.fixed) := wf_mem (noteFixed_mem _ _ _) w
  unfold colGarbled
  extract_lets u x
  have hx : MemorySound x := by
    refine wf_ite (wf_mem (breach_mem _ _ _) h) ?_
    split
    · exact colEffect_wf _ _ _ _ _ h
    · exact wf_mem (breach_mem _ _ _) h
  exact wf_ite w (wf_ite (wf_mem (undriven_mem ..) hx) (modStk_wf _ _ _ id id hx))

theorem onColWires_wf (s : State) (c : Fin 64) (i : Instr) (err : BitVec 48) (n : BitVec 320) {f : Nat → Nat → State → State}
    (h : ∀ t o u, MemorySound u → MemorySound (f t o u)) (w : MemorySound s) : MemorySound (onColWires s c i err n f) := by
  have g : MemorySound (takeCol s c i) := wf_mem (takeCol_mem _ _ _) w
  exact wf_ite (h _ _ _ g) (colGarbled_wf _ _ _ _ _ _ _ g)

theorem stackFresh_wf (s : State) : MemorySound (stackFresh s) := by
  rw [wf_iff]
  intro c _
  exact ⟨rfl, rfl⟩

theorem coldState_wf (s : State) : MemorySound (coldState s) := by
  rw [wf_iff]
  intro c _
  exact ⟨rfl, rfl⟩

theorem warmState_wf (s : State) (b : Bool) : MemorySound (warmState s b) := by
  rw [wf_iff]
  intro c _
  exact ⟨rfl, rfl⟩

theorem stkRelease_wf (s : State) (w : MemorySound s) : MemorySound (stkRelease s) := by
  unfold stkRelease
  exact wf_ite (stackFresh_wf s) w

theorem pgoodFall_wf (s : State) (w : MemorySound s) : MemorySound (pgoodFall s) := by
  unfold pgoodFall
  exact wf_ite w (wf_ite (wf_mem ((enterLost_mem _ _).trans (logEv_mem _ _ _ _ _)) (stackFresh_wf _)) (stackFresh_wf _))

theorem sweepSpares_wf (s : State) (w : MemorySound s) : MemorySound (sweepSpares s) := by
  unfold sweepSpares forN
  refine wf_foldl _ _ _ (fun t c h => ?_) w
  refine wf_foldl _ _ _ (fun u e h => ?_) h
  exact wf_ite h (wf_foldl _ _ _ (fun v col h => arrStore_wf _ _ _ _ _ _ _ h) h)

theorem find_map_val {α β : Type} (t : Tab α) (f : α → β) (k : Nat) :
    Tab.find (t.map (fun e => (e.1, f e.2))) k = (Tab.find t k).map f := by
  induction t with
  | nil => rfl
  | cons e t ih =>
    simp only [List.map_cons, Tab.find]
    split
    · rfl
    · exact ih

theorem sweepArray_wf (s : State) (w : MemorySound s) : MemorySound (sweepArray s) := by
  unfold sweepArray
  refine sweepSpares_wf _ ?_
  rw [wf_iff] at w ⊢
  intro c hc
  have h := (w c hc).2
  have e : ∀ t : State, stk t c = (Tab.find t.stack.chans c).getD StkChan.reset := fun _ => rfl
  rw [e] at h ⊢
  have hm := find_map_val s.stack.chans (fun x => { x with array := [] }) c
  dsimp only
  rw [hm]
  cases hf : Tab.find s.stack.chans c with
  | none => exact ⟨rfl, rfl⟩
  | some x =>
    rw [hf] at h
    exact ⟨rfl, h⟩

/-- The step's end, when it goes on. -/
theorem goOnBoot_wf (t : State) (n : Nat) (w : MemorySound t) :
    MemorySound (if t.blk.st == .boot then nextStep (stepLog t) n else t) :=
  wf_ite (wf_mem ((nextStep_mem _ _).trans (stepLog_mem _)) w) w

/-- The link check's stores keep the form. -/
theorem linkChecked_wf (s : State) (w : MemorySound s) : MemorySound (linkChecked s) := by
  unfold linkChecked forN
  refine wf_foldl _ _ _ (fun t c h => ?_) w
  refine wf_foldl _ _ _ (fun u i h => ?_) h
  exact vbufStore_wf rfl _ _ _ (wf_mem ((takeFree_mem 152 _).trans (takeFree_mem 152 u)) h)

theorem bootOk_wf (s : State) (w : MemorySound s) : MemorySound (bootOk s) := by
  unfold bootOk
  extract_lets go
  have g : ∀ t, MemorySound t → MemorySound (go t) := fun t h => goOnBoot_wf t _ h
  split
  · exact g _ w
  · exact wf_ite (g _ w) w
  · exact wf_ite (g _ w) w
  · exact g _ (wf_mem (mbistEnd_mem _ _) w)
  · exact g _ (wf_ite (wf_mem (lbistEnd_mem _ _) w) w)
  · exact g _ (wf_mem ((drawKeys_mem _).trans (zeroise_mem _)) w)
  · exact wf_ite (g _ w) w
  · exact wf_ite w (g _ (wf_mem (passportStep_mem _) w))
  · have h := linkChecked_wf _ (wf_mem (loadStep_mem s) w)
    exact wf_ite w (wf_ite (wf_stack (s := stepLog (linkChecked (loadStep s))) rfl (wf_mem (stepLog_mem _) h)) (g _ h))
  · exact wf_ite w (g _ (sweepArray_wf { s with blk := { s.blk with waitThermal := false } } (wf_stack (s := s) rfl w)))
  · exact g { s with hdl := Hdl.reset } (wf_stack (s := s) rfl w)
  · exact g _ (wf_mem (trackStep_mem _) w)
  · exact w

/-! ### Slices and reconstructions -/

theorem fillCtx_wf (s : State) (c : Nat) (w : MemorySound s) : MemorySound (fillCtx s c) := by
  have h0 : MemorySound (evictPending s c) := wf_mem (evictPending_mem _ _) w
  unfold fillCtx
  extract_lets u ch
  split
  · exact h0
  refine wf_ite h0 ?_
  split
  · extract_lets x pb runs far ent es v y
    have hv : MemorySound v := by
      refine wf_ite ?_ h0
      refine modStk_wf u c _ (fun h => ?_) (fun h => ?_) h0
      · suffices H : ∀ (l : List (Nat × Sector)) (y : StkChan), (l.foldl (fun y e => vbufWrite u.stack c y e.1 e.2) y).array = y.array from
          (H runs (stk u c)).symm ▸ h
        intro l
        induction l with
        | nil => exact fun _ => rfl
        | cons e l ih => exact fun y => ih _
      · suffices H : ∀ (l : List (Nat × Sector)) (y : StkChan), ramWf (vbufDflt u.stack c) y.vbuf = true →
            ramWf (vbufDflt u.stack c) (l.foldl (fun y e => vbufWrite u.stack c y e.1 e.2) y).vbuf = true from H runs _ h
        intro l
        induction l with
        | nil => exact fun _ h => h
        | cons e l ih => exact fun y h => ih _ (vbufWrite_wf _ _ _ _ _ h)
    exact wf_mem ((enqueueAll_mem _ _).trans (modChan_mem _ _ _)) hv
  · exact h0

theorem sliceTake_wf (s : State) (c : Nat) (w : MemorySound s) : MemorySound (sliceTake s c) := by
  unfold sliceTake
  extract_lets ch
  refine wf_ite w ?_
  split
  · exact w
  · extract_lets x u v
    have hu : MemorySound u := wf_mem (setChan_mem _ _ _) w
    exact fillCtx_wf _ _ (wf_mem (modOpChan_mem _ _ _ _) (wf_stack (s := u) rfl hu))

theorem sliceStart_wf (s : State) (ci : Nat) (w : MemorySound s) : MemorySound (sliceStart s ci) := by
  unfold sliceStart
  extract_lets c
  split
  · exact w
  split
  · refine wf_ite w (wf_ite (wf_mem (cancelLate_mem _ _) w) ?_)
    extract_lets y c1 c2 a b d
    have ha : MemorySound a := wf_mem ((spend_mem _ _ _).trans (setChan_mem _ _ _)) w
    have hb : MemorySound b := wf_mem (evOct_mem _ _ _ _ _) ha
    have hd : MemorySound d := wf_mem (modReq_mem _ _ _) hb
    exact fillCtx_wf _ _ (wf_mem (sendRow_mem _ _ _) hd)
  · exact fillCtx_wf _ _ w

theorem sliceAccount_wf (s : State) (ci : Nat) (e : SliceWait) (w : MemorySound s) : MemorySound (sliceAccount s ci e) := by
  unfold sliceAccount
  split
  · exact fillCtx_wf _ _ w
  refine wf_ite (fillCtx_wf _ _ (wf_mem (opStopped_mem _ _) w)) ?_
  extract_lets po1 po2 again u v
  have hu : MemorySound u := wf_mem (putOp_mem _ _ _) w
  have hv : MemorySound v := wf_ite hu (wf_mem (bumpReg_mem _ _ _ _ _ _) hu)
  exact fillCtx_wf _ _ (wf_mem (sliceGoesOn_mem _ _ _ _ _ _ _) hv)

theorem sliceAwait_wf (s : State) (ci : Nat) (e : SliceWait) (w : MemorySound s) : MemorySound (sliceAwait s ci e) := by
  unfold sliceAwait
  split
  · extract_lets u
    have hu : MemorySound u := wf_foldl _ _ _ (fun t p h => wf_mem (rowFailure_mem t p) h) w
    exact fillCtx_wf _ _ (wf_mem ((opStopped_mem _ _).trans ((opStop_mem _ _).trans (gateReq_mem _ _ _))) hu)
  · refine fillCtx_wf _ _ (wf_foldl _ _ _ (fun t p h => ?_) (wf_mem (modChan_mem _ _ _) w))
    split
    · exact wf_mem ((startReconOf_mem _ _ _ _ _ _).trans (rowFailure_mem _ _)) h
    · exact h

theorem sortUes_wf (s : State) (ps : List Place) (w : MemorySound s) : MemorySound (sortUes s ps).2.2 := wf_mem (sortUes_mem s ps) w

theorem sliceDone_wf (s : State) (ci ctx : Nat) (w : MemorySound s) : MemorySound (sliceDone s ci ctx) := by
  unfold sliceDone
  extract_lets c
  split
  · exact w
  split
  · exact w
  extract_lets v ps u
  refine wf_ite (fillCtx_wf _ _ (wf_mem ((opStopped_mem _ _).trans (releaseSlice_mem _ _ _ _)) w)) (wf_ite w ?_)
  have hu : MemorySound u := wf_mem ((ceRise_mem _ _ _).trans (releaseSlice_mem _ _ _ _)) w
  have hs := sortUes_wf u ps hu
  split
  rename_i po left t he
  rw [he] at hs
  exact wf_ite (sliceAccount_wf _ _ _ hs) (sliceAwait_wf _ _ _ hs)

theorem sliceWake_wf (s : State) (ci : Nat) (r : Recon) (w : MemorySound s) : MemorySound (sliceWake s ci r) := by
  unfold sliceWake
  exact wf_foldl _ _ _ (fun t x h => sliceAccount_wf _ _ _ h) (wf_mem ((modChan_mem _ _ _).trans (modChan_mem _ _ _)) w)

theorem reconOver_wf (s : State) (ci : Nat) (r : Recon) (w : MemorySound s) : MemorySound (reconOver s ci r) := by
  unfold reconOver
  extract_lets u l v
  have hu : MemorySound u := wf_mem (modChan_mem _ _ _) w
  have hl : MemorySound l := wf_mem ((latch_mem _ _ _).trans (bumpReg_mem _ _ _ _ _ _)) hu
  have hv : MemorySound v := by
    unfold v
    split
    · exact wf_mem (bumpReg_mem _ _ _ _ _ _) hu
    · exact wf_mem (logEv_mem _ _ _ _ _) hl
  exact sliceWake_wf _ _ _ (wf_foldl _ _ _ (fun t f h => wf_mem (reconServe_mem _ _ _ _) h) hv)

theorem reconDone_wf (s : State) (ci : Nat) (w : MemorySound s) : MemorySound (reconDone s ci) := by
  unfold reconDone
  extract_lets c
  split
  · exact w
  · exact reconOver_wf _ _ _ (wf_mem (bumpReg_mem _ _ _ _ _ _) w)

end Sys2Proof.Machine
end

