-- ==== Sys2Proof/Laws/PerInstr.lean ====
section
/-! SUPPORT. What a command says as syntax, row by row: the opcode that a request row spells is one of Table 2-4, or the row
is that of the refused headers. -/

namespace Sys2Proof.Laws.OpcodesAreListed

open Sys2Proof Sys2Proof.Machine

/-- A well-formed request command spells a listed opcode, or a header that step 1 refuses (R42, Table 2-4). -/
def Statement (i : Instr) : Prop :=
  ∀ (p : Fin 16) (o : Byte) (h : Hdr) (a : Word) (bs : List Beat), i.wf = true → requestOf i = some (p, o, h, a, bs) →
    opcodeListed o = true ∨ headerReserved o h = true

theorem headerWithoutCredit (p : Fin 16) (opc : Byte) (h : Hdr) (aux : Word) (bs : List Beat) : Statement (.headerWithoutCredit p opc h aux bs) := by
  rintro _ _ _ _ _ - ⟨⟩

theorem beatWithoutCredit (p : Fin 16) (b : Beat) : Statement (.beatWithoutCredit p b) := by
  rintro _ _ _ _ _ - ⟨⟩

theorem writeDataBeat (p : Fin 16) (b : Beat) : Statement (.writeDataBeat p b) := by
  rintro _ _ _ _ _ - ⟨⟩

theorem reservedOpcode (p : Fin 16) (opc : Byte) (h : Hdr) (aux : Word) (bs : List Beat) : Statement (.reservedOpcode p opc h aux bs) := by
  rintro _ _ _ _ _ hw ⟨⟩
  exact .inr hw

theorem rd (p : Fin 16) (h : Hdr) : Statement (.rd p h) := by
  rintro _ _ _ _ _ - ⟨⟩
  exact .inl rfl

theorem wr (p : Fin 16) (h : Hdr) (bs : List Beat) : Statement (.wr p h bs) := by
  rintro _ _ _ _ _ - ⟨⟩
  exact .inl rfl

theorem wrp (p : Fin 16) (h : Hdr) (bs : List Beat) : Statement (.wrp p h bs) := by
  rintro _ _ _ _ _ - ⟨⟩
  exact .inl rfl

theorem atAdd (p : Fin 16) (h : Hdr) (aux : Word) (bs : List Beat) : Statement (.atAdd p h aux bs) := by
  rintro _ _ _ _ _ - ⟨⟩
  exact .inl rfl

theorem atMin (p : Fin 16) (h : Hdr) (aux : Word) (bs : List Beat) : Statement (.atMin p h aux bs) := by
  rintro _ _ _ _ _ - ⟨⟩
  exact .inl rfl

theorem atMax (p : Fin 16) (h : Hdr) (aux : Word) (bs : List Beat) : Statement (.atMax p h aux bs) := by
  rintro _ _ _ _ _ - ⟨⟩
  exact .inl rfl

theorem atAnd (p : Fin 16) (h : Hdr) (aux : Word) (bs : List Beat) : Statement (.atAnd p h aux bs) := by
  rintro _ _ _ _ _ - ⟨⟩
  exact .inl rfl

theorem atOr (p : Fin 16) (h : Hdr) (aux : Word) (bs : List Beat) : Statement (.atOr p h aux bs) := by
  rintro _ _ _ _ _ - ⟨⟩
  exact .inl rfl

theorem atXor (p : Fin 16) (h : Hdr) (aux : Word) (bs : List Beat) : Statement (.atXor p h aux bs) := by
  rintro _ _ _ _ _ - ⟨⟩
  exact .inl rfl

theorem atSwap (p : Fin 16) (h : Hdr) (aux : Word) (bs : List Beat) : Statement (.atSwap p h aux bs) := by
  rintro _ _ _ _ _ - ⟨⟩
  exact .inl rfl

theorem atCas (p : Fin 16) (h : Hdr) (aux : Word) (bs : List Beat) : Statement (.atCas p h aux bs) := by
  rintro _ _ _ _ _ - ⟨⟩
  exact .inl rfl

theorem rdw (p : Fin 16) (h : Hdr) (aux : Word) (bs : List Beat) : Statement (.rdw p h aux bs) := by
  rintro _ _ _ _ _ - ⟨⟩
  exact .inl rfl

theorem sopDotRowsplit (p : Fin 16) (h : Hdr) (bs : List Beat) : Statement (.sopDotRowsplit p h bs) := by
  rintro _ _ _ _ _ - ⟨⟩
  exact .inl rfl

theorem sopDotKsplit (p : Fin 16) (h : Hdr) (bs : List Beat) : Statement (.sopDotKsplit p h bs) := by
  rintro _ _ _ _ _ - ⟨⟩
  exact .inl rfl

theorem sopAttn (p : Fin 16) (h : Hdr) (bs : List Beat) : Statement (.sopAttn p h bs) := by
  rintro _ _ _ _ _ - ⟨⟩
  exact .inl rfl

theorem sopGather (p : Fin 16) (h : Hdr) (bs : List Beat) : Statement (.sopGather p h bs) := by
  rintro _ _ _ _ _ - ⟨⟩
  exact .inl rfl

theorem sopScatterAdd (p : Fin 16) (h : Hdr) (bs : List Beat) : Statement (.sopScatterAdd p h bs) := by
  rintro _ _ _ _ _ - ⟨⟩
  exact .inl rfl

theorem sopSetxIntersect (p : Fin 16) (h : Hdr) (bs : List Beat) : Statement (.sopSetxIntersect p h bs) := by
  rintro _ _ _ _ _ - ⟨⟩
  exact .inl rfl

theorem sopSetxUnion (p : Fin 16) (h : Hdr) (bs : List Beat) : Statement (.sopSetxUnion p h bs) := by
  rintro _ _ _ _ _ - ⟨⟩
  exact .inl rfl

theorem sopSetxDiff (p : Fin 16) (h : Hdr) (bs : List Beat) : Statement (.sopSetxDiff p h bs) := by
  rintro _ _ _ _ _ - ⟨⟩
  exact .inl rfl

theorem sopExpand (p : Fin 16) (h : Hdr) (bs : List Beat) : Statement (.sopExpand p h bs) := by
  rintro _ _ _ _ _ - ⟨⟩
  exact .inl rfl

theorem sopFilter (p : Fin 16) (h : Hdr) (bs : List Beat) : Statement (.sopFilter p h bs) := by
  rintro _ _ _ _ _ - ⟨⟩
  exact .inl rfl

theorem sopCopyResident (p : Fin 16) (h : Hdr) (bs : List Beat) : Statement (.sopCopyResident p h bs) := by
  rintro _ _ _ _ _ - ⟨⟩
  exact .inl rfl

theorem sopCopyStriped (p : Fin 16) (h : Hdr) (bs : List Beat) : Statement (.sopCopyStriped p h bs) := by
  rintro _ _ _ _ _ - ⟨⟩
  exact .inl rfl

theorem sopCopyFromCrown (p : Fin 16) (h : Hdr) (bs : List Beat) : Statement (.sopCopyFromCrown p h bs) := by
  rintro _ _ _ _ _ - ⟨⟩
  exact .inl rfl

theorem sopFill (p : Fin 16) (h : Hdr) (bs : List Beat) : Statement (.sopFill p h bs) := by
  rintro _ _ _ _ _ - ⟨⟩
  exact .inl rfl

theorem bcast (p : Fin 16) (h : Hdr) (bs : List Beat) : Statement (.bcast p h bs) := by
  rintro _ _ _ _ _ - ⟨⟩
  exact .inl rfl

theorem fence (p : Fin 16) (h : Hdr) : Statement (.fence p h) := by
  rintro _ _ _ _ _ - ⟨⟩
  exact .inl rfl

theorem fenceRelease (p : Fin 16) (src : BitVec 10) (tag : BitVec 12) : Statement (.fenceRelease p src tag) := by
  rintro _ _ _ _ _ - ⟨⟩

theorem hcmt (p : Fin 16) (h : Hdr) (aux : Word) : Statement (.hcmt p h aux) := by
  rintro _ _ _ _ _ - ⟨⟩
  exact .inl rfl

theorem hrbk (p : Fin 16) (h : Hdr) : Statement (.hrbk p h) := by
  rintro _ _ _ _ _ - ⟨⟩
  exact .inl rfl

theorem hrel (p : Fin 16) (h : Hdr) : Statement (.hrel p h) := by
  rintro _ _ _ _ _ - ⟨⟩
  exact .inl rfl

theorem handleCmdTakesEffect (p : Fin 16) (src : BitVec 10) (tag : BitVec 12) : Statement (.handleCmdTakesEffect p src tag) := by
  rintro _ _ _ _ _ - ⟨⟩

theorem cfgRd (p : Fin 16) (h : Hdr) : Statement (.cfgRd p h) := by
  rintro _ _ _ _ _ - ⟨⟩
  exact .inl rfl

theorem cfgWr (p : Fin 16) (h : Hdr) (bs : List Beat) : Statement (.cfgWr p h bs) := by
  rintro _ _ _ _ _ - ⟨⟩
  exact .inl rfl

theorem gatedPortStub (p : Fin 16) (opc : Byte) (h : Hdr) (bs : List Beat) : Statement (.gatedPortStub p opc h bs) := by
  rintro _ _ _ _ _ - ⟨⟩

theorem admissionStep5Pass (p : Fin 16) : Statement (.admissionStep5Pass p) := by
  rintro _ _ _ _ _ - ⟨⟩

theorem portTimeoutExpiry (p : Fin 16) (src : BitVec 10) (tag : BitVec 12) : Statement (.portTimeoutExpiry p src tag) := by
  rintro _ _ _ _ _ - ⟨⟩

theorem replyBeatSend (p : ReplyTurn) : Statement (.replyBeatSend p) := by
  rintro _ _ _ _ _ - ⟨⟩

theorem sampleSelect : Statement (.sampleSelect) := by
  rintro _ _ _ _ _ - ⟨⟩

theorem requesterQueueToCmdq (c : Fin 64) : Statement (.requesterQueueToCmdq c) := by
  rintro _ _ _ _ _ - ⟨⟩

theorem gateSlotDecision (c : Fin 64) : Statement (.gateSlotDecision c) := by
  rintro _ _ _ _ _ - ⟨⟩

theorem windowStart : Statement (.windowStart) := by
  rintro _ _ _ _ _ - ⟨⟩

theorem schedCommandSlot (c : Fin 64) : Statement (.schedCommandSlot c) := by
  rintro _ _ _ _ _ - ⟨⟩

theorem bankHalfTimingExpiry (c : Fin 64) (b : Fin 16) (h : Fin 2) : Statement (.bankHalfTimingExpiry c b h) := by
  rintro _ _ _ _ _ - ⟨⟩

theorem refreshDue (c : Fin 64) (b : Fin 16) : Statement (.refreshDue c b) := by
  rintro _ _ _ _ _ - ⟨⟩

theorem sliceResume (c : Fin 64) (b : Fin 16) : Statement (.sliceResume c b) := by
  rintro _ _ _ _ _ - ⟨⟩

theorem readBurstArrival (c : ReadWires) : Statement (.readBurstArrival c) := by
  rintro _ _ _ _ _ - ⟨⟩

theorem vaultReconstructionDone (c : Fin 64) : Statement (.vaultReconstructionDone c) := by
  rintro _ _ _ _ _ - ⟨⟩

theorem verifyReadResult (c : Fin 64) : Statement (.verifyReadResult c) := by
  rintro _ _ _ _ _ - ⟨⟩

theorem linerAgeExpiry (c : Fin 64) : Statement (.linerAgeExpiry c) := by
  rintro _ _ _ _ _ - ⟨⟩

theorem linerEvictionReadReturn (c : Fin 64) : Statement (.linerEvictionReadReturn c) := by
  rintro _ _ _ _ _ - ⟨⟩

theorem linerEntryJoinCmdq (c : Fin 64) : Statement (.linerEntryJoinCmdq c) := by
  rintro _ _ _ _ _ - ⟨⟩

theorem sliceQueueTake (c : Fin 64) : Statement (.sliceQueueTake c) := by
  rintro _ _ _ _ _ - ⟨⟩

theorem vectorCopyStart (d : BitVec 8) (c : Fin 64) : Statement (.vectorCopyStart d c) := by
  rintro _ _ _ _ _ - ⟨⟩

theorem sliceStart (c : Fin 64) : Statement (.sliceStart c) := by
  rintro _ _ _ _ _ - ⟨⟩

theorem sliceStatusPoll (c : Fin 64) (ctx : Fin 2) : Statement (.sliceStatusPoll c ctx) := by
  rintro _ _ _ _ _ - ⟨⟩

theorem sliceDone (c : Fin 64) (ctx : Fin 2) : Statement (.sliceDone c ctx) := by
  rintro _ _ _ _ _ - ⟨⟩

theorem sliceOverrun (c : Fin 64) (ctx : Fin 2) : Statement (.sliceOverrun c ctx) := by
  rintro _ _ _ _ _ - ⟨⟩

theorem partialArrival (c : Fin 64) : Statement (.partialArrival c) := by
  rintro _ _ _ _ _ - ⟨⟩

theorem fabricTransferArrival (d : BitVec 8) (k : Fin 8) : Statement (.fabricTransferArrival d k) := by
  rintro _ _ _ _ _ - ⟨⟩

theorem crownItemTake (k : Fin 8) : Statement (.crownItemTake k) := by
  rintro _ _ _ _ _ - ⟨⟩

theorem crownLockTake (k : Fin 8) : Statement (.crownLockTake k) := by
  rintro _ _ _ _ _ - ⟨⟩

theorem crownReadReturn (k : Fin 8) : Statement (.crownReadReturn k) := by
  rintro _ _ _ _ _ - ⟨⟩

theorem crownWriteVisible (k : Fin 8) : Statement (.crownWriteVisible k) := by
  rintro _ _ _ _ _ - ⟨⟩

theorem operationResultDelivery (d : BitVec 8) : Statement (.operationResultDelivery d) := by
  rintro _ _ _ _ _ - ⟨⟩

theorem heldDrainStart (k : Fin 8) : Statement (.heldDrainStart k) := by
  rintro _ _ _ _ _ - ⟨⟩

theorem patrolVisit (c : Fin 64) : Statement (.patrolVisit c) := by
  rintro _ _ _ _ _ - ⟨⟩

theorem repairSequenceStart : Statement (.repairSequenceStart) := by
  rintro _ _ _ _ _ - ⟨⟩

theorem remapActivate : Statement (.remapActivate) := by
  rintro _ _ _ _ _ - ⟨⟩

theorem chEccInjArm (p : Fin 16) (h : Hdr) (c : Fin 64) (v : Word) : Statement (.chEccInjArm p h c v) := by
  rintro _ _ _ _ _ - ⟨⟩

theorem calStepBoundary (n : Fin 4) : Statement (.calStepBoundary n) := by
  rintro _ _ _ _ _ - ⟨⟩

theorem sweepTakeOver (n : Fin 4) : Statement (.sweepTakeOver n) := by
  rintro _ _ _ _ _ - ⟨⟩

theorem scanPositionDwellEnd (n : Fin 4) (bursts : Nat) (seen : DwellSeen) : Statement (.scanPositionDwellEnd n bursts seen) := by
  rintro _ _ _ _ _ - ⟨⟩

theorem sweepReturn (n : Fin 4) : Statement (.sweepReturn n) := by
  rintro _ _ _ _ _ - ⟨⟩

theorem sweepRelease (n : Fin 4) (bursts : Nat) (mismatch : Bool) : Statement (.sweepRelease n bursts mismatch) := by
  rintro _ _ _ _ _ - ⟨⟩

theorem sweepEnd (n : Fin 4) : Statement (.sweepEnd n) := by
  rintro _ _ _ _ _ - ⟨⟩

theorem srLnErrReading (n : Fin 4) (count : Word) : Statement (.srLnErrReading n count) := by
  rintro _ _ _ _ _ - ⟨⟩

theorem calForce (p : Fin 16) (h : Hdr) (n : Fin 4) (v : Word) : Statement (.calForce p h n v) := by
  rintro _ _ _ _ _ - ⟨⟩

theorem thmSlotMeasurement (reading : Option (BitVec 16)) : Statement (.thmSlotMeasurement reading) := by
  rintro _ _ _ _ _ - ⟨⟩

theorem tripSelfRefreshEntry : Statement (.tripSelfRefreshEntry) := by
  rintro _ _ _ _ _ - ⟨⟩

theorem roundBoundary : Statement (.roundBoundary) := by
  rintro _ _ _ _ _ - ⟨⟩

theorem tripResume : Statement (.tripResume) := by
  rintro _ _ _ _ _ - ⟨⟩

theorem brimBudgetExhausted : Statement (.brimBudgetExhausted) := by
  rintro _ _ _ _ _ - ⟨⟩

theorem pmbusTransactionDone (r : PmbEnd) : Statement (.pmbusTransactionDone r) := by
  rintro _ _ _ _ _ - ⟨⟩

theorem pmbAlert : Statement (.pmbAlert) := by
  rintro _ _ _ _ _ - ⟨⟩

theorem avsFrameDone (r : AvsEnd) : Statement (.avsFrameDone r) := by
  rintro _ _ _ _ _ - ⟨⟩

theorem stkPgoodRise : Statement (.stkPgoodRise) := by
  rintro _ _ _ _ _ - ⟨⟩

theorem pgoodTimeout : Statement (.pgoodTimeout) := by
  rintro _ _ _ _ _ - ⟨⟩

theorem stkResetRelease : Statement (.stkResetRelease) := by
  rintro _ _ _ _ _ - ⟨⟩

theorem stkPgoodFall : Statement (.stkPgoodFall) := by
  rintro _ _ _ _ _ - ⟨⟩

theorem powerdownEntry (c : Fin 64) : Statement (.powerdownEntry c) := by
  rintro _ _ _ _ _ - ⟨⟩

theorem powerdownExit (c : Fin 64) : Statement (.powerdownExit c) := by
  rintro _ _ _ _ _ - ⟨⟩

theorem hkFreqRequest (p : Fin 16) (h : Hdr) (v : Word) : Statement (.hkFreqRequest p h v) := by
  rintro _ _ _ _ _ - ⟨⟩

theorem freqChangeStart : Statement (.freqChangeStart) := by
  rintro _ _ _ _ _ - ⟨⟩

theorem freqDrainDone : Statement (.freqDrainDone) := by
  rintro _ _ _ _ _ - ⟨⟩

theorem freqChangeResume : Statement (.freqChangeResume) := by
  rintro _ _ _ _ _ - ⟨⟩

theorem coldReset : Statement (.coldReset) := by
  rintro _ _ _ _ _ - ⟨⟩

theorem blkResetWarm (p : Fin 16) (h : Hdr) (v : Word) : Statement (.blkResetWarm p h v) := by
  rintro _ _ _ _ _ - ⟨⟩

theorem warmReset : Statement (.warmReset) := by
  rintro _ _ _ _ _ - ⟨⟩

theorem bootStepComplete (r : BootEnd) : Statement (.bootStepComplete r) := by
  rintro _ _ _ _ _ - ⟨⟩

theorem refclkWindowEnd (count : Nat) : Statement (.refclkWindowEnd count) := by
  rintro _ _ _ _ _ - ⟨⟩

theorem refclkLoss : Statement (.refclkLoss) := by
  rintro _ _ _ _ _ - ⟨⟩

theorem pllLock : Statement (.pllLock) := by
  rintro _ _ _ _ _ - ⟨⟩

theorem pllLockTimeout : Statement (.pllLockTimeout) := by
  rintro _ _ _ _ _ - ⟨⟩

theorem pllClockLoss (outputStopped : Bool) (refclkPresent : Bool) : Statement (.pllClockLoss outputStopped refclkPresent) := by
  rintro _ _ _ _ _ - ⟨⟩

theorem forcedSwitch (d : Fin 100) : Statement (.forcedSwitch d) := by
  rintro _ _ _ _ _ - ⟨⟩

theorem timeSyncEdge : Statement (.timeSyncEdge) := by
  rintro _ _ _ _ _ - ⟨⟩

theorem blkTimeLoRead (p : Fin 16) (h : Hdr) : Statement (.blkTimeLoRead p h) := by
  rintro _ _ _ _ _ - ⟨⟩

theorem clkGateWrite (p : Fin 16) (h : Hdr) (j : Fin 4) (v : Word) : Statement (.clkGateWrite p h j v) := by
  rintro _ _ _ _ _ - ⟨⟩

theorem gateClockStop (d : Fin 100) : Statement (.gateClockStop d) := by
  rintro _ _ _ _ _ - ⟨⟩

theorem clkFmeasGo (p : Fin 16) (h : Hdr) (v : Word) : Statement (.clkFmeasGo p h v) := by
  rintro _ _ _ _ _ - ⟨⟩

theorem fmeasComplete (count : Word) (stopped : Bool) : Statement (.fmeasComplete count stopped) := by
  rintro _ _ _ _ _ - ⟨⟩

theorem faultDetected (page : Fin 128) (src : FaultSource) (part : FaultPart) : Statement (.faultDetected page src part) := by
  rintro _ _ _ _ _ - ⟨⟩

theorem progressTimerExpiry (page : Fin 128) (part : FaultPart) : Statement (.progressTimerExpiry page part) := by
  rintro _ _ _ _ _ - ⟨⟩

theorem recoveryComplete (page : Fin 128) : Statement (.recoveryComplete page) := by
  rintro _ _ _ _ _ - ⟨⟩

theorem logRd (p : Fin 16) (h : Hdr) (v : Word) : Statement (.logRd p h v) := by
  rintro _ _ _ _ _ - ⟨⟩

theorem logMark (p : Fin 16) (h : Hdr) (v : Word) : Statement (.logMark p h v) := by
  rintro _ _ _ _ _ - ⟨⟩

theorem pmuCfgSet (p : Fin 16) (h : Hdr) (v : Word) : Statement (.pmuCfgSet p h v) := by
  rintro _ _ _ _ _ - ⟨⟩

theorem pmuCntLoRead (p : Fin 16) (h : Hdr) (i : Fin 368) : Statement (.pmuCntLoRead p h i) := by
  rintro _ _ _ _ _ - ⟨⟩

theorem pmuCntHiWrite (p : Fin 16) (h : Hdr) (i : Fin 368) (v : Word) : Statement (.pmuCntHiWrite p h i v) := by
  rintro _ _ _ _ _ - ⟨⟩

theorem pmuCntLoWrite (p : Fin 16) (h : Hdr) (i : Fin 368) (v : Word) : Statement (.pmuCntLoWrite p h i v) := by
  rintro _ _ _ _ _ - ⟨⟩

theorem counterAtMax (i : Fin 368) : Statement (.counterAtMax i) := by
  rintro _ _ _ _ _ - ⟨⟩

theorem pmuSmpRd (p : Fin 16) (h : Hdr) (v : Word) : Statement (.pmuSmpRd p h v) := by
  rintro _ _ _ _ _ - ⟨⟩

theorem pmuSmpClr (p : Fin 16) (h : Hdr) (v : Word) : Statement (.pmuSmpClr p h v) := by
  rintro _ _ _ _ _ - ⟨⟩

theorem hdlOpCreate (p : Fin 16) (h : Hdr) (hd : BitVec 16) : Statement (.hdlOpCreate p h hd) := by
  rintro _ _ _ _ _ - ⟨⟩

theorem hdlOpRead (p : Fin 16) (h : Hdr) (hd : BitVec 16) : Statement (.hdlOpRead p h hd) := by
  rintro _ _ _ _ _ - ⟨⟩

theorem hdlOpFree (p : Fin 16) (h : Hdr) (hd : BitVec 16) : Statement (.hdlOpFree p h hd) := by
  rintro _ _ _ _ _ - ⟨⟩

theorem hdlOpDone : Statement (.hdlOpDone) := by
  rintro _ _ _ _ _ - ⟨⟩

theorem linkPpOpRead (p : Fin 16) (h : Hdr) (addr : BitVec 18) : Statement (.linkPpOpRead p h addr) := by
  rintro _ _ _ _ _ - ⟨⟩

theorem linkPpOpProg (p : Fin 16) (h : Hdr) (addr : BitVec 18) : Statement (.linkPpOpProg p h addr) := by
  rintro _ _ _ _ _ - ⟨⟩

theorem rgnCommit (p : Fin 16) (h : Hdr) : Statement (.rgnCommit p h) := by
  rintro _ _ _ _ _ - ⟨⟩

theorem arbCommit (p : Fin 16) (h : Hdr) : Statement (.arbCommit p h) := by
  rintro _ _ _ _ _ - ⟨⟩

theorem unitStopRequest (p : Fin 16) (h : Hdr) (page : Byte) : Statement (.unitStopRequest p h page) := by
  rintro _ _ _ _ _ - ⟨⟩

theorem unitStopped (page : Byte) : Statement (.unitStopped page) := by
  rintro _ _ _ _ _ - ⟨⟩

theorem unitRunRestart (p : Fin 16) (h : Hdr) (page : Byte) : Statement (.unitRunRestart p h page) := by
  rintro _ _ _ _ _ - ⟨⟩

theorem unitAttnClear (p : Fin 16) (h : Hdr) (page : Byte) (v : Word) : Statement (.unitAttnClear p h page v) := by
  rintro _ _ _ _ _ - ⟨⟩

theorem registerWrite (p : Fin 16) (h : Hdr) (page : Byte) (off : BitVec 12) (v : Word) : Statement (.registerWrite p h page off v) := by
  rintro _ _ _ _ _ - ⟨⟩

theorem nrfReseed (p : Fin 16) (h : Hdr) (c : Fin 64) (v : Word) : Statement (.nrfReseed p h c v) := by
  rintro _ _ _ _ _ - ⟨⟩

theorem entropyHealthFail (t : HealthTest) : Statement (.entropyHealthFail t) := by
  rintro _ _ _ _ _ - ⟨⟩

theorem testMbistGo (p : Fin 16) (h : Hdr) (v : Word) : Statement (.testMbistGo p h v) := by
  rintro _ _ _ _ _ - ⟨⟩

theorem mbistComplete (r : MbistEnd) (rows : Byte) (cols : Byte) : Statement (.mbistComplete r rows cols) := by
  rintro _ _ _ _ _ - ⟨⟩

theorem testT1500Go (p : Fin 16) (h : Hdr) (v : Word) : Statement (.testT1500Go p h v) := by
  rintro _ _ _ _ _ - ⟨⟩

theorem jtagBypass : Statement (.jtagBypass) := by
  rintro _ _ _ _ _ - ⟨⟩

theorem jtagIdcode : Statement (.jtagIdcode) := by
  rintro _ _ _ _ _ - ⟨⟩

theorem jtagCfg (dr : BitVec 54) : Statement (.jtagCfg dr) := by
  rintro _ _ _ _ _ - ⟨⟩

theorem jtagTestctl (b : Bool) : Statement (.jtagTestctl b) := by
  rintro _ _ _ _ _ - ⟨⟩

theorem jtagScan : Statement (.jtagScan) := by
  rintro _ _ _ _ _ - ⟨⟩

theorem jtagScanLeave : Statement (.jtagScanLeave) := by
  rintro _ _ _ _ _ - ⟨⟩

theorem jtagFuse : Statement (.jtagFuse) := by
  rintro _ _ _ _ _ - ⟨⟩

theorem sbRegRd (ch : Byte) (q : SbPlace) (len : BitVec 4) : Statement (.sbRegRd ch q len) := by
  rintro _ _ _ _ _ - ⟨⟩

theorem sbRegWr (ch : Byte) (q : SbPlace) (ws : List Word) : Statement (.sbRegWr ch q ws) := by
  rintro _ _ _ _ _ - ⟨⟩

theorem sbPpRd (q : SbPlace) (len : BitVec 4) : Statement (.sbPpRd q len) := by
  rintro _ _ _ _ _ - ⟨⟩

theorem sbPpProg (q : SbPlace) (ws : List Word) : Statement (.sbPpProg q ws) := by
  rintro _ _ _ _ _ - ⟨⟩

theorem sbPpStat : Statement (.sbPpStat) := by
  rintro _ _ _ _ _ - ⟨⟩

theorem sbPpErase (q : SbPlace) : Statement (.sbPpErase q) := by
  rintro _ _ _ _ _ - ⟨⟩

theorem sbT1500 (q : SbPlace) (ws : List Word) : Statement (.sbT1500 q ws) := by
  rintro _ _ _ _ _ - ⟨⟩

theorem ppProgramComplete (fail : Bool) : Statement (.ppProgramComplete fail) := by
  rintro _ _ _ _ _ - ⟨⟩

theorem sbResponse (noise : BitVec 528) : Statement (.sbResponse noise) := by
  rintro _ _ _ _ _ - ⟨⟩

theorem sbResponseTimeout : Statement (.sbResponseTimeout) := by
  rintro _ _ _ _ _ - ⟨⟩

theorem rowNop (c : RowWires) : Statement (.rowNop c) := by
  rintro _ _ _ _ _ - ⟨⟩

theorem act (c : RowWires) (b : Fin 16) (row : BitVec 17) (spare : Bool) : Statement (.act c b row spare) := by
  rintro _ _ _ _ _ - ⟨⟩

theorem pre (c : RowWires) (b : Fin 16) (h : Fin 2) (both : Bool) : Statement (.pre c b h both) := by
  rintro _ _ _ _ _ - ⟨⟩

theorem ref (c : RowWires) (b : Fin 16) : Statement (.ref c b) := by
  rintro _ _ _ _ _ - ⟨⟩

theorem nrf (c : RowWires) (b : Fin 16) (row : BitVec 17) (spare : Bool) (rad2 : Bool) : Statement (.nrf c b row spare rad2) := by
  rintro _ _ _ _ _ - ⟨⟩

theorem sls (c : RowWires) (ctx : Fin 2) (banks : BitVec 16) : Statement (.sls c ctx banks) := by
  rintro _ _ _ _ _ - ⟨⟩

theorem slp (c : RowWires) (ctx : Fin 2) (b : Fin 16) : Statement (.slp c ctx b) := by
  rintro _ _ _ _ _ - ⟨⟩

theorem slr (c : RowWires) (ctx : Fin 2) (b : Fin 16) : Statement (.slr c ctx b) := by
  rintro _ _ _ _ _ - ⟨⟩

theorem slx (c : RowWires) (ctx : Fin 2) : Statement (.slx c ctx) := by
  rintro _ _ _ _ _ - ⟨⟩

theorem sre (c : RowWires) : Statement (.sre c) := by
  rintro _ _ _ _ _ - ⟨⟩

theorem srx (c : RowWires) (point : BitVec 2) : Statement (.srx c point) := by
  rintro _ _ _ _ _ - ⟨⟩

theorem pde (c : RowWires) : Statement (.pde c) := by
  rintro _ _ _ _ _ - ⟨⟩

theorem pdx (c : RowWires) : Statement (.pdx c) := by
  rintro _ _ _ _ _ - ⟨⟩

theorem rsync (c : RowWires) : Statement (.rsync c) := by
  rintro _ _ _ _ _ - ⟨⟩

theorem lane (c : RowWires) (h : Fin 2) (wire : BitVec 5) (sel : Bool) (pat : Bool) : Statement (.lane c h wire sel pat) := by
  rintro _ _ _ _ _ - ⟨⟩

theorem colNop (c : ColWires) : Statement (.colNop c) := by
  rintro _ _ _ _ _ - ⟨⟩

theorem colRd (c : ColWires) (b : Fin 16) (h : Fin 2) (col : BitVec 5) : Statement (.colRd c b h col) := by
  rintro _ _ _ _ _ - ⟨⟩

theorem colRda (c : ColWires) (b : Fin 16) (h : Fin 2) (col : BitVec 5) : Statement (.colRda c b h col) := by
  rintro _ _ _ _ _ - ⟨⟩

theorem colWr (c : ColWires) (b : Fin 16) (h : Fin 2) (col : BitVec 5) (d : WriteData) : Statement (.colWr c b h col d) := by
  rintro _ _ _ _ _ - ⟨⟩

theorem colWra (c : ColWires) (b : Fin 16) (h : Fin 2) (col : BitVec 5) (d : WriteData) : Statement (.colWra c b h col d) := by
  rintro _ _ _ _ _ - ⟨⟩

theorem vwr (c : ColWires) (sector : BitVec 13) (d : WriteData) : Statement (.vwr c sector d) := by
  rintro _ _ _ _ _ - ⟨⟩

theorem vrd (c : ColWires) (sector : BitVec 13) : Statement (.vrd c sector) := by
  rintro _ _ _ _ _ - ⟨⟩

theorem spw (c : ColWires) (ctx : Fin 2) (part : Fin 2) (d : WriteData) : Statement (.spw c ctx part d) := by
  rintro _ _ _ _ _ - ⟨⟩

theorem prd (c : ColWires) (ctx : Fin 2) : Statement (.prd c ctx) := by
  rintro _ _ _ _ _ - ⟨⟩

theorem srd (c : ColWires) (ctx : Fin 2) : Statement (.srd c ctx) := by
  rintro _ _ _ _ _ - ⟨⟩

theorem stackWckStop (c : Fin 64) : Statement (.stackWckStop c) := by
  rintro _ _ _ _ _ - ⟨⟩

theorem entropyHealthRestored : Statement (.entropyHealthRestored) := by
  rintro _ _ _ _ _ - ⟨⟩

end Sys2Proof.Laws.OpcodesAreListed
end

