-- ==== Sys2Proof/Laws/Ports.lean ====
section
/-! SUPPORT. How a request arrives: what a port's counting can change, and where a header with its beats leads. -/

set_option Elab.async false

namespace Sys2Proof.Machine

/-! ### Bookkeeping -/

theorem Booked.refl (s : State) : Booked s s := rfl

theorem Booked.trans {s t u : State} (h : Booked s t) (g : Booked t u) : Booked s u := by
  unfold Booked at *; rw [g, h]

theorem booked_setRegF (s : State) (p o l w v : Nat) : Booked s (setRegF s p o l w v) := rfl
theorem booked_bumpReg (s : State) (p o l w v : Nat) : Booked s (bumpReg s p o l w v) := rfl

theorem booked_latch (s : State) (p b : Nat) : Booked s (latch s p b) := by
  unfold latch
  dsimp only
  split <;> rfl

/-- A register's word depends on the part and the stored words alone. -/
theorem reg_of_regs {s t : State} (hp : t.part = s.part) (hr : t.regs = s.regs) (page off : Nat) : reg t page off = reg s page off := by
  have hn : nChan t = nChan s := by unfold nChan; rw [hp]
  have hu : unitOf t page = unitOf s page := by unfold unitOf nCal nOct; rw [hn]
  have hf : ∀ u, fieldsAt t u off = fieldsAt s u off := by intro u; simp only [fieldsAt, hp]
  unfold reg regReset
  rw [hr, hu]
  simp only [hf]

/-- A cause that has latched is set in UNIT_ATTN (R63). -/
theorem latch_bit (s : State) (page b : Nat) (hb : b < 32) : (reg (latch s page b) page 0x010).getLsbD b = true := by
  have h1 : ∀ t : State, reg (setRegF t page 0x010 b 1 1) page 0x010 = putBits (reg t page 0x010) b 1 1 := by
    intro t; unfold setRegF; exact reg_setReg ..
  have h2 : reg (latch s page b) page 0x010 = putBits (reg s page 0x010) b 1 1 := by
    unfold latch
    dsimp only
    split
    · exact h1 s
    · exact h1 s
  rw [h2]
  unfold putBits
  rw [BitVec.getLsbD_or]
  have : (BitVec.ofNat 32 (1 % 2 ^ 1 * 2 ^ b)).getLsbD b = true := by
    rw [BitVec.getLsbD_ofNat]; simp [hb]
  rw [this]; simp

theorem booked_setCounter (s : State) (i : Nat) (v : BitVec 48) : Booked s (setCounter s i v) := rfl

theorem booked_setOvf (s : State) (i : Nat) : Booked s (setOvf s i) := by
  unfold setOvf
  dsimp only
  split
  · exact (booked_setRegF ..).trans (booked_latch ..)
  · exact booked_setRegF ..

theorem booked_counterAddPlain (s : State) (i n : Nat) : Booked s (counterAddPlain s i n) := by
  unfold counterAddPlain
  dsimp only
  split
  · exact booked_setCounter ..
  · split
    · exact (booked_setCounter ..).trans (booked_setOvf ..)
    · exact (booked_setCounter ..).trans (booked_setOvf ..)

theorem booked_counterAdd (s : State) (i n : Nat) : Booked s (counterAdd s i n) := by
  unfold counterAdd
  dsimp only
  split
  · split
    · exact booked_setCounter ..
    · exact (booked_setCounter ..).trans (booked_counterAddPlain ..)
  · exact booked_counterAddPlain ..

theorem booked_foldl {α : Type} (f : State → α → State) (l : List α) (h : ∀ t x, Booked t (f t x)) (s : State) : Booked s (l.foldl f s) := by
  induction l generalizing s with
  | nil => exact .refl s
  | cons a l ih => exact (h s a).trans (ih _)

/-- Counting an event is bookkeeping. -/
theorem booked_countEv (s : State) (k : EvKind) (i c n : Nat) (a : Option Attr) : Booked s (countEv s k i c n a) := by
  unfold countEv
  split
  · exact .refl s
  · refine booked_foldl _ _ (fun t e => ?_) s
    split
    · exact booked_counterAdd ..
    · exact .refl t

theorem booked_smpInterval (s : State) : Booked s (smpInterval s).2 := by
  unfold smpInterval
  dsimp only
  split <;> rfl

theorem booked_dueNow (s : State) : Booked s (dueNow s) := by
  unfold dueNow
  split
  · exact (booked_smpInterval s).trans rfl
  · exact .refl s

theorem booked_countCandidate (s : State) (r : Req) (a : Attr) : Booked s (countCandidate s r a) := by
  unfold countCandidate
  dsimp only
  split
  · exact .refl s
  · split
    · exact (booked_dueNow s).trans rfl
    · exact (booked_dueNow s).trans rfl

/-- Counting a header is bookkeeping. -/
theorem booked_countHeader (s : State) (r : Req) (late : Bool) : Booked s (countHeader s r late) :=
  (booked_countEv ..).trans (booked_countCandidate ..)

/-- What bookkeeping leaves alone. -/
theorem Booked.keeps {s t : State} (h : Booked s t) :
    t.part = s.part ∧ t.time = s.time ∧ t.clk = s.clk ∧ t.blk = s.blk ∧ t.pins = s.pins ∧ t.ports = s.ports ∧ t.reqs = s.reqs ∧
    t.nextReq = s.nextReq ∧ t.rgn = s.rgn ∧ t.hdl = s.hdl ∧ t.arb = s.arb ∧ t.chans = s.chans ∧ t.disp = s.disp ∧ t.octs = s.octs ∧
    t.link = s.link ∧ t.cals = s.cals ∧ t.hk = s.hk ∧ t.ecc = s.ecc ∧ t.thm = s.thm ∧ t.pwr = s.pwr ∧ t.recov = s.recov ∧
    t.test = s.test ∧ t.sec = s.sec ∧ t.stack = s.stack ∧ t.pending = s.pending := by
  rw [show t = _ from h]
  exact ⟨rfl, rfl, rfl, rfl, rfl, rfl, rfl, rfl, rfl, rfl, rfl, rfl, rfl, rfl, rfl, rfl, rfl, rfl, rfl, rfl, rfl, rfl, rfl, rfl, rfl⟩

/-! ### A header and its beats -/

theorem find_append_fresh {l : List Req} {r : Req} {n : Nat} (hn : r.id = n) (h : ∀ q ∈ l, q.id < n) :
    (l ++ [r]).find? (fun q => q.id == n) = some r := by
  induction l with
  | nil => simp [hn]
  | cons a l ih =>
    have ha := h a (List.mem_cons_self ..)
    rw [List.cons_append, List.find?_cons_of_neg (by simp; omega)]
    exact ih (fun q hq => h q (List.mem_cons_of_mem _ hq))

theorem map_fresh {l : List Req} {n : Nat} (f : Req → Req) (h : ∀ q ∈ l, q.id < n) :
    l.map (fun r => if r.id = n then f r else r) = l := by
  induction l with
  | nil => rfl
  | cons a l ih =>
    have ha := h a (List.mem_cons_self ..)
    rw [List.map_cons, if_neg (by omega), ih (fun q hq => h q (List.mem_cons_of_mem _ hq))]

theorem modPort_modPort (s : State) (p : Nat) (f g : Port → Port) : modPort (modPort s p f) p g = modPort s p (fun x => g (f x)) := by
  have h : port (modPort s p f) p = f (port s p) := port_modPort s p f
  show setPort (modPort s p f) p (g (port (modPort s p f) p)) = _
  rw [h]
  unfold modPort setPort
  rw [Tab.put_put]

/-- What taking a header does, the counting apart. -/
theorem headed_keeps (s : State) (p : Fin 16) (opc : Byte) (h : Hdr) (aux : Word) :
    Booked (modPort { s with reqs := s.reqs ++ [newReq s p opc h aux false], nextReq := s.nextReq + 1 } p (fun x =>
      { x with hdrCredits := x.hdrCredits - 1
               waiting := x.waiting ++ (if takesBeats opc then [s.nextReq] else []) })) (headed s p opc h aux) := by
  unfold headed
  refine Booked.trans ?_ (booked_countHeader ..)
  unfold listReq
  dsimp only
  have e : (newReq s p opc h aux false).opc = opc := rfl
  have e2 : (newReq s p opc h aux false).port = p := rfl
  have e3 : (newReq s p opc h aux false).id = s.nextReq := rfl
  rw [e, e2, e3]
  split
  · rw [modPort_modPort]; exact .refl _
  · simp only [List.append_nil]; exact .refl _

theorem port_booked {s t : State} (h : Booked s t) (p : Nat) : port t p = port s p := by
  unfold port; rw [h.keeps.2.2.2.2.2.1]

/-- The request of a header that has been taken. -/
theorem headed_reqs (s : State) (p : Fin 16) (opc : Byte) (h : Hdr) (aux : Word) :
    (headed s p opc h aux).reqs = s.reqs ++ [newReq s p opc h aux false] := (headed_keeps s p opc h aux).keeps.2.2.2.2.2.2.1

theorem headed_port (s : State) (p : Fin 16) (opc : Byte) (h : Hdr) (aux : Word) :
    port (headed s p opc h aux) p = { port s p with hdrCredits := (port s p).hdrCredits - 1
                                                    waiting := (port s p).waiting ++ (if takesBeats opc then [s.nextReq] else []) } := by
  rw [port_booked (headed_keeps s p opc h aux), port_modPort]; rfl

/-- A beat that is due: it goes to its request, which is judged after the last one (R38). -/
theorem presentBeat_due (s : State) (p : Fin 16) (b : Beat) (id : Nat) (rest : List Nat) (r : Req)
    (ho : s.pins.portOpen = true) (hc : s.clk.coreRun = true) (hb : 0 < (port s p).beatCredits) (hw : (port s p).wbuf = [])
    (hi : (port s p).waiting = id :: rest) (hr : findReq s id = some r) (hg : r.ghost = false) (hl : r.beats.length < 65) :
    presentBeat s p b =
      (let t := modReq (modPort s p (fun x => { x with beatCredits := x.beatCredits - 1, beatHeld := x.beatHeld + 1, wbuf := []
                                                       waiting := if b.last then rest else x.waiting }))
        id (fun q => { q with beats := q.beats ++ [b] })
       if b.last then judge t id else t) := by
  unfold presentBeat
  rw [if_neg (by simp [ho, hc]), if_neg (by omega)]
  dsimp only
  have hp : port (modPort s p (fun x => { x with beatCredits := x.beatCredits - 1, beatHeld := x.beatHeld + 1, wbuf := x.wbuf ++ [b] })) p =
      { port s p with beatCredits := (port s p).beatCredits - 1, beatHeld := (port s p).beatHeld + 1, wbuf := [b] } := by
    rw [port_modPort, hw]; rfl
  rw [hp]
  show feed 1 _ _ = _
  show feedOne _ _ = _
  unfold feedOne
  dsimp only
  rw [hp]
  simp only [hi]
  rw [modPort_modPort]
  have hf : ∀ f : Port → Port, findReq (modPort s p f) id = some r := fun f => hr
  rw [hf]
  have hl2 : ¬ 65 ≤ r.beats.length := by omega
  simp only [hg, Bool.false_eq_true, if_false, if_neg hl2]

/-- The state after some of the beats. -/
def partly (s : State) (p : Fin 16) (opc : Byte) (h : Hdr) (aux : Word) (bs : List Beat) (w : List Nat) : State :=
  modReq (modPort (headed s p opc h aux) p (fun x =>
    { x with beatCredits := x.beatCredits - bs.length, beatHeld := x.beatHeld + bs.length, wbuf := [], waiting := w }))
    s.nextReq (fun q => { q with beats := bs })

theorem modReq_modReq (s : State) (id : Nat) (f g : Req → Req) (h : ∀ r, (f r).id = r.id) :
    modReq (modReq s id f) id g = modReq s id (fun r => g (f r)) := by
  unfold modReq
  dsimp only
  rw [List.map_map]
  congr 1
  apply List.map_congr_left
  intro r _
  show (if (if r.id = id then f r else r).id = id then g (if r.id = id then f r else r) else (if r.id = id then f r else r)) = _
  by_cases hr : r.id = id
  · simp [hr, h]
  · simp [hr]

theorem modPort_modReq (s : State) (p id : Nat) (f : Port → Port) (g : Req → Req) :
    modPort (modReq s id g) p f = modReq (modPort s p f) id g := rfl

/-- Taking a header again changes nothing more. -/
theorem headed_partly (s : State) (p : Fin 16) (opc : Byte) (h : Hdr) (aux : Word) (hf : IdsFresh s) (hb : takesBeats opc = true)
    (hw : (port s p).wbuf = []) (hi : (port s p).waiting = []) :
    partly s p opc h aux [] [s.nextReq] = headed s p opc h aux := by
  have hk := headed_keeps s p opc h aux
  have h1 : ∀ (g f : Port → Port) (X t : State), Booked (modPort X p g) t → f (g (port X p)) = g (port X p) → modPort t p f = t := by
    intro g f X t hbk he
    have hp : port t p = g (port X p) := by rw [port_booked hbk, port_modPort]
    have hports : t.ports = Tab.put X.ports p (g (port X p)) := hbk.keeps.2.2.2.2.2.1
    show setPort t p (f (port t p)) = t
    rw [hp, he]
    unfold setPort
    have : Tab.put t.ports p (g (port X p)) = t.ports := by rw [hports, Tab.put_put]
    rw [this]
  unfold partly
  rw [h1 _ _ _ _ hk]
  · unfold modReq
    have : (headed s p opc h aux).reqs.map (fun r => if r.id = s.nextReq then { r with beats := [] } else r) = (headed s p opc h aux).reqs := by
      rw [headed_reqs, List.map_append, map_fresh _ hf]
      show _ ++ [if s.nextReq = s.nextReq then _ else _] = _
      rw [if_pos rfl]; rfl
    rw [this]
  · have key : ∀ x : Port, x.wbuf = [] → x.waiting = [] →
        (fun x : Port => ({ x with beatCredits := x.beatCredits - ([] : List Beat).length, beatHeld := x.beatHeld + ([] : List Beat).length
                                   wbuf := [], waiting := [s.nextReq] } : Port))
          ({ x with hdrCredits := x.hdrCredits - 1, waiting := x.waiting ++ [s.nextReq] } : Port) =
        ({ x with hdrCredits := x.hdrCredits - 1, waiting := x.waiting ++ [s.nextReq] } : Port) := by
      intro x h1 h2
      cases x
      simp_all
    rw [hb, if_pos rfl]
    exact key (port s p) hw hi

theorem partly_find (s : State) (p : Fin 16) (opc : Byte) (h : Hdr) (aux : Word) (bs : List Beat) (w : List Nat) (hf : IdsFresh s) :
    findReq (partly s p opc h aux bs w) s.nextReq = some { newReq s p opc h aux false with beats := bs } := by
  have : (partly s p opc h aux bs w).reqs = s.reqs ++ [{ newReq s p opc h aux false with beats := bs }] := by
    show (headed s p opc h aux).reqs.map _ = _
    rw [headed_reqs, List.map_append, map_fresh _ hf]
    show _ ++ [if s.nextReq = s.nextReq then _ else _] = _
    rw [if_pos rfl]
  unfold findReq
  rw [this]
  exact find_append_fresh rfl hf

theorem partly_port (s : State) (p : Fin 16) (opc : Byte) (h : Hdr) (aux : Word) (bs : List Beat) (w : List Nat) :
    port (partly s p opc h aux bs w) p = { port s p with
      hdrCredits := (port s p).hdrCredits - 1, beatCredits := (port s p).beatCredits - bs.length
      beatHeld := (port s p).beatHeld + bs.length, wbuf := [], waiting := w } := by
  unfold partly
  rw [port_modReq, port_modPort, headed_port]

/-- The rest of a group of beats: the request is judged with all of them. -/
theorem present_rest (s : State) (p : Fin 16) (opc : Byte) (h : Hdr) (aux : Word) (hf : IdsFresh s)
    (ho : s.pins.portOpen = true) (hc : s.clk.coreRun = true) :
    ∀ (bs have_ : List Beat), bs ≠ [] → lastMarked bs = true → have_.length + bs.length ≤ 65 →
      have_.length + bs.length ≤ (port s p).beatCredits →
      bs.foldl (fun t b => presentBeat t p b) (partly s p opc h aux have_ [s.nextReq]) =
        judge (partly s p opc h aux (have_ ++ bs) []) s.nextReq
  | [], _, hne, _, _, _ => absurd rfl hne
  | b :: bs, have_, _, hm, hl, hcr => by
    have hk := (headed_keeps s p opc h aux).keeps
    have hlen : have_.length < 65 := by simp only [List.length_cons] at hl; omega
    have hcred : have_.length < (port s p).beatCredits := by simp only [List.length_cons] at hcr; omega
    rw [List.foldl_cons]
    rw [presentBeat_due (partly s p opc h aux have_ [s.nextReq]) p b s.nextReq [] { newReq s p opc h aux false with beats := have_ }
      (by show (headed s p opc h aux).pins.portOpen = true; rw [hk.2.2.2.2.1]; exact ho)
      (by show (headed s p opc h aux).clk.coreRun = true; rw [hk.2.2.1]; exact hc)
      (by rw [partly_port]; show 0 < (port s p).beatCredits - _; omega)
      (by rw [partly_port]) (by rw [partly_port]) (partly_find s p opc h aux have_ _ hf) rfl hlen]
    have e : ∀ w : List Nat, modReq (modPort (partly s p opc h aux have_ [s.nextReq]) p (fun x =>
        { x with beatCredits := x.beatCredits - 1, beatHeld := x.beatHeld + 1, wbuf := [], waiting := w }))
        s.nextReq (fun q => { q with beats := q.beats ++ [b] }) = partly s p opc h aux (have_ ++ [b]) w := by
      intro w
      unfold partly
      rw [modPort_modReq, modPort_modPort, modReq_modReq _ _ (fun q => { q with beats := have_ }) _ (fun _ => rfl)]
      simp only [List.length_append, List.length_cons, List.length_nil, Nat.zero_add, Nat.sub_sub, Nat.add_assoc]
    cases bs with
    | nil =>
      have hlast : b.last = true := hm
      dsimp only
      simp only [hlast, if_true]
      rw [e []]; rfl
    | cons b' bs' =>
      have hm' : b.last = false ∧ lastMarked (b' :: bs') = true := by
        unfold lastMarked at hm
        simp only [Bool.and_eq_true, Bool.not_eq_true'] at hm
        exact hm
      dsimp only
      simp only [hm'.1, Bool.false_eq_true, if_false]
      have e2 := e [s.nextReq]
      have e3 : modReq (modPort (partly s p opc h aux have_ [s.nextReq]) p (fun x =>
        { x with beatCredits := x.beatCredits - 1, beatHeld := x.beatHeld + 1, wbuf := [], waiting := x.waiting }))
        s.nextReq (fun q => { q with beats := q.beats ++ [b] }) = partly s p opc h aux (have_ ++ [b]) [s.nextReq] := by
        rw [← e2]
        congr 1
        unfold modPort
        rw [partly_port]
      rw [e3, present_rest s p opc h aux hf ho hc (b' :: bs') (have_ ++ [b]) (by simp) hm'.2
        (by simp only [List.length_append, List.length_cons, List.length_nil] at hl ⊢; omega)
        (by simp only [List.length_append, List.length_cons, List.length_nil] at hcr ⊢; omega)]
      simp

/-- A field in the high part of a concatenation. -/
theorem field_high {n m : Nat} (x : BitVec n) (y : BitVec m) (lo w : Nat) : field (x ++ y) (m + lo) w = field x lo w := by
  apply BitVec.eq_of_getLsbD_eq
  intro i hi
  simp only [field, BitVec.getLsbD_extractLsb', BitVec.getLsbD_append, hi, decide_true, Bool.true_and]
  rw [if_neg (by omega), show m + lo + i - m = lo + i by omega]

/-- The low part of a concatenation. -/
theorem field_low {n m : Nat} (x : BitVec n) (y : BitVec m) : field (x ++ y) 0 m = y := by
  apply BitVec.eq_of_getLsbD_eq
  intro i hi
  simp [field, BitVec.getLsbD_append, hi]

/-- REQ_HDR carries the opcode and the header's fields (R42, Table 2-2). -/
theorem hdr_round (opc : Byte) (h : Hdr) : hdrOpc (reqHdr opc h) = opc ∧ hdrOf (reqHdr opc h) = h := by
  obtain ⟨src, tag, cls, priv, tenant, deadline, addr, len, flags⟩ := h
  have e : clsOfCode (clsCode cls) = cls := by cases cls <;> rfl
  refine ⟨field_low .., ?_⟩
  have h_src : field (reqHdr opc ⟨src, tag, cls, priv, tenant, deadline, addr, len, flags⟩) 8 10 = src :=
    (field_high (m := 8) _ _ 0 10).trans (field_low ..)
  have h_tag : field (reqHdr opc ⟨src, tag, cls, priv, tenant, deadline, addr, len, flags⟩) 18 12 = tag :=
    (field_high (m := 8) _ _ 10 12).trans ((field_high (m := 10) _ _ 0 12).trans (field_low ..))
  have h_cls : field (reqHdr opc ⟨src, tag, cls, priv, tenant, deadline, addr, len, flags⟩) 30 2 = clsCode cls :=
    (field_high (m := 8) _ _ 22 2).trans ((field_high (m := 10) _ _ 12 2).trans ((field_high (m := 12) _ _ 0 2).trans (field_low ..)))
  have h_priv : field (reqHdr opc ⟨src, tag, cls, priv, tenant, deadline, addr, len, flags⟩) 32 2 = priv :=
    (field_high (m := 8) _ _ 24 2).trans ((field_high (m := 10) _ _ 14 2).trans ((field_high (m := 12) _ _ 2 2).trans ((field_high (m := 2) _ _ 0 2).trans (field_low ..))))
  have h_tenant : field (reqHdr opc ⟨src, tag, cls, priv, tenant, deadline, addr, len, flags⟩) 34 12 = tenant :=
    (field_high (m := 8) _ _ 26 12).trans ((field_high (m := 10) _ _ 16 12).trans ((field_high (m := 12) _ _ 4 12).trans ((field_high (m := 2) _ _ 2 12).trans ((field_high (m := 2) _ _ 0 12).trans (field_low ..)))))
  have h_deadline : field (reqHdr opc ⟨src, tag, cls, priv, tenant, deadline, addr, len, flags⟩) 46 24 = deadline :=
    (field_high (m := 8) _ _ 38 24).trans ((field_high (m := 10) _ _ 28 24).trans ((field_high (m := 12) _ _ 16 24).trans ((field_high (m := 2) _ _ 14 24).trans ((field_high (m := 2) _ _ 12 24).trans ((field_high (m := 12) _ _ 0 24).trans (field_low ..))))))
  have h_addr : field (reqHdr opc ⟨src, tag, cls, priv, tenant, deadline, addr, len, flags⟩) 70 40 = addr :=
    (field_high (m := 8) _ _ 62 40).trans ((field_high (m := 10) _ _ 52 40).trans ((field_high (m := 12) _ _ 40 40).trans ((field_high (m := 2) _ _ 38 40).trans ((field_high (m := 2) _ _ 36 40).trans ((field_high (m := 12) _ _ 24 40).trans ((field_high (m := 24) _ _ 0 40).trans (field_low ..)))))))
  have h_len : field (reqHdr opc ⟨src, tag, cls, priv, tenant, deadline, addr, len, flags⟩) 110 7 = len :=
    (field_high (m := 8) _ _ 102 7).trans ((field_high (m := 10) _ _ 92 7).trans ((field_high (m := 12) _ _ 80 7).trans ((field_high (m := 2) _ _ 78 7).trans ((field_high (m := 2) _ _ 76 7).trans ((field_high (m := 12) _ _ 64 7).trans ((field_high (m := 24) _ _ 40 7).trans ((field_high (m := 40) _ _ 0 7).trans (field_low ..))))))))
  have h_flags : field (reqHdr opc ⟨src, tag, cls, priv, tenant, deadline, addr, len, flags⟩) 117 8 = flags :=
    (field_high (m := 8) _ _ 109 8).trans ((field_high (m := 10) _ _ 99 8).trans ((field_high (m := 12) _ _ 87 8).trans ((field_high (m := 2) _ _ 85 8).trans ((field_high (m := 2) _ _ 83 8).trans ((field_high (m := 12) _ _ 71 8).trans ((field_high (m := 24) _ _ 47 8).trans ((field_high (m := 40) _ _ 7 8).trans ((field_high (m := 7) _ _ 0 8).trans (field_low ..)))))))))
  unfold hdrOf
  rw [h_src, h_tag, h_cls, h_priv, h_tenant, h_deadline, h_addr, h_len, h_flags, e]

/-- A request that its port takes is judged with all its beats (R35-R38). -/
theorem accept_ready {s : State} {p : Fin 16} {opc : Byte} {bs : List Beat} (h : Hdr) (aux : Word) (hr : PortReady s p bs.length)
    (hg : Grouped opc bs) : accept s p opc h aux bs = judgeNow (gathered s p opc h aux bs) s.nextReq := by
  show _ = judge (taken s p opc h aux bs) s.nextReq
  obtain ⟨ho, hc, hga, hh, hb, hw, hi, hf⟩ := hr
  unfold accept taken acceptHdr
  dsimp only
  rw [(hdr_round opc h).1, (hdr_round opc h).2]
  rw [if_neg (by simp [ho, hc]), if_neg (by omega), if_neg (by simp [hga])]
  cases bs with
  | nil =>
    have ht : takesBeats opc = false := hg.1
    show (takeHeader s p opc h aux) = judge (headed s p opc h aux) s.nextReq
    unfold takeHeader
    simp only [ht, Bool.false_eq_true, if_false]
    rfl
  | cons b bs =>
    have ht : takesBeats opc = true := hg.1
    have hth : takeHeader s p opc h aux = headed s p opc h aux := by
      unfold takeHeader
      simp only [ht, if_true]
      show feed (port (headed s p opc h aux) p).wbuf.length (headed s p opc h aux) p = _
      rw [headed_port]
      show feed (port s p).wbuf.length _ _ = _
      rw [hw]; rfl
    rw [hth, ← headed_partly s p opc h aux hf ht hw hi]
    rw [present_rest s p opc h aux hf ho hc (b :: bs) [] (by simp) hg.2.2 (by simpa using hg.2.1) (by simpa using hb), if_neg (by simp)]
    rw [headed_partly s p opc h aux hf ht hw hi]
    rfl

theorem find_modReq (s : State) (id : Nat) (r : Req) (f : Req → Req) (hi : ∀ q, (f q).id = q.id) (h : findReq s id = some r) :
    findReq (modReq s id f) id = some (f r) := by
  unfold findReq modReq at *
  dsimp only
  revert h
  generalize s.reqs = l
  intro h
  induction l with
  | nil => cases h
  | cons a l ih =>
    rw [List.map_cons]
    by_cases ha : a.id = id
    · rw [if_pos ha, List.find?_cons_of_pos (by simp [hi, ha])]
      rw [List.find?_cons_of_pos (by simp [ha])] at h
      cases h; rfl
    · rw [if_neg ha, List.find?_cons_of_neg (by simp [ha])]
      rw [List.find?_cons_of_neg (by simp [ha])] at h
      exact ih h

/-- The request that arrives is listed once it has its beats. -/
theorem gathered_find {s : State} (p : Fin 16) (opc : Byte) (h : Hdr) (aux : Word) (bs : List Beat) (hf : IdsFresh s) :
    findReq (gathered s p opc h aux bs) s.nextReq = some (arrived s p opc h aux bs) := by
  refine find_modReq _ _ { newReq s p opc h aux false with beats := bs } (fun q => { q with gen := wchkGen (taken s p opc h aux bs) q.port })
    (fun _ => rfl) ?_
  unfold taken
  cases bs with
  | nil =>
    show findReq (headed s p opc h aux) s.nextReq = _
    unfold findReq
    rw [headed_reqs]
    exact find_append_fresh rfl hf
  | cons b bs => exact partly_find s p opc h aux (b :: bs) [] hf

/-! ### Admission's first steps -/

theorem find_modReq_other (s : State) (id j : Nat) (f : Req → Req) (hi : ∀ q, (f q).id = q.id) (h : j ≠ id) :
    findReq (modReq s id f) j = findReq s j := by
  unfold findReq modReq
  dsimp only
  generalize s.reqs = l
  induction l with
  | nil => rfl
  | cons a l ih =>
    rw [List.map_cons]
    by_cases ha : a.id = id
    · rw [if_pos ha, List.find?_cons_of_neg (by simp [hi, ha]; omega), List.find?_cons_of_neg (by simp [ha]; omega)]; exact ih
    · rw [if_neg ha]
      by_cases hj : a.id = j
      · rw [List.find?_cons_of_pos (by simp [hj]), List.find?_cons_of_pos (by simp [hj])]
      · rw [List.find?_cons_of_neg (by simp [hj]), List.find?_cons_of_neg (by simp [hj])]; exact ih

theorem touch_reqs (l : List Nat) (s : State) : (l.foldl hdlTouch s).reqs = s.reqs := by
  induction l generalizing s with
  | nil => rfl
  | cons a l ih =>
    rw [List.foldl_cons, ih]
    unfold hdlTouch modHdlEntry
    dsimp only
    try split
    all_goals rfl

/-- A request that steps 1 to 3 pass goes on to step 4 with its translation (R17, Table 2-10). -/
theorem judge_passes {s : State} {r : Req} {j : Judged} (hf : findReq s r.id = some r) (h : Passes s r j) :
    judgeNow s r.id = step4 (placed (lookedUp s r).1 (lookedUp s r).2 j) (withPlaces (lookedUp s r).2 j) := by
  obtain ⟨h1, h2, ha, h3, h4, h5, h6, h7⟩ := h
  unfold judgeNow
  rw [hf]
  simp only [h1, h2, Bool.false_eq_true, if_false]
  unfold lookup
  unfold lookedUp namedBy at *
  cases hn : r.names with
  | none =>
    simp only [hn, Option.bind_none] at h4 h6 h7 ⊢
    unfold step2
    simp only [h4, h5]
    show (match check3 (placed s r j) (withPlaces r j) with | some (o, d) => _ | none => _) = _
    rw [h6]
    show (if holds4 (placed s r j) (withPlaces r j) = true then _ else _) = _
    rw [h7]
    rfl
  | some n =>
    obtain ⟨hd, o⟩ := n
    simp only [hn, Option.bind_some, Option.all_some] at h3 h4 h6 h7 ⊢
    simp only [ha, Bool.false_eq_true, if_false]
    generalize r.needs s hd o = need at *
    have hg : ∀ x ∈ need, ∃ e, hdlGet s x = some e ∧ e.bad = false := by
      intro x hx
      have := List.all_eq_true.1 h3 x hx
      cases hx2 : hdlGet s x with
      | none => rw [hx2] at this; cases this
      | some e => rw [hx2] at this; exact ⟨e, rfl, by simpa using this⟩
    have hall : need.all (hdlCached (modReq s r.id (fun q => { q with handles := need.map (BitVec.ofNat 16) }))) = true := by
      rw [List.all_eq_true]
      intro x hx
      obtain ⟨e, he, hb⟩ := hg x hx
      show (hdlGet s x).isSome = true
      rw [he]; rfl
    have hfind : findReq (need.foldl hdlTouch (modReq s r.id (fun q => { q with handles := need.map (BitVec.ofNat 16) }))) r.id =
        some { r with handles := need.map (BitVec.ofNat 16) } := by
      unfold findReq
      rw [touch_reqs]
      exact find_modReq s r.id r _ (fun _ => rfl) hf
    rw [if_neg]
    swap
    · rw [List.any_eq_true]
      rintro ⟨x, hx, hbx⟩
      obtain ⟨e, he, hb⟩ := hg x hx
      have he' : hdlGet (modReq s r.id (fun q => { q with handles := need.map (BitVec.ofNat 16) })) x = some e := he
      rw [he'] at hbx
      simp [hb] at hbx
    simp only [hall, if_true, hfind]
    generalize List.foldl hdlTouch _ need = u at *
    unfold step2
    simp only [h4, h5]
    show (match check3 (placed u { r with handles := need.map (BitVec.ofNat 16) } j) (withPlaces { r with handles := need.map (BitVec.ofNat 16) } j) with | some (o, d) => _ | none => _) = _
    rw [h6]
    show (if holds4 (placed u { r with handles := need.map (BitVec.ofNat 16) } j) (withPlaces { r with handles := need.map (BitVec.ofNat 16) } j) = true then _ else _) = _
    rw [h7]
    rfl

/-- The port after a request has been taken. -/
theorem gathered_port {s : State} {p : Fin 16} {opc : Byte} {bs : List Beat} (h : Hdr) (aux : Word) (hr : PortReady s p bs.length)
    (hg : Grouped opc bs) : port (gathered s p opc h aux bs) p = { port s p with
      hdrCredits := (port s p).hdrCredits - 1, beatCredits := (port s p).beatCredits - bs.length
      beatHeld := (port s p).beatHeld + bs.length } := by
  obtain ⟨-, -, -, -, -, hw, hi, -⟩ := hr
  unfold gathered
  rw [port_modReq]
  cases bs with
  | nil =>
    have ht : takesBeats opc = false := hg.1
    show port (headed s p opc h aux) p = _
    rw [headed_port, ht]
    generalize port s p = x at *
    cases x
    simp_all
  | cons b bs =>
    show port (partly s p opc h aux (b :: bs) []) p = _
    rw [partly_port]
    generalize port s p = x at *
    cases x
    simp_all

theorem gathered_port_other (s : State) (p : Fin 16) (opc : Byte) (h : Hdr) (aux : Word) (bs : List Beat) (e : Nat) (he : e ≠ p.val) :
    port (gathered s p opc h aux bs) e = port s e := by
  have hb : port (headed s p opc h aux) e = port s e := by
    rw [port_booked (headed_keeps s p opc h aux), port_modPort_other _ _ _ _ he]; rfl
  unfold gathered
  rw [port_modReq]
  unfold taken
  split
  · exact hb
  · rw [port_modReq, port_modPort_other _ _ _ _ he]; exact hb

/-- What taking a request changes, the counting apart. -/
theorem gathered_keeps (s : State) (p : Fin 16) (opc : Byte) (h : Hdr) (aux : Word) (bs : List Beat) :
    Booked { s with ports := (gathered s p opc h aux bs).ports, reqs := (gathered s p opc h aux bs).reqs
                    nextReq := (gathered s p opc h aux bs).nextReq } (gathered s p opc h aux bs) ∧
    (gathered s p opc h aux bs).nextReq = s.nextReq + 1 := by
  have hk := headed_keeps s p opc h aux
  have hn := hk.keeps.2.2.2.2.2.2.2.1
  have hb : Booked { s with ports := (headed s p opc h aux).ports, reqs := (headed s p opc h aux).reqs
                            nextReq := (headed s p opc h aux).nextReq } (headed s p opc h aux) := by
    have hp := hk.keeps.2.2.2.2.2.1
    have hq := hk.keeps.2.2.2.2.2.2.1
    rw [hp, hq, hn]
    exact hk
  have hk : Booked { s with ports := (taken s p opc h aux bs).ports, reqs := (gathered s p opc h aux bs).reqs
                            nextReq := (taken s p opc h aux bs).nextReq } (gathered s p opc h aux bs) ∧
      (taken s p opc h aux bs).nextReq = s.nextReq + 1 := by
    have key : ∀ (t : State) (x : Tab Port) (y : List Req), Booked { s with ports := t.ports, reqs := t.reqs, nextReq := t.nextReq } t →
        Booked { s with ports := x, reqs := y, nextReq := t.nextReq } { t with ports := x, reqs := y } := by
      intro t x y h
      have e : t = _ := h
      unfold Booked
      generalize t.ports = a, t.reqs = b, t.nextReq = c, t.regs = d, t.attn = f, t.pmu = g, t.log = l at *
      rw [e]
    have ht : Booked { s with ports := (taken s p opc h aux bs).ports, reqs := (taken s p opc h aux bs).reqs
                              nextReq := (taken s p opc h aux bs).nextReq } (taken s p opc h aux bs) ∧
        (taken s p opc h aux bs).nextReq = s.nextReq + 1 := by
      unfold taken
      split
      · exact ⟨hb, hn⟩
      · exact ⟨key (headed s p opc h aux) _ _ hb, hn⟩
    exact ⟨key (taken s p opc h aux bs) _ _ ht.1, ht.2⟩
  exact hk

theorem gathered_find_other {s : State} (p : Fin 16) (opc : Byte) (h : Hdr) (aux : Word) (bs : List Beat) (id : Nat) (hne : id ≠ s.nextReq) :
    findReq (gathered s p opc h aux bs) id = findReq s id := by
  have hb : findReq (headed s p opc h aux) id = findReq s id := by
    unfold findReq; rw [headed_reqs, List.find?_append]
    have : ([newReq s p opc h aux false].find? (fun r => r.id == id)) = none := by
      rw [List.find?_cons_of_neg]; rfl
      show ¬ ((s.nextReq == id) = true); simp; exact fun h => hne h.symm
    rw [this]; simp
  refine (find_modReq_other (taken s p opc h aux bs) _ _ (fun q => { q with gen := wchkGen (taken s p opc h aux bs) q.port })
    (fun _ => rfl) hne).trans ?_
  unfold taken
  split
  · exact hb
  · exact (find_modReq_other (modPort (headed s p opc h aux) p _) _ _ (fun q => { q with beats := bs }) (fun _ => rfl) hne).trans hb

/-- A request row is what arrives at its port. -/
theorem exec_requestOf {i : Instr} {p : Fin 16} {opc : Byte} {h : Hdr} {aux : Word} {bs : List Beat} (e : requestOf i = some (p, opc, h, aux, bs)) (s : State) :
    exec i s = .next (accept s p opc h aux bs) := by
  cases i <;> simp only [requestOf] at e <;> first | (cases e; rfl) | (simp at e)

/-- The order of arrival that a handle command takes at the HDL unit (R88). -/
def afterStep4 (s : State) (r : Req) : State :=
  if isHdlCmd r.opc then { s with hdl := { s.hdl with arrivals := s.hdl.arrivals + 1 } } else s

/-- Where step 4 leaves a request that is no configuration request (R57, R88). -/
theorem step4_waits (s : State) (r : Req) (hc : isCfg r.opc = false) :
    ∃ f : Req → Req, step4 s r = modReq (afterStep4 s r) r.id f ∧ ∀ q, (f q).stage = (if r.opc = opFence then .fence else if isHdlCmd r.opc then .handle else .step5) ∧
      ∃ c d x y, f q = { q with cls := c, dl := d, slack := x, hdlTurn := y, stage := (f q).stage } := by
  have hf : isHdlCmd opFence = false := by decide
  have hm : ∀ (t : State) (g h : Req → Req), (∀ q, (g q).id = q.id) → modReq (modReq t r.id g) r.id h = modReq t r.id (fun q => h (g q)) :=
    fun t g h hg => modReq_modReq t r.id g h hg
  unfold step4
  generalize reqClsDl s r = cd
  obtain ⟨cls, dl⟩ := cd
  dsimp only
  by_cases h1 : r.opc = opFence
  · have : isHdlCmd r.opc = false := by rw [h1]; exact hf
    have hcl : classless r.opc = true := by rw [h1]; rfl
    rw [if_pos h1, if_pos hcl]
    refine ⟨fun q => { q with stage := .fence }, ?_, fun q => ⟨by simp [h1], q.cls, q.dl, q.slack, q.hdlTurn, rfl⟩⟩
    unfold afterStep4
    rw [this]; rfl
  · rw [if_neg h1]
    by_cases h2 : isHdlCmd r.opc = true
    · have hcl : classless r.opc = true := by unfold classless; rw [h2]; simp
      rw [if_pos h2, if_pos hcl]
      refine ⟨fun q => { q with stage := .handle, hdlTurn := some (s.hdl.arrivals, dl) }, ?_,
        fun q => ⟨by simp [h1, h2], q.cls, q.dl, q.slack, some (s.hdl.arrivals, dl), rfl⟩⟩
      unfold afterStep4
      rw [if_pos h2]
    · rw [if_neg h2]
      have key : ∀ (T u : State) (P : (Req → Req) → Prop), (∃ f, setStage T r.id .step5 = modReq u r.id f ∧ P f) →
          ∃ f, (match firstStep5 (setStage T r.id .step5) r.port with
            | some q => if q.id = r.id ∧ isCfg r.opc = true then passStep5 (setStage T r.id .step5) q else setStage T r.id .step5
            | none => setStage T r.id .step5) = modReq u r.id f ∧ P f := by
        rintro T u P ⟨f, e, hp⟩
        refine ⟨f, Eq.trans ?_ e, hp⟩
        split
        · rw [if_neg (by simp [hc])]
        · rfl
      refine key _ _ _ ?_
      have h2' : isHdlCmd r.opc = false := by simpa using h2
      have ha : afterStep4 s r = s := by unfold afterStep4; rw [h2']; rfl
      rw [ha]
      by_cases h3 : classless r.opc = true
      · rw [if_pos h3]
        exact ⟨fun q => { q with stage := .step5 }, rfl, fun q => ⟨by simp [h1, h2'], q.cls, q.dl, q.slack, q.hdlTurn, rfl⟩⟩
      · rw [if_neg h3]
        exact ⟨fun q => { q with cls := cls, dl := some dl, slack := some (dl - (s.time.blk.toNat : Int)), stage := .step5 },
          hm s (fun q => { q with cls := cls, dl := some dl, slack := some (dl - (s.time.blk.toNat : Int)) }) _ (fun _ => rfl),
          fun q => ⟨by simp [h1, h2'], cls, some dl, some (dl - (s.time.blk.toNat : Int)), q.hdlTurn, rfl⟩⟩

/-! ### Replies -/

/-- The reply that a final outcome leaves at its port (R40, R50). -/
def replyOf (s : State) (r : Req) (o : Outcome) (d : Byte) (data : List RplData) : Reply :=
  { id := r.id, tag := r.h.tag, lsrc := field r.h.src 0 8, outcome := o.code, detail := d, beats := data, sent := 0,
    dl := (replyDl s r).1, cls := (replyDl s r).2, readyCyc := s.time.cyc,
    sectors := if data.isEmpty then 0 else if r.opc = opRd then r.n else r.rdata.length, hdrCredit := !r.ghost && r.tAdmit.isNone,
    sampled := if r.sampled then some { r with beats := [], rdata := [], secs := [] } else none }

theorem booked_replyCauses (s : State) (p : Nat) (o : Outcome) (d : Byte) : Booked s (replyCauses s p o d) := by
  unfold replyCauses
  (repeat' split) <;> first | exact booked_latch .. | exact .refl s

/-- What a reply does, the causes it latches apart. -/
theorem replyReq_booked (s : State) (r : Req) (o : Outcome) (d : Byte) (data : List RplData) :
    Booked (modPort (releaseRes (modReq (if r.stage = .admitted || r.ghost then s else freeBeats s r.port r.beats.length) r.id
      (fun q => { q with stage := if q.ghost && q.stage == .beats then .beats else .replied, beats := [], rdata := [] })) r.id)
      r.port (fun x => { x with replies := x.replies ++ [replyOf s r o d data] })) (replyReq s r o d data) := by
  unfold replyReq
  exact booked_replyCauses ..

theorem replyReq_port (s : State) (r : Req) (o : Outcome) (d : Byte) (data : List RplData) :
    port (replyReq s r o d data) r.port =
      (let x := port (if r.stage = .admitted || r.ghost then s else freeBeats s r.port r.beats.length) r.port
       { x with replies := x.replies ++ [replyOf s r o d data] }) := by
  rw [port_booked (replyReq_booked s r o d data), port_modPort]
  rfl

theorem replyReq_find_other (s : State) (r : Req) (o : Outcome) (d : Byte) (data : List RplData) (id : Nat) (h : id ≠ r.id) :
    findReq (replyReq s r o d data) id = findReq s id := by
  have e := (replyReq_booked s r o d data).keeps.2.2.2.2.2.2.1
  unfold findReq
  rw [e]
  refine (find_modReq_other _ _ _ (fun q => { q with stage := if q.ghost && q.stage == .beats then .beats else .replied
                                                     beats := [], rdata := [] }) (fun _ => rfl) h).trans ?_
  split <;> rfl

/-- What a reply leaves alone. -/
theorem replyReq_keeps (s : State) (r : Req) (o : Outcome) (d : Byte) (data : List RplData) :
    (replyReq s r o d data).chans = s.chans ∧ (replyReq s r o d data).stack = s.stack ∧ (replyReq s r o d data).hdl = s.hdl ∧
    (replyReq s r o d data).pins = s.pins ∧ (replyReq s r o d data).thm = s.thm ∧ (replyReq s r o d data).time = s.time ∧
    (replyReq s r o d data).nextReq = s.nextReq := by
  have e := (replyReq_booked s r o d data).keeps
  generalize replyReq s r o d data = t at *
  obtain ⟨-, e1, -, -, e2, -, -, e3, -, e4, -, e5, -, -, -, -, -, -, e6, -, -, -, -, e7, -⟩ := e
  rw [e1, e2, e3, e4, e5, e6, e7]
  split <;> exact ⟨rfl, rfl, rfl, rfl, rfl, rfl, rfl⟩

/-! ### Requests that nothing holds -/

theorem goOn_idle (s : State) (id : Nat) (h : ∀ r, findReq s id = some r → r.stage ≠ .hold2 ∧ r.stage ≠ .fetch ∧ r.stage ≠ .hold4) :
    goOn s id = s := by
  unfold goOn
  cases hf : findReq s id with
  | none => rfl
  | some r =>
    obtain ⟨h1, h2, h3⟩ := h r hf
    dsimp only
    cases hs : r.stage <;> simp_all

theorem foldl_goOn_idle (s : State) (l : List Nat) (h : ∀ r ∈ s.reqs, r.stage ≠ .hold2 ∧ r.stage ≠ .fetch ∧ r.stage ≠ .hold4) :
    l.foldl goOn s = s := by
  induction l with
  | nil => rfl
  | cons a l ih =>
    rw [List.foldl_cons, goOn_idle s a (fun r hr => h r (List.mem_of_find?_eq_some hr))]
    exact ih

/-- An HDL_OP command that has been judged does nothing more. -/
theorem hdlOpRun_idle (s : State) (h : s.hdl.op.all (·.judged) = true) : hdlOpRun s = s := by
  unfold hdlOpRun
  cases ho : s.hdl.op with
  | none => rfl
  | some o =>
    rw [ho] at h
    dsimp only
    rw [if_pos (by simpa using h)]

/-- With no request held between the steps and no HDL_OP command waiting, none goes on. -/
theorem pumpAll_idle (s : State) (ho : s.hdl.op.all (·.judged) = true)
    (h : ∀ r ∈ s.reqs, r.stage ≠ .hold2 ∧ r.stage ≠ .fetch ∧ r.stage ≠ .hold4) : pumpAll s = s := by
  have hp : ∀ p, pump s p = s := fun p => foldl_goOn_idle s _ h
  unfold pumpAll forN
  rw [hdlOpRun_idle s ho]
  generalize List.range 16 = l
  induction l with
  | nil => rfl
  | cons a l ih => rw [List.foldl_cons, hp]; exact ih

end Sys2Proof.Machine
end

