-- ==== Sys2Proof/Laws/Sound.lean ====
section
/-! SUPPORT. The operations that change the pins, the block's state, the writes' state or the list of requests: each keeps
the part and the command queue, and takes a state whose pins and identities are sound to one that is. -/

set_option Elab.async false

namespace Sys2Proof.Machine

/-- The invariant of Safety.lean, read off the key of a state. -/
def KSound (k : Part × List Instr × Pins × BlkSt × WSt × List Nat × Nat) : Prop :=
  (k.2.2.1.portOpen = true ↔ k.2.2.2.1 = .ready ∨ k.2.2.2.1 = .lost) ∧
  (k.2.2.1.thermTripN = false ↔ k.2.2.2.2.1 = .trip) ∧
  (k.2.2.2.1 = .halted → k.2.2.1.stkPwrEn = false) ∧
  ∀ i ∈ k.2.2.2.2.2.1, i < k.2.2.2.2.2.2

theorem ksound_key (s : State) : KSound (key s) ↔ PinsSound s ∧ IdsFresh s := by
  unfold KSound key PinsSound IdsFresh
  simp only [List.mem_map, forall_exists_index, and_imp, forall_apply_eq_imp_iff₂, and_assoc]

/-- One key follows another, without a reset between: the part and the queue stay, HALTED and LOST stay, and soundness
carries over. -/
def Follows (a b : Part × List Instr × Pins × BlkSt × WSt × List Nat × Nat) : Prop :=
  b.1 = a.1 ∧ b.2.1 = a.2.1 ∧ (a.2.2.2.1 = .halted → b.2.2.2.1 = .halted) ∧
  (a.2.2.2.1 = .lost → b.2.2.2.1 = .lost) ∧ (KSound a → KSound b)

theorem Follows.refl (a) : Follows a a := ⟨rfl, rfl, id, id, id⟩

theorem Follows.trans {a b c} (h : Follows a b) (g : Follows b c) : Follows a c :=
  ⟨g.1.trans h.1, g.2.1.trans h.2.1, g.2.2.1 ∘ h.2.2.1, g.2.2.2.1 ∘ h.2.2.2.1, g.2.2.2.2 ∘ h.2.2.2.2⟩

theorem Follows.of_eq {a b} (h : b = a) : Follows a b := h ▸ .refl _

/-- After an operation that keeps the key. -/
theorem Follows.after {a b c} (h : Follows b c) (e : b = a) : Follows a c := e ▸ h

/-- Before an operation that keeps the key. -/
theorem Follows.before {a b c} (h : Follows a b) (e : c = b) : Follows a c := e ▸ h

/-- Keys that are equal show the block in one state. -/
theorem st_of_key {s t : State} (h : key t = key s) : t.blk.st = s.blk.st := congrArg (fun k => k.2.2.2.1) h

theorem Follows.ite {a} {c : Prop} [Decidable c] {t u : State} (h : Follows a (key t)) (g : Follows a (key u)) :
    Follows a (key (if c then t else u)) := by
  split
  · exact h
  · exact g

theorem key_setThm (s : State) (x : Thm) (h : x.w = s.thm.w) : key { s with thm := x } = key s :=
  key_of rfl rfl rfl rfl h rfl rfl

theorem latch_ite_key (c : Prop) [Decidable c] (s : State) (p b : Nat) : key (if c then latch s p b else s) = key s := by
  split
  · exact latch_key _ _ _
  · rfl

theorem bumpReg_ite_key (c : Prop) [Decidable c] (s : State) (p o l w v : Nat) :
    key (if c then bumpReg s p o l w v else s) = key s := by
  split
  · exact bumpReg_key _ _ _ _ _ _
  · rfl

theorem follows_foldl {α : Type} (f : State → α → State) (l : List α) (s : State)
    (h : ∀ t x, Follows (key t) (key (f t x))) : Follows (key s) (key (l.foldl f s)) := by
  induction l generalizing s with
  | nil => exact .refl _
  | cons x l ih => exact (h s x).trans (ih (f s x))


/-! ### Ports, LOST, halts -/

/-- A key whose PORT_OPEN is up. -/
def openKey (k : Part × List Instr × Pins × BlkSt × WSt × List Nat × Nat) :
    Part × List Instr × Pins × BlkSt × WSt × List Nat × Nat :=
  (k.1, k.2.1, { k.2.2.1 with portOpen := true }, k.2.2.2)

theorem openPorts_key (s : State) : key (openPorts s) = openKey (key s) := by
  unfold openPorts
  rw [forN_key _ _ _ (fun t k => by simp), key_mk]
  rfl

theorem bootEnd_key (s : State) : key (bootEnd s) = openKey (key s) := by
  unfold bootEnd
  dsimp only
  rw [openPorts_key, logEv_key, key_mk]
  rfl

/-- The key of a block that has just entered LOST: boot's ports open, those of service stay as they are. -/
def lostKey (k : Part × List Instr × Pins × BlkSt × WSt × List Nat × Nat) :
    Part × List Instr × Pins × BlkSt × WSt × List Nat × Nat :=
  if k.2.2.2.1 = .lost ∨ k.2.2.2.1 = .halted then k else
    (k.1, k.2.1, if k.2.2.2.1 = .boot then { k.2.2.1 with portOpen := true } else k.2.2.1, .lost, k.2.2.2.2)

theorem key_setSt (s : State) (b : Blk) :
    key { s with blk := b } = ((key s).1, (key s).2.1, (key s).2.2.1, b.st, (key s).2.2.2.2) := Eq.trans rfl rfl

theorem enterLost_key (s : State) (code : Nat) : key (enterLost s code) = lostKey (key s) := by
  unfold enterLost lostKey
  by_cases h : s.blk.st = .lost ∨ s.blk.st = .halted
  · rw [if_pos h, if_pos (show (key s).2.2.2.1 = .lost ∨ (key s).2.2.2.1 = .halted from h)]
  rw [if_neg h, if_neg (show ¬ ((key s).2.2.2.1 = .lost ∨ (key s).2.2.2.1 = .halted) from h)]
  dsimp only
  by_cases hb : s.blk.st = .boot
  · have h1 : (key s).2.2.2.1 = .boot := hb
    rw [if_pos (by simp [hb]), if_pos h1, bootEnd_key, key_mk, key_fold, lostSweeps_key, lostChans_key, lostOcts_key,
      lostReplies_key, key_setSt, logEv_key]
    rfl
  · have h1 : ¬ (key s).2.2.2.1 = .boot := hb
    rw [if_neg (by simp [hb]), if_neg h1, key_mk, key_fold, lostSweeps_key, lostChans_key, lostOcts_key, lostReplies_key,
      key_setSt, logEv_key]

theorem lostKey_follows (k) : Follows k (lostKey k) := by
  by_cases hl : k.2.2.2.1 = .lost ∨ k.2.2.2.1 = .halted
  · rw [lostKey, if_pos hl]; exact .refl _
  · rw [lostKey, if_neg hl]
    obtain ⟨hl1, hl2⟩ := not_or.1 hl
    refine ⟨rfl, rfl, fun h => absurd h hl2, fun _ => rfl, fun ⟨h1, h2, h3, h4⟩ => ⟨?_, ?_, fun h => by simp at h, h4⟩⟩
    · simp only [or_true, iff_true]
      split
      · rfl
      · rename_i hb
        refine h1.2 ?_
        cases hk : k.2.2.2.1 <;> simp_all
    · dsimp only; split <;> exact h2

theorem enterLost_follows (s : State) (code : Nat) : Follows (key s) (key (enterLost s code)) :=
  (lostKey_follows _).before (enterLost_key s code)

theorem closePorts_key (s : State) :
    key (closePorts s) = ((key s).1, (key s).2.1, { (key s).2.2.1 with portOpen := false }, (key s).2.2.2.1, (key s).2.2.2.2.1,
      [], (key s).2.2.2.2.2.2) := Eq.trans rfl rfl

/-- The key of a block that halts. -/
def haltKey (k : Part × List Instr × Pins × BlkSt × WSt × List Nat × Nat) :
    Part × List Instr × Pins × BlkSt × WSt × List Nat × Nat :=
  (k.1, k.2.1, { k.2.2.1 with portOpen := false, stkPwrEn := false }, .halted, k.2.2.2.2.1, [], k.2.2.2.2.2.2)

theorem haltWith_key (s : State) (cause : Nat) : key (haltWith s cause) = haltKey (key s) := by
  unfold haltWith
  dsimp only
  rw [logEv_key, key_mk]
  rfl

theorem haltWith_follows (s : State) (cause : Nat) (h : s.blk.st ≠ .lost) : Follows (key s) (key (haltWith s cause)) := by
  rw [haltWith_key]
  exact ⟨rfl, rfl, fun _ => rfl, fun e => absurd e h, fun ⟨_, h2, _, _⟩ =>
    ⟨by simp [haltKey], h2, fun _ => rfl, fun i hi => by simp [haltKey] at hi⟩⟩


/-! ### Requests -/

theorem listReq_follows (s : State) (r : Req) (h : r.id = s.nextReq) : Follows (key s) (key (listReq s r)) := by
  have hk : ∀ t : State, key (if takesBeats r.opc then modPort t r.port (fun x => { x with waiting := x.waiting ++ [r.id] }) else t)
      = key t := by
    intro t; split
    · exact modPort_key _ _ _
    · rfl
  unfold listReq
  dsimp only
  rw [hk, key_mk]
  refine ⟨rfl, rfl, id, id, fun ⟨h1, h2, h3, h4⟩ => ⟨h1, h2, h3, fun i hi => ?_⟩⟩
  change i ∈ (s.reqs ++ [r]).map (fun q => q.id) at hi
  simp only [List.map_append, List.map_cons, List.map_nil, List.mem_append, List.mem_singleton] at hi
  rcases hi with hi | rfl
  · exact Nat.lt_succ_of_lt (h4 i hi)
  · show r.id < s.nextReq + 1
    omega

theorem dropReq_follows (s : State) (id : Nat) : Follows (key s) (key (dropReq s id)) := by
  refine ⟨rfl, rfl, fun h => h, fun h => h, fun ⟨h1, h2, h3, h4⟩ => ⟨h1, h2, h3, fun i hi => h4 i ?_⟩⟩
  obtain ⟨r, hr, rfl⟩ := List.mem_map.1 hi
  exact List.mem_map.2 ⟨r, (List.mem_filter.1 hr).1, rfl⟩

theorem feedOne_follows (s : State) (p : Nat) : Follows (key s) (key (feedOne s p)) := by
  unfold feedOne
  (try dsimp only); (repeat' split) <;> first
    | exact .refl _
    | (refine .of_eq ?_; simp; done)
    | exact (dropReq_follows _ _).after (by simp)

theorem feed_follows (n : Nat) (s : State) (p : Nat) : Follows (key s) (key (feed n s p)) := by
  induction n generalizing s with
  | zero => exact .refl _
  | succ n ih => exact (feedOne_follows s p).trans (ih _)

theorem presentBeat_follows (s : State) (p : Fin 16) (b : Beat) : Follows (key s) (key (presentBeat s p b)) := by
  unfold presentBeat
  (try dsimp only); (repeat' split) <;> first
    | exact .refl _
    | (refine .of_eq ?_; simp; done)
    | exact (feed_follows _ _ _).after (by simp)

theorem creditReject_follows (s : State) (p : Fin 16) (opc : Byte) (h : Hdr) (aux : Word) :
    Follows (key s) (key (creditReject s p opc h aux)) :=
  (listReq_follows s (newReq s p opc h aux true) rfl).before (by unfold creditReject; simp)

theorem stubReply_follows (s : State) (p : Fin 16) (opc : Byte) (h : Hdr) (aux : Word) :
    Follows (key s) (key (stubReply s p opc h aux)) := by
  refine (listReq_follows s (newReq s p opc h aux true) rfl).before ?_
  unfold stubReply
  dsimp only
  split
  · rw [replyReq_key, modPort_key]
  · rw [replyReq_key, modPort_key]

theorem takeHeader_follows (s : State) (p : Fin 16) (opc : Byte) (h : Hdr) (aux : Word) :
    Follows (key s) (key (takeHeader s p opc h aux)) := by
  have hl := listReq_follows s (newReq s p opc h aux false) rfl
  unfold takeHeader
  dsimp only
  split
  · exact hl.trans ((feed_follows _ _ _).after (by simp))
  · exact hl.before (by simp)

theorem accept_follows (s : State) (p : Fin 16) (opc : Byte) (h : Hdr) (aux : Word) (bs : List Beat) :
    Follows (key s) (key (accept s p opc h aux bs)) := by
  unfold accept
  split
  · exact .refl _
  · refine Follows.trans ?_ (follows_foldl _ _ _ (fun t b => presentBeat_follows t p b))
    unfold acceptHdr
    dsimp only
    (repeat' split)
    · exact creditReject_follows _ _ _ _ _
    · exact stubReply_follows _ _ _ _ _
    · exact takeHeader_follows _ _ _ _ _

theorem cfgWrite_follows (s : State) (p : Fin 16) (h : Hdr) (page off : Nat) (v : Word) :
    Follows (key s) (key (cfgWrite s p h page off v)) := accept_follows _ _ _ _ _ _

theorem cfgRead_follows (s : State) (p : Fin 16) (h : Hdr) (page off : Nat) :
    Follows (key s) (key (cfgRead s p h page off)) := accept_follows _ _ _ _ _ _

theorem sendBeat_follows (s : State) (p : Nat) : Follows (key s) (key (sendBeat s p)) := by
  have hd : ∀ t : State, ∀ (i : Nat), Follows (key t) (key (match findReq t i with
      | some r => if r.stage = .replied then dropReq t i else t
      | none => t)) := by
    intro t i
    (repeat' split) <;> first
      | exact dropReq_follows _ _
      | exact .refl _
  have hf : ∀ (t : State) (c : Prop) [Decidable c] (q : Reply) (a : Bool), key (if c then firstBeat t p q a else t) = key t := by
    intro t c _ q a; split
    · exact firstBeat_key _ _ _ _
    · rfl
  unfold sendBeat
  dsimp only
  split
  · exact .refl _
  split
  · exact .refl _
  split
  · rw [pumpAll_key]
    refine (hd _ _).after ?_
    rw [attnReplySent_key, modPort_key, hf, modPort_key, attnBit_key]
  · refine .of_eq ?_
    rw [modPort_key, hf, modPort_key, attnBit_key]

/-! ### Faults, wires, bursts -/

theorem alertSeen_follows (s : State) (c : Nat) : Follows (key s) (key (alertSeen s c)) := by
  unfold alertSeen
  split
  · exact (enterLost_follows _ _).after (by simp)
  · exact .of_eq (by simp)

theorem wireFail_follows (s : State) (c w cause : Nat) : Follows (key s) (key (wireFail s c w cause)) := by
  unfold wireFail
  (try dsimp only); (repeat' split) <;> first
    | exact .refl _
    | (refine .of_eq ?_; simp; done)
    | exact (enterLost_follows _ _).after (by simp)

theorem wireRuns_follows (s : State) (c t : Nat) (corr : List (Nat × Nat × Byte)) :
    Follows (key s) (key (wireRuns s c t corr)) :=
  (follows_foldl _ _ _ (fun u w => wireFail_follows u c w 3)).after (modChan_key _ _ _)

theorem detect_follows (s : State) (page : Nat) (k : UnitKind) (src : FaultSource) (part : FaultPart) :
    Follows (key s) (key (detect s page k src part)) := by
  unfold detect
  (try dsimp only); (repeat' split) <;> first
    | exact .refl _
    | (refine .of_eq ?_; simp; done)
    | exact alertSeen_follows _ _

theorem noteUes_key (l : List Nat) (s : State) (p : Place) : key (l.foldl (fun t h => noteUe t p h) s) = key s :=
  key_foldl _ _ _ (fun _ _ => noteUe_key _ _ _)

theorem arrayBurst_follows (s : State) (ci t : Nat) (e : Entry) (p : Place) (raw : Sector) :
    Follows (key s) (key (arrayBurst s ci t e p raw)) := by
  have hw : ∀ (x : SecDec), Follows (key s) (key (x.ue.foldl (fun t h => noteUe t p h) (wireRuns (ceRise s ci x.corr.length) ci t x.corr))) :=
    fun x => ((wireRuns_follows _ _ _ _).after (ceRise_key _ _ _)).before (noteUes_key _ _ _)
  unfold arrayBurst
  (try dsimp only); (repeat' split) <;>
    (simp only [deliver_key, startRecon_key, rowFailure_key, queueWriteBack_key, gateReq_key]; exact hw _)

theorem plainBurst_follows (s : State) (ci t : Nat) (raw : Sector) : Follows (key s) (key (plainBurst s ci t raw).2) :=
  (wireRuns_follows _ _ _ _).after (by simp)

theorem flightBurst_follows (s : State) (ci t : Nat) (f : InFlight) (raw : Sector) :
    Follows (key s) (key (flightBurst s ci t f raw)) := by
  unfold flightBurst
  split
  · rw [hdlWake_key]; exact arrayBurst_follows _ _ _ _ _ _
  · exact (wireRuns_follows _ _ _ _).before (modChan_key _ _ _)
  · exact plainBurst_follows _ _ _ _
  · exact (plainBurst_follows s ci t raw).before (by simp)
  · exact (plainBurst_follows s ci t raw).before (by simp)

theorem readBurst_follows (s : State) (ci : Nat) (noise : BitVec 320) : Follows (key s) (key (readBurst s ci noise)) := by
  unfold readBurst
  (try dsimp only); (repeat' split) <;> first
    | exact .refl _
    | (rw [sbQueue_key]; exact (alertSeen_follows _ _).after (by simp))
    | (refine .of_eq ?_; simp; done)
    | exact (flightBurst_follows _ _ _ _ _).after (by simp)

/-! ### Temperature and power -/

theorem setW_key (s : State) (w : WSt) :
    key (setW s w) = ((key s).1, (key s).2.1, (key s).2.2.1, (key s).2.2.2.1, w, (key s).2.2.2.2.2) := Eq.trans rfl rfl

theorem setW_follows (s : State) (w : WSt) (h : s.thm.w ≠ .trip) (hw : w ≠ .trip) : Follows (key s) (key (setW s w)) := by
  rw [setW_key]
  refine ⟨rfl, rfl, id, id, fun ⟨h1, h2, h3, h4⟩ => ⟨h1, ?_, h3, h4⟩⟩
  have h2 : s.pins.thermTripN = false ↔ s.thm.w = .trip := h2
  show s.pins.thermTripN = false ↔ w = .trip
  simp [h2, h, hw]

theorem forbidState_key (s : State) : ∃ w, w ≠ .trip ∧ key (forbidState s) = key (setW s w) := by
  unfold forbidState
  split
  · exact ⟨.brim, by simp, by rw [bumpReg_key, latch_key]⟩
  · exact ⟨.hold, by simp, rfl⟩

theorem forbidState_follows (s : State) (h : s.thm.w ≠ .trip) : Follows (key s) (key (forbidState s)) := by
  obtain ⟨w, hw, e⟩ := forbidState_key s
  rw [e]
  exact setW_follows s w h hw

/-- What the start of a trip makes of the key: the pin falls with the state. -/
theorem tripStart_key (s : State) (i : Nat) :
    key (tripStart s i) =
      ((key s).1, (key s).2.1, { (key s).2.2.1 with thermTripN := false }, (key s).2.2.2.1, .trip, (key s).2.2.2.2.2) := by
  have hl : ∀ (c : Prop) [Decidable c] (t : State), key (if c then forN (nChan t) drainChan t else t) = key t := by
    intro c _ t; split
    · exact forN_key _ _ _ drainChan_key
    · rfl
  have hs : ∀ (t : State) (x : Thm), key { t with pins := { t.pins with thermTripN := false }, thm := x } =
      ((key t).1, (key t).2.1, { (key t).2.2.1 with thermTripN := false }, (key t).2.2.2.1, x.w, (key t).2.2.2.2.2) :=
    fun t x => Eq.trans rfl rfl
  unfold tripStart
  dsimp only
  rw [hl, overrides_key, abandonRepair_key, hs, latch_ite_key, latch_key, logEv_key]

theorem tripStart_follows (s : State) (i : Nat) : Follows (key s) (key (tripStart s i)) := by
  rw [tripStart_key]
  exact ⟨rfl, rfl, id, id, fun ⟨h1, h2, h3, h4⟩ => ⟨h1, by simp, h3, h4⟩⟩


theorem freqEnd_follows (s : State) : Follows (key s) (key (freqEnd s)) := by
  unfold freqEnd
  exact .ite ((tripStart_follows _ _).after (by simp)) (.of_eq (by simp))

theorem relockStack_follows (s : State) : Follows (key s) (key (relockStack s)) := by
  unfold relockStack
  refine .ite (.refl _) (.ite ?_ (.of_eq ?_))
  · exact (freqEnd_follows _).after (by simp)
  · simp

theorem tripCheck_follows (s : State) (i : Nat) : Follows (key s) (key (tripCheck s i)) := by
  unfold tripCheck
  exact .ite (.refl _) (.ite (tripStart_follows _ _) (.of_eq (by simp)))

theorem brimCheck_follows (s : State) (v : Int) : Follows (key s) (key (brimCheck s v)) := by
  unfold brimCheck
  split
  · rename_i h
    refine setW_follows s .hold ?_ (by simp)
    intro e
    simp [e] at h
  · exact .refl _

theorem forbidCheck_follows (s : State) (v : Int) : Follows (key s) (key (forbidCheck s v)) := by
  unfold forbidCheck
  dsimp only
  refine .ite (.refl _) ?_
  generalize ht : latch { s with thm := { s.thm with forbid := true } } pgThm 2 = t
  have hk : key t = key s := by rw [← ht, latch_key, key_mk]; rfl
  rw [← hk]
  split
  · rename_i h
    refine forbidState_follows t ?_
    intro e
    simp [e] at h
  · exact .refl _

theorem levelCheck_follows (s : State) (i : Nat) : Follows (key s) (key (levelCheck s i)) := by
  unfold levelCheck
  exact .ite (.refl _) (((tripCheck_follows _ _).trans (forbidCheck_follows _ _)).trans (brimCheck_follows _ _))

theorem polled_follows (s : State) (a : Nat) (w : Option Word) : Follows (key s) (key (polled s a w)) := by
  unfold polled
  exact .ite (.of_eq (by simp)) ((levelCheck_follows _ _).after (by simp))

/-! ### Sideband, calibration -/

theorem ppInvalid_follows (s : State) (why addr : Nat) : Follows (key s) (key (ppInvalid s why addr)) :=
  (enterLost_follows _ _).after (logEv_key _ _ _ _ _)

theorem sbFailed_follows (s : State) (x : Sb) (why : Nat) : Follows (key s) (key (sbFailed s x why)) := by
  unfold sbFailed
  (repeat' split) <;> first
    | exact .refl _
    | exact ppInvalid_follows _ _ _
    | exact polled_follows _ _ _
    | (refine .of_eq ?_; simp; done)

theorem sbAbandon_follows (s : State) (x : Sb) : Follows (key s) (key (sbAbandon s x)) := by
  unfold sbAbandon
  rw [sbNext_key]
  exact (sbFailed_follows _ _ _).after (latch_key _ _ _)

theorem sbRetry_follows (s : State) (x : Sb) : Follows (key s) (key (sbRetry s x)) := by
  unfold sbRetry
  split
  · exact .of_eq (by simp)
  · exact sbAbandon_follows _ _

theorem cmdCounters_follows (s : State) (c : Nat) (ws : List Word) : Follows (key s) (key (cmdCounters s c ws)) := by
  have hf : ∀ (l : List (Word × Nat)) (t : State), key (l.foldl (fun t e =>
      { t with link := { t.link with ceRounds := Tab.put t.link.ceRounds (10 * c + e.2)
                                      (if fieldNat e.1 0 16 = 0 then 0 else Tab.get t.link.ceRounds (10 * c + e.2) 0 + 1) } }) t) = key t :=
    fun l t => key_foldl _ _ _ (fun _ _ => Eq.trans rfl rfl)
  have hw : ∀ (t : State) (p : Prop) [Decidable p] (l : List Word), key (if p then sbWrite t 2 (BitVec.ofNat 8 c) 0x000 l else t) = key t := by
    intro t p _ l; split
    · exact sbWrite_key _ _ _ _ _
    · rfl
  unfold cmdCounters
  dsimp only
  split
  · refine (enterLost_follows _ _).after ?_
    rw [logEv_key, hw, setRegF_key, bumpReg_key, hf]
  · refine .of_eq ?_
    rw [hw, setRegF_key, bumpReg_key, hf]

theorem sbDeliver_follows (s : State) (x : Sb) (ws : List Word) : Follows (key s) (key (sbDeliver s x ws)) := by
  have hf : ∀ (l : List (Word × Nat)) (t : State),
      key (l.foldl (fun t e => setReg t pgTest (0x080 + 4 * e.2) e.1) t) = key t :=
    fun l t => key_foldl _ _ _ (fun _ _ => setReg_key _ _ _ _)
  unfold sbDeliver
  (try dsimp only); (repeat' split) <;> first
    | exact .refl _
    | exact polled_follows _ _ _
    | exact cmdCounters_follows _ _ _
    | exact sbFailed_follows _ _ _
    | (rw [t1500End_key, hf]; exact .refl _)
    | (refine .of_eq ?_; simp; done)

theorem sbTake_follows (s : State) (x : Sb) (crcOk : Bool) (st : Byte) (ws : List Word) :
    Follows (key s) (key (sbTake s x crcOk st ws)) := by
  unfold sbTake
  (try dsimp only); (repeat' split) <;> first
    | exact .refl _
    | exact (sbRetry_follows _ _).after (by simp)
    | (rw [sbNext_key]; exact (sbDeliver_follows _ _ _).after (by simp))
    | (rw [sbNext_key]; exact (sbFailed_follows _ _ _).after (by simp))
    | (refine .of_eq ?_; simp; done)

theorem sbResponse_follows (s : State) (noise : BitVec 528) : Follows (key s) (key (sbResponse s noise)) := by
  unfold sbResponse
  (try dsimp only); (repeat' split) <;> first
    | exact .refl _
    | exact sbTake_follows _ _ _ _ _

theorem sbTimeout_follows (s : State) : Follows (key s) (key (sbTimeout s)) := by
  unfold sbTimeout
  (try dsimp only); (repeat' split) <;> first
    | exact .refl _
    | exact (sbRetry_follows _ _).after (by simp)

theorem sweepFree_follows (s : State) (n bursts : Nat) (mismatch : Bool) :
    Follows (key s) (key (sweepFree s n bursts mismatch)) := by
  unfold sweepFree
  dsimp only
  split
  · exact .refl _
  refine .ite (.refl _) (.ite ?_ (.of_eq ?_))
  · refine (wireFail_follows _ _ _ _).after ?_
    rw [latch_ite_key, bumpReg_ite_key, modChan_key, setCal_key]
  · rw [steer_key, latch_ite_key, bumpReg_ite_key, modChan_key, setCal_key]

theorem probeJudge_follows (s : State) (n : Nat) (p : Probe) (diff : Word) : Follows (key s) (key (probeJudge s n p diff)) := by
  unfold probeJudge
  dsimp only
  refine .ite ?_ (.of_eq ?_)
  · refine (wireFail_follows _ _ _ _).after ?_
    rw [latch_ite_key, sweepRecord_key, modChan_key]
  · rw [latch_ite_key, sweepRecord_key, modChan_key]

theorem lnErrRead_follows (s : State) (n : Nat) : Follows (key s) (key (lnErrRead s n)) := by
  unfold lnErrRead
  dsimp only
  (repeat' split) <;> first
    | exact .refl _
    | exact (probeJudge_follows _ _ _ _).after (setCal_key _ _ _)
    | exact .of_eq (setCal_key _ _ _)

/-! ### Rounds, trips, supply -/

theorem slotReading_follows (s : State) (r : Option (BitVec 16)) : Follows (key s) (key (slotReading s r)) := by
  unfold slotReading
  (try dsimp only); (repeat' split) <;> first
    | exact .refl _
    | exact (levelCheck_follows _ _).after (by simp)
    | (refine .of_eq ?_; simp; done)

theorem forbidRound_follows (s : State) : Follows (key s) (key (forbidRound s)) := by
  unfold forbidRound
  split
  · exact .refl _
  split
  · dsimp only
    split
    · exact .of_eq (by simp)
    · rename_i h
      refine (setW_follows _ .open_ ?_ (by simp)).after (by simp)
      intro e
      simp_all
  · split
    · rename_i h
      refine forbidState_follows s ?_
      intro e
      simp [e] at h
    · exact .refl _

theorem roundLevels_follows (s : State) : Follows (key s) (key (roundLevels s)) := by
  unfold roundLevels
  dsimp only
  rw [tripRound_key]
  exact (forbidRound_follows _).after (by simp)

theorem roundJudge_follows (s : State) : Follows (key s) (key (roundJudge s)) := by
  unfold roundJudge
  extract_lets t x u
  have h : key u = key s := (key_setThm t _ rfl).trans (railAdjust_key s)
  clear_value u
  exact .ite ((roundLevels_follows u).after h) (.of_eq h)

theorem roundEnd_follows (s : State) : Follows (key s) (key (roundEnd s)) :=
  (roundJudge_follows s).before ((key_setThm _ _ rfl).trans ((roundCounts_key _).trans (roundUnits_key _)))

/-- What the end of a trip makes of the key: the pin rises as the state leaves TRIP. -/
theorem tripEnd_key (s : State) : key (tripEnd s) = key s ∨ ∃ w, w ≠ .trip ∧ key (tripEnd s) =
    ((key s).1, (key s).2.1, { (key s).2.2.1 with thermTripN := true }, (key s).2.2.2.1, w, (key s).2.2.2.2.2) := by
  have hw : ∀ (t : State), key (if linkLive t then wakeStack t else t) = key t := by
    intro t; split
    · exact wakeStack_key _
    · rfl
  have hf : ∀ (t : State), ∃ w, w ≠ .trip ∧ key (if t.thm.forbid then forbidState t else setW t .open_) = key (setW t w) := by
    intro t; split
    · exact forbidState_key t
    · exact ⟨.open_, by simp, rfl⟩
  unfold tripEnd
  dsimp only
  split
  · exact .inl rfl
  · refine .inr ?_
    rw [logEv_key, setRegF_key, bumpReg_key]
    generalize ht : restartWindows _ = t
    have hk : key t = _ := (congrArg key ht.symm).trans (restartWindows_key _)
    obtain ⟨w, hn, e⟩ := hf (if linkLive t then wakeStack t else t)
    refine ⟨w, hn, ?_⟩
    rw [e, setW_key, hw, hk]
    exact Eq.trans rfl rfl

theorem tripEnd_follows (s : State) : Follows (key s) (key (tripEnd s)) := by
  rcases tripEnd_key s with e | ⟨w, hn, e⟩ <;> rw [e]
  · exact .refl _
  · exact ⟨rfl, rfl, id, id, fun ⟨h1, h2, h3, h4⟩ => ⟨h1, by simp [hn], h3, h4⟩⟩

/-- A change of the supply or clock pins, or of PMB_ALERT_N, leaves the invariant's pins alone. -/
theorem pins_follows (s : State) (p : Pins) (h1 : p.portOpen = s.pins.portOpen) (h2 : p.thermTripN = s.pins.thermTripN)
    (h3 : p.stkPwrEn = true → s.pins.stkPwrEn = true) : Follows (key s) (key { s with pins := p }) := by
  refine ⟨rfl, rfl, id, id, fun ⟨a1, a2, a3, a4⟩ => ⟨?_, ?_, fun e => ?_, a4⟩⟩
  · show p.portOpen = true ↔ _
    rw [h1]; exact a1
  · show p.thermTripN = false ↔ _
    rw [h2]; exact a2
  · have := a3 e
    show p.stkPwrEn = false
    cases hp : p.stkPwrEn
    · rfl
    · exact absurd (h3 hp) (by have e2 : s.pins.stkPwrEn = false := this; simp [e2])

theorem statusRead_follows (s : State) (w : BitVec 16) : Follows (key s) (key (statusRead s w)) := by
  have h : ∀ (t : State) (v : BitVec 16), Follows (key t)
      (key { t with pwr := { t.pwr with status := v, pmbOk := true }, pins := { t.pins with pmbAlertN := true } }) :=
    fun t v => pins_follows t { t.pins with pmbAlertN := true } rfl rfl id
  have hl : ∀ (c : Prop) [Decidable c] (t : State), key (if c then t else latch t pgPwr 3) = key t := by
    intro c _ t; split
    · rfl
    · exact latch_key _ _ _
  have hg : ∀ (c : Prop) [Decidable c] (t : State) (v : Word), key (if c then logEv t 0x0511 pgPwr .error v else t) = key t := by
    intro c _ t v; split
    · exact logEv_key _ _ _ _ _
    · rfl
  have hw : ∀ (c : Prop) [Decidable c], key (if c then latch { s with thm := { s.thm with statusSeen := true } } pgPwr 2 else s) = key s := by
    intro c _; split
    · rw [latch_key, key_mk, key_fold]
    · rfl
  unfold statusRead
  dsimp only
  refine (h _ _).after ?_
  rw [hg, hl, hw]

theorem pmbEnd_follows (s : State) (r : PmbEnd) : Follows (key s) (key (pmbEnd s r)) := by
  unfold pmbEnd
  (try dsimp only); (repeat' split) <;> first
    | exact .refl _
    | exact (statusRead_follows _ _).after (by simp)
    | (refine .of_eq ?_; simp; done)

theorem stackFresh_key (s : State) : key (stackFresh s) = key s := Eq.trans rfl rfl

theorem pgoodRise_follows (s : State) : Follows (key s) (key (pgoodRise s)) := by
  unfold pgoodRise
  exact .ite (pins_follows s { s.pins with stkPgood := true, stkRstN := false, wckRun := true } rfl rfl id) (.refl _)

theorem pgoodLate_follows (s : State) : Follows (key s) (key (pgoodLate s)) := by
  unfold pgoodLate
  exact .ite (((pins_follows s { s.pins with stkPwrEn := false } rfl rfl (by simp))).trans
    ((enterLost_follows _ _).after (logEv_key _ _ _ _ _))) (.refl _)

theorem stkRelease_follows (s : State) : Follows (key s) (key (stkRelease s)) := by
  unfold stkRelease
  exact .ite (Follows.after (pins_follows _ { (stackFresh s).pins with stkRstN := true } rfl rfl id) (stackFresh_key _)) (.refl _)

theorem pgoodFall_follows (s : State) : Follows (key s) (key (pgoodFall s)) := by
  unfold pgoodFall
  refine .ite (.refl _) ?_
  dsimp only
  have h : Follows (key s) (key (stackFresh { s with pins := { s.pins with stkPgood := false, stkRstN := false } })) :=
    (pins_follows s { s.pins with stkPgood := false, stkRstN := false } rfl rfl id).before (stackFresh_key _)
  exact .ite (h.trans ((enterLost_follows _ _).after (logEv_key _ _ _ _ _))) h

/-! ### Clocks and boot -/

theorem pllLocked_follows (s : State) : Follows (key s) (key (pllLocked s)) := by
  unfold pllLocked
  dsimp only
  refine .ite (.refl _) (.ite (Follows.trans ?_ (relockStack_follows _)) ?_)
  all_goals exact pins_follows s { s.pins with wckRun := s.pins.stkPgood } rfl rfl id

theorem pllLate_follows (s : State) : Follows (key s) (key (pllLate s)) := by
  unfold pllLate
  dsimp only
  refine .ite (.refl _) ?_
  split
  · exact .of_eq (by simp)
  · rename_i h
    refine .ite ((haltWith_follows _ _ ?_).after (key_of rfl rfl rfl rfl rfl rfl rfl)) (.of_eq (key_of rfl rfl rfl rfl rfl rfl rfl))
    exact h

theorem pllLoss_follows (s : State) (stopped present : Bool) : Follows (key s) (key (pllLoss s stopped present)) := by
  have hl : ∀ (c : Prop) [Decidable c] (t : State),
      key (if c then forN (nChan t) (fun t c => modChan t c (fun x => { x with pd := .selfRefresh })) t else t) = key t := by
    intro c _ t; split
    · exact forN_key _ _ _ (fun _ _ => modChan_key _ _ _)
    · rfl
  unfold pllLoss
  refine .ite (.refl _) ?_
  dsimp only
  rw [faultAt_key, hl]
  generalize hu : uncertainTime _ = t
  have ht : key t = key s := by rw [← hu, uncertainTime_key, logEv_key, latch_key]
  exact Follows.after (pins_follows t { t.pins with wckRun := false } rfl rfl id) ht

theorem dropSideband_follows (s : State) : Follows (key s) (key (dropSideband s)) := by
  unfold dropSideband
  exact (follows_foldl _ _ _ (fun t x => sbFailed_follows t x 2)).after (by simp)

theorem domainReset_follows (s : State) (d : Nat) : Follows (key s) (key (domainReset s d)) := by
  unfold domainReset
  split <;> first
    | exact .refl _
    | exact dropSideband_follows _
    | (refine .of_eq ?_; simp; done)

theorem forceSwitch_follows (s : State) (d : Nat) : Follows (key s) (key (forceSwitch s d)) := by
  have hu : ∀ (t : State), key (if d = 92 then uncertainTime t else t) = key t := by
    intro t; split
    · exact uncertainTime_key _
    · rfl
  unfold forceSwitch
  refine .ite (.refl _) ?_
  dsimp only
  rw [faultAt_key]
  refine (domainReset_follows _ _).after ?_
  rw [hu, key_mk, key_fold, logEv_key, latch_key]

theorem powerOn_follows (s : State) (h : s.blk.st = .boot) : Follows (key s) (key (powerOn s)) := by
  unfold powerOn
  rw [overrides_key]
  have hk : (key s).2.2.2.1 = .boot := h
  refine ⟨rfl, rfl, fun e => ?_, fun e => ?_, fun ⟨a1, a2, _, a4⟩ => ⟨a1, a2, fun e => ?_, a4⟩⟩
  all_goals (change s.blk.st = _ at e; simp [h] at e)

theorem lastStep_follows (s : State) (h : s.blk.st = .boot) : Follows (key s) (key (lastStep s)) := by
  have hk : (key s).2.2.2.1 = .boot := h
  unfold lastStep
  rw [bootEnd_key, stepLog_key]
  refine ⟨rfl, rfl, fun e => absurd (hk.symm.trans e) (by simp), fun e => absurd (hk.symm.trans e) (by simp), fun ⟨a1, a2, a3, a4⟩ => ⟨?_, a2, ?_, a4⟩⟩
  · show _ ↔ (if s.blk.lost then BlkSt.lost else .ready) = .ready ∨ (if s.blk.lost then BlkSt.lost else .ready) = .lost
    cases s.blk.lost <;> simp [openKey]
  · intro e
    change (if s.blk.lost then BlkSt.lost else .ready) = .halted at e
    cases hl : s.blk.lost <;> simp [hl] at e

theorem thermalWait_ite_key (c : Prop) [Decidable c] (s : State) : key (if c then thermalWait s else s) = key s := by
  split
  · exact thermalWait_key _
  · rfl

theorem nextStep_follows (s : State) (n : Nat) (h : s.blk.st = .boot) : Follows (key s) (key (nextStep s n)) := by
  have hs : ∀ m, (atStep s m).blk.st = .boot := fun m => h
  unfold nextStep
  dsimp only
  split
  · exact (powerOn_follows _ (hs _)).after (atStep_key _ _)
  · exact .of_eq ((bootRead_key _ _).trans ((key_of rfl rfl rfl rfl rfl rfl rfl).trans (atStep_key s _)))
  · exact .of_eq ((bootRead_key _ _).trans (atStep_key _ _))
  · exact .of_eq ((thermalWait_ite_key _ _).trans ((refreshStart_key _).trans (atStep_key _ _)))
  · exact (lastStep_follows _ (hs _)).after (atStep_key _ _)
  · exact .of_eq (atStep_key _ _)

theorem passportStep_follows (s : State) : Follows (key s) (key (passportStep s)) := by
  unfold passportStep
  exact .ite (.of_eq (by simp)) ((ppInvalid_follows _ _ _).after (by simp))

theorem loadStep_follows (s : State) : Follows (key s) (key (loadStep s)) := by
  unfold loadStep
  refine .ite (.refl _) ?_
  split
  · exact ppInvalid_follows _ _ _
  · refine .of_eq ?_
    rw [loadStackRegs_key, loadSref_key, applyAll_key, loadTemps_key]
    exact key_of rfl rfl rfl rfl rfl rfl rfl

theorem linkCheckFail_follows (s : State) (d : Word) : Follows (key s) (key (linkCheckFail s d)) := by
  unfold linkCheckFail
  exact .ite (.refl _) (.ite ((enterLost_follows _ _).after (logEv_key _ _ _ _ _)) (.ite (wireFail_follows _ _ _ _) (.refl _)))

/-- The next boot step, where the block is still in boot. -/
theorem goOnBoot_follows (t : State) (n : Nat) :
    Follows (key t) (key (if t.blk.st == .boot then nextStep (stepLog t) n else t)) := by
  split
  · rename_i h
    have hb : t.blk.st = .boot := by simpa using h
    have : (stepLog t).blk.st = .boot := by
      have e := stepLog_key t
      exact (congrArg (fun k => k.2.2.2.1) e).trans hb
    exact (nextStep_follows _ _ this).after (stepLog_key t)
  · exact .refl _

theorem bootOk_follows (s : State) : Follows (key s) (key (bootOk s)) := by
  have hl : key (if s.blk.lbist then lbistEnd s none else s) = key s := by
    split
    · exact lbistEnd_key _ _
    · rfl
  unfold bootOk
  dsimp only
  split
  · exact goOnBoot_follows _ _
  · exact .ite (goOnBoot_follows _ _) (.refl _)
  · exact .ite (goOnBoot_follows _ _) (.refl _)
  · exact (goOnBoot_follows _ _).after (mbistEnd_key _ _)
  · exact (goOnBoot_follows _ _).after hl
  · exact (goOnBoot_follows _ _).after (by simp)
  · exact .ite (goOnBoot_follows _ _) (.refl _)
  · exact .ite (.refl _) ((passportStep_follows _).trans (goOnBoot_follows _ _))
  · have h := (loadStep_follows s).before (linkChecked_key (loadStep s))
    generalize linkChecked (loadStep s) = t at *
    refine .ite (.refl _) (h.trans (.ite (.of_eq ?_) (goOnBoot_follows _ _)))
    exact (key_of rfl rfl rfl rfl rfl rfl rfl).trans (stepLog_key t)
  · exact .ite (.refl _) ((goOnBoot_follows _ _).after ((sweepArray_key _).trans (key_of rfl rfl rfl rfl rfl rfl rfl)))
  · exact (goOnBoot_follows { s with hdl := Hdl.reset } _).after (key_of rfl rfl rfl rfl rfl rfl rfl)
  · exact (goOnBoot_follows _ _).after (trackStep_key _)
  · exact .refl _

theorem bootFail_follows (s : State) (d : Word) (h : s.blk.st = .boot) : Follows (key s) (key (bootFail s d)) := by
  have hh : ∀ (t : State) (c : Nat), key t = key s → Follows (key s) (key (haltWith t c)) := fun t c e =>
    (haltWith_follows t c (by rw [st_of_key e, h]; decide)).after e
  unfold bootFail
  split
  · exact .of_eq (by simp)
  · exact .ite (.refl _) (hh _ _ rfl)
  · exact hh _ _ (mbistEnd_key _ _)
  · exact .ite (.refl _) (.ite (hh _ _ rfl) (hh _ _ (lbistEnd_key _ _)))
  · exact .ite (hh _ _ rfl) (.ite (hh _ _ rfl) (.of_eq (key_of rfl rfl rfl rfl rfl rfl rfl)))
  · refine .ite (.refl _) ((loadStep_follows s).trans ?_)
    exact .ite (linkCheckFail_follows _ _) (.refl _)
  · exact .refl _

/-! ### Resets: the part and the queue stay, and what a reset leaves is sound -/

theorem coldState_key (s : State) : key (coldState s) = ((key s).1, (key s).2.1, Pins.reset, .boot, .open_, [], 0) :=
  Eq.trans rfl rfl

theorem warmState_key (s : State) (b : Bool) :
    key (warmState s b) = ((key s).1, (key s).2.1, Pins.reset, .boot, .open_, [], 0) := by
  unfold warmState
  dsimp only
  generalize ht : logEv _ 0x0004 pgBlk .notice _ = t
  have hk : key t = key s := by
    rw [← ht, logEv_key]
    exact key_of rfl rfl rfl rfl rfl rfl rfl
  rw [← hk]
  exact Eq.trans rfl rfl

theorem reset_ksound (p : Part) (q : List Instr) : KSound (p, q, Pins.reset, .boot, .open_, [], 0) := by
  refine ⟨?_, ?_, fun e => by simp at e, fun i hi => by simp at hi⟩ <;> simp [Pins.reset]

end Sys2Proof.Machine
end

