-- ==== Sys2Proof/Laws/Stack.lean ====
section
/-! SUPPORT. What a command on the wires of a channel can do to the rest of the machine, said once for the operations that
its meaning is built from. -/

set_option Elab.async false

namespace Sys2Proof.Machine

/-! ### The frame of a wire command -/

theorem OnlyStackChannel.refl (s : State) (c : Nat) : OnlyStackChannel s s c := ⟨rfl, fun _ _ => ⟨rfl, rfl⟩, rfl⟩

/-- A change of the stack's channel after the frame. -/
theorem OnlyStackChannel.modStk {s t : State} {c : Nat} (h : OnlyStackChannel s t c) (f : StkChan → StkChan) :
    OnlyStackChannel s (modStk t c f) c := by
  obtain ⟨h1, h2, h3⟩ := h
  refine ⟨?_, fun d hd => ⟨(h2 d hd).1, ?_⟩, h3⟩
  · rw [h1]; rfl
  · rw [stk_modStk_other _ _ _ _ hd]; exact (h2 d hd).2

theorem takeRow_stack (s : State) (c : Nat) (i : Instr) : (takeRow s c i).stack = s.stack := by
  unfold takeRow; (repeat' split) <;> rfl
theorem takeRow_time (s : State) (c : Nat) (i : Instr) : (takeRow s c i).time = s.time := by
  unfold takeRow; (repeat' split) <;> rfl
theorem takeRow_part (s : State) (c : Nat) (i : Instr) : (takeRow s c i).part = s.part := by
  unfold takeRow; (repeat' split) <;> rfl
theorem takeRow_pins (s : State) (c : Nat) (i : Instr) : (takeRow s c i).pins = s.pins := by
  unfold takeRow; (repeat' split) <;> rfl
@[simp] theorem takeRow_stk (s : State) (c : Nat) (i : Instr) (d : Nat) : stk (takeRow s c i) d = stk s d := by
  unfold stk; rw [takeRow_stack]
@[simp] theorem takeRow_awake (s : State) (c : Nat) (i : Instr) (d : Nat) : stkAwake (takeRow s c i) d = stkAwake s d := by
  unfold stkAwake stackOn; rw [takeRow_pins, takeRow_stk]

theorem takeRow_frame (s : State) (c : Nat) (i : Instr) : OnlyStackChannel s (takeRow s c i) c := by
  unfold takeRow
  split
  · split
    · refine ⟨rfl, fun d hd => ⟨chan_modChan_other _ _ _ _ hd, rfl⟩, ?_⟩
      rw [chan_modChan]
    · exact .refl _ _
  · exact .refl _ _

theorem takeCol_stack (s : State) (c : Nat) (i : Instr) : (takeCol s c i).stack = s.stack := by
  unfold takeCol; (repeat' split) <;> rfl
theorem takeCol_time (s : State) (c : Nat) (i : Instr) : (takeCol s c i).time = s.time := by
  unfold takeCol; (repeat' split) <;> rfl
theorem takeCol_part (s : State) (c : Nat) (i : Instr) : (takeCol s c i).part = s.part := by
  unfold takeCol; (repeat' split) <;> rfl
theorem takeCol_pins (s : State) (c : Nat) (i : Instr) : (takeCol s c i).pins = s.pins := by
  unfold takeCol; (repeat' split) <;> rfl
@[simp] theorem takeCol_stk (s : State) (c : Nat) (i : Instr) (d : Nat) : stk (takeCol s c i) d = stk s d := by
  unfold stk; rw [takeCol_stack]
@[simp] theorem takeCol_awake (s : State) (c : Nat) (i : Instr) (d : Nat) : stkAwake (takeCol s c i) d = stkAwake s d := by
  unfold stkAwake stackOn; rw [takeCol_pins, takeCol_stk]

theorem takeCol_frame (s : State) (c : Nat) (i : Instr) : OnlyStackChannel s (takeCol s c i) c := by
  unfold takeCol
  split
  · split
    · refine ⟨rfl, fun d hd => ⟨chan_modChan_other _ _ _ _ hd, rfl⟩, ?_⟩
      rw [chan_modChan]
    · exact .refl _ _
  · exact .refl _ _

/-! ### Commands that the stack hears -/

theorem onChan_ready {s : State} {c : Nat} (h : c < nChan s) (f : State → State) : onChan s c f = .next (f s) := if_pos h

theorem onChan_absent {s : State} {c : Nat} (h : nChan s ≤ c) (f : State → State) : onChan s c f = .fault .absentUnit :=
  if_neg (Nat.not_lt.2 h)

/-- A row command that arrives as it was sent is executed in the cycle in which it went out. -/
theorem onRowWires_sent (s : State) (c : Fin 64) (i : Instr) (f : Nat → State → State) :
    onRowWires s c i 0 f = f (rowTime s c i) (takeRow s c i) := by
  unfold onRowWires; exact if_pos rfl

/-- A column command that arrives as it was sent is executed in the cycle in which it went out. -/
theorem onColWires_sent (s : State) (c : Fin 64) (i : Instr) (n : BitVec 320) (f : Nat → Nat → State → State) :
    onColWires s c i 0 n f = f (colTime s c i) (colOrder s c i) (takeCol s c i) := by
  unfold onColWires; exact if_pos rfl

theorem StackReady.takeRow {s : State} {c : Nat} (h : StackReady s c) (i : Instr) : StackReady (takeRow s c i) c :=
  ⟨by unfold nChan; rw [takeRow_part]; exact h.1, (takeRow_awake s c i c).trans h.2.1, by rw [takeRow_stk]; exact h.2.2⟩
theorem StackReady.takeCol {s : State} {c : Nat} (h : StackReady s c) (i : Instr) : StackReady (takeCol s c i) c :=
  ⟨by unfold nChan; rw [takeCol_part]; exact h.1, (takeCol_awake s c i c).trans h.2.1, by rw [takeCol_stk]; exact h.2.2⟩

theorem stkRowCmd_ready {s : State} {c : Nat} (h : StackReady s c) (a : Bool) (f : State → State) :
    stkRowCmd s c a f = f s := by
  unfold stkRowCmd
  rw [if_neg]
  simp [h.2.1, h.2.2]

/-- A row command that passes ALERT is executed by every stack that hears its wires (R216). -/
theorem stkRowCmd_passes {s : State} {c : Nat} (h : stkAwake s c = true) (f : State → State) :
    stkRowCmd s c true f = f s := by
  unfold stkRowCmd
  rw [if_neg]
  simp [h]

theorem stkReadCmd_ready {s : State} {c : Nat} (h : StackReady s c) {t o g : Nat} (f : State → State)
    (hc : stkColOk s.stkTim (stk s c) g t true = true) :
    stkReadCmd s c t o g f = f (modStk s c (fun x => x.noteCol g t true)) := by
  unfold stkReadCmd
  rw [if_neg (by simp [h.2.1]), if_neg (by simp [h.2.2]), if_neg (by simp [hc])]

theorem stkWriteCmd_ready {s : State} {c : Nat} (h : StackReady s c) {t g : Nat} (d : Sector) (n : BitVec 320)
    (f : Sector → State → State) (hc : stkColOk s.stkTim (stk s c) g t false = true) :
    stkWriteCmd s c t g d n f =
      f (writeBurst (modStk s c (fun x => x.noteCol g t false)) c (t + stkWl s) d n).1
        (writeBurst (modStk s c (fun x => x.noteCol g t false)) c (t + stkWl s) d n).2 := by
  unfold stkWriteCmd
  rw [if_neg (by simp [h.2.1, h.2.2]), if_neg (by simp [hc])]

theorem takeRow_tim (s : State) (c : Nat) (i : Instr) : (takeRow s c i).stkTim = s.stkTim := by
  unfold State.stkTim; rw [takeRow_stack]
theorem takeCol_tim (s : State) (c : Nat) (i : Instr) : (takeCol s c i).stkTim = s.stkTim := by
  unfold State.stkTim; rw [takeCol_stack]

/-! ### The memory -/

theorem memoryKept_of_mem {s t : State} (h : mem t = mem s) : MemoryKept s t :=
  ⟨fun c sp b r k => arrRead_mem h c sp b r k, fun c k => vbufRead_mem h c k⟩

theorem MemoryKept.refl (s : State) : MemoryKept s s := memoryKept_of_mem rfl

theorem MemoryKept.trans {s t u : State} (h : MemoryKept s t) (g : MemoryKept t u) : MemoryKept s u :=
  ⟨fun c sp b r k => (g.1 c sp b r k).trans (h.1 c sp b r k), fun c k => (g.2 c k).trans (h.2 c k)⟩

/-- A change of the stack's channel that stores nothing keeps the memory. -/
theorem mem_modStk {s t : State} (hm : mem t = mem s) (c : Nat) (f : StkChan → StkChan) (h1 : ∀ x, (f x).held = x.held) :
    mem (modStk t c f) = mem s := (modStk_mem _ _ _ h1).trans hm

/-- A change of the stack's channel that stores nothing has the frame of a wire command. -/
theorem kept_modStk {s t : State} {c : Nat} (ht : OnlyStackChannel s t c) (hm : mem t = mem s) (f : StkChan → StkChan)
    (h1 : ∀ x, (f x).held = x.held) : OnlyStackChannel s (modStk t c f) c ∧ MemoryKept s (modStk t c f) :=
  ⟨ht.modStk f, memoryKept_of_mem (mem_modStk hm c f h1)⟩

/-- A column command that the stack hears and counts, before its own effect. -/
theorem counted_frame (s : State) (c : Nat) (i : Instr) (g t : Nat) (r : Bool) :
    OnlyStackChannel s (modStk (takeCol s c i) c (fun x => x.noteCol g t r)) c := (takeCol_frame s c i).modStk _
theorem counted_mem (s : State) (c : Nat) (i : Instr) (g t : Nat) (r : Bool) :
    mem (modStk (takeCol s c i) c (fun x => x.noteCol g t r)) = mem s :=
  mem_modStk (takeCol_mem s c i) c _ (fun _ => noteCol_held ..)
@[simp] theorem counted_stk (s : State) (c : Nat) (i : Instr) (g t : Nat) (r : Bool) :
    stk (modStk (takeCol s c i) c (fun x => x.noteCol g t r)) c = (stk s c).noteCol g t r := by
  rw [stk_modStk, takeCol_stk]

/-! ### Bursts -/

@[simp] theorem pushBurst_stk (s : State) (c t o : Nat) (d : Sector) (a : Bool) : stk (pushBurst s c t o d a) c =
    { stk s c with ret := (stk s c).ret ++ [{ g0 := d.g0, g1 := d.g1, alert := a, order := o, at_ := t + stkRl s }] } := stk_modStk s c _

theorem pushBurst_frame {s t : State} {c : Nat} (h : OnlyStackChannel s t c) (n o : Nat) (d : Sector) (a : Bool) :
    OnlyStackChannel s (pushBurst t c n o d a) c := h.modStk _

/-! ### Stores read back -/

theorem arrKey_half (sp : Bool) (b r k : Nat) : arrKey sp b r k 0 ≠ arrKey sp b r k 1 := by unfold arrKey; omega

/-- A sector stored in the array reads back. -/
theorem arrRead_store {u : State} (w : MemorySound u) {c : Nat} (hc : c < 64) (sp : Bool) (b r k : Nat) (d : Sector) :
    arrRead (modStk u c (fun x => arrWrite u.stack c x sp b r k d)) c sp b r k = d := by
  have wf := ((wf_iff u).1 w c hc).1
  have hd : arrDflt (modStk u c (fun x => arrWrite u.stack c x sp b r k d)).stack c = arrDflt u.stack c := rfl
  unfold arrRead
  rw [stk_modStk, hd]
  simp only [arrWrite]
  rw [ramRead_ramWrite_other _ _ _ _ _ (arrKey_half sp b r k), ramRead_ramWrite _ _ _ _ _ wf, if_pos rfl,
    ramRead_ramWrite _ _ _ _ _ (ramWf_ramWrite _ _ _ _ wf), if_pos rfl]

/-- A store in the array leaves every other sector alone. -/
theorem arrRead_store_other (u : State) (c : Nat) (sp : Bool) (b r k : Nat) (d : Sector) (e : Nat) (sp' : Bool) (b' r' k' : Nat)
    (h : ∀ i < 2, ∀ j < 2, e = c → arrKey sp' b' r' k' i ≠ arrKey sp b r k j) :
    arrRead (modStk u c (fun x => arrWrite u.stack c x sp b r k d)) e sp' b' r' k' = arrRead u e sp' b' r' k' := by
  have hd : arrDflt (modStk u c (fun x => arrWrite u.stack c x sp b r k d)).stack e = arrDflt u.stack e := rfl
  unfold arrRead
  by_cases he : e = c
  · subst he
    rw [stk_modStk, hd]
    simp only [arrWrite]
    rw [ramRead_ramWrite_other _ _ _ _ _ (h 0 (by omega) 1 (by omega) rfl), ramRead_ramWrite_other _ _ _ _ _ (h 0 (by omega) 0 (by omega) rfl),
      ramRead_ramWrite_other _ _ _ _ _ (h 1 (by omega) 1 (by omega) rfl), ramRead_ramWrite_other _ _ _ _ _ (h 1 (by omega) 0 (by omega) rfl)]
  · rw [stk_modStk_other _ _ _ _ he, hd]

/-- A store in the array leaves the vector buffers alone. -/
theorem vbufRead_arrStore (u : State) (c : Nat) (sp : Bool) (b r k : Nat) (d : Sector) (e j : Nat) :
    vbufRead (modStk u c (fun x => arrWrite u.stack c x sp b r k d)) e j = vbufRead u e j := by
  have hd : vbufDflt (modStk u c (fun x => arrWrite u.stack c x sp b r k d)).stack e = vbufDflt u.stack e := rfl
  unfold vbufRead
  by_cases he : e = c
  · subst he; rw [stk_modStk, hd]; rfl
  · rw [stk_modStk_other _ _ _ _ he, hd]

/-- A sector stored in the vector buffer reads back. -/
theorem vbufRead_store {u : State} (w : MemorySound u) {c : Nat} (hc : c < 64) (k : Nat) (d : Sector) :
    vbufRead (modStk u c (fun x => vbufWrite u.stack c x k d)) c k = d := by
  have wf := ((wf_iff u).1 w c hc).2
  have hd : vbufDflt (modStk u c (fun x => vbufWrite u.stack c x k d)).stack c = vbufDflt u.stack c := rfl
  unfold vbufRead
  rw [stk_modStk, hd]
  simp only [vbufWrite]
  rw [ramRead_ramWrite_other _ _ _ _ _ (by omega), ramRead_ramWrite _ _ _ _ _ wf, if_pos rfl,
    ramRead_ramWrite _ _ _ _ _ (ramWf_ramWrite _ _ _ _ wf), if_pos rfl]

/-- A store in the vector buffer leaves every other sector of it alone. -/
theorem vbufRead_store_other (u : State) (c k : Nat) (d : Sector) (e j : Nat) (h : (e, j) ≠ (c, k)) :
    vbufRead (modStk u c (fun x => vbufWrite u.stack c x k d)) e j = vbufRead u e j := by
  have hd : vbufDflt (modStk u c (fun x => vbufWrite u.stack c x k d)).stack e = vbufDflt u.stack e := rfl
  unfold vbufRead
  by_cases he : e = c
  · subst he
    have hj : j ≠ k := fun g => h (by rw [g])
    rw [stk_modStk, hd]
    simp only [vbufWrite]
    rw [ramRead_ramWrite_other _ _ _ _ _ (by omega), ramRead_ramWrite_other _ _ _ _ _ (by omega),
      ramRead_ramWrite_other _ _ _ _ _ (by omega), ramRead_ramWrite_other _ _ _ _ _ (by omega)]
  · rw [stk_modStk_other _ _ _ _ he, hd]

/-- A store in the vector buffer leaves the arrays alone. -/
theorem arrRead_vbufStore (u : State) (c k : Nat) (d : Sector) (e : Nat) (sp : Bool) (b r j : Nat) :
    arrRead (modStk u c (fun x => vbufWrite u.stack c x k d)) e sp b r j = arrRead u e sp b r j := by
  have hd : arrDflt (modStk u c (fun x => vbufWrite u.stack c x k d)).stack e = arrDflt u.stack e := rfl
  unfold arrRead
  by_cases he : e = c
  · subst he; rw [stk_modStk, hd]; rfl
  · rw [stk_modStk_other _ _ _ _ he, hd]

/-! ### The stack's own stores and its slice contexts -/

/-- What stores of a list of places in channel c do. -/
def Stored (s t : State) (c : Nat) (ps : List Place) : Prop :=
  t = { s with stack := { s.stack with chans := t.stack.chans }, free := t.free } ∧ (∀ d, d ≠ c → stk t d = stk s d) ∧
  stk t c = { stk s c with array := (stk t c).array } ∧ StoresOnly s t c ps

theorem Stored.refl (s : State) (c : Nat) : Stored s s c [] := ⟨rfl, fun _ _ => rfl, rfl, fun _ _ _ _ _ => rfl⟩

theorem storeKeys_arr (x y : StkChan) (p : Place) (h : y.remap = x.remap) : storeKeys y p = storeKeys x p := by
  unfold storeKeys stkRowAt; rw [h]

theorem Stored.trans {s t u : State} {c : Nat} {ps qs : List Place} (h : Stored s t c ps) (g : Stored t u c qs) : Stored s u c (ps ++ qs) := by
  obtain ⟨h1, h2, h3, h4⟩ := h
  obtain ⟨g1, g2, g3, g4⟩ := g
  have hr : (stk t c).remap = (stk s c).remap := by rw [h3]
  refine ⟨?_, fun d hd => (g2 d hd).trans (h2 d hd), ?_, ?_⟩
  · rw [g1, h1]
  · rw [g3, h3]
  · intro sp b r k hk
    rw [g4 sp b r k (fun p hp i hi => by rw [storeKeys_arr _ _ p hr]; exact hk p (List.mem_append_right _ hp) i hi)]
    exact h4 sp b r k (fun p hp i hi => hk p (List.mem_append_left _ hp) i hi)

theorem stored_store (s : State) (c : Nat) (p : Place) (sp : Bool) (row : Nat) (d : Sector) (hs : ∀ h < 2, arrKey sp p.bank row p.col h ∈ storeKeys (stk s c) p) :
    Stored s (modStk s c (fun x => arrWrite s.stack c x sp p.bank row p.col d)) c [p] := by
  refine ⟨rfl, fun d hd => stk_modStk_other _ _ _ _ hd, by rw [stk_modStk]; rfl, ?_⟩
  intro sp' b' r' k' hk
  refine arrRead_store_other _ _ _ _ _ _ _ _ _ _ _ _ ?_
  intro i hi j hj _ he
  exact hk p (List.mem_singleton.2 rfl) i hi (by rw [he]; exact hs j hj)

theorem stkWrite_stored (s : State) (c : Nat) (p : Place) (d : Sector) (hp : p.ch = c) : Stored s (stkWrite s p d) c [p] := by
  subst hp
  have h2 : ∀ h < 2, h = 0 ∨ h = 1 := by omega
  unfold stkWrite
  dsimp only
  split
  · exact ⟨rfl, fun _ _ => rfl, rfl, fun _ _ _ _ _ => rfl⟩
  · rename_i hr
    refine stored_store s p.ch p false p.row _ (fun h hh => ?_)
    unfold storeKeys; rw [hr]; rcases h2 h hh with rfl | rfl <;> simp
  · rename_i i hr
    refine stored_store s p.ch p true i _ (fun h hh => ?_)
    unfold storeKeys; rw [hr]; rcases h2 h hh with rfl | rfl <;> simp

theorem stores_foldl (c : Nat) (l : List (Place × Sector)) (hl : ∀ e ∈ l, e.1.ch = c) (s : State) :
    Stored s (l.foldl (fun t w => stkWrite t w.1 w.2) s) c (l.map (·.1)) := by
  induction l generalizing s with
  | nil => exact .refl s c
  | cons e l ih =>
    exact (stkWrite_stored s c e.1 e.2 (hl e (List.mem_cons_self ..))).trans (ih (fun x hx => hl x (List.mem_cons_of_mem _ hx)) _)

theorem takeFree_stored (s : State) (c w : Nat) : Stored s (takeFree w s).2 c [] := ⟨rfl, fun _ _ => rfl, rfl, fun _ _ _ _ _ => rfl⟩

theorem scramble_stored (c : Nat) (l : List Place) (hl : ∀ e ∈ l, e.ch = c) (s : State) :
    Stored s (scrambleWrote s l) c l := by
  unfold scrambleWrote
  induction l generalizing s with
  | nil => exact .refl s c
  | cons e l ih =>
    exact ((takeFree_stored s c 256).trans (stkWrite_stored _ c e _ (hl e (List.mem_cons_self ..)))).trans (ih (fun x hx => hl x (List.mem_cons_of_mem _ hx)) _)

theorem storeKeys_ch (x : StkChan) (p : Place) (c : Nat) : storeKeys x { p with ch := c } = storeKeys x p := rfl

theorem Stored.vbuf {s t : State} {c : Nat} {ps : List Place} (h : Stored s t c ps) (d k : Nat) : vbufRead t d k = vbufRead s d k := by
  obtain ⟨h1, h2, h3, -⟩ := h
  have hg : t.stack.gen = s.stack.gen := by rw [h1]
  have hv : (stk t d).vbuf = (stk s d).vbuf := by
    by_cases hd : d = c
    · subst hd; rw [h3]
    · rw [h2 d hd]
  unfold vbufRead vbufDflt; rw [hg, hv]

theorem storesOnly_mono {s t : State} {c : Nat} {ps qs : List Place} (h : StoresOnly s t c ps) (m : ∀ p ∈ ps, ∃ q ∈ qs, storeKeys (stk s c) p = storeKeys (stk s c) q) : StoresOnly s t c qs := by
  intro sp b r k hk
  apply h
  intro p hp i hi
  obtain ⟨q, hq, e⟩ := m p hp
  rw [e]; exact hk q hq i hi

theorem runPlaces_ch (c : Nat) (banks : BitVec 16) (es : List (BitVec 64)) (o : Nat) : ∀ p ∈ runPlaces c banks es o, p.ch = c := by
  intro p hp
  unfold runPlaces at hp
  simp only [List.mem_flatMap, List.mem_map] at hp
  obtain ⟨e, _, i, _, rfl⟩ := hp
  rfl

/-- Reserving the banks of a mask to a context. -/
theorem find_putBanks (banks : BitVec 16) (ctx : Nat) (l : List Nat) (t : Tab Nat) (b : Nat) :
    Tab.find (l.foldl (fun t b => if banks.getLsbD b then Tab.put t b ctx else t) t) b = if b ∈ l ∧ banks.getLsbD b = true then some ctx else Tab.find t b := by
  induction l generalizing t with
  | nil => simp
  | cons a l ih =>
    rw [List.foldl_cons, ih]
    by_cases hb : banks.getLsbD b = true
    · by_cases hl : b ∈ l
      · simp [hb, hl]
      · by_cases hab : b = a
        · subst hab; simp [hb, hl]
        · simp only [hl, hb, hab, List.mem_cons, or_self, false_and, if_false]
          split
          · exact Tab.find_put_other _ _ _ _ hab
          · rfl
    · simp only [hb, and_false, if_false, Bool.false_eq_true]
      split
      · rename_i ha
        refine Tab.find_put_other _ _ _ _ ?_
        rintro rfl; exact hb ha
      · rfl

theorem ctx_setCtx (x : StkChan) (i : Nat) (v : Ctx) : (x.setCtx i v).ctx i = v := Tab.get_put_self ..
theorem ctx_setCtx_other (x : StkChan) (i j : Nat) (v : Ctx) (h : j ≠ i) : (x.setCtx i v).ctx j = x.ctx j := Tab.get_put_other _ _ _ _ _ h

/-- A change of a stack channel after one that touched the stack alone. -/
theorem stackOnly_modStk (s : State) (c : Nat) (f : StkChan → StkChan) (t : State) (h : t = { s with stack := { s.stack with chans := t.stack.chans }, free := t.free }) :
    modStk t c f = { s with stack := { s.stack with chans := (modStk t c f).stack.chans }, free := (modStk t c f).free } := by
  have key : ∀ (q : Tab StkChan) (fr : Nat) (t : State), t = { s with stack := { s.stack with chans := t.stack.chans }, free := fr } →
      ({ t with stack := { t.stack with chans := q } } : State) = { s with stack := { s.stack with chans := q }, free := fr } := by
    intro q fr t h; rw [h]
  exact key (modStk t c f).stack.chans t.free t h

end Sys2Proof.Machine
end

