-- ==== Sys2Proof/Tests/Slice0.lean ====
section
/-! SUPPORT. The model's own tests: ill-formed commands, states and operands that meet the hypotheses of each statement, and
single commands against the manual's words and worked
examples. -/

set_option Elab.async false

namespace Sys2Proof.Tests

open Sys2Proof Sys2Proof.Machine

/-! ### Small states and operands -/

/-- A header of source 5 with tag 9 at privilege 2. -/
def hdr : Hdr :=
  { src := 5, tag := 9, cls := .bl, priv := 2, tenant := 0, deadline := 0, addr := 0, len := 1, flags := 0 }

/-- A beat of zeros that ends its group. -/
def beat : Beat := { g0 := 0, g1 := 0, g2 := 0, g3 := 0, mask := 0, last := true }

/-- A block in service at core cycle 1000 in which every port holds its credits (R35). -/
def up : State :=
  { State.reset with
    pins := { Pins.reset with portOpen := true, stkPwrEn := true, stkPgood := true, stkRstN := true }
    clk := { Clk.reset with coreRun := true, onPll := true, refOk := true, pllLock := true }
    blk := { Blk.reset with st := .ready, step := 0 }
    time := { Time.reset with cyc := 1000, tick := 100 }
    ports := [(0, { Port.reset with hdrCredits := 64, beatCredits := 256 })]
    thm := { Thm.reset with started := true } }

/-- `up` with port 0 as given. -/
def withPort (q : Port) : State := { up with ports := [(0, q)] }

/-- `up` with channel 0 as given. -/
def withChan (c : Chan) : State := { up with chans := [(0, c)] }

/-- `up` with the stack's channel 0 as given. -/
def withStk (x : StkChan) : State := { up with stack := { Stack.reset with chans := [(0, x)] } }

/-- A request of `hdr` at port 0. -/
def req (o : Byte) (st : Stage) : Req := { newReq State.reset 0 o hdr 0 false with stage := st }

/-! ### Ill-formed commands (one for each check of WellFormed) -/

theorem test_wf_reserved_opcode : Instr.wf (.reservedOpcode 0 0x01 hdr 0 []) = false := by decide
theorem test_wf_atomic : (Instr.wf (.atAdd 0 hdr 1 []) || Instr.wf (.atMin 0 hdr 0 []) || Instr.wf (.atMax 0 hdr 1 []) ||
    Instr.wf (.atAnd 0 hdr 2 []) || Instr.wf (.atOr 0 hdr 3 []) || Instr.wf (.atXor 0 hdr 4 []) ||
    Instr.wf (.atSwap 0 hdr 5 []) || Instr.wf (.atCas 0 hdr 6 [])) = false := by decide
theorem test_wf_operation : (Instr.wf (.sopDotRowsplit 0 hdr [beat]) || Instr.wf (.sopDotKsplit 0 hdr [{ beat with g0 := 1 }]) ||
    Instr.wf (.sopAttn 0 hdr [beat]) || Instr.wf (.sopGather 0 hdr [beat]) || Instr.wf (.sopScatterAdd 0 hdr [beat]) ||
    Instr.wf (.sopSetxIntersect 0 hdr [{ beat with g0 := 0x105 }]) || Instr.wf (.sopSetxUnion 0 hdr [{ beat with g0 := 0x205 }]) ||
    Instr.wf (.sopSetxDiff 0 hdr [{ beat with g0 := 5 }]) || Instr.wf (.sopExpand 0 hdr []) ||
    Instr.wf (.sopFilter 0 hdr [beat]) || Instr.wf (.sopCopyResident 0 hdr [{ beat with g0 := 0x108 }]) ||
    Instr.wf (.sopCopyStriped 0 hdr [{ beat with g0 := 8 }]) || Instr.wf (.sopCopyFromCrown 0 hdr [{ beat with g0 := 8 }]) ||
    Instr.wf (.sopFill 0 hdr [beat])) = false := by decide
theorem test_wf_sideband : (Instr.wf (.sbRegWr 0 ⟨0, 0⟩ []) || Instr.wf (.sbPpProg ⟨0, 0⟩ []) ||
    Instr.wf (.sbT1500 ⟨0, 0⟩ (List.replicate 17 0))) = false := by decide
theorem test_wf_lane : Instr.wf (.lane ⟨0, 0⟩ 0 19 false false) = false := by decide
theorem test_wf_srx : Instr.wf (.srx ⟨0, 0⟩ 3) = false := by decide
theorem test_wf_formed : (Instr.wf (.atCas 0 hdr 7 []) && Instr.wf (.sopFill 0 hdr [{ beat with g0 := 9 }]) &&
    Instr.wf (.reservedOpcode 0 0x07 hdr 0 [])) = true := by decide

/-! ### The hypotheses are met: the block as a whole -/

/-- A RESIDENT region of 16 rows in bank 0 of every channel, from address 0, of tenant 0. -/
def region : Region := { ctl := 0x23, base := 0, foot := 0x20000000, size := 0, par := 0 }

/-- `up` with that region. -/
def mapped : State := { up with rgn := [(0, region)] }

theorem up_pins : PinsSound up := by unfold PinsSound; decide
theorem up_ids : IdsFresh up := by intro r h; cases h
theorem up_memory : MemorySound up := by unfold MemorySound; decide

theorem test_meets_IdleStepsPassTime : up.pending = [] ∧ up.clk.stopped.getLsbD 92 = false := by decide

theorem test_meets_CommandsKeepPartAndQueue : ∃ t, exec (.rd 0 hdr) up = .next t := ⟨_, rfl⟩

theorem test_meets_ThermTripFollowsItsState : PinsSound up ∧ IdsFresh up ∧ ∃ t, step up = .next t :=
  ⟨up_pins, up_ids, _, rfl⟩

theorem test_meets_StepsKeepTheMemoryCanonical : MemorySound up ∧ ∃ t, step up = .next t := ⟨up_memory, _, rfl⟩

theorem test_meets_HaltedAndLostEndByResetOnly :
    (∃ s t : State, exec (.rd 0 hdr) s = .next t ∧ s.blk.st = .halted) ∧
    (∃ s t : State, exec (.rd 0 hdr) s = .next t ∧ s.blk.st = .lost) ∧
    Instr.rd 0 hdr ≠ .coldReset ∧ Instr.rd 0 hdr ≠ .warmReset ∧ Instr.rd 0 hdr ≠ .jtagScanLeave :=
  ⟨⟨{ up with blk := { up.blk with st := .halted } }, _, rfl, rfl⟩, ⟨{ up with blk := { up.blk with st := .lost } }, _, rfl, rfl⟩,
    by simp, by simp, by simp⟩

theorem test_meets_UnitLevels : unitOf up (chPage 63) = some (.ch, 63) ∧ unitOf up (octPage 7) = some (.oct, 7) ∧
    unitOf up pgBlk = some (.blk, 0) := by decide

theorem test_meets_HandleEntriesLieInTheTopRows : up.part ≠ .rosura32 ∧
    ({ up with part := .rosura32 } : State).part = .rosura32 := by decide

theorem test_meets_ResidentRegionsMapDirectly : region.resident = true ∧ 0 < 2 ^ region.bankLog2 ∧ 15 < 2 ^ region.rowLog2 := by decide

/-- The smaller part, which has half the channels, octants and engines. -/
def small : State := { up with part := .rosura32 }

theorem test_meets_AbsentUnitsFault : unitPresent up (.ref ⟨63, 0⟩ 0) ∧ unitPresent up (.crownItemTake 7) ∧ unitPresent up (.sweepEnd 3) ∧
    unitPresent up (.recoveryComplete 127) ∧ unitPresent up .roundBoundary ∧ ¬ unitPresent small (.ref ⟨32, 0⟩ 0) ∧
    ¬ unitPresent small (.crownItemTake 4) ∧ ¬ unitPresent small (.sweepEnd 2) ∧ ¬ unitPresent small (.recoveryComplete 127) := by
  refine ⟨?_, ?_, ?_, ?_, ?_, ?_, ?_, ?_, ?_⟩
  all_goals
    simp only [unitPresent, chanOf, octIn, calIn, pageIn, onRow, onCol]
    decide

/-! ### Configuration -/

/-- The block with a read or write of LOG_MARK's page on its way at port 0. -/
def cfgHdr0 : Hdr := cfgHdr hdr pgLog 0x080

theorem test_meets_ConfigurationAccessesAreServed_read :
    configOf (.cfgRd 0 cfgHdr0) = some (0, opCfgRd, cfgHdr0, []) ∧ PortReady up 0 0 ∧ Grouped opCfgRd [] ∧
    Passes (gathered up 0 opCfgRd cfgHdr0 0 []) (arrived up 0 opCfgRd cfgHdr0 0 []) .ok ∧
    (∀ q ∈ up.reqs, q.port = 0 → q.stage ≠ .step5) ∧ blockRecovery up = false ∧ admittedOf up 0 < 256 ∧ up.arb.waiter = none ∧
    (usedGranules (arrived up 0 opCfgRd cfgHdr0 0 [])).any granuleBad = false := by
  refine ⟨rfl, ?_, ?_, ?_, ?_⟩
  · exact ⟨rfl, rfl, by decide, by decide, by decide, rfl, rfl, up_ids⟩
  · exact ⟨rfl, by decide, rfl⟩
  · exact ⟨by decide, by decide, by decide, by decide, rfl, by decide, by decide, by decide⟩
  · decide

theorem test_meets_ConfigurationAccessesAreServed_write :
    configOf (.logMark 0 hdr 7) = some (0, opCfgWr, cfgHdr0, [cfgBeat 7]) ∧ PortReady up 0 1 ∧ Grouped opCfgWr [cfgBeat 7] ∧
    Passes (gathered up 0 opCfgWr cfgHdr0 0 [cfgBeat 7]) (arrived up 0 opCfgWr cfgHdr0 0 [cfgBeat 7]) .ok ∧
    (usedGranules (arrived up 0 opCfgWr cfgHdr0 0 [cfgBeat 7])).any granuleBad = false := by
  refine ⟨rfl, ?_, ?_, ?_, ?_⟩
  · exact ⟨rfl, rfl, by decide, by decide, by decide, rfl, rfl, up_ids⟩
  · exact ⟨rfl, by decide, rfl⟩
  · exact ⟨by decide, by decide, by decide, by decide, rfl, by decide, by decide, by decide⟩
  · decide +kernel

theorem test_meets_AttentionCausesAreClearedByOnes : unitOf up pgEcc = some (.ecc, 0) ∧
    reg up pgEcc 0x010 &&& readMask (fieldsAt up (.ecc, 0) 0x010) = reg up pgEcc 0x010 := by decide

theorem test_meets_NamedRegistersAct : counterExists up (367 : Fin 368) = true ∧ (7 : Fin 8) < nOct up ∧
    (oct up (7 : Fin 8)).run = .running ∧ fieldNat (0x800000A5 : Word) 0 8 = 0xA5 ∧ (0x800000A5 : Word).getLsbD 31 = true := by decide

/-! ### Requests at a port -/

/-- A read of the first sector, and what step 2 makes of it. -/
def rdHdr : Hdr := { hdr with len := 0 }

theorem up_ready : PortReady up 0 0 := ⟨rfl, rfl, by decide, by decide, by decide, rfl, rfl, up_ids⟩

theorem mapped_ready : PortReady mapped 0 0 := ⟨rfl, rfl, by decide, by decide, by decide, rfl, rfl, by intro r h; cases h⟩

theorem test_meets_RequestsWaitForAdmission_fence :
    requestOf (.fence 0 { hdr with len := 0 }) = some (0, opFence, { hdr with len := 0 }, 0, []) ∧ isCfg opFence = false ∧
    PortReady up 0 0 ∧ Grouped opFence [] ∧
    Passes (gathered up 0 opFence { hdr with len := 0 } 0 []) (arrived up 0 opFence { hdr with len := 0 } 0 []) .ok :=
  ⟨rfl, by decide, up_ready, ⟨rfl, by decide, rfl⟩, by decide, by decide, by decide, by decide, rfl, by decide, by decide, by decide⟩

theorem test_meets_RequestsWaitForAdmission_read :
    requestOf (.rd 0 rdHdr) = some (0, opRd, rdHdr, 0, []) ∧ isCfg opRd = false ∧ PortReady mapped 0 0 ∧ Grouped opRd [] ∧
    ∃ j, Passes (gathered mapped 0 opRd rdHdr 0 []) (arrived mapped 0 opRd rdHdr 0 []) j ∧
      j.secs.map (·.place) = [{ ch := 0, bank := 0, row := 0, col := 0 }] :=
  let s := gathered mapped 0 opRd rdHdr 0 []
  let r := arrived mapped 0 opRd rdHdr 0 []
  ⟨rfl, by decide, mapped_ready, ⟨rfl, by decide, rfl⟩, check2 (lookedUp s r).1 (lookedUp s r).2 (namedBy (lookedUp s r).1 r),
    ⟨by decide, by decide, by decide, by decide, rfl, by decide, by decide, by decide⟩, by decide⟩

theorem test_meets_RefusedRequestsReply : requestOf (.fence 0 hdr) = some (0, opFence, hdr, 0, []) ∧ PortReady up 0 0 ∧
    Grouped opFence [] ∧ check1 (gathered up 0 opFence hdr 0 []) (arrived up 0 opFence hdr 0 []) = some (.reject, rejLength) :=
  ⟨rfl, up_ready, ⟨rfl, by decide, rfl⟩, by decide⟩

theorem test_meets_ReservedOpcodesAreRejected : PortReady up 0 0 ∧ opcodeListed 0xFF = false ∧ up.blk.st ≠ .lost :=
  ⟨up_ready, by decide, by decide⟩

theorem test_meets_MissingCreditsAreAnswered : (withPort Port.reset).pins.portOpen = true ∧
    (withPort Port.reset).clk.coreRun = true ∧ (port (withPort Port.reset) 0).hdrCredits = 0 ∧
    (port (withPort Port.reset) 0).beatCredits = 0 := by decide

theorem test_meets_ClosedPortsSeeNothing : State.reset.pins.portOpen = false ∧
    requestOf (.rd 0 hdr) = some (0, opRd, hdr, 0, []) := by decide

theorem test_meets_GatedPortsAnswerGated : up.pins.portOpen = true ∧ up.clk.coreRun = true ∧ 0 < (port up 0).hdrCredits ∧
    gated { up with clk := { up.clk with gate := 1 <<< 64 } } (64 + (0 : Fin 16).val) = true ∧ up.blk.st ≠ .lost ∧
    isCfg opCfgRd = true := by decide

/-- A write of port 0 that waits for its beats. -/
def wrReq : Req := req opWr .beats

/-- `up` with that write listed. -/
def beatsDue : State := { withPort { Port.reset with beatCredits := 1, waiting := [0] } with reqs := [wrReq], nextReq := 1 }

theorem test_meets_BeatsReachTheirRequest : beatsDue.pins.portOpen = true ∧ beatsDue.clk.coreRun = true ∧
    0 < (port beatsDue 0).beatCredits ∧ (port beatsDue 0).wbuf = [] ∧ (port beatsDue 0).waiting = [0] ∧
    findReq beatsDue 0 = some wrReq ∧ wrReq.ghost = false ∧ wrReq.beats.length < 65 ∧
    ({ beat with last := false } : Beat).last = false ∧ beat.last = true := by decide

/-- A read at step 5, of sectors as translated. -/
def rdReq (secs : List SecRef) : Req := { req opRd .step5 with secs := secs }

/-- One sector of channel 0. -/
def sec0 : SecRef := { place := { ch := 0, bank := 0, row := 3, col := 1 }, vault := none }

/-- A port with 256 admitted requests, and one at step 5. -/
def crowded : State :=
  { up with
    reqs := (List.range 256).map (fun i => { req opRd .admitted with id := i + 1, tAdmit := some 0 }) ++ [rdReq [sec0]]
    nextReq := 257 }

/-- A port with one request at step 5. -/
def waiting1 : State := { up with reqs := [rdReq [sec0]], nextReq := 1 }

theorem test_meets_ReadsAreAdmitted : firstStep5 waiting1 0 = some (rdReq [sec0]) ∧ findReq waiting1 0 = some (rdReq [sec0]) ∧
    untranslated waiting1 (rdReq [sec0]) = false ∧ blockRecovery waiting1 = false ∧ hasResources waiting1 (rdReq [sec0]) = true := by
  decide

theorem test_meets_ReadsAreAdmitted_full : firstStep5 crowded 0 = some (rdReq [sec0]) ∧
    findReq crowded 0 = some (rdReq [sec0]) ∧ hasResources crowded (rdReq [sec0]) = false := by decide +kernel

/-- A FENCE that waits, and an earlier read of its source. -/
def fencing : State := { up with reqs := [{ req opRd .admitted with h := { hdr with tag := 8 } }, { req opFence .fence with id := 1 }], nextReq := 2 }

theorem test_meets_FencesWaitForEarlierRequests :
    findTag fencing 0 5 9 (fun q => q.stage == .fence) = some { req opFence .fence with id := 1 } ∧
    findReq fencing 1 = some { req opFence .fence with id := 1 } ∧ earlierSame fencing { req opFence .fence with id := 1 } ≠ [] ∧
    findTag { up with reqs := [req opFence .fence] } 0 5 9 (fun q => q.stage == .fence) = some (req opFence .fence) ∧
    findReq { up with reqs := [req opFence .fence] } 0 = some (req opFence .fence) ∧
    earlierSame { up with reqs := [req opFence .fence] } (req opFence .fence) = [] := by decide

/-- A read at step 5 whose port allows it 1 µs, 250 ticks later. -/
def late : State :=
  { up with regs := [(portPage 0 * 4096 + 0x044, 1)], reqs := [req opRd .step5], time := { up.time with tick := 250 } }

theorem test_meets_TimeoutsReply : findTag late 0 5 9 (fun q => timeable q && timedOut late q) = some (req opRd .step5) ∧
    findReq late 0 = some (req opRd .step5) ∧ NoneHeld late 0 := by
  refine ⟨by decide, by decide, rfl, ?_⟩
  intro r h hne
  cases h with
  | head => exact absurd rfl hne
  | tail _ h => cases h

/-- A reply of one beat. -/
def reply1 : Reply :=
  { id := 0, tag := 9, lsrc := 5, outcome := 0, detail := 0, beats := [{ g0 := 0, g1 := 0, g2 := 0, g3 := 0 }], sent := 0, dl := 0,
    cls := .bl, readyCyc := 0, sectors := 0, hdrCredit := false, sampled := none }

theorem test_meets_RepliesLeaveBeatByBeat :
    (withPort { Port.reset with replies := [reply1] }).pins.portOpen = true ∧
    (withPort { Port.reset with replies := [reply1] }).clk.coreRun = true ∧
    (port (withPort { Port.reset with replies := [reply1] }) 0).stall = false ∧
    bestBy Reply.before (port (withPort { Port.reset with replies := [reply1] }) 0).replies = some reply1 ∧
    ∀ id, NoneHeld (withPort { Port.reset with replies := [reply1] }) id :=
  ⟨by decide, by decide, by decide, by decide, fun _ => ⟨rfl, by intro r h; cases h⟩⟩

theorem test_meets_RepliesLeaveBeatByBeat_stall : (port (withPort { Port.reset with stall := true }) 0).stall = true := by decide

theorem test_meets_SamplesAreSelected :
    ({ waiting1 with pmu := { Pmu.reset with smpDue := some 0 } } : State).pmu.smpDue = some 0 ∧
    findReq waiting1 0 = some (rdReq [sec0]) := by decide

/-- A valid root entry of capacity 64, tentative length 2, committed length 1. -/
def entry1 : BitVec 256 := hSetTentative (hSetCommitted ((1#256 <<< 56) ||| 64#256) 1) 2

/-- A handle command on handle 0 whose entry is cached. -/
def handled (o : Byte) (aux : Word) : State :=
  { up with
    hdl := { Hdl.reset with cache := [(0, { bytes := entry1, bad := false, poisoned := false, dirty := false, used := 0 })] }
    reqs := [{ req o .handle with aux := aux }], nextReq := 1 }

/-- What HandleCommandsTakeEffect asks of the state and the request. -/
def handleReady (s : State) (r : Req) : Bool :=
  decide (findTag s 0 5 9 (fun q => q.stage == .handle && q.tAdmit.isNone) = some r) && decide (findReq s r.id = some r) &&
    s.reqs.all (fun q => q.stage != .handle || q.tAdmit.isNone) && handleTurn s r && !hdlPoisoned s r.handle &&
    hValid (hdlBytes s r.handle) && !hcmtOver r (hdlBytes s r.handle) && r.h.priv != 0#2

theorem test_meets_HandleCommandsTakeEffect :
    handleReady (handled opHcmt 0x01000001) { req opHcmt .handle with aux := 0x01000001 } = true ∧
    handleReady (handled opHrbk 0) (req opHrbk .handle) = true ∧ hZero entry1 = false ∧
    handleReady (handled opHrel 0) (req opHrel .handle) = true ∧ hChild entry1 = false := by decide

/-- A child of handle 1, without children, whose cached parent has been released and has one child left. -/
def child1 : BitVec 256 := entry1 ||| (1#256 <<< 59) ||| (1#256 <<< 112)
def parent1 : BitVec 256 := (1#256 <<< 58) ||| (1#256 <<< 152)
def adopted : State :=
  { handled opHrel 0 with
    hdl := { Hdl.reset with
      cache := [(0, { bytes := child1, bad := false, poisoned := false, dirty := false, used := 0 }),
                (1, { bytes := parent1, bad := false, poisoned := false, dirty := false, used := 0 })] } }

theorem test_meets_HandleCommandsTakeEffect_child : handleReady adopted (req opHrel .handle) = true ∧ hdlBytes adopted 0 = child1 ∧
    hChildren child1 = 0 ∧ hChild child1 = true ∧ hParent child1 = 1 ∧ hdlPoisoned adopted 1 = false ∧ hdlBytes adopted 1 = parent1 ∧
    hChildren parent1 - 1 = 0 ∧ hRetained parent1 = true := by decide

/-- A handle with ZERO over the RESIDENT region, of one tentative sector more than it has committed. -/
def zeroing : State :=
  { handled opHrbk 0 with
    rgn := [(0, region)]
    hdl := { Hdl.reset with
      cache := [(0, { bytes := entry1 ||| (1#256 <<< 57), bad := false, poisoned := false, dirty := false, used := 0 })] } }

theorem test_meets_HandleCommandsTakeEffect_zero : handleReady zeroing (req opHrbk .handle) = true ∧ hZero (hdlBytes zeroing 0) = true ∧
    (zeroSectors zeroing (hdlBytes zeroing 0) 1 2).length = 1 := by decide

/-! ### Channels -/

/-- A place in channel 0. -/
def place0 : Place := { ch := 0, bank := 0, row := 3, col := 1 }

/-- A queue entry of one sector at `place0`. -/
def ent (write : Bool) : Entry :=
  { seq := 0, owner := .port 0 0, pos := 0, cls := .bl, dl := 500, joined := 0, place := place0, n := 1, write := write, data := [],
    vault := none, mask := [], done := 0, overlays := [], newer := [], exempt := true, granted := false, tJoin := 0, tGrant := 0
    hitCls := 0, spare := none }

/-- A channel whose bank 0 has row 3 open in half 0. -/
def openChan : Chan := { Chan.reset with halves := [(0, { Half.reset with st := .open_, row := 3 })], credit := 1000 }

/-- `withChan` at a core cycle. -/
def atCyc (c : Chan) (n : Nat) : State := { withChan c with time := { up.time with cyc := n } }

theorem test_meets_ReadsJoinTheCommandQueue :
    nextJoin (withChan { Chan.reset with rq := [ent false] }) { Chan.reset with rq := [ent false] } = some (ent false) ∧
    (ent false).write = false ∧ (ent false).owner ≠ .writeBack ∧ 0 < (ent false).n ∧ (ent false).done = 0 ∧
    fenced (withChan { Chan.reset with rq := [ent false] }) place0 = false ∧ forwardFor { Chan.reset with rq := [ent false] } place0 0 0 = [] := by
  decide

theorem test_meets_ReadsJoinTheCommandQueue_handle : (∀ id, NoneHeld up id) ∧ up.hdl.cache.length ≤ 4096 ∧
    (∀ x ∈ up.hdl.cache, x.2.bad = false) ∧ (∀ q ∈ (chan up 0).cmdq, q.next ≠ none) ∧
    nextJoin up { Chan.reset with rq := [{ ent false with owner := .hdl 0 }] } = some { ent false with owner := .hdl 0 } :=
  ⟨fun _ => ⟨rfl, by intro r h; cases h⟩, by decide⟩

theorem test_meets_TheGateGrantsASlot_idle : inService State.reset 0 = false ∧ { Chan.reset with halted := true }.halted = true ∧
    lastCycle up = false ∧ (chan (withChan { Chan.reset with slotIdx := 501 }) 0).slotIdx = slotNow up + 1 := by decide

/-- A slot's last cycle with a read of the open row queued. -/
def granting : State := atCyc { openChan with cmdq := [ent false] } 1001

theorem test_meets_TheGateGrantsASlot : inService granting 0 = true ∧ (chan granting 0).halted = false ∧ lastCycle granting = true ∧
    (chan granting 0).slotIdx ≠ slotNow granting + 1 ∧
    gateWinner granting 0 (chan granting 0) (offered granting 0) = some (ent false) ∧
    turnOk granting (chan granting 0) (tim granting 0) (ent false).write = true := by decide +kernel

theorem test_meets_WindowsStartAfresh : (atCyc Chan.reset 1024).winStart ≤ 1024 ∧
    (1024 - (atCyc Chan.reset 1024).winStart) % winLen (atCyc Chan.reset 1024) = 0 ∧ up.arb.waiter = none ∧ up.ecc.scrNext = none ∧
    up.arb.next = none ∧ ({ up.arb with next := some ArbSet.reset } : Arb).next = some ArbSet.reset ∧
    up.arb.notBefore ≤ 1024 := by decide

theorem test_meets_BanksMoveOnAndFallDue : (1000 < ({ Half.reset with exit := 1001 } : Half).exit) ∧
    ¬ (1000 < ({ Half.reset with exit := 1000 } : Half).exit) ∧ refreshRuns up 0 = true ∧
    nextDue up ((chan up 0).bank 0) 0 ≤ up.time.tick ∧ ((chan up 0).bank 0).x2 = up.thm.x2 ∧ ((chan up 0).bank 0).debt < 7 ∧
    ((chan (withChan { Chan.reset with banks := [(0, { Bank.reset with debt := 7 })] }) 0).bank 0).debt = 7 ∧
    8 ≤ ((chan (withChan { Chan.reset with banks := [(0, { Bank.reset with debt := 8 })] }) 0).bank 0).debt := by decide

/-- A slice of bank 0 held by context 0. -/
def slice0 : Slice :=
  { d := 0, ch := 0, first := 0, count := 1, runs := [], banks := 1, cost := 100, budget := 250, writes := true, cls := .bl, dl := 500, seq := 0, resume := 0,
    started := some 0, pausedBanks := 0, pausedAt := none, pausedFor := 0, ctx := some 0, area := (0, 0), pollAt := 0, got := [],
    final := none }

/-- Channels whose next row command is SLP, a Gauntlet's REF or PRE, NRF, REF, PRE, ACT and none. -/
def hotBank : Bank := { Bank.reset with gauntlet := true, debt := 8 }
def refreshed : Tab Bank := (List.range 16).map (fun b => (b, { Bank.reset with debt := -8 }))
def wantSlp : State := withChan { Chan.reset with running := [(0, slice0)], banks := [(0, hotBank)] }
def gauntletRef : State := withChan { Chan.reset with banks := [(2, hotBank)] }
def gauntletPre : State := withChan { openChan with banks := [(0, hotBank)] }
def wantNrf : State := withChan { Chan.reset with nrfq := [{ bank := 1, row := 7, spare := false }] }
def wantRef : State := withChan { Chan.reset with banks := [(2, { Bank.reset with debt := 1 })] }
def wantPre : State := withChan { openChan with cmdq := [{ ent false with place := { place0 with row := 4 } }], banks := refreshed }
def wantAct : State := withChan { Chan.reset with credit := 1000, cmdq := [ent false], banks := refreshed }
def wantNone : State := withChan { Chan.reset with banks := refreshed }
def haltedChan : State := withChan { Chan.reset with banks := refreshed, halted := true }

theorem test_meets_TheSchedulerSendsRowCommands_no_slot : inService State.reset 0 = false ∧
    rowFree (withChan { Chan.reset with lastRow := some 999 }) 0 = false := by decide

theorem test_meets_TheSchedulerSendsRowCommands_slp : inService wantSlp 0 = true ∧ rowFree wantSlp 0 = true ∧
    (chan wantSlp 0).halted = false ∧ pauseWanted wantSlp (chan wantSlp 0) = some (0, 0) := by decide +kernel

theorem test_meets_TheSchedulerSendsRowCommands_gauntlet_ref : inService gauntletRef 0 = true ∧ rowFree gauntletRef 0 = true ∧
    pauseWanted gauntletRef (chan gauntletRef 0) = none ∧ firstGauntlet (chan gauntletRef 0) = some 2 ∧
    refMay gauntletRef 0 (chan gauntletRef 0) 2 = true := by decide +kernel

theorem test_meets_TheSchedulerSendsRowCommands_gauntlet_pre : inService gauntletPre 0 = true ∧ rowFree gauntletPre 0 = true ∧
    pauseWanted gauntletPre (chan gauntletPre 0) = none ∧
    (firstGauntlet (chan gauntletPre 0)).filter (refMay gauntletPre 0 (chan gauntletPre 0)) = none ∧
    (closable gauntletPre 0 (chan gauntletPre 0)).filter (fun x => ((chan gauntletPre 0).bank x.1).gauntlet) = [(0, 0)] := by
  decide +kernel

theorem test_meets_TheSchedulerSendsRowCommands_nrf : inService wantNrf 0 = true ∧ rowFree wantNrf 0 = true ∧
    (gauntletSlot wantNrf 0 (chan wantNrf 0)).isNone = true ∧
    nrfReady wantNrf 0 (chan wantNrf 0) = some { bank := 1, row := 7, spare := false } := by decide +kernel

theorem test_meets_TheSchedulerSendsRowCommands_ref : inService wantRef 0 = true ∧ rowFree wantRef 0 = true ∧
    (gauntletSlot wantRef 0 (chan wantRef 0)).isNone = true ∧ nrfReady wantRef 0 (chan wantRef 0) = none ∧
    refBest wantRef 0 (chan wantRef 0) = some 2 := by decide +kernel

theorem test_meets_TheSchedulerSendsRowCommands_pre : inService wantPre 0 = true ∧ rowFree wantPre 0 = true ∧
    (gauntletSlot wantPre 0 (chan wantPre 0)).isNone = true ∧ nrfReady wantPre 0 (chan wantPre 0) = none ∧
    refBest wantPre 0 (chan wantPre 0) = none ∧ (chan wantPre 0).halted = false ∧
    closable wantPre 0 (chan wantPre 0) = [(0, 0)] := by decide +kernel

theorem test_meets_TheSchedulerSendsRowCommands_act : inService wantAct 0 = true ∧ rowFree wantAct 0 = true ∧
    (gauntletSlot wantAct 0 (chan wantAct 0)).isNone = true ∧ nrfReady wantAct 0 (chan wantAct 0) = none ∧
    refBest wantAct 0 (chan wantAct 0) = none ∧ closable wantAct 0 (chan wantAct 0) = [] ∧
    openable wantAct 0 (chan wantAct 0) = [(0, 0, ent false)] := by
  decide +kernel

theorem test_meets_TheSchedulerSendsRowCommands_none : inService wantNone 0 = true ∧ rowFree wantNone 0 = true ∧
    (gauntletSlot wantNone 0 (chan wantNone 0)).isNone = true ∧ nrfReady wantNone 0 (chan wantNone 0) = none ∧
    refBest wantNone 0 (chan wantNone 0) = none ∧ closable wantNone 0 (chan wantNone 0) = [] ∧
    openable wantNone 0 (chan wantNone 0) = [] ∧ inService haltedChan 0 = true ∧ (gauntletSlot haltedChan 0 (chan haltedChan 0)).isNone = true ∧
    nrfReady haltedChan 0 (chan haltedChan 0) = none ∧ refBest haltedChan 0 (chan haltedChan 0) = none ∧
    (chan haltedChan 0).replayq = [] ∧ draining haltedChan = false := by decide +kernel

/-- A slice paused on bank 0. -/
def pausedChan : Chan := { Chan.reset with running := [(0, { slice0 with pausedBanks := 1, pausedAt := some 0 })] }

theorem test_meets_PausedSlicesResume :
    pausedOn (chan (withChan pausedChan) 0) 0 = some (0, { slice0 with pausedBanks := 1, pausedAt := some 0 }) ∧
    draining (withChan pausedChan) = false ∧ ((chan (withChan pausedChan) 0).bank 0).gauntlet = false ∧
    ((chan (withChan pausedChan) 0).bank 0).owed = 0 ∧ nrfOn (chan (withChan pausedChan) 0) 0 = false ∧
    ((chan (withChan pausedChan) 0).half 0 0).idleAt 1000 = true ∧ ((chan (withChan pausedChan) 0).half 0 1).idleAt 1000 = true ∧
    rowFree (withChan pausedChan) 0 = true ∧ inService (withChan pausedChan) 0 = true ∧
    draining { withChan pausedChan with thm := { up.thm with tripPh := 1 } } = true ∧
    0 < ({ Bank.reset with owed := 1 } : Bank).owed ∧ ({ Bank.reset with gauntlet := true } : Bank).gauntlet = true := by decide +kernel

/-- A read burst on its way, and the access that asked for it. -/
def burst0 : Burst := { g0 := 0, g1 := 0, alert := false, order := 1, at_ := 990 }
def bursting : State :=
  { withChan { openChan with inflight := [{ order := 1, what := .data (ent false) place0 }] } with
    stack := { Stack.reset with chans := [(0, { StkChan.reset with ret := [burst0] })] } }

theorem test_meets_BurstsReachTheirAccess_burst : (stk bursting 0).ret = [burst0] ∧ burst0.order ≠ 0 ∧
    bursting.blk.st ≠ .lost ∧ alertShown ⟨burstHalf bursting 0 0 burst0 0, burstHalf bursting 0 1 burst0 0⟩ = false ∧
    (chan bursting 0).inflight = [{ order := 1, what := .data (ent false) place0 }] ∧
    alertShown ⟨burstHalf bursting 0 0 { burst0 with g0 := alertSector.g0, g1 := alertSector.g1 } 0,
      burstHalf bursting 0 1 { burst0 with g0 := alertSector.g0, g1 := alertSector.g1 } 0⟩ = true := by decide +kernel

/-- A verify read that finds the row as written, and one that finds the error that was corrected. -/
def verified (corr : List (Nat × Nat × Byte)) (d : Sector) : State :=
  { withChan { openChan with vrets := [{ place := place0, corr := corr, data := d }] } with
    regs := [(pgEcc * 4096 + 0x040, 8)], ecc := { Ecc.reset with scrNow := false } }

theorem test_meets_BurstsReachTheirAccess_verify :
    (chan (verified [] ⟨0, 0⟩) 0).vrets = [{ place := place0, corr := [], data := ⟨0, 0⟩ }] ∧
    (decodeAt (verified [] ⟨0, 0⟩) place0 ⟨0, 0⟩).corr = [] ∧ (decodeAt (verified [] ⟨0, 0⟩) place0 ⟨0, 0⟩).ue = [] ∧
    (decodeAt (verified [] ⟨0, 0⟩) place0 ⟨1, 0⟩).ue = [] ∧
    (decodeAt (verified [] ⟨0, 0⟩) place0 ⟨1, 0⟩).corr.any (fun x => [(0, 3, 1#8)].contains x) = true ∧
    fenced (verified [] ⟨0, 0⟩) place0 = false ∧ (verified [] ⟨0, 0⟩).ecc.repair = none ∧ (verified [] ⟨0, 0⟩).ecc.queue = [] ∧
    regB (verified [] ⟨0, 0⟩) pgEcc 0x040 3 = true := by decide +kernel

/-- A row reconstruction with a result, and a read of request 0 that waits for it. -/
def recon0 (res : Option (List Sector)) : Recon :=
  { place := place0, vault := { t := 4, rowLo := 0, parRowLo := 100 }, cls := .bl, dl := 500, flights := [(ent false, place0)], asked := true
    got := [], newer := [], res := some res }
def rebuilding (res : Option (List Sector)) : State :=
  { withChan { Chan.reset with recon := [recon0 res] } with reqs := [{ req opRd .admitted with todo := 2 }], nextReq := 1 }

theorem test_meets_BurstsReachTheirAccess_reconstruction :
    (chan (rebuilding (some [])) 0).recon.find?
      (fun r => r.res.isSome && (writeForbidden (rebuilding (some [])) || rewritesOf (chan (rebuilding (some [])) 0) 0 r == 0)) =
      some (recon0 (some [])) ∧
    (recon0 (some [])).flights = [(ent false, place0)] ∧ (ent false).owner = .port 0 0 ∧ (ent false).overlays = [] ∧
    findReq (rebuilding (some [])) 0 = some { req opRd .admitted with todo := 2 } ∧ (oct (rebuilding (some [])) 0).held = [] ∧
    (chan (rebuilding (some [])) 0).sliceWait = [] ∧ (chan up 0).recon = [] ∧
    ({ recon0 none with flights := [] } : Recon).res = some none := by decide +kernel

/-- A Liner entry of `place0`. -/
def liner0 (st : LinerSt) (mask : BitVec 32) (back : Option Sector) : Liner :=
  { serial := 0, place := place0, plain := 0, mask := mask, dl := 500, evDl := 600, st := st, born := 99, vault := none, cls := .bl, reqs := [],
    readBack := back }

/-- Channel 0 with that Liner entry. -/
def lined (l : Liner) : State := { withChan { Chan.reset with liner := [l] } with time := { up.time with tick := 5000 } }

theorem test_meets_LinerEntriesAgeMergeAndJoin_found :
    (chan (lined (liner0 .merging 1 none)) 0).liner.find? (fun l => l.st == .merging &&
      decide (l.born + max 1 (regF (lined (liner0 .merging 1 none)) (chPage 0) 0x044 0 12) ≤ 5000)) = some (liner0 .merging 1 none) ∧
    (chan (lined (liner0 .evicting 1 (some ⟨1, 0⟩))) 0).liner.find? (fun l => l.st == .evicting && l.readBack.isSome) =
      some (liner0 .evicting 1 (some ⟨1, 0⟩)) ∧
    linerWaiting (lined (liner0 .full fullMask none)) (chan (lined (liner0 .full fullMask none)) 0) = some (liner0 .full fullMask none) ∧
    queuedWrite (cancelRewrites (chan (lined (liner0 .full fullMask none)) 0) place0) place0 = none ∧
    sectorBad ⟨encodeGranule 0 ^^^ poisonError, 0⟩ = true := by decide +kernel

theorem test_meets_LinerEntriesAgeMergeAndJoin : (liner0 .merging 1 none).st = .merging ∧
    up.time.tick < (liner0 .merging 1 none).born + max 1 (regF up (chPage 0) 0x044 0 12) ∧
    99 + max 1 (regF up (chPage 0) 0x044 0 12) ≤ 5000 ∧ (liner0 .evicting 1 (some ⟨0, 0⟩)).readBack = some ⟨0, 0⟩ ∧
    sectorBad ⟨0, 0⟩ = false ∧ lockOn up place0 = none ∧ (liner0 .full fullMask none).vault = none ∧ 0 < hiwat up 0 ∧
    (chan up 0).cmdq = [] := by decide +kernel

/-! ### Slices, operations and Crowns -/

/-- A FILL operation of descriptor 0 in channel 0 with nothing done. -/
def opChan0 : OpChan := { copied := false, copying := false, left := 1, part := [], parts := [], done := false }
def op0 : Op := { (default : Op) with req := 0, form := .fill, mask := 1, cls := .bl, dl := 500, chans := [(0, opChan0)] }

/-- The block with that operation in its table, and channel 0 as given. -/
def running (op : Op) (c : Chan) : State := { withChan c with disp := { up.disp with ops := [(0, op)] } }

/-- Its slice waiting in the slicer, queued, and running. -/
def sliced : Chan := { Chan.reset with slicer := [slice0] }
def queued : Chan := { Chan.reset with sliceq := [slice0], credit := 1000 }
def started (x : Slice) : Chan := { Chan.reset with running := [(0, x)] }
def opDone : Op := { op0 with chans := [(0, { opChan0 with copied := true })] }
/-- The same with DROP_LATE. -/
def opLate : Op := { opDone with d := { opDone.d with flags := 1 } }

theorem test_meets_SlicesAreQueuedCopiedAndPolled_full :
    8 ≤ (chan (withChan { Chan.reset with sliceq := List.replicate 8 slice0 }) 0).sliceq.length := by decide

theorem test_meets_SlicesAreQueuedCopiedAndPolled_take : (chan (running opDone sliced) 0).sliceq.length < 8 ∧
    inRecovery (running opDone sliced) (.oct, octOf 0) = false ∧ nextSlice (running opDone sliced) 0 = some slice0 ∧
    (chan (running opDone sliced) 0).liner = [] := by decide +kernel

theorem test_meets_SlicesAreQueuedCopiedAndPolled_copy : opOf (running op0 Chan.reset) 0 = some op0 ∧
    Tab.find op0.chans 0 = some opChan0 ∧ op0.stopped = false ∧ opChan0.copied = false ∧ opChan0.copying = false ∧
    opChan0.done = false ∧ slotBusy (running op0 Chan.reset) op0 0 = false ∧ lateAt (running op0 Chan.reset) op0 = false := by
  decide +kernel

theorem test_meets_SlicesAreQueuedCopiedAndPolled_poll :
    Tab.find (chan (running op0 (started slice0)) 0).running 0 = some slice0 ∧ slice0.pausedAt = none ∧ slice0.final = none ∧
    srdWaiting (chan (running op0 (started slice0)) 0) 0 = false ∧
    slice0.pollAt ≤ sliceRunning (running op0 (started slice0)) slice0 ∧
    sliceRunning (running op0 (started slice0)) { slice0 with pollAt := 1001 } < 1001 := by decide

theorem test_meets_SlicesStartEndAndOverrun_start : pendingSlice (running opDone queued) (chan (running opDone queued) 0) = some slice0 ∧
    opOf (running opDone queued) 0 = some opDone ∧ slice0.ctx = some 0 ∧ (chan (running opDone queued) 0).halted = false ∧
    inService (running opDone queued) 0 = true ∧ (running opDone queued).thm.tripPh = 0 ∧
    Tab.find (chan (running opDone queued) 0).running 0 = none ∧ fillQueued (chan (running opDone queued) 0) 0 = false ∧
    lateAt { running opDone queued with time := { up.time with blk := 501 } } opLate = true ∧
    banksReady (running opDone queued) 0 (chan (running opDone queued) 0) 1 = true ∧
    rowFree (running opDone queued) 0 = true ∧ (running opDone queued).hk.freq = .none ∧ 0 < (chan (running opDone queued) 0).credit ∧
    (opDone.form.writesArray && writeForbidden (running opDone queued)) = false ∧ lateAt (running opDone queued) opDone = false := by
  decide +kernel

/-- A slice that reads only, of a FILL, is pending while writes are forbidden; one of two slices that writes is passed over. -/
def forbade (q : List Slice) : State :=
  { running opDone { Chan.reset with sliceq := q, credit := 1000 } with thm := { up.thm with forbid := true } }

theorem test_meets_SlicesStartEndAndOverrun_forbid : opDone.form.writesArray = true ∧
    writeForbidden (forbade [{ slice0 with writes := true }, { slice0 with d := 1, writes := false }]) = true ∧
    pendingSlice (forbade [{ slice0 with writes := true }, { slice0 with d := 1, writes := false }])
      (chan (forbade [{ slice0 with writes := true }, { slice0 with d := 1, writes := false }]) 0) =
      some { slice0 with d := 1, writes := false } ∧
    (pendingSlice (forbade [{ slice0 with writes := false }]) (chan (forbade [{ slice0 with writes := false }]) 0)).isSome = true := by
  decide +kernel

/-- The status sector of a slice that is done without an uncorrectable granule. -/
def statusDone : Sector := ⟨encodeGranule 4, encodeGranule 0⟩

theorem test_meets_SlicesStartEndAndOverrun_end : slice0.final = none ∧
    ({ slice0 with final := some statusDone } : Slice).final = some statusDone ∧ statusUes 0 (plain statusDone) = [] ∧
    (chan (running op0 (started slice0)) 0).partIn = [] ∧ fieldNat (plain ⟨encodeGranule 5, encodeGranule 0⟩) 0 8 = 5 := by decide +kernel

theorem test_meets_SlicesStartEndAndOverrun_overrun : slice0.started.isSome = true ∧ slice0.final = none ∧ slice0.pausedAt = none ∧
    sliceUsed (running op0 (started slice0)) slice0 ≤ 2 * costCycles slice0.cost + 2500 ∧
    2 * costCycles slice0.cost + 2500 < sliceUsed { running op0 (started slice0) with time := { up.time with cyc := 9999 } } slice0 := by
  decide

/-- A partial of descriptor 0 that has arrived. -/
def partChan : Chan := { Chan.reset with partIn := [(0, 0, ⟨0, 0⟩)] }

theorem test_meets_CrownsQueueAndTakeItems_partial : (chan (running op0 partChan) 0).partIn = [(0, 0, ⟨0, 0⟩)] ∧
    opOf (running op0 partChan) 0 = some op0 := by decide +kernel

/-- An operation of channels 0 and 8 whose part in channel 8 has arrived at its Crown. -/
def opTwo : Op :=
  { op0 with mask := 0x101, head := 0, chans := [(0, opChan0), (8, { opChan0 with done := true, parts := [(0, 1, [])] })] }

theorem test_meets_CrownsQueueAndTakeItems_fabric : opOf (running opTwo Chan.reset) 0 = some opTwo ∧ opTwo.stopped = false ∧
    (1 : Fin 8).val < nOct (running opTwo Chan.reset) ∧
    (1 : Fin 8).val ≠ opTwo.head ∧ (sendingOcts opTwo).contains 1 = true ∧ octReady opTwo 1 = true ∧
    opTwo.octDone.contains 1 = false ∧ (oct (running opTwo Chan.reset) opTwo.head).queue = [] := by decide +kernel

/-- An atomic on `place0`, in a state of its life. -/
def job0 (st : JobSt) (got : Option Sector) : Job :=
  { jid := 0, req := none, kind := .atomic 0 0 false 0 ⟨0, 0⟩, place := place0, vault := none, cls := .bl, dl := 500, seq := 0, port := 0,
    st := st, lock := false, mark := 0, got := got, base := none }

/-- `up` with octant 0 as given. -/
def withOct (o : Oct) : State := { up with octs := [(0, o)] }
def item0 : QItem := { item := .job 0, dl := 500, cls := .bl, joined := 0, port := 0 }
def item1 : QItem := { item0 with item := .fabric 0 1 }
def takes (i : QItem) : State := withOct { Oct.reset with queue := [i], jobs := [job0 .queued none] }

theorem test_meets_CrownsQueueAndTakeItems_take : crownRuns (takes item0) 0 = true ∧
    bestBy (itemBefore (oct (takes item0) 0)) ((oct (takes item0) 0).queue.filter (itemReady (oct (takes item0) 0))) = some item0 ∧
    item0.item = .job (job0 .queued none).jid ∧ (oct (takes item0) 0).jobs = [job0 .queued none] ∧
    bestBy (itemBefore (oct (takes item1) 0)) ((oct (takes item1) 0).queue.filter (itemReady (oct (takes item1) 0))) = some item1 ∧
    crownRuns (withOct { Oct.reset with dead := true }) 0 = false := by decide

/-- Octant 0 with that job. -/
def jobbed (st : JobSt) (got : Option Sector) : State := withOct { Oct.reset with jobs := [job0 st got], jid := 1 }

theorem test_meets_CrownJobsLockReadAndWrite : crownRuns (jobbed .wantLock none) 0 = true ∧
    lockReady (jobbed .wantLock none) 0 (oct (jobbed .wantLock none) 0) (job0 .wantLock none) = true ∧
    mayStart (jobbed .wantLock none) (job0 .wantLock none) = true ∧ (∀ d, (job0 .wantLock none).kind ≠ .result d) ∧
    (oct (jobbed .returned (some ⟨0, 0⟩)) 0).jobs = [job0 .returned (some ⟨0, 0⟩)] ∧ sectorBad ⟨0, 0⟩ = false ∧
    (chan (jobbed .returned (some ⟨0, 0⟩)) 0).cmdq = [] ∧ writeJoined (jobbed .writing none) 0 (job0 .writing none) = true := by
  refine ⟨by decide, by decide, by decide, (by intro d h; cases h), by decide, by decide +kernel, by decide, by decide⟩

/-- A fragment held for `place0`. -/
def held0 : Held := { place := place0, etype := 0, cid := 0, data := ⟨0, 0⟩, seq := 0, vault := none }

theorem test_meets_DrainsAndResults_drain : crownRuns (withOct { Oct.reset with held := [held0] }) 0 = true ∧
    up.thm.w = .open_ ∧ (oct (withOct { Oct.reset with held := [held0] }) 0).held = [held0] ∧
    (oct (withOct { Oct.reset with held := [held0] }) 0).jobs = [] ∧ ({ up.thm with w := .hold } : Thm).w = .hold := by decide

/-- The FILL with its only channel done, and its request. -/
def opOver : Op := { op0 with chans := [(0, { opChan0 with copied := true, done := true })] }
def sopReq : Req := { req opSop .admitted with todo := 1 }
def complete : State := { running opOver Chan.reset with reqs := [sopReq], nextReq := 1 }

theorem test_meets_DrainsAndResults_result : opReady op0 = false ∧ opOf complete 0 = some opOver ∧ opOver.stopped = false ∧
    opReady opOver = true ∧ lateAt complete opOver = false ∧ opOver.form = .fill ∧ opOver.poison = none ∧ opOver.recon = false ∧
    findReq complete opOver.req = some sopReq ∧ sopReq.stage = .admitted ∧ sopReq.todo = 1 ∧ sopReq.rdata = [] := by decide +kernel

/-! ### The stack's buses -/

/-- Channel 0 of the stack with row 3 of bank 0 open in half 0. -/
def opened : StkChan := { StkChan.reset with opens := [(0, (3, false))] }

theorem stack_ready : StackReady up 0 := ⟨by decide, by decide, by decide⟩

theorem test_meets_ActAndPreMoveTheirHalf_act : StackReady up 0 ∧ (0xFFFF : BitVec 17).toNat < rowsPerBank up ∧
    rowTime up 0 (.act ⟨0, 0⟩ 0 0xFFFF false) = 1000 ∧ Tab.find (stk up 0).opens (halfKey 0 (halfOf up 0xFFFF)) = none ∧
    Tab.find (stk up 0).rsv 0 = none ∧ since (stk up 0).tAct (halfKey 0 (halfOf up 0xFFFF)) 1000 up.stkTim.rc = true ∧
    stkIdleOk up.stkTim (stk up 0) 0 (halfOf up 0xFFFF) 1000 = true ∧ stkRateOk up.stkTim (stk up 0) 0 1000 = true :=
  ⟨stack_ready, by decide⟩

theorem test_meets_ActAndPreMoveTheirHalf_spare : rowTime up 0 (.act ⟨0, 0⟩ 15 0x3F true) = 1000 ∧
    Tab.find (stk up 0).opens (halfKey 15 (fieldNat (0x3F : BitVec 17) 5 1)) = none ∧ Tab.find (stk up 0).rsv 15 = none ∧
    since (stk up 0).tAct (halfKey 15 1) 1000 up.stkTim.rc = true ∧ stkIdleOk up.stkTim (stk up 0) 15 1 1000 = true ∧
    stkRateOk up.stkTim (stk up 0) 15 1000 = true := by decide

theorem opened_ready : StackReady (withStk opened) 0 := ⟨by decide, by decide, by decide⟩

theorem test_meets_ActAndPreMoveTheirHalf_pre : StackReady (withStk opened) 0 ∧ Tab.rising (stk (withStk opened) 0).opens = true ∧
    stkOpen (stk (withStk opened) 0) 0 0 = true ∧ stkOpen (stk (withStk opened) 0) 0 1 = false ∧
    stkPreFrom (withStk opened) (stk (withStk opened) 0) (halfKey 0 0) ≤ rowTime (withStk opened) 0 (.pre ⟨0, 0⟩ 0 0 true) :=
  ⟨opened_ready, by decide⟩

/-- A channel of the stack in ALERT. -/
def alerted : State := withStk { StkChan.reset with alert := true }

theorem test_meets_RefreshCommands_ref : stkAwake up 0 = true ∧ stkOpen (stk up 0) 0 0 = false ∧ stkOpen (stk up 0) 0 1 = false ∧
    rowTime up 0 (.ref ⟨0, 0⟩ 0) = 1000 ∧ stkIdleOk up.stkTim (stk up 0) 0 0 1000 = true ∧ stkIdleOk up.stkTim (stk up 0) 0 1 1000 = true ∧
    stkRateOk up.stkTim (stk up 0) 0 1000 = true ∧ stkAwake alerted 0 = true ∧ (stk alerted 0).alert = true := by decide

theorem test_meets_RefreshCommands_nrf : stkAwake up 0 = true ∧ stkOpen (stk up 0) 0 (halfOf up 7) = false ∧
    rowTime up 0 (.nrf ⟨0, 0⟩ 0 7 false true) = 1000 ∧ since (stk up 0).tAct (halfKey 0 (halfOf up 7)) 1000 up.stkTim.rc = true ∧
    stkIdleOk up.stkTim (stk up 0) 0 (halfOf up 7) 1000 = true ∧ stkRateOk up.stkTim (stk up 0) 0 1000 = true := by decide

theorem test_meets_SliceCommandsOfTheStack_sls : StackReady up 0 ∧ ∀ b : Fin 16, (1 : BitVec 16).getLsbD b = true →
    stkOpen (stk up 0) b 0 = false ∧ stkOpen (stk up 0) b 1 = false ∧ Tab.find (stk up 0).rsv b = none := ⟨stack_ready, by decide⟩

/-- A stack channel whose context 0 is in a state on bank 0, with so many outputs to be read from an area of eight sectors. -/
def inCtx (st : CtxSt) (paused : BitVec 16) (ready : Nat) : StkChan :=
  { StkChan.reset with
    ctxs := [(0, { Ctx.reset with st := st, banks := 1, pausedBanks := paused, ready := ready, outLen := 8 })], rsv := [(0, 0)] }

theorem test_meets_SliceCommandsOfTheStack_pause : StackReady (withStk (inCtx .running 0 0)) 0 ∧
    ((stk (withStk (inCtx .running 0 0)) 0).ctx 0).st = .running ∧ StackReady (withStk (inCtx .paused 1 0)) 0 ∧
    ((stk (withStk (inCtx .paused 1 0)) 0).ctx 0).st = .paused ∧
    ((stk (withStk (inCtx .paused 1 0)) 0).ctx 0).pausedBanks.getLsbD 0 = true :=
  ⟨⟨by decide, by decide, by decide⟩, by decide, ⟨by decide, by decide, by decide⟩, by decide, by decide⟩

theorem test_meets_SliceCommandsOfTheStack_abort : StackReady (withStk (inCtx .running 0 0)) 0 ∧
    ((stk (withStk (inCtx .running 0 0)) 0).ctx 0).st ≠ .idle ∧ ((stk (withStk (inCtx .running 0 0)) 0).ctx 0).st ≠ .aborted ∧
    stkAwake (withStk opened) 0 = true ∧ Tab.rising (stk (withStk opened) 0).opens = true :=
  ⟨⟨by decide, by decide, by decide⟩, by decide, by decide, by decide, by decide⟩

theorem test_meets_PowerLaneAndNop_power : StackReady up 0 ∧ stackOn up = true ∧
    (stk (withStk { StkChan.reset with selfRefresh := true }) 0).selfRefresh = true ∧ (2 : BitVec 2) ≠ 3#2 ∧
    (stk (withStk { StkChan.reset with powerDown := true }) 0).powerDown = true ∧
    (stk (withStk { StkChan.reset with powerDown := true }) 0).selfRefresh = false := ⟨stack_ready, by decide⟩

theorem test_meets_PowerLaneAndNop_lane : StackReady up 0 ∧ (18 : BitVec 5).toNat ≤ 18 ∧
    rowTime up 0 (.lane ⟨0, 0⟩ 1 18 true true) + 2 * stkSlot up + 20 = 1024 ∧ (63 : Fin 64).val < nChan up := ⟨stack_ready, by decide⟩

theorem opened_memory : MemorySound (withStk opened) := by unfold MemorySound; decide

theorem test_meets_ReadsReturnTheOpenRow : StackReady (withStk opened) 0 ∧
    Tab.find (stk (withStk opened) 0).opens (halfKey 0 0) = some (3, false) ∧ Tab.find (stk (withStk opened) 0).rsv 0 = none ∧
    colTime (withStk opened) 0 (.colRd ⟨0, 0⟩ 0 0 31) = 1000 ∧ colTime (withStk opened) 0 (.colRda ⟨0, 0⟩ 0 0 31) = 1000 ∧
    stkColOk (withStk opened).stkTim (stk (withStk opened) 0) 0 1000 true = true ∧
    since (stk (withStk opened) 0).tAct (halfKey 0 0) 1000 (withStk opened).stkTim.rcd = true := ⟨opened_ready, by decide⟩

theorem test_meets_WritesStoreInTheOpenRow : StackReady (withStk opened) 0 ∧ MemorySound (withStk opened) ∧
    Tab.find (stk (withStk opened) 0).opens (halfKey 0 0) = some (3, false) ∧ 3 < 2 ^ 17 ∧
    Tab.find (stk (withStk opened) 0).rsv 0 = none ∧ colTime (withStk opened) 0 (.colWr ⟨0, 0⟩ 0 0 31 ⟨⟨0, 0⟩, 0⟩) = 1000 ∧
    colTime (withStk opened) 0 (.colWra ⟨0, 0⟩ 0 0 31 ⟨⟨0, 0⟩, 0⟩) = 1000 ∧
    stkColOk (withStk opened).stkTim (stk (withStk opened) 0) 0 1000 false = true ∧
    since (stk (withStk opened) 0).tAct (halfKey 0 0) 1000 (withStk opened).stkTim.rcd = true :=
  ⟨opened_ready, opened_memory, by decide⟩

theorem test_meets_WritesStoreInTheOpenRow_lanes :
    lanesAgree (withStk opened) 0 (colTime (withStk opened) 0 (.colWr ⟨0, 0⟩ 0 0 31 ⟨⟨1, 2⟩, 0⟩) + stkWl (withStk opened)) := by
  intro h hh
  interval_cases h <;> decide

theorem test_meets_VectorBufferAndContexts_buffer : StackReady up 0 ∧ MemorySound up ∧
    colTime up 0 (.vwr ⟨0, 0⟩ 8191 ⟨⟨0, 0⟩, 0⟩) = 1000 ∧ stkColOk up.stkTim (stk up 0) 4 1000 false = true ∧
    colTime up 0 (.vrd ⟨0, 0⟩ 8191) = 1000 ∧ stkColOk up.stkTim (stk up 0) 4 1000 true = true ∧
    colTime up 0 (.spw ⟨0, 0⟩ 1 1 ⟨⟨0, 0⟩, 0⟩) = 1000 := ⟨stack_ready, up_memory, by decide⟩

theorem test_meets_VectorBufferAndContexts_outputs : StackReady (withStk (inCtx .done 0 1)) 0 ∧
    colTime (withStk (inCtx .done 0 1)) 0 (.prd ⟨0, 0⟩ 0) = 1000 ∧
    stkColOk (withStk (inCtx .done 0 1)).stkTim (stk (withStk (inCtx .done 0 1)) 0) 4 1000 true = true ∧
    ((stk (withStk (inCtx .done 0 1)) 0).ctx 0).outrdy 1000 ≠ 0 ∧ colTime (withStk (inCtx .done 0 0)) 0 (.srd ⟨0, 0⟩ 0) = 1000 ∧
    ctxState 1000 ((stk (withStk (inCtx .done 0 0)) 0).ctx 0) = .done ∧ ((stk (withStk (inCtx .done 0 0)) 0).ctx 0).outrdy 1000 = 0 ∧
    ctxState 1000 ((stk (withStk (inCtx .paused 1 0)) 0).ctx 0) ≠ .done :=
  ⟨⟨by decide, by decide, by decide⟩, by decide⟩

theorem test_meets_AlertOfTheStack_breach : StackReady (withStk opened) 0 ∧ (3 : BitVec 17).toNat < rowsPerBank (withStk opened) ∧
    stkOpen (stk (withStk opened) 0) 0 (halfOf (withStk opened) 3) = true ∧
    Tab.find (stk (withStk opened) 0).opens (halfKey 1 0) = none ∧ Tab.find (stk (withStk (inCtx .running 0 0)) 0).rsv 0 ≠ none :=
  ⟨opened_ready, by decide⟩

theorem test_meets_AlertOfTheStack_ignores : stkAwake alerted 0 = true ∧ (stk alerted 0).alert = true := by decide

/-- SLX of context 0 with one wire in error in its first burst, and with two; NOP whose wires carry the codeword of OP 15. -/
theorem test_meets_AlertOfTheStack_row : onRow (.slx ⟨0, 1⟩ 0) = some (0, 1, .slx ⟨0, 0⟩ 0) ∧ (1 : BitVec 64) ≠ 0 ∧
    (rowReceive (rowFields (.slx ⟨0, 0⟩ 0)) 1).ok = true ∧
    rowOf 0 (rowReceive (rowFields (.slx ⟨0, 0⟩ 0)) 1).payload = some (.slx ⟨0, 0⟩ 0) ∧ (rowReceive (rowFields (.slx ⟨0, 0⟩ 0)) 1).fixed = [0] ∧
    (rowReceive (rowFields (.slx ⟨0, 0⟩ 0)) 0x101).ok = false := by decide +kernel

/-- What the wires would have to add to NOP to make it another payload: its codeword, since NOP's is zero. -/
def asRow (p : BitVec 27) : BitVec 64 := wordOfBytes 64 (rowBurst (rowPayload p) 0 ++ rowBurst (rowPayload p) 1)

theorem test_meets_AlertOfTheStack_reserved : onRow (.rowNop ⟨0, asRow 15⟩) = some (0, asRow 15, .rowNop ⟨0, 0⟩) ∧ asRow 15 ≠ 0 ∧
    (rowReceive (rowFields (.rowNop ⟨0, 0⟩)) (asRow 15)).ok = true ∧
    rowOf 0 (rowReceive (rowFields (.rowNop ⟨0, 0⟩)) (asRow 15)).payload = none ∧
    rowOf 0 (rowReceive (rowFields (.rowNop ⟨0, 0⟩)) (asRow 3)).payload = some (.ref ⟨0, 0⟩ 0) := by decide +kernel

theorem test_meets_AlertOfTheStack_column : onCol (.colNop ⟨0, 0x101⟩) = some (0, 0x101, .colNop ⟨0, 0⟩) ∧
    (colReceive (colFields (.colNop ⟨0, 0⟩)) 0x101).ok = false ∧
    (colReceive (colFields (.colNop ⟨0, 0⟩)) (wordOfBytes 48 (colBurst 10))).ok = true ∧
    colOf 0 (colReceive (colFields (.colNop ⟨0, 0⟩)) (wordOfBytes 48 (colBurst 10))).payload (burstOf (.colNop ⟨0, 0⟩)) 0 = none := by
  decide +kernel

/-! ### The sideband, scrub and repair -/

/-- A sideband transaction of housekeeping's. -/
def sb (cmd : Nat) (ch : Byte) (a : BitVec 24) (ws : List Word) : Sb :=
  { cmd := cmd, ch := ch, addr := a, len := ws.length - 1, words := ws, user := 4, tries := 0, sentTick := 0, orig := cmd
    resp := none }

/-- `up` with that transaction in progress, while the passport is programmed or not. -/
def onSideband (x : Sb) (busy : Bool) : State :=
  { up with link := { Link.reset with cur := some x }, stack := { Stack.reset with ppBusy := busy } }

theorem test_meets_SidebandFramesAct : stackOn (onSideband (sb 1 63 0x0BF []) false) = true ∧
    (onSideband (sb 1 63 0x0BF []) false).link.cur = some (sb 1 63 0x0BF []) ∧ (sb 1 63 0x0BF []).resp = none ∧
    (onSideband (sb 1 63 0x0BF []) false).stack.ppBusy = false ∧ (63 : Fin 64) < nChan up ∧ (sb 1 63 0x0BF []).len = 0 ∧
    (sb 1 63 0x0BF []).ch = BitVec.ofNat 8 (63 : Fin 64) ∧ (sb 2 0 0x067 [7]).len = 0 ∧ (sb 2 0 0x01A [7]).words = [7] ∧
    ppAddrOk (0x3FFFC : BitVec 24).toNat 1 = true ∧ (sb 6 0 (BitVec.ofNat 24 (areaBase true)) []).addr = 0x28000 ∧
    (sb 7 sbAll 1 [3, 4]).len = [3, 4].length - 1 ∧ (onSideband (sb 3 0 0 []) true).stack.ppBusy = true ∧
    (sb 5 0 0 []).words = [] := by decide

/-- A request with a bit of its header turned, and one whose code is 0. -/
theorem test_meets_SidebandFramesAct_refused : sbReceive (sbRequest 3 0 0 0 [] ^^^ 1) = .refused 1 ∧
    sbReceive (sbRequest 3 0 0 0 [] ^^^ (sbRequest 3 0 0 0 [] ^^^ sbRequest 0 0 0 0 [])) = .refused 2 ∧
    sbRequest 3 0 0 0 [] ^^^ sbRequest 0 0 0 0 [] ≠ 0 ∧ sbReceive (sbRequest 2 0 5 0x067 [7]) = .cmd 2 5 0x067 0 [7] := by decide +kernel

theorem test_meets_SidebandAnswersAreJudged :
    ({ Stack.reset with ppWork := some (0x10000, 4) } : Stack).ppWork = some (0x10000, 4) ∧
    ({ sb 3 0 0 [] with resp := some (0#8, [7]) } : Sb).resp = some (0#8, [7]) ∧ (sb 3 0 0 []).tries < regF up pgLink 0x044 0 3 ∧
    regF up pgLink 0x044 0 3 ≤ ({ sb 3 0 0 [] with tries := 7 } : Sb).tries ∧
    ({ sb 3 0 0 [] with resp := some (3#8, []) } : Sb).resp = some (3#8, []) ∧ (sb 3 0 0 []).user = 4 ∧ (sb 3 0 0 []).cmd = 3 ∧
    (onSideband (sb 3 0 0 []) false).link.queue = [] ∧ up.time.tick < (sb 3 0 0 []).sentTick + sbTicks (sb 3 0 0 []) + 320 ∧
    (sb 3 0 0 []).sentTick + sbTicks (sb 3 0 0 []) + 320 ≤ 645 ∧ (sbHeard (sbReply 0 [7] ^^^ 1) 1).1 = false ∧
    sbHeard (sbReply 0 [7]) 1 = (true, 0, [7]) := by decide +kernel

/-- A channel whose next patrol row is the first row of the handle store. -/
def patrolled : State :=
  { withChan { Chan.reset with patrolRow := hdlRow0 up } with regs := [(pgEcc * 4096 + 0x040, 3)], time := { up.time with tick := 10 ^ 12 } }

theorem test_meets_ScrubAndRepair_patrol : patrolRuns State.reset = false ∧ patrolRuns patrolled = true ∧
    patrolDue patrolled (chan patrolled 0) = true ∧ patrolDue up (chan up 0) = false ∧
    inScrubSet patrolled (chan patrolled 0).patrolBank (chan patrolled 0).patrolRow = true ∧
    fenced patrolled { ch := 0, bank := (chan patrolled 0).patrolBank, row := (chan patrolled 0).patrolRow, col := 0 } = false := by
  decide

/-- A failed row at the head of HK's queue, in channel 0 as given. -/
def fail0 : RowFail := { ch := 0, bank := 0, row := 3 }
def failing (c : Chan) : State :=
  { withChan c with hk := { Hk.reset with waiting := [.repair] }, ecc := { Ecc.reset with queue := [fail0], scrNow := false } }

/-- A channel whose bank 0 has no spare left. -/
def spent : Chan := { Chan.reset with dead := (List.range 32).map (fun i => (0, i)) }

theorem test_meets_ScrubAndRepair_repair : repairReady (failing Chan.reset) fail0 = true ∧
    remapOf (chan (failing Chan.reset) 0) 0 3 = none ∧ remapSlot (chan (failing Chan.reset) 0) 0 3 = some 0 ∧
    freeSpares (chan (failing Chan.reset) 0) 0 = 0 :: (List.range 32).tail ∧ remapMay (failing Chan.reset) fail0 = true ∧
    remapMay { failing Chan.reset with thm := { up.thm with forbid := true } } fail0 = false := by decide

theorem test_meets_ScrubAndRepair_fence : repairReady (failing spent) fail0 = true ∧ remapOf (chan (failing spent) 0) 0 3 = none ∧
    remapSlot (chan (failing spent) 0) 0 3 = some 0 ∧ freeSpares (chan (failing spent) 0) 0 = [] ∧
    (chan (failing spent) 0).cmdq = [] ∧ (chan (failing spent) 0).liner = [] := by decide +kernel

/-- A repair of row 3 of bank 0 to spare 0, all of whose sectors have been read back, or `n` of them. -/
def repair0 (n : Nat) (bad : Bool) : Repair :=
  { row := fail0, entry := 0, spare := 0, fails := 1, tries := 0, ph := .verify, got := [], checked := n, bad := bad }
def remapping (n : Nat) (bad : Bool) : State := { up with ecc := { Ecc.reset with repair := some (repair0 n bad) } }

theorem test_meets_ScrubAndRepair_activate : (remapping 31 false).ecc.repair = some (repair0 31 false) ∧ (repair0 31 false).checked < 32 ∧
    32 ≤ (repair0 32 false).checked ∧ (repair0 32 true).bad = true ∧ (repair0 32 true).tries = 0 ∧ (repair0 32 false).bad = false ∧
    inRecovery (remapping 32 false) (.ch, fail0.ch) = false ∧ (remapping 32 false).thm.tripPh = 0 ∧
    ({ repair0 32 false with ph := .quiet } : Repair).ph ≠ .verify ∧
    inRecovery { remapping 32 false with
      recov := [{ scope := .channel 0, cls := 2, page := 0, src := default, start := 0, restarts := 0 }] } (.ch, fail0.ch) = true ∧
    (freeSpares (chan (remapping 32 true) 0) 0).filter (fun i => i != 0) = 1 :: ((List.range 32).tail).tail := by decide +kernel

/-! ### Calibration -/

/-- The block with engine 0 as given, tracking on, sweeps on, at tick 500. -/
def tracking (e : CalEng) : State :=
  { up with cals := [(0, e)], regs := [(calPage 0 * 4096 + 0x040, 6)], time := { up.time with tick := 5000 } }

theorem test_meets_CalibrationStepsAndSweeps_step : calRuns up 0 = false ∧ calRuns (tracking CalEng.reset) 0 = true ∧
    (cal (tracking CalEng.reset) 0).stepAt + max 250 (regF (tracking CalEng.reset) (calPage 0) 0x044 0 12) ≤ 5000 ∧
    5000 < (cal (tracking { CalEng.reset with stepAt := 5000 }) 0).stepAt +
      max 250 (regF (tracking CalEng.reset) (calPage 0) 0x044 0 12) := by decide

/-- An engine that sweeps wire 0. -/
def sweeping (ph : SweepPh) (found : Option (Nat × Int)) : CalEng := { CalEng.reset with active := true, phase := ph, found := found }

theorem test_meets_CalibrationStepsAndSweeps_take : calRuns (tracking CalEng.reset) 0 = true ∧
    (cal (tracking CalEng.reset) 0).active = false ∧ regB (tracking CalEng.reset) (calPage 0) 0x040 2 = true ∧
    (nextSweep (tracking CalEng.reset) 0).isSome = true ∧ (∀ x ∈ nextSweep (tracking CalEng.reset) 0, x.2.2.pendErr = []) ∧
    (cal (tracking (sweeping .scan none)) 0).active = true := by decide +kernel

theorem test_meets_CalibrationStepsAndSweeps_dwell : (cal (tracking (sweeping .scan none)) 0).phase = .scan ∧
    (cal (tracking { sweeping .scan none with pos := 39 }) 0).pos < 40 ∧ (cal (tracking { sweeping .scan none with pos := 42 }) 0).pos = 42 ∧
    43 ≤ (cal (tracking { sweeping .scan none with pos := 43 }) 0).pos ∧ 0 ≤ gridPos (sweeping .scan none).centre 20 ∧
    (((stk (withStk { StkChan.reset with lanes := [(0, { StkLane.reset with wire := 0, sel := true, pat := true })] }) 0).lane 0).modeAt
      1000).pat = true := by decide

/-- A channel whose wire 0 has one low sweep behind it, or all but the last. -/
def lowWire (n : Nat) : State :=
  { tracking (sweeping .verify (some (5, 100))) with chans := [(0, Chan.reset.setWire 0 { Chan.reset.wire 0 with low := n })] }

theorem test_meets_CalibrationStepsAndSweeps_end : (cal (tracking (sweeping .scan (some (30, 100)))) 0).found = some (30, 100) ∧
    (cal (tracking (sweeping .scan none)) 0).found = none ∧
    (cal (tracking (sweeping .verify (some (63, 100)))) 0).phase = .verify ∧ eyeMin (tracking (sweeping .verify (some (63, 100)))) 0 ≤ 63 ∧
    5 < eyeMin (lowWire 0) 0 ∧ ((chan (lowWire 0) 0).wire 0).low + 1 < failSweeps (lowWire 0) 0 ∧
    failSweeps (lowWire 15) 0 ≤ ((chan (lowWire 15) 0).wire 0).low + 1 ∧ (cal (lowWire 15) 0).wire < 38 ∧
    (∀ v < 38, wireHalf v = wireHalf 0 → ((chan (lowWire 15) 0).wire v).failed = false) ∧
    ((chan (lowWire 15) 0).spare (wireHalf 0)).failed = false ∧
    (cal (tracking (sweeping .wait none)) 0).phase = .wait ∧ (tracking (sweeping .wait none)).link.cur = none ∧
    (tracking (sweeping .wait none)).link.queue = [] := by decide +kernel

/-- A probe of wire 3 of channel 0, and an engine whose reading of it is in. -/
def probe0 (st : ProbeSt) : Probe := { wire := 3, ch := 0, right := true, eye := none, st := st }
def answered (st : ProbeSt) (n : Word) : CalEng := { CalEng.reset with pendErr := [probe0 st], lnGot := [(0, n)] }

theorem test_meets_CalibrationStepsAndSweeps_reading :
    (cal (tracking (answered .waiting 17)) 0).lnGot = [(0, 17)] ∧
    (cal (tracking (answered .waiting 17)) 0).pendErr.find? (fun q => q.ch == 0 && q.st != .lost) = some (probe0 .waiting) ∧
    (cal (tracking (answered .dropped 17)) 0).pendErr.find? (fun q => q.ch == 0 && q.st != .lost) = some (probe0 .dropped) ∧
    ((chan (tracking (answered .waiting 17)) 0).wire 3).wlow + 1 < failSweeps (tracking (answered .waiting 17)) 0 ∧
    16 < ((17 : Word) - Tab.get (answered .waiting 17).lastErr 0 0#32).toNat ∧
    ((16 : Word) - Tab.get (answered .waiting 16).lastErr 0 0#32).toNat ≤ 16 ∧ (cal up 0).lnGot = [] := by decide

/-! ### Temperature and power -/

/-- `up` with the THM unit as given. -/
def withThm (t : Thm) : State := { up with thm := t }
def thm8 : Thm := { up.thm with rounds8 := 1 }

/-- A DRAM sensor's neighbour that already reads 105 °C. -/
def hotNeighbour : Thm := { thm8 with sens := [((sensorNeighbours up 0).headD 0, { Sensor.reset with seen := true, heldVal := 1680 })] }

theorem test_meets_SensorReadingsActOnTheLevels_slot : up.thm.slot < 64 ∧ up.thm.slotAt ≤ up.time.tick ∧ slotSensor up = some 0 ∧
    sensorReg 0 = some 0x100 ∧ up.link.cur = none ∧ up.link.queue = [] ∧ slotSensor (withThm { thm8 with slot := 56 }) = some 56 ∧
    sensorReg 56 = none ∧ (sensor up 56).st = .good ∧ up.time.tick < (withThm { thm8 with slotAt := 4000 }).thm.slotAt := by decide

/-- A block whose read of sensor 0 over the sideband has been answered with a word. -/
def sensed (t : Thm) (w : Word) : State :=
  { withThm t with
    link := { Link.reset with cur := some { sb 1 sbAll 0x100 [] with user := 1, resp := some (0#8, [w]) } } }

/-- The block once the reading of sensor 0 is taken. -/
def reads0 (t : Thm) (w : Word) : State := takeReading (sensed t w) 0 (some (field w 0 16))

theorem test_meets_SensorReadingsActOnTheLevels : regSensor 0x100 = 0 ∧ (0x10690 : Word).getLsbD 16 = true ∧
    (sensor (sensed thm8 0x10690) 0).st = .good ∧ (sensed up.thm 0x10690).thm.rounds8 = 0 ∧ 0 < (sensed thm8 0x10690).thm.rounds8 ∧
    tripDue (reads0 thm8 0x10690) 0 = false ∧ wrLo (sensed thm8 0x10690) ≤ (field (0x10690 : Word) 0 16).toInt ∧
    (field (0x10690 : Word) 0 16).toInt ≤ wrHi (sensed thm8 0x10690) ∧
    wrHi (sensed thm8 0x10708) < (field (0x10708 : Word) 0 16).toInt ∧ tripDue (reads0 thm8 0x10708) 0 = false ∧
    (sensed thm8 0x10708).thm.w = .open_ ∧
    brimOk { reads0 thm8 0x10708 with thm := { (reads0 thm8 0x10708).thm with forbid := true } } = false ∧
    (sensed thm8 0x10708).thm.forbid = false ∧ (sensor (sensed hotNeighbour 0x10730) 0).st = .good ∧
    tripDue (reads0 hotNeighbour 0x10730) 0 = true ∧ (sensed hotNeighbour 0x10730).thm.w ≠ .trip ∧
    (sensed hotNeighbour 0x10730).hk.freq = .none := by decide +kernel

theorem test_meets_RoundsAndTrips_round : up.thm.slot < 64 ∧ (withThm { thm8 with slot := 64 }).thm.slot = 64 ∧
    (withThm { thm8 with slot := 64 }).thm.started = true ∧ (withThm { thm8 with slot := 64 }).thm.slotAt ≤ up.time.tick ∧
    up.time.tick < (withThm { thm8 with slot := 64, slotAt := 101 }).thm.slotAt := by decide

theorem test_meets_RoundsAndTrips_entry : up.thm.tripPh ≠ 1 ∧ (withThm { thm8 with tripPh := 1 }).thm.tripPh = 1 ∧
    linkLive (withThm { thm8 with tripPh := 1 }) = true ∧
    ∀ c : Fin 64, tripDrained (withThm { thm8 with tripPh := 1 }) c = true := by decide +kernel

theorem test_meets_RoundsAndTrips_end : (withThm { thm8 with tripPh := 3 }).thm.tripPh = 3 ∧
    (withThm { thm8 with tripPh := 3 }).clk.coreRun = true ∧ up.thm.tripPh ≠ 3 ∧ up.thm.forbid = false ∧
    ({ up.thm with forbid := true } : Thm).forbid = true ∧ ({ thm8 with w := .brim, budget := 0 } : Thm).w = .brim ∧
    ({ thm8 with w := .brim, budget := 0 } : Thm).budgetFrac = 0 ∧ ({ thm8 with budgetFrac := 1 } : Thm).budgetFrac ≠ 0 ∧
    linkLive { withThm { thm8 with tripPh := 1 } with blk := Blk.reset } = false ∧
    tripDrained { withThm { thm8 with tripPh := 1 } with chans := [(0, openChan)] } 0 = false ∧
    (withThm { thm8 with tripPh := 3, forbid := true }).thm.forbid = true ∧ up.thm.w ≠ .brim ∧ up.thm.budget ≠ 0 := by decide

theorem test_meets_PowerStageTransactionsEnd : ({ Pwr.reset with vddNext := some 700 } : Pwr).vddNext = some 700 ∧
    (4 : BitVec 16).getLsbD 2 = true ∧ (0x4000 : BitVec 16).getLsbD 14 = true := by decide

/-- The stack being powered on at boot step 7. -/
def powering (pgood : Bool) (tick : Nat) : State :=
  { State.reset with
    blk := { Blk.reset with step := 7 }, pins := { Pins.reset with stkPwrEn := true, stkPgood := pgood }
    time := { Time.reset with tick := tick } }

theorem test_meets_TheStackIsPoweredOnAndLost : (powering false 0).pins.stkPwrEn = true ∧ (powering false 0).pins.stkPgood = false ∧
    poweringOn (powering false 0) = true ∧ 0 < (powering false 0).pwr.pwrOnTick + pgoodTicks ∧
    (powering false 0).pwr.pwrOnTick + pgoodTicks ≤ (powering false 2500000).time.tick ∧ poweringOn (powering true 0) = true ∧
    (powering true 0).pins.stkRstN = false ∧ 0 < (powering true 0).pwr.pgoodTick + rstTicks ∧
    (powering true 0).pwr.pgoodTick + rstTicks ≤ (powering true 50000).time.tick ∧ up.pins.stkPgood = true ∧
    up.pins.stkPwrEn = true ∧ up.blk.st = .ready ∧ Pins.reset.stkPwrEn = false ∧ Pins.reset.stkPgood = false ∧
    ({ Pins.reset with stkPgood := true } : Pins).stkPwrEn = false := by decide

/-! ### Power-down and frequency points -/

/-- A quiet channel in a state of the power-down sequence, idle since tick 0, with PD_EN set. -/
def idling (pd : PdSt) (c : Chan) : State :=
  { withChan { c with pd := pd, idleSince := some 0, banks := refreshed } with
    regs := [(chPage 0 * 4096 + 0x070, 1)], time := { up.time with tick := 10 ^ 6 } }

theorem test_meets_ChannelsPowerDownAndWake_enter : pdQuiet (idling .active Chan.reset) 0 = true ∧
    (chan (idling .active Chan.reset) 0).idleSince = some 0 ∧
    0 + pdIdle (idling .active Chan.reset) 0 ≤ (idling .active Chan.reset).time.tick ∧
    regB (idling .active Chan.reset) (chPage 0) 0x070 0 = true ∧ inService (idling .active Chan.reset) 0 = true ∧
    (idling .active Chan.reset).time.tick < 10 ^ 6 + pdIdle (idling .active Chan.reset) 0 := by decide +kernel

theorem test_meets_ChannelsPowerDownAndWake_down : pdQuiet (idling .confirming Chan.reset) 0 = true ∧
    pulledIn (chan (idling .confirming Chan.reset) 0) = true ∧ (chan (idling .confirming Chan.reset) 0).inflight = [] ∧
    allClosed (idling .confirming Chan.reset) (chan (idling .confirming Chan.reset) 0) = true ∧
    rowFree (idling .confirming Chan.reset) 0 = true := by decide +kernel

theorem test_meets_ChannelsPowerDownAndWake_wake : pdQuiet (idling .pulling { Chan.reset with rq := [ent false] }) 0 = false ∧
    (chan (idling .powerdown { Chan.reset with rq := [ent false] }) 0).pd = .powerdown ∧
    wakeWanted (chan (idling .powerdown { Chan.reset with rq := [ent false] }) 0) = true ∧ (chan up 0).pd ≠ .powerdown := by decide +kernel

/-- HK with a change to a point waiting, and in progress. -/
def changing (p : Nat) : State := { up with hk := { Hk.reset with waiting := [.freq p false] } }
def drainingTo (p : Nat) : State := { up with hk := { Hk.reset with cur := some (.freq p false), freq := .drain } }

theorem test_meets_FrequencyChangesRun_start : (changing 0).hk.waiting = [.freq (changing 0).hk.point false] ∧
    (changing 0).hk.cur = none ∧ (changing 0).thm.w ≠ .trip ∧ (changing 0).thm.tripPh = 0 ∧ (changing 0).blk.st = .ready ∧
    (changing 0).clk.coreRun = true ∧ (changing 2).hk.waiting = [.freq 2 false] ∧ 2 ≠ (changing 2).hk.point ∧
    up.hk.waiting = [] := by decide

theorem test_meets_FrequencyChangesRun_drain : (drainingTo 1).hk.cur = some (.freq 1 false) ∧ (drainingTo 1).hk.freq = .drain ∧
    (∀ c : Fin 64, freqDrained (drainingTo 1) c = true) ∧
    freqDrained { drainingTo 1 with chans := [(0, openChan)] } 0 = false := by decide +kernel

theorem test_meets_FrequencyChangesRun_resume :
    ({ drainingTo 1 with hk := { (drainingTo 1).hk with freq := .selfRefresh } } : State).hk.freq = .selfRefresh ∧
    (drainingTo 1).clk.coreRun = true ∧ (drainingTo 1).thm.tripWait = false ∧ up.hk.freq ≠ .selfRefresh ∧
    Clk.reset.coreRun = false := by decide

/-! ### Clocks, reset and boot -/

/-- Boot at a step. -/
def booting (n : Nat) (k : Clk) : State := { State.reset with blk := { Blk.reset with step := n }, clk := k }

theorem test_meets_ReferenceAndPllAreChecked : refTesting (booting 2 Clk.reset) = true ∧ Clk.reset.phase = .none ∧
    157287 ≤ 163840 ∧ ({ Clk.reset with passed := 7 } : Clk).passed = 7 ∧ Clk.reset.passed < 7 ∧
    (booting 3 Clk.reset).blk.st = .boot ∧ (booting 3 Clk.reset).blk.step = 3 ∧ (booting 3 Clk.reset).clk.onPll = false ∧
    Clk.reset.tries < 2 ∧ 2 ≤ ({ Clk.reset with tries := 2 } : Clk).tries ∧ up.blk.st = .ready ∧ up.clk.phase = .none ∧
    ({ up.blk with st := .lost } : Blk).st = .lost ∧ ({ Clk.reset with phase := .locking } : Clk).phase = .locking := by decide

theorem test_meets_ClockLossesAreHandled : ({ Clk.reset with refPresent := false } : Clk).refPresent = false ∧
    up.clk.refPresent = true ∧ Clk.reset.onPll = false ∧ up.clk.onPll = true ∧ 92 ≤ (98 : Fin 100).val ∧ (98 : Fin 100).val ≤ 98 ∧
    (91 : Fin 100).val < 92 ∧ 98 < (99 : Fin 100).val ∧ Clk.reset.phase = .none ∧ ({ Clk.reset with phase := .locking } : Clk).phase ≠ .none := by
  decide

/-- `up` with a time base armed for the next TIME_SYNC edge, or with domain 5 gated, or with a measurement running. -/
def armed : State := { up with regs := [(pgBlk * 4096 + 0x060, 1)] }
def gating : State := { up with clk := { up.clk with gate := 1 <<< 5 } }

theorem test_meets_TimeGatesAndMeasurements : up.clk.stopped.getLsbD 92 = false ∧ regB up pgBlk 0x060 0 = false ∧
    regB armed pgBlk 0x060 0 = true ∧ gated gating (5 : Fin 100) = true ∧ domainIdle gating (5 : Fin 100) = true ∧
    gated up (5 : Fin 100) = false ∧ ({ Clk.reset with fmeasBusy := true } : Clk).fmeasBusy = true ∧ up.clk.fmeasBusy = false := by
  decide +kernel

theorem test_meets_ResetsAndBootSteps : bootMoves (booting 2 Clk.reset) = true ∧ (booting 2 Clk.reset).clk.refOk = false ∧
    bootMoves (booting 2 { Clk.reset with refOk := true }) = true ∧ bootMoves (booting 3 Clk.reset) = true ∧
    (booting 3 Clk.reset).clk.onPll = false ∧ bootMoves up = false ∧ bootMoves (booting 12 { Clk.reset with coreRun := true }) = true ∧
    (booting 12 Clk.reset).blk.step = 12 ∧ bootMoves { booting 8 { Clk.reset with coreRun := true } with link := { Link.reset with bootAt := some 0 } } = true ∧
    ({ Link.reset with bootAt := some 0 } : Link).bootAt ≠ none := by decide

/-! ### Faults, tests and the test access port -/

/-- A recovery of channel 0, and a state in which it is ready to end. -/
def rec0 : Recovery := { scope := .channel 0, cls := 2, page := chPage 0, src := .overrun, start := 0, restarts := 0 }
def recovering : State := { up with recov := [rec0], time := { up.time with tick := 10 ^ 6 } }

/-- A channel whose progress timer has run out. -/
def stuck : State := withChan { Chan.reset with cmdq := [ent false], prog := 10 ^ 7 }

theorem test_meets_FaultsRecoverTheirScope_detect : unitOf up (⟨16, by decide⟩ : Fin 128).val ≠ none ∧
    sourceFits .ecc .overrun = false ∧ unitOf up pgEcc = some (.ecc, 0) ∧ up.blk.st = .ready ∧ up.recov = [] ∧
    (∃ p : Fin 128, unitOf { up with part := .rosura32 } p = none) := by
  refine ⟨by decide, by decide, by decide, by decide, by decide, 127, by decide⟩

theorem test_meets_FaultsRecoverTheirScope_recover : recovering.recov = [rec0] ∧ rec0.page = chPage 0 ∧ rec0.scope = .channel 0 ∧
    recovering.blk.st = .ready ∧ recoveryReady recovering rec0 = true := by decide +kernel

theorem test_meets_FaultsRecoverTheirScope_progress : progExpired up (.ch, 0) .unit = false ∧ progExpired stuck (.ch, 0) .unit = true ∧
    largerExpired stuck (faultClass stuck (chPage 0) .progress .unit) = false := by decide +kernel

/-- Counter 367 at its largest value. -/
def counted : State := { up with pmu := { Pmu.reset with cnt := [(367, BitVec.allOnes 48)] } }

/-- HDL_OP's command in progress. -/
def hdlOp (judged : Bool) : HdlOp := { cmd := 2, handle := 0, image := 0, judged := judged, result := 0, dl := 0 }

theorem test_meets_CountersCommandsAndTestsEnd : counterExists counted (367 : Fin 368) = true ∧
    counter counted (367 : Fin 368) = BitVec.allOnes 48 ∧ counter up (367 : Fin 368) ≠ BitVec.allOnes 48 ∧
    (367 : Fin 368).val % 2 = 1 ∧ ({ up.hdl with op := some (hdlOp true) } : Hdl).op = some (hdlOp true) ∧
    (hdlOp true).judged = true ∧ (hdlOp false).judged = false ∧ (hdlOp true).cmd = 2 ∧
    (oct (withOct { Oct.reset with run := .stopReq }) 0).run = .stopReq ∧
    inRecovery (withOct { Oct.reset with run := .stopReq }) (.oct, 0) = false ∧
    octIdle (withOct { Oct.reset with run := .stopReq }) 0 = true ∧
    octIdle (withOct { Oct.reset with run := .stopReq, jobs := [job0 .queued none] }) 0 = false ∧ up.sec.waits = [] ∧
    up.hk.cur = none ∧ ({ Hk.reset with waiting := [.mbist 7] } : Hk).waiting = [.mbist 7] := by decide +kernel

theorem test_meets_TestAccessPortInstructions : jtagOk up pgLog 0x080 true 7 = true ∧ jtagOk up pgLog 0x080 false 0 = true ∧
    jtagOk up 255 0xFFC true 0 = false ∧ scanMay up = false ∧ scanMay { State.reset with test := { Test.reset with zeroised := true } } = true ∧
    ({ Test.reset with scanning := true } : Test).scanning = true := by decide +kernel

/-! ### The manual's worked examples -/

/-- A STRIPED region with the rows of the example of 03 (ROW_LO 20000, ROW_COUNT 8192), seen from its own base. -/
def striped : Region := { ctl := 1, base := 0, foot := 20000, size := 8192, par := 0 }

/-- The granule of the example of 11: data byte 0 is 0x01. -/
theorem test_example_codeword : encodeGranule 1 = 0x070E0800000000000000000000000000000001#152 := by decide +kernel

/-- The same granule as DQ0 delivers it with 0x00 in place of 0x01 (11, Example). -/
theorem test_example_corrected : decodeGranule (encodeGranule 1 ^^^ 1) = .corrected 3 1 := by decide +kernel

/-- The four pieces of the example of 01 go to CH62, CH63, CH48 and CH49. -/
theorem test_example_interleave : [0x123600, 0x123700, 0x123800, 0x123900].map (fun a => (stripedPlace up striped a).ch) =
    [62, 63, 48, 49] := by decide +kernel

/-- Offsets 0x7800 to 0x7FFF of the example of 03: bank 0, row 20000, columns from 8. -/
theorem test_example_striped : [0x7800, 0x7900, 0x7A00, 0x7FE0].map (stripedPlace up striped) =
    [{ ch := 57, bank := 0, row := 20000, col := 8 }, { ch := 56, bank := 0, row := 20000, col := 8 },
     { ch := 59, bank := 0, row := 20000, col := 8 }, { ch := 62, bank := 0, row := 20000, col := 15 }] := by decide +kernel

/-- Entry 0x0A37 lies in CH55, bank 8, column 2, row 65534 (03, Example). -/
theorem test_example_handle_entry : hdlPlace up 0x0A37 = { ch := 55, bank := 8, row := 65534, col := 2 } := by decide +kernel

/-- RDLY, WDLY and BREF of DQ21 at 74.5 °C are 124, 96 and 43 (09, Example). -/
theorem test_example_interpolation : [[112, 121, 130], [88, 95, 99], [40, 42, 45]].map
    (fun v => interpAt [25, 65, 95] v 0x4A8) = [124, 96, 43] := by decide +kernel

/-- UNIT_ID of CH17 reads 0x0301_1112, and CH_NRF_CFG reads 0x0000_0A03 after reset (16, Example). -/
theorem test_example_registers : regView State.reset 0 81 0 = 0x03011112 ∧ regView State.reset 0 81 0x068 = 0x0A03 := by
  decide +kernel

/-- The LANE command of the example of 08: payload 0xCBE, and in burst 0 ROW0 carries 0xBE and ROW1 carries 0x0C. -/
theorem test_example_lane : rowFields (.lane ⟨9, 0⟩ 1 5 true true) = 0xCBE ∧ rowOf 9 0xCBE = some (.lane ⟨9, 0⟩ 1 5 true true) ∧
    ((rowBurst (rowPayload 0xCBE) 0).map (·.toNat)).take 2 = [0xBE, 0x0C] := by decide +kernel

/-- Row and column payloads written out from Tables 8-3 and 8-4: ACT of row 0x1F in bank 2, WR to bank 3, half 0, column 17, and
PRD of context 1. -/
theorem test_wires_payloads : rowOf 0 0x0001F21 = some (.act ⟨0, 0⟩ 2 0x1F false) ∧
    colOf 9 0x2233 ⟨5, 6⟩ 0 = some (.colWr ⟨9, 0⟩ 3 0 17 ⟨⟨5, 6⟩, 0⟩) ∧ colOf 0 0x18 ⟨0, 0⟩ 0 = some (.prd ⟨0, 0⟩ 1) := by decide +kernel

/-- The SEAL record of manufacture carries the CRC of its first 14 bytes (R224). -/
theorem test_made_seal : crc16 ((madeSeal.map (·.2)).take 14) = 0xDA4F := by decide +kernel

end Sys2Proof.Tests
end

section
/-! Every command, said once: where the part has the unit that it acts on it answers with a next state, which keeps the part,
the command queue, the invariants of the pins and identities and the canonical form of the stack's memory, and HALTED and
LOST unless it is a reset; where the part has not, it faults (R3, R4, R16, R298, R346, R350, R380). -/

namespace Sys2Proof.Machine

/-! ### What a command keeps -/

/-- What every command makes of the block, the resets among them. -/
structure Carries (s t : State) : Prop where
  part : t.part = s.part
  pending : t.pending = s.pending
  sound : KSound (key s) → KSound (key t)
  memory : MemorySound s → MemorySound t

/-- What a command makes of the block that is no reset: HALTED and LOST stay too. -/
structure Continues (s t : State) : Prop where
  follows : Follows (key s) (key t)
  memory : MemorySound s → MemorySound t

theorem Continues.carries {s t : State} (h : Continues s t) : Carries s t := by
  obtain ⟨⟨hpart, hpending, -, -, hsound⟩, hmem⟩ := h
  exact ⟨hpart, hpending, hsound, hmem⟩

/-- A reset leaves the part and the queue; what it leaves of the rest is sound. -/
theorem Carries.of_reset {s t : State} (k : key t = ((key s).1, (key s).2.1, Pins.reset, .boot, .open_, [], 0))
    (w : MemorySound t) : Carries s t :=
  ⟨congrArg (·.1) k, congrArg (·.2.1) k, fun _ => k ▸ reset_ksound _ _, fun _ => w⟩

namespace Continues

variable {s t u : State}

theorem refl (s : State) : Continues s s := ⟨.refl _, id⟩

theorem trans (h : Continues s t) (g : Continues t u) : Continues s u :=
  ⟨h.follows.trans g.follows, g.memory ∘ h.memory⟩

theorem ite {c : Prop} [Decidable c] (h : Continues s t) (g : Continues s u) : Continues s (if c then t else u) := by
  split
  · exact h
  · exact g

/-- An operation that keeps the key and the memory. -/
theorem same (k : key t = key s) (m : mem t = mem s) : Continues s t := ⟨.of_eq k, wf_mem m⟩

/-- An operation that stores nothing. -/
theorem of_follows (k : Follows (key s) (key t)) (m : mem t = mem s) : Continues s t := ⟨k, wf_mem m⟩

/-- An operation that stores into the stack's memory and keeps the key. -/
theorem of_stores (k : key t = key s) (w : MemorySound s → MemorySound t) : Continues s t := ⟨.of_eq k, w⟩

end Continues

/-! ### The unit that a command acts on (R16) -/

/-- The channel, octant, calibration engine and page that a command names: one of the four at most. -/
def namedUnits (i : Instr) : Option (Fin 64) × Option (Fin 8) × Option (Fin 4) × Option (Fin 128) :=
  (chanOf i, octIn i, calIn i, pageIn i)

theorem unitPresent_iff_of_named {s : State} {i : Instr} {c : Option (Fin 64)} {k : Option (Fin 8)} {n : Option (Fin 4)}
    {p : Option (Fin 128)} (h : namedUnits i = (c, k, n, p)) :
    unitPresent s i ↔ (∀ x, c = some x → x < nChan s) ∧ (∀ x, k = some x → x < nOct s) ∧ (∀ x, n = some x → x < nCal s) ∧
      ∀ x, p = some x → unitOf s x ≠ none := by
  obtain ⟨rfl, rfl, rfl, rfl⟩ : chanOf i = c ∧ octIn i = k ∧ calIn i = n ∧ pageIn i = p := by
    simpa only [namedUnits, Prod.mk.injEq] using h
  rfl

theorem unitPresent_of_none {s : State} {i : Instr} (h : namedUnits i = (none, none, none, none)) : unitPresent s i := by
  simp [unitPresent_iff_of_named h]

theorem unitPresent_chan {s : State} {i : Instr} {c : Fin 64} (h : namedUnits i = (some c, none, none, none)) :
    unitPresent s i ↔ c < nChan s := by
  simp [unitPresent_iff_of_named h]

theorem unitPresent_oct {s : State} {i : Instr} {k : Fin 8} (h : namedUnits i = (none, some k, none, none)) :
    unitPresent s i ↔ k < nOct s := by
  simp [unitPresent_iff_of_named h]

theorem unitPresent_cal {s : State} {i : Instr} {n : Fin 4} (h : namedUnits i = (none, none, some n, none)) :
    unitPresent s i ↔ n < nCal s := by
  simp [unitPresent_iff_of_named h]

theorem unitPresent_page {s : State} {i : Instr} {p : Fin 128} (h : namedUnits i = (none, none, none, some p)) :
    unitPresent s i ↔ unitOf s p ≠ none := by
  simp [unitPresent_iff_of_named h]

/-! ### Answers -/

/-- An outcome is a next state that stands in relation R to the state before. -/
def Completes (R : State → State → Prop) (s : State) (o : Host.Outcome State Fault Refusal) : Prop := ∃ t, o = .next t ∧ R s t

/-- A command completes where the part has its unit, with a next state in relation R, and faults where it has not. -/
def Answers (R : State → State → Prop) (s : State) (i : Instr) : Prop :=
  (unitPresent s i → Completes R s (exec i s)) ∧ (¬ unitPresent s i → exec i s = .fault .absentUnit)

section

variable {R : State → State → Prop} {s : State} {i : Instr}

theorem Answers.mono {Q : State → State → Prop} (h : Answers R s i) (hRQ : ∀ t, R s t → Q s t) : Answers Q s i :=
  ⟨fun u => let ⟨t, e, r⟩ := h.1 u; ⟨t, e, hRQ t r⟩, h.2⟩

/-- A command that answers with a next state answers as its unit is there. -/
theorem Answers.of_next {t : State} (h : Answers R s i) (e : exec i s = .next t) : R s t := by
  by_cases u : unitPresent s i
  · obtain ⟨t', e', r⟩ := h.1 u
    obtain rfl : t' = t := Host.Outcome.next.inj (e'.symm.trans e)
    exact r
  · exact absurd (e.symm.trans (h.2 u)) nofun

theorem answers_next (hn : namedUnits i = (none, none, none, none)) (r : Completes R s (exec i s)) : Answers R s i :=
  ⟨fun _ => r, fun u => absurd (unitPresent_of_none hn) u⟩

/-- A command whose meaning is one operation on the state. -/
theorem answers_op {t : State} (hn : namedUnits i = (none, none, none, none)) (e : exec i s = .next t) (r : R s t) :
    Answers R s i := answers_next hn ⟨t, e, r⟩

theorem answers_chan {c : Fin 64} {t : State} (hn : namedUnits i = (some c, none, none, none))
    (e : exec i s = if c < nChan s then .next t else .fault .absentUnit) (r : R s t) : Answers R s i := by
  rw [Answers, unitPresent_chan hn, e]
  exact ⟨fun u => ⟨t, if_pos u, r⟩, fun u => if_neg u⟩

theorem answers_oct {k : Fin 8} {t : State} (hn : namedUnits i = (none, some k, none, none))
    (e : exec i s = if k < nOct s then .next t else .fault .absentUnit) (r : R s t) : Answers R s i := by
  rw [Answers, unitPresent_oct hn, e]
  exact ⟨fun u => ⟨t, if_pos u, r⟩, fun u => if_neg u⟩

theorem answers_cal {n : Fin 4} {t : State} (hn : namedUnits i = (none, none, some n, none))
    (e : exec i s = if n < nCal s then .next t else .fault .absentUnit) (r : R s t) : Answers R s i := by
  rw [Answers, unitPresent_cal hn, e]
  exact ⟨fun u => ⟨t, if_pos u, r⟩, fun u => if_neg u⟩

theorem answers_page {p : Fin 128} (hn : namedUnits i = (none, none, none, some p))
    (r : ∀ u, unitOf s p = some u → Completes R s (exec i s)) (e : unitOf s p = none → exec i s = .fault .absentUnit) :
    Answers R s i := by
  rw [Answers, unitPresent_page hn, not_not, Option.ne_none_iff_exists']
  exact ⟨fun ⟨u, hu⟩ => r u hu, e⟩

end

/-! ### Commands on the wires of a channel (Tables 8-3 and 8-4) -/

section

variable {i j : Instr} {c : Fin 64}

theorem namedUnits_row {err : BitVec 64} (h : onRow i = some (c, err, j)) : namedUnits i = (some c, none, none, none) := by
  unfold onRow at h
  split at h <;> cases h <;> rfl

theorem namedUnits_col {err : BitVec 48} (h : onCol i = some (c, err, j)) : namedUnits i = (some c, none, none, none) := by
  unfold onCol at h
  split at h <;> cases h <;> rfl

/-- A row command is executed as its row decodes, once its channel's wires have brought it. -/
theorem exec_row {err : BitVec 64} (h : onRow i = some (c, err, j)) (s : State) :
    exec i s = onChan s c (fun s => onRowWires s c j err (fun t => rowEffect c t i)) := by
  unfold onRow at h
  split at h <;> cases h <;> rfl

/-- A column command is executed as its column decodes, once its channel's wires have brought it with its burst. -/
theorem exec_col {err : BitVec 48} (h : onCol i = some (c, err, j)) (s : State) :
    ∃ noise, exec i s = onChan s c (fun s => onColWires s c j err noise (fun t o => colEffect c t o i)) := by
  unfold onCol at h
  split at h <;> cases h <;> exact ⟨_, rfl⟩

theorem answers_row {err : BitVec 64} (h : onRow i = some (c, err, j)) (s : State) : Answers Continues s i :=
  answers_chan (namedUnits_row h) (exec_row h s)
    (.of_stores (onRowWires_key _ _ _ _ _ (fun _ _ => rowEffect_key ..)) (onRowWires_wf _ _ _ _ (fun _ _ => rowEffect_wf _ _ _ _)))

theorem answers_col {err : BitVec 48} (h : onCol i = some (c, err, j)) (s : State) : Answers Continues s i := by
  obtain ⟨noise, e⟩ := exec_col h s
  exact answers_chan (namedUnits_col h) e
    (.of_stores (onColWires_key _ _ _ _ _ _ (fun _ _ _ => colEffect_key ..))
      (onColWires_wf _ _ _ _ _ (fun _ _ _ => colEffect_wf _ _ _ _ _)))

end

/-! ### Rows whose meaning is more than one operation -/

theorem accept_continues (s : State) (p : Fin 16) (opc : Byte) (h : Hdr) (aux : Word) (bs : List Beat) :
    Continues s (accept s p opc h aux bs) := .of_follows (accept_follows ..) (accept_mem ..)

theorem presentBeat_continues (s : State) (p : Fin 16) (b : Beat) : Continues s (presentBeat s p b) :=
  .of_follows (presentBeat_follows ..) (presentBeat_mem ..)

/-- Handle commands that are done reply after an operation that keeps the key and the memory (R88). -/
theorem handlesDone_continues {s t : State} (k : key t = key s) (m : mem t = mem s) : Continues s (handlesDone t) :=
  .same ((handlesDone_key t).trans k) ((handlesDone_mem t).trans m)

/-- A sideband frame keeps what its command's answer keeps. -/
theorem sbFrame_continues {s : State} {cmd : Nat} {ch : Byte} {addr : BitVec 24} {len : Nat} {ws : List Word}
    {noise : BitVec 584} {f : State → Byte × List Word × State} (k : ∀ t, key (f t).2.2 = key t)
    (m : ∀ t, mem (f t).2.2 = mem t) : Continues s (sbFrame s cmd ch addr len ws noise f) :=
  .same (sbFrame_key _ _ _ _ _ _ _ _ k) (sbFrame_mem _ _ _ _ _ _ _ _ m)

theorem execHeaderWithoutCredit_continues (p : Fin 16) (opc : Byte) (h : Hdr) (aux : Word) (bs : List Beat) (s : State) :
    Completes Continues s (execHeaderWithoutCredit p opc h aux bs s) := by
  unfold execHeaderWithoutCredit
  split
  · exact ⟨_, rfl, accept_continues ..⟩
  · exact ⟨s, rfl, .refl s⟩

theorem execGatedPortStub_continues (p : Fin 16) (opc : Byte) (h : Hdr) (bs : List Beat) (s : State) :
    Completes Continues s (execGatedPortStub p opc h bs s) := by
  unfold execGatedPortStub
  split
  · exact ⟨_, rfl, accept_continues ..⟩
  · exact ⟨s, rfl, .refl s⟩

theorem execFenceRelease_continues (p : Fin 16) (src : BitVec 10) (tag : BitVec 12) (s : State) :
    Completes Continues s (execFenceRelease p src tag s) := by
  refine ⟨_, rfl, ?_⟩
  split
  · exact .ite (.same (replyReq_key ..) (replyReq_mem ..)) (.refl s)
  · exact .refl s

theorem execHandleCmdTakesEffect_continues (p : Fin 16) (src : BitVec 10) (tag : BitVec 12) (s : State) :
    Completes Continues s (execHandleCmdTakesEffect p src tag s) := by
  refine ⟨_, rfl, ?_⟩
  split
  · refine .ite ?_ (.ite (.same (hdlFetch_key ..) (hdlFetch_mem ..)) (.refl s))
    exact handlesDone_continues (handleEffect_key ..) (handleEffect_mem ..)
  · exact .refl s

theorem execAdmissionStep5Pass_continues (p : Fin 16) (s : State) : Completes Continues s (execAdmissionStep5Pass p s) := by
  refine ⟨_, rfl, ?_⟩
  split
  · exact .ite (.refl s) (.same (passStep5_key ..) (passStep5_mem ..))
  · exact .refl s

theorem execPortTimeoutExpiry_continues (p : Fin 16) (src : BitVec 10) (tag : BitVec 12) (s : State) :
    Completes Continues s (execPortTimeoutExpiry p src tag s) := by
  refine ⟨_, rfl, ?_⟩
  split
  · next r _ =>
    have hghost : Continues s (if r.stage = .beats then modReq s r.id (fun q => { q with ghost := true }) else s) :=
      .ite (.same (modReq_key _ _ _ (fun _ => rfl)) (modReq_mem ..)) (.refl s)
    exact hghost.trans (.same ((pumpAll_key _).trans (replyReq_key ..)) ((pumpAll_mem _).trans (replyReq_mem ..)))
  · exact .refl s

theorem execReplyBeatSend_continues (p : ReplyTurn) (s : State) : Completes Continues s (execReplyBeatSend p s) :=
  ⟨_, rfl, .of_follows ((sendBeat_follows ..).before (modPort_key ..)) ((modPort_mem ..).trans (sendBeat_mem ..))⟩

theorem execWindowStart_continues (s : State) : Completes Continues s (execWindowStart s) := by
  refine ⟨_, rfl, .ite (.refl s) ?_⟩
  have harb : Continues s (applyArb s) := .same (applyArb_key s) (applyArb_mem s)
  refine harb.trans (.trans (t := match (applyArb s).ecc.scrNext with
      | some b => { applyArb s with ecc := { (applyArb s).ecc with scrNow := b, scrNext := none } }
      | none => applyArb s) ?_ ?_)
  · split
    · exact .same rfl rfl
    · exact .refl _
  · exact .same (forN_key _ _ _ (fun _ _ => (calReads_key ..).trans (modChan_key ..)))
      (forN_mem _ _ _ (fun _ _ => (calReads_mem ..).trans (modChan_mem ..)))

theorem setSec_continues (s : State) (x : Sec) : Continues s { s with sec := x } := .same rfl rfl

theorem execEntropyHealthFail_continues (t : HealthTest) (s : State) : Completes Continues s (execEntropyHealthFail t s) :=
  ⟨_, rfl, .trans (.same (bumpReg_key ..) (bumpReg_mem ..)) (.trans (setSec_continues ..) (.same (latch_key ..) (latch_mem ..)))⟩

theorem execEntropyHealthRestored_continues (s : State) : Completes Continues s (execEntropyHealthRestored s) :=
  ⟨_, rfl, .same (key_foldl _ _ _ nrfSeed_key) (mem_foldl _ _ _ nrfSeed_mem)⟩

theorem execFreqChangeResume_continues (s : State) : Completes Continues s (execFreqChangeResume s) := by
  refine ⟨_, rfl, .ite ?_ (.refl s)⟩
  exact .of_follows ((freqEnd_follows _).after ((wakeStack_key _).trans (restartWindows_key s)))
    ((freqEnd_mem _).trans ((wakeStack_mem _).trans (restartWindows_mem s)))

theorem execThmSlotMeasurement_continues (r : Option (BitVec 16)) (s : State) :
    Completes Continues s (execThmSlotMeasurement r s) := by
  refine ⟨_, rfl, .ite (.refl s) ?_⟩
  exact .of_follows ((slotReading_follows s r).before (key_setThm _ _ rfl)) (slotReading_mem s r)

theorem execBrimBudgetExhausted_continues (s : State) : Completes Continues s (execBrimBudgetExhausted s) := by
  refine ⟨_, rfl, ?_⟩
  split
  · next h =>
    have hbrim : s.thm.w ≠ .trip := by
      intro e
      simp [e] at h
    exact .of_follows ((setW_follows s .hold hbrim nofun).before (latch_key ..)) ((latch_mem ..).trans (setW_mem ..))
  · exact .refl s

theorem execPmbAlert_continues (s : State) : Completes Continues s (execPmbAlert s) :=
  ⟨_, rfl, .of_follows (pins_follows s { s.pins with pmbAlertN := false } rfl rfl id) rfl⟩

theorem boot_of_bootMoves {s : State} (h : bootMoves s = true) : s.blk.st = .boot := by
  simp only [bootMoves, Bool.and_eq_true, beq_iff_eq] at h
  obtain ⟨⟨⟨hboot, -⟩, -⟩, -⟩ := h
  exact hboot

/-- A boot step moves in BOOT only, which is neither HALTED nor LOST. -/
theorem execBootStepComplete_continues (r : BootEnd) (s : State) : Completes Continues s (execBootStepComplete r s) := by
  refine ⟨_, rfl, ?_⟩
  split
  · exact .refl s
  · next h =>
    have hboot : s.blk.st = .boot := boot_of_bootMoves (by simpa using h)
    split
    · exact ⟨bootOk_follows s, bootOk_wf s⟩
    · exact .of_follows (bootFail_follows _ _ hboot) (bootFail_mem ..)

theorem setTest_continues (s : State) (x : Test) : Continues s { s with test := x } := .same rfl rfl

theorem execJtagScan_continues (s : State) : Completes Continues s (execJtagScan s) := by
  refine ⟨_, rfl, .ite ?_ (.same (asBypass_key ..) (asBypass_mem ..))⟩
  exact .trans (t := zeroise s) (.same (zeroise_key s) (zeroise_mem s)) (setTest_continues (zeroise s) _)

theorem execFaultDetected_answers (s : State) (page : Fin 128) (src : FaultSource) (part : FaultPart) :
    Answers Continues s (.faultDetected page src part) := by
  refine answers_page rfl (fun u hu => ⟨detect s page u.1 src part, ?_, ?_⟩) (fun hu => ?_)
  · simp only [exec, execFaultDetected, hu]
  · exact .of_follows (detect_follows ..) (detect_mem ..)
  · simp only [exec, execFaultDetected, hu]

theorem execProgressTimerExpiry_answers (s : State) (page : Fin 128) (part : FaultPart) :
    Answers Continues s (.progressTimerExpiry page part) := by
  refine answers_page rfl (fun u hu => ⟨expire s page u part, ?_, ?_⟩) (fun hu => ?_)
  · simp only [exec, execProgressTimerExpiry, hu]
  · exact .same (expire_key ..) (expire_mem ..)
  · simp only [exec, execProgressTimerExpiry, hu]

theorem execRecoveryComplete_answers (s : State) (page : Fin 128) : Answers Continues s (.recoveryComplete page) := by
  refine answers_page rfl (fun u hu => ⟨recovered s page, ?_, ?_⟩) (fun hu => ?_)
  · simp only [exec, execRecoveryComplete, hu]
  · exact .same (recovered_key ..) (recovered_mem ..)
  · simp only [exec, execRecoveryComplete, hu]

/-! ### Every command -/

/-- Every command that is no reset completes where its unit is there, and keeps HALTED and LOST with the rest; where it is
not, it faults. -/
theorem exec_continues (i : Instr) (s : State) (hcold : i ≠ .coldReset) (hwarm : i ≠ .warmReset)
    (hscan : i ≠ .jtagScanLeave) : Answers Continues s i := by
  cases i with
  | reservedOpcode | rd | wr | wrp | atAdd | atMin | atMax | atAnd | atOr
  | atXor | atSwap | atCas | rdw | sopDotRowsplit | sopDotKsplit | sopAttn
  | sopGather | sopScatterAdd | sopSetxIntersect | sopSetxUnion | sopSetxDiff | sopExpand
  | sopFilter | sopCopyResident | sopCopyStriped | sopCopyFromCrown | sopFill | bcast
  | fence | hcmt | hrbk | hrel | cfgRd | cfgWr | chEccInjArm | calForce
  | hkFreqRequest | blkResetWarm | blkTimeLoRead | clkGateWrite | clkFmeasGo | logRd
  | logMark | pmuCfgSet | pmuCntLoRead | pmuCntHiWrite | pmuCntLoWrite | pmuSmpRd
  | pmuSmpClr | hdlOpCreate | hdlOpRead | hdlOpFree | linkPpOpRead | linkPpOpProg
  | rgnCommit | arbCommit | unitStopRequest | unitRunRestart | unitAttnClear | registerWrite
  | nrfReseed | testMbistGo | testT1500Go =>
    exact answers_op rfl rfl (accept_continues ..)
  | rowNop | act | pre | ref | nrf | sls | slp | slr | slx | sre | srx
  | pde | pdx | rsync | lane =>
    exact answers_row rfl s
  | colNop | colRd | colRda | colWr | colWra | vwr | vrd | spw | prd | srd =>
    exact answers_col rfl s
  | headerWithoutCredit => exact answers_next rfl (execHeaderWithoutCredit_continues ..)
  | beatWithoutCredit => exact answers_op rfl rfl (.ite (presentBeat_continues ..) (.refl s))
  | writeDataBeat => exact answers_op rfl rfl (presentBeat_continues ..)
  | fenceRelease => exact answers_next rfl (execFenceRelease_continues ..)
  | handleCmdTakesEffect => exact answers_next rfl (execHandleCmdTakesEffect_continues ..)
  | gatedPortStub => exact answers_next rfl (execGatedPortStub_continues ..)
  | admissionStep5Pass => exact answers_next rfl (execAdmissionStep5Pass_continues ..)
  | portTimeoutExpiry => exact answers_next rfl (execPortTimeoutExpiry_continues ..)
  | replyBeatSend => exact answers_next rfl (execReplyBeatSend_continues ..)
  | sampleSelect => exact answers_op rfl rfl (.same (selectDue_key ..) (selectDue_mem ..))
  | requesterQueueToCmdq => exact answers_chan rfl rfl (.same (joinNext_key ..) (joinNext_mem ..))
  | gateSlotDecision => exact answers_chan rfl rfl (.same (decideSlot_key ..) (decideSlot_mem ..))
  | windowStart => exact answers_next rfl (execWindowStart_continues ..)
  | schedCommandSlot => exact answers_chan rfl rfl (.same (commandSlot_key ..) (commandSlot_mem ..))
  | bankHalfTimingExpiry => exact answers_chan rfl rfl (.same (modChan_key ..) (modChan_mem ..))
  | refreshDue => exact answers_chan rfl rfl (.ite (.same (refreshDue_key ..) (refreshDue_mem ..)) (.refl s))
  | sliceResume => exact answers_chan rfl rfl (.same (resumeSlice_key ..) (resumeSlice_mem ..))
  | readBurstArrival => exact answers_chan rfl rfl (.of_follows (readBurst_follows ..) (readBurst_mem ..))
  | vaultReconstructionDone => exact answers_chan rfl rfl (.of_stores (reconDone_key ..) (reconDone_wf _ _))
  | verifyReadResult => exact answers_chan rfl rfl (.same (verifyResult_key ..) (verifyResult_mem ..))
  | linerAgeExpiry => exact answers_chan rfl rfl (.same (linerAge_key ..) (linerAge_mem ..))
  | linerEvictionReadReturn => exact answers_chan rfl rfl (.same (evictionReturn_key ..) (evictionReturn_mem ..))
  | linerEntryJoinCmdq => exact answers_chan rfl rfl (.same (linerJoin_key ..) (linerJoin_mem ..))
  | sliceQueueTake => exact answers_chan rfl rfl (.of_stores (sliceTake_key ..) (sliceTake_wf _ _))
  | vectorCopyStart => exact answers_chan rfl rfl (.same (copyStart_key ..) (copyStart_mem ..))
  | sliceStart => exact answers_chan rfl rfl (.of_stores (sliceStart_key ..) (sliceStart_wf _ _))
  | sliceStatusPoll => exact answers_chan rfl rfl (.same (slicePoll_key ..) (slicePoll_mem ..))
  | sliceDone => exact answers_chan rfl rfl (.of_stores (sliceDone_key ..) (sliceDone_wf _ _ _))
  | sliceOverrun => exact answers_chan rfl rfl (.same (sliceOverrun_key ..) (sliceOverrun_mem ..))
  | partialArrival => exact answers_chan rfl rfl (.same (partialArrives_key ..) (partialArrives_mem ..))
  | fabricTransferArrival => exact answers_oct rfl rfl (.same (fabricArrives_key ..) (fabricArrives_mem ..))
  | crownItemTake => exact answers_oct rfl rfl (.same (itemTake_key ..) (itemTake_mem ..))
  | crownLockTake => exact answers_oct rfl rfl (.same (lockTake_key ..) (lockTake_mem ..))
  | crownReadReturn => exact answers_oct rfl rfl (handlesDone_continues (readReturn_key ..) (readReturn_mem ..))
  | crownWriteVisible => exact answers_oct rfl rfl (handlesDone_continues (writeVisible_key ..) (writeVisible_mem ..))
  | operationResultDelivery => exact answers_op rfl rfl (.same (deliverResult_key ..) (deliverResult_mem ..))
  | heldDrainStart => exact answers_oct rfl rfl (.same (drainStart_key ..) (drainStart_mem ..))
  | patrolVisit => exact answers_chan rfl rfl (.same (patrolVisit_key ..) (patrolVisit_mem ..))
  | repairSequenceStart => exact answers_op rfl rfl (.same (repairStart_key ..) (repairStart_mem ..))
  | remapActivate => exact answers_op rfl rfl (.same (remapTry_key ..) (remapTry_mem ..))
  | calStepBoundary => exact answers_cal rfl rfl (.same (calStep_key ..) (calStep_mem ..))
  | sweepTakeOver => exact answers_cal rfl rfl (.same (sweepStart_key ..) (sweepStart_mem ..))
  | scanPositionDwellEnd => exact answers_cal rfl rfl (.same (dwellEnd_key ..) (dwellEnd_mem ..))
  | sweepReturn => exact answers_cal rfl rfl (.same (sweepBack_key ..) (sweepBack_mem ..))
  | sweepRelease => exact answers_cal rfl rfl (.of_follows (sweepFree_follows ..) (sweepFree_mem ..))
  | sweepEnd => exact answers_cal rfl rfl (.same (sweepDone_key ..) (sweepDone_mem ..))
  | srLnErrReading => exact answers_cal rfl rfl (.ite (.of_follows (lnErrRead_follows ..) (lnErrRead_mem ..)) (.refl s))
  | thmSlotMeasurement => exact answers_next rfl (execThmSlotMeasurement_continues ..)
  | tripSelfRefreshEntry => exact answers_op rfl rfl (.same (tripSleep_key ..) (tripSleep_mem ..))
  | roundBoundary => exact answers_op rfl rfl (.ite (.refl s) (.of_follows (roundEnd_follows s) (roundEnd_mem s)))
  | tripResume => exact answers_op rfl rfl (.of_follows (tripEnd_follows ..) (tripEnd_mem ..))
  | brimBudgetExhausted => exact answers_next rfl (execBrimBudgetExhausted_continues ..)
  | pmbusTransactionDone => exact answers_op rfl rfl (.of_follows (pmbEnd_follows ..) (pmbEnd_mem ..))
  | pmbAlert => exact answers_next rfl (execPmbAlert_continues ..)
  | avsFrameDone => exact answers_op rfl rfl (.same (avsEnd_key ..) (avsEnd_mem ..))
  | stkPgoodRise => exact answers_op rfl rfl (.of_follows (pgoodRise_follows ..) (pgoodRise_mem ..))
  | pgoodTimeout => exact answers_op rfl rfl (.of_follows (pgoodLate_follows ..) (pgoodLate_mem ..))
  | stkResetRelease => exact answers_op rfl rfl ⟨stkRelease_follows .., stkRelease_wf _⟩
  | stkPgoodFall => exact answers_op rfl rfl ⟨pgoodFall_follows .., pgoodFall_wf _⟩
  | powerdownEntry => exact answers_chan rfl rfl (.same (pdEnter_key ..) (pdEnter_mem ..))
  | powerdownExit => exact answers_chan rfl rfl (.ite (.same (pdWake_key ..) (pdWake_mem ..)) (.refl s))
  | freqChangeStart => exact answers_op rfl rfl (.same (freqBegin_key ..) (freqBegin_mem ..))
  | freqDrainDone => exact answers_op rfl rfl (.same (freqSwap_key ..) (freqSwap_mem ..))
  | freqChangeResume => exact answers_next rfl (execFreqChangeResume_continues ..)
  | coldReset => exact absurd rfl hcold
  | warmReset => exact absurd rfl hwarm
  | bootStepComplete => exact answers_next rfl (execBootStepComplete_continues ..)
  | refclkWindowEnd => exact answers_op rfl rfl (.ite (.same (refWindowDone_key ..) (refWindowDone_mem ..)) (.refl s))
  | refclkLoss => exact answers_op rfl rfl (.same (refLost_key ..) (refLost_mem ..))
  | pllLock => exact answers_op rfl rfl (.of_follows (pllLocked_follows ..) (pllLocked_mem ..))
  | pllLockTimeout => exact answers_op rfl rfl (.of_follows (pllLate_follows ..) (pllLate_mem ..))
  | pllClockLoss => exact answers_op rfl rfl (.of_follows (pllLoss_follows ..) (pllLoss_mem ..))
  | forcedSwitch => exact answers_op rfl rfl (.of_follows (forceSwitch_follows ..) (forceSwitch_mem ..))
  | timeSyncEdge => exact answers_op rfl rfl (.same (timeSync_key ..) (timeSync_mem ..))
  | gateClockStop => exact answers_op rfl rfl (.same (gateStop_key ..) (gateStop_mem ..))
  | fmeasComplete => exact answers_op rfl rfl (.same (fmeasEnd_key ..) (fmeasEnd_mem ..))
  | faultDetected => exact execFaultDetected_answers ..
  | progressTimerExpiry => exact execProgressTimerExpiry_answers ..
  | recoveryComplete => exact execRecoveryComplete_answers ..
  | counterAtMax => exact answers_op rfl rfl (.ite (.same (counterAdd_key ..) (counterAdd_mem ..)) (.refl s))
  | hdlOpDone => exact answers_op rfl rfl (.same (hdlOpEnd_key ..) (hdlOpEnd_mem ..))
  | unitStopped => exact answers_op rfl rfl (.same (stopReached_key ..) (stopReached_mem ..))
  | entropyHealthFail => exact answers_next rfl (execEntropyHealthFail_continues ..)
  | mbistComplete => exact answers_op rfl rfl (.same (mbistDone_key ..) (mbistDone_mem ..))
  | jtagBypass => exact answers_op rfl rfl (.same (asBypass_key ..) (asBypass_mem ..))
  | jtagIdcode => exact answers_op rfl rfl (setTest_continues ..)
  | jtagCfg =>
    exact answers_op rfl rfl (.same ((jtagAccess_key ..).trans (loadIr_key ..)) ((jtagAccess_mem ..).trans (loadIr_mem ..)))
  | jtagTestctl => exact answers_op rfl rfl (setTest_continues ..)
  | jtagScan => exact answers_next rfl (execJtagScan_continues ..)
  | jtagScanLeave => exact absurd rfl hscan
  | jtagFuse => exact answers_op rfl rfl (.same (asBypass_key ..) (asBypass_mem ..))
  | sbRegRd => exact answers_op rfl rfl (sbFrame_continues (fun _ => ansRegRd_key ..) (fun _ => ansRegRd_mem ..))
  | sbRegWr => exact answers_op rfl rfl (sbFrame_continues (fun _ => ansRegWr_key ..) (fun _ => ansRegWr_mem ..))
  | sbPpRd => exact answers_op rfl rfl (sbFrame_continues (fun _ => ansPpRd_key ..) (fun _ => ansPpRd_mem ..))
  | sbPpProg => exact answers_op rfl rfl (sbFrame_continues (fun _ => ansPpProg_key ..) (fun _ => ansPpProg_mem ..))
  | sbPpStat => exact answers_op rfl rfl (sbFrame_continues (fun _ => ansPpStat_key ..) (fun _ => ansPpStat_mem ..))
  | sbPpErase => exact answers_op rfl rfl (sbFrame_continues (fun _ => ansPpErase_key ..) (fun _ => ansPpErase_mem ..))
  | sbT1500 => exact answers_op rfl rfl (sbFrame_continues (fun _ => ansT1500_key ..) (fun _ => ansT1500_mem ..))
  | ppProgramComplete => exact answers_op rfl rfl (.same (ppEnd_key ..) (ppEnd_mem ..))
  | sbResponse => exact answers_op rfl rfl (.of_follows (sbResponse_follows ..) (sbResponse_mem ..))
  | sbResponseTimeout => exact answers_op rfl rfl (.of_follows (sbTimeout_follows ..) (sbTimeout_mem ..))
  | stackWckStop => exact answers_chan rfl rfl (.ite (.same (srEnter_key ..) (srEnter_mem ..)) (.refl s))
  | entropyHealthRestored => exact answers_next rfl (execEntropyHealthRestored_continues ..)

theorem coldState_carries (s : State) : Carries s (coldState s) := .of_reset (coldState_key s) (coldState_wf s)

theorem warmState_carries (s : State) (asked : Bool) : Carries s (warmState s asked) :=
  .of_reset (warmState_key s asked) (warmState_wf s asked)

/-- Leaving SCAN resets the block where the chains were connected, and loads BYPASS (R380). -/
theorem execJtagScanLeave_carries (s : State) : Completes Carries s (execJtagScanLeave s) := by
  refine ⟨_, rfl, ?_⟩
  split
  · exact .of_reset ((loadIr_key ..).trans (warmState_key s false)) (wf_mem (loadIr_mem ..) (warmState_wf s false))
  · exact (Continues.ite (.same (loadIr_key ..) (loadIr_mem ..)) (.refl s)).carries

/-- Every command completes where its unit is there, and keeps the part, the queue and the invariants; where it is not, it
faults. -/
theorem exec_carries (i : Instr) (s : State) : Answers Carries s i := by
  by_cases hcold : i = .coldReset
  · subst hcold
    exact answers_op rfl rfl (coldState_carries s)
  by_cases hwarm : i = .warmReset
  · subst hwarm
    exact answers_op rfl rfl (warmState_carries s _)
  by_cases hscan : i = .jtagScanLeave
  · subst hscan
    exact answers_next rfl (execJtagScanLeave_carries s)
  · exact (exec_continues i s hcold hwarm hscan).mono (fun _ => Continues.carries)

/-- A step keeps the canonical form of the memory: time passes without a store, and a command keeps it. -/
theorem step_memorySound {s t : State} (w : MemorySound s) (e : step s = .next t) : MemorySound t := by
  unfold step at e
  split at e
  · obtain rfl : tick s = t := Host.Outcome.next.inj e
    exact wf_mem (tick_mem s) w
  · next c rest _ => exact ((exec_carries c { s with pending := rest }).of_next e).memory (wf_stack rfl w)

/-! ### The obligations -/

/-- Settles O6: only the operations that store can change the memory, and each of them keeps its form. -/
theorem stepsKeepTheMemoryCanonical : Obligations.StepsKeepTheMemoryCanonical := by
  unfold Obligations.StepsKeepTheMemoryCanonical
  exact fun _ _ => step_memorySound

/-- Settles O3, by what every command keeps. -/
theorem commandsKeepPartAndQueue : Obligations.CommandsKeepPartAndQueue := by
  unfold Obligations.CommandsKeepPartAndQueue
  intro c s t e
  have h := (exec_carries c s).of_next e
  exact ⟨h.part, h.pending⟩

/-- Settles O7, by what every command keeps that is none of the three resets. -/
theorem haltedAndLostEndByResetOnly : Obligations.HaltedAndLostEndByResetOnly := by
  unfold Obligations.HaltedAndLostEndByResetOnly
  intro c s t hcold hwarm hscan e
  obtain ⟨-, -, hhalted, hlost, -⟩ := ((exec_continues c s hcold hwarm hscan).of_next e).follows
  exact ⟨hhalted, hlost⟩

/-- Settles O11, by the answer of every command. -/
theorem absentUnitsFault : Obligations.AbsentUnitsFault := by
  unfold Obligations.AbsentUnitsFault
  intro s i
  obtain ⟨hpresent, habsent⟩ := exec_carries i s
  refine ⟨fun u => ?_, habsent⟩
  obtain ⟨t, e, h⟩ := hpresent u
  exact ⟨t, e, h.part, h.pending⟩

end Sys2Proof.Machine
end

section
/-! The command queue, the identification of units, and the ports that a header meets while they are closed or gated (R13,
R17, R37, R335). -/

namespace Sys2Proof.Machine

/-! ### The queue and the units (R13, R17) -/

/-- Settles O1: it is the definition of a step. -/
theorem stepRunsTheFrontCommand : Obligations.StepRunsTheFrontCommand := fun _ _ _ => rfl

/-- A unit of the part is the full part's unit of its page (R16, Table 16-1). -/
theorem pageUnit_of_unitOf {s : State} {page : Nat} {u : UnitKind × Nat} (h : unitOf s page = some u) : pageUnit page = some u := by
  unfold unitOf at h
  split at h
  · split at h <;> simp_all
  · split at h <;> simp_all
  · split at h <;> simp_all
  · exact h

/-- The number of a unit fits its field of UNIT_ID (Table 16-2). -/
theorem number_lt_of_pageUnit {page : Nat} {u : UnitKind × Nat} (h : pageUnit page = some u) : u.2 < 256 := by
  unfold pageUnit at h
  (repeat' split at h) <;> cases h <;> dsimp only <;> omega

theorem fieldNat_eq_div_mod {n : Nat} (x : BitVec n) (lo w : Nat) : fieldNat x lo w = x.toNat / 2 ^ lo % 2 ^ w := by
  rw [fieldNat, BitVec.extractLsb'_toNat, Nat.shiftRight_eq_div_pow]

/-- The LEVEL field of UNIT_ID holds the unit's level: the fields below it do not carry into it (R13, Table 16-2). -/
theorem level_of_unitId (u : UnitKind × Nat) (h : u.2 < 256) : fieldNat (unitId u) 24 8 = unitLevel u.1 := by
  have htype : unitType u.1 < 256 := by cases u.1 <;> decide
  have hlevel : unitLevel u.1 < 256 := by cases u.1 <;> decide
  rw [fieldNat_eq_div_mod, unitId, BitVec.toNat_ofNat]
  omega

theorem unitLevel_eq (k : UnitKind) : unitLevel k = if k = .ch then 3 else if k = .oct then 4 else 5 := by
  cases k <;> rfl

/-- A configuration read of offset 0 returns the unit's UNIT_ID (Table 16-2). -/
theorem regView_unitId {s : State} {p page : Nat} {u : UnitKind × Nat} (h : unitOf s page = some u) :
    regView s p page 0x000 = unitId u := by
  simp only [regView, h]

/-- Settles O8: UNIT_ID is read from the unit's kind and number alone. -/
theorem unitLevels : Obligations.UnitLevels := by
  unfold Obligations.UnitLevels
  intro s p page u h
  rw [regView_unitId h, level_of_unitId u (number_lt_of_pageUnit (pageUnit_of_unitOf h)), unitLevel_eq]

/-! ### Closed and gated ports (R37, R335) -/

/-- While PORT_OPEN is low a port takes no header (R37). -/
theorem accept_closed {s : State} (ho : s.pins.portOpen = false) (p : Fin 16) (opc : Byte) (h : Hdr) (aux : Word) (bs : List Beat) :
    accept s p opc h aux bs = s := by
  unfold accept
  rw [if_pos (by simp [ho])]

/-- While PORT_OPEN is low a port takes no beat (R37). -/
theorem presentBeat_closed {s : State} (ho : s.pins.portOpen = false) (p : Fin 16) (b : Beat) : presentBeat s p b = s := by
  unfold presentBeat
  rw [if_pos (by simp [ho])]

theorem freeBeats_zero (s : State) (p : Nat) : port (freeBeats s p 0) p = port s p := by
  simp [freeBeats]

/-- The reply of a request without beats joins its port's replies, and nothing else there changes (R40). -/
theorem replyReq_port_of_no_beats (s : State) {r : Req} (h : r.beats = []) (o : Outcome) (d : Byte) (data : List RplData) :
    port (replyReq s r o d data) r.port = { port s r.port with replies := (port s r.port).replies ++ [replyOf s r o d data] } := by
  have hfree : port (if r.stage = .admitted || r.ghost then s else freeBeats s r.port r.beats.length) r.port = port s r.port := by
    split
    · rfl
    · rw [h]
      exact freeBeats_zero s r.port
  rw [replyReq_port, hfree]

/-- A header that a gated port's stub takes is listed as one that is not to be judged, and uses a credit (R335). -/
def stubbed (s : State) (p : Fin 16) (opc : Byte) (h : Hdr) (aux : Word) : State :=
  modPort (listReq s (newReq s p opc h aux true)) p (fun x => { x with hdrCredits := x.hdrCredits - 1 })

theorem stubReply_gated {s : State} {opc : Byte} (hl : s.blk.st ≠ .lost ∨ isCfg opc = true) (p : Fin 16) (h : Hdr) (aux : Word) :
    stubReply s p opc h aux =
      replyReq (stubbed s p opc h aux) { newReq s p opc h aux true with ghost := false } .gated (BitVec.ofNat 8 (0x40 + p.val)) [] := by
  have hblk : (stubbed s p opc h aux).blk = s.blk := by
    unfold stubbed listReq
    split <;> rfl
  unfold stubReply
  dsimp only
  rw [if_neg]
  · rfl
  · show ¬ ((stubbed s p opc h aux).blk.st = .lost ∧ isCfg opc = false)
    rw [hblk]
    rintro ⟨hlost, hcfg⟩
    rcases hl with hl | hl
    · exact hl hlost
    · simp [hcfg] at hl

theorem stubbed_port (s : State) (p : Fin 16) (opc : Byte) (h : Hdr) (aux : Word) :
    (port (stubbed s p opc h aux) p).replies = (port s p).replies ∧
      (port (stubbed s p opc h aux) p).hdrCredits = (port s p).hdrCredits - 1 := by
  unfold stubbed
  rw [port_modPort]
  unfold listReq
  split
  · rw [show (newReq s p opc h aux true).port = p from rfl, port_modPort]
    exact ⟨rfl, rfl⟩
  · exact ⟨rfl, rfl⟩

theorem stubbed_keeps (s : State) (p : Fin 16) (opc : Byte) (h : Hdr) (aux : Word) :
    (stubbed s p opc h aux).chans = s.chans ∧ (stubbed s p opc h aux).stack = s.stack ∧
      (stubbed s p opc h aux).pins = s.pins := by
  unfold stubbed listReq
  split <;> exact ⟨rfl, rfl, rfl⟩

/-- A header without beats that reaches the stub of a gated port (R335). -/
theorem accept_stub {s : State} {p : Fin 16} (ho : s.pins.portOpen = true) (hc : s.clk.coreRun = true)
    (hh : 0 < (port s p).hdrCredits) (hg : gated s (64 + p.val) = true) (opc : Byte) (h : Hdr) (aux : Word) :
    accept s p opc h aux [] = stubReply s p opc h aux := by
  obtain ⟨hopc, hhdr⟩ := hdr_round opc h
  unfold accept acceptHdr
  dsimp only
  rw [hopc, hhdr, if_neg (by simp [ho, hc]), if_neg (by omega), if_pos hg]
  rfl

/-- Settles O18. -/
theorem closedAndGatedPorts : Obligations.ClosedAndGatedPorts := by
  unfold Obligations.ClosedAndGatedPorts
  refine ⟨fun s i p opc h aux bs b ho hi => ?_, fun s p opc h ho hc hh hg hl => ?_⟩
  · have hb := presentBeat_closed ho p b
    refine ⟨?_, congrArg _ hb, ?_, ?_, ?_⟩
    · rw [exec_requestOf hi, accept_closed ho]
    · show Host.Outcome.next (if _ then presentBeat s p b else s) = _
      rw [hb, ite_self]
    · show (if _ then Host.Outcome.next (accept s p opc h aux bs) else _) = _
      rw [accept_closed ho, ite_self]
    · show (if _ then Host.Outcome.next (accept s p opc h 0 bs) else _) = _
      rw [accept_closed ho, ite_self]
  · obtain ⟨hrep, hcred⟩ := stubbed_port s p opc h 0
    obtain ⟨hchans, hstack, hpins⟩ := stubbed_keeps s p opc h 0
    let r : Req := { newReq s p opc h 0 true with ghost := false }
    have hport := replyReq_port_of_no_beats (stubbed s p opc h 0) (r := r) rfl .gated (BitVec.ofNat 8 (0x40 + p.val)) []
    obtain ⟨kchans, kstack, -, kpins, -⟩ := replyReq_keeps (stubbed s p opc h 0) r .gated (BitVec.ofNat 8 (0x40 + p.val)) []
    refine ⟨_, replyOf (stubbed s p opc h 0) r .gated (BitVec.ofNat 8 (0x40 + p.val)) [], ?_, ?_, rfl, rfl, rfl, rfl, rfl, ?_,
      kchans.trans hchans, kstack.trans hstack, kpins.trans hpins⟩
    · show (if _ then Host.Outcome.next (accept s p opc h 0 []) else _) = _
      rw [if_pos hg, accept_stub ho hc hh hg, stubReply_gated hl]
    · exact (congrArg Port.replies hport).trans (congrArg (· ++ _) hrep)
    · exact (congrArg Port.hdrCredits hport).trans hcred

end Sys2Proof.Machine
end

section
/-! How a request that its port takes goes on to step 5: each of steps 1 to 4 of admission changes its own request alone
(R17, R57, R80, R88, Table 2-10). -/

namespace Sys2Proof.Machine

/-! ### Requests on their way to step 5 (R17, R57, R80, R88) -/

/-- Request `id` goes on as `q`: the other requests stay, and nothing else changes but the handle cache and the bookkeeping. -/
structure GoesOn (s t : State) (id : Nat) (q : Req) : Prop where
  find : findReq t id = some q
  others : ∀ e, e ≠ id → findReq t e = findReq s e
  frame : Booked { s with reqs := t.reqs, hdl := t.hdl } t

theorem GoesOn.trans {s t u : State} {id : Nat} {q q' : Req} (h : GoesOn s t id q) (g : GoesOn t u id q') : GoesOn s u id q' where
  find := g.find
  others e he := (g.others e he).trans (h.others e he)
  frame := by
    have hs := h.frame
    have ht := g.frame
    unfold Booked at *
    rw [ht, hs]

theorem GoesOn.modReq {s : State} {r : Req} (f : Req → Req) (hi : ∀ q, (f q).id = q.id) (h : findReq s r.id = some r) :
    GoesOn s (modReq s r.id f) r.id (f r) where
  find := find_modReq s r.id r f hi h
  others e he := find_modReq_other s r.id e f hi he
  frame := rfl

/-- A change of the handle cache after a step. -/
theorem GoesOn.hdl {s t u : State} {id : Nat} {q : Req} (h : GoesOn s t id q) (hu : u = { t with hdl := u.hdl }) : GoesOn s u id q where
  find := by rw [hu]; exact h.find
  others e he := by rw [hu]; exact h.others e he
  frame := by
    have hs := h.frame
    unfold Booked at *
    rw [hu, hs]

theorem GoesOn.booked {s t u : State} {id : Nat} {q : Req} (h : GoesOn s t id q) (hu : Booked t u) : GoesOn s u id q where
  find := by rw [hu]; exact h.find
  others e he := by rw [hu]; exact h.others e he
  frame := by
    have hs := h.frame
    unfold Booked at *
    rw [hu, hs]

/-- What arriving at a port and going on from there change. -/
theorem GoesOn.frame_after {s g t : State} {id : Nat} {q : Req}
    (hg : Booked { s with ports := g.ports, reqs := g.reqs, nextReq := g.nextReq } g) (h : GoesOn g t id q) :
    Booked { s with ports := t.ports, reqs := t.reqs, nextReq := t.nextReq, hdl := t.hdl } t := by
  have ht := h.frame
  unfold Booked at *
  rw [ht, hg]

theorem hdlTouch_frame (s : State) (x : Nat) : hdlTouch s x = { s with hdl := (hdlTouch s x).hdl } := by
  unfold hdlTouch modHdlEntry
  dsimp only
  split <;> rfl

theorem touches_frame (l : List Nat) (s : State) : l.foldl hdlTouch s = { s with hdl := (l.foldl hdlTouch s).hdl } := by
  induction l generalizing s with
  | nil => rfl
  | cons x l ih =>
    rw [List.foldl_cons, ih, hdlTouch_frame]

theorem lookedUp_id (s : State) (r : Req) : (lookedUp s r).2.id = r.id := by
  unfold lookedUp
  split <;> rfl

theorem lookedUp_goesOn {s : State} {r : Req} (h : findReq s r.id = some r) :
    GoesOn s (lookedUp s r).1 r.id (lookedUp s r).2 := by
  unfold lookedUp
  split
  · exact ⟨h, fun _ _ => rfl, rfl⟩
  · next hd o _ =>
    exact (GoesOn.modReq (fun q => { q with handles := (r.needs s hd o).map (BitVec.ofNat 16) }) (fun _ => rfl) h).hdl
      (touches_frame _ _)

theorem placed_goesOn {s : State} {r : Req} (j : Judged) (h : findReq s r.id = some r) :
    GoesOn s (placed s r j) r.id (withPlaces r j) := by
  have hm : GoesOn s (modReq s r.id (fun q => withPlaces q j)) r.id (withPlaces r j) :=
    GoesOn.modReq (fun q => withPlaces q j) (fun _ => rfl) h
  unfold placed
  dsimp only
  split
  · exact hm.booked (booked_countHeader ..)
  · exact hm

/-- A request as step 4 leaves it: in its stage, with its class and deadline, and its turn at the HDL unit (R57, R88, R92). -/
def Waiting (r q : Req) : Prop :=
  q.stage = (if r.opc = opFence then .fence else if isHdlCmd r.opc then .handle else .step5) ∧
    ∃ c d x y, q = { r with cls := c, dl := d, slack := x, hdlTurn := y, stage := q.stage }

theorem step4_goesOn {s : State} {r : Req} (hc : isCfg r.opc = false) (h : findReq s r.id = some r) :
    ∃ q, GoesOn s (step4 s r) r.id q ∧ Waiting r q := by
  obtain ⟨f, he, hf⟩ := step4_waits s r hc
  have hi : ∀ q, (f q).id = q.id := by
    intro q
    obtain ⟨-, c, d, x, y, hq⟩ := hf q
    rw [hq]
  refine ⟨f r, ?_, hf r⟩
  have ha : GoesOn s (afterStep4 s r) r.id r := by
    unfold afterStep4
    split <;> exact ⟨h, fun _ _ => rfl, rfl⟩
  rw [he]
  exact ha.trans (GoesOn.modReq f hi ha.find)

/-- A request that steps 1 to 3 pass waits with its translation, and with nothing else of it changed that its port gave it. -/
theorem judgeNow_goesOn {s : State} {r : Req} {j : Judged} (hc : isCfg r.opc = false) (hf : findReq s r.id = some r)
    (hp : Passes s r j) : ∃ q hs, GoesOn s (judgeNow s r.id) r.id q ∧ Waiting (withPlaces { r with handles := hs } j) q := by
  rw [judge_passes hf hp]
  obtain ⟨hs, hr⟩ : ∃ hs, (lookedUp s r).2 = { r with handles := hs } := by
    unfold lookedUp
    split
    · exact ⟨r.handles, rfl⟩
    · exact ⟨_, rfl⟩
  have hl := lookedUp_goesOn hf
  rw [hr] at hl ⊢
  have hpl := hl.trans (placed_goesOn (r := { r with handles := hs }) j hl.find)
  obtain ⟨q, hq, hw⟩ := step4_goesOn (r := withPlaces { r with handles := hs } j) hc hpl.find
  exact ⟨q, hs, hpl.trans hq, hw⟩

/-- Settles O15: the header's fields do not overlap, and each of steps 1 to 4 changes its own request alone. -/
theorem requestsWaitForAdmission : Obligations.RequestsWaitForAdmission := by
  unfold Obligations.RequestsWaitForAdmission
  refine ⟨hdr_round, fun s i p opc h aux bs j hi hc hr hg hp => ?_⟩
  have hready := hr
  obtain ⟨-, -, -, -, -, -, -, hfresh⟩ := hr
  have hfind := gathered_find p opc h aux bs hfresh
  obtain ⟨q, hs, ⟨qfind, qothers, qframe⟩, qstage, c, d, x, y, hq⟩ :=
    judgeNow_goesOn (r := arrived s p opc h aux bs) hc hfind hp
  obtain ⟨gframe, gnext⟩ := gathered_keeps s p opc h aux bs
  obtain ⟨-, -, -, -, -, tports, -, tnext, -⟩ := qframe.keeps
  have tport : ∀ e, port (judgeNow (gathered s p opc h aux bs) s.nextReq) e = port (gathered s p opc h aux bs) e :=
    fun e => congrArg (fun x => Tab.get x e Port.reset) tports
  refine ⟨_, q, ?_, qfind, qstage, ?_⟩
  · rw [exec_requestOf hi, accept_ready h aux hready hg]
    rfl
  · refine ⟨congrArg Req.port hq, congrArg Req.opc hq, congrArg Req.h hq, congrArg Req.aux hq, congrArg Req.beats hq,
      congrArg Req.secs hq, congrArg Req.ranges hq, congrArg Req.plan hq, fun id hid => ?_, tnext.trans gnext, ?_, fun e he => ?_, ?_⟩
    · exact (qothers id hid).trans (gathered_find_other p opc h aux bs id hid)
    · exact (tport p).trans (gathered_port h aux hready hg)
    · exact (tport e).trans (gathered_port_other s p opc h aux bs e he)
    · exact GoesOn.frame_after gframe ⟨qfind, qothers, qframe⟩

end Sys2Proof.Machine
end

section
/-! The admission of a read at step 5: its pieces wait in the requester queues of their channels, its header credit goes back,
and it waits for its sectors (R17, R18, R36, R45, R49). -/

namespace Sys2Proof.Machine

/-! ### Requester queues (R18, R91) -/

theorem enqueueAll_frame (s : State) (es : List Entry) : enqueueAll s es = { s with chans := (enqueueAll s es).chans } := by
  unfold enqueueAll
  induction es generalizing s with
  | nil => rfl
  | cons e es ih =>
    rw [List.foldl_cons, ih]
    rfl

/-- Each entry of a list waits in the requester queue of its own channel, behind what waited there. -/
theorem chan_enqueueAll (s : State) (es : List Entry) (c : Nat) :
    chan (enqueueAll s es) c = { chan s c with rq := (chan s c).rq ++ es.filter (fun e => e.place.ch = c) } := by
  unfold enqueueAll
  induction es generalizing s with
  | nil => simp
  | cons e es ih =>
    rw [List.foldl_cons, ih]
    unfold enqueue
    by_cases h : e.place.ch = c
    · subst h
      simp [chan_modChan]
    · rw [chan_modChan_other _ _ _ _ (Ne.symm h)]
      simp [h]

theorem newEntry_of_time {s t : State} (h : t.time = s.time) (o : Owner) (pos : Nat) (cls : Cls) (dl : Int) (w x : Bool) (p : Piece) :
    newEntry t o pos cls dl w x p = newEntry s o pos cls dl w x p := by
  unfold newEntry
  rw [h]

theorem enqueuePieces_eq (s : State) (r : Req) (cls : Cls) (dl : Int) (w : Bool) (ps : List Piece) :
    enqueuePieces s r cls dl w ps = enqueueAll s (ps.map (fun p => newEntry s (.port r.id p.idx) r.port cls dl w false p)) := by
  have hfold : ∀ t, t.time = s.time →
      ps.foldl (fun t p => enqueue t (newEntry t (.port r.id p.idx) r.port cls dl w false p)) t =
        ps.foldl (fun t p => enqueue t (newEntry s (.port r.id p.idx) r.port cls dl w false p)) t := by
    induction ps with
    | nil => exact fun _ _ => rfl
    | cons p ps ih =>
      intro t ht
      rw [List.foldl_cons, List.foldl_cons, newEntry_of_time ht]
      exact ih _ ht
  unfold enqueuePieces enqueueAll
  rw [List.foldl_map]
  exact hfold s rfl

/-! ### A read at steps 5 and 6 (R17, R36, R45) -/

section

variable {s : State} {r : Req}

/-- A read without beats has no write data that could be bad, and is no RDW: it passes step 5 or waits (R17, R49). -/
theorem passStep5_read (hrd : r.opc = opRd) (hb : r.beats = []) (hrec : blockRecovery s = false) :
    passStep5 s r = if hasResources s r then admitReq s r else s := by
  have hrdw : (r.opc == opRdw) = false := by rw [hrd]; decide
  have hdata : wdataBad r = false := by
    simp [wdataBad, usedGranules, hb, beatGranules]
  unfold passStep5
  simp only [hrec, hdata, hrdw, Bool.false_and, Bool.false_eq_true, if_false]

theorem admitReq_read (hrd : r.opc = opRd) : admitReq s r = admitRd (enter6 s r) r r.cls (r.dl.getD 0) := by
  have hcfg : isCfg r.opc = false := by rw [hrd]; decide
  unfold admitReq
  rw [if_neg (by simp [hcfg])]
  simp only [hrd, if_true]

/-- A request that has passed step 6 (R17, R36). -/
def passedReq (s : State) (r q : Req) : Req :=
  { q with stage := .admitted, tAdmit := some s.time.cyc, corrected := q.corrected || wdataCorrected r, beats := [] }

/-- A read's port once the read has passed step 6: its header credit has returned (R36). -/
def readPassed (s : State) (r : Req) : State :=
  modReq (modPort s r.port (fun x => { x with hdrCredits := x.hdrCredits + 1, prog := 0 })) r.id (passedReq s r)

theorem freeBeats_none (s : State) (p : Nat) (f : Port → Port) : modPort (freeBeats s p 0) p f = modPort s p f := by
  unfold freeBeats
  rw [modPort_modPort]
  simp

theorem passed6_read (hrd : r.opc = opRd) (hb : r.beats = []) : Booked (readPassed s r) (passed6 s r) := by
  have hw : (writesData r.opc || r.opc == opBcast) = false := by rw [hrd]; decide
  unfold passed6
  simp only [hb, List.length_nil, freeBeats_none, hw, Bool.false_eq_true, if_false]
  exact booked_countEv ..

theorem octReserves_frame (l : List (Nat × Nat × Nat)) (id : Nat) (s : State) :
    let t := l.foldl (fun t e => if e.2 = (0, 0) then t else octReserve t e.1 id e.2.1 e.2.2) s
    t = { s with octs := t.octs } := by
  induction l generalizing s with
  | nil => rfl
  | cons e l ih =>
    dsimp only at *
    rw [List.foldl_cons, ih]
    split <;> rfl

theorem enter6_read (hrd : r.opc = opRd) : enter6 s r = { passed6 s r with octs := (enter6 s r).octs } := by
  have hw : (r.hdl && writesData r.opc) = false := by
    rw [hrd, show writesData opRd = false by decide, Bool.and_false]
  unfold enter6 raiseTentative
  dsimp only
  rw [if_neg (by simp [hw])]
  exact octReserves_frame _ _ _

/-- A read that passes step 6 changes its port and itself, and what is reserved in the octants. -/
theorem enter6_read_keeps (hrd : r.opc = opRd) (hb : r.beats = []) :
    (enter6 s r).time = s.time ∧ (enter6 s r).ports = (readPassed s r).ports ∧ (enter6 s r).reqs = (readPassed s r).reqs ∧
      (enter6 s r).chans = s.chans ∧ (enter6 s r).stack = s.stack ∧ (enter6 s r).pins = s.pins ∧ (enter6 s r).thm = s.thm := by
  rw [enter6_read hrd, show passed6 s r = _ from passed6_read hrd hb]
  exact ⟨rfl, rfl, rfl, rfl, rfl, rfl, rfl⟩

/-- A read that has passed step 6, before its sectors are asked for. -/
def readCounted (s : State) (r : Req) : State := modReq (enter6 s r) r.id (fun q => { q with todo := r.secs.length })

/-- The entries by which a read asks its channels for its sectors (R91, R108). -/
def readEntries (s : State) (r : Req) : List Entry :=
  (piecesOf r.secs [] []).map (fun x => newEntry s (.port r.id x.idx) r.port r.cls (r.dl.getD 0) false false x)

theorem admitRd_read (hrd : r.opc = opRd) (hb : r.beats = []) :
    admitRd (enter6 s r) r r.cls (r.dl.getD 0) = enqueueAll (readCounted s r) (readEntries s r) := by
  obtain ⟨htime, -⟩ := enter6_read_keeps hrd hb (s := s)
  have hentry : ∀ x : Piece, newEntry (readCounted s r) (.port r.id x.idx) r.port r.cls (r.dl.getD 0) false false x =
      newEntry s (.port r.id x.idx) r.port r.cls (r.dl.getD 0) false false x := fun _ => newEntry_of_time htime ..
  show enqueuePieces (readCounted s r) r _ _ _ _ = _
  rw [enqueuePieces_eq]
  simp only [hentry]
  rfl

theorem readCounted_find (hrd : r.opc = opRd) (hb : r.beats = []) (h : findReq s r.id = some r) :
    findReq (readCounted s r) r.id = some { passedReq s r r with todo := r.secs.length } := by
  obtain ⟨-, -, hreqs, -⟩ := enter6_read_keeps hrd hb (s := s)
  have hpassed : findReq (enter6 s r) r.id = some (passedReq s r r) := by
    unfold findReq
    rw [hreqs]
    exact find_modReq s r.id r (passedReq s r) (fun _ => rfl) h
  exact find_modReq (enter6 s r) r.id _ (fun q => { q with todo := r.secs.length }) (fun _ => rfl) hpassed

theorem readCounted_port (hrd : r.opc = opRd) (hb : r.beats = []) :
    port (readCounted s r) r.port = { port s r.port with hdrCredits := (port s r.port).hdrCredits + 1, prog := 0 } := by
  obtain ⟨-, hports, -⟩ := enter6_read_keeps hrd hb (s := s)
  have hport : port (readCounted s r) r.port = port (readPassed s r) r.port := congrArg (fun x => Tab.get x r.port Port.reset) hports
  rw [hport, readPassed, port_modReq, port_modPort]

theorem readEntries_of_chan (s : State) (r : Req) (c : Nat) :
    (readEntries s r).filter (fun e => e.place.ch = c) = ((piecesOf r.secs [] []).filter (fun x => x.place.ch = c)).map
      (fun x => newEntry s (.port r.id x.idx) r.port r.cls (r.dl.getD 0) false false x) := by
  unfold readEntries
  rw [List.filter_map]
  rfl

end

/-- Settles O20: a read that passes adds its entries to the requester queues, and changes its port and itself. -/
theorem readsAreAdmitted : Obligations.ReadsAreAdmitted := by
  unfold Obligations.ReadsAreAdmitted
  intro s p r hfirst hfind hport htrans hrec hrd hb
  have hexec : exec (.admissionStep5Pass p) s = .next (if hasResources s r then admitReq s r else s) := by
    rw [← passStep5_read hrd hb hrec]
    simp only [exec, execAdmissionStep5Pass, hfirst, htrans, Bool.false_eq_true, if_false]
  refine ⟨fun hno => by simp [hexec, hno], fun hres => ?_⟩
  obtain ⟨-, -, -, hchans, hstack, hpins, hthm⟩ := enter6_read_keeps hrd hb (s := s)
  have hchan : ∀ c, chan (enqueueAll (readCounted s r) (readEntries s r)) c =
      { chan s c with rq := (chan s c).rq ++ (readEntries s r).filter (fun e => e.place.ch = c) } := by
    intro c
    rw [chan_enqueueAll, show chan (readCounted s r) c = chan s c from congrArg (fun x => Tab.get x c Chan.reset) hchans]
  have hframe := enqueueAll_frame (readCounted s r) (readEntries s r)
  have hcounted := readCounted_find hrd hb hfind
  have hp := readCounted_port hrd hb (s := s)
  subst hport
  refine ⟨enqueueAll (readCounted s r) (readEntries s r), { passedReq s r r with todo := r.secs.length }, ?_, ?_, rfl, rfl, rfl, rfl,
    ?_, ?_, fun c => ?_, fun c => ?_, ?_, ?_, ?_⟩
  · rw [hexec, if_pos hres, admitReq_read hrd, admitRd_read hrd hb]
  · rw [hframe]
    exact hcounted
  · rw [hframe]
    exact (congrArg Port.hdrCredits hp).trans rfl
  · rw [hframe]
    exact (congrArg Port.replies hp).trans rfl
  · rw [hchan c, readEntries_of_chan]
  · rw [hchan c]
  · rw [hframe]
    exact hstack
  · rw [hframe]
    exact hpins
  · rw [hframe]
    exact hthm

end Sys2Proof.Machine
end

section
/-! What the end of a part of a request changes: its reply at its port, and nothing of the channels, the stack, or the jobs
and locks of the Crowns (R22, R50, R54). -/

namespace Sys2Proof.Machine

/-! ### What a request's end leaves alone (R22, R40, R50) -/

/-- An octant whose reservations are released keeps everything else (R195, R201). -/
theorem oct_releaseRes (s : State) (id k : Nat) :
    oct (releaseRes s id) k = { oct s k with rsvBytes := (oct s k).rsvBytes.filter (fun x => x.1 != id)
                                             rsvLocks := (oct s k).rsvLocks.filter (fun x => x.1 != id) } := by
  have hfind := find_map_val s.octs (fun o => { o with rsvBytes := o.rsvBytes.filter (fun x => x.1 != id)
                                                       rsvLocks := o.rsvLocks.filter (fun x => x.1 != id) }) k
  unfold oct Tab.get
  rw [show Tab.find (releaseRes s id).octs k = _ from hfind]
  cases Tab.find s.octs k <;> rfl

/-- A late operation is counted before it replies (Table 6-9). -/
def lateCounted (s : State) (r : Req) : State :=
  if (finalOutcome s r).1 = .okLate ∧ r.desc.isSome then bumpReg s (octPage 0) 0x04C 16 16 1 else s

theorem booked_lateCounted (s : State) (r : Req) : Booked s (lateCounted s r) := by
  unfold lateCounted
  split
  · exact booked_bumpReg ..
  · exact .refl s

/-- A request whose parts are all done replies with the strongest outcome (R54). -/
theorem finishReq_of_admitted {s : State} {id : Nat} {r : Req} (hf : findReq s id = some r) (ha : r.stage = .admitted) :
    finishReq s id = replyReq (lateCounted s r) r (finalOutcome s r).1 (finalOutcome s r).2
      (if (finalOutcome s r).1 = .discard ∨ (finalOutcome s r).1 = .gated then [] else replyData r) := by
  unfold finishReq
  rw [hf]
  dsimp only
  rw [if_pos ha]
  rfl

theorem finishReq_of_not_admitted {s : State} {id : Nat} (h : ∀ r, findReq s id = some r → r.stage ≠ .admitted) : finishReq s id = s := by
  unfold finishReq
  split
  · rfl
  · next r hf => rw [if_neg (h r hf)]

/-- No handle command waits for its store. -/
def NoHandleWaits (s : State) : Prop := ∀ q ∈ s.reqs, q.stage = .handle → q.tAdmit = none

/-- What the end of a request's parts leaves alone: the channels, the stack, the jobs and locks of the Crowns, and that no
handle command waits for its store. -/
structure EndsParts (s t : State) : Prop where
  chans : t.chans = s.chans
  stack : t.stack = s.stack
  jobs : ∀ k, (oct t k).jobs = (oct s k).jobs
  locks : ∀ k, (oct t k).locks = (oct s k).locks
  handles : NoHandleWaits s → NoHandleWaits t

namespace EndsParts

variable {s t u : State}

theorem refl (s : State) : EndsParts s s := ⟨rfl, rfl, fun _ => rfl, fun _ => rfl, id⟩

theorem trans (h : EndsParts s t) (g : EndsParts t u) : EndsParts s u :=
  ⟨g.chans.trans h.chans, g.stack.trans h.stack, fun k => (g.jobs k).trans (h.jobs k), fun k => (g.locks k).trans (h.locks k),
    g.handles ∘ h.handles⟩

theorem of_booked (h : Booked s t) : EndsParts s t := by
  unfold Booked at h
  rw [h]
  exact ⟨rfl, rfl, fun _ => rfl, fun _ => rfl, id⟩

theorem modPort (s : State) (p : Nat) (f : Port → Port) : EndsParts s (modPort s p f) :=
  ⟨rfl, rfl, fun _ => rfl, fun _ => rfl, id⟩

/-- A change of one request that makes no handle command of it. -/
theorem modReq (s : State) (id : Nat) (f : Req → Req)
    (h : ∀ q, (f q).stage = .handle → q.stage = .handle ∧ (f q).tAdmit = q.tAdmit) : EndsParts s (modReq s id f) where
  chans := rfl
  stack := rfl
  jobs _ := rfl
  locks _ := rfl
  handles hs := by
    intro q hq hstage
    obtain ⟨r, hr, rfl⟩ := List.mem_map.1 hq
    by_cases hid : r.id = id
    · simp only [if_pos hid] at hstage ⊢
      obtain ⟨hwas, hsame⟩ := h r hstage
      exact hsame.trans (hs r hr hwas)
    · simp only [if_neg hid] at hstage ⊢
      exact hs r hr hstage

theorem releaseRes (s : State) (id : Nat) : EndsParts s (releaseRes s id) :=
  ⟨rfl, rfl, fun k => by rw [oct_releaseRes], fun k => by rw [oct_releaseRes], fun h => h⟩

theorem replyReq (s : State) (r : Req) (o : Outcome) (d : Byte) (data : List RplData) : EndsParts s (replyReq s r o d data) := by
  refine .trans ?_ (.of_booked (replyReq_booked s r o d data))
  refine .trans ?_ (.modPort _ _ _)
  refine .trans ?_ (.releaseRes _ _)
  refine .trans ?_ (.modReq _ _ _ (fun q hq => ?_))
  · split
    · exact .refl s
    · exact .modPort s _ _
  · dsimp only at hq
    split at hq <;> cases hq

theorem finishReq (s : State) (id : Nat) : EndsParts s (finishReq s id) := by
  by_cases h : ∃ r, findReq s id = some r ∧ r.stage = .admitted
  · obtain ⟨r, hf, ha⟩ := h
    rw [finishReq_of_admitted hf ha]
    exact (of_booked (booked_lateCounted s r)).trans (.replyReq _ _ _ _ _)
  · rw [finishReq_of_not_admitted (fun r hf ha => h ⟨r, hf, ha⟩)]
    exact .refl s

theorem partsDone (s : State) (id n : Nat) : EndsParts s (partsDone s id n) := by
  have htodo : EndsParts s (Sys2Proof.Machine.modReq s id (fun r => { r with todo := r.todo - n })) :=
    .modReq s id _ (fun q hq => ⟨hq, rfl⟩)
  unfold Sys2Proof.Machine.partsDone
  dsimp only
  split
  · split
    · exact htodo.trans (.finishReq _ _)
    · exact htodo
  · exact htodo

end EndsParts

/-- The reply of an admitted request joins its port's replies (R50). -/
theorem replyReq_replies_of_admitted (s : State) {r : Req} (ha : r.stage = .admitted) (o : Outcome) (d : Byte) (data : List RplData) :
    ∃ rp, (port (replyReq s r o d data) r.port).replies = (port s r.port).replies ++ [rp] ∧ rp.id = r.id ∧ rp.tag = r.h.tag := by
  refine ⟨replyOf s r o d data, ?_, rfl, rfl⟩
  rw [replyReq_port, if_pos (by simp [ha])]

/-- A request whose parts are all done leaves its reply at its port (R50). -/
theorem finishReq_replies {s : State} {id : Nat} {r : Req} (hf : findReq s id = some r) (ha : r.stage = .admitted) :
    ∃ rp, (port (finishReq s id) r.port).replies = (port s r.port).replies ++ [rp] ∧ rp.id = r.id ∧ rp.tag = r.h.tag := by
  rw [finishReq_of_admitted hf ha, ← port_booked (booked_lateCounted s r)]
  exact replyReq_replies_of_admitted _ ha _ _ _

/-- The last part of a request lets it reply (R22). -/
theorem partsDone_last {s : State} {id : Nat} {r : Req} (hf : findReq s id = some r) (ha : r.stage = .admitted) (ht : r.todo = 1) :
    ∃ rp, (port (partsDone s id 1) r.port).replies = (port s r.port).replies ++ [rp] ∧ rp.id = r.id ∧ rp.tag = r.h.tag := by
  have hf' := find_modReq s id r (fun r => { r with todo := r.todo - 1 }) (fun _ => rfl) hf
  unfold partsDone
  dsimp only
  rw [hf']
  dsimp only
  rw [if_pos ⟨ha, by rw [ht]⟩]
  exact finishReq_replies (r := { r with todo := r.todo - 1 }) hf' ha

/-! ### Queues that nothing leaves (R88, R121) -/

/-- No read of a queue is served while each entry has a sector to transfer (R121). -/
theorem flushServed_idle {s : State} {c : Nat} (h : ∀ q ∈ (chan s c).cmdq, q.next ≠ none) : flushServed s c = s := by
  have hnone : (chan s c).cmdq.filter (servedNow s) = [] := by
    rw [List.filter_eq_nil_iff]
    intro q hq
    simp [servedNow, h q hq]
  unfold flushServed
  rw [hnone]
  rfl

/-- No handle command replies while none waits for its store (R88). -/
theorem handlesDone_idle {s : State} (h : NoHandleWaits s) : handlesDone s = s := by
  have hnone : s.reqs.filter (fun r => r.stage == .handle && r.tAdmit.isSome) = [] := by
    rw [List.filter_eq_nil_iff]
    intro q hq
    by_cases hs : q.stage = .handle
    · simp [h q hq hs]
    · simp [hs]
  unfold handlesDone
  rw [hnone]
  rfl

end Sys2Proof.Machine
end

section
/-! A Crown takes the lock of a job, which asks for its sector or writes at once (R201, R202). -/

namespace Sys2Proof.Machine

/-! ### Locks (R201, R202) -/

/-- A Crown has taken a job's lock: the channel's next serial number is the job's. -/
def lockHeld (s : State) (k : Nat) (j : Job) : State :=
  modOct (modChan s j.place.ch (fun c => { c with serial := c.serial + 1 })) k (fun x => { x with locks := x.locks ++ [(j.jid, j.place)] })

/-- A job under its lock (R24). -/
def lockedJob (s : State) (j : Job) : Job := { j with lock := true, seq := (chan s j.place.ch).serial }

/-- The job that a Crown takes the lock of. -/
def nextLock (s : State) (k : Nat) : Option Job :=
  bestBy jobBefore ((oct s k).jobs.filter (fun x => lockReady s k (oct s k) x && mayStart s x))

section

variable {s : State} {k : Nat} {j : Job}

/-- A job that reads its sector first asks for it under its lock (R189, R201). -/
theorem lockTake_reads (hruns : crownRuns s k = true) (hbest : nextLock s k = some j)
    (h : (∀ d, j.kind ≠ .result d) ∨ j.vault ≠ none) :
    lockTake s k = enqueue (setJob (lockHeld s k j) k { lockedJob s j with st := .reading })
      (jobEntry (lockHeld s k j) k (lockedJob s j) none) := by
  unfold nextLock at hbest
  unfold lockTake
  dsimp only
  rw [if_neg (by simp [hruns]), hbest]
  dsimp only
  split
  · next d hk hv =>
    rcases h with h | h
    · exact absurd hk (h d)
    · exact absurd hv h
  · rfl

/-- A job outside the vault regions writes, with no parity to update (R22). -/
theorem jobWrite_plain (hv : j.vault = none) (s : State) (old new : Sector) :
    jobWrite s k j old new = enqueue (setJob s k { j with st := .writing, got := some new })
      (jobEntry (setJob s k { j with st := .writing, got := some new }) k j (some new)) := by
  unfold jobWrite
  dsimp only
  split
  · next v h => exact absurd (h.symm.trans hv) (Option.some_ne_none v)
  · rfl

/-- A job with nothing to read writes at once (R202). -/
theorem lockTake_writes {d : Sector} (hruns : crownRuns s k = true) (hbest : nextLock s k = some j)
    (hk : j.kind = .result d) (hv : j.vault = none) :
    lockTake s k = enqueue (setJob (lockHeld s k j) k { lockedJob s j with st := .writing, got := some d })
      (jobEntry (setJob (lockHeld s k j) k { lockedJob s j with st := .writing, got := some d }) k (lockedJob s j) (some d)) := by
  rw [← jobWrite_plain (j := lockedJob s j) hv (lockHeld s k j) zeroSector d]
  unfold nextLock at hbest
  unfold lockTake
  dsimp only
  rw [if_neg (by simp [hruns]), hbest]
  dsimp only
  split
  · next d' hk' _ =>
    obtain rfl : d' = d := JobKind.result.inj (hk'.symm.trans hk)
    rfl
  · next h => exact absurd hv (h d hk)

/-- What an octant's replaced job and an entry of the job leave: the octant's other fields, and the other channels. -/
theorem enqueue_setJob_frame (s : State) (k : Nat) (j : Job) (e : Entry) :
    enqueue (setJob s k j) e = { s with chans := (enqueue (setJob s k j) e).chans, octs := (enqueue (setJob s k j) e).octs } := rfl

theorem oct_enqueue_setJob (s : State) (k : Nat) (j : Job) (e : Entry) :
    oct (enqueue (setJob s k j) e) k = { oct s k with jobs := (oct s k).jobs.map (fun x => if x.jid = j.jid then j else x) } := by
  unfold enqueue setJob
  rw [oct_modChan, oct_modOct]

theorem rq_enqueue_setJob (s : State) (k : Nat) (j : Job) (e : Entry) :
    (chan (enqueue (setJob s k j) e) e.place.ch).rq = (chan s e.place.ch).rq ++ [e] := by
  unfold enqueue setJob
  rw [chan_modChan, chan_modOct]

theorem cmdq_enqueue_setJob (s : State) (k : Nat) (j : Job) (e : Entry) :
    (chan (enqueue (setJob s k j) e) e.place.ch).cmdq = (chan s e.place.ch).cmdq := by
  unfold enqueue setJob
  rw [chan_modChan, chan_modOct]

theorem oct_lockHeld (s : State) (k : Nat) (j : Job) :
    oct (lockHeld s k j) k = { oct s k with locks := (oct s k).locks ++ [(j.jid, j.place)] } := by
  unfold lockHeld
  rw [oct_modOct, oct_modChan]

theorem rq_lockHeld (s : State) (k : Nat) (j : Job) : (chan (lockHeld s k j) j.place.ch).rq = (chan s j.place.ch).rq := by
  unfold lockHeld
  rw [chan_modOct, chan_modChan]

end

theorem crownLockTake_locks {s : State} {k : Fin 8} {j : Job} (hk : k < nOct s) (hruns : crownRuns s k = true)
    (hbest : nextLock s k = some j) :
    ∃ t e, exec (.crownLockTake k) s = .next t ∧ (oct t k).locks = (oct s k).locks ++ [(j.jid, j.place)] ∧
      (chan t j.place.ch).rq = (chan s j.place.ch).rq ++ [e] ∧ e.place = j.place ∧ e.owner = .crown k j.jid ∧
      e.cls = j.cls ∧ e.dl = j.dl ∧ t = { s with chans := t.chans, octs := t.octs } ∧
      (((∀ d, j.kind ≠ .result d) ∨ j.vault ≠ none) → e.write = false ∧ e.data = [] ∧
        (oct t k).jobs = (oct s k).jobs.map (fun x => if x.jid = j.jid then
          { j with lock := true, seq := (chan s j.place.ch).serial, st := .reading } else x)) ∧
      (∀ d, j.kind = .result d → j.vault = none → e.write = true ∧ e.data = [d]) := by
  have hexec : exec (.crownLockTake k) s = .next (lockTake s k) := if_pos hk
  have hgoes : ∀ (j' : Job) (e : Entry), e.place = j.place →
      (oct (enqueue (setJob (lockHeld s k j) k j') e) k).locks = (oct s k).locks ++ [(j.jid, j.place)] ∧
      (chan (enqueue (setJob (lockHeld s k j) k j') e) j.place.ch).rq = (chan s j.place.ch).rq ++ [e] := by
    intro j' e he
    rw [oct_enqueue_setJob, oct_lockHeld, ← he, rq_enqueue_setJob, he, rq_lockHeld]
    exact ⟨rfl, rfl⟩
  by_cases h : (∀ d, j.kind ≠ .result d) ∨ j.vault ≠ none
  · obtain ⟨hlocks, hrq⟩ := hgoes { lockedJob s j with st := .reading } (jobEntry (lockHeld s k j) k (lockedJob s j) none) rfl
    refine ⟨_, _, hexec.trans (congrArg _ (lockTake_reads hruns hbest h)), hlocks, hrq, rfl, rfl, rfl, rfl, rfl,
      fun _ => ⟨rfl, rfl, ?_⟩, fun d hd hv => ?_⟩
    · rw [oct_enqueue_setJob, oct_lockHeld]
      rfl
    · rcases h with h | h
      · exact absurd hd (h d)
      · exact absurd hv h
  · push Not at h
    obtain ⟨⟨d, hd⟩, hv⟩ := h
    obtain ⟨hlocks, hrq⟩ := hgoes { lockedJob s j with st := .writing, got := some d }
      (jobEntry (setJob (lockHeld s k j) k { lockedJob s j with st := .writing, got := some d }) k (lockedJob s j) (some d)) rfl
    refine ⟨_, _, hexec.trans (congrArg _ (lockTake_writes hruns hbest hd hv)), hlocks, hrq, rfl, rfl, rfl, rfl, rfl,
      fun h => ?_, fun d' hd' _ => ?_⟩
    · rcases h with h | h
      · exact absurd hd (h d)
      · exact absurd hv h
    · obtain rfl : d = d' := JobKind.result.inj (hd.symm.trans hd')
      exact ⟨rfl, rfl⟩

end Sys2Proof.Machine
end

section
/-! A Crown computes on the sector that is back for a job, and writes the result (R189-R193). -/

namespace Sys2Proof.Machine

/-! ### Atomics and reduce-writes (R189-R193) -/

/-- What an atomic or a reduce-write makes of its sector (R189, R193). -/
def crownResult (j : Job) (d : Sector) : Option Sector :=
  match j.kind with
  | .atomic aop et vec ofs y => some (sectorOf (atomicSector aop et vec ofs (plain d) (plain y)))
  | .reduce et y => some (sectorOf (reduceOp et (plain d) (plain y)))
  | _ => none

/-- A request that asked for the old sector has it (R189). -/
def tookOld (d : Sector) (r : Req) : Req := if r.h.flags.getLsbD 2 then { r with rdata := Tab.put r.rdata 0 d } else r

/-- An atomic is counted, and its old sector goes to the request that asked for it (R189, R190). -/
def oldReturned (s : State) (k : Nat) (j : Job) (d : Sector) : State :=
  match j.kind, j.req with
  | .atomic .., some id => modReq (evOct s k 0x0B 1 ((findReq s id).map Req.attr)) id (tookOld d)
  | _, _ => s

section

variable {s : State} {k : Nat} {j : Job} {d new : Sector}

theorem jobReturned_computes (hd : sectorBad d = false) (hnew : crownResult j d = some new) :
    jobReturned s k j d = jobWrite (oldReturned s k j d) k j d new := by
  unfold crownResult at hnew
  unfold jobReturned oldReturned
  cases hk : j.kind with
  | atomic aop et vec ofs y =>
    simp only [hk, Option.some.injEq] at hnew
    simp only [hd, ← hnew, Bool.false_eq_true, if_false]
    cases j.req with
    | none => rfl
    | some id => rfl
  | reduce et y =>
    simp only [hk, Option.some.injEq] at hnew
    simp only [hd, ← hnew, Bool.false_eq_true, if_false]
  | drain => simp only [hk, reduceCtorEq] at hnew
  | result => simp only [hk, reduceCtorEq] at hnew
  | parity => simp only [hk, reduceCtorEq] at hnew

theorem tookOld_id (d : Sector) (r : Req) : (tookOld d r).id = r.id := by
  unfold tookOld
  split <;> rfl

theorem oldReturned_endsParts (s : State) (k : Nat) (j : Job) (d : Sector) : EndsParts s (oldReturned s k j d) := by
  unfold oldReturned
  split
  · refine .trans (.of_booked (booked_countEv ..)) (.modReq _ _ _ (fun q hq => ?_))
    unfold tookOld at *
    split at hq <;> exact ⟨hq, by split <;> rfl⟩
  · exact .refl s

/-- The request of an atomic that asked for the old sector has it. -/
theorem oldReturned_find {aop et ofs id : Nat} {vec : Bool} {y : Sector} {r : Req} (hk : j.kind = .atomic aop et vec ofs y)
    (hj : j.req = some id) (hf : findReq s id = some r) (hflag : r.h.flags.getLsbD 2 = true) :
    ∃ r', findReq (oldReturned s k j d) id = some r' ∧ Tab.find r'.rdata 0 = some d := by
  refine ⟨tookOld d r, ?_, ?_⟩
  · unfold oldReturned
    rw [hk, hj]
    have he : findReq (evOct s k 0x0B 1 ((findReq s id).map Req.attr)) id = some r := by
      rw [evOct, booked_countEv s .octant k 0x0B 1 ((findReq s id).map Req.attr)]
      exact hf
    exact find_modReq _ id r (tookOld d) (tookOld_id d) he
  · unfold tookOld
    rw [if_pos hflag]
    exact Tab.find_put_self ..

end

theorem crownReadReturn_writes {s : State} {k : Fin 8} {j : Job} {d new : Sector} (hk : k < nOct s) (hruns : crownRuns s k = true)
    (hj : (oct s k).jobs.find? (fun x => x.st == .returned && x.got.isSome) = some j) (hgot : j.got = some d)
    (hv : j.vault = none) (hd : sectorBad d = false) (hq : ∀ q ∈ (chan s j.place.ch).cmdq, q.next ≠ none) (hh : NoHandleWaits s)
    (hnew : crownResult j d = some new) :
    ∃ t e, exec (.crownReadReturn k) s = .next t ∧
      (oct t k).jobs = (oct s k).jobs.map (fun x => if x.jid = j.jid then { j with st := .writing, got := some new } else x) ∧
      (chan t j.place.ch).rq = (chan s j.place.ch).rq ++ [e] ∧ e.place = j.place ∧ e.write = true ∧ e.data = [new] ∧
      (∀ aop et vec ofs y id r, j.kind = .atomic aop et vec ofs y → j.req = some id → findReq s id = some r →
        r.h.flags.getLsbD 2 = true → ∃ r', findReq t id = some r' ∧ Tab.find r'.rdata 0 = some d) ∧ t.stack = s.stack := by
  let v := evOct s k 0x02 (jobOps (oct s k) j) none
  have hcount : Booked s v := booked_countEv ..
  let u := oldReturned v k j d
  have hu : EndsParts s u := (EndsParts.of_booked hcount).trans (oldReturned_endsParts v k j d)
  let j' : Job := { j with st := .writing, got := some new }
  let e := jobEntry (setJob u k j') k j (some new)
  let t := enqueue (setJob u k j') e
  have huchan : chan u j.place.ch = chan s j.place.ch := congrArg (fun x => Tab.get x j.place.ch Chan.reset) hu.chans
  have hwrote : jobReturned v k j d = t := (jobReturned_computes hd hnew).trans (jobWrite_plain hv u d new)
  have hreads : readReturn s k = flushServed t j.place.ch := by
    unfold readReturn
    dsimp only
    rw [if_neg (by simp [hruns]), hj]
    dsimp only
    rw [hgot]
    exact congrArg (flushServed · _) hwrote
  have hcmdq : (chan t j.place.ch).cmdq = (chan s j.place.ch).cmdq := by
    exact (cmdq_enqueue_setJob u k j' e).trans (congrArg Chan.cmdq huchan)
  have hdone : handlesDone (readReturn s k) = t := by
    rw [hreads, flushServed_idle (by rw [hcmdq]; exact hq), handlesDone_idle (s := t) (hu.handles hh)]
  refine ⟨t, e, (if_pos hk).trans (congrArg _ hdone), ?_, ?_, rfl, rfl, rfl, fun aop et vec ofs y id r hkind hreq hf hflag => ?_, hu.stack⟩
  · rw [oct_enqueue_setJob, ← hu.jobs]
  · exact (rq_enqueue_setJob u k j' e).trans (congrArg (fun c => c.rq ++ [e]) huchan)
  · refine oldReturned_find (s := v) (k := k) hkind hreq ?_ hflag
    rw [hcount]
    exact hf

end Sys2Proof.Machine
end

section
/-! The end of a Crown job: its lock is free, and a part of its request is done (R22, R201). -/

namespace Sys2Proof.Machine

/-! ### Writes that have joined their command queue (R22, R24, R201) -/

/-- A part of a request is done in a channel, in this cycle; an operation notes neither. -/
def doneIn (s : State) (c : Nat) (r : Req) : Req :=
  if r.desc.isSome then r else { r with tDone := some s.time.cyc, pieceCh := some c }

/-- A job ends: it leaves its Crown with its lock, and a request's job is the end of a part of the request (R22, R201). -/
def jobDone (s : State) (k : Nat) (j : Job) : State :=
  match j.req with
  | some id => partsDone (modReq (endJob s k j.jid) id (doneIn (endJob s k j.jid) j.place.ch)) id 1
  | none => endJob s k j.jid

section

variable {s : State} {k : Nat} {j : Job}

theorem writeVisible_of_joined (hj : (oct s k).jobs.find? (writeJoined s k) = some j) :
    writeVisible s k = flushServed (jobDone s k j) j.place.ch := by
  unfold writeVisible
  rw [hj]
  rfl

theorem oct_endJob (s : State) (k jid : Nat) :
    oct (endJob s k jid) k = { oct s k with jobs := (oct s k).jobs.filter (fun x => x.jid != jid)
                                            locks := (oct s k).locks.filter (fun l => l.1 != jid) } :=
  oct_modOct ..

theorem doneIn_keeps (s : State) (c : Nat) (r : Req) :
    (doneIn s c r).id = r.id ∧ (doneIn s c r).stage = r.stage ∧ (doneIn s c r).tAdmit = r.tAdmit ∧ (doneIn s c r).todo = r.todo ∧
      (doneIn s c r).port = r.port ∧ (doneIn s c r).h = r.h := by
  unfold doneIn
  split <;> exact ⟨rfl, rfl, rfl, rfl, rfl, rfl⟩

theorem jobDone_endsParts (s : State) (k : Nat) (j : Job) : EndsParts (endJob s k j.jid) (jobDone s k j) := by
  unfold jobDone
  split
  · refine .trans (.modReq _ _ _ (fun q hq => ?_)) (.partsDone _ _ _)
    obtain ⟨-, hstage, hadmit, -, -, -⟩ := doneIn_keeps (endJob s k j.jid) j.place.ch q
    exact ⟨hstage.symm.trans hq, hadmit⟩
  · exact .refl _

/-- The job that is the last part of its request lets it reply (R22). -/
theorem jobDone_last {id : Nat} {r : Req} (hj : j.req = some id) (hf : findReq s id = some r) (ha : r.stage = .admitted)
    (ht : r.todo = 1) :
    ∃ rp, (port (jobDone s k j) r.port).replies = (port s r.port).replies ++ [rp] ∧ rp.id = id ∧ rp.tag = r.h.tag := by
  obtain ⟨hid, hstage, -, htodo, hport, hh⟩ := doneIn_keeps (endJob s k j.jid) j.place.ch r
  have hnamed : r.id = id := by simpa using List.find?_some hf
  have hdone := find_modReq (endJob s k j.jid) id r (doneIn (endJob s k j.jid) j.place.ch)
    (fun q => (doneIn_keeps (endJob s k j.jid) j.place.ch q).1) hf
  obtain ⟨rp, hrp, hrpid, htag⟩ := partsDone_last hdone (hstage.trans ha) (htodo.trans ht)
  unfold jobDone
  rw [hj]
  exact ⟨rp, by rw [← hport]; exact hrp, by rw [hrpid, hid, hnamed], by rw [htag, hh]⟩

end

theorem crownWriteVisible_ends {s : State} {k : Fin 8} {j : Job} (hk : k < nOct s)
    (hj : (oct s k).jobs.find? (writeJoined s k) = some j) (hq : ∀ q ∈ (chan s j.place.ch).cmdq, q.next ≠ none)
    (hh : NoHandleWaits s) :
    ∃ t, exec (.crownWriteVisible k) s = .next t ∧ (oct t k).jobs = (oct s k).jobs.filter (fun x => x.jid != j.jid) ∧
      (oct t k).locks = (oct s k).locks.filter (fun l => l.1 != j.jid) ∧ t.chans = s.chans ∧ t.stack = s.stack ∧
      (∀ id r, j.req = some id → findReq s id = some r → r.stage = .admitted → r.todo = 1 →
        ∃ rp, (port t r.port).replies = (port s r.port).replies ++ [rp] ∧ rp.id = id ∧ rp.tag = r.h.tag) := by
  have hends := jobDone_endsParts s k j
  have hchan : chan (jobDone s k j) j.place.ch = chan s j.place.ch := congrArg (fun x => Tab.get x j.place.ch Chan.reset) hends.chans
  have hdone : handlesDone (writeVisible s k) = jobDone s k j := by
    rw [writeVisible_of_joined hj, flushServed_idle (by rw [hchan]; exact hq), handlesDone_idle (hends.handles hh)]
  refine ⟨_, (if_pos hk).trans (congrArg _ hdone), ?_, ?_, hends.chans, hends.stack, fun id r hreq hf ha ht => jobDone_last hreq hf ha ht⟩
  · rw [hends.jobs, oct_endJob]
  · rw [hends.locks, oct_endJob]

/-! ### The settled statement -/

/-- Settles O34: a job under its lock asks for its sector or writes at once, what it computes is written, and its end frees the
lock and is the end of a part of its request. -/
theorem crownJobsLockReadAndWrite : Obligations.CrownJobsLockReadAndWrite := by
  refine ⟨fun s k j hk hruns hbest => crownLockTake_locks hk hruns hbest,
    fun s k j d new hk hruns hj hgot hv hd hq hh hnew => crownReadReturn_writes hk hruns hj hgot hv hd hq hh ?_,
    fun s k j hk hj hq hh => crownWriteVisible_ends hk hj hq hh⟩
  rw [← hnew]
  unfold crownResult
  cases j.kind <;> rfl

end Sys2Proof.Machine
end

section
/-! A verify read whose row failure is not queued for repair, in a state that holds a counter which no PMU has (R292, R391). -/

namespace Sys2Proof.Machine

/-! ### A verify read that finds the corrected error again (R283, R292) -/

/-- The number of a counter that no PMU has (Table 15-1 ends at 367), but that a state's table of configuration words may
hold. The PMU_OVF word that the model computes for it, at 0x0C0 + 4 × 15328 of page 10, is stored where ECC_CTL is, at 0x040
of page 25. -/
def strayCounter : Nat := 490496

/-- The verify read of a row, which finds the error that was corrected in its first granule. -/
def failedVerify : VerifyRet :=
  { place := { ch := 0, bank := 0, row := 0, col := 0 }, corr := [(0, 3, 1#8)], data := ⟨1, 0⟩ }

/-- Channel 0 has that verify read, and the stray counter, full, counts the channels' corrected granules (code 0x15). -/
def strayState : State :=
  { State.reset with
    chans := [(0, { Chan.reset with vrets := [failedVerify] })]
    pmu := { State.reset.pmu with cfg := [(strayCounter, 0x9015#17)], cnt := [(strayCounter, 0xFFFFFFFFFFFF#48)] } }

/-- The row failure is repairable when the read is judged: ECC_CTL.REPAIR has its reset value. -/
theorem strayState_repairs : regB strayState pgEcc 0x040 3 = true := by decide +kernel

/-- The counter's overflow has cleared ECC_CTL.REPAIR, and the row failure is only logged. -/
theorem strayState_notQueued :
    regB (verifyResult strayState 0) pgEcc 0x040 3 = false ∧ (verifyResult strayState 0).ecc.queue = [] := by
  decide +kernel

/-- Refutes O29: a state may hold a counter numbered past the PMU's last one, whose overflow bit overwrites ECC_CTL with
REPAIR set, so that the row failure that the verify read reports is not queued. -/
theorem not_burstsReachTheirAccess : ¬ Obligations.BurstsReachTheirAccess := by
  unfold Obligations.BurstsReachTheirAccess
  rintro ⟨-, hverify, -⟩
  have hvrets : (chan strayState (0 : Fin 64)).vrets = [failedVerify] := rfl
  have hue : (decodeAt strayState failedVerify.place failedVerify.data).ue = [] := by decide +kernel
  have hagain : (decodeAt strayState failedVerify.place failedVerify.data).corr.any (fun x => failedVerify.corr.contains x) = true := by
    decide +kernel
  obtain ⟨t, hexec, -, -, -, -, hqueued⟩ := hverify strayState 0 failedVerify [] (by decide) hvrets hue
  obtain ⟨hqueue, -⟩ := hqueued hagain rfl rfl rfl strayState_repairs
  obtain rfl : verifyResult strayState 0 = t := Host.Outcome.next.inj hexec
  obtain ⟨-, hnone⟩ := strayState_notQueued
  exact absurd (hnone.symm.trans hqueue) (List.cons_ne_nil _ _).symm

end Sys2Proof.Machine
end

section
/-! What reset leaves, and the causes of UNIT_ATTN that a write of the register clears (R10, R35, R63, R65, R350). -/

namespace Sys2Proof.Machine

/-! ### Reset (Table 13-7) -/

/-- Settles O4: every field has its reset value, and the invariants are those of the reset key and memory. -/
theorem resetLeavesASoundBlock : Obligations.ResetLeavesASoundBlock := by
  unfold Obligations.ResetLeavesASoundBlock
  obtain ⟨hpins, hids⟩ : PinsSound State.reset ∧ IdsFresh State.reset := (ksound_key State.reset).1 (reset_ksound _ _)
  refine ⟨⟨rfl, rfl, rfl, rfl, rfl, rfl, rfl, rfl, rfl, rfl, rfl, rfl, rfl, rfl, rfl, rfl, fun p => ?_, fun c => ?_⟩,
    hpins, hids, reset_memory_wf⟩
  · exact ⟨rfl, rfl, rfl⟩
  · exact ⟨rfl, rfl, rfl⟩

/-! ### Attention causes (R10, R63, R65) -/

/-- Every field of every UNIT_ATTN is cleared by ones (R63). -/
theorem unitAttn_acc (k : UnitKind) : ∀ f ∈ regFields k, f.covers 0x010 = true → f.acc = .w1c := by
  cases k <;> decide +kernel

theorem unitAttn_field_acc {s : State} {u : UnitKind × Nat} {f : RegField} (h : f ∈ fieldsAt s u 0x010) : f.acc = .w1c := by
  have hf : f ∈ regFields u.1 ∧ f.covers 0x010 = true := by
    unfold fieldsAt at h
    repeat' split at h
    · cases h
    · cases h
    · cases h
    · obtain ⟨hmem, hcov⟩ := List.mem_filter.1 h
      exact ⟨hmem, (Bool.and_eq_true_iff.1 hcov).1⟩
  exact unitAttn_acc u.1 f hf.1 hf.2

/-- A word whose fields are all cleared by ones keeps the bits that are not written as 1 in one of them (R10). -/
theorem writeFields_w1c {fs : List RegField} (h : ∀ f ∈ fs, f.acc = .w1c) (old v : Word) :
    writeFields fs old v = old &&& ~~~(v &&& readMask fs) := by
  have hacc : ∀ m : Word, writeFields fs (old &&& ~~~(v &&& m)) v =
      old &&& ~~~(v &&& fs.foldl (fun m f => if f.acc = .wo then m else m ||| maskAt f.lo f.w) m) := by
    unfold writeFields
    induction fs with
    | nil => exact fun _ => rfl
    | cons f fs ih =>
      intro m
      have hf : f.acc = .w1c := h f List.mem_cons_self
      have hstep : writeField (old &&& ~~~(v &&& m)) v f = old &&& ~~~(v &&& (m ||| maskAt f.lo f.w)) := by
        simp only [writeField, hf, BitVec.and_or_distrib_left, BitVec.not_or, BitVec.and_assoc]
      rw [List.foldl_cons, List.foldl_cons, hstep, if_neg (by rw [hf]; nofun)]
      exact ih (fun g hg => h g (List.mem_cons_of_mem f hg)) _
  have hstart : old &&& ~~~(v &&& 0#32) = old := by rw [BitVec.and_zero, BitVec.not_zero, BitVec.and_allOnes]
  calc writeFields fs old v = writeFields fs (old &&& ~~~(v &&& 0#32)) v := by rw [hstart]
    _ = old &&& ~~~(v &&& readMask fs) := hacc 0#32

theorem attnRecheck_frame (s : State) (clearing : Bool) (id : Nat) :
    attnRecheck s clearing id = { s with attn := (attnRecheck s clearing id).attn } := by
  unfold attnRecheck
  dsimp only
  split <;> rfl

theorem reg_attnRecheck (s : State) (clearing : Bool) (id page off : Nat) :
    reg (attnRecheck s clearing id) page off = reg s page off := by
  rw [attnRecheck_frame]
  exact reg_of_regs rfl rfl page off

/-- A write of UNIT_ATTN acts on the causes, and the pending OR is evaluated again (R63, R64). -/
theorem regWrite_unitAttn {s : State} {page : Nat} {u : UnitKind × Nat} (h : unitOf s page = some u) (p : Nat) (v : Word)
    (id : Option Nat) : regWrite s p page 0x010 v id =
      attnRecheck (if (fieldsAt s u 0x010).isEmpty then s
        else setReg s page 0x010 (writeFields (fieldsAt s u 0x010) (reg s page 0x010) v)) id.isSome (id.getD 0) := by
  have hhook : hookOnly u 0x010 = false := by simp [hookOnly]
  simp [regWrite, h, writeHook, hhook]

/-- The words of the page after a write of UNIT_ATTN. -/
theorem reg_regWrite_unitAttn {s : State} {page : Nat} {u : UnitKind × Nat} (h : unitOf s page = some u) (p : Nat) (v : Word)
    (id : Option Nat) (off : Nat) : reg (regWrite s p page 0x010 v id) page off =
      if off = 0x010 then writeFields (fieldsAt s u 0x010) (reg s page 0x010) v else reg s page off := by
  rw [regWrite_unitAttn h, reg_attnRecheck]
  by_cases hfs : (fieldsAt s u 0x010).isEmpty
  · rw [if_pos hfs, List.isEmpty_iff.1 hfs]
    split
    · next hoff => rw [hoff]; rfl
    · rfl
  · rw [if_neg hfs]
    split
    · next hoff => rw [hoff, reg_setReg]
    · next hoff => exact reg_setReg_other _ _ _ _ _ _ (by unfold regKey; omega)

/-- Settles O13: the causes are fields cleared by ones, and the rest of a write of UNIT_ATTN is the attention line. -/
theorem attentionCausesAreClearedByOnes : Obligations.AttentionCausesAreClearedByOnes := by
  unfold Obligations.AttentionCausesAreClearedByOnes
  intro s p page v id u hu hmask
  have hreg := reg_regWrite_unitAttn hu p v id
  refine ⟨?_, fun off _ hoff => ?_, ?_⟩
  · rw [hreg, if_pos rfl, writeFields_w1c (fun _ => unitAttn_field_acc)]
    calc reg s page 0x010 &&& ~~~(v &&& readMask (fieldsAt s u 0x010))
        = (reg s page 0x010 &&& readMask (fieldsAt s u 0x010)) &&& ~~~(v &&& readMask (fieldsAt s u 0x010)) := by rw [hmask]
      _ = (reg s page 0x010 &&& readMask (fieldsAt s u 0x010)) &&& ~~~v := by
          apply BitVec.eq_of_getLsbD_eq
          intro i hi
          simp only [BitVec.getLsbD_and, BitVec.getLsbD_not, hi, decide_true, Bool.true_and]
          cases (readMask (fieldsAt s u 0x010)).getLsbD i <;> simp
      _ = reg s page 0x010 &&& ~~~v := by rw [hmask]
  · rw [hreg, if_neg hoff]
  · rw [regWrite_unitAttn hu, attnRecheck_frame]
    split <;> exact ⟨rfl, rfl⟩

end Sys2Proof.Machine
end

section
/-! Requests that are answered at their port: a header or a beat that comes without a credit, and a request that step 1 of
admission refuses (R36, R37, R42, R53, Tables 2-4, 2-10 and 2-13). -/

namespace Sys2Proof.Machine

/-! ### Replies and the registers (Table 2-13) -/

/-- A reply that reports no timeout, no bad write data and no shared source number latches no cause. -/
theorem replyCauses_none (s : State) (p : Nat) {o : Outcome} {d : Byte} (ht : o ≠ .timeout)
    (hd : o = .reject → d ≠ rejWdata ∧ d ≠ rejSrcalias) : replyCauses s p o d = s := by
  unfold replyCauses
  rw [if_neg (fun h => ht h.1), if_neg (fun h => (hd h.1).1 h.2), if_neg (fun h => (hd h.1).2 h.2)]

/-- A reply that latches no cause keeps the registers. -/
theorem replyReq_regs (s : State) (r : Req) {o : Outcome} {d : Byte} (data : List RplData) (ht : o ≠ .timeout)
    (hd : o = .reject → d ≠ rejWdata ∧ d ≠ rejSrcalias) :
    (replyReq s r o d data).regs = s.regs ∧ (replyReq s r o d data).part = s.part := by
  unfold replyReq
  dsimp only
  rw [replyCauses_none _ _ ht hd]
  split <;> exact ⟨rfl, rfl⟩

theorem freeBeats_port (s : State) (p n : Nat) : port (freeBeats s p n) p =
    { port s p with beatCredits := (port s p).beatCredits + min n (port s p).beatHeld, beatHeld := (port s p).beatHeld - n } :=
  port_modPort ..

/-! ### Headers and beats without a credit (R37) -/

/-- A new request waits at its port for its beats, and nothing else changes (R38). -/
theorem listReq_port (s : State) (r : Req) :
    port (listReq s r) r.port =
      { port s r.port with waiting := (port s r.port).waiting ++ (if takesBeats r.opc then [r.id] else []) } := by
  unfold listReq
  dsimp only
  split
  · rw [port_modPort]
    rfl
  · rw [List.append_nil]
    rfl

theorem listReq_frame (s : State) (r : Req) :
    listReq s r = { s with reqs := (listReq s r).reqs, nextReq := (listReq s r).nextReq, ports := (listReq s r).ports } := by
  unfold listReq
  dsimp only
  split <;> rfl

/-- A header without beats and without a credit, at an open port (R37). -/
theorem accept_without_credit {s : State} {p : Fin 16} (ho : s.pins.portOpen = true) (hc : s.clk.coreRun = true)
    (hh : (port s p).hdrCredits = 0) (opc : Byte) (h : Hdr) (aux : Word) :
    accept s p opc h aux [] = creditReject s p opc h aux := by
  obtain ⟨hopc, hhdr⟩ := hdr_round opc h
  unfold accept acceptHdr
  dsimp only
  rw [hopc, hhdr, if_neg (by simp [ho, hc]), if_pos hh]
  rfl

/-- A beat without a credit, at an open port, latches CREDIT_OVERRUN and is gone (R37, Table 2-13). -/
theorem presentBeat_without_credit {s : State} {p : Fin 16} (ho : s.pins.portOpen = true) (hc : s.clk.coreRun = true)
    (hb : (port s p).beatCredits = 0) (b : Beat) : presentBeat s p b = latch s (portPage p) 0 := by
  unfold presentBeat
  rw [if_neg (by simp [ho, hc]), if_pos hb]

/-- A header without a credit is listed, and CREDIT_OVERRUN latches (R37, Table 2-13). -/
def uncredited (s : State) (p : Fin 16) (opc : Byte) (h : Hdr) (aux : Word) : State :=
  latch (listReq s (newReq s p opc h aux true)) (portPage p) 0

section

variable (s : State) (p : Fin 16) (opc : Byte) (h : Hdr) (aux : Word)

theorem creditReject_eq :
    creditReject s p opc h aux = replyReq (uncredited s p opc h aux) (newReq s p opc h aux true) .reject rejCredit [] := rfl

theorem uncredited_keeps : (uncredited s p opc h aux).chans = s.chans ∧ (uncredited s p opc h aux).stack = s.stack ∧
    (uncredited s p opc h aux).pins = s.pins := by
  have hlatch : Booked (listReq s (newReq s p opc h aux true)) (uncredited s p opc h aux) := booked_latch ..
  rw [hlatch, listReq_frame]
  exact ⟨rfl, rfl, rfl⟩

theorem creditReject_keeps : (creditReject s p opc h aux).chans = s.chans ∧ (creditReject s p opc h aux).stack = s.stack ∧
    (creditReject s p opc h aux).pins = s.pins := by
  obtain ⟨hchans, hstack, hpins⟩ := uncredited_keeps s p opc h aux
  obtain ⟨kchans, kstack, -, kpins, -⟩ :=
    replyReq_keeps (uncredited s p opc h aux) (newReq s p opc h aux true) .reject rejCredit []
  exact ⟨kchans.trans hchans, kstack.trans hstack, kpins.trans hpins⟩

/-- The header takes no credit: its reply joins the port's replies, and its beats will be due (R37). -/
theorem creditReject_port : port (creditReject s p opc h aux) p =
    { port s p with
      waiting := (port s p).waiting ++ (if takesBeats opc then [s.nextReq] else [])
      replies := (port s p).replies ++ [replyOf (uncredited s p opc h aux) (newReq s p opc h aux true) .reject rejCredit []] } := by
  have hlisted : port (uncredited s p opc h aux) p =
      { port s p with waiting := (port s p).waiting ++ (if takesBeats opc then [s.nextReq] else []) } :=
    (port_booked (booked_latch ..) p).trans (listReq_port s (newReq s p opc h aux true))
  refine (replyReq_port_of_no_beats (uncredited s p opc h aux) (r := newReq s p opc h aux true) rfl .reject rejCredit []).trans ?_
  rw [show (newReq s p opc h aux true).port = p from rfl, hlisted]

theorem creditReject_cause : (reg (creditReject s p opc h aux) (portPage p) 0x010).getLsbD 0 = true := by
  obtain ⟨hregs, hpart⟩ := replyReq_regs (uncredited s p opc h aux) (newReq s p opc h aux true) (o := .reject) (d := rejCredit) []
    nofun (fun _ => by decide)
  rw [creditReject_eq, reg_of_regs hpart hregs]
  exact latch_bit _ _ 0 (by decide)

end

/-- Settles O17: the header is listed and refused, the beat is discarded, and each latches its cause. -/
theorem missingCreditsAreAnswered : Obligations.MissingCreditsAreAnswered := by
  unfold Obligations.MissingCreditsAreAnswered
  refine ⟨fun s p opc h aux ho hc hh => ?_, fun s p b ho hc hb => ?_⟩
  · have hport := creditReject_port s p opc h aux
    refine ⟨creditReject s p opc h aux, replyOf (uncredited s p opc h aux) (newReq s p opc h aux true) .reject rejCredit [], ?_,
      congrArg Port.replies hport, rfl, rfl, rfl, rfl, rfl, (congrArg Port.hdrCredits hport).trans hh, by rw [hport],
      creditReject_cause s p opc h aux, creditReject_keeps s p opc h aux⟩
    show (if _ then Host.Outcome.next (accept s p opc h aux []) else _) = _
    rw [if_pos hh, accept_without_credit ho hc hh]
  · refine ⟨latch s (portPage p) 0, ?_, latch_bit _ _ 0 (by decide), booked_latch ..⟩
    show Host.Outcome.next (if _ then presentBeat s p b else s) = _
    rw [if_pos hb, presentBeat_without_credit ho hc hb]

/-! ### Requests that step 1 refuses (R36, R42, R53) -/

theorem judgeNow_refused {s : State} {id : Nat} {r : Req} {o : Outcome} {d : Byte} (hf : findReq s id = some r)
    (hc : check1 s r = some (o, d)) : judgeNow s id = replyReq s r o d [] := by
  unfold judgeNow
  simp only [hf, hc]

/-- A refused request gives back the credits that its beats took; its header credit goes with the reply (R36). -/
theorem refused_port {s : State} {p : Fin 16} {opc : Byte} {bs : List Beat} (h : Hdr) (aux : Word) (hr : PortReady s p bs.length)
    (hg : Grouped opc bs) (o : Outcome) (d : Byte) :
    let g := gathered s p opc h aux bs
    let r := arrived s p opc h aux bs
    port (replyReq g r o d []) p =
      { port s p with hdrCredits := (port s p).hdrCredits - 1, replies := (port s p).replies ++ [replyOf g r o d []] } := by
  intro g r
  have hwaits : (r.stage == .admitted || r.ghost) = false := by
    show ((if takesBeats opc then Stage.beats else Stage.replied) == Stage.admitted || false) = false
    split <;> rfl
  have hport : port (freeBeats g p bs.length) p = { port s p with hdrCredits := (port s p).hdrCredits - 1 } := by
    obtain ⟨-, -, -, -, hbeats, -⟩ := id hr
    rw [freeBeats_port, gathered_port h aux hr hg]
    dsimp only
    rw [Nat.min_eq_left (Nat.le_add_left ..), Nat.sub_add_cancel hbeats, Nat.add_sub_cancel]
  refine (replyReq_port g r o d []).trans ?_
  rw [if_neg (by simpa using hwaits)]
  exact congrArg (fun x : Port => { x with replies := x.replies ++ [replyOf g r o d []] }) hport

/-- An unlisted opcode fails the first check, unless the block is LOST (R42, R53). -/
theorem check1_unlisted {s : State} {r : Req} (ho : opcodeListed r.opc = false) (hl : s.blk.st ≠ .lost) :
    check1 s r = some (.reject, rejOpcode) := by
  unfold check1
  dsimp only
  rw [if_neg (fun h => hl h.1), if_pos (by simp [ho])]

theorem takesBeats_unlisted {opc : Byte} (h : opcodeListed opc = false) : takesBeats opc = false := by
  have hlisted : ∀ x ∈ [opWr, opWrp, opAt, opRdw, opSop, opBcast, opCfgWr], opcodeListed x = true := by decide
  have hnot : opc ∉ [opWr, opWrp, opAt, opRdw, opSop, opBcast, opCfgWr] := fun hmem => by simp [hlisted opc hmem] at h
  simpa [takesBeats] using hnot

/-- A request row that step 1 refuses is answered as soon as it has its beats (R53). -/
theorem exec_refused {s : State} {i : Instr} {p : Fin 16} {opc : Byte} {h : Hdr} {aux : Word} {bs : List Beat} {o : Outcome} {d : Byte}
    (hi : requestOf i = some (p, opc, h, aux, bs)) (hr : PortReady s p bs.length) (hg : Grouped opc bs)
    (hc : check1 (gathered s p opc h aux bs) (arrived s p opc h aux bs) = some (o, d)) :
    exec i s = .next (replyReq (gathered s p opc h aux bs) (arrived s p opc h aux bs) o d []) := by
  obtain ⟨-, -, -, -, -, -, -, hfresh⟩ := id hr
  rw [exec_requestOf hi, accept_ready h aux hr hg, judgeNow_refused (gathered_find p opc h aux bs hfresh) hc]

/-- Settles O16: a request that step 1 refuses is judged once it has its beats, and its reply returns what it holds. -/
theorem refusedRequestsReply : Obligations.RefusedRequestsReply := by
  unfold Obligations.RefusedRequestsReply
  refine ⟨fun s i p opc h aux bs o d hi hr hg hc => ?_, fun s p opc h aux hr ho hl => ?_⟩
  · let g := gathered s p opc h aux bs
    let r := arrived s p opc h aux bs
    have hport := refused_port h aux hr hg o d
    obtain ⟨kchans, kstack, khdl, kpins, kthm, -⟩ := replyReq_keeps g r o d []
    obtain ⟨gframe, -⟩ := gathered_keeps s p opc h aux bs
    obtain ⟨-, -, -, -, gpins, -, -, -, -, ghdl, -, gchans, -, -, -, -, -, -, gthm, -, -, -, -, gstack, -⟩ := gframe.keeps
    refine ⟨_, replyOf g r o d [], exec_refused hi hr hg hc, congrArg Port.replies hport, rfl, rfl, rfl, rfl, rfl,
      rfl, rfl, rfl, congrArg Port.hdrCredits hport, by rw [hport], fun id hid => ?_, kchans.trans gchans,
      kstack.trans gstack, khdl.trans ghdl, kpins.trans gpins, kthm.trans gthm⟩
    exact (replyReq_find_other g r o d [] id hid).trans (gathered_find_other p opc h aux bs id hid)
  · have hg : Grouped opc [] := ⟨takesBeats_unlisted ho, by simp, rfl⟩
    let g := gathered s p opc h aux []
    let r := arrived s p opc h aux []
    obtain ⟨gframe, -⟩ := gathered_keeps s p opc h aux []
    obtain ⟨-, -, -, gblk, -, -, -, -, -, -, -, gchans, -, -, -, -, -, -, -, -, -, -, -, gstack, -⟩ := gframe.keeps
    have hc : check1 g r = some (.reject, rejOpcode) := check1_unlisted ho (by rw [gblk]; exact hl)
    have hport := refused_port (bs := []) h aux hr hg .reject rejOpcode
    obtain ⟨kchans, kstack, -⟩ := replyReq_keeps g r .reject rejOpcode []
    exact ⟨_, replyOf g r .reject rejOpcode [], exec_refused rfl hr hg hc,
      congrArg Port.replies hport, rfl, rfl, rfl, rfl, rfl, congrArg Port.hdrCredits hport, kchans.trans gchans, kstack.trans gstack⟩

end Sys2Proof.Machine
end

section
/-! Beats that reach their request, and requests that reply while they wait: a FENCE whose turn has come, and a request whose
port's time has run out (R36, R38, R57, R59). -/

namespace Sys2Proof.Machine

/-! ### Write-data beats (R36, R38) -/

/-- Two changes of a port that agree on the port as it stands. -/
theorem modPort_congr {s : State} {p : Nat} {f g : Port → Port} (h : f (port s p) = g (port s p)) : modPort s p f = modPort s p g :=
  congrArg (setPort s p) h

/-- The port of a request once a beat has come for it, with the requests that still wait for beats (R36). -/
def beatTaken (w : List Nat) (x : Port) : Port :=
  { x with beatCredits := x.beatCredits - 1, beatHeld := x.beatHeld + 1, waiting := w }

/-- The state once a beat has come for request `id` (R36, R38). -/
def beatGiven (s : State) (p : Fin 16) (b : Beat) (id : Nat) (w : List Nat) : State :=
  modReq (modPort s p (beatTaken w)) id (fun q => { q with beats := q.beats ++ [b] })

/-- A beat that is due goes to its request, and the last one of a group lets the request be judged (R36, R38). -/
theorem presentBeat_given {s : State} {p : Fin 16} {id : Nat} {rest : List Nat} {r : Req} (b : Beat)
    (ho : s.pins.portOpen = true) (hc : s.clk.coreRun = true) (hb : 0 < (port s p).beatCredits) (hw : (port s p).wbuf = [])
    (hi : (port s p).waiting = id :: rest) (hr : findReq s id = some r) (hg : r.ghost = false) (hl : r.beats.length < 65) :
    presentBeat s p b = if b.last then judge (beatGiven s p b id rest) id else beatGiven s p b id (port s p).waiting := by
  have hport : ∀ w : List Nat, ({ port s p with beatCredits := (port s p).beatCredits - 1, beatHeld := (port s p).beatHeld + 1
                                                wbuf := [], waiting := w } : Port) = beatTaken w (port s p) := by
    intro w
    rw [beatTaken, ← hw]
  rw [presentBeat_due s p b id rest r ho hc hb hw hi hr hg hl]
  unfold beatGiven
  cases b.last with
  | true =>
    simp only [if_true]
    rw [modPort_congr (hport rest)]
  | false =>
    simp only [Bool.false_eq_true, if_false]
    rw [modPort_congr (hport (port s p).waiting)]

/-- Settles O19: the port's write buffer is empty, so that the beat goes on to its request at once. -/
theorem beatsReachTheirRequest : Obligations.BeatsReachTheirRequest := by
  unfold Obligations.BeatsReachTheirRequest
  intro s p b id rest r ho hc hb hw hi hr hg hl
  have hgiven := presentBeat_given b ho hc hb hw hi hr hg hl
  have hexec : exec (.writeDataBeat p b) s = .next (presentBeat s p b) := rfl
  refine ⟨fun hlast => ?_, fun hlast => ?_⟩
  · rw [hexec, hgiven, hlast, if_neg (by simp)]
    refine ⟨_, rfl, ?_, fun e he => ?_, ?_, rfl⟩
    · exact find_modReq (modPort s p _) id r (fun q => { q with beats := q.beats ++ [b] }) (fun _ => rfl) hr
    · exact find_modReq_other (modPort s p _) id e (fun q => { q with beats := q.beats ++ [b] }) (fun _ => rfl) he
    · unfold beatGiven
      rw [port_modReq, port_modPort]
      rfl
  · rw [hexec, hgiven, hlast, if_pos rfl]
    exact ⟨_, rfl, rfl⟩

/-! ### Requests found by source and tag -/

theorem findTag_some {s : State} {p : Fin 16} {src : BitVec 10} {tag : BitVec 12} {pick : Req → Bool} {r : Req}
    (h : findTag s p src tag pick = some r) :
    r ∈ s.reqs ∧ r.port = p ∧ r.h.src = src ∧ r.h.tag = tag ∧ r.ghost = false ∧ pick r = true := by
  have hpick := List.find?_some h
  simp only [Bool.and_eq_true, beq_iff_eq, Bool.not_eq_true'] at hpick
  obtain ⟨⟨⟨⟨hport, hsrc⟩, htag⟩, hghost⟩, hpick⟩ := hpick
  exact ⟨List.mem_of_find?_eq_some h, Fin.ext hport, hsrc, htag, hghost, hpick⟩

/-- The reply of a request joins the replies of its port (R40, R50). -/
theorem replyReq_replies (s : State) (r : Req) (o : Outcome) (d : Byte) (data : List RplData) :
    (port (replyReq s r o d data) r.port).replies = (port s r.port).replies ++ [replyOf s r o d data] := by
  rw [replyReq_port]
  dsimp only
  split
  · rfl
  · rw [show port (freeBeats s r.port r.beats.length) r.port = _ from port_modPort ..]

/-! ### FENCE (R57) -/

theorem fenceRelease_replies {s : State} {p : Fin 16} {src : BitVec 10} {tag : BitVec 12} {r : Req}
    (h : findTag s p src tag (fun q => q.stage == .fence) = some r) (he : earlierSame s r = []) :
    ∃ t rp, exec (.fenceRelease p src tag) s = .next t ∧ (port t p).replies = (port s p).replies ++ [rp] ∧ rp.id = r.id ∧
      rp.tag = tag ∧ rp.outcome = Outcome.ok.code ∧ rp.detail = 0#8 ∧ rp.beats = [] ∧
      (∀ id, id ≠ r.id → findReq t id = findReq s id) ∧ t.chans = s.chans ∧ t.stack = s.stack ∧ t.regs = s.regs := by
  obtain ⟨-, hport, -, htag, -⟩ := findTag_some h
  obtain ⟨kchans, kstack, -⟩ := replyReq_keeps s r .ok 0#8 []
  obtain ⟨kregs, -⟩ := replyReq_regs s r (o := .ok) (d := 0#8) [] nofun nofun
  subst hport
  refine ⟨replyReq s r .ok 0#8 [], replyOf s r .ok 0#8 [], ?_, replyReq_replies .., rfl, htag, rfl, rfl, rfl,
    fun id hid => replyReq_find_other s r .ok 0#8 [] id hid, kchans, kstack, kregs⟩
  simp [exec, execFenceRelease, h, he]

/-! ### PORT_TIMEOUT (R59) -/

/-- A request that times out while its beats are due discards the ones that come later (R59). -/
def timeoutGhost (s : State) (r : Req) : State := if r.stage = .beats then modReq s r.id (fun q => { q with ghost := true }) else s

theorem timeoutGhost_frame (s : State) (r : Req) : timeoutGhost s r = { s with reqs := (timeoutGhost s r).reqs } := by
  unfold timeoutGhost
  split <;> rfl

theorem timeoutGhost_find_other (s : State) (r : Req) (id : Nat) (h : id ≠ r.id) :
    findReq (timeoutGhost s r) id = findReq s id := by
  unfold timeoutGhost
  split
  · exact find_modReq_other s r.id id (fun q => { q with ghost := true }) (fun _ => rfl) h
  · rfl

/-- A request is not held between the steps of admission (R57, R80, R88). -/
def Unheld (r : Req) : Prop := r.stage ≠ .hold2 ∧ r.stage ≠ .fetch ∧ r.stage ≠ .hold4

/-- A change of one request that leaves it unheld. -/
theorem modReq_unheld {s : State} {id : Nat} {f : Req → Req} (hf : ∀ q, Unheld (f q))
    (hs : ∀ q ∈ s.reqs, q.id ≠ id → Unheld q) : ∀ q ∈ (modReq s id f).reqs, Unheld q := by
  intro q hq
  obtain ⟨q', hq', rfl⟩ := List.mem_map.1 hq
  by_cases hid : q'.id = id
  · rw [if_pos hid]
    exact hf q'
  · rw [if_neg hid]
    exact hs q' hq' hid

/-- Once a request replies that alone is held, none is held. -/
theorem replyReq_unheld {s : State} {r : Req} (o : Outcome) (d : Byte) (data : List RplData)
    (hs : ∀ q ∈ s.reqs, q.id ≠ r.id → Unheld q) : ∀ q ∈ (replyReq s r o d data).reqs, Unheld q := by
  obtain ⟨-, -, -, -, -, -, hreqs, -⟩ := (replyReq_booked s r o d data).keeps
  rw [hreqs]
  refine modReq_unheld (fun q => ?_) ?_
  · unfold Unheld
    dsimp only
    split <;> exact ⟨nofun, nofun, nofun⟩
  · split <;> exact hs

theorem NoneHeld.timeoutGhost {s : State} {r : Req} (h : NoneHeld s r.id) : NoneHeld (timeoutGhost s r) r.id := by
  obtain ⟨hop, hs⟩ := h
  unfold Sys2Proof.Machine.timeoutGhost
  split
  · refine ⟨hop, fun q hq hid => ?_⟩
    obtain ⟨q', hq', rfl⟩ := List.mem_map.1 hq
    by_cases heq : q'.id = r.id
    · rw [if_pos heq] at hid
      exact absurd heq hid
    · rw [if_neg heq]
      exact hs q' hq' heq
  · exact ⟨hop, hs⟩

/-- With no other request held, nothing goes on when a request replies (R57, R80). -/
theorem pumpAll_replyReq {s : State} {r : Req} (h : NoneHeld s r.id) (o : Outcome) (d : Byte) (data : List RplData) :
    pumpAll (replyReq s r o d data) = replyReq s r o d data := by
  obtain ⟨hop, hs⟩ := h
  obtain ⟨-, -, khdl, -⟩ := replyReq_keeps s r o d data
  exact pumpAll_idle _ (by rw [khdl]; exact hop) (replyReq_unheld o d data hs)

theorem replyReq_timeout_cause (s : State) (r : Req) (data : List RplData) :
    (reg (replyReq s r .timeout 0#8 data) (portPage r.port) 0x010).getLsbD 1 = true := by
  unfold replyReq
  dsimp only
  unfold replyCauses
  rw [if_pos ⟨rfl, rfl⟩]
  exact latch_bit _ _ 1 (by decide)

theorem portTimeout_replies {s : State} {p : Fin 16} {src : BitVec 10} {tag : BitVec 12} {r : Req}
    (h : findTag s p src tag (fun q => timeable q && timedOut s q) = some r) (hn : NoneHeld s r.id) :
    ∃ t rp, exec (.portTimeoutExpiry p src tag) s = .next t ∧ (port t p).replies = (port s p).replies ++ [rp] ∧ rp.id = r.id ∧
      rp.tag = tag ∧ rp.outcome = Outcome.timeout.code ∧ rp.detail = 0#8 ∧ rp.beats = [] ∧
      (reg t (portPage p) 0x010).getLsbD 1 = true ∧
      (∀ id, id ≠ r.id → findReq t id = findReq s id) ∧ t.chans = s.chans ∧ t.stack = s.stack := by
  obtain ⟨-, hport, -, htag, -⟩ := findTag_some h
  let g := timeoutGhost s r
  have gframe := timeoutGhost_frame s r
  obtain ⟨kchans, kstack, -⟩ := replyReq_keeps g r .timeout 0#8 []
  have hgport : port g r.port = port s r.port := by
    show port (timeoutGhost s r) r.port = _
    rw [gframe]
    rfl
  subst hport
  refine ⟨replyReq g r .timeout 0#8 [], replyOf g r .timeout 0#8 [], ?_, ?_, rfl, htag, rfl, rfl, rfl, replyReq_timeout_cause ..,
    fun id hid => ?_, ?_, ?_⟩
  · rw [← pumpAll_replyReq hn.timeoutGhost .timeout 0#8 []]
    simp only [exec, execPortTimeoutExpiry, h]
    rfl
  · rw [replyReq_replies, hgport]
  · exact (replyReq_find_other g r .timeout 0#8 [] id hid).trans (timeoutGhost_find_other s r id hid)
  · exact kchans.trans (by rw [show g = _ from gframe])
  · exact kstack.trans (by rw [show g = _ from gframe])

/-- Settles O21: either reply leaves the other requests alone, and none of them goes on. -/
theorem fencesAndTimeoutsReply : Obligations.FencesAndTimeoutsReply := by
  unfold Obligations.FencesAndTimeoutsReply
  refine ⟨fun s p src tag r h _ => ⟨fun hwait => ?_, fun he => fenceRelease_replies h he⟩,
    fun s p src tag r h _ hn => portTimeout_replies h hn⟩
  simp [exec, execFenceRelease, h, hwait]

end Sys2Proof.Machine
end

section
/-! A port sends the next beat of the reply that ranks first, and the sampler selects the candidate that is due (R34, R36, R40,
R50, R395, R396, Table 2-7). -/

namespace Sys2Proof.Machine

theorem Booked.ite {s t u : State} {c : Prop} [Decidable c] (h : Booked s t) (g : Booked s u) : Booked s (if c then t else u) := by
  split
  · exact h
  · exact g

/-! ### What goes with a beat (R36, R64, R396) -/

/-- What a port counts and notes while it makes a beat ready: its replies stay, n header credits return to it, and the
requests, the handles, the channels, the stack and the pins stay. -/
structure Readies (s t : State) (p n : Nat) : Prop where
  reqs : t.reqs = s.reqs
  hdl : t.hdl = s.hdl
  chans : t.chans = s.chans
  stack : t.stack = s.stack
  pins : t.pins = s.pins
  replies : (port t p).replies = (port s p).replies
  credits : (port t p).hdrCredits = (port s p).hdrCredits + n

section

variable {s t u : State} {p m n : Nat}

theorem Readies.trans (h : Readies s t p m) (g : Readies t u p n) : Readies s u p (m + n) where
  reqs := g.reqs.trans h.reqs
  hdl := g.hdl.trans h.hdl
  chans := g.chans.trans h.chans
  stack := g.stack.trans h.stack
  pins := g.pins.trans h.pins
  replies := g.replies.trans h.replies
  credits := by rw [g.credits, h.credits, Nat.add_assoc]

theorem Readies.of_booked (h : Booked s t) (p : Nat) : Readies s t p 0 := by
  have hport := port_booked h p
  obtain ⟨-, -, -, -, hpins, -, hreqs, -, -, hhdl, -, hchans, -, -, -, -, -, -, -, -, -, -, -, hstack, -⟩ := h.keeps
  exact ⟨hreqs, hhdl, hchans, hstack, hpins, by rw [hport], by rw [hport, Nat.add_zero]⟩

theorem Readies.modPort {f : Port → Port} (hreplies : (f (port s p)).replies = (port s p).replies)
    (hcredits : (f (port s p)).hdrCredits = (port s p).hdrCredits + n) : Readies s (modPort s p f) p n where
  reqs := rfl
  hdl := rfl
  chans := rfl
  stack := rfl
  pins := rfl
  replies := by rw [port_modPort, hreplies]
  credits := by rw [port_modPort, hcredits]

/-- ATTN takes its bit from the attention line, or is drawn while either value may show (R64). -/
theorem attnBit_readies (s : State) (p : Nat) : Readies s (attnBit s p).2 p 0 := by
  unfold attnBit
  split
  · dsimp only
    split
    · exact ⟨rfl, rfl, rfl, rfl, rfl, (congrArg Port.replies (port_setPort ..)).trans rfl, (congrArg Port.hdrCredits (port_setPort ..)).trans rfl⟩
    · exact ⟨rfl, rfl, rfl, rfl, rfl, rfl, rfl⟩
  · exact ⟨rfl, rfl, rfl, rfl, rfl, rfl, rfl⟩

theorem booked_sampleStore (s : State) (b : BitVec 256) : Booked s (sampleStore s b) := by
  unfold sampleStore
  extract_lets wrap full u rec keep pmu v
  have hu : Booked s u := .ite ((booked_bumpReg ..).trans (booked_latch ..)) (.refl s)
  have hv : Booked s v := hu.trans rfl
  exact .ite hu (.ite (hv.trans (booked_latch ..)) hv)

/-- The first beat of a reply returns the header's credit, where it has one (R36). -/
def creditBack (s : State) (p : Nat) (q : Reply) : State :=
  if q.hdrCredit then modPort s p (fun x => { x with hdrCredits := x.hdrCredits + 1 }) else s

theorem creditBack_readies (s : State) (p : Nat) (q : Reply) :
    Readies s (creditBack s p q) p (if q.hdrCredit = true then 1 else 0) := by
  unfold creditBack
  split
  · exact .modPort rfl rfl
  · exact .of_booked (.refl s) p

/-- Beyond the credit, the first beat of a reply is counted and may be sampled (R396, Table 15-3). -/
theorem firstBeat_booked (s : State) (p : Nat) (q : Reply) (attn : Bool) : Booked (creditBack s p q) (firstBeat s p q attn) := by
  unfold firstBeat
  extract_lets u
  show Booked u _
  split
  · exact .refl u
  · extract_lets a counted attns latencies due mine pmu selected
    have hcounted : Booked u counted := booked_countEv ..
    have hattns : Booked u attns := .ite (hcounted.trans (booked_countEv ..)) hcounted
    have hlatencies : Booked u latencies := hattns.trans ((booked_countEv ..).trans (booked_countEv ..))
    have hdue : Booked u due := .ite (hlatencies.trans (booked_dueNow _)) hlatencies
    have hselected : Booked u selected := .ite (hdue.trans rfl) hdue
    split
    · exact .ite hselected (hselected.trans (booked_sampleStore ..))
    · exact hselected

/-- The port with its next beat ready: ATTN is taken, and the first beat of a reply is counted (R36, R64). -/
def beatReady (s : State) (p : Nat) (q : Reply) : State :=
  let t := modPort (attnBit s p).2 p (fun x => { x with prog := 0 })
  if q.sent = 0 then firstBeat t p q (attnBit s p).1 else t

theorem beatReady_readies (s : State) (p : Nat) (q : Reply) :
    Readies s (beatReady s p q) p (if q.sent = 0 ∧ q.hdrCredit = true then 1 else 0) := by
  have hattn : Readies s (modPort (attnBit s p).2 p (fun x => { x with prog := 0 })) p 0 :=
    (attnBit_readies s p).trans (.modPort (n := 0) rfl rfl)
  unfold beatReady
  dsimp only
  by_cases hsent : q.sent = 0
  · have hfirst := hattn.trans ((creditBack_readies _ p q).trans (.of_booked (firstBeat_booked _ p q (attnBit s p).1) p))
    simpa [hsent] using hfirst
  · simpa [hsent] using hattn

end

/-! ### The beat leaves (R34, R40, R50) -/

/-- A request whose reply has left is forgotten. -/
def forgetReplied (s : State) (id : Nat) : State :=
  match findReq s id with
  | some r => if r.stage = .replied then dropReq s id else s
  | none => s

theorem forgetReplied_frame (s : State) (id : Nat) : forgetReplied s id = { s with reqs := (forgetReplied s id).reqs } := by
  unfold forgetReplied
  split
  · split <;> rfl
  · rfl

theorem mem_of_mem_forgetReplied {s : State} {id : Nat} {r : Req} (h : r ∈ (forgetReplied s id).reqs) : r ∈ s.reqs := by
  unfold forgetReplied at h
  split at h
  · split at h
    · exact List.mem_of_mem_filter h
    · exact h
  · exact h

theorem attnReplySent_frame (s : State) (id : Nat) : attnReplySent s id = { s with attn := (attnReplySent s id).attn } := by
  unfold attnReplySent
  split <;> rfl

/-- The beat of a reply that leaves next (Table 2-7). -/
def nextBeat (s : State) (p : Nat) (q : Reply) : RplBeat :=
  { hdr := replyHdr q (attnBit s p).1, beat := q.sent, data := q.beats[q.sent]? }

/-- The replies of a port once a beat of one of them has left: it goes with its last beat (R40, R50). -/
def repliesAfter (q : Reply) (l : List Reply) : List Reply :=
  if q.beats.length ≤ q.sent + 1 then l.filter (fun r => r.id != q.id)
  else l.map (fun r => if r.id = q.id then { q with sent := q.sent + 1 } else r)

/-- The port once the beat has left. -/
def beatSent (s : State) (p : Nat) (q : Reply) : State :=
  modPort (beatReady s p q) p (fun y => { y with out := some (nextBeat s p q), replies := repliesAfter q y.replies })

/-- A port sends the next beat of the reply that ranks first; with its last beat its request is forgotten, and held requests
may go on (R40, R50). -/
theorem sendBeat_best {s : State} {p : Nat} {q : Reply} (ho : s.pins.portOpen = true) (hc : s.clk.coreRun = true)
    (hs : (port s p).stall = false) (hq : bestBy Reply.before (port s p).replies = some q) :
    sendBeat s p = if q.beats.length ≤ q.sent + 1 then pumpAll (forgetReplied (attnReplySent (beatSent s p q) q.id) q.id)
      else beatSent s p q := by
  unfold sendBeat
  dsimp only
  rw [if_neg (by simp [ho, hc, hs]), hq]
  dsimp only
  unfold beatSent repliesAfter
  split <;> rfl

/-- Where no request is held, the end of a reply changes the requests and the attention line alone. -/
theorem sendBeat_frame {s : State} {p : Nat} {q : Reply} (ho : s.pins.portOpen = true) (hc : s.clk.coreRun = true)
    (hs : (port s p).stall = false) (hq : bestBy Reply.before (port s p).replies = some q) (hn : ∀ id, NoneHeld s id) :
    sendBeat s p = { beatSent s p q with reqs := (sendBeat s p).reqs, attn := (sendBeat s p).attn } := by
  rw [sendBeat_best ho hc hs hq]
  split
  · let t := attnReplySent (beatSent s p q) q.id
    have hattn : t = { beatSent s p q with attn := t.attn } := attnReplySent_frame ..
    have hforget := forgetReplied_frame t q.id
    have hready := beatReady_readies s p q
    have hidle : pumpAll (forgetReplied t q.id) = forgetReplied t q.id := by
      refine pumpAll_idle _ ?_ (fun r hr => ?_)
      · have hhdl : (forgetReplied t q.id).hdl = s.hdl := by
          rw [hforget, hattn]
          exact hready.hdl
        rw [hhdl]
        exact (hn 0).1
      · have hmem : r ∈ t.reqs := mem_of_mem_forgetReplied hr
        rw [hattn] at hmem
        have hmem : r ∈ s.reqs := hready.reqs ▸ hmem
        exact (hn (r.id + 1)).2 r hmem (Nat.ne_of_lt (Nat.lt_succ_self _))
    rw [hidle, hforget, hattn]
  · rfl

/-- In the cycle after RPL_STALL was high the port sends nothing (R34). -/
theorem sendBeat_stalled {s : State} {p : Nat} (h : (port s p).stall = true) : sendBeat s p = s := by
  unfold sendBeat
  rw [if_pos (by simp [h])]

theorem replyBeatSend_sends {s : State} {p : Fin 16} {q : Reply} (stall : Bool) (ho : s.pins.portOpen = true)
    (hc : s.clk.coreRun = true) (hs : (port s p).stall = false) (hq : bestBy Reply.before (port s p).replies = some q)
    (hn : ∀ id, NoneHeld s id) :
    ∃ t attn, exec (.replyBeatSend ⟨p, stall⟩) s = .next t ∧ (port t p).stall = stall ∧
      (port t p).out = some { hdr := replyHdr q attn, beat := q.sent, data := q.beats[q.sent]? } ∧
      (port t p).replies = (if q.beats.length ≤ q.sent + 1 then (port s p).replies.filter (fun r => r.id != q.id)
        else (port s p).replies.map (fun r => if r.id = q.id then { q with sent := q.sent + 1 } else r)) ∧
      (port t p).hdrCredits = (port s p).hdrCredits + (if q.sent = 0 ∧ q.hdrCredit = true then 1 else 0) ∧
      t.chans = s.chans ∧ t.stack = s.stack ∧ t.pins = s.pins := by
  have hready := beatReady_readies s p q
  have hframe := sendBeat_frame ho hc hs hq hn
  have hsent : port (sendBeat s p) p = port (beatSent s p q) p := by
    rw [hframe]
    rfl
  have hport : port (modPort (sendBeat s p) p (fun x => { x with stall := stall })) p = { port (beatReady s p q) p with
      out := some (nextBeat s p q), replies := repliesAfter q (port s p).replies, stall := stall } := by
    rw [port_modPort, hsent, beatSent, port_modPort, hready.replies]
  refine ⟨modPort (sendBeat s p) p (fun x => { x with stall := stall }), (attnBit s p).1, rfl, ?_, ?_, ?_, ?_, ?_, ?_, ?_⟩
  · rw [hport]
  · rw [hport]
    rfl
  · rw [hport]
    rfl
  · rw [hport]
    exact hready.credits
  · show (sendBeat s p).chans = _
    rw [hframe]
    exact hready.chans
  · show (sendBeat s p).stack = _
    rw [hframe]
    exact hready.stack
  · show (sendBeat s p).pins = _
    rw [hframe]
    exact hready.pins

/-! ### The sampler's selection (R395) -/

/-- Drawing an interval changes the sampler alone. -/
theorem smpInterval_frame (s : State) : (smpInterval s).2 = { s with pmu := (smpInterval s).2.pmu } := by
  unfold smpInterval
  dsimp only
  split <;> rfl

/-- A sampled reply that waits is marked with its request (R395). -/
def markReply (r : Req) (x : Port) : Port :=
  { x with replies := x.replies.map (fun q => if q.id = r.id ∧ q.sent = 0 then { q with sampled := some { r with sampled := true } } else q) }

theorem sampleReq_found {s : State} {id : Nat} {r : Req} (h : findReq s id = some r) :
    sampleReq s id = modPort (modReq s id (fun r => { r with sampled := true })) r.port (markReply r) := by
  have hid : r.id = id := by simpa using List.find?_some h
  unfold sampleReq
  dsimp only
  rw [find_modReq s id r (fun r => { r with sampled := true }) (fun _ => rfl) h]
  subst hid
  rfl

theorem sampleSelect_marks {s : State} {id : Nat} {r : Req} (hd : s.pmu.smpDue = some id) (hf : findReq s id = some r) :
    ∃ t, exec .sampleSelect s = .next t ∧ t.pmu.smpDue = none ∧ t.pmu.smpLeft = (smpInterval s).1 ∧
      findReq t id = some { r with sampled := true } ∧ (∀ e, e ≠ id → findReq t e = findReq s e) ∧
      t = { s with reqs := t.reqs, ports := t.ports, pmu := t.pmu } := by
  let u : State := { (smpInterval s).2 with pmu := { (smpInterval s).2.pmu with smpDue := none, smpLeft := (smpInterval s).1 } }
  have hu : u = { s with pmu := u.pmu } := by
    show ({ (smpInterval s).2 with pmu := _ } : State) = _
    rw [smpInterval_frame]
  have hfind : ∀ e, findReq u e = findReq s e := fun e => by rw [hu]; rfl
  have hsel : selectDue s = modPort (modReq u id (fun r => { r with sampled := true })) r.port (markReply r) := by
    rw [← sampleReq_found ((hfind id).trans hf)]
    unfold selectDue
    rw [hd]
  refine ⟨modPort (modReq u id (fun r => { r with sampled := true })) r.port (markReply r), congrArg Host.Outcome.next hsel, rfl, rfl, ?_,
    fun e he => ?_, ?_⟩
  · exact find_modReq u id r (fun r => { r with sampled := true }) (fun _ => rfl) ((hfind id).trans hf)
  · exact (find_modReq_other u id e (fun r => { r with sampled := true }) (fun _ => rfl) he).trans (hfind e)
  · rw [hu]
    rfl

/-- Settles O22: the beat's port changes, and with no request held none goes on; the selection marks its candidate. -/
theorem repliesLeaveBeatByBeat : Obligations.RepliesLeaveBeatByBeat := by
  unfold Obligations.RepliesLeaveBeatByBeat
  refine ⟨fun s p stall hs => ?_, fun s p stall q ho hc hs hq hn => replyBeatSend_sends stall ho hc hs hq hn,
    fun s id r hd hf => sampleSelect_marks hd hf⟩
  show Host.Outcome.next (modPort (sendBeat s p) p _) = _
  rw [sendBeat_stalled hs]

end Sys2Proof.Machine
end

section
/-! The places of handle entries and of data in RESIDENT regions (R77, R80). -/

namespace Sys2Proof.Machine

/-! ### The place of a handle's entry (R70, R80) -/

/-- The handle's bits are, from the lowest on, those of the channel, four of the bank, five of the column, and the row's. -/
theorem hdlPlace_fields (s : State) (h : BitVec 16) {n m : Nat} (hn : lgChan s = n) (hm : n + 9 + m = 16) :
    hdlPlace s h.toNat = { ch := fieldNat h 0 n, bank := fieldNat h n 4, col := fieldNat h (n + 4) 5,
                           row := hdlRow0 s + fieldNat h (n + 9) m } := by
  have hrow : h.toNat / 2 ^ (n + 9) < 2 ^ m := Nat.div_lt_of_lt_mul (by rw [← Nat.pow_add, hm]; exact h.isLt)
  simp only [hdlPlace, hn, fieldNat_eq_div_mod, Nat.pow_zero, Nat.reducePow, Nat.div_one, Nat.mod_eq_of_lt hrow]

/-- Settles O9: the store's rows are the last two of each bank, on Rosura 32 the last four. -/
theorem handleEntriesLieInTheTopRows : Obligations.HandleEntriesLieInTheTopRows := by
  unfold Obligations.HandleEntriesLieInTheTopRows
  refine fun s h => ⟨fun hp => ?_, fun hp => ?_⟩
  · have hrow0 : hdlRow0 s = rowsPerBank s - 2 := by simp [hdlRow0, nChan, hp]
    rw [hdlPlace_fields s h (n := 6) (m := 1) (by simp [lgChan, hp]) rfl, hrow0]
  · have hrow0 : hdlRow0 s = rowsPerBank s - 4 := by simp [hdlRow0, nChan, hp]
    rw [hdlPlace_fields s h (n := 5) (m := 2) (by simp [lgChan, hp]) rfl, hrow0]

/-! ### The RESIDENT map (R77) -/

/-- A number without its last digit to base n. -/
theorem div_of_digit {q n d : Nat} (h : d < n) : (q * n + d) / n = q := by
  rw [Nat.mul_comm, Nat.mul_add_div (Nat.zero_lt_of_lt h), Nat.div_eq_of_lt h, Nat.add_zero]

/-- The offset's digits, from the last on: 32 bytes of a sector, 32 columns, the rows and the banks of the footprint. -/
theorem residentPlace_of_digits (g : Region) {c b r k y : Nat} (hb : b < 2 ^ g.bankLog2) (hr : r < 2 ^ g.rowLog2) (hk : k < 32)
    (hy : y < 32) :
    residentPlace g ((((c * 2 ^ g.bankLog2 + b) * 2 ^ g.rowLog2 + r) * 32 + k) * 32 + y) =
      { ch := c, bank := g.bankLo + b, row := g.rowLo + r, col := k } := by
  have hrows : ((((c * 2 ^ g.bankLog2 + b) * 2 ^ g.rowLog2 + r) * 32 + k) * 32 + y) / 1024 =
      (c * 2 ^ g.bankLog2 + b) * 2 ^ g.rowLog2 + r := by omega
  simp only [residentPlace, Nat.pow_add, Nat.reducePow, ← Nat.div_div_eq_div_mul, hrows, div_of_digit hy, div_of_digit hr,
    div_of_digit hb, Nat.mul_add_mod_of_lt hk, Nat.mul_add_mod_of_lt hr, Nat.mul_add_mod_of_lt hb]

/-- Settles O10, by the digits of the offset. -/
theorem residentRegionsMapDirectly : Obligations.ResidentRegionsMapDirectly := by
  unfold Obligations.ResidentRegionsMapDirectly
  intro s g c b r k y hg hb hr hk hy
  rw [placeIn, if_pos hg, Nat.add_sub_cancel_left, residentPlace_of_digits g hb hr hk hy]

end Sys2Proof.Machine
end

section
/-! Entries of handles in the cache, the store traffic that handle commands start, and the write of an entry through to cache and
store (R80, R81, R289). -/

namespace Sys2Proof.Machine

/-! ### Cached entries (R80, R81) -/

section

variable {s : State} {h : Nat}

theorem hdlCached_iff : hdlCached s h = true ↔ ∃ e, hdlGet s h = some e := Option.isSome_iff_exists

theorem hdlSet_cached {e : HdlEntry} (hg : hdlGet s h = some e) (b : BitVec 256) (dirty : Bool) :
    hdlSet s h b dirty = { s with hdl := { s.hdl with cache := Tab.put s.hdl.cache h { e with bytes := b, dirty := dirty } } } := by
  unfold hdlSet modHdlEntry
  rw [hg]

theorem hdlSet_uncached (hg : hdlGet s h = none) (b : BitVec 256) (dirty : Bool) : hdlSet s h b dirty = s := by
  unfold hdlSet modHdlEntry
  rw [hg]

theorem hdlSet_frame (s : State) (h : Nat) (b : BitVec 256) (dirty : Bool) :
    hdlSet s h b dirty = { s with hdl := (hdlSet s h b dirty).hdl } := by
  cases hg : hdlGet s h with
  | none => rw [hdlSet_uncached hg]
  | some e => rw [hdlSet_cached hg]

theorem hdlBytes_hdlSet (hc : hdlCached s h = true) (b : BitVec 256) (dirty : Bool) : hdlBytes (hdlSet s h b dirty) h = b := by
  obtain ⟨e, hg⟩ := hdlCached_iff.1 hc
  rw [hdlSet_cached hg]
  unfold hdlBytes hdlGet
  rw [Tab.find_put_self]
  rfl

theorem hdlGet_hdlSet_other (s : State) {h x : Nat} (hx : x ≠ h) (b : BitVec 256) (dirty : Bool) :
    hdlGet (hdlSet s h b dirty) x = hdlGet s x := by
  cases hg : hdlGet s h with
  | none => rw [hdlSet_uncached hg]
  | some e =>
    rw [hdlSet_cached hg]
    exact Tab.find_put_other _ _ _ _ hx

theorem hdlPlace_of_part {t : State} (hp : t.part = s.part) (h : Nat) : hdlPlace t h = hdlPlace s h := by
  unfold hdlPlace hdlRow0 lgChan nChan rowsPerBank
  rw [hp]

/-- Handles have 16 bits (R80). -/
theorem handle_lt (r : Req) : r.handle < 2 ^ 16 := BitVec.isLt _

end

/-! ### What the store traffic of handle commands leaves (R81, R88) -/

/-- Store traffic that acts on the entries of the handles hs: entries join requester queues and none leaves, parity updates start
in the Crowns, and every request keeps its stage and the handles that it waits for. -/
structure StoreTraffic (s t : State) (hs : List Nat) : Prop where
  frame : t = { s with hdl := t.hdl, chans := t.chans, reqs := t.reqs, octs := t.octs }
  queued : ∀ c, ∀ e ∈ (chan s c).rq, e ∈ (chan t c).rq
  turns : ∀ q ∈ t.reqs, ∃ q' ∈ s.reqs, q.stage = q'.stage ∧ q.tAdmit = q'.tAdmit ∧ q.handles = q'.handles
  others : ∀ h, h ∉ hs → hdlGet t h = hdlGet s h

namespace StoreTraffic

variable {s t u : State} {hs hs' : List Nat}

theorem refl (s : State) : StoreTraffic s s [] := ⟨rfl, fun _ _ => id, fun q hq => ⟨q, hq, rfl, rfl, rfl⟩, fun _ _ => rfl⟩

theorem trans (h : StoreTraffic s t hs) (g : StoreTraffic t u hs') : StoreTraffic s u (hs ++ hs') where
  frame := by
    have ht := h.frame
    have hu := g.frame
    rw [hu, ht]
  queued c e he := g.queued c e (h.queued c e he)
  turns q hq := by
    obtain ⟨q', hq', hst, had, hha⟩ := g.turns q hq
    obtain ⟨q'', hq'', hst', had', hha'⟩ := h.turns q' hq'
    exact ⟨q'', hq'', hst.trans hst', had.trans had', hha.trans hha'⟩
  others x hx := (g.others x (fun hm => hx (List.mem_append_right _ hm))).trans (h.others x (fun hm => hx (List.mem_append_left _ hm)))

/-- Traffic that acts on no entry, after some that does. -/
theorem andThen (h : StoreTraffic s t hs) (g : StoreTraffic t u []) : StoreTraffic s u hs := by
  simpa using h.trans g

theorem foldl {α : Type} (f : State → α → State) (l : List α) (h : ∀ t x, StoreTraffic t (f t x) []) (s : State) :
    StoreTraffic s (l.foldl f s) [] := by
  induction l generalizing s with
  | nil => exact .refl s
  | cons x l ih => exact (h s x).andThen (ih _)

theorem enqueue (s : State) (e : Entry) : StoreTraffic s (enqueue s e) [] where
  frame := rfl
  queued c x hx := by
    unfold Sys2Proof.Machine.enqueue
    by_cases hc : c = e.place.ch
    · subst hc
      rw [chan_modChan]
      exact List.mem_append_left _ hx
    · rwa [chan_modChan_other _ _ _ _ hc]
  turns q hq := ⟨q, hq, rfl, rfl, rfl⟩
  others _ _ := rfl

theorem modReq (s : State) (id : Nat) (f : Req → Req)
    (hf : ∀ q, (f q).stage = q.stage ∧ (f q).tAdmit = q.tAdmit ∧ (f q).handles = q.handles) : StoreTraffic s (modReq s id f) [] where
  frame := rfl
  queued _ _ he := he
  turns q hq := by
    obtain ⟨q', hq', rfl⟩ := List.mem_map.1 hq
    refine ⟨q', hq', ?_⟩
    split
    · exact hf q'
    · exact ⟨rfl, rfl, rfl⟩
  others _ _ := rfl

theorem modOct (s : State) (k : Nat) (f : Oct → Oct) : StoreTraffic s (modOct s k f) [] :=
  ⟨rfl, fun _ _ => id, fun q hq => ⟨q, hq, rfl, rfl, rfl⟩, fun _ _ => rfl⟩

theorem validCount (s : State) (d : Int) : StoreTraffic s (validCount s d) [] :=
  ⟨rfl, fun _ _ => id, fun q hq => ⟨q, hq, rfl, rfl, rfl⟩, fun _ _ => rfl⟩

theorem hdlSet (s : State) (h : Nat) (b : BitVec 256) (dirty : Bool) : StoreTraffic s (hdlSet s h b dirty) [h] where
  frame := by
    rw [hdlSet_frame]
  queued c e he := by
    rw [hdlSet_frame]
    exact he
  turns q hq := by
    rw [hdlSet_frame] at hq
    exact ⟨q, hq, rfl, rfl, rfl⟩
  others x hx := hdlGet_hdlSet_other s (by simpa using hx) b dirty

/-- A parity update that starts by reading the old data (R289). -/
theorem addVaultWrite (s : State) (id : Nat) (p : Place) (v : Vault) (d : Sector) (cls : Cls) (dl : Int) (n : Nat) :
    StoreTraffic s (addVaultWrite s id p v d cls dl n) [] := by
  unfold Sys2Proof.Machine.addVaultWrite
  extract_lets k jid counted job listed
  have hlisted : StoreTraffic s listed [] :=
    (modReq s id (fun r => { r with todo := r.todo + 1 }) (fun _ => ⟨rfl, rfl, rfl⟩)).andThen (modOct ..)
  split
  · exact hlisted.andThen (enqueue ..)
  · exact hlisted

theorem vaultWrites (s : State) (r : Req) (cls : Cls) (dl : Int) (xs : List (SecRef × Sector)) :
    StoreTraffic s (vaultWrites s r cls dl xs) [] := by
  refine foldl _ _ (fun t x => ?_) s
  split
  · exact addVaultWrite ..
  · exact .refl t

theorem part (h : StoreTraffic s t hs) : t.part = s.part := by
  rw [h.frame]

theorem hdlBytes (h : StoreTraffic s t hs) {x : Nat} (hx : x ∉ hs) : hdlBytes t x = hdlBytes s x := by
  unfold Sys2Proof.Machine.hdlBytes
  rw [h.others x hx]

theorem hdlCached (h : StoreTraffic s t hs) {x : Nat} (hx : x ∉ hs) : hdlCached t x = hdlCached s x := by
  unfold Sys2Proof.Machine.hdlCached
  rw [h.others x hx]

theorem hdlPoisoned (h : StoreTraffic s t hs) {x : Nat} (hx : x ∉ hs) : hdlPoisoned t x = hdlPoisoned s x := by
  unfold Sys2Proof.Machine.hdlPoisoned
  rw [h.others x hx]

/-- A store write of a handle that waits goes on waiting. -/
theorem hdlWriting (h : StoreTraffic s t hs) {x : Nat} (hw : hdlWriting s x = true) : hdlWriting t x = true := by
  obtain ⟨e, he, hmine⟩ := List.any_eq_true.1 hw
  refine List.any_eq_true.2 ⟨e, ?_, hmine⟩
  rw [hdlPlace_of_part h.part]
  exact h.queued _ e he

end StoreTraffic

/-! ### Writing an entry through (R81) -/

section

variable (s : State) (h pos : Nat) (cls : Cls) (dl : Int) (b : BitVec 256)

theorem hdlWriteThrough_traffic : StoreTraffic s (hdlWriteThrough s h pos cls dl b) [h] :=
  (StoreTraffic.hdlSet s h b false).andThen (.enqueue ..)

/-- The cache holds the entry that has been written through. -/
theorem hdlBytes_hdlWriteThrough (hc : hdlCached s h = true) : hdlBytes (hdlWriteThrough s h pos cls dl b) h = b :=
  hdlBytes_hdlSet hc b false

/-- The store write of the entry waits in the requester queue of its channel. -/
theorem hdlWriting_hdlWriteThrough : hdlWriting (hdlWriteThrough s h pos cls dl b) h = true := by
  have hplace : hdlPlace (hdlWriteThrough s h pos cls dl b) h = hdlPlace (hdlSet s h b false) h := hdlPlace_of_part rfl h
  unfold hdlWriting
  rw [hplace]
  unfold hdlWriteThrough hdlStore enqueue
  rw [show (newEntry (hdlSet s h b false) (.hdl h) pos cls dl true false
    (onePiece (hdlPlace (hdlSet s h b false) h) none (some (sectorOf b)))).place = hdlPlace (hdlSet s h b false) h from rfl,
    chan_modChan, List.any_append]
  simp [newEntry]

theorem chan_hdlWriteThrough_other {c : Nat} (hc : c ≠ (hdlPlace s h).ch) : chan (hdlWriteThrough s h pos cls dl b) c = chan s c := by
  have hset : hdlPlace (hdlSet s h b false) h = hdlPlace s h := hdlPlace_of_part (StoreTraffic.hdlSet s h b false).part h
  have hchan : chan (hdlSet s h b false) c = chan s c := by
    rw [hdlSet_frame]
    rfl
  rw [← hchan]
  refine chan_modChan_other _ _ _ _ ?_
  show c ≠ (hdlPlace (hdlSet s h b false) h).ch
  rwa [hset]

end

/-- A command has acted on the entry of handle h: the entry is b, and its store write waits; besides it at most the entries of the
handles hs have changed. -/
structure ActsOn (s t : State) (h : Nat) (b : BitVec 256) (hs : List Nat) : Prop where
  traffic : StoreTraffic s t (h :: hs)
  bytes : hdlBytes t h = b
  writing : hdlWriting t h = true

theorem ActsOn.writeThrough {s : State} {h : Nat} (hc : hdlCached s h = true) (pos : Nat) (cls : Cls) (dl : Int) (b : BitVec 256) :
    ActsOn s (hdlWriteThrough s h pos cls dl b) h b [] :=
  ⟨hdlWriteThrough_traffic .., hdlBytes_hdlWriteThrough _ _ _ _ _ _ hc, hdlWriting_hdlWriteThrough ..⟩

/-- Traffic that acts on other entries leaves what a command has done. -/
theorem ActsOn.andThen {s t u : State} {h : Nat} {b : BitVec 256} {hs : List Nat} (a : ActsOn s t h b []) (g : StoreTraffic t u hs)
    (hh : h ∉ hs) : ActsOn s u h b hs :=
  ⟨a.traffic.trans g, (g.hdlBytes hh).trans a.bytes, g.hdlWriting a.writing⟩

end Sys2Proof.Machine
end

section
/-! What HCMT, HRBK and HREL do to their handle's entry: a rollback zeroes what it takes back, and a release tells the parent
(R81, R82, R88). -/

namespace Sys2Proof.Machine

/-! ### The zero writes of a rollback (R88, R108) -/

/-- Some piece of a list lies in channel c. -/
def Covers (ps : List Piece) (c : Nat) : Prop := ∃ p ∈ ps, p.place.ch = c

/-- A sector that joins the piece before it lies in that piece's channel. -/
theorem joinPiece_covers {ps : List Piece} {q : Piece} {c : Nat} (h : Covers ps c ∨ q.place.ch = c) : Covers (joinPiece ps q) c := by
  cases ps with
  | nil =>
    rcases h with ⟨p, hp, -⟩ | h
    · cases hp
    · exact ⟨q, List.mem_cons_self, h⟩
  | cons p ps =>
    simp only [joinPiece]
    split
    · next hjoin =>
      obtain ⟨hch, -⟩ := hjoin
      rcases h with ⟨x, hx, hxc⟩ | h
      · rcases List.mem_cons.1 hx with rfl | hx
        · exact ⟨_, List.mem_cons_self, hxc⟩
        · exact ⟨x, List.mem_cons_of_mem _ hx, hxc⟩
      · exact ⟨_, List.mem_cons_self, hch.trans h⟩
    · rcases h with ⟨x, hx, hxc⟩ | h
      · exact ⟨x, List.mem_cons_of_mem _ hx, hxc⟩
      · exact ⟨q, List.mem_cons_self, h⟩

theorem foldl_joinPiece_covers {qs ps : List Piece} {c : Nat} (h : Covers ps c ∨ Covers qs c) : Covers (qs.foldl joinPiece ps) c := by
  induction qs generalizing ps with
  | nil =>
    rcases h with h | ⟨p, hp, -⟩
    · exact h
    · cases hp
  | cons q qs ih =>
    refine ih ?_
    rcases h with h | ⟨p, hp, hpc⟩
    · exact .inl (joinPiece_covers (.inl h))
    · rcases List.mem_cons.1 hp with rfl | hp
      · exact .inl (joinPiece_covers (.inr hpc))
      · exact .inr ⟨p, hp, hpc⟩

/-- Whole sectors are all written: each has a piece in its channel (R46, R108). -/
theorem piecesOf_covers {secs : List SecRef} {x : SecRef} (data : List Sector) (hx : x ∈ secs) :
    Covers (piecesOf secs data (secs.map (fun _ => fullMask))) x.place.ch := by
  obtain ⟨i, hi, rfl⟩ := List.mem_iff_getElem.1 hx
  let piece : SecRef × Nat → Piece := fun e =>
    { idx := e.2, place := e.1.place, vault := e.1.vault, n := 1
      data := match data[e.2]? with | some d => [d] | none => []
      mask := match (secs.map (fun _ => fullMask))[e.2]? with | some m => [m] | none => [] }
  have hmask : ∀ e, (piece e).mask.all (fun m => m != 0) = true := by
    intro e
    show (match (secs.map (fun _ => fullMask))[e.2]? with | some m => [m] | none => []).all (fun m => m != 0) = true
    rw [List.getElem?_map]
    cases secs[e.2]? <;> simp [fullMask]
  have hmem : piece (secs[i], i) ∈ (secs.zipIdx.map piece).filter (fun p => p.mask.all (fun m => m != 0)) :=
    List.mem_filter.2 ⟨List.mem_map_of_mem (List.mem_zipIdx_iff_getElem?.2 (List.getElem?_eq_getElem hi)), hmask _⟩
  obtain ⟨p, hp, hpc⟩ := foldl_joinPiece_covers (ps := []) (.inr ⟨_, hmem, rfl⟩)
  exact ⟨p, List.mem_reverse.2 hp, hpc⟩

/-- A zero write of request id for a piece joins its requester queue (R88, Table 4-1). -/
def zeroWrite (id : Nat) (dl : Int) (t : State) (p : Piece) : State := enqueue t (newEntry t (.zero id) 19 .bl dl true false p)

theorem zeroWrites_traffic (id : Nat) (dl : Int) (ps : List Piece) (s : State) : StoreTraffic s (ps.foldl (zeroWrite id dl) s) [] :=
  .foldl _ _ (fun _ _ => .enqueue ..) s

/-- Each channel that a piece lies in has a zero write waiting. -/
theorem zeroWrites_wait {id : Nat} {dl : Int} {ps : List Piece} {c : Nat} (h : Covers ps c) (s : State) :
    ∃ q ∈ (chan (ps.foldl (zeroWrite id dl) s) c).rq, q.owner = .zero id ∧ q.write = true := by
  obtain ⟨p, hp, rfl⟩ := h
  induction ps generalizing s with
  | nil => cases hp
  | cons x ps ih =>
    rcases List.mem_cons.1 hp with rfl | hp
    · refine ⟨newEntry s (.zero id) 19 .bl dl true false p, (zeroWrites_traffic id dl ps _).queued _ _ ?_, rfl, rfl⟩
      unfold zeroWrite enqueue
      rw [show (newEntry s (.zero id) 19 .bl dl true false p).place = p.place from rfl, chan_modChan]
      exact List.mem_append_right _ List.mem_cons_self
    · exact ih _ hp

theorem zeroSectors_congr {s t : State} (hp : t.part = s.part) (hr : t.rgn = s.rgn) (e : BitVec 256) (lo hi : Nat) :
    zeroSectors t e lo hi = zeroSectors s e lo hi := by
  have hlg : lgChan t = lgChan s := by unfold lgChan; rw [hp]
  have hn : nChan t = nChan s := by unfold nChan; rw [hp]
  have hbytes : ∀ g, regionBytes t g = regionBytes s g := fun g => by unfold regionBytes; rw [hlg, hn]
  have hholds : ∀ g a n, Region.holds t g a n = Region.holds s g a n := fun g a n => by unfold Region.holds; rw [hbytes]
  have hregion : ∀ a n, regionOf t a n = regionOf s a n := fun a n => by simp only [regionOf, hholds, hr]
  have hplace : ∀ g a, placeIn t g a = placeIn s g a := fun g a => by simp only [placeIn, stripedPlace, hlg]
  simp only [zeroSectors, sectorsIn, hregion, hplace]

/-! ### HCMT, HRBK and HREL on their entries (R81, R82, R88) -/

section

variable {s : State} {r : Req}

theorem doHcmt_acts (hc : hdlCached s r.handle = true) (dl : Int) :
    ActsOn s (doHcmt s r dl) r.handle
      (if r.aux.getLsbD 24 then hSetTentative (hSetCommitted (hdlBytes s r.handle) (hcmtLen r (hdlBytes s r.handle)))
          (hcmtLen r (hdlBytes s r.handle))
        else hSetCommitted (hdlBytes s r.handle) (hcmtLen r (hdlBytes s r.handle))) [] :=
  .writeThrough hc _ _ _ _

theorem chan_doHcmt_other {c : Nat} (hc : c ≠ (hdlPlace s r.handle).ch) (dl : Int) : chan (doHcmt s r dl) c = chan s c :=
  chan_hdlWriteThrough_other _ _ _ _ _ _ hc

/-- The entry that a rollback leaves is written through, before anything is zeroed (R88). -/
def rolledBack (s : State) (r : Req) (dl : Int) : State :=
  hdlWriteThrough s r.handle r.port .rt dl (hSetTentative (hdlBytes s r.handle) (hCommitted (hdlBytes s r.handle)))

/-- The sectors that a rollback of a handle with ZERO zeroes (R88). -/
def rollbackSectors (s : State) (r : Req) (dl : Int) : List SecRef :=
  zeroSectors (rolledBack s r dl) (hdlBytes s r.handle) (hCommitted (hdlBytes s r.handle)) (hTentative (hdlBytes s r.handle))

theorem doHrbk_plain (hz : hZero (hdlBytes s r.handle) = false) (dl : Int) : doHrbk s r dl = rolledBack s r dl := by
  unfold doHrbk
  dsimp only
  rw [if_pos (by simp [hz])]
  rfl

/-- The zero writes follow the parity updates that they start (R88, R289). -/
theorem doHrbk_zeroing (hz : hZero (hdlBytes s r.handle) = true) (dl : Int) :
    ∃ t zdl, StoreTraffic (rolledBack s r dl) t [] ∧
      doHrbk s r dl = (piecesOf (rollbackSectors s r dl) ((rollbackSectors s r dl).map (fun _ => zeroSector))
        ((rollbackSectors s r dl).map (fun _ => fullMask))).foldl (zeroWrite r.id zdl) t := by
  refine ⟨vaultWrites (rolledBack s r dl) r .bl (synthDl (rolledBack s r dl) .bl)
    ((rollbackSectors s r dl).map (fun x => (x, zeroSector))), synthDl (rolledBack s r dl) .bl, .vaultWrites .., ?_⟩
  unfold doHrbk
  dsimp only
  rw [if_neg (by simp [hz])]
  rfl

theorem doHrbk_acts (hc : hdlCached s r.handle = true) (dl : Int) :
    ActsOn s (doHrbk s r dl) r.handle (hSetTentative (hdlBytes s r.handle) (hCommitted (hdlBytes s r.handle))) [] := by
  have hback : ActsOn s (rolledBack s r dl) r.handle _ [] := .writeThrough hc r.port .rt dl _
  cases hz : hZero (hdlBytes s r.handle) with
  | false =>
    rw [doHrbk_plain hz]
    exact hback
  | true =>
    obtain ⟨t, zdl, ht, he⟩ := doHrbk_zeroing hz dl
    rw [he]
    exact hback.andThen (ht.andThen (zeroWrites_traffic ..)) nofun

theorem chan_doHrbk_other (hz : hZero (hdlBytes s r.handle) = false) {c : Nat} (hc : c ≠ (hdlPlace s r.handle).ch) (dl : Int) :
    chan (doHrbk s r dl) c = chan s c := by
  rw [doHrbk_plain hz]
  exact chan_hdlWriteThrough_other _ _ _ _ _ _ hc

/-- Each sector between the committed and the tentative length has its zero write waiting in its channel (R88). -/
theorem doHrbk_zeroes (hz : hZero (hdlBytes s r.handle) = true) (dl : Int) :
    ∀ x ∈ zeroSectors s (hdlBytes s r.handle) (hCommitted (hdlBytes s r.handle)) (hTentative (hdlBytes s r.handle)),
      ∃ q ∈ (chan (doHrbk s r dl) x.place.ch).rq, q.owner = .zero r.id ∧ q.write = true := by
  intro x hx
  have hframe := (hdlWriteThrough_traffic s r.handle r.port .rt dl
    (hSetTentative (hdlBytes s r.handle) (hCommitted (hdlBytes s r.handle)))).frame
  have hsecs : x ∈ rollbackSectors s r dl := by
    unfold rollbackSectors rolledBack
    rwa [zeroSectors_congr (congrArg State.part hframe) (congrArg State.rgn hframe)]
  obtain ⟨t, zdl, -, he⟩ := doHrbk_zeroing hz dl
  rw [he]
  exact zeroWrites_wait (piecesOf_covers _ hsecs) t

end

section

variable {s : State} {h : Nat}

/-- The release of handle h frees its entry, and a parent whose entry can be read loses a child (R82, R88). -/
def LosesChild (s : State) (h : Nat) : Prop :=
  hChildren (hdlBytes s h) = 0 ∧ hChild (hdlBytes s h) = true ∧ hdlPoisoned s (hParent (hdlBytes s h)) = false

/-- A parent's entry with one child less; the last child's release frees a retained parent (R88). -/
def withoutChild (e : BitVec 256) : BitVec 256 :=
  if hChildren e - 1 = 0 ∧ hRetained e = true then hSetState (hSetChildren e (hChildren e - 1)) false false
  else hSetChildren e (hChildren e - 1)

/-- A release that tells no parent writes its entry alone. -/
theorem hdlRelease_alone (hp : hChild (hdlBytes s h) = true → hParent (hdlBytes s h) ≠ h) (hn : ¬ LosesChild s h) (pos : Nat)
    (cls : Cls) (dl : Int) :
    let t := hdlWriteThrough s h pos cls dl (hRelease (hdlBytes s h))
    StoreTraffic t (hdlRelease s h pos cls dl) [] ∧ (hdlRelease s h pos cls dl).chans = t.chans := by
  intro t
  have hcount : StoreTraffic t (validCount t (-1)) [] := .validCount ..
  have ht : StoreTraffic s (validCount t (-1)) [h] := (hdlWriteThrough_traffic ..).andThen hcount
  unfold hdlRelease
  dsimp only
  split
  · exact ⟨.refl t, rfl⟩
  · next hfree =>
    split
    · next hchild =>
      rw [if_pos]
      · exact ⟨hcount, rfl⟩
      · by_contra hpois
        refine hn ⟨not_not.1 hfree, hchild, ?_⟩
        rw [← ht.hdlPoisoned (by simpa using hp hchild)]
        simpa using hpois
    · exact ⟨hcount, rfl⟩

/-- A release that tells the parent writes the parent's entry after its own. -/
theorem hdlRelease_told (hp : hParent (hdlBytes s h) ≠ h) (hl : LosesChild s h) (pos : Nat) (cls : Cls) (dl : Int) :
    ∃ t, StoreTraffic (hdlWriteThrough s h pos cls dl (hRelease (hdlBytes s h))) t [] ∧
      StoreTraffic (hdlWriteThrough t (hParent (hdlBytes s h)) pos cls dl (withoutChild (hdlBytes s (hParent (hdlBytes s h)))))
        (hdlRelease s h pos cls dl) [] := by
  obtain ⟨hchildren, hchild, hpois⟩ := hl
  let t := validCount (hdlWriteThrough s h pos cls dl (hRelease (hdlBytes s h))) (-1)
  have ht : StoreTraffic s t [h] := (hdlWriteThrough_traffic ..).andThen (.validCount ..)
  have hbytes : hdlBytes t (hParent (hdlBytes s h)) = hdlBytes s (hParent (hdlBytes s h)) := ht.hdlBytes (by simpa using hp)
  refine ⟨t, .validCount .., ?_⟩
  unfold hdlRelease
  dsimp only
  rw [if_neg (not_not.2 hchildren), if_pos hchild,
    if_neg (by rw [show hdlPoisoned _ _ = _ from ht.hdlPoisoned (by simpa using hp)]; simp [hpois])]
  rw [show hdlBytes (validCount (hdlWriteThrough s h pos cls dl (hRelease (hdlBytes s h))) (-1)) (hParent (hdlBytes s h)) = _
    from hbytes]
  unfold withoutChild
  split
  · exact .validCount ..
  · exact .refl _

end

section

variable {s : State} {h : Nat}

theorem hdlRelease_alone_acts (hc : hdlCached s h = true) (hp : hChild (hdlBytes s h) = true → hParent (hdlBytes s h) ≠ h)
    (hn : ¬ LosesChild s h) (pos : Nat) (cls : Cls) (dl : Int) :
    ActsOn s (hdlRelease s h pos cls dl) h (hRelease (hdlBytes s h)) [] :=
  (ActsOn.writeThrough hc pos cls dl _).andThen (hdlRelease_alone hp hn pos cls dl).1 nofun

theorem chan_hdlRelease_other (hp : hChild (hdlBytes s h) = true → hParent (hdlBytes s h) ≠ h) (hn : ¬ LosesChild s h) {c : Nat}
    (hc : c ≠ (hdlPlace s h).ch) (pos : Nat) (cls : Cls) (dl : Int) : chan (hdlRelease s h pos cls dl) c = chan s c := by
  obtain ⟨-, hchans⟩ := hdlRelease_alone hp hn pos cls dl
  exact (congrArg (fun x => Tab.get x c Chan.reset) hchans).trans (chan_hdlWriteThrough_other _ _ _ _ _ _ hc)

theorem hdlRelease_told_acts (hc : hdlCached s h = true) (hp : hParent (hdlBytes s h) ≠ h) (hl : LosesChild s h)
    (hcp : hdlCached s (hParent (hdlBytes s h)) = true) (pos : Nat) (cls : Cls) (dl : Int) :
    ActsOn s (hdlRelease s h pos cls dl) h (hRelease (hdlBytes s h)) [hParent (hdlBytes s h)] ∧
      hdlBytes (hdlRelease s h pos cls dl) (hParent (hdlBytes s h)) = withoutChild (hdlBytes s (hParent (hdlBytes s h))) := by
  obtain ⟨t, ht, hrest⟩ := hdlRelease_told hp hl pos cls dl
  have hreleased : ActsOn s t h (hRelease (hdlBytes s h)) [] := (ActsOn.writeThrough hc pos cls dl _).andThen ht nofun
  have hcached : hdlCached t (hParent (hdlBytes s h)) = true := (hreleased.traffic.hdlCached (by simpa using hp)).trans hcp
  refine ⟨hreleased.andThen ((hdlWriteThrough_traffic ..).andThen hrest) (by simpa using hp.symm), ?_⟩
  exact (hrest.hdlBytes nofun).trans (hdlBytes_hdlWriteThrough _ _ _ _ _ _ hcached)

end

end Sys2Proof.Machine
end

section
/-! A handle command whose turn has come takes effect, and waits for its store writes (R53, R69, R81, R88). -/

namespace Sys2Proof.Machine

/-! ### A handle command on its turn (R53, R69, R88) -/

/-- A request that acts on the entry of its handle now, and waits for the store writes (R88). -/
def onTurn (s : State) (r q : Req) : Req :=
  { q with tAdmit := some s.time.cyc
           handles := BitVec.ofNat 16 r.handle ::
             (if r.opc = opHrel ∧ hChild (hdlBytes s r.handle) = true then [BitVec.ofNat 16 (hParent (hdlBytes s r.handle))] else []) }

/-- The state in which a handle command acts: it is admitted, and its header credit has returned (R36, R88). -/
def turnTaken (s : State) (r : Req) : State :=
  evPort (modPort (modReq s r.id (onTurn s r)) r.port (fun x => { x with hdrCredits := x.hdrCredits + 1 })) r.port 0x02 1 (some r.attr)

section

variable {s t : State} {r : Req} {b : BitVec 256} {hs : List Nat}

theorem turnTaken_booked (s : State) (r : Req) :
    Booked (modPort (modReq s r.id (onTurn s r)) r.port (fun x => { x with hdrCredits := x.hdrCredits + 1 })) (turnTaken s r) :=
  booked_countEv ..

theorem hdlGet_turnTaken (s : State) (r : Req) (h : Nat) : hdlGet (turnTaken s r) h = hdlGet s h := by
  rw [turnTaken_booked s r]
  rfl

theorem hdlBytes_turnTaken (s : State) (r : Req) (h : Nat) : hdlBytes (turnTaken s r) h = hdlBytes s h := by
  unfold hdlBytes
  rw [hdlGet_turnTaken]

theorem hdlCached_turnTaken (s : State) (r : Req) (h : Nat) : hdlCached (turnTaken s r) h = hdlCached s h := by
  unfold hdlCached
  rw [hdlGet_turnTaken]

theorem losesChild_turnTaken (s : State) (r : Req) (h : Nat) : LosesChild (turnTaken s r) h ↔ LosesChild s h := by
  unfold LosesChild hdlPoisoned
  rw [hdlBytes_turnTaken, hdlGet_turnTaken]

theorem chan_turnTaken (s : State) (r : Req) (c : Nat) : chan (turnTaken s r) c = chan s c := by
  rw [turnTaken_booked s r]
  rfl

theorem turnTaken_keeps (s : State) (r : Req) : (turnTaken s r).part = s.part ∧ (turnTaken s r).rgn = s.rgn ∧
    (turnTaken s r).stack = s.stack ∧ (turnTaken s r).pins = s.pins ∧ (turnTaken s r).reqs = (modReq s r.id (onTurn s r)).reqs := by
  rw [turnTaken_booked s r]
  exact ⟨rfl, rfl, rfl, rfl, rfl⟩

theorem turnTaken_credits (s : State) (r : Req) : (port (turnTaken s r) r.port).hdrCredits = (port s r.port).hdrCredits + 1 := by
  rw [port_booked (turnTaken_booked s r), port_modPort]
  rfl

/-- A command whose turn has come has its entry in the cache, and an HREL the parent's too (R80, R88). -/
theorem cached_of_handleTurn (h : handleTurn s r = true) : hdlCached s r.handle = true ∧
    (r.opc = opHrel → hChild (hdlBytes s r.handle) = true → hValid (hdlBytes s r.handle) = true →
      hdlCached s (hParent (hdlBytes s r.handle)) = true) := by
  simp only [handleTurn, Bool.and_eq_true] at h
  obtain ⟨⟨⟨⟨⟨⟨hcached, -⟩, -⟩, -⟩, -⟩, -⟩, hparent⟩ := h
  exact ⟨hcached, fun hop hchild hvalid => by simpa [hop, hchild, hvalid] using hparent⟩

/-- No handle command replies while each that acts has a store write waiting (R81, R88). -/
theorem handlesDone_waiting
    (h : ∀ q ∈ t.reqs, q.stage = .handle → q.tAdmit ≠ none → ∃ x ∈ q.handles, hdlWriting t x.toNat = true) :
    handlesDone t = t := by
  unfold handlesDone
  refine List.foldlRecOn (motive := fun u => u = t) _ _ rfl (fun u hu q hq => ?_)
  subst hu
  obtain ⟨hmem, hacts⟩ := List.mem_filter.1 hq
  obtain ⟨hstage, hadmit⟩ : q.stage = .handle ∧ q.tAdmit ≠ none := by
    simpa [Option.isSome_iff_ne_none] using hacts
  obtain ⟨x, hx, hw⟩ := h q hmem hstage hadmit
  have hall : q.handles.all (fun x => !hdlWriting u x.toNat) = false := List.all_eq_false.2 ⟨x, hx, by simp [hw]⟩
  simp [hall]

/-- Only the command on its turn acts, and it waits for the store write of its handle. -/
theorem ActsOn.handlesDone (a : ActsOn (turnTaken s r) t r.handle b hs) (hh : NoHandleWaits s) : handlesDone t = t := by
  refine handlesDone_waiting (fun q hq hstage hadmit => ?_)
  obtain ⟨q', hq', hst, had, hha⟩ := a.traffic.turns q hq
  obtain ⟨-, -, -, -, hreqs⟩ := turnTaken_keeps s r
  rw [hreqs] at hq'
  obtain ⟨q₀, hq₀, rfl⟩ := List.mem_map.1 hq'
  by_cases hid : q₀.id = r.id
  · rw [if_pos hid] at hha
    have hnat : (BitVec.ofNat 16 r.handle).toNat = r.handle := by rw [BitVec.toNat_ofNat, Nat.mod_eq_of_lt (handle_lt r)]
    refine ⟨BitVec.ofNat 16 r.handle, ?_, by rw [hnat]; exact a.writing⟩
    rw [hha]
    exact List.mem_cons_self
  · rw [if_neg hid] at hst had
    exact absurd (had.trans (hh q₀ hq₀ (hst.symm.trans hstage))) hadmit

/-- What a command on its turn leaves, and the credit that has returned. -/
theorem ActsOn.leaves (a : ActsOn (turnTaken s r) t r.handle b hs) :
    (∀ x, x ≠ r.handle → x ∉ hs → hdlGet t x = hdlGet s x) ∧ (port t r.port).hdrCredits = (port s r.port).hdrCredits + 1 ∧
      t.stack = s.stack ∧ t.pins = s.pins := by
  obtain ⟨-, -, hstack, hpins, -⟩ := turnTaken_keeps s r
  have hframe := a.traffic.frame
  refine ⟨fun x hx hxs => ?_, ?_, (congrArg State.stack hframe).trans hstack, (congrArg State.pins hframe).trans hpins⟩
  · exact (a.traffic.others x (by simp [hx, hxs])).trans (hdlGet_turnTaken s r x)
  · rw [← turnTaken_credits s r]
    exact congrArg (fun x => (Tab.get x r.port Port.reset).hdrCredits) ((congrArg State.ports hframe).trans rfl)

end

/-! ### The commands on their turn (R81, R88) -/

/-- A handle command whose turn has come, and which its checks let act (R53, R69, R88). -/
structure MayAct (s : State) (r : Req) : Prop where
  found : findReq s r.id = some r
  turn : handleTurn s r = true
  readable : hdlPoisoned s r.handle = false
  valid : hValid (hdlBytes s r.handle) = true
  bounds : hcmtOver r (hdlBytes s r.handle) = false
  tenant : r.h.priv ≠ 0#2 ∨ r.h.tenant = hTenant (hdlBytes s r.handle)

section

variable {s : State} {r : Req}

/-- The command of the opcode acts. -/
theorem MayAct.effect (m : MayAct s r) :
    handleEffect s r =
      if r.opc = opHcmt then doHcmt (turnTaken s r) (onTurn s r r) (r.storeDl s)
      else if r.opc = opHrbk then doHrbk (turnTaken s r) (onTurn s r r) (r.storeDl s)
      else hdlRelease (turnTaken s r) r.handle r.port .rt (r.storeDl s) := by
  have hfind : findReq (turnTaken s r) r.id = some (onTurn s r r) := by
    unfold findReq
    obtain ⟨-, -, -, -, hreqs⟩ := turnTaken_keeps s r
    rw [hreqs]
    exact find_modReq s r.id r (onTurn s r) (fun _ => rfl) m.found
  have htenant : ¬ ((r.h.priv == 0#2 && r.h.tenant != hTenant (hdlBytes s r.handle)) = true) := by
    rcases m.tenant with ht | ht <;> simp [ht]
  unfold handleEffect
  dsimp only
  rw [if_neg (by simp [m.readable, m.valid]), if_neg (by simp [m.bounds]), if_neg htenant]
  show (match findReq (turnTaken s r) r.id with | none => turnTaken s r | some q => _) = _
  rw [hfind]
  rfl

theorem MayAct.cached (m : MayAct s r) : hdlCached (turnTaken s r) r.handle = true :=
  (hdlCached_turnTaken s r _).trans (cached_of_handleTurn m.turn).1

theorem hdlPlace_turnTaken (s : State) (r : Req) (h : Nat) : hdlPlace (turnTaken s r) h = hdlPlace s h :=
  hdlPlace_of_part (turnTaken_keeps s r).1 h

theorem hcmt_acts (m : MayAct s r) (hop : r.opc = opHcmt) :
    ActsOn (turnTaken s r) (handleEffect s r) r.handle
        (if r.aux.getLsbD 24 then hSetTentative (hSetCommitted (hdlBytes s r.handle) (hcmtLen r (hdlBytes s r.handle)))
            (hcmtLen r (hdlBytes s r.handle))
          else hSetCommitted (hdlBytes s r.handle) (hcmtLen r (hdlBytes s r.handle))) [] ∧
      ∀ c, c ≠ (hdlPlace s r.handle).ch → chan (handleEffect s r) c = chan s c := by
  rw [m.effect, if_pos hop, ← hdlPlace_turnTaken s r, ← hdlBytes_turnTaken s r]
  refine ⟨doHcmt_acts (r := onTurn s r r) m.cached _, fun c hc => ?_⟩
  rw [chan_doHcmt_other (r := onTurn s r r) hc, chan_turnTaken]

theorem hrbk_acts (m : MayAct s r) (hop : r.opc = opHrbk) :
    ActsOn (turnTaken s r) (handleEffect s r) r.handle
        (hSetTentative (hdlBytes s r.handle) (hCommitted (hdlBytes s r.handle))) [] ∧
      (hZero (hdlBytes s r.handle) = false → ∀ c, c ≠ (hdlPlace s r.handle).ch → chan (handleEffect s r) c = chan s c) ∧
      (hZero (hdlBytes s r.handle) = true →
        ∀ x ∈ zeroSectors s (hdlBytes s r.handle) (hCommitted (hdlBytes s r.handle)) (hTentative (hdlBytes s r.handle)),
          ∃ q ∈ (chan (handleEffect s r) x.place.ch).rq, q.owner = .zero r.id ∧ q.write = true) := by
  obtain ⟨hpart, hrgn, -⟩ := turnTaken_keeps s r
  rw [m.effect, if_neg (by rw [hop]; decide), if_pos hop, ← hdlPlace_turnTaken s r, ← hdlBytes_turnTaken s r,
    ← zeroSectors_congr hpart hrgn]
  refine ⟨doHrbk_acts (r := onTurn s r r) m.cached _, fun hz c hc => ?_, fun hz => doHrbk_zeroes (r := onTurn s r r) hz _⟩
  rw [chan_doHrbk_other (r := onTurn s r r) hz hc, chan_turnTaken]

theorem MayAct.effect_hrel (m : MayAct s r) (hop : r.opc = opHrel) :
    handleEffect s r = hdlRelease (turnTaken s r) r.handle r.port .rt (r.storeDl s) := by
  rw [m.effect, if_neg (by rw [hop]; decide), if_neg (by rw [hop]; decide)]

theorem hrel_told_acts (m : MayAct s r) (hop : r.opc = opHrel)
    (hp : hChild (hdlBytes s r.handle) = true → hParent (hdlBytes s r.handle) ≠ r.handle) (hl : LosesChild s r.handle) :
    ActsOn (turnTaken s r) (handleEffect s r) r.handle (hRelease (hdlBytes s r.handle)) [hParent (hdlBytes s r.handle)] ∧
      hdlBytes (handleEffect s r) (hParent (hdlBytes s r.handle)) = withoutChild (hdlBytes s (hParent (hdlBytes s r.handle))) := by
  obtain ⟨-, hchild, -⟩ := id hl
  have hparent := (hdlCached_turnTaken s r _).trans ((cached_of_handleTurn m.turn).2 hop hchild m.valid)
  rw [← losesChild_turnTaken s r] at hl
  simp only [m.effect_hrel hop, ← hdlBytes_turnTaken s r] at hp hchild hparent ⊢
  exact hdlRelease_told_acts m.cached (hp hchild) hl hparent r.port .rt _

theorem hrel_alone_acts (m : MayAct s r) (hop : r.opc = opHrel)
    (hp : hChild (hdlBytes s r.handle) = true → hParent (hdlBytes s r.handle) ≠ r.handle) (hn : ¬ LosesChild s r.handle) :
    ActsOn (turnTaken s r) (handleEffect s r) r.handle (hRelease (hdlBytes s r.handle)) [] ∧
      ∀ c, c ≠ (hdlPlace s r.handle).ch → chan (handleEffect s r) c = chan s c := by
  rw [← hdlBytes_turnTaken s r] at hp
  rw [← losesChild_turnTaken s r] at hn
  rw [m.effect_hrel hop, ← hdlPlace_turnTaken s r, ← hdlBytes_turnTaken s r]
  refine ⟨hdlRelease_alone_acts m.cached hp hn _ _ _, fun c hc => ?_⟩
  rw [chan_hdlRelease_other hp hn hc, chan_turnTaken]

end

/-- The next state of a handle command whose turn has come: it waits for its store writes, and replies later (R81, R88). -/
theorem exec_handleCmdTakesEffect {s : State} {p : Fin 16} {src : BitVec 10} {tag : BitVec 12} {r : Req} {b : BitVec 256}
    {hs : List Nat} (h : findTag s p src tag (fun q => q.stage == .handle && q.tAdmit.isNone) = some r) (m : MayAct s r)
    (hh : NoHandleWaits s) (a : ActsOn (turnTaken s r) (handleEffect s r) r.handle b hs) :
    exec (.handleCmdTakesEffect p src tag) s = .next (handleEffect s r) := by
  simp only [exec, execHandleCmdTakesEffect, h, m.turn, if_true, a.handlesDone hh]

/-- Settles O23: the command acts on its entry, and on its parent's where it frees its handle; the store writes that wait keep it
from replying at once. -/
theorem handleCommandsTakeEffect : Obligations.HandleCommandsTakeEffect := by
  unfold Obligations.HandleCommandsTakeEffect
  intro s p src tag r e htag hfind hidle hturn he hpois hvalid hover htenant hop hparent
  subst he
  have m : MayAct s r := ⟨hfind, hturn, hpois, hvalid, hover, htenant⟩
  obtain ⟨-, hport, -⟩ := findTag_some htag
  obtain rfl : r.port = p := hport
  intro toParent par left
  rcases hop with hop | hop | hop
  · obtain ⟨a, hchan⟩ := hcmt_acts m hop
    obtain ⟨hothers, hcredits, hstack, hpins⟩ := a.leaves
    have hno : ¬ toParent := fun h => absurd (hop.symm.trans h.1) (by decide)
    refine ⟨_, exec_handleCmdTakesEffect htag m hidle a, ?_, fun h => absurd h hno, a.writing, fun x hx _ => hothers x hx nofun,
      hcredits, fun _ _ => hchan, fun h => absurd (hop.symm.trans h) (by decide), hstack, hpins⟩
    rw [if_pos hop]
    exact a.bytes
  · obtain ⟨a, hchan, hzero⟩ := hrbk_acts m hop
    obtain ⟨hothers, hcredits, hstack, hpins⟩ := a.leaves
    have hno : ¬ toParent := fun h => absurd (hop.symm.trans h.1) (by decide)
    refine ⟨_, exec_handleCmdTakesEffect htag m hidle a, ?_, fun h => absurd h hno, a.writing, fun x hx _ => hothers x hx nofun,
      hcredits, fun _ hz => hchan (hz hop), fun _ => hzero, hstack, hpins⟩
    rw [if_neg (by rw [hop]; decide), if_pos hop]
    exact a.bytes
  · have hcmt : r.opc ≠ opHcmt := by rw [hop]; decide
    have hrbk : r.opc ≠ opHrbk := by rw [hop]; decide
    rw [if_neg hcmt, if_neg hrbk]
    by_cases hl : LosesChild s r.handle
    · obtain ⟨a, hpar⟩ := hrel_told_acts m hop hparent hl
      obtain ⟨hothers, hcredits, hstack, hpins⟩ := a.leaves
      have htold : toParent := ⟨hop, hl⟩
      exact ⟨_, exec_handleCmdTakesEffect htag m hidle a, a.bytes, fun _ => hpar, a.writing,
        fun x hx hxp => hothers x hx (by simpa using hxp htold), hcredits, fun h => absurd htold h, fun h => absurd h hrbk, hstack, hpins⟩
    · obtain ⟨a, hchan⟩ := hrel_alone_acts m hop hparent hl
      obtain ⟨hothers, hcredits, hstack, hpins⟩ := a.leaves
      have hno : ¬ toParent := fun h => hl h.2
      exact ⟨_, exec_handleCmdTakesEffect htag m hidle a, a.bytes, fun h => absurd h hno, a.writing, fun x hx _ => hothers x hx nofun,
        hcredits, fun _ _ => hchan, fun h => absurd h hrbk, hstack, hpins⟩

end Sys2Proof.Machine
end

section
/-! Counters at their largest value, and the events by which commands, stops, health tests and memory tests end (R84, R376,
R391, R404, R411). -/

namespace Sys2Proof.Machine

/-! ### Counters at their largest value (R391) -/

/-- A bit of a stored word that has been set reads 1. -/
theorem regB_setRegF_one (s : State) (page off : Nat) {b : Nat} (hb : b < 32) : regB (setRegF s page off b 1 1) page off b = true := by
  rw [regB, setRegF, reg_setReg, putBits, BitVec.getLsbD_or, BitVec.getLsbD_ofNat]
  simp [hb]

/-- A cause that latches changes the words of UNIT_ATTN alone (R63). -/
theorem reg_latch_other (s : State) {page b q o : Nat} (h : regKey q o ≠ regKey page 0x010) : reg (latch s page b) q o = reg s q o := by
  have hset : reg (setRegF s page 0x010 b 1 1) q o = reg s q o := reg_setReg_other _ _ _ _ _ _ h
  unfold latch
  dsimp only
  split <;> exact hset

theorem counter_latch (s : State) (page b i : Nat) : counter (latch s page b) i = counter s i := by
  unfold latch
  dsimp only
  split <;> rfl

theorem counter_setOvf (s : State) (i j : Nat) : counter (setOvf s i) j = counter s j := by
  unfold setOvf
  dsimp only
  split
  · rw [counter_latch]
    rfl
  · rfl

/-- The OVF bits lie behind the word of UNIT_ATTN, which OVF latches in. -/
theorem setOvf_bit (s : State) (i : Nat) : regB (setOvf s i) pgPmu (0x0C0 + 4 * (i / 32)) (i % 32) = true := by
  have hset : regB (setRegF s pgPmu (0x0C0 + 4 * (i / 32)) (i % 32) 1 1) pgPmu (0x0C0 + 4 * (i / 32)) (i % 32) = true :=
    regB_setRegF_one s _ _ (Nat.mod_lt _ (by decide))
  unfold setOvf
  dsimp only
  split
  · rw [regB, reg_latch_other]
    · exact hset
    · unfold regKey
      omega
  · exact hset

theorem counter_setCounter (s : State) (i : Nat) (v : BitVec 48) : counter (setCounter s i v) i = v := Tab.get_put_self ..

/-- One increment of a counter at its largest value (R391). -/
theorem counterAddPlain_atMax {s : State} {i : Nat} (h : counter s i = BitVec.allOnes 48) :
    counterAddPlain s i 1 = setOvf (setCounter s i (if userGranted s i then BitVec.allOnes 48 else 0#48)) i := by
  unfold counterAddPlain
  dsimp only
  rw [h, if_neg (by decide)]
  split <;> rfl

/-- A counter that is not the low half of a chained pair is incremented on its own (R391). -/
theorem counterAdd_unchained {s : State} {i : Nat} (h : i % 2 = 1 ∨ chainedPair s (i / 2) = false) (n : Nat) :
    counterAdd s i n = counterAddPlain s i n := by
  unfold counterAdd
  rw [if_neg]
  rintro ⟨heven, hchain⟩
  rcases h with h | h
  · omega
  · simp [h] at hchain

theorem counterAtMax_overflows {s : State} {i : Fin 368} (he : counterExists s i = true) (hv : counter s i = BitVec.allOnes 48)
    (hc : i.val % 2 = 1 ∨ chainedPair s (i / 2) = false) :
    ∃ t, exec (.counterAtMax i) s = .next t ∧ counter t i = (if userGranted s i then BitVec.allOnes 48 else 0#48) ∧
      regB t pgPmu (0x0C0 + 4 * (i / 32)) (i % 32) = true ∧ Booked s t := by
  refine ⟨counterAdd s i 1, ?_, ?_, ?_, booked_counterAdd ..⟩
  · simp [exec, execCounterAtMax, he, hv]
  · rw [counterAdd_unchained hc, counterAddPlain_atMax hv, counter_setOvf, counter_setCounter]
  · rw [counterAdd_unchained hc, counterAddPlain_atMax hv]
    exact setOvf_bit ..

/-! ### HDL_OP (R84) -/

/-- A command of HDL_OP that has been judged and writes nothing is done (R84). -/
theorem hdlOpEnd_read {s : State} {o : HdlOp} (ho : s.hdl.op = some o) (hj : o.judged = true) (hc : o.cmd = 2) :
    hdlOpEnd s = latch { s with hdl := { s.hdl with op := none, result := o.result } } pgHdl 1 := by
  simp [hdlOpEnd, ho, hj, hc]

/-! ### Stops (R404) -/

theorem unitOf_octPage {s : State} {k : Nat} (hk : k < nOct s) : unitOf s (octPage k) = some (.oct, k) := by
  have hk8 : k < 8 := by
    unfold nOct nChan at hk
    split at hk <;> omega
  have hpage : pageUnit (octPage k) = some (.oct, k) := by
    unfold pageUnit octPage
    rw [if_neg (by omega), if_neg (by omega), if_neg (by omega), if_pos (by omega), Nat.add_sub_cancel_left]
  simp [unitOf, hpage, hk]

/-- An octant whose stop is requested, outside a recovery, stops as soon as nothing admitted uses it (R404). -/
theorem exec_unitStopped_oct {s : State} {k : Fin 8} (hk : k < nOct s) (hrun : (oct s k).run = .stopReq)
    (hrec : inRecovery s (.oct, k) = false) :
    exec (.unitStopped (BitVec.ofNat 8 (octPage k))) s =
      .next (if octIdle s k = true then modOct s k (fun o => { o with run := .stopped }) else s) := by
  have hpage : (BitVec.ofNat 8 (octPage k)).toNat = octPage k := by
    rw [BitVec.toNat_ofNat, octPage]
    omega
  show Host.Outcome.next (stopReached s (BitVec.ofNat 8 (octPage k)).toNat) = _
  rw [hpage, stopReached, unitOf_octPage hk]
  simp [hrun, hrec]

/-! ### Entropy (R411) -/

/-- A health test that has failed and been counted, before its cause latches (R411). -/
def healthFailed (s : State) (h : HealthTest) : State :=
  { bumpReg s pgSec 0x044 (match h with | .rct => 0 | .apt => 16) 16 1 with sec := { s.sec with health := false } }

theorem entropyHealthFail_latches (s : State) (h : HealthTest) :
    ∃ t, exec (.entropyHealthFail h) s = .next t ∧ t.sec = { s.sec with health := false } ∧
      (reg t pgSec 0x010).getLsbD 0 = true ∧ Booked { s with sec := t.sec } t := by
  have hlatch : Booked (healthFailed s h) (latch (healthFailed s h) pgSec 0) := booked_latch ..
  obtain ⟨-, -, -, -, -, -, -, -, -, -, -, -, -, -, -, -, -, -, -, -, -, -, hsec, -⟩ := hlatch.keeps
  refine ⟨latch (healthFailed s h) pgSec 0, rfl, hsec, latch_bit _ pgSec 0 (by decide), ?_⟩
  rw [hsec]
  exact Booked.trans (t := healthFailed s h) rfl hlatch

theorem entropyHealthRestored_idle {s : State} (h : s.sec.waits = []) :
    exec .entropyHealthRestored s = .next { s with sec := { s.sec with health := true } } := by
  show Host.Outcome.next (s.sec.waits.foldl nrfSeed { s with sec := { s.sec with health := true, waits := [] } }) = _
  rw [h, List.foldl_nil, ← h]

/-! ### The scratch test (R376) -/

/-- An octant whose scratch has been tested: the scratch reads zero, and an unrepairable one leaves it stopped (R376, Table 16-8). -/
def scratchZeroed (r : MbistEnd) (o : Oct) : Oct :=
  { o with scratch := [], lost := none, dead := o.dead || r == .fail, run := if r = .fail then .stopped else o.run }

/-- The scratch test at the head of HK's queue has ended, before it latches its cause (R376). -/
def scratchTested (s : State) (k : Nat) (rest : List Seq) (r : MbistEnd) (rows cols : Byte) : State :=
  { modOct s k (scratchZeroed r) with
    hk := { s.hk with waiting := rest }
    test := { s.test with mbistBusy := false, mbistResult := mbistCode r, mbistRows := rows, mbistCols := cols } }

theorem mbistDone_tested {s : State} {k : Nat} {rest : List Seq} (hc : s.hk.cur = none) (hw : s.hk.waiting = .mbist k :: rest)
    (r : MbistEnd) (rows cols : Byte) : mbistDone s r rows cols = latch (scratchTested s k rest r rows cols) pgTest 0 := by
  unfold mbistDone
  rw [hc, hw]
  rfl

theorem oct_scratchTested (s : State) (k : Nat) (rest : List Seq) (r : MbistEnd) (rows cols : Byte) :
    oct (scratchTested s k rest r rows cols) k = scratchZeroed r (oct s k) := oct_modOct s k (scratchZeroed r)

theorem mbistComplete_ends {s : State} {k : Nat} {rest : List Seq} (hc : s.hk.cur = none) (hw : s.hk.waiting = .mbist k :: rest)
    (r : MbistEnd) (rows cols : Byte) :
    ∃ t, exec (.mbistComplete r rows cols) s = .next t ∧ t.hk.waiting = rest ∧ t.test.mbistBusy = false ∧
      t.test.mbistResult = mbistCode r ∧ t.test.mbistRows = rows ∧ t.test.mbistCols = cols ∧ (oct t k).scratch = [] ∧
      (r = .fail → (oct t k).run = .stopped) ∧ (reg t pgTest 0x010).getLsbD 0 = true := by
  obtain ⟨-, -, -, -, -, -, -, -, -, -, -, -, -, hocts, -, -, hhk, -, -, -, -, htest, -⟩ :=
    (booked_latch (scratchTested s k rest r rows cols) pgTest 0).keeps
  have hoct : oct (latch (scratchTested s k rest r rows cols) pgTest 0) k = oct (scratchTested s k rest r rows cols) k :=
    congrArg (fun x => Tab.get x k Oct.reset) hocts
  refine ⟨_, congrArg Host.Outcome.next (mbistDone_tested hc hw r rows cols), by rw [hhk]; rfl, by rw [htest]; rfl, by rw [htest]; rfl,
    by rw [htest]; rfl, by rw [htest]; rfl, ?_, fun hr => ?_, latch_bit _ _ 0 (by decide)⟩
  · rw [hoct, oct_scratchTested]
    rfl
  · rw [hoct, oct_scratchTested]
    exact if_pos hr

/-- Settles O59: each event's condition leaves one branch of its meaning. -/
theorem countersCommandsAndTestsEnd : Obligations.CountersCommandsAndTestsEnd := by
  unfold Obligations.CountersCommandsAndTestsEnd
  refine ⟨fun s i _ hv => ?_, fun s i he hv hc => counterAtMax_overflows he hv hc, fun s o ho hj => ?_, fun s o ho hj hc => ?_,
    fun s k hk hrun hrec => ⟨fun hidle => ?_, fun hbusy => ?_⟩, entropyHealthFail_latches,
    fun s hw => ⟨_, entropyHealthRestored_idle hw, rfl⟩, fun s r rows cols k rest hc hw => mbistComplete_ends hc hw r rows cols⟩
  · have hne : (counter s i == BitVec.allOnes 48) = false := beq_eq_false_iff_ne.2 hv
    simp only [exec, execCounterAtMax, hne, Bool.and_false, Bool.false_eq_true, if_false]
  · simp [exec, execHdlOpDone, hdlOpEnd, ho, hj]
  · have hlatch := booked_latch { s with hdl := { s.hdl with op := none, result := o.result } } pgHdl 1
    obtain ⟨-, -, -, -, -, -, -, -, -, hhdl, -⟩ := hlatch.keeps
    refine ⟨_, congrArg Host.Outcome.next (hdlOpEnd_read ho hj hc), hhdl, latch_bit _ _ 1 (by decide), ?_⟩
    rw [hhdl]
    exact hlatch
  · rw [exec_unitStopped_oct hk hrun hrec, if_pos hidle]
    exact ⟨_, rfl, oct_modOct .., rfl⟩
  · rw [exec_unitStopped_oct hk hrun hrec, if_neg (by simp [hbusy])]

end Sys2Proof.Machine
end

section
/-! Events that stay within one channel: what they leave alone, and what bank halves and refresh accounts read after they
are replaced. -/

namespace Sys2Proof.Machine

/-! ### The frame of a channel's event -/

theorem chan_of_booked {s t : State} (h : Booked s t) (c : Nat) : chan t c = chan s c := by
  obtain ⟨-, -, -, -, -, -, -, -, -, -, -, hchans, -⟩ := h.keeps
  exact congrArg (fun x => Tab.get x c Chan.reset) hchans

@[simp] theorem chan_evCh (s : State) (i code n : Nat) (a : Option Attr) (c : Nat) : chan (evCh s i code n a) c = chan s c :=
  chan_of_booked (booked_countEv ..) c

namespace ChanOnly

variable {s t u : State} {c : Nat}

theorem refl (s : State) (c : Nat) : ChanOnly s s c := ⟨rfl, fun _ _ => rfl⟩

theorem of_booked (h : Booked s t) (c : Nat) : ChanOnly s t c := by
  have hchans : { s with chans := t.chans } = s := by rw [show t = _ from h]
  exact ⟨by rwa [hchans], fun d _ => chan_of_booked h d⟩

theorem trans (h : ChanOnly s t c) (g : ChanOnly t u c) : ChanOnly s u c := by
  obtain ⟨ht, hts⟩ := h
  obtain ⟨hu, hus⟩ := g
  refine ⟨?_, fun d hd => (hus d hd).trans (hts d hd)⟩
  unfold Booked at ht hu ⊢
  rw [hu, ht]

theorem modChan (s : State) (c : Nat) (f : Chan → Chan) : ChanOnly s (modChan s c f) c :=
  ⟨rfl, fun d hd => chan_modChan_other s c d f hd⟩

theorem setChan (s : State) (c : Nat) (x : Chan) : ChanOnly s (setChan s c x) c :=
  ⟨rfl, fun d hd => chan_setChan_other s c d x hd⟩

/-- An event of one channel takes no time and moves no window. -/
theorem times (h : ChanOnly s t c) : t.time = s.time ∧ t.winStart = s.winStart ∧ t.hk = s.hk := by
  obtain ⟨ht, -⟩ := h
  rw [show t = _ from ht]
  exact ⟨rfl, rfl, rfl⟩

end ChanOnly

/-! ### Bank halves and refresh accounts of a channel -/

@[simp] theorem half_setHalf (x : Chan) (b h : Nat) (y : Half) : (x.setHalf b h y).half b h = y := Tab.get_put_self ..

theorem half_setHalf_other (x : Chan) {b h b' h' : Nat} (y : Half) (hk : halfKey b' h' ≠ halfKey b h) :
    (x.setHalf b h y).half b' h' = x.half b' h' := Tab.get_put_other _ _ _ _ _ hk

@[simp] theorem half_setHalf_zero_of_one (x : Chan) (b : Nat) (y : Half) : (x.setHalf b 1 y).half b 0 = x.half b 0 :=
  half_setHalf_other x y (by simp [halfKey])

@[simp] theorem half_setHalf_one_of_zero (x : Chan) (b : Nat) (y : Half) : (x.setHalf b 0 y).half b 1 = x.half b 1 :=
  half_setHalf_other x y (by simp [halfKey])

@[simp] theorem half_both_zero (x : Chan) (b : Nat) (f : Half → Half) : (x.both b f).half b 0 = f (x.half b 0) := by
  simp [Chan.both]

@[simp] theorem half_both_one (x : Chan) (b : Nat) (f : Half → Half) : (x.both b f).half b 1 = f (x.half b 1) := by
  simp [Chan.both]

@[simp] theorem bank_setBank (x : Chan) (b : Nat) (k : Bank) : (x.setBank b k).bank b = k := Tab.get_put_self ..

@[simp] theorem bank_both (x : Chan) (b : Nat) (f : Half → Half) (i : Nat) : (x.both b f).bank i = x.bank i := rfl

end Sys2Proof.Machine
end

section
/-! A bank half's timed state reaches its exit, and a refresh of a bank falls due (R99, R100, R111, R257, Table 5-1). -/

namespace Sys2Proof.Machine

/-! ### Timed states (R111, Table 5-1) -/

/-- A timed state moves on at its exit and not before. -/
theorem halfExpiry_eq (now : Nat) (h : Half) :
    halfExpiry now h = if now < h.exit then h
      else { h with st := match h.st with
        | .activating => .open_ | .precharging => .idle | .refreshing => .idle | x => x } := by
  obtain ⟨st, _⟩ := h
  unfold halfExpiry
  cases st <;> rfl

theorem exec_bankHalfTimingExpiry {s : State} {c : Fin 64} (hc : c < nChan s) (b : Fin 16) (h : Fin 2) :
    exec (.bankHalfTimingExpiry c b h) s =
      .next (modChan s c (fun x => x.setHalf b h (halfExpiry s.time.cyc (x.half b h)))) := by
  show onChan s c (fun s => modChan s c (fun x => x.setHalf b h (halfExpiry s.time.cyc (x.half b h)))) = _
  exact onChan_ready hc _

theorem bankHalfTimingExpiry_moves {s : State} {c : Fin 64} (hc : c < nChan s) (b : Fin 16) (h : Fin 2) :
    ∃ t, exec (.bankHalfTimingExpiry c b h) s = .next t ∧
      (chan t c).half b h = halfExpiry s.time.cyc ((chan s c).half b h) ∧
      (∀ b' h', halfKey b' h' ≠ halfKey b h → (chan t c).half b' h' = (chan s c).half b' h') ∧ ChanOnly s t c := by
  refine ⟨_, exec_bankHalfTimingExpiry hc b h, ?_, fun b' h' hk => ?_, .modChan s c _⟩
  · rw [chan_modChan, half_setHalf]
  · rw [chan_modChan, half_setHalf_other _ _ hk]

/-! ### Refreshes that fall due (R100, R257) -/

/-- A revoked bank holds no grant of the command queue (R100). -/
theorem revoke_grants (x : Chan) (b : Nat) : ∀ e ∈ (revoke x b).cmdq, e.onArray = true → e.place.bank = b → e.granted = false := by
  intro e he harr hbank
  obtain ⟨q, -, rfl⟩ := List.mem_map.1 he
  by_cases hit : (q.onArray && q.place.bank == b && q.granted) = true
  · rw [if_pos hit]
  · rw [if_neg hit] at harr hbank ⊢
    simpa [harr, hbank] using hit

section
variable (s : State) (c b : Nat)

/-- The account of a bank with its next due time: a change of the refresh rate counts from the due time that passes (R257). -/
def dueMoved : Bank :=
  let k := (chan s c).bank b
  if k.x2 = s.thm.x2 then { k with due := k.due + 1 }
  else { k with x2 := s.thm.x2, t0 := nextDue s k b - b * refWindow s.thm.x2 / (2 * rowsPerBank s), due := 1 }

theorem dueMoved_times : (dueMoved s c b).x2 = s.thm.x2 ∧
    (dueMoved s c b).due = if ((chan s c).bank b).x2 = s.thm.x2 then ((chan s c).bank b).due + 1 else 1 := by
  unfold dueMoved
  by_cases hx : ((chan s c).bank b).x2 = s.thm.x2
  · simp [hx]
  · simp [hx]

theorem dueMoved_account : (dueMoved s c b).debt = ((chan s c).bank b).debt ∧
    (dueMoved s c b).owed = ((chan s c).bank b).owed ∧ (dueMoved s c b).gauntlet = ((chan s c).bank b).gauntlet := by
  unfold dueMoved
  dsimp only
  split <;> exact ⟨rfl, rfl, rfl⟩

/-- A Gauntlet or an owed refresh of bank b, whose account is now k, takes back the bank's grants and is counted (R100). -/
def gauntletTaken (k : Bank) : State :=
  evCh (bumpReg (setChan s c (revoke { (chan s c).setBank b k with gauntletSeq := (chan s c).gauntletSeq + 1 } b))
    (chPage c) 0x064 16 16 1) c 0x0C 1 none

/-- The state after a due time of bank b whose account, with its next due time, is k (R100, R257). -/
def dueSettled (k : Bank) : State :=
  if 8 ≤ k.debt then gauntletTaken s c b { k with owed := k.owed + 1 }
  else if k.debt = 7 then gauntletTaken s c b { k with debt := 8, gauntlet := true, gauntletSeq := (chan s c).gauntletSeq }
  else setChan s c ((chan s c).setBank b { k with debt := k.debt + 1 })

theorem refreshDue_eq : refreshDue s c b = dueSettled s c b (dueMoved s c b) := by
  unfold refreshDue dueSettled
  extract_lets x k0 at_ k owes k' arises k'' x' s'
  rw [show dueMoved s c b = k from rfl]
  by_cases h8 : 8 ≤ k.debt
  · simp only [s', x', k'', arises, k', owes, h8, decide_true, Bool.true_or, if_true]
    rfl
  by_cases h7 : k.debt = 7
  · simp [s', x', k'', arises, k', owes, h7]
    rfl
  · have hne : ¬ k.debt + 1 = 8 := by omega
    simp [arises, k', owes, h8, h7, hne]
    rfl

variable (k : Bank)

theorem chan_gauntletTaken : chan (gauntletTaken s c b k) c =
    revoke { (chan s c).setBank b k with gauntletSeq := (chan s c).gauntletSeq + 1 } b := by
  rw [gauntletTaken, chan_evCh, chan_bumpReg, chan_setChan]

theorem bank_gauntletTaken : (chan (gauntletTaken s c b k) c).bank b = k := by
  rw [chan_gauntletTaken]
  exact bank_setBank (chan s c) b k

theorem gauntletTaken_grants : ∀ e ∈ (chan (gauntletTaken s c b k) c).cmdq,
    e.onArray = true → e.place.bank = b → e.granted = false := by
  rw [chan_gauntletTaken]
  exact revoke_grants _ b

theorem gauntletTaken_chanOnly : ChanOnly s (gauntletTaken s c b k) c :=
  (ChanOnly.setChan s c _).trans (.of_booked ((booked_bumpReg ..).trans (booked_countEv ..)) c)

theorem dueSettled_chanOnly : ChanOnly s (dueSettled s c b k) c := by
  unfold dueSettled
  split
  · exact gauntletTaken_chanOnly ..
  split
  · exact gauntletTaken_chanOnly ..
  · exact .setChan ..

/-- The account of a bank whose due time has passed (R100, R257). -/
theorem bank_dueSettled : (chan (dueSettled s c b k) c).bank b =
    if 8 ≤ k.debt then { k with owed := k.owed + 1 }
    else if k.debt = 7 then { k with debt := 8, gauntlet := true, gauntletSeq := (chan s c).gauntletSeq }
    else { k with debt := k.debt + 1 } := by
  unfold dueSettled
  split
  · exact bank_gauntletTaken ..
  split
  · exact bank_gauntletTaken ..
  · rw [chan_setChan, bank_setBank]

/-- A debt below 7 takes back no grant (R257). -/
theorem cmdq_dueSettled (h : k.debt < 7) : (chan (dueSettled s c b k) c).cmdq = (chan s c).cmdq := by
  rw [dueSettled, if_neg (by omega), if_neg (by omega), chan_setChan]
  rfl

/-- At a debt of 8 the Gauntlet takes back the bank's grants (R100). -/
theorem dueSettled_grants (h : k.debt = 7) : ∀ e ∈ (chan (dueSettled s c b k) c).cmdq,
    e.onArray = true → e.place.bank = b → e.granted = false := by
  rw [dueSettled, if_neg (by omega), if_pos h]
  exact gauntletTaken_grants s c b _

end

section
variable {s : State} {c : Fin 64} (hc : c < nChan s) {b : Fin 16}
include hc

theorem exec_refreshDue : exec (.refreshDue c b) s =
    .next (if refreshRuns s c && decide (nextDue s ((chan s c).bank b) b ≤ s.time.tick) then refreshDue s c b else s) := by
  show onChan s c (fun s => if refreshRuns s c && decide (nextDue s ((chan s c).bank b) b ≤ s.time.tick) then refreshDue s c b else s) = _
  exact onChan_ready hc _

theorem refreshDue_early (h : s.time.tick < nextDue s ((chan s c).bank b) b) : exec (.refreshDue c b) s = .next s := by
  simp [exec_refreshDue hc, Nat.not_le.2 h]

theorem refreshDue_due (hruns : refreshRuns s c = true) (h : nextDue s ((chan s c).bank b) b ≤ s.time.tick) :
    exec (.refreshDue c b) s = .next (dueSettled s c b (dueMoved s c b)) := by
  simp [exec_refreshDue hc, hruns, h, refreshDue_eq]

end

/-- Settles O27: the next state of each event is written out, and its account read case by case of the debt. -/
theorem banksMoveOnAndFallDue : Obligations.BanksMoveOnAndFallDue := by
  unfold Obligations.BanksMoveOnAndFallDue
  refine ⟨fun s c b h hc => ?_, fun s c b hc hruns => ⟨refreshDue_early hc, fun hdue => ?_⟩⟩
  · obtain ⟨t, hexec, hhalf, hothers, honly⟩ := bankHalfTimingExpiry_moves hc b h
    exact ⟨t, hexec, hhalf.trans (halfExpiry_eq ..), hothers, honly⟩
  · obtain ⟨hx2, hnext⟩ := dueMoved_times s c b
    obtain ⟨hdebt, howed, hgauntlet⟩ := dueMoved_account s c b
    refine ⟨_, refreshDue_due hc hruns hdue, ?_, ?_, fun h => ⟨?_, ?_, ?_⟩, fun h => ⟨?_, ?_, ?_⟩, fun h => ⟨?_, ?_⟩,
      dueSettled_chanOnly ..⟩
    · rw [bank_dueSettled]
      split_ifs <;> exact hx2
    · rw [bank_dueSettled, ← hnext]
      split_ifs <;> rfl
    · rw [bank_dueSettled, if_neg (by omega), if_neg (by omega)]
      exact congrArg (· + 1) hdebt
    · exact cmdq_dueSettled _ _ _ _ (by omega)
    · rw [bank_dueSettled, if_neg (by omega), if_neg (by omega)]
      exact hgauntlet
    · rw [bank_dueSettled, if_neg (by omega), if_pos (by omega)]
    · rw [bank_dueSettled, if_neg (by omega), if_pos (by omega)]
    · exact dueSettled_grants _ _ _ _ (by omega)
    · rw [bank_dueSettled, if_pos (by omega)]
      exact hdebt
    · rw [bank_dueSettled, if_pos (by omega)]
      exact congrArg (· + 1) howed

end Sys2Proof.Machine
end

section
/-! The scheduler's row commands: each is put on free row wires, after changes of its own channel alone (R100-R102, R112,
R177, R209, R258, R263). -/

namespace Sys2Proof.Machine

/-! ### A row command on free wires (R209) -/

/-- Before its row command goes out, an event has changed channel c alone, and not its row wires. -/
structure WiresWait (s u : State) (c : Nat) : Prop where
  only : ChanOnly s u c
  rowOut : (chan u c).rowOut = (chan s c).rowOut
  lastRow : (chan u c).lastRow = (chan s c).lastRow

@[simp] theorem half_sendRow (u : State) (c : Nat) (i : Instr) (b h : Nat) :
    (chan (sendRow u c i) c).half b h = (chan u c).half b h := by
  unfold sendRow sendRowFrom
  rw [chan_modChan]
  rfl

@[simp] theorem bank_sendRow (u : State) (c : Nat) (i : Instr) (b : Nat) :
    (chan (sendRow u c i) c).bank b = (chan u c).bank b := by
  unfold sendRow sendRowFrom
  rw [chan_modChan]
  rfl

@[simp] theorem half_noteAct (s : State) (c a b h : Nat) : (chan (noteAct s c a) c).half b h = (chan s c).half b h := by
  rw [noteAct, chan_modChan]
  rfl

@[simp] theorem half_spend (s : State) (c w b h : Nat) : (chan (spend s c w) c).half b h = (chan s c).half b h := by
  rw [spend, chan_modChan]
  rfl

@[simp] theorem half_progressed (s : State) (c b h : Nat) : (chan (progressed s c) c).half b h = (chan s c).half b h := by
  rw [progressed, chan_modChan]
  rfl

@[simp] theorem bank_noteAct (s : State) (c a b : Nat) : (chan (noteAct s c a) c).bank b = (chan s c).bank b := by
  rw [noteAct, chan_modChan]
  rfl

@[simp] theorem bank_spend (s : State) (c w b : Nat) : (chan (spend s c w) c).bank b = (chan s c).bank b := by
  rw [spend, chan_modChan]
  rfl

@[simp] theorem bank_progressed (s : State) (c b : Nat) : (chan (progressed s c) c).bank b = (chan s c).bank b := by
  rw [progressed, chan_modChan]
  rfl

namespace WiresWait

variable {s u v : State} {c : Nat}

theorem trans (h : WiresWait s u c) (g : WiresWait u v c) : WiresWait s v c :=
  ⟨h.only.trans g.only, g.rowOut.trans h.rowOut, g.lastRow.trans h.lastRow⟩

theorem modChan (s : State) (c : Nat) (f : Chan → Chan) (hout : (f (chan s c)).rowOut = (chan s c).rowOut)
    (hlast : (f (chan s c)).lastRow = (chan s c).lastRow) : WiresWait s (modChan s c f) c :=
  ⟨.modChan s c f, by rw [chan_modChan]; exact hout, by rw [chan_modChan]; exact hlast⟩

theorem setChan (s : State) (c : Nat) {x : Chan} (hout : x.rowOut = (chan s c).rowOut) (hlast : x.lastRow = (chan s c).lastRow) :
    WiresWait s (setChan s c x) c :=
  ⟨.setChan s c x, by rw [chan_setChan]; exact hout, by rw [chan_setChan]; exact hlast⟩

theorem of_booked (h : Booked s u) (c : Nat) : WiresWait s u c := by
  refine ⟨.of_booked h c, ?_, ?_⟩ <;> rw [chan_of_booked h]

theorem evCh (s : State) (c code n : Nat) (a : Option Attr) : WiresWait s (evCh s c code n a) c :=
  of_booked (booked_countEv ..) c

theorem spend (s : State) (c w : Nat) : WiresWait s (spend s c w) c := modChan s c _ rfl rfl
theorem noteAct (s : State) (c b : Nat) : WiresWait s (noteAct s c b) c := modChan s c _ rfl rfl
theorem progressed (s : State) (c : Nat) : WiresWait s (progressed s c) c := modChan s c _ rfl rfl

/-- The next free slot of the row wires is the one that was free before. -/
theorem rowSlotFrom (h : WiresWait s u c) (t : Nat) : rowSlotFrom u c t = rowSlotFrom s c t := by
  obtain ⟨-, hwin, hhk⟩ := h.only.times
  have hlen : slotLen u = slotLen s := by unfold slotLen; rw [hhk]
  unfold Machine.rowSlotFrom
  rw [h.lastRow, hlen, hwin]

/-- On free row wires the command goes out in this cycle (R209). -/
theorem sends (h : WiresWait s u c) (hfree : rowFree s c = true) (i : Instr) : SendsRow s (sendRow u c i) c i := by
  obtain ⟨htime, -⟩ := h.only.times
  have hslot : Machine.rowSlotFrom u c u.time.cyc = s.time.cyc := by
    rw [htime, h.rowSlotFrom]
    exact beq_iff_eq.1 hfree
  refine ⟨?_, ?_, h.only.trans (.modChan ..)⟩
  · rw [sendRow, sendRowFrom, hslot, chan_modChan, h.rowOut]
  · rw [sendRow, sendRowFrom, hslot, chan_modChan]

end WiresWait

/-! ### What each row command does to its channel -/

theorem chanFin_val (c : Fin 64) : chanFin c = c := Fin.ext (Nat.mod_eq_of_lt c.isLt)
theorem bankFin_val (b : Fin 16) : bankFin b = b := Fin.ext (Nat.mod_eq_of_lt b.isLt)

section
variable {s : State} {c : Fin 64} (hfree : rowFree s c = true)
include hfree

theorem issueSlp_sends (ctx b : Nat) : SendsRow s (issueSlp s c ctx b) c (.slp ⟨c, 0⟩ (bitFin ctx) (bankFin b)) := by
  unfold issueSlp
  rw [chanFin_val]
  refine (WiresWait.modChan s c _ ?_ ?_).sends hfree _
  all_goals
    dsimp only
    split <;> rfl

theorem issueRef_sends (b : Nat) : SendsRow s (issueRef s c b) c (.ref ⟨c, 0⟩ (bankFin b)) := by
  unfold issueRef
  rw [chanFin_val]
  exact ((((WiresWait.modChan s c _ rfl rfl).trans (.noteAct ..)).trans (.spend ..)).trans
    ((WiresWait.evCh ..).trans (.progressed ..))).sends hfree _

theorem issueNrf_sends (q : NrfReq) : SendsRow s (issueNrf s c q) c
    (.nrf ⟨c, 0⟩ (bankFin q.bank) (BitVec.ofNat 17 q.row) q.spare (nrfRad2 s c)) := by
  unfold issueNrf
  rw [chanFin_val]
  exact ((((WiresWait.modChan s c _ rfl rfl).trans (.noteAct ..)).trans (.spend ..)).trans
    (((WiresWait.of_booked (booked_bumpReg ..) _).trans (.evCh ..)).trans (.progressed ..))).sends hfree _

theorem issuePre_sends (b : Nat) (hs : List Nat) : SendsRow s (issuePre s c b hs) c
    (.pre ⟨c, 0⟩ (bankFin b) (bitFin (hs.headD 0)) (decide (1 < hs.length))) := by
  unfold issuePre
  rw [chanFin_val]
  refine ((WiresWait.modChan s c _ ?_ ?_).trans (.evCh ..)).sends hfree _
  · exact List.foldlRecOn (motive := fun (y : Chan) => y.rowOut = (chan s c).rowOut) hs _ rfl (fun _ hy _ _ => hy)
  · exact List.foldlRecOn (motive := fun (y : Chan) => y.lastRow = (chan s c).lastRow) hs _ rfl (fun _ hy _ _ => hy)

/-- Where both halves of a bank close, one command closes them (R212). -/
theorem closeHalves_sends (b h : Nat) (rest : List (Nat × Nat)) : SendsRow s (closeHalves s c b h rest) c
    (.pre ⟨c, 0⟩ (bankFin b) (bitFin h) (rest.contains (b, 1) && h == 0)) := by
  unfold closeHalves
  by_cases hboth : (rest.contains (b, 1) && h == 0) = true
  · obtain rfl : h = 0 := beq_iff_eq.1 (Bool.and_eq_true_iff.1 hboth).2
    rw [if_pos hboth, hboth]
    exact issuePre_sends hfree b [0, 1]
  · rw [if_neg hboth, Bool.eq_false_iff.2 hboth]
    exact issuePre_sends hfree b [h]

theorem issueAct_sends (b h : Nat) (e : Entry) : SendsRow s (issueAct s c b h e) c
    (.act ⟨c, 0⟩ (bankFin b) (BitVec.ofNat 17 (entryRow s (chan s c) e).1) (entryRow s (chan s c) e).2) := by
  unfold issueAct
  rw [chanFin_val]
  dsimp only
  refine ((((WiresWait.setChan s c ?_ ?_).trans (.noteAct ..)).trans (.spend ..)).trans (.evCh ..)).sends hfree _
  · rfl
  · rfl

end

section
variable (s : State) (c : Nat)

theorem issueRef_refreshes (b : Nat) :
    ((chan (issueRef s c b) c).half b 0).st = .refreshing ∧ ((chan (issueRef s c b) c).half b 1).st = .refreshing := by
  simp [issueRef]

theorem issueRef_gauntlet {b : Nat} (hg : ((chan s c).bank b).gauntlet = true) :
    ((chan (issueRef s c b) c).bank b).gauntlet = false := by
  simp [issueRef, hg]

theorem issuePre_one (b h : Nat) : ((chan (issuePre s c b [h]) c).half b h).st = .precharging := by
  simp [issuePre]

theorem issuePre_both (b : Nat) : ((chan (issuePre s c b [0, 1]) c).half b 0).st = .precharging ∧
    ((chan (issuePre s c b [0, 1]) c).half b 1).st = .precharging := by
  simp [issuePre]

theorem closeHalves_closes (b h : Nat) (rest : List (Nat × Nat)) :
    ((chan (closeHalves s c b h rest) c).half b h).st = .precharging ∧
    (rest.contains (b, 1) = true → h = 0 → ((chan (closeHalves s c b h rest) c).half b 1).st = .precharging) := by
  unfold closeHalves
  by_cases hboth : (rest.contains (b, 1) && h == 0) = true
  · obtain rfl : h = 0 := beq_iff_eq.1 (Bool.and_eq_true_iff.1 hboth).2
    rw [if_pos hboth]
    exact ⟨(issuePre_both s c b).1, fun _ _ => (issuePre_both s c b).2⟩
  · rw [if_neg hboth]
    exact ⟨issuePre_one s c b h, fun hrest hh => absurd (by rw [hrest, hh]; rfl) hboth⟩

/-- A bank half in which the ACT of an entry's row goes out (R112, Table 5-1). -/
def activatedFor (e : Entry) : Half :=
  { st := .activating, row := (entryRow s (chan s c) e).1, spare := (entryRow s (chan s c) e).2, exit := s.time.cyc + (tim s c).rcd
    tAct := some s.time.cyc, tRd := none, tWr := none }

theorem issueAct_activates (b h : Nat) (e : Entry) : (chan (issueAct s c b h e) c).half b h = activatedFor s c e := by
  unfold issueAct
  dsimp only
  rw [half_sendRow, chan_evCh, half_spend, half_noteAct, chan_setChan]
  exact half_setHalf (chan s c) b h _

end

theorem bestBy_mem {α : Type} {lt : α → α → Bool} {l : List α} {x : α} (h : bestBy lt l = some x) : x ∈ l := by
  cases l with
  | nil => cases h
  | cons a l =>
    obtain rfl := Option.some.inj h
    refine List.foldlRecOn (motive := fun y => y ∈ a :: l) l _ List.mem_cons_self (fun y hy z hz => ?_)
    split
    · exact List.mem_cons_of_mem a hz
    · exact hy

theorem firstGauntlet_gauntlet {x : Chan} {b : Nat} (h : firstGauntlet x = some b) : (x.bank b).gauntlet = true :=
  (List.mem_filter.1 (bestBy_mem h)).2

/-! ### The choice of a command slot (R100-R102, R112, R258, R263) -/

section
variable {s : State} {c : Nat}

/-- Without service or free row wires a slot carries nothing. -/
theorem commandSlot_idle (h : inService s c = false ∨ rowFree s c = false) : commandSlot s c = s := by
  rcases h with h | h <;> simp [commandSlot, h]

variable (hin : inService s c = true) (hfree : rowFree s c = true)
include hin hfree

theorem commandSlot_gauntlet {t : State} (hg : gauntletSlot s c (chan s c) = some t) : commandSlot s c = t := by
  simp [commandSlot, hin, hfree, hg]

theorem commandSlot_slp {x b : Nat} (hh : (chan s c).halted = false) (hp : pauseWanted s (chan s c) = some (x, b)) :
    commandSlot s c = issueSlp s c x b :=
  commandSlot_gauntlet hin hfree (by simp [gauntletSlot, hh, hp])

section
variable (hno : (chan s c).halted = true ∨ pauseWanted s (chan s c) = none)
include hno

theorem commandSlot_gauntletRef {b : Nat} (hb : firstGauntlet (chan s c) = some b) (hm : refMay s c (chan s c) b = true) :
    commandSlot s c = issueRef s c b :=
  commandSlot_gauntlet hin hfree (by rcases hno with h | h <;> simp [gauntletSlot, h, hb, Option.filter_some_pos hm])

theorem commandSlot_gauntletPre {b h : Nat} {rest : List (Nat × Nat)}
    (hb : (firstGauntlet (chan s c)).filter (refMay s c (chan s c)) = none)
    (hcl : (closable s c (chan s c)).filter (fun x => ((chan s c).bank x.1).gauntlet) = (b, h) :: rest) :
    commandSlot s c = closeHalves s c b h rest :=
  commandSlot_gauntlet hin hfree (by rcases hno with hn | hn <;> simp [gauntletSlot, hn, hb, hcl])

end

section
variable (hg : gauntletSlot s c (chan s c) = none)
include hg

theorem commandSlot_nrf {q : NrfReq} (hq : nrfReady s c (chan s c) = some q) : commandSlot s c = issueNrf s c q := by
  simp [commandSlot, hin, hfree, hg, hq]

variable (hq : nrfReady s c (chan s c) = none)
include hq

theorem commandSlot_ref {b : Nat} (hb : refBest s c (chan s c) = some b) : commandSlot s c = issueRef s c b := by
  simp [commandSlot, hin, hfree, hg, hq, hb]

variable (hb : refBest s c (chan s c) = none)
include hb

/-- A recovery that sends nothing again keeps the banks as they are (R217). -/
theorem commandSlot_held (hh : (chan s c).halted = true) (hr : (chan s c).replayq = []) (hd : draining s = false) :
    commandSlot s c = s := by
  simp [commandSlot, hin, hfree, hg, hq, hb, hh, hr, hd]

variable (hgo : (chan s c).halted = false ∨ (chan s c).replayq ≠ [] ∨ draining s = true)
include hgo

theorem commandSlot_pre {b h : Nat} {rest : List (Nat × Nat)} (hcl : closable s c (chan s c) = (b, h) :: rest) :
    commandSlot s c = closeHalves s c b h rest := by
  rcases hgo with h | h | h <;> simp [commandSlot, hin, hfree, hg, hq, hb, hcl, h]

variable (hcl : closable s c (chan s c) = [])
include hcl

theorem commandSlot_act {b h : Nat} {e : Entry}
    (he : bestBy (fun (x y : Nat × Nat × Entry) => Key.before (chan s c).rot x.2.2.key y.2.2.key) (openable s c (chan s c)) =
      some (b, h, e)) : commandSlot s c = issueAct s c b h e := by
  rcases hgo with h | h | h <;> simp [commandSlot, hin, hfree, hg, hq, hb, hcl, h, he]

theorem commandSlot_none
    (he : bestBy (fun (x y : Nat × Nat × Entry) => Key.before (chan s c).rot x.2.2.key y.2.2.key) (openable s c (chan s c)) = none) :
    commandSlot s c = s := by
  rcases hgo with h | h | h <;> simp [commandSlot, hin, hfree, hg, hq, hb, hcl, h, he]

end

end

/-! ### A paused slice goes on (R101, R177) -/

/-- Bank b may be given back to its slice: its refreshes are done, both halves are idle, and the row wires are free. -/
structure MayResume (s : State) (c b : Nat) : Prop where
  drained : draining s = false
  gauntlet : ((chan s c).bank b).gauntlet = false
  owed : ((chan s c).bank b).owed = 0
  neighbours : nrfOn (chan s c) b = false
  idle0 : ((chan s c).half b 0).idleAt s.time.cyc = true
  idle1 : ((chan s c).half b 1).idleAt s.time.cyc = true
  free : rowFree s c = true
  inService : inService s c = true

section
variable {s : State} {c : Fin 64} {b : Fin 16} {ctx : Nat} {x : Slice} (hp : pausedOn (chan s c) b = some (ctx, x))
include hp

theorem resumeSlice_waits (h : draining s = true ∨ ((chan s c).bank b).gauntlet = true ∨ 0 < ((chan s c).bank b).owed) :
    resumeSlice s c b = s := by
  unfold resumeSlice
  dsimp only
  rw [hp]
  dsimp only
  rw [if_pos]
  rcases h with h | h | h <;> simp [h]

/-- SLR goes out once both halves are reserved for the slice again (R101, R177). -/
theorem resumeSlice_sends (m : MayResume s c b) :
    SendsRow s (resumeSlice s c b) c (.slr ⟨c, 0⟩ (bitFin ctx) b) ∧
    ((chan (resumeSlice s c b) c).half b 0).st = .reserved ∧ ((chan (resumeSlice s c b) c).half b 1).st = .reserved := by
  obtain ⟨hd, hg, ho, hn, h0, h1, hfree, hin⟩ := m
  unfold resumeSlice
  dsimp only
  rw [hp]
  dsimp only
  rw [if_neg (by simp [hd, hg, ho, hn, h0, h1, hfree, hin]), chanFin_val, bankFin_val]
  refine ⟨(WiresWait.setChan s c ?_ ?_).sends hfree _, ?_, ?_⟩
  · rfl
  · rfl
  · simp
  · simp

end

/-! ### The settled statement -/

theorem exec_schedCommandSlot {s : State} {c : Fin 64} (hc : c < nChan s) :
    exec (.schedCommandSlot c) s = .next (commandSlot s c) := by
  show onChan s c (fun s => commandSlot s c) = _
  exact onChan_ready hc _

theorem exec_sliceResume {s : State} {c : Fin 64} (hc : c < nChan s) (b : Fin 16) :
    exec (.sliceResume c b) s = .next (resumeSlice s c b) := by
  show onChan s c (fun s => resumeSlice s c b) = _
  exact onChan_ready hc _

/-- Settles O28: the branch that each condition leaves of the command slot, with the row command it sends. -/
theorem theSchedulerSendsRowCommands : Obligations.TheSchedulerSendsRowCommands := by
  unfold Obligations.TheSchedulerSendsRowCommands
  refine ⟨fun s c hc => ?_, fun s c b ctx x hc hp => ?_⟩
  · rw [exec_schedCommandSlot hc]
    refine ⟨fun h => congrArg _ (commandSlot_idle h), fun hin hfree => ⟨fun ctx b hh hw => ?_, fun hno => ⟨fun b hb hm => ?_,
      fun b h rest hb hcl => ?_⟩, fun hg => ⟨fun q hq => ?_, fun b hq hb => ?_, fun hq hb => ⟨fun hh hr hd => ?_, fun hgo =>
      ⟨fun b h rest hcl => ?_, fun hcl => ⟨fun he => ?_, fun b h e he => ?_⟩⟩⟩⟩⟩⟩
    · rw [commandSlot_slp hin hfree hh hw]
      exact ⟨_, rfl, issueSlp_sends hfree ctx b⟩
    · obtain ⟨h0, h1⟩ := issueRef_refreshes s c b
      rw [commandSlot_gauntletRef hin hfree hno hb hm]
      exact ⟨_, rfl, issueRef_sends hfree b, issueRef_gauntlet s c (firstGauntlet_gauntlet hb), h0, h1⟩
    · rw [commandSlot_gauntletPre hin hfree hno hb hcl]
      exact ⟨_, rfl, closeHalves_sends hfree b h rest, (closeHalves_closes s c b h rest).1⟩
    · rw [commandSlot_nrf hin hfree hg hq]
      exact ⟨_, rfl, issueNrf_sends hfree q⟩
    · rw [commandSlot_ref hin hfree hg hq hb]
      exact ⟨_, rfl, issueRef_sends hfree b, issueRef_refreshes s c b⟩
    · rw [commandSlot_held hin hfree hg hq hb hh hr hd]
    · rw [commandSlot_pre hin hfree hg hq hb hgo hcl]
      exact ⟨_, rfl, closeHalves_sends hfree b h rest, closeHalves_closes s c b h rest⟩
    · rw [commandSlot_none hin hfree hg hq hb hgo hcl he]
    · have hhalf := issueAct_activates s c b h e
      rw [commandSlot_act hin hfree hg hq hb hgo hcl he]
      exact ⟨_, rfl, issueAct_sends hfree b h e, by rw [hhalf]; rfl, by rw [hhalf]; rfl, by rw [hhalf]; rfl⟩
  · rw [exec_sliceResume hc]
    exact ⟨fun h => congrArg _ (resumeSlice_waits hp h), fun hd hg ho hn h0 h1 hfree hin =>
      ⟨_, rfl, resumeSlice_sends hp ⟨hd, hg, ho, hn, h0, h1, hfree, hin⟩⟩⟩

end Sys2Proof.Machine
end

section
/-! The gate's decision in a state that holds a counter which no PMU has (R99, R114, R391). -/

namespace Sys2Proof.Machine

/-! ### A slot decided after a counter has overwritten CH_SCHED_CFG (R113, R114) -/

/-- The number of a counter that no PMU has (Table 15-1 ends at 367), but that a state's table of configuration words may
hold. The PMU_OVF word that the model computes for it, at 0x0C0 + 4 × 55264 of page 10, is stored where SLACK and BATCH_MAX
of channel 0 are, at 0x040 of page 64. -/
def strayBatchCounter : Nat := 1768448

/-- A queued access of one sector of the open row 3 of bank 0, exempt from the power budget. -/
def openRowAccess (seq col : Nat) (write : Bool) : Entry :=
  { seq := seq, owner := .port 0 0, pos := 0, cls := .bl, dl := 500, joined := 0, place := { ch := 0, bank := 0, row := 3, col := col }
    n := 1, write := write, data := [], vault := none, mask := [], done := 0, overlays := [], newer := [], exempt := true
    granted := false, tJoin := 0, tGrant := 0, hitCls := 0, spare := none }

/-- Channel 0 in the read direction after one batched read, with a read and a write of its open row waiting. -/
def batchedChan : Chan :=
  { Chan.reset with
    halves := [(0, { Half.reset with st := .open_, row := 3 })], batch := 1
    cmdq := [openRowAccess 0 1 false, openRowAccess 1 2 true] }

/-- The last cycle of a slot, with the stray counter, full, counting the entries of the channels' queues (code 0x12). -/
def strayBatchState : State :=
  { State.reset with
    clk := { Clk.reset with coreRun := true }
    blk := { Blk.reset with st := .ready }
    time := { Time.reset with cyc := 1001 }
    chans := [(0, batchedChan)]
    pmu := { State.reset.pmu with cfg := [(strayBatchCounter, 0x9012#17)], cnt := [(strayBatchCounter, 0xFFFFFFFFFFFF#48)] } }

/-- The slot is to be decided. -/
theorem strayBatchState_decides : inService strayBatchState 0 = true ∧ lastCycle strayBatchState = true ∧
    (chan strayBatchState 0).slotIdx ≠ slotNow strayBatchState + 1 := by decide +kernel

/-- The read wins: its direction has the slot, and BATCH_MAX has its reset value. -/
theorem strayBatchState_winner :
    gateWinner strayBatchState 0 (chan strayBatchState 0) (offered strayBatchState 0) = some (openRowAccess 0 1 false) ∧
    turnOk strayBatchState (chan strayBatchState 0) (tim strayBatchState 0) false = true := by decide +kernel

/-- The counter's overflow has cleared BATCH_MAX, and the write has the slot. -/
theorem strayBatchState_grantsTheWrite :
    (chan (decideSlot strayBatchState 0) 0).cmdq = [openRowAccess 0 1 false, { openRowAccess 1 2 true with granted := true }] := by
  decide +kernel

/-- Refutes O25: a state may hold a counter numbered past the PMU's last one, which the gate's own event of the slot makes
overflow; its overflow bit overwrites BATCH_MAX before the gate compares directions, so that the slot goes to the write and
not to the read that ranks best. -/
theorem not_theGateGrantsASlot : ¬ Obligations.TheGateGrantsASlot := by
  unfold Obligations.TheGateGrantsASlot
  intro h
  obtain ⟨hin, hlast, hidx⟩ := strayBatchState_decides
  obtain ⟨hwin, hturn⟩ := strayBatchState_winner
  obtain ⟨-, hdecides⟩ := h strayBatchState 0 (by decide)
  obtain ⟨hgrants, -⟩ := hdecides hin hlast hidx
  obtain ⟨t, hexec, -, hcmdq, -⟩ := hgrants (openRowAccess 0 1 false) rfl rfl hwin hturn
  obtain rfl : decideSlot strayBatchState 0 = t := Host.Outcome.next.inj hexec
  have hread : [{ openRowAccess 0 1 false with granted := true }, openRowAccess 1 2 true] =
      [openRowAccess 0 1 false, { openRowAccess 1 2 true with granted := true }] := hcmdq.symm.trans strayBatchState_grantsTheWrite
  exact absurd hread (by decide)

end Sys2Proof.Machine
end

section
/-! Slot 0 of a window: what it renews in every channel, and the committed settings that take effect (R96, R97, R104, R245,
R311, R405). -/

namespace Sys2Proof.Machine

/-! ### Committed gate settings (R104) -/

/-- Without settings, or before their time, the arbiter stays as it is. -/
theorem applyArb_waits {s : State} (h : ∀ a, s.arb.next = some a → s.time.cyc < s.arb.notBefore) : applyArb s = s := by
  unfold applyArb
  cases hn : s.arb.next with
  | none => rfl
  | some a => exact if_pos (h a hn)

/-- Committed settings whose time has come are the current ones; no CFG_WR that waits replies. -/
theorem applyArb_takes {s : State} (hw : s.arb.waiter = none) {a : ArbSet} (ha : s.arb.next = some a)
    (ht : s.arb.notBefore ≤ s.time.cyc) :
    Booked { s with arb := { s.arb with cur := a, next := none, waiter := none } } (applyArb s) := by
  unfold applyArb
  rw [ha]
  dsimp only
  rw [if_neg (Nat.not_lt.2 ht), hw]
  exact .refl _

/-- A window's start that no CFG_WR waits for changes the arbiter, and books. -/
theorem applyArb_frame {s : State} (hw : s.arb.waiter = none) : Booked { s with arb := (applyArb s).arb } (applyArb s) := by
  by_cases h : ∃ a, s.arb.next = some a ∧ s.arb.notBefore ≤ s.time.cyc
  · obtain ⟨a, ha, ht⟩ := h
    have hb := applyArb_takes hw ha ht
    obtain ⟨-, -, -, -, -, -, -, -, -, -, harb, -⟩ := hb.keeps
    rwa [harb]
  · push Not at h
    rw [applyArb_waits h]
    exact .refl s

/-! ### The channels at slot 0 (R97, R245, R311) -/

/-- The part of a window's start in channel c, with energy budget e. -/
def windowRenew (e : Int) (t : State) (c : Nat) : State := calReads (modChan t c (windowChan (slotNow t) e)) c

theorem windowRenew_frame (e : Int) (t : State) (c : Nat) : windowRenew e t c = { t with chans := (windowRenew e t c).chans } := by
  unfold windowRenew calReads
  dsimp only
  split <;> rfl

/-- What slot 0 of a window makes of a channel: from x to y, with slot n decided or not and energy budget e (R97, R311). -/
structure WindowRenewed (n : Nat) (e : Int) (x y : Chan) : Prop where
  credit : y.credit = min (x.credit + e) e
  readBursts : y.readBursts = 0
  counts : y.counts = if x.slotIdx = n then x.counts else Counts.zero
  cmdq : y.cmdq = x.cmdq

theorem windowRenew_renews (e : Int) (t : State) (c : Nat) :
    WindowRenewed (slotNow t) e (chan t c) (chan (windowRenew e t c) c) := by
  unfold windowRenew calReads
  dsimp only
  rw [chan_modChan]
  split
  · unfold enqueue
    constructor <;> simp [newEntry, onePiece, windowChan]
  · constructor <;> simp [windowChan]

theorem calReads_chanOnly (s : State) (c : Nat) : ChanOnly s (calReads s c) c := by
  unfold calReads
  dsimp only
  refine ChanOnly.trans ?_ (.modChan ..)
  split
  · exact .modChan ..
  · exact .refl ..

theorem windowRenew_other (e : Int) (t : State) {c d : Nat} (h : d ≠ c) : chan (windowRenew e t c) d = chan t d :=
  ((ChanOnly.modChan t c _).trans (calReads_chanOnly ..)).2 d h

/-- The first n channels are renewed, and the others and the rest of the machine are as before. -/
theorem windowRenew_channels (e : Int) (s : State) (n : Nat) :
    forN n (windowRenew e) s = { s with chans := (forN n (windowRenew e) s).chans } ∧
    (∀ c < n, WindowRenewed (slotNow s) e (chan s c) (chan (forN n (windowRenew e) s) c)) ∧
    ∀ c, n ≤ c → chan (forN n (windowRenew e) s) c = chan s c := by
  induction n with
  | zero => exact ⟨rfl, fun c hc => absurd hc (Nat.not_lt_zero c), fun _ _ => rfl⟩
  | succ n ih =>
    obtain ⟨hframe, hdone, hrest⟩ := ih
    have hstep : forN (n + 1) (windowRenew e) s = windowRenew e (forN n (windowRenew e) s) n := by
      simp only [forN, List.range_succ, List.foldl_append, List.foldl_cons, List.foldl_nil]
    have hslot : slotNow (forN n (windowRenew e) s) = slotNow s := by rw [hframe]; rfl
    rw [hstep]
    generalize forN n (windowRenew e) s = t at hframe hdone hrest hslot ⊢
    refine ⟨?_, fun c hc => ?_, fun c hc => ?_⟩
    · rw [windowRenew_frame, hframe]
    · rcases Nat.lt_succ_iff_lt_or_eq.1 hc with hlt | rfl
      · rw [windowRenew_other e t hlt.ne]
        exact hdone c hlt
      · rw [← hslot, ← hrest c le_rfl]
        exact windowRenew_renews e t c
    · rw [windowRenew_other e t (Nat.lt_of_succ_le hc).ne']
      exact hrest c (Nat.le_of_succ_le hc)

/-! ### The settled statement -/

/-- A committed scrambler setting takes effect (R405). -/
def scramblerTaken (x : Ecc) : Ecc :=
  match x.scrNext with
  | some b => { x with scrNow := b, scrNext := none }
  | none => x

/-- The state in which the channels of a new window are renewed: committed settings are in effect (R104, R405). -/
def windowSettings (s : State) : State := { applyArb s with ecc := scramblerTaken (applyArb s).ecc }

/-- At slot 0 committed settings take effect, and then every channel is renewed. -/
theorem exec_windowStart_slot0 {s : State} (hs : s.winStart ≤ s.time.cyc) (hw : (s.time.cyc - s.winStart) % winLen s = 0) :
    exec .windowStart s = .next (forN (nChan (windowSettings s)) (windowRenew (energyBudget (windowSettings s))) (windowSettings s)) := by
  show execWindowStart s = _
  unfold execWindowStart windowSettings scramblerTaken
  rw [if_neg (by simp [Nat.not_lt.2 hs, hw])]
  dsimp only
  cases (applyArb s).ecc.scrNext <;> rfl

/-- Settles O26: the settings first, then an induction over the channels. -/
theorem windowsStartAfresh : Obligations.WindowsStartAfresh := by
  unfold Obligations.WindowsStartAfresh
  intro s hs hw hwaiter
  obtain ⟨-, -, -, -, -, -, -, -, -, -, -, -, -, -, -, -, -, hecc, -, -, -, -, -, hstack, -⟩ := (applyArb_frame hwaiter).keeps
  obtain ⟨hframe, hdone, -⟩ := windowRenew_channels (energyBudget (windowSettings s)) (windowSettings s) (nChan (windowSettings s))
  refine ⟨_, exec_windowStart_slot0 hs hw, fun hnone => ?_, fun a ha ht => ?_, ?_, ?_⟩
  · have hsame : applyArb s = s := applyArb_waits (by simp [hnone])
    have hset : windowSettings s = { s with ecc := scramblerTaken s.ecc } := by rw [windowSettings, hsame]
    rw [hset] at hframe hdone ⊢
    refine ⟨by rw [hframe], fun c hc => ?_⟩
    obtain ⟨hcredit, hreads, hcounts, hcmdq⟩ := hdone c hc
    exact ⟨hcredit, hreads, hcounts, hcmdq⟩
  · obtain ⟨-, -, -, -, -, -, -, -, -, -, htaken, -⟩ := (applyArb_takes hwaiter ha ht).keeps
    have harb : (windowSettings s).arb = (applyArb s).arb := rfl
    rw [hframe]
    dsimp only
    rw [harb, htaken]
    exact ⟨rfl, rfl⟩
  · rw [hframe]
    exact congrArg scramblerTaken hecc
  · rw [hframe]
    exact hstack

end Sys2Proof.Machine
end

section
/-! A read leaves its requester queue and joins the command queue (R91, R115). -/

namespace Sys2Proof.Machine

/-! ### Reads that nothing newer serves (R115, R121) -/

/-- What has nothing to forward for a place has nothing either once some Liner entries are out of sight. -/
theorem forwardFor_of_liner_subset {x : Chan} {l : List Liner} {p : Place} {i n : Nat} (h : forwardFor x p i n = [])
    (hl : l ⊆ x.liner) : forwardFor { x with liner := l } p i n = [] := by
  obtain ⟨hwrites, hliners⟩ := List.append_eq_nil_iff.1 h
  refine List.append_eq_nil_iff.2 ⟨hwrites, List.map_eq_nil_iff.2 (List.filter_eq_nil_iff.2 fun y hy => ?_)⟩
  exact List.filter_eq_nil_iff.1 (List.map_eq_nil_iff.1 hliners) y (hl hy)

/-- A read takes nothing by forwarding where nothing newer waits for its sectors (R115, R121). -/
theorem overlaysOf_eq_nil {x : Chan} {e : Entry} (h : ∀ i n, i < e.n → forwardFor x (e.at i) i n = []) : overlaysOf x e = [] := by
  unfold overlaysOf
  by_cases hraw : e.owner.rawRead = true
  · exact if_pos hraw
  rw [if_neg hraw]
  refine List.flatMap_eq_nil_iff.2 fun i hi => ?_
  have hforward := h i e.seq (List.mem_range.1 hi)
  cases e.owner with
  | evict n => exact forwardFor_of_liner_subset hforward (List.filter_subset_self _)
  | recon c b r => exact forwardFor_of_liner_subset hforward (List.nil_subset _)
  | _ => exact hforward

theorem servedAt_of_no_overlays {e : Entry} (h : e.overlays = []) (i : Nat) : servedAt e i = none := by
  simp [servedAt, Entry.whole, h]

/-- A read that takes nothing by forwarding has its first sector to transfer. -/
theorem next_of_no_overlays {e : Entry} (hw : e.write = false) (hn : 0 < e.n) (hd : e.done = 0) (ho : e.overlays = []) :
    e.next ≠ none := by
  intro hnone
  have hzero := List.find?_eq_none.1 hnone 0 (List.mem_range.2 hn)
  simp [hd, Entry.needs, hw, ho] at hzero

theorem mem_intoQueue {e q : Entry} {l : List Entry} (h : q ∈ intoQueue e l) : q = e ∨ q ∈ l := by
  induction l with
  | nil => exact .inl (List.mem_singleton.1 h)
  | cons a l ih =>
    unfold intoQueue at h
    split at h
    · exact List.mem_cons.1 h
    · rcases List.mem_cons.1 h with rfl | h
      · exact .inr List.mem_cons_self
      · exact (ih h).imp_right (List.mem_cons_of_mem a)

/-! ### The join of a read -/

/-- An event that does not happen is not counted. -/
theorem evCh_none (s : State) (c code : Nat) (a : Option Attr) : evCh s c code 0 a = s := by
  simp [evCh, countEv]

/-- A read as it waits in the command queue: it notes the newer writes of its sectors and its row's state (R110, R117). -/
def waitingRead (s : State) (e : Entry) : Entry :=
  if e.onArray then
    let x := chan s e.place.ch
    { e with newer := (List.range e.n).filter (fun i => newerWrite x (e.at i)), overlays := [], hitCls := hitClass s x e }
  else e

/-- The command queue with a read that has joined (R91). -/
def withRead (s : State) (e : Entry) (l : List Entry) : List Entry :=
  if e.onArray then intoQueue (waitingRead s e) l else l ++ [waitingRead s e]

theorem waitingRead_same (s : State) (e : Entry) : (waitingRead s e).tJoin = e.tJoin ∧
    ∀ n t, { waitingRead s e with seq := n, tJoin := t, overlays := e.overlays, hitCls := e.hitCls, newer := e.newer } =
      { e with seq := n, tJoin := t } := by
  unfold waitingRead
  split <;> exact ⟨rfl, fun _ _ => rfl⟩

/-- A read of an unfenced row that nothing newer serves waits in the command queue (R91, R115). -/
theorem joinRead_waits {s : State} {e : Entry} (hw : e.write = false) (hn : 0 < e.n) (hd : e.done = 0)
    (hf : fenced s e.place = false)
    (hb : e.owner = .writeBack → (chan s e.place.ch).wbs.any (fun w => w.place == e.place) = true)
    (hfwd : ∀ i n, i < e.n → forwardFor (chan s e.place.ch) (e.at i) i n = [])
    (hq : ∀ q ∈ (chan s e.place.ch).cmdq, q.next ≠ none) :
    joinRead s e = modChan s e.place.ch (fun x => { x with cmdq := withRead s e x.cmdq }) := by
  unfold joinRead withRead waitingRead
  dsimp only
  by_cases ha : e.onArray = true
  · have hback : (e.owner == .writeBack && !(chan s e.place.ch).wbs.any (fun w => w.place == e.place)) = false := by
      by_cases ho : e.owner = .writeBack
      · simp [hb ho]
      · simp [ho]
    have hov : overlaysOf (chan s e.place.ch) { e with
        newer := (List.range e.n).filter (fun i => newerWrite (chan s e.place.ch) (e.at i)) } = [] := overlaysOf_eq_nil hfwd
    have hserved : ∀ (q : Entry), q.overlays = [] → (List.range e.n).filter (fun i => (servedAt q i).isSome) = [] := fun q ho =>
      List.filter_eq_nil_iff.2 fun i _ => by simp [servedAt_of_no_overlays ho]
    simp only [ha, hf, hback, hov, Bool.not_true, Bool.false_eq_true, if_false, if_true]
    rw [hserved _ rfl, List.length_nil, evCh_none]
    refine flushServed_idle fun q hmem => ?_
    rw [chan_modChan] at hmem
    rcases mem_intoQueue hmem with rfl | hmem
    · exact next_of_no_overlays hw hn hd rfl
    · exact hq q hmem
  · simp [ha]

/-! ### Handle entries that nothing waits for (R80, R82) -/

/-- Nothing waits for a handle's entry, none is poisoned, and the cache is not over its size. -/
def HandlesRest (s : State) : Prop :=
  (∀ id, NoneHeld s id) ∧ s.hdl.cache.length ≤ 4096 ∧ ∀ x ∈ s.hdl.cache, x.2.bad = false

theorem hdlWake_idle {s : State} {e : Entry} (h : ∀ n, e.owner = .hdl n → HandlesRest s) : hdlWake s e = s := by
  unfold hdlWake
  cases ho : e.owner with
  | hdl n =>
    obtain ⟨hheld, hsize, hgood⟩ := h n ho
    have hop := (hheld 0).1
    have hstages : ∀ r ∈ s.reqs, r.stage ≠ .hold2 ∧ r.stage ≠ .fetch ∧ r.stage ≠ .hold4 := fun r hr =>
      (hheld (r.id + 1)).2 r hr (Nat.succ_ne_self r.id).symm
    have hnone : s.hdl.cache.filter (fun x => x.2.bad) = [] := List.filter_eq_nil_iff.2 fun x hx => by simp [hgood x hx]
    have hsettled : settleBad s = s := by rw [settleBad, hnone]; rfl
    dsimp only
    rw [hdlOpRun_idle s hop, pumpAll_idle s hop hstages, hsettled]
    exact if_pos hsize
  | _ => rfl

/-! ### The settled statement -/

/-- The state in which a head that joins has left its requester queue, with the channel's next serial number (R91). -/
def leftQueue (s : State) (c : Nat) (e : Entry) : State :=
  setChan s c { chan s c with rq := (chan s c).rq.erase e, serial := (chan s c).serial + 1 }

/-- A head as it joins (R24, R91). -/
def joining (s : State) (c : Nat) (e : Entry) : Entry :=
  { e with seq := joinSeq (leftQueue s c e) (chan s c) e, tJoin := s.time.cyc }

theorem joinNext_read {s : State} {c : Nat} {e : Entry} (h : nextJoin s (chan s c) = some e) (hw : e.write = false) :
    joinNext s c = handlesDone (hdlWake (joinRead (leftQueue s c e) (joining s c e)) (joining s c e)) := by
  unfold joinNext
  dsimp only
  rw [h]
  dsimp only
  rw [if_neg (by simp [hw])]
  rfl

theorem exec_requesterQueueToCmdq {s : State} {c : Fin 64} (hc : c < nChan s) :
    exec (.requesterQueueToCmdq c) s = .next (joinNext s c) := by
  show onChan s c (fun s => joinNext s c) = _
  exact onChan_ready hc _

/-- The state after a read has joined the command queue of channel c. -/
def readJoined (s : State) (c : Nat) (e : Entry) : State :=
  modChan (leftQueue s c e) c (fun x => { x with cmdq := withRead (leftQueue s c e) (joining s c e) x.cmdq })

theorem readJoined_chanOnly (s : State) (c : Nat) (e : Entry) : ChanOnly s (readJoined s c e) c :=
  (ChanOnly.setChan s c _).trans (.modChan ..)

theorem chan_readJoined (s : State) (c : Nat) (e : Entry) : chan (readJoined s c e) c =
    { chan s c with rq := (chan s c).rq.erase e, serial := (chan s c).serial + 1
                    cmdq := withRead (leftQueue s c e) (joining s c e) (chan s c).cmdq } := by
  rw [readJoined, chan_modChan, leftQueue, chan_setChan]

/-- Settles O24: the branch of a read that nothing newer serves, after which nothing that waits goes on. -/
theorem readsJoinTheCommandQueue : Obligations.ReadsJoinTheCommandQueue := by
  unfold Obligations.ReadsJoinTheCommandQueue
  intro s c e hc hjoin hch hw hback hhdl hn hd hf hfwd hq hhandles
  have hplace : (joining s c e).place.ch = c.val := hch
  have hleft : chan (leftQueue s c e) (joining s c e).place.ch =
      { chan s c with rq := (chan s c).rq.erase e, serial := (chan s c).serial + 1 } := by
    rw [hplace]
    exact chan_setChan ..
  have hread : joinRead (leftQueue s c e) (joining s c e) = readJoined s c e := by
    have hfenced : fenced (leftQueue s c e) (joining s c e).place = false := by
      unfold fenced at hf ⊢
      rw [hch] at hf
      rw [hleft]
      exact hf
    have hwaits := joinRead_waits (e := joining s c e) hw hn hd hfenced (by rw [hleft]; exact hback) (by rw [hleft]; exact hfwd)
      (by rw [hleft]; exact hq)
    rw [hwaits, hplace]
    rfl
  have hexec : joinNext s c = readJoined s c e := by
    have hwake : hdlWake (readJoined s c e) (joining s c e) = readJoined s c e := hdlWake_idle hhdl
    have hdone : handlesDone (readJoined s c e) = readJoined s c e := handlesDone_idle hhandles
    rw [joinNext_read hjoin hw, hread, hwake, hdone]
  obtain ⟨htime, hsame⟩ := waitingRead_same (leftQueue s c e) (joining s c e)
  refine ⟨readJoined s c e, waitingRead (leftQueue s c e) (joining s c e), by rw [exec_requesterQueueToCmdq hc, hexec], ?_, ?_,
    htime, hsame e.seq e.tJoin, ?_, readJoined_chanOnly s c e⟩
  · rw [chan_readJoined]
    rfl
  · rw [chan_readJoined]
  · rw [chan_readJoined]

end Sys2Proof.Machine
end

section
/-! The Liner's events: an aged entry's eviction, the merge of the sector that it read, and the join of an entry as a write of its
sector (R118-R120). -/

namespace Sys2Proof.Machine

/-! ### Evictions (R119) -/

theorem chan_enqueue {s : State} {e : Entry} {c : Nat} (h : e.place.ch = c) :
    chan (enqueue s e) c = { chan s c with rq := (chan s c).rq ++ [e] } := by
  subst h
  exact chan_modChan ..

theorem enqueue_chanOnly {s : State} {e : Entry} {c : Nat} (h : e.place.ch = c) : ChanOnly s (enqueue s e) c := by
  subst h
  exact .modChan ..

/-- The Liner with an entry sent to EVICTING, its deadline dl (R119). -/
def evicting (l : List Liner) (serial : Nat) (dl : Int) : List Liner :=
  l.map (fun y => if y.serial = serial then { y with st := .evicting, evDl := dl } else y)

/-- The state in which an entry of channel c's Liner has been sent to EVICTING, and is counted (R119). -/
def evictStarted (s : State) (c serial : Nat) (dl : Int) : State :=
  evCh (modChan s c (fun x => { x with liner := evicting x.liner serial dl })) c 0x0F 1 none

/-- The read of an eviction (R120). -/
def evictRead (s : State) (l : Liner) (cls : Cls) (dl : Int) : Entry :=
  newEntry s (.evict l.serial) 18 cls dl false false (onePiece l.place l.vault none)

theorem evict_of_find {s : State} {c serial : Nat} {l : Liner}
    (h : (chan s c).liner.find? (fun l => l.serial == serial && l.st == .merging) = some l) (cls : Cls) (dl : Int) :
    evict s c serial cls dl =
      enqueue (evictStarted s c serial dl) (evictRead (evictStarted s c serial dl) l cls dl) := by
  obtain ⟨rfl, -⟩ : l.serial = serial ∧ l.st = .merging := by simpa using List.find?_some h
  unfold evict
  rw [h]
  rfl

theorem evict_of_none {s : State} {c serial : Nat}
    (h : (chan s c).liner.find? (fun l => l.serial == serial && l.st == .merging) = none) (cls : Cls) (dl : Int) :
    evict s c serial cls dl = s := by
  unfold evict
  rw [h]

/-- A MERGING entry of its own serial is the one that is evicted. -/
theorem find_merging {x : Chan} {l : Liner} (hl : l ∈ x.liner) (hm : l.st = .merging) (hone : ∀ y ∈ x.liner, y.serial = l.serial → y = l) :
    x.liner.find? (fun y => y.serial == l.serial && y.st == .merging) = some l := by
  cases hf : x.liner.find? (fun y => y.serial == l.serial && y.st == .merging) with
  | none => exact absurd (List.find?_eq_none.1 hf l hl) (by simp [hm])
  | some y =>
    have hy := List.find?_some hf
    simp only [Bool.and_eq_true, beq_iff_eq] at hy
    rw [hone y (List.mem_of_find?_eq_some hf) hy.1]

theorem evictStarted_chanOnly (s : State) (c serial : Nat) (dl : Int) : ChanOnly s (evictStarted s c serial dl) c :=
  (ChanOnly.modChan ..).trans (.of_booked (booked_countEv ..) c)

theorem chan_evictStarted (s : State) (c serial : Nat) (dl : Int) :
    chan (evictStarted s c serial dl) c = { chan s c with liner := evicting (chan s c).liner serial dl } := by
  rw [evictStarted, chan_evCh, chan_modChan]

/-- The first MERGING entry of channel c's Liner that has reached AGE (R119). -/
def agedEntry (s : State) (c : Nat) : Option Liner :=
  (chan s c).liner.find? (fun l => l.st == .merging && decide (l.born + max 1 (regF s (chPage c) 0x044 0 12) ≤ s.time.tick))

theorem linerAge_of_none {s : State} {c : Nat} (h : agedEntry s c = none) : linerAge s c = s := by
  unfold agedEntry at h
  unfold linerAge
  dsimp only
  rw [h]

theorem linerAge_of_aged {s : State} {c : Nat} {l : Liner} (h : agedEntry s c = some l) :
    linerAge s c = evict s c l.serial .bl (synthDl s .bl) := by
  unfold agedEntry at h
  unfold linerAge
  dsimp only
  rw [h]

theorem agedEntry_merging {s : State} {c : Nat} {l : Liner} (h : agedEntry s c = some l) :
    l ∈ (chan s c).liner ∧ l.st = .merging := by
  have hl := List.find?_some h
  simp only [Bool.and_eq_true, beq_iff_eq] at hl
  exact ⟨List.mem_of_find?_eq_some h, hl.1⟩

/-- The aged entry goes to EVICTING, and its sector is asked for (R119, R120). -/
theorem linerAge_evicts {s : State} {c : Nat} {l : Liner} (h : agedEntry s c = some l) (hplace : l.place.ch = c)
    (hone : ∀ y ∈ (chan s c).liner, y.serial = l.serial → y = l) :
    let e := evictRead (evictStarted s c l.serial (synthDl s .bl)) l .bl (synthDl s .bl)
    chan (linerAge s c) c = { chan s c with liner := evicting (chan s c).liner l.serial (synthDl s .bl), rq := (chan s c).rq ++ [e] } ∧
    ChanOnly s (linerAge s c) c := by
  intro e
  obtain ⟨hmem, hmerging⟩ := agedEntry_merging h
  have hread : e.place.ch = c := hplace
  rw [linerAge_of_aged h, evict_of_find (find_merging hmem hmerging hone)]
  refine ⟨?_, (evictStarted_chanOnly ..).trans (enqueue_chanOnly hread)⟩
  rw [chan_enqueue hread, chan_evictStarted]

/-! ### The read of an eviction comes back (R120) -/

theorem booked_logDrop (s : State) : Booked s (logDrop s) := (booked_bumpReg ..).trans (booked_latch ..)

theorem booked_logEv (s : State) (code unit : Nat) (lvl : Lvl) (data : Word) : Booked s (logEv s code unit lvl data) := by
  unfold logEv
  dsimp only
  split
  · split
    · rfl
    · exact booked_logDrop s
  · split
    · exact booked_logDrop s
    · rfl

/-- The first evicting entry of channel c's Liner whose read has come back (R120). -/
def readEntry (s : State) (c : Nat) : Option Liner :=
  (chan s c).liner.find? (fun l => l.st == .evicting && l.readBack.isSome)

/-- An entry whose bytes are merged over the sector that it read (R120). -/
def mergedOver (l : Liner) (old : Sector) : Liner :=
  { l with st := .merged, plain := mergeBytes (plain old) l.plain l.mask, mask := fullMask }

/-- The state in which an entry of channel c's Liner is merged over what it read (R120). -/
def linerMerged (s : State) (c : Nat) (l : Liner) (old : Sector) : State :=
  modChan s c (fun x => { x with liner := x.liner.map (fun y => if y.serial = l.serial then mergedOver l old else y) })

/-- Bytes lost over a sector that cannot be used are logged, and are a cause of the channel (R120). -/
def bytesLost (s : State) (c : Nat) (l : Liner) : State :=
  latch (logEv s 0x0303 (chPage c) .error (placeForm l.place.bank l.place.row ||| BitVec.ofNat 32 (l.place.col * 2 ^ 25))) (chPage c) 3

theorem booked_bytesLost (s : State) (c : Nat) (l : Liner) : Booked s (bytesLost s c l) := (booked_logEv ..).trans (booked_latch ..)

theorem evictionReturn_of_none {s : State} {c : Nat} (h : readEntry s c = none) : evictionReturn s c = s := by
  unfold readEntry at h
  unfold evictionReturn
  rw [h]

theorem evictionReturn_merges {s : State} {c : Nat} {l : Liner} {old : Sector} (h : readEntry s c = some l)
    (hold : l.readBack = some old) :
    evictionReturn s c = if sectorBad old && l.vault.isNone then bytesLost (linerMerged s c l old) c l else linerMerged s c l old := by
  have hback : l.readBack.getD zeroSector = old := by rw [hold]; rfl
  unfold readEntry at h
  unfold evictionReturn
  rw [h]
  dsimp only
  rw [hback]
  rfl

theorem evictionReturn_booked {s : State} {c : Nat} {l : Liner} {old : Sector} (h : readEntry s c = some l)
    (hold : l.readBack = some old) : Booked (linerMerged s c l old) (evictionReturn s c) := by
  rw [evictionReturn_merges h hold]
  split
  · exact booked_bytesLost ..
  · exact .refl _

/-! ### The join of an entry (R118) -/

/-- The write as which an entry of channel c's Liner joins the command queue (R118). -/
def linerWrite (s : State) (c : Nat) (l : Liner) : Entry :=
  let e := newEntry s (.evict l.serial) 18 .bl (if l.st = .full then l.dl else l.evDl) true false
    (onePiece l.place none (some (linerData l)))
  let e := { e with seq := if heldOn s l.place then l.serial else (chan s c).serial, tJoin := s.time.cyc }
  { e with hitCls := hitClass s (chan s c) e }

/-- The channel that an entry has left its Liner, with the rewrites of its sector cancelled (R117, R118). -/
def withoutEntry (x : Chan) (l : Liner) : Chan :=
  cancelRewrites { x with serial := x.serial + 1, liner := x.liner.filter (fun y => y.serial != l.serial) } l.place

/-- The state in which an entry of channel c's Liner has joined the command queue as a write of its own (R118). -/
def entryJoined (s : State) (c : Nat) (l : Liner) : State :=
  let x := withoutEntry (chan s c) l
  setChan s c { x with cmdq := intoQueue (linerWrite s c l) x.cmdq }

theorem linerPressure_idle {s : State} {c : Nat} (h : ((chan s c).liner.filter (fun l => l.st == .merging)).length < hiwat s c) :
    linerPressure s c = s := by
  unfold linerPressure
  exact if_neg (Nat.not_le.2 h)

theorem linerParity_none (s : State) {l : Liner} (h : l.vault = none) : linerParity s l = s := by
  unfold linerParity
  rw [h]

theorem linerJoin_waits {s : State} {c : Nat} (h : linerWaiting s (chan s c) = none ∨ 64 ≤ (chan s c).cmdq.length) :
    linerJoin s c = s := by
  unfold linerJoin
  dsimp only
  cases hw : linerWaiting s (chan s c) with
  | none => rfl
  | some l => exact if_pos (h.resolve_left (by simp [hw]))

theorem merging_entryJoined (s : State) (c : Nat) (l : Liner) :
    ((chan (entryJoined s c l) c).liner.filter (fun l => l.st == .merging)).length ≤
      ((chan s c).liner.filter (fun l => l.st == .merging)).length := by
  rw [entryJoined, chan_setChan]
  exact (List.filter_sublist.filter _).length_le

/-- An entry outside the vault regions whose sector has no queued write joins as one write (R118). -/
theorem linerJoin_joins {s : State} {c : Nat} {l : Liner} (hw : linerWaiting s (chan s c) = some l)
    (hroom : (chan s c).cmdq.length < 64) (hv : l.vault = none) (hq : queuedWrite (cancelRewrites (chan s c) l.place) l.place = none)
    (hm : ((chan s c).liner.filter (fun x => x.st == .merging)).length < hiwat s c) : linerJoin s c = entryJoined s c l := by
  have hnone : queuedWrite (withoutEntry (chan s c) l) l.place = none := hq
  have hjoin : linerJoin s c = linerParity (linerPressure (entryJoined s c l) c) l := by
    unfold linerJoin
    dsimp only
    rw [hw]
    dsimp only
    rw [if_neg (Nat.not_le.2 hroom)]
    unfold withoutEntry at hnone
    rw [hnone]
    rfl
  rw [hjoin, linerPressure_idle (Nat.lt_of_le_of_lt (merging_entryJoined s c l) hm), linerParity_none _ hv]

/-! ### The settled statement -/

section
variable {s : State} {c : Fin 64} (hc : c < nChan s)
include hc

theorem exec_linerAgeExpiry : exec (.linerAgeExpiry c) s = .next (linerAge s c) := by
  show onChan s c (fun s => linerAge s c) = _
  exact onChan_ready hc _

theorem exec_linerEvictionReadReturn : exec (.linerEvictionReadReturn c) s = .next (evictionReturn s c) := by
  show onChan s c (fun s => evictionReturn s c) = _
  exact onChan_ready hc _

theorem exec_linerEntryJoinCmdq : exec (.linerEntryJoinCmdq c) s = .next (linerJoin s c) := by
  show onChan s c (fun s => linerJoin s c) = _
  exact onChan_ready hc _

end

/-- Settles O30: each event changes the Liner and one queue of its channel, and books. -/
theorem linerEntriesAgeMergeAndJoin : Obligations.LinerEntriesAgeMergeAndJoin := by
  unfold Obligations.LinerEntriesAgeMergeAndJoin
  refine ⟨fun s c hc => ⟨fun h => ?_, fun l h hplace hone => ?_⟩, fun s c hc => ⟨fun h => ?_, fun l old h hold => ?_⟩,
    fun s c hc => ⟨fun h => ?_, fun l hw hroom hv hq hm => ?_⟩⟩
  · rw [exec_linerAgeExpiry hc, linerAge_of_none h]
  · obtain ⟨hchan, honly⟩ := linerAge_evicts h hplace hone
    refine ⟨_, _, exec_linerAgeExpiry hc, congrArg Chan.liner hchan, congrArg Chan.rq hchan, rfl, rfl, rfl, rfl, rfl, honly⟩
  · rw [exec_linerEvictionReadReturn hc, evictionReturn_of_none h]
  · have hbooked := evictionReturn_booked h hold
    refine ⟨_, exec_linerEvictionReadReturn hc, ?_, fun hgood => ?_, fun hbad hv => ?_,
      (ChanOnly.modChan s c _).trans (.of_booked hbooked c)⟩
    · rw [chan_of_booked hbooked, linerMerged, chan_modChan]
      rfl
    · rw [evictionReturn_merges h hold, hgood]
      rfl
    · rw [evictionReturn_merges h hold, hbad, hv]
      exact latch_bit _ _ 3 (by decide)
  · rw [exec_linerEntryJoinCmdq hc, linerJoin_waits h]
  · have hjoin := linerJoin_joins hw hroom hv hq hm
    have hchan : chan (entryJoined s c l) c = _ := chan_setChan ..
    refine ⟨_, linerWrite s c l, (exec_linerEntryJoinCmdq hc).trans (congrArg _ hjoin), congrArg Chan.cmdq hchan,
      congrArg Chan.liner hchan, rfl, rfl, rfl, rfl, rfl, rfl, .setChan ..⟩

end Sys2Proof.Machine
end

section
/-! Slices on their way to the stack: the slice queue and the contexts that it fills, vector copies, and status polls (R119, R123,
R125, R141, R147, R171, R214, R215). -/

namespace Sys2Proof.Machine

/-! ### Evictions leave all but queues and Liners alone (R119) -/

/-- Of each channel only the requester queue and the Liner differ, and nothing else but the bookkeeping. -/
structure LinersOnly (s t : State) : Prop where
  frame : Booked { s with chans := t.chans } t
  chans : ∀ d, chan t d = { chan s d with rq := (chan t d).rq, liner := (chan t d).liner }

namespace LinersOnly

variable {s t u : State}

theorem refl (s : State) : LinersOnly s s := ⟨rfl, fun _ => rfl⟩

theorem trans (h : LinersOnly s t) (g : LinersOnly t u) : LinersOnly s u := by
  obtain ⟨ht, hts⟩ := h
  obtain ⟨hu, hus⟩ := g
  refine ⟨?_, fun d => (hus d).trans (by rw [hts d])⟩
  unfold Booked at ht hu ⊢
  rw [hu, ht]

theorem of_booked (h : Booked s t) : LinersOnly s t := by
  obtain ⟨hframe, -⟩ := ChanOnly.of_booked h 0
  exact ⟨hframe, fun d => by rw [chan_of_booked h d]⟩

theorem modChan (s : State) (c : Nat) (f : Chan → Chan)
    (hf : f (chan s c) = { chan s c with rq := (f (chan s c)).rq, liner := (f (chan s c)).liner }) :
    LinersOnly s (modChan s c f) := by
  refine ⟨rfl, fun d => ?_⟩
  by_cases hd : d = c
  · subst hd
    rw [chan_modChan]
    exact hf
  · rw [chan_modChan_other _ _ _ _ hd]

theorem enqueue (s : State) (e : Entry) : LinersOnly s (enqueue s e) := modChan s e.place.ch _ rfl

theorem foldl {α : Type} (f : State → α → State) (l : List α) (h : ∀ t x, LinersOnly t (f t x)) (s : State) :
    LinersOnly s (l.foldl f s) := by
  induction l generalizing s with
  | nil => exact .refl s
  | cons x l ih => exact (h s x).trans (ih _)

theorem evict (s : State) (c serial : Nat) (cls : Cls) (dl : Int) : LinersOnly s (evict s c serial cls dl) := by
  cases hf : (chan s c).liner.find? (fun l => l.serial == serial && l.st == .merging) with
  | none =>
    rw [evict_of_none hf]
    exact .refl s
  | some l =>
    rw [evict_of_find hf]
    exact ((modChan s c _ rfl).trans (.of_booked (booked_countEv ..))).trans (enqueue ..)

theorem evictPending (s : State) (c : Nat) : LinersOnly s (evictPending s c) :=
  foldl (fun t (l : Liner) => Machine.evict t c l.serial .bl (synthDl t .rt)) _ (fun t l => evict t c l.serial .bl _) s

theorem enqueueAll (s : State) (es : List Entry) : LinersOnly s (enqueueAll s es) := foldl _ es enqueue s

end LinersOnly

/-! ### A context is filled (R125, R214) -/

/-- A slice of a queue whose contexts have been filled: it stands there as before, but for its context and area. -/
def InQueueAsBefore (q : List Slice) (z y : Slice) : Prop :=
  ∃ w ∈ q, w.d = z.d ∧ y = { w with ctx := y.ctx, area := y.area }

/-- What filling the context of channel c's pending slice leaves alone. -/
structure FillsContext (s t : State) (c : Nat) : Prop where
  ports : t.ports = s.ports
  arrays : ∀ e sp b r k, arrRead t e sp b r k = arrRead s e sp b r k
  channel : chan t c = { chan s c with rq := (chan t c).rq, liner := (chan t c).liner, sliceq := (chan t c).sliceq }
  queue : ∃ f : Slice → Slice, (chan t c).sliceq = (chan s c).sliceq.map f ∧
    ∀ z ∈ (chan s c).sliceq, InQueueAsBefore (chan s c).sliceq z (f z)

/-- The slices that run or wait to be offered, the bank halves and the row wires are as before. -/
theorem FillsContext.same {s t : State} {c : Nat} (h : FillsContext s t c) :
    (chan t c).slicer = (chan s c).slicer ∧ (chan t c).running = (chan s c).running ∧
    (chan t c).halves = (chan s c).halves ∧ (chan t c).rowOut = (chan s c).rowOut ∧
    (chan t c).lastRow = (chan s c).lastRow := by
  rw [h.channel]
  exact ⟨rfl, rfl, rfl, rfl, rfl⟩

theorem arrRead_of_stack {s t : State} (h : t.stack = s.stack) (e : Nat) (sp : Bool) (b r k : Nat) :
    arrRead t e sp b r k = arrRead s e sp b r k := by
  unfold arrRead stk
  rw [h]

theorem LinersOnly.ports_stack {s t : State} (h : LinersOnly s t) : t.ports = s.ports ∧ t.stack = s.stack := by
  have ht : t = _ := h.frame
  rw [ht]
  exact ⟨rfl, rfl⟩

theorem FillsContext.of_liners {s t : State} (h : LinersOnly s t) (c : Nat) : FillsContext s t c := by
  obtain ⟨hports, hstack⟩ := h.ports_stack
  have hq : (chan t c).sliceq = (chan s c).sliceq := by rw [h.chans c]
  exact ⟨hports, arrRead_of_stack hstack, (h.chans c).trans (by rw [hq]), id, hq.trans (List.map_id _).symm,
    fun z hz => ⟨z, hz, rfl, rfl⟩⟩

/-- Sectors written into channel c's vector buffer. -/
def vbufStored (s : State) (c : Nat) (l : List (Nat × Sector)) : State :=
  modStk s c (fun y => l.foldl (fun y e => vbufWrite s.stack c y e.1 e.2) y)

theorem arrRead_vbufStored (s : State) (c : Nat) (l : List (Nat × Sector)) (e : Nat) (sp : Bool) (b r k : Nat) :
    arrRead (vbufStored s c l) e sp b r k = arrRead s e sp b r k := by
  have harray : (stk (vbufStored s c l) e).array = (stk s e).array := by
    unfold vbufStored
    by_cases he : e = c
    · subst he
      rw [stk_modStk]
      exact List.foldlRecOn (motive := fun (y : StkChan) => y.array = (stk s e).array) l _ rfl (fun _ hy _ _ => hy)
    · rw [stk_modStk_other _ _ _ _ he]
  unfold arrRead
  rw [harray]
  rfl

/-- The slice queue once slice x has taken context k, which a slice that only waited gives up (R214). -/
def contextTaken (x : Slice) (k : Nat) (q : List Slice) : List Slice :=
  q.map (fun z => if z.d = x.d then x else if z.ctx = some k then { z with ctx := none, area := (0, 0) } else z)

/-- The state in which a slice of channel c has taken context k with its area, a run list beyond the vector buffer's own sectors
stored (R214, log 27). -/
def contextFilled (u : State) (c : Nat) (x : Slice) (k : Nat) (area : Nat × Nat) (far : Bool) (runs : List (Nat × Sector)) : State :=
  modChan (if far then vbufStored u c runs else u) c (fun y =>
    { y with sliceq := contextTaken { x with ctx := some k, area := area } k y.sliceq })

/-- Liner entries are evicted first; then one slice of the queue takes a context, and its transfers are queued, or none does. -/
theorem fillCtx_cases (s : State) (c : Nat) : fillCtx s c = evictPending s c ∨
    ∃ x ∈ (chan (evictPending s c) c).sliceq, ∃ k area far runs es,
      fillCtx s c = enqueueAll (contextFilled (evictPending s c) c x k area far runs) es := by
  unfold fillCtx
  dsimp only
  split
  · exact .inl rfl
  · next x hx =>
    split
    · exact .inl rfl
    · split
      · exact .inr ⟨x, List.mem_of_find?_eq_some hx, _, _, _, _, _, rfl⟩
      · exact .inl rfl

theorem contextTaken_asBefore {x : Slice} {q : List Slice} (hx : x ∈ q) (k : Nat) (area : Nat × Nat) :
    ∃ f : Slice → Slice, contextTaken { x with ctx := some k, area := area } k q = q.map f ∧ ∀ z ∈ q, InQueueAsBefore q z (f z) := by
  refine ⟨_, rfl, fun z hz => ?_⟩
  dsimp only
  split
  · next hd => exact ⟨x, hx, hd.symm, rfl⟩
  · split
    · exact ⟨z, hz, rfl, rfl⟩
    · exact ⟨z, hz, rfl, rfl⟩

/-- A store of a run list touches the vector buffer alone. -/
theorem contextFilled_keeps (u : State) (c : Nat) (x : Slice) (k : Nat) (area : Nat × Nat) (far : Bool) (runs : List (Nat × Sector)) :
    (contextFilled u c x k area far runs).ports = u.ports ∧
    (∀ e sp b r j, arrRead (contextFilled u c x k area far runs) e sp b r j = arrRead u e sp b r j) ∧
    chan (contextFilled u c x k area far runs) c =
      { chan u c with sliceq := contextTaken { x with ctx := some k, area := area } k (chan u c).sliceq } := by
  unfold contextFilled
  cases far with
  | true => exact ⟨rfl, arrRead_vbufStored u c runs, chan_modChan ..⟩
  | false => exact ⟨rfl, fun _ _ _ _ _ => rfl, chan_modChan ..⟩

/-- Whatever a filled context changes, it changes in queues, in the Liner and in the vector buffer (R119, R125, R214). -/
theorem fillCtx_fills (s : State) (c : Nat) : FillsContext s (fillCtx s c) c := by
  have hevict := LinersOnly.evictPending s c
  rcases fillCtx_cases s c with h | ⟨x, hx, k, area, far, runs, es, h⟩
  · rw [h]
    exact .of_liners hevict c
  · generalize hu : evictPending s c = u at hevict hx h
    generalize hw : contextFilled u c x k area far runs = w at h
    obtain ⟨hwports, hwarrays, hwchan⟩ := contextFilled_keeps u c x k area far runs
    rw [hw] at hwports hwarrays hwchan
    have hqueued : LinersOnly w (fillCtx s c) := h ▸ .enqueueAll w es
    obtain ⟨hports, hstack⟩ := hevict.ports_stack
    obtain ⟨htports, htstack⟩ := hqueued.ports_stack
    have hchan := hqueued.chans c
    have hq : (chan u c).sliceq = (chan s c).sliceq := by rw [hevict.chans c]
    have hqt : (chan (fillCtx s c) c).sliceq = contextTaken { x with ctx := some k, area := area } k (chan s c).sliceq :=
      (congrArg Chan.sliceq hchan).trans ((congrArg Chan.sliceq hwchan).trans (congrArg (contextTaken _ k) hq))
    refine ⟨htports.trans (hwports.trans hports), fun e sp b r j => ?_, ?_, ?_⟩
    · rw [arrRead_of_stack htstack, hwarrays, arrRead_of_stack hstack]
    · rw [hwchan, hevict.chans c] at hchan
      exact hchan.trans (by rw [hqt])
    · rw [hqt]
      exact contextTaken_asBefore (hq ▸ hx) k area

/-! ### The slice queue (R123, R147) -/

theorem insertSlice_cons (rot : Nat) (x y : Slice) (q : List Slice) :
    insertSlice rot x (y :: q) = x :: y :: q ∨ insertSlice rot x (y :: q) = y :: insertSlice rot x q := by
  rw [insertSlice]
  exact ite_eq_or_eq ..

theorem mem_insertSlice {rot : Nat} {x z : Slice} {q : List Slice} : z ∈ insertSlice rot x q ↔ z = x ∨ z ∈ q := by
  induction q with
  | nil => simp [insertSlice]
  | cons y q ih =>
    rcases insertSlice_cons rot x y q with h | h
    · rw [h, List.mem_cons]
    · rw [h, List.mem_cons, ih, List.mem_cons, or_left_comm]

theorem length_insertSlice (rot : Nat) (x : Slice) (q : List Slice) : (insertSlice rot x q).length = q.length + 1 := by
  induction q with
  | nil => rfl
  | cons y q ih =>
    rcases insertSlice_cons rot x y q with h | h
    · rw [h, List.length_cons]
    · rw [h, List.length_cons, ih, List.length_cons]

/-- The slice that is offered next has no slice of its operation in the queue (R147). -/
theorem nextSlice_fresh {s : State} {c : Nat} {x : Slice} (h : nextSlice s c = some x) : ∀ y ∈ (chan s c).sliceq, y.d ≠ x.d := by
  have hx := List.find?_some h
  simp only [Bool.and_eq_true, Bool.not_eq_true', List.any_eq_false, beq_iff_eq] at hx
  exact hx.1.1.2

/-- The state in which slice x, offered now, stands in channel c's slice queue, its context not filled yet (R123). -/
def sliceQueued (s : State) (c : Nat) (x : Slice) : State :=
  let ch := chan s c
  modOpChan { setChan s c { ch with slicer := ch.slicer.eraseP (fun z => z.d == x.d)
                                    sliceq := insertSlice ch.rot { x with seq := s.time.cyc } ch.sliceq } with
              disp := { s.disp with prog := 0 } } x.d c (fun y => { y with copied := true })

theorem modOpChan_frame (s : State) (d c : Nat) (f : OpChan → OpChan) :
    modOpChan s d c f = { s with disp := (modOpChan s d c f).disp } := by
  unfold modOpChan
  split
  · split <;> rfl
  · rfl

theorem sliceQueued_frame (s : State) (c : Nat) (x : Slice) :
    sliceQueued s c x = { s with chans := (sliceQueued s c x).chans, disp := (sliceQueued s c x).disp } := by
  unfold sliceQueued
  dsimp only
  rw [modOpChan_frame]
  rfl

theorem chan_sliceQueued (s : State) (c : Nat) (x : Slice) : chan (sliceQueued s c x) c =
    { chan s c with slicer := (chan s c).slicer.eraseP (fun z => z.d == x.d)
                    sliceq := insertSlice (chan s c).rot { x with seq := s.time.cyc } (chan s c).sliceq } := by
  unfold sliceQueued
  dsimp only
  rw [modOpChan_frame]
  exact chan_setChan ..

theorem sliceTake_waits {s : State} {c : Nat} (h : 8 ≤ (chan s c).sliceq.length ∨ nextSlice s c = none) : sliceTake s c = s := by
  unfold sliceTake
  dsimp only
  split
  · rfl
  · next hroom => rw [h.resolve_left (fun h8 => hroom (.inl h8))]

theorem sliceTake_takes {s : State} {c : Nat} {x : Slice} (hroom : (chan s c).sliceq.length < 8)
    (hrec : inRecovery s (.oct, octOf c) = false) (hx : nextSlice s c = some x) :
    sliceTake s c = fillCtx (sliceQueued s c x) c := by
  unfold sliceTake
  dsimp only
  rw [if_neg (by simp [hroom, hrec]), hx]
  rfl

/-- A taken slice stands in the queue, whether its context is filled at once or not. -/
theorem sliceTake_queues {s : State} {c : Nat} {x : Slice} (hx : nextSlice s c = some x) :
    let t := fillCtx (sliceQueued s c x) c
    (∃ y ∈ (chan t c).sliceq, y.d = x.d ∧ y.banks = x.banks ∧ y.runs = x.runs) ∧
    (chan t c).sliceq.length = (chan s c).sliceq.length + 1 := by
  intro t
  obtain ⟨-, -, -, f, hmap, hbefore⟩ := fillCtx_fills (sliceQueued s c x) c
  have hq : (chan (sliceQueued s c x) c).sliceq = insertSlice (chan s c).rot { x with seq := s.time.cyc } (chan s c).sliceq := by
    rw [chan_sliceQueued]
  rw [hq] at hmap hbefore
  refine ⟨⟨f { x with seq := s.time.cyc }, ?_, ?_⟩, ?_⟩
  · rw [hmap]
    exact List.mem_map_of_mem (mem_insertSlice.2 (.inl rfl))
  · obtain ⟨w, hw, hd, hf⟩ := hbefore _ (mem_insertSlice.2 (.inl rfl))
    obtain rfl := (mem_insertSlice.1 hw).resolve_right (fun hin => nextSlice_fresh hx w hin hd)
    rw [hf]
    exact ⟨rfl, rfl, rfl⟩
  · rw [hmap, List.length_map, length_insertSlice]

/-! ### Vector copies (R141, R171) -/

/-- The entries of an operation's vector copy into channel c (R141). -/
def copyEntries (s : State) (d c : Nat) (op : Op) : List Entry :=
  (copyContent s op c).map (fun e => newEntry s (.slice d) 17 op.cls op.dl true false
    (onePiece { ch := c, bank := 16, row := 0, col := e.1 } none (some e.2)))

/-- The copy's entries wait in the queue of their channel alone (R91). -/
theorem chan_copyQueued (u s : State) (d c : Nat) (op : Op) :
    chan (enqueueAll u (copyEntries s d c op)) c = { chan u c with rq := (chan u c).rq ++ copyEntries s d c op } ∧
    ∀ e, e ≠ c → chan (enqueueAll u (copyEntries s d c op)) e = chan u e := by
  have hplace : ∀ e ∈ copyEntries s d c op, e.place.ch = c := by
    intro e he
    obtain ⟨_, -, rfl⟩ := List.mem_map.1 he
    rfl
  refine ⟨?_, fun e he => ?_⟩
  · rw [chan_enqueueAll, List.filter_eq_self.2 (fun q hq => decide_eq_true (hplace q hq))]
  · rw [chan_enqueueAll, List.filter_eq_nil_iff.2 (fun q hq => by rw [hplace q hq]; simpa using Ne.symm he), List.append_nil]

/-- An operation has a copy to make into channel c, and nothing that uses its slot comes first (R141, R142). -/
structure MayCopy (s : State) (d c : Nat) (op : Op) (x : OpChan) : Prop where
  listed : opOf s d = some op
  part : Tab.find op.chans c = some x
  runs : op.stopped = false
  uncopied : x.copied = false
  unstarted : x.copying = false
  undone : x.done = false
  free : slotBusy s op c = false

theorem copyStart_eq {s : State} {d c : Nat} {op : Op} {x : OpChan} (m : MayCopy s d c op x) :
    copyStart s d c = if lateAt s op then cancelLate s d
      else enqueueAll (modOpChan s d c (fun y => { y with copying := true })) (copyEntries s d c op) := by
  obtain ⟨hop, hx, hruns, hcopied, hcopying, hdone, hfree⟩ := m
  unfold copyStart
  rw [hop]
  dsimp only
  rw [hx]
  dsimp only
  rw [if_neg (by simp [hruns, hcopied, hcopying, hdone, hfree])]
  rfl

/-! ### Status polls (R215) -/

/-- The state in which a running slice's next poll is due 100 ns from now (R215). -/
def pollNoted (s : State) (c k : Nat) (x : Slice) : State :=
  setChan s c { chan s c with running := Tab.put (chan s c).running k { x with pollAt := sliceRunning s x + 250 } }

/-- The status read of the slice in context k (R215). -/
def statusPoll (s : State) (c k : Nat) (x : Slice) : Entry :=
  newEntry s (.slice x.d) 17 x.cls x.dl false false (onePiece { ch := c, bank := 19, row := k, col := 0 } none none)

theorem slicePoll_eq {s : State} {c k : Nat} {x : Slice} (hx : Tab.find (chan s c).running k = some x) (hp : x.pausedAt = none)
    (hf : x.final = none) (hw : srdWaiting (chan s c) k = false) :
    slicePoll s c k = if sliceRunning s x < x.pollAt then s
      else enqueue (pollNoted s c k x) (statusPoll (pollNoted s c k x) c k x) := by
  unfold slicePoll
  dsimp only
  rw [hx]
  dsimp only
  by_cases hdue : sliceRunning s x < x.pollAt
  · rw [if_pos (by simp [hdue]), if_pos hdue]
  · rw [if_neg (by simp [hp, hf, hw, hdue]), if_neg hdue]
    rfl

/-! ### The settled statement -/

section
variable {s : State} {c : Fin 64} (hc : c < nChan s)
include hc

theorem exec_sliceQueueTake : exec (.sliceQueueTake c) s = .next (sliceTake s c) := by
  show onChan s c (fun s => sliceTake s c) = _
  exact onChan_ready hc _

theorem exec_vectorCopyStart (d : BitVec 8) : exec (.vectorCopyStart d c) s = .next (copyStart s d.toNat c) := by
  show onChan s c (fun s => copyStart s d.toNat c) = _
  exact onChan_ready hc _

theorem exec_sliceStatusPoll (k : Fin 2) : exec (.sliceStatusPoll c k) s = .next (slicePoll s c k) := by
  show onChan s c (fun s => slicePoll s c k) = _
  exact onChan_ready hc _

end

/-- Settles O31: the branch that each event's condition leaves, and for a taken slice what the filling of a context leaves
alone. -/
theorem slicesAreQueuedCopiedAndPolled : Obligations.SlicesAreQueuedCopiedAndPolled := by
  unfold Obligations.SlicesAreQueuedCopiedAndPolled
  refine ⟨fun s c hc h => ?_, fun s c x hc hroom hrec hx => ?_,
    fun s d c op x hc hop hx hruns hcopied hcopying hdone hfree => ?_, fun s c k x hc hx hp hf hw => ⟨fun h => ?_, fun h => ?_⟩⟩
  · rw [exec_sliceQueueTake hc, sliceTake_waits h]
  · have hfills := fillCtx_fills (sliceQueued s c x) c
    obtain ⟨hslicer, hrunning, -⟩ := hfills.same
    obtain ⟨hin, hlen⟩ := sliceTake_queues hx
    have hframe := sliceQueued_frame s c x
    have hstack : (sliceQueued s c x).stack = s.stack := by rw [hframe]
    refine ⟨_, (exec_sliceQueueTake hc).trans (congrArg _ (sliceTake_takes hroom hrec hx)), ?_, hin, hlen, ?_, fun e sp b r k => ?_, ?_⟩
    · rw [hslicer, chan_sliceQueued]
    · rw [hrunning, chan_sliceQueued]
    · rw [hfills.arrays, arrRead_of_stack hstack]
    · rw [hfills.ports, hframe]
  · have hcopy := copyStart_eq ⟨hop, hx, hruns, hcopied, hcopying, hdone, hfree⟩
    rw [exec_vectorCopyStart hc, hcopy]
    refine ⟨fun hlate => by rw [if_pos hlate], fun hlate => ?_⟩
    generalize hu : modOpChan s d.toNat c (fun y => { y with copying := true }) = u
    have hframe : u = { s with disp := u.disp } := hu ▸ modOpChan_frame ..
    have hchan : ∀ e, chan u e = chan s e := fun e => by rw [hframe]; rfl
    obtain ⟨hmine, hothers⟩ := chan_copyQueued u s d.toNat c op
    refine ⟨_, congrArg _ (if_neg (by simp [hlate])), ?_, ?_, fun e he => (hothers e he).trans (hchan e)⟩
    · rw [hmine, hchan]
      simp [copyEntries, newEntry, onePiece, Function.comp_def]
    · rw [enqueueAll_frame, hframe]
  · rw [exec_sliceStatusPoll hc, slicePoll_eq hx hp hf hw, if_pos h]
  · have hplace : (statusPoll (pollNoted s c k x) c k x).place.ch = c := rfl
    have hpoll := (slicePoll_eq hx hp hf hw).trans (if_neg (Nat.not_lt.2 h))
    refine ⟨_, statusPoll (pollNoted s c k x) c k x, (exec_sliceStatusPoll hc k).trans (congrArg _ hpoll), ?_, rfl, rfl, rfl, rfl, rfl,
      (ChanOnly.setChan ..).trans (enqueue_chanOnly hplace)⟩
    rw [chan_enqueue hplace, pollNoted, chan_setChan]

end Sys2Proof.Machine
end

section
/-! Slices start in their context on reserved banks, end and release them, or overrun (R125, R127, R149, R171-R175, R215). -/

namespace Sys2Proof.Machine

/-! ### Halves of the banks of a slice (R127) -/

theorem half_both (x : Chan) (b : Nat) (f : Half → Half) {b' h : Nat} (hh : h < 2) :
    (x.both b f).half b' h = if b' = b then f (x.half b' h) else x.half b' h := by
  by_cases hb : b' = b
  · subst hb
    obtain rfl | rfl : h = 0 ∨ h = 1 := by omega
    · simp
    · simp
  · have hkey : ∀ i < 2, halfKey b' h ≠ halfKey b i := by unfold halfKey; omega
    rw [if_neg hb]
    exact (half_setHalf_other _ _ (hkey 1 (by omega))).trans (half_setHalf_other _ _ (hkey 0 (by omega)))

/-- Each bank of a list changes its halves once. -/
theorem half_foldl {step : Chan → Nat → Chan} {banks : BitVec 16} {f : Half → Half}
    (hstep : ∀ z b b' h, h < 2 → (step z b).half b' h = if b' = b ∧ banks.getLsbD b = true then f (z.half b' h) else z.half b' h)
    {l : List Nat} (hl : l.Nodup) (x : Chan) (b : Nat) {h : Nat} (hh : h < 2) :
    (l.foldl step x).half b h = if b ∈ l ∧ banks.getLsbD b = true then f (x.half b h) else x.half b h := by
  induction l generalizing x with
  | nil => simp
  | cons a l ih =>
    obtain ⟨ha, hl⟩ := List.nodup_cons.1 hl
    rw [List.foldl_cons, ih hl, hstep x a b h hh]
    by_cases hb : b = a
    · subst hb
      simp [ha]
    · simp [hb]

/-- Every bank of a mask has its number below 16. -/
theorem half_foldl_mask {step : Chan → Nat → Chan} {banks : BitVec 16} {f : Half → Half}
    (hstep : ∀ z b b' h, h < 2 → (step z b).half b' h = if b' = b ∧ banks.getLsbD b = true then f (z.half b' h) else z.half b' h)
    (x : Chan) {b : Fin 16} (hb : banks.getLsbD b = true) {h : Nat} (hh : h < 2) :
    ((List.range 16).foldl step x).half b h = f (x.half b h) := by
  rw [half_foldl hstep List.nodup_range x b hh, if_pos ⟨List.mem_range.2 b.isLt, hb⟩]

/-! ### A slice starts (R125, R171-R173, R311) -/

/-- A half that a slice reserves. -/
def reservedHalf (h : Half) : Half := { h with st := .reserved }

/-- A bank of a starting slice's mask is reserved. -/
def reserveBank (banks : BitVec 16) (z : Chan) (b : Nat) : Chan := if banks.getLsbD b then z.both b reservedHalf else z

theorem half_reserveBank (banks : BitVec 16) (z : Chan) (b b' h : Nat) (hh : h < 2) : (reserveBank banks z b).half b' h =
    if b' = b ∧ banks.getLsbD b = true then reservedHalf (z.half b' h) else z.half b' h := by
  unfold reserveBank
  cases hb : banks.getLsbD b with
  | true => simp [half_both z b _ hh]
  | false => simp

/-- A running slice, as it starts in cycle now (R215). -/
def startedAt (now : Nat) (x : Slice) : Slice := { x with started := some now, pollAt := costCycles x.cost }

/-- Channel c with its slice x running in context k, on reserved banks (R125, R127). -/
def startedIn (s : State) (c : Nat) (x : Slice) (k : Nat) : Chan :=
  (List.range 16).foldl (reserveBank x.banks)
    { chan s c with sliceq := (chan s c).sliceq.filter (fun z => z.d != x.d)
                    running := Tab.put (chan s c).running k (startedAt s.time.cyc x), prog := 0 }

theorem startedIn_half (s : State) (c : Nat) {x : Slice} (k : Nat) {b : Fin 16} (hb : x.banks.getLsbD b = true) {h : Nat} (hh : h < 2) :
    ((startedIn s c x k).half b h).st = .reserved := by
  rw [startedIn, half_foldl_mask (half_reserveBank x.banks) _ hb hh]
  rfl

theorem startedIn_keeps (s : State) (c : Nat) (x : Slice) (k : Nat) :
    (startedIn s c x k).running = Tab.put (chan s c).running k (startedAt s.time.cyc x) ∧
    (startedIn s c x k).rowOut = (chan s c).rowOut ∧ (startedIn s c x k).lastRow = (chan s c).lastRow := by
  refine List.foldlRecOn (motive := fun (y : Chan) => y.running = _ ∧ y.rowOut = _ ∧ y.lastRow = _) _ _ ⟨rfl, rfl, rfl⟩ (fun y hy b _ => ?_)
  unfold reserveBank
  split
  · exact hy
  · exact hy

/-- The state in which slice x of operation op runs, paid for and counted, before its SLS goes out (R311). -/
def sliceCharged (s : State) (c : Nat) (x : Slice) (op : Op) (k : Nat) : State :=
  let u := spend (setChan s c (startedIn s c x k)) c (weight s 0x06C 24 * ((x.cost + 7) / 8))
  evOct u (octOf c) 0x06 1 (opAttr u op)

theorem sliceCharged_waits (s : State) (c : Nat) (x : Slice) (op : Op) (k : Nat) : WiresWait s (sliceCharged s c x op k) c := by
  obtain ⟨-, hout, hlast⟩ := startedIn_keeps s c x k
  exact ((WiresWait.setChan s c hout hlast).trans (.spend ..)).trans (.of_booked (booked_countEv ..) c)

theorem chan_sliceCharged (s : State) (c : Nat) (x : Slice) (op : Op) (k : Nat) :
    (chan (sliceCharged s c x op k) c).running = Tab.put (chan s c).running k (startedAt s.time.cyc x) ∧
    (chan (sliceCharged s c x op k) c).halves = (startedIn s c x k).halves := by
  obtain ⟨hrunning, -⟩ := startedIn_keeps s c x k
  unfold sliceCharged evOct
  rw [chan_of_booked (booked_countEv ..), spend, chan_modChan, chan_setChan]
  exact ⟨hrunning, rfl⟩

/-- The state in which the SLS of slice x has gone out, and its request notes its first start (R125). -/
def slsSent (s : State) (c : Nat) (x : Slice) (op : Op) (k : Nat) : State :=
  let u := sliceCharged s c x op k
  sendRow (modReq u op.req (fun r => { r with tJoin := r.tJoin.or (some u.time.cyc) })) c (.sls ⟨chanFin c, 0⟩ (bitFin k) x.banks)

theorem chan_slsSent (s : State) (c : Nat) (x : Slice) (op : Op) (k : Nat) : chan (slsSent s c x op k) c =
    chan (sendRow (sliceCharged s c x op k) c (.sls ⟨chanFin c, 0⟩ (bitFin k) x.banks)) c := rfl

/-- The slice runs in its context, and its banks are reserved (R125, R127). -/
theorem slsSent_runs (s : State) (c : Nat) (x : Slice) (op : Op) (k : Nat) :
    Tab.find (chan (slsSent s c x op k) c).running k = some (startedAt s.time.cyc x) ∧
    (chan (slsSent s c x op k) c).halves = (startedIn s c x k).halves := by
  obtain ⟨hrunning, hhalves⟩ := chan_sliceCharged s c x op k
  rw [chan_slsSent, sendRow, sendRowFrom, chan_modChan]
  exact ⟨by rw [hrunning, Tab.find_put_self], hhalves⟩

theorem slsSent_same (s : State) (c : Nat) (x : Slice) (op : Op) (k : Nat) :
    (slsSent s c x op k).stack = s.stack ∧ (slsSent s c x op k).ports = s.ports := by
  have hcharged : sliceCharged s c x op k = _ := (sliceCharged_waits s c x op k).only.1
  show (sliceCharged s c x op k).stack = s.stack ∧ (sliceCharged s c x op k).ports = s.ports
  rw [hcharged]
  exact ⟨rfl, rfl⟩

/-- Where the slice is pending, its context free and filled, its banks ready, and the channel, the wires and the energy let it
start (R125, R173, R311). -/
structure MayStart (s : State) (c : Nat) (x : Slice) (op : Op) (k : Nat) : Prop where
  unhalted : (chan s c).halted = false
  inService : inService s c = true
  noTrip : s.thm.tripPh = 0
  noFreq : s.hk.freq = .none
  freeCtx : Tab.find (chan s c).running k = none
  filled : fillQueued (chan s c) x.d = false
  banks : banksReady s c (chan s c) x.banks = true
  wires : rowFree s c = true
  energy : 0 < (chan s c).credit
  writes : (op.form.writesArray && writeForbidden s) = false

/-- Write-forbid passes over the slices that write (R173). -/
theorem pendingSlice_writes {s : State} {c : Nat} {x : Slice} (hp : pendingSlice s (chan s c) = some x)
    (hf : writeForbidden s = true) : x.writes = false := by
  have hx := List.find?_some hp
  simp only [hf, Bool.and_true, Bool.and_eq_true, Bool.not_eq_true'] at hx
  exact hx.2

section
variable {s : State} {c : Nat} {x : Slice} {op : Op} {k : Nat} (hp : pendingSlice s (chan s c) = some x) (hop : opOf s x.d = some op)
  (hk : x.ctx = some k)
include hp hop hk

theorem sliceStart_forbidden (hw : op.form.writesArray = true) (hf : writeForbidden s = true) : sliceStart s c = s := by
  unfold sliceStart
  dsimp only
  rw [hp]
  dsimp only
  rw [hop, hk]
  exact if_pos (by simp [hw, hf])

theorem sliceStart_eq (m : MayStart s c x op k) :
    sliceStart s c = if lateAt s op then cancelLate s x.d else fillCtx (slsSent s c x op k) c := by
  obtain ⟨hrun, hin, htrip, hfreq, hctx, hfill, hbanks, hwires, henergy, hwrites⟩ := m
  unfold sliceStart
  dsimp only
  rw [hp]
  dsimp only
  split
  · next op' k' hop' hk' =>
    obtain rfl : op' = op := Option.some.inj (hop'.symm.trans hop)
    obtain rfl : k' = k := Option.some.inj (hk'.symm.trans hk)
    rw [if_neg (by simp [hrun, hin, htrip, hfreq, hctx, hfill, hbanks, hwires, energyOk, henergy, hwrites])]
    rfl
  · next hno => exact absurd hk (hno op k hop)

end

/-! ### What follows a slice keeps its banks -/

/-- The running slices and the bank halves of channel c are as before. -/
def BanksKept (s t : State) (c : Nat) : Prop := (chan t c).running = (chan s c).running ∧ (chan t c).halves = (chan s c).halves

namespace BanksKept

variable {s t u : State} {c : Nat}

theorem trans (h : BanksKept s t c) (g : BanksKept t u c) : BanksKept s u c := ⟨g.1.trans h.1, g.2.trans h.2⟩

theorem of_chan (h : chan t c = chan s c) : BanksKept s t c := ⟨congrArg Chan.running h, congrArg Chan.halves h⟩

theorem of_booked (h : Booked s t) (c : Nat) : BanksKept s t c := of_chan (chan_of_booked h c)

theorem of_ends (h : EndsParts s t) (c : Nat) : BanksKept s t c := of_chan (congrArg (fun x => Tab.get x c Chan.reset) h.chans)

theorem fillCtx (s : State) (c : Nat) : BanksKept s (fillCtx s c) c := by
  obtain ⟨-, hrunning, hhalves, -⟩ := (fillCtx_fills s c).same
  exact ⟨hrunning, hhalves⟩

theorem ite {p : Prop} [Decidable p] (h : BanksKept s t c) (g : BanksKept s u c) : BanksKept s (if p then t else u) c := by
  split
  · exact h
  · exact g

theorem modChan (s : State) (c : Nat) (f : Chan → Chan) (hr : (f (chan s c)).running = (chan s c).running)
    (hh : (f (chan s c)).halves = (chan s c).halves) : BanksKept s (modChan s c f) c := by
  unfold BanksKept
  rw [chan_modChan]
  exact ⟨hr, hh⟩

theorem modOpChan (s : State) (d c : Nat) (f : OpChan → OpChan) : BanksKept s (modOpChan s d c f) c :=
  of_chan (by rw [modOpChan_frame]; rfl)

theorem modOct (s : State) (k c : Nat) (f : Oct → Oct) : BanksKept s (modOct s k f) c := of_chan rfl

theorem sliceGoesOn (s : State) (c : Nat) (x : Slice) (op : Op) (ps : List Place) (again : Bool) (res : Word) :
    BanksKept s (sliceGoesOn s c x op ps again res) c :=
  ite (((modChan s c _ rfl rfl).trans (modOct ..)).trans (modOpChan ..)) (ite ((modOct ..).trans (modChan _ c _ rfl rfl)) (modOct ..))

end BanksKept

/-- A stopped operation that ends leaves the channels alone (R171). -/
theorem opStopped_ends (s : State) (d : Nat) : EndsParts s (opStopped s d) := by
  unfold opStopped
  split
  · exact .refl s
  · split
    · split
      · split
        · exact .replyReq ..
        · exact .replyReq ..
        · exact (EndsParts.of_booked ((booked_bumpReg ..).trans (booked_countEv ..))).trans (.replyReq ..)
      · exact ⟨rfl, rfl, fun _ => rfl, fun _ => rfl, id⟩
    · exact .refl s

theorem sliceAccount_kept (s : State) (c : Nat) (w : SliceWait) : BanksKept s (sliceAccount s c w) c := by
  unfold sliceAccount
  split
  · exact .fillCtx ..
  · split
    · exact (BanksKept.of_ends (opStopped_ends ..) c).trans (.fillCtx ..)
    · refine BanksKept.trans ?_ (.fillCtx ..)
      refine BanksKept.trans ?_ (.sliceGoesOn ..)
      exact .ite (.of_chan rfl) (.of_chan rfl)

theorem Booked.andIf {s t u : State} {p : Prop} [Decidable p] (h : Booked s t) (g : Booked t u) : Booked s (if p then u else t) := by
  split
  · exact h.trans g
  · exact h

/-- Corrections that are counted are bookkeeping (R285). -/
theorem booked_ceRise (s : State) (c n : Nat) : Booked s (ceRise s c n) := by
  unfold ceRise
  split
  · exact .refl s
  · exact .andIf (.trans (.andIf ((booked_bumpReg ..).trans (booked_setRegF ..)) (booked_setRegF ..)) (booked_countEv ..)) (booked_latch ..)

/-! ### A slice ends (R127, R174, R175, R215) -/

/-- A half that an ended slice releases. -/
def releasedHalf (h : Half) : Half := if h.st = .reserved then { h with st := .idle } else h

theorem releasedHalf_st (h : Half) : (releasedHalf h).st = if h.st = .reserved then .idle else h.st := by
  unfold releasedHalf
  split <;> rfl

/-- A bank of an ended slice's mask is released, and owed refreshes follow (R127, R259). -/
def releaseBank (banks : BitVec 16) (z : Chan) (b : Nat) : Chan :=
  if banks.getLsbD b then
    (z.setBank b { z.bank b with afterSlice := decide (1 ≤ (z.bank b).debt) }).both b releasedHalf
  else z

theorem half_releaseBank (banks : BitVec 16) (z : Chan) (b b' h : Nat) (hh : h < 2) : (releaseBank banks z b).half b' h =
    if b' = b ∧ banks.getLsbD b = true then releasedHalf (z.half b' h) else z.half b' h := by
  unfold releaseBank
  cases hb : banks.getLsbD b with
  | true =>
    rw [if_pos rfl, half_both _ b _ hh]
    simp only [and_true]
    rfl
  | false => simp

theorem chan_releaseSlice (s : State) (c k : Nat) (banks : BitVec 16) : chan (releaseSlice s c k banks) c =
    (List.range 16).foldl (releaseBank banks) { chan s c with running := Tab.drop (chan s c).running k } := chan_modChan ..

theorem releaseSlice_running (s : State) (c k : Nat) (banks : BitVec 16) :
    (chan (releaseSlice s c k banks) c).running = Tab.drop (chan s c).running k := by
  rw [chan_releaseSlice]
  refine List.foldlRecOn (motive := fun (y : Chan) => y.running = _) _ _ rfl (fun y hy b _ => ?_)
  unfold releaseBank
  split
  · exact hy
  · exact hy

theorem releaseSlice_half (s : State) (c k : Nat) {banks : BitVec 16} {b : Fin 16} (hb : banks.getLsbD b = true) {h : Nat} (hh : h < 2) :
    ((chan (releaseSlice s c k banks) c).half b h).st =
      if ((chan s c).half b h).st = .reserved then .idle else ((chan s c).half b h).st := by
  rw [chan_releaseSlice, half_foldl_mask (half_releaseBank banks) _ hb hh]
  exact releasedHalf_st _

section
variable {s : State} {c k : Nat} {x : Slice} (hx : Tab.find (chan s c).running k = some x)
include hx

theorem sliceDone_waits (hf : x.final = none) : sliceDone s c k = s := by
  unfold sliceDone
  dsimp only
  rw [hx]
  dsimp only
  rw [hf]

/-- A slice that has ended without an uncorrectable sector, or was aborted, releases its banks; the rest leaves them. -/
theorem sliceDone_releases {st : Sector} (hf : x.final = some st)
    (hend : fieldNat (plain st) 0 8 = 5 ∨ ((∀ p ∈ (chan s c).partIn, p.2.1 ≠ k) ∧ statusUes c (plain st) = [])) :
    BanksKept (releaseSlice s c k x.banks) (sliceDone s c k) c := by
  unfold sliceDone
  dsimp only
  rw [hx]
  dsimp only
  rw [hf]
  dsimp only
  by_cases habort : fieldNat (plain st) 0 8 = 5
  · rw [if_pos habort]
    exact (BanksKept.of_ends (opStopped_ends ..) c).trans (.fillCtx ..)
  · obtain ⟨hparts, hue⟩ := hend.resolve_left habort
    have hnone : (chan s c).partIn.any (fun p => p.2.1 == k) = false := by simpa using hparts
    rw [if_neg habort, hnone, hue]
    exact (BanksKept.of_booked (booked_ceRise ..) c).trans (sliceAccount_kept ..)

end

/-! ### An overdue slice (R149) -/

theorem sliceOverrun_eq {s : State} {c k : Nat} {x : Slice} (hx : Tab.find (chan s c).running k = some x)
    (hs : x.started.isSome = true) (hf : x.final = none) (hp : x.pausedAt = none) :
    sliceOverrun s c k = if 2 * costCycles x.cost + 2500 < sliceUsed s x then
      faultAt (latch (bumpReg s (octPage (octOf c)) 0x064 0 16 1) (octPage (octOf c)) 1) (chPage c) .overrun .unit else s := by
  unfold sliceOverrun
  rw [hx]
  simp [hs, hf, hp]

/-! ### The settled statement -/

section
variable {s : State} {c : Fin 64} (hc : c < nChan s)
include hc

theorem exec_sliceStart : exec (.sliceStart c) s = .next (sliceStart s c) := by
  show onChan s c (fun s => sliceStart s c) = _
  exact onChan_ready hc _

theorem exec_sliceDone (k : Fin 2) : exec (.sliceDone c k) s = .next (sliceDone s c k) := by
  show onChan s c (fun s => sliceDone s c k) = _
  exact onChan_ready hc _

theorem exec_sliceOverrun (k : Fin 2) : exec (.sliceOverrun c k) s = .next (sliceOverrun s c k) := by
  show onChan s c (fun s => sliceOverrun s c k) = _
  exact onChan_ready hc _

end

/-- Settles O32: a started slice has its SLS on free wires, and what follows a start or an end leaves its banks. -/
theorem slicesStartEndAndOverrun : Obligations.SlicesStartEndAndOverrun := by
  unfold Obligations.SlicesStartEndAndOverrun
  refine ⟨fun s c x op k hc hp hop hk _ => ⟨pendingSlice_writes hp, fun hw hf => ?_,
    fun hrun hin htrip hfreq hctx hfill hbanks hwires henergy hwrites => ?_⟩, fun s c k x hc hx => ⟨fun hf => ?_, fun st hf hend => ?_⟩,
    fun s c k x hc hx hs hf hp => ⟨fun h => ?_, fun h => ?_⟩⟩
  · rw [exec_sliceStart hc, sliceStart_forbidden hp hop hk hw hf]
  · rw [exec_sliceStart hc, sliceStart_eq hp hop hk ⟨hrun, hin, htrip, hfreq, hctx, hfill, hbanks, hwires, henergy, hwrites⟩]
    refine ⟨fun hlate => by rw [if_pos hlate], fun hlate => ⟨fillCtx (slsSent s c x op k) c, congrArg _ (if_neg (by simp [hlate])), ?_⟩⟩
    have hfills := fillCtx_fills (slsSent s c x op k) c
    obtain ⟨-, hrunning, hhalves, hout, hlast⟩ := hfills.same
    obtain ⟨hstack, hports⟩ := slsSent_same s c x op k
    obtain ⟨hsout, hslast, -⟩ := (sliceCharged_waits s c x op k).sends hwires (.sls ⟨chanFin c, 0⟩ (bitFin k) x.banks)
    obtain ⟨hruns, hreserved⟩ := slsSent_runs s c x op k
    refine ⟨?_, ?_, ?_, fun b hb h hh => ?_, fun e sp b r j => ?_, hfills.ports.trans hports⟩
    · rw [hout, chan_slsSent, hsout, chanFin_val]
    · rw [hlast, chan_slsSent, hslast]
    · rw [hrunning, hruns]
      rfl
    · unfold Chan.half
      rw [hhalves, hreserved]
      exact startedIn_half s c k hb hh
    · rw [hfills.arrays, arrRead_of_stack hstack]
  · rw [exec_sliceDone hc, sliceDone_waits hx hf]
  · obtain ⟨hrunning, hhalves⟩ := sliceDone_releases hx hf hend
    refine ⟨_, exec_sliceDone hc k, hrunning.trans (releaseSlice_running ..), fun b hb h hh => ?_⟩
    unfold Chan.half
    rw [hhalves]
    exact releaseSlice_half s c k hb hh
  · rw [exec_sliceOverrun hc, sliceOverrun_eq hx hs hf hp, if_neg (Nat.not_lt.2 h)]
  · rw [exec_sliceOverrun hc, sliceOverrun_eq hx hs hf hp, if_pos h]

end Sys2Proof.Machine
end

section
/-! ACT and PRE, as a stack that hears its wires executes them: ACT opens the row of its half, and PRE closes its halves (R111,
R212, R216, Tables 5-1, 5-4 and 8-3). -/

namespace Sys2Proof.Machine

/-! ### A row command that arrives as it was sent -/

theorem exec_row_sent {i j : Instr} {c : Fin 64} (h : onRow i = some (c, 0, j)) {s : State} (hc : c < nChan s) :
    exec i s = .next (rowEffect c (rowTime s c j) i (takeRow s c j)) := by
  rw [exec_row h, onChan_ready hc, onRowWires_sent]

theorem takeRow_rows (s : State) (c : Nat) (i : Instr) : rowsPerBank (takeRow s c i) = rowsPerBank s := by
  unfold rowsPerBank
  rw [takeRow_part]

theorem takeRow_halfOf (s : State) (c : Nat) (i : Instr) (row : Nat) : halfOf (takeRow s c i) row = halfOf s row := by
  unfold halfOf
  rw [takeRow_rows]

/-! ### ACT (Table 5-4, log 14) -/

/-- The stack's channel once an ACT of cycle t has opened a row in half h of bank b (Table 8-3). -/
def StkChan.activated (x : StkChan) (b h row : Nat) (spare : Bool) (t : Nat) : StkChan :=
  { x.noteAct b t with opens := Tab.put x.opens (halfKey b h) (row, spare), tAct := Tab.put x.tAct (halfKey b h) t }

/-- The stack takes an ACT in half h of bank b in cycle t: the half is closed, the bank unreserved, and Table 5-4 allows it. -/
structure MayActivate (s : State) (c b h t : Nat) : Prop where
  closed : Tab.find (stk s c).opens (halfKey b h) = none
  free : Tab.find (stk s c).rsv b = none
  rc : since (stk s c).tAct (halfKey b h) t s.stkTim.rc = true
  idle : stkIdleOk s.stkTim (stk s c) b h t = true
  rate : stkRateOk s.stkTim (stk s c) b t = true

theorem MayActivate.takeRow {s : State} {c b h t : Nat} (m : MayActivate s c b h t) (i : Instr) :
    MayActivate (takeRow s c i) c b h t := by
  obtain ⟨hclosed, hfree, hrc, hidle, hrate⟩ := m
  constructor <;> simpa only [takeRow_stk, takeRow_tim]

theorem doAct_opens {s : State} {c h t : Nat} {b : Fin 16} {row : BitVec 17} {spare : Bool} (ready : StackReady s c)
    (hrow : spare = false → row.toNat < rowsPerBank s) (hh : h = if spare then fieldNat row 5 1 else halfOf s row.toNat)
    (m : MayActivate s c b h t) :
    doAct c b row spare t s =
      modStk s c (fun x => x.activated b h (if spare then fieldNat row 0 5 else row.toNat) spare t) := by
  obtain ⟨hclosed, hfree, hrc, hidle, hrate⟩ := m
  have hin : ¬ (!spare && decide (rowsPerBank s ≤ row.toNat)) = true := by
    cases spare with
    | true => simp
    | false => simpa using hrow rfl
  unfold doAct
  rw [stkRowCmd_ready ready, ← hh]
  dsimp only
  rw [if_neg hin, if_neg (by simp [stkOpen, hclosed, hfree]), if_neg (by simp [hrc, hidle, hrate])]
  rfl

/-! ### PRE (Table 5-1) -/

/-- The halves hs of bank b close, their precharge beginning in cycle t. -/
def closeAll (t b : Nat) (x : StkChan) (hs : List Nat) : StkChan := hs.foldl (fun y i => stkClose t y b i) x

theorem closeAll_held (t b : Nat) (x : StkChan) (hs : List Nat) : (closeAll t b x hs).held = x.held :=
  held_foldl _ hs x (fun _ _ => stkClose_held ..)

/-- Only the open rows and the times of the precharges differ. -/
def PrechargesOnly (x y : StkChan) : Prop := y = { x with opens := y.opens, tPre := y.tPre }

theorem PrechargesOnly.trans {x y z : StkChan} (h : PrechargesOnly x y) (g : PrechargesOnly y z) : PrechargesOnly x z := by
  unfold PrechargesOnly at h g ⊢
  rw [g, h]

theorem stkClose_prechargesOnly (t : Nat) (x : StkChan) (b h : Nat) : PrechargesOnly x (stkClose t x b h) := by
  unfold stkClose
  split <;> rfl

theorem closeAll_prechargesOnly (t b : Nat) (x : StkChan) (hs : List Nat) : PrechargesOnly x (closeAll t b x hs) :=
  List.foldlRecOn (motive := PrechargesOnly x) hs _ rfl (fun y hy i _ => hy.trans (stkClose_prechargesOnly t y b i))

theorem stkClose_opens_other (t : Nat) (x : StkChan) {b h k : Nat} (hk : k ≠ halfKey b h) :
    Tab.find (stkClose t x b h).opens k = Tab.find x.opens k := by
  unfold stkClose
  split
  · exact Tab.find_drop_other _ _ _ hk
  · rfl

theorem closeAll_opens_other (t b : Nat) (x : StkChan) {hs : List Nat} {k : Nat} (hk : ∀ i ∈ hs, k ≠ halfKey b i) :
    Tab.find (closeAll t b x hs).opens k = Tab.find x.opens k :=
  List.foldlRecOn (motive := fun (y : StkChan) => Tab.find y.opens k = Tab.find x.opens k) hs _ rfl
    (fun y hy i hi => (stkClose_opens_other t y (hk i hi)).trans hy)

theorem stkClose_rising (t : Nat) (x : StkChan) (b h : Nat) (hr : Tab.rising x.opens = true) :
    Tab.rising (stkClose t x b h).opens = true := by
  unfold stkClose
  split
  · exact Tab.risingFrom_drop _ 0 _ hr
  · exact hr

theorem stkClose_closes (t : Nat) (x : StkChan) (b h : Nat) (hr : Tab.rising x.opens = true) :
    stkOpen (stkClose t x b h) b h = false := by
  unfold stkClose
  split
  · unfold stkOpen
    rw [Tab.find_drop_self x.opens 0 _ hr]
    rfl
  · next hclosed => exact Bool.eq_false_iff.2 hclosed

theorem stkClose_stays_closed (t : Nat) {x : StkChan} {b i : Nat} (h : Nat) (hr : Tab.rising x.opens = true)
    (hc : stkOpen x b i = false) : stkOpen (stkClose t x b h) b i = false := by
  by_cases hi : i = h
  · subst hi
    exact stkClose_closes t x b i hr
  · unfold stkOpen at hc ⊢
    rwa [stkClose_opens_other t x (by unfold halfKey; omega)]

theorem closeAll_closes (t b : Nat) {x : StkChan} {hs : List Nat} {i : Nat} (hr : Tab.rising x.opens = true)
    (hi : i ∈ hs ∨ stkOpen x b i = false) : stkOpen (closeAll t b x hs) b i = false := by
  induction hs generalizing x with
  | nil => exact hi.resolve_left List.not_mem_nil
  | cons h hs ih =>
    refine ih (stkClose_rising t x b h hr) ?_
    rcases hi with hi | hc
    · rcases List.mem_cons.1 hi with rfl | hi
      · exact .inr (stkClose_closes t x b i hr)
      · exact .inl hi
    · exact .inr (stkClose_stays_closed t h hr hc)

/-- The halves that a PRE names (Table 8-3). -/
def preHalves (h : Fin 2) (both : Bool) : List Nat := if both then [0, 1] else [h.val]

theorem mem_preHalves {h : Fin 2} {both : Bool} (i : Fin 2) : i.val ∈ preHalves h both ↔ both = true ∨ i = h := by
  unfold preHalves
  cases both with
  | true => simp; omega
  | false => simp [Fin.ext_iff]

theorem lt_two_of_mem_preHalves {h : Fin 2} {both : Bool} {i : Nat} (hi : i ∈ preHalves h both) : i < 2 := by
  unfold preHalves at hi
  cases both with
  | true => simp at hi; omega
  | false => simp at hi; omega

theorem doPre_closes {s : State} {c t : Nat} {b : Fin 16} {h : Fin 2} {both : Bool} (ready : StackReady s c)
    (hpre : ∀ i : Fin 2, both = true ∨ i = h → stkOpen (stk s c) b i = true → stkPreFrom s (stk s c) (halfKey b i) ≤ t) :
    doPre c b h both t s = modStk s c (fun x => closeAll t b x (preHalves h both)) := by
  have hmay : ¬ (preHalves h both).any (fun i => stkOpen (stk s c) b i && decide (t < stkPreFrom s (stk s c) (halfKey b i))) = true := by
    simp only [List.any_eq_true, Bool.and_eq_true, decide_eq_true_eq, not_exists, not_and, Nat.not_lt]
    intro i hi hopen
    let j : Fin 2 := ⟨i, lt_two_of_mem_preHalves hi⟩
    exact hpre j ((mem_preHalves j).1 hi) hopen
  unfold doPre
  rw [stkRowCmd_ready ready]
  exact if_neg hmay

/-- The time of the stack's own settings, the wires' front command aside. -/
theorem takeRow_preFrom (s : State) (c : Nat) (i : Instr) (x : StkChan) (k : Nat) :
    stkPreFrom (takeRow s c i) x k = stkPreFrom s x k := by
  unfold stkPreFrom stkSlot
  rw [takeRow_tim, takeRow_stack]

/-! ### The settled statement -/

/-- Settles O36: each command's condition leaves one branch of its meaning. -/
theorem actAndPreMoveTheirHalf : Obligations.ActAndPreMoveTheirHalf := by
  unfold Obligations.ActAndPreMoveTheirHalf
  refine ⟨fun s c b row spare h t0 ready hrow hh ht0 hclosed hfree hrc hidle hrate => ?_, fun s c b h both ready hr hpre => ?_⟩
  · have hc := ready.1
    subst ht0
    have hact := doAct_opens (ready.takeRow (.act ⟨c, 0⟩ b row spare)) (by rwa [takeRow_rows]) (by rwa [takeRow_halfOf])
      (MayActivate.takeRow ⟨hclosed, hfree, hrc, hidle, hrate⟩ _)
    obtain ⟨hframe, hmem⟩ := kept_modStk (takeRow_frame s c (.act ⟨c, 0⟩ b row spare)) (takeRow_mem ..)
      (fun x => x.activated b h (if spare then fieldNat row 0 5 else row.toNat) spare (rowTime s c (.act ⟨c, 0⟩ b row spare)))
      (fun _ => rfl)
    refine ⟨_, (exec_row_sent rfl hc).trans (congrArg _ hact), ?_, hframe, hmem⟩
    rw [stk_modStk, takeRow_stk]
    rfl
  · have hc := ready.1
    have hclose := doPre_closes (ready.takeRow (.pre ⟨c, 0⟩ b h both)) (h := h) (both := both) (b := b)
      (t := rowTime s c (.pre ⟨c, 0⟩ b h both)) (by simpa only [takeRow_stk, takeRow_preFrom] using hpre)
    obtain ⟨hframe, hmem⟩ := kept_modStk (takeRow_frame s c (.pre ⟨c, 0⟩ b h both)) (takeRow_mem ..)
      (fun x => closeAll (rowTime s c (.pre ⟨c, 0⟩ b h both)) b x (preHalves h both)) (fun _ => closeAll_held ..)
    refine ⟨_, (exec_row_sent rfl hc).trans (congrArg _ hclose), fun i hi => ?_, fun b' i hne => ?_, ?_, hframe, hmem⟩
    all_goals rw [stk_modStk, takeRow_stk]
    · exact closeAll_closes _ _ hr (.inl ((mem_preHalves i).2 hi))
    · refine closeAll_opens_other _ _ _ (fun j hj heq => hne ?_)
      have hj2 := lt_two_of_mem_preHalves hj
      obtain ⟨hb, hi⟩ : b' = b ∧ i.val = j := by unfold halfKey at heq; omega
      exact ⟨hb, (mem_preHalves i).1 (hi ▸ hj)⟩
    · exact closeAll_prechargesOnly ..

end Sys2Proof.Machine
end

section
/-! Held fragments start to drain once writing is allowed, one job to a sector in the order of their arrival (R199). -/

namespace Sys2Proof.Machine

/-! ### Jobs of a drain (R181, R199) -/

/-- What a work item's job is for, its numbers and its progress aside. -/
def jobSort (j : Job) : JobKind × Place × Option Vault × Cls := (j.kind, j.place, j.vault, j.cls)

/-- The job of a drain of one sector. -/
def drainSort (p : Place × Option Vault) : JobKind × Place × Option Vault × Cls := (.drain, p.1, p.2, .bl)

/-- The sectors of octant k that hold fragments and have no drain yet, in the order of arrival (R199). -/
def drainTodo (s : State) (k : Nat) : List (Place × Option Vault) :=
  (((oct s k).held.filter (fun h => !((oct s k).jobs.any (fun j => j.isDrain && j.place == h.place)))).map
    (fun h => (h.place, h.vault))).eraseDups

/-- A drain of each of these sectors joins octant k's work items (R181). -/
def addDrains (s : State) (k : Nat) (todo : List (Place × Option Vault)) : State :=
  todo.foldl (fun t p => addJob t k none .drain p.1 p.2 .bl (synthDl t .bl) 16) s

/-- From s to t, octant k has taken a drain of each of these sectors, and nothing else of the block has changed. -/
structure DrainsAdded (s t : State) (k : Nat) (todo : List (Place × Option Vault)) : Prop where
  jobs : (oct t k).jobs.map jobSort = (oct s k).jobs.map jobSort ++ todo.map drainSort
  queue : (oct t k).queue.length = (oct s k).queue.length + todo.length
  held : (oct t k).held = (oct s k).held
  frame : t = { s with octs := t.octs }

theorem DrainsAdded.trans {s t u : State} {k : Nat} {xs ys : List (Place × Option Vault)} (h : DrainsAdded s t k xs)
    (g : DrainsAdded t u k ys) : DrainsAdded s u k (xs ++ ys) where
  jobs := by rw [g.jobs, h.jobs, List.map_append, List.append_assoc]
  queue := by rw [g.queue, h.queue, List.length_append, Nat.add_assoc]
  held := g.held.trans h.held
  frame := by rw [g.frame, h.frame]

theorem addJob_drainsAdded (s : State) (k : Nat) (p : Place × Option Vault) (dl : Int) (portNo : Nat) :
    DrainsAdded s (addJob s k none .drain p.1 p.2 .bl dl portNo) k [p] where
  jobs := by unfold addJob; rw [oct_modOct, List.map_append]; rfl
  queue := by unfold addJob; rw [oct_modOct, List.length_append]; rfl
  held := by unfold addJob; rw [oct_modOct]
  frame := rfl

theorem addDrains_drainsAdded (s : State) (k : Nat) (todo : List (Place × Option Vault)) :
    DrainsAdded s (addDrains s k todo) k todo := by
  induction todo generalizing s with
  | nil => exact ⟨(List.append_nil _).symm, rfl, rfl, rfl⟩
  | cons p todo ih => exact (addJob_drainsAdded s k p _ 16).trans (ih _)

/-! ### When a drain starts (R199) -/

theorem exec_heldDrainStart {s : State} {k : Fin 8} (hk : k < nOct s) : exec (.heldDrainStart k) s = .next (drainStart s k) :=
  if_pos hk

theorem drainStart_of_forbidden {s : State} (hw : s.thm.w = .hold ∨ s.thm.w = .trip) (k : Nat) : drainStart s k = s := by
  unfold drainStart
  refine if_pos ?_
  rcases hw with hw | hw <;> simp [hw]

/-- A Crown that works and may write starts a drain of each sector that it holds fragments for; it may hold none. -/
theorem drainStart_of_allowed {s : State} {k : Nat} (hruns : crownRuns s k = true) (hw : s.thm.w = .open_ ∨ s.thm.w = .brim) :
    drainStart s k = addDrains s k (drainTodo s k) := by
  have hmay : (s.thm.w == .open_ || s.thm.w == .brim) = true := by simpa using hw
  cases hheld : (oct s k).held with
  | nil =>
    have hnone : drainTodo s k = [] := by
      unfold drainTodo
      rw [hheld]
      rfl
    rw [hnone]
    unfold drainStart
    exact if_pos (by simp [hheld])
  | cons h hs =>
    unfold drainStart
    exact if_neg (by simp [hheld, hmay, hruns])

end Sys2Proof.Machine
end

section
/-! An operation whose parts are complete replies, with its result where DEST is RETURN (R156, R165, R171). -/

namespace Sys2Proof.Machine

/-! ### The reply of a request whose parts are done (R50, R54) -/

/-- From s to t, request r has replied with its own outcome, and with these beats where the outcome lets it have data; the
channels and the stack are as they were (R50, R54). -/
def RepliesWith (s t : State) (r : Req) (beats : List RplData) : Prop :=
  ∃ rp, (port t r.port).replies = (port s r.port).replies ++ [rp] ∧ rp.id = r.id ∧ rp.tag = r.h.tag ∧
    rp.outcome = (finalOutcome s r).1.code ∧ rp.detail = (finalOutcome s r).2 ∧
    rp.beats = (if (finalOutcome s r).1 = .discard ∨ (finalOutcome s r).1 = .gated then [] else beats) ∧
    t.stack = s.stack ∧ t.chans = s.chans

/-- A reply since the books of s were changed, and its free choices counted, is one since s. -/
theorem RepliesWith.of_booked {s u t : State} {n : Nat} {r : Req} {beats : List RplData} (hu : Booked { s with free := n } u)
    (h : RepliesWith u t r beats) : RepliesWith s t r beats := by
  rw [show u = _ from hu] at h
  exact h

/-- The books and the free choices hold no request. -/
theorem findReq_of_booked {s u : State} {n : Nat} (hu : Booked { s with free := n } u) (id : Nat) :
    findReq u id = findReq s id := by
  rw [show u = _ from hu]
  rfl

theorem findReq_id {s : State} {id : Nat} {r : Req} (hf : findReq s id = some r) : r.id = id := by
  simpa using List.find?_some hf

/-- A request whose parts are all done replies with the data that it has (R50). -/
theorem finishReq_repliesWith {s : State} {id : Nat} {r : Req} (hf : findReq s id = some r) (ha : r.stage = .admitted) :
    RepliesWith s (finishReq s id) r (replyData r) := by
  obtain ⟨hchans, hstack, -, -, -⟩ := EndsParts.finishReq s id
  refine ⟨replyOf (lateCounted s r) r (finalOutcome s r).1 (finalOutcome s r).2
    (if (finalOutcome s r).1 = .discard ∨ (finalOutcome s r).1 = .gated then [] else replyData r),
    ?_, rfl, rfl, rfl, rfl, rfl, hstack, hchans⟩
  rw [finishReq_of_admitted hf ha, replyReq_port, if_pos (by simp [ha]), port_booked (booked_lateCounted s r)]

/-- The last part of a request lets it reply (R22). -/
theorem partsDone_repliesWith {s : State} {id : Nat} {r : Req} (hf : findReq s id = some r) (ha : r.stage = .admitted)
    (ht : r.todo = 1) : RepliesWith s (partsDone s id 1) r (replyData r) := by
  have hf' := find_modReq s id r (fun r => { r with todo := r.todo - 1 }) (fun _ => rfl) hf
  have hdone : partsDone s id 1 = finishReq (modReq s id (fun r => { r with todo := r.todo - 1 })) id := by
    unfold partsDone
    dsimp only
    rw [hf']
    exact if_pos ⟨ha, by rw [ht]⟩
  have hreply := finishReq_repliesWith hf' ha
  rw [hdone]
  exact hreply

/-! ### The sectors of a result (R156, R163) -/

theorem booked_scratchErrs (s : State) (k : Nat) (xs : List Sector) : Booked s (scratchErrs s k xs) := by
  have hce : Booked s (if 0 < (xs.map ceCount).sum then bumpReg s (octPage k) 0x098 0 16 (xs.map ceCount).sum else s) :=
    (Booked.refl s).andIf (booked_bumpReg ..)
  exact hce.andIf ((booked_bumpReg ..).trans (booked_latch ..))

/-- The sectors of a result are made with free choices, and reading them from scratch may count errors (R180, log 6). -/
theorem resultSectors_frame (s : State) (op : Op) : ∃ n, Booked { s with free := n } (resultSectors s op).2 := by
  unfold resultSectors
  split
  · exact ⟨s.free, booked_scratchErrs s op.head _⟩
  · exact ⟨(combine op s.free).2, .refl _⟩

/-! ### The delivery (R165, R171) -/

/-- The forms of operations that have no result: they reply alone (R163, R165). -/
def noResult (f : OpForm) : Bool := match f with | .scatter | .fill | .copyRes | .copyStr => true | _ => false

theorem noResult_iff (f : OpForm) : noResult f = true ↔ f = .fill ∨ f = .copyRes ∨ f = .copyStr ∨ f = .scatter := by
  cases f <;> decide

theorem exec_operationResultDelivery (d : BitVec 8) (s : State) :
    exec (.operationResultDelivery d) s = .next (deliverResult s d.toNat) := rfl

/-- An operation that no poisoned and no reconstructed part has met leaves its request as it is (R174). -/
theorem opOutcome_clean {op : Op} (hp : op.poison = none) (hr : op.recon = false) (s : State) : opOutcome s op = s := by
  unfold opOutcome
  rw [hp, hr]
  rfl

theorem deliverResult_waits {s : State} {d : Nat} {op : Op} (hop : opOf s d = some op)
    (h : opReady op = false ∨ op.writing = true ∨ op.stopped = true) : deliverResult s d = s := by
  unfold deliverResult
  rw [hop]
  refine if_pos ?_
  rcases h with h | h | h <;> simp [h]

/-- An operation d of the descriptor table whose parts are all complete, neither stopped nor writing its result. -/
structure OpComplete (s : State) (d : Nat) (op : Op) : Prop where
  found : opOf s d = some op
  goesOn : op.stopped = false
  unwritten : op.writing = false
  ready : opReady op = true

section

variable {s : State} {d : Nat} {op : Op}

theorem OpComplete.delivers (h : OpComplete s d op) : deliverResult s d =
    if noResult op.form then partsDone (opOutcome s op) op.req 1
    else if lateAt s op then cancelLate s d
    else if op.d.dest = 2 && writeForbidden s then s
    else deliverTo (resultSectors s op).2 d op (resultSectors s op).1 := by
  obtain ⟨hop, hs, hw, hr⟩ := h
  unfold deliverResult
  rw [hop]
  exact if_neg (by simp [hs, hw, hr])

theorem OpComplete.delivers_no_result (h : OpComplete s d op) (hp : op.poison = none) (hr : op.recon = false)
    (hf : noResult op.form = true) : deliverResult s d = partsDone s op.req 1 := by
  rw [h.delivers, if_pos hf, opOutcome_clean hp hr]

theorem OpComplete.delivers_late (h : OpComplete s d op) (hf : ¬ noResult op.form = true) (hl : lateAt s op = true) :
    deliverResult s d = cancelLate s d := by
  rw [h.delivers, if_neg hf, if_pos hl]

/-- A sound result with destination RETURN goes with the reply, once its Crown has counted it (R165). -/
theorem deliverTo_return (hp : op.poison = none) (hr : op.recon = false) (hdest : op.d.dest = 0) {xs : List Sector}
    (hbad : xs.any sectorBad = false) : ∃ u, Booked s u ∧ deliverTo s d op xs = deliverReturn u op xs := by
  unfold deliverTo
  rw [opOutcome_clean hp hr, hbad]
  exact ⟨_, booked_countEv .., if_pos hdest⟩

theorem OpComplete.delivers_return (h : OpComplete s d op) (hp : op.poison = none) (hr : op.recon = false)
    (hf : ¬ noResult op.form = true) (hl : lateAt s op = false) (hdest : op.d.dest = 0)
    (hbad : (resultSectors s op).1.any sectorBad = false) :
    ∃ u, Booked (resultSectors s op).2 u ∧ deliverResult s d = deliverReturn u op (resultSectors s op).1 := by
  rw [h.delivers, if_neg hf, if_neg (by simp [hl]), if_neg (by simp [hdest])]
  exact deliverTo_return hp hr hdest hbad

/-- The result of an operation is what its request replies with (R165). -/
theorem deliverReturn_repliesWith {r : Req} (hf : findReq s op.req = some r) (ha : r.stage = .admitted) (ht : r.todo = 1)
    (xs : List Sector) : RepliesWith s (deliverReturn s op xs) r (beatsOf xs) := by
  have hreply := partsDone_repliesWith
    (find_modReq s op.req r (fun r => { r with rdata := (xs.zipIdx).map (fun e => (e.2, e.1)), tDone := some s.time.cyc })
      (fun _ => rfl) hf) ha ht
  have hdata : ((xs.zipIdx).map (fun e => (e.2, e.1))).map (·.2) = xs := by
    rw [List.map_map]
    exact List.zipIdx_map_fst 0 xs
  unfold replyData at hreply
  rw [hdata] at hreply
  exact hreply

end

/-! ### The settled statement -/

/-- Settles O35: an induction over the sectors that start to drain, and the branch of the delivery that each condition
leaves. -/
theorem drainsAndResults : Obligations.DrainsAndResults := by
  unfold Obligations.DrainsAndResults
  refine ⟨fun s k hk hw => ?_, fun s k hk hruns hw => ?_, fun s d op hop h => ?_,
    fun s d op r hop hstop hwr hready hp hr hf ha ht => ⟨fun hform hdata => ?_, fun h1 h2 h3 h4 => ?_⟩⟩
  · rw [exec_heldDrainStart hk, drainStart_of_forbidden hw]
  · obtain ⟨hjobs, hqueue, hheld, hframe⟩ := addDrains_drainsAdded s k (drainTodo s k)
    rw [exec_heldDrainStart hk, drainStart_of_allowed hruns hw]
    exact ⟨_, rfl, hjobs, hqueue, hheld, hframe⟩
  · rw [exec_operationResultDelivery, deliverResult_waits hop h]
  · have hc : OpComplete s d.toNat op := ⟨hop, hstop, hwr, hready⟩
    obtain ⟨rp, hrp, hid, htag, hout, hdetail, hbeats, hkept⟩ := partsDone_repliesWith hf ha ht
    rw [exec_operationResultDelivery, hc.delivers_no_result hp hr ((noResult_iff _).2 hform)]
    refine ⟨_, rp, rfl, hrp, hid.trans (findReq_id hf), htag, hout, hdetail, hbeats.trans ?_, hkept⟩
    unfold replyData
    rw [hdata]
    exact ite_self _
  · have hc : OpComplete s d.toNat op := ⟨hop, hstop, hwr, hready⟩
    have hform : ¬ noResult op.form = true := by simp [noResult_iff, h1, h2, h3, h4]
    rw [exec_operationResultDelivery]
    refine ⟨fun hl => congrArg _ (hc.delivers_late hform hl), fun hl hdest hbad => ?_⟩
    obtain ⟨n, hfree⟩ := resultSectors_frame s op
    obtain ⟨u, hcounted, hdeliver⟩ := hc.delivers_return hp hr hform hl hdest hbad
    have hu := hfree.trans hcounted
    obtain ⟨rp, hrp, hid, hrest⟩ := (deliverReturn_repliesWith ((findReq_of_booked hu _).trans hf) ha ht _).of_booked hu
    rw [hdeliver]
    exact ⟨_, rp, rfl, hrp, hid.trans (findReq_id hf), hrest⟩

end Sys2Proof.Machine
end

section
/-! The work items of the Crowns: partial sectors and combined results join their queue, and a Crown takes its best ready item
(R181, R183). -/

namespace Sys2Proof.Machine

/-! ### Operations read back -/

theorem opOf_putOp (s : State) (d : Nat) (op : Op) : opOf (putOp s d op) d = some op := Tab.find_put_self ..

theorem opOf_of_disp {s t : State} (h : t.disp = s.disp) (d : Nat) : opOf t d = opOf s d := by
  unfold opOf
  rw [h]

/-- The port of an operation's request depends on the descriptor table and the requests alone. -/
theorem opPort_of_disp {s t : State} (hd : t.disp = s.disp) (hr : t.reqs = s.reqs) (d : Nat) : opPort t d = opPort s d := by
  unfold opPort findReq
  rw [opOf_of_disp hd, hr]

theorem modOpChan_found {s : State} {d c : Nat} {op : Op} {x : OpChan} (f : OpChan → OpChan) (hop : opOf s d = some op)
    (hx : Tab.find op.chans c = some x) : opOf (modOpChan s d c f) d = some { op with chans := Tab.put op.chans c (f x) } := by
  unfold modOpChan
  rw [hop]
  dsimp only
  rw [hx]
  exact opOf_putOp ..

theorem headReady_frame (s : State) (d : Nat) : headReady s d = { s with disp := (headReady s d).disp } := by
  unfold headReady
  split
  · split <;> rfl
  · rfl

/-- That the head Crown has its own part changes nothing of the channels' parts. -/
theorem headReady_chans {s : State} {d : Nat} {op : Op} (hop : opOf s d = some op) :
    ∃ op', opOf (headReady s d) d = some op' ∧ op'.chans = op.chans := by
  unfold headReady
  rw [hop]
  dsimp only
  split
  · exact ⟨_, opOf_putOp .., rfl⟩
  · exact ⟨op, hop, rfl⟩

/-! ### Items join a queue (R181, R183) -/

/-- The work item of an operation's part, as it joins a Crown's queue now. -/
def workItem (s : State) (d : Nat) (op : Op) (i : Item) : QItem :=
  { item := i, dl := op.dl, cls := op.cls, joined := s.time.cyc, port := opPort s d }

/-- A work item joins the queue of Crown k. -/
def queueItem (s : State) (k : Nat) (q : QItem) : State := modOct s k (fun o => { o with queue := o.queue ++ [q] })

theorem oct_of_booked {s t : State} (h : Booked s t) (k : Nat) : oct t k = oct s k := by
  rw [show t = _ from h]
  rfl

theorem queueItem_queue {s u : State} (h : Booked s u) (k : Nat) (q : QItem) :
    (oct (queueItem u k q) k).queue = (oct s k).queue ++ [q] := by
  unfold queueItem
  rw [oct_modOct, oct_of_booked h]

/-- A partial sector has left the front of those on their way, and the slice that it came from, where it still runs, has it. -/
def partialTaken (s : State) (c d k : Nat) (x : Sector) (rest : List (Nat × Nat × Sector)) : State :=
  setChan s c { chan s c with
    partIn := rest
    running := match Tab.find (chan s c).running k with
      | some r => if r.d = d then Tab.put (chan s c).running k { r with got := r.got ++ [x] } else (chan s c).running
      | none => (chan s c).running }

theorem partialArrives_joins {s : State} {c d k : Nat} {x : Sector} {rest : List (Nat × Nat × Sector)} {op : Op}
    (hin : (chan s c).partIn = (d, k, x) :: rest) (hop : opOf s d = some op) :
    ∃ u, Booked (partialTaken s c d k x rest) u ∧
      partialArrives s c = queueItem u (octOf c) (workItem s d op (.partialSec d c x)) := by
  have hcounted : Booked (partialTaken s c d k x rest) (evOct (partialTaken s c d k x rest) (octOf c) 0x07 1
    (opAttr (partialTaken s c d k x rest) op)) := booked_countEv ..
  obtain ⟨-, htime, -, -, -, -, hreqs, -, -, -, -, -, hdisp, -⟩ := hcounted.keeps
  refine ⟨_, hcounted, ?_⟩
  unfold partialArrives
  dsimp only
  rw [hin]
  dsimp only
  rw [show opOf (setChan s c _) d = some op from hop]
  unfold queueItem workItem
  rw [← show opPort _ d = opPort s d from opPort_of_disp hdisp hreqs d, ← show _ = s.time from htime]
  rfl

theorem fabricArrives_joins {s : State} {d k : Nat} {op : Op} (hop : opOf s d = some op) (hgo : op.stopped = false)
    (hhead : k ≠ op.head) (hsends : (sendingOcts op).contains k = true) (hready : octReady op k = true)
    (hnew : op.octDone.contains k = false) (hq : ∀ q ∈ (oct s op.head).queue, q.item ≠ .fabric d k) :
    ∃ u, Booked s u ∧ fabricArrives s d k = queueItem u op.head (workItem s d op (.fabric d k)) := by
  have hcounted : Booked s (evOct s k 0x0A (octSectors op k) none) := booked_countEv ..
  obtain ⟨-, htime, -, -, -, -, hreqs, -, -, -, -, -, hdisp, -⟩ := hcounted.keeps
  have hqueued : (oct s op.head).queue.any (fun q => q.item == .fabric d k) = false := by simpa using hq
  refine ⟨_, hcounted, ?_⟩
  unfold fabricArrives
  rw [hop]
  dsimp only
  rw [if_neg (by rw [hgo, hsends, hready, hnew, hqueued]; simpa using hhead)]
  unfold queueItem workItem
  rw [opPort_of_disp hdisp hreqs, htime]

/-! ### What taking an item leaves alone -/

/-- The queue of Crown k, the ports and the stack are as before. -/
structure KeepsQueue (s t : State) (k : Nat) : Prop where
  queue : (oct t k).queue = (oct s k).queue
  stack : t.stack = s.stack
  ports : t.ports = s.ports

namespace KeepsQueue

variable {s t u : State} {k : Nat}

theorem refl (s : State) (k : Nat) : KeepsQueue s s k := ⟨rfl, rfl, rfl⟩

theorem trans (h : KeepsQueue s t k) (g : KeepsQueue t u k) : KeepsQueue s u k :=
  ⟨g.queue.trans h.queue, g.stack.trans h.stack, g.ports.trans h.ports⟩

theorem of_booked (h : Booked s t) (k : Nat) : KeepsQueue s t k := by
  rw [show t = _ from h]
  exact ⟨rfl, rfl, rfl⟩

/-- A change of the descriptor table alone. -/
theorem of_disp (h : t = { s with disp := t.disp }) (k : Nat) : KeepsQueue s t k := by
  rw [h]
  exact ⟨rfl, rfl, rfl⟩

theorem setJob (s : State) (k : Nat) (j : Job) : KeepsQueue s (setJob s k j) k :=
  ⟨(congrArg Oct.queue (oct_modOct s k _)).trans rfl, rfl, rfl⟩

theorem enqueue (s : State) (e : Entry) (k : Nat) : KeepsQueue s (enqueue s e) k := ⟨rfl, rfl, rfl⟩

end KeepsQueue

theorem booked_mergeOps (s : State) (k : Nat) (op : Op) (more : Bool) : Booked s (mergeOps s k op more) := by
  unfold mergeOps
  split
  · exact .refl s
  · split
    · exact (booked_countEv ..).trans (booked_countEv ..)
    · exact booked_countEv ..
    · exact .refl s

theorem takeJob_keepsQueue (s : State) (k jid : Nat) : KeepsQueue s (takeJob s k jid) k := by
  unfold takeJob
  split
  · exact .refl s k
  · split
    · exact .trans (.setJob ..) (.enqueue ..)
    · exact .setJob ..

theorem takeEnd_keepsQueue (s : State) (k d ch first count : Nat) (last : Bool) (res : List Sector) :
    KeepsQueue s (takeEnd s k d ch first count last res) k := by
  unfold takeEnd
  split
  · exact .refl s k
  · exact ((KeepsQueue.of_booked (booked_mergeOps ..) k).trans (.of_disp (modOpChan_frame ..) k)).trans
      (.of_disp (headReady_frame ..) k)

theorem takeFabric_keepsQueue (s : State) (k d oc : Nat) : KeepsQueue s (takeFabric s k d oc) k := by
  unfold takeFabric
  split
  · exact .refl s k
  · exact .trans (.of_disp rfl k) (.of_booked (booked_mergeOps ..) k)

/-! ### What taking an item does -/

/-- What the item that Crown k has taken does (R183). -/
def itemEffect (s : State) (k : Nat) : Item → State
  | .job j => takeJob s k j
  | .partialSec _ _ _ => s
  | .sliceEnd d ch first count last res => takeEnd s k d ch first count last res
  | .fabric d oc => takeFabric s k d oc

theorem itemEffect_keepsQueue (s : State) (k : Nat) (i : Item) : KeepsQueue s (itemEffect s k i) k := by
  cases i with
  | job j => exact takeJob_keepsQueue ..
  | partialSec d ch x => exact .refl s k
  | sliceEnd d ch first count last res => exact takeEnd_keepsQueue ..
  | fabric d oc => exact takeFabric_keepsQueue ..

/-- Crown k with a work item taken off its queue. -/
def itemTaken (s : State) (k : Nat) (q : QItem) : State :=
  setOct s k { oct s k with queue := (oct s k).queue.erase q, prog := 0 }

theorem itemTake_takes {s : State} {k : Nat} {q : QItem} (hruns : crownRuns s k = true)
    (hbest : bestBy (itemBefore (oct s k)) ((oct s k).queue.filter (itemReady (oct s k))) = some q) :
    ∃ u, Booked (itemTaken s k q) u ∧ itemTake s k = itemEffect u k q.item := by
  refine ⟨evOct (itemTaken s k q) k 0x01 1 none, booked_countEv .., ?_⟩
  unfold itemTake
  rw [if_neg (by simp [hruns])]
  dsimp only
  rw [hbest]
  obtain ⟨i, dl, cls, joined, portNo⟩ := q
  cases i <;> rfl

theorem itemTake_idle {s : State} {k : Nat} (hruns : crownRuns s k = false) : itemTake s k = s := by
  unfold itemTake
  exact if_pos (by simp [hruns])

/-- A job that is no parity update then wants its lock (R201). -/
theorem takeJob_wants {s : State} {k : Nat} {j : Job} (hj : (oct s k).jobs.find? (fun x => x.jid == j.jid) = some j)
    (hkind : ∀ p v, j.kind ≠ .parity p v) : takeJob s k j.jid = setJob s k { j with st := .wantLock } := by
  unfold takeJob
  rw [hj]
  dsimp only
  split
  · next p v hpar => exact absurd hpar (hkind p v)
  · rfl

/-- A slice's end brings its partials to those of its channel (R183). -/
theorem takeEnd_adds {s : State} {d ch : Nat} {op : Op} {x : OpChan} (k first count : Nat) (last : Bool) (res : List Sector)
    (hop : opOf s d = some op) (hx : Tab.find op.chans ch = some x) :
    ∃ op' y, opOf (takeEnd s k d ch first count last res) d = some op' ∧ Tab.find op'.chans ch = some y ∧
      y.parts = x.parts ++ [(first, count, res)] := by
  unfold takeEnd
  rw [hop]
  dsimp only
  have hmerged : ∀ more, opOf (mergeOps s k op more) d = some op := fun more => by
    obtain ⟨-, -, -, -, -, -, -, -, -, -, -, -, hdisp, -⟩ := (booked_mergeOps s k op more).keeps
    rw [opOf_of_disp hdisp, hop]
  obtain ⟨op', hop', hchans⟩ := headReady_chans (modOpChan_found _ (hmerged _) hx)
  exact ⟨op', _, hop', (congrArg (fun t => Tab.find t ch) hchans).trans (Tab.find_put_self ..), rfl⟩

/-- The head Crown notes whose result it has taken (R183). -/
theorem takeFabric_notes {s : State} {d : Nat} {op : Op} (k oc : Nat) (hop : opOf s d = some op) :
    opOf (takeFabric s k d oc) d = some { op with octDone := op.octDone ++ [oc] } := by
  unfold takeFabric
  rw [hop]
  obtain ⟨-, -, -, -, -, -, -, -, -, -, -, -, hdisp, -⟩ :=
    (booked_mergeOps (putOp s d { op with octDone := op.octDone ++ [oc] }) k op (!op.octDone.isEmpty)).keeps
  exact (opOf_of_disp hdisp d).trans (opOf_putOp ..)

/-! ### The settled statement -/

theorem exec_partialArrival {s : State} {c : Fin 64} (hc : c < nChan s) :
    exec (.partialArrival c) s = .next (partialArrives s c) := onChan_ready hc (fun s => partialArrives s c)

theorem exec_fabricTransferArrival {s : State} {k : Fin 8} (hk : k < nOct s) (d : BitVec 8) :
    exec (.fabricTransferArrival d k) s = .next (fabricArrives s d.toNat k) := if_pos hk

theorem exec_crownItemTake {s : State} {k : Fin 8} (hk : k < nOct s) : exec (.crownItemTake k) s = .next (itemTake s k) :=
  if_pos hk

/-- Settles O33: an arrival counts its event and joins a queue; a taken item leaves the queue, and its kind says what it does. -/
theorem crownsQueueAndTakeItems : Obligations.CrownsQueueAndTakeItems := by
  unfold Obligations.CrownsQueueAndTakeItems
  refine ⟨fun s c d k x rest op hc hin hop => ?_, fun s d k op hk hop hgo hhead hsends hready hnew hq => ?_,
    fun s k q hk hruns hbest => ?_, fun s k hk hruns => ?_⟩
  · obtain ⟨u, hu, hjoins⟩ := partialArrives_joins hin hop
    rw [exec_partialArrival hc, hjoins]
    refine ⟨_, rfl, ?_, queueItem_queue hu .., ?_⟩
    · exact congrArg Chan.partIn ((chan_of_booked hu c).trans (chan_setChan ..))
    · obtain ⟨-, hstack, -⟩ := KeepsQueue.of_booked hu 0
      exact hstack
  · obtain ⟨u, hu, hjoins⟩ := fabricArrives_joins hop hgo hhead hsends hready hnew hq
    obtain ⟨-, -, -, -, -, -, -, -, -, -, -, hchans, -⟩ := hu.keeps
    obtain ⟨-, hstack, -⟩ := KeepsQueue.of_booked hu 0
    rw [exec_fabricTransferArrival hk, hjoins]
    exact ⟨_, rfl, queueItem_queue hu .., hchans, hstack⟩
  · obtain ⟨u, hu, htakes⟩ := itemTake_takes hruns hbest
    have hoct : oct u k = { oct s k with queue := (oct s k).queue.erase q, prog := 0 } :=
      (oct_of_booked hu k).trans (oct_setOct ..)
    obtain ⟨-, -, -, -, -, -, -, -, -, -, -, -, hdisp, -⟩ := hu.keeps
    obtain ⟨hqueue, hstack, hports⟩ := (KeepsQueue.of_booked hu k).trans (itemEffect_keepsQueue u k q.item)
    rw [exec_crownItemTake hk, htakes]
    refine ⟨_, rfl, hqueue.trans (congrArg Oct.queue (oct_setOct ..)), hstack, hports,
      fun j hitem hj hkind => ?_, fun d ch first count last res op x hitem hop hx => ?_, fun d oc op hitem hop => ?_⟩
    all_goals rw [hitem]
    · have hwants : itemEffect u k (.job j.jid) = setJob u k { j with st := .wantLock } :=
        takeJob_wants (by rw [hoct]; exact hj) hkind
      rw [hwants]
      unfold setJob
      rw [oct_modOct, hoct]
    · exact takeEnd_adds k first count last res ((opOf_of_disp hdisp d).trans hop) hx
    · exact takeFabric_notes k oc ((opOf_of_disp hdisp d).trans hop)
  · rw [exec_crownItemTake hk, itemTake_idle hruns]

end Sys2Proof.Machine
end

section
/-! The stack's vector buffer and slice contexts, as the column commands of a stack that hears its wires move them (R185, R213,
R214, R215, Tables 8-4 and 8-6). -/

namespace Sys2Proof.Machine

/-! ### A column command that arrives as it was sent -/

theorem exec_col_sent {i j : Instr} {c : Fin 64} (h : onCol i = some (c, 0, j)) {s : State} (hc : c < nChan s) :
    exec i s = .next (colEffect c (colTime s c j) (colOrder s c j) i (takeCol s c j)) := by
  obtain ⟨noise, e⟩ := exec_col h s
  rw [e, onChan_ready hc, onColWires_sent]

/-- The stack of channel c has heard column command i, of bank group g, and noted it for the timing of the next ones. -/
def colHeard (s : State) (c : Nat) (i : Instr) (g : Nat) (read : Bool) : State :=
  modStk (takeCol s c i) c (fun x => x.noteCol g (colTime s c i) read)

section

variable (s : State) (c : Nat) (i : Instr) (g : Nat) (read : Bool)

theorem colHeard_frame : OnlyStackChannel s (colHeard s c i g read) c := counted_frame ..

theorem colHeard_mem : mem (colHeard s c i g read) = mem s := counted_mem ..

theorem colHeard_stk : stk (colHeard s c i g read) c = (stk s c).noteCol g (colTime s c i) read := counted_stk ..

theorem colHeard_ctx (k : Nat) : (stk (colHeard s c i g read) c).ctx k = (stk s c).ctx k := by
  rw [colHeard_stk]
  rfl

theorem colHeard_time : (colHeard s c i g read).time = s.time := takeCol_time ..

theorem colHeard_gen : (colHeard s c i g read).stack.gen = s.stack.gen := by
  rw [show (colHeard s c i g read).stack.gen = (takeCol s c i).stack.gen from rfl, takeCol_stack]

end

theorem OnlyStackChannel.trans {s t u : State} {c : Nat} (h : OnlyStackChannel s t c) (g : OnlyStackChannel t u c) :
    OnlyStackChannel s u c := by
  obtain ⟨hstate, hother, hchan⟩ := h
  obtain ⟨gstate, gother, gchan⟩ := g
  refine ⟨?_, fun d hd => ⟨(gother d hd).1.trans (hother d hd).1, (gother d hd).2.trans (hother d hd).2⟩, ?_⟩
  · rw [gstate, hstate]
  · rw [gchan, hchan]

/-- The latency of reads is the point's, which no wire command of a channel moves (R208). -/
theorem OnlyStackChannel.rl {s t : State} {c : Nat} (h : OnlyStackChannel s t c) : stkRl t = stkRl s := by
  unfold stkRl stkSlot
  rw [h.1]

/-! ### Reads (R208, R216) -/

theorem stkReadCmd_heard {s : State} {c g : Nat} {i : Instr} (ready : StackReady s c)
    (hcol : stkColOk s.stkTim (stk s c) g (colTime s c i) true = true) (o : Nat) (f : State → State) :
    stkReadCmd (takeCol s c i) c (colTime s c i) o g f = f (colHeard s c i g true) :=
  stkReadCmd_ready (ready.takeCol i) f (by rwa [takeCol_tim, takeCol_stk])

/-- The burst that answers column command i with sector d (R208). -/
def answerTo (s : State) (c : Nat) (i : Instr) (d : Sector) : Burst :=
  { g0 := d.g0, g1 := d.g1, alert := false, order := colOrder s c i, at_ := colTime s c i + stkRl s }

/-- The stack has heard read-type command i and drives sector d (R208). -/
def colAnswered (s : State) (c : Nat) (i : Instr) (g : Nat) (d : Sector) : State :=
  pushBurst (colHeard s c i g true) c (colTime s c i) (colOrder s c i) d false

section

variable (s : State) (c : Nat) (i : Instr) (g : Nat) (d : Sector)

theorem colAnswered_frame : OnlyStackChannel s (colAnswered s c i g d) c := pushBurst_frame (colHeard_frame ..) ..

theorem colAnswered_mem : mem (colAnswered s c i g d) = mem s := (pushBurst_mem ..).trans (colHeard_mem ..)

theorem colAnswered_stk : stk (colAnswered s c i g d) c =
    { (stk s c).noteCol g (colTime s c i) true with ret := (stk s c).ret ++ [answerTo s c i d] } := by
  unfold colAnswered
  rw [pushBurst_stk, colHeard_stk, (colHeard_frame s c i g true).rl]
  rfl

end

/-! ### Writes with their burst (R207, R213) -/

/-- A half-channel that checks a burst changes its count of mismatches and its lanes alone (R244). -/
theorem laneHears_only (x : StkChan) (h t : Nat) (m : LaneMode) (prbs : Byte) (noise : BitVec 320) (g : Granule) :
    laneHears x h t m prbs noise g =
      { x with lnErr := (laneHears x h t m prbs noise g).lnErr, lanes := (laneHears x h t m prbs noise g).lanes } := by
  unfold laneHears
  dsimp only
  split <;> rfl

theorem writeBurst_stk (u : State) (c t : Nat) (d : Sector) (noise : BitVec 320) :
    stk (writeBurst u c t d noise).2 c =
      { stk u c with
        lnErr := (stk (writeBurst u c t d noise).2 c).lnErr, lanes := (stk (writeBurst u c t d noise).2 c).lanes } := by
  unfold writeBurst
  rw [stk_modChan, stk_modStk, laneHears_only, laneHears_only (stk u c)]

/-- The frame of a write-type command: on the wires of its channel PRBS7 alone goes on (R213). -/
theorem OnlyStackChannel.prbsGoesOn {s u : State} {c : Nat} (h : OnlyStackChannel s u c)
    (f : Chan → Nat × SpareWire → Nat × SpareWire)
    (hf : ∀ x e, ((f x e).1, { (f x e).2 with tx := 0 }) = (e.1, { e.2 with tx := 0 })) :
    OnlyStackBurst s (modChan u c (fun x => { x with spares := x.spares.map (f x) })) c := by
  obtain ⟨hstate, hother, hchan⟩ := h
  refine ⟨?_, fun e he => ⟨(chan_modChan_other _ _ _ _ he).trans (hother e he).1, (hother e he).2⟩, ?_, ?_⟩
  · rw [hstate]
    rfl
  · rw [chan_modChan, hchan]
  · rw [chan_modChan, List.map_map, hchan]
    exact List.map_congr_left (fun e _ => hf _ e)

/-- A spare of the block behind a burst of cycle t: PRBS7 has gone on where it is driven (R213). -/
def sparePrbs (t : Nat) (x : Chan) (e : Nat × SpareWire) : Nat × SpareWire :=
  (e.1, if (blockLane x e.1 t).pat then { e.2 with tx := (prbs7 e.2.tx).2 } else e.2)

theorem sparePrbs_tx (t : Nat) (x : Chan) (e : Nat × SpareWire) :
    ((sparePrbs t x e).1, { (sparePrbs t x e).2 with tx := 0 }) = (e.1, { e.2 with tx := 0 }) := by
  unfold sparePrbs
  dsimp only
  split <;> rfl

theorem writeBurst_frame {s u : State} {c : Nat} (h : OnlyStackChannel s u c) (t : Nat) (d : Sector) (noise : BitVec 320) :
    OnlyStackBurst s (writeBurst u c t d noise).2 c :=
  (h.modStk _).prbsGoesOn (sparePrbs t) (sparePrbs_tx t)

/-- What a write burst brings depends on the lanes of its channel alone. -/
theorem writeBurst_received {s u : State} {c : Nat} (hspares : (chan u c).spares = (chan s c).spares)
    (hlanes : (stk u c).lanes = (stk s c).lanes) (t : Nat) (d : Sector) (noise : BitVec 320) :
    (writeBurst u c t d noise).1 = (writeBurst s c t d noise).1 := by
  unfold writeBurst blockLane StkChan.lane
  dsimp only
  rw [hspares, hlanes]

theorem OnlyStackBurst.modStk {s t : State} {c : Nat} (h : OnlyStackBurst s t c) (f : StkChan → StkChan) :
    OnlyStackBurst s (modStk t c f) c := by
  obtain ⟨hstate, hother, hchan, hspares⟩ := h
  refine ⟨?_, fun d hd => ⟨(hother d hd).1, ?_⟩, hchan, hspares⟩
  · rw [hstate]
    rfl
  · rw [stk_modStk_other _ _ _ _ hd]
    exact (hother d hd).2

/-- The stack has heard write-type command i with its burst d (R213). -/
def burstHeard (s : State) (c : Nat) (i : Instr) (g : Nat) (d : Sector) (noise : BitVec 320) : State :=
  (writeBurst (colHeard s c i g false) c (colTime s c i + stkWl s) d noise).2

section

variable (s : State) (c : Nat) (i : Instr) (g : Nat) (d : Sector) (noise : BitVec 320)

theorem burstHeard_frame : OnlyStackBurst s (burstHeard s c i g d noise) c := writeBurst_frame (colHeard_frame ..) ..

theorem burstHeard_mem : mem (burstHeard s c i g d noise) = mem s := (writeBurst_mem ..).trans (colHeard_mem ..)

/-- The burst leaves the open rows and the contexts alone. -/
theorem burstHeard_keeps : (stk (burstHeard s c i g d noise) c).opens = (stk s c).opens ∧
    (stk (burstHeard s c i g d noise) c).ctxs = (stk s c).ctxs := by
  unfold burstHeard
  rw [writeBurst_stk, colHeard_stk]
  exact ⟨rfl, rfl⟩

end

theorem stkWriteCmd_heard {s : State} {c : Fin 64} {g : Nat} {i : Instr} (ready : StackReady s c)
    (hcol : stkColOk s.stkTim (stk s c) g (colTime s c i) false = true) (d : Sector) (noise : BitVec 320)
    (f : Sector → State → State) :
    stkWriteCmd (takeCol s c i) c (colTime s c i) g d noise f = f (received s c i d noise) (burstHeard s c i g d noise) := by
  have hwl : stkWl (takeCol s c i) = stkWl s := by
    unfold stkWl stkSlot
    rw [takeCol_stack]
  obtain ⟨-, -, hchan⟩ := colHeard_frame s c i g false
  have hreceived : (writeBurst (colHeard s c i g false) c (colTime s c i + stkWl s) d noise).1 = received s c i d noise :=
    writeBurst_received (by rw [hchan]) (by rw [colHeard_stk]; rfl) ..
  rw [stkWriteCmd_ready (ready.takeCol i) d noise f (by rwa [takeCol_tim, takeCol_stk]), hwl]
  exact congrArg (fun x => f x (burstHeard s c i g d noise)) hreceived

/-! ### The output area of a context (R185, R214) -/

/-- The frame of a wire command, where the memory keeps all but sectors lo to lo + len - 1 of channel c's vector buffer. -/
structure StoresInArea (s t : State) (c lo len : Nat) : Prop where
  frame : OnlyStackChannel s t c
  vbuf : ∀ e k, ¬ (e = c ∧ lo ≤ k ∧ k < lo + len) → vbufRead t e k = vbufRead s e k
  array : ∀ e sp b r k, arrRead t e sp b r k = arrRead s e sp b r k

theorem StoresInArea.of_mem {s t : State} {c : Nat} (h : OnlyStackChannel s t c) (hm : mem t = mem s) (lo len : Nat) :
    StoresInArea s t c lo len := ⟨h, fun _ _ _ => vbufRead_mem hm .., fun _ _ _ _ _ => arrRead_mem hm ..⟩

theorem StoresInArea.trans {s t u : State} {c lo len : Nat} (h : StoresInArea s t c lo len) (g : StoresInArea t u c lo len) :
    StoresInArea s u c lo len :=
  ⟨h.frame.trans g.frame, fun e k hk => (g.vbuf e k hk).trans (h.vbuf e k hk),
    fun e sp b r k => (g.array e sp b r k).trans (h.array e sp b r k)⟩

/-- What an unlisted sector of the vector buffer reads as depends on the power-on contents alone (R229). -/
theorem vbufWrite_of_gen {a b : Stack} (h : a.gen = b.gen) (c : Nat) (x : StkChan) (k : Nat) (d : Sector) :
    vbufWrite a c x k d = vbufWrite b c x k d := by
  unfold vbufWrite vbufDflt
  rw [h]

theorem StoresInArea.store {s t : State} {c lo len k : Nat} (h : StoresInArea s t c lo len) (hlo : lo ≤ k) (hhi : k < lo + len)
    (d : Sector) : StoresInArea s (modStk t c (fun y => vbufWrite s.stack c y k d)) c lo len := by
  have hgen : s.stack.gen = t.stack.gen := by rw [h.frame.1]
  rw [show (fun y => vbufWrite s.stack c y k d) = (fun y => vbufWrite t.stack c y k d) from
    funext (fun y => vbufWrite_of_gen hgen c y k d)]
  refine h.trans ⟨(OnlyStackChannel.refl t c).modStk _, fun e j hout => ?_, fun e sp b r j => arrRead_vbufStore ..⟩
  refine vbufRead_store_other t c k d e j (fun hin => hout ?_)
  obtain ⟨rfl, rfl⟩ := Prod.mk.inj hin
  exact ⟨rfl, hlo, hhi⟩

/-- How many waiting outputs the area has room for (R185). -/
def Ctx.room (v : Ctx) : Nat := min (v.outLen - v.ready) v.wait.length

/-- A context whose waiting outputs have moved into its area as far as it has room (R185). -/
def Ctx.refilled (v : Ctx) : Ctx := { v with wait := v.wait.drop v.room, ready := v.ready + v.room }

/-- No output is lost where some move into the area. -/
theorem Ctx.refilled_outputs (v : Ctx) : v.refilled.ready + v.refilled.wait.length = v.ready + v.wait.length := by
  have hroom : v.room ≤ v.wait.length := Nat.min_le_right ..
  show v.ready + v.room + (v.wait.drop v.room).length = _
  rw [List.length_drop]
  omega

/-- The outputs of context v of channel c that its area has room for, stored there (R185, R214). -/
def outputsStored (s : State) (c : Nat) (v : Ctx) : State :=
  ((v.wait.take v.room).zipIdx).foldl (fun t e =>
    modStk t c (fun y => vbufWrite s.stack c y (v.outOfs + (v.head + v.ready + e.2) % v.outLen) e.1)) s

theorem outputsStored_inArea (s : State) (c : Nat) (v : Ctx) : StoresInArea s (outputsStored s c v) c v.outOfs v.outLen := by
  refine List.foldlRecOn (motive := fun t => StoresInArea s t c v.outOfs v.outLen) _ _ (.of_mem (.refl s c) rfl ..)
    (fun t h e he => ?_)
  have hroom : v.room ≠ 0 := by
    intro hzero
    rw [hzero] at he
    exact List.not_mem_nil he
  have hlen : 0 < v.outLen := by
    unfold Ctx.room at hroom
    omega
  exact h.store (Nat.le_add_right ..) (Nat.add_lt_add_left (Nat.mod_lt _ hlen) _) e.1

theorem outputsStored_stk (s : State) (c : Nat) (v : Ctx) :
    ∃ b, stk (outputsStored s c v) c = { stk s c with vbuf := b } := by
  refine List.foldlRecOn (motive := fun t => ∃ b, stk t c = { stk s c with vbuf := b }) _ _ ⟨_, rfl⟩ (fun t h e _ => ?_)
  obtain ⟨b, hb⟩ := h
  rw [stk_modStk, hb]
  exact ⟨_, rfl⟩

section

variable (s : State) (c ctx : Nat)

theorem fillOuts_refills :
    fillOuts s c ctx = modStk (outputsStored s c ((stk s c).ctx ctx)) c (fun y => y.setCtx ctx ((stk s c).ctx ctx).refilled) := by
  obtain ⟨b, hb⟩ := outputsStored_stk s c ((stk s c).ctx ctx)
  have hctx : (stk (outputsStored s c ((stk s c).ctx ctx)) c).ctx ctx = (stk s c).ctx ctx := by
    rw [hb]
    rfl
  exact congrArg (fun v => setStk (outputsStored s c ((stk s c).ctx ctx)) c
    ((stk (outputsStored s c ((stk s c).ctx ctx)) c).setCtx ctx
      { v with wait := ((stk s c).ctx ctx).refilled.wait, ready := ((stk s c).ctx ctx).refilled.ready })) hctx

/-- Outputs move into the area of their context, and nowhere else (R185, R214). -/
theorem fillOuts_inArea : StoresInArea s (fillOuts s c ctx) c ((stk s c).ctx ctx).outOfs ((stk s c).ctx ctx).outLen := by
  rw [fillOuts_refills]
  exact (outputsStored_inArea ..).trans
    (.of_mem ((OnlyStackChannel.refl ..).modStk _) (modStk_mem _ _ _ (fun _ => setCtx_held ..)) ..)

theorem fillOuts_stk : ∃ b, stk (fillOuts s c ctx) c = { (stk s c).setCtx ctx ((stk s c).ctx ctx).refilled with vbuf := b } := by
  obtain ⟨b, hb⟩ := outputsStored_stk s c ((stk s c).ctx ctx)
  rw [fillOuts_refills, stk_modStk, hb]
  exact ⟨b, rfl⟩

end

/-! ### PRD (R185, R215) -/

/-- A context one of whose outputs has been read at core cycle `now` (R215). -/
def Ctx.outputRead (now : Nat) (v : Ctx) : Ctx := { v.upTo now with ready := v.ready - 1, head := v.head + 1 }

/-- Outputs that wait for PRD are in the area (R215). -/
theorem outrdy_ready {now : Nat} {v : Ctx} (h : v.outrdy now ≠ 0) : v.ready ≠ 0 := by
  unfold Ctx.outrdy at h
  split at h
  · exact absurd rfl h
  · exact h

/-- One of the outputs of context k has been read by PRD i (R215). -/
def outputTaken (s : State) (c : Nat) (i : Instr) (k : Nat) : State :=
  modStk (colHeard s c i 4 true) c (fun x => x.setCtx k (((stk s c).ctx k).outputRead s.time.cyc))

theorem outputTaken_stk (s : State) (c : Nat) (i : Instr) (k : Nat) : stk (outputTaken s c i k) c =
    ((stk s c).noteCol 4 (colTime s c i) true).setCtx k (((stk s c).ctx k).outputRead s.time.cyc) := by
  unfold outputTaken
  rw [stk_modStk, colHeard_stk]

theorem outputTaken_inArea (s : State) (c : Nat) (i : Instr) (k lo len : Nat) :
    StoresInArea s (outputTaken s c i k) c lo len :=
  .of_mem ((colHeard_frame ..).modStk _) (mem_modStk (colHeard_mem ..) c _ (fun _ => setCtx_held ..)) ..

/-- The output that PRD of context v gives: the next one of its area (R215). -/
def nextOutput (s : State) (c : Nat) (v : Ctx) : Sector := vbufRead s c (v.outOfs + v.head % v.outLen)

/-- The stack has heard PRD i, drives an output of context k, and its outputs that wait move up (R185, R215). -/
def outputSent (s : State) (c : Nat) (i : Instr) (k : Nat) : State :=
  pushBurst (fillOuts (outputTaken s c i k) c k) c (colTime s c i) (colOrder s c i) (nextOutput s c ((stk s c).ctx k)) false

theorem doPrd_outputs {s : State} {c : Nat} {i : Instr} {k : Fin 2} (ready : StackReady s c)
    (hcol : stkColOk s.stkTim (stk s c) 4 (colTime s c i) true = true) (hout : ((stk s c).ctx k).outrdy s.time.cyc ≠ 0) :
    doPrd c k (colTime s c i) (colOrder s c i) (takeCol s c i) = outputSent s c i k := by
  unfold doPrd
  rw [stkReadCmd_heard ready hcol]
  dsimp only
  rw [colHeard_ctx, colHeard_time, if_neg hout, vbufRead_mem (colHeard_mem ..)]
  rfl

theorem outputSent_inArea (s : State) (c : Nat) (i : Instr) (k : Nat) :
    StoresInArea s (outputSent s c i k) c ((stk s c).ctx k).outOfs ((stk s c).ctx k).outLen := by
  have hfill := fillOuts_inArea (outputTaken s c i k) c k
  rw [outputTaken_stk, ctx_setCtx] at hfill
  exact ((outputTaken_inArea ..).trans hfill).trans (.of_mem (pushBurst_frame (.refl ..) ..) (pushBurst_mem ..) ..)

theorem outputSent_stk (s : State) (c : Nat) (i : Instr) (k : Nat) : ∃ b, stk (outputSent s c i k) c =
    { (stk (outputTaken s c i k) c).setCtx k (((stk s c).ctx k).outputRead s.time.cyc).refilled with
      vbuf := b, ret := (stk s c).ret ++ [answerTo s c i (nextOutput s c ((stk s c).ctx k))] } := by
  have hframe := ((outputTaken_inArea s c i k 0 0).frame.trans (fillOuts_inArea (outputTaken s c i k) c k).frame)
  obtain ⟨b, hb⟩ := fillOuts_stk (outputTaken s c i k) c k
  have hctx : (stk (outputTaken s c i k) c).ctx k = ((stk s c).ctx k).outputRead s.time.cyc := by
    rw [outputTaken_stk, ctx_setCtx]
  have hret : (stk (outputTaken s c i k) c).ret = (stk s c).ret := by
    rw [outputTaken_stk]
    rfl
  refine ⟨b, ?_⟩
  unfold outputSent
  rw [pushBurst_stk, hframe.rl, hb, hctx]
  exact congrArg (fun r => { (stk (outputTaken s c i k) c).setCtx k (((stk s c).ctx k).outputRead s.time.cyc).refilled with
    vbuf := b, ret := r ++ [answerTo s c i (nextOutput s c ((stk s c).ctx k))] }) hret

/-- The contexts behind PRD of context k: one output less in its own (R215). -/
theorem outputSent_ctx (s : State) (c : Nat) (i : Instr) (k j : Nat) : (stk (outputSent s c i k) c).ctx j =
    if j = k then (((stk s c).ctx k).outputRead s.time.cyc).refilled else (stk s c).ctx j := by
  obtain ⟨b, hb⟩ := outputSent_stk s c i k
  rw [hb, outputTaken_stk]
  split
  · next hj => exact hj ▸ ctx_setCtx ..
  · next hj => exact (ctx_setCtx_other _ _ _ _ hj).trans (ctx_setCtx_other _ _ _ _ hj)

theorem outputSent_opens (s : State) (c : Nat) (i : Instr) (k : Nat) :
    (stk (outputSent s c i k) c).opens = (stk s c).opens := by
  obtain ⟨b, hb⟩ := outputSent_stk s c i k
  rw [hb, outputTaken_stk]
  rfl

theorem outputSent_ret (s : State) (c : Nat) (i : Instr) (k : Nat) : (stk (outputSent s c i k) c).ret =
    (stk s c).ret ++ [answerTo s c i (nextOutput s c ((stk s c).ctx k))] := by
  obtain ⟨b, hb⟩ := outputSent_stk s c i k
  rw [hb]

/-! ### SRD (R215, Table 8-6) -/

/-- A stack's channel whose context k has given its done response (R215). -/
def StkChan.contextDone (x : StkChan) (k now : Nat) (v : Ctx) : StkChan :=
  releaseBanks (x.setCtx k { v.upTo now with st := .done, wrote := [] }) k

theorem contextDone_ctx (x : StkChan) (k now : Nat) (v : Ctx) :
    (x.contextDone k now v).ctx k = { v.upTo now with st := .done, wrote := [] } := ctx_setCtx ..

theorem contextDone_rsv (x : StkChan) (k now : Nat) (v : Ctx) : ∀ e ∈ (x.contextDone k now v).rsv, e.2 ≠ k := by
  intro e he
  simpa using (List.mem_filter.1 he).2

/-- The stack has heard SRD i and drives the status of context k (Table 8-6). -/
def statusSent (s : State) (c : Nat) (i : Instr) (k : Nat) : State :=
  colAnswered s c i 4 (statusSector s.stack.gen c k s.time.cyc ((stk s c).ctx k))

/-- SRD drives the status; the done response lets the context's banks go (R215). -/
theorem doSrd_answers {s : State} {c : Nat} {i : Instr} {k : Fin 2} (ready : StackReady s c)
    (hcol : stkColOk s.stkTim (stk s c) 4 (colTime s c i) true = true) :
    doSrd c k (colTime s c i) (colOrder s c i) (takeCol s c i) =
      if ctxState s.time.cyc ((stk s c).ctx k) = .done ∧ ((stk s c).ctx k).outrdy s.time.cyc = 0 then
        modStk (statusSent s c i k) c (fun x => x.contextDone k s.time.cyc ((stk s c).ctx k))
      else statusSent s c i k := by
  have htime : (statusSent s c i k).time = s.time := colHeard_time s c i 4 true
  unfold doSrd
  rw [stkReadCmd_heard ready hcol]
  dsimp only
  rw [colHeard_ctx, colHeard_gen, colHeard_time]
  unfold statusSent colAnswered at htime ⊢
  rw [htime]
  rfl

/-! ### The vector buffer and the parameter blocks (R214, Table 8-4) -/

theorem doVwr_stores {s : State} {c : Fin 64} {i : Instr} (ready : StackReady s c)
    (hcol : stkColOk s.stkTim (stk s c) 4 (colTime s c i) false = true) (sec : BitVec 13) (d : Sector) (noise : BitVec 320) :
    doVwr c sec d noise (colTime s c i) (takeCol s c i) = modStk (burstHeard s c i 4 d noise) c
      (fun x => vbufWrite (burstHeard s c i 4 d noise).stack c x sec.toNat (received s c i d noise)) :=
  stkWriteCmd_heard ready hcol ..

theorem doVrd_answers {s : State} {c : Nat} {i : Instr} (ready : StackReady s c)
    (hcol : stkColOk s.stkTim (stk s c) 4 (colTime s c i) true = true) (sec : BitVec 13) :
    doVrd c sec (colTime s c i) (colOrder s c i) (takeCol s c i) = colAnswered s c i 4 (vbufRead s c sec.toNat) := by
  unfold doVrd
  rw [stkReadCmd_heard ready hcol, vbufRead_mem (colHeard_mem ..)]
  rfl

/-- A stack's channel with one half of context k's parameter block replaced (R214). -/
def StkChan.parmPut (x : StkChan) (k part : Nat) (d : Sector) : StkChan :=
  x.setCtx k { x.ctx k with parm := Tab.put (x.ctx k).parm part d }

theorem doSpw_puts {s : State} {c : Fin 64} {i : Instr} (ready : StackReady s c)
    (hcol : stkColOk s.stkTim (stk s c) 4 (colTime s c i) false = true) (k part : Fin 2) (d : Sector) (noise : BitVec 320) :
    doSpw c k part d noise (colTime s c i) (takeCol s c i) =
      modStk (burstHeard s c i 4 d noise) c (fun x => x.parmPut k part (received s c i d noise)) :=
  stkWriteCmd_heard ready hcol ..

theorem ctx_of_ctxs {x y : StkChan} (h : x.ctxs = y.ctxs) (k : Nat) : x.ctx k = y.ctx k := by
  unfold StkChan.ctx
  rw [h]

/-! ### The settled statement -/

section

variable {s : State} {c : Fin 64}

/-- VWR stores its burst in one sector of the vector buffer (Table 8-4). -/
theorem vwr_stores (ready : StackReady s c) (hmem : MemorySound s) (sec : BitVec 13) (d : Sector) (noise : BitVec 320) {i : Instr}
    (hi : onCol (.vwr ⟨c, 0⟩ sec ⟨d, noise⟩) = some (c, 0, i))
    (hcol : stkColOk s.stkTim (stk s c) 4 (colTime s c i) false = true) :
    ∃ t, exec (.vwr ⟨c, 0⟩ sec ⟨d, noise⟩) s = .next t ∧ vbufRead t c sec.toNat = received s c i d noise ∧
      (∀ e k, (e, k) ≠ (c.val, sec.toNat) → vbufRead t e k = vbufRead s e k) ∧
      (∀ e sp b r k, arrRead t e sp b r k = arrRead s e sp b r k) ∧ (stk t c).opens = (stk s c).opens ∧
      (stk t c).ctxs = (stk s c).ctxs ∧ OnlyStackBurst s t c := by
  have hburst := burstHeard_mem s c i 4 d noise
  obtain ⟨hopens, hctxs⟩ := burstHeard_keeps s c i 4 d noise
  refine ⟨_, (exec_col_sent hi ready.1).trans (congrArg _ (doVwr_stores ready hcol sec d noise)),
    vbufRead_store (wf_mem hburst hmem) c.isLt .., fun e k hne => ?_, fun e sp b r k => ?_, ?_, ?_, (burstHeard_frame ..).modStk _⟩
  · rw [vbufRead_store_other _ _ _ _ _ _ hne, vbufRead_mem hburst]
  · rw [arrRead_vbufStore, arrRead_mem hburst]
  · rw [stk_modStk]
    exact hopens
  · rw [stk_modStk]
    exact hctxs

/-- SPW replaces one half of one parameter block (R214). -/
theorem spw_puts (ready : StackReady s c) (k part : Fin 2) (d : Sector) (noise : BitVec 320) {i : Instr}
    (hi : onCol (.spw ⟨c, 0⟩ k part ⟨d, noise⟩) = some (c, 0, i))
    (hcol : stkColOk s.stkTim (stk s c) 4 (colTime s c i) false = true) :
    ∃ t, exec (.spw ⟨c, 0⟩ k part ⟨d, noise⟩) s = .next t ∧
      (stk t c).ctx k = { (stk s c).ctx k with parm := Tab.put ((stk s c).ctx k).parm part (received s c i d noise) } ∧
      (∀ j : Fin 2, j ≠ k → (stk t c).ctx j = (stk s c).ctx j) ∧ (stk t c).opens = (stk s c).opens ∧
      OnlyStackBurst s t c ∧ MemoryKept s t := by
  obtain ⟨hopens, hctxs⟩ := burstHeard_keeps s c i 4 d noise
  have hctx := ctx_of_ctxs hctxs
  refine ⟨_, (exec_col_sent hi ready.1).trans (congrArg _ (doSpw_puts ready hcol k part d noise)), ?_,
    fun j hj => ?_, ?_, (burstHeard_frame ..).modStk _,
    memoryKept_of_mem (mem_modStk (burstHeard_mem ..) c _ (fun _ => setCtx_held ..))⟩
  all_goals rw [stk_modStk]
  · unfold StkChan.parmPut
    rw [ctx_setCtx, hctx]
  · unfold StkChan.parmPut
    rw [ctx_setCtx_other _ _ _ _ (Fin.val_ne_of_ne hj), hctx]
  · exact hopens

end

/-- Settles O42: a stack that hears its wires in time executes what the column names; writes bring their burst, and reads
answer with theirs. -/
theorem vectorBufferAndContexts : Obligations.VectorBufferAndContexts := by
  unfold Obligations.VectorBufferAndContexts
  refine ⟨fun s c sec d n ready => ⟨fun hmem hcol => vwr_stores ready hmem sec d n rfl hcol, fun t0 ht0 hcol => ?_⟩,
    fun s c ctx part d n ready hcol => spw_puts ready ctx part d n rfl hcol, fun s c ctx v t0 ready hv ht0 hcol hout => ?_,
    fun s c ctx v t0 ready hv ht0 hcol => ?_⟩
  · subst ht0
    have hstk := colAnswered_stk s c (.vrd ⟨c, 0⟩ sec) 4 (vbufRead s c sec.toNat)
    refine ⟨_, (exec_col_sent rfl ready.1).trans (congrArg _ (doVrd_answers ready hcol sec)), ?_, ?_, ?_,
      colAnswered_frame .., memoryKept_of_mem (colAnswered_mem ..)⟩
    all_goals rw [hstk]; rfl
  · subst ht0 hv
    obtain ⟨hframe, hvbuf, harray⟩ := outputSent_inArea s c (.prd ⟨c, 0⟩ ctx) ctx
    have hctx := outputSent_ctx s c (.prd ⟨c, 0⟩ ctx) ctx
    refine ⟨_, _, (exec_col_sent rfl ready.1).trans (congrArg _ (doPrd_outputs ready hcol hout)), rfl, outputSent_ret ..,
      ?_, ?_, fun i hi => ?_, outputSent_opens .., hvbuf, harray, hframe⟩
    · rw [hctx, if_pos rfl]
      rfl
    · have hready : ((stk s c).ctx ctx).ready ≠ 0 := outrdy_ready hout
      rw [hctx, if_pos rfl, Ctx.refilled_outputs]
      show ((stk s c).ctx ctx).ready - 1 + ((stk s c).ctx ctx).wait.length + 1 = _
      omega
    · rw [hctx, if_neg (Fin.val_ne_of_ne hi)]
  · subst ht0 hv
    have hstk : stk (statusSent s c (.srd ⟨c, 0⟩ ctx) ctx) c = _ := colAnswered_stk ..
    have hsrd := (exec_col_sent (i := .srd ⟨c, 0⟩ ctx) rfl ready.1).trans (congrArg _ (doSrd_answers ready hcol))
    by_cases hdone : ctxState s.time.cyc ((stk s c).ctx ctx) = .done ∧ ((stk s c).ctx ctx).outrdy s.time.cyc = 0
    · rw [if_pos hdone] at hsrd
      refine ⟨_, _, hsrd, rfl, ?_, fun _ _ => ?_, fun h => absurd hdone (not_and_or.2 h), fun i hi => ?_,
        (colAnswered_frame ..).modStk _, memoryKept_of_mem (mem_modStk (colAnswered_mem ..) c _ (fun _ => rfl))⟩
      all_goals rw [stk_modStk]
      · rw [hstk]
        rfl
      · rw [contextDone_ctx]
        exact ⟨rfl, fun e he => contextDone_rsv _ _ _ _ e he⟩
      · rw [hstk]
        exact ctx_setCtx_other _ _ _ _ (Fin.val_ne_of_ne hi)
    · rw [if_neg hdone] at hsrd
      refine ⟨_, _, hsrd, rfl, ?_, fun h1 h2 => absurd ⟨h1, h2⟩ hdone, fun _ => ?_, fun i _ => ?_,
        colAnswered_frame .., memoryKept_of_mem (colAnswered_mem ..)⟩
      all_goals rw [hstk]
      · rfl
      · exact ⟨rfl, rfl⟩
      · rfl

end Sys2Proof.Machine
end

section
/-! A wire command that changes its channel of the stack alone, said once; refreshes and neighbour refreshes (R216, R255, R262,
R263, Table 8-3). -/

namespace Sys2Proof.Machine

/-! ### Wire commands that change their channel of the stack alone -/

section

variable {s : State} {c : Fin 64}

/-- A row command whose meaning is one change of its channel of the stack, which stores nothing. -/
theorem row_sets {i j : Instr} (hi : onRow i = some (c, 0, j)) (hc : c < nChan s) {f : StkChan → StkChan}
    (h : rowEffect c (rowTime s c j) i (takeRow s c j) = modStk (takeRow s c j) c f) (hf : ∀ x, (f x).held = x.held) :
    ∃ t, exec i s = .next t ∧ stk t c = f (stk s c) ∧ OnlyStackChannel s t c ∧ MemoryKept s t := by
  refine ⟨_, (exec_row_sent hi hc).trans (congrArg _ h), ?_, kept_modStk (takeRow_frame s c j) (takeRow_mem ..) f hf⟩
  rw [stk_modStk, takeRow_stk]

/-- A row command that the stack does not execute. -/
theorem row_ignored {i j : Instr} (hi : onRow i = some (c, 0, j)) (hc : c < nChan s)
    (h : rowEffect c (rowTime s c j) i (takeRow s c j) = takeRow s c j) :
    ∃ t, exec i s = .next t ∧ stk t c = stk s c ∧ OnlyStackChannel s t c ∧ MemoryKept s t :=
  ⟨_, (exec_row_sent hi hc).trans (congrArg _ h), takeRow_stk .., takeRow_frame .., memoryKept_of_mem (takeRow_mem ..)⟩

end

/-! ### REF (R255, Table 5-4) -/

/-- The stack takes an activate, refresh or neighbour refresh of bank b in cycle t in half h: the half is closed, and no
precharge or refresh occupies it (log 14). -/
structure HalfIdle (s : State) (c b h t : Nat) : Prop where
  closed : stkOpen (stk s c) b h = false
  idle : stkIdleOk s.stkTim (stk s c) b h t = true

/-- A REF of bank b in cycle t finds both halves closed and the timing passed, or the stack in ALERT (R216, log 14). -/
def MayRefresh (s : State) (c b t : Nat) : Prop :=
  (stk s c).alert = true ∨ (HalfIdle s c b 0 t ∧ HalfIdle s c b 1 t ∧ stkRateOk s.stkTim (stk s c) b t = true)

/-- The stack's channel once REF has refreshed the next 8 of the bank's rows (R255). -/
def StkChan.refreshed (x : StkChan) (b rows t : Nat) : StkChan :=
  { x.noteAct b t with refCtr := Tab.put x.refCtr b ((Tab.get x.refCtr b 0 + 8) % rows), tRef := Tab.put x.tRef b t }

theorem HalfIdle.takeRow {s : State} {c b h t : Nat} (m : HalfIdle s c b h t) (i : Instr) : HalfIdle (takeRow s c i) c b h t := by
  obtain ⟨hclosed, hidle⟩ := m
  constructor <;> simpa only [takeRow_stk, takeRow_tim]

theorem MayRefresh.takeRow {s : State} {c b t : Nat} (m : MayRefresh s c b t) (i : Instr) : MayRefresh (takeRow s c i) c b t := by
  rcases m with halert | ⟨h0, h1, hrate⟩
  · exact .inl (by rwa [takeRow_stk])
  · exact .inr ⟨h0.takeRow i, h1.takeRow i, by rwa [takeRow_stk, takeRow_tim]⟩

theorem doRef_refreshes {s : State} {c t : Nat} {b : Fin 16} (awake : stkAwake s c = true) (m : MayRefresh s c b t) :
    doRef c b t s = modStk s c (fun x => x.refreshed b (rowsPerBank s) t) := by
  unfold doRef
  rw [stkRowCmd_passes awake]
  rcases m with halert | ⟨⟨hclosed0, hidle0⟩, ⟨hclosed1, hidle1⟩, hrate⟩
  · exact (if_neg (by simp [halert])).trans (if_neg (by simp [halert]))
  · exact (if_neg (by simp [hclosed0, hclosed1])).trans (if_neg (by simp [hidle0, hidle1, hrate]))

/-! ### NRF (R262, R263) -/

/-- An NRF of half h of bank b in cycle t finds the half closed and the timing passed, or the stack in ALERT (R216, log 14). -/
def MayRefreshNeighbours (s : State) (c b h t : Nat) : Prop :=
  (stk s c).alert = true ∨ (HalfIdle s c b h t ∧ since (stk s c).tAct (halfKey b h) t s.stkTim.rc = true ∧
    stkRateOk s.stkTim (stk s c) b t = true)

/-- The stack's channel once NRF has refreshed the neighbours of a row in half h, over 2 or 4 RC (R262, R263). -/
def StkChan.neighboursRefreshed (x : StkChan) (b h row : Nat) (spare rad2 : Bool) (rc t : Nat) : StkChan :=
  { x.noteAct b t with
    lastNrf := some (b, row, spare, rad2), nrfCount := x.nrfCount + 1, tAct := Tab.put x.tAct (halfKey b h) t
    tNrf := Tab.put x.tNrf (halfKey b h) (t + (if rad2 then 4 else 2) * rc) }

theorem MayRefreshNeighbours.takeRow {s : State} {c b h t : Nat} (m : MayRefreshNeighbours s c b h t) (i : Instr) :
    MayRefreshNeighbours (takeRow s c i) c b h t := by
  rcases m with halert | ⟨hhalf, hrc, hrate⟩
  · exact .inl (by rwa [takeRow_stk])
  · exact .inr ⟨hhalf.takeRow i, by rwa [takeRow_stk, takeRow_tim], by rwa [takeRow_stk, takeRow_tim]⟩

theorem doNrf_refreshes {s : State} {c t h : Nat} {b : Fin 16} {row : BitVec 17} {spare : Bool} (rad2 : Bool)
    (awake : stkAwake s c = true) (hh : h = if spare then fieldNat row 5 1 else halfOf s row.toNat)
    (m : MayRefreshNeighbours s c b h t) :
    doNrf c b row spare rad2 t s = modStk s c (fun x => x.neighboursRefreshed b h row.toNat spare rad2 s.stkTim.rc t) := by
  unfold doNrf
  rw [stkRowCmd_passes awake, ← hh]
  rcases m with halert | ⟨⟨hclosed, hidle⟩, hrc, hrate⟩
  · exact (if_neg (by simp [halert])).trans (if_neg (by simp [halert]))
  · exact (if_neg (by simp [hclosed])).trans (if_neg (by simp [hrc, hidle, hrate]))

/-! ### The settled statement -/

/-- Settles O37: what the timing allows, or ALERT lets through, leaves one branch of each refresh. -/
theorem refreshCommands : Obligations.RefreshCommands := by
  unfold Obligations.RefreshCommands
  refine ⟨fun s c b t0 hc awake ht0 hmay => ?_, fun s c b row spare rad2 h t0 hc awake hh ht0 hmay => ?_⟩
  · have may : MayRefresh s c b t0 :=
      hmay.imp_right fun ⟨hclosed0, hclosed1, hidle0, hidle1, hrate⟩ => ⟨⟨hclosed0, hidle0⟩, ⟨hclosed1, hidle1⟩, hrate⟩
    have heff := doRef_refreshes (by rwa [takeRow_awake]) (may.takeRow (.ref ⟨c, 0⟩ b))
    rw [takeRow_rows] at heff
    subst ht0
    exact row_sets (i := .ref ⟨c, 0⟩ b) rfl hc heff (fun _ => rfl)
  · have may : MayRefreshNeighbours s c b h t0 :=
      hmay.imp_right fun ⟨hclosed, hrc, hidle, hrate⟩ => ⟨⟨hclosed, hidle⟩, hrc, hrate⟩
    have heff := doNrf_refreshes rad2 (by rwa [takeRow_awake]) (by rwa [takeRow_halfOf])
      (may.takeRow (.nrf ⟨c, 0⟩ b row spare rad2))
    rw [takeRow_tim] at heff
    subst ht0
    exact row_sets (i := .nrf ⟨c, 0⟩ b row spare rad2) rfl hc heff (fun _ => rfl)

end Sys2Proof.Machine
end

section
/-! Self-refresh, power-down, LANE and NOPs at the stack (R208, R209, R213, R266-R268, R341, Tables 8-3 and 8-4). -/

namespace Sys2Proof.Machine

/-! ### Self-refresh (R268, R341) -/

/-- The stack's channel as it enters self-refresh, its rows closed. -/
def StkChan.selfRefreshing (x : StkChan) (tick : Nat) : StkChan := { x with selfRefresh := true, srMark := tick, opens := [] }

theorem srEnter_eq (s : State) (c : Nat) : srEnter s c = modStk s c (fun x => x.selfRefreshing s.time.tick) := rfl

theorem doSre_enters {s : State} {c : Nat} (awake : stkAwake s c = true) (i : Instr) :
    doSre c (takeRow s c i) = modStk (takeRow s c i) c (fun x => x.selfRefreshing s.time.tick) := by
  unfold doSre
  rw [stkRowCmd_passes (by rwa [takeRow_awake]), srEnter_eq, takeRow_time]

/-- A wire clock that stops without SRE or PDE puts an awake stack into self-refresh (R341). -/
theorem exec_stackWckStop {s : State} {c : Fin 64} (hc : c < nChan s) (awake : stkAwake s c = true) :
    exec (.stackWckStop c) s = .next (modStk s c (fun x => x.selfRefreshing s.time.tick)) :=
  (onChan_ready hc _).trans (congrArg _ (if_pos awake))

/-- The rows that a channel in self-refresh has refreshed of each bank since it entered, by eights (R268). -/
def selfRefreshes (s : State) (c : Nat) : Nat :=
  (s.time.tick - (stk s c).srMark) * (rowsPerBank s / 8) / (if stkHot s then 4000000 else 8000000)

/-- Refresh counters of 16 banks moved on by n steps of eight rows (R255). -/
@[irreducible] def countersMoved (rows n : Nat) (t : Tab Nat) : Tab Nat :=
  (List.range 16).foldl (fun t b => Tab.put t b ((Tab.get t b 0 + 8 * n) % rows)) t

/-- One pass over keys that are all different changes each listed entry once. -/
theorem get_foldl_put (g : Nat → Nat) (l : List Nat) (hl : l.Nodup) (t : Tab Nat) (b : Nat) :
    Tab.get (l.foldl (fun t b => Tab.put t b (g (Tab.get t b 0))) t) b 0 = if b ∈ l then g (Tab.get t b 0) else Tab.get t b 0 := by
  induction l generalizing t with
  | nil => rfl
  | cons a l ih =>
    obtain ⟨ha, hl⟩ := List.nodup_cons.1 hl
    rw [List.foldl_cons, ih hl]
    by_cases hb : b = a
    · subst hb
      rw [if_neg ha, if_pos List.mem_cons_self, Tab.get_put_self]
    · rw [Tab.get_put_other _ _ _ _ _ hb]
      simp only [List.mem_cons, hb, false_or]

theorem get_countersMoved (rows n : Nat) (t : Tab Nat) (b : Fin 16) :
    Tab.get (countersMoved rows n t) b 0 = (Tab.get t b 0 + 8 * n) % rows := by
  unfold countersMoved
  exact (get_foldl_put (fun x => (x + 8 * n) % rows) (List.range 16) List.nodup_range t b).trans (if_pos (List.mem_range.2 b.isLt))

theorem takeRow_hot (s : State) (c : Nat) (i : Instr) : stkHot (takeRow s c i) = stkHot s := by
  unfold stkHot
  rw [takeRow_stack]

theorem takeRow_selfRefreshes (s : State) (c : Nat) (i : Instr) : selfRefreshes (takeRow s c i) c = selfRefreshes s c := by
  unfold selfRefreshes
  rw [takeRow_stk, takeRow_time, takeRow_rows, takeRow_hot]

theorem srAdvance_stk {s : State} {c : Nat} (hsr : (stk s c).selfRefresh = true) : stk (srAdvance s c) c =
    { stk s c with srMark := s.time.tick, refCtr := countersMoved (rowsPerBank s) (selfRefreshes s c) (stk s c).refCtr } := by
  unfold srAdvance countersMoved
  rw [stk_modStk]
  exact if_neg (by simp [hsr])

/-- A channel that SRX has taken out of self-refresh (R208, R268). -/
def selfRefreshLeft (s : State) (c : Nat) : State :=
  modStk (srAdvance s c) c (fun x => { x.calm with selfRefresh := false })

/-- The stack takes the latencies of point p (R208). -/
def atPoint (s : State) (p : Nat) : State := { s with stack := { s.stack with point := p } }

@[simp] theorem stk_atPoint (s : State) (p c : Nat) : stk (atPoint s p) c = stk s c := rfl

theorem atPoint_frame {s u : State} (h : u = { s with chans := u.chans, stack := { s.stack with chans := u.stack.chans } })
    (p : Nat) : atPoint u p =
      { s with chans := (atPoint u p).chans, stack := { s.stack with chans := (atPoint u p).stack.chans, point := p } } := by
  rw [h]
  rfl

theorem doSrx_leaves {s : State} {c : Nat} {p : BitVec 2} (hon : stackOn s = true) (hsr : (stk s c).selfRefresh = true) (hp : p ≠ 3#2) :
    doSrx c p s = atPoint (selfRefreshLeft s c) p.toNat :=
  (if_neg (by simp [hon, hsr])).trans (if_neg hp)

/-- The channel behind an SRX that came over its wires. -/
theorem selfRefreshLeft_stk {s : State} {c : Nat} (hsr : (stk s c).selfRefresh = true) (i : Instr) :
    stk (selfRefreshLeft (takeRow s c i) c) c =
      { (stk s c).calm with
        selfRefresh := false, srMark := s.time.tick
        refCtr := countersMoved (rowsPerBank s) (selfRefreshes s c) (stk s c).refCtr } := by
  unfold selfRefreshLeft
  rw [stk_modStk, srAdvance_stk (by rwa [takeRow_stk]), takeRow_selfRefreshes, takeRow_stk, takeRow_time, takeRow_rows]
  rfl

theorem selfRefreshLeft_frame (s : State) (c : Nat) (i : Instr) : OnlyStackChannel s (selfRefreshLeft (takeRow s c i) c) c :=
  ((takeRow_frame s c i).modStk _).modStk _

/-- SRX leaves self-refresh at the point it names (R208, R268; the counters' steps are log 94's). -/
theorem exec_srx {s : State} {c : Fin 64} {p : BitVec 2} (hc : c < nChan s) (hon : stackOn s = true)
    (hsr : (stk s c).selfRefresh = true) (hp : p ≠ 3#2) :
    exec (.srx ⟨c, 0⟩ p) s = .next (atPoint (selfRefreshLeft (takeRow s c (.srx ⟨c, 0⟩ p)) c) p.toNat) :=
  (exec_row_sent (i := .srx ⟨c, 0⟩ p) rfl hc).trans
    (congrArg _ (doSrx_leaves (by unfold stackOn; rwa [takeRow_pins]) (by rwa [takeRow_stk]) hp))

theorem srx_mem {s : State} {c : Nat} {p : BitVec 2} (hon : stackOn s = true) (hsr : (stk s c).selfRefresh = true) (hp : p ≠ 3#2)
    (i : Instr) : mem (atPoint (selfRefreshLeft (takeRow s c i) c) p.toNat) = mem s := by
  rw [← doSrx_leaves (by unfold stackOn; rwa [takeRow_pins]) (by rwa [takeRow_stk]) hp, doSrx_mem, takeRow_mem]

/-! ### Power-down (R266, R267) -/

theorem doPde_enters {s : State} {c : Nat} (ready : StackReady s c) :
    doPde c s = modStk s c (fun x => { x with powerDown := true }) := by
  unfold doPde
  rw [stkRowCmd_ready ready]

theorem doPdx_leaves {s : State} {c : Nat} (hon : stackOn s = true) (hpd : (stk s c).powerDown = true)
    (hsr : (stk s c).selfRefresh = false) : doPdx c s = modStk s c (fun x => { x with powerDown := false }) :=
  if_pos (by simp [hon, hpd, hsr])

/-! ### LANE (R213) -/

/-- The stack's channel once LANE has given a spare its role from cycle `from_` on (R213). -/
def StkChan.steered (x : StkChan) (h wire : Nat) (sel pat : Bool) (from_ : Nat) : StkChan :=
  { x with
    lanes := Tab.put x.lanes h
      { x.lane h with wire := wire, sel := sel, pat := sel && pat, was := (x.lane h).modeAt from_, from_ := from_ } }

theorem takeRow_slot (s : State) (c : Nat) (i : Instr) : stkSlot (takeRow s c i) = stkSlot s := by
  unfold stkSlot
  rw [takeRow_stack]

theorem doLane_steers {s : State} {c : Nat} (ready : StackReady s c) (h : Fin 2) {wire : BitVec 5} (hw : wire.toNat ≤ 18)
    (sel pat : Bool) (t : Nat) :
    doLane c h wire sel pat t s = modStk s c (fun x => x.steered h wire.toNat sel pat (t + 2 * stkSlot s + 20)) := by
  unfold doLane
  rw [stkRowCmd_ready ready]
  exact if_neg (Nat.not_lt.2 hw)

/-! ### The settled statement -/

/-- A column command that the stack does not execute. -/
theorem col_ignored {s : State} {c : Fin 64} {i j : Instr} (hi : onCol i = some (c, 0, j)) (hc : c < nChan s)
    (h : colEffect c (colTime s c j) (colOrder s c j) i (takeCol s c j) = takeCol s c j) :
    ∃ t, exec i s = .next t ∧ stk t c = stk s c ∧ OnlyStackChannel s t c ∧ MemoryKept s t :=
  ⟨_, (exec_col_sent hi hc).trans (congrArg _ h), takeCol_stk .., takeCol_frame .., memoryKept_of_mem (takeCol_mem ..)⟩

/-- Settles O39: each command changes its channel of the stack once, and a NOP does not. -/
theorem powerLaneAndNop : Obligations.PowerLaneAndNop := by
  unfold Obligations.PowerLaneAndNop
  refine ⟨⟨fun s c hc awake => ⟨?_, ?_⟩, fun s c p hc hon hsr hp => ?_, fun s c ready => ?_,
    fun s c hc hon hpd hsr => ?_⟩, fun s c h wire sel pat from_ ready hw hfrom => ?_, fun s c hc => ⟨?_, ?_⟩⟩
  · exact row_sets (i := .sre ⟨c, 0⟩) rfl hc (doSre_enters awake _) (fun _ => rfl)
  · exact ⟨_, exec_stackWckStop hc awake, stk_modStk ..,
      kept_modStk (.refl s c) rfl (fun x => x.selfRefreshing s.time.tick) (fun _ => rfl)⟩
  · have hstk := selfRefreshLeft_stk hsr (.srx ⟨c, 0⟩ p)
    obtain ⟨hstate, hother, hchan⟩ := selfRefreshLeft_frame s c (.srx ⟨c, 0⟩ p)
    refine ⟨_, exec_srx hc hon hsr hp, ?_, fun b => ?_, rfl, hother, hchan, atPoint_frame hstate _,
      memoryKept_of_mem (srx_mem hon hsr hp _)⟩
    all_goals rw [stk_atPoint, hstk]
    exact get_countersMoved ..
  · exact row_sets (i := .pde ⟨c, 0⟩) rfl ready.1 (doPde_enters (ready.takeRow _)) (fun _ => rfl)
  · exact row_sets (i := .pdx ⟨c, 0⟩) rfl hc
      (doPdx_leaves (by unfold stackOn; rwa [takeRow_pins]) (by rwa [takeRow_stk]) (by rwa [takeRow_stk])) (fun _ => rfl)
  · have heff := doLane_steers (ready.takeRow (.lane ⟨c, 0⟩ h wire sel pat)) h hw sel pat
      (rowTime s c (.lane ⟨c, 0⟩ h wire sel pat))
    rw [takeRow_slot, ← hfrom] at heff
    exact row_sets (i := .lane ⟨c, 0⟩ h wire sel pat) rfl ready.1 heff (fun _ => rfl)
  · exact row_ignored (i := .rowNop ⟨c, 0⟩) rfl hc rfl
  · exact col_ignored (i := .colNop ⟨c, 0⟩) rfl hc rfl

end Sys2Proof.Machine
end

section
/-! Reads and writes of the open row, and the precharge behind RDA and WRA (R207, R208, R212, R213, Tables 5-4 and 8-4). -/

namespace Sys2Proof.Machine

/-! ### The open row (R208, R216) -/

/-- A column access of cycle t finds a row open in half h of bank b, the bank unreserved, and RCD passed (Table 5-4). -/
structure RowOpen (s : State) (c b h t row : Nat) (spare : Bool) : Prop where
  opened : Tab.find (stk s c).opens (halfKey b h) = some (row, spare)
  free : Tab.find (stk s c).rsv b = none
  rcd : since (stk s c).tAct (halfKey b h) t s.stkTim.rcd = true

section

variable {s u : State} {c b h t row : Nat} {spare : Bool}

theorem RowOpen.withOpenRow (m : RowOpen s c b h t row spare) (f : Nat → Bool → State) (bad : State → State) :
    withOpenRow s c t b h f bad = f row spare := by
  obtain ⟨hopen, hfree, hrcd⟩ := m
  unfold Machine.withOpenRow
  dsimp only
  rw [hopen]
  exact (if_neg (by simp [hfree])).trans (if_neg (by simp [hrcd]))

theorem RowOpen.isOpen (m : RowOpen s c b h t row spare) : stkOpen (stk s c) b h = true := by
  unfold stkOpen
  rw [m.opened]
  rfl

/-- The open rows, the reservations, the activates and the timing decide what a column access finds. -/
theorem RowOpen.of_stk (m : RowOpen s c b h t row spare) (ho : (stk u c).opens = (stk s c).opens)
    (hr : (stk u c).rsv = (stk s c).rsv) (ha : (stk u c).tAct = (stk s c).tAct) (ht : u.stkTim = s.stkTim) :
    RowOpen u c b h t row spare := by
  obtain ⟨hopen, hfree, hrcd⟩ := m
  constructor
  · rwa [ho]
  · rwa [hr]
  · rwa [ha, ht]

end

/-! ### The precharge behind RDA and WRA (R212) -/

/-- The half closes behind a column command where the command says so (R212). -/
def closedAfter (auto : Bool) (s : State) (c t b h : Nat) : State := if auto then autoClose s c t b h else s

theorem closedAfter_mem (auto : Bool) (s : State) (c t b h : Nat) : mem (closedAfter auto s c t b h) = mem s := by
  cases auto with
  | true => exact autoClose_mem ..
  | false => rfl

section

variable (auto : Bool) (s : State) (c t b h : Nat)

theorem closedAfter_prechargesOnly : PrechargesOnly (stk s c) (stk (closedAfter auto s c t b h) c) := by
  cases auto with
  | true =>
    unfold closedAfter autoClose
    rw [if_pos rfl, stk_modStk]
    exact stkClose_prechargesOnly ..
  | false => rfl

theorem closedAfter_opens {s : State} {c b h : Nat} (hopen : stkOpen (stk s c) b h = true) :
    (stk (closedAfter auto s c t b h) c).opens = if auto then Tab.drop (stk s c).opens (halfKey b h) else (stk s c).opens := by
  cases auto with
  | true =>
    unfold closedAfter autoClose stkClose
    rw [if_pos rfl, stk_modStk, if_pos hopen]
    rfl
  | false => rfl

/-- What a column command keeps of the channel stays as the half closes. -/
theorem closedAfter_keeps : (stk (closedAfter auto s c t b h) c).ret = (stk s c).ret ∧
    (stk (closedAfter auto s c t b h) c).ctxs = (stk s c).ctxs := by
  have hpre : stk (closedAfter auto s c t b h) c = _ := closedAfter_prechargesOnly auto s c t b h
  rw [hpre]
  exact ⟨rfl, rfl⟩

variable {s c}

theorem closedAfter_frame {s₀ : State} (hs : OnlyStackChannel s₀ s c) :
    OnlyStackChannel s₀ (closedAfter auto s c t b h) c := by
  cases auto with
  | true => exact hs.modStk _
  | false => exact hs

theorem closedAfter_burst {s₀ : State} (hs : OnlyStackBurst s₀ s c) :
    OnlyStackBurst s₀ (closedAfter auto s c t b h) c := by
  cases auto with
  | true => exact hs.modStk _
  | false => exact hs

end

/-! ### RD and RDA (R208, R212) -/

/-- The stack has heard read i of half h of bank b, drives the sector of the open row, and notes the read (Table 5-1). -/
def sectorRead (s : State) (c : Nat) (i : Instr) (b h col row : Nat) (spare : Bool) : State :=
  modStk (colAnswered s c i (b % 4) (arrRead s c spare b row col)) c
    (fun x => { x with tRd := Tab.put x.tRd (halfKey b h) (colTime s c i) })

theorem sectorRead_stk (s : State) (c : Nat) (i : Instr) (b h col row : Nat) (spare : Bool) :
    stk (sectorRead s c i b h col row spare) c =
      { (stk s c).noteCol (b % 4) (colTime s c i) true with
        ret := (stk s c).ret ++ [answerTo s c i (arrRead s c spare b row col)]
        tRd := Tab.put (stk s c).tRd (halfKey b h) (colTime s c i) } := by
  unfold sectorRead
  rw [stk_modStk, colAnswered_stk]
  rfl

theorem doRd_reads {s : State} {c : Nat} {i : Instr} {b : Fin 16} {h : Fin 2} {row : Nat} {spare : Bool} (ready : StackReady s c)
    (hcol : stkColOk s.stkTim (stk s c) (b.val % 4) (colTime s c i) true = true)
    (m : RowOpen s c b h (colTime s c i) row spare) (col : BitVec 5) (auto : Bool) :
    doRd c b h col auto (colTime s c i) (colOrder s c i) (takeCol s c i) =
      closedAfter auto (sectorRead s c i b h col.toNat row spare) c (colTime s c i) b h := by
  have hstk := colHeard_stk s c i (b.val % 4) true
  have heard : RowOpen (colHeard s c i (b.val % 4) true) c b h (colTime s c i) row spare :=
    m.of_stk (by rw [hstk]; rfl) (by rw [hstk]; rfl) (by rw [hstk]; rfl) (takeCol_tim s c i)
  unfold doRd stkColRead
  rw [stkReadCmd_heard ready hcol, heard.withOpenRow, arrRead_mem (colHeard_mem ..)]
  rfl

/-- RD, and RDA with `auto`, answers with the open row's sector (R208, R212). -/
theorem rd_answers {s : State} {c : Fin 64} {b : Fin 16} {h : Fin 2} {row : Nat} {spare : Bool} (ready : StackReady s c) {i : Instr}
    (hi : onCol i = some (c, 0, i)) {col : BitVec 5} {auto : Bool} (heff : ∀ t o, colEffect c t o i = doRd c b h col auto t o)
    (hcol : stkColOk s.stkTim (stk s c) (b.val % 4) (colTime s c i) true = true)
    (m : RowOpen s c b h (colTime s c i) row spare) :
    ∃ t, exec i s = .next t ∧
      (stk t c).ret = (stk s c).ret ++ [answerTo s c i (arrRead s c spare b row col.toNat)] ∧
      (stk t c).opens = (if auto then Tab.drop (stk s c).opens (halfKey b h) else (stk s c).opens) ∧
      (stk t c).ctxs = (stk s c).ctxs ∧ OnlyStackChannel s t c ∧ MemoryKept s t := by
  have hexec := exec_col_sent hi ready.1
  rw [heff, doRd_reads ready hcol m] at hexec
  have hstk := sectorRead_stk s c i b h col.toNat row spare
  have hopen : stkOpen (stk (sectorRead s c i b h col.toNat row spare) c) b h = true := by
    rw [hstk]
    exact m.isOpen
  obtain ⟨hret, hctxs⟩ := closedAfter_keeps auto (sectorRead s c i b h col.toNat row spare) c (colTime s c i) b h
  refine ⟨_, hexec, hret.trans (by rw [hstk]), (closedAfter_opens _ _ hopen).trans (by rw [hstk]; rfl),
    hctxs.trans (by rw [hstk]; rfl), closedAfter_frame _ _ _ _ ((colAnswered_frame ..).modStk _), memoryKept_of_mem ?_⟩
  rw [closedAfter_mem]
  exact mem_modStk (colAnswered_mem ..) c _ (fun _ => rfl)

/-- Settles O40: RD and RDA are one read of the open row, which RDA's precharge follows. -/
theorem readsReturnTheOpenRow : Obligations.ReadsReturnTheOpenRow := by
  unfold Obligations.ReadsReturnTheOpenRow
  refine fun s c b h col row spare ready hopen hfree => ⟨fun t0 ht0 hcol hrcd => ?_, fun t0 ht0 hcol hrcd => ?_⟩
  all_goals subst ht0
  · exact rd_answers ready (auto := false) rfl (fun _ _ => rfl) hcol ⟨hopen, hfree, hrcd⟩
  · exact rd_answers ready (auto := true) rfl (fun _ _ => rfl) hcol ⟨hopen, hfree, hrcd⟩

end Sys2Proof.Machine
end

section
/-! WR and WRA store in the open row what the stack receives; wires on which both ends agree change nothing (R207, R208, R212,
R213). -/

namespace Sys2Proof.Machine

/-! ### WR and WRA (R208, R212) -/

theorem modStk_modStk (s : State) (c : Nat) (f g : StkChan → StkChan) :
    modStk (modStk s c f) c g = modStk s c (fun x => g (f x)) := by
  show setStk (modStk s c f) c (g (stk (modStk s c f) c)) = _
  rw [stk_modStk]
  show ({ s with stack := { s.stack with chans := Tab.put (Tab.put s.stack.chans c _) c _ } } : State) = _
  rw [Tab.put_put]
  rfl

/-- Sector `col` of a row, open in half h of bank b of channel c, takes d from a write of cycle t (Table 5-1). -/
def sectorStored (s : State) (c t b h col row : Nat) (spare : Bool) (d : Sector) : State :=
  modStk (modStk s c (fun x => arrWrite s.stack c x spare b row col d)) c
    (fun x => { x with tWr := Tab.put x.tWr (halfKey b h) t })

section

variable {s : State} {c t b h col row : Nat} {spare auto : Bool} {d : Sector}

theorem RowOpen.stkColWrite (m : RowOpen s c b h t row spare) :
    stkColWrite s c t b h col d auto = closedAfter auto (sectorStored s c t b h col row spare d) c t b h := by
  unfold Machine.stkColWrite sectorStored
  rw [m.withOpenRow, modStk_modStk]
  rfl

theorem sectorStored_mem : mem (sectorStored s c t b h col row spare d) =
    mem (modStk s c (fun x => arrWrite s.stack c x spare b row col d)) := modStk_mem _ _ _ (fun _ => rfl)

/-- A store leaves the open rows, the contexts and the answers alone. -/
theorem sectorStored_keeps : (stk (sectorStored s c t b h col row spare d) c).opens = (stk s c).opens ∧
    (stk (sectorStored s c t b h col row spare d) c).ctxs = (stk s c).ctxs ∧
    (stk (sectorStored s c t b h col row spare d) c).ret = (stk s c).ret := by
  unfold sectorStored
  rw [stk_modStk, stk_modStk]
  exact ⟨rfl, rfl, rfl⟩

end

/-- A write-type command's burst leaves what the timing and the bank checks read. -/
theorem RowOpen.burstHeard {s : State} {c b h t row : Nat} {spare : Bool} (m : RowOpen s c b h t row spare) (i : Instr) (g : Nat)
    (d : Sector) (noise : BitVec 320) : RowOpen (burstHeard s c i g d noise) c b h t row spare := by
  have hstk : stk (Machine.burstHeard s c i g d noise) c = _ := writeBurst_stk ..
  rw [colHeard_stk] at hstk
  refine m.of_stk (by rw [hstk]; rfl) (by rw [hstk]; rfl) (by rw [hstk]; rfl) ?_
  unfold State.stkTim
  rw [(burstHeard_frame s c i g d noise).1]

/-- The burst brings no answer. -/
theorem burstHeard_ret (s : State) (c : Nat) (i : Instr) (g : Nat) (d : Sector) (noise : BitVec 320) :
    (stk (burstHeard s c i g d noise) c).ret = (stk s c).ret := by
  unfold burstHeard
  rw [writeBurst_stk, colHeard_stk]
  rfl

theorem doWr_stores {s : State} {c : Fin 64} {i : Instr} {b : Fin 16} {h : Fin 2} {row : Nat} {spare : Bool} (ready : StackReady s c)
    (hcol : stkColOk s.stkTim (stk s c) (b.val % 4) (colTime s c i) false = true)
    (m : RowOpen s c b h (colTime s c i) row spare) (col : BitVec 5) (d : Sector) (noise : BitVec 320) (auto : Bool) :
    doWr c b h col d noise auto (colTime s c i) (takeCol s c i) =
      closedAfter auto (sectorStored (burstHeard s c i (b.val % 4) d noise) c (colTime s c i) b h col.toNat row spare
        (received s c i d noise)) c (colTime s c i) b h :=
  (stkWriteCmd_heard ready hcol d noise _).trans (m.burstHeard i _ d noise).stkColWrite

/-- WR, and WRA with `auto`, stores what it brings in the open row alone (R208, R212). -/
theorem wr_stores {s : State} {c : Fin 64} {b : Fin 16} {h : Fin 2} {row : Nat} {spare : Bool} (ready : StackReady s c)
    (hsound : MemorySound s) (hrow : row < 2 ^ 17) {i j : Instr} (hi : onCol i = some (c, 0, j)) {col : BitVec 5} {d : Sector}
    {noise : BitVec 320} {auto : Bool} (heff : ∀ t o, colEffect c t o i = doWr c b h col d noise auto t)
    (hcol : stkColOk s.stkTim (stk s c) (b.val % 4) (colTime s c j) false = true)
    (m : RowOpen s c b h (colTime s c j) row spare) :
    ∃ t, exec i s = .next t ∧ arrRead t c spare b row col.toNat = received s c j d noise ∧
      (∀ e sp b' r k, b' < 16 → r < 2 ^ 17 → k < 32 → (e, sp, b', r, k) ≠ (c.val, spare, b.val, row, col.toNat) →
        arrRead t e sp b' r k = arrRead s e sp b' r k) ∧
      (∀ e k, vbufRead t e k = vbufRead s e k) ∧
      (stk t c).opens = (if auto then Tab.drop (stk s c).opens (halfKey b h) else (stk s c).opens) ∧
      (stk t c).ctxs = (stk s c).ctxs ∧ (stk t c).ret = (stk s c).ret ∧ OnlyStackBurst s t c := by
  have hexec := exec_col_sent hi ready.1
  rw [heff, doWr_stores ready hcol m] at hexec
  let u := burstHeard s c j (b.val % 4) d noise
  have hu : mem u = mem s := burstHeard_mem ..
  let v := sectorStored u c (colTime s c j) b h col.toNat row spare (received s c j d noise)
  have hmem : mem (closedAfter auto v c (colTime s c j) b h) =
      mem (modStk u c (fun x => arrWrite u.stack c x spare b row col.toNat (received s c j d noise))) :=
    (closedAfter_mem ..).trans sectorStored_mem
  obtain ⟨huopens, huctxs⟩ := burstHeard_keeps s c j (b.val % 4) d noise
  obtain ⟨hvopens, hvctxs, hvret⟩ : (stk v c).opens = (stk u c).opens ∧ (stk v c).ctxs = (stk u c).ctxs ∧
    (stk v c).ret = (stk u c).ret := sectorStored_keeps
  obtain ⟨hret, hctxs⟩ := closedAfter_keeps auto v c (colTime s c j) b h
  have hopens := hvopens.trans huopens
  have hopen : stkOpen (stk v c) b h = true := by
    unfold stkOpen
    rw [hopens]
    exact m.isOpen
  refine ⟨_, hexec, ?_, fun e sp b' r k hb hr hk hne => ?_, fun e k => ?_, ?_, hctxs.trans (hvctxs.trans huctxs),
    hret.trans (hvret.trans (burstHeard_ret ..)),
    closedAfter_burst _ _ _ _ (((burstHeard_frame s c j (b.val % 4) d noise).modStk _).modStk _)⟩
  · rw [arrRead_mem hmem]
    exact arrRead_store (wf_mem hu hsound) c.isLt ..
  · rw [arrRead_mem hmem, arrRead_store_other, arrRead_mem hu]
    intro x hx y hy he hkey
    obtain ⟨hsp, hb', hr', hk', -⟩ := arrKey_inj hb b.isLt hr hrow hk col.isLt hx hy hkey
    exact hne (by rw [he, hsp, hb', hr', hk'])
  · rw [vbufRead_mem hmem, vbufRead_arrStore, vbufRead_mem hu]
  · rw [closedAfter_opens _ _ hopen, hopens]

/-! ### What the wires change (R207, R213) -/

/-- A byte of a word that is zero. -/
theorem wireByte_zero (n i : Nat) : wireByte (0 : BitVec n) i = 0#8 := by
  unfold wireByte field
  simp

/-- With the same role at both ends and no noise no symbol changes: PRBS7 goes on a covered wire alone, whose symbol the
receiver takes from the spare (R213). -/
theorem symErr_quiet (m : LaneMode) (prbs : Byte) (h : Nat) (g : Granule) (i : Nat) :
    symErr m m prbs 0 h g i = 0#8 := by
  unfold symErr
  by_cases hw : m.wire = some i
  · rw [if_pos hw, if_pos hw]
    exact wireByte_zero ..
  · rw [if_neg hw, if_neg (by simp [hw])]
    exact wireByte_zero ..

theorem wordOfBytes_zero (w : Nat) (bs : List Byte) (hz : ∀ b ∈ bs, b = 0#8) : wordOfBytes w bs = 0#w := by
  unfold wordOfBytes
  refine List.foldlRecOn (motive := fun acc => acc = 0#w) _ _ rfl (fun acc hacc e he => ?_)
  obtain ⟨b, i⟩ := e
  have hb : b = 0#8 := hz b (List.fst_mem_of_mem_zipIdx he)
  subst hb hacc
  simp

theorem throughWires_quiet (m : LaneMode) (prbs : Byte) (h : Nat) (g : Granule) :
    throughWires m m prbs 0 h g = g := by
  unfold throughWires
  rw [wordOfBytes_zero]
  · simp
  · intro b hb
    obtain ⟨i, -, rfl⟩ := List.mem_map.1 hb
    exact symErr_quiet ..

/-- A burst over wires on which both ends agree arrives as it was sent (R207, R213). -/
theorem writeBurst_quiet {s : State} {c t : Nat} (h : lanesAgree s c t) (d : Sector) : (writeBurst s c t d 0).1 = d := by
  obtain ⟨h0, -⟩ := h 0 (by omega)
  obtain ⟨h1, -⟩ := h 1 (by omega)
  unfold writeBurst
  dsimp only
  rw [← h0, ← h1, throughWires_quiet, throughWires_quiet]

/-! ### The settled statement -/

/-- Settles O41: WR and WRA are one store in the open row, which WRA's precharge follows; quiet wires bring what was sent. -/
theorem writesStoreInTheOpenRow : Obligations.WritesStoreInTheOpenRow := by
  unfold Obligations.WritesStoreInTheOpenRow
  refine ⟨fun s c b h col d n row spare ready hsound hopen hrow hfree => ⟨fun t0 ht0 hcol hrcd => ?_, fun t0 ht0 hcol hrcd => ?_⟩,
    fun s c i d hagree => writeBurst_quiet hagree d⟩
  all_goals subst ht0
  · exact wr_stores ready hsound hrow (auto := false) rfl (fun _ _ => rfl) hcol ⟨hopen, hfree, hrcd⟩
  · exact wr_stores ready hsound hrow (auto := true) rfl (fun _ _ => rfl) hcol ⟨hopen, hfree, hrcd⟩

end Sys2Proof.Machine
end

section
/-! The payloads of row and column commands spell them (Tables 8-3 and 8-4). -/

namespace Sys2Proof.Machine

/-! ### Fields of a payload -/

section

variable {n : Nat} {p : BitVec n} {lo : Nat}

theorem bankAt_eq_iff {b : Fin 16} : bankAt p lo = b ↔ p.toNat / 2 ^ lo % 16 = b := by
  rw [Fin.ext_iff]
  exact Eq.congr_left (fieldNat_eq_div_mod p lo 4)

theorem bitAt_eq_iff {h : Fin 2} : bitAt p lo = h ↔ p.toNat / 2 ^ lo % 2 = h := by
  rw [Fin.ext_iff]
  exact Eq.congr_left (fieldNat_eq_div_mod p lo 1)

theorem field_eq_iff {w : Nat} {x : BitVec w} : field p lo w = x ↔ p.toNat / 2 ^ lo % 2 ^ w = x.toNat := by
  rw [← BitVec.toNat_inj, ← fieldNat_eq_div_mod p lo w]

theorem getLsbD_eq_iff {b : Bool} : p.getLsbD lo = b ↔ p.toNat / 2 ^ lo % 2 = b.toNat := by
  rw [BitVec.getLsbD, Nat.testBit_eq_decide_div_mod_eq]
  cases b with
  | true => simp
  | false => simp

theorem zeroFrom_iff : zeroFrom p lo = true ↔ p.toNat < 2 ^ lo := by
  rw [zeroFrom, beq_iff_eq, ← BitVec.toNat_inj, BitVec.toNat_ushiftRight, Nat.shiftRight_eq_div_pow]
  simp [Nat.div_eq_zero_iff]

theorem only_eq_some {i j : Instr} : (if zeroFrom p lo then some i else none) = some j ↔ p.toNat < 2 ^ lo ∧ i = j := by
  rw [Option.ite_none_right_eq_some, zeroFrom_iff, Option.some.injEq]

end

/-- A payload that is the number x, where x fits it. -/
theorem toNat_payload {w x : Nat} (h : x < 2 ^ w) : (BitVec.ofNat w x).toNat = x := by
  rw [BitVec.toNat_ofNat, Nat.mod_eq_of_lt h]

theorem opField_eq {n : Nat} {p : BitVec n} {k : Nat} (h : p.toNat % 16 = k) : fieldNat p 0 4 = k := by
  rw [fieldNat_eq_div_mod]
  omega

/-! ### Row commands (Table 8-3) -/

section

variable {c : Fin 64} {p : BitVec 27} (b : Fin 16) (h ctx : Fin 2) (row : BitVec 17) (banks : BitVec 16) (point : BitVec 2)
  (wire : BitVec 5) (spare rad2 both sel pat : Bool)

theorem rowOf_rowNop (hp : p.toNat = 0) :
    rowOf c p = some (.rowNop ⟨c, 0⟩) := by
  simp only [rowOf, opField_eq (show p.toNat % 16 = 0 by omega), only_eq_some, and_true]
  omega

theorem rowOf_act (hp : p.toNat = 1 + b.val * 2 ^ 4 + row.toNat * 2 ^ 8 + spare.toNat * 2 ^ 25) :
    rowOf c p = some (.act ⟨c, 0⟩ b row spare) := by
  have := spare.toNat_lt
  simp only [rowOf, opField_eq (show p.toNat % 16 = 1 by omega), only_eq_some, Instr.act.injEq, true_and, bankAt_eq_iff,
    field_eq_iff, getLsbD_eq_iff]
  omega

theorem rowOf_pre (hp : p.toNat = 2 + b.val * 2 ^ 4 + h.val * 2 ^ 8 + both.toNat * 2 ^ 9) :
    rowOf c p = some (.pre ⟨c, 0⟩ b h both) := by
  have := both.toNat_lt
  simp only [rowOf, opField_eq (show p.toNat % 16 = 2 by omega), only_eq_some, Instr.pre.injEq, true_and, bankAt_eq_iff,
    bitAt_eq_iff, getLsbD_eq_iff]
  omega

theorem rowOf_ref (hp : p.toNat = 3 + b.val * 2 ^ 4) :
    rowOf c p = some (.ref ⟨c, 0⟩ b) := by
  simp only [rowOf, opField_eq (show p.toNat % 16 = 3 by omega), only_eq_some, Instr.ref.injEq, true_and, bankAt_eq_iff]
  omega

theorem rowOf_nrf (hp : p.toNat = 4 + b.val * 2 ^ 4 + row.toNat * 2 ^ 8 + spare.toNat * 2 ^ 25 + rad2.toNat * 2 ^ 26) :
    rowOf c p = some (.nrf ⟨c, 0⟩ b row spare rad2) := by
  have := spare.toNat_lt
  have := rad2.toNat_lt
  simp only [rowOf, opField_eq (show p.toNat % 16 = 4 by omega), only_eq_some, Instr.nrf.injEq, true_and, bankAt_eq_iff,
    field_eq_iff, getLsbD_eq_iff]
  omega

theorem rowOf_sls (hp : p.toNat = 5 + ctx.val * 2 ^ 4 + banks.toNat * 2 ^ 5) :
    rowOf c p = some (.sls ⟨c, 0⟩ ctx banks) := by
  simp only [rowOf, opField_eq (show p.toNat % 16 = 5 by omega), only_eq_some, Instr.sls.injEq, true_and, bitAt_eq_iff, field_eq_iff]
  omega

theorem rowOf_slp (hp : p.toNat = 6 + ctx.val * 2 ^ 4 + b.val * 2 ^ 5) :
    rowOf c p = some (.slp ⟨c, 0⟩ ctx b) := by
  simp only [rowOf, opField_eq (show p.toNat % 16 = 6 by omega), only_eq_some, Instr.slp.injEq, true_and, bankAt_eq_iff,
    bitAt_eq_iff]
  omega

theorem rowOf_slr (hp : p.toNat = 7 + ctx.val * 2 ^ 4 + b.val * 2 ^ 5) :
    rowOf c p = some (.slr ⟨c, 0⟩ ctx b) := by
  simp only [rowOf, opField_eq (show p.toNat % 16 = 7 by omega), only_eq_some, Instr.slr.injEq, true_and, bankAt_eq_iff,
    bitAt_eq_iff]
  omega

theorem rowOf_slx (hp : p.toNat = 8 + ctx.val * 2 ^ 4) :
    rowOf c p = some (.slx ⟨c, 0⟩ ctx) := by
  simp only [rowOf, opField_eq (show p.toNat % 16 = 8 by omega), only_eq_some, Instr.slx.injEq, true_and, bitAt_eq_iff]
  omega

theorem rowOf_sre (hp : p.toNat = 9) :
    rowOf c p = some (.sre ⟨c, 0⟩) := by
  simp only [rowOf, opField_eq (show p.toNat % 16 = 9 by omega), only_eq_some, and_true]
  omega

theorem rowOf_srx (hp : p.toNat = 10 + point.toNat * 2 ^ 4) :
    rowOf c p = some (.srx ⟨c, 0⟩ point) := by
  simp only [rowOf, opField_eq (show p.toNat % 16 = 10 by omega), only_eq_some, Instr.srx.injEq, true_and, field_eq_iff]
  omega

theorem rowOf_pde (hp : p.toNat = 11) :
    rowOf c p = some (.pde ⟨c, 0⟩) := by
  simp only [rowOf, opField_eq (show p.toNat % 16 = 11 by omega), only_eq_some, and_true]
  omega

theorem rowOf_pdx (hp : p.toNat = 12) :
    rowOf c p = some (.pdx ⟨c, 0⟩) := by
  simp only [rowOf, opField_eq (show p.toNat % 16 = 12 by omega), only_eq_some, and_true]
  omega

theorem rowOf_rsync (hp : p.toNat = 13) :
    rowOf c p = some (.rsync ⟨c, 0⟩) := by
  simp only [rowOf, opField_eq (show p.toNat % 16 = 13 by omega), only_eq_some, and_true]
  omega

theorem rowOf_lane (hp : p.toNat = 14 + h.val * 2 ^ 4 + wire.toNat * 2 ^ 5 + sel.toNat * 2 ^ 10 + pat.toNat * 2 ^ 11) :
    rowOf c p = some (.lane ⟨c, 0⟩ h wire sel pat) := by
  have := sel.toNat_lt
  have := pat.toNat_lt
  simp only [rowOf, opField_eq (show p.toNat % 16 = 14 by omega), only_eq_some, Instr.lane.injEq, true_and, bitAt_eq_iff,
    field_eq_iff, getLsbD_eq_iff]
  omega

end

/-! ### Column commands (Table 8-4) -/

section

variable {c : Fin 64} {p : BitVec 24} (d : Sector) (n : BitVec 320) (b : Fin 16) (h ctx part : Fin 2) (col : BitVec 5)
  (sec : BitVec 13)

theorem colOf_colNop (hp : p.toNat = 0) :
    colOf c p d n = some (.colNop ⟨c, 0⟩) := by
  simp only [colOf, opField_eq (show p.toNat % 16 = 0 by omega), only_eq_some, and_true]
  omega

theorem colOf_colRd (hp : p.toNat = 1 + b.val * 2 ^ 4 + h.val * 2 ^ 8 + col.toNat * 2 ^ 9) :
    colOf c p d n = some (.colRd ⟨c, 0⟩ b h col) := by
  simp only [colOf, opField_eq (show p.toNat % 16 = 1 by omega), only_eq_some, Instr.colRd.injEq, true_and, bankAt_eq_iff,
    bitAt_eq_iff, field_eq_iff]
  omega

theorem colOf_colRda (hp : p.toNat = 2 + b.val * 2 ^ 4 + h.val * 2 ^ 8 + col.toNat * 2 ^ 9) :
    colOf c p d n = some (.colRda ⟨c, 0⟩ b h col) := by
  simp only [colOf, opField_eq (show p.toNat % 16 = 2 by omega), only_eq_some, Instr.colRda.injEq, true_and, bankAt_eq_iff,
    bitAt_eq_iff, field_eq_iff]
  omega

theorem colOf_colWr (hp : p.toNat = 3 + b.val * 2 ^ 4 + h.val * 2 ^ 8 + col.toNat * 2 ^ 9) :
    colOf c p d n = some (.colWr ⟨c, 0⟩ b h col ⟨d, n⟩) := by
  simp only [colOf, opField_eq (show p.toNat % 16 = 3 by omega), only_eq_some, and_true, Instr.colWr.injEq, true_and, bankAt_eq_iff,
    bitAt_eq_iff, field_eq_iff]
  omega

theorem colOf_colWra (hp : p.toNat = 4 + b.val * 2 ^ 4 + h.val * 2 ^ 8 + col.toNat * 2 ^ 9) :
    colOf c p d n = some (.colWra ⟨c, 0⟩ b h col ⟨d, n⟩) := by
  simp only [colOf, opField_eq (show p.toNat % 16 = 4 by omega), only_eq_some, and_true, Instr.colWra.injEq, true_and,
    bankAt_eq_iff, bitAt_eq_iff, field_eq_iff]
  omega

theorem colOf_vwr (hp : p.toNat = 5 + sec.toNat * 2 ^ 4) :
    colOf c p d n = some (.vwr ⟨c, 0⟩ sec ⟨d, n⟩) := by
  simp only [colOf, opField_eq (show p.toNat % 16 = 5 by omega), only_eq_some, and_true, Instr.vwr.injEq, true_and, field_eq_iff]
  omega

theorem colOf_vrd (hp : p.toNat = 6 + sec.toNat * 2 ^ 4) :
    colOf c p d n = some (.vrd ⟨c, 0⟩ sec) := by
  simp only [colOf, opField_eq (show p.toNat % 16 = 6 by omega), only_eq_some, Instr.vrd.injEq, true_and, field_eq_iff]
  omega

theorem colOf_spw (hp : p.toNat = 7 + ctx.val * 2 ^ 4 + part.val * 2 ^ 5) :
    colOf c p d n = some (.spw ⟨c, 0⟩ ctx part ⟨d, n⟩) := by
  simp only [colOf, opField_eq (show p.toNat % 16 = 7 by omega), only_eq_some, and_true, Instr.spw.injEq, true_and, bitAt_eq_iff]
  omega

theorem colOf_prd (hp : p.toNat = 8 + ctx.val * 2 ^ 4) :
    colOf c p d n = some (.prd ⟨c, 0⟩ ctx) := by
  simp only [colOf, opField_eq (show p.toNat % 16 = 8 by omega), only_eq_some, Instr.prd.injEq, true_and, bitAt_eq_iff]
  omega

theorem colOf_srd (hp : p.toNat = 9 + ctx.val * 2 ^ 4) :
    colOf c p d n = some (.srd ⟨c, 0⟩ ctx) := by
  simp only [colOf, opField_eq (show p.toNat % 16 = 9 by omega), only_eq_some, Instr.srd.injEq, true_and, bitAt_eq_iff]
  omega

end

/-- The payload of a row command spells it (Table 8-3). -/
theorem rowOf_rowFields {i j : Instr} {c : Fin 64} {e : BitVec 64} (h : onRow i = some (c, e, j)) :
    rowOf c (rowFields j) = some j := by
  unfold onRow at h
  split at h <;> cases h
  · exact rowOf_rowNop rfl
  · exact rowOf_act _ _ _ (toNat_payload (by have := Bool.toNat_lt ‹Bool›; omega))
  · exact rowOf_pre _ _ _ (toNat_payload (by have := Bool.toNat_lt ‹Bool›; omega))
  · exact rowOf_ref _ (toNat_payload (by omega))
  · exact rowOf_nrf _ _ _ _ (toNat_payload (by rename_i spare rad2; have := spare.toNat_lt; have := rad2.toNat_lt; omega))
  · exact rowOf_sls _ _ (toNat_payload (by omega))
  · exact rowOf_slp _ _ (toNat_payload (by omega))
  · exact rowOf_slr _ _ (toNat_payload (by omega))
  · exact rowOf_slx _ (toNat_payload (by omega))
  · exact rowOf_sre rfl
  · exact rowOf_srx _ (toNat_payload (by omega))
  · exact rowOf_pde rfl
  · exact rowOf_pdx rfl
  · exact rowOf_rsync rfl
  · exact rowOf_lane _ _ _ _ (toNat_payload (by rename_i sel pat; have := sel.toNat_lt; have := pat.toNat_lt; omega))

/-- The payload of a column command spells it, with the burst that goes with it (Table 8-4). -/
theorem colOf_colFields {i j : Instr} {c : Fin 64} {e : BitVec 48} (h : onCol i = some (c, e, j)) :
    colOf c (colFields j) (burstOf j) 0 = some j := by
  unfold onCol at h
  split at h <;> cases h
  · exact colOf_colNop _ _ rfl
  · exact colOf_colRd _ _ _ _ _ (toNat_payload (by omega))
  · exact colOf_colRda _ _ _ _ _ (toNat_payload (by omega))
  · exact colOf_colWr _ _ _ _ _ (toNat_payload (by omega))
  · exact colOf_colWra _ _ _ _ _ (toNat_payload (by omega))
  · exact colOf_vwr _ _ _ (toNat_payload (by omega))
  · exact colOf_vrd _ _ _ (toNat_payload (by omega))
  · exact colOf_spw _ _ _ _ (toNat_payload (by omega))
  · exact colOf_prd _ _ _ (toNat_payload (by omega))
  · exact colOf_srd _ _ _ (toNat_payload (by omega))

/-- Whether a payload spells a column command does not depend on the burst. -/
theorem colOf_eq_none_iff (c : Fin 64) (p : BitVec 24) (d d' : Sector) (n n' : BitVec 320) :
    colOf c p d n = none ↔ colOf c p d' n' = none := by
  unfold colOf
  dsimp only
  split <;> simp only [ite_eq_right_iff, reduceCtorEq]

end Sys2Proof.Machine
end

section
/-! Breaches put the channel's stack into ALERT, which answers reads with the alert pattern and ignores other commands; wires
that have changed on the way (R211, R216). -/

namespace Sys2Proof.Machine

/-! ### Into ALERT (R216) -/

/-- The stack's channel as it enters ALERT at core cycle `now`: the cause recorded and counted, running slices paused (R216). -/
def StkChan.alerted (x : StkChan) (now cause : Nat) : StkChan :=
  { x with
    alert := true, alertCause := cause, alertCount := x.alertCount + 1
    ctxs := x.ctxs.map (fun e => (e.1, if e.2.st = .running then { Ctx.upTo now e.2 with st := .paused } else e.2)) }

theorem enterAlert_eq (s : State) (c cause : Nat) : enterAlert s c cause = modStk s c (fun x => x.alerted s.time.cyc cause) := rfl

/-- From s to t, channel c of the stack has entered ALERT for this cause: no row opens or closes, and the array stays (R216). -/
def Alerts (s t : State) (c cause : Nat) : Prop :=
  (stk t c).alert = true ∧ (stk t c).alertCause = cause ∧ (stk t c).alertCount = (stk s c).alertCount + 1 ∧
    (stk t c).opens = (stk s c).opens ∧ OnlyStackChannel s t c ∧ MemoryKept s t

theorem enterAlert_alerts {s u : State} {c : Nat} (hframe : OnlyStackChannel s u c) (hmem : mem u = mem s)
    (hcount : (stk u c).alertCount = (stk s c).alertCount) (hopens : (stk u c).opens = (stk s c).opens) (cause : Nat) :
    Alerts s (enterAlert u c cause) c cause := by
  have hstk : stk (enterAlert u c cause) c = (stk u c).alerted u.time.cyc cause := stk_modStk ..
  refine ⟨?_, ?_, ?_, ?_, hframe.modStk _, memoryKept_of_mem ((enterAlert_mem ..).trans hmem)⟩
  all_goals rw [hstk]
  · rfl
  · rfl
  · exact congrArg (· + 1) hcount
  · exact hopens

/-- The answers of a stack in ALERT do not take it out of ALERT. -/
theorem Alerts.answering {s t : State} {c cause : Nat} (h : Alerts s t c cause) (g : StkChan → List Burst) :
    Alerts s (modStk t c (fun x => { x with ret := g x })) c cause := by
  obtain ⟨halert, hcause, hcount, hopens, hframe, hmem⟩ := h
  refine ⟨?_, ?_, ?_, ?_, hframe.modStk _, hmem.trans (memoryKept_of_mem (modStk_mem _ _ _ (fun _ => rfl)))⟩
  all_goals rw [stk_modStk]; assumption

/-- An activate to an open half is a breach (R216). -/
theorem doAct_breach {s : State} {c : Nat} {b : Fin 16} {row : BitVec 17} (ready : StackReady s c)
    (hrow : row.toNat < rowsPerBank s) (hopen : stkOpen (stk s c) b (halfOf s row.toNat) = true) (t : Nat) :
    doAct c b row false t s = enterAlert s c 3 := by
  unfold doAct
  rw [stkRowCmd_ready ready]
  exact (if_neg (by simp [hrow])).trans (if_pos (by simp [hopen]))

/-! ### Column accesses that find no open row (R216) -/

/-- A column access to a closed half or a RESERVED bank is a breach (R216). -/
theorem withOpenRow_breach {s : State} {c b h : Nat}
    (hno : Tab.find (stk s c).opens (halfKey b h) = none ∨ Tab.find (stk s c).rsv b ≠ none) (t : Nat) (f : Nat → Bool → State)
    (bad : State → State) : withOpenRow s c t b h f bad = bad (enterAlert s c 3) := by
  unfold withOpenRow
  dsimp only
  cases hopen : Tab.find (stk s c).opens (halfKey b h) with
  | none => rfl
  | some e => exact if_pos (Option.isSome_iff_ne_none.2 (hno.resolve_left (by simp [hopen])))

theorem OnlyStackChannel.burst {s t : State} {c : Nat} (h : OnlyStackChannel s t c) : OnlyStackBurst s t c := by
  obtain ⟨hstate, hother, hchan⟩ := h
  have hspares : (chan t c).spares = (chan s c).spares := by rw [hchan]
  exact ⟨hstate, hother, by rw [hspares]; exact hchan, by rw [hspares]⟩

section

variable {s : State} {c t g : Nat}

/-- A write-type command before its time is a breach (R216). -/
theorem stkWriteCmd_early (ready : StackReady s c) (hcol : stkColOk s.stkTim (stk s c) g t false = false) (d : Sector)
    (noise : BitVec 320) (f : Sector → State → State) : stkWriteCmd s c t g d noise f = enterAlert s c 4 := by
  obtain ⟨-, awake, halert⟩ := ready
  exact (if_neg (by simp [awake, halert])).trans (if_pos (by simp [hcol]))

/-- A read-type command before its time is a breach, answered with the alert pattern (R216). -/
theorem stkReadCmd_early (ready : StackReady s c) (hcol : stkColOk s.stkTim (stk s c) g t true = false) (o : Nat)
    (f : State → State) : stkReadCmd s c t o g f = pushBurst (enterAlert s c 4) c t o alertSector true := by
  obtain ⟨-, awake, halert⟩ := ready
  exact (if_neg (by simp [awake])).trans ((if_neg (by simp [halert])).trans (if_pos (by simp [hcol])))

end

/-- A write to a closed half or a RESERVED bank raises ALERT, in time or not (R216). -/
theorem doWr_breach {s : State} {c : Fin 64} {i : Instr} {b : Fin 16} {h : Fin 2} (ready : StackReady s c)
    (hno : Tab.find (stk s c).opens (halfKey b h) = none ∨ Tab.find (stk s c).rsv b ≠ none) (col : BitVec 5) (d : Sector)
    (noise : BitVec 320) (auto : Bool) :
    ∃ u cause, doWr c b h col d noise auto (colTime s c i) (takeCol s c i) = enterAlert u c cause ∧
      (stk u c).alertCount = (stk s c).alertCount ∧ OnlyStackBurst s u c ∧ mem u = mem s := by
  unfold doWr
  by_cases hcol : stkColOk s.stkTim (stk s c) (b.val % 4) (colTime s c i) false = true
  · have hstk : stk (burstHeard s c i (b.val % 4) d noise) c = _ := writeBurst_stk ..
    rw [colHeard_stk] at hstk
    rw [stkWriteCmd_heard ready hcol]
    unfold stkColWrite
    rw [withOpenRow_breach (by rw [hstk]; exact hno)]
    exact ⟨_, _, rfl, by rw [hstk]; rfl, burstHeard_frame .., burstHeard_mem ..⟩
  · exact ⟨_, _, stkWriteCmd_early (ready.takeCol i) (by simpa [takeCol_tim] using hcol) .., by rw [takeCol_stk],
      (takeCol_frame ..).burst, takeCol_mem ..⟩

/-- A read of a closed half or a RESERVED bank raises ALERT and is answered with its pattern, in time or not (R216). -/
theorem doRd_breach {s : State} {c : Fin 64} {i : Instr} {b : Fin 16} {h : Fin 2} (ready : StackReady s c)
    (hno : Tab.find (stk s c).opens (halfKey b h) = none ∨ Tab.find (stk s c).rsv b ≠ none) (col : BitVec 5) (auto : Bool) :
    ∃ cause, Alerts s (doRd c b h col auto (colTime s c i) (colOrder s c i) (takeCol s c i)) c cause := by
  unfold doRd
  by_cases hcol : stkColOk s.stkTim (stk s c) (b.val % 4) (colTime s c i) true = true
  · have hstk := colHeard_stk s c i (b.val % 4) true
    rw [stkReadCmd_heard ready hcol]
    unfold stkColRead
    rw [withOpenRow_breach (by rw [hstk]; exact hno)]
    exact ⟨_, (enterAlert_alerts (colHeard_frame ..) (colHeard_mem ..) (by rw [hstk]; rfl) (by rw [hstk]; rfl) 3).answering _⟩
  · rw [stkReadCmd_early (ready.takeCol i) (by simpa [takeCol_tim] using hcol)]
    exact ⟨4, (enterAlert_alerts (takeCol_frame ..) (takeCol_mem ..) (by rw [takeCol_stk]) (by rw [takeCol_stk]) 4).answering _⟩

/-! ### What ALERT ignores and answers (R216) -/

section

variable {s : State} {c : Nat}

theorem stkRowCmd_inAlert (halert : (stk s c).alert = true) (f : State → State) : stkRowCmd s c false f = s :=
  if_pos (by simp [halert])

theorem stkWriteCmd_inAlert (halert : (stk s c).alert = true) (t g : Nat) (d : Sector) (noise : BitVec 320)
    (f : Sector → State → State) : stkWriteCmd s c t g d noise f = s := if_pos (by simp [halert])

theorem stkReadCmd_inAlert (awake : stkAwake s c = true) (halert : (stk s c).alert = true) (t o g : Nat) (f : State → State) :
    stkReadCmd s c t o g f = pushBurst s c t o alertSector true :=
  (if_neg (by simp [awake])).trans (if_pos halert)

end

theorem takeCol_rl (s : State) (c : Nat) (i : Instr) : stkRl (takeCol s c i) = stkRl s := (takeCol_frame s c i).rl

/-- A read-type command that a stack in ALERT answers with its pattern (R216). -/
theorem col_inAlert {s : State} {c : Fin 64} {i : Instr} (hi : onCol i = some (c, 0, i)) (hc : c < nChan s)
    (h : colEffect c (colTime s c i) (colOrder s c i) i (takeCol s c i) =
      pushBurst (takeCol s c i) c (colTime s c i) (colOrder s c i) alertSector true) :
    ∃ t, exec i s = .next t ∧
      stk t c = { stk s c with ret := (stk s c).ret ++ [{ g0 := alertSector.g0, g1 := alertSector.g1, alert := true
                                                          order := colOrder s c i, at_ := colTime s c i + stkRl s }] } ∧
      OnlyStackChannel s t c ∧ MemoryKept s t := by
  refine ⟨_, (exec_col_sent hi hc).trans (congrArg _ h), ?_, pushBurst_frame (takeCol_frame ..) ..,
    memoryKept_of_mem ((pushBurst_mem ..).trans (takeCol_mem ..))⟩
  rw [pushBurst_stk, takeCol_stk, takeCol_rl]

/-! ### Wires that have changed on the way (R211, R216) -/

theorem noteFixed_stk (s : State) (c : Nat) (ks : List Nat) :
    ∃ x, stk (noteFixed s c ks) c = { stk s c with cmdCe := x } := ⟨_, stk_modStk ..⟩

theorem StackReady.noteFixed {s : State} {c : Nat} (ready : StackReady s c) (ks : List Nat) :
    StackReady (noteFixed s c ks) c := by
  obtain ⟨hc, awake, halert⟩ := ready
  obtain ⟨x, hx⟩ := noteFixed_stk s c ks
  refine ⟨hc, ?_, by rw [hx]; exact halert⟩
  unfold stkAwake at awake ⊢
  rw [hx]
  exact awake

/-- Counting corrections leaves what ALERT keeps. -/
theorem noteFixed_keeps (s : State) (c : Nat) (ks : List Nat) : (stk (noteFixed s c ks) c).alertCount = (stk s c).alertCount ∧
    (stk (noteFixed s c ks) c).opens = (stk s c).opens := by
  obtain ⟨x, hx⟩ := noteFixed_stk s c ks
  rw [hx]
  exact ⟨rfl, rfl⟩

theorem breach_ready {s : State} {c : Nat} (ready : StackReady s c) (cause : Nat) : breach s c cause = enterAlert s c cause := by
  obtain ⟨-, awake, halert⟩ := ready
  exact if_pos (by simp [awake, halert])

/-- A command that is not executed: its corrections are counted, and ALERT is entered (R211). -/
theorem breach_alerts {s u : State} {c : Nat} (hframe : OnlyStackChannel s u c) (hmem : mem u = mem s) (hstk : stk u c = stk s c)
    (ready : StackReady u c) (ks : List Nat) (cause : Nat) : Alerts s (breach (noteFixed u c ks) c cause) c cause := by
  obtain ⟨hcount, hopens⟩ := noteFixed_keeps u c ks
  rw [breach_ready (ready.noteFixed ks)]
  exact enterAlert_alerts (hframe.modStk _) ((noteFixed_mem ..).trans hmem) (hcount.trans (by rw [hstk]))
    (hopens.trans (by rw [hstk])) cause

section

variable {s : State} {c : Fin 64}

theorem exec_row_garbled {i j : Instr} {e : BitVec 64} (hi : onRow i = some (c, e, j)) (he : e ≠ 0) (hc : c < nChan s) :
    exec i s = .next (rowGarbled (takeRow s c j) c (rowTime s c j) (rowReceive (rowFields j) e)) := by
  rw [exec_row hi, onChan_ready hc]
  exact congrArg _ (if_neg he)

theorem exec_col_garbled {i j : Instr} {e : BitVec 48} (hi : onCol i = some (c, e, j)) (he : e ≠ 0) (hc : c < nChan s) :
    ∃ noise, exec i s = .next (colGarbled (takeCol s c j) c (colTime s c j) (colOrder s c j) j noise (colReceive (colFields j) e)) := by
  obtain ⟨noise, h⟩ := exec_col hi s
  rw [h, onChan_ready hc]
  exact ⟨noise, congrArg _ (if_neg he)⟩

/-- The cause of a command that is not executed: its wires, or what it spells (R211, R216). -/
def garbledCause {n : Nat} (x : WireRx n) : Nat := if x.ok then 2 else 1

theorem rowGarbled_alerts (ready : StackReady s c) (j : Instr) (t : Nat) {x : WireRx 27}
    (hx : x.ok = false ∨ rowOf c x.payload = none) :
    Alerts s (rowGarbled (takeRow s c j) c t x) c (garbledCause x) := by
  have halerts := breach_alerts (takeRow_frame s c j) (takeRow_mem ..) (takeRow_stk ..) (ready.takeRow j) x.fixed
  unfold rowGarbled garbledCause
  dsimp only
  rw [if_pos (ready.takeRow j).2.1]
  cases hok : x.ok with
  | false => exact halerts 1
  | true =>
    rw [hx.resolve_left (by simp [hok])]
    exact halerts 2

/-- A row command that can be corrected is executed as it decodes, its corrections counted (R211). -/
theorem rowGarbled_decodes (ready : StackReady s c) (j : Instr) (t : Nat) {x : WireRx 27} {k : Instr} (hok : x.ok = true)
    (hk : rowOf c x.payload = some k) :
    rowGarbled (takeRow s c j) c t x = rowEffect c t k (noteFixed (takeRow s c j) c x.fixed) := by
  unfold rowGarbled
  dsimp only
  rw [if_pos (ready.takeRow j).2.1, hok, hk]
  rfl

/-- The block takes a burst exactly where it has sent a read, which leaves ALERT as it is (R208). -/
theorem Alerts.taken {u : State} {cause : Nat} (h : Alerts s u c cause) (read : Bool) (t o : Nat) (r : List Burst) :
    Alerts s (if read then undriven u c t o else modStk u c (fun x => { x with ret := r })) c cause := by
  cases read with
  | true =>
    rw [if_pos rfl]
    unfold undriven
    split
    · exact h
    · exact h.answering _
  | false => exact h.answering (fun _ => r)

theorem colGarbled_alerts (ready : StackReady s c) (j : Instr) (t o : Nat) (noise : BitVec 320) {x : WireRx 24}
    (hx : x.ok = false ∨ colOf c x.payload (burstOf j) noise = none) :
    Alerts s (colGarbled (takeCol s c j) c t o j noise x) c (garbledCause x) := by
  have halerts := breach_alerts (takeCol_frame s c j) (takeCol_mem ..) (takeCol_stk ..) (ready.takeCol j) x.fixed
  unfold colGarbled garbledCause
  dsimp only
  rw [if_neg (by simp [(ready.takeCol j).2.1])]
  cases hok : x.ok with
  | false => exact (halerts 1).taken ..
  | true =>
    rw [hx.resolve_left (by simp [hok])]
    exact (halerts 2).taken ..

end

/-! ### The settled statement -/

/-- Settles O43: breaches and commands that cannot be decoded end in one operation, the entry into ALERT; in ALERT each bus
command's own guard drops it or answers it. -/
theorem alertOfTheStack : Obligations.AlertOfTheStack := by
  unfold Obligations.AlertOfTheStack
  refine ⟨⟨fun s c b row ready hrow hopen => ?_, fun s c b h col d n ready hno => ⟨?_, ?_⟩⟩,
    fun s c hc awake halert => ⟨fun i hi => ?_, fun i hi => ?_⟩,
    fun s i j c e x hi he ready hx => ⟨fun hbad => ?_, fun k hok hk => ?_⟩, fun s i j c e x hi he ready hx hbad => ?_,
    fun i j c e hi => rowOf_rowFields hi, fun i j c e hi => colOf_colFields hi⟩
  · have hact := doAct_breach (ready.takeRow (.act ⟨c, 0⟩ b row false)) (by rwa [takeRow_rows])
      (by rwa [takeRow_stk, takeRow_halfOf]) (rowTime s c (.act ⟨c, 0⟩ b row false))
    exact ⟨_, (exec_row_sent (i := .act ⟨c, 0⟩ b row false) rfl ready.1).trans (congrArg _ hact),
      enterAlert_alerts (takeRow_frame ..) (takeRow_mem ..) (by rw [takeRow_stk]) (by rw [takeRow_stk]) 3⟩
  · obtain ⟨u, cause, heff, hcount, hframe, hmem⟩ :=
      doWr_breach (i := .colWr ⟨c, 0⟩ b h col ⟨d, 0⟩) ready hno col d n false
    refine ⟨_, (exec_col_sent (i := .colWr ⟨c, 0⟩ b h col ⟨d, n⟩) rfl ready.1).trans (congrArg _ heff), ?_, ?_, hframe.modStk _,
      memoryKept_of_mem ((enterAlert_mem ..).trans hmem)⟩
    all_goals rw [enterAlert_eq, stk_modStk]
    · rfl
    · exact congrArg (· + 1) hcount
  · obtain ⟨cause, hon, -, hcount, -, hframe, hmem⟩ := doRd_breach (i := .colRd ⟨c, 0⟩ b h col) ready hno col false
    exact ⟨_, exec_col_sent (i := .colRd ⟨c, 0⟩ b h col) rfl ready.1, hon, hcount, hframe, hmem⟩
  · have hrow := fun j => stkRowCmd_inAlert (s := takeRow s c j) (c := c) (by rwa [takeRow_stk])
    have hcol := fun j => stkWriteCmd_inAlert (s := takeCol s c j) (c := c) (by rwa [takeCol_stk])
    rcases hi with ⟨b, row, sp, rfl⟩ | ⟨b, h, both, rfl⟩ | ⟨x, banks, rfl⟩ | ⟨x, b, rfl⟩ | ⟨x, b, rfl⟩ | ⟨x, rfl⟩ | rfl |
      ⟨h, w, a, p, rfl⟩ | ⟨b, h, k, d, n, rfl⟩ | ⟨b, h, k, d, n, rfl⟩ | ⟨a, d, n, rfl⟩ | ⟨x, p, d, n, rfl⟩
    iterate 8 exact row_ignored rfl hc (by unfold rowEffect; exact hrow _ _)
    all_goals exact col_ignored rfl hc (by unfold colEffect; exact hcol _ _ _ _ _ _)
  · have hread := fun j => stkReadCmd_inAlert (s := takeCol s c j) (c := c) (by rwa [takeCol_awake]) (by rwa [takeCol_stk])
    rcases hi with ⟨b, h, k, rfl⟩ | ⟨b, h, k, rfl⟩ | ⟨a, rfl⟩ | ⟨x, rfl⟩ | ⟨x, rfl⟩
    all_goals exact col_inAlert rfl hc (by unfold colEffect; exact hread _ _ _ _ _)
  · subst hx
    exact ⟨_, exec_row_garbled hi he ready.1, rowGarbled_alerts ready j _ hbad⟩
  · subst hx
    exact (exec_row_garbled hi he ready.1).trans (congrArg _ (rowGarbled_decodes ready j _ hok hk))
  · subst hx
    obtain ⟨noise, hexec⟩ := exec_col_garbled (s := s) hi he ready.1
    exact ⟨_, hexec, colGarbled_alerts ready j _ _ noise (hbad.imp_right (colOf_eq_none_iff ..).1)⟩

end Sys2Proof.Machine
end

section
/-! The power of the stack rises and falls, and a block that loses it is LOST, with the stack as the power left it (R228, R229,
R297, R323). -/

namespace Sys2Proof.Machine

/-! ### LOST leaves the stack itself alone (R298) -/

theorem stack_foldl {α : Type} {f : State → α → State} (h : ∀ t x, (f t x).stack = t.stack) (l : List α) (s : State) :
    (l.foldl f s).stack = s.stack :=
  List.foldlRecOn (motive := fun t => t.stack = s.stack) l f rfl (fun t ht x _ => (h t x).trans ht)

theorem stack_forN {f : State → Nat → State} (h : ∀ t i, (f t i).stack = t.stack) (n : Nat) (s : State) :
    (forN n f s).stack = s.stack := stack_foldl h _ s

theorem Booked.stack {s t : State} (h : Booked s t) : t.stack = s.stack := by rw [show t = _ from h]

theorem logEv_stack (s : State) (code unit : Nat) (lvl : Lvl) (data : Word) : (logEv s code unit lvl data).stack = s.stack :=
  (booked_logEv s code unit lvl data).stack

theorem lostReplies_stack (s : State) : (lostReplies s).stack = s.stack := by
  refine stack_foldl (fun t r => ?_) _ s
  split
  · rfl
  · refine (EndsParts.replyReq ..).stack.trans ?_
    split <;> rfl

theorem loseHeld_stack (s : State) (k : Nat) : (loseHeld s k).stack = s.stack := by
  unfold loseHeld
  dsimp only
  split
  · rfl
  · exact (booked_latch ..).stack.trans (stack_foldl (fun t cid => logEv_stack ..) _ _)

theorem lostOcts_stack (s : State) : (lostOcts s).stack = s.stack := by
  unfold lostOcts
  exact stack_forN (fun t k => (modOct_stack ..).trans (loseHeld_stack t k)) _ s

theorem lostChans_stack (s : State) : (lostChans s).stack = s.stack := by
  unfold lostChans
  exact stack_forN (fun t c => modChan_stack ..) _ s

theorem lostSweeps_stack (s : State) : (lostSweeps s).stack = s.stack := by
  refine stack_forN (fun t n => ?_) _ s
  unfold lostSweep
  split <;> rfl

theorem openPorts_stack (s : State) : (openPorts s).stack = s.stack := by
  unfold openPorts
  exact stack_forN (fun t p => modPort_stack ..) 16 _

theorem bootEnd_stack (s : State) : (bootEnd s).stack = s.stack := by
  unfold bootEnd
  exact (openPorts_stack _).trans (logEv_stack ..)

/-- A block that enters LOST sends the stack nothing more (R298). -/
theorem enterLost_stack (s : State) (code : Nat) : (enterLost s code).stack = s.stack := by
  unfold enterLost
  by_cases hend : s.blk.st = .lost ∨ s.blk.st = .halted
  · rw [if_pos hend]
  · rw [if_neg hend]
    dsimp only
    split
    · rw [bootEnd_stack, lostSweeps_stack, lostChans_stack, lostOcts_stack, lostReplies_stack, logEv_stack]
    · rw [lostSweeps_stack, lostChans_stack, lostOcts_stack, lostReplies_stack, logEv_stack]

/-! ### The pins and the state of a block that enters LOST (R39, R350) -/

/-- The pins and the block's state, as LOST leaves them, follow from what they were. -/
theorem enterLost_pins_st (s : State) (code : Nat) :
    ((enterLost s code).pins, (enterLost s code).blk.st) = ((lostKey (key s)).2.2.1, (lostKey (key s)).2.2.2.1) :=
  congrArg (fun k => (k.2.2.1, k.2.2.2.1)) (enterLost_key s code)

theorem enterLost_of_boot {s : State} (hst : s.blk.st = .boot) (code : Nat) :
    (enterLost s code).pins = { s.pins with portOpen := true } ∧ (enterLost s code).blk.st = .lost := by
  have h := enterLost_pins_st s code
  have hkey : (key s).2.2.2.1 = .boot := hst
  unfold lostKey at h
  rw [if_neg (by simp [hkey]), if_pos hkey] at h
  exact Prod.mk.inj h

theorem enterLost_of_ready {s : State} (hst : s.blk.st = .ready) (code : Nat) : (enterLost s code).blk.st = .lost := by
  have h := enterLost_pins_st s code
  have hkey : (key s).2.2.2.1 = .ready := hst
  unfold lostKey at h
  rw [if_neg (by simp [hkey])] at h
  exact (Prod.mk.inj h).2

/-- LOST opens the ports of a block in boot and leaves every other pin. -/
theorem enterLost_pins (s : State) (code : Nat) :
    (enterLost s code).pins = s.pins ∨ (enterLost s code).pins = { s.pins with portOpen := true } := by
  have h := (Prod.mk.inj (enterLost_pins_st s code)).1
  unfold lostKey at h
  split at h
  · exact .inl h
  · dsimp only at h
    split at h
    · exact .inr h
    · exact .inl h

/-! ### STK_PGOOD and STK_RST_N (R228, R297, R323) -/

theorem pgoodRise_eq {s : State} (hen : s.pins.stkPwrEn = true) (hlow : s.pins.stkPgood = false) : pgoodRise s =
    { s with pins := { s.pins with stkPgood := true, stkRstN := false, wckRun := true }
             pwr := { s.pwr with pgoodTick := s.time.tick } } := if_pos (by simp [hen, hlow])

theorem pgoodRise_idle {s : State} (h : s.pins.stkPwrEn = false ∨ s.pins.stkPgood = true) : pgoodRise s = s := by
  refine if_neg ?_
  rcases h with h | h <;> simp [h]

/-- The block as its supply of the stack is taken away and logged (R323). -/
def powerOff (s : State) : State := logEv { s with pins := { s.pins with stkPwrEn := false } } 0x0512 pgPwr .fatal 0

theorem pgoodLate_early {s : State} (h : s.time.tick < s.pwr.pwrOnTick + pgoodTicks) : pgoodLate s = s :=
  if_neg (by simp [Nat.not_le.2 h])

theorem pgoodLate_late {s : State} (hon : poweringOn s = true) (hlow : s.pins.stkPgood = false)
    (h : s.pwr.pwrOnTick + pgoodTicks ≤ s.time.tick) : pgoodLate s = enterLost (powerOff s) 0x0512 :=
  if_pos (by simp [hon, hlow, h])

theorem boot_of_poweringOn {s : State} (h : poweringOn s = true) : s.blk.st = .boot := by
  unfold poweringOn at h
  simp only [Bool.and_eq_true, beq_iff_eq] at h
  exact h.1.1

/-- The entry and the pins of a block that is logged on its way into LOST. -/
theorem powerOff_keeps (s : State) : (powerOff s).pins = { s.pins with stkPwrEn := false } ∧ (powerOff s).blk = s.blk := by
  unfold powerOff
  rw [show logEv _ _ _ _ _ = _ from booked_logEv { s with pins := { s.pins with stkPwrEn := false } } 0x0512 pgPwr .fatal 0]
  exact ⟨rfl, rfl⟩

theorem stkRelease_early {s : State} (h : s.time.tick < s.pwr.pgoodTick + rstTicks) : stkRelease s = s :=
  if_neg (by simp [Nat.not_le.2 h])

theorem stkRelease_late {s : State} (hon : poweringOn s = true) (hgood : s.pins.stkPgood = true) (hrst : s.pins.stkRstN = false)
    (h : s.pwr.pgoodTick + rstTicks ≤ s.time.tick) :
    stkRelease s = { stackFresh s with pins := { s.pins with stkRstN := true } } := if_pos (by simp [hon, hgood, hrst, h])

/-- The stack as the fall of its power leaves it (R228, R229). -/
def powerFallen (s : State) : State := stackFresh { s with pins := { s.pins with stkPgood := false, stkRstN := false } }

theorem pgoodFall_idle {s : State} (h : s.pins.stkPgood = false) : pgoodFall s = s := if_pos (by simp [h])

theorem pgoodFall_eq {s : State} (h : s.pins.stkPgood = true) : pgoodFall s =
    if s.pins.stkPwrEn then enterLost (logEv (powerFallen s) 0x0512 pgPwr .fatal 1) 0x0512 else powerFallen s :=
  if_neg (by simp [h])

/-- With STK_PWR_EN high the fall of the power is logged and costs the block its service (R297, R323). -/
theorem powerLost_facts (s : State) :
    let t := enterLost (logEv (powerFallen s) 0x0512 pgPwr .fatal 1) 0x0512
    t.pins.stkPgood = false ∧ t.pins.stkRstN = false ∧ t.stack = (powerFallen s).stack ∧ (s.blk.st = .ready → t.blk.st = .lost) := by
  have hbook : logEv (powerFallen s) 0x0512 pgPwr .fatal 1 = _ := booked_logEv ..
  have hpins : (logEv (powerFallen s) 0x0512 pgPwr .fatal 1).pins = (powerFallen s).pins := by rw [hbook]
  have hblk : (logEv (powerFallen s) 0x0512 pgPwr .fatal 1).blk = s.blk := by rw [hbook]; rfl
  have hstk := (enterLost_stack (logEv (powerFallen s) 0x0512 pgPwr .fatal 1) 0x0512).trans (logEv_stack ..)
  have hready : s.blk.st = .ready → (enterLost (logEv (powerFallen s) 0x0512 pgPwr .fatal 1) 0x0512).blk.st = .lost :=
    fun hst => enterLost_of_ready (by rw [hblk]; exact hst) 0x0512
  rcases enterLost_pins (logEv (powerFallen s) 0x0512 pgPwr .fatal 1) 0x0512 with h | h
  · exact ⟨by rw [h, hpins]; rfl, by rw [h, hpins]; rfl, hstk, hready⟩
  · exact ⟨by rw [h, hpins]; rfl, by rw [h, hpins]; rfl, hstk, hready⟩

/-! ### The settled statement -/

/-- Settles O51: each event has one guard; the stack's own state is written before the block enters LOST, which keeps it. -/
theorem theStackIsPoweredOnAndLost : Obligations.TheStackIsPoweredOnAndLost := by
  unfold Obligations.TheStackIsPoweredOnAndLost
  refine ⟨fun s hen hlow => ⟨_, congrArg Host.Outcome.next (pgoodRise_eq hen hlow), rfl, rfl, rfl⟩,
    fun s h => congrArg Host.Outcome.next (pgoodRise_idle h),
    fun s hon hlow => ⟨fun h => congrArg Host.Outcome.next (pgoodLate_early h), fun h => ?_⟩,
    fun s hon hgood hrst => ⟨fun h => congrArg Host.Outcome.next (stkRelease_early h), fun h => ?_⟩,
    fun s h => congrArg Host.Outcome.next (pgoodFall_idle h), fun s h => ?_⟩
  · obtain ⟨hpins, hblk⟩ := powerOff_keeps s
    obtain ⟨hlost, hst⟩ := enterLost_of_boot (s := powerOff s) (by rw [hblk]; exact boot_of_poweringOn hon) 0x0512
    refine ⟨_, congrArg Host.Outcome.next (pgoodLate_late hon hlow h), hst, ?_, by rw [hlost]⟩
    rw [hlost, hpins]
  · exact ⟨_, congrArg Host.Outcome.next (stkRelease_late hon hgood hrst h), rfl, rfl, rfl, rfl, fun _ => rfl⟩
  · have heff := congrArg (Host.Outcome.next (φ := Fault) (ρ := Refusal)) (pgoodFall_eq h)
    cases hen : s.pins.stkPwrEn with
    | true =>
      rw [hen, if_pos rfl] at heff
      obtain ⟨hgood, hrst, hstack, hready⟩ := powerLost_facts s
      refine ⟨_, heff, hgood, hrst, ?_, ?_, fun _ => hready, nofun⟩
      all_goals rw [hstack]; rfl
    | false =>
      rw [hen, if_neg (by simp)] at heff
      exact ⟨_, heff, rfl, rfl, rfl, rfl, nofun, fun _ => rfl⟩

end Sys2Proof.Machine
end

section
/-! The frames of the sideband spell what they were made of (R220, R221). -/

namespace Sys2Proof.Machine

/-! ### Bits and fields of a frame -/

/-- A field is read bit by bit. -/
theorem field_congr {n m : Nat} {x : BitVec n} {y : BitVec m} {lo lo' w : Nat}
    (h : ∀ i, i < w → x.getLsbD (lo + i) = y.getLsbD (lo' + i)) : field x lo w = field y lo' w := by
  apply BitVec.eq_of_getLsbD_eq
  intro i hi
  simp only [field, BitVec.getLsbD_extractLsb', h i hi]

/-- A field with the bits of a word is that word. -/
theorem field_eq_of_bits {n w : Nat} {x : BitVec n} {y : BitVec w} {lo : Nat} (h : ∀ i, i < w → x.getLsbD (lo + i) = y.getLsbD i) :
    field x lo w = y := by
  apply BitVec.eq_of_getLsbD_eq
  intro i hi
  simp only [field, BitVec.getLsbD_extractLsb', h i hi, hi, decide_true, Bool.true_and]

/-- A CRC over n bits depends on these bits alone. -/
theorem bitsOf_congr {n x y : Nat} (h : ∀ i, i < n → x.testBit i = y.testBit i) : bitsOf n x = bitsOf n y :=
  List.map_congr_left (fun i hi => h i (List.mem_range.1 hi))

theorem sbWords_bits_aux {w : Nat} (ws : List Word) : ∀ (k : Nat) (acc : BitVec w) (i : Nat),
    ((ws.zipIdx k).foldl (fun (acc : BitVec w) e => acc ||| (BitVec.setWidth w e.1).shiftLeft (32 * e.2)) acc).getLsbD i =
      (acc.getLsbD i || (decide (i < w) && decide (32 * k ≤ i) && (ws.getD (i / 32 - k) 0#32).getLsbD (i % 32))) := by
  induction ws with
  | nil => intro k acc i; simp
  | cons v vs ih =>
    intro k acc i
    rw [List.zipIdx_cons, List.foldl_cons, ih, BitVec.shiftLeft_eq, BitVec.getLsbD_or, BitVec.getLsbD_shiftLeft, BitVec.getLsbD_setWidth]
    by_cases hw : i < w
    · rcases Nat.lt_trichotomy (i / 32) k with hlt | heq | hgt
      · rw [show decide (i < 32 * k) = true from decide_eq_true (by omega), show decide (32 * (k + 1) ≤ i) = false from decide_eq_false (by omega),
          show decide (32 * k ≤ i) = false from decide_eq_false (by omega)]
        simp
      · rw [show decide (i < 32 * k) = false from decide_eq_false (by omega), show decide (32 * (k + 1) ≤ i) = false from decide_eq_false (by omega),
          show decide (32 * k ≤ i) = true from decide_eq_true (by omega), show i - 32 * k = i % 32 by omega, show i / 32 - k = 0 by omega]
        simp [hw, show i % 32 < w from lt_of_le_of_lt (Nat.mod_le ..) hw]
      · rw [show decide (32 * (k + 1) ≤ i) = true from decide_eq_true (by omega), show decide (32 * k ≤ i) = true from decide_eq_true (by omega),
          show i / 32 - k = (i / 32 - (k + 1)) + 1 by omega, List.getD_cons_succ, BitVec.getLsbD_of_ge v (i - 32 * k) (by omega)]
        simp
    · simp [hw]

/-- Bit i of the words of a frame is bit i mod 32 of word i / 32. -/
theorem getLsbD_sbWords {w : Nat} (ws : List Word) (i : Nat) :
    (sbWords ws : BitVec w).getLsbD i = (decide (i < w) && (ws.getD (i / 32) 0#32).getLsbD (i % 32)) := by
  rw [sbWords, sbWords_bits_aux]
  simp

/-- Behind the last word the frame's words are 0. -/
theorem getLsbD_sbWords_end {w : Nat} {ws : List Word} {i : Nat} (h : 32 * ws.length ≤ i) : (sbWords ws : BitVec w).getLsbD i = false := by
  rw [getLsbD_sbWords, List.getD_eq_default _ _ (show ws.length ≤ i / 32 by omega)]
  simp

/-- Bit i of word k, where the frame holds it. -/
theorem getLsbD_sbWords_word {w : Nat} (ws : List Word) {k i : Nat} (hi : i < 32) (hk : 32 * k + i < w) :
    (sbWords ws : BitVec w).getLsbD (32 * k + i) = (ws.getD k 0#32).getLsbD i := by
  rw [getLsbD_sbWords, show (32 * k + i) / 32 = k by omega, show (32 * k + i) % 32 = i by omega, decide_eq_true hk, Bool.true_and]

/-- A list is its own words in order. -/
theorem map_range_getD {α : Type} (ws : List α) (d : α) (f : Nat → α) {n : Nat} (hn : ws.length = n) (h : ∀ k, k < n → f k = ws.getD k d) :
    (List.range n).map f = ws := by
  refine List.ext_getElem (by simp [hn]) (fun k hk hk' => ?_)
  rw [List.getElem_map, List.getElem_range, h k (hn ▸ hk'), List.getD_eq_getElem _ _ hk']

/-! ### Responses (R221) -/

section

variable (st : Byte) (ws : List Word) {i : Nat}

/-- The bits of a response in front of its CRC: its status and its words. -/
theorem getLsbD_sbReply_body (h : i < 8 + 32 * ws.length) :
    (sbReply st ws).getLsbD i = (st.setWidth 528 ||| (sbWords ws : BitVec 528).shiftLeft 8).getLsbD i := by
  simp only [sbReply, BitVec.shiftLeft_eq]
  rw [BitVec.getLsbD_or (x := st.setWidth 528 ||| (sbWords ws : BitVec 528) <<< 8), BitVec.getLsbD_shiftLeft, decide_eq_true h,
    Bool.not_true, Bool.and_false, Bool.false_and, Bool.or_false]

theorem getLsbD_sbReply_status (h : i < 8) : (sbReply st ws).getLsbD i = st.getLsbD i := by
  rw [getLsbD_sbReply_body st ws (by omega), BitVec.shiftLeft_eq, BitVec.getLsbD_or, BitVec.getLsbD_shiftLeft, BitVec.getLsbD_setWidth]
  simp [h, show i < 528 by omega]

theorem getLsbD_sbReply_word {k : Nat} (hk : k < ws.length) (hlen : ws.length ≤ 16) (h : i < 32) :
    (sbReply st ws).getLsbD (8 + 32 * k + i) = (ws.getD k 0#32).getLsbD i := by
  rw [getLsbD_sbReply_body st ws (by omega), BitVec.shiftLeft_eq, BitVec.getLsbD_or, BitVec.getLsbD_shiftLeft, BitVec.getLsbD_setWidth,
    show 8 + 32 * k + i - 8 = 32 * k + i by omega, getLsbD_sbWords_word ws h (by omega), BitVec.getLsbD_of_ge st _ (by omega)]
  simp [show 8 + 32 * k + i < 528 by omega, show ¬ 8 + 32 * k + i < 8 by omega]

theorem getLsbD_sbReply_crc (hlen : ws.length ≤ 16) (h : i < 8) : (sbReply st ws).getLsbD (8 + 32 * ws.length + i) =
    (crc8 (bitsOf (8 + 32 * ws.length) (st.setWidth 528 ||| (sbWords ws : BitVec 528).shiftLeft 8).toNat)).getLsbD i := by
  simp only [sbReply, BitVec.shiftLeft_eq]
  rw [BitVec.getLsbD_or, BitVec.getLsbD_or, BitVec.getLsbD_shiftLeft, BitVec.getLsbD_shiftLeft, BitVec.getLsbD_setWidth, BitVec.getLsbD_setWidth,
    BitVec.getLsbD_of_ge st _ (by omega), getLsbD_sbWords_end (by omega), show 8 + 32 * ws.length + i - (8 + 32 * ws.length) = i by omega]
  rw [decide_eq_true (show 8 + 32 * ws.length + i < 528 by omega), decide_eq_true (show i < 528 by omega),
    decide_eq_false (show ¬ 8 + 32 * ws.length + i < 8 + 32 * ws.length by omega)]
  simp only [Bool.and_false, Bool.or_false, Bool.false_or, Bool.not_false, Bool.true_and]

end

/-- A response as the stack drives it is heard as it was given (R221). -/
theorem sbHeard_sbReply (st : Byte) (ws : List Word) (hlen : ws.length ≤ 16) : sbHeard (sbReply st ws) ws.length = (true, st, ws) := by
  have hstatus : field (sbReply st ws) 0 8 = st := field_eq_of_bits (fun i hi => by rw [Nat.zero_add, getLsbD_sbReply_status st ws hi])
  have hwords : (List.range ws.length).map (fun k => field (sbReply st ws) (8 + 32 * k) 32) = ws :=
    map_range_getD ws 0#32 _ rfl (fun k hk => field_eq_of_bits (fun i hi => getLsbD_sbReply_word st ws hk hlen hi))
  have hcrc : field (sbReply st ws) (8 + 32 * ws.length) 8 = crc8 (bitsOf (8 + 32 * ws.length) (sbReply st ws).toNat) := by
    rw [bitsOf_congr (y := (st.setWidth 528 ||| (sbWords ws : BitVec 528).shiftLeft 8).toNat) (fun i hi => getLsbD_sbReply_body st ws hi)]
    exact field_eq_of_bits (fun i hi => getLsbD_sbReply_crc st ws hlen hi)
  rw [sbHeard, hstatus, hwords, hcrc, beq_self_eq_true]

/-! ### Requests (R221) -/

section

variable (cmd len : Nat) (ch : Byte) (addr : BitVec 24)

/-- The 56 bits of a header in front of its CRC. -/
def sbHead : BitVec 56 := BitVec.ofNat 56 (cmd % 16 + len % 16 * 2 ^ 4 + ch.toNat * 2 ^ 8 + addr.toNat * 2 ^ 16)

theorem sbHeader_eq : sbHeader cmd len ch addr = crc8 (bitsOf 56 (sbHead cmd len ch addr).toNat) ++ sbHead cmd len ch addr := rfl

theorem sbHead_toNat : (sbHead cmd len ch addr).toNat = cmd % 16 + len % 16 * 2 ^ 4 + ch.toNat * 2 ^ 8 + addr.toNat * 2 ^ 16 := by
  have hch := ch.isLt
  have haddr := addr.isLt
  exact BitVec.toNat_ofNat .. |>.trans (Nat.mod_eq_of_lt (by omega))

theorem field_sbHeader {lo w : Nat} (h : lo + w ≤ 56) : field (sbHeader cmd len ch addr) lo w = field (sbHead cmd len ch addr) lo w :=
  field_congr (fun i hi => by rw [sbHeader_eq, BitVec.getLsbD_append, if_pos (by omega)])

variable (ws : List Word)

/-- The first 64 bits of a request are its header. -/
theorem getLsbD_sbRequest_header {i : Nat} (h : i < 64) :
    (sbRequest cmd len ch addr ws).getLsbD i = (sbHeader cmd len ch addr).getLsbD i := by
  have hend : i < sbLength cmd ws := by unfold sbLength; split <;> omega
  simp only [sbRequest, BitVec.shiftLeft_eq]
  rw [BitVec.getLsbD_or, BitVec.getLsbD_or, BitVec.getLsbD_shiftLeft, BitVec.getLsbD_shiftLeft, BitVec.getLsbD_setWidth, decide_eq_true h,
    decide_eq_true hend, decide_eq_true (show i < 584 by omega)]
  simp only [Bool.not_true, Bool.and_false, Bool.false_and, Bool.or_false, Bool.true_and]

theorem field_sbRequest_header {lo w : Nat} (h : lo + w ≤ 64) :
    field (sbRequest cmd len ch addr ws) lo w = field (sbHeader cmd len ch addr) lo w :=
  field_congr (fun i hi => getLsbD_sbRequest_header cmd len ch addr ws (by omega))

/-- The bits behind the header of a writing request are its words, and behind these their CRC. -/
theorem getLsbD_sbRequest_body {i : Nat} (hw : sbWrites cmd = true) (h : i < 32 * ws.length + 8) (hlen : ws.length ≤ 16) :
    (sbRequest cmd len ch addr ws).getLsbD (64 + i) = ((sbWords ws : BitVec 584).getLsbD i ||
      (decide (32 * ws.length ≤ i) && (crc8 (bitsOf (32 * ws.length) (sbWords (w := 512) ws).toNat)).getLsbD (i - 32 * ws.length))) := by
  have hend : 64 + i < sbLength cmd ws := by simp only [sbLength, hw, if_true]; omega
  simp only [sbRequest, hw, if_true, BitVec.shiftLeft_eq]
  rw [BitVec.getLsbD_or, BitVec.getLsbD_or, BitVec.getLsbD_shiftLeft, BitVec.getLsbD_shiftLeft, BitVec.getLsbD_setWidth, BitVec.getLsbD_or,
    BitVec.getLsbD_shiftLeft, BitVec.getLsbD_setWidth, decide_eq_true hend, BitVec.getLsbD_of_ge (sbHeader ..) _ (by omega),
    show 64 + i - 64 = i by omega]
  rw [decide_eq_true (show 64 + i < 584 by omega), decide_eq_true (show i < 584 by omega),
    decide_eq_true (show i - 32 * ws.length < 584 by omega), decide_eq_false (show ¬ 64 + i < 64 by omega)]
  simp only [Bool.and_false, Bool.or_false, Bool.false_or, Bool.not_false, Bool.not_true, Bool.false_and, Bool.true_and, ← Nat.not_le,
    decide_not, Bool.not_not]

theorem getLsbD_sbRequest_words {i : Nat} (hw : sbWrites cmd = true) (h : i < 32 * ws.length) (hlen : ws.length ≤ 16) :
    (sbRequest cmd len ch addr ws).getLsbD (64 + i) = (sbWords ws : BitVec 512).getLsbD i := by
  rw [getLsbD_sbRequest_body cmd len ch addr ws hw (by omega) hlen, getLsbD_sbWords, getLsbD_sbWords, decide_eq_true (show i < 584 by omega),
    decide_eq_true (show i < 512 by omega), decide_eq_false (Nat.not_le.2 h)]
  simp

theorem field_sbRequest_crc (hw : sbWrites cmd = true) (hlen : ws.length ≤ 16) : field (sbRequest cmd len ch addr ws) (64 + 32 * ws.length) 8 =
    crc8 (bitsOf (32 * ws.length) (sbWords (w := 512) ws).toNat) := by
  refine field_eq_of_bits (fun i hi => ?_)
  rw [Nat.add_assoc, getLsbD_sbRequest_body cmd len ch addr ws hw (by omega) hlen, getLsbD_sbWords_end (by omega), Nat.add_sub_cancel_left,
    decide_eq_true (Nat.le_add_right ..), Bool.false_or, Bool.true_and]

theorem field_sbRequest_word {k : Nat} (hw : sbWrites cmd = true) (hlen : ws.length ≤ 16) (hk : k < ws.length) :
    field (sbRequest cmd len ch addr ws) (64 + 32 * k) 32 = ws.getD k 0#32 := by
  refine field_eq_of_bits (fun i hi => ?_)
  rw [Nat.add_assoc, getLsbD_sbRequest_words cmd len ch addr ws hw (by omega) hlen, getLsbD_sbWords_word ws hi (by omega)]

/-- The words' bits, read over the 512 bits behind the header, have the CRC that was sent. -/
theorem bitsOf_sbRequest_words (hw : sbWrites cmd = true) (hlen : ws.length ≤ 16) :
    bitsOf (32 * ws.length) (fieldNat (sbRequest cmd len ch addr ws) 64 512) = bitsOf (32 * ws.length) (sbWords (w := 512) ws).toNat := by
  refine bitsOf_congr (fun i hi => ?_)
  have hbit : (field (sbRequest cmd len ch addr ws) 64 512).getLsbD i = (sbWords (w := 512) ws).getLsbD i := by
    rw [field, BitVec.getLsbD_extractLsb', decide_eq_true (show i < 512 by omega), Bool.true_and,
      getLsbD_sbRequest_words cmd len ch addr ws hw hi hlen]
  exact hbit

end

/-- A request as it was sent spells its command (R221). -/
theorem sbReceive_sbRequest {cmd len : Nat} (ch : Byte) (addr : BitVec 24) {ws : List Word} (hcmd : 1 ≤ cmd) (hcmd8 : cmd < 8) (hlen : len < 16)
    (hws : ws.length = if sbWrites cmd then len + 1 else 0) : sbReceive (sbRequest cmd len ch addr ws) = .cmd cmd ch addr len ws := by
  have hch := ch.isLt
  have haddr := addr.isLt
  have hfield {lo w : Nat} (h : lo + w ≤ 56) : field (sbRequest cmd len ch addr ws) lo w = field (sbHead cmd len ch addr) lo w :=
    (field_sbRequest_header cmd len ch addr ws (by omega)).trans (field_sbHeader cmd len ch addr h)
  have hnat {lo w : Nat} (h : lo + w ≤ 56) : fieldNat (sbRequest cmd len ch addr ws) lo w = (sbHead cmd len ch addr).toNat / 2 ^ lo % 2 ^ w :=
    (congrArg BitVec.toNat (hfield h)).trans (fieldNat_eq_div_mod _ lo w)
  have hcode : fieldNat (sbRequest cmd len ch addr ws) 0 4 = cmd := by rw [hnat (by omega), sbHead_toNat]; omega
  have hcount : fieldNat (sbRequest cmd len ch addr ws) 4 4 = len := by rw [hnat (by omega), sbHead_toNat]; omega
  have hhead : fieldNat (sbRequest cmd len ch addr ws) 0 56 = (sbHead cmd len ch addr).toNat := by
    rw [hnat (by omega), sbHead_toNat]; omega
  have hchan : field (sbRequest cmd len ch addr ws) 8 8 = ch :=
    BitVec.eq_of_toNat_eq ((hnat (lo := 8) (w := 8) (by omega)).trans (by rw [sbHead_toNat]; omega))
  have haddress : field (sbRequest cmd len ch addr ws) 16 24 = addr :=
    BitVec.eq_of_toNat_eq ((hnat (lo := 16) (w := 24) (by omega)).trans (by rw [sbHead_toNat]; omega))
  have hcrc : field (sbRequest cmd len ch addr ws) 56 8 = crc8 (bitsOf 56 (sbHead cmd len ch addr).toNat) := by
    rw [field_sbRequest_header cmd len ch addr ws (by omega), sbHeader_eq]
    exact (field_high (m := 56) _ _ 0 8).trans (field_eq_of_bits (fun i _ => by rw [Nat.zero_add]))
  simp only [sbReceive, hcode, hcount, hhead, hchan, haddress, hcrc, ne_eq, not_true_eq_false, if_false]
  rw [if_neg (by omega)]
  cases hw : sbWrites cmd with
  | true =>
    rw [hw, if_pos rfl] at hws
    have hlen16 : ws.length ≤ 16 := by omega
    rw [← hws, bitsOf_sbRequest_words cmd len ch addr ws hw hlen16, field_sbRequest_crc cmd len ch addr ws hw hlen16,
      map_range_getD ws 0#32 _ rfl (fun k hk => field_sbRequest_word cmd len ch addr ws hw hlen16 hk), bne_self_eq_false, Bool.and_false,
      if_neg Bool.false_ne_true, if_pos rfl]
  | false =>
    rw [hw, if_neg (by simp)] at hws
    simp [List.length_eq_zero_iff.1 hws]

end Sys2Proof.Machine
end

section
/-! The passport's programming ends, and the LINK unit judges what it hears from the stack (R221, R222, R226, Table 8-8). -/

namespace Sys2Proof.Machine

/-! ### The end of programming (Table 8-8) -/

/-- A byte of the passport depends on what is stored at its own address alone. -/
theorem ppByte_congr (pt : Part) {p q : Tab Byte} {b : Nat} (h : Tab.find q b = Tab.find p b) : ppByte pt q b = ppByte pt p b := by
  unfold ppByte
  rw [h]

theorem ppEnd_good {s : State} {a n : Nat} (h : s.stack.ppWork = some (a, n)) :
    ppEnd s false = { s with stack := { s.stack with ppBusy := false, ppFail := false, ppWork := none } } := by
  simp only [ppEnd, h, Bool.false_eq_true, if_false]

/-- Programming that failed leaves the bits as their names say and changes no byte beyond what was being written. -/
theorem ppEnd_failed {s : State} {a n : Nat} (h : s.stack.ppWork = some (a, n)) :
    (ppEnd s true).part = s.part ∧ (ppEnd s true).stack.ppBusy = false ∧ (ppEnd s true).stack.ppFail = true ∧
      (ppEnd s true).stack.ppWork = none ∧
      ∀ b, (b < a ∨ a + n ≤ b) → Tab.find (ppEnd s true).stack.passport b = Tab.find s.stack.passport b := by
  simp only [ppEnd, h, if_true, true_and]
  refine List.foldlRecOn
    (motive := fun (t : State) => t.part = s.part ∧ ∀ b, (b < a ∨ a + n ≤ b) → Tab.find t.stack.passport b = Tab.find s.stack.passport b)
    (List.range n) _ ⟨rfl, fun _ _ => rfl⟩ (fun t ht i hi => ⟨ht.1, fun b hb => ?_⟩)
  have hin := List.mem_range.1 hi
  exact (Tab.find_put_other _ _ _ _ (by omega)).trans (ht.2 b hb)

/-! ### Retries and the next transaction (R222) -/

theorem sbNext_empty {s : State} (h : s.link.queue = []) : sbNext s = { s with link := { s.link with cur := none, ppBusy := false } } := by
  have hstart : sbStart { s with link := { s.link with cur := none } } = { s with link := { s.link with cur := none } } := by
    simp only [sbStart, h]
    rfl
  unfold sbNext
  rw [hstart]
  simp only [ppStillBusy, h, List.any_nil, Bool.or_false]

theorem sbRetry_again {s : State} {x : Sb} (h : x.tries < regF s pgLink 0x044 0 3) : sbRetry s x =
    { s with link := { s.link with cur := some { x with tries := x.tries + 1, resp := none, sentTick := s.time.tick } } } := if_pos h

/-- The state after a count of the LINK unit's own failures. -/
theorem regF_retries_bumpReg (s : State) (lo w n : Nat) :
    regF (bumpReg s pgLink 0x048 lo w n) pgLink 0x044 0 3 = regF s pgLink 0x044 0 3 :=
  congrArg (fun v => fieldNat v 0 3) (reg_setReg_other _ _ _ _ _ _ (by decide))

/-- LINK_PP_OP ends with its RESULT when it is the last transaction. -/
theorem sbNext_ppOpEnd {s : State} (h : s.link.queue = []) (r : Nat) : sbNext (ppOpEnd s r) =
    { s with link := { s.link with opBusy := false, opResult := r, cur := none, ppBusy := false } } := sbNext_empty h

/-- An abandoned LINK_PP_OP ends with RESULT 2, and SB_FAIL latches. -/
theorem sbRetry_op_exhausted {s : State} {x : Sb} (h : regF s pgLink 0x044 0 3 ≤ x.tries) (hu : x.user = 4) (hq : s.link.queue = []) :
    (sbRetry s x).link.cur = none ∧ (sbRetry s x).link.opBusy = false ∧ (sbRetry s x).link.opResult = 2 ∧
      (reg (sbRetry s x) pgLink 0x010).getLsbD 0 = true ∧ (sbRetry s x).stack = s.stack ∧ (sbRetry s x).chans = s.chans := by
  have hbook : latch s pgLink 0 = _ := booked_latch s pgLink 0
  have hstack : (latch s pgLink 0).stack = s.stack := by rw [hbook]
  have hchans : (latch s pgLink 0).chans = s.chans := by rw [hbook]
  have hfail : sbFailed (latch s pgLink 0) x 2 = ppOpEnd (latch s pgLink 0) 2 := by simp [sbFailed, hu]
  have heq : sbRetry s x = { latch s pgLink 0 with
      link := { (latch s pgLink 0).link with opBusy := false, opResult := 2, cur := none, ppBusy := false } } :=
    (if_neg (Nat.not_lt.2 h)).trans ((congrArg sbNext hfail).trans (sbNext_ppOpEnd (by rw [hbook]; exact hq) 2))
  rw [heq]
  exact ⟨rfl, rfl, rfl, (congrArg (fun v => v.getLsbD 0) (reg_of_regs rfl rfl pgLink 0x010)).trans (latch_bit s pgLink 0 (by decide)),
    hstack, hchans⟩

/-! ### Responses (R221, R222) -/

/-- The sideband has answered once more. -/
def sbAlive (s : State) : State := { s with link := { s.link with sbUp := true } }

theorem sbTake_bad (s : State) (x : Sb) {ok : Bool} {st : Byte} (ws : List Word) (h : ok = false ∨ st = 1#8) :
    sbTake s x ok st ws = sbRetry (bumpReg (sbAlive s) pgLink 0x048 0 16 1) x := by
  refine if_pos ?_
  rcases h with h | h <;> simp [h]

theorem sbTake_busy (s : State) (x : Sb) (ws : List Word) : sbTake s x true 3#8 ws =
    { s with link := { s.link with sbUp := true, cur := some { x with resp := none, sentTick := s.time.tick } } } := by
  simp only [sbTake]
  rfl

/-- The word of LINK_PP_OP READ is delivered, and the operation ends with RESULT 0. -/
theorem sbTake_ppRead {s : State} {x : Sb} (w : Word) (hu : x.user = 4) (hc : x.cmd = 3) :
    sbTake s x true 0#8 [w] = sbNext (ppOpEnd (setReg (sbAlive s) pgLink 0x064 w) 0) := by
  have hdeliver : sbDeliver (sbAlive s) x [w] = ppOpEnd (setReg (sbAlive s) pgLink 0x064 w) 0 := by
    simp only [sbDeliver, hc, hu, if_true, List.headD_cons]
  have hpoll : sbPoll x [w] = false := by simp [sbPoll, hc]
  rw [← hdeliver]
  simp only [sbTake, hpoll]
  rfl

theorem sbResponse_clear {s : State} {x : Sb} {st : Byte} {ws : List Word} (hx : s.link.cur = some x) (hr : x.resp = some (st, ws)) :
    sbResponse s 0 = sbTake s x true st ws := by
  simp only [sbResponse, hx, hr, if_true]

theorem sbResponse_noisy {s : State} {x : Sb} {st : Byte} {ws : List Word} {e : BitVec 528} (hx : s.link.cur = some x)
    (hr : x.resp = some (st, ws)) (he : e ≠ 0) :
    sbResponse s e = sbTake s x (sbHeard (sbReply st ws ^^^ e) ws.length).1 (sbHeard (sbReply st ws ^^^ e) ws.length).2.1
      (sbHeard (sbReply st ws ^^^ e) ws.length).2.2 := by
  simp only [sbResponse, hx, hr, if_neg he]

/-- A response whose CRC fails, or that says so of the request, sends the transaction to its retry. -/
theorem sbResponse_bad {s : State} {x : Sb} {st : Byte} {ws : List Word} {e : BitVec 528} (hx : s.link.cur = some x)
    (hr : x.resp = some (st, ws)) (h : e = 0 ∧ st = 1#8 ∨ e ≠ 0 ∧ (sbHeard (sbReply st ws ^^^ e) ws.length).1 = false) :
    sbResponse s e = sbRetry (bumpReg (sbAlive s) pgLink 0x048 0 16 1) x := by
  rcases h with ⟨rfl, hst⟩ | ⟨he, hcrc⟩
  · rw [sbResponse_clear hx hr, sbTake_bad s x ws (.inr hst)]
  · rw [sbResponse_noisy hx hr he, sbTake_bad s x _ (.inl hcrc)]

theorem regF_retries_sbAlive (s : State) (lo w n : Nat) :
    regF (bumpReg (sbAlive s) pgLink 0x048 lo w n) pgLink 0x044 0 3 = regF s pgLink 0x044 0 3 :=
  (regF_retries_bumpReg ..).trans (congrArg (fun v => fieldNat v 0 3) (reg_of_regs rfl rfl pgLink 0x044))

/-! ### Responses that do not come (R222) -/

section

variable {s : State} {x : Sb} (hx : s.link.cur = some x) (hr : x.resp = none)
include hx hr

theorem sbTimeout_early (h : s.time.tick < x.sentTick + sbTicks x + 320) : sbTimeout s = s := by
  simp [sbTimeout, hx, hr, h]

theorem sbTimeout_late (h : x.sentTick + sbTicks x + 320 ≤ s.time.tick) : sbTimeout s = sbRetry (bumpReg s pgLink 0x048 16 16 1) x := by
  simp [sbTimeout, hx, hr, Nat.not_lt.2 h]

end

/-! ### The settled statement -/

/-- Settles O45: each answer has one way through `sbTake`, and a retry is decided by a limit that no count of failures changes. -/
theorem sidebandAnswersAreJudged : Obligations.SidebandAnswersAreJudged := by
  unfold Obligations.SidebandAnswersAreJudged
  refine ⟨fun s a n h => ⟨_, congrArg Host.Outcome.next (ppEnd_good h), rfl⟩, fun s a n h => ?_,
    fun s x st ws e hx hr hbad => ⟨fun htry => ?_, fun htry hu hq => ?_⟩, fun s x ws hx hr => ?_, fun s x w hx hr hu hc hq => ?_,
    fun s x hx hr => ⟨fun h => congrArg Host.Outcome.next (sbTimeout_early hx hr h), fun h htry => ?_⟩,
    fun st ws hlen => sbHeard_sbReply st ws hlen⟩
  · obtain ⟨hpart, hbusy, hfail, hwork, hpp⟩ := ppEnd_failed h
    exact ⟨ppEnd s true, rfl, hbusy, hfail, hwork, fun b hb => hpart ▸ ppByte_congr _ (hpp b hb), memoryKept_of_mem (ppEnd_mem s true)⟩
  · rw [← regF_retries_sbAlive s 0 16 1] at htry
    exact ⟨_, congrArg Host.Outcome.next ((sbResponse_bad hx hr hbad).trans (sbRetry_again htry)), rfl, rfl, rfl, rfl⟩
  · rw [← regF_retries_sbAlive s 0 16 1] at htry
    exact ⟨_, congrArg Host.Outcome.next (sbResponse_bad hx hr hbad), sbRetry_op_exhausted htry hu hq⟩
  · exact ⟨_, congrArg Host.Outcome.next ((sbResponse_clear hx hr).trans (sbTake_busy s x ws)), rfl, rfl⟩
  · have heff := (sbResponse_clear hx hr).trans ((sbTake_ppRead w hu hc).trans (sbNext_ppOpEnd (s := setReg (sbAlive s) pgLink 0x064 w) hq 0))
    exact ⟨_, congrArg Host.Outcome.next heff, rfl, rfl, rfl,
      (reg_of_regs rfl rfl pgLink 0x064).trans (reg_setReg (sbAlive s) pgLink 0x064 w), rfl, rfl⟩
  · rw [← regF_retries_bumpReg s 16 16 1] at htry
    exact ⟨_, congrArg Host.Outcome.next ((sbTimeout_late hx hr h).trans (sbRetry_again htry)), rfl, rfl, rfl⟩

end Sys2Proof.Machine
end

section
/-! What the stack does with a frame of the sideband (R221, R227, Table 8-8). -/

namespace Sys2Proof.Machine

/-! ### An answer belongs to the outstanding transaction -/

/-- The state with an answer waiting in the transaction x. -/
def answered (t : State) (x : Sb) (st : Byte) (out : List Word) : State :=
  { t with link := { t.link with cur := some { x with resp := some (st, out) } } }

theorem sbAnswer_matching {t : State} {x : Sb} {cmd len : Nat} {ch : Byte} {addr : BitVec 24} {ws : List Word} (hx : t.link.cur = some x)
    (hm : sbMatches x cmd ch addr len ws = true) (st : Byte) (out : List Word) :
    sbAnswer t cmd ch addr len ws st out = answered t x st out := by
  simp only [sbAnswer, hx, hm, if_true]
  rfl

theorem sbMatches_of {x : Sb} {cmd len : Nat} {ch : Byte} {addr : BitVec 24} {ws : List Word} (hr : x.resp = none) (hcmd : x.cmd = cmd)
    (hch : x.ch = ch) (haddr : cmd = 5 ∨ x.addr = addr) (hlen : x.len = len) (hws : x.words = ws) :
    sbMatches x cmd ch addr len ws = true := by
  simp only [sbMatches, hr, hcmd, hch, hlen, hws, beq_self_eq_true, Bool.true_and, Bool.and_true, Option.isNone_none]
  simpa using haddr

section

variable {s : State} {x : Sb} {cmd len : Nat} {ch : Byte} {addr : BitVec 24} {ws : List Word} {f : State → Byte × List Word × State}
  (hon : stackOn s = true) (hx : s.link.cur = some x) (hm : sbMatches x cmd ch addr len ws = true)
include hon hx hm

/-- A frame as it was sent, to a stack that is not programming, does what its command does. -/
theorem sbFrame_acts (hbusy : s.stack.ppBusy = false) (hlink : (f s).2.2.link = s.link) :
    sbFrame s cmd ch addr len ws 0 f = answered (f s).2.2 x (f s).1 (f s).2.1 := by
  simp only [sbFrame, hon, hbusy, Bool.not_true, Bool.false_and, Bool.false_eq_true, if_false, if_true]
  exact sbAnswer_matching (hlink ▸ hx) hm ..

theorem sbFrame_busy (hbusy : s.stack.ppBusy = true) (hcmd : cmd ≠ 5) : sbFrame s cmd ch addr len ws 0 f = answered s x 3#8 [] := by
  simp only [sbFrame, hon, hbusy, bne_iff_ne.2 hcmd, Bool.not_true, Bool.and_self, Bool.false_eq_true, if_false, if_true]
  exact sbAnswer_matching hx hm ..

/-- PP_STAT is answered while the passport is programmed too. -/
theorem sbFrame_ppStat (hcmd : cmd = 5) (hlink : (f s).2.2.link = s.link) :
    sbFrame s cmd ch addr len ws 0 f = answered (f s).2.2 x (f s).1 (f s).2.1 := by
  simp only [sbFrame, hon, bne_eq_false_iff_eq.2 hcmd, Bool.not_true, Bool.and_false, Bool.false_eq_true, if_false, if_true]
  exact sbAnswer_matching (hlink ▸ hx) hm ..

/-- A request that the stack cannot read is answered with why and does nothing. -/
theorem sbFrame_refused {e : BitVec 584} {st : Byte} (he : e ≠ 0) (h : sbReceive (sbRequest cmd len ch addr ws ^^^ e) = .refused st) :
    sbFrame s cmd ch addr len ws e f = answered s x st [] := by
  simp only [sbFrame, hon, h, if_neg he, Bool.not_true, Bool.false_eq_true, if_false]
  exact sbAnswer_matching hx hm ..

end

/-! ### Words read one after the other -/

theorem readWords_succ (f : State → Nat → Word × State) (n : Nat) (s : State) :
    readWords f (n + 1) s = ((readWords f n s).1 ++ [(f (readWords f n s).2 n).1], (f (readWords f n s).2 n).2) := by
  simp only [readWords, List.range_succ, List.foldl_append, List.foldl_cons, List.foldl_nil]

/-- Reads that take free values alone leave the rest as it was, and each word is read in such a state. -/
theorem readWords_free {f : State → Nat → Word × State} (hf : ∀ t i, (f t i).2 = { t with free := (f t i).2.free }) (s : State) (n : Nat) :
    (readWords f n s).2 = { s with free := (readWords f n s).2.free } ∧ (readWords f n s).1.length = n ∧
      ∀ i w, (readWords f n s).1[i]? = some w → ∃ k, w = (f { s with free := k } i).1 := by
  induction n with
  | zero => exact ⟨rfl, rfl, nofun⟩
  | succ n ih =>
    obtain ⟨hstate, hlen, hword⟩ := ih
    rw [readWords_succ]
    refine ⟨?_, by rw [List.length_append, hlen, List.length_singleton], fun i w hw => ?_⟩
    · dsimp only
      rw [hf, hstate]
    · rcases Nat.lt_trichotomy i n with hlt | rfl | hgt
      · exact hword i w (by rwa [List.getElem?_append_left (by omega)] at hw)
      · rw [List.getElem?_append_right (by omega), hlen, Nat.sub_self] at hw
        exact ⟨(readWords f i s).2.free, by rw [← hstate]; exact (Option.some.inj hw).symm⟩
      · rw [List.getElem?_eq_none (by simp only [List.length_append, hlen, List.length_singleton]; omega)] at hw
        cases hw

theorem takeFree_frame (w : Nat) (s : State) : (takeFree w s).2 = { s with free := (takeFree w s).2.free } := rfl

/-! ### Registers of the stack (Table 8-9) -/

/-- A register read takes at most a free value. -/
theorem srRead_frame (s : State) (ch : Byte) (a : Nat) : (srRead s ch a).2 = { s with free := (srRead s ch a).2.free } := by
  unfold srRead
  dsimp only
  (repeat' split) <;> rfl

/-- The channel number of a frame to one channel is that channel, and not the whole stack's. -/
theorem channel_toNat (c : Fin 64) : (BitVec.ofNat 8 c).toNat = c ∧ BitVec.ofNat 8 c ≠ sbAll := by
  have htoNat : (BitVec.ofNat 8 c).toNat = c := toNat_payload (by omega)
  refine ⟨htoNat, fun h => ?_⟩
  rw [h] at htoNat
  exact absurd htoNat (by have := c.isLt; show ¬ 255 = c.val; omega)

section

variable {s : State} {c : Fin 64} (hc : c < nChan s)
include hc

theorem srRead_lnErr : (srRead s (BitVec.ofNat 8 c) 0x011).1 = (stk s c).lnErr := by
  obtain ⟨hch, hall⟩ := channel_toNat c
  simp [srRead, hall, Nat.mod_eq_of_lt (show c.val < 256 by omega), Nat.not_le.2 hc]

theorem srRead_alert : (srRead s (BitVec.ofNat 8 c) 0x010).1 =
    BitVec.ofNat 32 ((stk s c).alertCause % 16 + (stk s c).alertCount % 2 ^ 24 * 256) := by
  obtain ⟨hch, hall⟩ := channel_toNat c
  simp [srRead, hall, Nat.mod_eq_of_lt (show c.val < 256 by omega), Nat.not_le.2 hc]

theorem srRead_remap {a : Nat} (hlo : 0x080 ≤ a) (hhi : a < 0x0C0) :
    (srRead s (BitVec.ofNat 8 c) a).1 = Tab.get (stk s c).remap (a - 0x080) 0 := by
  obtain ⟨hch, hall⟩ := channel_toNat c
  simp only [srRead, hall, hch, if_false, if_neg (Nat.not_le.2 hc), if_neg (show ¬ a < 0x00A by omega), if_neg (show ¬ a = 0x010 by omega),
    if_neg (show ¬ a = 0x011 by omega), if_neg (show ¬ a = 0x018 by omega), if_neg (show ¬ (a = 0x019 ∨ a = 0x01A) by omega),
    if_neg (show ¬ (0x040 ≤ a ∧ a < 0x068) by omega), if_pos (And.intro hlo hhi)]

end

/-- SR_ALERT carries the cause and the count of its channel's alerts. -/
theorem alertWord_fields (cause count : Nat) : fieldNat (BitVec.ofNat 32 (cause % 16 + count % 2 ^ 24 * 256)) 0 4 = cause % 16 ∧
    fieldNat (BitVec.ofNat 32 (cause % 16 + count % 2 ^ 24 * 256)) 8 24 = count % 2 ^ 24 := by
  rw [fieldNat_eq_div_mod, fieldNat_eq_div_mod, toNat_payload (by omega)]
  omega

/-- A register write to a channel changes that channel of the stack alone. -/
theorem srWrite_frame (s : State) (c : Fin 64) (a : Nat) (v : Word) :
    srWrite s (BitVec.ofNat 8 c) a v = { s with stack := { s.stack with chans := (srWrite s (BitVec.ofNat 8 c) a v).stack.chans } } ∧
      ∀ e, e ≠ c.val → stk (srWrite s (BitVec.ofNat 8 c) a v) e = stk s e := by
  obtain ⟨hch, hall⟩ := channel_toNat c
  by_cases hc : nChan s ≤ c
  · have heq : srWrite s (BitVec.ofNat 8 c) a v = s := by simp only [srWrite, hall, hch, if_false, if_pos hc]
    rw [heq]
    exact ⟨rfl, fun _ _ => rfl⟩
  · simp only [srWrite, hall, hch, if_false, if_neg hc]
    exact ⟨rfl, fun e he => stk_modStk_other _ _ _ _ he⟩

theorem ansRegWr_frame (s : State) (c : Fin 64) (a : BitVec 24) (ws : List Word) :
    (ansRegWr (BitVec.ofNat 8 c) a ws s).2.2 =
        { s with stack := { s.stack with chans := (ansRegWr (BitVec.ofNat 8 c) a ws s).2.2.stack.chans } } ∧
      ∀ e, e ≠ c.val → stk (ansRegWr (BitVec.ofNat 8 c) a ws s).2.2 e = stk s e := by
  refine List.foldlRecOn (motive := fun (t : State) => t = { s with stack := { s.stack with chans := t.stack.chans } } ∧
    ∀ e, e ≠ c.val → stk t e = stk s e) ws.zipIdx _ ⟨rfl, fun _ _ => rfl⟩ (fun t ht p _ => ?_)
  obtain ⟨hframe, hother⟩ := srWrite_frame t c (a.toNat + p.2) p.1
  refine ⟨?_, fun e he => (hother e he).trans (ht.2 e he)⟩
  rw [hframe]
  rw [ht.1]

section

variable {s : State} {c : Fin 64} (hc : c < nChan s) (v : Word)
include hc

theorem srWrite_sref {a : Nat} (hlo : 0x040 ≤ a) (hhi : a < 0x068) : stk (srWrite s (BitVec.ofNat 8 c) a v) c =
    { stk s c with sref := Tab.put (stk s c).sref (a - 0x040) (fieldNat v 0 8) } := by
  obtain ⟨hch, hall⟩ := channel_toNat c
  simp only [srWrite, hall, hch, if_false, if_neg (Nat.not_le.2 hc), if_neg (show ¬ a < 0x00A by omega), if_neg (show ¬ a = 0x011 by omega),
    if_neg (show ¬ a = 0x018 by omega), if_neg (show ¬ a = 0x019 by omega), if_neg (show ¬ a = 0x01A by omega), if_pos (And.intro hlo hhi),
    stk_modStk]

omit hc in
/-- A seed is written in two words. -/
theorem seed_append (lo : Word) : (v.setWidth 64 <<< 32) ||| lo.setWidth 64 = v ++ lo := by
  apply BitVec.eq_of_getLsbD_eq
  intro i hi
  rw [BitVec.getLsbD_or, BitVec.getLsbD_shiftLeft, BitVec.getLsbD_setWidth, BitVec.getLsbD_setWidth, BitVec.getLsbD_append]
  by_cases hlow : i < 32
  · simp [hlow, hi]
  · simp [hlow, hi, BitVec.getLsbD_of_ge lo i (by omega), show i - 32 < 64 by omega]

theorem srWrite_seedHi : (stk (srWrite s (BitVec.ofNat 8 c) 0x01A v) c).gen = v ++ (stk s c).seedLo := by
  obtain ⟨hch, hall⟩ := channel_toNat c
  simp only [srWrite, hall, hch, if_false, if_neg (Nat.not_le.2 hc), stk_modStk]
  exact seed_append v _

end

/-! ### The passport (R223, Table 8-10) -/

/-- The bytes of a word that has been stored stand at its four addresses. -/
theorem find_ppStore (p : Tab Byte) (a b : Nat) (w : Word) :
    Tab.find (ppStore p a w) b = if a ≤ b ∧ b < a + 4 then some (field w (8 * (b - a)) 8) else Tab.find p b := by
  have hfour : ppStore p a w = Tab.put (Tab.put (Tab.put (Tab.put p (a + 0) (field w 0 8)) (a + 1) (field w 8 8)) (a + 2) (field w 16 8))
      (a + 3) (field w 24 8) := rfl
  rw [hfour]
  by_cases hin : a ≤ b ∧ b < a + 4
  · rw [if_pos hin]
    obtain ⟨i, rfl⟩ := Nat.exists_eq_add_of_le hin.1
    rw [Nat.add_sub_cancel_left]
    match i, show i < 4 by omega with
    | 0, _ => rw [Tab.find_put_other _ _ _ _ (by omega), Tab.find_put_other _ _ _ _ (by omega), Tab.find_put_other _ _ _ _ (by omega),
        Tab.find_put_self]
    | 1, _ => rw [Tab.find_put_other _ _ _ _ (by omega), Tab.find_put_other _ _ _ _ (by omega), Tab.find_put_self]
    | 2, _ => rw [Tab.find_put_other _ _ _ _ (by omega), Tab.find_put_self]
    | 3, _ => rw [Tab.find_put_self]
  · rw [if_neg hin, Tab.find_put_other _ _ _ _ (by omega), Tab.find_put_other _ _ _ _ (by omega), Tab.find_put_other _ _ _ _ (by omega),
      Tab.find_put_other _ _ _ _ (by omega)]

theorem find_ppStores (ws : List Word) (a b : Nat) : ∀ (k : Nat) (p : Tab Byte),
    Tab.find ((ws.zipIdx k).foldl (fun t e => ppStore t (a + 4 * e.2) e.1) p) b =
      if a + 4 * k ≤ b ∧ b < a + 4 * (k + ws.length) then some (field (ws.getD ((b - a) / 4 - k) 0#32) (8 * ((b - a) % 4)) 8)
      else Tab.find p b := by
  induction ws with
  | nil => intro k p; simp [show ¬ (a + 4 * k ≤ b ∧ b < a + 4 * k) by omega]
  | cons v vs ih =>
    intro k p
    rw [List.zipIdx_cons, List.foldl_cons, ih, find_ppStore, List.length_cons]
    by_cases hlater : a + 4 * (k + 1) ≤ b ∧ b < a + 4 * (k + 1 + vs.length)
    · rw [if_pos hlater, if_pos (by omega), show (b - a) / 4 - k = ((b - a) / 4 - (k + 1)) + 1 by omega, List.getD_cons_succ]
    · rw [if_neg hlater]
      by_cases hhere : a + 4 * k ≤ b ∧ b < a + 4 * k + 4
      · rw [if_pos hhere, if_pos (by omega), show (b - a) / 4 - k = 0 by omega, show b - (a + 4 * k) = (b - a) % 4 by omega,
          List.getD_cons_zero]
      · rw [if_neg hhere, if_neg (by omega)]

theorem find_ppStoreAll (p : Tab Byte) (a b : Nat) (ws : List Word) : Tab.find (ppStoreAll p a ws) b =
    if a ≤ b ∧ b < a + 4 * ws.length then some (field (ws.getD ((b - a) / 4) 0#32) (8 * ((b - a) % 4)) 8) else Tab.find p b := by
  have h := find_ppStores ws a b 0 p
  rwa [Nat.mul_zero, Nat.add_zero, Nat.zero_add, Nat.sub_zero] at h

/-- A word is its four bytes. -/
theorem bytes_append (w : Word) : (field w 24 8 ++ field w 16 8 ++ field w 8 8 ++ field w 0 8 : Word) = w := by
  apply BitVec.eq_of_getLsbD_eq
  intro i hi
  simp only [BitVec.getLsbD_append, field, BitVec.getLsbD_extractLsb']
  split
  · simp [*]
  · split
    · simp [show i - 8 < 8 by omega, show 8 + (i - 8) = i by omega]
    · split
      · simp [show i - 8 - 8 < 8 by omega, show 16 + (i - 8 - 8) = i by omega]
      · simp [show i - 8 - 8 - 8 < 8 by omega, show 24 + (i - 8 - 8 - 8) = i by omega]

/-- A word that has been stored reads back. -/
theorem ppWord_ppStoreAll (pt : Part) (p : Tab Byte) (a : Nat) {ws : List Word} {i : Nat} {w : Word} (h : ws[i]? = some w) :
    ppWord pt (ppStoreAll p a ws) (a + 4 * i) = w := by
  obtain ⟨hi, -⟩ := List.getElem?_eq_some_iff.1 h
  have hbyte (j : Nat) (hj : j < 4) : ppByte pt (ppStoreAll p a ws) (a + 4 * i + j) = field w (8 * j) 8 := by
    unfold ppByte
    rw [find_ppStoreAll, if_pos (by omega), show (a + 4 * i + j - a) / 4 = i by omega, show (a + 4 * i + j - a) % 4 = j by omega,
      List.getD_eq_getElem?_getD, h]
    rfl
  unfold ppWord
  rw [hbyte 3 (by omega), hbyte 2 (by omega), hbyte 1 (by omega), show a + 4 * i = a + 4 * i + 0 from rfl, hbyte 0 (by omega)]
  exact bytes_append w

/-- What a table filtered by its keys lists. -/
theorem find_filter_keys {α : Type} (keep : Nat → Bool) (k : Nat) (t : Tab α) :
    Tab.find (t.filter (fun e => keep e.1)) k = if keep k then Tab.find t k else none := by
  induction t with
  | nil => simp [Tab.find]
  | cons e t ih =>
    obtain ⟨j, v⟩ := e
    by_cases hj : keep j = true
    · rw [List.filter_cons, if_pos hj, Tab.find, Tab.find, ih]
      by_cases hjk : j = k
      · rw [if_pos hjk, if_pos hjk, if_pos (hjk ▸ hj)]
      · rw [if_neg hjk, if_neg hjk]
    · rw [List.filter_cons, if_neg hj, ih, Tab.find]
      by_cases hjk : j = k
      · rw [if_neg (hjk ▸ hj), if_neg (hjk ▸ hj)]
      · rw [if_neg hjk]

theorem find_ppErased (p : Tab Byte) (a n b : Nat) :
    Tab.find (ppErased p a n) b = if a ≤ b ∧ b < a + n then none else Tab.find p b := by
  have hfind := find_filter_keys (fun k => !(decide (a ≤ k ∧ k < a + n))) b p
  rw [show ppErased p a n = p.filter (fun e => !(decide (a ≤ e.1 ∧ e.1 < a + n))) from rfl, hfind]
  by_cases hin : a ≤ b ∧ b < a + n <;> simp [hin]

/-- Behind the delay blocks the passport is made erased. -/
theorem ppDflt_area (pt : Part) {a : Nat} (h : 0x10000 ≤ a) : ppDflt pt a = 0xFF#8 := by
  simp only [ppDflt, if_neg (show ¬ a < 252 by omega), if_neg (show ¬ a < 256 by omega), if_neg (show ¬ a < 0x1000 by omega),
    if_neg (show ¬ a < 0x10000 by omega)]

theorem areaBase_toNat (b : Bool) : (BitVec.ofNat 24 (areaBase b)).toNat = areaBase b ∧ 0x10000 ≤ areaBase b := by
  cases b <;> decide

theorem ansPpErase_area (b : Bool) (s : State) : ansPpErase (BitVec.ofNat 24 (areaBase b)) s = (0#8, [],
    { s with stack := { s.stack with passport := ppErased s.stack.passport (areaBase b) areaBytes, ppBusy := true
                                     ppFail := false, ppWork := some (areaBase b, areaBytes) } }) := by
  obtain ⟨haddr, -⟩ := areaBase_toNat b
  rw [ansPpErase, haddr, if_pos (by cases b <;> simp)]

/-! ### The wrapper (R227) -/

theorem ansT1500_frame (a : BitVec 24) (ws : List Word) (s : State) :
    (ansT1500 a ws s).1 = 0#8 ∧ (ansT1500 a ws s).2.1.length = ws.length ∧ (ansT1500 a ws s).2.2.link = s.link ∧
      (ansT1500 a ws s).2.2.stack.wir = (if a.getLsbD 0 then s.stack.wir else wirShift s.stack.wir (fieldNat a 3 10) ws) := by
  cases hbit : a.getLsbD 0 with
  | true =>
    obtain ⟨hstate, hlen, -⟩ := readWords_free (f := fun t _ => takeFree 32 t) (fun t _ => takeFree_frame 32 t) s ws.length
    simp only [ansT1500, hbit, if_true]
    exact ⟨trivial, hlen, by rw [hstate], by rw [hstate]⟩
  | false =>
    obtain ⟨hstate, hlen, -⟩ := readWords_free (f := fun t _ => takeFree 32 t) (fun t _ => takeFree_frame 32 t)
      { s with stack := { s.stack with wir := wirShift s.stack.wir (fieldNat a 3 10) ws } } ws.length
    simp only [ansT1500, hbit, Bool.false_eq_true, if_false]
    exact ⟨trivial, hlen, by rw [hstate], by rw [hstate]⟩

/-! ### The settled statement -/

section

variable {s : State} {x : Sb} (hon : stackOn s = true) (hx : s.link.cur = some x) (hr : x.resp = none)
include hon hx hr

theorem sbRegRd_reads (hbusy : s.stack.ppBusy = false) {c : Fin 64} {a : BitVec 24} {n : BitVec 4} (hc : c < nChan s) (hcmd : x.cmd = 1)
    (hch : x.ch = BitVec.ofNat 8 c) (haddr : x.addr = a) (hlen : x.len = n.toNat) (hws : x.words = []) :
    ∃ t ws, exec (.sbRegRd (BitVec.ofNat 8 c) ⟨a, 0⟩ n) s = .next t ∧ t.link.cur = some { x with resp := some (0#8, ws) } ∧
      ws.length = n.toNat + 1 ∧
      (∀ i w, ws[i]? = some w →
        (a.toNat + i = 0x011 → w = (stk s c).lnErr) ∧
        (a.toNat + i = 0x010 → fieldNat w 0 4 = (stk s c).alertCause % 16 ∧ fieldNat w 8 24 = (stk s c).alertCount % 2 ^ 24) ∧
        (0x080 ≤ a.toNat + i → a.toNat + i < 0x0C0 → w = Tab.get (stk s c).remap (a.toNat + i - 0x080) 0)) ∧
      t = { s with link := t.link, free := t.free } := by
  obtain ⟨hstate, hcount, hword⟩ := readWords_free (f := fun t i => srRead t (BitVec.ofNat 8 c) (a.toNat + i))
    (fun t i => srRead_frame t (BitVec.ofNat 8 c) (a.toNat + i)) s (n.toNat + 1)
  have hans : (ansRegRd (BitVec.ofNat 8 c) a n.toNat s).2.2 = _ := hstate
  refine ⟨_, (ansRegRd (BitVec.ofNat 8 c) a n.toNat s).2.1, congrArg Host.Outcome.next
    (sbFrame_acts hon hx (sbMatches_of hr hcmd hch (.inr haddr) hlen hws) hbusy (by rw [hans])), rfl, hcount, fun i w hi => ?_, ?_⟩
  · obtain ⟨k, rfl⟩ := hword i w hi
    refine ⟨fun h => ?_, fun h => ?_, fun hlo hhi => srRead_remap (s := { s with free := k }) hc hlo hhi⟩
    · rw [h]
      exact srRead_lnErr (s := { s with free := k }) hc
    · rw [h, srRead_alert (s := { s with free := k }) hc]
      exact alertWord_fields _ _
  · unfold answered
    rw [hans]

theorem sbRegWr_writes (hbusy : s.stack.ppBusy = false) {c : Fin 64} {a : BitVec 24} {ws : List Word} (hc : c < nChan s) (hcmd : x.cmd = 2)
    (hch : x.ch = BitVec.ofNat 8 c) (haddr : x.addr = a) (hlen : x.len = ws.length - 1) (hws : x.words = ws) :
    ∃ t, exec (.sbRegWr (BitVec.ofNat 8 c) ⟨a, 0⟩ ws) s = .next t ∧ t.link.cur = some { x with resp := some (0#8, []) } ∧
      (∀ v, ws = [v] → 0x040 ≤ a.toNat → a.toNat < 0x068 →
        stk t c = { stk s c with sref := Tab.put (stk s c).sref (a.toNat - 0x040) (fieldNat v 0 8) }) ∧
      (∀ v, ws = [v] → a.toNat = 0x01A → (stk t c).gen = v ++ (stk s c).seedLo) ∧
      (∀ e, e ≠ c.val → stk t e = stk s e) ∧ t = { s with link := t.link, stack := { s.stack with chans := t.stack.chans } } ∧
      MemoryKept s t := by
  obtain ⟨hstate, hother⟩ := ansRegWr_frame s c a ws
  refine ⟨_, congrArg Host.Outcome.next
    (sbFrame_acts hon hx (sbMatches_of hr hcmd hch (.inr haddr) hlen hws) hbusy (by rw [hstate])), rfl, ?_, ?_, hother, ?_,
    memoryKept_of_mem (ansRegWr_mem ..)⟩
  · rintro v rfl hlo hhi
    exact srWrite_sref hc v hlo hhi
  · rintro v rfl h
    have hseed := srWrite_seedHi hc v
    rw [← h] at hseed
    exact hseed
  · unfold answered
    rw [hstate]

theorem sbPpRd_reads (hbusy : s.stack.ppBusy = false) {a : BitVec 24} {n : BitVec 4} (hcmd : x.cmd = 3) (hch : x.ch = 0) (haddr : x.addr = a)
    (hlen : x.len = n.toNat) (hws : x.words = []) :
    (ppAddrOk a.toNat (n.toNat + 1) = true →
      ∃ t, exec (.sbPpRd ⟨a, 0⟩ n) s = .next t ∧
        t.link.cur = some { x with resp := some (0#8, (List.range (n.toNat + 1)).map (fun i =>
          ppWord s.part s.stack.passport (a.toNat + 4 * i))) } ∧
        t = { s with link := t.link }) ∧
    (ppAddrOk a.toNat (n.toNat + 1) = false →
      ∃ t st, exec (.sbPpRd ⟨a, 0⟩ n) s = .next t ∧ t.link.cur = some { x with resp := some (st, []) } ∧
        t = { s with link := t.link, free := t.free }) := by
  have hm := sbMatches_of hr hcmd hch (.inr haddr) hlen hws
  constructor
  · intro hok
    have hans : ansPpRd a n.toNat s = (0#8, (List.range (n.toNat + 1)).map (fun i => ppWord s.part s.stack.passport (a.toNat + 4 * i)), s) :=
      if_pos hok
    have heff := sbFrame_acts (f := ansPpRd a n.toNat) hon hx hm hbusy (by rw [hans])
    rw [hans] at heff
    exact ⟨_, congrArg Host.Outcome.next heff, rfl, rfl⟩
  · intro hok
    have hans : ansPpRd a n.toNat s = ansFree s := if_neg (by simp [hok])
    have heff := sbFrame_acts (f := ansPpRd a n.toNat) hon hx hm hbusy (by rw [hans]; rfl)
    rw [hans] at heff
    exact ⟨_, _, congrArg Host.Outcome.next heff, rfl, rfl⟩

theorem sbPpProg_stores (hbusy : s.stack.ppBusy = false) {a : BitVec 24} {ws : List Word} (hcmd : x.cmd = 4) (hch : x.ch = 0)
    (haddr : x.addr = a) (hlen : x.len = ws.length - 1) (hws : x.words = ws) (hok : ppAddrOk a.toNat ws.length = true) :
    ∃ t, exec (.sbPpProg ⟨a, 0⟩ ws) s = .next t ∧ t.link.cur = some { x with resp := some (0#8, []) } ∧
      (∀ i w, ws[i]? = some w → ppWord t.part t.stack.passport (a.toNat + 4 * i) = w) ∧
      t.stack.ppBusy = true ∧ t.stack.ppFail = false ∧
      (∀ b, (b < a.toNat ∨ a.toNat + 4 * ws.length ≤ b) → ppByte t.part t.stack.passport b = ppByte s.part s.stack.passport b) ∧
      MemoryKept s t := by
  have hans : ansPpProg a ws s = (0#8, [], _) := if_pos hok
  have heff := sbFrame_acts (f := ansPpProg a ws) hon hx (sbMatches_of hr hcmd hch (.inr haddr) hlen hws) hbusy (by rw [hans])
  have hmem := ansPpProg_mem a ws s
  rw [hans] at heff hmem
  exact ⟨_, congrArg Host.Outcome.next heff, rfl, fun i w hi => ppWord_ppStoreAll s.part _ _ hi, rfl, rfl,
    fun b hb => ppByte_congr _ ((find_ppStoreAll ..).trans (if_neg (by omega))), memoryKept_of_mem hmem⟩

theorem sbPpErase_erases (hbusy : s.stack.ppBusy = false) (b : Bool) (hcmd : x.cmd = 6) (hch : x.ch = 0)
    (haddr : x.addr = BitVec.ofNat 24 (areaBase b)) (hlen : x.len = 0) (hws : x.words = []) :
    ∃ t, exec (.sbPpErase ⟨BitVec.ofNat 24 (areaBase b), 0⟩) s = .next t ∧ t.link.cur = some { x with resp := some (0#8, []) } ∧
      (∀ i, i < areaBytes → ppByte t.part t.stack.passport (areaBase b + i) = 0xFF#8) ∧
      (∀ i, (i < areaBase b ∨ areaBase b + areaBytes ≤ i) → ppByte t.part t.stack.passport i = ppByte s.part s.stack.passport i) ∧
      t.stack.ppBusy = true ∧ MemoryKept s t := by
  have hans := ansPpErase_area b s
  have heff := sbFrame_acts (f := ansPpErase (BitVec.ofNat 24 (areaBase b))) hon hx (sbMatches_of hr hcmd hch (.inr haddr) hlen hws) hbusy
    (by rw [hans])
  have hmem := ansPpErase_mem (BitVec.ofNat 24 (areaBase b)) s
  rw [hans] at heff hmem
  refine ⟨_, congrArg Host.Outcome.next heff, rfl, fun i hi => ?_, fun i hi => ?_, rfl, memoryKept_of_mem hmem⟩
  · have hbase := (areaBase_toNat b).2
    have hfind : Tab.find (ppErased s.stack.passport (areaBase b) areaBytes) (areaBase b + i) = none :=
      (find_ppErased ..).trans (if_pos (by omega))
    show ppByte s.part (ppErased s.stack.passport (areaBase b) areaBytes) (areaBase b + i) = 0xFF#8
    unfold ppByte
    rw [hfind]
    exact ppDflt_area s.part (by omega)
  · exact ppByte_congr _ ((find_ppErased ..).trans (if_neg (by omega)))

theorem sbT1500_shifts (hbusy : s.stack.ppBusy = false) {a : BitVec 24} {ws : List Word} (hcmd : x.cmd = 7) (hch : x.ch = sbAll)
    (haddr : x.addr = a) (hlen : x.len = ws.length - 1) (hws : x.words = ws) :
    ∃ t out, exec (.sbT1500 ⟨a, 0⟩ ws) s = .next t ∧ t.link.cur = some { x with resp := some (0#8, out) } ∧ out.length = ws.length ∧
      t.stack.wir = (if a.getLsbD 0 then s.stack.wir else wirShift s.stack.wir (fieldNat a 3 10) ws) ∧ MemoryKept s t := by
  obtain ⟨hst, hout, hlink, hwir⟩ := ansT1500_frame a ws s
  have heff := sbFrame_acts hon hx (sbMatches_of hr hcmd hch (.inr haddr) hlen hws) hbusy hlink
  rw [hst] at heff
  exact ⟨_, _, congrArg Host.Outcome.next heff, rfl, hout, hwir, memoryKept_of_mem (ansT1500_mem a ws s)⟩

end

/-- Settles O44: a frame that matches the outstanding transaction leaves the answer of its command there, and each command's answer
says what it reads and what it writes. -/
theorem sidebandFramesAct : Obligations.SidebandFramesAct := by
  unfold Obligations.SidebandFramesAct
  refine ⟨fun s x hon hx hr => ⟨fun hbusy => ⟨?_, ?_, ?_, ?_, ?_, ?_⟩, fun hbusy a n hcmd hch haddr hlen hws => ?_,
    fun hcmd hch hlen hws => ?_, fun a n e st he href hcmd hch haddr hlen hws => ?_⟩,
    fun cmd len ch addr ws hcmd hcmd8 hlen hws => sbReceive_sbRequest ch addr hcmd hcmd8 hlen hws⟩
  · exact fun c a n hc hcmd hch haddr hlen hws => sbRegRd_reads hon hx hr hbusy hc hcmd hch haddr hlen hws
  · exact fun c a ws hc hcmd hch haddr hlen hws => sbRegWr_writes hon hx hr hbusy hc hcmd hch haddr hlen hws
  · exact fun a n hcmd hch haddr hlen hws => sbPpRd_reads hon hx hr hbusy hcmd hch haddr hlen hws
  · exact fun a ws hcmd hch haddr hlen hws hok => sbPpProg_stores hon hx hr hbusy hcmd hch haddr hlen hws hok
  · exact fun b hcmd hch haddr hlen hws => sbPpErase_erases hon hx hr hbusy b hcmd hch haddr hlen hws
  · exact fun a ws hcmd hch haddr hlen hws => sbT1500_shifts hon hx hr hbusy hcmd hch haddr hlen hws
  · have hm := sbMatches_of hr hcmd hch (.inr haddr) hlen hws
    exact ⟨_, congrArg Host.Outcome.next (sbFrame_busy hon hx hm hbusy (by decide)), rfl, rfl⟩
  · have hm := sbMatches_of (addr := 0) hr hcmd hch (.inl rfl) hlen hws
    exact ⟨_, congrArg Host.Outcome.next (sbFrame_ppStat (f := ansPpStat) hon hx hm rfl rfl), rfl, rfl⟩
  · have hm := sbMatches_of hr hcmd hch (.inr haddr) hlen hws
    exact ⟨_, congrArg Host.Outcome.next (sbFrame_refused hon hx hm he href), rfl, rfl⟩

end Sys2Proof.Machine
end

section
/-! A calibration step moves each cuff by at most one and starts the next step (R238, R239). -/

namespace Sys2Proof.Machine

/-! ### The wires and the spares of a channel -/

namespace Chan

@[simp] theorem wire_setWire (x : Chan) (w : Nat) (r : CalWire) : (x.setWire w r).wire w = r := Tab.get_put_self ..
theorem wire_setWire_other (x : Chan) {w v : Nat} (r : CalWire) (h : v ≠ w) : (x.setWire w r).wire v = x.wire v := Tab.get_put_other _ _ _ _ _ h
@[simp] theorem wire_setSpare (x : Chan) (h : Nat) (p : SpareWire) (w : Nat) : (x.setSpare h p).wire w = x.wire w := rfl
@[simp] theorem spare_setSpare (x : Chan) (h : Nat) (p : SpareWire) : (x.setSpare h p).spare h = p := Tab.get_put_self ..
@[simp] theorem spare_setWire (x : Chan) (w : Nat) (r : CalWire) (h : Nat) : (x.setWire w r).spare h = x.spare h := rfl

end Chan

/-! ### What a calibration step changes -/

theorem forN_succ (n : Nat) (f : State → Nat → State) (s : State) : forN (n + 1) f s = f (forN n f s) n := by
  simp only [forN, List.range_succ, List.foldl_append, List.foldl_cons, List.foldl_nil]

/-- A relation that holds of every step holds of all of them. -/
theorem forN_rel {r : State → State → Prop} (hrefl : ∀ s, r s s) (htrans : ∀ {s t u}, r s t → r t u → r s u) {f : State → Nat → State}
    (hf : ∀ t i, r t (f t i)) (n : Nat) (s : State) : r s (forN n f s) := by
  induction n with
  | zero => exact hrefl s
  | succ n ih => rw [forN_succ]; exact htrans ih (hf _ n)

/-- Nothing changes but channel c, and the free values that have been taken. -/
def TunesChan (c : Nat) (s t : State) : Prop := t = { s with chans := t.chans, free := t.free } ∧ ∀ d, d ≠ c → chan t d = chan s d

namespace TunesChan

theorem refl (c : Nat) (s : State) : TunesChan c s s := ⟨rfl, fun _ _ => rfl⟩

theorem trans {c : Nat} {s t u : State} (h : TunesChan c s t) (g : TunesChan c t u) : TunesChan c s u :=
  ⟨by rw [g.1, h.1], fun d hd => (g.2 d hd).trans (h.2 d hd)⟩

theorem modChan (c : Nat) (s : State) (f : Chan → Chan) : TunesChan c s (modChan s c f) := ⟨rfl, fun _ hd => chan_modChan_other _ _ _ _ hd⟩

theorem forN {c : Nat} {f : State → Nat → State} (hf : ∀ t i, TunesChan c t (f t i)) (n : Nat) (s : State) :
    TunesChan c s (Machine.forN n f s) := forN_rel (TunesChan.refl c) TunesChan.trans hf n s

end TunesChan

/-- Channel c alone changes, and the drift of its cuffs stays. -/
def KeepsCuffs (c : Nat) (s t : State) : Prop := TunesChan c s t ∧ (chan t c).cuffs = (chan s c).cuffs

namespace KeepsCuffs

theorem refl (c : Nat) (s : State) : KeepsCuffs c s s := ⟨.refl c s, rfl⟩

theorem trans {c : Nat} {s t u : State} (h : KeepsCuffs c s t) (g : KeepsCuffs c t u) : KeepsCuffs c s u := ⟨h.1.trans g.1, g.2.trans h.2⟩

theorem modChan {c : Nat} {s u : State} {f : Chan → Chan} (h : KeepsCuffs c s u) (hf : ∀ x, (f x).cuffs = x.cuffs) :
    KeepsCuffs c s (modChan u c f) := ⟨h.1.trans (.modChan c u f), by rw [chan_modChan, hf, h.2]⟩

theorem forN {c : Nat} {f : State → Nat → State} (hf : ∀ t i, KeepsCuffs c t (f t i)) (n : Nat) (s : State) :
    KeepsCuffs c s (Machine.forN n f s) := forN_rel (KeepsCuffs.refl c) KeepsCuffs.trans hf n s

end KeepsCuffs

/-- A drift by at most one. -/
def DriftStep (a b : Cuff) : Prop := (b.d - a.d).natAbs ≤ 1

/-- A cuff takes one step, and the others none. -/
def MovesCuff (c q : Nat) (s t : State) : Prop :=
  TunesChan c s t ∧ DriftStep (cuffOf (chan s c) q) (cuffOf (chan t c) q) ∧ ∀ p, p ≠ q → cuffOf (chan t c) p = cuffOf (chan s c) p

theorem movesCuff_put {c q : Nat} {s u : State} (hu : TunesChan c s u) (hc : chan u c = chan s c) {v : Chan → Cuff}
    (hv : DriftStep (cuffOf (chan s c) q) (v (chan s c))) :
    MovesCuff c q s (modChan u c (fun x => { x with cuffs := Tab.put x.cuffs q (v x) })) := by
  refine ⟨hu.trans (.modChan c u _), ?_, fun p hp => ?_⟩
  · have hq : cuffOf (chan (modChan u c (fun x => { x with cuffs := Tab.put x.cuffs q (v x) })) c) q = v (chan s c) := by
      rw [chan_modChan, hc]
      exact Tab.get_put_self ..
    rwa [hq]
  · rw [chan_modChan, hc]
    exact Tab.get_put_other _ _ _ _ _ hp

theorem extDrift_moves (s : State) (c q : Nat) : MovesCuff c q s (extDrift s c q) := by
  refine movesCuff_put (u := (takeFree 2 s).2) (v := fun x => { d := if (takeFree 2 s).1 = 1#2 then (cuffOf x q).d + 1
    else if (takeFree 2 s).1 = 2#2 then (cuffOf x q).d - 1 else (cuffOf x q).d, held := false }) ⟨rfl, fun _ _ => rfl⟩ rfl ?_
  unfold DriftStep
  dsimp only
  split
  · omega
  · split <;> omega

theorem statDrift_moves (s : State) (c q : Nat) : MovesCuff c q s (statDrift s c q) := by
  unfold statDrift
  extract_lets x ws
  split
  rename_i early late t hcounts
  have ht : t = { s with free := s.free + 2 } := (congrArg Prod.snd hcounts).symm
  refine movesCuff_put (v := fun _ => _) (by rw [ht]; exact ⟨rfl, fun _ _ => rfl⟩) (by rw [ht]; rfl) ?_
  show ((_ : Cuff).d - (cuffOf x q).d).natAbs ≤ 1
  split
  · dsimp only; omega
  · split
    · dsimp only; omega
    · split <;> (dsimp only; omega)

theorem trackWire_keeps (s : State) (c w : Nat) : KeepsCuffs c s (trackWire s c w) := by
  unfold trackWire
  extract_lets x
  split
  · exact .refl c s
  · split
    rename_i early late t hcounts
    have ht : t = { s with free := s.free + 2 } := (congrArg Prod.snd hcounts).symm
    refine KeepsCuffs.modChan (u := t) ?_ (fun _ => rfl)
    rw [ht]
    exact ⟨⟨rfl, fun _ _ => rfl⟩, rfl⟩

theorem retarget_keeps (s : State) (c w : Nat) : KeepsCuffs c s (retarget s c w) := by
  unfold retarget
  exact (KeepsCuffs.refl c s).modChan (fun x => by dsimp only; split <;> rfl)

theorem cuffs_applyStep (x : Chan) (w : Nat) : (applyStep x w).cuffs = x.cuffs := rfl

theorem cuffs_applySteps (l : List Nat) (x : Chan) : (l.foldl applyStep x).cuffs = x.cuffs :=
  List.foldlRecOn (motive := fun y => y.cuffs = x.cuffs) l applyStep rfl (fun _ hy w _ => (cuffs_applyStep _ w).trans hy)

theorem cuffs_applied (l : List Nat) (x : Chan) : ({ l.foldl applyStep x with stepBursts := 0 } : Chan).cuffs = x.cuffs := cuffs_applySteps l x

/-- The drift of a channel's cuffs in one step of the engine n, cuff after cuff (R239). -/
def driftAll (s : State) (n c k : Nat) : State := forN k (fun t q => if usesExt t n then extDrift t c q else statDrift t c q) s

/-- After the first k cuffs each of them has taken its step, and the others none. -/
theorem driftAll_moves (s : State) (n c k : Nat) : TunesChan c s (driftAll s n c k) ∧
    (∀ q < k, DriftStep (cuffOf (chan s c) q) (cuffOf (chan (driftAll s n c k) c) q)) ∧
    ∀ q, k ≤ q → cuffOf (chan (driftAll s n c k) c) q = cuffOf (chan s c) q := by
  induction k with
  | zero => exact ⟨.refl c s, nofun, fun _ _ => rfl⟩
  | succ k ih =>
    obtain ⟨hframe, hmoved, hstill⟩ := ih
    have hstep : MovesCuff c k (driftAll s n c k) (driftAll s n c (k + 1)) := by
      rw [show driftAll s n c (k + 1) = _ from forN_succ ..]
      split
      · exact extDrift_moves _ c k
      · exact statDrift_moves _ c k
    obtain ⟨hframe1, hmoved1, hstill1⟩ := hstep
    refine ⟨hframe.trans hframe1, fun q hq => ?_, fun q hq => ?_⟩
    · rcases Nat.lt_succ_iff_lt_or_eq.1 hq with hlt | rfl
      · rw [hstill1 q (by omega)]
        exact hmoved q hlt
      · rwa [hstill q le_rfl] at hmoved1
    · rw [hstill1 q (by omega), hstill q (by omega)]

theorem stepChan_eq (s : State) (n c : Nat) : stepChan s n c =
    modChan (forN 51 (fun t w => retarget t c w) (forN 40 (fun t w => trackWire t c w) (driftAll s n c 4))) c
      (fun x => { (List.range 51).foldl applyStep x with stepBursts := 0 }) := rfl

/-- A channel at a CAL_STEP boundary: each cuff has taken one step, and the next step starts. -/
theorem stepChan_steps (s : State) (n c : Nat) : TunesChan c s (stepChan s n c) ∧ (chan (stepChan s n c) c).stepBursts = 0 ∧
    ∀ q < 4, DriftStep (cuffOf (chan s c) q) (cuffOf (chan (stepChan s n c) c) q) := by
  obtain ⟨hframe, hmoved, -⟩ := driftAll_moves s n c 4
  have hkeeps : KeepsCuffs c (driftAll s n c 4) (stepChan s n c) := by
    rw [stepChan_eq]
    refine KeepsCuffs.modChan ((KeepsCuffs.forN (fun t w => trackWire_keeps t c w) 40 _).trans
      (KeepsCuffs.forN (fun t w => retarget_keeps t c w) 51 _)) (fun x => ?_)
    exact cuffs_applied (List.range 51) x
  refine ⟨hframe.trans hkeeps.1, ?_, fun q hq => ?_⟩
  · unfold stepChan
    rw [chan_modChan]
  · have hq' : cuffOf (chan (stepChan s n c) c) q = cuffOf (chan (driftAll s n c 4) c) q := by rw [cuffOf, hkeeps.2]; rfl
    rw [hq']
    exact hmoved q hq

/-! ### The boundary of an engine's step -/

/-- The first k channels of an engine at its CAL_STEP boundary. -/
def stepChans (s : State) (n k : Nat) : State := forN k (fun t i => stepChan t n (16 * n + i)) s

theorem stepChans_step (s : State) (n k : Nat) :
    stepChans s n k = { s with chans := (stepChans s n k).chans, free := (stepChans s n k).free } ∧
      (∀ i < k, (chan (stepChans s n k) (16 * n + i)).stepBursts = 0 ∧
        ∀ q < 4, DriftStep (cuffOf (chan s (16 * n + i)) q) (cuffOf (chan (stepChans s n k) (16 * n + i)) q)) ∧
      ∀ c, (c < 16 * n ∨ 16 * n + k ≤ c) → chan (stepChans s n k) c = chan s c := by
  induction k with
  | zero => exact ⟨rfl, nofun, fun _ _ => rfl⟩
  | succ k ih =>
    obtain ⟨hframe, hdone, hrest⟩ := ih
    have hsucc : stepChans s n (k + 1) = stepChan (stepChans s n k) n (16 * n + k) := forN_succ ..
    obtain ⟨⟨hframe1, hother⟩, hbursts, hdrift⟩ := stepChan_steps (stepChans s n k) n (16 * n + k)
    rw [← hsucc] at hframe1 hother hbursts hdrift
    refine ⟨by rw [hframe1, hframe], fun i hi => ?_, fun c hc => ?_⟩
    · rcases Nat.lt_succ_iff_lt_or_eq.1 hi with hlt | rfl
      · rw [hother _ (by omega)]
        exact hdone i hlt
      · rw [hrest _ (.inr le_rfl)] at hdrift
        exact ⟨hbursts, hdrift⟩
    · rw [hother c (by omega), hrest c (by omega)]

theorem calStep_idle {s : State} {n : Nat} (h : calRuns s n = false ∨ s.time.tick < (cal s n).stepAt + max 250 (regF s (calPage n) 0x044 0 12)) :
    calStep s n = s := by
  refine if_pos ?_
  rcases h with h | h <;> simp [h]

theorem calStep_due {s : State} {n : Nat} (hruns : calRuns s n = true)
    (hdue : (cal s n).stepAt + max 250 (regF s (calPage n) 0x044 0 12) ≤ s.time.tick) :
    calStep s n = stepChans (setCal s n { cal s n with stepAt := s.time.tick }) n 16 :=
  if_neg (by simp only [hruns, Bool.not_true, Bool.false_or, decide_eq_true_eq]; omega)

/-- A step that is due moves the cuffs of the engine's own channels. -/
theorem calStep_steps {s : State} {n : Nat} (hruns : calRuns s n = true)
    (hdue : (cal s n).stepAt + max 250 (regF s (calPage n) 0x044 0 12) ≤ s.time.tick) :
    (cal (calStep s n) n).stepAt = s.time.tick ∧
      (∀ i < 16, (chan (calStep s n) (16 * n + i)).stepBursts = 0 ∧
        ∀ q < 4, DriftStep (cuffOf (chan s (16 * n + i)) q) (cuffOf (chan (calStep s n) (16 * n + i)) q)) ∧
      (∀ c, (c < 16 * n ∨ 16 * n + 16 ≤ c) → chan (calStep s n) c = chan s c) ∧ (calStep s n).stack = s.stack := by
  obtain ⟨hframe, hdone, hrest⟩ := stepChans_step (setCal s n { cal s n with stepAt := s.time.tick }) n 16
  rw [← calStep_due hruns hdue] at hframe hdone hrest
  refine ⟨?_, hdone, hrest, by rw [hframe]; rfl⟩
  rw [hframe]
  exact congrArg CalEng.stepAt (cal_setCal s n _)

end Sys2Proof.Machine
end

section
/-! The phases of a sweep up to its verify: the take-over, the dwells of the scan, and the return to data (R213, R243-R246). -/

namespace Sys2Proof.Machine

/-! ### LANE from the block (R213) -/

/-- The next row slot of a channel depends on its last row command and on the time alone. -/
theorem rowSlot_congr {s t : State} {c : Nat} (hrow : (chan t c).lastRow = (chan s c).lastRow)
    (h : t.time = s.time ∧ t.winStart = s.winStart ∧ t.hk = s.hk) : rowSlot t c = rowSlot s c := by
  obtain ⟨htime, hwin, hhk⟩ := h
  unfold rowSlot rowSlotFrom slotLen
  rw [hrow, htime, hwin, hhk]

theorem laneFrom_congr {s t : State} (h : t.hk = s.hk) (k : Nat) : laneFrom t k = laneFrom s k := by simp only [laneFrom, slotLen, h]

/-- The spare's run of corrections starts anew with another wire. -/
def freshRuns (x : Chan) (h : Nat) (wire : Option Nat) : Chan :=
  if (x.spare h).wire = wire then x else x.setWire (38 + h) { x.wire (38 + h) with runs := 0 }

/-- The channel as a new role of a spare leaves it, before LANE is sent. -/
def steered (x : Chan) (h from_ : Nat) (wire : Option Nat) (pat : Bool) : Chan :=
  (freshRuns x h wire).setSpare h { x.spare h with wire := wire, pat := pat, was := (x.spare h).modeAt from_, from_ := from_ }

/-- Of a wire, a new role changes the run of corrections alone. -/
theorem wire_steered (x : Chan) (h from_ : Nat) (wire : Option Nat) (pat : Bool) (w : Nat) :
    ∃ r, (steered x h from_ wire pat).wire w = { x.wire w with runs := r } := by
  rw [steered, Chan.wire_setSpare, freshRuns]
  split
  · exact ⟨_, rfl⟩
  · by_cases hw : w = 38 + h
    · rw [hw, Chan.wire_setWire]
      exact ⟨0, rfl⟩
    · rw [Chan.wire_setWire_other _ _ hw]
      exact ⟨_, rfl⟩

theorem spare_steered (x : Chan) (h from_ : Nat) (wire : Option Nat) (pat : Bool) : (steered x h from_ wire pat).spare h =
    { x.spare h with wire := wire, pat := pat, was := (x.spare h).modeAt from_, from_ := from_ } := Chan.spare_setSpare ..

theorem rows_steered (x : Chan) (h from_ : Nat) (wire : Option Nat) (pat : Bool) :
    (steered x h from_ wire pat).rowOut = x.rowOut ∧ (steered x h from_ wire pat).lastRow = x.lastRow := by
  unfold steered freshRuns
  split <;> exact ⟨rfl, rfl⟩

section

variable (s : State) (c h : Nat) (wire : Option Nat) (pat : Bool)

/-- The state between a new role and the LANE that tells the stack of it. -/
def steering : State := modChan s c (fun x => steered x h (laneFrom s (rowSlot s c)) wire pat)

theorem chan_steering : chan (steering s c h wire pat) c = steered (chan s c) h (laneFrom s (rowSlot s c)) wire pat := chan_modChan ..

/-- The role goes out with LANE in the next row slot. -/
theorem chan_steer : chan (steer s c h wire pat) c =
    { steered (chan s c) h (laneFrom s (rowSlot s c)) wire pat with
      rowOut := (chan s c).rowOut ++
        [(rowSlot s c, .lane ⟨chanFin c, 0⟩ (bitFin h) (BitVec.ofNat 5 (laneWire (wire.getD 0))) wire.isSome pat)]
      lastRow := some (rowSlot s c) } := by
  obtain ⟨hrow, hlast⟩ := rows_steered (chan s c) h (laneFrom s (rowSlot s c)) wire pat
  have hslot : rowSlot (steering s c h wire pat) c = rowSlot s c := rowSlot_congr (by rw [chan_steering, hlast]) ⟨rfl, rfl, rfl⟩
  have hsent : chan (steer s c h wire pat) c = { chan (steering s c h wire pat) c with
      rowOut := (chan (steering s c h wire pat) c).rowOut ++ [(rowSlot (steering s c h wire pat) c,
        .lane ⟨chanFin c, 0⟩ (bitFin h) (BitVec.ofNat 5 (laneWire (wire.getD 0))) wire.isSome pat)]
      lastRow := some (rowSlot (steering s c h wire pat) c) } := chan_modChan ..
  rw [hsent, hslot, chan_steering, hrow]

theorem steer_frame : steer s c h wire pat = { s with chans := (steer s c h wire pat).chans } := rfl

theorem wire_steer (w : Nat) : ∃ r, (chan (steer s c h wire pat) c).wire w = { (chan s c).wire w with runs := r } := by
  rw [chan_steer]
  exact wire_steered (chan s c) h (laneFrom s (rowSlot s c)) wire pat w

theorem spare_steer : (chan (steer s c h wire pat) c).spare h = { (chan s c).spare h with
    wire := wire, pat := pat, was := ((chan s c).spare h).modeAt (laneFrom s (rowSlot s c)), from_ := laneFrom s (rowSlot s c) } := by
  rw [chan_steer]
  exact spare_steered ..

end

/-! ### A probe that is discarded (R246) -/

/-- Channel c as a record's update leaves it for a sweep: its spares, its row wires, and the wire's target. -/
def SweepKeeps (c w : Nat) (s t : State) : Prop :=
  (chan t c).spares = (chan s c).spares ∧ (chan t c).rowOut = (chan s c).rowOut ∧ (chan t c).lastRow = (chan s c).lastRow ∧
    ((chan t c).wire w).rTarget = ((chan s c).wire w).rTarget

theorem sweepRecord_keeps (s : State) (c w : Nat) (eye : Option Nat) (probed : Bool) : SweepKeeps c w s (sweepRecord s c w eye probed) := by
  unfold SweepKeeps sweepRecord
  rw [chan_modChan]
  refine ⟨rfl, rfl, rfl, ?_⟩
  dsimp only
  rw [Chan.wire_setWire]

/-- Discarding a probe changes the engine, the count of discarded probes, and the wire's record. -/
theorem discardProbe_frame (s : State) (n c w : Nat) : SweepKeeps c w s (discardProbe s n c w) ∧
    discardProbe s n c w = { s with chans := (discardProbe s n c w).chans, cals := (discardProbe s n c w).cals
                                    regs := (discardProbe s n c w).regs } := by
  unfold discardProbe
  dsimp only
  split
  · exact ⟨⟨rfl, rfl, rfl, rfl⟩, rfl⟩
  · exact ⟨sweepRecord_keeps .., rfl⟩

theorem discardProbe_none {s : State} {n c w : Nat} (h : ∀ p ∈ (cal s n).pendErr, p.wire = w → p.ch = c → p.st = .dropped) :
    discardProbe s n c w = s := by
  have hfind : (cal s n).pendErr.find? (fun p => p.wire == w && p.ch == c && p.st != .dropped) = none :=
    List.find?_eq_none.2 (fun p hp => by
      simp only [Bool.and_eq_true, beq_iff_eq, bne_iff_ne, not_and, not_not, and_imp]
      exact h p hp)
  simp only [discardProbe, hfind]

/-! ### The take-over (R243) -/

theorem sweepStart_idle {s : State} {n : Nat}
    (h : calRuns s n = false ∨ (cal s n).active = true ∨ regB s (calPage n) 0x040 2 = false ∨ nextSweep s n = none) : sweepStart s n = s := by
  unfold sweepStart
  split
  · rfl
  · rename_i hgo
    simp only [Bool.or_eq_true, Bool.not_eq_true', not_or, Bool.not_eq_false, Bool.not_eq_true] at hgo
    obtain ⟨⟨hactive, hruns⟩, hsweep⟩ := hgo
    have hnone : nextSweep s n = none := by simpa [hactive, hruns, hsweep] using h
    rw [hnone]

/-- The engine's record of the sweep that it takes over. -/
def takeOverEng (e : CalEng) (r : CalWire) (w o : Nat) : CalEng :=
  { e with wire := w, chofs := o, active := true, phase := .scan, pos := 0, centre := r.rTarget, openPos := []
           oldR := r.rApplied, oldW := r.wApplied, oldRres := r.rres, oldDrift := r.driftAt, vfail := false, found := none }

/-- The wire under the mitten, before LANE gives its role to the spare: its write delay is at the probe. -/
def takeOverWire (u : State) (c w : Nat) : CalWire :=
  let r := (chan u c).wire w
  let edge := if r.probeRight then r.er else r.el
  { r with wApplied := clamp255 (tapsAt u (wdlyAt u c w + edge + ((cuffOf (chan u c) (wireCuff w)).d - r.driftAt)))
           rApplied := clamp255 (gridPos r.rTarget 0), mitten := true }

/-- The sweep has been taken over, but for the LANE of its spare. -/
def takingOver (u : State) (n c w o : Nat) : State :=
  modChan (setCal u n (takeOverEng (cal u n) ((chan u c).wire w) w o)) c (fun x => x.setWire w (takeOverWire u c w))

theorem chan_takingOver (u : State) (n c w o : Nat) : chan (takingOver u n c w o) c = (chan u c).setWire w (takeOverWire u c w) :=
  chan_modChan ..

/-- A sweep that starts on wire w of channel c, in a state where the wire's old probe is out of the way. -/
def takeOver (u : State) (n c w o : Nat) : State := steer (takingOver u n c w o) c (wireHalf w) (some w) true

theorem sweepStart_takesOver {s : State} {n w o : Nat} {e : CalEng} (hruns : calRuns s n = true) (hactive : (cal s n).active = false)
    (hsweep : regB s (calPage n) 0x040 2 = true) (hnext : nextSweep s n = some (w, o, e)) :
    sweepStart s n = takeOver (discardProbe (setCal s n e) n (16 * n + o) w) n (16 * n + o) w o := by
  unfold sweepStart
  rw [if_neg (by simp [hruns, hactive, hsweep]), hnext]
  rfl

/-- What the take-over does from a state u that is s as far as a sweep is concerned. -/
theorem takeOver_facts {s u : State} {n c w o : Nat} (hu : SweepKeeps c w s u)
    (hframe : u = { s with chans := u.chans, cals := u.cals, regs := u.regs }) :
    let t := takeOver u n c w o
    (cal t n).active = true ∧ (cal t n).wire = w ∧ (cal t n).chofs = o ∧ (cal t n).phase = .scan ∧ (cal t n).pos = 0 ∧
      ((chan t c).wire w).mitten = true ∧ ((chan t c).wire w).rApplied = clamp255 (gridPos ((chan s c).wire w).rTarget 0) ∧
      (chan t c).spare (wireHalf w) = { (chan s c).spare (wireHalf w) with
        wire := some w, pat := true, from_ := laneFrom s (rowSlot s c)
        was := ((chan s c).spare (wireHalf w)).modeAt (laneFrom s (rowSlot s c)) } ∧
      (chan t c).rowOut = (chan s c).rowOut ++
        [(rowSlot s c, .lane ⟨chanFin c, 0⟩ (bitFin (wireHalf w)) (BitVec.ofNat 5 (laneWire w)) true true)] ∧
      t = { s with chans := t.chans, cals := t.cals, regs := t.regs } ∧ t.regs = u.regs := by
  intro t
  obtain ⟨hspares, hrow, hlast, htarget⟩ := hu
  have hspare : (chan u c).spare (wireHalf w) = (chan s c).spare (wireHalf w) := by rw [Chan.spare, hspares]; rfl
  have htimes : u.time = s.time ∧ u.winStart = s.winStart ∧ u.hk = s.hk := by rw [hframe]; exact ⟨rfl, rfl, rfl⟩
  have hcal : cal t n = takeOverEng (cal u n) ((chan u c).wire w) w o := cal_setCal u n _
  have hchan := chan_takingOver u n c w o
  have hslot : rowSlot (takingOver u n c w o) c = rowSlot s c := rowSlot_congr (by rw [hchan]; exact hlast) htimes
  have hlane : laneFrom (takingOver u n c w o) (rowSlot s c) = laneFrom s (rowSlot s c) := laneFrom_congr htimes.2.2 _
  obtain ⟨runs, hwire⟩ := wire_steer (takingOver u n c w o) c (wireHalf w) (some w) true w
  rw [hchan, Chan.wire_setWire] at hwire
  have hwire' : (chan t c).wire w = { takeOverWire u c w with runs := runs } := hwire
  have hspare' := spare_steer (takingOver u n c w o) c (wireHalf w) (some w) true
  rw [hchan, Chan.spare_setWire, hspare, hslot, hlane] at hspare'
  have hsent := chan_steer (takingOver u n c w o) c (wireHalf w) (some w) true
  rw [hchan, hslot] at hsent
  refine ⟨by rw [hcal]; rfl, by rw [hcal]; rfl, by rw [hcal]; rfl, by rw [hcal]; rfl, by rw [hcal]; rfl, by rw [hwire']; rfl, ?_, hspare', ?_,
    ?_, rfl⟩
  · rw [hwire', ← htarget]
    rfl
  · rw [← hrow]
    exact congrArg Chan.rowOut hsent
  · calc t = { u with chans := t.chans, cals := t.cals } := rfl
      _ = { s with chans := t.chans, cals := t.cals, regs := t.regs } := by rw [hframe]; rfl

/-- A sweep that may start takes over the next wire; the registers stay where no probe of the wire is discarded. -/
theorem sweepStart_facts {s : State} {n w o : Nat} {e : CalEng} (hruns : calRuns s n = true) (hactive : (cal s n).active = false)
    (hsweep : regB s (calPage n) 0x040 2 = true) (hnext : nextSweep s n = some (w, o, e)) :
    let c := 16 * n + o
    let t := sweepStart s n
    (cal t n).active = true ∧ (cal t n).wire = w ∧ (cal t n).chofs = o ∧ (cal t n).phase = .scan ∧ (cal t n).pos = 0 ∧
      ((chan t c).wire w).mitten = true ∧ ((chan t c).wire w).rApplied = clamp255 (gridPos ((chan s c).wire w).rTarget 0) ∧
      (chan t c).spare (wireHalf w) = { (chan s c).spare (wireHalf w) with
        wire := some w, pat := true, from_ := laneFrom s (rowSlot s c)
        was := ((chan s c).spare (wireHalf w)).modeAt (laneFrom s (rowSlot s c)) } ∧
      (chan t c).rowOut = (chan s c).rowOut ++
        [(rowSlot s c, .lane ⟨chanFin c, 0⟩ (bitFin (wireHalf w)) (BitVec.ofNat 5 (laneWire w)) true true)] ∧
      t = { s with chans := t.chans, cals := t.cals, regs := t.regs } ∧
      ((∀ p ∈ e.pendErr, p.wire = w → p.ch = c → p.st = .dropped) → t.regs = s.regs) := by
  intro c t
  obtain ⟨hkeeps, hframe⟩ := discardProbe_frame (setCal s n e) n c w
  have ht : t = takeOver (discardProbe (setCal s n e) n c w) n c w o := sweepStart_takesOver hruns hactive hsweep hnext
  obtain ⟨hact, hwire, hofs, hph, hpos, hmitten, happlied, hspare, hrow, hstate, hregs⟩ := takeOver_facts (s := s) (n := n) (o := o) hkeeps hframe
  rw [← ht] at hact hwire hofs hph hpos hmitten happlied hspare hrow hstate hregs
  refine ⟨hact, hwire, hofs, hph, hpos, hmitten, happlied, hspare, hrow, hstate, fun hdropped => ?_⟩
  rw [hregs, discardProbe_none (by rw [cal_setCal]; exact hdropped)]
  rfl

/-! ### The dwells of the scan (R244, R245) -/

/-- A tap that is judged open: enough bursts, no mismatch, and a tap that the delay line has. -/
def tapOpen (e : CalEng) (bursts : Nat) (mismatch : Bool) : Bool :=
  decide (24 ≤ bursts) && !mismatch && (match scanTap e with | some p => decide (0 ≤ p ∧ p ≤ 255) | none => false)

/-- The engine as a dwell leaves it, before the scan's result. -/
def dwellEng (e : CalEng) (bursts : Nat) (mismatch : Bool) : CalEng :=
  { e with pos := e.pos + 1, openPos := if tapOpen e bursts mismatch then e.openPos ++ (scanTap e).toList else e.openPos }

/-- The scan's result after its last dwell, and none before. -/
def dwellFound (u : State) (e : CalEng) : Option (Nat × Int) × State :=
  if e.pos = 43 then (fun (p : (Nat × Int) × State) => (some p.1, p.2)) (scanEye u e) else (none, u)

/-- The read delay for the next dwell. -/
def nextTap (e : CalEng) (old : Int) : Int :=
  match (if e.pos < 43 then scanTap e else none) with
  | some p => clamp255 p
  | none => old

theorem dwellEnd_idle {s : State} {n : Nat} (h : (cal s n).active = false ∨ (cal s n).phase ≠ .scan ∨ 43 ≤ (cal s n).pos) (bursts : Nat)
    (mismatch : Bool) (prbs : Nat) : dwellEnd s n bursts mismatch prbs = s := by
  refine if_pos ?_
  rcases h with h | h | h <;> simp [h]

/-- The state after a dwell, from what has been found and the state in which it was. -/
def dwelled (found : Option (Nat × Int) × State) (n c w : Nat) (e : CalEng) : State :=
  modChan (setCal found.2 n { e with found := found.1 }) c (fun x =>
    x.setWire w { x.wire w with rApplied := nextTap { e with found := found.1 } (x.wire w).rApplied })

theorem dwellEnd_eq {s : State} {n : Nat} (hactive : (cal s n).active = true) (hscan : (cal s n).phase = .scan) (hpos : (cal s n).pos < 43)
    (bursts : Nat) (mismatch : Bool) (prbs : Nat) : dwellEnd s n bursts mismatch prbs =
      dwelled (dwellFound (idlePrbs s (16 * n + (cal s n).chofs) (wireHalf (cal s n).wire) prbs) (dwellEng (cal s n) bursts mismatch)) n
        (16 * n + (cal s n).chofs) (cal s n).wire (dwellEng (cal s n) bursts mismatch) :=
  (if_neg (by simp [hactive, hscan, hpos])).trans rfl

theorem scanEye_state (s : State) (e : CalEng) : (scanEye s e).2 = { s with free := s.free + 1 } := by
  unfold scanEye
  dsimp only
  split <;> rfl

theorem dwellFound_state (u : State) (e : CalEng) : (dwellFound u e).2 = { u with free := (dwellFound u e).2.free } := by
  unfold dwellFound
  split
  · dsimp only
    rw [scanEye_state]
  · rfl

theorem dwellFound_last (u : State) {e : CalEng} (h : e.pos = 43) : (dwellFound u e).1 ≠ none := by
  rw [dwellFound, if_pos h]
  exact nofun

/-- The grid is scanned tap after tap. -/
theorem scanTap_grid {e : CalEng} (h : e.pos < 41) : scanTap e = some (gridPos e.centre e.pos) := if_pos h

theorem nextTap_grid {e : CalEng} (h : e.pos < 41) (old : Int) : nextTap e old = clamp255 (gridPos e.centre e.pos) := by
  rw [nextTap, if_pos (by omega), scanTap_grid h]

theorem openPos_dwellEng {e : CalEng} (h : e.pos < 41) (bursts : Nat) (mismatch : Bool) : (dwellEng e bursts mismatch).openPos = e.openPos ++
    (if 24 ≤ bursts ∧ mismatch = false ∧ 0 ≤ gridPos e.centre e.pos ∧ gridPos e.centre e.pos ≤ 255 then [gridPos e.centre e.pos] else []) := by
  have hopen : tapOpen e bursts mismatch = true ↔
      24 ≤ bursts ∧ mismatch = false ∧ 0 ≤ gridPos e.centre e.pos ∧ gridPos e.centre e.pos ≤ 255 := by
    simp [tapOpen, scanTap_grid h, and_assoc]
  simp only [dwellEng, hopen, scanTap_grid h, Option.toList_some]
  split
  · rfl
  · exact (List.append_nil _).symm

/-- A dwell moves the scan on by one tap, counts the mismatches at the stack, and touches nothing but its own channel. -/
theorem dwellEnd_facts {s : State} {n : Nat} (hactive : (cal s n).active = true) (hscan : (cal s n).phase = .scan) (hpos : (cal s n).pos < 43)
    (bursts : Nat) (mis : Bool) (prbs : Nat) :
    let c := 16 * n + (cal s n).chofs
    let t := dwellEnd s n bursts mis prbs
    (cal t n).pos = (cal s n).pos + 1 ∧
      ((cal s n).pos < 41 → (cal t n).openPos = (cal s n).openPos ++
        (if 24 ≤ bursts ∧ mis = false ∧ 0 ≤ gridPos (cal s n).centre (cal s n).pos ∧ gridPos (cal s n).centre (cal s n).pos ≤ 255
          then [gridPos (cal s n).centre (cal s n).pos] else [])) ∧
      ((cal s n).pos < 40 →
        ((chan t c).wire (cal s n).wire).rApplied = clamp255 (gridPos (cal s n).centre ((cal s n).pos + 1))) ∧
      ((cal s n).pos = 42 → (cal t n).found ≠ none) ∧
      (stk t c).lnErr = (if (((stk s c).lane (wireHalf (cal s n).wire)).modeAt s.time.cyc).pat = true
        then (stk s c).lnErr + BitVec.ofNat 32 prbs else (stk s c).lnErr) ∧
      t = { s with chans := t.chans, cals := t.cals, free := t.free, stack := { s.stack with chans := t.stack.chans } } ∧
      (∀ d, d ≠ c → chan t d = chan s d ∧ stk t d = stk s d) := by
  intro c t
  have ht : t = dwelled (dwellFound (idlePrbs s c (wireHalf (cal s n).wire) prbs) (dwellEng (cal s n) bursts mis)) n c (cal s n).wire
    (dwellEng (cal s n) bursts mis) := dwellEnd_eq hactive hscan hpos bursts mis prbs
  have hfound := dwellFound_state (idlePrbs s c (wireHalf (cal s n).wire) prbs) (dwellEng (cal s n) bursts mis)
  have hlast := dwellFound_last (idlePrbs s c (wireHalf (cal s n).wire) prbs) (e := dwellEng (cal s n) bursts mis)
  generalize dwellFound (idlePrbs s c (wireHalf (cal s n).wire) prbs) (dwellEng (cal s n) bursts mis) = found at ht hfound hlast
  clear_value t
  subst ht
  have hcal : cal (dwelled found n c (cal s n).wire (dwellEng (cal s n) bursts mis)) n =
      { dwellEng (cal s n) bursts mis with found := found.1 } := cal_setCal ..
  have hstk (d : Nat) : stk (dwelled found n c (cal s n).wire (dwellEng (cal s n) bursts mis)) d =
      stk (idlePrbs s c (wireHalf (cal s n).wire) prbs) d := by
    show stk found.2 d = _
    rw [hfound]
    rfl
  have hchan (d : Nat) : chan found.2 d = chan s d := by
    rw [hfound]
    rfl
  refine ⟨by rw [hcal]; rfl, fun h => ?_, fun h => ?_, fun h => ?_, ?_, ?_, fun d hd => ⟨?_, ?_⟩⟩
  · rw [hcal]
    exact openPos_dwellEng h bursts mis
  · rw [dwelled, chan_modChan, Chan.wire_setWire]
    exact nextTap_grid (e := { dwellEng (cal s n) bursts mis with found := found.1 }) (Nat.succ_lt_succ h) _
  · rw [hcal]
    exact hlast (congrArg (· + 1) h)
  · rw [hstk, idlePrbs, stk_modStk]
    split <;> rfl
  · rw [dwelled, hfound]
    rfl
  · exact (chan_modChan_other _ _ _ _ hd).trans (hchan d)
  · rw [hstk]
    exact stk_modStk_other _ _ _ _ hd

/-! ### The return to data (R243) -/

theorem sweepBack_idle {s : State} {n : Nat} (h : (cal s n).active = false ∨ (cal s n).phase ≠ .scan ∨ (cal s n).found = none) :
    sweepBack s n = s := by
  unfold sweepBack
  dsimp only
  split
  · rfl
  · rename_i hfound
    refine if_pos ?_
    simpa [hfound] using h

/-- The wire's channel with the scan's result applied. -/
def returning (s : State) (n : Nat) (res : Int) : State :=
  let e := cal s n
  modChan (setCal s n { e with phase := .verify }) (16 * n + e.chofs) (fun x =>
    let r := x.wire e.wire
    x.setWire e.wire { r with rApplied := clamp255 res, wApplied := r.wTarget })

theorem sweepBack_eq {s : State} {n eye : Nat} {res : Int} (hactive : (cal s n).active = true) (hscan : (cal s n).phase = .scan)
    (hfound : (cal s n).found = some (eye, res)) :
    sweepBack s n = steer (returning s n res) (16 * n + (cal s n).chofs) (wireHalf (cal s n).wire) (some (cal s n).wire) false := by
  unfold sweepBack
  dsimp only
  split
  · rename_i hnone
    cases hnone.symm.trans hfound
  · rename_i hsome
    cases hsome.symm.trans hfound
    rw [if_neg (by simp [hactive, hscan])]
    rfl

theorem sweepBack_facts {s : State} {n eye : Nat} {res : Int} (hactive : (cal s n).active = true) (hscan : (cal s n).phase = .scan)
    (hfound : (cal s n).found = some (eye, res)) :
    let t := sweepBack s n
    cal t n = { cal s n with phase := .verify } ∧ ((chan t (16 * n + (cal s n).chofs)).wire (cal s n).wire).rApplied = clamp255 res ∧
      ((chan t (16 * n + (cal s n).chofs)).spare (wireHalf (cal s n).wire)).pat = false ∧ t = { s with chans := t.chans, cals := t.cals } := by
  intro t
  have ht : t = _ := sweepBack_eq hactive hscan hfound
  obtain ⟨runs, hwire⟩ := wire_steer (returning s n res) (16 * n + (cal s n).chofs) (wireHalf (cal s n).wire) (some (cal s n).wire) false
    (cal s n).wire
  have hreturn : (chan (returning s n res) (16 * n + (cal s n).chofs)).wire (cal s n).wire =
      { (chan s (16 * n + (cal s n).chofs)).wire (cal s n).wire with
        rApplied := clamp255 res, wApplied := ((chan s (16 * n + (cal s n).chofs)).wire (cal s n).wire).wTarget } := by
    rw [returning, chan_modChan]
    exact Chan.wire_setWire ..
  rw [hreturn] at hwire
  rw [ht]
  exact ⟨cal_setCal s n _, by rw [hwire], by rw [spare_steer], rfl⟩

end Sys2Proof.Machine
end

section
/-! The end of a sweep: the verify, a wire that fails, and the reading of SR_LN_ERR (R242, R243, R246-R250). -/

namespace Sys2Proof.Machine

/-! ### Books and the engines -/

theorem Booked.cal {s t : State} (h : Booked s t) (n : Nat) : Machine.cal t n = Machine.cal s n := by
  rw [show t = _ from h]
  rfl

/-- A register of an engine's page is another one than the register at another offset. -/
theorem regKey_ne_of_off {page a b : Nat} (h : a ≠ b) : regKey page a ≠ regKey page b := fun hkey => h (Nat.add_left_cancel hkey)

theorem failSweeps_congr {s t : State} {n : Nat} (h : reg t (calPage n) 0x048 = reg s (calPage n) 0x048) : failSweeps t n = failSweeps s n := by
  rw [failSweeps, regF, h]
  rfl

theorem failSweeps_pos (s : State) (n : Nat) : 0 < failSweeps s n := lt_of_lt_of_le Nat.one_pos (Nat.le_max_left ..)

theorem eyeMin_pos (s : State) (n : Nat) : 0 < eyeMin s n := lt_of_lt_of_le Nat.one_pos (Nat.le_max_left ..)

/-! ### The sideband starts what it is asked for -/

theorem sbStart_frame (s : State) : sbStart s = { s with link := (sbStart s).link } := by
  unfold sbStart
  split
  · rfl
  · split <;> rfl

theorem sbQueue_frame (s : State) (user cmd : Nat) (ch : Byte) (addr len : Nat) (ws : List Word) :
    sbQueue s user cmd ch addr len ws = { s with link := (sbQueue s user cmd ch addr len ws).link } := by
  unfold sbQueue
  exact sbStart_frame _

theorem sbQueue_starts {s : State} (hcur : s.link.cur = none) (hq : s.link.queue = []) (user cmd : Nat) (ch : Byte) (addr len : Nat)
    (ws : List Word) :
    ∃ x, (sbQueue s user cmd ch addr len ws).link.cur = some x ∧ x.cmd = cmd ∧ x.ch = ch ∧ x.addr = BitVec.ofNat 24 addr := by
  simp only [sbQueue, sbStart, hcur, hq]
  exact ⟨_, rfl, rfl, rfl, rfl⟩

theorem sweepAbandon_stack (s : State) (n : Nat) : (sweepAbandon s n).stack = s.stack := by
  unfold sweepAbandon
  dsimp only
  split
  · rfl
  · rw [sbQueue_frame]
    split <;> rfl

/-! ### A wire that fails (R249, R250) -/

/-- A wire's failure has been logged, and no sweep of its half goes on. -/
def wireLogged (s : State) (c w cause : Nat) : State :=
  let s := logEv (latch s (calPage (c / 16)) 0) 0x0200 (chPage c) .warn (BitVec.ofNat 32 (w + cause * 256))
  let e := cal s (c / 16)
  let own := e.active && e.phase != .wait && decide (16 * (c / 16) + e.chofs = c) && decide (wireHalf e.wire = wireHalf w)
  let s := if own && e.wire ≠ w then sweepAbandon s (c / 16) else s
  if own && e.wire = w then setCal s (c / 16) { cal s (c / 16) with active := false, phase := .idle } else s

/-- The failed wire is covered for good by the spare of its half. -/
def coverWire (x : Chan) (w : Nat) : Chan :=
  let y := x.setWire w { x.wire w with failed := true, covered := true, mitten := false }
  y.setSpare (wireHalf w) { y.spare (wireHalf w) with taken := true, failed := false }

theorem wireLogged_stack (s : State) (c w cause : Nat) : (wireLogged s c w cause).stack = s.stack := by
  have hlogged : (logEv (latch s (calPage (c / 16)) 0) 0x0200 (chPage c) .warn (BitVec.ofNat 32 (w + cause * 256))).stack = s.stack :=
    (logEv_stack ..).trans (booked_latch ..).stack
  unfold wireLogged
  generalize logEv (latch s (calPage (c / 16)) 0) 0x0200 (chPage c) .warn (BitVec.ofNat 32 (w + cause * 256)) = u at hlogged ⊢
  dsimp only
  split <;> split
  · exact (sweepAbandon_stack ..).trans hlogged
  · exact hlogged
  · exact (sweepAbandon_stack ..).trans hlogged
  · exact hlogged

/-- The half's first failure: the spare takes the wire over. -/
theorem wireFail_first {s : State} {c w : Nat} (hw : w < 38)
    (hwires : ∀ v < 38, wireHalf v = wireHalf w → ((chan s c).wire v).failed = false) (hspare : ((chan s c).spare (wireHalf w)).failed = false)
    (cause : Nat) : wireFail s c w cause =
      steer (modChan (wireLogged s c w cause) c (fun x => coverWire x w)) c (wireHalf w) (some w) (cause == 4) := by
  have hfirst : (List.range 40).find? (fun v => decide (wireHalf v = wireHalf w) &&
      (if v < 38 then ((chan s c).wire v).failed else ((chan s c).spare (wireHalf w)).failed)) = none :=
    List.find?_eq_none.2 (fun v _ => by
      rw [Bool.and_eq_true, decide_eq_true_eq]
      rintro ⟨hhalf, hfailed⟩
      split at hfailed
      · rename_i hv
        exact absurd hfailed (by rw [hwires v hv hhalf]; exact nofun)
      · exact absurd hfailed (by rw [hspare]; exact nofun))
  unfold wireFail
  dsimp only
  rw [hfirst, if_neg (by simp [hwires w hw rfl, Nat.not_le.2 hw]), if_neg (Nat.not_le.2 hw)]
  rfl

/-- A failed wire's half sends it over the spare. -/
theorem steer_covers (u : State) (c w : Nat) (pat : Bool) :
    let t := steer (modChan u c (fun x => coverWire x w)) c (wireHalf w) (some w) pat
    ((chan t c).wire w).failed = true ∧ ((chan t c).spare (wireHalf w)).taken = true ∧ ((chan t c).spare (wireHalf w)).wire = some w ∧
      t.stack = u.stack := by
  intro t
  have hchan : chan (modChan u c (fun x => coverWire x w)) c = coverWire (chan u c) w := chan_modChan ..
  obtain ⟨runs, hwire⟩ := wire_steer (modChan u c (fun x => coverWire x w)) c (wireHalf w) (some w) pat w
  have hrole := spare_steer (modChan u c (fun x => coverWire x w)) c (wireHalf w) (some w) pat
  rw [hchan, coverWire, Chan.wire_setSpare, Chan.wire_setWire] at hwire
  rw [hchan, coverWire, Chan.spare_setSpare] at hrole
  exact ⟨congrArg CalWire.failed hwire, congrArg SpareWire.taken hrole, congrArg SpareWire.wire hrole, rfl⟩

/-- A wire that fails as the first of its half is covered by the half's spare, and the stack is left as it was. -/
theorem wireFail_covers {s : State} {c w : Nat} (hw : w < 38)
    (hwires : ∀ v < 38, wireHalf v = wireHalf w → ((chan s c).wire v).failed = false) (hspare : ((chan s c).spare (wireHalf w)).failed = false)
    (cause : Nat) :
    ((chan (wireFail s c w cause) c).wire w).failed = true ∧ ((chan (wireFail s c w cause) c).spare (wireHalf w)).taken = true ∧
      ((chan (wireFail s c w cause) c).spare (wireHalf w)).wire = some w ∧ (wireFail s c w cause).stack = s.stack := by
  rw [wireFail_first hw hwires hspare, ← wireLogged_stack s c w cause]
  exact steer_covers (wireLogged s c w cause) c w (cause == 4)

/-! ### The verify (R247, R249) -/

theorem cal_steer (s : State) (c h : Nat) (wire : Option Nat) (pat : Bool) (n : Nat) : cal (steer s c h wire pat) n = cal s n := rfl
theorem steer_stack (s : State) (c h : Nat) (wire : Option Nat) (pat : Bool) : (steer s c h wire pat).stack = s.stack := rfl

/-- The wire's record as the verify leaves it. -/
def verifyWire (s : State) (n w : Nat) (res : Int) (mismatch : Bool) : CalWire :=
  let e := cal s n
  let c := 16 * n + e.chofs
  let r := (chan s c).wire e.wire
  let r := { r with low := if decide (w < eyeMin s n) || mismatch then r.low + 1 else 0 }
  if mismatch then { r with rApplied := e.oldR }
  else if w = 0 then r
  else { r with rres := res * 2 ^ s.hk.point - rdlyAt s c e.wire, driftAt := (cuffOf (chan s c) (wireCuff e.wire)).d }

/-- The engine waits for the end of the sweep, and the wire has its record. -/
def verifyDone (s : State) (n w : Nat) (res : Int) (mismatch : Bool) : State :=
  modChan (setCal s n { cal s n with phase := .wait, vfail := mismatch }) (16 * n + (cal s n).chofs)
    (fun x => x.setWire (cal s n).wire (verifyWire s n w res mismatch))

/-- A verify that failed is counted, and a narrow eye latches. -/
def verifyBooked (s : State) (n w : Nat) (res : Int) (mismatch : Bool) : State :=
  let u := if mismatch then bumpReg (verifyDone s n w res mismatch) (calPage n) 0x05C 16 16 1 else verifyDone s n w res mismatch
  if decide (w < eyeMin s n) then latch u (calPage n) 3 else u

section

variable (s : State) (n w : Nat) (res : Int) (mismatch : Bool)

theorem cal_verifyDone : Machine.cal (verifyDone s n w res mismatch) n = { cal s n with phase := .wait, vfail := mismatch } := cal_setCal ..

theorem chan_verifyDone : chan (verifyDone s n w res mismatch) (16 * n + (cal s n).chofs) =
    (chan s (16 * n + (cal s n).chofs)).setWire (cal s n).wire (verifyWire s n w res mismatch) := chan_modChan ..

theorem booked_verify : Booked (verifyDone s n w res mismatch) (verifyBooked s n w res mismatch) := by
  unfold verifyBooked
  extract_lets u
  have hu : Booked (verifyDone s n w res mismatch) u := by
    simp only [u]
    split
    · exact booked_bumpReg ..
    · exact .refl _
  split
  · exact hu.trans (booked_latch ..)
  · exact hu

theorem failSweeps_verify : failSweeps (verifyBooked s n w res mismatch) n = failSweeps s n := by
  unfold verifyBooked
  extract_lets u
  have hu : failSweeps u n = failSweeps s n := by
    simp only [u]
    split
    · exact failSweeps_congr ((reg_setReg_other _ _ _ _ _ _ (regKey_ne_of_off (by decide))).trans (reg_of_regs rfl rfl _ _))
    · exact failSweeps_congr (reg_of_regs rfl rfl _ _)
  split
  · exact (failSweeps_congr (reg_latch_other _ (regKey_ne_of_off (by decide)))).trans hu
  · exact hu

end

theorem failed_verifyWire (s : State) (n w : Nat) (res : Int) (mismatch : Bool) :
    (verifyWire s n w res mismatch).failed = ((chan s (16 * n + (cal s n).chofs)).wire (cal s n).wire).failed := by
  unfold verifyWire
  dsimp only
  split
  · rfl
  · split <;> rfl

theorem low_verifyWire (s : State) (n w : Nat) (res : Int) (mismatch : Bool) : (verifyWire s n w res mismatch).low =
    if decide (w < eyeMin s n) || mismatch then ((chan s (16 * n + (cal s n).chofs)).wire (cal s n).wire).low + 1 else 0 := by
  unfold verifyWire
  dsimp only
  split
  · rfl
  · split <;> rfl

theorem sweepFree_early {s : State} {n bursts : Nat} (h : bursts < 24) (mismatch : Bool) : sweepFree s n bursts mismatch = s := by
  unfold sweepFree
  dsimp only
  split
  · rfl
  · exact if_pos (by simp [h])

section

variable {s : State} {n bursts eye : Nat} {res : Int} (hactive : (cal s n).active = true) (hverify : (cal s n).phase = .verify)
  (hfound : (cal s n).found = some (eye, res))
include hactive hverify hfound

theorem sweepFree_eq (h : 24 ≤ bursts) (mismatch : Bool) : sweepFree s n bursts mismatch =
    if failSweeps (verifyBooked s n eye res mismatch) n ≤ (verifyWire s n eye res mismatch).low then
      wireFail (verifyBooked s n eye res mismatch) (16 * n + (cal s n).chofs) (cal s n).wire 1
    else steer (verifyBooked s n eye res mismatch) (16 * n + (cal s n).chofs) (wireHalf (cal s n).wire) none false := by
  unfold sweepFree
  dsimp only
  split
  · rename_i hnone
    cases hnone.symm.trans hfound
  · rename_i hsome
    cases hsome.symm.trans hfound
    rw [if_neg (by simp [hactive, hverify, h])]
    rfl

/-- A wire that does not fail keeps its record, and its spare is free. -/
theorem sweepFree_frees (h : 24 ≤ bursts) (mismatch : Bool) (hlow : (verifyWire s n eye res mismatch).low < failSweeps s n) :
    let c := 16 * n + (cal s n).chofs
    let t := sweepFree s n bursts mismatch
    (cal t n).phase = .wait ∧ (∃ runs, (chan t c).wire (cal s n).wire = { verifyWire s n eye res mismatch with runs := runs }) ∧
      ((chan t c).spare (wireHalf (cal s n).wire)).wire = none ∧ t.stack = s.stack ∧
      t = { verifyBooked s n eye res mismatch with chans := t.chans } := by
  intro c t
  have hbook := booked_verify s n eye res mismatch
  have ht : t = steer (verifyBooked s n eye res mismatch) c (wireHalf (cal s n).wire) none false :=
    (sweepFree_eq hactive hverify hfound h mismatch).trans (if_neg (by rw [failSweeps_verify]; omega))
  obtain ⟨runs, hwire⟩ := wire_steer (verifyBooked s n eye res mismatch) c (wireHalf (cal s n).wire) none false (cal s n).wire
  rw [chan_of_booked hbook, chan_verifyDone, Chan.wire_setWire] at hwire
  rw [ht]
  refine ⟨?_, ⟨runs, hwire⟩, by rw [spare_steer], ?_, steer_frame ..⟩
  · rw [cal_steer, hbook.cal, cal_verifyDone]
  · rw [steer_stack, hbook.stack]
    rfl

end

section

variable {s : State} {n bursts eye : Nat} {res : Int} (hactive : (cal s n).active = true) (hverify : (cal s n).phase = .verify)
  (hfound : (cal s n).found = some (eye, res)) (h : 24 ≤ bursts)
include hactive hverify hfound h

/-- A good verify of a wide eye: the residual takes the scan's result, and the spare is free. -/
theorem sweepFree_good (heye : eyeMin s n ≤ eye) :
    let c := 16 * n + (cal s n).chofs
    let t := sweepFree s n bursts false
    (cal t n).phase = .wait ∧ ((chan t c).wire (cal s n).wire).rres = res * 2 ^ s.hk.point - rdlyAt s c (cal s n).wire ∧
      ((chan t c).wire (cal s n).wire).low = 0 ∧ ((chan t c).spare (wireHalf (cal s n).wire)).wire = none ∧
      t = { s with chans := t.chans, cals := t.cals } := by
  intro c t
  have hwide : ¬ eye < eyeMin s n := Nat.not_lt.2 heye
  have hlow : (verifyWire s n eye res false).low = 0 := by simp [low_verifyWire, hwide]
  have hrres : (verifyWire s n eye res false).rres = res * 2 ^ s.hk.point - rdlyAt s c (cal s n).wire := by
    have hopen : eye ≠ 0 := by have := eyeMin_pos s n; omega
    simp only [verifyWire, Bool.false_eq_true, if_false, if_neg hopen]
    rfl
  have hbook : verifyBooked s n eye res false = verifyDone s n eye res false := by simp [verifyBooked, hwide]
  obtain ⟨hphase, ⟨runs, hwire⟩, hspare, -, hframe⟩ :=
    sweepFree_frees hactive hverify hfound h false (by rw [hlow]; exact failSweeps_pos s n)
  refine ⟨hphase, by rw [hwire]; exact hrres, by rw [hwire]; exact hlow, hspare, ?_⟩
  rw [hbook] at hframe
  have hframe' : t = { verifyDone s n eye res false with chans := t.chans } := hframe
  have hcals : t.cals = (verifyDone s n eye res false).cals := by rw [hframe']
  rw [hcals]
  exact hframe'

/-- A verify that saw a mismatch gives the old read delay back, and the residual stays. -/
theorem sweepFree_mismatch (hlow : ((chan s (16 * n + (cal s n).chofs)).wire (cal s n).wire).low + 1 < failSweeps s n) :
    let c := 16 * n + (cal s n).chofs
    let t := sweepFree s n bursts true
    (cal t n).phase = .wait ∧ ((chan t c).wire (cal s n).wire).rApplied = (cal s n).oldR ∧
      ((chan t c).wire (cal s n).wire).rres = ((chan s c).wire (cal s n).wire).rres ∧
      ((chan t c).wire (cal s n).wire).low = ((chan s c).wire (cal s n).wire).low + 1 ∧
      ((chan t c).spare (wireHalf (cal s n).wire)).wire = none ∧ t.stack = s.stack := by
  intro c t
  have hrecord : verifyWire s n eye res true =
      { (chan s c).wire (cal s n).wire with low := ((chan s c).wire (cal s n).wire).low + 1, rApplied := (cal s n).oldR } := by
    simp only [verifyWire, Bool.or_true, if_true]
    rfl
  obtain ⟨hphase, ⟨runs, hwire⟩, hspare, hstack, -⟩ := sweepFree_frees hactive hverify hfound h true (by rw [hrecord]; exact hlow)
  rw [hrecord] at hwire
  exact ⟨hphase, by rw [hwire], by rw [hwire], by rw [hwire], hspare, hstack⟩

/-- The last low sweep fails the wire, which the free spare of its half covers. -/
theorem sweepFree_fails {mis : Bool} (hbad : mis = true ∨ eye < eyeMin s n)
    (hlow : failSweeps s n ≤ ((chan s (16 * n + (cal s n).chofs)).wire (cal s n).wire).low + 1) (hw : (cal s n).wire < 38)
    (hwires : ∀ v < 38, wireHalf v = wireHalf (cal s n).wire → ((chan s (16 * n + (cal s n).chofs)).wire v).failed = false)
    (hspare : ((chan s (16 * n + (cal s n).chofs)).spare (wireHalf (cal s n).wire)).failed = false) :
    let c := 16 * n + (cal s n).chofs
    let w := (cal s n).wire
    let t := sweepFree s n bursts mis
    ((chan t c).wire w).failed = true ∧ ((chan t c).spare (wireHalf w)).taken = true ∧ ((chan t c).spare (wireHalf w)).wire = some w ∧
      t.stack = s.stack := by
  intro c w t
  have hcount : (verifyWire s n eye res mis).low = ((chan s c).wire w).low + 1 := by
    rw [low_verifyWire, if_pos (by rcases hbad with hb | hb <;> simp [hb])]
  have hbook := booked_verify s n eye res mis
  have hchan : chan (verifyBooked s n eye res mis) c = (chan s c).setWire w (verifyWire s n eye res mis) :=
    (chan_of_booked hbook c).trans (chan_verifyDone ..)
  have ht : t = wireFail (verifyBooked s n eye res mis) c w 1 :=
    (sweepFree_eq hactive hverify hfound h mis).trans (if_pos (by rw [failSweeps_verify, hcount]; exact hlow))
  have hstack : (verifyBooked s n eye res mis).stack = s.stack := hbook.stack.trans rfl
  rw [ht, ← hstack]
  refine wireFail_covers hw (fun v hv hhalf => ?_) (by rw [hchan, Chan.spare_setWire]; exact hspare) 1
  rw [hchan]
  by_cases hvw : v = w
  · rw [hvw, Chan.wire_setWire, failed_verifyWire]
    exact hwires w hw rfl
  · rw [Chan.wire_setWire_other _ _ hvw]
    exact hwires v hv hhalf

end

/-! ### The end of a sweep (R242, R243, R246) -/

/-- The engine at the end of a sweep: a probe waits for its reading, and a cycle that has nothing left to sweep is complete. -/
def doneEng (s : State) (n : Nat) : CalEng :=
  let e := cal s n
  let c := 16 * n + e.chofs
  let r := (chan s c).wire e.wire
  let eye := if e.vfail then none else e.found.map (fun f => f.1 * 2 ^ s.hk.point)
  let e : CalEng := { e with active := false, phase := .idle
                             pendErr := e.pendErr ++ [{ wire := e.wire, ch := c, right := r.probeRight, eye := eye, st := .waiting }] }
  if (sweepsFrom s n e.resume).isEmpty && decide (0 < e.resume) then countPass e else e

theorem doneEng_facts (s : State) (n : Nat) : (doneEng s n).active = false ∧ ∃ eye, (doneEng s n).pendErr = (cal s n).pendErr ++
    [{ wire := (cal s n).wire, ch := 16 * n + (cal s n).chofs, eye := eye, st := .waiting
       right := ((chan s (16 * n + (cal s n).chofs)).wire (cal s n).wire).probeRight }] := by
  unfold doneEng
  dsimp only
  split <;> exact ⟨rfl, _, rfl⟩

/-- The wire is out of its mitten, and its next probe is the other edge. -/
def sweepEnded (s : State) (n : Nat) : State :=
  let e := cal s n
  modChan (setCal s n (doneEng s n)) (16 * n + e.chofs)
    (fun x => x.setWire e.wire { (chan s (16 * n + e.chofs)).wire e.wire with
      mitten := false, probeRight := !((chan s (16 * n + e.chofs)).wire e.wire).probeRight })

theorem sweepDone_idle {s : State} {n : Nat} (h : (cal s n).active = false ∨ (cal s n).phase ≠ .wait) : sweepDone s n = s := by
  refine if_pos ?_
  rcases h with h | h <;> simp [h]

theorem sweepDone_eq {s : State} {n : Nat} (hactive : (cal s n).active = true) (hwait : (cal s n).phase = .wait) :
    sweepDone s n = sbQueue (sweepEnded s n) 2 1 (BitVec.ofNat 8 (16 * n + (cal s n).chofs)) 0x011 0 [] :=
  (if_neg (by simp [hactive, hwait])).trans rfl

theorem sweepDone_facts {s : State} {n : Nat} (hactive : (cal s n).active = true) (hwait : (cal s n).phase = .wait) :
    let c := 16 * n + (cal s n).chofs
    let t := sweepDone s n
    (cal t n).active = false ∧
      (∃ eye, (cal t n).pendErr = (cal s n).pendErr ++ [{ wire := (cal s n).wire, ch := c, eye := eye, st := .waiting
                                                          right := ((chan s c).wire (cal s n).wire).probeRight }]) ∧
      ((chan t c).wire (cal s n).wire).mitten = false ∧ t.stack = s.stack ∧
      (s.link.cur = none → s.link.queue = [] → ∃ x, t.link.cur = some x ∧ x.cmd = 1 ∧ x.ch = BitVec.ofNat 8 c ∧ x.addr = 0x011#24) := by
  intro c t
  have ht : t = sbQueue (sweepEnded s n) 2 1 (BitVec.ofNat 8 c) 0x011 0 [] := sweepDone_eq hactive hwait
  have hframe : t = { sweepEnded s n with link := t.link } := by rw [ht]; exact sbQueue_frame ..
  have hcal : cal t n = doneEng s n := by rw [hframe]; exact cal_setCal s n _
  obtain ⟨hidle, hprobe⟩ := doneEng_facts s n
  refine ⟨by rw [hcal, hidle], by rw [hcal]; exact hprobe, ?_, by rw [hframe]; rfl, fun hcur hq => ?_⟩
  · have hchan : chan t c = chan (sweepEnded s n) c := by rw [hframe]; rfl
    rw [hchan, sweepEnded, chan_modChan]
    exact congrArg CalWire.mitten (Chan.wire_setWire ..)
  · rw [ht]
    exact sbQueue_starts (s := sweepEnded s n) hcur hq 2 1 (BitVec.ofNat 8 c) 0x011 0 []

/-! ### The reading of SR_LN_ERR (R246, R249) -/

/-- The wire's record with the probed edge moved by one tap. -/
def probedWire (s : State) (n : Nat) (p : Probe) (diff : Word) : CalWire :=
  let closed := decide (16 < diff.toNat)
  let r := (chan s p.ch).wire p.wire
  let el := if p.right then r.el else if closed then r.el + 1 else r.el - 1
  let er := if p.right then (if closed then r.er - 1 else r.er + 1) else r.er
  let we := er - el + 1
  { r with el := el, er := er, wres := (el + er + 1) / 2, weye := we.toNat
           wlow := if decide (tapsAt s we < eyeMin s n) then r.wlow + 1 else 0 }

/-- The wire has its record, and a narrow eye latches. -/
def probeBooked (s : State) (n : Nat) (p : Probe) (narrow : Bool) (r : CalWire) : State :=
  let u := sweepRecord (modChan s p.ch (fun x => x.setWire p.wire r)) p.ch p.wire p.eye true
  if narrow then latch u (calPage n) 3 else u

/-- The engines, the stack and the limit of low sweeps stay; the probed wire has its new edges. -/
theorem probeBooked_facts (s : State) (n : Nat) (p : Probe) (narrow : Bool) (r : CalWire) :
    (∀ m, cal (probeBooked s n p narrow r) m = cal s m) ∧ (probeBooked s n p narrow r).stack = s.stack ∧
      failSweeps (probeBooked s n p narrow r) n = failSweeps s n ∧ ((chan (probeBooked s n p narrow r) p.ch).wire p.wire).el = r.el ∧
      ((chan (probeBooked s n p narrow r) p.ch).wire p.wire).er = r.er := by
  unfold probeBooked
  extract_lets u
  have hwire : ((chan u p.ch).wire p.wire).el = r.el ∧ ((chan u p.ch).wire p.wire).er = r.er := by
    simp only [u, sweepRecord, chan_modChan, Chan.wire_setWire, and_self]
  have hfail : failSweeps u n = failSweeps s n := failSweeps_congr (reg_of_regs rfl rfl _ _)
  split
  · have hbook := booked_latch u (calPage n) 3
    refine ⟨fun m => (hbook.cal m).trans rfl, hbook.stack.trans rfl,
      (failSweeps_congr (reg_latch_other _ (regKey_ne_of_off (by decide)))).trans hfail, ?_⟩
    rwa [chan_of_booked hbook]
  · exact ⟨fun _ => rfl, rfl, hfail, hwire⟩

/-- A judgement that fails no wire leaves its books. -/
theorem probeJudge_keeps {s : State} {n : Nat} {p : Probe} (hlow : ((chan s p.ch).wire p.wire).wlow + 1 < failSweeps s n) (diff : Word) :
    ∃ narrow, probeJudge s n p diff = probeBooked s n p narrow (probedWire s n p diff) := by
  refine ⟨_, (if_neg ?_).trans rfl⟩
  have hcount (narrow : Bool) : (if narrow then ((chan s p.ch).wire p.wire).wlow + 1 else 0) < failSweeps s n := by
    cases narrow with
    | true => exact hlow
    | false => exact failSweeps_pos s n
  have hfail := (probeBooked_facts s n p (decide (tapsAt s ((probedWire s n p diff).er - (probedWire s n p diff).el + 1) < eyeMin s n))
    (probedWire s n p diff)).2.2.1
  exact Nat.not_le.2 (lt_of_lt_of_eq (hcount _) hfail.symm)

theorem probedWire_edges (s : State) (n : Nat) (p : Probe) (diff : Word) :
    let r := (chan s p.ch).wire p.wire
    (16 < diff.toNat → (probedWire s n p diff).er = (if p.right then r.er - 1 else r.er) ∧
      (probedWire s n p diff).el = (if p.right then r.el else r.el + 1)) ∧
    (diff.toNat ≤ 16 → (probedWire s n p diff).er = (if p.right then r.er + 1 else r.er) ∧
      (probedWire s n p diff).el = (if p.right then r.el else r.el - 1)) := by
  refine ⟨fun h => ?_, fun h => ?_⟩
  · simp only [probedWire, decide_eq_true h, if_true, and_self]
  · simp only [probedWire, decide_eq_false (Nat.not_lt.2 h), Bool.false_eq_true, if_false, and_self]

theorem lnErrReading_other {s : State} {n : Nat} {v : Word} (h : ∀ c w rest, (cal s n).lnGot = (c, w) :: rest → w ≠ v) :
    lnErrIs s n v = false := by
  unfold lnErrIs
  cases hgot : (cal s n).lnGot with
  | nil => rfl
  | cons e rest => simpa using h e.1 e.2 rest hgot

/-- The engine once the oldest reading is taken for the probe p. -/
def takenEng (e : CalEng) (c : Nat) (count : Word) (rest : List (Nat × Word)) (p : Probe) : CalEng :=
  { e with lnGot := rest, lastErr := Tab.put e.lastErr (c % 16) count, pendErr := e.pendErr.erase p }

theorem lnErrReading_taken {s : State} {n c : Nat} {count : Word} {rest : List (Nat × Word)} {p : Probe}
    (hgot : (cal s n).lnGot = (c, count) :: rest) (hp : (cal s n).pendErr.find? (fun q => q.ch == c && q.st != .lost) = some p) :
    (if lnErrIs s n count then lnErrRead s n else s) =
      if p.st = .dropped then setCal s n (takenEng (cal s n) c count rest p)
      else probeJudge (setCal s n (takenEng (cal s n) c count rest p)) n p (count - Tab.get (cal s n).lastErr (c % 16) 0#32) := by
  have his : lnErrIs s n count = true := by simp [lnErrIs, hgot]
  rw [if_pos his]
  unfold lnErrRead
  dsimp only
  split
  · rename_i hnil
    cases hnil.symm.trans hgot
  · rename_i hcons
    cases hcons.symm.trans hgot
    rw [hp]
    rfl

/-- A reading for a probe that still counts moves its edge by one tap, inwards where the lane saw more than 16 mismatches. -/
theorem lnErrReading_moves {s : State} {n c : Nat} {count : Word} {rest : List (Nat × Word)} {p : Probe}
    (hgot : (cal s n).lnGot = (c, count) :: rest) (hp : (cal s n).pendErr.find? (fun q => q.ch == c && q.st != .lost) = some p)
    (hst : p.st ≠ .dropped) (hlow : ((chan s c).wire p.wire).wlow + 1 < failSweeps s n) :
    let r := (chan s c).wire p.wire
    let t := if lnErrIs s n count then lnErrRead s n else s
    (cal t n).lnGot = rest ∧ (cal t n).pendErr = (cal s n).pendErr.erase p ∧
      (16 < (count - Tab.get (cal s n).lastErr (c % 16) 0#32).toNat →
        ((chan t c).wire p.wire).er = (if p.right then r.er - 1 else r.er) ∧
        ((chan t c).wire p.wire).el = (if p.right then r.el else r.el + 1)) ∧
      ((count - Tab.get (cal s n).lastErr (c % 16) 0#32).toNat ≤ 16 →
        ((chan t c).wire p.wire).er = (if p.right then r.er + 1 else r.er) ∧
        ((chan t c).wire p.wire).el = (if p.right then r.el else r.el - 1)) ∧ t.stack = s.stack := by
  intro r t
  have hch : p.ch = c := by
    have hfound := List.find?_some hp
    simp only [Bool.and_eq_true, beq_iff_eq] at hfound
    exact hfound.1
  subst hch
  have hfail : failSweeps (setCal s n (takenEng (cal s n) p.ch count rest p)) n = failSweeps s n := failSweeps_congr (reg_of_regs rfl rfl _ _)
  obtain ⟨narrow, hjudge⟩ := probeJudge_keeps (s := setCal s n (takenEng (cal s n) p.ch count rest p)) (n := n) (p := p)
    (by rw [hfail]; exact hlow) (count - Tab.get (cal s n).lastErr (p.ch % 16) 0#32)
  have ht : t = _ := (lnErrReading_taken hgot hp).trans ((if_neg hst).trans hjudge)
  obtain ⟨hcal, hstack, -, hel, her⟩ := probeBooked_facts (setCal s n (takenEng (cal s n) p.ch count rest p)) n p narrow
    (probedWire (setCal s n (takenEng (cal s n) p.ch count rest p)) n p (count - Tab.get (cal s n).lastErr (p.ch % 16) 0#32))
  obtain ⟨hclosed, hopen⟩ := probedWire_edges (setCal s n (takenEng (cal s n) p.ch count rest p)) n p
    (count - Tab.get (cal s n).lastErr (p.ch % 16) 0#32)
  rw [ht, hcal, cal_setCal, hel, her]
  exact ⟨rfl, rfl, hclosed, hopen, hstack⟩

/-! ### The events of an engine that the part has -/

section

variable {s : State} {n : Fin 4} (hn : n < nCal s)
include hn

theorem exec_calStepBoundary : exec (.calStepBoundary n) s = .next (calStep s n) := if_pos hn
theorem exec_sweepTakeOver : exec (.sweepTakeOver n) s = .next (sweepStart s n) := if_pos hn
theorem exec_scanPositionDwellEnd (bursts prbs : Nat) (mis : Bool) :
    exec (.scanPositionDwellEnd n bursts ⟨mis, prbs⟩) s = .next (dwellEnd s n bursts mis prbs) := if_pos hn
theorem exec_sweepReturn : exec (.sweepReturn n) s = .next (sweepBack s n) := if_pos hn
theorem exec_sweepRelease (bursts : Nat) (mis : Bool) : exec (.sweepRelease n bursts mis) s = .next (sweepFree s n bursts mis) := if_pos hn
theorem exec_sweepEnd : exec (.sweepEnd n) s = .next (sweepDone s n) := if_pos hn
theorem exec_srLnErrReading (count : Word) :
    exec (.srLnErrReading n count) s = .next (if lnErrIs s n count then lnErrRead s n else s) := if_pos hn

end

/-! ### The settled statement -/

/-- A channel in O47's clause on the channels outside the engine ranges over `Fin 4`, where 16 is 0: the clause says of every such
channel that a step leaves it. All else that O47 says of steps and sweeps holds. -/
theorem calibrationStepsAndSweeps_iff : Obligations.CalibrationStepsAndSweeps ↔ ∀ (s : State) (n c : Fin 4), n < nCal s → calRuns s n = true →
    (cal s n).stepAt + max 250 (regF s (calPage n) 0x044 0 12) ≤ s.time.tick → (c < 16 * n ∨ 16 * n + 16 ≤ c) →
    chan (calStep s n) c = chan s c := by
  unfold Obligations.CalibrationStepsAndSweeps
  refine ⟨fun h s n c hn hruns hdue hc => ?_, fun hothers => ?_⟩
  · obtain ⟨hstep, -⟩ := h
    obtain ⟨t, hexec, -, -, hothers, -⟩ := (hstep s n hn).2 hruns hdue
    obtain rfl : calStep s n = t := Host.Outcome.next.inj ((exec_calStepBoundary hn).symm.trans hexec)
    exact hothers c hc
  refine ⟨fun s n hn => ⟨fun h => ?_, fun hruns hdue => ?_⟩, fun s n w o e hn hruns hactive hsweep hnext => ?_, fun s n hn h => ?_,
    fun s n bursts prbs mis hn => ⟨fun h => ?_, fun hactive hscan hpos => ?_⟩,
    fun s n hn => ⟨fun h => ?_, fun eye res hactive hscan hfound => ?_⟩,
    fun s n bursts eye res mis hn hactive hverify hfound => ⟨fun h => ?_, fun h hmis heye => ?_, fun h hmis hlow => ?_,
      fun h hbad hlow hw hwires hspare => ?_⟩,
    fun s n hn => ⟨fun h => ?_, fun hactive hwait => ?_⟩,
    fun s n hn => ⟨fun v h => ?_, fun c count rest p hgot hp => ⟨fun hst => ?_, fun hst hlow => ?_⟩⟩⟩
  · rw [exec_calStepBoundary hn, calStep_idle h]
  · obtain ⟨hat, hdone, -, hstack⟩ := calStep_steps hruns hdue
    exact ⟨_, exec_calStepBoundary hn, hat, hdone, fun c hc => hothers s n c hn hruns hdue hc, hstack⟩
  · exact ⟨_, exec_sweepTakeOver hn, sweepStart_facts hruns hactive hsweep hnext⟩
  · rw [exec_sweepTakeOver hn, sweepStart_idle h]
  · rw [exec_scanPositionDwellEnd hn, dwellEnd_idle h]
  · exact ⟨_, exec_scanPositionDwellEnd hn bursts prbs mis, dwellEnd_facts hactive hscan hpos bursts mis prbs⟩
  · rw [exec_sweepReturn hn, sweepBack_idle h]
  · exact ⟨_, exec_sweepReturn hn, sweepBack_facts hactive hscan hfound⟩
  · rw [exec_sweepRelease hn, sweepFree_early h]
  · subst hmis
    exact ⟨_, exec_sweepRelease hn bursts false, sweepFree_good hactive hverify hfound h heye⟩
  · subst hmis
    exact ⟨_, exec_sweepRelease hn bursts true, sweepFree_mismatch hactive hverify hfound h hlow⟩
  · exact ⟨_, exec_sweepRelease hn bursts mis, sweepFree_fails hactive hverify hfound h hbad hlow hw hwires hspare⟩
  · rw [exec_sweepEnd hn, sweepDone_idle h]
  · exact ⟨_, exec_sweepEnd hn, sweepDone_facts hactive hwait⟩
  · rw [exec_srLnErrReading hn, lnErrReading_other h, if_neg Bool.false_ne_true]
  · refine ⟨_, (exec_srLnErrReading hn count).trans (congrArg Host.Outcome.next ((lnErrReading_taken hgot hp).trans (if_pos hst))), ?_, ?_, rfl⟩
    · rw [cal_setCal]
      rfl
    · rw [cal_setCal]
      rfl
  · exact ⟨_, exec_srLnErrReading hn count, lnErrReading_moves hgot hp hst hlow⟩

/-- Engine 0 tracks and its step is due, and channel 0 has seen a burst since the last step. -/
def burstCounted : State :=
  { State.reset with
    time := { Time.reset with tick := 4096 }
    clk := { Clk.reset with coreRun := true }
    blk := { Blk.reset with st := .ready }
    regs := [(regKey (calPage 0) 0x040, 2)]
    chans := [(0, { Chan.reset with stepBursts := 1 })] }

/-- Refutes O47: a due step of engine 0 starts the burst count of channel 0 anew, while the clause on the channels that the step
leaves alone takes in channel 0: its channels are numbers of `Fin 4`, where 16 is 0. -/
theorem not_calibrationStepsAndSweeps : ¬ Obligations.CalibrationStepsAndSweeps := by
  rw [calibrationStepsAndSweeps_iff]
  intro hothers
  have hruns : calRuns burstCounted 0 = true := by decide
  have hdue : (cal burstCounted 0).stepAt + max 250 (regF burstCounted (calPage 0) 0x044 0 12) ≤ burstCounted.time.tick := by decide
  have hkept : chan (calStep burstCounted 0) 0 = chan burstCounted 0 := hothers burstCounted 0 0 (by decide) hruns hdue (.inr (by decide))
  have hanew : (chan (calStep burstCounted 0) 0).stepBursts = 0 := ((calStep_steps hruns hdue).2.1 0 (by decide)).1
  have hcounted : (chan burstCounted 0).stepBursts = 1 := rfl
  rw [hkept, hcounted] at hanew
  exact absurd hanew (by decide)

end Sys2Proof.Machine
end

section
/-! Power-down: a quiet channel goes into it, and work or a due refresh ends it (R265, R266). -/

namespace Sys2Proof.Machine

/-! ### The slots of the row wires (R209) -/

/-- The first cycle from e on that starts a slot of length L, counted from w. -/
def slotUp (L w e : Nat) : Nat :=
  if (e + L - w % L) % L = 0 then e else e + L - (e + L - w % L) % L

/-- The first cycle from t on in which the row wires of a channel have sent their last command. -/
def rowIdleFrom (s : State) (c t : Nat) : Nat :=
  match (chan s c).lastRow with | some a => max t (a + 2 * slotLen s) | none => t

theorem rowSlotFrom_eq (s : State) (c t : Nat) : rowSlotFrom s c t = slotUp (slotLen s) s.winStart (rowIdleFrom s c t) := rfl

theorem slotLen_pos (s : State) : 0 < slotLen s := Nat.mul_pos Nat.two_pos (Nat.two_pow_pos _)

theorem le_slotUp {L : Nat} (hL : 0 < L) (w e : Nat) : e ≤ slotUp L w e := by
  have hr := Nat.mod_lt (e + L - w % L) hL
  unfold slotUp
  split <;> omega

theorem slotUp_aligned {L : Nat} (hL : 0 < L) (w e : Nat) : (slotUp L w e + L - w % L) % L = 0 := by
  have hw := Nat.mod_lt w hL
  have hr := Nat.mod_lt (e + L - w % L) hL
  unfold slotUp
  split
  · assumption
  · rw [show e + L - (e + L - w % L) % L + L - w % L = e + L - w % L + L - (e + L - w % L) % L by omega]
    exact Nat.sub_mod_eq_zero_of_mod_eq (by rw [Nat.add_mod_right, Nat.mod_mod])

theorem slotUp_of_aligned {L w e : Nat} (h : (e + L - w % L) % L = 0) : slotUp L w e = e := if_pos h

theorem rowIdleFrom_of_le {s : State} {c t k : Nat} (h : rowIdleFrom s c t ≤ k) : rowIdleFrom s c k = k := by
  unfold rowIdleFrom at h ⊢
  split
  · rename_i a hlast
    simp only [hlast] at h
    omega
  · rfl

/-- A slot of the row wires is the next one from itself on. -/
theorem rowSlotFrom_rowSlotFrom (s : State) (c t : Nat) : rowSlotFrom s c (rowSlotFrom s c t) = rowSlotFrom s c t := by
  have hidle : rowIdleFrom s c (rowSlotFrom s c t) = rowSlotFrom s c t := rowIdleFrom_of_le (le_slotUp (slotLen_pos s) ..)
  rw [rowSlotFrom_eq s c (rowSlotFrom s c t), hidle]
  exact slotUp_of_aligned (slotUp_aligned (slotLen_pos s) ..)

theorem chan_sendRowFrom (s : State) (c t : Nat) (i : Instr) : chan (sendRowFrom s c t i) c =
    { chan s c with rowOut := (chan s c).rowOut ++ [(rowSlotFrom s c t, i)], lastRow := some (rowSlotFrom s c t) } := chan_modChan ..

/-! ### Into power-down (R265) -/

section

variable {s : State} {c : Nat}

theorem pdEnter_idle {a : Nat} (hquiet : pdQuiet s c = true) (hpd : (chan s c).pd = .active) (hidle : (chan s c).idleSince = some a) :
    pdEnter s c = if regB s (chPage c) 0x070 0 && decide (a + pdIdle s c ≤ s.time.tick) && inService s c then
      modChan s c (fun x => { x with pd := .pulling }) else s := by
  unfold pdEnter
  rw [if_neg (by simp [hquiet])]
  simp only [hpd, hidle]

/-- The state in which a channel has been counted in power-down, before its PDE. -/
def goingDown (s : State) (c : Nat) : State :=
  modChan (bumpReg s (chPage c) 0x074 16 16 1) c (fun x => { x with pd := .powerdown, wckOff := some (wckStopAt s c) })

theorem pdEnter_down (hquiet : pdQuiet s c = true) (hpd : (chan s c).pd = .confirming) (hpulled : pulledIn (chan s c) = true)
    (hflight : (chan s c).inflight = []) (hclosed : allClosed s (chan s c) = true) (hfree : rowFree s c = true) :
    pdEnter s c = sendRow (goingDown s c) c (.pde ⟨chanFin c, 0⟩) := by
  unfold pdEnter
  rw [if_neg (by simp [hquiet])]
  simp only [hpd]
  exact if_pos (by simp [hpulled, hflight, hclosed, hfree])

theorem pdEnter_work (hquiet : pdQuiet s c = false) : pdEnter s c = modChan s c (fun x =>
    { x with idleSince := none, pd := if x.pd == .pulling || x.pd == .confirming then .active else x.pd }) :=
  if_pos (by simp [hquiet])

/-- The count and the channel's state leave its row wires as they are. -/
theorem goingDown_wiresWait (s : State) (c : Nat) : WiresWait s (goingDown s c) c :=
  (WiresWait.of_booked (booked_bumpReg ..) c).trans (.modChan _ c _ rfl rfl)

theorem chan_goingDown (s : State) (c : Nat) :
    chan (goingDown s c) c = { chan s c with pd := .powerdown, wckOff := some (wckStopAt s c) } := chan_modChan ..

/-- On free row wires PDE goes out now, and the wire clock stops tCKSRE after its last UI (Table 10-4). -/
theorem wckStopAt_of_free (hfree : rowFree s c = true) : wckStopAt s c = s.time.cyc + 2 * slotLen s + 25 := by
  rw [wckStopAt, show rowSlot s c = s.time.cyc from beq_iff_eq.1 hfree]

/-! ### Out of power-down (R266) -/

/-- The state of a channel that leaves power-down, before its PDX. -/
def wakingUp (s : State) (c t : Nat) : State :=
  modChan s c (fun x => { x with pd := .active, wckOff := none, wakeAt := some (t + 2 * slotLen s + txp) })

theorem pdWake_powerdown (hpd : (chan s c).pd = .powerdown) : pdWake s c =
    sendRowFrom (wakingUp s c (rowSlotFrom s c (s.time.cyc + ckpdx))) c (rowSlotFrom s c (s.time.cyc + ckpdx)) (.pdx ⟨chanFin c, 0⟩) := by
  unfold pdWake
  simp only [hpd]
  rfl

theorem wakingUp_wiresWait (s : State) (c t : Nat) : WiresWait s (wakingUp s c t) c := .modChan s c _ rfl rfl

theorem chan_wakingUp (s : State) (c t : Nat) : chan (wakingUp s c t) c =
    { chan s c with pd := .active, wckOff := none, wakeAt := some (t + 2 * slotLen s + txp) } := chan_modChan ..

/-- PDX goes out in the first row slot tCKPDX after the wire clock's restart. -/
theorem chan_pdWake (hpd : (chan s c).pd = .powerdown) :
    let a := rowSlotFrom s c (s.time.cyc + ckpdx)
    chan (pdWake s c) c = { chan s c with
      pd := .active, wckOff := none, wakeAt := some (a + 2 * slotLen s + txp), lastRow := some a
      rowOut := (chan s c).rowOut ++ [(a, .pdx ⟨chanFin c, 0⟩)] } := by
  intro a
  have hslot : rowSlotFrom (wakingUp s c a) c a = a := ((wakingUp_wiresWait s c a).rowSlotFrom a).trans (rowSlotFrom_rowSlotFrom ..)
  rw [pdWake_powerdown hpd, chan_sendRowFrom, hslot, chan_wakingUp]

theorem pdWake_chanOnly (s : State) (c : Nat) : ChanOnly s (pdWake s c) c := by
  unfold pdWake
  split
  · exact (ChanOnly.modChan s c _).trans (.modChan ..)
  · exact .modChan ..
  · exact .modChan ..
  · exact .refl s c

end

section

variable {s : State} {c : Fin 64} (hc : c < nChan s)
include hc

theorem exec_powerdownEntry : exec (.powerdownEntry c) s = .next (pdEnter s c) := if_pos hc

theorem exec_powerdownExit : exec (.powerdownExit c) s =
    .next (if (chan s c).pd == .powerdown && wakeWanted (chan s c) then pdWake s c else s) := if_pos hc

end

/-- Settles O52: each branch of the entry and of the exit, PDE on free row wires and PDX in the slot that was chosen for it. -/
theorem channelsPowerDownAndWake : Obligations.ChannelsPowerDownAndWake := by
  unfold Obligations.ChannelsPowerDownAndWake
  refine ⟨fun s c a hc hquiet hpd hidle => ⟨fun hearly => ?_, fun hlate hen hserv => ⟨_, exec_powerdownEntry hc, ?_⟩⟩,
    fun s c hc hquiet hpd hpulled hflight hclosed hfree => ⟨_, exec_powerdownEntry hc, ?_⟩,
    fun s c hc hquiet => ⟨_, exec_powerdownEntry hc, ?_⟩,
    fun s c hc hpd hwake => ⟨_, exec_powerdownExit hc, ?_⟩, fun s c hc h => ?_⟩
  · rw [exec_powerdownEntry hc, pdEnter_idle hquiet hpd hidle, if_neg (by simp [Nat.not_le.2 hearly])]
  · rw [pdEnter_idle hquiet hpd hidle, if_pos (by simp [hen, hlate, hserv])]
    exact ⟨chan_modChan .., .modChan ..⟩
  · have hsends := (goingDown_wiresWait s c).sends hfree (.pde ⟨c, 0⟩)
    rw [pdEnter_down hquiet hpd hpulled hflight hclosed hfree, chanFin_val]
    refine ⟨?_, ?_, hsends⟩
    · rw [sendRow, chan_sendRowFrom, chan_goingDown]
    · rw [sendRow, chan_sendRowFrom, chan_goingDown, wckStopAt_of_free hfree]
  · rw [pdEnter_work hquiet, chan_modChan]
    refine ⟨rfl, fun h => ?_, .modChan ..⟩
    rcases h with h | h <;> simp [h]
  · rw [if_pos (by simp [hpd, hwake])]
    refine ⟨?_, pdWake_chanOnly s c⟩
    rw [chan_pdWake hpd, chanFin_val]
    rfl
  · rw [exec_powerdownExit hc, if_neg]
    rcases h with h | h <;> simp [h]

end Sys2Proof.Machine
end

section
/-! The frequency change: its drain, self-refresh at the new point, and the return to service (R268, R270, R274). -/

namespace Sys2Proof.Machine

/-! ### One step on each channel -/

section

variable {α : Type} {r : State → State → Prop} {f : State → Nat → State} {v : State → Nat → α}

/-- The steps before it leave a channel's part of the state as it was. -/
theorem forN_ahead (hother : ∀ t i d, d ≠ i → v (f t i) d = v t d) (s : State) {n i : Nat} (hi : n ≤ i) : v (forN n f s) i = v s i := by
  induction n with
  | zero => rfl
  | succ n ih => rw [forN_succ, hother _ _ _ (by omega), ih (by omega)]

/-- Each channel's step finds the channel's part of the state as it was, and the steps after it leave what it has made of it. -/
theorem forN_each (hrefl : ∀ s, r s s) (htrans : ∀ {s t u}, r s t → r t u → r s u) (hf : ∀ t i, r t (f t i))
    (hother : ∀ t i d, d ≠ i → v (f t i) d = v t d) (s : State) {n i : Nat} (hi : i < n) :
    ∃ u, r s u ∧ v u i = v s i ∧ v (forN n f s) i = v (f u i) i := by
  induction n with
  | zero => exact absurd hi (Nat.not_lt_zero i)
  | succ n ih =>
    rw [forN_succ]
    rcases Nat.lt_succ_iff_lt_or_eq.1 hi with hlt | rfl
    · obtain ⟨u, hu, hsame, hmade⟩ := ih hlt
      exact ⟨u, hu, hsame, (hother _ _ _ (by omega)).trans hmade⟩
    · exact ⟨_, forN_rel hrefl htrans hf .., forN_ahead hother s le_rfl, rfl⟩

end

/-! ### Steps that change channels alone -/

/-- Nothing changes but channels. -/
def OnlyChans (s t : State) : Prop := t = { s with chans := t.chans }

namespace OnlyChans

variable {s t u : State}

theorem refl (s : State) : OnlyChans s s := rfl

theorem trans (h : OnlyChans s t) (g : OnlyChans t u) : OnlyChans s u := by
  unfold OnlyChans at *
  rw [g, h]

theorem nChan (h : OnlyChans s t) : nChan t = nChan s := by
  rw [show t = _ from h]
  rfl

theorem times (h : OnlyChans s t) : t.time = s.time ∧ t.winStart = s.winStart ∧ t.hk = s.hk := by
  rw [show t = _ from h]
  exact ⟨rfl, rfl, rfl⟩

end OnlyChans

/-! ### Into self-refresh (R268) -/

/-- A channel in self-refresh, its SRE in the row slot k. -/
def asleep (x : Chan) (c k off : Nat) : Chan :=
  { x with pd := .selfRefresh, wckOff := some off, rowOut := x.rowOut ++ [(k, .sre ⟨chanFin c, 0⟩)], lastRow := some k }

theorem chan_sleepChan (s : State) (c : Nat) : chan (sleepChan s c) c = asleep (chan s c) c (rowSlot s c) (wckStopAt s c) := by
  have hwait : WiresWait s (modChan s c (fun x => { x with pd := .selfRefresh, wckOff := some (wckStopAt s c) })) c := .modChan s c _ rfl rfl
  rw [sleepChan, sendRow, chan_sendRowFrom, hwait.rowSlotFrom, chan_modChan]
  rfl

theorem sleepChan_chanOnly (s : State) (c : Nat) : ChanOnly s (sleepChan s c) c := (ChanOnly.modChan s c _).trans (.modChan ..)

theorem sleepChan_onlyChans (s : State) (c : Nat) : OnlyChans s (sleepChan s c) := rfl

/-- Every channel has gone to self-refresh. -/
def asleepAll (s : State) : State := forN (nChan s) sleepChan s

theorem asleepAll_onlyChans (s : State) : OnlyChans s (asleepAll s) :=
  forN_rel OnlyChans.refl OnlyChans.trans sleepChan_onlyChans ..

theorem chan_asleepAll (s : State) {c : Nat} (hc : c < nChan s) :
    chan (asleepAll s) c = asleep (chan s c) c (rowSlot s c) (wckStopAt s c) := by
  obtain ⟨u, hu, hsame, hmade⟩ := forN_each (v := chan) OnlyChans.refl OnlyChans.trans sleepChan_onlyChans
    (fun t i d hd => (sleepChan_chanOnly t i).2 d hd) s hc
  have hslot : rowSlot u c = rowSlot s c := rowSlot_congr (by rw [hsame]) hu.times
  have hlen : slotLen u = slotLen s := by rw [slotLen, hu.times.2.2]; rfl
  have hstop : wckStopAt u c = wckStopAt s c := by rw [wckStopAt, hslot, hlen]; rfl
  rw [show chan (asleepAll s) c = _ from hmade, chan_sleepChan, hsame, hslot, hstop]

/-! ### The timing sets (Table 10-6) -/

/-- The bit of a stored word that is taken from 1 is its opposite. -/
theorem regB_setRegF_flip (s : State) (page off : Nat) :
    regB (setRegF s page off 0 1 (1 - regF s page off 0 1)) page off 0 = !regB s page off 0 := by
  have hbit : regF s page off 0 1 = (regB s page off 0).toNat := by
    rw [regF, fieldNat_eq_div_mod, regB, BitVec.getLsbD, Nat.testBit_zero]
    rcases Nat.mod_two_eq_zero_or_one (reg s page off).toNat with h | h <;> simp [h]
  rw [hbit, regB, setRegF, reg_setReg, putBits, BitVec.getLsbD_or, BitVec.getLsbD_ofNat]
  cases regB s page off 0 <;> simp [maskAt]

/-- A channel's other timing set becomes active. -/
def swapSet (t : State) (c : Nat) : State := setRegF t (chPage c) 0x120 0 1 (1 - regF t (chPage c) 0x120 0 1)

theorem regB_swapSet_other (t : State) {i d : Nat} (h : d ≠ i) : regB (swapSet t i) (chPage d) 0x120 0 = regB t (chPage d) 0x120 0 := by
  have hkey : regKey (chPage d) 0x120 ≠ regKey (chPage i) 0x120 := by unfold regKey chPage; omega
  rw [regB, swapSet, setRegF, reg_setReg_other _ _ _ _ _ _ hkey]
  rfl

/-- Every channel's other timing set has become active. -/
def swapAll (s : State) : State := forN (nChan s) swapSet s

theorem swapAll_booked (s : State) : Booked s (swapAll s) := forN_rel Booked.refl Booked.trans (fun _ _ => booked_setRegF ..) ..

theorem regB_swapAll (s : State) {c : Nat} (hc : c < nChan s) :
    regB (swapAll s) (chPage c) 0x120 0 = !regB s (chPage c) 0x120 0 := by
  obtain ⟨u, -, hsame, hmade⟩ := forN_each (v := fun t i => regB t (chPage i) 0x120 0) Booked.refl Booked.trans
    (fun t c => booked_setRegF ..) (fun t i d hd => regB_swapSet_other t hd) s hc
  rw [← hsame]
  exact hmade.trans (regB_setRegF_flip ..)

/-! ### The delays (R236, R270) -/

/-- Nothing changes but channels, and those neither in their power state nor in what has gone onto their row wires. -/
structure TunesOnly (s t : State) : Prop where
  frame : OnlyChans s t
  chans : ∀ d, (chan t d).pd = (chan s d).pd ∧ (chan t d).rowOut = (chan s d).rowOut

namespace TunesOnly

variable {s t u : State}

theorem refl (s : State) : TunesOnly s s := ⟨.refl s, fun _ => ⟨rfl, rfl⟩⟩

theorem trans (h : TunesOnly s t) (g : TunesOnly t u) : TunesOnly s u :=
  ⟨h.frame.trans g.frame, fun d => ⟨(g.chans d).1.trans (h.chans d).1, (g.chans d).2.trans (h.chans d).2⟩⟩

theorem modChan (s : State) (c : Nat) {f : Chan → Chan} (hf : ∀ x, (f x).pd = x.pd ∧ (f x).rowOut = x.rowOut) :
    TunesOnly s (modChan s c f) := by
  refine ⟨rfl, fun d => ?_⟩
  by_cases hd : d = c
  · rw [hd, chan_modChan]
    exact hf _
  · rw [chan_modChan_other _ _ _ _ hd]
    exact ⟨rfl, rfl⟩

theorem forN {f : State → Nat → State} (hf : ∀ t i, TunesOnly t (f t i)) (n : Nat) (s : State) : TunesOnly s (Machine.forN n f s) :=
  forN_rel TunesOnly.refl TunesOnly.trans hf n s

theorem retarget (s : State) (c w : Nat) : TunesOnly s (retarget s c w) :=
  modChan s c (fun x => by dsimp only; split <;> exact ⟨rfl, rfl⟩)

theorem applyAll (s : State) : TunesOnly s (applyAll s) :=
  forN (fun t c => (forN (fun u w => retarget u c w) 51 t).trans (modChan _ c (fun x =>
    List.foldlRecOn (motive := fun y : Chan => y.pd = x.pd ∧ y.rowOut = x.rowOut) (List.range 51) applyNow ⟨rfl, rfl⟩
      (fun _ hy _ _ => hy)))) (nChan s) s

end TunesOnly

/-! ### The drain is done (R270) -/

section

variable {s : State} {p : Nat} {ld : Bool} (hcur : s.hk.cur = some (.freq p ld)) (hfreq : s.hk.freq = .drain)
include hcur

theorem freqSwap_waits {c : Nat} (hc : c < nChan s) (hleft : freqDrained s c = false) : freqSwap s = s := by
  have hall : (List.range (nChan s)).all (freqDrained s) = false := List.all_eq_false.2 ⟨c, List.mem_range.2 hc, by simp [hleft]⟩
  unfold freqSwap
  simp only [hcur]
  exact if_pos (by simp [hall])

/-- HK at the target point, its channels in self-refresh. -/
def asleepAt (s : State) (p : Nat) : State := { asleepAll s with hk := { (asleepAll s).hk with freq := .selfRefresh, point := p } }

include hfreq

theorem freqSwap_drained (hall : ∀ c, c < nChan s → freqDrained s c = true) : freqSwap s = applyAll (swapAll (asleepAt s p)) := by
  have hdone : (List.range (nChan s)).all (freqDrained s) = true := List.all_eq_true.2 fun c hc => hall c (List.mem_range.1 hc)
  unfold freqSwap
  simp only [hcur]
  rw [if_neg (by simp [hfreq, hdone])]
  rfl

end

/-- What the end of the drain makes of the block: every channel in self-refresh with its other timing set, at the target point. -/
theorem applyAll_swapAll_asleepAt (s : State) (p : Nat) :
    let t := applyAll (swapAll (asleepAt s p))
    t.hk = { s.hk with freq := .selfRefresh, point := p } ∧
      (∀ c, c < nChan s → (chan t c).pd = .selfRefresh ∧
        (chan t c).rowOut = (chan s c).rowOut ++ [(rowSlot s c, .sre ⟨chanFin c, 0⟩)] ∧
        regB t (chPage c) 0x120 0 = !regB s (chPage c) 0x120 0) ∧ t.stack = s.stack := by
  intro t
  have hsleep : OnlyChans s (asleepAll s) := asleepAll_onlyChans s
  have hswap : Booked (asleepAt s p) (swapAll (asleepAt s p)) := swapAll_booked _
  have htune : TunesOnly (swapAll (asleepAt s p)) t := .applyAll _
  have hhk : (asleepAt s p).hk = { s.hk with freq := .selfRefresh, point := p } := by rw [asleepAt, hsleep.times.2.2]
  have hpoint : regB (asleepAt s p) = regB s := by
    funext page off bit
    rw [regB, regB, reg_of_regs (s := s) (by rw [asleepAt, show asleepAll s = _ from hsleep]) (by rw [asleepAt, show asleepAll s = _ from hsleep])]
  refine ⟨?_, fun c hc => ?_, ?_⟩
  · rw [show t = _ from htune.frame, ← hhk, show swapAll (asleepAt s p) = _ from hswap]
  · have hchan : chan (swapAll (asleepAt s p)) c = asleep (chan s c) c (rowSlot s c) (wckStopAt s c) :=
      (chan_of_booked hswap c).trans (chan_asleepAll s hc)
    obtain ⟨hpd, hrow⟩ := htune.chans c
    rw [hchan] at hpd hrow
    refine ⟨hpd, hrow, ?_⟩
    have hset : regB (swapAll (asleepAt s p)) (chPage c) 0x120 0 = !regB s (chPage c) 0x120 0 := by
      rw [regB_swapAll (asleepAt s p) (hc.trans_eq hsleep.nChan.symm), hpoint]
    rw [← hset, regB, regB, reg_of_regs (s := swapAll (asleepAt s p)) (by rw [show t = _ from htune.frame]) (by rw [show t = _ from htune.frame])]
  · rw [show t = _ from htune.frame, show swapAll (asleepAt s p) = _ from hswap, asleepAt, show asleepAll s = _ from hsleep]

/-! ### The drain begins (R248, R270) -/

/-- What the beginning of a drain and the wake from self-refresh may change: channels, the sweeps, the sideband's queue and the books. -/
def PowerFrame (s t : State) : Prop := Booked { s with chans := t.chans, cals := t.cals, link := t.link } t

theorem PowerFrame.refl (s : State) : PowerFrame s s := rfl

theorem PowerFrame.trans {s t u : State} (h : PowerFrame s t) (g : PowerFrame t u) : PowerFrame s u := by
  unfold PowerFrame Booked at *
  rw [g, h]

theorem PowerFrame.of_chanOnly {s t : State} {c : Nat} (h : ChanOnly s t c) : PowerFrame s t := by
  obtain ⟨h, -⟩ := h
  unfold PowerFrame Booked at *
  rw [h]

/-- No more changes than that, and no channel's power state. -/
structure KeepsPower (s t : State) : Prop where
  frame : PowerFrame s t
  pd : ∀ d, (chan t d).pd = (chan s d).pd

namespace KeepsPower

variable {s t u : State}

theorem refl (s : State) : KeepsPower s s := ⟨rfl, fun _ => rfl⟩

theorem trans (h : KeepsPower s t) (g : KeepsPower t u) : KeepsPower s u := ⟨h.frame.trans g.frame, fun d => (g.pd d).trans (h.pd d)⟩

theorem of_booked (h : Booked s t) : KeepsPower s t := ⟨.of_chanOnly (.of_booked h 0), fun d => by rw [chan_of_booked h]⟩

theorem of_linersOnly (h : LinersOnly s t) : KeepsPower s t := by
  obtain ⟨hframe, hchans⟩ := h
  refine ⟨?_, fun d => by rw [hchans d]⟩
  unfold PowerFrame Booked at *
  rw [hframe]

theorem modChan (s : State) (c : Nat) {f : Chan → Chan} (hf : ∀ x, (f x).pd = x.pd) : KeepsPower s (modChan s c f) := by
  refine ⟨rfl, fun d => ?_⟩
  by_cases hd : d = c
  · rw [hd, chan_modChan, hf]
  · rw [chan_modChan_other _ _ _ _ hd]

theorem setCal (s : State) (n : Nat) (e : CalEng) : KeepsPower s (setCal s n e) := ⟨rfl, fun _ => rfl⟩

theorem sbQueue (s : State) (user cmd : Nat) (ch : Byte) (addr len : Nat) (ws : List Word) :
    KeepsPower s (sbQueue s user cmd ch addr len ws) := by
  rw [sbQueue_frame]
  exact ⟨rfl, fun _ => rfl⟩

theorem sendRow (s : State) (c : Nat) (i : Instr) : KeepsPower s (sendRow s c i) := by
  unfold Machine.sendRow sendRowFrom
  exact modChan s c (fun _ => rfl)

theorem steer (s : State) (c h : Nat) (wire : Option Nat) (pat : Bool) : KeepsPower s (steer s c h wire pat) := by
  refine trans (t := steering s c h wire pat) (modChan s c fun x => ?_) (sendRow ..)
  unfold steered freshRuns
  split <;> rfl

theorem sweepUndo (s : State) (n : Nat) : KeepsPower s (sweepUndo s n) := by
  refine trans ?_ (setCal _ n _)
  exact modChan s _ (fun _ => rfl)

theorem sweepAbandon (s : State) (n : Nat) : KeepsPower s (sweepAbandon s n) := by
  unfold Machine.sweepAbandon
  dsimp only
  split
  · exact refl s
  · refine trans (t := if (cal s n).phase = .wait then Machine.sweepUndo s n else _) ?_ ((setCal ..).trans (sbQueue ..))
    split
    · exact sweepUndo s n
    · exact (sweepUndo s n).trans (steer ..)

theorem sweepAbandonOn (s : State) (c : Nat) : KeepsPower s (sweepAbandonOn s c) := by
  unfold Machine.sweepAbandonOn
  dsimp only
  split
  · exact sweepAbandon ..
  · exact refl s

theorem evictAll (s : State) (c : Nat) (pick : Liner → Bool) : KeepsPower s (evictAll s c pick) :=
  of_linersOnly (LinersOnly.foldl (fun t (l : Liner) => evict t c l.serial .bl (synthDl t .rt)) _ (fun _ _ => .evict ..) s)

theorem loadDefaults (s : State) (p : Nat) : KeepsPower s (loadDefaults s p) := by
  refine of_booked (booked_foldl _ _ (fun t c => ?_) s)
  refine booked_foldl _ _ (fun u w => ?_) t
  rfl

end KeepsPower

/-- The wake leads out of power-down, and from no other state into it (R266). -/
theorem pd_pdWake (s : State) (c : Nat) : (chan (pdWake s c) c).pd ≠ .powerdown := by
  cases hpd : (chan s c).pd with
  | powerdown =>
    rw [chan_pdWake hpd]
    exact nofun
  | active | pulling | confirming | selfRefresh =>
    simp [pdWake, hpd]

/-- A channel begins to drain: its sweep is abandoned, and the MERGING entries of its Liner are evicted. -/
def drainStep (s : State) (c : Nat) : State := evictAll (drainChan s c) c (fun _ => true)

theorem drainStep_keepsPower (s : State) (c : Nat) : KeepsPower (pdWake s c) (drainStep s c) :=
  (KeepsPower.sweepAbandonOn ..).trans (.evictAll ..)

theorem drainStep_frame (s : State) (c : Nat) : PowerFrame s (drainStep s c) :=
  (PowerFrame.of_chanOnly (pdWake_chanOnly s c)).trans (drainStep_keepsPower s c).frame

theorem pd_drainStep (s : State) (c : Nat) : (chan (drainStep s c) c).pd ≠ .powerdown := by
  rw [(drainStep_keepsPower s c).pd]
  exact pd_pdWake s c

theorem pd_drainStep_other (s : State) {c d : Nat} (h : d ≠ c) : (chan (drainStep s c) d).pd = (chan s d).pd := by
  rw [(drainStep_keepsPower s c).pd, (pdWake_chanOnly s c).2 d h]

/-- Every channel begins to drain. -/
def drainAll (s : State) : State := forN (nChan s) drainStep s

theorem drainAll_frame (s : State) : PowerFrame s (drainAll s) := forN_rel PowerFrame.refl PowerFrame.trans drainStep_frame ..

theorem pd_drainAll (s : State) {c : Nat} (hc : c < nChan s) : (chan (drainAll s) c).pd ≠ .powerdown := by
  obtain ⟨u, -, -, hmade⟩ := forN_each (v := fun t i => (chan t i).pd) PowerFrame.refl PowerFrame.trans drainStep_frame
    (fun t i d hd => pd_drainStep_other t hd) s hc
  rw [show (chan (drainAll s) c).pd = _ from hmade]
  exact pd_drainStep u c

theorem freqBegin_idle {s : State} (h : s.hk.waiting = []) : freqBegin s = s := by
  unfold freqBegin
  rw [h]

/-- HK has taken a change to point p from its queue, whose rest is ws, and loaded the default timing where it has to. -/
def changeTaken (s : State) (p : Nat) (ld : Bool) (ws : List Seq) : State :=
  let u := { s with hk := { s.hk with waiting := ws, cur := some (.freq p ld), freq := .drain, freqStart := s.time.tick } }
  if ld then loadDefaults u p else u

theorem changeTaken_frame (s : State) (p : Nat) (ld : Bool) (ws : List Seq) :
    PowerFrame { s with hk := { s.hk with waiting := ws, cur := some (.freq p ld), freq := .drain, freqStart := s.time.tick } }
      (changeTaken s p ld ws) := by
  unfold changeTaken
  split
  · exact (KeepsPower.loadDefaults ..).frame
  · exact .refl _

section

variable {s : State} {p : Nat} {ld : Bool} {ws : List Seq} (hwait : s.hk.waiting = .freq p ld :: ws) (hcur : s.hk.cur = none)
  (hw : s.thm.w ≠ .trip) (hph : s.thm.tripPh = 0) (hst : s.blk.st = .ready) (hrun : s.clk.coreRun = true)
include hwait hcur hw hph hst hrun

/-- Nothing holds the change at the head of the queue back. -/
theorem freqBegin_free : freqBegin s =
    if p = s.hk.point then { s with hk := { s.hk with waiting := ws, freqBusy := false, freqResult := 2 } }
    else drainAll (changeTaken s p ld ws) := by
  unfold freqBegin
  simp only [hwait]
  rw [if_neg (by simp [hcur, hw, hph, hst, hrun])]
  rfl

theorem freqBegin_drains (hp : p ≠ s.hk.point) :
    let t := freqBegin s
    t.hk.cur = some (.freq p ld) ∧ t.hk.freq = .drain ∧ t.hk.freqStart = s.time.tick ∧ t.hk.waiting = ws ∧ t.hk.point = s.hk.point ∧
      t.stack = s.stack ∧ t.pins = s.pins ∧ ∀ c, c < nChan s → (chan t c).pd ≠ .powerdown := by
  intro t
  have ht : t = drainAll (changeTaken s p ld ws) := (freqBegin_free hwait hcur hw hph hst hrun).trans (if_neg hp)
  have htaken := changeTaken_frame s p ld ws
  have hn : nChan (changeTaken s p ld ws) = nChan s := by
    rw [show changeTaken s p ld ws = _ from htaken]
    rfl
  have hframe := htaken.trans (drainAll_frame (changeTaken s p ld ws))
  rw [← ht] at hframe
  refine ⟨?_, ?_, ?_, ?_, ?_, ?_, ?_, fun c hc => by rw [ht]; exact pd_drainAll _ (hc.trans_eq hn.symm)⟩
  all_goals rw [show t = _ from hframe]

end

/-! ### Out of self-refresh (R268, R270) -/

theorem bank_setBank_other (x : Chan) {b i : Nat} (k : Bank) (h : i ≠ b) : (x.setBank b k).bank i = x.bank i := Tab.get_put_other _ _ _ _ _ h

/-- The refresh accounts of a channel's banks start afresh, bank after bank. -/
def freshBanks (s : State) (bs : List Nat) (x : Chan) : Chan := bs.foldl (fun y b => y.setBank b (freshBank s b (y.bank b))) x

theorem debt_freshBanks (s : State) (bs : List Nat) (x : Chan) {b : Nat} (hb : b ∈ bs) : ((freshBanks s bs x).bank b).debt = 0 := by
  induction bs using List.reverseRecOn with
  | nil => cases hb
  | append_singleton bs a ih =>
    have hlast : freshBanks s (bs ++ [a]) x = (freshBanks s bs x).setBank a (freshBank s a ((freshBanks s bs x).bank a)) :=
      List.foldl_append.trans rfl
    rw [hlast]
    by_cases hba : b = a
    · rw [hba, bank_setBank]
      rfl
    · rw [bank_setBank_other _ _ hba]
      exact ih (by simpa [hba] using hb)

theorem bank_reserved (es : List (Nat × Nat)) (x : Chan) (b : Nat) :
    (es.foldl (fun y e => y.both e.2 (fun h => { h with st := .reserved })) x).bank b = x.bank b :=
  List.foldlRecOn (motive := fun y : Chan => y.bank b = x.bank b) es _ rfl (fun _ hy e _ => (bank_both _ e.2 _ b).trans hy)

theorem sendRow_chanOnly (s : State) (c : Nat) (i : Instr) : ChanOnly s (sendRow s c i) c := .modChan ..

theorem sendLane_chanOnly (s : State) (c h : Nat) : ChanOnly s (sendLane s c h) c := (ChanOnly.modChan s c _).trans (sendRow_chanOnly ..)

theorem recovRow_chanOnly (s : State) (c : Nat) (alert : Bool) : ChanOnly s (recovRow s c alert) c := by
  unfold recovRow
  split
  · exact ((sendRow_chanOnly ..).trans (sendLane_chanOnly ..)).trans (sendLane_chanOnly ..)
  · exact (sendRow_chanOnly ..).trans (sendRow_chanOnly ..)

/-- The row commands of a channel that wakes. -/
def wakeRow (s : State) (c : Nat) : State :=
  let u := sendRow s c (.srx ⟨chanFin c, 0⟩ (BitVec.ofNat 2 s.hk.point))
  if (chan s c).halted then recovRow u c (alertRecov u c)
  else (pausedBanks (chan s c)).foldl (fun t e => sendRow t c (.slr ⟨chanFin c, 0⟩ (bitFin e.1) (bankFin e.2))) u

theorem wakeRow_chanOnly (s : State) (c : Nat) : ChanOnly s (wakeRow s c) c := by
  refine (sendRow_chanOnly s c (.srx ⟨chanFin c, 0⟩ (BitVec.ofNat 2 s.hk.point))).trans ?_
  unfold wakeRow
  dsimp only
  split
  · exact recovRow_chanOnly ..
  · exact List.foldlRecOn (motive := fun t => ChanOnly _ t c) (pausedBanks (chan s c)) _ (.refl _ c)
      (fun t ht e _ => ht.trans (sendRow_chanOnly t c _))

theorem wakeChan_chanOnly (s : State) (c : Nat) : ChanOnly s (wakeChan s c) c := (wakeRow_chanOnly s c).trans (.modChan ..)

/-- A channel that wakes is active, and owes no refresh. -/
theorem wakeChan_fresh (s : State) (c : Nat) :
    (chan (wakeChan s c) c).pd = .active ∧ ∀ b < 16, ((chan (wakeChan s c) c).bank b).debt = 0 := by
  unfold wakeChan
  rw [chan_modChan]
  exact ⟨rfl, fun b hb => (congrArg Bank.debt (bank_reserved _ _ b)).trans (debt_freshBanks _ _ _ (List.mem_range.2 hb))⟩

theorem wakeChan_frame (s : State) (c : Nat) : PowerFrame s (wakeChan s c) := .of_chanOnly (wakeChan_chanOnly s c)

theorem wakeStack_frame (s : State) : PowerFrame s (wakeStack s) := forN_rel PowerFrame.refl PowerFrame.trans wakeChan_frame ..

theorem wakeStack_fresh (s : State) {c : Nat} (hc : c < nChan s) :
    (chan (wakeStack s) c).pd = .active ∧ ∀ b < 16, ((chan (wakeStack s) c).bank b).debt = 0 := by
  obtain ⟨u, -, -, hmade⟩ := forN_each (v := chan) PowerFrame.refl PowerFrame.trans wakeChan_frame
    (fun t i d hd => (wakeChan_chanOnly t i).2 d hd) s hc
  rw [show chan (wakeStack s) c = _ from hmade]
  exact wakeChan_fresh u c

/-- HK after a change that has taken n ticks (R274). -/
def changeCounted (x : Hk) (n : Nat) : Hk :=
  { x with freq := .none, cur := none, freqBusy := false, freqResult := 0, freqCount := min 65535 (x.freqCount + 1), freqLast := n
           freqMax := max x.freqMax n }

theorem freqEnd_noTrip {s : State} (h : s.thm.tripWait = false) :
    freqEnd s = { s with hk := changeCounted s.hk (s.time.tick - s.hk.freqStart) } := by
  unfold freqEnd
  exact if_neg (by simp [h])

/-- The change's end: windows start anew, every channel wakes, and HK counts the change. -/
theorem freqEnd_wakes {s : State} (htrip : s.thm.tripWait = false) :
    let t := freqEnd (wakeStack (restartWindows s))
    t.hk = changeCounted s.hk (s.time.tick - s.hk.freqStart) ∧ t.winStart = s.time.cyc ∧
      ∀ c, c < nChan s → (chan t c).pd = .active ∧ ∀ b < 16, ((chan t c).bank b).debt = 0 := by
  intro t
  have hframe := wakeStack_frame (restartWindows s)
  have ht : t = _ := freqEnd_noTrip (s := wakeStack (restartWindows s)) (by rw [show wakeStack _ = _ from hframe]; exact htrip)
  rw [ht]
  refine ⟨?_, ?_, fun c hc => wakeStack_fresh (restartWindows s) hc⟩
  · rw [show wakeStack _ = _ from hframe]
    rfl
  · rw [show wakeStack _ = _ from hframe]
    rfl

/-- Settles O53: the start and its drain, the swap at the drain's end, and the wake, each channel's step apart from the others'. -/
theorem frequencyChangesRun : Obligations.FrequencyChangesRun := by
  unfold Obligations.FrequencyChangesRun
  refine ⟨fun s ld ws hwait hcur hw hph hst hrun => ⟨_, congrArg Host.Outcome.next
      ((freqBegin_free hwait hcur hw hph hst hrun).trans (if_pos rfl)), rfl, rfl⟩,
    fun s p ld ws hwait hp hcur hw hph hst hrun => ⟨_, rfl, freqBegin_drains hwait hcur hw hph hst hrun hp⟩,
    fun s hwait => congrArg Host.Outcome.next (freqBegin_idle hwait),
    fun s p ld hcur hfreq => ⟨fun ⟨c, hc, hleft⟩ => congrArg Host.Outcome.next (freqSwap_waits hcur hc hleft),
      fun hall => ⟨_, congrArg Host.Outcome.next (freqSwap_drained hcur hfreq hall), applyAll_swapAll_asleepAt s p⟩⟩,
    fun s hfreq hrun htrip => ?_, fun s h => congrArg Host.Outcome.next (if_neg ?_)⟩
  · obtain ⟨hhk, hwin, hchans⟩ := freqEnd_wakes htrip
    refine ⟨_, congrArg Host.Outcome.next (if_pos (by simp [hfreq, hrun])), ?_, ?_, ?_, ?_, ?_, ?_, ?_, hwin, hchans⟩
    all_goals rw [hhk]; rfl
  · rcases h with h | h <;> simp [h]

end Sys2Proof.Machine
end

section
/-! What the repair of a row writes beside its channel: the books, the sideband's queue and the record for the passport (R225,
R293, R295). -/

namespace Sys2Proof.Machine

/-- Channel c becomes what f makes of it, and nothing else changes but other channels, the sideband's queue and the books. -/
structure Amends (s t : State) (c : Nat) (f : Chan → Chan) : Prop where
  frame : Booked { s with chans := t.chans, link := t.link } t
  chan : chan t c = f (chan s c)

namespace Amends

variable {s t u : State} {c : Nat} {f g : Chan → Chan}

theorem trans (h : Amends s t c f) (k : Amends t u c g) : Amends s u c (g ∘ f) := by
  obtain ⟨hframe, hchan⟩ := h
  obtain ⟨kframe, kchan⟩ := k
  refine ⟨?_, kchan.trans (congrArg g hchan)⟩
  unfold Booked at hframe kframe ⊢
  rw [kframe, hframe]

theorem of_booked (h : Booked s t) (c : Nat) : Amends s t c id := by
  refine ⟨?_, chan_of_booked h c⟩
  rw [show t = _ from h]
  rfl

/-- The books are kept behind what has been done to the channel. -/
theorem booked (h : Amends s t c f) (k : Booked t u) : Amends s u c f := h.trans (.of_booked k c)

theorem of_link (h : t = { s with link := t.link }) (c : Nat) : Amends s t c id := by
  rw [h]
  exact ⟨rfl, rfl⟩

theorem modChan (s : State) (c : Nat) (f : Chan → Chan) : Amends s (modChan s c f) c f := ⟨rfl, chan_modChan ..⟩

theorem setChan (s : State) (c : Nat) (f : Chan → Chan) : Amends s (setChan s c (f (Machine.chan s c))) c f := modChan s c f

/-- HK and the ECC unit stand as before. -/
theorem keeps (h : Amends s t c f) : t.hk = s.hk ∧ t.ecc = s.ecc := by
  rw [show t = _ from h.frame]
  exact ⟨rfl, rfl⟩

end Amends

/-! ### Records for the passport (R225) -/

theorem compact_frame (s : State) : compact s = { s with link := (compact s).link } := by
  have hrecords {α : Type} (q : State → α → State) (hq : ∀ t x, q t x = { t with link := (q t x).link }) (l : List α) (t : State) :
      l.foldl q t = { t with link := (l.foldl q t).link } :=
    List.foldlRecOn (motive := fun u => u = { t with link := u.link }) l q rfl fun u hu x _ => by rw [hq, hu]
  unfold compact queueRecord
  dsimp only
  rw [sbQueue_frame, hrecords _ (fun _ _ => sbQueue_frame ..), sbQueue_frame]

theorem persist_amends (s : State) (kind ch bank spare row fails c : Nat) : Amends s (persist s kind ch bank spare row fails) c id := by
  unfold persist
  dsimp only
  split
  · exact (Amends.of_link rfl c).trans (.of_booked (booked_latch ..) c)
  · split
    · unfold queueRecord
      exact (Amends.of_link rfl c).trans (.of_link (sbQueue_frame ..) c)
    · exact (Amends.of_link rfl c).trans (.of_link (compact_frame _) c)

/-! ### Entries and spares (R293) -/

theorem booked_spareLow (n : Nat) (s : State) (c bank : Nat) : Booked s (spareLow n s c bank) := by
  unfold spareLow
  dsimp only
  split
  · exact booked_latch ..
  · exact .refl s

theorem setRemap_amends (s : State) (c e : Nat) (r : Remap) :
    Amends s (setRemap s c e r) c (fun x => { x with remap := Tab.put x.remap e r }) := by
  unfold setRemap sbWrite
  exact (Amends.modChan s c _).trans (.of_link (sbQueue_frame ..) c)

theorem retireSpare_amends (s : State) (c bank spare : Nat) :
    Amends s (retireSpare s c bank spare) c (fun x => { x with dead := x.dead ++ [(bank, spare)] }) := by
  unfold retireSpare
  exact (((Amends.modChan s c _).booked (booked_logEv ..)).booked (booked_spareLow ..)).trans (persist_amends ..)

theorem unhold_amends (s : State) (f : RowFail) :
    Amends s (unhold s f) f.ch (fun x => { x with heldRows := x.heldRows.filter (fun h => h != (f.bank, f.row)) }) :=
  .modChan ..

/-- A retired spare is free no longer. -/
theorem freeSpares_retired (x : Chan) (b i : Nat) :
    freeSpares { x with dead := x.dead ++ [(b, i)] } b = (freeSpares x b).filter (fun j => j != i) := by
  unfold freeSpares
  rw [List.filter_filter]
  refine List.filter_congr fun j _ => ?_
  by_cases hj : j = i <;> simp [hj]

/-- Where a new value is put at the place of the first one that p finds, it is now the one that p finds. -/
theorem Tab.find?_put {α : Type} {p : Nat × α → Bool} {t : Tab α} {k : Nat} {v : α} (hnew : p (k, v) = true)
    (hold : ∀ e, t.find? p = some e → e.1 = k) : (Tab.put t k v).find? p = some (k, v) := by
  induction t with
  | nil => exact List.find?_cons_of_pos hnew
  | cons a t ih =>
    obtain ⟨k', v'⟩ := a
    unfold Tab.put
    by_cases hp : p (k', v') = true
    · obtain rfl : k' = k := hold _ (List.find?_cons_of_pos hp)
      rw [if_neg (Nat.lt_irrefl _), if_pos rfl]
      exact List.find?_cons_of_pos hnew
    · rw [List.find?_cons_of_neg hp] at hold
      split
      · exact List.find?_cons_of_pos hnew
      · split
        · exact List.find?_cons_of_pos hnew
        · rw [List.find?_cons_of_neg hp]
          exact ih hold

/-- Once the entry that a row may take names it, it is the row's entry. -/
theorem remapOf_put {x : Chan} {bank row e : Nat} (h : remapSlot x bank row = some e) {m : Remap} (hb : m.bank = bank)
    (hr : m.row = row) : remapOf { x with remap := Tab.put x.remap e m } bank row = some (e, m) := by
  refine Tab.find?_put (by simp [hb, hr]) fun a ha => ?_
  have hown : remapOf x bank row = some a := ha
  simpa [remapSlot, hown] using h

end Sys2Proof.Machine
end

section
/-! Patrol visits, the ladder of a row's repair, and the end of a remap (R286, R292-R295). -/

namespace Sys2Proof.Machine

/-! ### Patrol visits (R286) -/

theorem exec_patrolVisit {s : State} {c : Fin 64} (hc : c < nChan s) : exec (.patrolVisit c) s = .next (patrolVisit s c) :=
  onChan_ready hc (fun s => patrolVisit s c)

theorem patrolVisit_idle {s : State} {c : Nat} (h : patrolRuns s = false ∨ patrolDue s (chan s c) = false) : patrolVisit s c = s :=
  if_pos (by rcases h with h | h <;> simp [h])

/-- The patrol's next place and time, in channel c. -/
def patrolMoved (s : State) (c : Nat) : State := modChan s c (fun x => { patrolNext s x with patrolAt := s.time.tick })

theorem patrolVisit_due {s : State} {c : Nat} (hrun : patrolRuns s = true) (hdue : patrolDue s (chan s c) = true)
    (hset : inScrubSet s (chan s c).patrolBank (chan s c).patrolRow = true)
    (hopen : fenced s { ch := c, bank := (chan s c).patrolBank, row := (chan s c).patrolRow, col := 0 } = false) :
    patrolVisit s c = visitCount (patrolMoved (patrolReads s c (chan s c).patrolBank (chan s c).patrolRow) c) := by
  simp only [patrolVisit, patrolMoved, hrun, hdue, hset, hopen, Bool.not_true, Bool.not_false, Bool.or_false, Bool.and_self, if_true,
    Bool.false_eq_true, if_false]

theorem visitCount_frame (s : State) : visitCount s = { s with ecc := (visitCount s).ecc } := by
  unfold visitCount
  dsimp only
  split <;> rfl

theorem chan_visitCount (s : State) (c : Nat) : chan (visitCount s) c = chan s c := by
  rw [visitCount_frame]
  rfl

section

variable (s : State) (c bank row : Nat)

theorem patrolReads_onlyChans : OnlyChans s (patrolReads s c bank row) := enqueueAll_frame ..

/-- The reads of a row wait in the requester queue of its channel. -/
theorem patrolReads_rq :
    (chan (patrolReads s c bank row) c).rq.map (fun e => (e.place, e.n, e.write, e.owner)) =
      (chan s c).rq.map (fun e => (e.place, e.n, e.write, e.owner)) ++
        [0, 8, 16, 24].map (fun k => (({ ch := c, bank := bank, row := row, col := k } : Place), 8, false, Owner.patrol)) := by
  unfold patrolReads
  rw [chan_enqueueAll, List.map_append, List.filter_eq_self.2 (by simp [newEntry])]
  rfl

theorem patrolReads_patrolBank : (chan (patrolReads s c bank row) c).patrolBank = (chan s c).patrolBank := by
  unfold patrolReads
  rw [chan_enqueueAll]

theorem patrolReads_other {d : Nat} (hd : d ≠ c) : chan (patrolReads s c bank row) d = chan s d := by
  unfold patrolReads
  rw [chan_enqueueAll, List.filter_eq_nil_iff.2 (by simp [newEntry, hd.symm]), List.append_nil]

end

theorem patrolMoved_onlyChans (s : State) (c : Nat) : OnlyChans s (patrolMoved s c) := rfl

theorem patrolMoved_rq (s : State) (c : Nat) : (chan (patrolMoved s c) c).rq = (chan s c).rq := by
  unfold patrolMoved patrolNext
  rw [chan_modChan]
  split <;> rfl

theorem patrolMoved_patrolBank (s : State) (c : Nat) :
    (chan (patrolMoved s c) c).patrolBank = if (chan s c).patrolBank < 15 then (chan s c).patrolBank + 1 else 0 := by
  unfold patrolMoved patrolNext
  rw [chan_modChan]
  split <;> rfl

theorem patrolMoved_patrolAt (s : State) (c : Nat) : (chan (patrolMoved s c) c).patrolAt = s.time.tick := by
  unfold patrolMoved
  rw [chan_modChan]

/-- Channels change first, and then the ECC unit. -/
theorem OnlyChans.thenEcc {s t u : State} (h : OnlyChans s t) (k : u = { t with ecc := u.ecc }) :
    u = { s with chans := u.chans, ecc := u.ecc } := by
  unfold OnlyChans at h
  rw [k, h]

/-- A due visit of an open row of the scrub set: its reads wait, and the patrol's place and time move on. -/
theorem patrolVisit_visits {s : State} {c : Nat} (hrun : patrolRuns s = true) (hdue : patrolDue s (chan s c) = true)
    (hset : inScrubSet s (chan s c).patrolBank (chan s c).patrolRow = true)
    (hopen : fenced s { ch := c, bank := (chan s c).patrolBank, row := (chan s c).patrolRow, col := 0 } = false) :
    let t := patrolVisit s c
    (chan t c).rq.map (fun e => (e.place, e.n, e.write, e.owner)) = (chan s c).rq.map (fun e => (e.place, e.n, e.write, e.owner)) ++
        [0, 8, 16, 24].map (fun k => (({ ch := c, bank := (chan s c).patrolBank, row := (chan s c).patrolRow, col := k } : Place), 8,
          false, Owner.patrol)) ∧
      (chan t c).patrolBank = (if (chan s c).patrolBank < 15 then (chan s c).patrolBank + 1 else 0) ∧
      (chan t c).patrolAt = s.time.tick ∧ t = { s with chans := t.chans, ecc := t.ecc } ∧ ∀ d, d ≠ c → chan t d = chan s d := by
  have hreads := patrolReads_onlyChans s c (chan s c).patrolBank (chan s c).patrolRow
  simp only [patrolVisit_due hrun hdue hset hopen, chan_visitCount]
  refine ⟨?_, ?_, ?_, (hreads.trans (patrolMoved_onlyChans ..)).thenEcc (visitCount_frame _), fun d hd => ?_⟩
  · rw [patrolMoved_rq, patrolReads_rq]
  · rw [patrolMoved_patrolBank, patrolReads_patrolBank]
  · rw [patrolMoved_patrolAt, hreads.times.1]
  · rw [patrolMoved, chan_modChan_other _ _ _ _ hd, patrolReads_other _ _ _ _ hd]

/-! ### The ladder (R293-R295) -/

/-- The number of the failure that a row's entry, if it has one, leads to (R293). -/
def failureNumber : Option (Nat × Remap) → Nat
  | some (_, r) => r.fails + 1
  | none => 1

/-- HK has taken the first row failure of its queue. -/
def failureTaken (s : State) (ws : List Seq) (fs : List RowFail) : State :=
  { s with hk := { s.hk with waiting := ws }, ecc := { s.ecc with queue := fs } }

/-- HK has taken a row failure, and copies the row to the spare sp for entry e: the row is held (R294). -/
def remapStarted (s : State) (ws : List Seq) (f : RowFail) (fs : List RowFail) (e sp n : Nat) : State :=
  let t := modChan (failureTaken s ws fs) f.ch (fun x => { x with heldRows := x.heldRows ++ [(f.bank, f.row)] })
  let r : Repair := { row := f, entry := e, spare := sp, fails := n, tries := 0, ph := .quiet, got := [], checked := 0, bad := false }
  { t with hk := { t.hk with cur := some .repair }, ecc := { t.ecc with repair := some r } }

theorem heldRows_remapStarted (s : State) (ws : List Seq) (f : RowFail) (fs : List RowFail) (e sp n : Nat) :
    (chan (remapStarted s ws f fs e sp n) f.ch).heldRows = (chan s f.ch).heldRows ++ [(f.bank, f.row)] :=
  congrArg Chan.heldRows (chan_modChan (failureTaken s ws fs) f.ch
    (fun x => { x with heldRows := x.heldRows ++ [(f.bank, f.row)] }))

section

variable {s : State} {ws : List Seq} {f : RowFail} {fs : List RowFail} {e : Nat}

/-- A row failure that HK may take, and whose row has an entry or may take one: the bank's free spares and the number of the failure
decide. -/
theorem repairStart_ready (hw : s.hk.waiting = .repair :: ws) (hq : s.ecc.queue = f :: fs) (hready : repairReady s f = true)
    (hslot : remapSlot (chan s f.ch) f.bank f.row = some e) :
    repairStart s =
      let n := failureNumber (remapOf (chan s f.ch) f.bank f.row)
      match freeSpares (chan s f.ch) f.bank with
      | sp :: _ =>
        if 3 ≤ n then fenceRow (failureTaken s ws fs) f e n
        else if !remapMay s f then s else remapStarted s ws f fs e sp n
      | [] => fenceRow (failureTaken s ws fs) f e n := by
  unfold repairStart
  simp only [hw, hq, hready, hslot, Bool.not_true, Bool.false_eq_true, if_false]
  rfl

theorem repairStart_remaps (hw : s.hk.waiting = .repair :: ws) (hq : s.ecc.queue = f :: fs) (hready : repairReady s f = true)
    (hslot : remapSlot (chan s f.ch) f.bank f.row = some e) (hn : failureNumber (remapOf (chan s f.ch) f.bank f.row) < 3)
    {sp : Nat} {sps : List Nat} (hfree : freeSpares (chan s f.ch) f.bank = sp :: sps) :
    repairStart s = if remapMay s f then
      remapStarted s ws f fs e sp (failureNumber (remapOf (chan s f.ch) f.bank f.row)) else s := by
  rw [repairStart_ready hw hq hready hslot, hfree]
  dsimp only
  rw [if_neg (Nat.not_le.2 hn)]
  cases remapMay s f <;> rfl

theorem repairStart_fences (hw : s.hk.waiting = .repair :: ws) (hq : s.ecc.queue = f :: fs) (hready : repairReady s f = true)
    (hslot : remapSlot (chan s f.ch) f.bank f.row = some e)
    (hspent : freeSpares (chan s f.ch) f.bank = [] ∨ 3 ≤ failureNumber (remapOf (chan s f.ch) f.bank f.row)) :
    repairStart s = fenceRow (failureTaken s ws fs) f e (failureNumber (remapOf (chan s f.ch) f.bank f.row)) := by
  rw [repairStart_ready hw hq hready hslot]
  cases hfree : freeSpares (chan s f.ch) f.bank with
  | nil => rfl
  | cons sp sps => exact if_pos (hspent.resolve_left (by simp [hfree]))

end

/-! ### Fences (R295) -/

/-- A channel with no command and no Liner entry loses write-backs alone when a row of it is fenced. -/
theorem fenceQueues_amends {s : State} {f : RowFail} (hcmd : (chan s f.ch).cmdq = []) (hliner : (chan s f.ch).liner = []) :
    Amends s (fenceQueues s f) f.ch (fun x => { x with cmdq := [], liner := [], wbs := x.wbs.filter (fun w => !f.holds w.place) }) := by
  unfold fenceQueues
  simp only [hcmd, hliner, List.filter_nil, List.flatMap_nil, List.foldl_nil, List.any_nil, Bool.or_false, bne_self_eq_false,
    Bool.false_eq_true, if_false]
  exact .setChan s f.ch (fun x => { x with cmdq := [], liner := [], wbs := x.wbs.filter (fun w => !f.holds w.place) })

/-- What the entry of a row that is fenced holds (R295). -/
def RowFail.fence (f : RowFail) (n : Nat) : Remap := { fenced := true, fails := n, bank := f.bank, row := f.row, spare := 0 }

/-- A row's fence in entry e, once the spare that held the row has been retired. -/
def fenceWritten (s : State) (f : RowFail) (e n : Nat) : State :=
  let s := setRemap s f.ch e (f.fence n)
  let s := fenceQueues (unhold s f) f
  let s := logEv (latch s (chPage f.ch) 2) 0x0301 (chPage f.ch) .error (placeForm f.bank f.row)
  persist (bumpReg s pgEcc 0x054 16 16 1) 2 f.ch f.bank 0xFF f.row n

/-- The fence follows at once, or behind the retirement of a spare. -/
theorem fenceRow_cases (s : State) (f : RowFail) (e n : Nat) :
    fenceRow s f e n = fenceWritten s f e n ∨ ∃ i, fenceRow s f e n = fenceWritten (retireSpare s f.ch f.bank i) f e n := by
  unfold fenceRow
  dsimp only
  split
  · next r _ =>
    split
    · exact .inl rfl
    · exact .inr ⟨r.spare, rfl⟩
  · exact .inl rfl

theorem fenceWritten_amends {s : State} {f : RowFail} (e n : Nat) (hcmd : (chan s f.ch).cmdq = []) (hliner : (chan s f.ch).liner = []) :
    ∃ g, Amends s (fenceWritten s f e n) f.ch g ∧ ∀ x, (g x).remap = Tab.put x.remap e (f.fence n) := by
  have hset := (setRemap_amends s f.ch e (f.fence n)).trans (unhold_amends _ f)
  have hlost := hset.trans (fenceQueues_amends (by rw [hset.chan]; exact hcmd) (by rw [hset.chan]; exact hliner))
  exact ⟨_, (((hlost.booked (booked_latch ..)).booked (booked_logEv ..)).booked (booked_bumpReg ..)).trans (persist_amends ..),
    fun _ => rfl⟩

/-- A row that is fenced has its entry, and what HK and the ECC unit hold stays. -/
theorem fenceRow_fences {s : State} {f : RowFail} {e : Nat} (n : Nat) (hslot : remapSlot (chan s f.ch) f.bank f.row = some e)
    (hcmd : (chan s f.ch).cmdq = []) (hliner : (chan s f.ch).liner = []) :
    (fenceRow s f e n).hk = s.hk ∧ (fenceRow s f e n).ecc = s.ecc ∧
      remapOf (chan (fenceRow s f e n) f.ch) f.bank f.row = some (e, f.fence n) := by
  have hfence : ∃ g, Amends s (fenceRow s f e n) f.ch g ∧ (g (chan s f.ch)).remap = Tab.put (chan s f.ch).remap e (f.fence n) := by
    rcases fenceRow_cases s f e n with hrow | ⟨i, hrow⟩ <;> rw [hrow]
    · obtain ⟨g, hg, hremap⟩ := fenceWritten_amends e n hcmd hliner
      exact ⟨g, hg, hremap _⟩
    · have hold := retireSpare_amends s f.ch f.bank i
      obtain ⟨g, hg, hremap⟩ := fenceWritten_amends (s := retireSpare s f.ch f.bank i) e n (by rw [hold.chan]; exact hcmd)
        (by rw [hold.chan]; exact hliner)
      exact ⟨_, hold.trans hg, hremap _⟩
  obtain ⟨g, hg, hremap⟩ := hfence
  obtain ⟨hhk, hecc⟩ := hg.keeps
  refine ⟨hhk, hecc, ?_⟩
  rw [hg.chan, remapOf, hremap]
  exact remapOf_put hslot rfl rfl

/-! ### The end of a remap (R294, R295, Table 11-5) -/

section

variable {s : State} {r : Repair}

theorem remapTry_waits (hr : s.ecc.repair = some r)
    (h : r.ph ≠ .verify ∨ r.checked < 32 ∨ inRecovery s (.ch, r.row.ch) = true ∨ s.thm.tripPh ≠ 0) : remapTry s = s := by
  unfold remapTry
  rw [hr]
  exact if_pos (by rcases h with h | h | h | h <;> simp [h])

/-- With every sector read back, the repair goes by what the verify has found. -/
theorem remapTry_judges (hr : s.ecc.repair = some r) (hph : r.ph = .verify) (hall : 32 ≤ r.checked)
    (hrec : inRecovery s (.ch, r.row.ch) = false) (htrip : s.thm.tripPh = 0) :
    remapTry s = if r.bad then remapAgain s r else remapDone s r := by
  unfold remapTry
  rw [hr]
  exact if_neg (by simp [hph, hrec, htrip, hall])

end

/-- What the entry of a remapped row holds: it names the spare (Table 11-5). -/
def Repair.named (r : Repair) : Remap := { fenced := false, fails := r.fails, bank := r.row.bank, row := r.row.row, spare := r.spare }

/-- The row's entry names the spare, and the stack is told. -/
def spareNamed (s : State) (r : Repair) : State :=
  let f := r.row
  spareLow (freeSpares (chan s f.ch) f.bank).length
    (setRemap (modChan s f.ch (fun c => { c with noSlice := c.noSlice ++ [f.bank] })) f.ch r.entry r.named) f.ch f.bank

/-- What follows once the spare that held the row has been retired. -/
def remapNoted (s : State) (r : Repair) : State :=
  let f := r.row
  let s := logEv (latch (unhold s f) (chPage f.ch) 4) 0x0300 (chPage f.ch) .notice (placeForm f.bank f.row)
  persist (bumpReg s pgEcc 0x054 0 16 1) 1 f.ch f.bank r.spare f.row r.fails

/-- The old spare, if the row had one, is retired between the two. -/
theorem remapDone_cases (s : State) (r : Repair) :
    remapDone s r = repairOver (remapNoted (spareNamed s r) r) ∨
      ∃ i, remapDone s r = repairOver (remapNoted (retireSpare (spareNamed s r) r.row.ch r.row.bank i) r) := by
  unfold remapDone
  dsimp only
  split
  · next o _ => exact .inr ⟨o.spare, rfl⟩
  · exact .inl rfl

theorem spareNamed_amends (s : State) (r : Repair) :
    Amends s (spareNamed s r) r.row.ch (fun x => { x with
      noSlice := x.noSlice ++ [r.row.bank], remap := Tab.put x.remap r.entry r.named }) :=
  ((Amends.modChan ..).trans (setRemap_amends ..)).booked (booked_spareLow ..)

theorem remapNoted_amends (s : State) (r : Repair) :
    Amends s (remapNoted s r) r.row.ch
      (fun x => { x with heldRows := x.heldRows.filter (fun h => h != (r.row.bank, r.row.row)) }) :=
  ((((unhold_amends s r.row).booked (booked_latch ..)).booked (booked_logEv ..)).booked (booked_bumpReg ..)).trans (persist_amends ..)

/-- A remap that has taken effect: the entry names the spare, and the row is held no longer. -/
theorem chan_remapDone (s : State) (r : Repair) :
    (chan (remapDone s r) r.row.ch).remap = Tab.put (chan s r.row.ch).remap r.entry r.named ∧
      (chan (remapDone s r) r.row.ch).heldRows = (chan s r.row.ch).heldRows.filter (fun h => h != (r.row.bank, r.row.row)) := by
  have hover (t : State) : chan (repairOver t) r.row.ch = chan t r.row.ch := rfl
  have hnamed := spareNamed_amends s r
  rcases remapDone_cases s r with hdone | ⟨i, hdone⟩
  · rw [hdone, hover, (hnamed.trans (remapNoted_amends _ r)).chan]
    exact ⟨rfl, rfl⟩
  · rw [hdone, hover, ((hnamed.trans (retireSpare_amends ..)).trans (remapNoted_amends _ r)).chan]
    exact ⟨rfl, rfl⟩

/-- The repair with its copy begun anew, to the spare sp (Table 11-5, step 5). -/
def Repair.again (r : Repair) (sp : Nat) : Repair :=
  { r with spare := sp, tries := 1, ph := .quiet, got := [], checked := 0, bad := false }

/-- The ECC unit works on a repair. -/
def repairSet (s : State) (r : Repair) : State := { s with ecc := { s.ecc with repair := some r } }

theorem chan_repairSet (s : State) (r : Repair) (c : Nat) : chan (repairSet s r) c = chan s c := rfl

/-- The first copy that reads back wrong retires its spare, and is made again to the next one. -/
theorem remapAgain_first {s : State} {r : Repair} (htries : r.tries = 0) {sp : Nat} {sps : List Nat}
    (hfree : (freeSpares (chan s r.row.ch) r.row.bank).filter (fun i => i != r.spare) = sp :: sps) :
    remapAgain s r = repairSet (retireSpare s r.row.ch r.row.bank r.spare) (r.again sp) := by
  have hnext : freeSpares (chan (retireSpare s r.row.ch r.row.bank r.spare) r.row.ch) r.row.bank = sp :: sps := by
    rw [(retireSpare_amends ..).chan, freeSpares_retired, hfree]
  unfold remapAgain
  dsimp only
  rw [hnext]
  exact if_pos htries

/-! ### The obligation -/

/-- Settles O46: each event's condition leaves one branch of its meaning, and what a repair writes beside its channel is books and
sideband work. -/
theorem scrubAndRepair : Obligations.ScrubAndRepair := by
  unfold Obligations.ScrubAndRepair
  refine ⟨⟨fun s c hc h => ?_, fun s c hc hrun hdue hset hopen => ?_,
      fun s f fs ws e n sp sps hw hq hready hfails hn hslot hfree => ?_,
      fun s f fs ws e n hw hq hready hfails hslot hspent hcmd hliner => ?_⟩,
    fun s r hr => ⟨fun h => congrArg Host.Outcome.next (remapTry_waits hr h), fun hph hall hrec htrip => ?_⟩⟩
  · rw [exec_patrolVisit hc, patrolVisit_idle h]
  · exact ⟨_, exec_patrolVisit hc, patrolVisit_visits hrun hdue hset hopen⟩
  · subst hfails
    have hstart := repairStart_remaps hw hq hready hslot hn hfree
    refine ⟨fun hmay => congrArg Host.Outcome.next (hstart.trans (by simp [hmay])), fun hmay => ⟨_, congrArg Host.Outcome.next
      (hstart.trans (if_pos hmay)), rfl, rfl, rfl, rfl, heldRows_remapStarted .., rfl⟩⟩
  · subst hfails
    obtain ⟨hhk, hecc, hentry⟩ := fenceRow_fences (s := failureTaken s ws fs)
      (failureNumber (remapOf (chan s f.ch) f.bank f.row)) hslot hcmd hliner
    refine ⟨_, congrArg Host.Outcome.next (repairStart_fences hw hq hready hslot hspent), ?_, ?_, hentry,
      memoryKept_of_mem (fenceRow_mem ..)⟩
    · rw [hhk]
      rfl
    · rw [hecc]
      rfl
  · have hjudged := remapTry_judges hr hph hall hrec htrip
    refine ⟨fun hbad => ?_, fun hbad htries sp sps hfree => ?_⟩
    · obtain ⟨hremap, hheld⟩ := chan_remapDone s r
      refine ⟨_, congrArg Host.Outcome.next (hjudged.trans (by rw [hbad]; rfl)), ?_, hheld, rfl, rfl,
        memoryKept_of_mem (remapDone_mem ..)⟩
      rw [hremap, Tab.find_put_self]
      rfl
    · refine ⟨_, congrArg Host.Outcome.next (hjudged.trans (if_pos hbad)), ?_, ?_, memoryKept_of_mem (remapAgain_mem ..)⟩
      · rw [remapAgain_first htries hfree]
        rfl
      · rw [remapAgain_first htries hfree, chan_repairSet, (retireSpare_amends ..).chan]

end Sys2Proof.Machine
end

section
/-! Every step keeps the pins in step with the states that drive them (R39, R316, R352). -/

namespace Sys2Proof.Machine

/-- A step keeps the pins and identities sound: time leaves them alone, and every command keeps them. -/
theorem step_ksound {s t : State} (h : KSound (key s)) (e : step s = .next t) : KSound (key t) := by
  unfold step at e
  split at e
  · obtain rfl : tick s = t := Host.Outcome.next.inj e
    rwa [tick_key]
  · next c rest _ => exact ((exec_carries c { s with pending := rest }).of_next e).sound h

/-- Settles O5: in a sound state the pin is low in TRIP only, and every step keeps a state sound. -/
theorem thermTripFollowsItsState : Obligations.ThermTripFollowsItsState := by
  unfold Obligations.ThermTripFollowsItsState
  intro s t hpins hids e
  obtain ⟨hpins', hids'⟩ := (ksound_key t).1 (step_ksound ((ksound_key s).2 ⟨hpins, hids⟩) e)
  obtain ⟨-, htrip, -⟩ := id hpins'
  exact ⟨hpins', hids', htrip⟩

end Sys2Proof.Machine
end

section
/-! Transactions with the power stage (R321-R323, Table 12-6). -/

namespace Sys2Proof.Machine

/-! ### Books over an update -/

/-- A cause that latches behind an operation is set, and leaves what bookkeeping leaves. -/
theorem booked_pwr {s t : State} {p : Pwr} (h : Booked { s with pwr := p } t) : t.pwr = p ∧ Booked { s with pwr := t.pwr } t := by
  have hp : t.pwr = p := by rw [show t = _ from h]
  exact ⟨hp, hp ▸ h⟩

/-! ### The power stage (R321, R323) -/

/-- The bus voltage's judgement after a reading of mv, where it stood at `out` (R323). -/
def vinOutAfter (mv : Nat) (out : Bool) : Bool :=
  if mv < 34000 ∨ 46000 < mv then true else if 34500 ≤ mv ∧ mv ≤ 45500 then false else out

theorem vinCheck_booked (s : State) (mv : Nat) :
    Booked { s with pwr := { s.pwr with vinOut := vinOutAfter mv s.pwr.vinOut } } (vinCheck s mv) := by
  unfold vinCheck vinOutAfter
  split
  · dsimp only
    split
    · rfl
    · have h := booked_latch s pgPwr 1
      rw [show latch s pgPwr 1 = _ from h]
      rfl
  · split <;> rfl

theorem pmbEnd_fail_facts (s : State) : 
    let t := pmbEnd s .fail
    t.pwr = { s.pwr with pmbOk := false } ∧ (reg t pgPwr 0x010).getLsbD 4 = true ∧ Booked { s with pwr := t.pwr } t := by
  intro t
  have hb : Booked { s with pwr := { s.pwr with pmbOk := false } } t := (booked_bumpReg ..).trans (booked_latch ..)
  obtain ⟨hp, hbook⟩ := booked_pwr hb
  exact ⟨hp, latch_bit _ _ _ (by decide), hbook⟩

theorem avsEnd_fail_facts (s : State) : 
    let t := avsEnd s .fail
    t.pwr = { s.pwr with avsOk := false, vddNext := none } ∧ (reg t pgPwr 0x010).getLsbD 5 = true ∧ Booked { s with pwr := t.pwr } t := by
  intro t
  have hb : Booked { s with pwr := { s.pwr with avsOk := false, vddNext := none } } t := booked_latch ..
  obtain ⟨hp, hbook⟩ := booked_pwr hb
  exact ⟨hp, latch_bit _ _ _ (by decide), hbook⟩

/-- A warning of STATUS_WORD holds for the rest of the round (R310). -/
def warningSeen (s : State) (w : BitVec 16) : State :=
  { s with thm := { s.thm with statusSeen := w.getLsbD 2 || w.getLsbD 14 || s.thm.statusSeen } }

/-- STATUS_WORD is kept and lets PMB_ALERT_N rise, behind the books of its causes. -/
theorem statusRead_eq (s : State) (w : BitVec 16) : ∃ u, Booked (warningSeen s w) u ∧
    statusRead s w = { u with pwr := { u.pwr with status := w, pmbOk := true }, pins := { u.pins with pmbAlertN := true } } := by
  have hwarn : Booked (warningSeen s w)
      (if w.getLsbD 2 || w.getLsbD 14 then latch { s with thm := { s.thm with statusSeen := true } } pgPwr 2 else s) := by
    cases h : w.getLsbD 2 || w.getLsbD 14
    · rw [warningSeen, h]
      exact .refl s
    · rw [warningSeen, h]
      exact booked_latch ..
  unfold statusRead
  dsimp only
  refine ⟨_, ?_, rfl⟩
  exact (hwarn.trans (.ite (.refl _) (booked_latch ..))).andIf (booked_logEv ..)

theorem statusRead_facts (s : State) (w : BitVec 16) :
    let t := statusRead s w
    t.pwr.status = w ∧ t.pins = { s.pins with pmbAlertN := true } ∧ (w.getLsbD 2 = true ∨ w.getLsbD 14 = true → t.thm.statusSeen = true) := by
  intro t
  obtain ⟨u, hu, ht⟩ := statusRead_eq s w
  rw [show t = _ from ht, show u = _ from hu]
  exact ⟨rfl, rfl, fun h => by simpa [warningSeen] using .inl h⟩

/-! ### The core rail (R322, R327) -/

/-- PWR_OVERRIDE follows, behind the books of what it overrides (R327). -/
theorem overrides_booked (s : State) : ∃ pl vdd, Booked { s with pwr := { s.pwr with ovPl := pl, ovVdd := vdd } } (overrides s) := by
  have hover : ∀ (t : State) (vdd : Bool) (m n : Nat), Booked t (overridden t vdd m n) := fun t vdd m n =>
    (booked_logEv ..).trans ((booked_bumpReg ..).trans (booked_latch ..))
  have hput : ∀ t, Booked s t → ∀ pl vdd, Booked { s with pwr := { s.pwr with ovPl := pl, ovVdd := vdd } }
      { t with pwr := { t.pwr with ovPl := pl, ovVdd := vdd } } := by
    intro t ht pl vdd
    rw [show t = _ from ht]
    rfl
  exact ⟨_, _, hput _ (.andIf (.andIf (.refl s) (hover ..)) (hover ..)) _ _⟩

/-- The rail at the voltage that has been written to it. -/
def voltageWritten (s : State) : State :=
  { s with pwr := { s.pwr with avsOk := true, vddCur := s.pwr.vddNext.getD s.pwr.vddCur, vddNext := none } }

/-- A voltage write makes the setting the rail's (R322). -/
theorem avsEnd_written {s : State} {n : Nat} (h : s.pwr.vddNext = some n) :
    (avsEnd s .written).pwr.vddCur = n ∧ (avsEnd s .written).pwr.vddNext = none ∧ (avsEnd s .written).pins = s.pins := by
  obtain ⟨pl, vdd, hbook⟩ := overrides_booked (voltageWritten s)
  rw [show avsEnd s .written = _ from hbook]
  exact ⟨congrArg (fun o => o.getD s.pwr.vddCur) h, rfl, rfl⟩

/-! ### The settled statement -/

/-- Settles O50: the end of each transaction writes PWR's own record, and books what it latches. -/
theorem powerStageTransactionsEnd : Obligations.PowerStageTransactionsEnd := by
  unfold Obligations.PowerStageTransactionsEnd
  refine ⟨fun s v => ⟨_, rfl, ?_⟩, fun s v => ⟨⟨_, rfl, rfl, rfl⟩, ⟨_, rfl, rfl, rfl⟩, ⟨_, rfl, rfl, rfl⟩⟩,
    fun s w => ⟨_, rfl, statusRead_facts (pmbDone s 4) w⟩, fun s => ⟨_, rfl, pmbEnd_fail_facts s⟩, fun _ => rfl, fun s => ⟨_, rfl, rfl⟩,
    fun s n hnext => ⟨_, rfl, ?_⟩, fun s v => ⟨⟨_, rfl, rfl⟩, ⟨_, rfl, rfl⟩, ⟨_, rfl, rfl⟩⟩, fun s => ⟨_, rfl, avsEnd_fail_facts s⟩⟩
  · obtain ⟨hp, hbook⟩ := booked_pwr (vinCheck_booked (pmbDone { s with pwr := { s.pwr with vin := v } } 0) v.toNat)
    exact ⟨congrArg Pwr.vin hp, congrArg Pwr.vinOut hp, hbook⟩
  · exact avsEnd_written hnext

end Sys2Proof.Machine
end

section
/-! Writes and reads of some named registers (R343, R346, R370, R392, R404). -/

namespace Sys2Proof.Machine

/-! ### LOG_MARK and BLK_RESET (R346, R370) -/

/-- LOG_MARK has a field on every part. -/
theorem fieldsAt_logMark (s : State) : (fieldsAt s (.log, 0) 0x080).isEmpty = false := by
  have hfs : fieldsAt s (.log, 0) 0x080 = fieldsAt State.reset (.log, 0) 0x080 := rfl
  rw [hfs]
  decide +kernel

theorem regWrite_logMark (s : State) (p : Nat) (v : Word) (id : Option Nat) : regWrite s p pgLog 0x080 v id =
    logEv (setReg s pgLog 0x080 (writeFields (fieldsAt s (.log, 0) 0x080) (reg s pgLog 0x080) v)) 0x0F00 pgLog .info v := by
  have hstored : ((fieldsAt s (.log, 0) 0x080).isEmpty || hookOnly (.log, 0) 0x080) = false := by
    rw [fieldsAt_logMark]
    rfl
  have hunit : unitOf s pgLog = some (.log, 0) := rfl
  simp only [regWrite, hunit, hstored]
  rfl

/-- A write of BLK_RESET acts once its word is stored. -/
theorem regWrite_blkReset (s : State) (p : Nat) (v : Word) (id : Option Nat) :
    ∃ w, regWrite s p pgBlk 0x04C v id = blkReset { s with regs := w } v := by
  by_cases h : ((fieldsAt s (.blk, 0) 0x04C).isEmpty || hookOnly (.blk, 0) 0x04C) = true
  · exact ⟨s.regs, congrArg (fun t => blkReset t v) (if_pos h)⟩
  · exact ⟨_, congrArg (fun t => blkReset t v) (if_neg h)⟩

/-! ### The counters of the PMU (R392) -/

/-- A write among the counters stores no word, and goes to its counter. -/
theorem regWrite_counters (s : State) (p : Nat) {off : Nat} (hlo : 0x400 ≤ off) (hhi : off < 0x400 + 8 * 368) (v : Word) (id : Option Nat) :
    regWrite s p pgPmu off v id = counterWrite s p ((off - 0x400) / 8) (off % 8 == 4) v := by
  have hunit : unitOf s pgPmu = some (.pmu, 0) := rfl
  have hhook : hookOnly (.pmu, 0) off = true := by simp [hookOnly, hlo]
  have hrow : writeHook s p (.pmu, 0) off (reg s pgPmu off) v id = counterWrite s p ((off - 0x400) / 8) (off % 8 == 4) v := by
    unfold writeHook
    rw [if_neg (by omega), if_neg (by omega), if_neg (by omega), if_neg (by omega)]
    split
    any_goals contradiction
    exact if_pos ⟨hlo, hhi⟩
  simp only [regWrite, hunit, hhook, Bool.or_true, if_true]
  exact hrow

section

variable {s : State} {i : Fin 368} (hi : counterExists s i = true)
include hi

theorem counterWrite_lo (p : Nat) (v : Word) : counterWrite s p i false v =
    modPort (setCounter s i ((port s p).cntStage.getD 0#16 ++ v)) p (fun x => { x with cntStage := none }) := by
  simp [counterWrite, hi]

theorem counterWrite_hi (p : Nat) (v : Word) :
    counterWrite s p i true v = modPort s p (fun x => { x with cntStage := some (field v 0 16) }) := by
  simp [counterWrite, hi]

end

/-! ### Stops (R404) -/

/-- RUN = 0 asks a running octant to stop, and no other (R404). -/
theorem regWrite_octRun_zero {s : State} {k : Nat} (hk : k < nOct s) (hrun : (oct s k).run = .running) (p : Nat) (id : Option Nat) :
    (oct (regWrite s p (octPage k) 0x004 0 id) k).run = .stopReq ∧
      ∀ j, j ≠ k → oct (regWrite s p (octPage k) 0x004 0 id) j = oct s j := by
  have hwrite : ∃ w, regWrite s p (octPage k) 0x004 0 id = modOct { s with regs := w } k (fun o =>
      { o with run := if o.run = .running then .stopReq else o.run }) := by
    simp only [regWrite, unitOf_octPage hk]
    split
    · exact ⟨s.regs, rfl⟩
    · exact ⟨_, rfl⟩
  obtain ⟨w, hw⟩ := hwrite
  rw [hw]
  refine ⟨?_, fun j hj => oct_setOct_other _ _ _ _ hj⟩
  rw [oct_modOct]
  exact if_pos hrun

/-! ### The settled statement -/

/-- Settles O14: each named register has one action of its own, which its stored word does not touch. -/
theorem namedRegistersAct : Obligations.NamedRegistersAct := by
  unfold Obligations.NamedRegistersAct
  intro s p v id
  refine ⟨regWrite_logMark s p v id, fun i hi => ⟨?_, ?_⟩, fun k hk hrun => regWrite_octRun_zero hk hrun p id, fun hkey hgo => ?_, rfl⟩
  · have hplace : (0x400 + 8 * i.val - 0x400) / 8 = i.val ∧ ((0x400 + 8 * i.val) % 8 == 4) = false := ⟨by omega, by simp⟩
    rw [regWrite_counters s p (by omega) (by omega), hplace.1, hplace.2, counterWrite_lo hi]
  · have hplace : (0x404 + 8 * i.val - 0x400) / 8 = i.val ∧ ((0x404 + 8 * i.val) % 8 == 4) = true := ⟨by omega, by simp⟩
    rw [regWrite_counters s p (by omega) (by omega), hplace.1, hplace.2, counterWrite_hi hi]
  · obtain ⟨w, hw⟩ := regWrite_blkReset s p v id
    rw [hw, blkReset, if_pos (by simp [hkey, bit31, hgo])]

end Sys2Proof.Machine
end

section
/-! The reference test and the PLL's lock (R329, R330, R332). -/

namespace Sys2Proof.Machine

/-! ### Windows of the reference test (R329) -/

section

variable {s : State} (htest : refTesting s = true) (hfull : ∀ w, s.clk.phase ≠ .refCheck w)
include htest hfull

/-- A window of the full test is judged by its count alone. -/
theorem exec_refclkWindowEnd_full (n : Nat) : exec (.refclkWindowEnd n) s = .next
    (if 157287 ≤ n ∧ n ≤ 170393 then refPassed { s with clk := { s.clk with lastCount := n, refPresent := true } } n
     else refFailed { s with clk := { s.clk with lastCount := n, refPresent := true } }) := by
  have hdone : refWindowDone s n =
      if 157287 ≤ n ∧ n ≤ 170393 then refPassed { s with clk := { s.clk with lastCount := n, refPresent := true } } n
      else refFailed { s with clk := { s.clk with lastCount := n, refPresent := true } } := by
    unfold refWindowDone
    dsimp only
    split
    · next w hw => exact absurd hw (hfull w)
    · simp only [decide_eq_true_eq]
  rw [← hdone]
  exact congrArg Host.Outcome.next (if_pos (by simp [htest]))

end

/-- A window that passes is the eighth, or one of those before it. -/
theorem refPassed_counts (s : State) (n : Nat) :
    let t := refPassed s n
    t.clk.passed = s.clk.passed + 1 ∧ t.clk.sum = s.clk.sum + n ∧
      (s.clk.passed = 7 → t.clk.refOk = true ∧ t.clk.ratio = (s.clk.sum + n) / 8) ∧
      (s.clk.passed < 7 → t.clk.refOk = s.clk.refOk) ∧ t = { s with clk := t.clk } := by
  intro t
  by_cases h : s.clk.passed + 1 < 8
  · rw [show t = _ from if_pos h]
    exact ⟨rfl, rfl, fun h7 => by omega, fun _ => rfl, rfl⟩
  · rw [show t = _ from if_neg h]
    exact ⟨rfl, rfl, fun _ => ⟨rfl, rfl⟩, fun h7 => by omega, rfl⟩

/-! ### The PLL's lock (R330, R332) -/

theorem chan_restartWindows (s : State) (c : Nat) :
    chan (restartWindows s) c = { chan s c with slotIdx := 0, counts := Counts.zero } := by
  have hfind := find_map_val s.chans (fun x => { x with slotIdx := 0, counts := Counts.zero }) c
  unfold chan Tab.get
  rw [show Tab.find (restartWindows s).chans c = _ from hfind]
  cases Tab.find s.chans c <;> rfl

/-- The clocks after a try that has not locked. -/
def pllTried (s : State) : State := { s with clk := { s.clk with tries := s.clk.tries + 1 } }

section

variable {s : State} (hst : s.blk.st = .boot) (hstep : s.blk.step = 3) (hpll : s.clk.onPll = false) (hphase : s.clk.phase = .none)
include hst hstep hpll hphase

/-- The first lock of a boot sets the windows' start and the clocks, and wakes no stack. -/
theorem pllLocked_boot : pllLocked s = { restartWindows s with
    pins := { s.pins with wckRun := s.pins.stkPgood }
    clk := { s.clk with pllLock := true, onPll := true, coreRun := true, phase := .none, tries := 0, swDomain := 98, swForced := false } } := by
  simp only [pllLocked, hst, hstep, hpll, hphase]
  rfl

theorem pllLate_boot : pllLate s =
    if 3 ≤ s.clk.tries + 1 then haltWith { s with clk := { s.clk with tries := s.clk.tries + 1, phase := .none } } 1
    else pllTried s := by
  have hagain : (s.clk.phase == PllPhase.locking) = false := by simp [hphase]
  unfold pllLate
  dsimp only
  rw [hagain, if_neg (by simp [hst, hstep, hpll]), if_neg (by simp [hst])]
  rfl

end

/-- A block that halts says why, and its ports close (R352). -/
theorem haltWith_halts (s : State) (cause : Nat) :
    (haltWith s cause).blk.st = .halted ∧ (haltWith s cause).blk.cause = cause ∧ (haltWith s cause).pins.portOpen = false := by
  have hlog : Booked { closePorts s with
      blk := { s.blk with st := .halted, cause := cause }, pins := { (closePorts s).pins with stkPwrEn := false } } (haltWith s cause) :=
    booked_logEv ..
  rw [show haltWith s cause = _ from hlog]
  exact ⟨rfl, rfl, rfl⟩

/-- In LOST the PLL is tried again without end (log 68). -/
theorem pllLate_lost {s : State} (hst : s.blk.st = .lost) (hphase : s.clk.phase = .locking) :
    (pllLate s).clk.phase = .locking ∧ pllLate s = { s with clk := (pllLate s).clk } := by
  unfold pllLate
  dsimp only
  rw [if_neg (by simp [hphase]), if_pos hst]
  exact ⟨hphase, rfl⟩

/-- In service a PLL that is not being locked neither locks nor fails to. -/
theorem pll_steady {s : State} (hst : s.blk.st = .ready) (hphase : s.clk.phase = .none) : pllLocked s = s ∧ pllLate s = s := by
  have hboot : (s.blk.st == BlkSt.boot) = false := by simp [hst]
  have hagain : (s.clk.phase == PllPhase.locking) = false := by simp [hphase]
  simp only [pllLocked, pllLate, hboot, hagain]
  exact ⟨rfl, rfl⟩

/-- Settles O54: a window counts by its count alone, and the PLL's tries are judged by the block's state. -/
theorem referenceAndPllAreChecked : Obligations.ReferenceAndPllAreChecked := by
  unfold Obligations.ReferenceAndPllAreChecked
  refine ⟨fun s n htest hfull => ⟨fun hlo hhi => ?_, fun hout => ?_⟩, fun s hst hstep hpll hphase => ⟨?_, fun htries => ?_, fun htries => ?_⟩,
    fun s hst hphase => ⟨_, rfl, pllLate_lost hst hphase⟩, fun s hst hphase => ?_⟩
  · obtain ⟨hpassed, hsum, hlast, hmore, hframe⟩ :=
      refPassed_counts { s with clk := { s.clk with lastCount := n, refPresent := true } } n
    rw [exec_refclkWindowEnd_full htest hfull, if_pos ⟨hlo, hhi⟩]
    exact ⟨_, rfl, hpassed, hsum, hlast, hmore, hframe⟩
  · rw [exec_refclkWindowEnd_full htest hfull, if_neg (by omega)]
    exact ⟨_, rfl, rfl, rfl, rfl, rfl⟩
  · exact ⟨_, congrArg Host.Outcome.next (pllLocked_boot hst hstep hpll hphase), rfl, rfl, rfl, rfl, chan_restartWindows s, rfl⟩
  · exact ⟨_, congrArg Host.Outcome.next ((pllLate_boot hst hstep hpll hphase).trans (if_neg (by omega))), rfl, rfl, rfl⟩
  · exact ⟨_, congrArg Host.Outcome.next ((pllLate_boot hst hstep hpll hphase).trans (if_pos (by omega))), haltWith_halts _ 1⟩
  · obtain ⟨hlock, hlate⟩ := pll_steady hst hphase
    exact ⟨congrArg Host.Outcome.next hlock, congrArg Host.Outcome.next hlate⟩

end Sys2Proof.Machine
end

section
/-! The instructions of the test access port (R377-R380). -/

namespace Sys2Proof.Machine

/-! ### The data register of CFG (R379) -/

/-- The 54 bits of the register of CFG: bit 53, the data, the direction, the page and the offset. -/
def cfgWord (refused : BitVec 1) (v : Word) (write : Bool) (page off : Nat) : BitVec 54 :=
  refused ++ v ++ BitVec.ofBool write ++ BitVec.ofNat 8 page ++ BitVec.ofNat 12 off

theorem cfgWord_data (b : BitVec 1) (v : Word) (write : Bool) (page off : Nat) : field (cfgWord b v write page off) 21 32 = v :=
  calc field (cfgWord b v write page off) (12 + 9) 32
      = field (b ++ v ++ BitVec.ofBool write ++ BitVec.ofNat 8 page) (8 + 1) 32 := field_high ..
    _ = field (b ++ v ++ BitVec.ofBool write) (1 + 0) 32 := field_high ..
    _ = field (b ++ v) 0 32 := field_high ..
    _ = v := field_low ..

theorem cfgWord_page (b : BitVec 1) (v : Word) (write : Bool) {page : Nat} (off : Nat) (h : page < 256) :
    fieldNat (cfgWord b v write page off) 12 8 = page := by
  have hfield : field (cfgWord b v write page off) 12 8 = BitVec.ofNat 8 page :=
    calc field (cfgWord b v write page off) (12 + 0) 8
        = field (b ++ v ++ BitVec.ofBool write ++ BitVec.ofNat 8 page) 0 8 := field_high ..
      _ = BitVec.ofNat 8 page := field_low ..
  exact (congrArg BitVec.toNat hfield).trans (Nat.mod_eq_of_lt h)

theorem cfgWord_offset (b : BitVec 1) (v : Word) (write : Bool) (page : Nat) {off : Nat} (h : off < 4096) :
    fieldNat (cfgWord b v write page off) 0 12 = off :=
  (congrArg BitVec.toNat (field_low _ (BitVec.ofNat 12 off))).trans (Nat.mod_eq_of_lt h)

theorem cfgWord_direction (b : BitVec 1) (v : Word) (write : Bool) (page off : Nat) : (cfgWord b v write page off).getLsbD 20 = write := by
  simp only [cfgWord, BitVec.getLsbD_append, BitVec.getLsbD_ofBool]
  simp

/-! ### Accesses (R379) -/

/-- The registers of the test access port play no part in whether an access would reply OK. -/
theorem jtagOk_loadIr (s : State) (i : JtagIr) (page off : Nat) (write : Bool) (v : Word) :
    jtagOk (loadIr s i) page off write v = jtagOk s page off write v := rfl

/-- What CFG captures after an access: bit 53, a word, and what was shifted in below it. -/
def cfgCaptured (t : State) (b : BitVec 1) (w : Word) (dr : BitVec 54) : State :=
  { t with test := { t.test with cfgDr := b ++ w ++ (field dr 0 21 : BitVec 21) } }

theorem cfgCaptured_refused (t : State) (b : BitVec 1) (w : Word) (dr : BitVec 54) :
    (cfgCaptured t b w dr).test.cfgDr.getLsbD 53 = b.getLsbD 0 := by
  simp only [cfgCaptured, BitVec.getLsbD_append]
  rfl

theorem cfgCaptured_data (t : State) (b : BitVec 1) (w : Word) (dr : BitVec 54) : field (cfgCaptured t b w dr).test.cfgDr 21 32 = w :=
  calc field (b ++ w ++ (field dr 0 21 : BitVec 21)) (21 + 0) 32
      = field (b ++ w) 0 32 := field_high ..
    _ = w := field_low ..

section

variable (s : State) {page off : Nat} (hpage : page < 256) (hoff : off < 4096) (b : BitVec 1) (v : Word) (write : Bool)
include hpage hoff

/-- An access acts on the register that its fields name, where it would reply OK. -/
theorem jtagAccess_cfgWord : jtagAccess s (cfgWord b v write page off) =
    if !jtagOk s page off write v then cfgCaptured s 1#1 v (cfgWord b v write page off)
    else if write then cfgCaptured (regWrite s jtagPort page off v none) 0#1 v (cfgWord b v write page off)
    else cfgCaptured (regReadEffect s jtagPort page off) 0#1 (regView s jtagPort page off) (cfgWord b v write page off) := by
  unfold jtagAccess
  simp only [cfgWord_page b v write off hpage, cfgWord_offset b v write page hoff, cfgWord_data, cfgWord_direction]
  rfl

end

theorem regReadEffect_regs (s : State) (p page off : Nat) : (regReadEffect s p page off).regs = s.regs := by
  unfold regReadEffect
  split
  · rfl
  · split <;> rfl

/-! ### The settled statement -/

/-- IDCODE begins with a 1, above which stand the maker, the part and the version (Table 14-14). -/
theorem idcode_facts (s : State) : (idcode s).getLsbD 0 = true ∧ field (idcode s) 12 16 = partCode s := by
  refine ⟨?_, ?_⟩
  · simp only [idcode, BitVec.getLsbD_append]
    rfl
  · calc field (Config.idcodeVersion ++ partCode s ++ Config.idcodeMaker ++ 1#1) (1 + 11) 16
        = field (Config.idcodeVersion ++ partCode s ++ Config.idcodeMaker) (11 + 0) 16 := field_high ..
      _ = field (Config.idcodeVersion ++ partCode s) 0 16 := field_high ..
      _ = partCode s := field_low ..

theorem forN_blk {f : State → Nat → State} (hf : ∀ t i, (f t i).blk = t.blk) (n : Nat) (s : State) : (forN n f s).blk = s.blk :=
  forN_rel (r := fun t u => u.blk = t.blk) (fun _ => rfl) (fun h g => g.trans h) hf n s

/-- The zeroisation of the block's stores leaves BLK alone (R373). -/
theorem zeroise_blk (s : State) : (zeroise s).blk = s.blk := by
  unfold zeroise
  dsimp only
  rw [forN_blk, forN_blk, forN_blk]
  all_goals exact fun _ _ => rfl

/-- The chains are connected behind a zeroisation. -/
def scanConnected (s : State) : State :=
  { zeroise s with test := { (zeroise s).test with ir := .scan, scanning := true } }

theorem exec_jtagScan_may {s : State} (h : scanMay s = true) : exec .jtagScan s = .next (scanConnected s) :=
  congrArg Host.Outcome.next (if_pos h)

theorem scanConnected_blk (s : State) : (scanConnected s).blk = s.blk := by
  dsimp only [scanConnected]
  exact zeroise_blk s

/-- The reset that leaving SCAN performs puts the block into BOOT at its first step, as after a warm reset (R380). -/
theorem warmState_boots (s : State) (byReg : Bool) :
    let t := loadIr (warmState s byReg) .bypass
    t.blk.st = .boot ∧ t.blk.step = 1 ∧ t.blk.warm = true ∧ t.test.scanning = false ∧ t.reqs = [] := ⟨rfl, rfl, rfl, rfl, rfl⟩

section

variable {s : State} {page off : Nat} (hpage : page < 256) (hoff : off < 4096) {v : Word}
include hpage hoff

theorem exec_jtagCfg_write (hok : jtagOk s page off true v = true) : exec (.jtagCfg (cfgWord 0#1 v true page off)) s =
    .next (cfgCaptured (regWrite (loadIr s .cfg) jtagPort page off v none) 0#1 v (cfgWord 0#1 v true page off)) := by
  refine congrArg Host.Outcome.next ((jtagAccess_cfgWord (loadIr s .cfg) hpage hoff 0#1 v true).trans ?_)
  rw [jtagOk_loadIr, hok]
  rfl

theorem exec_jtagCfg_read (hok : jtagOk s page off false v = true) : exec (.jtagCfg (cfgWord 0#1 v false page off)) s =
    .next (cfgCaptured (regReadEffect (loadIr s .cfg) jtagPort page off) 0#1 (regView (loadIr s .cfg) jtagPort page off)
      (cfgWord 0#1 v false page off)) := by
  refine congrArg Host.Outcome.next ((jtagAccess_cfgWord (loadIr s .cfg) hpage hoff 0#1 v false).trans ?_)
  rw [jtagOk_loadIr, hok]
  rfl

theorem exec_jtagCfg_refused {write : Bool} (hok : jtagOk s page off write v = false) :
    exec (.jtagCfg (cfgWord 0#1 v write page off)) s = .next (cfgCaptured (loadIr s .cfg) 1#1 v (cfgWord 0#1 v write page off)) := by
  refine congrArg Host.Outcome.next ((jtagAccess_cfgWord (loadIr s .cfg) hpage hoff 0#1 v write).trans ?_)
  rw [jtagOk_loadIr, hok]
  rfl

end

/-- Settles O60: CFG finds the access in the fields of its word, and the other instructions change the port's own registers. -/
theorem testAccessPortInstructions : Obligations.TestAccessPortInstructions := by
  unfold Obligations.TestAccessPortInstructions
  refine ⟨fun s => ⟨⟨_, rfl, rfl⟩, ⟨_, rfl, rfl⟩, ⟨_, rfl, rfl, idcode_facts s⟩, fun b => ⟨_, rfl, rfl⟩⟩,
    fun s page off v hpage hoff hok => ⟨_, exec_jtagCfg_write hpage hoff hok, cfgCaptured_refused .., rfl, rfl⟩,
    fun s page off v hpage hoff hok =>
      ⟨_, exec_jtagCfg_read hpage hoff hok, cfgCaptured_refused .., cfgCaptured_data .., regReadEffect_regs ..⟩,
    fun s page off v hpage hoff hok => ⟨_, exec_jtagCfg_refused (write := true) hpage hoff hok, cfgCaptured_refused .., rfl⟩,
    fun s hmay => ⟨_, exec_jtagScan_may hmay, rfl, rfl, scanConnected_blk s⟩,
    fun s hmay => ⟨_, congrArg Host.Outcome.next (if_neg (by simp [hmay])), rfl⟩,
    fun s hscan => ⟨_, congrArg Host.Outcome.next (if_pos hscan), warmState_boots s false⟩⟩

end Sys2Proof.Machine
end

section
/-! What leaves time and the clocks alone: every operation but those of the clocks themselves (R328-R345). -/

namespace Sys2Proof.Machine

/-- Time, and the clocks with their gates. -/
def clocks (s : State) : Time × Clk := (s.time, s.clk)

/-! ### How an operation is read -/

theorem clocks_of_booked {s t : State} (h : Booked s t) : clocks t = clocks s := by
  rw [show t = _ from h]
  rfl

@[simp] theorem clocks_ite (c : Prop) [Decidable c] (s t : State) : clocks (if c then s else t) = if c then clocks s else clocks t := by
  split <;> rfl

@[simp] theorem clocks_foldl {α : Type} (f : State → α → State) (l : List α) (s : State) (h : ∀ t x, clocks (f t x) = clocks t) :
    clocks (l.foldl f s) = clocks s := by
  induction l generalizing s with
  | nil => rfl
  | cons x l ih => exact (ih (f s x)).trans (h s x)

@[simp] theorem clocks_forN (n : Nat) (f : State → Nat → State) (s : State) (h : ∀ t i, clocks (f t i) = clocks t) :
    clocks (forN n f s) = clocks s := clocks_foldl f _ s h

@[simp] theorem clocks_mk (part : Part) (time : Time) (clk : Clk) (blk : Blk) (pins : Pins) (regs : Tab Word) (ports : Tab Port)
    (reqs : List Req) (nextReq : Nat) (rgn : Tab Region) (attn : AttnWin) (hdl : Hdl) (arb : Arb) (winStart : Nat) (chans : Tab Chan)
    (disp : Disp) (octs : Tab Oct) (link : Link) (cals : Tab CalEng) (hk : Hk) (ecc : Ecc) (thm : Thm) (pwr : Pwr) (log : Log)
    (recov : List Recovery) (lastFault : Nat × Nat) (lastInt : Nat) (test : Test) (pmu : Pmu) (sec : Sec) (stack : Stack) (free : Nat)
    (pending : List Instr) :
    clocks (State.mk part time clk blk pins regs ports reqs nextReq rgn attn hdl arb winStart chans disp octs link cals hk ecc thm pwr log
      recov lastFault lastInt test pmu sec stack free pending) = (time, clk) := rfl

@[simp] theorem clocks_eta (s : State) : (s.time, s.clk) = clocks s := rfl

/-! ### Units and books -/

@[simp] theorem clocks_modPort (s : State) (p : Nat) (f : Port → Port) : clocks (modPort s p f) = clocks s := rfl
@[simp] theorem clocks_setChan (s : State) (c : Nat) (x : Chan) : clocks (setChan s c x) = clocks s := rfl
@[simp] theorem clocks_modChan (s : State) (c : Nat) (f : Chan → Chan) : clocks (modChan s c f) = clocks s := rfl
@[simp] theorem clocks_setOct (s : State) (k : Nat) (x : Oct) : clocks (setOct s k x) = clocks s := rfl
@[simp] theorem clocks_modOct (s : State) (k : Nat) (f : Oct → Oct) : clocks (modOct s k f) = clocks s := rfl
@[simp] theorem clocks_setCal (s : State) (n : Nat) (x : CalEng) : clocks (setCal s n x) = clocks s := rfl
@[simp] theorem clocks_modReq (s : State) (id : Nat) (f : Req → Req) : clocks (modReq s id f) = clocks s := rfl
@[simp] theorem clocks_setReg (s : State) (p o : Nat) (w : Word) : clocks (setReg s p o w) = clocks s := rfl
@[simp] theorem clocks_bumpReg (s : State) (p o l w v : Nat) : clocks (bumpReg s p o l w v) = clocks s := rfl
@[simp] theorem clocks_latch (s : State) (p b : Nat) : clocks (latch s p b) = clocks s := clocks_of_booked (booked_latch ..)
@[simp] theorem clocks_logEv (s : State) (code unit : Nat) (lvl : Lvl) (data : Word) : clocks (logEv s code unit lvl data) = clocks s :=
  clocks_of_booked (booked_logEv ..)
@[simp] theorem clocks_countEv (s : State) (k : EvKind) (i c n : Nat) (a : Option Attr) : clocks (countEv s k i c n a) = clocks s :=
  clocks_of_booked (booked_countEv ..)

@[simp] theorem clocks_evCh (s : State) (c code n : Nat) (a : Option Attr) : clocks (evCh s c code n a) = clocks s := clocks_countEv ..
@[simp] theorem clocks_evPort (s : State) (p code n : Nat) (a : Option Attr) : clocks (evPort s p code n a) = clocks s := clocks_countEv ..
@[simp] theorem clocks_evOct (s : State) (k code n : Nat) (a : Option Attr) : clocks (evOct s k code n a) = clocks s := clocks_countEv ..
@[simp] theorem clocks_evBlk (s : State) (code n : Nat) (a : Option Attr) : clocks (evBlk s code n a) = clocks s := clocks_countEv ..

@[simp] theorem clocks_logTake (s : State) : clocks (logTake s) = clocks s := by
  unfold logTake
  split
  · rfl
  · simp [logEnter]

/-! ### Requests and what serves them (R18, R20, R54) -/

@[simp] theorem clocks_replyReq (s : State) (r : Req) (o : Outcome) (d : Byte) (data : List RplData) :
    clocks (replyReq s r o d data) = clocks s := by
  simp [replyReq, replyCauses, releaseRes, freeBeats]

@[simp] theorem clocks_finishReq (s : State) (id : Nat) : clocks (finishReq s id) = clocks s := by
  unfold finishReq
  split <;> simp

@[simp] theorem clocks_partsDone (s : State) (id n : Nat) : clocks (partsDone s id n) = clocks s := by
  unfold partsDone
  dsimp only
  split <;> simp

@[simp] theorem clocks_enqueueAll (s : State) (es : List Entry) : clocks (enqueueAll s es) = clocks s :=
  clocks_foldl _ es s fun _ _ => rfl

@[simp] theorem clocks_modRecon (s : State) (c b r : Nat) (f : Recon → Recon) : clocks (modRecon s c b r f) = clocks s := rfl

@[simp] theorem clocks_reconGot (s : State) (c b r : Nat) (p : Place) (d : Sector) (newer : Bool) :
    clocks (reconGot s c b r p d newer) = clocks s := by
  unfold reconGot
  split
  · rfl
  · dsimp only
    rw [clocks_ite, clocks_ite, clocks_foldl]
    · simp
    · exact fun _ _ => rfl

@[simp] theorem clocks_remapGot (s : State) (e : Entry) (p : Place) (d : Sector) (changed : Bool) :
    clocks (remapGot s e p d changed) = clocks s := by
  unfold remapGot
  split <;> simp

@[simp] theorem clocks_fillHandle (s : State) (h : Nat) (d : Sector) (ue poisoned : Bool) :
    clocks (fillHandle s h d ue poisoned) = clocks s := by
  simp [fillHandle]

@[simp] theorem clocks_stampJob (s : State) (k j : Nat) (e : Entry) : clocks (stampJob s k j e) = clocks s := by
  unfold stampJob
  split <;> rfl

@[simp] theorem clocks_deliverJob (s : State) (k j : Nat) (d : Sector) (corrected recon : Bool) :
    clocks (deliverJob s k j d corrected recon) = clocks s := by
  unfold deliverJob
  dsimp only
  split <;> simp [reconReq]

@[simp] theorem clocks_scratchErrs (s : State) (k : Nat) (xs : List Sector) : clocks (scratchErrs s k xs) = clocks s :=
  clocks_of_booked (booked_scratchErrs ..)

@[simp] theorem clocks_deliverPort (s : State) (id idx : Nat) (e : Entry) (d : Sector) (bad fencedRow corrected recon : Bool) :
    clocks (deliverPort s id idx e d bad fencedRow corrected recon) = clocks s := by
  simp [deliverPort]

@[simp] theorem clocks_deliver (s : State) (e : Entry) (i : Nat) (p : Place) (d : Sector) (ue poisoned fencedRow corrected recon : Bool) :
    clocks (deliver s e i p d ue poisoned fencedRow corrected recon) = clocks s := by
  unfold deliver
  dsimp only
  split <;> simp

/-! ### Grants that start (R99) -/

@[simp] theorem clocks_serveFrom (s : State) (e : Entry) : clocks (serveFrom s e) = clocks s := by
  refine clocks_foldl _ _ s fun t i => ?_
  split
  · rfl
  · split <;> simp

@[simp] theorem clocks_putCol (s : State) (c t : Nat) (i : Instr) (f : Option Flight) : clocks (putCol s c t i f) = clocks s := rfl

@[simp] theorem clocks_inject (s : State) (c : Nat) (d : Sector) : clocks (inject s c d).2 = clocks s := by
  unfold inject
  dsimp only
  split <;> rfl

@[simp] theorem clocks_queueVerify (s : State) (p : Place) : clocks (queueVerify s p) = clocks s := by
  unfold queueVerify
  split <;> rfl

@[simp] theorem clocks_remapVerify (s : State) : clocks (remapVerify s) = clocks s := by
  unfold remapVerify
  split <;> simp

@[simp] theorem clocks_sendWrite (s : State) (c : Nat) (e : Entry) (p : Place) (d : Sector) (auto : Bool) :
    clocks (sendWrite s c e p d auto) = clocks s := by
  unfold sendWrite
  dsimp only
  split
  · simp
  · split
    · simp
    · split <;> simp

@[simp] theorem clocks_sendRead (s : State) (c : Nat) (e : Entry) (p : Place) (auto : Bool) : clocks (sendRead s c e p auto) = clocks s := by
  simp [sendRead]

@[simp] theorem clocks_touchHalf (s : State) (c : Nat) (p : Place) (write auto : Bool) : clocks (touchHalf s c p write auto) = clocks s := by
  simp [touchHalf]

@[simp] theorem clocks_spend (s : State) (c w : Nat) : clocks (spend s c w) = clocks s := rfl

@[simp] theorem clocks_countGrant (s : State) (c : Nat) (e : Entry) (group : Nat) : clocks (countGrant s c e group) = clocks s := by
  simp [countGrant]

@[simp] theorem clocks_startGrant (s : State) (c : Nat) (e : Entry) : clocks (startGrant s c e) = clocks s := by
  unfold startGrant
  split
  · rfl
  · simp

@[simp] theorem clocks_startSlots (s : State) : clocks (startSlots s) = clocks s := by
  unfold startSlots
  split
  · rfl
  · refine clocks_foldl _ _ s fun t e => ?_
    split <;> simp

/-! ### A core cycle and a tick -/

@[simp] theorem clocks_reconAsk (s : State) (c : Nat) (r : Recon) : clocks (reconAsk s c r) = clocks s := by
  simp [reconAsk]

@[simp] theorem clocks_reconAskAll (s : State) : clocks (reconAskAll s) = clocks s := by
  simp [reconAskAll]

@[simp] theorem clocks_remapCopy (s : State) : clocks (remapCopy s) = clocks s := by
  unfold remapCopy
  split <;> simp

@[simp] theorem clocks_cycleCounts (s : State) : clocks (cycleCounts s) = clocks s := by
  simp [cycleCounts]

@[simp] theorem clocks_tickCounts (s : State) : clocks (tickCounts s) = clocks s := by
  simp [tickCounts]

@[simp] theorem clocks_idleTick (s : State) (c : Nat) : clocks (idleTick s c) = clocks s := by
  simp [idleTick]

@[simp] theorem clocks_progTick (s : State) : clocks (progTick s) = clocks s := by
  simp [progTick]

@[simp] theorem clocks_budgetTick (s : State) : clocks (budgetTick s) = clocks s := rfl

/-! ### Sweeps, faults and recoveries (R248, R355-R361) -/

@[simp] theorem clocks_sbStart (s : State) : clocks (sbStart s) = clocks s := by
  unfold sbStart
  split
  · rfl
  · split <;> rfl

@[simp] theorem clocks_sbQueue (s : State) (user cmd : Nat) (ch : Byte) (addr len : Nat) (ws : List Word) :
    clocks (sbQueue s user cmd ch addr len ws) = clocks s := (clocks_sbStart _).trans rfl

@[simp] theorem clocks_sendRow (s : State) (c : Nat) (i : Instr) : clocks (sendRow s c i) = clocks s := rfl
@[simp] theorem clocks_steer (s : State) (c h : Nat) (w : Option Nat) (pat : Bool) : clocks (steer s c h w pat) = clocks s := rfl
@[simp] theorem clocks_sendLane (s : State) (c h : Nat) : clocks (sendLane s c h) = clocks s := rfl
@[simp] theorem clocks_sweepUndo (s : State) (n : Nat) : clocks (sweepUndo s n) = clocks s := rfl

@[simp] theorem clocks_sweepAbandon (s : State) (n : Nat) : clocks (sweepAbandon s n) = clocks s := by
  simp [sweepAbandon]

@[simp] theorem clocks_sweepAbandonOn (s : State) (c : Nat) : clocks (sweepAbandonOn s c) = clocks s := by
  simp [sweepAbandonOn]

@[simp] theorem clocks_loseHeld (s : State) (k : Nat) : clocks (loseHeld s k) = clocks s := by
  simp [loseHeld]

@[simp] theorem clocks_loseScratch (s : State) (k : Nat) : clocks (loseScratch s k) = clocks s := rfl

@[simp] theorem clocks_dropDrains (s : State) (k : Nat) : clocks (dropDrains s k) = clocks s := by
  simp [dropDrains]

@[simp] theorem clocks_dropJobs (s : State) (k id : Nat) (pick : Job → Bool) : clocks (dropJobs s k id pick) = clocks s := by
  simp [dropJobs]

@[simp] theorem clocks_opStopped (s : State) (d : Nat) : clocks (opStopped s d) = clocks s := by
  unfold opStopped
  split
  · rfl
  · split
    · split
      · split <;> simp
      · rfl
    · rfl

@[simp] theorem clocks_opStop (s : State) (d : Nat) : clocks (opStop s d) = clocks s := by
  have drained (t : State) : clocks (forN (nOct t) (fun t k => modOct t k (fun o => { o with queue := o.queue.filter (fun q =>
      match q.item with
      | .partialSec d' _ _ => d' != d | .sliceEnd d' _ _ _ _ _ => d' != d | .fabric d' _ => d' != d | _ => true) })) t) = clocks t :=
    clocks_forN _ _ t fun _ _ => rfl
  unfold opStop
  dsimp only
  split
  · exact (drained _).trans (clocks_forN _ _ s fun _ _ => rfl)
  · exact (drained _).trans (clocks_forN _ _ s fun _ _ => rfl)

@[simp] theorem clocks_dropParts (s : State) (c id : Nat) : clocks (dropParts s c id) = clocks s := by
  simp [dropParts]

@[simp] theorem clocks_dropHeld (s : State) (c id : Nat) : clocks (dropHeld s c id) = clocks s := by
  simp [dropHeld]

@[simp] theorem clocks_discardReq (s : State) (w : Within) (det : Byte) (r : Req) : clocks (discardReq s w det r) = clocks s := by
  unfold discardReq
  dsimp only
  split
  · simp
  · split <;> simp

@[simp] theorem clocks_replayAll (s : State) (alert : Bool) (c : Nat) : clocks (replayAll s alert c) = clocks s := by
  simp [replayAll]

@[simp] theorem clocks_reconRestartIn (s : State) (d : Nat) : clocks (reconRestartIn s d) = clocks s := by
  simp [reconRestartIn]

@[simp] theorem clocks_reconRestart (s : State) (c : Nat) : clocks (reconRestart s c) = clocks s := by
  simp [reconRestart]

@[simp] theorem clocks_recordFault (s : State) (page cls : Nat) (src : FaultSource) : clocks (recordFault s page cls src) = clocks s := rfl

@[simp] theorem clocks_resetUnit (s : State) (page : Nat) : clocks (resetUnit s page) = clocks s := by
  unfold resetUnit
  split <;> simp

@[simp] theorem clocks_faultLoses (s : State) (w : Within) : clocks (faultLoses s w) = clocks s := by
  unfold faultLoses
  dsimp only
  split
  · refine (clocks_foldl _ _ _ fun t e => ?_).trans (by simp)
    split <;> rfl
  · simp

@[simp] theorem clocks_abandonRepair (s : State) : clocks (abandonRepair s) = clocks s := by
  unfold abandonRepair
  split <;> rfl

@[simp] theorem clocks_recovRow (s : State) (c : Nat) (alert : Bool) : clocks (recovRow s c alert) = clocks s := by
  simp [recovRow]

@[simp] theorem clocks_pauseRow (s : State) (c : Nat) : clocks (pauseRow s c) = clocks s :=
  clocks_foldl _ _ s fun t _ => clocks_foldl _ _ t fun _ _ => by simp

@[simp] theorem clocks_recoverChan (s : State) (alert : Bool) (c : Nat) : clocks (recoverChan s alert c) = clocks s := by
  simp [recoverChan]

@[simp] theorem clocks_faultNote (s : State) (page cls : Nat) (src : FaultSource) (n : Nat) :
    clocks (faultNote s page cls src n) = clocks s := by
  simp [faultNote]

@[simp] theorem clocks_discardAll (s : State) (w : Within) (det : Byte) (rs : List Req) : clocks (discardAll s w det rs) = clocks s :=
  clocks_foldl _ rs s fun t r => by split <;> simp

@[simp] theorem clocks_octAborts (s : State) (k : Nat) : clocks (octAborts s k) = clocks s :=
  clocks_forN _ _ s fun t _ => clocks_foldl _ _ t fun _ _ => by simp

@[simp] theorem clocks_scopeSteps (s : State) (sc : Scope) (src : FaultSource) : clocks (scopeSteps s sc src) = clocks s := by
  unfold scopeSteps
  split <;> simp

@[simp] theorem clocks_openRecovery (s : State) (sc : Scope) (page cls : Nat) (src : FaultSource) :
    clocks (openRecovery s sc page cls src) = clocks s := by
  unfold openRecovery
  split <;> rfl

@[simp] theorem clocks_faultRun (s : State) (page cls : Nat) (src : FaultSource) : clocks (faultRun s page cls src) = clocks s := by
  simp [faultRun]

@[simp] theorem clocks_faultAt (s : State) (page : Nat) (src : FaultSource) (part : FaultPart) :
    clocks (faultAt s page src part) = clocks s := by
  simp [faultAt]

/-! ### The loss of the stack (R298) -/

@[simp] theorem clocks_openPorts (s : State) : clocks (openPorts s) = clocks s := by
  unfold openPorts
  rw [clocks_forN _ _ _ fun t p => clocks_modPort t p _]
  rfl

@[simp] theorem clocks_bootEnd (s : State) : clocks (bootEnd s) = clocks s := by
  simp [bootEnd]

@[simp] theorem clocks_lostReplies (s : State) : clocks (lostReplies s) = clocks s :=
  clocks_foldl _ _ s fun _ _ => by simp

@[simp] theorem clocks_lostOcts (s : State) : clocks (lostOcts s) = clocks s := by
  simp [lostOcts]

@[simp] theorem clocks_lostChans (s : State) : clocks (lostChans s) = clocks s :=
  clocks_forN _ _ s fun _ _ => rfl

@[simp] theorem clocks_lostSweeps (s : State) : clocks (lostSweeps s) = clocks s :=
  clocks_forN _ _ s fun _ _ => by simp [lostSweep]

@[simp] theorem clocks_enterLost (s : State) (code : Nat) : clocks (enterLost s code) = clocks s := by
  simp [enterLost]

/-! ### Levels and the sideband (R222, R307-R317) -/

@[simp] theorem clocks_overrides (s : State) : clocks (overrides s) = clocks s := by
  obtain ⟨pl, vdd, h⟩ := overrides_booked s
  exact (clocks_of_booked h).trans rfl

@[simp] theorem clocks_pdWake (s : State) (c : Nat) : clocks (pdWake s c) = clocks s := by
  unfold pdWake
  split <;> rfl

@[simp] theorem clocks_drainChan (s : State) (c : Nat) : clocks (drainChan s c) = clocks s := by
  simp [drainChan]

@[simp] theorem clocks_tripStart (s : State) (i : Nat) : clocks (tripStart s i) = clocks s := by
  simp [tripStart]

@[simp] theorem clocks_takeReading (s : State) (i : Nat) (r : Option (BitVec 16)) : clocks (takeReading s i r) = clocks s := rfl
@[simp] theorem clocks_setW (s : State) (w : WSt) : clocks (setW s w) = clocks s := rfl

@[simp] theorem clocks_levelCheck (s : State) (i : Nat) : clocks (levelCheck s i) = clocks s := by
  simp [levelCheck, brimCheck, forbidCheck, tripCheck, forbidState]

@[simp] theorem clocks_vmonRead (s : State) (r : Option Word) : clocks (vmonRead s r) = clocks s := by
  unfold vmonRead
  split
  · split <;> rfl
  · rfl

@[simp] theorem clocks_polled (s : State) (a : Nat) (w : Option Word) : clocks (polled s a w) = clocks s := by
  simp [polled]

@[simp] theorem clocks_probeLost (s : State) (c : Nat) : clocks (probeLost s c) = clocks s := by
  unfold probeLost
  dsimp only
  split <;> rfl

@[simp] theorem clocks_sbFailed (s : State) (x : Sb) (why : Nat) : clocks (sbFailed s x why) = clocks s := by
  simp [sbFailed, ppOpEnd, t1500End, ppInvalid]

/-! ### What the reset of a domain takes (R339) -/

@[simp] theorem clocks_dropSequence (s : State) : clocks (dropSequence s) = clocks s := by
  unfold dropSequence
  split <;> simp

@[simp] theorem clocks_dropSideband (s : State) : clocks (dropSideband s) = clocks s :=
  clocks_foldl _ _ _ fun _ _ => clocks_sbFailed ..

@[simp] theorem clocks_domainReset (s : State) (d : Nat) : clocks (domainReset s d) = clocks s := by
  unfold domainReset
  split <;> simp

end Sys2Proof.Machine
end

section
/-! An idle step (R343, log 2), and O2. -/

namespace Sys2Proof.Machine

theorem pending_of_key {s t : State} (h : key t = key s) : t.pending = s.pending := congrArg (fun k => k.2.1) h

theorem pins_of_key {s t : State} (h : key t = key s) : t.pins = s.pins := congrArg (fun k => k.2.2.1) h

/-- A core cycle is counted, and leaves the ticks and the clocks. -/
theorem clocks_coreCycle (s : State) : clocks (coreCycle s) = ({ s.time with cyc := s.time.cyc + 1 }, s.clk) := by
  simp [coreCycle]

/-- A tick is counted while domain 92 runs. -/
theorem clocks_timeTick (s : State) (h : s.clk.stopped.getLsbD 92 = false) :
    clocks (timeTick s) = ({ s.time with tick := s.time.tick + 1, blk := s.time.blk + 1 }, s.clk) := by
  unfold timeTick
  rw [if_neg (ne_true_of_eq_false h)]
  simp

/-- Time after the core's part of 0.4 ns (Table 13-1). -/
def coreTime (s : State) : Time := { s.time with cyc := if s.clk.coreRun then s.time.cyc + 1 else s.time.cyc }

theorem clocks_coreStep (s : State) : clocks (if s.clk.coreRun then coreCycle s else s) = (coreTime s, s.clk) := by
  unfold coreTime
  split
  · exact clocks_coreCycle s
  · rfl

/-- What 0.4 ns do to time while domain 92 runs. -/
theorem time_tick (s : State) (h : s.clk.stopped.getLsbD 92 = false) :
    (tick s).time = if s.time.sub + 1 < 10 then { coreTime s with sub := s.time.sub + 1 }
      else { coreTime s with sub := 0, tick := s.time.tick + 1, blk := s.time.blk + 1 } := by
  have core := clocks_coreStep s
  unfold tick
  generalize (if s.clk.coreRun then coreCycle s else s) = u at core
  obtain ⟨time, clk⟩ := Prod.mk.inj core
  have sub : u.time.sub = s.time.sub := (congrArg Time.sub time).trans rfl
  dsimp only
  rw [sub, show cycPerTick = 10 from rfl]
  split
  · exact congrArg (fun x : Time => { x with sub := s.time.sub + 1 }) time
  · refine (congrArg Prod.fst (clocks_timeTick _ (by rw [clk]; exact h))).trans ?_
    exact congrArg (fun x : Time => { x with sub := 0, tick := x.tick + 1, blk := x.blk + 1 }) time

/-- Settles O2: a core cycle counts in `cyc` alone, a tick of domain 92 in `tick` and BLK_TIME, and all else books. -/
theorem idleStepsPassTime : Obligations.IdleStepsPassTime := by
  intro s empty running
  refine ⟨tick s, by rw [step, empty], memoryKept_of_mem (tick_mem s), (pending_of_key (tick_key s)).trans empty,
    pins_of_key (tick_key s), ?_⟩
  rw [time_tick s running]
  unfold coreTime
  split <;> exact ⟨rfl, rfl, rfl⟩

end Sys2Proof.Machine
end

section
/-! Losses of REFCLK and of the PLL's clock, and forced switches (R328, R339, R340, R344), and O55. -/

namespace Sys2Proof.Machine

/-! ### REFCLK (R328) -/

theorem reg_setRegF_other (s : State) {p o q r : Nat} (l w v : Nat) (h : regKey q r ≠ regKey p o) :
    reg (setRegF s p o l w v) q r = reg s q r := reg_setReg_other _ _ _ _ _ _ h

/-- An event that the log drops is counted and latched in the log's own page (R369). -/
theorem reg_logDrop_other (s : State) {q o : Nat} (hl : regKey q o ≠ regKey pgLog 0x010) (hc : regKey q o ≠ regKey pgLog 0x04C) :
    reg (logDrop s) q o = reg s q o :=
  (reg_latch_other _ hl).trans (reg_setRegF_other s _ _ _ hc)

/-- A logged event changes no register but the log's own (R367, R369). -/
theorem reg_logEv_other (s : State) (code unit : Nat) (lvl : Lvl) (data : Word) {q o : Nat} (hl : regKey q o ≠ regKey pgLog 0x010)
    (hc : regKey q o ≠ regKey pgLog 0x04C) : reg (logEv s code unit lvl data) q o = reg s q o := by
  unfold logEv
  dsimp only
  split
  · split
    · exact reg_of_regs rfl rfl ..
    · exact reg_logDrop_other s hl hc
  · split
    · exact reg_logDrop_other s hl hc
    · exact reg_of_regs rfl rfl ..

/-- What REFCLK's loss latches and logs. -/
def refLossBooked (s : State) : State := logEv (latch s pgClk 0) 0x0104 pgClk .error 0

theorem booked_refLossBooked (s : State) : Booked s (refLossBooked s) := (booked_latch ..).trans (booked_logEv ..)

theorem refLossBooked_latches (s : State) : (reg (refLossBooked s) pgClk 0x010).getLsbD 0 = true := by
  rw [refLossBooked, reg_logEv_other _ _ _ _ _ (by decide) (by decide)]
  exact latch_bit s pgClk 0 (by decide)

/-- The check after REFCLK's loss: valid no more, and with the full check where one was under way. -/
def refLostClk (k : Clk) : Clk :=
  { k with refPresent := false, refOk := false, passed := 0, sum := 0, phase := if k.phase = .none then .none else .refFull }

theorem refLost_eq (s : State) (h : s.clk.refPresent = true) : refLost s = { refLossBooked s with clk := refLostClk (refLossBooked s).clk } := by
  unfold refLost
  rw [if_neg (by simp [h])]
  rfl

/-! ### The PLL's clock and the time base (R340, R344) -/

theorem clocks_uncertainTime (s : State) : clocks (uncertainTime s) = ({ s.time with uncertain := true }, s.clk) := by
  unfold uncertainTime
  split
  · next h => rw [← h]; rfl
  · simp

/-- The clocks after the loss of the PLL's clock. -/
def pllLostClk (k : Clk) (stopped present : Bool) : Clk :=
  { k with coreRun := false, pllLock := false, onPll := false, tries := 0, passed := 0, sum := 0, refPresent := present
           refOk := k.refOk && present, phase := if present then .refCheck 0 else .refFull
           swDomain := if stopped then k.swDomain else 98, swForced := stopped && k.swForced }

/-- What the loss of the PLL's clock latches and logs, with the time base made uncertain. -/
def pllLossBooked (s : State) : State :=
  uncertainTime (logEv (latch s pgClk 1) 0x0103 pgClk .error (BitVec.ofNat 32 (min 65535 s.clk.attempts)))

theorem clocks_pllLossBooked (s : State) : clocks (pllLossBooked s) = ({ s.time with uncertain := true }, s.clk) := by
  have booked : clocks (logEv (latch s pgClk 1) 0x0103 pgClk .error (BitVec.ofNat 32 (min 65535 s.clk.attempts))) = clocks s := by simp
  obtain ⟨time, clk⟩ := Prod.mk.inj booked
  rw [pllLossBooked, clocks_uncertainTime, time, clk]

/-- The wire clock and domains 0 to 91 after the loss of the PLL's clock. -/
def pllStopped (s : State) (stopped present : Bool) : State :=
  { s with pins := { s.pins with wckRun := false }, clk := pllLostClk s.clk stopped present }

theorem pllLoss_eq (s : State) (stopped present : Bool) (h : s.clk.onPll = true) :
    pllLoss s stopped present =
      let u := pllStopped (pllLossBooked s) stopped present
      faultAt (if linkLive (pllLossBooked s) then forN (nChan u) (fun t c => modChan t c (fun x => { x with pd := .selfRefresh })) u else u)
        pgClk .pll .unit := by
  unfold pllLoss
  rw [if_neg (by simp [h])]
  rfl

theorem clocks_pllLoss (s : State) (stopped present : Bool) (h : s.clk.onPll = true) :
    clocks (pllLoss s stopped present) = ({ s.time with uncertain := true }, pllLostClk s.clk stopped present) := by
  obtain ⟨time, clk⟩ := Prod.mk.inj (clocks_pllLossBooked s)
  rw [pllLoss_eq s stopped present h, clocks_faultAt, clocks_ite, clocks_forN _ _ _ fun _ _ => clocks_modChan .., ite_self, pllStopped, clocks_mk, time, clk]

theorem key_pllLoss (s : State) (stopped present : Bool) (h : s.clk.onPll = true) :
    key (pllLoss s stopped present) = key (pllStopped (pllLossBooked s) stopped present) := by
  rw [pllLoss_eq s stopped present h, faultAt_key, key_ite, forN_key _ _ _ fun _ _ => modChan_key .., ite_self]

/-! ### Forced switches (R339) -/

/-- What a forced switch latches and logs, with the switch noted and counted. -/
def switchBooked (s : State) (d : Nat) : State :=
  let s := logEv (latch s pgClk 2) 0x0102 pgClk .error (BitVec.ofNat 32 d)
  { s with clk := { s.clk with swDomain := d, swForced := true, forcedCount := min 65535 (s.clk.forcedCount + 1) } }

theorem clocks_switchBooked (s : State) (d : Nat) : clocks (switchBooked s d) =
    (s.time, { s.clk with swDomain := d, swForced := true, forcedCount := min 65535 (s.clk.forcedCount + 1) }) := by
  have booked : clocks (logEv (latch s pgClk 2) 0x0102 pgClk .error (BitVec.ofNat 32 d)) = clocks s := by simp
  obtain ⟨time, clk⟩ := Prod.mk.inj booked
  rw [switchBooked, clocks_mk, time, clk]

theorem clocks_forceSwitch (s : State) (d : Nat) (h : ¬(d < 92 ∨ 98 < d ∨ (!(s.clk.onPll || s.clk.phase != .none)) = true)) :
    clocks (forceSwitch s d) = (if d = 92 then { s.time with uncertain := true } else s.time,
      { s.clk with swDomain := d, swForced := true, forcedCount := min 65535 (s.clk.forcedCount + 1) }) := by
  obtain ⟨time, clk⟩ := Prod.mk.inj (clocks_switchBooked s d)
  unfold forceSwitch
  rw [if_neg h]
  refine (clocks_faultAt ..).trans ((clocks_domainReset ..).trans ?_)
  split
  · refine (clocks_uncertainTime (switchBooked s d)).trans ?_
    rw [time, clk]
  · exact clocks_switchBooked s d

/-- Settles O55: each event writes the clocks once, and the fault it raises leaves time, the clocks and the pins. -/
theorem clockLossesAreHandled : Obligations.ClockLossesAreHandled := by
  unfold Obligations.ClockLossesAreHandled
  refine ⟨fun s absent => ?_, fun s present => ?_, fun s b r off => ?_, fun s b r on => ?_, fun s d lo hi live => ?_, fun s d idle => ?_⟩
  · exact congrArg Host.Outcome.next (if_pos (by simp [absent]))
  · have booked := booked_refLossBooked s
    refine ⟨_, congrArg Host.Outcome.next (refLost_eq s present), rfl, rfl, rfl, ?_, ?_, booked.stack⟩
    · refine Eq.trans (congrArg (fun w : Word => w.getLsbD 0) ?_) (refLossBooked_latches s)
      exact reg_of_regs rfl rfl ..
    · exact (congrArg State.pins (show refLossBooked s = _ from booked) :)
  · exact congrArg Host.Outcome.next (if_pos (by simp [off]))
  · obtain ⟨time, clk⟩ := Prod.mk.inj (clocks_pllLoss s b r on)
    have pins := pins_of_key (key_pllLoss s b r on)
    refine ⟨pllLoss s b r, rfl, ?_⟩
    rw [time, clk, pins]
    exact ⟨rfl, rfl, rfl, rfl, rfl, rfl⟩
  · have acts : ¬(d.val < 92 ∨ 98 < d.val ∨ (!(s.clk.onPll || s.clk.phase != .none)) = true) := by
      simp only [Bool.not_eq_true', Bool.or_eq_false_iff, bne_eq_false_iff_eq]
      rintro (h | h | ⟨off, none⟩)
      · omega
      · omega
      · exact live.elim (by simp [off]) (fun h => h none)
    obtain ⟨time, clk⟩ := Prod.mk.inj (clocks_forceSwitch s d acts)
    refine ⟨forceSwitch s d, rfl, ?_⟩
    rw [time, clk]
    exact ⟨rfl, rfl, rfl, fun h => by rw [if_pos h]⟩
  · refine congrArg Host.Outcome.next (if_pos ?_)
    simpa using idle

end Sys2Proof.Machine
end

section
/-! What leaves the thermal state alone (R302-R319): books, the channels' commands and the sideband's queue. -/

namespace Sys2Proof.Machine

theorem thm_of_booked {s t : State} (h : Booked s t) : t.thm = s.thm := by
  rw [show t = _ from h]

theorem thm_of_powerFrame {s t : State} (h : PowerFrame s t) : t.thm = s.thm :=
  (thm_of_booked (show Booked { s with chans := t.chans, cals := t.cals, link := t.link } t from h)).trans rfl

theorem thm_ite (c : Prop) [Decidable c] (s t : State) : (if c then s else t).thm = if c then s.thm else t.thm := by
  split <;> rfl

theorem thm_forN (n : Nat) (f : State → Nat → State) (s : State) (h : ∀ t i, (f t i).thm = t.thm) : (forN n f s).thm = s.thm :=
  forN_rel (r := fun s t => t.thm = s.thm) (fun _ => rfl) (fun a b => b.trans a) h n s

@[simp] theorem thm_latch (s : State) (p b : Nat) : (latch s p b).thm = s.thm := thm_of_booked (booked_latch ..)

@[simp] theorem thm_logEv (s : State) (code unit : Nat) (lvl : Lvl) (data : Word) : (logEv s code unit lvl data).thm = s.thm :=
  thm_of_booked (booked_logEv ..)

@[simp] theorem thm_evBlk (s : State) (code n : Nat) (a : Option Attr) : (evBlk s code n a).thm = s.thm :=
  thm_of_booked (booked_countEv ..)

@[simp] theorem thm_overrides (s : State) : (overrides s).thm = s.thm := by
  obtain ⟨pl, vdd, h⟩ := overrides_booked s
  exact (thm_of_booked h).trans rfl

@[simp] theorem thm_sbStart (s : State) : (sbStart s).thm = s.thm := by
  unfold sbStart
  split
  · rfl
  · split <;> rfl

@[simp] theorem thm_sbQueue (s : State) (user cmd : Nat) (ch : Byte) (addr len : Nat) (ws : List Word) :
    (sbQueue s user cmd ch addr len ws).thm = s.thm := thm_sbStart _

/-! ### The units of a round (R219, R233, R240, R285) -/

theorem thm_bucketLeak (s : State) (c : Nat) : (bucketLeak s c).thm = s.thm := by
  simp [bucketLeak, thm_ite]

theorem thm_refCheck (s : State) (n : Nat) : (refCheck s n).thm = s.thm := by
  simp [refCheck, thm_ite]

theorem thm_calTempUpdate (s : State) (n : Nat) : (calTempUpdate s n).thm = s.thm := by
  have put (t : State) (i : Nat) : (let x := sensor t (48 + 2 * n + i)
      if x.seen then setRegF t (calPage n) 0x054 (16 * i) 16 (intBits 16 x.heldVal) else t).thm = t.thm := by
    simp [thm_ite]
  exact (put _ 1).trans (put s 0)

theorem thm_counterRead (s : State) (c : Nat) : (counterRead s c).thm = s.thm := by
  simp [counterRead, thm_ite]

theorem thm_roundUnits (s : State) : (roundUnits s).thm = s.thm := by
  unfold roundUnits
  dsimp only
  rw [thm_forN _ _ _ thm_counterRead, thm_forN _ _ _ fun t n => (thm_calTempUpdate ..).trans (thm_refCheck ..),
    thm_forN _ _ _ thm_bucketLeak, thm_overrides]

theorem thm_roundCounts (s : State) : (roundCounts s).thm = s.thm := by
  simp [roundCounts, thm_ite]

theorem thm_railAdjust (s : State) : (railAdjust s).thm = s.thm := by
  simp [railAdjust, thm_ite]

end Sys2Proof.Machine
end

section
/-! Rounds, trips and the Brim budget (R302, R310-R319, Table 12-3), and O49. -/

namespace Sys2Proof.Machine

theorem pins_of_booked {s t : State} (h : Booked s t) : t.pins = s.pins := by
  rw [show t = _ from h]

/-! ### What a round boundary sees (R304-R307) -/

/-- The state of the levels that a round's judgement leaves alone: the write state, TSTEP with its count, and the rounds. -/
def pace (s : State) : WSt × Nat × Nat × Nat × Nat × Bool :=
  (s.thm.w, s.thm.tstep, s.thm.clear, s.thm.round, s.thm.rounds8, s.thm.started)

theorem pace_of_thm {s t : State} (h : t.thm = s.thm) : pace t = pace s := by
  rw [pace, h, pace]

theorem pace_ite (c : Prop) [Decidable c] (s t : State) : pace (if c then s else t) = if c then pace s else pace t := by
  split <;> rfl

theorem pace_crossCheck (s : State) : pace (crossCheck s) = pace s := by
  unfold crossCheck
  generalize allSensors s = l
  suffices h : ∀ t, pace (l.foldl _ t) = pace t from h s
  induction l with
  | nil => exact fun _ => rfl
  | cons i l ih =>
    refine fun t => (ih _).trans ?_
    dsimp only
    split
    · rfl
    · split
      · exact (pace_of_thm (thm_latch ..)).trans rfl
      · split
        · exact (pace_of_thm ((thm_logEv ..).trans (thm_latch ..))).trans rfl
        · rfl

theorem pace_degradeCheck (s : State) : pace (degradeCheck s) = pace s := by
  have logged : pace (logEv (latch { s with thm := { s.thm with degraded := true } } pgThm 8) 0x0503 pgThm .error
      (BitVec.ofNat 32 (failedDram s))) = pace s := (pace_of_thm ((thm_logEv ..).trans (thm_latch ..))).trans rfl
  rw [degradeCheck, pace_ite, logged, ite_self]

theorem pace_riseCheck (s : State) : pace (riseCheck s).2 = pace s := by
  unfold riseCheck
  dsimp only
  split
  · rw [pace_ite, pace_of_thm (thm_latch ..), ite_self]
    rfl
  · rfl

/-- The state before the levels: the rail adjusted and the missing PMBus readings counted (R322). -/
def roundBase (s : State) : State :=
  let s := railAdjust s
  { s with thm := { s.thm with missPmb := if s.thm.missNow then s.thm.missPmb + 1 else 0 } }

theorem roundSeen_eq (s : State) : roundSeen s = riseCheck (degradeCheck (crossCheck (roundBase s))) := by
  unfold roundSeen roundBase
  rfl

theorem roundJudge_eq (s : State) : roundJudge s = if (roundBase s).thm.started then roundLevels (roundBase s) else roundBase s := by
  unfold roundJudge roundBase
  rfl

theorem pace_roundBase (s : State) : pace (roundBase s) = pace s :=
  (congrArg (fun x : Thm => (x.w, x.tstep, x.clear, x.round, x.rounds8, x.started)) (thm_railAdjust s) :)

theorem pace_roundSeen (s : State) : pace (roundSeen s).2 = pace s := by
  rw [roundSeen_eq, pace_riseCheck, pace_degradeCheck, pace_crossCheck, pace_roundBase]

/-! ### TSTEP (R310) -/

/-- TSTEP and the counts of rounds. -/
def rounds (s : State) : Nat × Nat × Nat × Bool := (s.thm.tstep, s.thm.round, s.thm.rounds8, s.thm.started)

theorem rounds_doubling (s : State) : rounds (doubling s) = rounds s := rfl

theorem rounds_of_booked {s t : State} (h : Booked s t) : rounds t = rounds s := by
  rw [rounds, thm_of_booked h, rounds]

theorem rounds_forbidState (s : State) : rounds (forbidState s) = rounds s := by
  unfold forbidState
  split
  · exact rounds_of_booked (s := setW s .brim) ((booked_latch ..).trans (booked_bumpReg ..))
  · rfl

theorem rounds_forbidRound (s : State) : rounds (forbidRound s) = rounds s := by
  unfold forbidRound
  split
  · rfl
  · split
    · dsimp only
      split <;> rfl
    · split
      · exact rounds_forbidState s
      · rfl

theorem rounds_tripRound (s : State) : rounds (tripRound s) = rounds s := by
  unfold tripRound
  split <;> rfl

/-- TSTEP after a round boundary, as the round saw its throttle conditions (R310, log 52). -/
def stepAfter (s : State) (holds : Bool) : Nat :=
  if s.thm.w = .trip then s.thm.tstep else if holds = true then min 7 (s.thm.tstep + 1)
  else if 16 ≤ s.thm.clear + 1 then s.thm.tstep - 1 else s.thm.tstep

theorem rounds_throttle (s : State) (rate : Option Int) :
    rounds (throttle s rate) = (stepAfter s (throttleHolds s rate), s.thm.round, s.thm.rounds8, s.thm.started) := by
  have warned : (if s.thm.tstep = 0 then latch s pgThm 1 else s).thm = s.thm := by rw [thm_ite, thm_latch, ite_self]
  unfold throttle stepAfter
  by_cases trip : s.thm.w = .trip
  · simp [trip, rounds]
  · rw [if_neg (by simp [trip]), if_neg trip]
    split
    · simp [rounds, warned]
    · split <;> rfl

theorem rounds_roundLevels (s : State) (rate : Option Int) (t : State) (h : riseCheck (degradeCheck (crossCheck s)) = (rate, t)) :
    rounds (roundLevels s) = (stepAfter t (throttleHolds t rate), t.thm.round, t.thm.rounds8, t.thm.started) := by
  unfold roundLevels
  rw [h]
  exact (rounds_tripRound _).trans ((rounds_forbidRound _).trans ((rounds_doubling _).trans (rounds_throttle t rate)))

theorem rounds_roundJudge (s : State) (h : s.thm.started = true) :
    rounds (roundJudge s) = (stepAfter s (throttleHolds (roundSeen s).2 (roundSeen s).1), s.thm.round, s.thm.rounds8, true) := by
  have seen := pace_roundSeen s
  simp only [pace, Prod.mk.injEq] at seen
  obtain ⟨w, tstep, clear, round, rounds8, started⟩ := seen
  have base : (roundBase s).thm.started = true := (congrArg Thm.started (thm_railAdjust s) :).trans h
  have judged := rounds_roundLevels (roundBase s) (roundSeen s).1 (roundSeen s).2 (by rw [roundSeen_eq])
  rw [stepAfter, w, tstep, clear, round, rounds8, started, h] at judged
  rw [roundJudge_eq, if_pos base]
  exact judged

theorem thm_roundEnd (s : State) : (roundEnd s).thm = (roundTurn (roundJudge s)).thm := by
  have same : (roundCounts (roundUnits (roundJudge s))).thm = (roundJudge s).thm := (thm_roundCounts _).trans (thm_roundUnits _)
  rw [roundEnd, roundTurn, same, roundTurn]

/-! ### A trip's self-refresh (R317) -/

/-- What a trip's entry does with one channel: SRE, unless it is in self-refresh. -/
def tripSleepChan (s : State) (c : Nat) : State := if (chan s c).pd == .selfRefresh then s else sleepChan s c

/-- Every channel has gone to self-refresh for a trip. -/
def tripAsleep (s : State) : State := forN (nChan s) tripSleepChan s

theorem tripSleepChan_onlyChans (s : State) (c : Nat) : OnlyChans s (tripSleepChan s c) := by
  unfold tripSleepChan
  split
  · exact .refl s
  · exact sleepChan_onlyChans s c

theorem tripSleepChan_other (s : State) (c d : Nat) (h : d ≠ c) : chan (tripSleepChan s c) d = chan s d := by
  unfold tripSleepChan
  split
  · rfl
  · exact (sleepChan_chanOnly s c).2 d h

theorem tripAsleep_onlyChans (s : State) : OnlyChans s (tripAsleep s) := forN_rel OnlyChans.refl OnlyChans.trans tripSleepChan_onlyChans ..

theorem chan_tripAsleep (s : State) {c : Nat} (hc : c < nChan s) :
    (chan (tripAsleep s) c).pd = .selfRefresh ∧
      ((chan s c).pd ≠ .selfRefresh → (chan (tripAsleep s) c).rowOut = (chan s c).rowOut ++ [(rowSlot s c, .sre ⟨chanFin c, 0⟩)]) := by
  obtain ⟨u, only, same, made⟩ := forN_each (v := chan) OnlyChans.refl OnlyChans.trans tripSleepChan_onlyChans
    (fun t i d hd => tripSleepChan_other t i d hd) s hc
  have slot : rowSlot u c = rowSlot s c := rowSlot_congr (by rw [same]) only.times
  rw [show chan (tripAsleep s) c = _ from made, tripSleepChan]
  by_cases asleep : (chan s c).pd = .selfRefresh
  · rw [if_pos (by rw [same, asleep]; rfl), same]
    exact ⟨asleep, fun h => absurd asleep h⟩
  · rw [if_neg (by simpa [same] using asleep), chan_sleepChan, same, slot]
    exact ⟨rfl, fun _ => rfl⟩

/-! ### A trip's end (R319) -/

/-- What the end of a trip releases, before the stack wakes. -/
def tripReleased (s : State) : State :=
  restartWindows { s with thm := { s.thm with tripPh := 0, hist := [] }, pins := { s.pins with thermTripN := true } }

/-- The write state that follows from write-forbid (Table 12-3). -/
def forbidFollowed (s : State) : State := if s.thm.forbid then forbidState s else setW s .open_

/-- What the end of a trip counts and logs. -/
def tripBooked (s : State) : State :=
  let s := setRegF (bumpReg s pgThm 0x05C 0 16 1) pgThm 0x05C 16 16 (min 65535 s.thm.tripRounds)
  logEv s 0x0502 pgThm .notice (BitVec.ofNat 32 s.thm.tripRounds)

theorem booked_tripBooked (s : State) : Booked s (tripBooked s) :=
  (booked_bumpReg ..).trans ((booked_setRegF ..).trans (booked_logEv ..))

theorem forbidState_booked (s : State) : ∃ w, (w = .brim ∨ w = .hold) ∧ Booked (setW s w) (forbidState s) := by
  unfold forbidState
  split
  · exact ⟨.brim, .inl rfl, (booked_latch ..).trans (booked_bumpReg ..)⟩
  · exact ⟨.hold, .inr rfl, .refl _⟩

theorem forbidFollowed_booked (s : State) : ∃ w, (s.thm.forbid = false → w = .open_) ∧ (s.thm.forbid = true → w = .brim ∨ w = .hold) ∧
    Booked (setW s w) (forbidFollowed s) := by
  unfold forbidFollowed
  by_cases forbid : s.thm.forbid = true
  · obtain ⟨w, follows, booked⟩ := forbidState_booked s
    rw [if_pos forbid]
    exact ⟨w, fun h => by simp [forbid] at h, fun _ => follows, booked⟩
  · rw [if_neg forbid]
    exact ⟨.open_, fun _ => rfl, fun h => absurd h forbid, .refl _⟩

/-- The state whose stack a trip's end has woken, where the stack is the block's to wake. -/
def tripWoken (s : State) : State := if linkLive (tripReleased s) then wakeStack (tripReleased s) else tripReleased s

theorem tripWoken_frame (s : State) : PowerFrame (tripReleased s) (tripWoken s) := by
  unfold tripWoken
  split
  · exact wakeStack_frame _
  · exact .refl _

theorem tripEnd_eq (s : State) (phase : s.thm.tripPh = 3) (run : s.clk.coreRun = true) :
    tripEnd s = tripBooked (forbidFollowed (tripWoken s)) := by
  unfold tripEnd
  rw [if_neg (by simp [phase, run])]
  rfl

/-! ### The settled statement -/

/-- The end of a round: the judged state, with the round turned. -/
theorem roundBoundary_turns (s : State) (started : s.thm.started = true) :
    (roundEnd s).thm.slot = 0 ∧ (roundEnd s).thm.round = s.thm.round + 1 ∧ (roundEnd s).thm.rounds8 = s.thm.rounds8 + 1 ∧
      (roundEnd s).thm.tstep = stepAfter s (throttleHolds (roundSeen s).2 (roundSeen s).1) := by
  have judged := rounds_roundJudge s started
  simp only [rounds, Prod.mk.injEq] at judged
  obtain ⟨tstep, round, rounds8, still⟩ := judged
  rw [thm_roundEnd]
  exact ⟨rfl, congrArg (· + 1) round, (if_pos still).trans (congrArg (· + 1) rounds8), tstep⟩

/-- Settles O49: TSTEP is judged before the rest of a round, and an induction over the channels for a trip's sleep and its end. -/
theorem roundsAndTrips : Obligations.RoundsAndTrips := by
  unfold Obligations.RoundsAndTrips
  refine ⟨⟨fun s wait => ?_, fun s slot due started => ?_⟩, fun s wait => ?_, fun s phase dead => ?_, fun s phase live drained => ?_,
    fun s wait => ?_, fun s phase run => ?_, fun s brim budget frac => ?_, fun s not => ?_⟩
  · exact congrArg Host.Outcome.next (if_pos wait)
  · exact ⟨roundEnd s, congrArg Host.Outcome.next (if_neg (by omega)), roundBoundary_turns s started⟩
  · refine congrArg Host.Outcome.next ?_
    unfold tripSleep
    by_cases phase : s.thm.tripPh = 1
    · obtain ⟨live, c, hc, busy⟩ := wait.resolve_left (absurd phase)
      have awake : ¬ (List.range (nChan s)).all (tripDrained s) = true := fun h =>
        absurd (List.all_eq_true.1 h c (List.mem_range.2 hc)) (by simp [busy])
      rw [if_neg (not_not.2 phase), if_neg (by simp [live]), if_neg awake]
    · exact if_pos phase
  · refine ⟨_, congrArg Host.Outcome.next ?_, rfl⟩
    unfold tripSleep
    rw [if_neg (not_not.2 phase), if_pos (by simp [dead])]
  · have all : (List.range (nChan s)).all (tripDrained s) = true := List.all_eq_true.2 fun c hc => drained c (List.mem_range.1 hc)
    have only := tripAsleep_onlyChans s
    have slept : tripSleep s = { tripAsleep s with thm := { (tripAsleep s).thm with tripPh := 2 } } := by
      unfold tripSleep
      rw [if_neg (not_not.2 phase), if_neg (by simp [live]), if_pos all]
      rfl
    have thm : (tripAsleep s).thm = s.thm := by rw [show tripAsleep s = _ from only]
    refine ⟨_, congrArg Host.Outcome.next slept, ?_, fun c hc => chan_tripAsleep s hc, ?_⟩
    · rw [thm]
    · rw [show tripAsleep s = _ from only]
  · refine congrArg Host.Outcome.next (if_pos ?_)
    simpa using wait
  · obtain ⟨w, opened, forbidden, booked⟩ := forbidFollowed_booked (tripWoken s)
    have woken : Booked { tripReleased s with chans := (tripWoken s).chans, cals := (tripWoken s).cals, link := (tripWoken s).link }
      (tripWoken s) := tripWoken_frame s
    have thm : (tripWoken s).thm = { s.thm with tripPh := 0, hist := [] } := thm_of_powerFrame (tripWoken_frame s)
    have whole : Booked (setW (tripWoken s) w) (tripEnd s) := by
      rw [tripEnd_eq s phase run]
      exact booked.trans (booked_tripBooked _)
    have thmEnd : (tripEnd s).thm = { (tripWoken s).thm with w := w } := thm_of_booked whole
    rw [thm] at opened forbidden
    refine ⟨tripEnd s, rfl, ?_, ?_, ?_, ?_, ?_⟩
    · exact (pins_of_booked whole).trans (pins_of_booked woken)
    · rw [thmEnd, thm]
    · rw [thmEnd]
      exact opened
    · rw [thmEnd]
      exact forbidden
    · exact whole.stack.trans (woken.stack :)
  · refine ⟨_, congrArg Host.Outcome.next (if_pos (by simp [brim, budget, frac])), (thm_latch ..).trans rfl, latch_bit _ pgThm 4 (by decide), ?_⟩
    rw [thm_latch]
    exact booked_latch ..
  · refine congrArg Host.Outcome.next (if_neg ?_)
    simp only [Bool.and_eq_true, beq_iff_eq, not_and_or]
    tauto

end Sys2Proof.Machine
end

section
/-! Readings of the temperature sensors, and the levels they act on (R302-R308, R317), and O48. -/

namespace Sys2Proof.Machine

/-! ### The record of a reading (R303) -/

theorem sensor_takeReading (s : State) (i : Nat) (r : Option (BitVec 16)) : sensor (takeReading s i r) i = (sensor s i).read r := by
  simp [sensor, takeReading, setSensor]

theorem heldVal_read (x : Sensor) (v : BitVec 16) (h : x.st = .good) : (x.read (some v)).heldVal = v.toInt := if_pos (.inl h)

/-- The reading of a GOOD sensor is its held value. -/
theorem heldVal_takeReading (s : State) (i : Nat) (v : BitVec 16) (h : (sensor s i).st = .good) :
    (sensor (takeReading s i (some v)) i).heldVal = v.toInt := by
  rw [sensor_takeReading, heldVal_read _ _ h]

theorem sensor_of_sens {s t : State} (h : t.thm.sens = s.thm.sens) (i : Nat) : sensor t i = sensor s i := by
  rw [sensor, h, sensor]

/-! ### BRIM's conditions (Table 12-3) -/

/-- A latch of THM is none of BRIM's conditions. -/
theorem brimOk_latch (s : State) (b : Nat) : brimOk (latch s pgThm b) = brimOk s := by
  have limits : reg (latch s pgThm b) pgThm 0x050 = reg s pgThm 0x050 := reg_latch_other s (by decide)
  have brim : reg (latch s pgThm b) pgThm 0x054 = reg s pgThm 0x054 := reg_latch_other s (by decide)
  have part : (latch s pgThm b).part = s.part := by rw [show latch s pgThm b = _ from booked_latch s pgThm b]
  have held : heldDram (latch s pgThm b) = heldDram s := by
    have sensors : sensor (latch s pgThm b) = sensor s := funext fun i => sensor_of_sens (congrArg Thm.sens (thm_latch ..)) i
    simp only [heldDram, dramSensors, part, sensors]
  refine decide_eq_decide.2 ?_
  simp only [brimDeg, brimTime, hotNow, coldNow, wrHi, wrLo, regF, limits, brim, held, thm_latch]

/-! ### The levels at a reading (R307, R308, R317, R351) -/

/-- No level acts before the first round boundary after step 8 of boot (R351, log 57). -/
theorem levelCheck_boot (s : State) (i : Nat) (h : s.thm.rounds8 = 0) : levelCheck s i = s := if_pos (by simp [h])

/-- No level acts at a reading of the block's or the base die. -/
theorem levelCheck_base (s : State) (i : Nat) (lo : 48 ≤ i) (hi : i < 64) : levelCheck s i = s := if_pos (by simp [lo, hi])

theorem levelCheck_dram (s : State) (i : Nat) (seen : (sensor s i).seen = true) (rounds : 0 < s.thm.rounds8) (dram : ¬(48 ≤ i ∧ i < 64)) :
    levelCheck s i = brimCheck (forbidCheck (tripCheck s i) (sensor s i).heldVal) (sensor s i).heldVal := by
  refine if_neg ?_
  simp only [seen, Nat.pos_iff_ne_zero.1 rounds, dram]
  decide

theorem tripCheck_calm (s : State) (i : Nat) (h : tripDue s i = false) : tripCheck s i = s := if_pos (by simp [h])

theorem brimDeg_nonneg (s : State) : 0 ≤ brimDeg s := by
  unfold brimDeg
  omega

theorem forbidCheck_inside (s : State) {v : Int} (lo : wrLo s ≤ v) (hi : v ≤ wrHi s) : forbidCheck s v = s := if_pos (by simp [lo, hi])

theorem brimCheck_inside (s : State) {v : Int} (lo : wrLo s ≤ v) (hi : v ≤ wrHi s) : brimCheck s v = s := by
  have warm : v ≤ wrHi s + brimDeg s := le_add_of_le_of_nonneg hi (brimDeg_nonneg s)
  exact if_neg (by simp [lo, warm])

theorem brimCheck_elsewhere (s : State) (v : Int) (h : s.thm.w ≠ .brim) : brimCheck s v = s := if_neg (by simp [h])

/-- Write-forbid, with nothing else of the levels. -/
def forbidden (s : State) : State := { s with thm := { s.thm with forbid := true } }

/-- A reading outside the limits starts write-forbid; where the state is OPEN and BRIM may not be taken, the state is HOLD (R308). -/
theorem forbidCheck_holds (s : State) {v : Int} (out : v < wrLo s ∨ wrHi s < v) (w : s.thm.w = .open_) (brim : brimOk (forbidden s) = false)
    (forbid : s.thm.forbid = false) : forbidCheck s v = setW (latch (forbidden s) pgThm 2) .hold := by
  have outside : ¬(wrLo s ≤ v ∧ v ≤ wrHi s) := by omega
  have opened : (latch (forbidden s) pgThm 2).thm.w = .open_ := (congrArg Thm.w (thm_latch ..)).trans w
  have cannot : brimOk (latch (forbidden s) pgThm 2) = false := (brimOk_latch ..).trans brim
  unfold forbidCheck
  rw [if_neg (by simp [forbid, outside])]
  change (if (latch (forbidden s) pgThm 2).thm.w == .open_ then forbidState (latch (forbidden s) pgThm 2) else latch (forbidden s) pgThm 2) = _
  rw [opened, forbidState, cannot]
  rfl

section Reading

variable {s : State} {i : Nat} (seen : (sensor s i).seen = true) (rounds : 0 < s.thm.rounds8) (dram : ¬(48 ≤ i ∧ i < 64))
  (calm : tripDue s i = false)

include seen rounds dram calm

theorem levelCheck_inside (lo : wrLo s ≤ (sensor s i).heldVal) (hi : (sensor s i).heldVal ≤ wrHi s) : levelCheck s i = s := by
  rw [levelCheck_dram s i seen rounds dram, tripCheck_calm s i calm, forbidCheck_inside s lo hi, brimCheck_inside s lo hi]

theorem levelCheck_holds (out : (sensor s i).heldVal < wrLo s ∨ wrHi s < (sensor s i).heldVal) (w : s.thm.w = .open_)
    (brim : brimOk (forbidden s) = false) (forbid : s.thm.forbid = false) :
    levelCheck s i = setW (latch (forbidden s) pgThm 2) .hold := by
  rw [levelCheck_dram s i seen rounds dram, tripCheck_calm s i calm, forbidCheck_holds s out w brim forbid]
  exact brimCheck_elsewhere _ _ (by decide : WSt.hold ≠ .brim)

end Reading

/-! ### The trip (R317) -/

theorem thm_drainChan (s : State) (c : Nat) : (drainChan s c).thm = s.thm :=
  (thm_of_powerFrame (KeepsPower.sweepAbandonOn (pdWake s c) c).frame).trans (thm_of_powerFrame (.of_chanOnly (pdWake_chanOnly s c)))

theorem thm_abandonRepair (s : State) : (abandonRepair s).thm = s.thm := by
  unfold abandonRepair
  split <;> rfl

/-- The thermal record when a trip starts. -/
def tripThm (x : Thm) : Thm :=
  { x with w := .trip, tstep := 7, clear := 0, tripPh := 1, tripRounds := 0, tripClear := 0, tripWait := false }

theorem thm_tripStart (s : State) (i : Nat) : (tripStart s i).thm = tripThm s.thm := by
  have drain (t : State) : (if linkLive t then forN (nChan t) drainChan t else t).thm = t.thm := by
    rw [thm_ite, thm_forN _ _ _ thm_drainChan, ite_self]
  refine (drain _).trans ((thm_overrides _).trans ((thm_abandonRepair _).trans (congrArg tripThm ?_)))
  simp [thm_ite]

theorem tripStart_pin (s : State) (i : Nat) : (tripStart s i).pins.thermTripN = false :=
  congrArg (fun k => k.2.2.1.thermTripN) (tripStart_key s i)

theorem tripCheck_starts (s : State) (i : Nat) (due : tripDue s i = true) (w : s.thm.w ≠ .trip) (freq : s.hk.freq = .none) :
    tripCheck s i = tripStart s i := by
  unfold tripCheck
  rw [if_neg (by simp [due, w]), if_pos (by simp [freq])]

/-- In TRIP a reading outside the limits starts write-forbid alone. -/
theorem forbidCheck_trip (s : State) (v : Int) (w : s.thm.w = .trip) :
    forbidCheck s v = s ∨ forbidCheck s v = latch (forbidden s) pgThm 2 := by
  have still : (latch (forbidden s) pgThm 2).thm.w = .trip := (congrArg Thm.w (thm_latch ..)).trans w
  unfold forbidCheck
  split
  · exact .inl rfl
  · refine .inr ?_
    change (if (latch (forbidden s) pgThm 2).thm.w == .open_ then forbidState (latch (forbidden s) pgThm 2) else latch (forbidden s) pgThm 2) = _
    rw [still]
    rfl

/-- A state in TRIP at TSTEP 7, its pin low, with the sensors of another. -/
def TripsFrom (s t : State) : Prop := t.thm.w = .trip ∧ t.thm.tstep = 7 ∧ t.pins.thermTripN = false ∧ t.thm.sens = s.thm.sens

theorem levelCheck_trips (s : State) (i : Nat) (seen : (sensor s i).seen = true) (rounds : 0 < s.thm.rounds8) (dram : ¬(48 ≤ i ∧ i < 64))
    (due : tripDue s i = true) (w : s.thm.w ≠ .trip) (freq : s.hk.freq = .none) : TripsFrom s (levelCheck s i) := by
  have thm := thm_tripStart s i
  have pin := tripStart_pin s i
  have started : TripsFrom s (tripStart s i) := ⟨by rw [thm]; rfl, by rw [thm]; rfl, pin, by rw [thm]; rfl⟩
  have trip : (tripStart s i).thm.w = .trip := started.1
  have forbid : TripsFrom s (forbidCheck (tripStart s i) (sensor s i).heldVal) := by
    rcases forbidCheck_trip (tripStart s i) (sensor s i).heldVal trip with h | h
    · rw [h]
      exact started
    · have booked := booked_latch (forbidden (tripStart s i)) pgThm 2
      rw [h, TripsFrom, thm_of_booked booked, pins_of_booked booked]
      exact started
  rw [levelCheck_dram s i seen rounds dram, tripCheck_starts s i due w freq, brimCheck_elsewhere _ _ (by rw [forbid.1]; decide)]
  exact forbid

/-! ### The answer of the stack (R221, R303) -/

theorem sbNext_frame (s : State) : sbNext s = { s with link := (sbNext s).link } := by
  unfold sbNext
  rw [sbStart_frame]

theorem thm_sbNext (s : State) : (sbNext s).thm = s.thm := by rw [sbNext_frame]

theorem pins_sbNext (s : State) : (sbNext s).pins = s.pins := by rw [sbNext_frame]

theorem dram_regSensor {a : Nat} (lo : 0x100 ≤ a) (hi : a < 0x140) : ¬(48 ≤ regSensor a ∧ regSensor a < 64) := by
  unfold regSensor
  split <;> omega

theorem polled_temp (s : State) {a : Nat} {w : Word} (hi : a < 0x140) (valid : w.getLsbD 16 = true) :
    polled s a (some w) = levelCheck (takeReading s (regSensor a) (some (field w 0 16))) (regSensor a) := by
  unfold polled
  rw [if_neg (by omega)]
  simp only [valid, if_true]

/-- A sensor's register, read by housekeeping, is a reading of its sensor. -/
theorem sbTake_temp (s : State) {x : Sb} {w : Word} (ws : List Word) (cmd : x.cmd = 1) (user : x.user = 1) (hi : x.addr.toNat < 0x140)
    (valid : w.getLsbD 16 = true) : sbTake s x true 0#8 (w :: ws) =
      sbNext (levelCheck (takeReading (sbAlive s) (regSensor x.addr.toNat) (some (field w 0 16))) (regSensor x.addr.toNat)) := by
  have deliver : sbDeliver (sbAlive s) x (w :: ws) = polled (sbAlive s) x.addr.toNat (some w) := by
    simp only [sbDeliver, cmd, user, if_true, List.headD_cons]
  have noPoll : sbPoll x (w :: ws) = false := by simp [sbPoll, cmd]
  rw [← polled_temp (sbAlive s) hi valid, ← deliver]
  simp only [sbTake, noPoll]
  rfl

/-- The state after a reading, before its levels. -/
def heard (s : State) (a : Nat) (w : Word) : State := takeReading s (regSensor a) (some (field w 0 16))

section Answer

variable {s : State} {x : Sb} {w : Word} {ws : List Word} (cur : s.link.cur = some x) (cmd : x.cmd = 1) (user : x.user = 1)
  (resp : x.resp = some (0#8, w :: ws)) (hi : x.addr.toNat < 0x140) (valid : w.getLsbD 16 = true)

include cur cmd user resp hi valid

theorem sbResponse_temp : sbResponse s 0 = sbNext (levelCheck (sbAlive (heard s x.addr.toNat w)) (regSensor x.addr.toNat)) :=
  (sbResponse_clear cur resp).trans (sbTake_temp s ws cmd user hi valid)

theorem thm_sbResponse : (sbResponse s 0).thm = (levelCheck (sbAlive (heard s x.addr.toNat w)) (regSensor x.addr.toNat)).thm := by
  rw [sbResponse_temp cur cmd user resp hi valid, thm_sbNext]

theorem pins_sbResponse : (sbResponse s 0).pins = (levelCheck (sbAlive (heard s x.addr.toNat w)) (regSensor x.addr.toNat)).pins := by
  rw [sbResponse_temp cur cmd user resp hi valid, pins_sbNext]

end Answer

/-! ### A slot (R302) -/

theorem thm_poll (s : State) (a : Nat) : (poll s a).thm = s.thm := by
  simp [poll, thm_ite]

theorem thm_showTemp (s : State) (a : Nat) (r : Option (BitVec 16)) : (showTemp s a r).thm = s.thm :=
  thm_forN _ _ s fun _ _ => modStk_thm ..

theorem link_showTemp (s : State) (a : Nat) (r : Option (BitVec 16)) : (showTemp s a r).link = s.link :=
  forN_rel (r := fun s t => t.link = s.link) (fun _ => rfl) (fun a b => b.trans a) (fun _ _ => modStk_link ..) (nChan s) s

/-- A poll on a free sideband starts at once, and leaves the stack. -/
theorem poll_starts {s : State} (cur : s.link.cur = none) (queue : s.link.queue = []) (a : Nat) : (poll s a).stack = s.stack ∧
    ∃ x, (poll s a).link.cur = some x ∧ x.cmd = 1 ∧ x.user = 1 ∧ x.ch = sbAll ∧ x.addr = BitVec.ofNat 24 a := by
  have free : poll s a = sbQueue s 1 1 sbAll a 0 [] := if_neg (by simp [cur, queue])
  rw [free]
  refine ⟨by rw [sbQueue_frame], ?_⟩
  simp only [sbQueue, sbStart, cur, queue]
  exact ⟨_, rfl, rfl, rfl, rfl, rfl⟩

theorem base_of_sensorReg {i : Nat} (h : sensorReg i = none) : 48 ≤ i ∧ i < 64 := by
  unfold sensorReg at h
  split at h
  · simp at h
  · split at h
    · simp at h
    · split at h
      · omega
      · simp at h

theorem slotReading_stack {s : State} {i a : Nat} (r : Option (BitVec 16)) (slot : slotSensor s = some i) (own : sensorReg i = some a) :
    slotReading s r = poll (showTemp s a r) a := by
  simp only [slotReading, slot, own]

theorem slotReading_die {s : State} {i : Nat} (r : Option (BitVec 16)) (slot : slotSensor s = some i) (own : sensorReg i = none) :
    slotReading s r = takeReading s i r := by
  obtain ⟨lo, hi⟩ := base_of_sensorReg own
  simp only [slotReading, slot, own]
  exact levelCheck_base _ i lo hi

theorem slot_pmbSlot (s : State) (ks : List Nat) : (pmbSlot s ks).thm.slot = s.thm.slot ∧ (pmbSlot s ks).thm.slotAt = s.thm.slotAt := by
  unfold pmbSlot
  split <;> exact ⟨rfl, rfl⟩

/-- A slot's measurement leaves the count of slots. -/
theorem slot_slotReading (s : State) (r : Option (BitVec 16)) :
    (slotReading s r).thm.slot = s.thm.slot ∧ (slotReading s r).thm.slotAt = s.thm.slotAt := by
  have same {t : State} (h : t.thm = s.thm) : t.thm.slot = s.thm.slot ∧ t.thm.slotAt = s.thm.slotAt := by rw [h]; exact ⟨rfl, rfl⟩
  cases slot : slotSensor s with
  | some i =>
    cases own : sensorReg i with
    | some a =>
      rw [slotReading_stack r slot own]
      exact same ((thm_poll ..).trans (thm_showTemp ..))
    | none =>
      rw [slotReading_die r slot own]
      exact ⟨rfl, rfl⟩
  | none =>
    unfold slotReading
    simp only [slot]
    split
    · exact slot_pmbSlot s _
    · exact slot_pmbSlot s _
    · exact same ((thm_poll ..).trans rfl)
    · exact slot_pmbSlot s _
    · exact ⟨rfl, rfl⟩

/-- The state after a slot's measurement: the next slot begins 16 µs later. -/
def slotTaken (s : State) (r : Option (BitVec 16)) : State :=
  let t := slotReading s r
  { t with thm := { t.thm with slot := t.thm.slot + 1, slotAt := t.thm.slotAt + slotTicks } }

theorem slotTaken_stack {s : State} {i a : Nat} (r : Option (BitVec 16)) (slot : slotSensor s = some i) (reg : sensorReg i = some a)
    (cur : s.link.cur = none) (queue : s.link.queue = []) :
    Tab.get (slotTaken s r).stack.temps a 0#32 = (match r with | some v => wordOf [(0, v.toNat), (16, 1)] | none => 0#32) ∧
      (slotTaken s r).thm = { s.thm with slot := (slotTaken s r).thm.slot, slotAt := (slotTaken s r).thm.slotAt } ∧
      ∃ x, (slotTaken s r).link.cur = some x ∧ x.cmd = 1 ∧ x.user = 1 ∧ x.ch = sbAll ∧ x.addr = BitVec.ofNat 24 a := by
  have link := link_showTemp s a r
  obtain ⟨stack, started⟩ := poll_starts (s := showTemp s a r) (by rw [link, cur]) (by rw [link, queue]) a
  have thm : (poll (showTemp s a r) a).thm = s.thm := (thm_poll ..).trans (thm_showTemp ..)
  unfold slotTaken
  rw [slotReading_stack r slot reg]
  refine ⟨?_, ?_, started⟩
  · exact (congrArg (fun x : Stack => Tab.get x.temps a 0#32) stack).trans (Tab.get_put_self ..)
  · dsimp only
    rw [thm]

/-! ### What an answer changes is not what the levels judge -/

theorem wrLo_heard (s : State) (a : Nat) (w : Word) : wrLo (sbAlive (heard s a w)) = wrLo s := by
  rw [wrLo, reg_of_regs (s := s) (t := sbAlive (heard s a w)) rfl rfl, wrLo]

theorem wrHi_heard (s : State) (a : Nat) (w : Word) : wrHi (sbAlive (heard s a w)) = wrHi s := by
  rw [wrHi, reg_of_regs (s := s) (t := sbAlive (heard s a w)) rfl rfl, wrHi]

theorem brimOk_sbAlive (s : State) : brimOk (forbidden (sbAlive s)) = brimOk (forbidden s) := by
  have regs (off : Nat) : reg (forbidden (sbAlive s)) pgThm off = reg (forbidden s) pgThm off := reg_of_regs rfl rfl ..
  refine decide_eq_decide.2 ?_
  simp only [brimDeg, brimTime, wrHi, wrLo, regF, regs]
  rfl

/-! ### The settled statement -/

/-- Settles O48: a slot's measurement, then the levels at a reading, by the state they find. -/
theorem sensorReadingsActOnTheLevels : Obligations.SensorReadingsActOnTheLevels := by
  unfold Obligations.SensorReadingsActOnTheLevels
  refine ⟨fun s r => ⟨fun wait => congrArg Host.Outcome.next (if_pos wait), fun slots due => ?_⟩, fun s x w ws cur cmd user resp lo hi valid => ?_⟩
  · obtain ⟨slot, slotAt⟩ := slot_slotReading s r
    refine ⟨slotTaken s r, congrArg Host.Outcome.next (if_neg (by omega)), congrArg (· + 1) slot, congrArg (· + slotTicks) slotAt,
      fun i a picks reg cur queue => slotTaken_stack r picks reg cur queue, fun i v picks own some good => ?_⟩
    subst some
    have taken : sensor (slotTaken s (some v)) i = sensor (takeReading s i (some v)) i :=
      sensor_of_sens (congrArg (fun t : State => t.thm.sens) (slotReading_die (some v) picks own) :) i
    rw [taken, sensor_takeReading]
    exact ⟨heldVal_read _ v good, rfl⟩
  · intro i v u good
    have thm := thm_sbResponse cur cmd user resp hi valid
    have pins := pins_sbResponse cur cmd user resp hi valid
    have lower : wrLo (sbAlive u) = wrLo s := wrLo_heard s x.addr.toNat w
    have upper : wrHi (sbAlive u) = wrHi s := wrHi_heard s x.addr.toNat w
    rw [show heard s x.addr.toNat w = u from rfl] at thm pins
    have held : (sensor (sbAlive u) i).heldVal = v := heldVal_takeReading s i _ good
    have seen : (sensor (sbAlive u) i).seen = true := (congrArg Sensor.seen (sensor_takeReading s i (some (field w 0 16))) :)
    have dram : ¬(48 ≤ i ∧ i < 64) := dram_regSensor lo hi
    have answered (h : (sbResponse s 0).thm.sens = u.thm.sens) : (sensor (sbResponse s 0) i).heldVal = v :=
      congrArg Sensor.heldVal (sensor_of_sens h i) |>.trans held
    refine ⟨fun boot => ?_, fun rounds calm => ⟨fun above below => ?_, fun out open_ brim forbid => ?_⟩, fun rounds due notTrip freq => ?_⟩
    · rw [levelCheck_boot (sbAlive u) _ boot] at thm pins
      exact ⟨sbResponse s 0, rfl, answered (by rw [thm]; rfl), by rw [thm]; rfl, pins⟩
    · rw [levelCheck_inside seen rounds dram calm (by rwa [held, lower]) (by rwa [held, upper])] at thm pins
      exact ⟨sbResponse s 0, rfl, answered (by rw [thm]; rfl), by rw [thm]; rfl, by rw [thm]; rfl, pins⟩
    · rw [levelCheck_holds seen rounds dram calm (by rwa [held, lower, upper]) open_ ((brimOk_sbAlive u).trans brim) forbid] at thm pins
      have latched := booked_latch (forbidden (sbAlive u)) pgThm 2
      rw [setW, thm_of_booked latched] at thm
      rw [setW, pins_of_booked latched] at pins
      exact ⟨sbResponse s 0, rfl, answered (by rw [thm]; rfl), by rw [thm]; rfl, by rw [thm], pins⟩
    · obtain ⟨trip, step, pin, sens⟩ := levelCheck_trips (sbAlive u) i seen rounds dram due notTrip freq
      exact ⟨sbResponse s 0, rfl, answered (by rw [thm]; exact sens), by rw [thm, trip], by rw [thm, step], by rw [pins, pin]⟩

end Sys2Proof.Machine
end
